-- ==== Sys2Proof/Word.lean ====
section
/-! DEFINITION. The word types of the module and their plainest arithmetic (R4: every multi-byte quantity is
little-endian, bit 0 is the least significant bit). -/

namespace Sys2Proof

/-- One byte of module memory, of a descriptor or of a message. -/
abbrev Byte := BitVec 8

/-- One 32-bit register of the window (R28). -/
abbrev Word := BitVec 32

/-- One 64-bit quantity (an address pair, a page-table entry, global time). -/
abbrev DWord := BitVec 64

/-- The number `v` as `n` little-endian bytes (R4). -/
def leBytes : Nat → Nat → List Byte
  | 0, _ => []
  | n + 1, v => BitVec.ofNat 8 v :: leBytes n (v / 256)

/-- The number that little-endian bytes spell (R4). -/
def leNat : List Byte → Nat
  | [] => 0
  | b :: bs => b.toNat + 256 * leNat bs

/-- Bits `[hi:lo]` of a number. -/
def bitsOf (v hi lo : Nat) : Nat := v / 2 ^ lo % 2 ^ (hi + 1 - lo)

/-- Bit `n` of a number. -/
def bitOf (v n : Nat) : Bool := v.testBit n

/-- A `w`-bit number read as two's complement. -/
def signedOf (w v : Nat) : Int := if v % 2 ^ w < 2 ^ (w - 1) then (v % 2 ^ w : Nat) else (v % 2 ^ w : Nat) - (2 ^ w : Nat)

/-- The two's complement `w`-bit code of an integer. -/
def toSigned (w : Nat) (z : Int) : Nat := (z % (2 ^ w : Nat)).toNat

end Sys2Proof
end

