-- ==== Sys2Proof/Syntax.lean ====
section
/-! DEFINITION. The commands that reach the module from outside, or that it takes of its own accord: one constructor per
row of the opcode table, with the operands the event supplies. What a command waits in is State.pending. -/

namespace Sys2Proof

/-- The requesters of the register window (R26). -/
inductive Req where
  | portA | portB | handler
  deriving DecidableEq, Repr

/-- The two PCIe ports (R25). -/
inductive Port where
  | a | b
  deriving DecidableEq, Repr

/-- The stage units of a quadrant, in the order of the completion record's unit field (R55). -/
inductive StageUnit where
  | spl | rtv | emb | pck | muz | srv
  deriving DecidableEq, Repr

/-- What owns queues: a core, or a stage unit of a quadrant (R55, R75). -/
inductive Eng where
  | core (n : Fin 48)
  | stage (d : Fin 4) (u : StageUnit)
  deriving DecidableEq, Repr

/-- The kill causes 1 to 6 of Qn_STAT.kill_cause (R75). -/
inductive KillCause where
  | fault | preempt | specReject | group | runtime | reset
  deriving DecidableEq, Repr

/-- A change that a packet carries beside writes and adoption records (R375, R385, R386): a table's generation; a conversation
record of a quadrant's table; a tenant's budget record. -/
inductive MirrorChange where
  | generation (slot value : Nat)
  | conversation (d n : Nat) (bytes : List Byte)
  | budget (tenant : Nat) (bytes : List Byte)
  deriving DecidableEq, Repr

/-- A mirror packet as it arrives from the twin (R382): its byte count, the adoption record it concerns (R387; none for a
packet with no queue), the writes of the commit, and the fields of the adoption record that its commit record carries, as
byte offset and bytes; `complete` tells whether the commit record has arrived (R384). -/
structure MirrorPacket where
  size : Nat
  record : Option (Fin 1536)
  writes : List (Nat × List Byte)
  updates : List (Nat × List Byte)
  changes : List MirrorChange
  complete : Bool
  deriving DecidableEq, Repr

/-- A hello flit (R394), with the module and port it comes from, by which the receiver sees a miscabled link (R400). -/
structure HelloMsg where
  serial : DWord
  major : BitVec 8
  role : Bool
  pair : Fin 4
  nPairs : Fin 4
  owned : BitVec 12
  state : Fin 8
  port : Fin 4
  deriving DecidableEq, Repr

/-- A gather's batch as it reaches an EMB from another module (R290): table, snapshot and rows. -/
structure FarBatch where
  table : Fin 64
  snapshot : Bool
  rows : List Word
  deriving DecidableEq, Repr

/-- What one LPDDR6 device of a channel reads (R100), in °C. -/
structure DeviceTemp where
  dev : Fin 256
  temp : BitVec 8
  deriving DecidableEq, Repr

/-- Whose batch an EMB serves (R290): the next one of queue `q` of its own module's EMBd for an owner, or one that comes by Leash port `p`. -/
inductive ExchSrc where
  | queue (q : Fin 4) (module : Fin 8) (quad : Fin 4)
  | leash (p : Fin 4) (b : FarBatch)
  deriving DecidableEq, Repr

/-- What a member's test found about one row, signature or column (R474). -/
structure FailRow where
  inst : BitVec 8
  logic : Bool
  address : Word
  bit : BitVec 16
  more : Bool
  deriving DecidableEq, Repr

/-- The commands. -/
inductive Instr where
  -- Register Pages and Address Map
  /-- REGISTER_WRITE (R34): A write to a register that has no row of its own stores or discards the value according to its access code. Operand: size bytes (at least 1) of value v written at BAR0 offset off. -/
  | registerWrite (r : Req) (off : Nat) (size : Nat) (v : Nat)
  /-- READ_CLEAR (R34): A read of an RC register returns its value and clears it in the same access, losing no event. Operand: a read of size bytes (at least 1) at BAR0 offset off. -/
  | readClear (r : Req) (off : Nat) (size : Nat)
  /-- LO_READ (R37): A read of the LO half of a 64-bit register returns bits [31:0] and fills the requester's shadow with bits [63:32]. Operand: offset of the LO register. -/
  | loRead (r : Req) (off : Nat)
  /-- HI_READ (R37): A read of the HI half returns the shadow when its tag matches, and the live upper half otherwise. Operand: offset of the HI register. -/
  | hiRead (r : Req) (off : Nat)
  /-- LO_WRITE (R38): A write of the LO half of an RW 64-bit register fills the requester's tagged staging register. Operand: offset of the LO register. -/
  | loWrite (r : Req) (off : Nat) (v : Word)
  /-- HI_WRITE (R38): A write of the HI half replaces all 64 bits at once and empties the staging register. Operand: offset of the HI register. -/
  | hiWrite (r : Req) (off : Nat) (v : Word)
  /-- PAGE_ENABLE (R40): A write of PAGE_CTL.enable starts or stops the issue of new work by the block. Operand: PAGE_CTL value without GO bits. -/
  | pageEnable (r : Req) (page : Nat) (v : Word)
  /-- SOFT_RESET (R41): A write of PAGE_CTL.soft_reset sets reset_active and starts the block's soft reset. Operand: PAGE_CTL value; bit 1 is written 1. -/
  | softReset (r : Req) (page : Nat) (v : Word)
  /-- SOFT_RESET_DONE (R41): Once any Hitch in progress has completed, the block kills its uncommitted work, restores its reset values and clears reset_active. -/
  | softResetDone (page : Nat)
  /-- DRAIN_COMPLETE (R40): Issued work of a disabled block or queue drains; busy falls to 0 and the queue reads DISABLED. -/
  | drainComplete (e : Eng) (q : Fin 8)
  /-- STEP_MODE (R489): A write of PAGE_CTL.step_mode sets or releases the single-step hold of the page. Operand: PAGE_CTL value without GO bits. -/
  | stepMode (r : Req) (page : Nat) (v : Word)
  /-- STEP (R489): A write of PAGE_CTL.step in step mode issues exactly one command, and the page then holds again. Operand: PAGE_CTL value; bit 3 is written 1. -/
  | step (r : Req) (page : Nat) (v : Word)
  /-- HOST_ABI (R46): A write of the banked GLB.HOST_ABI recomputes ABI_AGREED and the mismatch flags. -/
  | hostAbi (r : Req) (v : Word)
  -- Commands, Queues, Commit and Kill
  /-- QUEUE_TAIL_WRITE (R57): A write of Qn_TAIL is accepted or discarded against ISSUE, COMMIT and the ring size, and records the submitting requester. -/
  | queueTailWrite (r : Req) (e : Eng) (q : Fin 8) (v : Word)
  /-- COMMAND_ISSUE (R59): The Shepherd or stage unit grants a queue whose head meets the issue conditions, checks the descriptor and issues it, or skips it on its predicate. -/
  | commandIssue (e : Eng)
  /-- REJECTED_COMMAND_HALT (R60): Once the rejected command is the oldest uncommitted command, later commands are killed, the queue halts, ERR_FIRST is set and the record is written. -/
  | rejectedCommandHalt (e : Eng) (q : Fin 8)
  /-- AUTO_PREEMPT (R63): A ready head of lower level meets a unit that is running a higher-level preemptible command, which is killed with cause preempt. -/
  | autoPreempt (n : Fin 48)
  /-- GROUP_OVERFLOW (R65): A queue window fills while its head waits for a set whose GROUP_END lies beyond the window; the set is killed and the queue halts. -/
  | groupOverflow (n : Fin 48) (q : Fin 8)
  /-- NOP (R68): A NOP command completes with no effect. -/
  | nop (e : Eng) (q : Fin 8)
  /-- CTX_LOAD (R66): CTX_LOAD loads a context block for the queue, including the Muzzle grammar header copy, and commits it to Q_CTX at Hitch. -/
  | ctxLoad (e : Eng) (q : Fin 8)
  /-- SET_PRED (R68): SET_PRED writes the masked predicate bits at Hitch. -/
  | setPred (n : Fin 48) (q : Fin 8)
  /-- SIGNAL (R68): SIGNAL adds an increment to a semaphore of the named core at Hitch. -/
  | signal (n : Fin 48) (q : Fin 8)
  /-- WAIT_MEM (R68): WAIT_MEM repeats a memory read until the masked word equals the expected value. -/
  | waitMem (n : Fin 48) (q : Fin 8)
  /-- WAIT_TIMEOUT (R68): A WAIT_MEM reaches its timeout first and ends with WAIT_TIMEOUT, halting its queue. -/
  | waitTimeout (n : Fin 48) (q : Fin 8)
  /-- GROUP_END (R64): GROUP_END closes the set of its group and spec_step on its core. -/
  | groupEnd (n : Fin 48) (q : Fin 8)
  /-- TRACE_MARK (R68): TRACE_MARK emits Syrov MARK records at issue and at Hitch. -/
  | traceMark (e : Eng) (q : Fin 8)
  /-- PEER_SEND (R68): PEER_SEND forwards bytes from a result slot or memory into a peer core's landing area and sets arrival bits. -/
  | peerSend (n : Fin 48) (q : Fin 8)
  /-- LANDING_ARRIVAL (R53): Granules arriving in a landing area set arrival bits and release a reader waiting in the operand loader. Operand: the oldest landing on its way to core n. -/
  | landingArrival (n : Fin 48)
  /-- HITCH (R70): A command at COMMIT whose gate opens locks its destination pages, writes out its results, advances COMMIT, releases its locks and writes its record. -/
  | hitch (n : Fin 48) (q : Fin 8)
  /-- COMPLETION_RECORD_WRITE (R69): A completion record that waited for ring space is written once an entry frees. -/
  | completionRecordWrite (e : Eng) (q : Fin 8)
  /-- KILL (R72): A kill of a queue aborts its uncommitted commands, returns semaphores and tagged increments, restores the context and sets ISSUE to COMMIT. -/
  | kill (e : Eng) (q : Fin 8) (cause : KillCause)
  /-- SPEC_REJECT (R64): A reject of step s of a group kills that step and the later steps of the group on every core and stage unit. -/
  | specReject (g : Fin 256) (step : Fin 4)
  /-- SPEC_CONFIRM (R64): A confirmation of a group step marks it confirmed and turns its tagged increments into ordinary ones. -/
  | specConfirm (g : Fin 256) (step : Fin 4)
  /-- QUEUE_KILL (R75): A write of Qn_CTL.kill kills the queue with cause runtime, and the queue stays RUNNING. Operand: Qn_CTL value; bit 4 is written 1. -/
  | queueKill (r : Req) (e : Eng) (q : Fin 8) (v : Word)
  /-- QUEUE_SKIP (R60): A write of Qn_CTL.skip to a HALTED queue advances ISSUE and COMMIT past the slot and resumes the queue. Operand: Qn_CTL value; bit 3 is written 1. -/
  | queueSkip (r : Req) (e : Eng) (q : Fin 8) (v : Word)
  /-- QUEUE_PREEMPT (R74): A write of Qn_CTL.preempt kills the queue with cause preempt and leaves it PAUSED. Operand: Qn_CTL value; bit 2 is written 1. -/
  | queuePreempt (r : Req) (e : Eng) (q : Fin 8) (v : Word)
  /-- QUEUE_RESUME (R74): A write of Qn_CTL.resume returns a PAUSED or HALTED queue to RUNNING. Operand: Qn_CTL value; bit 1 is written 1. -/
  | queueResume (r : Req) (e : Eng) (q : Fin 8) (v : Word)
  /-- QUEUE_ENABLE (R74): A write of Qn_CTL.enable enables a queue from COMMIT with a context reload, or starts disabling it. Operand: Qn_CTL value without GO bits. -/
  | queueEnable (r : Req) (e : Eng) (q : Fin 8) (v : Word)
  /-- QUEUE_COMMIT_WRITE (R74): A write of Q_COMMIT to a PAUSED or disabled queue sets COMMIT and ISSUE and resets the submitter records. -/
  | queueCommitWrite (r : Req) (e : Eng) (q : Fin 8) (v : Word)
  /-- CQ_HEAD_WRITE (R77): A write of Qn_CQ_HEAD frees completion-ring entries, or is discarded if it passes CQ_TAIL. -/
  | cqHeadWrite (r : Req) (e : Eng) (q : Fin 8) (v : Word)
  -- Memory Tiers, Translation and Migration
  /-- TLB_INVALIDATE (R88): A write of INVAL_CTL.go starts a module-wide invalidation of matching TLB entries. Operand: INVAL_CTL value; bit 0 is written 1. -/
  | tlbInvalidate (r : Req) (m : Fin 4) (v : Word)
  /-- INVALIDATION_DONE (R88): Once no TLB holds a match and dependent accesses and locks have ended, busy falls and the invalidation interrupt is raised. -/
  | invalidationDone (m : Fin 4)
  /-- FAULT_RECORD_WRITE (R91): A pending fault record is written to the ring once space appears, or after FAULT_SIZE is written following a slice reset. -/
  | faultRecordWrite (m : Fin 4)
  /-- FAULT_CLEAR (R92): A write of FAULT_CLEAR releases the named held master to retry. -/
  | faultClear (r : Req) (m : Fin 4) (v : Word)
  /-- SCRUB (R99): The periodic scrub reads each line of a channel and writes back corrected data. Operand: lines corrected in the pass, and the LPDDR6 addresses of lines found uncorrectable. -/
  | scrub (k : Fin 16) (c : Fin 8) (corrected : Nat) (bad : List Nat)
  /-- REFRESH_DOUBLED (R100): A device reaching 85 °C doubles refresh on its channel and raises the refresh interrupt. Operand: the device of the channel, and what it reads in °C. -/
  | refreshDoubled (k : Fin 16) (c : Fin 8) (read : DeviceTemp)
  /-- MREQ_TAIL_WRITE (R521): A write of MREQ_TAIL is accepted or discarded against MREQ_HEAD and the ring size. -/
  | mreqTailWrite (r : Req) (v : Word)
  /-- MIGRATION_REQUEST (R101): The migration engine takes the next request in ring order and dispatches it by op. -/
  | migrationRequest
  /-- MOVE (R102): A MOVE page reads and tests its entry and fences Hitch locks on the page. Operand: move number i of those in flight. -/
  | move (i : Fin 8)
  /-- MOVE_COPY (R102): After the locks are released, the page is marked moving, invalidated and copied to the new frame. -/
  | moveCopy (i : Fin 8)
  /-- MOVE_FLIP (R102): After the copy, the entry flips to the new frame, quotas are adjusted and waiting writes are released. -/
  | moveFlip (i : Fin 8)
  /-- MOVE_COMPLETE (R102): After old-frame reads return, the outcome and pages_done are written and the interrupt is raised. -/
  | moveComplete (i : Fin 8)
  /-- CHARGE (R104): CHARGE adds pages to a tenant's used count in a tier, or refuses with outcome 2. -/
  | charge
  /-- RELEASE (R104): RELEASE subtracts pages from a tenant's used count, stopping at zero. -/
  | release
  /-- PREFETCH_TAIL_WRITE (R521): A write of PFs_TAIL is accepted or discarded against PFs_HEAD and the ring size. -/
  | prefetchTailWrite (r : Req) (s : Fin 16) (v : Word)
  /-- PREFETCH_ENTRY_ISSUE (R106): A stream's head entry issues its copy once it is within runahead and its gate has opened. -/
  | prefetchEntryIssue (s : Fin 16)
  /-- PREFETCH_ENTRY_COMPLETE (R106): A prefetch copy completes, and its semaphore signal is sent in ring order. -/
  | prefetchEntryComplete (s : Fin 16)
  /-- AGE_REFRESH (R109): Every AGE_REFRESH period, TLB entries of pool pages are dropped so that pages in use are restamped. -/
  | ageRefresh
  /-- SCAN (R110): A write of SCAN_CTL.go starts a scan of a tier's age array for frames older than SCAN_THRESH. Operand: SCAN_CTL value; bit 0 is written 1. -/
  | scan (r : Req) (v : Word)
  /-- SCAN_DONE (R110): The scan writes its frame addresses, sets SCAN_FOUND and raises TIER source 0. -/
  | scanDone
  -- DMA Channels
  /-- DMA_GO (R117): A write of DMA CTL.go checks and starts the channel, or puts it in PENDING or ERROR. Operand: CTL value; bit 0 is written 1. -/
  | dmaGo (r : Req) (n : Fin 32) (v : Word)
  /-- DMA_STOP (R122): A write of DMA CTL.stop returns a PENDING channel to IDLE or makes a running channel enter STOPPING. Operand: CTL value; bit 1 is written 1. -/
  | dmaStop (r : Req) (n : Fin 32) (v : Word)
  /-- DMA_ACCESS_WRITTEN (R115): A DMA destination access is accepted at its ordering point, and SRC, DST and COUNT advance. Operand: the quadrant, whose engines pick the channel (R113). -/
  | dmaAccessWritten (q : Fin 4)
  /-- DMA_DONE (R116): After its last access and any Kennel completion read, the channel enters DONE, raises source 0 and signals its semaphore. -/
  | dmaDone (n : Fin 32)
  /-- DMA_FAULT_STOP (R120): A fault met by a channel drains its issued accesses and leaves the channel at the stop point in FAULT, with a fault record. -/
  | dmaFaultStop (n : Fin 32)
  /-- DMA_WAIT_MOVE_RELEASE (R121): A write waiting on a moving page is released by the flip, and the channel returns to RUNNING. -/
  | dmaWaitMoveRelease (n : Fin 32)
  /-- DMA_STOPPED (R122): A STOPPING channel finishes its issued accesses, discards the funnel and enters IDLE. -/
  | dmaStopped (n : Fin 32)
  -- Matrix Arrays and the Matrix-Vector Path
  /-- MATMUL (R145): MATMUL streams activation rows through stationary weight tiles and leaves C in the result slot. -/
  | matmul (n : Fin 48) (q : Fin 8)
  /-- MATVEC (R153): MATVEC streams a weight grid against one vector on the matrix-vector path. -/
  | matvec (n : Fin 48) (q : Fin 8)
  /-- TREE_MODE_WRITE (R142): A write of ARR_CTL.tree_mode selects the mode used by each array's next command. -/
  | treeModeWrite (r : Req) (n : Fin 48) (v : Word)
  /-- ARRAY_REPAIR_WRITE (R156): A Handler write of ARR_OFF or ARR_BYPa updates the bypass, and ARR_WIDTH and ARR_GANG follow. Operand: page offset of ARR_OFF or of an ARR_BYPa half. -/
  | arrayRepairWrite (r : Req) (n : Fin 48) (o : Nat) (v : Word)
  -- Number Formats and Quantisation
  /-- CONVERT (R179): CONVERT decodes, scales, optionally rotates and converts elements or writes tiles. -/
  | convert (n : Fin 48) (q : Fin 8)
  /-- OPT_UPDATE (R181): OPT_UPDATE applies one optimiser step to parameter rows and their state. -/
  | optUpdate (n : Fin 48) (q : Fin 8)
  -- Special Functions and Soft Maximum
  /-- SFU_MAP (R197): SFU_MAP applies a built-in function or microprogram to each element. -/
  | sfuMap (n : Fin 48) (q : Fin 8)
  /-- SFU_GATED (R197): SFU_GATED computes f(a) × b row by row in one pass. -/
  | sfuGated (n : Fin 48) (q : Fin 8)
  /-- SOFTMAX (R198): SOFTMAX computes a full, partial or finishing soft maximum over rows. -/
  | softmax (n : Fin 48) (q : Fin 8)
  /-- STATS_MERGE (R200): STATS_MERGE merges partial soft-maximum statistics into per-part factors. -/
  | statsMerge (n : Fin 48) (q : Fin 8)
  /-- ROW_NORM (R201): ROW_NORM applies RMS or layer normalisation with gain and bias. -/
  | rowNorm (n : Fin 48) (q : Fin 8)
  /-- TABLE_CHECK (R209): TABLE_CHECK evaluates a function over an FP32 range and reports monotonicity and seam violations. -/
  | tableCheck (n : Fin 48) (q : Fin 8)
  /-- MICROPROGRAM_LOAD (R203): The microprogram store loads a context's records when its tag differs, setting MP_VALID and MP_TAG. -/
  | microprogramLoad (n : Fin 48) (q : Fin 8)
  /-- SFU_INVALIDATE (R204): A write of SFU_CTL.invalidate forces the next SFU command to reload the store. Operand: SFU_CTL value; bit 0 is written 1. -/
  | sfuInvalidate (r : Req) (n : Fin 48) (v : Word)
  -- Selection: Maximum and Top-k
  /-- SELECT (R216): SELECT returns the top k of each row through the tournament tree, with refills and a tie pass. -/
  | select (n : Fin 48) (q : Fin 8)
  /-- SEL_MERGE (R223): SEL_MERGE merges partial top-k results with an id filter and tie accounting. -/
  | selMerge (n : Fin 48) (q : Fin 8)
  /-- SEL_ROUTE (R227): SEL_ROUTE selects experts per token, writes counts, and sets predicate bits at Hitch. -/
  | selRoute (n : Fin 48) (q : Fin 8)
  -- Splice
  /-- VOCAB_FLIP (R232): A write of VOCv_CTL.flip loads a vocabulary header into the inactive bank, or is refused or fails. Operand: VOCv_CTL value through SPLd; bit 0 is written 1. -/
  | vocabFlip (r : Req) (d : Fin 4) (i : Fin 16) (v : Word)
  /-- TOKENISE (R236): TOKENISE decodes, normalises, pre-splits and merges input bytes into token ids under its stream. -/
  | tokenise (d : Fin 4) (q : Fin 4)
  /-- DETOKENISE (R240): DETOKENISE turns token ids into UTF-8 bytes under its stream. -/
  | detokenise (d : Fin 4) (q : Fin 4)
  /-- STAGE_COMMIT_STEP (R246): A stage-unit command's commit step writes its output, header and record, signals, and writes its completion after any mirror acknowledgement. -/
  | stageCommitStep (d : Fin 4) (u : StageUnit) (q : Fin 4)
  -- Muzzle
  /-- MUZ_STEP (R264): MUZ_STEP steps tokens through the automaton and trie, writes the mask and trailer, and sends the mask-ready signal. -/
  | muzStep (d : Fin 4) (q : Fin 4)
  /-- MUZ_COMMIT (R265): After any confirmation, a MUZ_STEP commits its record header and stack lines and writes its completion. -/
  | muzCommit (d : Fin 4) (q : Fin 4)
  -- Embedding Tables
  /-- TABLE_FLIP (R274): A write of TBLt_CTL.flip loads a table descriptor into the inactive bank, or is refused or fails. Operand: TBLt_CTL value through EMBd; bit 0 is written 1. -/
  | tableFlip (r : Req) (d : Fin 4) (i : Fin 64) (v : Word)
  /-- EMB_GATHER (R294): EMB_GATHER reads rows through the directory and writes them with a header, then signals. -/
  | embGather (d : Fin 4) (q : Fin 4)
  /-- EMB_UPDATE (R288): EMB_UPDATE sums gradients by owner and applies one optimiser step to each touched row at commit. -/
  | embUpdate (d : Fin 4) (q : Fin 4)
  /-- ROW_PUT (R284): ROW_PUT installs, deletes or restamps rows in the directory at the pending generation. -/
  | rowPut (d : Fin 4) (q : Fin 4)
  /-- ROW_MOVE (R287): ROW_MOVE copies rows to new slots and flips their directory entries. -/
  | rowMove (d : Fin 4) (q : Fin 4)
  /-- PUBLISH (R286): PUBLISH advances the table generation by one at its commit step. -/
  | publish (d : Fin 4) (q : Fin 4)
  /-- FREE_RING_WRITE (R285): A displaced slot is written to the free ring once no earlier-bound command can reach it and the ring has room. -/
  | freeRingWrite (t : Fin 64)
  /-- EXCHANGE_BATCH (R290): A batch of indices, and gradients for updates, arrives at its owner unit and is served. Operand: the oldest batch that a queue of EMBd has sent to an owner and that has not been served, or a gather's batch from another module that reaches EMBd. -/
  | exchangeBatch (d : Fin 4) (src : ExchSrc)
  -- Retriever
  /-- INDEX_FLIP (R300): A write of IDXi_CTL.flip loads an index descriptor and sets the slot epoch, or is refused or fails. Operand: IDXi_CTL value through RTVd; bit 0 is written 1. -/
  | indexFlip (r : Req) (d : Fin 4) (i : Fin 16) (v : Word)
  /-- RTV_SEARCH (R306): RTV_SEARCH pins its epoch, probes lists or the graph, and merges, filters and rescores candidates. -/
  | rtvSearch (d : Fin 4) (q : Fin 4)
  /-- LIST_READ (R310): An owner reads a list once for its pending probes, when the oldest probe has waited batch_wait or 64 are pending. -/
  | listRead (d : Fin 4)
  /-- RTV_INSERT (R319): RTV_INSERT appends entries stamped E + 1 and advances the list tails. -/
  | rtvInsert (d : Fin 4) (q : Fin 4)
  /-- RTV_DELETE (R320): RTV_DELETE tombstones entries or nodes with del_epoch E + 1. -/
  | rtvDelete (d : Fin 4) (q : Fin 4)
  /-- RTV_NODE_PUT (R321): RTV_NODE_PUT writes or rewrites graph nodes. -/
  | rtvNodePut (d : Fin 4) (q : Fin 4)
  /-- RTV_COMPACT (R322): RTV_COMPACT rewrites a list into a new region, dropping deleted entries. -/
  | rtvCompact (d : Fin 4) (q : Fin 4)
  /-- RTV_EPOCH (R317): RTV_EPOCH advances the index epoch once earlier mutations and searches pinned at E − 1 have ended. -/
  | rtvEpoch (d : Fin 4) (q : Fin 4)
  -- Re-ranking and Prompt Packing
  /-- PCK_PAIRS (R338): PCK_PAIRS writes query–passage pair rows for the cross-encoder. -/
  | pckPairs (d : Fin 4) (q : Fin 4)
  /-- PCK_PROMPT (R340): PCK_PROMPT emits the head and query, then streams passages and the tail into chunks. -/
  | pckPrompt (d : Fin 4) (q : Fin 4)
  /-- BATCH_RECORD_TAKE (R341): The Packer takes one batch_sem count, reads the score record and places candidates above the ceiling. -/
  | batchRecordTake (d : Fin 4) (q : Fin 4)
  /-- CHUNK_SIGNAL (R343): A completed chunk whose entries are accepted increments out_sem of out_core. -/
  | chunkSignal (d : Fin 4) (q : Fin 4)
  -- Generation and Serving
  /-- PROVISIONAL_CANDIDATE (R354): A candidate command's valid count and entry 0 reach the serving block, which may launch a speculative step. -/
  | provisionalCandidate (d : Fin 4) (slot : Fin 256)
  /-- CANDIDATE_RECORD_RELEASE (R358): After the step commits and is acknowledged, the serving block writes the candidate record and raises source 10. -/
  | candidateRecordRelease (d : Fin 4) (slot : Fin 256)
  /-- MBOX (R359): A write of MBOXs is checked and then confirms, or rejects and relaunches, the next step with the chosen token. -/
  | mbox (r : Req) (d : Fin 4) (slot : Fin 256) (v : Word)
  /-- SRV_ADMIT (R373): SRV_ADMIT binds a slot to a conversation, or holds it when the budget is exhausted. -/
  | srvAdmit (d : Fin 4) (q : Fin 4)
  /-- SRV_PARK (R366): SRV_PARK rejects speculation, waits for confirmed steps, unbinds the slot and parks the conversation. -/
  | srvPark (d : Fin 4) (q : Fin 4)
  /-- SRV_END (R364): SRV_END returns a conversation to FREE. -/
  | srvEnd (d : Fin 4) (q : Fin 4)
  /-- SRV_ADAPTER (R370): SRV_ADAPTER installs a new adapter version once prev_refs is zero, and with force marks slots switch pending. -/
  | srvAdapter (d : Fin 4) (q : Fin 4)
  /-- SRV_BUDGET (R367): SRV_BUDGET sets a tenant's rate, cap and optionally balance, then runs a hold scan. -/
  | srvBudget (d : Fin 4) (q : Fin 4)
  /-- TTL_SCAN (R365): Every ttl_scan period, the conversation table is scanned and expired parked records are marked EXPIRED. -/
  | ttlScan (d : Fin 4)
  /-- HOLD_SCAN (R368): Every hold_scan period, held conversations are admitted in held_at order while their balance is positive. -/
  | holdScan (d : Fin 4)
  /-- SLOT_RESUME (R371): A write of SLOT_CTL.resume completes an adapter switch and acts on the held mailbox write. Operand: SLOT_CTL value; bit 0 is written 1. -/
  | slotResume (r : Req) (d : Fin 4) (v : Word)
  /-- GROUP_CONFIRM (R351): A write of GRP_CTL.confirm confirms a step of an unbound group. Operand: GRP_CTL value; bit 0 is written 1. -/
  | groupConfirm (r : Req) (d : Fin 4) (v : Word)
  /-- GROUP_REJECT (R351): A write of GRP_CTL.reject rejects a step of an unbound group. Operand: GRP_CTL value; bit 1 is written 1. -/
  | groupReject (r : Req) (d : Fin 4) (v : Word)
  /-- EVENT_WRITE (R376): A serving event is written to the event ring when there is room, and source 8 is raised. -/
  | eventWrite (d : Fin 4)
  -- Twin Pairing and the Leash Link
  /-- MIRROR_PACKET_RECEIVE (R384): A mirror packet whose commit record has arrived is applied, its adoption record is written, and it is acknowledged. -/
  | mirrorPacketReceive (p : Fin 2) (pkt : MirrorPacket)
  /-- MIRROR_ACK (R20): The twin's acknowledgement releases held completion and candidate records. Operand: the twin acknowledges the oldest packet sent on the port. -/
  | mirrorAck (p : Fin 2)
  /-- HEARTBEAT_SEND (R388): Every HB_CFG.period, a heartbeat control flit carrying the state is sent on each trained twin port. -/
  | heartbeatSend
  /-- HEARTBEAT_RECEIVE (R390): A received heartbeat is recorded and may send the module to FENCED. -/
  | heartbeatReceive (p : Fin 2) (state : Fin 8)
  /-- HEARTBEAT_TIMEOUT (R389): No heartbeat for miss × period declares the twin lost with cause 1. -/
  | heartbeatTimeout
  /-- LINK_DOWN_GRACE (R389): Neither twin port trained for down_grace declares the twin lost with cause 2. -/
  | linkDownGrace
  /-- WITHDRAW_NOTICE (R389): A received withdraw notice declares the twin lost with cause 3. -/
  | withdrawNotice (p : Fin 2)
  /-- WITHDRAW (R388): A write of PAIR_CTL.withdraw sends notices, enters FENCED and stops heartbeats. Operand: PAIR_CTL value; bit 10 is written 1. -/
  | withdraw (r : Req) (v : Word)
  /-- DECLARE_LOST (R389): A write of PAIR_CTL.declare_lost declares the twin lost with cause 4. Operand: PAIR_CTL value; bit 9 is written 1. -/
  | declareLost (r : Req) (v : Word)
  /-- TWIN_LOST (R391): A declaration sets LOST, stops mirror acceptance and releases held records with mirrored = 0. -/
  | twinLost
  /-- ADOPT (R391): A write of PAIR_CTL.adopt, or auto_adopt, starts adoption of the twin's queues and slots. Operand: PAIR_CTL value; bit 8 is written 1; no requester for auto_adopt. -/
  | adopt (r : Option Req) (v : Word)
  /-- ADOPTION_DONE (R391): After loading queue and slot records, the module sets FULL and full_owner and raises source 4. -/
  | adoptionDone
  /-- PAIR_ENABLE (R379): A write of PAIR_CTL.enable enables pairing or returns the module to UNPAIRED. Operand: PAIR_CTL value without GO bits. -/
  | pairEnable (r : Req) (v : Word)
  /-- HELLO (R394): A received hello flit is checked and the module pairs, waits for resync, or refuses. -/
  | hello (p : Fin 4) (msg : HelloMsg)
  /-- RESYNC (R395): A write of PAIR_CTL.resync starts the source's copy of kv pages and listed ranges to the joining module. Operand: PAIR_CTL value; bit 11 is written 1. -/
  | resync (r : Req) (v : Word)
  /-- RESYNC_DONE (R395): At the end of the walk, both modules enter PAIRED and raise source 5. -/
  | resyncDone
  /-- HANDBACK (R396): A write of PAIR_CTL.handback returns ownership when the items are idle, or sets handback_refused. Operand: PAIR_CTL value; bit 12 is written 1. -/
  | handback (r : Req) (v : Word)
  /-- FLIT_RECEIVE (R399): A received flit is corrected and CRC-checked, then delivered in order or discarded with a retry request. Operand: 256 bytes as they arrive. -/
  | flitReceive (p : Fin 4) (flit : List Byte)
  /-- RETRY_REQUEST (R399): A received retry request makes the sender replay from the expected sequence number. -/
  | retryRequest (p : Fin 4) (seq : BitVec 12)
  /-- LINK_RETRAIN (R399): A write of LINK_CTL.retrain, a lane lock loss or 16 retries within 1 µs retrains the port. Operand: LINK_CTL value; bit 0 is written 1; no requester for a lock loss or 16 retries. -/
  | linkRetrain (p : Fin 4) (r : Option Req) (v : Word)
  /-- LINK_TRAINED (R399): A port finishes training at full or half width, and source 0 is raised. Operand: the lanes that locked. -/
  | linkTrained (p : Fin 4) (lanes : BitVec 8)
  /-- REMOTE_ACCESS (R401): An access inside an enabled remote window travels to the named module and is translated there. -/
  | remoteAccess (p : Fin 4) (write : Bool) (va : Nat) (len : Nat) (bytes : List Byte)
  /-- TIME_SYNC (R403): Every synchronisation period, timestamps are exchanged with the parent and the offset is corrected. -/
  | timeSync (p : Fin 4) (t1 : DWord) (t2 : DWord) (t3 : DWord) (t4 : DWord)
  -- Host Interface
  /-- PORT_RESET (R407): PERST#, hot reset or link-down of a port resets its link and function as function-level reset does. -/
  | portReset (p : Port)
  /-- FUNCTION_LEVEL_RESET (R413): Function-level reset of a port ends its reads, resets its configuration and banked state, and raises source 2. -/
  | functionLevelReset (p : Port)
  /-- PCIE_LINK_UP (R406): A port trains its link at the negotiated speed and width. -/
  | pcieLinkUp (p : Port) (speed : Fin 6) (width : Fin 17)
  /-- CONFIG_REQUEST (R407): A configuration request completes with Request Retry Status until the port is marked ready. -/
  | configRequest (p : Port) (write : Bool) (off : Nat) (v : Word)
  /-- APERTURE_ACCESS (R409): A BAR2 access translates through MMU0 and reads or writes the device virtual range. Operand: BAR2 offset, length of a read, bytes of a write, poisoned write. -/
  | apertureAccess (p : Port) (write : Bool) (off : Nat) (len : Nat) (bytes : List Byte) (ep : Bool)
  /-- COMPLETION_RECEIVED (R412): A completion to a module read of host memory delivers data, or poison on error. -/
  | completionReceived (p : Port) (tag : Nat) (good : Bool) (bytes : List Byte)
  /-- COMPLETION_TIMEOUT (R412): A module read whose completion times out is delivered poisoned and counted in CPL_ERR. -/
  | completionTimeout (p : Port) (tag : Nat)
  /-- RECEIVED_TLP_ERROR (R412): A malformed, ECRC-failed or unexpected TLP is logged as uncorrectable and raises source 3. Operand: 0 malformed, 1 ECRC, 2 unexpected completion, 3 receiver overflow. -/
  | receivedTlpError (p : Port) (kind : Fin 4)
  /-- MSIX_SEND (R411): A waiting summary message is sent on its MSI-X vector once the function can send it. -/
  | msixSend (p : Port) (vec : Fin 256)
  -- Interrupt Controller
  /-- SW_TRIG (R421): A write of SW_TRIG acts as one rising edge of a software source. -/
  | swTrig (r : Req) (v : Word)
  /-- SUMMARY_MESSAGE (R422): An active summary that is not outstanding sends its message and becomes outstanding. -/
  | summaryMessage (k : Fin 32)
  /-- SUM_ACK (R422): A write of SUM_ACK clears outstanding and resends at once if the summary is still active. -/
  | sumAck (r : Req) (v : Word)
  -- Power States, Clocks and Supplies
  /-- VOTE (R430): A write of the banked PWR.VOTE changes the target state and may exit at once with wake code 8. -/
  | vote (r : Req) (v : Word)
  /-- POWER_STATE_ENTRY (R431): When the conditions of a deeper target hold, the module enters that state and saves retention state. -/
  | powerStateEntry
  /-- DEMAND_EXIT (R433): A doorbell or access needing a gated resource in Idle or Hold starts an exit to Run with wake code 7. -/
  | demandExit
  /-- WAKE (R437): A wake event brings the module back to Run, restores retention and records LAST_WAKE. -/
  | wake (code : Fin 9)
  /-- MANAGEMENT_ADDRESS_MATCH (R436): A management-bus address match in Watch or Deep NACKs and starts a wake. -/
  | managementAddressMatch (addr : BitVec 7)
  /-- WATCH_SAMPLE (R438): Every WATCH_PERIOD in Watch, the enabled sensors are sampled and compared against their thresholds. Operand: channels 0 to 8. -/
  | watchSample (samples : List (BitVec 16))
  /-- THRESHOLD_COMPARE (R438): Every 10 µs in Run, Idle and Hold, the enabled monitor channels are compared and a crossing raises source 110. Operand: channels 0 to 7. -/
  | thresholdCompare (samples : List (BitVec 16))
  /-- HEARTBEAT_SIDEBAND_CHANGE (R438): A change in twin sideband presence wakes the module with code 4 as hb_wake selects. -/
  | heartbeatSidebandChange (present : Bool)
  /-- TIMER_MATCH (R439): Global time reaching TIMER raises source 109 in Run, or wakes the module with code 5. -/
  | timerMatch
  /-- POINT_REQUEST (R441): A write of CDd_CTL.req_point changes the requested DVFS point of a die. -/
  | pointRequest (r : Req) (d : Fin 4) (v : Word)
  /-- RAMP_DONE (R441): A voltage ramp ends, CCLK switches, and any pending point takes effect. -/
  | rampDone (d : Fin 4)
  /-- POWER_LIMIT_STEP (R442): Every PLIM_CFG.step, the power ceiling is lowered, raised or kept against PLIMIT. Operand: mean of the last step in 1/8 W. -/
  | powerLimitStep (mean : Nat)
  /-- THERMAL_SAMPLE (R443): Each 10 µs die temperature sample adjusts the thermal ceiling or trips shutdown. Operand: die reading in 0.25 °C. -/
  | thermalSample (d : Fin 4) (temp : Int)
  /-- DROOP (R443): A VIN_CORE sample below 45.0 V moves every die to point 4. Operand: VIN_CORE sample in mV. -/
  | droop (mv : Nat)
  /-- DROOP_HOLD_EXPIRY (R443): 1 ms after the last low sample, the droop hold ends. -/
  | droopHoldExpiry
  /-- PLL_LOCK_LOST (R450): A PLL loses lock and CLK source 0 is raised. Operand: bit of PLL_STAT. -/
  | pllLockLost (i : Fin 27)
  /-- SUPPLY_INPUT_VALID (R446): A supply input becomes valid; the sequencer checks the order or latches seq_fault. Operand: 0 VIN_ANA, 1 VIN_IO, 2 VIN_CORE. -/
  | supplyInputValid (i : Fin 3)
  /-- POWER_ON_RESET (R448): After the rails come up good, PWRGD is asserted, power-on reset is released and the boot flow starts. -/
  | powerOnReset
  /-- RAIL_FAULT (R448): A rail out of its window for more than 100 µs switches off its group and later groups and resets the module. -/
  | railFault (i : Fin 13)
  /-- UNDERVOLTAGE_LOCKOUT (R514): An input below lockout for more than 100 µs switches off its rail groups. -/
  | undervoltageLockout (i : Fin 3)
  /-- SHDN_REQ (R447): Assertion of SHDN_REQ# sets shdn_req and raises PWR source 4. -/
  | shdnReq
  /-- OFF_OK (R447): A write of SHDN_CTL.off_ok asserts the OFF_OK output. Operand: SHDN_CTL value; bit 0 is written 1. -/
  | offOk (r : Req) (v : Word)
  -- Reset, Boot and Attestation
  /-- MOD_RESET (R454): A keyed write of RST.MOD_RESET runs a module reset, optionally wiping LPDDR6, and restarts the boot flow. -/
  | modReset (r : Req) (v : Word)
  /-- WDOG_KICK (R455): A Handler write of WDOG_KICK restarts the watchdog count. -/
  | wdogKick (r : Req) (v : Word)
  /-- WATCHDOG_EXPIRY (R455): The watchdog expires and starts a module reset with cause 5. -/
  | watchdogExpiry
  /-- TEST_RESET (R453): TRST# resets the IEEE 1149.1 test logic only. -/
  | testReset
  /-- PORT_READY (R462): A write of BOOT_CTL.port_ready ends Request Retry Status on a port. Operand: BOOT_CTL value. -/
  | portReady (r : Req) (v : Word)
  /-- BOOT_OK (R458): A write of BOOT_CTL.boot_ok raises the rollback counters to the running image and applied blocks. Operand: BOOT_CTL value; bit 2 is written 1. -/
  | bootOk (r : Req) (v : Word)
  /-- FLASH_ERASE (R463): Recovery command 0xF0 erases a 64 KiB sector of an image slot. -/
  | flashErase (off : Nat)
  /-- FLASH_PROGRAM (R463): Recovery command 0xF1 programs bytes into an image slot. -/
  | flashProgram (off : Nat) (bytes : List Byte)
  /-- FLASH_READ (R463): Recovery command 0xF2 reads back 32 bytes of flash. -/
  | flashRead (off : Nat)
  /-- ATTEST (R465): A write of REQ_CTL.attest starts an attestation request on the port's nonce buffer. Operand: REQ_CTL value; bit 0 is written 1. -/
  | attest (r : Req) (v : Word)
  /-- REPORT_BUILD (R465): When measurements are done, or after 50 ms, the Handler builds, signs and writes the report and sets done. -/
  | reportBuild
  /-- EXTEND (R464): A write of REQ_CTL.extend extends M4–M7 with the 64 bytes at REQ_ADDR. Operand: REQ_CTL value; bit 1 is written 1. -/
  | extend (r : Req) (v : Word)
  /-- MEASUREMENT_EXTEND (R464): After a vocabulary flip or a new grammar load, the Handler extends M2 or M3. -/
  | measurementExtend
  /-- SIGN (R467): A write of SIGN_CTL.go signs a digest with the configuration or attestation key. Operand: SIGN_CTL value; bit 0 is written 1. -/
  | sign (r : Req) (v : Word)
  -- Built-in Self-Test and Repair
  /-- BIST_GO (R470): A write of BIST_CTL.go starts a run of members, or refuses it. Operand: BIST_CTL value; bit 0 is written 1. -/
  | bistGo (r : Req) (v : Word)
  /-- BIST_ABORT (R481): A write of BIST_CTL.abort ends the run after the running members restore, and sets aborted. Operand: BIST_CTL value; bit 1 is written 1. -/
  | bistAbort (r : Req) (v : Word)
  /-- BIST_MEMBER_START (R470): The engine starts the next member once the power budget, quadrant and staging conditions hold, after isolating it. -/
  | bistMemberStart
  /-- BIST_MEMBER_END (R472): A member finishes its test, restores or re-initialises its memories and releases isolation. Operand: position among the running members, and what its test found. -/
  | bistMemberEnd (i : Nat) (fails : List FailRow)
  /-- BIST_RECORD_WRITE (R474): A failure record is written to the result ring when there is room. -/
  | bistRecordWrite
  /-- REPAIR_APPLY (R476): A Handler write of RPR_CTL.apply applies the repair entry to an isolated member. Operand: RPR_CTL value; bit 0 is written 1. -/
  | repairApply (r : Req) (v : Word)
  -- Counters, Tracing and Debug
  /-- ENG_SEL (R488): A write of DBG.ENG_SEL copies the selected engine's counters into the requester's read registers. -/
  | engSel (r : Req) (v : Word)
  /-- COUNTER_CLEAR (R488): A write of CNT_CTL.clear zeroes every engine counter in both banks. Operand: CNT_CTL value; bit 0 is written 1. -/
  | counterClear (r : Req) (v : Word)
  /-- SNAP (R495): Every SNAP_PERIOD, SNAP records carrying counter deltas are emitted for the selected engines. -/
  | snap
  /-- LIFE_WRITE_NOW (R500): A write of LIFE_CTL.write_now appends the live lifetime image to flash. Operand: LIFE_CTL value; bit 0 is written 1. -/
  | lifeWriteNow (r : Req) (v : Word)
  /-- LIFE_PERIOD (R500): Every LIFE_PERIOD seconds, the live image is appended as a log entry. -/
  | lifePeriod
  /-- LIFETIME_SAMPLE (R499): Once per second, power-on time and the temperature histogram are updated. Operand: hottest junction in °C. -/
  | lifetimeSample (temp : Int)
  /-- TRAIL_RECORD_SEND (R497): A Syrov record leaves the trace FIFO and is sent on the Trail port lanes, freeing a FIFO entry and counting in RECORDS. -/
  | trailRecordSend
  /-- CORRECTABLE_LINK_ERROR (R412): A receiver, LCRC, replay or DLLP error on a PCIe port is corrected by the data link layer, and CE_COUNT increments and AER logs it. -/
  | correctableLinkError (p : Port) (lane : Fin 16)
  /-- INPUT_POWER_SAMPLE (R442): Every 10 µs the regulators report module input power, and PIN_AVG's last sample and window mean are updated. Operand: module input power in 1/8 W. -/
  | inputPowerSample (watts : Nat)
  deriving DecidableEq, Repr

end Sys2Proof
end

