-- ==== Sys2Proof/Config.lean ====
section
/-! DEFINITION. What one module fixes and the spec leaves open: constants without a body, so that no proof sees a value
(free values). Each names its entry of the assumption log. -/

namespace Sys2Proof.Config

/-- The byte count of a mirror packet that carries `writes` writes of `bytes` bytes in all (R382 gives no layout; log
entry 20). -/
opaque packetSize (writes bytes : Nat) : Nat

/-- Byte `i` of the image that a received mirror packet leaves in the log ring (R384 gives no layout; log entry 20). -/
opaque logByte (p : MirrorPacket) (i : Nat) : Byte

/-- A fresh byte nothing fixes: the `i`th byte of the `n`th free value drawn (log entry 3). -/
opaque freeByte (n i : Nat) : Byte

/-- A fresh choice below `bound` that nothing fixes (log entry 3). -/
opaque freeNat (n bound : Nat) : Nat

/-- The units of memory in which bits err at global time `t`, each by its key, and whether its code can correct it (R98; log entry 76). -/
opaque bitErrors (t : Nat) : List (Nat × Bool)

/-- Cycles that engine `id` loses in the tick that ends at global time `t` for stall code `code`: 7 an empty feeder queue (R128), 9 a
scratchpad bank that another port won (R143); and under code 0 the arbitrations that the ports of core `id` lose with no stall of
a unit (log entry 90). -/
opaque lostCycles (code id t : Nat) : Nat

/-- x_b of a block that holds an infinity or a NaN, whose largest finite magnitude is m × 2^e (R172, R184; log entry 28). -/
opaque openBlockShift (m : Nat) (e : Int) : Int

/-- Coefficient c_i of segment j in the ROM of built-in function `func`, an FP32 code (R191; the ROM is not given, log entry
30). -/
opaque romCoef (func j i : Nat) : Word

/-- The segment a look-up takes for an argument outside its map, or a NaN (R191 names none; log entry 30). -/
opaque openSegment (arg base : Nat) : Fin 64

/-- The row number from which a row of an EMB_UPDATE draws its stochastic roundings (R184), by its place in the list and its local
index (R288 names none; log entry 33). -/
opaque embIndex (place localRow : Nat) : Nat

/-- The first 240 bytes of a Leash flit after its two Reed-Solomon codes have corrected it, none where they cannot (R397 gives no
field polynomial; log entry 41). -/
opaque leashFec (flit : List Byte) : Option (List Byte)

/-- How far within its tick a trace record comes after the one before it, by its number (R493; log entry 93). -/
opaque subTick (serial : Nat) : Nat

/-- The offset of a capability's control word in configuration space: 0 Power Management control and status, 1 Device Control, 2
MSI-X Message Control, 3 Resizable BAR control, 4 the Device Serial Number capability; and 5, how far behind the MSI-X table the
pending-bit array stands in BAR4 (R408 gives no offsets; log entry 44). -/
opaque capOff (c : Nat) : Nat

/-- The reset value of another configuration word, and the bits of it that the host may write (log entry 44). -/
opaque cfgReset (off : Nat) : Word
opaque cfgMask (off : Nat) : Word

/-- Whether the flash part fails the write of a lifetime entry (R500), by the count of free values (log entry 46). -/
opaque flashFails (n : Nat) : Bool

/-- The seed that the SRAM and the helper data give at a power-on reset, none where reconstruction fails (R460; log entry 47). -/
opaque pufSeed (n : Nat) (helper : List Host.Cell) : Option (List Byte)

/-- Ed448 (R457, R461, R465): the public key of a private key, a signature, and whether a signature verifies (log entry 47). -/
opaque edPublic (key : List Byte) : List Byte
opaque edSign (key message : List Byte) : List Byte
opaque edVerify (pub message signature : List Byte) : Bool

/-- The vendor public key in ROM (R457). -/
opaque vendorKey : List Byte

end Sys2Proof.Config
end

