-- ==== Sys2Proof/Machine/RegMap.lean ====
section
/-! DEFINITION. The register window as tables (R25 to R45 and the Registers section of every chapter): which page is which
block, and for every block the registers it holds, each with its offset, access code, stored bits and reset value. -/

namespace Sys2Proof.Machine

/-- The blocks of the page map (R29, R32). -/
inductive Block where
  | glb | pwr | clk | rst | irq | sec | life | bist | trc | dbg | pcie | lsh | mmu | mig | tier | lpc | dma | core
  | spl | rtv | emb | pck | muz | srv
  deriving DecidableEq, Repr

/-- The page map of R29: block and instance of an implemented page. -/
def blockOf (page : Nat) : Option (Block × Nat) :=
  if page = 0x000 then some (.glb, 0) else if page = 0x001 then some (.pwr, 0)
  else if page = 0x002 then some (.clk, 0) else if page = 0x003 then some (.rst, 0)
  else if page = 0x004 then some (.irq, 0) else if page = 0x005 then some (.sec, 0)
  else if page = 0x006 then some (.life, 0) else if page = 0x007 then some (.bist, 0)
  else if page = 0x008 then some (.trc, 0) else if page = 0x009 then some (.dbg, 0)
  else if page = 0x010 then some (.pcie, 0) else if page = 0x011 then some (.pcie, 1)
  else if 0x012 ≤ page ∧ page ≤ 0x015 then some (.lsh, page - 0x012)
  else if 0x020 ≤ page ∧ page ≤ 0x023 then some (.mmu, page - 0x020)
  else if page = 0x024 then some (.mig, 0) else if page = 0x025 then some (.tier, 0)
  else if 0x030 ≤ page ∧ page ≤ 0x03F then some (.lpc, page - 0x030)
  else if 0x040 ≤ page ∧ page ≤ 0x05F then some (.dma, page - 0x040)
  else if 0x080 ≤ page ∧ page ≤ 0x0AF then some (.core, page - 0x080)
  else if 0x0C0 ≤ page ∧ page ≤ 0x0DF then
    match (page - 0x0C0) % 8 with
    | 0 => some (.spl, (page - 0x0C0) / 8) | 1 => some (.rtv, (page - 0x0C0) / 8)
    | 2 => some (.emb, (page - 0x0C0) / 8) | 3 => some (.pck, (page - 0x0C0) / 8)
    | 4 => some (.muz, (page - 0x0C0) / 8) | 5 => some (.srv, (page - 0x0C0) / 8)
    | _ => none
  else none

/-- PAGE_ID.block_type (R32). -/
def Block.typeCode : Block → Nat
  | .glb => 0x0001 | .pwr => 0x0002 | .clk => 0x0003 | .rst => 0x0004 | .irq => 0x0005 | .sec => 0x0006
  | .life => 0x0007 | .bist => 0x0008 | .trc => 0x0009 | .dbg => 0x000A | .pcie => 0x0010 | .lsh => 0x0011
  | .mmu => 0x0020 | .mig => 0x0021 | .tier => 0x0022 | .lpc => 0x0023 | .dma => 0x0040 | .core => 0x0080
  | .spl => 0x00C0 | .rtv => 0x00C1 | .emb => 0x00C2 | .pck => 0x00C3 | .muz => 0x00C4 | .srv => 0x00C5

/-- PAGE_CAPS.irq_sources of each block (R78, R111, R126, R249, R272, R298, R329, R347, R378, R404, R416, R418, R450,
R467, R482, R502). GLB states none: log entry 12. -/
def Block.irqSources : Block → Nat
  | .glb => 0 | .pwr => 5 | .clk => 1 | .rst => 1 | .irq => 0 | .sec => 1 | .life => 2 | .bist => 3 | .trc => 2
  | .dbg => 1 | .pcie => 5 | .lsh => 8 | .mmu => 3 | .mig => 3 | .tier => 2 | .lpc => 3 | .dma => 3 | .core => 17
  | .spl => 9 | .rtv => 9 | .emb => 9 | .pck => 8 | .muz => 9 | .srv => 11

/-- PAGE_CAPS.reset_capable (R44, R418, R450, R467, R502; log entry 12 for the pages that state none). -/
def Block.resetCapable : Block → Bool
  | .glb | .pwr | .clk | .rst | .irq | .sec | .life | .dbg => false
  | _ => true

/-- PAGE_CAPS.step_capable (R249, R272, R298, R329, R347, R378, R489; log entry 12). -/
def Block.stepCapable : Block → Bool
  | .core | .spl | .rtv | .emb | .pck | .muz | .srv => true
  | _ => false

/-- PAGE_CAPS.block_caps, bits [31:16]; PCIE's bit 24 copies the PCIE_BIF strap and is added where the page is read. -/
def Block.caps : Block → Nat
  | .core => 8 + 9 * 16 | .mmu => 4 | .mig => 16 + 8 * 32 | .lpc => 8 | .dma => 16 + 64 * 256
  | .spl | .rtv | .emb | .pck | .muz | .srv => 4
  | .lsh => 8 + 3 * 16 | .pcie => 16 + 5 * 32 | .pwr => 5 | .clk => 16 | .bist => 4 | .trc => 4 + 4 * 16 | .dbg => 4
  | _ => 0

/-- The blocks whose PAGE_CTL.enable reads 1 and is RO (R39). -/
def Block.alwaysEnabled : Block → Bool
  | .glb | .pwr | .clk | .rst | .irq | .sec | .life => true
  | _ => false

/-- The access codes of R34 (RSV is an offset without a row, or a bit outside a row's mask). -/
inductive Acc where
  | rw | ro | wo | rc
  deriving DecidableEq, Repr

/-- Whether a register is a plain word or a half of a 64-bit quantity (R37, R38). -/
inductive Half where
  | one | lo | hi
  deriving DecidableEq, Repr

/-- One row of a register table: `count` registers `stride` bytes apart, starting at `off`. -/
structure RegRow where
  name : String
  off : Nat
  count : Nat
  stride : Nat
  acc : Acc
  half : Half
  reset : Nat
  /-- the RW bits: a write stores these and leaves the others (R34) -/
  mask : Nat
  /-- the GO bits (or, for a register that is all action, all its bits): writing one is a command of its own -/
  go : Nat
  /-- bits [1:0] hold a tier code, R81 -/
  tier : Bool
  /-- a stated range of values (R36): shift, width, lowest, highest -/
  range : Option (Nat × Nat × Nat × Nat)
  /-- accepts writes from the Handler only -/
  handler : Bool
  deriving DecidableEq, Repr

/-- A RW register storing the bits of `mask`. -/
def RegRow.rw (name : String) (off reset mask : Nat) : RegRow :=
  ⟨name, off, 1, 4, .rw, .one, reset, mask, 0, false, none, false⟩
/-- A RO register. -/
def RegRow.ro (name : String) (off reset : Nat) : RegRow :=
  ⟨name, off, 1, 4, .ro, .one, reset, 0, 0, false, none, false⟩
/-- A RC register. -/
def RegRow.rc (name : String) (off : Nat) : RegRow :=
  ⟨name, off, 1, 4, .rc, .one, 0, 0, 0, false, none, false⟩
/-- A WO register: every write of it is a command of its own. -/
def RegRow.wo (name : String) (off : Nat) : RegRow :=
  ⟨name, off, 1, 4, .wo, .one, 0, 0, 0xFFFFFFFF, false, none, false⟩
/-- `n` copies, `stride` bytes apart. -/
def RegRow.times (r : RegRow) (n stride : Nat) : RegRow := { r with count := n, stride := stride }
/-- The low half of a 64-bit quantity. -/
def RegRow.lo (r : RegRow) : RegRow := { r with half := .lo }
/-- The high half of a 64-bit quantity. -/
def RegRow.hi (r : RegRow) : RegRow := { r with half := .hi }
/-- Writing a bit of `m` is a command with a row of its own. -/
def RegRow.acts (r : RegRow) (m : Nat) : RegRow := { r with go := m }
/-- Bits [1:0] hold a tier code. -/
def RegRow.tiered (r : RegRow) : RegRow := { r with tier := true }
/-- A field with a stated range. -/
def RegRow.within (r : RegRow) (shift width lo hi : Nat) : RegRow := { r with range := some (shift, width, lo, hi) }
/-- Handler writes only. -/
def RegRow.handlerOnly (r : RegRow) : RegRow := { r with handler := true }

/-- All 32 bits. -/
abbrev all32 : Nat := 0xFFFFFFFF
/-- Address bits [51:32] of a HI register. -/
abbrev hi20 : Nat := 0x000FFFFF

open RegRow

/-- The common block of R39. PAGE_ID, PAGE_CAPS and the derived bits of PAGE_STAT are computed where they are read. -/
def commonRows : List RegRow :=
  [ro "PAGE_ID" 0x000 0, ro "PAGE_CAPS" 0x004 0, (rw "PAGE_CTL" 0x008 0 0x5).acts all32, ro "PAGE_STAT" 0x00C 0,
   rw "IRQ_PEND" 0x010 0 all32, rw "IRQ_MASK" 0x014 all32 all32, rc "IRQ_RAW" 0x018, rc "ERR_FIRST" 0x01C]

/-- The GLB page (R44, R45, a fully enabled module; log entry 13 for the values stated per module). -/
def glbRows : List RegRow :=
  [ro "ARCH_VERSION" 0x040 0x00010000, (rw "HOST_ABI" 0x044 0 0x00FFFFFF).acts all32, ro "ABI_AGREED" 0x048 0,
   ro "PART_ID" 0x04C 0x00009260, (ro "SERIAL_LO" 0x050 0).lo, (ro "SERIAL_HI" 0x054 0).hi, ro "DIE_STEP" 0x058 0,
   ro "BASE_STEP" 0x05C 0, (ro "CAP_CORES_LO" 0x060 0xFFFFFFFF).lo, (ro "CAP_CORES_HI" 0x064 0x0000FFFF).hi,
   ro "CAP_ARRAY" 0x068 0x00004004, ro "CAP_LANES" 0x06C 0x01000100, ro "CAP_MEM" 0x070 0x10000400,
   ro "CAP_LPC" 0x074 0x000CFFFF, ro "CAP_TEXT" 0x078 0x04000010, ro "CAP_SERVE" 0x07C 0x20841000,
   ro "CAP_INDEX" 0x080 0x12200400, ro "CAP_SELECT" 0x084 0x00031000, ro "CAP_SEQ" 0x088 0x10020000,
   ro "CAP_MUZ" 0x08C 0x20100400, ro "CAP_MISC" 0x090 0x00008F34, ro "FORMATS" 0x094 0x000000FF,
   ro "BAD_ACCESS_COUNT" 0x098 0, ro "BAD_ACCESS_ADDR" 0x09C 0, rw "SCRATCH" 0x0A0 0 all32]

/-- One queue's registers (R75), `n` queues from `base`. `win` is the mask of the window and option bits of Qn_CFG, `cfg`
its reset value, `winMax` the largest window, `ctx` whether Qn_CTX is present. -/
def queueRows (base n win cfg winMax : Nat) (ctx : Bool) : List RegRow :=
  [((rw "Qn_BASE_LO" base 0 0xFFFFFFC0).lo).times n 0x40, ((rw "Qn_BASE_HI" (base + 0x04) 0 hi20).hi).times n 0x40,
   ((rw "Qn_SIZE" (base + 0x08) 4 0x1F).within 0 5 4 20).times n 0x40,
   ((rw "Qn_TAIL" (base + 0x0C) 0 all32).acts all32).times n 0x40, (ro "Qn_ISSUE" (base + 0x10) 0).times n 0x40,
   ((rw "Qn_COMMIT" (base + 0x14) 0 all32).acts all32).times n 0x40,
   ((rw "Qn_CFG" (base + 0x18) cfg win).within 0 9 0 winMax).times n 0x40,
   ((rw "Qn_CTL" (base + 0x1C) 0 0x1).acts all32).times n 0x40, (ro "Qn_STAT" (base + 0x20) 0).times n 0x40]
  ++ (if ctx then [((rw "Qn_CTX_LO" (base + 0x24) 0 all32).lo).times n 0x40,
        ((rw "Qn_CTX_HI" (base + 0x28) 0 hi20).hi).times n 0x40] else [])
  ++ [((rw "Qn_CQ_SIZE" (base + 0x2C) 4 0x1F).within 0 5 4 20).times n 0x40,
      ((rw "Qn_CQ_BASE_LO" (base + 0x30) 0 0xFFFFFFF0).lo).times n 0x40,
      ((rw "Qn_CQ_BASE_HI" (base + 0x34) 0 hi20).hi).times n 0x40,
      ((rw "Qn_CQ_HEAD" (base + 0x38) 0 all32).acts all32).times n 0x40, (ro "Qn_CQ_TAIL" (base + 0x3C) 0).times n 0x40]

/-- The CORE page: Shepherd (R75), arrays (R158), conversion (R188), special functions (R211), selection (R230). -/
def coreRows : List RegRow :=
  [rw "SHEP_CTL" 0x040 0 0x1, ro "SHEP_STAT" 0x044 0, (rw "PRED_LO" 0x048 0 all32).lo, (rw "PRED_HI" 0x04C 0 all32).hi,
   (rw "SEM0_1" 0x050 0 all32).times 8 4, rc "KILL_FAULT" 0x070, rc "KILL_PREEMPT" 0x074, rc "KILL_SPEC" 0x078,
   rc "KILL_OTHER" 0x07C, rw "SHEP_AGE" 0x080 0 0xFFFF]
  ++ queueRows 0x100 8 0x7FF 0x4 511 true
  ++ [ro "ARR_WIDTH" 0x300 0x40404040, ro "ARR_GANG" 0x304 0x40, (rw "ARR_CTL" 0x308 0 0x1).acts all32,
   ro "ARR_STAT" 0x30C 0, ((rw "ARR_OFF" 0x310 0 0xF).acts all32).handlerOnly,
   (((rw "ARR_BYPa_LO" 0x318 0 all32).lo).times 4 8).handlerOnly,
   ((((rw "ARR_BYPa_HI" 0x31C 0 all32).hi).times 4 8).acts all32).handlerOnly, rc "ARR_SAT" 0x338, rc "ARR_WSTALL" 0x33C,
   rc "ARR_FSTALL" 0x340, rc "SP_CONFLICT" 0x344, rc "MV_SAT" 0x348, rc "MV_ROWS_SKIPPED" 0x34C,
   (rc "MV_BYTES_LO" 0x350).lo, (rc "MV_BYTES_HI" 0x354).hi,
   (rw "SR_SEED_LO" 0x400 0 all32).lo, (rw "SR_SEED_HI" 0x404 0 all32).hi, rc "CONV_SAT" 0x408, rc "CONV_NAN" 0x40C,
   rc "BS4_CLAMP" 0x410, rc "OPT_NONFINITE" 0x414,
   ro "SFU_CAPS" 0x440 0x00092010, (rw "SFU_CTL" 0x444 0 0).acts 0x1, ro "SFU_STAT" 0x448 0, ro "MP_VALID" 0x44C 0,
   (ro "MP_TAG_LO" 0x450 0).lo, (ro "MP_TAG_HI" 0x454 0).hi, rc "SFU_NAN" 0x458, rc "SM_EMPTY" 0x45C, rc "SM_NAN" 0x460,
   rc "MP_RELOADS" 0x464, rc "SEAM_VIOL" 0x468,
   ro "SEL_CAPS" 0x480 0x0C101000, ro "SEL_STAT" 0x484 0, rc "SEL_NAN" 0x488, rc "SEL_REFILLS" 0x48C,
   rc "SEL_TIEPASS" 0x490, rc "SEL_SHORTFALL" 0x494, rc "SEL_DUPS" 0x498, rc "SEL_DUP_MISMATCH" 0x49C]

/-- MMUq (R111). -/
def mmuRows : List RegRow :=
  [((rw "PT_ROOT_LO" 0x040 0 0xFFFFF003).lo).tiered, (rw "PT_ROOT_HI" 0x044 0 hi20).hi,
   ((rw "FAULT_BASE_LO" 0x048 0 0xFFFFFFE3).lo).tiered, (rw "FAULT_BASE_HI" 0x04C 0 hi20).hi,
   (rw "FAULT_SIZE" 0x050 4 0x1F).within 0 5 4 16, rw "FAULT_HEAD" 0x054 0 all32, ro "FAULT_TAIL" 0x058 0,
   wo "FAULT_CLEAR" 0x05C, (rw "INVAL_VA_LO" 0x060 0 0xFFFF0000).lo, (rw "INVAL_VA_HI" 0x064 0 hi20).hi,
   rw "INVAL_PAGES" 0x068 0 all32, (rw "INVAL_CTL" 0x06C 0 0).acts 0x1, rc "TLB_MISSES" 0x070, rc "FAULTS" 0x074,
   ro "LOCKS_HELD" 0x078 0, ro "PENDING_RECORDS" 0x07C 0]

/-- MIG (R111, R521). -/
def migRows : List RegRow :=
  [((rw "MREQ_BASE_LO" 0x040 0 0xFFFFFFE3).lo).tiered, (rw "MREQ_BASE_HI" 0x044 0 hi20).hi,
   (rw "MREQ_SIZE" 0x048 4 0x1F).within 0 5 4 16, (rw "MREQ_TAIL" 0x04C 0 all32).acts all32, ro "MREQ_HEAD" 0x050 0,
   (rw "MIG_CFG" 0x054 4 0xF).within 0 4 1 8, ro "MIG_STAT" 0x058 0, rc "MOVED_PAGES" 0x05C, rc "POISON_LINES" 0x060,
   (((rw "PFs_BASE_LO" 0x080 0 0xFFFFFFE3).lo).tiered).times 16 0x20, ((rw "PFs_BASE_HI" 0x084 0 hi20).hi).times 16 0x20,
   ((rw "PFs_SIZE" 0x088 4 0x1F).within 0 5 4 16).times 16 0x20, ((rw "PFs_TAIL" 0x08C 0 all32).acts all32).times 16 0x20,
   (ro "PFs_HEAD" 0x090 0).times 16 0x20, (rw "PFs_PACE" 0x094 0 0xFFFF073F).times 16 0x20,
   (rw "PFs_CFG" 0x098 0 0xFF03).times 16 0x20, (ro "PFs_STAT" 0x09C 0).times 16 0x20]

/-- TIER (R111). -/
def tierRows : List RegRow :=
  [((rw "QUOTA_BASE_LO" 0x040 0 0xFFFFFFE3).lo).tiered, (rw "QUOTA_BASE_HI" 0x044 0 hi20).hi,
   ((rw "AGE_NEAR_BASE_LO" 0x048 0 0xFFFFFFF3).lo).tiered, (rw "AGE_NEAR_BASE_HI" 0x04C 0 hi20).hi,
   ((rw "AGE_LP_BASE_LO" 0x050 0 0xFFFFFFF3).lo).tiered, (rw "AGE_LP_BASE_HI" 0x054 0 hi20).hi,
   rw "AGE_REFRESH" 0x058 0 0xFFFF, (rw "SCAN_CTL" 0x05C 0 0x2).acts 0x1, rw "SCAN_THRESH" 0x060 0 all32,
   ((rw "SCAN_OUT_LO" 0x064 0 0xFFFFFFFB).lo).tiered, (rw "SCAN_OUT_HI" 0x068 0 hi20).hi, rw "SCAN_MAX" 0x06C 0 all32,
   ro "SCAN_FOUND" 0x070 0, (rc "NEAR_CE_Qq" 0x080).times 4 4, (rc "NEAR_UE_Qq" 0x090).times 4 4]

/-- LPCk (R111). LPC_STAT's channels-present byte is stated per module: log entry 13. -/
def lpcRows : List RegRow :=
  [rw "LPC_CFG" 0x040 0x18 0xFF, ro "LPC_STAT" 0x044 0x000000FF, ro "LPC_TEMP" 0x048 0,
   (rc "CHc_CE" 0x050).times 8 0x10, (rc "CHc_UE" 0x054).times 8 0x10, ((ro "CHc_UE_ADDR_LO" 0x058 0).lo).times 8 0x10,
   ((ro "CHc_UE_ADDR_HI" 0x05C 0).hi).times 8 0x10]

/-- DMAn (R126). -/
def dmaRows : List RegRow :=
  [(rw "SRC_LO" 0x040 0 all32).lo, (rw "SRC_HI" 0x044 0 all32).hi, (rw "DST_LO" 0x048 0 all32).lo,
   (rw "DST_HI" 0x04C 0 all32).hi, rw "COUNT" 0x050 0 all32, (rw "CTL" 0x054 0 0x3FFF0).acts 0x3, ro "STAT" 0x058 0,
   ro "LINES_HELD" 0x05C 0, (rc "BYTES_LO" 0x060).lo, (rc "BYTES_HI" 0x064).hi, rc "NARROW" 0x068,
   rc "POISON_LINES" 0x06C, rc "STOPS" 0x070]

/-- SPLq (R243, R249). -/
def splRows : List RegRow :=
  [ro "SPL_CAPS" 0x040 0x03100410, rc "REPLACED" 0x044, rc "SEG_CLOSED" 0x048, rc "PIECE_CUTS" 0x04C, rc "BAD_IDS" 0x050,
   rc "TOKENS_OUT" 0x054, rc "BYTES_OUT" 0x058, ((rw "VOCv_NEXT_LO" 0x080 0 0xFFFFFFC0).lo).times 16 0x10,
   ((rw "VOCv_NEXT_HI" 0x084 0 hi20).hi).times 16 0x10, ((rw "VOCv_CTL" 0x088 0 0).acts 0x1).times 16 0x10,
   (ro "VOCv_STAT" 0x08C 0).times 16 0x10]
  ++ queueRows 0x200 4 0x400 0x1 511 false

/-- MUZq (R261, R272). -/
def muzRows : List RegRow :=
  [ro "MUZ_CAPS" 0x040 0x08104400, rc "STEPS" 0x044, rc "STEP_MISS" 0x048, rc "DEAD_ENDS" 0x04C, rc "FALLBACKS" 0x050,
   rc "OVERFLOWS" 0x054, rc "TAKEBACKS" 0x058, rc "BAD_TABLE" 0x05C]
  ++ queueRows 0x200 4 0x5FF 0x4 4 true

/-- EMBq (R291, R298). -/
def embRows : List RegRow :=
  [ro "EMB_CAPS" 0x040 0x0C200440, rc "DEFAULT_ROWS" 0x044, rc "REMOTE_ROWS" 0x048, rc "EXCH_BATCHES" 0x04C,
   rc "MOVING_KILLS" 0x050, rc "GEN_HOLDS" 0x054, rc "DUPS_SUMMED" 0x058, rc "NONFINITE_ROWS" 0x05C, rc "STALE_GEN" 0x060,
   rc "EXCH_WAITS" 0x064, (rw "SR_SEED_LO" 0x068 0 all32).lo, (rw "SR_SEED_HI" 0x06C 0 all32).hi]
  ++ queueRows 0x200 4 0x5FF 0x4 16 false
  ++ [((rw "TBLt_NEXT_LO" 0x400 0 0xFFFFFF80).lo).times 64 0x20, ((rw "TBLt_NEXT_HI" 0x404 0 hi20).hi).times 64 0x20,
   ((rw "TBLt_CTL" 0x408 0 0).acts 0x1).times 64 0x20, (ro "TBLt_STAT" 0x40C 0).times 64 0x20,
   (ro "TBLt_REFS" 0x410 0).times 64 0x20, (rw "TBLt_FREE_HEAD" 0x414 0 all32).times 64 0x20,
   (ro "TBLt_FREE_TAIL" 0x418 0).times 64 0x20]

/-- RTVq (R323, R330). -/
def rtvRows : List RegRow :=
  [ro "RTV_CAPS" 0x040 0x40400410, rw "RTV_CFG" 0x044 0x100 0xFFFF, (rc "ENTRIES_LO" 0x048).lo, (rc "ENTRIES_HI" 0x04C).hi,
   rc "LIST_READS" 0x050, rc "BATCHED" 0x054, rc "FILTERED" 0x058, rc "SHORTFALLS" 0x05C, rc "DUPS" 0x060,
   rc "STALE_EPOCH" 0x064, rc "EDGE_STALE" 0x068, rc "VISIT_LIMITS" 0x06C, rc "LIST_FULL" 0x070, rc "BAD_IDS" 0x074,
   rc "EPOCH_HOLDS" 0x078, rc "CB_RELOADS" 0x07C]
  ++ queueRows 0x200 4 0x5FF 0x4 16 false
  ++ [((rw "IDXi_NEXT_LO" 0x400 0 0xFFFFFF80).lo).times 16 0x20, ((rw "IDXi_NEXT_HI" 0x404 0 hi20).hi).times 16 0x20,
   ((rw "IDXi_CTL" 0x408 0 0).acts 0x1).times 16 0x20, (ro "IDXi_STAT" 0x40C 0).times 16 0x20,
   (ro "IDXi_EPOCH" 0x410 0).times 16 0x20, (ro "IDXi_REFS" 0x414 0).times 16 0x20]

/-- PCKq (R335, R348). -/
def pckRows : List RegRow :=
  [ro "PCK_CAPS" 0x040 0x00100004, rc "PASSAGES_OUT" 0x044, rc "MISSING" 0x048, rc "TRUNCATIONS" 0x04C,
   rc "PAIR_CUTS" 0x050, rc "CEIL_BREACH" 0x054, rc "BATCH_WAITS" 0x058]
  ++ queueRows 0x200 4 0x5FF 0x4 4 false

/-- SRVq (R372, R378). -/
def srvRows : List RegRow :=
  [ro "SRV_CAPS" 0x040 0x02FF0100, rw "SRV_CFG" 0x044 0x001003E8 all32,
   ((rw "CONV_BASE_LO" 0x048 0 0xFFFFFFC3).lo).tiered, (rw "CONV_BASE_HI" 0x04C 0 hi20).hi,
   (rw "CONV_SIZE" 0x050 4 0x1F).within 0 5 4 18, ((rw "EVT_BASE_LO" 0x054 0 0xFFFFFFF3).lo).tiered,
   (rw "EVT_BASE_HI" 0x058 0 hi20).hi, (rw "EVT_SIZE" 0x05C 4 0x1F).within 0 5 4 16, rw "EVT_HEAD" 0x060 0 all32,
   ro "EVT_TAIL" 0x064 0, ((rw "BUD_BASE_LO" 0x068 0 0xFFFFFFE3).lo).tiered, (rw "BUD_BASE_HI" 0x06C 0 hi20).hi,
   ((rw "ADP_BASE_LO" 0x070 0 0xFFFFFFE3).lo).tiered, (rw "ADP_BASE_HI" 0x074 0 hi20).hi, rw "SLOT_SEL" 0x078 0 0xFF,
   ro "SLOT_STAT" 0x07C 0, ro "SLOT_STEP" 0x080 0, ro "SLOT_CONV" 0x084 0, (rw "SLOT_CTL" 0x088 0 0).acts 0x1,
   rw "GRP_SEL" 0x08C 0 0xFF, (rw "GRP_CORES_LO" 0x090 0 all32).lo, (rw "GRP_CORES_HI" 0x094 0 0xFFFF).hi,
   (rw "GRP_CTL" 0x098 0 0xC).acts 0x3, ro "GRP_STAT" 0x09C 0, rc "CONFIRMS" 0x0A0, rc "REJECTS" 0x0A4,
   rc "SPEC_LAUNCHES" 0x0A8, rc "MBOX_DROPS" 0x0AC, rc "LAUNCH_WAITS" 0x0B0, rc "BUDGET_HOLDS" 0x0B4,
   rc "EXPIRIES" 0x0B8, rc "ADAPTER_HOLDS" 0x0BC, rc "EVT_WAITS" 0x0C0]
  ++ queueRows 0x200 4 0x400 0x1 511 false
  ++ [(wo "MBOXs" 0x800).times 256 4]

/-- LSHn (R405). The registers from 0x100 up are module-wide views. -/
def lshRows : List RegRow :=
  [(rw "LINK_CTL" 0x040 0 0).acts 0x1, ro "LINK_STAT" 0x044 0, (ro "PEER_SERIAL_LO" 0x048 0).lo,
   (ro "PEER_SERIAL_HI" 0x04C 0).hi, rc "FEC_CORR" 0x050, rc "CRC_FAIL" 0x054, rc "RETRIES" 0x058, rc "RETRAINS" 0x05C,
   rc "CREDIT_STALL" 0x060, ro "HOP_LATENCY" 0x064 0,
   (rw "PAIR_CTL" 0x100 0 0xBF).acts 0x1F00, ro "PAIR_STAT" 0x104 0, rw "HB_CFG" 0x108 0x00FA040A 0xFFFF0FFF,
   rw "OWN_QUEUES" 0x10C 0xFFF 0xFFF, ((rw "LOG_BASE_LO" 0x110 0 0xFFFFFFC3).lo).tiered, (rw "LOG_BASE_HI" 0x114 0 hi20).hi,
   (rw "LOG_SIZE" 0x118 0x1A 0x3F).within 0 6 20 32, ((rw "ADOPT_BASE_LO" 0x11C 0 0xFFFFFFC3).lo).tiered,
   (rw "ADOPT_BASE_HI" 0x120 0 hi20).hi, (rw "RESYNC_LIST_LO" 0x124 0 0xFFFFFFF0).lo, (rw "RESYNC_LIST_HI" 0x128 0 hi20).hi,
   rw "RESYNC_COUNT" 0x12C 0 all32, (ro "LOSS_TIME_LO" 0x130 0).lo, (ro "LOSS_TIME_HI" 0x134 0).hi, rc "MIR_WAIT" 0x138,
   rc "MIR_COMMITS" 0x13C, rc "ADOPT_SKIPS" 0x140, rc "WIN_DROPS" 0x144, rw "TIME_CFG" 0x148 0x14 0x1F,
   ro "TIME_STAT" 0x14C 0, ro "TIME_OFFSET" 0x150 0,
   ((rw "WINw_LOCAL_LO" 0x200 0 0xFFE00000).lo).times 16 0x20, ((rw "WINw_LOCAL_HI" 0x204 0 hi20).hi).times 16 0x20,
   ((rw "WINw_REMOTE_LO" 0x208 0 0xFFE00000).lo).times 16 0x20, ((rw "WINw_REMOTE_HI" 0x20C 0 hi20).hi).times 16 0x20,
   ((rw "WINw_CTL" 0x210 0 0x3FF).within 4 6 21 40).times 16 0x20]

/-- PCIE_A and PCIE_B (R416). -/
def pcieRows : List RegRow :=
  [ro "LINK_STAT" 0x040 0, (rw "APER_BASE_LO" 0x044 0 0xFFFF0000).lo, (rw "APER_BASE_HI" 0x048 0 hi20).hi,
   ro "APER_SIZE" 0x04C 0x1C, ro "READS_OUT" 0x050 0, (rc "KENNEL_RD_LO" 0x054).lo, (rc "KENNEL_RD_HI" 0x058).hi,
   (rc "KENNEL_WR_LO" 0x05C).lo, (rc "KENNEL_WR_HI" 0x060).hi, rc "CPL_ERR" 0x064, rc "POISON_TX" 0x068,
   rc "POISON_RX" 0x06C, rc "CE_COUNT" 0x070, rc "UE_COUNT" 0x074, rc "KENNEL_DROPS" 0x078, rc "FLR_COUNT" 0x07C]

/-- ROUTEi resets to i in each byte (R428). -/
def routeRows : Nat → List RegRow
  | 0 => []
  | n + 1 => routeRows n ++ [rw "ROUTEi" (0x080 + 4 * n) (n * 0x01010101) 0x1F1F1F1F]

/-- IRQ (R428). -/
def irqRows : List RegRow :=
  [(rw "PENDw" 0x040 0 all32).times 4 4, (rw "MASKw" 0x050 all32 all32).times 4 4, (ro "RAWw" 0x060 0).times 4 4,
   wo "SUM_ACK" 0x070, ro "SUM_OUT" 0x074 0, ro "SUM_ACTIVE" 0x078 0, wo "SW_TRIG" 0x07C]
  ++ routeRows 32
  ++ [rw "SUM_DEST0" 0x100 0x55555555 all32, rw "SUM_DEST1" 0x104 0xFFFF5555 all32, rc "RET_STAT" 0x108,
   (ro "EVT_CNTi" 0x200 0).times 64 4]

/-- PWR (R451). SEQ_STAT is stated per module: log entry 13. -/
def pwrRows : List RegRow :=
  [ro "PWR_STAT" 0x040 0, (rw "VOTE" 0x044 1 0x7).acts all32, rw "PLIMIT" 0x048 0x1A90 0xFFFF,
   rw "PLIM_CFG" 0x04C 0x006403E8 all32, ro "PIN_AVG" 0x050 0, rw "IDLE_DELAY" 0x054 0x400 all32,
   rw "WATCH_PERIOD" 0x058 0x8000 0x00FFFFFF, rw "WATCH_CTL" 0x05C 0x1000 0x1DFF,
   (rw "WTHRn" 0x060 0x7FFF8000 all32).times 5 4, (rw "WTHRn" 0x074 0xFFFF0000 all32).times 3 4,
   (ro "WSAMPn" 0x080 0).times 9 4, rw "WAKE_EN" 0x0A4 0x3F 0x3F, ro "LAST_WAKE" 0x0A8 0, (ro "LAST_WAKE_TIME_LO" 0x0AC 0).lo,
   (ro "LAST_WAKE_TIME_HI" 0x0B0 0).hi, (rw "TIMER_LO" 0x0B4 0 all32).lo, (rw "TIMER_HI" 0x0B8 0 all32).hi,
   rw "TIMER_CTL" 0x0BC 0 0x1, ro "SEQ_STAT" 0x0C0 0x7, (rw "SHDN_CTL" 0x0C4 0 0).acts 0x1, ro "BIAS_STAT" 0x0C8 0,
   (ro "VIN_ANA_M, VIN_IO_M, VIN_CORE_M" 0x0D0 0).times 3 4, (ro "RAILn_V" 0x100 0).times 13 8,
   (ro "RAILn_S" 0x104 0).times 13 8]

/-- CLK (R452). -/
def clkRows : List RegRow :=
  [((rw "CDd_CTL" 0x040 0xC 0xF).acts all32).times 4 4, (ro "CDd_STAT" 0x050 0).times 4 4, ro "FCLK_STAT" 0x060 0x4B0,
   ro "PLL_STAT" 0x064 0, rc "POINT_CHANGES" 0x068]

/-- RST (R467). RESET_CAUSE resets per reset: 1 after a power-on reset. -/
def rstRows : List RegRow :=
  [ro "RESET_CAUSE" 0x040 1, wo "MOD_RESET" 0x044, ro "BOOT_STAT" 0x048 0, ro "RESET_COUNT" 0x04C 0,
   (rw "WDOG_CTL" 0x050 0 0xFFFFFF01).handlerOnly, (wo "WDOG_KICK" 0x054).handlerOnly,
   (rw "REQ_ADDR_LO" 0x058 0 0xFFFFFFC0).lo, (rw "REQ_ADDR_HI" 0x05C 0 hi20).hi, (rw "REQ_CTL" 0x060 0 0xC).acts 0x3,
   ro "REQ_STAT" 0x064 0]

/-- SEC (R467). M0 to M7 stand in State.meas and are read from there. -/
def secRows : List RegRow :=
  [ro "SEC_STAT" 0x040 0, ro "FW_SVN" 0x044 0, (ro "CNTi" 0x048 0).times 4 4, (rw "BOOT_CTL" 0x058 0 0).acts 0x7,
   ro "MEAS_PENDING" 0x05C 0, (rw "SIGN_ADDR_LO" 0x060 0 0xFFFFFFC0).lo, (rw "SIGN_ADDR_HI" 0x064 0 hi20).hi,
   (rw "SIGN_CTL" 0x068 0 0x2).acts 0x1, (ro "M0-M7" 0x080 0).times 128 4]

/-- BIST (R482). -/
def bistRows : List RegRow :=
  [(rw "BIST_CTL" 0x040 0 0x1C).acts 0x3, rw "RUN_FIRST" 0x044 0 0x7FF, rw "RUN_COUNT" 0x048 0 0xFFF,
   rw "POWER_BUDGET" 0x04C 0xC80 0xFFFF, ro "BIST_STAT" 0x050 0, ((rw "STAGE_BASE_LO" 0x054 0 0xFFFF0003).lo).tiered,
   (rw "STAGE_BASE_HI" 0x058 0 hi20).hi, rw "STAGE_SIZE" 0x05C 0 0xFFFF, ((rw "RES_BASE_LO" 0x060 0 0xFFFFFFF3).lo).tiered,
   (rw "RES_BASE_HI" 0x064 0 hi20).hi, (rw "RES_SIZE" 0x068 4 0x1F).within 0 5 4 16, rw "RES_HEAD" 0x06C 0 all32,
   ro "RES_TAIL" 0x070 0, rc "FAIL_COUNT" 0x074, ((rw "RPR_CTL" 0x078 0 0).acts 0x1).handlerOnly, ro "RPR_STAT" 0x07C 0,
   ((rw "RPR_ENTRYi" 0x080 0 all32).times 4 4).handlerOnly, ro "SPARES_USED" 0x090 0,
   ((rw "RETIRED_BASE_LO" 0x094 0 0xFFFFFFF8).lo).handlerOnly, ((rw "RETIRED_BASE_HI" 0x098 0 hi20).hi).handlerOnly,
   (rw "RETIRED_COUNT" 0x09C 0 all32).handlerOnly]

/-- TRC (R503). -/
def trcRows : List RegRow :=
  [rw "TRC_CTL" 0x040 0 0x1FF, ro "TRC_STAT" 0x044 0, rw "SNAP_PERIOD" 0x048 0 0xFFFF, rw "SNAP_CTL" 0x04C 0 0x0FFF0FFF,
   (rc "RECORDS_LO" 0x050).lo, (rc "RECORDS_HI" 0x054).hi, rc "DROPPED" 0x058,
   (rw "FLTf_CTL" 0x080 0 0x1).times 4 0x20, (rw "FLTf_JOB_MATCH" 0x084 0 all32).times 4 0x20,
   (rw "FLTf_JOB_MASK" 0x088 0 all32).times 4 0x20, (rw "FLTf_LAYER" 0x08C 0xFFFF0000 all32).times 4 0x20,
   (rw "FLTf_OP" 0x090 0 all32).times 4 0x20, (rw "FLTf_ENG" 0x094 0x0FFF0000 0x0FFF0FFF).times 4 0x20]

/-- DBG (R504). -/
def dbgRows : List RegRow :=
  [(rw "ENG_SEL" 0x040 0 0x1FFF).acts all32, ro "ENG_INFO" 0x044 0, (ro "BUSY_LO" 0x048 0).lo, (ro "BUSY_HI" 0x04C 0).hi,
   (ro "STALL_LO" 0x050 0).lo, (ro "STALL_HI" 0x054 0).hi, (ro "IDLE_LO" 0x058 0).lo, (ro "IDLE_HI" 0x05C 0).hi,
   (rw "CNT_CTL" 0x060 0 0).acts 0x1, rw "DFLT_CTL" 0x064 0 0x3, rc "BRK_HITS" 0x068,
   ((ro "REASONn_LO" 0x080 0).lo).times 16 8, ((ro "REASONn_HI" 0x084 0).hi).times 16 8, rw "DFLT_JOB_MATCH" 0x104 0 all32,
   rw "DFLT_JOB_MASK" 0x108 0 all32, rw "DFLT_LAYER" 0x10C 0xFFFF0000 all32, rw "DFLT_OP" 0x110 0 all32,
   rw "DFLT_ENG" 0x114 0x0FFF0000 0x0FFF0FFF]

/-- LIFE (R505). -/
def lifeRows : List RegRow :=
  [(rw "LIFE_CTL" 0x040 0 0).acts 0x1, ro "LIFE_STAT" 0x044 0, rw "LIFE_PERIOD" 0x048 0x258 all32, ro "LIFE_SEQ" 0x04C 0,
   rw "LIFE_SEL" 0x050 0 0x3FF, ro "LIFE_DATA" 0x054 0]

/-- The block-specific registers of a block. -/
def Block.rows : Block → List RegRow
  | .glb => glbRows | .pwr => pwrRows | .clk => clkRows | .rst => rstRows | .irq => irqRows | .sec => secRows
  | .life => lifeRows | .bist => bistRows | .trc => trcRows | .dbg => dbgRows | .pcie => pcieRows | .lsh => lshRows
  | .mmu => mmuRows | .mig => migRows | .tier => tierRows | .lpc => lpcRows | .dma => dmaRows | .core => coreRows
  | .spl => splRows | .rtv => rtvRows | .emb => embRows | .pck => pckRows | .muz => muzRows | .srv => srvRows

/-- Whether a row covers the page offset `o`. -/
def RegRow.covers (r : RegRow) (o : Nat) : Bool :=
  decide (r.off ≤ o) && decide ((o - r.off) % r.stride = 0) && decide ((o - r.off) / r.stride < r.count)

/-- The page of a window offset, and the offset within the page (R26). -/
def pageOfOff (off : Nat) : Nat := off / 0x1000
/-- The offset within its page. -/
def inPage (off : Nat) : Nat := off % 0x1000

/-- The row of the register at a window offset, none where the page is unimplemented or the offset is RSV. The IRQ page
has no interrupt registers of its own (R418). -/
def regRow (off : Nat) : Option RegRow :=
  match blockOf (pageOfOff off) with
  | none => none
  | some (b, _) =>
    if inPage off < 0x040 then
      if b = .irq ∧ 0x010 ≤ inPage off then none else commonRows.find? (·.covers (inPage off))
    else b.rows.find? (·.covers (inPage off))

/-- The reset value of the register at a window offset (R39 and the reset column of every register table). -/
def resetWord (off : Nat) : Word :=
  match regRow off with
  | none => 0
  | some r => BitVec.ofNat 32 r.reset

/-- Registers that several pages present as one (R231, R273, R299, R378, R405): the offset of the page that holds them. -/
def homeOff (off : Nat) : Nat :=
  let o := inPage off
  match blockOf (pageOfOff off) with
  | some (.spl, _) => if 0x080 ≤ o ∧ o < 0x180 then 0xC0 * 0x1000 + o else off
  | some (.rtv, _) => if 0x400 ≤ o ∧ o < 0x600 then 0xC1 * 0x1000 + o else off
  | some (.emb, _) => if 0x400 ≤ o ∧ o < 0xC00 then 0xC2 * 0x1000 + o else off
  | some (.srv, _) => if (0x068 ≤ o ∧ o < 0x078) ∨ (0x08C ≤ o ∧ o < 0x0A0) then 0xC5 * 0x1000 + o else off
  | some (.lsh, _) => if 0x100 ≤ o then 0x12 * 0x1000 + o else off
  | _ => off

/-- Registers banked per requester (R26, R33, R44, R430, R467, R488). -/
def bankedOff (off : Nat) : Bool :=
  let o := inPage off
  let p := pageOfOff off
  (p == 0x000 && (o == 0x044 || o == 0x0A0)) || (p == 0x001 && o == 0x044) || (p == 0x003 && decide (0x058 ≤ o ∧ o ≤ 0x064))
    || (p == 0x006 && o == 0x050) || (p == 0x009 && (decide (0x040 ≤ o ∧ o ≤ 0x05C) || decide (0x080 ≤ o ∧ o < 0x100)))

end Sys2Proof.Machine
end

