-- ==== Sys2Proof/Machine/State.lean ====
section
/-! DEFINITION. The state of the module as plain data: the register file, the memories, every queue, table, link, counter
and timer the spec gives the block, the boot and trust state, and the queue of waiting commands. The default of each field
is its reset value (State.reset); log entry 2 says what reset means here and log entries 12 to 14 name the values the spec
does not give. -/

namespace Sys2Proof.Machine

/-- Why the module stops. -/
inductive Fault where
  /-- A register access outside the 64 MiB window of R25: raised by the register meanings. Safe: no such access exists. -/
  | outOfWindow
  deriving DecidableEq, Repr

/-- Why a command has no meaning. -/
inductive Refusal where
  /-- The command is not modelled yet: raised by Dispatch arms only. Safe: the machine stops. -/
  | notModelled (mnemonic : String)
  /-- The command is ill-formed (WellFormed): no such event can reach the module. Raised by Dispatch's meanings. Safe. -/
  | illFormed (mnemonic : String)
  deriving DecidableEq, Repr

/-! ### Queues (R48, R57 to R78) -/

/-- The submitting requester of a descriptor (R48). -/
inductive Submitter where
  | portA | portB | handler | serving
  deriving DecidableEq, Repr

/-- A queue: its engine and number. -/
structure QId where
  eng : Eng
  q : Nat
  deriving DecidableEq, Repr

/-- Qn_STAT.state (R75); IDLE is RUNNING with equal pointers and is derived. -/
inductive QSt where
  | disabled | running | paused | faultHold | halted
  deriving DecidableEq, Repr

/-- A constraint record as a Muzzle command holds it (R260): its stack entries that differ from memory stand in `stack`, as
entry and value. -/
structure MuzRec where
  dead : Bool := false
  failed : Bool := false
  missSeen : Bool := false
  mode : Nat := 0
  state : Nat := 0
  node : Nat := 0
  sp : Nat := 0
  steps : Nat := 0
  grammar : Nat := 0
  stack : List (Nat × Nat) := []
  deriving DecidableEq, Repr

/-- A row as an owner served it, or as an update leaves it (R279, R288): the part of the list it was asked for in (R290), whether the
default row was read, whether the row lags (R283), whether its entry is valid, its bytes and its optimiser state. -/
structure EmbRow where
  part : Nat
  row : Nat
  dflt : Bool
  stale : Bool
  ok : Bool
  data : List Byte
  state : List Byte
  deriving DecidableEq, Repr

/-- A batch sent and not yet served (R290): the part of the list it is of, the owner's module and quadrant, the rows or list entries it
carries, and whether its wait for an unreachable module has been counted. -/
structure EmbBatch where
  part : Nat
  module : Nat
  quad : Nat
  rows : List Nat
  waited : Bool
  deriving DecidableEq, Repr

/-- What an embedding command carries (R273, R281, R290): table and bank, the order of its binding among all, the generation
it pinned, C at issue, the seeds of the four units at issue (R167), its list once read, the place of its sending among all (R12), batches
not yet served, rows served, the directory entries whose moving bit it has set (address, and base of a resident table), what its commit
step displaces, and how many bytes of output a gather may have begun to write (R18). -/
structure EmbWork where
  table : Nat
  bank : Nat
  serial : Nat
  pin : Option Nat
  gen : Nat
  seeds : List DWord
  list : List Nat := []
  sent : Bool := false
  order : Nat := 0
  batches : List EmbBatch := []
  rows : List EmbRow := []
  moved : List (Nat × Option Nat) := []
  frees : List (Nat × Nat) := []
  outLen : Nat := 0
  done : Bool := false
  deriving DecidableEq, Repr

/-- A scored entry or node (R311): id, score, attribute bits, and where it lies. -/
structure RtvCand where
  id : Nat
  score : Nat
  attr : Nat
  slot : Nat := 0
  deriving DecidableEq, Repr

/-- A query of a search: its prepared elements as FP32 codes, whether it is a zero query, each owner's best candidates, and
what its trailer tells. -/
structure RtvQuery where
  q : List Nat
  zero : Bool
  cands : List (Nat × List RtvCand) := []
  scored : Nat := 0
  lists : Nat := 0
  stale : Bool := false
  skipped : Bool := false
  nan : Bool := false
  limit : Bool := false
  deriving DecidableEq, Repr

/-- What a Retriever command carries (R299, R309): index slot and bank, the epoch it pinned or read, whether the slot's counts
still hold it (R300), the parameter block, its queries once read, the list a compaction holds, and, of a mutation whose commit step has
begun, the items it has still to apply and those applied, skipped and refused for a full list (R319). -/
structure RtvWork where
  slot : Nat
  bank : Nat
  epoch : Nat
  counted : Bool
  par : List Byte := []
  sent : Bool := false
  queries : List RtvQuery := []
  holds : Option Nat := none
  items : List (List Byte) := []
  applied : Nat := 0
  skips : Nat := 0
  fulls : Nat := 0
  deriving DecidableEq, Repr

/-- What a streaming PCK_PROMPT carries (R340 to R343): the parameter and template blocks, the candidate result, the chunks it is to
signal, the next batch, whether its count is taken, and once its record is read the ceiling it places by, the scored candidates not placed
(index and score), the entries emitted, the passages placed (id and score), what is left of A, what the header counts, whether passage
emission has ended, the lowest ceiling so far, chunks signalled, and the end that pads and signals what remains: a rejection by its code, or
a soft reset. -/
structure PckWork where
  par : List Byte
  tmpl : List Byte
  cand : List Byte
  total : Nat
  batch : Nat := 0
  taken : Bool := false
  placing : Option Nat := none
  scored : List (Nat × Nat) := []
  entries : List Nat := []
  placed : List (Nat × Nat) := []
  left : Nat
  missing : Nat := 0
  breach : Nat := 0
  truncated : Bool := false
  firstDropped : Nat := 0xFFFFFFFF
  closed : Bool := false
  tokens : Nat := 0
  ceil : Option Nat := none
  chunks : Nat := 0
  ending : Option (Option Nat) := none
  deriving DecidableEq, Repr

/-- What a stage-unit command carries from its execution to its commit step. -/
inductive Work where
  | none
  /-- Splice (R233, R242): the stream record's address, the slot and bank, and what the stream's list of references becomes:
  whether a new stream was begun, and whether the stream closes -/
  | splice (va slot bank : Nat) (fresh final : Bool) (raws : List Nat)
  /-- Muzzle (R264 to R269): the record's address, the pending state, the bytes of mask and trailer, and whether the command missed or
  overflowed -/
  | muz (va : Nat) (pending : MuzRec) (maskLen : Nat) (missed : Bool)
  | emb (w : EmbWork)
  | rtv (w : RtvWork)
  | pck (w : PckWork)
  /-- the serving block (R372): the parameter block of an admission -/
  | srv (params : List Byte)
  deriving DecidableEq, Repr

/-- An issued, uncommitted command (R52, R70): its pointer, descriptor and submitter, the level it was granted at (R63), the
rounding seed read at issue (R167), the context block it issued under (R66), and what it has produced. -/
structure Cmd where
  ptr : Word
  desc : BitVec 512
  sub : Submitter
  lvl : Nat
  seed : DWord
  ctx : List Byte
  rerun : Bool
  skipped : Bool
  finished : Bool
  /-- semaphore counts it has taken and a kill returns, as core and semaphore (R69) -/
  takes : List (Nat × Nat)
  issuedAt : Nat
  /-- status code its record carries (R79), 0 for success -/
  code : Nat
  /-- the result slot (R52) -/
  result : List Byte
  /-- the writes of its write-out, as virtual address and bytes (R70 step 5) -/
  writes : List (Nat × List Byte)
  predMask : DWord
  predVal : DWord
  /-- counters of its engine's page that its Hitch bumps, by page offset -/
  hitchCounts : List (Nat × Nat)
  /-- semaphores its commit step increments, as core, semaphore and count -/
  signals : List (Nat × Nat × Nat)
  /-- references it holds on the slots of its unit, as slot and bank (R233, R275, R301) -/
  pins : List (Nat × Nat)
  /-- the writes its commit step has still to make, once that step has begun (R246) -/
  todo : Option (List (Nat × List Byte))
  /-- the semaphores it has incremented before its commit: the mask-ready signal, or a gather's (R264, R294) -/
  sent : List (Nat × Nat) := []
  /-- its provisional candidate has been sent (R354) -/
  reported : Bool := false
  /-- its Hitch has begun (R70 step 5): it commits, whatever is killed -/
  going : Bool := false
  /-- of an update of rows: the ranges it will write, and those that an update not ordered before it has written since it issued (R186,
  R289) -/
  spans : List (Nat × Nat) := []
  clash : List (Nat × Nat) := []
  /-- the mode of its arrays, as they began it (R142), and the cycles they have run (R129) -/
  tree : Bool := false
  ran : Nat := 0
  /-- of a special-function command that has the unit with its store loaded: the microprogram it runs, empty where it names none or a
  clear slot (R204) -/
  prog : Option (List Byte) := none
  /-- the result slot it names, once the command that filled it has committed (R52; log entry 61) -/
  operand : Option (List Byte) := none
  work : Work
  deriving DecidableEq, Repr

/-- What a committed or rejected command still owes at step 6 of R70: its completion record, whether one is due, whether it
raises the irq, whether it waits for the twin's acknowledgement, and whether its HITCH trace record is still to come. -/
structure Owed where
  bytes : List Byte
  record : Bool
  irq : Bool
  ack : Bool
  hitch : Bool
  /-- owed only because a semaphore saturated (R69) -/
  late : Bool := false
  deriving DecidableEq, Repr

/-- A rejected command that waits to be the oldest (R60). -/
structure Rejected where
  ptr : Word
  code : Nat
  desc : BitVec 512
  deriving DecidableEq, Repr

/-- What the module holds of one queue beside its registers. -/
structure QState where
  st : QSt := .disabled
  /-- enable was cleared and issued work has not drained (R74) -/
  draining : Bool := false
  /-- Qn_STAT.kill_cause -/
  cause : Nat := 0
  /-- pointers of the uncommitted slots whose command has been killed at least once (the record's rerun bit, R55) -/
  killed : List Word := []
  /-- submitter records: the TAIL each accepted write reached, oldest first (R48) -/
  subs : List (Word × Submitter) := []
  /-- issued, uncommitted commands, oldest first -/
  cmds : List Cmd := []
  /-- the loaded context block and its address (R66), empty for none -/
  ctx : List Byte := []
  ctxAddr : Nat := 0
  /-- the Muzzle grammar header copy (R250) -/
  grammar : List Byte := []
  /-- a CTX_LOAD has issued since the queue was last enabled (R67) -/
  ctxSince : Bool := false
  /-- the context named by Q_CTX is to be reloaded before anything issues (R66) -/
  reload : Bool := false
  rejected : Option Rejected := none
  /-- kills that wait for a command past the point where it can be killed (R246, R269, R346): their causes, first come first -/
  deferred : List KillCause := []
  /-- the command, or the slot at ISSUE, whose access is held while a stage unit's queue reads FAULT_HOLD (R89; log entry 62) -/
  heldAt : Option Word := none
  /-- the table or index slot, or adapter handle, for which the head waits at issue, once counted (R282, R317, R370) -/
  held : Option Nat := none
  /-- the table and row whose move a killed EMB_UPDATE waits for (R289) -/
  moveHold : Option (Nat × Nat) := none
  /-- pointer, group and step of the speculative commands whose step has been confirmed: the unit keeps it until they commit (R264) -/
  confirmed : List (Word × Nat × Nat) := []
  /-- the head has been counted in MIR_WAIT (R383) -/
  mirWaited : Bool := false
  /-- completion records owed, oldest first -/
  owed : List Owed := []
  /-- global time since which the head has waited (R62) -/
  headSince : Nat := 0
  deriving DecidableEq, Repr

/-- A commit group's entry of the commit-group table (R64, R351). -/
structure Group where
  cores : BitVec 48 := 0
  confirmed : BitVec 4 := 0
  /-- the module slot it is bound to -/
  slot : Option Nat := none
  deriving DecidableEq, Repr

/-- Granules written to a landing area, or on their way to one (R53): receiving core, byte offset, data, and the set. -/
structure Landing where
  core : Nat
  off : Nat
  bytes : List Byte
  group : Nat
  step : Nat
  deriving DecidableEq, Repr

/-- Semaphore increments that carry a speculation tag (R268): receiving core and semaphore, how many, the tag, and the
command that sent them. -/
structure Tagged where
  core : Nat
  sem : Nat
  n : Nat
  group : Nat
  step : Nat
  sender : QId
  ptr : Word
  deriving DecidableEq, Repr

/-! ### Translation, faults, migration (R80 to R111) -/

/-- A TLB entry: who holds it (0 to 3 the slices, 4 + n the micro-TLB of core n, R87), the 64 KiB page it maps, whether the
leaf is a 32 MiB leaf, and the leaf. -/
structure TlbEnt where
  holder : Nat
  page : Nat
  big : Bool
  pte : DWord
  deriving DecidableEq, Repr

/-- An invalidation in progress or queued (R88): the slice that received it, first page and page count (0: all). -/
structure Inval where
  slice : Nat
  page : Nat
  pages : Nat
  deriving DecidableEq, Repr

/-- A held master (R89, R91): the slice that holds it, its kind and id (R90), and its record. -/
structure Held where
  slice : Nat
  kind : Nat
  id : Nat
  record : List Byte
  deriving DecidableEq, Repr

/-- A fault record not yet written (R91). -/
structure PendRec where
  slice : Nat
  record : List Byte
  deriving DecidableEq, Repr

/-- A MOVE in flight (R102): its ring slot, the request, pages done, the step reached on the current page (0 to 3: tested,
copied, flipped come after each), where the current leaf lies, the leaf as the engine last read or wrote it, and the pages it covers. -/
structure Move where
  slot : Nat
  req : List Byte
  done : Nat := 0
  stage : Nat := 0
  leafAt : Nat := 0
  old : DWord := 0
  size : Nat := 1
  deriving DecidableEq, Repr

/-- A prefetch entry in flight (R106): its ring pointer, the entry and whether its copy is written. -/
structure PfEnt where
  ptr : Word
  entry : List Byte
  skip : Bool
  done : Bool
  deriving DecidableEq, Repr

/-- A prefetch stream (R106): current layer, how often the pacing queue has begun the layers anew and the stream its list since it was
enabled, whether the head's gate has opened, entries in flight, fault state. -/
structure Stream where
  layer : Nat := 0
  pass : Nat := 0
  laps : Nat := 0
  gateOpen : Bool := false
  inflight : List PfEnt := []
  fault : Bool := false
  deriving DecidableEq, Repr

/-- A memory access from outside the module: a write, poisoned or not, or a read. -/
inductive MemReq where
  | write (va : Nat) (bytes : List Byte) (ep : Bool)
  | read (va len : Nat)
  deriving DecidableEq, Repr

/-- What a host port has asked and the module has not yet done, since it waits for a page or a slice or comes after such a write (R86,
R89, R93): an aperture access, a 32-bit write of the register window, a read of it. -/
inductive PortReq where
  | mem (a : MemReq)
  | regWrite (off : Nat) (v : Word)
  | regRead (off size : Nat)
  deriving DecidableEq, Repr

/-- The migration, prefetch and scan engines (R101 to R110). -/
structure Mig where
  /-- requests taken and not yet acted on: ring slot and 32 bytes -/
  taken : List (Nat × List Byte) := []
  moves : List Move := []
  streams : List (Nat × Stream) := []
  /-- a scan is running: its tier; one asked for while TIER is disabled (R40) -/
  scanBusy : Option Nat := none
  scanWait : Option Nat := none
  /-- frame after which the next scan of the near tier and of LPDDR6 starts, plus one; 0 before the first -/
  scanNear : Nat := 0
  scanLp : Nat := 0
  /-- global time of the last pool-page drop (R109) -/
  lastAge : Nat := 0
  deriving DecidableEq, Repr

/-- The MMU slices. -/
structure Mmu where
  tlb : List TlbEnt := []
  invals : List Inval := []
  held : List Held := []
  pend : List PendRec := []
  /-- slices whose records wait for a FAULT_SIZE write after a soft reset (R520) -/
  blocked : List Nat := []
  deriving DecidableEq, Repr

/-! ### Requester state (R37, R38) -/

/-- One requester's shadow and staging registers, each tagged with the LO offset. -/
structure ReqSt where
  shadow : Option (Nat × Word) := none
  staging : Option (Nat × Word) := none
  deriving DecidableEq, Repr

/-! ### DMA (R112 to R126) -/

/-- A line of the line buffer (R112, R114): the source line's address, its bytes once they have arrived, and whether it is poisoned and
has been counted so. -/
structure DmaLine where
  va : Nat
  data : Option (List Byte) := none
  bad : Bool := false
  counted : Bool := false
  deriving DecidableEq, Repr

/-- What a DMA channel holds beside its registers: the requester of a start that waits for enable (R117), its lines in address order,
COUNT at GO and the count of its runs, whether it has copied poison (R123), whether a stop waits for a moving page (R122), the ports its
writes went by, those whose completion read has ended, and the one whose read is outstanding (R116). -/
structure DmaCh where
  pendBy : Req := .handler
  lines : List DmaLine := []
  len : Nat := 0
  run : Nat := 0
  poisoned : Bool := false
  stopAfter : Bool := false
  ports : List Nat := []
  flushed : List Nat := []
  asking : Option Nat := none
  deriving DecidableEq, Repr

/-! ### Retriever (R306 to R328) -/

/-- A probe an owner has not yet served (R310): owner quadrant, list, the search and its query, index slot and bank, since when it waits,
and once begun its snapshot, region base and tail (R309). -/
structure Probe where
  owner : Nat
  list : Nat
  queue : QId
  ptr : Word
  query : Nat
  slot : Nat
  bank : Nat
  since : Nat
  snap : Option (Nat × Nat) := none
  deriving DecidableEq, Repr

/-- The codebooks a Retriever caches, tagged by slot and bank (R327). -/
structure CbCache where
  slot : Nat
  bank : Nat
  books : List Byte
  deriving DecidableEq, Repr

/-- An index slot (R299): the descriptor each bank holds (none: empty). Bank, generation and epoch stand in IDXi_STAT and
IDXi_EPOCH. -/
structure IdxSlot where
  d0 : List Byte := []
  d1 : List Byte := []
  deriving DecidableEq, Repr

/-! ### Embedding tables (R273 to R298) -/

/-- A table slot: for each bank the descriptor it holds (none: empty) and the captured bases of a resident one, by range. Bank
and generation stand in TBLt_STAT. -/
structure TblSlot where
  d0 : List Byte := []
  d1 : List Byte := []
  r0 : List (Nat × Nat) := []
  r1 : List (Nat × Nat) := []
  deriving DecidableEq, Repr

/-- A displaced slot on its way to the free ring (R285): table, quadrant of the unit, slot and pool, the ring's address and its
captured base, log2 of its entries, and how many bindings came before the displacing commit. -/
structure FreeEnt where
  table : Nat
  quad : Nat
  slot : Nat
  pool : Nat
  va : Nat
  key : Option Nat
  log : Nat
  serial : Nat
  deriving DecidableEq, Repr

/-- A gather handed to the mailbox port of an EMB (R294, R355): its unit and decode slot, table, bank and order of binding,
token, output, destination, semaphore, and tag, whether its wait for an unreachable module has been counted (R290), and whether an access of it is held (R297). -/
structure PortGather where
  quad : Nat
  slot : Nat
  table : Nat
  bank : Nat
  serial : Nat
  token : Nat
  fmt : Nat
  dst : Nat
  core : Nat
  sem : Nat
  tag : Option (Nat × Nat)
  waited : Bool := false
  held : Bool := false
  deriving DecidableEq, Repr

/-- A gather's batch from another module that its owner has not served yet (R286, R290): the Leash port it came by, the unit, table,
bank and order of binding, the generation it pinned on arrival, its rows, and whether an access of it is held. -/
structure FarServe where
  port : Nat
  quad : Nat
  table : Nat
  bank : Nat
  serial : Nat
  pin : Option Nat
  rows : List Nat
  held : Bool := false
  deriving DecidableEq, Repr

/-! ### Serving (R349 to R378) -/

/-- A step launched speculatively and not confirmed (R355): its number, token, and its MUZ_STEP's pointer once submitted. -/
structure Launch where
  step : Nat
  token : Nat
  ptr : Option Word
  deriving DecidableEq, Repr

/-- A decode slot (R352, R355): the binding and its parameters, the highest confirmed step, how many steps have committed, how
many records have been released, how many choices have been accepted, the speculative launches, whether the next token is the
first after a fresh admission (R361), whether a switch is pending and the write it holds (R371), and whether an uncorrectable
error stopped its records (R377). -/
structure SrvSlot where
  conv : Nat
  params : List Byte
  paramsVa : Nat
  c : Nat := 0
  done : Nat := 0
  rel : Nat := 0
  acc : Nat := 0
  launched : List Launch := []
  fresh : Bool := false
  muz : Bool := false
  switch : Bool := false
  heldW : Option Nat := none
  stopped : Bool := false
  deriving DecidableEq, Repr

/-- A descriptor the serving block has still to write to a queue (R356): decode slot, queue, descriptor, the step whose
MUZ_STEP it is, and what it writes elsewhere before. -/
structure Submit where
  slot : Nat
  queue : QId
  desc : BitVec 512
  step : Option Nat
  before : List (Nat × List Byte) := []
  deriving DecidableEq, Repr

/-- A serving block: bound slots, events not yet written (R376), descriptors not yet written, entries of killed Muzzle commands not yet
rewritten (R360), and when the last scans ran. -/
structure SrvUnit where
  slots : List (Nat × SrvSlot) := []
  events : List (List Byte) := []
  subs : List Submit := []
  fixes : List (QId × Nat × List Byte) := []
  lastTtl : Nat := 0
  lastHold : Nat := 0
  deriving DecidableEq, Repr

/-! ### Special functions (R203) -/

/-- A load of the microprogram store under way: the queue whose context names the table, its address and its count of records. -/
structure SfuLoad where
  q : Fin 8
  va : Nat
  count : Nat
  deriving DecidableEq, Repr

/-- The microprogram store of a core beside MP_TAG and MP_VALID: the records it loaded, by slot, whether anything has been
loaded, whether SFU_CTL.invalidate has made it stale, and the loads under way, oldest first. -/
structure SfuStore where
  slots : List (List Byte) := []
  loaded : Bool := false
  stale : Bool := false
  loads : List SfuLoad := []
  deriving DecidableEq, Repr

/-! ### Splice (R231 to R242) -/

/-- A vocabulary slot: for each bank the header it holds (none: empty) and the generation it received when it became active.
Which bank is active, the generation and the flags stand in VOCv_STAT. -/
structure VocSlot where
  hdr0 : List Byte := []
  hdr1 : List Byte := []
  gen0 : Nat := 0
  gen1 : Nat := 0
  deriving DecidableEq, Repr

/-- An open stream that holds a reference (R233): its record's address, slot and bank, and the input bytes that stand in each code point of
its open segment, which held_bytes counts (R241). -/
structure OpenStream where
  va : Nat
  slot : Nat
  bank : Nat
  raws : List Nat := []
  deriving DecidableEq, Repr

/-! ### Measurements (R464) -/

/-- A measurement not yet extended: a vocabulary flip (slot, generation, header), or a grammar by its root. -/
inductive Measure where
  | vocab (slot gen : Nat) (header : List Byte)
  | grammar (root : Nat)
  deriving DecidableEq, Repr

/-! ### Tracing and counters (R483 to R497) -/

/-- The trace FIFO (R496): its 32-byte records, the records dropped since the last that entered and the time of the first,
whether TCLK is off, the lane the next record leaves on (R497), the engine counters by engine, bank and counter, and the
counts each engine had at its last SNAP record, when SNAP records were last due, and how many records have been made, with the tick and
the whole nanoseconds past it that the last one is stamped with (R493). -/
structure Trc where
  fifo : List (List Byte) := []
  dropped : Nat := 0
  firstDrop : Nat := 0
  off : Bool := false
  lane : Nat := 0
  /-- key (engine × 2 + bank) × 32 + counter; counter 0 busy, 1 stalled, 2 idle, 3 + n stall reason n -/
  counters : List (Nat × Nat) := []
  snapBase : List (Nat × Nat) := []
  snapAt : Nat := 0
  serial : Nat := 0
  stampTick : Nat := 0
  stampNs : Nat := 0
  deriving DecidableEq, Repr

/-! ### Links (R382 to R413) -/

/-- Who a module read of host memory is for (R412): a line that a run of a DMA channel reads, by its address, or the zero-length read
before DONE (R116). -/
inductive ReadFor where
  | dmaLine (n run va : Nat)
  | dmaFlush (n run port : Nat)
  deriving DecidableEq, Repr

/-- A module read outstanding on a port (R415). -/
structure OutRead where
  tag : Nat
  who : ReadFor
  len : Nat
  deriving DecidableEq, Repr

/-- A PCIe port (R406 to R416): the link, the function's configuration and MSI-X state, its outstanding reads, and the
summary messages that wait at it. -/
structure PciePort where
  up : Bool := false
  speed : Nat := 0
  width : Nat := 0
  /-- the Handler has marked the port ready (R407, R462) -/
  ready : Bool := false
  busMaster : Bool := false
  memSpace : Bool := false
  dstate : Nat := 0
  /-- log2 of the BAR2 size -/
  bar2 : Nat := 28
  msixOn : Bool := false
  msixFnMask : Bool := false
  /-- vectors masked, all after reset, and pending -/
  vecMask : BitVec 256 := BitVec.allOnes 256
  vecPend : BitVec 256 := 0
  /-- other configuration words, and words of the MSI-X table, that the host has written, by offset (log entry 44) -/
  cfg : List (Nat × Word) := []
  reads : List OutRead := []
  nextTag : Nat := 0
  waiting : List Nat := []
  /-- AER: errors logged, by kind -/
  aer : List Nat := []
  deriving DecidableEq, Repr

/-- A voltage ramp of a die (R441): from how many mV, when it began, and the point it makes for. -/
structure Ramp where
  fromMv : Nat
  start : Nat
  target : Nat
  deriving DecidableEq, Repr

/-- Power, clocks and supplies (R429 to R452). -/
structure Power where
  /-- the rails are off or power-on reset is held: no command reaches the module; and it stays so until the inputs have been
  removed and applied again (R443, R446, R514) -/
  off : Bool := false
  locked : Bool := false
  /-- how long VIN_ANA has been valid in ns, as far as the wait of R446 for VIN_IO asks -/
  anaAge : Nat := 10000000
  /-- the RESET_CAUSE the next power-on reset reports -/
  cause : Nat := 1
  /-- VIN_ANA, VIN_IO and VIN_CORE valid; SEQ_STAT's other fields; a removal the next power-on is to report (R446, R447) -/
  vin : List Bool := [true, true, true]
  early : Nat := 0
  unordered : Bool := false
  unorderedNext : Bool := false
  /-- outputs OFF_OK and PWRGD, and PWR_STAT.shdn_req -/
  offOk : Bool := false
  pwrgd : Bool := true
  shdnReq : Bool := false
  /-- the management-bus address straps as sampled (R509) -/
  mba : Nat := 0
  /-- power state, when the last entry ends, the wake event latched in it and how many more came, and when the Handler last
  woke -/
  state : Nat := 0
  entryEnd : Nat := 0
  latched : Option Nat := none
  others : Nat := 0
  wokeAt : Nat := 0
  /-- interrupt sources whose edge came in Hold, Watch or Deep (R427) -/
  edges : List Nat := []
  /-- when work was last seen (R431) -/
  lastWork : Nat := 0
  /-- ticks of Deep (R439), when the Watch sampler last ran, twin sideband presence, and whether TIMER has matched -/
  deepTick : Nat := 0
  lastWatch : Nat := 0
  hb : Bool := false
  timerFired : Bool := false
  /-- channels whose excursion has been reported (R438) -/
  excursion : List Nat := []
  /-- the DVFS point CCLK runs at and the voltage ramp of each die, the ceilings, when each thermal ceiling last moved, and when
  the power ceiling last stepped (R441 to R443) -/
  points : List Nat := [0, 0, 0, 0]
  ramps : List (Option Ramp) := [none, none, none, none]
  ceiling : Nat := 15
  thermal : List Nat := [15, 15, 15, 15]
  thermalAt : List Nat := [0, 0, 0, 0]
  limitAt : Nat := 0
  limitUnmet : Bool := false
  /-- input power samples, newest first -/
  samples : List Nat := []
  /-- the droop under way: when its hold ends and its lowest sample in mV -/
  droop : Option (Nat × Nat) := none
  deriving DecidableEq, Repr

/-- A request of RST (R464, R465): who made it and when, and the register from M4 that an extend names; none for an attestation. -/
structure Asked where
  who : Req
  at_ : Nat
  reg : Option Nat
  deriving DecidableEq, Repr

/-- A running member of a self-test (R470, R473): its index, and the key its saved copy lies at. -/
structure BistRun where
  index : Nat
  stage : Option Nat
  deriving DecidableEq, Repr

/-- The self-test engine (R468 to R482): the run's kind, whether it is destructive, the next member and how many are left, the
members that run, those done, how the run stands, records not yet written (all but their time), memory ranges whose accesses a
running member holds, as key and length, spare rows used by kind, index and instance, and the rows they stand in for. -/
structure Bist where
  busy : Bool := false
  kind : Nat := 0
  destructive : Bool := false
  next : Nat := 0
  left : Nat := 0
  running : List BistRun := []
  done : Nat := 0
  aborted : Bool := false
  refused : Bool := false
  recs : List (List Byte) := []
  holds : List (Nat × Nat) := []
  spares : List (Nat × Nat) := []
  steered : List (Nat × Nat) := []
  deriving DecidableEq, Repr

/-- The live lifetime image (R498): its counts by byte offset, what the last entry written put into its head, power-on seconds,
the next entry's place in the log, when the last periodic entry fell due and the last sample was taken, and the offsets of
counts that events of a module without power still owe it (R443, R446 to R448). -/
structure Life where
  counts : List (Nat × Nat) := []
  reason : Nat := 0
  seq : Nat := 0
  crc : Nat := 0
  time : Nat := 0
  seconds : Nat := 0
  slot : Nat := 0
  periodAt : Nat := 0
  sampleAt : Nat := 0
  owed : List Nat := []
  deriving DecidableEq, Repr

/-- A Leash port (R397 to R400): trained (or training), miscabled, the lanes that locked, the sequence number it expects and
whether it discards until that one comes, the next it sends, flits waiting for credit by channel, credits held, the replay
buffer (number and channel), payload received of a message that has not ended by channel, and when its latest retry requests
were sent; and the module and 8 × the port that the last hello named. `up` says that it is trained and not miscabled: a miscabled link
carries nothing. -/
structure LeashPort where
  up : Bool := false
  trained : Bool := false
  training : Bool := false
  lanes : BitVec 8 := 0
  expect : Nat := 0
  discarding : Bool := false
  nextSeq : Nat := 0
  txq : List Nat := []
  cred : List Nat := [512, 256, 256]
  replay : List (Nat × Nat) := []
  rx : List (Nat × List Byte) := []
  retries : List Nat := []
  peer : Nat := 0
  deriving DecidableEq, Repr

/-- A mirror packet sent and not yet acknowledged (R382, R383), with the port it went by, the queue whose record waits for it
and the set it belongs to. -/
structure OutPkt where
  port : Nat
  queue : Option QId
  group : Nat
  step : Nat
  pkt : MirrorPacket
  deriving DecidableEq, Repr

/-- The pair logic (R379 to R396): PAIR_STAT's fields, and what it holds. -/
structure Pair where
  state : Nat := 0
  cause : Nat := 0
  refuse : Nat := 0
  fullOwner : Bool := false
  handbackRefused : Bool := false
  adoptRefused : Bool := false
  mirrorBroken : Bool := false
  /-- unacknowledged packets, oldest first -/
  outbound : List OutPkt := []
  /-- room in the twin's log, as last advertised (R383; log entry 24) -/
  logRoom : Nat := 0
  /-- packets received whose commit record has not arrived, by port (R384) -/
  partials : List (Nat × MirrorPacket) := []
  /-- packets received and not yet applied, oldest first, with the port; the front one may be held on a fault -/
  inbound : List (Nat × MirrorPacket) := []
  /-- the write offset in the log ring -/
  logPos : Nat := 0
  /-- when the last heartbeat came, and when the last was sent -/
  lastHb : Nat := 0
  lastSent : Nat := 0
  /-- since when neither twin port has been trained -/
  downSince : Option Nat := some 0
  /-- the hello of the twin that was accepted and waits for resync (R394) -/
  twinReady : Bool := false
  /-- ranges copied by the resync walk, and ranges still to copy (R395) -/
  copied : List (Nat × Nat) := []
  toCopy : List (Nat × Nat) := []
  /-- ranges of RESYNC_LIST still to be read by the walk -/
  listLeft : Nat := 0
  /-- the global time has been synchronised since joining, when it last was, the offset still to be slewed in ns, and ticks since
  the last 1 ns correction (R403) -/
  synced : Bool := false
  lastSync : Nat := 0
  slew : Int := 0
  slewAcc : Nat := 0
  /-- steps 2 and 3 of R391 are done, and adoption has been asked for -/
  settled : Bool := false
  adoptAsked : Bool := false
  deriving DecidableEq, Repr

/-- A write on its way to another module (R401). -/
structure RemoteWrite where
  module : Nat
  va : Nat
  bytes : List Byte
  deriving DecidableEq, Repr

/-! ### What leaves the module -/

/-- What the module sends on a Leash port beside the flits of its mirror packets. -/
inductive LeashMsg where
  | heartbeat (state : Nat)
  | hello
  | withdraw
  /-- a mirror packet has been applied -/
  | ack
  /-- a retry request, and the flits replayed for one -/
  | retry (seq : Nat)
  | replay (seqs : List Nat)
  /-- a posted remote write, and what a remote read answers: its bytes, or poison -/
  | write (module va : Nat) (bytes : List Byte)
  | response (bytes : List Byte)
  | poisoned
  /-- a batch for the EMB of another module: unit, opcode, table, snapshot, the rows or list entries, and the summed gradients of an
  update; and what an owner answers: of each row whether it is the default row, whether it lags, and its bytes (R290) -/
  | batch (module quad op table : Nat) (snapshot : Bool) (rows : List Nat) (grads : List (List Nat))
  | rows (rows : List (Bool × Bool × List Byte))
  deriving DecidableEq, Repr

/-- What the module has sent on its connectors, oldest first in Hw.out. -/
inductive OutMsg where
  | leash (p : Nat) (m : LeashMsg)
  /-- the answer to a read of the register window -/
  | readReply (r : Req) (bytes : List Byte)
  /-- the answer to a configuration request: its word, or Request Retry Status -/
  | cfgReply (p : Port) (v : Option Word)
  /-- the answer to an aperture read: its bytes and EP bit, or Completer Abort -/
  | aperReply (p : Port) (bytes : Option (List Byte)) (ep : Bool)
  | msix (p : Port) (vec : Nat)
  /-- PME, and the management bus: an address byte not acknowledged, 32 bytes of flash -/
  | pme (p : Port)
  | smbNack
  | flash (bytes : List Byte)
  /-- a trace record on a Trail lane -/
  | trail (lane : Nat) (bytes : List Byte)
  | handlerInput (k : Nat)
  deriving DecidableEq, Repr

/-- The module but for its boot and trust state and the waiting commands. -/
structure Hw where
  /-- registers that differ from their reset value, by four times their window offset plus the bank -/
  regs : List (Nat × Word) := []
  /-- memory bytes that are not zero, by space × 2^52 + address (near 0, LPDDR6 1, host memory behind port A 2 and B 3) -/
  mem : List Host.Cell := []
  /-- poisoned lines (LPDDR6, 64 bytes) and words (near tier, 8 bytes), by the same key (R98) -/
  poison : List Nat := []
  /-- lines and words that hold an uncorrectable error no read has met yet, and a correctable one (R98) -/
  upsets : List Nat := []
  flips : List Nat := []
  /-- when each LPDDR6 channel was last scrubbed (R99), and the last temperature of each device, by 256 × channel + device (R100) -/
  scrubAt : List (Nat × Nat) := []
  temps : List (Nat × BitVec 8) := []
  /-- global time in ns (R439) -/
  time : Nat := 0
  /-- how many free values have been drawn (the model's own field, log entry 3) -/
  freeCtr : Nat := 0
  out : List OutMsg := []
  accA : ReqSt := {}
  accB : ReqSt := {}
  accH : ReqSt := {}
  queues : List (QId × QState) := []
  /-- queue granted last on each engine, per effective level (R62) -/
  granted : List (Eng × Nat × Nat) := []
  groups : List (Nat × Group) := []
  tagged : List Tagged := []
  probes : List Probe := []
  dma : List (Nat × DmaCh) := []
  /-- channel of a quadrant served last by its read engine (2q) and its write engine (2q + 1) (R113), and the channels that wait for a lent
  line, in the order they asked (R112) -/
  dmaLast : List (Nat × Nat) := []
  dmaAsks : List Nat := []
  /-- what the host ports and the Leash ports have asked and the module has not yet done (R86, R89, R93, R401) -/
  portQ : List (Port × PortReq) := []
  leashQ : List (Nat × MemReq) := []
  landed : List Landing := []
  landing : List Landing := []
  mmu : Mmu := {}
  mig : Mig := {}
  sfu : List (Nat × SfuStore) := []
  vocs : List (Nat × VocSlot) := []
  tbls : List (Nat × TblSlot) := []
  /-- displaced slots not yet in a free ring, oldest first, and how many table bindings there have been (R285) -/
  frees : List FreeEnt := []
  tblSerial : Nat := 0
  gathers : List PortGather := []
  /-- batches of other modules not yet served (R290), and how many lists the EMBs have sent (R12) -/
  exch : List FarServe := []
  /-- flits for other modules that wait for a route: module and channel (R400) -/
  fwd : List (Nat × Nat) := []
  embSeq : Nat := 0
  idxs : List (Nat × IdxSlot) := []
  /-- what each Retriever's codebook cache holds (R327) -/
  cbTag : List (Nat × CbCache) := []
  srv : List (Nat × SrvUnit) := []
  /-- the context last submitted to each Muzzle queue by the serving block (R356) -/
  muzCtx : List (QId × Nat) := []
  /-- changes made by the commit step or the event under way, for its mirror packet (R375, R385) -/
  changes : List MirrorChange := []
  streams : List OpenStream := []
  /-- measurements not yet extended, oldest first, and the grammar roots measured since M3 was last zeroed (R464) -/
  measures : List Measure := []
  measured : List Nat := []
  /-- pages of resources that are fused off (R31) -/
  fused : List Nat := []
  /-- pages whose soft reset is under way (R41) -/
  resetting : List Nat := []
  /-- pages whose issue waits for a step (R489) -/
  stepHeld : List Nat := []
  trc : Trc := {}
  /-- the PCIE_BIF strap as sampled at power-on reset (R406) -/
  pcieBif : Bool := false
  pcieA : PciePort := {}
  pcieB : PciePort := {}
  pow : Power := {}
  /-- the requests of RST that the Handler has still to serve, oldest first (R465) -/
  attests : List Asked := []
  /-- retired frames that the Handler has still to list (R478) -/
  retires : List Nat := []
  bist : Bist := {}
  life : Life := {}
  /-- the Leash ports 0 to 3 -/
  ports : List LeashPort := [{}, {}, {}, {}]
  pair : Pair := {}
  /-- remote writes posted and not yet delivered (R401) -/
  remoteOut : List RemoteWrite := []
  deriving DecidableEq, Repr

/-- The boot and trust state: the flash (bytes that are not 0xFF), the rollback counters (R458), the seed (R460), the digest of
the running image and the certificate of its attestation key (R461), the sequence numbers of the trim, repair and settings
blocks applied (R459), and when the watchdog was last kicked. -/
structure Boot where
  flash : List Host.Cell := []
  counters : List Nat := [0, 0, 0, 0]
  seed : List Byte := []
  image : List Byte := []
  cert : List Byte := []
  applied : List Nat := [0, 0, 0]
  wdogAt : Nat := 0
  deriving DecidableEq, Repr

/-- The machine. -/
structure State where
  hw : Hw := {}
  boot : Boot := {}
  /-- the commands that are waiting, first in, first out -/
  pending : List Instr := []
  deriving DecidableEq, Repr

/-- The machine right after reset: log entry 2. -/
def State.reset : State := {}

end Sys2Proof.Machine
end

