-- ==== Sys2Proof/Machine/Ops.lean ====
section
/-! DEFINITION. The named operations every meaning is built from: the two kinds of map, the register file, memory, free
values, interrupt lines, ERR_FIRST, discarded accesses and trace records. -/

namespace Sys2Proof.Machine

/-! ### Sparse maps: rising keys, no entry equal to what an unlisted key reads as -/

/-- The value at key `k`, where `d` is what an unlisted `k` reads as. -/
def smGet {α : Type} (d : α) (k : Nat) : List (Nat × α) → α
  | [] => d
  | (k', v) :: t => if k = k' then v else smGet d k t

/-- Puts `v` under key `k`, in rising order. -/
def smPut {α : Type} (k : Nat) (v : α) : List (Nat × α) → List (Nat × α)
  | [] => [(k, v)]
  | (k', v') :: t => if k < k' then (k, v) :: (k', v') :: t else if k = k' then (k, v) :: t else (k', v') :: smPut k v t

/-- Drops what stands under key `k`. -/
def smDel {α : Type} (k : Nat) (m : List (Nat × α)) : List (Nat × α) := m.filter fun e => e.1 != k

/-- Writes `v` at key `k`; writing `d`, what the unlisted key reads as, removes the entry. -/
def smSet {α : Type} [DecidableEq α] (d : α) (k : Nat) (v : α) (m : List (Nat × α)) : List (Nat × α) :=
  if v = d then smDel k m else smPut k v m

/-- The canonical form: every key of the tail lies above `lo`, keys rise, and no entry equals its default. -/
def smWf {α : Type} [DecidableEq α] (d : Nat → α) : Nat → List (Nat × α) → Bool
  | _, [] => true
  | lo, (k, v) :: t => decide (lo ≤ k) && decide (v ≠ d k) && smWf d (k + 1) t

/-! ### Association lists -/

/-- The value stored under `k`. -/
def alGet {κ α : Type} [DecidableEq κ] (k : κ) : List (κ × α) → Option α
  | [] => none
  | (k', v) :: t => if k = k' then some v else alGet k t

/-- Stores `v` under `k`, in place or at the end. -/
def alPut {κ α : Type} [DecidableEq κ] (k : κ) (v : α) : List (κ × α) → List (κ × α)
  | [] => [(k, v)]
  | (k', v') :: t => if k = k' then (k, v) :: t else (k', v') :: alPut k v t

/-- Drops what is stored under `k`. -/
def alDel {κ α : Type} [DecidableEq κ] (k : κ) : List (κ × α) → List (κ × α)
  | [] => []
  | (k', v') :: t => if k = k' then t else (k', v') :: alDel k t

/-- Replaces element `i` of a list. -/
def listSet {α : Type} : List α → Nat → α → List α
  | [], _, _ => []
  | _ :: t, 0, v => v :: t
  | a :: t, n + 1, v => a :: listSet t n v

/-- Drops element `i` of a list. -/
def listDrop {α : Type} : List α → Nat → List α
  | [], _ => []
  | _ :: t, 0 => t
  | a :: t, n + 1 => a :: listDrop t n

/-- Runs `f` for 0, 1, …, n − 1. -/
def forN {σ : Type} (n : Nat) (f : Nat → σ → σ) (s : σ) : σ := (List.range n).foldl (fun s i => f i s) s

/-- What a meaning answers. -/
abbrev Out := Host.Outcome State Fault Refusal

/-- Applies `f` unless the module is held in power-on reset, when no command reaches it (R443, R448). -/
def State.whenUp (s : State) (f : State → State) : State := if s.hw.pow.off then s else f s

/-- Applies `f` to the hardware part of the state: boot and trust state and the waiting commands stand. -/
def State.onHw (s : State) (f : Hw → Hw) : State := if s.hw.pow.off then s else { s with hw := f s.hw }

/-! ### Registers -/

/-- The bank a requester selects in a banked register (R26). -/
def reqBank : Req → Nat
  | .portA => 0 | .portB => 1 | .handler => 2

/-- The key of a register: four times the home of a module-wide view, plus the bank of a banked register. -/
def regKey (off bank : Nat) : Nat := 4 * homeOff off + (if bankedOff off then bank % 4 else 0)

/-- What an unlisted register reads as, by its key: its reset value. -/
abbrev Registers.dflt (k : Nat) : Word := resetWord (k / 4)

/-- The canonical form of the register file. -/
abbrev Registers.wf (m : List (Nat × Word)) : Bool := smWf Registers.dflt 0 m

/-- The value of the register at a window offset. -/
def Hw.reg (h : Hw) (off : Nat) (bank : Nat := 0) : Word :=
  smGet (Registers.dflt (regKey off bank)) (regKey off bank) h.regs

/-- Stores a register. -/
def Hw.setReg (h : Hw) (off : Nat) (v : Word) (bank : Nat := 0) : Hw :=
  { h with regs := smSet (Registers.dflt (regKey off bank)) (regKey off bank) v h.regs }

/-- Register `o` of page `p`, as a number. -/
def Hw.rd (h : Hw) (p o : Nat) (bank : Nat := 0) : Nat := (h.reg (p * 0x1000 + o) bank).toNat

/-- Stores register `o` of page `p`. -/
def Hw.wr (h : Hw) (p o v : Nat) (bank : Nat := 0) : Hw := h.setReg (p * 0x1000 + o) (BitVec.ofNat 32 v) bank

/-- The 64-bit quantity whose LO half stands at `o` of page `p`. -/
def Hw.rd64 (h : Hw) (p o : Nat) (bank : Nat := 0) : Nat := h.rd p o bank + h.rd p (o + 4) bank * 0x100000000

/-- Stores a 64-bit quantity. -/
def Hw.wr64 (h : Hw) (p o v : Nat) (bank : Nat := 0) : Hw := (h.wr p o v bank).wr p (o + 4) (v / 0x100000000) bank

/-- Adds to a counter that saturates at 0xFFFF_FFFF. -/
def Hw.count (h : Hw) (p o : Nat) (n : Nat := 1) : Hw := h.wr p o (min (h.rd p o + n) 0xFFFFFFFF)

/-- Adds to a 64-bit counter. -/
def Hw.count64 (h : Hw) (p o n : Nat) : Hw := h.wr64 p o (min (h.rd64 p o + n) 0xFFFFFFFFFFFFFFFF)

/-- Bit `n` of a register. -/
def Hw.bit (h : Hw) (p o n : Nat) : Bool := (h.rd p o).testBit n

/-- Replaces bit `n` of a number. -/
def putBit (v n : Nat) (b : Bool) : Nat := if b then v ||| 2 ^ n else if v.testBit n then v - 2 ^ n else v

/-- Replaces bit `n` of a register. -/
def Hw.setBit (h : Hw) (p o n : Nat) (b : Bool) : Hw := h.wr p o (putBit (h.rd p o) n b)

/-- The page of a core. -/
def corePage (n : Nat) : Nat := 0x080 + n

/-- The number of a stage unit in a quadrant's group of pages (R29). -/
def unitPage : StageUnit → Nat
  | .spl => 0 | .rtv => 1 | .emb => 2 | .pck => 3 | .muz => 4 | .srv => 5

/-- The page of an engine. -/
def engPage : Eng → Nat
  | .core n => 0x080 + n.val
  | .stage d u => 0x0C0 + 8 * d.val + unitPage u

/-- Engine of a core number or of a stage unit, for numbers in range. -/
def coreEng (n : Nat) : Eng := .core (Fin.ofNat 48 n)
/-- The stage unit of a quadrant. -/
def stageEng (d : Nat) (u : StageUnit) : Eng := .stage (Fin.ofNat 4 d) u

/-- The quadrant whose MMU slice serves an engine (R11, R87). -/
def engQuad : Eng → Nat
  | .core n => n.val / 12
  | .stage d _ => d.val

/-- Whether a page acts as one whose resource is disabled (R31): fused off, or any page but GLB, RST and SEC in recovery (R463). -/
def Hw.isFused (h : Hw) (p : Nat) : Bool :=
  h.fused.contains p || (h.rd 0x003 0x048 % 16 == 3 && !(p == 0x000 || p == 0x003 || p == 0x005))

/-- Whether the resource of a page is present (R31). -/
def Hw.present (h : Hw) (p : Nat) : Bool := (blockOf p).isSome && !h.isFused p

/-- PAGE_CTL.enable of a page (R39). -/
def Hw.enabled (h : Hw) (p : Nat) : Bool :=
  match blockOf p with
  | none => false
  | some (b, _) => b.alwaysEnabled || h.bit p 0x008 0

/-! ### Memory (R80) -/

/-- Copies `n` bytes from key `src` to key `dst`: what the destination range listed goes, what the source range lists comes. -/
def memCopy (src dst n : Nat) (m : List Host.Cell) : List Host.Cell :=
  (m.filter fun c => decide (src ≤ c.1 ∧ c.1 < src + n)).foldl (fun m c => smSet 0 (c.1 - src + dst) c.2 m)
    (m.filter fun c => !decide (dst ≤ c.1 ∧ c.1 < dst + n))


/-- The key of byte `a` of memory space `sp`. -/
def memKey (sp a : Nat) : Nat := sp * 0x10000000000000 + a

/-- The bytes of each space (R80; host memory spans a 52-bit bus address). -/
def spaceSize : Nat → Nat
  | 0 => 0x100000000 | 1 => 0x18000000000 | 2 => 0x10000000000000 | 3 => 0x10000000000000 | _ => 0

/-- What an unlisted byte of memory reads as: zero (log entry 4). -/
abbrev Memory.dflt : Nat → Byte := fun _ => 0

/-- The canonical form of memory. -/
abbrev Memory.wf (m : List Host.Cell) : Bool := smWf Memory.dflt 0 m

/-- Reads one byte. -/
def Hw.byte (h : Hw) (k : Nat) : Byte := smGet 0 k h.mem

/-- Reads `n` bytes from key `k` up. -/
def Hw.bytes (h : Hw) (k : Nat) : Nat → List Byte
  | 0 => []
  | n + 1 => h.byte k :: h.bytes (k + 1) n

/-- Writes bytes from key `k` up. -/
def memStore (k : Nat) : List Byte → List Host.Cell → List Host.Cell
  | [], m => m
  | b :: bs, m => memStore (k + 1) bs (smSet 0 k b m)

/-- The size of the unit that carries poison in the space of key `k` (R98, R99). -/
def poisonUnit (k : Nat) : Nat := if k / 0x10000000000000 = 0 then 8 else 64

/-- Whether the poison unit at key `u` lies wholly inside `n` bytes from `k`. -/
def unitInside (k n u : Nat) : Bool := decide (k ≤ u ∧ u + poisonUnit u ≤ k + n)

/-- Whether the poison unit at key `u` meets `n` bytes from `k`. -/
def unitMeets (k n u : Nat) : Bool := decide (u < k + n ∧ k < u + poisonUnit u)

/-- Writes bytes from key `k` up; a unit written whole loses its poison (R99). -/
def Hw.store (h : Hw) (k : Nat) (bs : List Byte) : Hw :=
  { h with
    mem := memStore k bs h.mem
    poison := h.poison.filter (fun u => !unitInside k bs.length u)
    upsets := h.upsets.filter (fun u => !unitInside k bs.length u)
    flips := h.flips.filter (fun u => !unitInside k bs.length u) }

/-- Whether `n` bytes from key `k` meet poison. -/
def Hw.poisoned (h : Hw) (k n : Nat) : Bool := h.poison.any (unitMeets k n)

/-- Draws the next free value. -/
def Hw.draw (h : Hw) : Hw := { h with freeCtr := h.freeCtr + 1 }

/-- `n` free bytes, the `c`th free value. -/
def freeBytes (c : Nat) : Nat → List Byte
  | 0 => []
  | n + 1 => freeBytes c n ++ [Config.freeByte c n]

/-! ### Interrupt lines (R42, R417, R419) -/

/-- The interrupt source a page's summary line drives (R417). -/
def srcOfPage (p : Nat) : Option Nat :=
  match blockOf p with
  | none => none
  | some (b, i) =>
    match b with
    | .srv => some i | .muz => some (4 + i) | .emb => some (8 + i) | .spl => some (12 + i) | .rtv => some (16 + i)
    | .pck => some (20 + i) | .dma => some (24 + i / 8) | .mmu => some (28 + i) | .core => some (32 + i)
    | .mig => some 80 | .tier => some 81 | .lsh => some (82 + i) | .pcie => some (86 + i)
    | .glb => some 96 | .pwr => some 97 | .clk => some 98 | .rst => some 99 | .sec => some 100 | .life => some 101
    | .bist => some 102 | .trc => some 103 | .dbg => some 104 | .lpc => some (105 + i / 4) | .irq => none

/-- The pages whose lines a source ORs (R417). -/
def pagesOfSrc (s : Nat) : List Nat :=
  if s < 4 then [0x0C5 + 8 * s] else if s < 8 then [0x0C4 + 8 * (s - 4)] else if s < 12 then [0x0C2 + 8 * (s - 8)]
  else if s < 16 then [0x0C0 + 8 * (s - 12)] else if s < 20 then [0x0C1 + 8 * (s - 16)]
  else if s < 24 then [0x0C3 + 8 * (s - 20)] else if s < 28 then (List.range 8).map (0x040 + 8 * (s - 24) + ·)
  else if s < 32 then [0x020 + (s - 28)] else if s < 80 then [0x080 + (s - 32)] else if s = 80 then [0x024]
  else if s = 81 then [0x025] else if s < 86 then [0x012 + (s - 82)] else if s < 88 then [0x010 + (s - 86)]
  else if s < 96 then [] else if s = 96 then [0x000] else if s = 97 then [0x001] else if s = 98 then [0x002]
  else if s = 99 then [0x003] else if s = 100 then [0x005] else if s = 101 then [0x006] else if s = 102 then [0x007]
  else if s = 103 then [0x008] else if s = 104 then [0x009]
  else if 105 ≤ s ∧ s < 109 then (List.range 4).map (0x030 + 4 * (s - 105) + ·) else []

/-- The summary line of a page (R42). -/
def Hw.pageLine (h : Hw) (p : Nat) : Bool := (h.reg (p * 0x1000 + 0x010) &&& ~~~ h.reg (p * 0x1000 + 0x014)) != 0

/-- The level of an interrupt source (R417). Sources 109 to 111 are single edges and have no level. -/
def Hw.srcLevel (h : Hw) (s : Nat) : Bool := (pagesOfSrc s).any h.pageLine

/-- Latches a rising edge of source `s` (R419): PEND and the event count, which counts modulo 2^16. -/
def Hw.latch (h : Hw) (s : Nat) : Hw :=
  let o := 0x200 + 4 * (s / 2)
  let sh := 16 * (s % 2)
  let v := h.rd 0x004 o
  let c := bitsOf v (sh + 15) sh
  let h := h.setBit 0x004 (0x040 + 4 * (s / 32)) (s % 32) true
  h.wr 0x004 o (v - c * 2 ^ sh + (c + 1) % 0x10000 * 2 ^ sh)

/-- One rising edge of source `s`; in Hold, Watch and Deep it waits for the wake (R427). -/
def Hw.edge (h : Hw) (s : Nat) : Hw :=
  if h.pow.state < 2 then h.latch s
  else { h with pow := { h.pow with edges := if h.pow.edges.contains s then h.pow.edges else h.pow.edges ++ [s] } }

/-- Runs `f`, which may move the line of page `p`, and latches the rising edge of its source if there is one. -/
def Hw.watch (h : Hw) (p : Nat) (f : Hw → Hw) : Hw :=
  match srcOfPage p with
  | none => f h
  | some s => if !h.srcLevel s && (f h).srcLevel s then (f h).edge s else f h

/-- A rising edge of interrupt condition `n` of page `p` (R42). -/
def Hw.raise (h : Hw) (p n : Nat) : Hw :=
  h.watch p (fun h => (h.setBit p 0x010 n true).setBit p 0x018 n true)

/-- Records an error in ERR_FIRST of page `p` unless a record is held (R43). -/
def Hw.err (h : Hw) (p detail code : Nat) : Hw :=
  if h.bit p 0x01C 31 then h else h.wr p 0x01C (0x80000000 + detail % 0x8000 * 0x10000 + code % 0x10000)

/-- A discarded access to window offset `off` (R28). -/
def Hw.badAccess (h : Hw) (off : Nat) : Hw := (h.count 0x000 0x098).wr 0x000 0x09C off

/-- The offset of register `o` of page `p`. -/
def pageOff (p o : Nat) : Nat := p * 0x1000 + o

/-- A requester's shadow and staging registers (R37, R38). -/
def Hw.acc (h : Hw) : Req → ReqSt
  | .portA => h.accA | .portB => h.accB | .handler => h.accH
/-- Stores them. -/
def Hw.setAcc (h : Hw) (r : Req) (a : ReqSt) : Hw :=
  match r with
  | .portA => { h with accA := a } | .portB => { h with accB := a } | .handler => { h with accH := a }

/-- Fills the staging register of a requester from a write of the LO half at window offset `off` (R38). -/
def Hw.stageLo (h : Hw) (r : Req) (off : Nat) (v : Word) : Hw := h.setAcc r { h.acc r with staging := some (off, v) }
/-- The staged LO half for the register whose LO half stands at `off`, else the live one (R38). -/
def Hw.stagedLo (h : Hw) (r : Req) (off bank : Nat) : Word :=
  match (h.acc r).staging with
  | some (o, v) => if o = off then v else h.reg off bank
  | none => h.reg off bank
/-- Empties the staging register of a requester (R38). -/
def Hw.unstage (h : Hw) (r : Req) : Hw := h.setAcc r { h.acc r with staging := none }

/-- Sends a message. -/
def Hw.send (h : Hw) (m : OutMsg) : Hw := { h with out := h.out ++ [m] }

/-- Adds to a 32-bit count of the live lifetime image, saturating (R498, R499). -/
def Life.bump (l : Life) (o : Nat) (n : Nat := 1) : Life :=
  { l with counts := smSet 0 o (min (smGet 0 o l.counts + n) 0xFFFFFFFF) l.counts }

/-! ### Error codes (R79) -/

/-- The codes of R79. -/
abbrev cLENGTH : Nat := 0x0001
abbrev cPAGE_FAULT : Nat := 0x0002
abbrev cMOVING_ROW : Nat := 0x0003
abbrev cDEAD_END : Nat := 0x0004
abbrev cSTACK_OVERFLOW : Nat := 0x0005
abbrev cTTL_EXPIRED : Nat := 0x0006
abbrev cBUDGET_HELD : Nat := 0x0007
abbrev cFORMAT : Nat := 0x0008
abbrev cABI : Nat := 0x0009
abbrev cOVERRUN : Nat := 0x000A
abbrev cCONTEXT : Nat := 0x000B
abbrev cSEM_OVERFLOW : Nat := 0x000C
abbrev cGROUP_OVERFLOW : Nat := 0x000D
abbrev cWAIT_TIMEOUT : Nat := 0x000E
abbrev cECC : Nat := 0x000F
abbrev cUTF8 : Nat := 0x0010
abbrev cSLOT : Nat := 0x0011

/-! ### Trace records (R491 to R496) -/

/-- A Syrov record's content but for its time. -/
structure TraceRec where
  type : Nat
  phase : Nat := 0
  queue : Nat := 0
  engine : Nat
  job : Nat := 0
  layer : Nat := 0
  op : Nat := 0
  arg0 : Nat := 0
  arg1 : Nat := 0

/-- This module's number, 2 × pair + role (R400, R491). -/
def Hw.moduleNo (h : Hw) : Nat := 2 * bitsOf (h.rd 0x012 0x100) 3 2 + bitsOf (h.rd 0x012 0x100) 1 1

/-- The nanoseconds past its tick of the next record: not before the last, and short of the next tick (R493; log entry 93). -/
def Hw.recordNs (h : Hw) : Nat :=
  let base := if h.trc.stampTick = h.time then h.trc.stampNs else 0
  base + Config.subTick h.trc.serial % (40 - base)

/-- Stamps a record about to be made. -/
def Hw.stampRecord (h : Hw) : Hw :=
  { h with trc := { h.trc with serial := h.trc.serial + 1, stampTick := h.time, stampNs := h.recordNs } }

/-- The 32 bytes of a record (R491), with the time it is stamped with. -/
def Hw.traceBytes (h : Hw) (r : TraceRec) : List Byte :=
  leBytes 4 (r.type + 0x10 + r.phase * 0x100 + r.queue % 8 * 0x200 + r.engine * 0x1000 + h.moduleNo * 0x1000000)
    ++ leBytes 4 r.job ++ leBytes 2 r.layer ++ leBytes 2 r.op ++ leBytes 4 (min r.arg0 0xFFFFFFFF)
    ++ leBytes 8 (h.time + h.trc.stampNs) ++ leBytes 8 r.arg1

/-- Whether the filter whose job match stands at `o` of page `p` matches (R494). -/
def Hw.filterMatch (h : Hw) (p o engine job layer op : Nat) : Bool :=
  let jm := h.rd p (o + 4)
  let ly := h.rd p (o + 8)
  let opr := h.rd p (o + 12)
  let en := h.rd p (o + 16)
  (job &&& jm) == (h.rd p o &&& jm) && decide (bitsOf ly 15 0 ≤ layer ∧ layer ≤ bitsOf ly 31 16)
    && (op &&& bitsOf opr 31 16) == (bitsOf opr 15 0 &&& bitsOf opr 31 16)
    && decide (bitsOf en 11 0 ≤ engine ∧ engine ≤ bitsOf en 27 16)

/-- Puts a record into the FIFO (R496): dropped and counted when the FIFO is full but for the entry kept for a LOSS
record, and preceded by the LOSS record when it is the first to enter after drops. -/
def Hw.traceEnter (h : Hw) (bytes : List Byte) : Hw :=
  let lossOn := h.bit 0x008 0x040 7
  if h.trc.off || decide (2047 ≤ h.trc.fifo.length) then
    let h := if h.rd 0x008 0x058 = 0 then h.raise 0x008 1 else h
    let h := h.count 0x008 0x058
    { h with trc := { h.trc with dropped := h.trc.dropped + 1,
                                 firstDrop := if h.trc.dropped = 0 then h.time + h.trc.stampNs else h.trc.firstDrop } }
  else if h.trc.dropped ≠ 0 ∧ lossOn then
    let loss := h.traceBytes { type := 7, engine := 0, arg0 := h.trc.dropped, arg1 := h.trc.firstDrop }
    { h with trc := { h.trc with fifo := h.trc.fifo ++ [loss, bytes], dropped := 0 } }
  else { h with trc := { h.trc with fifo := h.trc.fifo ++ [bytes], dropped := 0 } }

/-- Emits a record (R494, R502): its type bit, and for records of commands the filters. -/
def Hw.trace (h : Hw) (r : TraceRec) : Hw :=
  let on := h.bit 0x008 0x008 0 && h.bit 0x008 0x040 r.type
  let filt := [0, 1, 2, 3].filter (fun f => h.bit 0x008 (0x080 + 0x20 * f) 0)
  let pass := r.type = 5 ∨ 7 ≤ r.type ∨ filt.isEmpty ∨
    filt.any (fun f => h.filterMatch 0x008 (0x084 + 0x20 * f) r.engine r.job r.layer r.op)
  if on ∧ pass then h.stampRecord.traceEnter (h.stampRecord.traceBytes r) else h

/-- TCLK goes off or on: with the link on, the lanes' state changes (R444, R496, R497). -/
def Hw.setTclk (h : Hw) (off : Bool) : Hw :=
  let g := { h with trc := { h.trc with off := off } }
  if h.bit 0x008 0x040 0 && h.trc.off != off then g.raise 0x008 0 else g

/-- The engine id that names an engine's commands (R483; log entry 21). -/
def engTrace : Eng → Nat
  | .core n => 8 * n.val
  | .stage d u => 384 + 6 * d.val + unitPage u

/-! ### Leaving a power state (R430 to R437) -/

/-- Sets page interrupt registers to their reset state; the line falls (R427). -/
def Hw.quietPage (h : Hw) (p : Nat) : Hw := ((h.wr p 0x010 0).wr p 0x014 0xFFFFFFFF).wr p 0x018 0

/-- Every page that R29 implements. -/
def allPages : List Nat := (List.range 0x0E0).filter fun p => (blockOf p).isSome

/-- What a compute die loses without power: the micro-TLBs, and the microprogram stores (R432). -/
def Hw.dropCoreState (h : Hw) : Hw :=
  let h := { h with mmu := { h.mmu with tlb := h.mmu.tlb.filter fun e => decide (e.holder < 4) }, sfu := [] }
  forN 48 (fun n h => ((h.wr (corePage n) 0x44C 0).wr (corePage n) 0x450 0).wr (corePage n) 0x454 0) h

/-- The module returns to Run: LAST_WAKE, the restored interrupt state with the edges that came meanwhile, sources 111 and PWR 0,
and PME where the host has enabled it (R432, R434, R437). -/
def Hw.wakeNow (h : Hw) (code : Nat) (replayed : Bool) : Hw :=
  let w := h.pow
  let h := h.wr 0x001 0x0A8 (code + 0x10 * w.state + (if replayed then 0x80 else 0) + 0x100 * min w.others 255)
  let h := h.wr64 0x001 0x0AC h.time
  let h := if 2 ≤ w.state then
      let gone := if w.state = 2 then (List.range 48).map corePage else allPages.filter fun p => p != 0x001 && p != 0x004
      let h := gone.foldl Hw.quietPage h.dropCoreState
      h.wr 0x004 0x108 (h.rd 0x004 0x108 ||| (if w.edges = [] then 1 else 3))
    else h
  let h := { h with pow := { w with state := 0, entryEnd := 0, latched := none, others := 0, edges := [], lastWork := h.time,
                                    wokeAt := if 3 ≤ w.state then h.time else w.wokeAt } }
  let h := forN 4 (fun d h => h.setBit 0x002 (0x050 + 4 * d) 13 false) h
  let h := (h.wr 0x001 0x0C8 (if w.points.any (13 ≤ ·) then 0 else 1)).setTclk false
  let h := ((w.edges.foldl Hw.latch h).raise 0x001 0).edge 111
  let h := h.trace { type := 8, engine := 0, arg0 := 1, arg1 := 0 }
  if 3 ≤ w.state then
    [(Port.a, h.pcieA), (Port.b, h.pcieB)].foldl (fun h x => if ((alGet (Config.capOff 0) x.2.cfg).getD 0).getLsbD 8 then h.send (.pme x.1) else h) h
  else h

/-- A wake event: during an entry it is latched, and the first latched one is replayed at its end (R437). -/
def Hw.exitBy (h : Hw) (code : Nat) : Hw :=
  if h.pow.state = 0 then h
  else if h.time < h.pow.entryEnd then
    match h.pow.latched with
    | none => { h with pow := { h.pow with latched := some code } }
    | some _ => { h with pow := { h.pow with others := min (h.pow.others + 1) 255 } }
  else h.wakeNow code false

/-- Whether wake source `code` acts in the present state (R435). -/
def Hw.wakes (h : Hw) (code : Nat) : Bool :=
  let st := h.pow.state
  let en (n : Nat) : Bool := h.bit 0x001 0x0A4 n
  match code with
  | 1 => decide (3 ≤ st) && en 0
  | 2 => decide (1 ≤ st) && en 1
  | 3 => decide (1 ≤ st) && en 2
  | 4 => decide (2 ≤ st) && en 3
  | 5 => decide (1 ≤ st) && en 4
  | 6 => st == 3 && en 5
  | 7 | 8 => st == 1 || st == 2
  | _ => false

/-- A wake event of the source `code`. -/
def Hw.wakeBy (h : Hw) (code : Nat) : Hw := if h.wakes code then h.exitBy code else h

/-- A demand (R433): Idle or Hold ends. -/
def Hw.demand (h : Hw) : Hw := h.wakeBy 7
/-- Work has arisen now (R431). -/
def Hw.worked (h : Hw) : Hw := { h with pow := { h.pow with lastWork := h.time } }

/-- Whether page offset `o` is register `k` of one of a page's queues, whose blocks stand from `lo` to `hi`. -/
def queueRegAt (lo hi k o : Nat) : Bool := decide (lo ≤ o ∧ o < hi) && o % 0x40 == k

/-- Register `k` of a queue block, on any page that holds queues (R75, R77). -/
def queueReg (p k o : Nat) : Bool :=
  match blockOf p with
  | some (.core, _) => queueRegAt 0x100 0x300 k o
  | some (.spl, _) | some (.rtv, _) | some (.emb, _) | some (.pck, _) | some (.muz, _) | some (.srv, _) => queueRegAt 0x200 0x300 k o
  | _ => false

/-- Whether page offset `o` is a mailbox register of SRV (R359). -/
def mboxReg (p o : Nat) : Bool :=
  match blockOf p with
  | some (.srv, _) => decide (0x800 ≤ o ∧ o < 0xC00)
  | _ => false

/-- The registers whose write is a demand (R433): PAGE_CTL, a queue's TAIL and CTL, and the mailbox; DMA CTL.go is one where it
acts. -/
def doorbell (p o : Nat) : Bool := o == 0x008 || queueReg p 0x0C o || queueReg p 0x1C o || mboxReg p o

/-- Whether a write of register `o` of page `p` reaches the register: not in Watch or Deep (R429), not on an unimplemented page, a
disabled resource or a page under soft reset (R30, R31, R41), and on SEC and LIFE the Handler's only (R33). -/
def Hw.accepts (h : Hw) (r : Req) (p o : Nat) : Bool :=
  decide (h.pow.state < 3) && (blockOf p).isSome && !h.isFused p && !(h.resetting.contains p && o != 0x008)
    && !((p == 0x005 || p == 0x006) && r != .handler && !(p == 0x006 && o == 0x050))

/-- What a write that does not reach its register does: in Watch and Deep a host's access wakes the module (R434); an unimplemented page,
SEC and LIFE count it (R28, R30, R33). -/
def Hw.turnAway (h : Hw) (r : Req) (p o : Nat) : Hw :=
  if 3 ≤ h.pow.state then (match r with | .portA => h.wakeBy 2 | .portB => h.wakeBy 3 | .handler => h)
  else if (blockOf p).isSome ∧ (h.isFused p ∨ h.resetting.contains p) then h
  else h.badAccess (pageOff p o)

/-- Whether register `o` of page `p` is the HI half of a 64-bit quantity. -/
def hiHalf (p o : Nat) : Bool := (regRow (pageOff p o)).any fun row => row.half == .hi

/-- A write turned away: of a HI half, in the window, it empties the requester's staging register all the same (R38). -/
def Hw.refuseWrite (h : Hw) (r : Req) (p o : Nat) : Hw :=
  if hiHalf p o && decide (h.pow.state < 3) then (h.turnAway r p o).unstage r else h.turnAway r p o

/-- The host port a requester is. -/
def portOf : Req → Option Port
  | .portA => some .a | .portB => some .b | .handler => none

/-- Whether a request changes anything: what a port asks after it waits for it (R93). -/
def PortReq.isWrite : PortReq → Bool
  | .mem (.write _ _ _) | .regWrite _ _ => true
  | _ => false

/-- Whether a write of a requester's port waits. -/
def Hw.portHeld (h : Hw) (r : Req) : Bool := h.portQ.any fun x => some x.1 == portOf r && x.2.isWrite

/-- Puts a request behind those of its port that wait. -/
def Hw.holdPort (h : Hw) (r : Req) (x : PortReq) : Hw :=
  match portOf r with
  | some p => { h with portQ := h.portQ ++ [(p, x)] }
  | none => h

/-- What every write of a register of page `p` passes, `v` being what is written: behind a write of its port that waits it waits (R93);
one that is turned away acts no further; a doorbell ends Idle and Hold first (R433); then `f` acts. -/
def Hw.guardWrite (h : Hw) (r : Req) (p o v : Nat) (f : Hw → Hw) : Hw :=
  if h.portHeld r then h.holdPort r (.regWrite (pageOff p o) (BitVec.ofNat 32 v))
  else if !h.accepts r p o then h.refuseWrite r p o
  else if queueReg p 0x0C o || mboxReg p o then f h.demand.worked
  else if doorbell p o then f h.demand
  else f h

/-- The same for an effect on more than the hardware part. -/
def State.guardWrite (s : State) (r : Req) (p o v : Nat) (f : State → State) : State :=
  if s.hw.portHeld r then { s with hw := s.hw.holdPort r (.regWrite (pageOff p o) (BitVec.ofNat 32 v)) }
  else if !s.hw.accepts r p o then { s with hw := s.hw.turnAway r p o } else f s

end Sys2Proof.Machine
end

