-- ==== Sys2Proof/Machine/Shake.lean ====
section
/-! DEFINITION. SHAKE256 (R457, R459, R461, R464): the sponge of FIPS 202 over Keccak-f[1600], rate 136 bytes, and the two byte
counts the module uses. The spec names the function and leaves its definition to the standard (log entry 45). -/

namespace Sys2Proof.Machine

/-- The lanes of a Keccak state: lane (x, y) stands at x + 5y. -/
abbrev Keccak := List DWord

/-- One lane. -/
def lane (a : Keccak) (x y : Nat) : DWord := a.getD (x % 5 + 5 * (y % 5)) 0

/-- The walk of ρ from lane `(x, y)` on, `n` lanes: the `t`-th lane it meets is rotated by the `t`-th triangular number, and the next lane
is `(y, 2x + 3y)`. -/
def rotWalk : Nat → Nat → Nat → Nat → List (Nat × Nat)
  | 0, _, _, _ => []
  | n + 1, t, x, y => (x + 5 * y, t * (t + 1) / 2 % 64) :: rotWalk n (t + 1) y ((2 * x + 3 * y) % 5)

/-- By how much ρ rotates the lane at an index: the walk meets every lane but (0, 0). -/
def keccakRot (i : Nat) : Nat := (alGet i (rotWalk 24 1 1 0)).getD 0

/-- The register that makes the bits of ι: eight bits, shifted, with the feedback of x^8 + x^6 + x^5 + x^4 + 1. -/
def iotaNext (r : Nat) : Nat := if 2 * r < 256 then 2 * r else (2 * r) ^^^ 0x171

/-- Its next `n` bits. -/
def iotaBits : Nat → Nat → List Bool
  | 0, _ => []
  | n + 1, r => r.testBit 0 :: iotaBits n (iotaNext r)

/-- The constant of a round from its seven bits: bit `j` of them stands at 2^j − 1. -/
def iotaWord (bits : List Bool) : DWord :=
  BitVec.ofNat 64 ((bits.mapIdx fun j b => if b then 2 ^ (2 ^ j - 1) else 0).sum)

/-- The constants of `n` rounds from a run of bits. -/
def iotaWords : Nat → List Bool → List DWord
  | 0, _ => []
  | n + 1, bits => iotaWord (bits.take 7) :: iotaWords n (bits.drop 7)

/-- The constant each round adds to lane (0, 0). -/
def keccakRound : List DWord := iotaWords 24 (iotaBits 168 1)

/-- A new state from what stands at each (x, y). -/
def keccakMap (f : Nat → Nat → DWord) : Keccak := (List.range 25).map fun i => f (i % 5) (i / 5)

/-- θ: each lane takes the parity of two columns beside it. -/
def keccakTheta (a : Keccak) : Keccak :=
  let c := (List.range 5).map fun x => (List.range 5).foldl (fun p y => p ^^^ lane a x y) 0
  keccakMap fun x y => lane a x y ^^^ (c.getD ((x + 4) % 5) 0 ^^^ (c.getD ((x + 1) % 5) 0).rotateLeft 1)

/-- ρ and π: lane (x + 3y, x) comes to (x, y), rotated. -/
def keccakPi (a : Keccak) : Keccak :=
  let r := keccakMap fun x y => (lane a x y).rotateLeft (keccakRot (x + 5 * y))
  keccakMap fun x y => lane r (x + 3 * y) x

/-- χ. -/
def keccakChi (a : Keccak) : Keccak := keccakMap fun x y => lane a x y ^^^ (~~~ lane a (x + 1) y &&& lane a (x + 2) y)

/-- One round. -/
def keccakStep (a : Keccak) (rc : DWord) : Keccak :=
  match keccakChi (keccakPi (keccakTheta a)) with
  | [] => []
  | l :: t => (l ^^^ rc) :: t

/-- Keccak-f[1600]. -/
def keccakF (a : Keccak) : Keccak := keccakRound.foldl keccakStep a

/-- Bytes as little-endian lanes. -/
def lanesOf (n : Nat) (bs : List Byte) : Keccak := (List.range n).map fun i => BitVec.ofNat 64 (leNat ((bs.drop (8 * i)).take 8))

/-- Absorbs `n` blocks of 136 bytes. -/
def keccakAbsorb : Nat → List Byte → Keccak → Keccak
  | 0, _, a => a
  | n + 1, bs, a =>
    let b := lanesOf 17 (bs.take 136)
    keccakAbsorb n (bs.drop 136) (keccakF ((List.range 25).map fun i => a.getD i 0 ^^^ b.getD i 0))

/-- The message with SHAKE's suffix, padded to whole blocks. -/
def shakePad (bs : List Byte) : List Byte :=
  let n := bs.length % 136
  if n = 135 then bs ++ [0x9F] else bs ++ [0x1F] ++ List.replicate (134 - n) 0 ++ [0x80]

/-- SHAKE256 with `n` bytes of output, n at most 136. -/
def shake256 (n : Nat) (bs : List Byte) : List Byte :=
  let a := keccakAbsorb (bs.length / 136 + 1) (shakePad bs) (List.replicate 25 0)
  ((a.flatMap fun l => leBytes 8 l.toNat).take n)

/-- The 64 bytes of output that digests and measurements take. -/
def digest (bs : List Byte) : List Byte := shake256 64 bs

/-- The bytes of a label. -/
def labelBytes (s : String) : List Byte := s.toList.map fun c => BitVec.ofNat 8 c.toNat

end Sys2Proof.Machine
end

