-- ==== Sys2Proof/Machine/Life.lean ====
section
/-! DEFINITION. The boot flash (R456) and the lifetime log in it (R498 to R500). -/

namespace Sys2Proof.Machine

/-! ### The flash (R456; an erased byte reads 0xFF, log entry 46) -/

/-- A flash byte. -/
def Boot.byte (b : Boot) (o : Nat) : Byte := smGet 0xFF o b.flash
/-- `n` flash bytes from offset `o` up. -/
def Boot.bytes (b : Boot) (o n : Nat) : List Byte := (List.range n).map fun i => b.byte (o + i)
/-- Stores bytes from key `k` up in a flash image. -/
def flashStore (k : Nat) : List Byte → List Host.Cell → List Host.Cell
  | [], m => m
  | x :: xs, m => flashStore (k + 1) xs (smSet 0xFF k x m)
/-- Programs bytes. -/
def Boot.program (b : Boot) (o : Nat) (bs : List Byte) : Boot := { b with flash := flashStore o bs b.flash }
/-- Erases the 64 KiB sector at `o`. -/
def Boot.erase (b : Boot) (o : Nat) : Boot :=
  let lo := o / 0x10000 * 0x10000
  { b with flash := b.flash.filter fun c => !decide (lo ≤ c.1 ∧ c.1 < lo + 0x10000) }

/-! ### The live image (R498, R499) -/

/-- One step of CRC-32 with the IEEE 802.3 polynomial. -/
def crc32Byte (c : Word) (b : Byte) : Word :=
  (List.range 8).foldl (fun (c : Word) _ => if c.getLsbD 0 then (c >>> 1) ^^^ 0xEDB88320 else c >>> 1) (c ^^^ b.setWidth 32)
/-- CRC-32. -/
def crc32 (bs : List Byte) : Nat := (~~~ bs.foldl crc32Byte 0xFFFFFFFF).toNat

/-- Word `i` of the live image. -/
def Life.word (l : Life) (i : Nat) : Nat :=
  match i with
  | 0 => 0x4C464C5A
  | 1 => 1 + l.reason * 0x10000
  | 2 => l.seq
  | 3 => l.crc
  | 4 => l.time % 0x100000000
  | 5 => l.time / 0x100000000
  | 6 => l.seconds % 0x100000000
  | 7 => l.seconds / 0x100000000
  | _ => smGet 0 (4 * i) l.counts

/-- The words of the live image from `i` to the end, as bytes. -/
def Life.tail (l : Life) (i : Nat) : List Byte := (List.range (1024 - i)).flatMap fun j => leBytes 4 (l.word (i + j))

/-- The image as the entry that is written now for `reason`. -/
def Life.stamp (l : Life) (reason time : Nat) : Life :=
  let l := { l with reason := reason, seq := (l.seq + 1) % 0x100000000, time := time }
  { l with crc := crc32 (l.tail 4) }

/-! ### The log in flash (R500) -/

/-- Where entry place `n` of the log stands; the region holds 52,992 entries. -/
def logOff (n : Nat) : Nat := 0x3100000 + 0x1000 * (n % 52992)

/-- Appends the live image: the first entry of a sector has the next sector erased. A failed write leaves the log as it was. -/
def State.lifeAppend (s : State) (reason : Nat) : State :=
  let h := s.hw
  if Config.flashFails h.freeCtr then
    { s with hw := ((h.draw).wr 0x006 0x044 2).raise 0x006 1 }
  else
    let l := h.life.stamp reason h.time
    let b := if l.slot % 16 = 0 then s.boot.erase (logOff (l.slot + 16)) else s.boot
    let b := b.program (logOff l.slot) (l.tail 0)
    let h := { h.draw with life := { l with slot := (l.slot + 1) % 52992 } }
    { s with boot := b, hw := (((h.wr 0x006 0x04C l.seq).wr 0x006 0x044 0).raise 0x006 0) }

/-- The words of an entry place whose magic, version and CRC are right. -/
def Boot.entry (b : Boot) (n : Nat) : Option (List Byte) :=
  if leNat (b.bytes (logOff n) 4) = 0x4C464C5A then
    let bs := b.bytes (logOff n) 0x1000
    if leNat ((bs.drop 4).take 2) = 1 ∧ leNat ((bs.drop 12).take 4) = crc32 (bs.drop 16) then some bs else none
  else none

/-- The valid entry with the highest seq, with its place. -/
def Boot.lastEntry (b : Boot) : Option (Nat × List Byte) :=
  (List.range 52992).foldl (fun best n =>
    match b.entry n with
    | none => best
    | some bs =>
      match best with
      | none => some (n, bs)
      | some (m, old) => if leNat ((old.drop 8).take 4) < leNat ((bs.drop 8).take 4) then some (n, bs) else some (m, old)) none

/-- The live image loaded from an entry. -/
def Life.load (l : Life) (n : Nat) (bs : List Byte) : Life :=
  let w (i : Nat) : Nat := leNat ((bs.drop (4 * i)).take 4)
  { l with
    counts := (List.range 1016).foldl (fun c j => smSet 0 (4 * (j + 8)) (w (j + 8)) c) []
    reason := w 1 / 0x10000
    seq := w 2
    crc := w 3
    time := w 4 + 0x100000000 * w 5
    seconds := w 6 + 0x100000000 * w 7
    slot := (n + 1) % 52992 }

/-- Step 4 of R462 for the live image: the counts that events without power owe are added after the load. -/
def State.lifeBoot (s : State) : State :=
  let l := s.hw.life
  let keep : Life := { owed := l.owed, periodAt := s.hw.time, sampleAt := s.hw.time }
  let l := match s.boot.lastEntry with
    | some (n, bs) => keep.load n bs
    | none => keep
  let l := l.owed.foldl (fun l o => l.bump o) l
  { s with hw := { s.hw with life := { l with owed := [] } }.wr 0x006 0x04C l.seq }

/-! ### Rows -/

/-- Whether the Handler's firmware runs: the ROM phase and recovery are over and the module is not in Watch or Deep. -/
def Hw.firmware (h : Hw) : Bool :=
  (h.rd 0x003 0x048 % 16 == 1 || h.rd 0x003 0x048 % 16 == 2) && decide (h.pow.state < 3)

/-- LIFE_WRITE_NOW (R500). -/
def execLifeWriteNow (r : Req) (_v : Word) (s : State) : Out :=
  .next (s.whenUp fun s => s.guardWrite r 0x006 0x040 1 fun s => s.lifeAppend 3)

/-- LIFE_PERIOD in seconds: values outside 60 to 86,400 act as 600 (R505). -/
def Hw.lifePeriod (h : Hw) : Nat :=
  let v := h.rd 0x006 0x048
  if 60 ≤ v ∧ v ≤ 86400 then v else 600

def lifePeriod (s : State) : State :=
  let h := s.hw
  if h.firmware ∧ h.life.periodAt + h.lifePeriod * 1000000000 ≤ h.time then
    { s with hw := { h with life := { h.life with periodAt := h.time } } }.lifeAppend 1
  else s

/-- LIFE_PERIOD (R500). -/
def execLifePeriod (s : State) : Out := .next (s.whenUp lifePeriod)

/-- The bin of the temperature histogram (R498). -/
def tempBin (t : Int) : Nat := min ((t + 20) / 5).toNat 31

def lifetimeSample (temp : Int) (h : Hw) : Hw :=
  if h.life.sampleAt + 1000000000 ≤ h.time then
    let l := { h.life with sampleAt := h.life.sampleAt + 1000000000, seconds := h.life.seconds + 1 }
    { h with life := if h.pow.state < 3 then l.bump (0x080 + 4 * tempBin temp) else l }
  else h

/-- LIFETIME_SAMPLE (R499): the histogram takes a sample in Run, Idle and Hold only. -/
def execLifetimeSample (temp : Int) (s : State) : Out := .next (s.onHw (lifetimeSample temp))

end Sys2Proof.Machine
end

