-- ==== Sys2Proof/Machine/Operands.lean ====
section
/-! DEFINITION. The operand forms: the fields of a descriptor (R50), the address forms of R52, and the fields of a context
block (R66). -/

namespace Sys2Proof.Machine

/-- `n` bytes at byte offset `o` of a descriptor, as a number. -/
def dnum (d : BitVec 512) (o n : Nat) : Nat := d.toNat / 2 ^ (8 * o) % 2 ^ (8 * n)

/-- A descriptor read as the 64 bytes of its slot. -/
def descOf (bs : List Byte) : BitVec 512 := BitVec.ofNat 512 (leNat bs)

/-- Opcode-specific word `i` (R50). -/
def dword (d : BitVec 512) (i : Nat) : Nat := dnum d (0x28 + 4 * i) 4
/-- word0. -/
def dw0 (d : BitVec 512) : Nat := dnum d 0x00 4
/-- word3. -/
def dw3 (d : BitVec 512) : Nat := dnum d 0x0C 4
/-- The fields of word0. -/
def dOpcode (d : BitVec 512) : Nat := bitsOf (dw0 d) 7 0
def dFormat (d : BitVec 512) : Nat := bitsOf (dw0 d) 11 8
def dPriority (d : BitVec 512) : Nat := bitsOf (dw0 d) 13 12
def dSnapshot (d : BitVec 512) : Bool := bitOf (dw0 d) 14
def dFence (d : BitVec 512) : Bool := bitOf (dw0 d) 15
def dPredIndex (d : BitVec 512) : Nat := bitsOf (dw0 d) 21 16
def dPredEn (d : BitVec 512) : Bool := bitOf (dw0 d) 22
def dPredInv (d : BitVec 512) : Bool := bitOf (dw0 d) 23
def dGroup (d : BitVec 512) : Nat := bitsOf (dw0 d) 31 24
/-- The tags. -/
def dJob (d : BitVec 512) : Nat := dnum d 0x04 4
def dLayer (d : BitVec 512) : Nat := dnum d 0x08 2
def dOper (d : BitVec 512) : Nat := dnum d 0x0A 2
/-- The fields of word3. -/
def dTenant (d : BitVec 512) : Nat := bitsOf (dw3 d) 11 0
def dSpec (d : BitVec 512) : Bool := bitOf (dw3 d) 12
def dStep (d : BitVec 512) : Nat := bitsOf (dw3 d) 14 13
def dMirror (d : BitVec 512) : Bool := bitOf (dw3 d) 15
def dRecord (d : BitVec 512) : Bool := bitOf (dw3 d) 16
def dIrq (d : BitVec 512) : Bool := bitOf (dw3 d) 17
def dWaitEn (d : BitVec 512) : Bool := bitOf (dw3 d) 18
def dSigEn (d : BitVec 512) : Bool := bitOf (dw3 d) 19
def dWaitSem (d : BitVec 512) : Nat := bitsOf (dw3 d) 23 20
def dSigSem (d : BitVec 512) : Nat := bitsOf (dw3 d) 27 24
/-- Addresses and declared lengths. -/
def dSrc (d : BitVec 512) : Nat := dnum d 0x10 8
def dDst (d : BitVec 512) : Nat := dnum d 0x18 8
def dSrcLen (d : BitVec 512) : Nat := dnum d 0x20 4
def dDstLen (d : BitVec 512) : Nat := dnum d 0x24 4

/-- The four address forms of R52, by bits [63:62]. -/
inductive AddrForm where
  /-- a device virtual address -/
  | va (a : Nat)
  /-- a result slot, by distance back in the queue -/
  | slot (dist : Nat)
  /-- a landing area of another core -/
  | peer (core off : Nat)
  /-- this core's landing area -/
  | landing (off : Nat)
  /-- a nonzero bit where the layout requires zero, a distance of 0, or an offset that is no multiple of 8 -/
  | bad
  deriving DecidableEq, Repr

/-- Reads an address word (R52); a peer form that names no core of the module is bad (log entry 81). -/
def addrForm (a : Nat) : AddrForm :=
  match a / 2 ^ 62 % 4 with
  | 0 => if bitsOf a 61 52 = 0 then .va (bitsOf a 51 0) else .bad
  | 2 => if bitsOf a 61 9 = 0 ∧ bitsOf a 8 0 ≠ 0 then .slot (bitsOf a 8 0) else .bad
  | 3 => if bitsOf a 61 54 = 0 ∧ bitsOf a 47 18 = 0 ∧ bitsOf a 53 48 < 48 ∧ bitsOf a 17 0 % 8 = 0
         then .peer (bitsOf a 53 48) (bitsOf a 17 0) else .bad
  | _ => if bitsOf a 61 18 = 0 ∧ bitsOf a 17 0 % 8 = 0 then .landing (bitsOf a 17 0) else .bad

/-- Whether the form is a device virtual address. -/
def AddrForm.isVa : AddrForm → Bool
  | .va _ => true
  | _ => false

/-- `n` bytes at byte `o` of a block of bytes, as a number. -/
def bnum (bs : List Byte) (o n : Nat) : Nat := leNat ((bs.drop o).take n)

/-- The fields of a context block (R66). -/
def ctxVocab (c : List Byte) : Nat := bitsOf (bnum c 0x04 4) 3 0
def ctxPrograms (c : List Byte) : Nat := bitsOf (bnum c 0x04 4) 8 4
def ctxScaleTable (c : List Byte) : Nat := bnum c 0x08 8
def ctxRescaleTable (c : List Byte) : Nat := bnum c 0x10 8
def ctxMicrograms (c : List Byte) : Nat := bnum c 0x18 8
def ctxMuzzle (c : List Byte) : Nat := bnum c 0x20 8
def ctxScaleEntries (c : List Byte) : Nat := bnum c 0x28 2
def ctxRescaleEntries (c : List Byte) : Nat := bnum c 0x2A 2

end Sys2Proof.Machine
end

