-- ==== Sys2Proof/Machine/Mmu.lean ====
section
/-! DEFINITION. Translation (R80 to R87), what an access meets (R89), fault records (R90, R91) and uncorrectable reads
(R98). Reads are functions of the state; what a read leaves behind (a TLB entry, an age stamp, poison where an error was
met) is `Hw.touch`. -/

namespace Sys2Proof.Machine

/-- A master (R89, R90): the slice that serves it (R87), its kind and id in fault records, and its core if it is one. -/
structure Master where
  slice : Nat
  kind : Nat
  id : Nat
  core : Option Nat := none
  deriving DecidableEq, Repr

/-- The master a queue's commands are. -/
def queueMaster (id : QId) : Master :=
  match id.eng with
  | .core n => ⟨n.val / 12, 0, n.val * 8 + id.q, some n.val⟩
  | .stage d u => ⟨d.val, 2, d.val * 8 + unitPage u, none⟩

def portNo : Port → Nat
  | .a => 0 | .b => 1
def portPage (p : Port) : Nat := 0x010 + portNo p
/-- A port as a requester (R26). -/
def portReq : Port → Req
  | .a => .portA | .b => .portB

def dmaMaster (n : Nat) : Master := ⟨n / 8, 1, n, none⟩
def apertureMaster : Port → Master
  | .a => ⟨0, 3, 0, none⟩ | .b => ⟨0, 4, 0, none⟩
def handlerMaster : Master := ⟨0, 5, 0, none⟩
/-- MMU1 serves LSH0 and LSH2, MMU3 serves LSH1 and LSH3 (R87). -/
def leashMaster (p : Nat) : Master := ⟨if p % 2 = 0 then 1 else 3, 6, p, none⟩
def streamMaster (s : Nat) : Master := ⟨0, 7, s, none⟩

/-- The trace engine id of a master (R483). -/
def masterTrace (m : Master) : Nat :=
  match m.kind with
  | 0 => 8 * (m.id / 8) | 1 => 408 + m.id | 2 => 384 + 6 * (m.id / 8) + m.id % 8 | 3 => 444 | 4 => 445 | 5 => 446
  | 6 => 447 + m.id | _ => 451 + m.id

/-- Why an access does not deliver its bytes. -/
inductive RdErr where
  /-- fault cause (R90), walk level, faulting address -/
  | fault (cause level va : Nat)
  /-- an uncorrectable line or poison, with the range read -/
  | ecc (va n : Nat)
  /-- the access waits: slice disabled (R86), range under test (R473) -/
  | wait
  deriving DecidableEq, Repr

/-- The fault causes of R90. -/
abbrev fNotValid : Nat := 1
abbrev fMoving : Nat := 2
abbrev fBadPte : Nat := 3
abbrev fWalkError : Nat := 4
abbrev fKennel : Nat := 5

/-- A leaf and where it was found: the entry, whether it maps 32 MiB, the level, and the key of the entry in memory. -/
structure Leaf where
  pte : Nat
  big : Bool
  level : Nat
  at_ : Nat
  deriving DecidableEq, Repr

/-- The fields of an entry (R83). -/
def pteValid (e : Nat) : Bool := bitOf e 0
def pteMoving (e : Nat) : Bool := bitOf e 1
def pteLeaf (e : Nat) : Bool := bitOf e 2
def ptePin (e : Nat) : Bool := bitOf e 3
def pteTier (e : Nat) : Nat := bitsOf e 5 4
def ptePool (e : Nat) : Bool := bitOf e 6
def pteKv (e : Nat) : Bool := bitOf e 7
def ptePort (e : Nat) : Nat := bitsOf e 8 8
def pteFrame (e : Nat) : Nat := bitsOf e 51 16 * 0x10000
def pteTenant (e : Nat) : Nat := bitsOf e 63 52
def pteNext (e : Nat) : Nat := bitsOf e 51 12 * 0x1000

/-- The memory space of a tier and port: Kennel frames lie behind port A or B (R80). -/
def tierSpace (tier port : Nat) : Nat := if tier < 2 then tier else 2 + port

/-- Bytes of the page a leaf maps. -/
def leafBytes (big : Bool) : Nat := if big then 0x2000000 else 0x10000

/-- Whether an entry at level `l` is well formed (R84); the port bit of a leaf outside the Kennel may be anything (log entry 87). -/
def pteGood (l e : Nat) : Bool :=
  if pteLeaf e then
    decide (2 ≤ l) && pteTier e != 3 && bitsOf e 15 9 == 0 && (l == 3 || bitsOf e 24 16 == 0)
      && (pteKv e || pteTenant e == 0)
      && decide (pteFrame e + leafBytes (l == 2) ≤ spaceSize (tierSpace (pteTier e) (ptePort e)))
  else
    l != 3 && decide (pteTier e < 2) && bitsOf e 3 1 == 0 && bitsOf e 11 6 == 0 && bitsOf e 63 52 == 0
      && decide (pteNext e + 0x1000 ≤ spaceSize (pteTier e))

/-- The index of a virtual address at level `l` (R82). -/
def vaIndex (l va : Nat) : Nat := va / 2 ^ (43 - 9 * l) % 512

/-- Whether a self-test holds accesses to the key (R473). -/
def Hw.bistHeld (h : Hw) (k : Nat) : Bool := h.bist.holds.any (fun (lo, n) => decide (lo ≤ k ∧ k < lo + n))

/-- Whether a self-test of base die `q` makes translations through its slice wait (R471). -/
def Hw.bistSlice (h : Hw) (q : Nat) : Bool := h.bist.kind == 1 && h.bist.running.any fun m => m.index == q

/-- A tier-physical address beyond its tier reaches no memory (R81). -/
def inTier (k n : Nat) : Bool := decide (k % 0x10000000000000 + n ≤ spaceSize (k / 0x10000000000000)) && decide (k / 0x10000000000000 < 2)

/-- Whether `n` bytes from key `k` read with an uncorrectable error, known or not (R98). -/
def Hw.badRead? (h : Hw) (k n : Nat) : Bool := h.poison.any (unitMeets k n) || h.upsets.any (unitMeets k n)

/-- Walks from level `l` with `fuel` levels left; `k` is the key of the table (R81 to R84). -/
def Hw.walkFrom (h : Hw) (va : Nat) : Nat → Nat → Nat → Except RdErr Leaf
  | 0, l, _ => .error (.fault fBadPte l va)
  | fuel + 1, l, k =>
    let at_ := k + 8 * vaIndex l va
    let e := leNat (h.bytes at_ 8)
    if h.bistHeld at_ then .error .wait
    else if !inTier at_ 8 then .error (.fault fBadPte l va)
    else if h.badRead? at_ 8 then .error (.fault fWalkError l va)
    else if !pteValid e then .error (.fault fNotValid l va)
    else if !pteGood l e then .error (.fault fBadPte l va)
    else if pteLeaf e then .ok ⟨e, l == 2, l, at_⟩
    else h.walkFrom va fuel (l + 1) (memKey (pteTier e) (pteNext e))

/-- The keys of the entries that a walk reads, first read first. -/
def Hw.walkReads (h : Hw) (va : Nat) : Nat → Nat → Nat → List Nat
  | 0, _, _ => []
  | fuel + 1, l, k =>
    let at_ := k + 8 * vaIndex l va
    let e := leNat (h.bytes at_ 8)
    if h.bistHeld at_ || !inTier at_ 8 then []
    else if h.badRead? at_ 8 || !pteValid e || !pteGood l e || pteLeaf e then [at_]
    else at_ :: h.walkReads va fuel (l + 1) (memKey (pteTier e) (pteNext e))

/-- The root table of a slice (R82, R111). -/
def Hw.rootKey (h : Hw) (slice : Nat) : Nat :=
  let r := h.rd64 (0x020 + slice) 0x040
  memKey (r % 4) (bitsOf r 51 12 * 0x1000)

/-- Walks the tables of slice `slice` for `va`. -/
def Hw.walk (h : Hw) (slice va : Nat) : Except RdErr Leaf := h.walkFrom va 4 0 (h.rootKey slice)

/-- The entry of a TLB that maps `va` for holder `t` (R87). -/
def Hw.tlbFind (h : Hw) (t va : Nat) : Option TlbEnt :=
  h.mmu.tlb.find? (fun e => e.holder = t && (if e.big then e.page / 512 = va / 0x2000000 else e.page = va / 0x10000))

/-- The translation a master uses: its micro-TLB, its slice's TLB, else a walk (R87). -/
def Hw.leafOf (h : Hw) (m : Master) (va : Nat) : Except RdErr Leaf :=
  let hit := (m.core.bind (fun n => h.tlbFind (4 + n) va)).orElse (fun _ => h.tlbFind m.slice va)
  match hit with
  | some e => .ok ⟨e.pte.toNat, e.big, if e.big then 2 else 3, 0⟩
  | none => h.walk m.slice va

/-- The memory key a leaf gives `va`. -/
def leafKey (lf : Leaf) (va : Nat) : Nat :=
  memKey (tierSpace (pteTier lf.pte) (ptePort lf.pte)) (pteFrame lf.pte + va % leafBytes lf.big)

/-- Whether the PCIe port of a Kennel leaf is reachable: link trained and Bus Master Enable set (R89, R414). -/
def Hw.kennelUp (h : Hw) (port : Nat) : Bool :=
  if port = 0 then h.pcieA.up && h.pcieA.busMaster else h.pcieB.up && h.pcieB.busMaster

/-- Whether a master is stopped by a moving page: a core command (R89), and a Muzzle, whose own rules hold it there with a record (R250,
R270; log entry 85). -/
def Master.stopsAtMove (m : Master) : Bool := m.kind == 0 || (m.kind == 2 && m.id % 8 == unitPage .muz)

/-- Where `va` lies for a master (R86, R89): those that a moving page stops fault there; the others read the old copy and, when
they write, wait for the flip. From 2^52 on nothing is mapped (log entry 87). -/
def Hw.locate (h : Hw) (m : Master) (va : Nat) (write : Bool) : Except RdErr Nat :=
  if !h.enabled (0x020 + m.slice) || h.bistSlice m.slice then .error .wait
  else if 0x10000000000000 ≤ va then .error (.fault fNotValid 0 va)
  else match h.leafOf m va with
    | .error e => .error e
    | .ok lf =>
      if pteMoving lf.pte && m.stopsAtMove then .error (.fault fMoving lf.level va)
      else if pteMoving lf.pte && write then .error .wait
      else if pteTier lf.pte = 2 ∧ h.kennelUp (ptePort lf.pte) = false then .error (.fault fKennel lf.level va)
      else if h.bistHeld (leafKey lf va) then .error .wait
      else .ok (leafKey lf va)

/-- The enabled remote window that holds `va` (R401): the lowest-numbered one whose module is another module of the ring. -/
def Hw.windowOf (h : Hw) (va : Nat) : Option Nat :=
  (List.range 16).find? (fun w =>
    let c := h.rd 0x012 (0x210 + 0x20 * w)
    let lo := h.rd64 0x012 (0x200 + 0x20 * w)
    let n := 2 * (bitsOf (h.rd 0x012 0x100) 5 4 + 1)
    bitOf c 0 && bitsOf c 3 1 != h.moduleNo && decide (bitsOf c 3 1 < n) && decide (lo ≤ va ∧ va < lo + 2 ^ bitsOf c 9 4))

/-- The most bytes that lie with `va` on one 64 KiB granule. -/
def granuleLeft (va : Nat) : Nat := 0x10000 - va % 0x10000

/-- Reads up to `fuel` granules. -/
def Hw.readGran (h : Hw) (m : Master) : Nat → Nat → Nat → Except RdErr (List Byte)
  | 0, _, _ => .ok []
  | fuel + 1, va, n =>
    if n = 0 then .ok []
    else
      let c := min n (granuleLeft va)
      match h.locate m va false with
      | .error e => .error e
      | .ok k =>
        if h.badRead? k c then .error (.ecc va c)
        else match h.readGran m fuel (va + c) (n - c) with
          | .error e => .error e
          | .ok bs => .ok (h.bytes k c ++ bs)

def Hw.pairCtl (h : Hw) : Nat := h.rd 0x012 0x100
def Hw.port (h : Hw) (p : Nat) : LeashPort := h.ports[p]?.getD {}

/-- Modules of the ring (R400). -/
def Hw.moduleCount (h : Hw) : Nat := 2 * (bitsOf h.pairCtl 5 4 + 1)

/-- The port a message for module `t` leaves by (R400): the shorter way round the ring, the other way when that is down. -/
def Hw.route (h : Hw) (t : Nat) : Option Nat :=
  let m := h.moduleNo
  let half := h.moduleCount / 2
  let d := (t / 2 + half - m / 2) % half
  if t = m then none
  else if d = 0 then [0, 1].find? fun p => (h.port p).up
  else
    let ring := if d ≤ half / 2 then [3, 2] else [2, 3]
    ring.find? fun p => (h.port p).up

/-- Whether this module has a route to another module (R400). -/
def Hw.routeUp (h : Hw) (t : Nat) : Bool := (h.route t).isSome

/-- Reads `n` bytes at `va` for a master: through a remote window the bytes are the other module's, a free value here (R401;
log entry 22), else through the page tables. -/
def Hw.read (h : Hw) (m : Master) (va n : Nat) : Except RdErr (List Byte) :=
  if n = 0 then .ok []
  else match (if m.kind = 6 then none else h.windowOf va) with
    | some w => if h.routeUp (bitsOf (h.rd 0x012 (0x210 + 0x20 * w)) 3 1) then .ok (freeBytes h.freeCtr n)
                else if m.kind = 0 then .error (.fault fNotValid 0 va) else .error .wait
    | none => h.readGran m (n / 0x10000 + 2) va n

/-- Reads a little-endian number. -/
def Hw.readNat (h : Hw) (m : Master) (va n : Nat) : Except RdErr Nat := (h.read m va n).map leNat

/-! ### What a read leaves behind -/

/-- The channel and controller of an LPDDR6 address (R97). -/
def lpChannel (a : Nat) : Nat :=
  let q := a / 0x6000000000 % 4
  let o := a % 0x6000000000
  32 * q + (bitsOf o 15 11 + bitsOf o 20 16) % 32

/-- The channel-local address of an LPDDR6 address (R97). -/
def lpLocal (a : Nat) : Nat := let o := a % 0x6000000000; o / 0x10000 * 2048 + bitsOf o 10 0

/-- Reports the uncorrectable error at poison unit `u` and poisons it (R98, R111, R498). -/
def Hw.uncorrectable (h : Hw) (u : Nat) : Hw :=
  let h := { h with upsets := h.upsets.filter (· ≠ u), poison := if h.poison.contains u then h.poison else u :: h.poison }
  let a := u % 0x10000000000000
  if u / 0x10000000000000 = 0 then
    let q := a / 0x40000000 % 4
    let h := { h with life := h.life.bump (0x544 + 8 * q) }
    ((h.count 0x025 (0x090 + 4 * q)).err 0x025 q cECC).raise 0x025 1
  else if u / 0x10000000000000 = 1 then
    let c := lpChannel a
    let p := 0x030 + c / 8
    let o := 0x054 + 0x10 * (c % 8)
    let h := (h.count p o).wr64 p (o + 4) a
    let h := { h with life := h.life.bump (0x144 + 8 * c) }
    (h.err p (c % 8) cECC).raise p 0
  else h

/-- Counts a read that corrected the error at unit `u` (R98, R111, R498). -/
def Hw.correctedRead (h : Hw) (u : Nat) : Hw :=
  let a := u % 0x10000000000000
  if u / 0x10000000000000 = 0 then
    let q := a / 0x40000000 % 4
    { h with life := h.life.bump (0x540 + 8 * q) }.count 0x025 (0x080 + 4 * q)
  else if u / 0x10000000000000 = 1 then
    let c := lpChannel a
    let h := h.count (0x030 + c / 8) (0x050 + 0x10 * (c % 8))
    { h with life := h.life.bump (0x140 + 8 * c) }
  else h

/-- What a read of `n` bytes at key `k` meets: every fresh uncorrectable error is poisoned and reported, every corrected one counted. -/
def Hw.meet (h : Hw) (k n : Nat) : Hw :=
  let h := (h.flips.filter fun u => unitMeets k n u && !h.upsets.contains u && !h.poison.contains u).foldl Hw.correctedRead h
  (h.upsets.filter (unitMeets k n)).foldl Hw.uncorrectable h

/-- Global time in units of 2^24 ns, as stamped (R109). -/
def Hw.stamp (h : Hw) : Nat := h.time / 0x1000000 % 0x100000000

/-- Where the age stamp of a frame lies (R109): the array of its tier, none for a Kennel frame. -/
def Hw.stampKey (h : Hw) (tier frame : Nat) : Option Nat :=
  if tier = 0 then let b := h.rd64 0x025 0x048; some (memKey (b % 4) (bitsOf b 51 4 * 16 + 4 * (frame / 0x10000)))
  else if tier = 1 then let b := h.rd64 0x025 0x050; some (memKey (b % 4) (bitsOf b 51 4 * 16 + 4 * (frame / 0x10000)))
  else none

/-- Stores bytes at a tier-physical key; discarded beyond the tier (R81). -/
def Hw.storeTier (h : Hw) (k : Nat) (bs : List Byte) : Hw := if inTier k bs.length then h.store k bs else h

/-- Fills a TLB with a leaf that is neither invalid nor moving (R87), restamping a pool page by its frame address (R109). When the TLB is full its
oldest entry leaves (log entry 23). -/
def Hw.fillTlb (h : Hw) (t va : Nat) (lf : Leaf) : Hw :=
  if pteMoving lf.pte then h
  else
    let e : TlbEnt := ⟨t, va / 0x10000, lf.big, BitVec.ofNat 64 lf.pte⟩
    let cap := if t < 4 then 4096 else 64
    let mine := h.mmu.tlb.filter (fun x => x.holder = t)
    let rest := if cap ≤ mine.length then
        match mine.head? with
        | some x => h.mmu.tlb.erase x
        | none => h.mmu.tlb
      else h.mmu.tlb
    let h := { h with mmu := { h.mmu with tlb := rest ++ [e] } }
    if ptePool lf.pte then
      match h.stampKey (pteTier lf.pte) (pteFrame lf.pte) with
      | some k => h.storeTier k (leBytes 4 h.stamp)
      | none => h
    else h

/-- What the table reads of a walk leave behind (R98). -/
def Hw.walked (h : Hw) (slice va : Nat) : Hw := (h.walkReads va 4 0 (h.rootKey slice)).foldl (fun h k => h.meet k 8) h

/-- Fills the micro-TLB of a core's master, unless it holds the page (R87). -/
def Hw.fillMicro (h : Hw) (m : Master) (va : Nat) (lf : Leaf) : Hw :=
  match m.core with
  | some n => if (h.tlbFind (4 + n) va).isSome then h else h.fillTlb (4 + n) va lf
  | none => h

/-- What a walk that found a leaf fills. -/
def Hw.fillWalk (h : Hw) (m : Master) (va : Nat) : Hw :=
  match h.walk m.slice va with
  | .error _ => h
  | .ok lf => (h.fillTlb m.slice va lf).fillMicro m va lf

/-- A lookup by a master: the misses it counts, the table reads of its walk, and the entries it fills (R87, R98, R111). -/
def Hw.lookup (h : Hw) (m : Master) (va : Nat) : Hw :=
  match m.core.bind (fun n => h.tlbFind (4 + n) va) with
  | some _ => h
  | none =>
    match h.tlbFind m.slice va with
    | some e => h.fillMicro m va ⟨e.pte.toNat, e.big, 3, 0⟩
    | none => ((h.count (0x020 + m.slice) 0x070).walked m.slice va).fillWalk m va

/-- Counts bytes read from, or written to, host memory (R416). -/
def Hw.countKennel (h : Hw) (k n : Nat) (write : Bool) : Hw :=
  if 2 ≤ k / 0x10000000000000 then h.count64 (0x010 + (k / 0x10000000000000 - 2)) (if write then 0x05C else 0x054) n else h

/-- What an access to `n` bytes at `va` leaves behind, granule by granule. -/
def Hw.touchGran (m : Master) : Nat → Nat → Nat → Hw → Hw
  | 0, _, _, h => h
  | fuel + 1, va, n, h =>
    if n = 0 then h
    else
      let c := min n (granuleLeft va)
      let h := h.lookup m va
      let h := match h.locate m va false with
        | .ok k => (h.meet k c).countKennel k c false
        | .error _ => h
      Hw.touchGran m fuel (va + c) (n - c) h

/-- What an access to `n` bytes at `va` leaves behind; nothing while the slice holds the access (R86). -/
def Hw.touch (h : Hw) (m : Master) (va n : Nat) : Hw :=
  if m.kind != 6 && (h.windowOf va).isSome then h.draw
  else if !h.enabled (0x020 + m.slice) then h
  else Hw.touchGran m (n / 0x10000 + 2) va n h

/-- Whether an access of a master at `va` needs the near tier: its page, or a table word of its walk (R433). -/
def Hw.nearAt (h : Hw) (m : Master) (va : Nat) : Bool :=
  (match h.leafOf m va with | .ok lf => pteTier lf.pte == 0 | .error _ => false)
    || ((h.tlbFind m.slice va).isNone
      && (h.walkReads va 4 0 (h.rootKey m.slice)).any fun k => decide (k < 0x10000000000000))

/-- The demand that an access from outside to `n` bytes at `va` is in Idle and Hold (R433). -/
def Hw.demandFor (h : Hw) (m : Master) (va n : Nat) : Hw :=
  if h.pow.state = 0 then h
  else if (h.windowOf va).isNone && (List.range (n / 0x10000 + 2)).any fun i => decide (va / 0x10000 * 0x10000 + i * 0x10000 < va + n)
      && h.nearAt m (va / 0x10000 * 0x10000 + i * 0x10000) then h.demand
  else h

/-! ### Writes -/

/-- The lookups of a write of `n` bytes at `va`, granule by granule. -/
def Hw.lookupGran (m : Master) : Nat → Nat → Nat → Hw → Hw
  | 0, _, _, h => h
  | fuel + 1, va, n, h =>
    if n = 0 then h
    else Hw.lookupGran m fuel (va + min n (granuleLeft va)) (n - min n (granuleLeft va)) (h.lookup m va)

/-- The lookups of a write; none while the slice holds it, or where a window takes it. -/
def Hw.lookups (h : Hw) (m : Master) (va n : Nat) : Hw :=
  if !h.enabled (0x020 + m.slice) || (m.kind != 6 && (h.windowOf va).isSome) then h
  else Hw.lookupGran m (n / 0x10000 + 2) va n h

/-- Splits a write into the keys it reaches; none where a granule does not translate. -/
def Hw.placeGran (h : Hw) (m : Master) : Nat → Nat → List Byte → Except RdErr (List (Nat × List Byte))
  | 0, _, _ => .ok []
  | fuel + 1, va, bs =>
    if bs = [] then .ok []
    else
      let c := min bs.length (granuleLeft va)
      match h.locate m va true with
      | .error e => .error e
      | .ok k => (h.placeGran m fuel (va + c) (bs.drop c)).map ((k, bs.take c) :: ·)

/-- The keys a write of `bs` at `va` reaches. -/
def Hw.place (h : Hw) (m : Master) (va : Nat) (bs : List Byte) : Except RdErr (List (Nat × List Byte)) :=
  h.placeGran m (bs.length / 0x10000 + 2) va bs

/-- Stores the pieces of a write. -/
def Hw.storeAll (h : Hw) (ps : List (Nat × List Byte)) : Hw :=
  ps.foldl (fun h (k, bs) => (h.store k bs).countKennel k bs.length true) h

/-- Poisons every unit that meets `n` bytes from key `k` (R98). -/
def Hw.poisonRange (h : Hw) (k n : Nat) : Hw :=
  let u := poisonUnit k
  let new := ((List.range (n / u + 2)).map fun i => k / u * u + i * u).filter fun x => unitMeets k n x && !h.poison.contains x
  { h with poison := h.poison ++ new, upsets := h.upsets.filter fun x => !unitMeets k n x, flips := h.flips.filter fun x => !unitMeets k n x }

/-- Posts a write through a remote window (R401): dropped when the module is declared lost. -/
def Hw.postRemote (h : Hw) (w va : Nat) (bs : List Byte) : Hw :=
  let c := h.rd 0x012 (0x210 + 0x20 * w)
  let a := h.rd64 0x012 (0x208 + 0x20 * w) + (va - h.rd64 0x012 (0x200 + 0x20 * w))
  let t := bitsOf c 3 1
  if t / 2 = h.moduleNo / 2 ∧ (h.pair.state = 3 ∨ h.pair.state = 4 ∨ h.pair.state = 5) then
    (h.count 0x012 0x144).raise 0x012 7
  else { h with remoteOut := h.remoteOut ++ [RemoteWrite.mk t a bs] }

/-- Writes `bs` at `va` for a master; a write that does not translate leaves memory as it was. -/
def Hw.write (h : Hw) (m : Master) (va : Nat) (bs : List Byte) : Hw :=
  match (if m.kind = 6 then none else h.windowOf va) with
  | some w => h.postRemote w va bs
  | none =>
    match h.place m va bs with
    | .ok ps => h.storeAll ps
    | .error _ => h

/-- Writes a list of writes. -/
def Hw.writeAll (h : Hw) (m : Master) (ws : List (Nat × List Byte)) : Hw := ws.foldl (fun h (va, bs) => h.write m va bs) h

/-- The key of a tier-physical base in a LO and HI register pair whose address bits start at `lo` (R80, R81). -/
def Hw.tierBase (h : Hw) (p o lo : Nat) : Nat :=
  let b := h.rd64 p o
  memKey (b % 4) (bitsOf b 51 lo * 2 ^ lo)

/-! ### Fault records (R90, R91) -/

/-- The bytes of a fault record. -/
def Hw.faultBytes (h : Hw) (m : Master) (cause level va : Nat) (write : Bool) (d : BitVec 512) : List Byte :=
  let tag := decide (m.kind < 3)
  leBytes 8 h.time ++ leBytes 8 (va % 0x10000000000000)
    ++ leBytes 4 (cause + (if write then 16 else 0) + level % 4 * 32 + m.kind * 256 + m.id * 65536)
    ++ leBytes 4 (if tag then dJob d else 0) ++ leBytes 2 (if tag then dLayer d else 0)
    ++ leBytes 2 (if tag then dOper d else 0) ++ leBytes 4 0

/-- Whether the fault ring of a slice is full (R91). -/
def Hw.faultRingFull (h : Hw) (q : Nat) : Bool :=
  let p := 0x020 + q
  decide (2 ^ h.rd p 0x050 ≤ (h.rd p 0x058 + 0x100000000 - h.rd p 0x054) % 0x100000000)

/-- Writes one record to the ring of slice `q` (R90, R111) and emits its trace record (R492). -/
def Hw.writeFault (h : Hw) (q : Nat) (bs : List Byte) : Hw :=
  let p := 0x020 + q
  let tail := h.rd p 0x058
  let h := h.storeTier (h.tierBase p 0x048 5 + 32 * (tail % 2 ^ h.rd p 0x050)) bs
  let h := (h.wr p 0x058 (tail + 1)).count p 0x074
  let w := bnum bs 0x10 4
  let kind := bitsOf w 11 8
  let id := bitsOf w 31 16
  let h := (h.err p (kind + bitsOf id 10 0 * 16) cPAGE_FAULT).raise p 0
  h.trace { type := 4, engine := masterTrace ⟨q, kind, id, none⟩, queue := if kind = 0 then id % 8 else 0,
            job := bnum bs 0x14 4, layer := bnum bs 0x18 2, op := bnum bs 0x1A 2,
            arg0 := bitsOf w 3 0 + bitsOf w 4 4 * 16 + bitsOf w 6 5 * 32, arg1 := bnum bs 0x08 8 }

/-- Posts a record (R91): written at once when the ring has room and nothing waits before it, else it waits. -/
def Hw.postRecord (h : Hw) (q : Nat) (bs : List Byte) : Hw :=
  if h.faultRingFull q || h.mmu.blocked.contains q || h.mmu.pend.any (fun r => r.slice = q) then
    let h := { h with mmu := { h.mmu with pend := h.mmu.pend ++ [PendRec.mk q bs] } }
    h.raise (0x020 + q) 1
  else h.writeFault q bs

/-- Posts a fault of a master, whose lookup has met it; a held master posts no second record (R91). `hold` makes it held. -/
def Hw.postFault (h : Hw) (m : Master) (cause level va : Nat) (write : Bool) (d : BitVec 512) (hold : Bool) : Hw :=
  let h := h.lookups m va 1
  if h.mmu.held.any (fun x => x.kind = m.kind ∧ x.id = m.id) then h
  else
    let bs := h.faultBytes m cause level va write d
    let h := if hold then { h with mmu := { h.mmu with held := h.mmu.held ++ [Held.mk m.slice m.kind m.id bs] } } else h
    h.postRecord m.slice bs

/-- A write of the Handler, and whether it was made: one that faults is a bus error with its record (R89). None while it waits. -/
def Hw.handlerWrite (h : Hw) (va : Nat) (bs : List Byte) : Option (Hw × Bool) :=
  let h := h.demandFor handlerMaster va bs.length
  match (if (h.windowOf va).isSome then Except.ok [] else h.place handlerMaster va bs) with
  | .ok _ => some ((h.lookups handlerMaster va bs.length).write handlerMaster va bs, true)
  | .error (.fault cause level a) => some (h.postFault handlerMaster cause level a true 0 false, false)
  | .error _ => none

/-- Whether a master is held (R89). -/
def Hw.isHeld (h : Hw) (m : Master) : Bool := h.mmu.held.any (fun x => x.kind = m.kind ∧ x.id = m.id)

end Sys2Proof.Machine
end

