-- ==== Sys2Proof/Machine/Queue.lean ====
section
/-! DEFINITION. The queues: their registers, their pointers, semaphores and predicates, completion records, mirror packets,
and the kill and the rejection that every other operation uses (R55 to R77, R382, R383). -/

namespace Sys2Proof.Machine

/-! ### Registers and pointers -/

/-- Queues of an engine (R57, R243). -/
def engQueues : Eng → Nat
  | .core _ => 8 | .stage _ _ => 4

/-- The queues of an engine. -/
def engQs (e : Eng) : List QId := (List.range (engQueues e)).map fun q => ⟨e, q⟩

/-- Offset of queue register `o` on its page (R75, R243). -/
def qOff (id : QId) (o : Nat) : Nat :=
  match id.eng with
  | .core _ => 0x100 + 0x40 * id.q + o
  | .stage _ _ => 0x200 + 0x40 * id.q + o

/-- A queue register. -/
def Hw.qrd (h : Hw) (id : QId) (o : Nat) : Nat := h.rd (engPage id.eng) (qOff id o)
/-- Stores a queue register. -/
def Hw.qwr (h : Hw) (id : QId) (o v : Nat) : Hw := h.wr (engPage id.eng) (qOff id o) v

/-- What the module holds of a queue. -/
def Hw.qs (h : Hw) (id : QId) : QState := (alGet id h.queues).getD {}
/-- Stores what the module holds of a queue. -/
def Hw.setQs (h : Hw) (id : QId) (q : QState) : Hw := { h with queues := alPut id q h.queues }

/-- `a − b` modulo 2^32 (R57). -/
def ptrSub (a b : Nat) : Nat := (a + 0x100000000 - b % 0x100000000) % 0x100000000

def Hw.qTail (h : Hw) (id : QId) : Nat := h.qrd id 0x0C
def Hw.qIssue (h : Hw) (id : QId) : Nat := h.qrd id 0x10
def Hw.qCommit (h : Hw) (id : QId) : Nat := h.qrd id 0x14
/-- ISSUE − COMMIT. -/
def Hw.uncommitted (h : Hw) (id : QId) : Nat := ptrSub (h.qIssue id) (h.qCommit id)
/-- Entries of the ring. -/
def Hw.qEntries (h : Hw) (id : QId) : Nat := 2 ^ bitsOf (h.qrd id 0x08) 4 0
/-- Virtual address of the slot of pointer `p` (R57). -/
def Hw.slotVa (h : Hw) (id : QId) (p : Nat) : Nat := bitsOf (h.qrd id 0x00 + h.qrd id 0x04 * 0x100000000) 51 6 * 64 + 64 * (p % h.qEntries id)
/-- Q_CTX. -/
def Hw.qCtx (h : Hw) (id : QId) : Nat := h.qrd id 0x24 + h.qrd id 0x28 * 0x100000000
/-- Qn_CTL.enable. -/
def Hw.qEnable (h : Hw) (id : QId) : Bool := bitOf (h.qrd id 0x1C) 0

/-- Whether the unit's queues hold a context (R75, R261). -/
def hasCtx : Eng → Bool
  | .core _ | .stage _ .muz => true
  | _ => false

/-- Every queue of the module, in the order of the adoption table (R387). -/
def allQueues : List QId :=
  ((List.range 48).flatMap fun n => (List.range 8).map fun q => ⟨coreEng n, q⟩)
    ++ ((List.range 4).flatMap fun d => [StageUnit.spl, .rtv, .emb, .pck, .muz, .srv].flatMap fun u =>
          (List.range 4).map fun q => ⟨stageEng d u, q⟩)

/-- The adoption record of a queue (R387). -/
def queueRecord (id : QId) : Nat :=
  match id.eng with
  | .core n => 8 * n.val + id.q
  | .stage d u => 384 + 24 * d.val + 4 * unitPage u + id.q

/-! ### Semaphores and predicates (R61, R69) -/

/-- Semaphore `i` of a core. -/
def Hw.sem (h : Hw) (core i : Nat) : Nat :=
  let v := h.rd (corePage core) (0x050 + 4 * (i / 2))
  if i % 2 = 0 then v % 0x10000 else v / 0x10000

/-- Stores semaphore `i` of a core. -/
def Hw.setSem (h : Hw) (core i n : Nat) : Hw :=
  let o := 0x050 + 4 * (i / 2)
  let v := h.rd (corePage core) o
  h.wr (corePage core) o (if i % 2 = 0 then v / 0x10000 * 0x10000 + n % 0x10000 else v % 0x10000 + n % 0x10000 * 0x10000)

/-- Whether adding `n` would saturate semaphore `i` (R69). -/
def Hw.semFull (h : Hw) (core i n : Nat) : Bool := decide (0xFFFF < h.sem core i + n)

/-- Adds to a semaphore, which saturates at 0xFFFF and then raises core source 16 (R69, R78). -/
def Hw.semAdd (h : Hw) (core i n : Nat) : Hw :=
  let full := h.semFull core i n
  let h := h.setSem core i (min (h.sem core i + n) 0xFFFF)
  if full then h.raise (corePage core) 16 else h

/-- Takes one count from a semaphore. -/
def Hw.semTake (h : Hw) (core i : Nat) : Hw := h.setSem core i (h.sem core i - 1)

/-- Predicate bit `i` of a core. -/
def Hw.pred (h : Hw) (core i : Nat) : Bool := h.bit (corePage core) (0x048 + 4 * (i / 32)) (i % 32)

/-- Predicate bits under `mask` take `val` (R68). -/
def Hw.setPreds (h : Hw) (core : Nat) (mask val : DWord) : Hw :=
  if mask = 0 then h
  else
    let p : DWord := BitVec.ofNat 64 (h.rd (corePage core) 0x048 + h.rd (corePage core) 0x04C * 0x100000000)
    let p := (p &&& ~~~ mask) ||| (val &&& mask)
    (h.wr (corePage core) 0x048 (p.toNat % 0x100000000)).wr (corePage core) 0x04C (p.toNat / 0x100000000)

/-! ### States and interrupts -/

/-- Interrupt source of a completion record of the queue, and of its entering a halted state (R78, R249). -/
def recordSrc (id : QId) : Nat := id.q
def haltSrc (id : QId) : Nat :=
  match id.eng with
  | .core _ => 8 + id.q | .stage _ _ => 4 + id.q

/-- Puts a queue in a state, raising its halt interrupt when it enters HALTED, FAULT_HOLD or PAUSED. A queue that leaves
FAULT_HOLD is no longer a held master, nor is a stage unit none of whose queues is left in it. -/
def Hw.enterSt (h : Hw) (id : QId) (st : QSt) : Hw :=
  let q := h.qs id
  let h := h.setQs id { q with st := st, heldAt := if st = .faultHold then q.heldAt else none }
  let m := queueMaster id
  let freed := q.st = .faultHold ∧ st ≠ .faultHold ∧
    (List.range 4).all fun i => decide (m.kind = 0) || decide ((h.qs { id with q := i }).st ≠ .faultHold)
  let h := if freed then { h with mmu := { h.mmu with held := h.mmu.held.filter fun x => ¬ (x.kind = m.kind ∧ x.id = m.id) } } else h
  if q.st ≠ st ∧ (st = .halted ∨ st = .faultHold ∨ st = .paused) then h.raise (engPage id.eng) (haltSrc id) else h

/-- The number of a kill cause (R75). -/
def causeNo : KillCause → Nat
  | .fault => 1 | .preempt => 2 | .specReject => 3 | .group => 4 | .runtime => 5 | .reset => 6

/-- The causes that a kill of an engine's queue can have (R75, R243, R261, R291, R323, R335, R372). -/
def killCauses : Eng → List KillCause
  | .core _ => [.fault, .preempt, .specReject, .group, .runtime, .reset]
  | .stage _ .muz => [.preempt, .specReject, .runtime, .reset]
  | .stage _ .emb => [.fault, .preempt, .specReject, .runtime, .reset]
  | .stage _ _ => [.preempt, .runtime, .reset]

/-- The kill counter of a cause on the CORE page (R75). -/
def causeCounter : KillCause → Nat
  | .fault => 0x070 | .preempt => 0x074 | .specReject | .group => 0x078 | .runtime | .reset => 0x07C

/-! ### Enable (R74) -/

/-- Whether the issued work of a queue whose enable is clear has drained; then it reads DISABLED. -/
def Hw.drainDone (h : Hw) (id : QId) : Hw :=
  let q := h.qs id
  if q.draining && q.cmds.isEmpty && q.rejected.isNone then (h.setQs id { q with draining := false }).enterSt id .disabled else h

/-- Clears Qn_CTL.enable. -/
def Hw.clearEnable (h : Hw) (id : QId) : Hw :=
  if !h.qEnable id then h
  else ((h.qwr id 0x1C 0).setQs id { h.qs id with draining := true }).drainDone id

/-! ### Trace records of commands (R492) -/

/-- A record about a command. -/
def cmdTrace (id : QId) (type : Nat) (d : BitVec 512) (arg0 arg1 : Nat) : TraceRec :=
  { type := type, queue := id.q, engine := engTrace id.eng, job := dJob d, layer := dLayer d, op := dOper d, arg0 := arg0, arg1 := arg1 }

/-! ### The pair (R379, R382, R383) -/

/-- Whether this module owns everything (R379). -/
def Hw.ownsAll (h : Hw) : Bool := !h.bit 0x012 0x100 0 || h.pair.fullOwner

/-- Whether this module owns a queue (R379). -/
def Hw.ownsQueue (h : Hw) (id : QId) : Bool :=
  h.ownsAll || (match id.eng with
    | .core _ => h.bit 0x012 0x10C id.q
    | .stage _ _ => h.bit 0x012 0x10C (8 + id.q))

/-- This module's role. -/
def Hw.role (h : Hw) : Nat := bitsOf (h.rd 0x012 0x100) 1 1

/-- Whether mirrored changes are forwarded (R383): states PAIRED and RESYNC. -/
def Hw.mirroring (h : Hw) : Bool := h.pair.state == 2 || h.pair.state == 6

/-- The port a packet of quadrant `d` takes (R382): LSH0 for quadrants 0 and 1, LSH1 for 2 and 3, the other while it is down. -/
def Hw.mirrorPort (h : Hw) (d : Nat) : Nat :=
  let p := if d < 2 then 0 else 1
  if (h.ports[p]?.any (·.up)) then p else 1 - p

/-- The byte count of a packet (R382, R383). -/
def packetBytes (ws : List (Nat × List Byte)) : Nat :=
  Config.packetSize ws.length ((ws.map fun w => w.2.length).sum)

/-- Whether a credit is held for a packet of `n` bytes (R383). -/
def Hw.credit (h : Hw) (n : Nat) : Bool :=
  decide ((h.pair.outbound.filter fun o => o.queue.isSome).length < 256) && decide (n ≤ h.pair.logRoom)

/-- The whole of the log (R383). -/
def Hw.logBytes (h : Hw) : Nat := 2 ^ h.rd 0x012 0x118

/-- Sends the flits that wait for credit, each channel by itself, as credits and the replay buffer of 1,024 allow (R398, R399). -/
def LeashPort.pump : Nat → LeashPort → LeashPort
  | 0, l => l
  | fuel + 1, l =>
    match l.txq.find? fun vc => decide (0 < l.cred.getD vc 0) with
    | none => l
    | some vc =>
      if 1024 ≤ l.replay.length then l
      else LeashPort.pump fuel { l with
        txq := l.txq.erase vc
        cred := listSet l.cred vc (l.cred.getD vc 0 - 1)
        replay := l.replay ++ [(l.nextSeq, vc)]
        nextSeq := (l.nextSeq + 1) % 4096 }

/-- Hands `n` bytes to channel `vc` of a port: flits of 224 bytes of payload. -/
def Hw.leashQueue (h : Hw) (p vc n : Nat) : Hw :=
  match h.ports[p]? with
  | none => h
  | some l =>
    let l := { l with txq := l.txq ++ List.replicate ((n + 223) / 224) vc }
    { h with ports := listSet h.ports p (l.pump l.txq.length) }

/-- Sends a packet to the twin while changes are forwarded. -/
def Hw.sendPacket (h : Hw) (port : Nat) (queue : Option QId) (group step : Nat) (record : Option Nat)
    (ws : List (Nat × List Byte)) (us : List (Nat × List Byte)) : Hw :=
  if h.mirroring then
    let n := packetBytes ws
    let pkt : MirrorPacket := { size := n, record := record.map (Fin.ofNat 1536), writes := ws, updates := us,
                                changes := h.changes, complete := true }
    let o : OutPkt := { port := port, queue := queue, group := group, step := step, pkt := pkt }
    { h with changes := [], pair := { h.pair with outbound := h.pair.outbound ++ [o], logRoom := h.pair.logRoom - n } }.leashQueue
      port 0 n
  else h

/-- Notes a change that the packet of the commit step or event under way carries (R375, R385). -/
def Hw.noteChange (h : Hw) (c : MirrorChange) : Hw := { h with changes := h.changes ++ [c] }

/-- Sends the noted changes in a packet of their own, which carries no write (R375). -/
def Hw.sendChanges (h : Hw) (quadrant : Nat) : Hw :=
  if h.changes = [] then h
  else { h.sendPacket (h.mirrorPort quadrant) none 0 0 none [] [] with changes := [] }

/-- Sends a change of one adoption record (R385, R387): a packet that carries no write. -/
def Hw.mirrorFields (h : Hw) (quadrant record : Nat) (us : List (Nat × List Byte)) : Hw :=
  h.sendPacket (h.mirrorPort quadrant) none 0 0 (some record) [] us

/-- Whether a running self-test has isolated an engine (R471, R481). -/
def Hw.underTest (h : Hw) (e : Eng) : Bool :=
  h.bist.running.any fun m =>
    match e with
    | .core n => (h.bist.kind == 0 && m.index == n.val) || (h.bist.kind == 1 && m.index == n.val / 12)
    | .stage d _ => h.bist.kind == 1 && m.index == d.val

/-- Sets Qn_CTL.enable (R74): a DISABLED queue starts from COMMIT with its context reloaded; a clear that has not drained is
withdrawn. The twin hears of the queue (R385). -/
def Hw.setEnable (h : Hw) (id : QId) : Hw :=
  let q := h.qs id
  if q.st = .disabled then
    let h := (h.qwr id 0x1C 1).qwr id 0x10 (h.qCommit id)
    let h := h.setQs id { q with st := .running, draining := false, ctx := [], grammar := [], ctxSince := false,
                                 reload := hasCtx id.eng, headSince := h.time }
    if h.ownsQueue id then h.mirrorFields (engQuad id.eng) (queueRecord id)
      [(0x00, leBytes 4 1), (0x04, leBytes 4 (h.qrd id 0x08)), (0x08, leBytes 4 (h.qrd id 0x18)),
       (0x10, leBytes 4 (h.qrd id 0x00) ++ leBytes 4 (h.qrd id 0x04)), (0x28, leBytes 4 (h.qrd id 0x30) ++ leBytes 4 (h.qrd id 0x34)),
       (0x30, leBytes 4 (h.qrd id 0x2C))] else h
  else (h.qwr id 0x1C 1).setQs id { q with draining := false }

/-! ### Completion records (R55, R56, R77) -/

/-- The 16 bytes of a completion record. -/
def recordBytes (id : QId) (d : BitVec 512) (code : Nat) (skipped rerun mirrored : Bool) (commitPtr : Nat) : List Byte :=
  let who := match id.eng with
    | .core n => n.val * 0x1000000
    | .stage q u => 0x800000 + unitPage u * 0x1000000 + q.val * 0x8000000
  leBytes 4 (dJob d) ++ leBytes 2 (dLayer d) ++ leBytes 2 (dOper d)
    ++ leBytes 4 (code + id.q * 0x10000 + (if skipped then 0x80000 else 0) + (if rerun then 0x100000 else 0)
        + (if mirrored then 0x200000 else 0) + (if dSpec d then 0x400000 else 0) + who)
    ++ leBytes 4 commitPtr

/-- The same record with its mirrored bit set or clear (R55, R393). -/
def withMirrored (bs : List Byte) (m : Bool) : List Byte :=
  bs.take 10 ++ [BitVec.ofNat 8 (putBit ((bs.getD 10 0).toNat) 5 m)] ++ bs.drop 11

/-- Entries of the completion ring, and its free entries (R77). -/
def Hw.cqEntries (h : Hw) (id : QId) : Nat := 2 ^ bitsOf (h.qrd id 0x2C) 4 0
def Hw.cqFree (h : Hw) (id : QId) : Nat := h.cqEntries id - ptrSub (h.qrd id 0x3C) (h.qrd id 0x38)
/-- Where the next record goes (R77). -/
def Hw.cqVa (h : Hw) (id : QId) : Nat :=
  bitsOf (h.qrd id 0x30 + h.qrd id 0x34 * 0x100000000) 51 4 * 16 + 16 * (h.qrd id 0x3C % h.cqEntries id)

/-- Whether the next record can be written now; one whose ring page does not translate waits like one without room (log entry 84). -/
def Hw.cqReady (h : Hw) (id : QId) : Bool :=
  decide (0 < h.cqFree id) && (match h.place (queueMaster id) (h.cqVa id) (leBytes 16 0) with | .ok _ => true | .error _ => false)

/-- The HITCH trace record that a completion record's bytes tell (R492). -/
def hitchTrace (id : QId) (bs : List Byte) : TraceRec :=
  let w := bnum bs 8 4
  { type := 2, queue := id.q, engine := engTrace id.eng, job := bnum bs 0 4, layer := bnum bs 4 2, op := bnum bs 6 2,
    arg0 := bnum bs 12 4,
    arg1 := bitsOf w 15 0 + bitsOf w 19 19 * 0x10000 + bitsOf w 20 20 * 0x20000 + bitsOf w 21 21 * 0x40000 }

/-- Writes a record, advances CQ_TAIL and raises the irq (R70 step 6, R77, R78). -/
def Hw.writeRecord (h : Hw) (id : QId) (o : Owed) : Hw :=
  let h := if o.hitch then h.trace (hitchTrace id o.bytes) else h
  if o.record then
    let h := h.write (queueMaster id) (h.cqVa id) o.bytes
    let h := h.qwr id 0x3C (h.qrd id 0x3C + 1)
    if o.irq then h.raise (engPage id.eng) (recordSrc id) else h
  else h

/-- Writes owed records from the front until one cannot be written: records leave in commit order (R56, R69). -/
def Hw.flushOwed (id : QId) : Nat → Hw → Hw
  | 0, h => h
  | fuel + 1, h =>
    match (h.qs id).owed with
    | [] => h
    | o :: rest =>
      if o.ack || (o.record && !h.cqReady id) then h
      else Hw.flushOwed id fuel ((h.writeRecord id o).setQs id { h.qs id with owed := rest })

/-- Owes a record and writes what can be written. -/
def Hw.owe (h : Hw) (id : QId) (o : Owed) : Hw :=
  let q := h.qs id
  Hw.flushOwed id (q.owed.length + 1) (h.setQs id { q with owed := q.owed ++ [o] })

/-! ### Kill (R72) -/

/-- The commands of a queue that a kill meets: a command whose Hitch has begun finishes first (R72 step 2). -/
def Hw.killable (h : Hw) (id : QId) : List Cmd := (h.qs id).cmds.filter fun c => !c.going

/-- The sets that a kill of a queue meets (R64): groups are the cores'. -/
def Hw.setsOf (h : Hw) (id : QId) : List (Nat × Nat) :=
  match id.eng with
  | .stage _ _ => []
  | .core _ => ((h.killable id).filter fun c => dGroup c.desc ≠ 0).map fun c => (dGroup c.desc, dStep c.desc)

/-- The queues whose kill the kill of the sets `ks` and of the queues `l` entails: every queue with a member of a set killed so far
(R64). -/
def Hw.killClosure (h : Hw) (ks : List (Nat × Nat)) : Nat → List QId → List QId
  | 0, l => l
  | n + 1, l =>
    let sets := ks ++ l.flatMap h.setsOf
    let more := (h.queues.map (·.1)).filter fun id => !l.contains id && (h.setsOf id).any sets.contains
    Hw.killClosure h ks n (l ++ more)

/-- Removes the tagged increments that satisfy `f` (R268), counting each removal in TAKEBACKS of the receiving core's
quadrant. -/
def Hw.takeBack (h : Hw) (f : Tagged → Bool) : Hw :=
  let gone := h.tagged.filter f
  let h := gone.foldl (fun h t =>
    (h.setSem t.core t.sem (h.sem t.core t.sem - t.n)).count (0x0C4 + 8 * (t.core / 12)) 0x058 t.n) h
  { h with tagged := h.tagged.filter (fun t => !f t) }

/-- Makes the destination of a command from byte `o` on open, granule by granule where it translates (R245, R247). -/
def Hw.openRange (m : Master) : Nat → Nat → Nat → Hw → Hw
  | 0, _, _, h => h
  | fuel + 1, va, n, h =>
    if n = 0 then h
    else
      let c := min n (granuleLeft va)
      Hw.openRange m fuel (va + c) (n - c) ((h.write m va (freeBytes h.freeCtr c)).draw)
def Hw.openDst (h : Hw) (id : QId) (d : BitVec 512) (o : Nat) : Hw :=
  match addrForm (dDst d) with
  | .va a => Hw.openRange (queueMaster id) ((dDstLen d - o) / 0x10000 + 2) (a + o) (dDstLen d - o) h
  | _ => h

/-- Bytes of a mask and its trailer under a grammar header (R257). -/
def maskBytes (hdr : List Byte) : Nat := 32 * ((bnum hdr 4 4 + 255) / 256) + 16

/-- Clears the moving bit of a directory entry: through translation, or at the captured base of a resident table (R278). -/
def Hw.clearMoving (h : Hw) (m : Master) (va : Nat) (key : Option Nat) : Hw :=
  match key with
  | some k => h.store (k + 6) [h.byte (k + 6) &&& 0xFD]
  | none => match h.read m (va + 6) 1 with
    | .ok bs => h.write m (va + 6) (bs.map (· &&& 0xFD))
    | .error _ => h

/-- What a kill leaves open of a command's destination: that of a Splice command (R247), the mask of a MUZ_STEP (R264), the
rows of a gather (R18, R294; log entry 86), the sequences of the Packer but a signalled prompt's (R346). -/
def Hw.killOpens (h : Hw) (id : QId) (c : Cmd) : Hw :=
  match id.eng with
  | .stage _ .spl => if dOpcode c.desc = 0x10 ∨ dOpcode c.desc = 0x11 then h.openDst id c.desc 0 else h
  | .stage _ .muz =>
    if dOpcode c.desc ≠ 0x10 then h
    else
      let n := match c.work with | .muz _ _ n _ => n | _ => maskBytes (h.qs id).grammar
      Hw.openRange (queueMaster id) (n / 0x10000 + 2) (dDst c.desc) n h
  | .stage _ .emb =>
    match c.work with
    | .emb w => Hw.openRange (queueMaster id) (w.outLen / 0x10000 + 2) (dDst c.desc) w.outLen h
    | _ => h
  | .stage _ .pck =>
    let whole := match c.work with | .pck w => decide (0 < w.chunks) | _ => false
    if !whole && (dOpcode c.desc = 0x10 ∨ dOpcode c.desc = 0x11) then h.openDst id c.desc 0 else h
  | _ => h

/-- The moves that a dropped ROW_MOVE has begun end (R278). -/
def Hw.endMoving (h : Hw) (id : QId) (c : Cmd) : Hw :=
  match c.work with
  | .emb w => w.moved.foldl (fun h e => h.clearMoving (queueMaster id) e.1 e.2) h
  | _ => h

/-- The semaphore decrements that a queue's commands took come back (R69, R72 step 5). -/
def Hw.giveBack (h : Hw) (id : QId) : Hw :=
  (h.killable id).foldl (fun h c => c.takes.foldl (fun h (core, sem) => h.semAdd core sem 1) h) h

/-- Whether a killed command of one of the queues sent a tagged increment (R268). -/
def Hw.sentBy (h : Hw) (ids : List QId) (t : Tagged) : Bool :=
  ids.any fun id => decide (t.sender = id) && (h.killable id).any fun c => decide (c.ptr = t.ptr)

/-- Takes back the increments that commands sent before their commit and that carry no tag any more: a killed command leaves no semaphore
changed (R18; log entry 86). -/
def Hw.unsignal (h : Hw) (id : QId) : Hw :=
  ((h.killable id).filter fun c => !dSpec c.desc || (h.qs id).confirmed.contains (c.ptr, dGroup c.desc, dStep c.desc)).foldl
    (fun h c => c.sent.foldl (fun h e => h.semTake e.1 e.2) h) h

/-- What is left of a queue whose commands are dropped: destinations open but for the rejected command's, which has no effect (R60),
landing data of its sets freed, context back to Q_CTX, ISSUE to COMMIT and the commands whose Hitch has begun. A pre-emption that waited
takes effect with it. -/
def Hw.dropCmds (h : Hw) (id : QId) (spare : Option Word) : Hw :=
  let q := h.qs id
  let gone := h.killable id
  let keep := q.cmds.filter (·.going)
  let sets := h.setsOf id
  let h := gone.foldl (fun h c => h.endMoving id c) (h.unsignal id)
  let h := (gone.filter fun c => some c.ptr ≠ spare).foldl (fun h c => h.killOpens id c) h
  let h := { h with
    landed := h.landed.filter (fun l => !sets.contains (l.group, l.step))
    landing := h.landing.filter (fun l => !sets.contains (l.group, l.step))
    probes := h.probes.filter (fun p => p.queue ≠ id) }
  let h := h.setQs id { q with cmds := keep, rejected := none, deferred := [], mirWaited := false, held := none, moveHold := none,
                               killed := (q.killed ++ (gone.map (·.ptr)).filter fun p => some p ≠ spare).eraseDups,
                               ctx := [], grammar := [], reload := hasCtx id.eng, headSince := h.time }
  let h := h.qwr id 0x10 (h.qCommit id + keep.length)
  if q.deferred.contains .preempt then h.enterSt id .paused else h

/-- Steps 2 to 7 of a kill on one queue (R72), once decrements and tagged increments are back: cause and counter, and the kill record.
Without a cause of R75 the queue keeps the one it reads (log entry 25). -/
def Hw.killOne (h : Hw) (id : QId) (cause : Option KillCause) (spare : Option Word := none) : Hw :=
  let before := h.qIssue id
  let d := ((h.killable id).head?.map (·.desc)).getD 0
  let h := h.dropCmds id spare
  let no := cause.elim (h.qs id).cause causeNo
  let h := h.setQs id { h.qs id with cause := no }
  let h := match id.eng, cause with
    | .core n, some c => h.count (corePage n.val) (causeCounter c)
    | _, _ => h
  h.trace (cmdTrace id 3 d (h.qCommit id) (no + before * 16))

/-- Kills of queues together, and with them of the sets `ks` and of every set a killed command belongs to, on every core, where the
cause reads group (R64). All decrements come back before the tagged increments leave, those of killed commands and those `gone` names
(R268). -/
def Hw.killAll (h : Hw) (ids : List QId) (ks : List (Nat × Nat)) (cause : Option KillCause) (spare : Option Word)
    (gone : Tagged → Bool) : Hw :=
  let others := (h.killClosure ks h.queues.length ids).filter fun id => !ids.contains id
  let all := ids ++ others
  let g := (all.foldl Hw.giveBack h).takeBack fun t => gone t || h.sentBy all t
  others.foldl (fun g id => g.killOne id (some .group)) (ids.foldl (fun g id => g.killOne id cause spare) g)

/-- A kill with a cause of R75. -/
def Hw.kill (h : Hw) (id : QId) (cause : KillCause) : Hw := h.killAll [id] [] (some cause) none fun _ => false

/-- A kill for a fault (R70 step 3, R89): the queue enters FAULT_HOLD and its master is held. -/
def Hw.killFault (h : Hw) (id : QId) (cause level va : Nat) (write : Bool) (d : BitVec 512) : Hw :=
  ((h.kill id .fault).enterSt id .faultHold).postFault (queueMaster id) cause level va write d true

/-- A stage unit that meets a fault is held at the access (R89): its queue reads FAULT_HOLD and nothing is killed. `ptr` is the
command whose access it is. -/
def Hw.holdFault (h : Hw) (id : QId) (ptr : Word) (cause level va : Nat) (write : Bool) (d : BitVec 512) : Hw :=
  ((h.setQs id { h.qs id with heldAt := some ptr }).enterSt id .faultHold).postFault (queueMaster id) cause level va write d true

/-! ### Rejection (R60) -/

/-- Starts the rejection of a command: issue stops, the oldest rejection stands. -/
def Hw.reject (h : Hw) (id : QId) (ptr : Word) (code : Nat) (d : BitVec 512) : Hw :=
  let q := h.qs id
  match q.rejected with
  | some r => if ptrSub ptr.toNat (h.qCommit id) < ptrSub r.ptr.toNat (h.qCommit id) then
      h.setQs id { q with rejected := some ⟨ptr, code, d⟩ } else h
  | none => h.setQs id { q with rejected := some ⟨ptr, code, d⟩ }

/-- The set whose span is open behind these commands of a queue (R522). -/
def spanOf (cs : List Cmd) : Option (Nat × Nat) :=
  cs.foldl (fun acc c =>
    let k := (dGroup c.desc, dStep c.desc)
    let ends := dOpcode c.desc == 0x05 && !c.skipped
    match acc with
    | none => if k.1 = 0 ∨ ends then none else some k
    | some s => if k = s ∧ ends then none else some s) none

/-- Whether a rejected command is a member of a set, or lies within the span of one (R60 step 2, R522). -/
def Hw.inSpan (h : Hw) (id : QId) (ptr : Word) (d : BitVec 512) : Bool :=
  match id.eng with
  | .stage _ _ => false
  | .core _ =>
    dGroup d != 0 ||
      (spanOf ((h.qs id).cmds.filter fun c => decide (ptrSub c.ptr.toNat (h.qCommit id) < ptrSub ptr.toNat (h.qCommit id)))).isSome

/-- Whether the rejection can be acted on: the command is in a set or a span, or is the oldest uncommitted one (R60). -/
def Hw.rejectDue (h : Hw) (id : QId) : Bool :=
  match (h.qs id).rejected with
  | none => false
  | some r => h.inSpan id r.ptr r.desc || r.ptr.toNat == h.qCommit id

/-- The set of its own that a rejected command of a core queue is a member of (R60 step 2). -/
def ownSet (id : QId) (d : BitVec 512) : List (Nat × Nat) :=
  match id.eng with
  | .stage _ _ => []
  | .core _ => if dGroup d = 0 then [] else [(dGroup d, dStep d)]

/-- Step 2 or 3 of a rejection, and the return of what its command took (R60): the sets it is in or lies in are killed on every core,
whether or not it has issued; otherwise the commands after it are killed, and it has no effect. -/
def Hw.rejectDrop (h : Hw) (id : QId) (r : Rejected) : Hw :=
  if h.inSpan id r.ptr r.desc then h.killAll [id] (ownSet id r.desc) (some .group) none fun _ => false
  else if (h.killable id).all fun c => decide (c.ptr = r.ptr) then
    ((h.giveBack id).takeBack (h.sentBy [id])).dropCmds id (some r.ptr)
  else h.killAll [id] [] none (some r.ptr) fun _ => false

/-- Steps 2 to 6 of a rejection (R60). -/
def Hw.rejectHalt (h : Hw) (id : QId) : Hw :=
  match (h.qs id).rejected with
  | none => h
  | some r =>
    let rerun := (h.qs id).killed.contains r.ptr
    let h := (h.rejectDrop id r).enterSt id .halted
    let h := h.err (engPage id.eng) id.q r.code
    h.owe id { bytes := recordBytes id r.desc r.code false rerun false r.ptr.toNat, record := true, irq := dIrq r.desc,
               ack := false, hitch := false }

end Sys2Proof.Machine
end

