-- ==== Sys2Proof/Machine/MemTier.lean ====
section
/-! DEFINITION. Memory tiers: invalidation, fault service, scrub and refresh, migration, prefetch, quotas and the age scan
(R80 to R111, R520, R521). -/

namespace Sys2Proof.Machine

/-! ### Invalidation (R88) -/

/-- Whether a TLB entry lies in an invalidated range of 64 KiB pages; 0 pages is the whole range. -/
def invalHits (page pages : Nat) (e : TlbEnt) : Bool :=
  pages == 0 ||
    (if e.big then decide (e.page / 512 * 512 < page + pages ∧ page < e.page / 512 * 512 + 512)
     else decide (page ≤ e.page ∧ e.page < page + pages))

/-- Drops every matching entry from every TLB. -/
def Hw.dropTlb (h : Hw) (page pages : Nat) : Hw :=
  { h with mmu := { h.mmu with tlb := h.mmu.tlb.filter fun e => !invalHits page pages e } }

/-- INVAL_CTL.busy of a slice. -/
def Hw.invalBusy (h : Hw) (m : Nat) : Bool := h.mmu.invals.any fun i => i.slice = m

def tlbInvalidate (r : Req) (m : Fin 4) (_v : Word) (h : Hw) : Hw :=
  let p := 0x020 + m.val
  h.guardWrite r p 0x06C 1 fun h =>
    let page := h.rd64 p 0x060 / 0x10000
    let i : Inval := ⟨m.val, page, h.rd p 0x068⟩
    let h := if h.invalBusy m.val then h else h.dropTlb page (h.rd p 0x068)
    { h with mmu := { h.mmu with invals := h.mmu.invals ++ [i] } }

/-- TLB_INVALIDATE (R88). -/
def execTlbInvalidate (r : Req) (m : Fin 4) (v : Word) (s : State) : Out := .next (s.onHw (tlbInvalidate r m v))

def invalidationDone (m : Fin 4) (h : Hw) : Hw :=
  match h.mmu.invals.find? (fun i => i.slice = m.val) with
  | none => h
  | some i =>
    let h := h.dropTlb i.page i.pages
    let rest := h.mmu.invals.erase i
    let h := { h with mmu := { h.mmu with invals := rest } }
    let h := match rest.find? (fun j => j.slice = m.val) with
      | some j => h.dropTlb j.page j.pages
      | none => h
    h.raise (0x020 + m.val) 2

/-- INVALIDATION_DONE (R88): the oldest invalidation of the slice ends, and the one queued behind it starts. -/
def execInvalidationDone (m : Fin 4) (s : State) : Out := .next (s.onHw (invalidationDone m))

/-! ### Fault service (R91, R92) -/

def faultRecordWrite (m : Fin 4) (h : Hw) : Hw :=
  match h.mmu.pend.find? (fun r => r.slice = m.val) with
  | none => h
  | some r =>
    if h.faultRingFull m.val || h.mmu.blocked.contains m.val then h
    else { h with mmu := { h.mmu with pend := h.mmu.pend.erase r } }.writeFault m.val r.record

/-- FAULT_RECORD_WRITE (R91, R520). -/
def execFaultRecordWrite (m : Fin 4) (s : State) : Out := .next (s.onHw (faultRecordWrite m))

/-! ### Accesses from outside the module (R86, R89, R93, R401, R409, R412) -/

def Hw.pcie (h : Hw) : Port → PciePort
  | .a => h.pcieA | .b => h.pcieB
def Hw.setPcie (h : Hw) (p : Port) (f : PciePort → PciePort) : Hw :=
  match p with
  | .a => { h with pcieA := f h.pcieA }
  | .b => { h with pcieB := f h.pcieB }

/-- The pieces of memory that a read of `n` bytes at `va` takes, as key and length. -/
def Hw.spotGran (h : Hw) (m : Master) : Nat → Nat → Nat → Except RdErr (List (Nat × Nat))
  | 0, _, _ => .ok []
  | fuel + 1, va, n =>
    if n = 0 then .ok []
    else
      let c := min n (granuleLeft va)
      match h.locate m va false with
      | .error e => .error e
      | .ok k => (h.spotGran m fuel (va + c) (n - c)).map ((k, c) :: ·)
def Hw.spot (h : Hw) (m : Master) (va n : Nat) : Except RdErr (List (Nat × Nat)) := h.spotGran m (n / 0x10000 + 2) va n

/-- Memory as a read past its poison delivers it: a byte of a poisoned line or word is a free value. -/
def Hw.poisonedBytes (h : Hw) (k n : Nat) : List Byte :=
  (List.range n).map fun i => if h.badRead? (k + i) 1 then Config.freeByte h.freeCtr (k + i) else h.byte (k + i)

/-- A write from outside that every page takes: its lookups, its bytes, and its poison (R412). -/
def Hw.landOutside (h : Hw) (m : Master) (va : Nat) (bytes : List Byte) (ps : List (Nat × List Byte)) (ep : Bool) : Hw :=
  let h := (h.lookups m va bytes.length).storeAll ps
  if ep then ps.foldl (fun h x => h.poisonRange x.1 x.2.length) h else h

/-- An access through the aperture of port `p`, and whether it is over: one that meets a moving page or a disabled slice waits. -/
def Hw.aperDo (h : Hw) (p : Port) (a : MemReq) : Hw × Bool :=
  let m := apertureMaster p
  match a with
  | .write va bytes ep =>
    match h.windowOf va with
    | some w => (h.postRemote w va bytes, true)
    | none =>
      let h := h.demandFor m va bytes.length
      match h.place m va bytes with
      | .ok ps => (h.landOutside m va bytes ps ep, true)
      | .error (.fault cause level a) => (h.postFault m cause level a true 0 false, true)
      | .error _ => (h, false)
  | .read va len =>
    let h := h.demandFor m va len
    match h.read m va len with
    | .ok bs => ((h.touch m va len).send (.aperReply p (some bs) false), true)
    | .error .wait => (h, false)
    | .error _ =>
      match h.spot m va len with
      | .ok ks => ((((h.touch m va len).count (portPage p) 0x068).send
          (.aperReply p (some (ks.flatMap fun x => h.poisonedBytes x.1 x.2)) true)).draw, true)
      | .error (.fault cause level a) => ((h.postFault m cause level a false 0 false).send (.aperReply p none false), true)
      | .error _ => (h, false)

/-- A port's request, behind a write of that port that still waits: it acts, or waits itself. The register window's part is
`State.portTry`. -/
def Hw.portTry (h : Hw) (x : Port × PortReq) : Hw :=
  match x.2 with
  | .mem a =>
    if h.portHeld (portReq x.1) then h.holdPort (portReq x.1) x.2
    else
      let (g, ended) := h.aperDo x.1 a
      if ended then g else h.holdPort (portReq x.1) x.2
  | _ => h.holdPort (portReq x.1) x.2

/-- A remote access as Leash port `p` makes it (R89, R401), and whether it is over: one that faults holds the port. -/
def Hw.leashDo (h : Hw) (p : Nat) (a : MemReq) : Hw × Bool :=
  let m := leashMaster p
  match a with
  | .write va bytes ep =>
    let h := h.demandFor m va bytes.length
    match h.place m va bytes with
    | .ok ps => (h.landOutside m va bytes ps ep, true)
    | .error (.fault cause level a) => (h.postFault m cause level a true 0 true, false)
    | .error _ => (h, false)
  | .read va len =>
    let h := h.demandFor m va len
    match h.read m va len with
    | .ok bs => ((h.touch m va len).send (.leash p (.response bs)), true)
    | .error (.fault cause level a) => (h.postFault m cause level a false 0 true, false)
    | .error (.ecc _ _) => ((h.touch m va len).send (.leash p .poisoned), true)
    | .error .wait => (h, false)

/-- A remote access, behind those of its Leash port that wait. -/
def Hw.leashTry (h : Hw) (x : Nat × MemReq) : Hw :=
  if h.isHeld (leashMaster x.1) || h.leashQ.any (fun y => y.1 == x.1) then { h with leashQ := h.leashQ ++ [x] }
  else
    let (g, ended) := h.leashDo x.1 x.2
    if ended then g else { g with leashQ := g.leashQ ++ [x] }

/-- Everything outside that waits for a page or a slice tries again, oldest first. -/
def Hw.drainOutside (h : Hw) : Hw :=
  let h := h.portQ.foldl Hw.portTry { h with portQ := [] }
  h.leashQ.foldl Hw.leashTry { h with leashQ := [] }

/-- The stream state of prefetch stream `i`. -/
def Hw.stream (h : Hw) (i : Nat) : Stream := (alGet i h.mig.streams).getD {}
def Hw.setStream (h : Hw) (i : Nat) (t : Stream) : Hw := { h with mig := { h.mig with streams := alPut i t h.mig.streams } }

/-- Releases a held master (R92): a queue in FAULT_HOLD runs again, a stage unit's queues retry, a Leash port resumes its
apply, a stream retries its entry. -/
def Hw.releaseMaster (h : Hw) (kind id : Nat) : Hw :=
  if !h.mmu.held.any (fun x => x.kind = kind ∧ x.id = id) then h
  else
    let h := { h with mmu := { h.mmu with held := h.mmu.held.filter fun x => ¬ (x.kind = kind ∧ x.id = id) } }
    if kind = 0 then
      let q : QId := ⟨coreEng (id / 8), id % 8⟩
      if (h.qs q).st = .faultHold then (h.enterSt q .running).setQs q { h.qs q with st := .running, headSince := h.time } else h
    else if kind = 2 then
      h.queues.foldl (fun h (q, _) =>
        if (queueMaster q).kind = 2 ∧ (queueMaster q).id = id ∧ (h.qs q).st = .faultHold then h.enterSt q .running else h) h
    else if kind = 6 then h.drainOutside
    else if kind = 7 then h.setStream id { h.stream id with fault := false }
    else h

def faultClear (r : Req) (m : Fin 4) (v : Word) (h : Hw) : Hw :=
  h.guardWrite r (0x020 + m.val) 0x05C v.toNat fun h => h.releaseMaster (bitsOf v.toNat 19 16) (bitsOf v.toNat 15 0)

/-- FAULT_CLEAR (R92): any slice accepts the write; one that names no held master has no effect. -/
def execFaultClear (r : Req) (m : Fin 4) (v : Word) (s : State) : Out := .next (s.onHw (faultClear r m v))

/-! ### Scrub and refresh (R98 to R100) -/

/-- The poison units of channel `ch` in a list. -/
def onChannel (ch : Nat) (us : List Nat) : List Nat :=
  us.filter fun u => u / 0x10000000000000 == 1 && lpChannel (u % 0x10000000000000) == ch

/-- When a channel was last scrubbed: 0 before the first pass. -/
def Hw.scrubbed (h : Hw) (ch : Nat) : Nat := smGet 0 ch h.scrubAt

/-- Whether a channel's next pass is due: scrub_hours since the last one; 0 disables scrubbing. -/
def Hw.scrubDue (h : Hw) (k ch : Nat) : Bool :=
  let p := 0x030 + k
  h.enabled p && h.present p && h.rd p 0x040 != 0 && decide (h.scrubbed ch + h.rd p 0x040 * 3600000000000 ≤ h.time)

def scrub (k : Fin 16) (c : Fin 8) (corrected : Nat) (bad : List Nat) (h : Hw) : Hw :=
  let p := 0x030 + k.val
  let ch := 8 * k.val + c.val
  if !h.scrubDue k.val ch then h
  else
    let fresh := onChannel ch ((bad.map fun a => memKey 1 (a / 64 * 64)) ++ h.upsets)
    let h := fresh.foldl (fun h u => if h.poison.contains u then h else h.uncorrectable u) h
    let mended := (onChannel ch h.flips).filter fun u => !h.poison.contains u
    let h := { mended.foldl Hw.correctedRead h with flips := h.flips.filter fun u => !(onChannel ch h.flips).contains u }
    let h := h.count p (0x050 + 0x10 * c.val) corrected
    let h := { h with life := h.life.bump (0x140 + 8 * ch) corrected, scrubAt := smSet 0 ch h.time h.scrubAt }
    h.raise p 2

/-- SCRUB (R99): a pass over one channel, which corrects `corrected` lines beside those the model knows and meets the uncorrectable lines
`bad`. A poisoned line counts nothing. That source 2 is raised at each channel's pass is the model's choice (log entry 78). -/
def execScrub (k : Fin 16) (c : Fin 8) (corrected : Nat) (bad : List Nat) (s : State) : Out :=
  .next (s.onHw (scrub k c corrected bad))

/-- The last temperatures of the devices from channel `lo` on, `n` channels. -/
def Hw.devTemps (h : Hw) (lo n : Nat) : List Int :=
  (h.temps.filter fun e => decide (256 * lo ≤ e.1 ∧ e.1 < 256 * (lo + n))).map fun e => e.2.toInt

def refreshDoubled (k : Fin 16) (c : Fin 8) (read : DeviceTemp) (h : Hw) : Hw :=
  let p := 0x030 + k.val
  let ch := 8 * k.val + c.val
  let h := { h with temps := alPut (256 * ch + read.dev.val) read.temp h.temps }
  let hot := (h.devTemps ch 1).any fun t => decide (85 ≤ t)
  let was := h.bit p 0x044 (8 + c.val)
  let top := (h.devTemps (8 * k.val) 8).foldl max read.temp.toInt
  let h := (h.wr p 0x048 (toSigned 8 top)).setBit p 0x044 (8 + c.val) hot
  if hot && !was then h.raise p 1 else h

/-- REFRESH_DOUBLED (R100, R111): a device of the channel tells its temperature. -/
def execRefreshDoubled (k : Fin 16) (c : Fin 8) (read : DeviceTemp) (s : State) : Out := .next (s.onHw (refreshDoubled k c read))

/-! ### Migration (R101 to R104, R108, R521) -/

def mreqTailWrite (r : Req) (v : Word) (h : Hw) : Hw :=
  h.guardWrite r 0x024 0x04C v.toNat fun h =>
    if ptrSub v.toNat (h.rd 0x024 0x050) ≤ 2 ^ h.rd 0x024 0x048 then h.wr 0x024 0x04C v.toNat
    else h.badAccess (pageOff 0x024 0x04C)

/-- MREQ_TAIL_WRITE (R521). -/
def execMreqTailWrite (r : Req) (v : Word) (s : State) : Out := .next (s.onHw (mreqTailWrite r v))

/-- Where the request of ring pointer `p` lies. -/
def Hw.mreqKey (h : Hw) (p : Nat) : Nat := h.tierBase 0x024 0x040 5 + 32 * (p % 2 ^ h.rd 0x024 0x048)

/-- The fields of a migration request (R101). -/
def reqOp (w : List Byte) : Nat := bitsOf (bnum w 0 4) 3 0
def reqIrq (w : List Byte) : Bool := bitOf (bnum w 0 4) 4
def reqTier (w : List Byte) : Nat := bitsOf (bnum w 0 4) 9 8
def reqPort (w : List Byte) : Nat := bitsOf (bnum w 0 4) 10 10
def reqTenant (w : List Byte) : Nat := bitsOf (bnum w 0 4) 27 16
def reqPages (w : List Byte) : Nat := bnum w 4 4
def reqVa (w : List Byte) : Nat := bnum w 8 8
def reqDst (w : List Byte) : Nat := bnum w 16 8
/-- Bits that must be zero are zero (R101). -/
def reqClean (w : List Byte) : Bool :=
  bitsOf (bnum w 0 4) 7 5 == 0 && bitsOf (bnum w 0 4) 15 11 == 0 && bitsOf (bnum w 0 4) 31 28 == 0

/-- Ends the request of ring slot `slot` (R102 step 8): outcome and pages_done, and the interrupts of R111. -/
def Hw.finishReq (h : Hw) (slot : Nat) (w : List Byte) (outcome done : Nat) : Hw :=
  let h := h.storeTier (h.mreqKey slot + 0x18) (leBytes 4 outcome ++ leBytes 4 done)
  let h := if reqIrq w then h.raise 0x024 0 else h
  if 2 ≤ outcome then h.raise 0x024 1 else h

/-- The request at the ring's head is taken; a slot beyond its tier is not (log entry 87). -/
def migrationRequest (h : Hw) : Hw :=
  let head := h.rd 0x024 0x050
  if !h.enabled 0x024 || head == h.rd 0x024 0x04C || !inTier (h.mreqKey head) 32 then h
  else
    let w := h.bytes (h.mreqKey head) 32
    let take (h : Hw) := h.wr 0x024 0x050 (head + 1)
    if (reqOp w ≠ 1 ∧ reqOp w ≠ 2 ∧ reqOp w ≠ 3) ∨ !reqClean w then (take h).finishReq head w 8 0
    else if reqPages w = 0 then (take h).finishReq head w 1 0
    else if reqOp w = 1 then
      if h.rd 0x024 0x054 ≤ h.mig.moves.length then h
      else
        let h := take h
        { h with mig := { h.mig with moves := h.mig.moves ++ [{ slot := head, req := w }] } }
    else
      let h := take h
      { h with mig := { h.mig with taken := h.mig.taken ++ [(head, w)] } }

/-- MIGRATION_REQUEST (R101): takes the next request in ring order; a MOVE is taken while fewer than max_moves run. -/
def execMigrationRequest (s : State) : Out := .next (s.onHw migrationRequest)

/-- The quota entry of a tenant (R108). -/
def Hw.quotaKey (h : Hw) (tenant : Nat) : Nat := h.tierBase 0x025 0x040 5 + 32 * tenant
/-- The limit and used counts of a tier. -/
def Hw.quotaLimit (h : Hw) (tenant tier : Nat) : Nat := leNat (h.bytes (h.quotaKey tenant + 8 * tier) 4)
def Hw.quotaUsed (h : Hw) (tenant tier : Nat) : Nat := leNat (h.bytes (h.quotaKey tenant + 8 * tier + 4) 4)
def Hw.setUsed (h : Hw) (tenant tier n : Nat) : Hw := h.storeTier (h.quotaKey tenant + 8 * tier + 4) (leBytes 4 n)

/-- Moves in flight: replaces and removes. -/
def Hw.setMove (h : Hw) (i : Nat) (m : Move) : Hw := { h with mig := { h.mig with moves := listSet h.mig.moves i m } }
def Hw.dropMove (h : Hw) (i : Nat) : Hw := { h with mig := { h.mig with moves := listDrop h.mig.moves i } }

/-- The page a move is at, and its destination frame. -/
def moveVa (m : Move) : Nat := reqVa m.req + 0x10000 * m.done
def moveDst (m : Move) : Nat := reqDst m.req + 0x10000 * m.done

/-- The tests of step 1 (R102) in their order: the refusal's outcome, or the leaf. -/
def Hw.moveTest (h : Hw) (m : Move) : Except Nat Leaf :=
  let va := moveVa m
  let dst := moveDst m
  let tier := reqTier m.req
  match h.walk 0 va with
  | .error _ => .error 3
  | .ok lf =>
    let n := leafBytes lf.big
    if va % n ≠ 0 ∨ dst % n ≠ 0 ∨ reqPages m.req - m.done < n / 0x10000 then .error 7
    else if tier = 3 ∨ spaceSize (tierSpace tier (reqPort m.req)) < dst + n then .error 8
    else if pteKv lf.pte ∧ h.enabled 0x025 = true ∧ !inTier (h.quotaKey (pteTenant lf.pte)) 32 then .error 8
    else if ptePin lf.pte then .error 4
    else if pteMoving lf.pte || h.mig.moves.any (fun o => o.stage ≠ 0 ∧ o.leafAt = lf.at_) then .error 5
    else if pteKv lf.pte ∧ h.enabled 0x025 = true ∧
        h.quotaLimit (pteTenant lf.pte) tier < h.quotaUsed (pteTenant lf.pte) tier + n / 0x10000 then .error 2
    else if (tier = 2 ∧ h.kennelUp (reqPort m.req) = false) ∨ (pteTier lf.pte = 2 ∧ h.kennelUp (ptePort lf.pte) = false) then .error 6
    else .ok lf

/-- The entry after the flip (R102 step 5). -/
def flipPte (e tier port dst : Nat) : Nat :=
  let keep := e - bitsOf e 51 16 * 0x10000 - pteTier e * 16 - ptePort e * 256 - (if pteMoving e then 2 else 0)
  keep + dst / 0x10000 % 0x1000000000 * 0x10000 + tier * 16 + (if tier = 2 then port * 256 else 0)

def moveBegin (i : Fin 8) (h : Hw) : Hw :=
  match h.mig.moves[i.val]? with
  | none => h
  | some m =>
    if m.stage ≠ 0 then h
    else match h.moveTest m with
      | .error o => (h.dropMove i.val).finishReq m.slot m.req o m.done
      | .ok lf => h.setMove i.val { m with
          stage := 1, leafAt := lf.at_, old := BitVec.ofNat 64 lf.pte, size := leafBytes lf.big / 0x10000 }

/-- MOVE (R102 steps 1 and 2): tests the next page of a move in flight and fences Hitch locks on it, or ends the request. -/
def execMove (i : Fin 8) (s : State) : Out := .next (s.onHw (moveBegin i))

/-- Copies `n` bytes between keys with their poison (R98): errors met in the source are reported first. -/
def Hw.copyKeys (h : Hw) (src dst n : Nat) : Hw :=
  let h := h.meet src n
  let bad := h.poison.filter (unitMeets src n)
  let h := { h with
    mem := memCopy src dst n h.mem
    upsets := h.upsets.filter (fun u => !unitInside dst n u)
    flips := h.flips.filter (fun u => !unitInside dst n u)
    poison := h.poison.filter (fun u => !unitInside dst n u) }
  let h := bad.foldl (fun h u =>
    let lo := max u src
    h.poisonRange (lo - src + dst) (min (u + poisonUnit u) (src + n) - lo)) h
  let h := (h.count 0x024 0x060 bad.length).countKennel src n false
  let h := h.countKennel dst n true
  if 2 ≤ dst / 0x10000000000000 then h.count (0x010 + (dst / 0x10000000000000 - 2)) 0x068 bad.length else h

def moveCopy (i : Fin 8) (h : Hw) : Hw :=
  match h.mig.moves[i.val]? with
  | none => h
  | some m =>
    if m.stage ≠ 1 then h
    else
      let e := leNat (h.bytes m.leafAt 8) ||| 2
      let h := h.store m.leafAt (leBytes 1 e)
      let h := h.dropTlb (moveVa m / 0x10000) m.size
      let h := h.copyKeys (memKey (tierSpace (pteTier e) (ptePort e)) (pteFrame e))
        (memKey (tierSpace (reqTier m.req) (reqPort m.req)) (moveDst m)) (m.size * 0x10000)
      h.setMove i.val { m with stage := 2, old := BitVec.ofNat 64 e }

/-- MOVE_COPY (R102 steps 3 and 4): of the entry as it stands now only moving is written (R85). A Hitch is one step here, so no lock is
held when this step runs. -/
def execMoveCopy (i : Fin 8) (s : State) : Out := .next (s.onHw (moveCopy i))

/-- What the engine leaves in the entry of a page it has marked moving: what it means to write there, or eight free bytes where the runtime
has written the entry meanwhile (R85). -/
def Hw.settleEntry (h : Hw) (m : Move) (e : Nat) : Hw :=
  if leNat (h.bytes m.leafAt 8) = m.old.toNat then h.store m.leafAt (leBytes 8 e)
  else (h.store m.leafAt (freeBytes h.freeCtr 8)).draw

def moveFlip (i : Fin 8) (h : Hw) : Hw :=
  match h.mig.moves[i.val]? with
  | none => h
  | some m =>
    if m.stage ≠ 2 then h
    else
      let old := m.old.toNat
      let h := h.settleEntry m (flipPte old (reqTier m.req) (reqPort m.req) (moveDst m))
      let h := if pteKv old ∧ h.enabled 0x025 = true then
          let h := h.setUsed (pteTenant old) (reqTier m.req) (h.quotaUsed (pteTenant old) (reqTier m.req) + m.size)
          h.setUsed (pteTenant old) (pteTier old) (h.quotaUsed (pteTenant old) (pteTier old) - m.size)
        else h
      let h := h.count 0x024 0x05C m.size
      (h.setMove i.val { m with stage := 3 }).drainOutside

/-- MOVE_FLIP (R102 steps 5 and 6): the waiting writes translate again and land in the new copy. -/
def execMoveFlip (i : Fin 8) (s : State) : Out := .next (s.onHw (moveFlip i))

def moveComplete (i : Fin 8) (h : Hw) : Hw :=
  match h.mig.moves[i.val]? with
  | none => h
  | some m =>
    if m.stage ≠ 3 then h
    else if reqPages m.req ≤ m.done + m.size then (h.dropMove i.val).finishReq m.slot m.req 1 (m.done + m.size)
    else h.setMove i.val { m with stage := 0, done := m.done + m.size }

/-- MOVE_COMPLETE (R102 steps 7 and 8): the page is done; the request ends with its last page. -/
def execMoveComplete (i : Fin 8) (s : State) : Out := .next (s.onHw (moveComplete i))

/-- Ends the moves in steps 1 to 4 that satisfy `f` with an outcome, the entries marked moving cleared of it (R104); waiting writes
proceed to the old frame. -/
def Hw.abortMoves (h : Hw) (outcome : Nat) (f : Move → Bool) : Hw :=
  let gone := h.mig.moves.filter fun m => decide (m.stage < 3) && f m
  let h := { h with mig := { h.mig with moves := h.mig.moves.filter fun m => !(decide (m.stage < 3) && f m) } }
  if gone.isEmpty then h
  else (gone.foldl (fun h m =>
    (if m.stage = 2 then h.settleEntry m (m.old.toNat - 2) else h).finishReq m.slot m.req outcome m.done) h).drainOutside

/-- Whether Hitch locks on `va` are refused (R102 step 2, R473): a move holds the page fenced. -/
def Hw.fenced (h : Hw) (va : Nat) : Bool :=
  h.mig.moves.any fun m => decide (1 ≤ m.stage ∧ m.stage < 3) &&
    decide (moveVa m ≤ va ∧ va < moveVa m + m.size * 0x10000)

/-- Takes the first taken request with operation `op` out of the list. -/
def Hw.taken (h : Hw) (op : Nat) : Option (Nat × List Byte) := h.mig.taken.find? fun t => reqOp t.2 = op
def Hw.untake (h : Hw) (t : Nat × List Byte) : Hw := { h with mig := { h.mig with taken := h.mig.taken.erase t } }

def charge (h : Hw) : Hw :=
  match h.taken 2 with
  | none => h
  | some t =>
    let w := t.2
    let h := h.untake t
    if !h.enabled 0x025 then h.finishReq t.1 w 1 (reqPages w)
    else if reqTier w = 3 ∨ !inTier (h.quotaKey (reqTenant w)) 32 then h.finishReq t.1 w 8 0
    else if h.quotaLimit (reqTenant w) (reqTier w) < h.quotaUsed (reqTenant w) (reqTier w) + reqPages w then h.finishReq t.1 w 2 0
    else (h.setUsed (reqTenant w) (reqTier w) (h.quotaUsed (reqTenant w) (reqTier w) + reqPages w)).finishReq t.1 w 1 (reqPages w)

/-- CHARGE (R104, R108): the oldest CHARGE taken. -/
def execCharge (s : State) : Out := .next (s.onHw charge)

def release (h : Hw) : Hw :=
  match h.taken 3 with
  | none => h
  | some t =>
    let w := t.2
    let h := h.untake t
    if !h.enabled 0x025 then h.finishReq t.1 w 1 (reqPages w)
    else if reqTier w = 3 ∨ !inTier (h.quotaKey (reqTenant w)) 32 then h.finishReq t.1 w 8 0
    else (h.setUsed (reqTenant w) (reqTier w) (h.quotaUsed (reqTenant w) (reqTier w) - reqPages w)).finishReq t.1 w 1 (reqPages w)

/-- RELEASE (R104, R108): subtracts, stopping at zero. -/
def execRelease (s : State) : Out := .next (s.onHw release)

/-- Requests taken and waiting complete at once (R104), in ring order. -/
def Hw.settleTaken (h : Hw) : Hw := h.mig.taken.foldl (fun h t => if reqOp t.2 = 2 then charge h else release h) h

/-! ### Prefetch (R105 to R107, R521) -/

/-- Offset of register `o` of stream `s`. -/
def pfOff (s o : Nat) : Nat := 0x080 + 0x20 * s + o

def prefetchTailWrite (r : Req) (s : Fin 16) (v : Word) (h : Hw) : Hw :=
  h.guardWrite r 0x024 (pfOff s 0x0C) v.toNat fun h =>
    let n := 2 ^ h.rd 0x024 (pfOff s 0x08)
    let loop := h.bit 0x024 (pfOff s 0x18) 1
    if ptrSub v.toNat (h.rd 0x024 (pfOff s 0x10)) ≤ n ∧ (loop = false ∨ v.toNat ≤ n) then
      h.wr 0x024 (pfOff s 0x0C) v.toNat
    else h.badAccess (pageOff 0x024 (pfOff s 0x0C))

/-- PREFETCH_TAIL_WRITE (R521). -/
def execPrefetchTailWrite (r : Req) (s : Fin 16) (v : Word) (st : State) : Out := .next (st.onHw (prefetchTailWrite r s v))

/-- n_layers, and whether a stream runs (R106, R111). -/
def Hw.pfLayers (h : Hw) (s : Nat) : Nat := bitsOf (h.rd 0x024 (pfOff s 0x14)) 31 16
def Hw.pfOn (h : Hw) (s : Nat) : Bool := h.enabled 0x024 && h.bit 0x024 (pfOff s 0x18) 0 && h.pfLayers s != 0

/-- The entry at a stream's head, by ring position (R106): a looping stream replays slots 0 to TAIL − 1. -/
def Hw.pfHeadSlot (h : Hw) (s : Nat) : Option Nat :=
  let head := h.rd 0x024 (pfOff s 0x10)
  let tail := h.rd 0x024 (pfOff s 0x0C)
  if h.bit 0x024 (pfOff s 0x18) 1 then (if tail = 0 then none else some (head % tail))
  else if head = tail then none else some (head % 2 ^ h.rd 0x024 (pfOff s 0x08))

/-- The bytes of that entry, none where it lies beyond its tier (log entry 87). -/
def Hw.pfHead (h : Hw) (s : Nat) : Option (List Byte) :=
  (h.pfHeadSlot s).bind fun i =>
    let k := h.tierBase 0x024 (pfOff s 0x00) 5 + 32 * i
    if inTier k 32 then some (h.bytes k 32) else none

/-- The fields of a prefetch entry (R105). -/
def pfLayer (e : List Byte) : Nat := bnum e 0 2
def pfGateOp (e : List Byte) : Nat := bnum e 2 2
def pfGate (e : List Byte) : Bool := bitOf (bnum e 4 4) 0
def pfPredEn (e : List Byte) : Bool := bitOf (bnum e 4 4) 1
def pfPredInv (e : List Byte) : Bool := bitOf (bnum e 4 4) 2
def pfSigEn (e : List Byte) : Bool := bitOf (bnum e 4 4) 3
def pfPred (e : List Byte) : Nat := bitsOf (bnum e 4 4) 13 8
def pfCore (e : List Byte) : Nat := bitsOf (bnum e 4 4) 21 16
def pfSem (e : List Byte) : Nat := bitsOf (bnum e 4 4) 27 24
def pfSrc (e : List Byte) : Nat := bnum e 8 8
def pfDst (e : List Byte) : Nat := bnum e 16 8
def pfLen (e : List Byte) : Nat := bnum e 24 4

/-- A stream meets a fault: fault state, record, held (R89, R111 source 2). -/
def Hw.streamFault (h : Hw) (s : Nat) (cause level va : Nat) (write : Bool) : Hw :=
  let h := h.setStream s { h.stream s with fault := true }
  ((h.postFault (streamMaster s) cause level va write 0 true).err 0x024 s cPAGE_FAULT).raise 0x024 2

/-- Whether every granule of a range translates for a master; the first that does not, with what it meets. -/
def Hw.probeGran (h : Hw) (m : Master) (write : Bool) : Nat → Nat → Nat → Option RdErr
  | 0, _, _ => none
  | fuel + 1, va, n =>
    if n = 0 then none
    else match h.windowOf va with
      | some w =>
        if write || h.routeUp (bitsOf (h.rd 0x012 (0x210 + 0x20 * w)) 3 1) then
          h.probeGran m write fuel (va + min n (granuleLeft va)) (n - min n (granuleLeft va))
        else some .wait
      | none => match h.locate m va write with
        | .error e => some e
        | .ok _ => h.probeGran m write fuel (va + min n (granuleLeft va)) (n - min n (granuleLeft va))
def Hw.probe (h : Hw) (m : Master) (write : Bool) (va n : Nat) : Option RdErr := h.probeGran m write (n / 0x10000 + 2) va n

/-- What stops the copy of entry `e`, and whether its destination meets it; nothing where the entry copies nothing. -/
def Hw.pfBad (h : Hw) (s : Nat) (e : List Byte) (skip : Bool) : Option (RdErr × Bool) :=
  if skip then none
  else match h.probe (streamMaster s) false (pfSrc e) (pfLen e) with
    | some x => some (x, false)
    | none => (h.probe (streamMaster s) true (pfDst e) (pfLen e)).map (·, true)

/-- Whether the entry at a stream's head is near enough to issue (R106): within runahead layers of the current one; a looping stream
replays its list once per pass, so its entry is for no later a pass than the next in which its layer comes (log entry 79). -/
def Hw.pfNear (h : Hw) (s : Nat) (e : List Byte) : Bool :=
  let st := h.stream s
  let n := h.pfLayers s
  let cfg := h.rd 0x024 (pfOff s 0x18)
  decide ((pfLayer e + n - st.layer % n) % n ≤ bitsOf cfg 15 8) &&
    (!bitOf cfg 1 || decide ((st.laps + 1) * n + pfLayer e % n ≤ st.pass * n + st.layer % n + min (bitsOf cfg 15 8) (n - 1)))

/-- Takes the entry at a stream's head: HEAD advances, and with the last slot of a looping list a lap ends. -/
def Hw.pfTake (h : Hw) (s : Nat) (e : List Byte) (skip : Bool) : Hw :=
  let head := h.rd 0x024 (pfOff s 0x10)
  let tail := h.rd 0x024 (pfOff s 0x0C)
  let st := h.stream s
  let lap := h.bit 0x024 (pfOff s 0x18) 1 && head % tail == tail - 1
  (h.wr 0x024 (pfOff s 0x10) (head + 1)).setStream s { st with
    gateOpen := false, laps := if lap then st.laps + 1 else st.laps, inflight := st.inflight ++ [⟨BitVec.ofNat 32 head, e, skip, false⟩] }

def prefetchEntryIssue (s : Fin 16) (h : Hw) : Hw :=
  let st := h.stream s
  match h.pfHead s with
  | none => h
  | some e =>
    if !h.pfOn s || st.fault || decide (4 ≤ st.inflight.length) || !h.pfNear s e || (pfGate e && !st.gateOpen) then h
    else
      let skip := (pfPredEn e && (h.pred (pfCore e) (pfPred e) == pfPredInv e)) || pfLen e == 0
      match h.pfBad s e skip with
      | some (.fault c l va, w) => h.streamFault s c l va w
      | some _ => h
      | none => h.pfTake s e skip

/-- PREFETCH_ENTRY_ISSUE (R106). -/
def execPrefetchEntryIssue (s : Fin 16) (st : State) : Out := .next (st.onHw (prefetchEntryIssue s))

/-- Copies `n` bytes between virtual ranges, granule by granule, with their poison; through a remote window the bytes go as R401 says. -/
def Hw.copyVa (m : Master) : Nat → Nat → Nat → Nat → Hw → Hw
  | 0, _, _, _, h => h
  | fuel + 1, src, dst, n, h =>
    if n = 0 then h
    else
      let c := min n (min (granuleLeft src) (granuleLeft dst))
      let h :=
        if (h.windowOf src).isSome || (h.windowOf dst).isSome then
          (match h.read m src c with
            | .ok bs => h.write m dst bs
            | .error _ => h.write m dst (freeBytes h.freeCtr c)).draw
        else match h.locate m src false, h.locate m dst true with
          | .ok a, .ok b => h.copyKeys a b c
          | _, _ => h
      Hw.copyVa m fuel (src + c) (dst + c) (n - c) h

def prefetchEntryComplete (s : Fin 16) (h : Hw) : Hw :=
  let st := h.stream s
  match st.inflight with
  | [] => h
  | e :: rest =>
    let m := streamMaster s
    let n := pfLen e.entry
    if st.fault then h
    else match h.pfBad s e.entry e.skip with
      | some (.fault c l va, w) => h.streamFault s c l va w
      | some _ => h
      | none =>
        let h := if e.skip then h else
          Hw.copyVa m (2 * (n / 0x10000) + 4) (pfSrc e.entry) (pfDst e.entry) n
            ((h.touch m (pfSrc e.entry) n).lookups m (pfDst e.entry) n)
        let h := h.setStream s { h.stream s with inflight := rest }
        if pfSigEn e.entry then h.semAdd (pfCore e.entry) (pfSem e.entry) 1 else h

/-- PREFETCH_ENTRY_COMPLETE (R106): the oldest entry in flight is copied and its signal sent, so signals keep ring order. -/
def execPrefetchEntryComplete (s : Fin 16) (st : State) : Out := .next (st.onHw (prefetchEntryComplete s))

/-- What a commit or a skip on a queue tells the streams it paces (R106): the current layer, a pass where the layers begin anew, and by
a commit the head's gate. -/
def Hw.paceStreams (h : Hw) (id : QId) (d : BitVec 512) (committed : Bool) : Hw :=
  match id.eng with
  | .stage _ _ => h
  | .core n => h.mig.streams.foldl (fun h (s, _) =>
      let pc := h.rd 0x024 (pfOff s 0x14)
      if h.pfOn s ∧ bitsOf pc 5 0 = n.val ∧ bitsOf pc 10 8 = id.q then
        let st := h.stream s
        let k := h.pfLayers s
        let opens := committed && match h.pfHead s with
          | some e => pfGate e && pfLayer e == dLayer d && pfGateOp e == dOper d
          | none => false
        h.setStream s { st with
          layer := dLayer d, gateOpen := st.gateOpen || opens
          pass := if dLayer d % k < st.layer % k ∨ k = 1 then st.pass + 1 else st.pass }
      else h) h

/-! ### Age stamps (R109, R110) -/

def ageRefresh (h : Hw) : Hw :=
  let per := h.rd 0x025 0x058
  if per = 0 ∨ h.enabled 0x025 = false ∨ h.time < h.mig.lastAge + per * 0x1000000 then h
  else
    let h := { h with mig := { h.mig with lastAge := h.time } }
    { h with mmu := { h.mmu with tlb := h.mmu.tlb.filter fun e => !ptePool e.pte.toNat } }

/-- AGE_REFRESH (R109). -/
def execAgeRefresh (s : State) : Out := .next (s.onHw ageRefresh)

/-- Starts a scan of tier `t`, which waits while TIER is disabled (R40). -/
def Hw.startScan (h : Hw) (t : Nat) : Hw :=
  if h.enabled 0x025 then { h with mig := { h.mig with scanBusy := some t, scanWait := none } }
  else { h with mig := { h.mig with scanWait := some t } }

/-- Whether a scan runs or waits: SCAN_CTL.busy. -/
def Hw.scanning (h : Hw) : Bool := h.mig.scanBusy.isSome || h.mig.scanWait.isSome

def scanStart (r : Req) (v : Word) (h : Hw) : Hw :=
  h.guardWrite r 0x025 0x05C (v.toNat ||| 1) fun h =>
    let h := h.wr 0x025 0x05C (bitsOf v.toNat 1 1 * 2)
    if h.scanning then h else h.startScan (bitsOf v.toNat 1 1)

/-- SCAN (R110). A go written while a scan runs starts nothing. -/
def execScan (r : Req) (v : Word) (s : State) : Out := .next (s.onHw (scanStart r v))

/-- The frames of an age array from frame `from_` on whose stamp is old enough, ascending (R110); a stamp of 0 is no pool
frame, so only words with a listed byte matter. -/
def Hw.oldFrames (h : Hw) (base frames from_ : Nat) : List Nat :=
  let here := h.mem.filterMap fun c =>
    if base ≤ c.1 ∧ c.1 < base + 4 * frames then some ((c.1 - base) / 4) else none
  let fs := (here.foldl (fun l f => if l.head? = some f then l else f :: l) []).reverse
  fs.filter fun f =>
    let st := leNat (h.bytes (base + 4 * f) 4)
    inTier (base + 4 * f) 4 && decide (from_ ≤ f) && decide (st ≠ 0) && decide (h.rd 0x025 0x060 ≤ ptrSub h.stamp st)

def scanDone (h : Hw) : Hw :=
  match h.mig.scanBusy with
  | none => h
  | some t =>
    let base := if t = 0 then h.tierBase 0x025 0x048 4 else h.tierBase 0x025 0x050 4
    let frames := spaceSize t / 0x10000
    let from_ := if t = 0 then h.mig.scanNear else h.mig.scanLp
    let all := h.oldFrames base frames from_
    let found := all.take (h.rd 0x025 0x06C)
    let stop := if found.length < all.length then (match found.getLast? with | some f => f + 1 | none => from_) else 0
    let out := h.tierBase 0x025 0x064 3
    let h := (found.zipIdx 0).foldl (fun h x => h.storeTier (out + 8 * x.2) (leBytes 8 (x.1 * 0x10000 + t))) h
    let h := { h with mig := { h.mig with
      scanBusy := none
      scanNear := if t = 0 then stop else h.mig.scanNear
      scanLp := if t = 0 then h.mig.scanLp else stop } }
    (h.wr 0x025 0x070 found.length).raise 0x025 0

/-- SCAN_DONE (R110); log entry 26 says where a scan that reaches the last frame leaves off. -/
def execScanDone (s : State) : Out := .next (s.onHw scanDone)

end Sys2Proof.Machine
end

