-- ==== Sys2Proof/Machine/Dma.lean ====
section
/-! DEFINITION. DMA channels (R112 to R126). One step of DMA_ACCESS_WRITTEN is one turn of a quadrant's read engine and one of its write
engine; log entry 27 says how source lines of host memory reach the line buffer. -/

namespace Sys2Proof.Machine

/-- The page of a channel. -/
def dmaPage (n : Nat) : Nat := 0x040 + n

/-- STAT.state of a channel (R126). -/
def Hw.dmaSt (h : Hw) (n : Nat) : Nat := bitsOf (h.rd (dmaPage n) 0x058) 18 16
/-- Sets STAT's state and code. -/
def Hw.dmaSet (h : Hw) (n st code : Nat) : Hw := h.wr (dmaPage n) 0x058 (st * 0x10000 + code)
def Hw.dmaCode (h : Hw) (n : Nat) : Nat := h.rd (dmaPage n) 0x058 % 0x10000

/-- The states of R126. -/
abbrev dIDLE : Nat := 0
abbrev dPENDING : Nat := 1
abbrev dRUNNING : Nat := 2
abbrev dWAIT_MOVE : Nat := 3
abbrev dSTOPPING : Nat := 4
abbrev dDONE : Nat := 5
abbrev dFAULT : Nat := 6
abbrev dERROR : Nat := 7

/-- What the module holds of a channel. -/
def Hw.ch (h : Hw) (n : Nat) : DmaCh := (alGet n h.dma).getD {}
def Hw.setCh (h : Hw) (n : Nat) (c : DmaCh) : Hw := { h with dma := alPut n c h.dma }

/-- SRC, DST and COUNT. -/
def Hw.dmaSrc (h : Hw) (n : Nat) : Nat := h.rd64 (dmaPage n) 0x040
def Hw.dmaDst (h : Hw) (n : Nat) : Nat := h.rd64 (dmaPage n) 0x048
def Hw.dmaCount (h : Hw) (n : Nat) : Nat := h.rd (dmaPage n) 0x050

/-- Whether a requester is agreed (R47): a port whose HOST_ABI is nonzero and names major 1; the Handler passes. -/
def Hw.agreed (h : Hw) (r : Req) : Bool :=
  match r with
  | .handler => true
  | _ => let v := h.rd 0x000 0x044 (reqBank r); v != 0 && bitsOf v 23 16 == 1

/-- DONE (R116): source 0 with irq_done, the semaphore with sig_en, and the status code of R123. -/
def Hw.dmaFinish (h : Hw) (n : Nat) : Hw :=
  let ctl := h.rd (dmaPage n) 0x054
  let h := h.dmaSet n dDONE (if (h.ch n).poisoned then cECC else 0)
  let h := h.setCh n { run := (h.ch n).run }
  let h := if bitOf ctl 6 then h.raise (dmaPage n) 0 else h
  if bitOf ctl 7 ∧ bitsOf ctl 17 12 < 48 then h.semAdd (bitsOf ctl 17 12) (bitsOf ctl 11 8) 1 else h

/-- What a channel holds when its buffer is discarded (R120): whether the copy has met poison and the ports it has written by stay with a
copy that a later GO resumes (log entry 80). -/
def Hw.dmaDrop (h : Hw) (n : Nat) : Hw :=
  let c := h.ch n
  h.setCh n { run := c.run, poisoned := c.poisoned, ports := c.ports }

/-- The checks of a start (R117), for the requester that wrote GO. -/
def Hw.dmaStart (h : Hw) (n : Nat) (r : Req) : Hw :=
  let p := dmaPage n
  let fail (code : Nat) : Hw := ((h.dmaSet n dERROR code).err p 2 code).raise p 2
  let k := h.dmaCount n
  if !h.agreed r then fail cABI
  else if k = 0 then h.dmaFinish n
  else if bitsOf (h.rd p 0x044) 31 20 ≠ 0 ∨ bitsOf (h.rd p 0x04C) 31 20 ≠ 0 then fail cFORMAT
  else if 2 ^ 52 < h.dmaSrc n + k ∨ 2 ^ 52 < h.dmaDst n + k then fail cLENGTH
  else
    let h := h.dmaDrop n
    (h.setCh n { h.ch n with len := k, run := (h.ch n).run + 1 }).dmaSet n dRUNNING (h.dmaCode n)

/-- The stop bit (R122). -/
def Hw.dmaStopAct (h : Hw) (n : Nat) : Hw :=
  if h.dmaSt n = dPENDING then h.dmaSet n dIDLE (h.dmaCode n)
  else if h.dmaSt n = dRUNNING then h.dmaSet n dSTOPPING (h.dmaCode n)
  else if h.dmaSt n = dWAIT_MOVE then (h.setCh n { h.ch n with stopAfter := true }).dmaSet n dSTOPPING (h.dmaCode n)
  else h

/-- A write of CTL (R117, R118): in RUNNING, WAIT_MOVE, STOPPING and PENDING only its stop bit acts; elsewhere a sig_core that is no core
discards it (R36), else the fields are stored and go starts the channel, or leaves it PENDING while the page is disabled. -/
def Hw.dmaCtlWrite (h : Hw) (r : Req) (n : Nat) (v : Nat) : Hw :=
  let p := dmaPage n
  h.guardWrite r p 0x054 v fun h =>
    let st := h.dmaSt n
    if st = dRUNNING ∨ st = dWAIT_MOVE ∨ st = dSTOPPING ∨ st = dPENDING then
      if bitOf v 1 then h.dmaStopAct n else h.badAccess (pageOff p 0x054)
    else if 48 ≤ bitsOf v 17 12 then h.badAccess (pageOff p 0x054)
    else
      let h := h.wr p 0x054 (v &&& 0x3FFF0)
      if bitOf v 0 then
        let h := h.demand.worked
        if h.enabled p then h.dmaStart n r
        else (h.setCh n { h.ch n with pendBy := r }).dmaSet n dPENDING (h.dmaCode n)
      else h

/-- DMA_GO (R117): a write of CTL with go set. -/
def execDmaGo (r : Req) (n : Fin 32) (v : Word) (s : State) : Out :=
  .next (s.onHw fun h => h.dmaCtlWrite r n.val (v.toNat ||| 1))

/-- DMA_STOP (R122): a write of CTL with stop set. -/
def execDmaStop (r : Req) (n : Fin 32) (v : Word) (s : State) : Out :=
  .next (s.onHw fun h => h.dmaCtlWrite r n.val (v.toNat ||| 2))

/-- The size of the next destination access (R114): the largest naturally aligned access of 1 to 32 bytes that passes neither
the line nor the end, or a whole line. -/
def dmaAccess (dst count : Nat) : Nat :=
  if dst % 64 = 0 ∧ 64 ≤ count then 64
  else
    let left := min (64 - dst % 64) count
    [32, 16, 8, 4, 2].foldr (fun k acc => if dst % k = 0 ∧ k ≤ left then max k acc else acc) 1

/-- The 64-byte source lines that hold `n` bytes at `src`. -/
def dmaLines (src n : Nat) : List Nat := (List.range ((src + n - 1) / 64 - src / 64 + 1)).map fun i => (src / 64 + i) * 64

/-- What the module awaits on a port. -/
def Hw.portReads (h : Hw) (port : Nat) : List OutRead := if port = 0 then h.pcieA.reads else h.pcieB.reads

/-- How many reads a port may have outstanding (R415): 10-Bit Tag Requester Enable is bit 12 of Device Control 2, 32 bytes behind Device
Control (log entry 44). -/
def PciePort.tags (p : PciePort) : Nat :=
  if p.cfg = [] ∨ bitOf ((alGet (Config.capOff 1 + 0x20) p.cfg).getD 0).toNat 12 = false then 256 else 768

/-- Issues a module read of host memory on a port (R415). -/
def Hw.askHost (h : Hw) (port : Nat) (who : ReadFor) (len : Nat) : Hw :=
  let add (p : PciePort) : PciePort := { p with reads := p.reads ++ [⟨p.nextTag, who, len⟩], nextTag := (p.nextTag + 1) % p.tags }
  if port = 0 then { h with pcieA := add h.pcieA } else { h with pcieB := add h.pcieB }

/-- Whether the next tag of a port is free (R415). -/
def Hw.tagFree (h : Hw) (port : Nat) : Bool :=
  let t := if port = 0 then h.pcieA.nextTag else h.pcieB.nextTag
  !(h.portReads port).any fun r => r.tag == t

/-- A fault met by a channel (R120): it stops at the stop point, which its registers hold. A channel has no descriptor for the record to name
(log entry 87). -/
def Hw.dmaFault (h : Hw) (n cause level va : Nat) (write : Bool) : Hw :=
  let p := dmaPage n
  let h := (h.dmaDrop n).dmaSet n dFAULT cPAGE_FAULT
  let h := h.postFault (dmaMaster n) cause level va write 0 false
  ((h.err p (if write then 0 else 1) cPAGE_FAULT).count p 0x070).raise p 1

/-! ### The read engine (R112 to R114) -/

/-- Lines a channel holds, of those it owns, of those it may hold, and lines of a quadrant that are lent (R112). -/
def Hw.dmaHeld (h : Hw) (n : Nat) : Nat := (h.ch n).lines.length
abbrev dmaReserve : Nat := 256
abbrev dmaMost : Nat := 1024
abbrev dmaLend : Nat := 2048

/-- The channels of a quadrant. -/
def quadChannels (q : Nat) : List Nat := (List.range 8).map (8 * q + ·)

/-- Lines lent in a quadrant. -/
def Hw.dmaLent (h : Hw) (q : Nat) : Nat := (quadChannels q).foldl (fun a n => a + (h.dmaHeld n - dmaReserve)) 0

/-- The source line a channel reads next: the one after those it holds; none once the last is held. -/
def Hw.dmaWants (h : Hw) (n : Nat) : Option Nat :=
  let src := h.dmaSrc n
  let next := src / 64 * 64 + 64 * h.dmaHeld n
  if h.dmaSt n = dRUNNING ∧ h.dmaCount n ≠ 0 ∧ h.present (dmaPage n) = true ∧ next < src + h.dmaCount n then some next else none

/-- The channels that ask for a lent line, in the order they asked (R112): those that still want one, then those that want one now. -/
def Hw.dmaAskers (h : Hw) (q : Nat) : List Nat :=
  let wants (n : Nat) : Bool := (h.dmaWants n).isSome && decide (dmaReserve ≤ h.dmaHeld n ∧ h.dmaHeld n < dmaMost)
  let old := h.dmaAsks.filter fun n => n / 8 == q && wants n
  old ++ (quadChannels q).filter fun n => wants n && !old.contains n

/-- Whether a channel has a line for what it reads next: of its reserve, or one that it asked for first. -/
def Hw.dmaRoom (h : Hw) (n : Nat) : Bool :=
  decide (h.dmaHeld n < dmaReserve)
    || ((h.dmaAskers (n / 8)).head? == some n && decide (h.dmaLent (n / 8) < dmaLend))

/-- Where a source line lies: behind a remote window, or at a key; what stops the read. -/
def Hw.dmaSpot (h : Hw) (n va : Nat) : Except RdErr (Option Nat) :=
  match h.windowOf va with
  | some w => if h.routeUp (bitsOf (h.rd 0x012 (0x210 + 0x20 * w)) 3 1) then .ok none else .error .wait
  | none =>
    match h.locate (dmaMaster n) va false with
    | .error e => .error e
    | .ok k => if 2 ≤ k / 0x10000000000000 ∧ h.tagFree (k / 0x10000000000000 - 2) = false then .error .wait else .ok (some k)

/-- Whether the read engine can read a channel's next line. -/
def Hw.dmaCanRead (h : Hw) (n : Nat) : Bool :=
  match h.dmaWants n with
  | none => false
  | some va => h.dmaRoom n && (match h.dmaSpot n va with | .ok _ => true | .error _ => false)

/-- Reads a channel's next line: it enters the buffer at once, or when the host's completion comes. -/
def Hw.dmaReadLine (h : Hw) (n : Nat) : Hw :=
  match h.dmaWants n with
  | none => h
  | some va =>
    let m := dmaMaster n
    let add (h : Hw) (l : DmaLine) : Hw := h.setCh n { h.ch n with lines := (h.ch n).lines ++ [l] }
    let h := { h with dmaAsks := (h.dmaAskers (n / 8)).filter (· != n) ++ h.dmaAsks.filter fun x => x / 8 != n / 8 }
    match h.dmaSpot n va with
    | .error _ => h
    | .ok none => (add h { va := va, data := some (freeBytes h.freeCtr 64) }).draw
    | .ok (some k) =>
      if 2 ≤ k / 0x10000000000000 then
        add ((h.lookups m va 64).askHost (k / 0x10000000000000 - 2) (.dmaLine n (h.ch n).run va) 64) { va := va }
      else
        let h := h.touch m va 64
        add h { va := va, data := some (h.bytes k 64), bad := h.poisoned k 64 }

/-! ### The write engine (R114, R115, R119, R123) -/

/-- The lines that a channel's next destination access draws from, if all have arrived. -/
def Hw.dmaReady (h : Hw) (n : Nat) : Option (List DmaLine) :=
  let w := dmaAccess (h.dmaDst n) (h.dmaCount n)
  let vas := dmaLines (h.dmaSrc n) w
  let ls := (h.ch n).lines.filter fun l => vas.contains l.va && l.data.isSome
  if (h.dmaSt n = dRUNNING ∨ h.dmaSt n = dWAIT_MOVE ∨ (h.dmaSt n = dSTOPPING ∧ (h.ch n).stopAfter = true)) ∧ h.dmaCount n ≠ 0
      ∧ h.present (dmaPage n) = true ∧ ls.length = vas.length then some ls else none

/-- Source byte `va` of the lines. -/
def dmaByte (ls : List DmaLine) (va : Nat) : Byte :=
  match ls.find? fun l => l.va == va / 64 * 64 with
  | some l => (l.data.getD []).getD (va % 64) 0
  | none => 0

/-- Where a channel's next access goes: posted through a remote window, or to a key. -/
def Hw.dmaTarget (h : Hw) (n : Nat) : Except RdErr (Option Nat) :=
  match h.windowOf (h.dmaDst n) with
  | some _ => .ok none
  | none => (h.locate (dmaMaster n) (h.dmaDst n) true).map some

/-- Whether the page of a channel's destination is marked moving. -/
def Hw.dmaMoving (h : Hw) (n : Nat) : Bool :=
  (h.windowOf (h.dmaDst n)).isNone &&
    match h.leafOf (dmaMaster n) (h.dmaDst n) with
    | .ok lf => pteMoving lf.pte
    | .error _ => false

/-- Whether the write engine has something to do for a channel: an access to write, or a moving page to wait for. -/
def Hw.dmaCanWrite (h : Hw) (n : Nat) : Bool :=
  h.dmaSt n == dRUNNING && (h.dmaReady n).isSome &&
    match h.dmaTarget n with
    | .ok _ => true
    | .error .wait => h.enabled (0x020 + n / 8) && !h.bistSlice (n / 8) && h.dmaMoving n
    | .error _ => false

/-- Writes a channel's next destination access, whose bytes come from `ls`. With the destination over the source at a higher address the
bytes are free values (R119). -/
def Hw.dmaPut (h : Hw) (n : Nat) (ls : List DmaLine) (key : Option Nat) : Hw :=
  let p := dmaPage n
  let src := h.dmaSrc n
  let dst := h.dmaDst n
  let w := dmaAccess dst (h.dmaCount n)
  let onto := decide (src < dst ∧ dst < src + (h.ch n).len)
  let bytes := if onto then freeBytes h.freeCtr w else (List.range w).map fun i => dmaByte ls (src + i)
  let h := if onto then h.draw else h
  let bad := ls.any (·.bad)
  let fresh := (ls.filter fun l => l.bad && !l.counted).length
  let h := match key with
    | none => h.write (dmaMaster n) dst bytes
    | some k =>
      let h := ((h.lookups (dmaMaster n) dst w).store k bytes).countKennel k w true
      if !bad then h
      else if 2 ≤ k / 0x10000000000000 then (h.poisonRange k w).count (0x010 + (k / 0x10000000000000 - 2)) 0x068
      else h.poisonRange (k / 64 * 64) 64
  let port := (key.map (· / 0x10000000000000 - 2)).filter fun _ => key.any (2 * 0x10000000000000 ≤ ·)
  let c := h.ch n
  let keep := if h.dmaCount n ≤ w then [] else c.lines.filter fun l => decide (src + w < l.va + 64)
  let h := h.setCh n { c with
    poisoned := c.poisoned || bad
    lines := keep.map fun l => if l.bad && ls.any (fun x => x.va == l.va) then { l with counted := true } else l
    ports := match port with
      | some q => if c.ports.contains q then c.ports else c.ports ++ [q]
      | none => c.ports }
  let h := h.count p 0x06C fresh
  let h := if w < 64 then h.count p 0x068 else h
  let h := (h.wr64 p 0x040 (src + w)).wr64 p 0x048 (dst + w)
  (h.wr p 0x050 (h.dmaCount n - w)).count64 p 0x060 w

/-- The write engine's turn for a channel: the access is written, or waits for the flip (R121). -/
def Hw.dmaWriteNext (h : Hw) (n : Nat) : Hw :=
  match h.dmaReady n, h.dmaTarget n with
  | some ls, .ok k => h.dmaPut n ls k
  | some _, .error .wait => if h.dmaMoving n then h.dmaSet n dWAIT_MOVE (h.dmaCode n) else h
  | _, _ => h

/-! ### Arbitration (R113) -/

/-- The priority of a channel: 0 is served first. -/
def Hw.dmaPrio (h : Hw) (n : Nat) : Nat := bitsOf (h.rd (dmaPage n) 0x054) 5 4

/-- The channel an engine of quadrant `q` serves among those that `can`: of the lowest priority value, round robin by channel number from
the one after the channel served last. -/
def Hw.dmaPick (h : Hw) (q engine : Nat) (can : Nat → Bool) : Option Nat :=
  let ready := (quadChannels q).filter can
  let lvl := ready.foldl (fun a n => min a (h.dmaPrio n)) 3
  let last := smGet 7 (2 * q + engine) h.dmaLast
  ((List.range 8).map fun i => 8 * q + (last + 1 + i) % 8).find? fun n => ready.contains n && h.dmaPrio n == lvl

/-- Notes which channel an engine has served. -/
def Hw.dmaServed (h : Hw) (n engine : Nat) : Hw := { h with dmaLast := smPut (2 * (n / 8) + engine) (n % 8) h.dmaLast }

def dmaAccessWritten (q : Fin 4) (h : Hw) : Hw :=
  let h := match h.dmaPick q.val 0 h.dmaCanRead with
    | some n => (h.dmaReadLine n).dmaServed n 0
    | none => h
  match h.dmaPick q.val 1 h.dmaCanWrite with
  | some n => (h.dmaWriteNext n).dmaServed n 1
  | none => h

/-- DMA_ACCESS_WRITTEN (R112 to R115, R119, R121, R123): in a quadrant the read engine reads one line and the write engine has one access
accepted, whose channel's registers advance; each picks the channel it serves. -/
def execDmaAccessWritten (q : Fin 4) (s : State) : Out := .next (s.onHw (dmaAccessWritten q))

/-! ### Ends of a run -/

/-- The walk level at which the channel's last byte was met (R90). -/
def Hw.dmaLevel (h : Hw) (n va : Nat) : Nat :=
  match h.leafOf (dmaMaster n) va with
  | .ok lf => lf.level
  | .error _ => 3

def dmaDone (n : Fin 32) (h : Hw) : Hw :=
  let n := n.val
  let c := h.ch n
  if h.dmaSt n ≠ dRUNNING ∨ h.dmaCount n ≠ 0 then h
  else match c.ports.find? fun q => !c.flushed.contains q with
    | none => h.dmaFinish n
    | some port =>
      if c.asking.isSome then h
      else if h.kennelUp port = false then h.dmaFault n fKennel (h.dmaLevel n (h.dmaDst n - 1)) (h.dmaDst n - 1) true
      else if h.tagFree port = false then h
      else (h.askHost port (.dmaFlush n c.run port) 0).setCh n { c with asking := some port }

/-- DMA_DONE (R116): after the last access; every port the copy has written by first has its zero-length read completed. -/
def execDmaDone (n : Fin 32) (s : State) : Out := .next (s.onHw (dmaDone n))

/-- The fault that a running channel's engines would meet next: its next line, for which it has room, or its next access, whose bytes have
arrived; with the level, the first faulting byte, and whether it is the destination's. -/
def Hw.dmaNextFault (h : Hw) (n : Nat) : Option (Nat × Nat × Nat × Bool) :=
  if h.dmaSt n ≠ dRUNNING then none
  else
    let source := match h.dmaWants n with
      | none => none
      | some va =>
        if !h.dmaRoom n then none
        else match h.dmaSpot n va with
          | .error (.fault c l a) => some (c, l, max a (h.dmaSrc n), false)
          | _ => none
    match source with
    | some x => some x
    | none =>
      match h.dmaReady n, h.dmaTarget n with
      | some _, .error (.fault c l va) => some (c, l, va, true)
      | _, _ => none

def dmaFaultStop (n : Fin 32) (h : Hw) : Hw :=
  match h.dmaNextFault n.val with
  | some (c, l, va, w) => h.dmaFault n.val c l va w
  | none => h

/-- DMA_FAULT_STOP (R120): an engine meets a fault for the channel; the registers stand at the stop point. -/
def execDmaFaultStop (n : Fin 32) (s : State) : Out := .next (s.onHw (dmaFaultStop n))

def dmaWaitMoveRelease (n : Fin 32) (h : Hw) : Hw :=
  let n := n.val
  let stopping := h.dmaSt n = dSTOPPING ∧ (h.ch n).stopAfter = true
  if (h.dmaSt n ≠ dWAIT_MOVE ∧ ¬ stopping) ∨ h.dmaMoving n = true then h
  else if stopping then
    match h.dmaReady n, h.dmaTarget n with
    | some ls, .ok k => let h := h.dmaPut n ls k; h.setCh n { h.ch n with stopAfter := false }
    | some _, .error (.fault c l va) => h.dmaFault n c l va true
    | _, _ => h
  else h.dmaSet n dRUNNING (h.dmaCode n)

/-- DMA_WAIT_MOVE_RELEASE (R121, R122): the flip releases the write; a channel stopped meanwhile finishes that write. -/
def execDmaWaitMoveRelease (n : Fin 32) (s : State) : Out := .next (s.onHw (dmaWaitMoveRelease n))

def dmaStopped (n : Fin 32) (h : Hw) : Hw :=
  let n := n.val
  if h.dmaSt n = dSTOPPING ∧ (h.ch n).stopAfter = false then (h.dmaDrop n).dmaSet n dIDLE (h.dmaCode n) else h

/-- DMA_STOPPED (R122): the buffer is discarded and the channel is IDLE at its stop point, with no record. -/
def execDmaStopped (n : Fin 32) (s : State) : Out := .next (s.onHw (dmaStopped n))

end Sys2Proof.Machine
end

