-- ==== Sys2Proof/Machine/Float.lean ====
section
/-! DEFINITION. The number formats (R159 to R161), exact values, the roundings and saturations of R164 and R165, FP32
arithmetic rounded to nearest even, the rotation of R169, stochastic draws (R166) and the BS4 quantiser (R172). -/

namespace Sys2Proof.Machine

/-- A value of any format: NaN, an infinity, or (−1)^neg × m × 2^e exactly (m = 0 keeps the sign of zero). -/
inductive FVal where
  | nan
  | inf (neg : Bool)
  | fin (neg : Bool) (m : Nat) (e : Int)
  deriving DecidableEq, Repr

/-- 2^n for an integer exponent that is not negative. -/
def pow2 (n : Int) : Nat := 2 ^ n.toNat

/-- The formats by their index in GLB.FORMATS (R159). -/
abbrev fmFP32 : Nat := 0
abbrev fmBF16 : Nat := 1
abbrev fmFP16 : Nat := 2
abbrev fmE4M3 : Nat := 3
abbrev fmE5M2 : Nat := 4
abbrev fmINT8 : Nat := 5
abbrev fmINT4 : Nat := 6
abbrev fmBS4 : Nat := 7

def isFloatFmt (f : Nat) : Bool := decide (f < 5)
def isIntFmt (f : Nat) : Bool := f == 5 || f == 6
/-- Bits of an element. -/
def fmtBits : Nat → Nat
  | 0 => 32 | 1 => 16 | 2 => 16 | 3 => 8 | 4 => 8 | 5 => 8 | _ => 4
/-- Exponent bits, mantissa bits and bias of a float format. -/
def fmtExp : Nat → Nat
  | 0 => 8 | 1 => 8 | 2 => 5 | 3 => 4 | _ => 5
def fmtMan : Nat → Nat
  | 0 => 23 | 1 => 7 | 2 => 10 | 3 => 3 | _ => 2
def fmtBias : Nat → Nat
  | 0 => 127 | 1 => 127 | 2 => 15 | 3 => 7 | _ => 15
/-- Code of the largest finite magnitude, of +∞ (none for FP8-E4M3) and of the canonical NaN (R159, R160). -/
def fmtMax : Nat → Nat
  | 0 => 0x7F7FFFFF | 1 => 0x7F7F | 2 => 0x7BFF | 3 => 0x7E | _ => 0x7B
def fmtInf : Nat → Option Nat
  | 0 => some 0x7F800000 | 1 => some 0x7F80 | 2 => some 0x7C00 | 3 => none | _ => some 0x7C
def fmtNan : Nat → Nat
  | 0 => 0x7FC00000 | 1 => 0x7FC0 | 2 => 0x7E00 | 3 => 0x7F | _ => 0x7E

/-- The magnitude a float code carries, as exact value. -/
def decodeFloat (f v : Nat) : FVal :=
  let w := fmtBits f
  let mb := fmtMan f
  let neg := bitOf v (w - 1)
  let mag := v % 2 ^ (w - 1)
  let ex := mag / 2 ^ mb
  let man := mag % 2 ^ mb
  match fmtInf f with
  | some i => if mag = i then .inf neg else if i < mag then .nan
      else if ex = 0 then .fin neg man (1 - (fmtBias f : Int) - mb) else .fin neg (man + 2 ^ mb) ((ex : Int) - fmtBias f - mb)
  | none => if mag = 0x7F then .nan
      else if ex = 0 then .fin neg man (1 - (fmtBias f : Int) - mb) else .fin neg (man + 2 ^ mb) ((ex : Int) - fmtBias f - mb)

/-- An integer as exact value. -/
def ofInt (z : Int) : FVal := .fin (decide (z < 0)) z.natAbs 0

/-- The value of an element code (R159); a BS4 element code is its 4-bit q. -/
def decode (f v : Nat) : FVal :=
  if isFloatFmt f then decodeFloat f v else ofInt (signedOf (fmtBits f) v)

/-- Scaling by 2^s, exactly (R162). -/
def FVal.scale (x : FVal) (s : Int) : FVal :=
  match x with
  | .fin n m e => .fin n m (e + s)
  | x => x

def FVal.negate : FVal → FVal
  | .nan => .nan | .inf n => .inf (!n) | .fin n m e => .fin (!n) m e

/-- Rounds m / 2^d to an integer: to nearest even, or up when `r` lies below the 16 bits after the point (R165). -/
def roundShift (m d : Nat) (r : Option Nat) : Nat :=
  let q := m / 2 ^ d
  let rem := m % 2 ^ d
  match r with
  | none => if 2 ^ d < 2 * rem ∨ (2 * rem = 2 ^ d ∧ q % 2 = 1 ∧ d ≠ 0) then q + 1 else q
  | some r => if r < rem * 65536 / 2 ^ d then q + 1 else q

/-- The code of the magnitude m × 2^e, m > 0, in a float format with no upper bound (R164, R165). -/
def roundMag (f m : Nat) (e : Int) (r : Option Nat) : Nat :=
  let mb := fmtMan f
  let minE : Int := 1 - fmtBias f
  let ulp := max ((Nat.log2 m : Int) + e) minE - mb
  let d := e - ulp
  let n := if 0 ≤ d then m * pow2 d else roundShift m (-d).toNat r
  (ulp + mb + fmtBias f).toNat * 2 ^ mb + n - 2 ^ mb

/-- What a conversion counts (R164, R172). -/
structure Tally where
  sat : Nat := 0
  nan : Nat := 0
  clamp : Nat := 0
  deriving DecidableEq, Repr

def Tally.add (a b : Tally) : Tally := ⟨a.sat + b.sat, a.nan + b.nan, a.clamp + b.clamp⟩

/-- Converts an exact value to a float format under R164: beyond the largest finite magnitude it saturates. -/
def toFloat (f : Nat) (x : FVal) (r : Option Nat := none) : Nat × Tally :=
  let sgn (n : Bool) := if n then 2 ^ (fmtBits f - 1) else 0
  match x with
  | .nan => (fmtNan f, {})
  | .inf n => match fmtInf f with
    | some i => (sgn n + i, {})
    | none => (sgn n + fmtMax f, { sat := 1 })
  | .fin n 0 _ => (sgn n, {})
  | .fin n m e =>
    let c := roundMag f m e r
    if fmtMax f < c then (sgn n + fmtMax f, { sat := 1 }) else (sgn n + c, {})

/-- Rounds an exact value to an integer, to nearest even or stochastically toward −∞ (R164, R165). -/
def roundInt (x : FVal) (r : Option Nat) : Int :=
  match x with
  | .fin n m e =>
    if 0 ≤ e then (if n then -((m * pow2 e : Nat) : Int) else (m * pow2 e : Nat))
    else
      let d := (-e).toNat
      match r with
      | none => let q := roundShift m d none; if n then -(q : Int) else q
      | some r =>
        let z : Int := if n then -(m : Int) else m
        let lo := z / (2 ^ d : Nat)
        let rem := (z % (2 ^ d : Nat)).toNat
        if r < rem * 65536 / 2 ^ d then lo + 1 else lo
  | _ => 0

/-- Converts to a two's complement integer of `w` bits under R164. -/
def toIntFmt (w : Nat) (x : FVal) (r : Option Nat := none) : Nat × Tally :=
  let hi : Int := (2 ^ (w - 1) : Nat) - 1
  let lo : Int := -(2 ^ (w - 1) : Nat)
  match x with
  | .nan => (0, { nan := 1 })
  | .inf n => (toSigned w (if n then lo else hi), { sat := 1 })
  | x =>
    let z := roundInt x r
    if z < lo then (toSigned w lo, { sat := 1 }) else if hi < z then (toSigned w hi, { sat := 1 }) else (toSigned w z, {})

/-- Converts to a format other than BS4 (R164). -/
def convertTo (f : Nat) (x : FVal) (r : Option Nat := none) : Nat × Tally :=
  if isFloatFmt f then toFloat f x r else toIntFmt (fmtBits f) x r

/-! ### FP32 arithmetic under IEEE 754, to nearest even -/

/-- Rounds an exact value to an FP32 code: overflow gives an infinity. -/
def f32 (x : FVal) : Nat :=
  match x with
  | .nan => 0x7FC00000
  | .inf n => if n then 0xFF800000 else 0x7F800000
  | .fin n 0 _ => if n then 0x80000000 else 0
  | .fin n m e => (if n then 0x80000000 else 0) + min (roundMag 0 m e none) 0x7F800000

/-- Exact sum. -/
def FVal.add (a b : FVal) : FVal :=
  match a, b with
  | .nan, _ => .nan
  | _, .nan => .nan
  | .inf n, .inf n' => if n = n' then .inf n else .nan
  | .inf n, _ => .inf n
  | _, .inf n => .inf n
  | .fin n m e, .fin n' m' e' =>
    let lo := min e e'
    let x : Int := (m * pow2 (e - lo) : Nat)
    let y : Int := (m' * pow2 (e' - lo) : Nat)
    let z := (if n then -x else x) + (if n' then -y else y)
    if z = 0 then .fin (n && n') 0 0 else .fin (decide (z < 0)) z.natAbs lo

/-- Exact product. -/
def FVal.mul (a b : FVal) : FVal :=
  match a, b with
  | .nan, _ => .nan
  | _, .nan => .nan
  | .inf n, .inf n' => .inf (n != n')
  | .inf n, .fin n' m _ => if m = 0 then .nan else .inf (n != n')
  | .fin n' m _, .inf n => if m = 0 then .nan else .inf (n != n')
  | .fin n m e, .fin n' m' e' => .fin (n != n') (m * m') (e + e')

/-- Quotient with enough bits to round once to FP32: 64 extra bits and a sticky bit. -/
def FVal.div (a b : FVal) : FVal :=
  match a, b with
  | .nan, _ => .nan
  | _, .nan => .nan
  | .inf _, .inf _ => .nan
  | .inf n, .fin n' _ _ => .inf (n != n')
  | .fin n _ _, .inf n' => .fin (n != n') 0 0
  | .fin n m e, .fin n' m' e' =>
    if m' = 0 then (if m = 0 then .nan else .inf (n != n'))
    else if m = 0 then .fin (n != n') 0 0
    else
      let k := Nat.log2 m' + 64
      let q := m * 2 ^ k / m'
      .fin (n != n') (2 * q + (if m * 2 ^ k % m' = 0 then 0 else 1)) (e - e' - k - 1)

/-- Integer square root by bits, from bit `i` down. -/
def isqrtBits (n : Nat) : Nat → Nat → Nat
  | 0, acc => acc
  | i + 1, acc => let t := acc + 2 ^ i; isqrtBits n i (if t * t ≤ n then t else acc)

def isqrt (n : Nat) : Nat := isqrtBits n (Nat.log2 n / 2 + 1) 0

/-- Square root with enough bits to round once to FP32. -/
def FVal.sqrt (a : FVal) : FVal :=
  match a with
  | .nan => .nan
  | .inf n => if n then .nan else .inf false
  | .fin n m e =>
    if m = 0 then .fin n 0 0
    else if n then .nan
    else
      let odd := e % 2 ≠ 0
      let m := if odd then 2 * m else m
      let e := if odd then e - 1 else e
      let x := m * 2 ^ 128
      let q := isqrt x
      .fin false (2 * q + (if q * q = x then 0 else 1)) (e / 2 - 64 - 1)

/-- FP32 operations on codes. -/
def fadd (a b : Nat) : Nat := f32 ((decodeFloat 0 a).add (decodeFloat 0 b))
def fsub (a b : Nat) : Nat := f32 ((decodeFloat 0 a).add (decodeFloat 0 b).negate)
def fmul (a b : Nat) : Nat := f32 ((decodeFloat 0 a).mul (decodeFloat 0 b))
def fdiv (a b : Nat) : Nat := f32 ((decodeFloat 0 a).div (decodeFloat 0 b))
def fsqrt (a : Nat) : Nat := f32 (decodeFloat 0 a).sqrt
/-- Multiplication by 2^s. -/
def fscale (a : Nat) (s : Int) : Nat := f32 ((decodeFloat 0 a).scale s)

/-- Whether an FP32 code is a NaN, or not finite. -/
def fIsNan (a : Nat) : Bool := decide (0x7F800000 < a % 0x80000000)
def fNonFinite (a : Nat) : Bool := decide (0x7F800000 ≤ a % 0x80000000)

/-- The order key of an FP32 code that is not NaN: −0 and +0 have one key. -/
def fKey (a : Nat) : Int := if 0x80000000 ≤ a then -((a - 0x80000000 : Nat) : Int) else a
/-- a < b for codes that are not NaN. -/
def flt (a b : Nat) : Bool := decide (fKey a < fKey b)

/-! ### Elements in memory (R138, R159) -/

/-- Bytes that `n` elements of a linear layout take (INT4 packs two to a byte). -/
def elemBytes (f n : Nat) : Nat := (fmtBits f * n + 7) / 8

/-- The code of element `i` of a linear layout. -/
def elemAt (f : Nat) (bs : Array Byte) (i : Nat) : Nat :=
  match fmtBits f with
  | 32 => (bs.getD (4 * i) 0).toNat + 256 * (bs.getD (4 * i + 1) 0).toNat + 65536 * (bs.getD (4 * i + 2) 0).toNat
            + 16777216 * (bs.getD (4 * i + 3) 0).toNat
  | 16 => (bs.getD (2 * i) 0).toNat + 256 * (bs.getD (2 * i + 1) 0).toNat
  | 8 => (bs.getD i 0).toNat
  | _ => (bs.getD (i / 2) 0).toNat / (if i % 2 = 0 then 1 else 16) % 16

/-- Packs codes of 4 bits, two to a byte. -/
def packNibbles : List Nat → List Byte
  | [] => []
  | [a] => [BitVec.ofNat 8 (a % 16)]
  | a :: b :: t => BitVec.ofNat 8 (a % 16 + 16 * (b % 16)) :: packNibbles t

/-- The bytes of codes in a linear layout. -/
def packElems (f : Nat) (cs : List Nat) : List Byte :=
  if fmtBits f = 4 then packNibbles cs else cs.flatMap (leBytes (fmtBits f / 8))

/-- Pads with zero bytes to a multiple of `k`. -/
def padTo (k : Nat) (bs : List Byte) : List Byte := bs ++ List.replicate ((k - bs.length % k) % k) 0

/-- The 5-bit exponent of block `b` (R138, R161). -/
def bs4Exp (ex : Array Byte) (b : Nat) : Nat :=
  ((ex.getD (5 * b / 8) 0).toNat + 256 * (ex.getD (5 * b / 8 + 1) 0).toNat) / 2 ^ (5 * b % 8) % 32

/-- Packs 5-bit exponents from bit 0 of the first byte. -/
def packExps (es : List Nat) : List Byte :=
  leBytes ((5 * es.length + 7) / 8) (es.foldr (fun e acc => e % 32 + 32 * acc) 0)

/-- Bytes of a BS4 vector of `n` elements (R161). -/
def bs4Bytes (n : Nat) : Nat := ((n + 1) / 2 + (5 * ((n + 31) / 32) + 7) / 8 + 15) / 16 * 16

/-- Element `i` of a BS4 vector of `n` elements with base `base`. -/
def bs4At (bs : Array Byte) (n : Nat) (base : Int) (i : Nat) : FVal :=
  let q := signedOf 4 (elemAt fmINT4 bs i)
  let e := bs4Exp (bs.extract ((n + 1) / 2) bs.size) (i / 32)
  (ofInt q).scale (e + base)

/-! ### Stochastic draws (R166) -/

/-- The 16-bit draw of element index `j`. -/
def srDraw (seed : DWord) (job layer op j : Nat) : Nat :=
  let z : DWord := seed ^^^ BitVec.ofNat 64 (job * 2 ^ 32 + layer * 2 ^ 16 + op)
  let z := z + 0x9E3779B97F4A7C15#64 * BitVec.ofNat 64 (j + 1)
  let z := (z ^^^ (z >>> 30)) * 0xBF58476D1CE4E5B9#64
  let z := (z ^^^ (z >>> 27)) * 0x94D049BB133111EB#64
  let z := z ^^^ (z >>> 31)
  z.toNat / 2 ^ 48

/-! ### Rotation (R169) -/

/-- One butterfly stage on a block of 64 FP32 codes. -/
def butterfly (k : Nat) (x : Array Nat) : Array Nat :=
  ((List.range 64).map fun i =>
    if i / 2 ^ k % 2 = 0 then fadd (x.getD i 0) (x.getD (i + 2 ^ k) 0)
    else fsub (x.getD (i - 2 ^ k) 0) (x.getD i 0)).toArray

/-- The rotated block of FP32 codes: six stages, then 2^−3 exactly. -/
def rotateBlock (x : List Nat) : List FVal :=
  (([0, 1, 2, 3, 4, 5].foldl (fun x k => butterfly k x) x.toArray).toList).map fun a => (decodeFloat 0 a).scale (-3)

/-- Rotates consecutive blocks of 64, `fuel` of them. -/
def rotateAll : Nat → List Nat → List FVal
  | 0, _ => []
  | fuel + 1, xs => rotateBlock (xs.take 64) ++ rotateAll fuel (xs.drop 64)

/-! ### BS4 quantiser (R172) -/

/-- The smallest x with m × 2^e ≤ 7 × 2^x, m > 0. -/
def bs4Need (m : Nat) (e : Int) : Int :=
  let x0 := e + Nat.log2 m - 3
  let fits (x : Int) : Bool :=
    let lo := min e x
    decide (m * pow2 (e - lo) ≤ 7 * pow2 (x - lo))
  match [x0, x0 + 1, x0 + 2].find? fits with
  | some x => x
  | none => x0 + 3

/-- The largest finite magnitude of a block: a comparison of exact values. -/
def maxMag (xs : List FVal) : Nat × Int :=
  xs.foldl (fun (m, e) x =>
    match x with
    | .fin _ m' e' => let lo := min e e'; if m * pow2 (e - lo) < m' * pow2 (e' - lo) then (m', e') else (m, e)
    | _ => (m, e)) (0, 0)

/-- Whether a value is an infinity or a NaN. -/
def FVal.nonFinite : FVal → Bool
  | .fin _ _ _ => false
  | _ => true

/-- x_b of a block, none for a block of zeros; R172 states none for a block that holds an infinity or a NaN: an open value
(log entry 28). -/
def blockNeed (xs : List FVal) : Option Int :=
  let (m, e) := maxMag xs
  if xs.any FVal.nonFinite then some (Config.openBlockShift m e) else if m = 0 then none else some (bs4Need m e)

/-- Splits a list into blocks of 32, `fuel` of them. -/
def blocks32 : Nat → List FVal → List (List FVal)
  | 0, _ => []
  | fuel + 1, xs => xs.take 32 :: blocks32 fuel (xs.drop 32)

/-- The base of a tile (R172). -/
def bs4Base (eRange : Nat) (bl : List (List FVal)) : Int :=
  match (bl.filterMap blockNeed).foldl (fun a x => match a with | none => some x | some y => some (max x y)) none with
  | none => 0
  | some x => max (-128) (min 127 (x - eRange))

/-- The codes and exponents of blocks under a base (R172), with what they count. `r` draws for element index. -/
def bs4Quant (base : Int) (r : Nat → Option Nat) (bl : List (List FVal)) : List Nat × List Nat × Tally :=
  let step (st : Nat × List Nat × List Nat × Tally) (b : List FVal) :=
    let (i, qs, es, t) := st
    let e : Int := match blockNeed b with
      | none => 0
      | some x => max 0 (min 31 (x - base))
    let clamped := match blockNeed b with
      | none => 0
      | some x => if x - base < 0 ∨ 31 < x - base then 1 else 0
    let out := b.foldl (fun (acc : Nat × List Nat × Tally) x =>
      let (c, u) := toIntFmt 4 (x.scale (-(e + base))) (r acc.1)
      (acc.1 + 1, c :: acc.2.1, acc.2.2.add u)) (i, [], {})
    (out.1, qs ++ out.2.1.reverse, es ++ [e.toNat], t.add (out.2.2.add { clamp := clamped }))
  let out := bl.foldl step (0, [], [], {})
  (out.2.1, out.2.2.1, out.2.2.2)

/-- The bytes of a BS4 vector of the values (R161, R172). -/
def bs4Vector (base : Int) (r : Nat → Option Nat) (xs : List FVal) : List Byte × Tally :=
  let (qs, es, t) := bs4Quant base r (blocks32 ((xs.length + 31) / 32) xs)
  (padTo 16 (packNibbles qs ++ packExps es), t)

end Sys2Proof.Machine
end

