-- ==== Sys2Proof/Machine/Exec.lean ====
section
/-! DEFINITION. How a unit runs a command: its operands (R52, R53, R144), what execution ends in (R60, R79, R89), and the two
drivers, for core units and for stage units. -/

namespace Sys2Proof.Machine

/-- Why execution does not finish. -/
inductive UnitErr where
  /-- rejected, or a terminal error (R60, R79): the code -/
  | reject (code : Nat)
  /-- a read met a fault, an uncorrectable line, or waits -/
  | rd (e : RdErr)
  /-- an operand is not there yet -/
  | notYet
  deriving DecidableEq, Repr

/-- What execution gives. -/
abbrev Ex (α : Type) := Except UnitErr α

/-- A read as a step of execution. -/
def exRead (h : Hw) (m : Master) (va n : Nat) : Ex (List Byte) :=
  match h.read m va n with
  | .ok bs => .ok bs
  | .error e => .error (.rd e)

/-- A number read as a step of execution. -/
def exNat (h : Hw) (m : Master) (va n : Nat) : Ex Nat := (exRead h m va n).map leNat

/-- Ends execution with a rejection unless the condition holds. -/
def exCheck (c : Bool) (code : Nat) : Ex Unit := if c then .ok () else .error (.reject code)

/-- What a finished command leaves: result slot, writes of its write-out, predicate effect, status code, counters of its page
to bump, ranges it read, and whether free values were drawn. -/
structure Done where
  result : List Byte := []
  writes : List (Nat × List Byte) := []
  predMask : DWord := 0
  predVal : DWord := 0
  code : Nat := 0
  counts : List (Nat × Nat) := []
  counts64 : List (Nat × Nat) := []
  hitchCounts : List (Nat × Nat) := []
  touched : List (Nat × Nat) := []
  drew : Bool := false
  signals : List (Nat × Nat × Nat) := []
  work : Work := .none
  spans : List (Nat × Nat) := []

/-- The issued, uncommitted command of a queue at distance `d` back from `c` (R52). -/
def Hw.backCmd (h : Hw) (id : QId) (c : Cmd) (d : Nat) : Option Cmd :=
  (h.qs id).cmds.find? fun x => x.ptr = c.ptr - BitVec.ofNat 32 d

/-- The granules of a landing area from `off` on, `fuel` of them, when all have arrived (R53). -/
def Hw.landedBytes (h : Hw) (core : Nat) : Nat → Nat → Option (List Byte)
  | 0, _ => some []
  | fuel + 1, off =>
    match h.landed.find? (fun l => decide (l.core = core ∧ l.off ≤ off ∧ off + 8 ≤ l.off + l.bytes.length)) with
    | none => none
    | some l => (h.landedBytes core fuel (off + 8)).map ((((l.bytes.drop (off - l.off)).take 8)) ++ ·)

/-- `n` bytes of a result from byte `o` on. -/
def cutResult (bs : List Byte) (o n : Nat) : List Byte := ((bs.drop o).take n) ++ List.replicate (n - (bs.length - o)) 0

/-- `n` bytes of a command's source from byte `o` on, in any form R52 allows there. A slot whose command has committed since this one
issued still gives its bytes (log entry 61). -/
def Hw.source (h : Hw) (id : QId) (c : Cmd) (o n : Nat) : Ex (List Byte) :=
  match addrForm (dSrc c.desc) with
  | .va a => exRead h (queueMaster id) (a + o) n
  | .slot d =>
    match h.backCmd id c d with
    | some p => if p.finished then .ok (cutResult p.result o n) else .error .notYet
    | none =>
      match c.operand with
      | some bs => .ok (cutResult bs o n)
      | none => .error (.reject cSLOT)
  | .landing off =>
    match id.eng with
    | .core k =>
      match h.landedBytes k.val ((dSrcLen c.desc + 7) / 8) off with
      | some bs => .ok ((bs.drop o).take n)
      | none => .error .notYet
    | .stage _ _ => .error (.reject cFORMAT)
  | _ => .error (.reject cFORMAT)

/-- The writes that deliver a result to dst (R53): none for the peer form, whose bytes land at the end of execution. -/
def dstWrites (d : BitVec 512) (bs : List Byte) : List (Nat × List Byte) :=
  match addrForm (dDst d) with
  | .va a => if bs = [] then [] else [(a, bs)]
  | _ => []

/-- The ranges a command names by address: what it is about to touch. -/
def srcTouch (d : BitVec 512) (n : Nat) : List (Nat × Nat) :=
  match addrForm (dSrc d) with
  | .va a => if n = 0 then [] else [(a, n)]
  | _ => []

/-- Replaces the command at pointer `p` of a queue. -/
def Hw.updCmd (h : Hw) (id : QId) (p : Word) (f : Cmd → Cmd) : Hw :=
  let q := h.qs id
  h.setQs id { q with cmds := q.cmds.map fun c => if c.ptr = p then f c else c }

/-- Sends `bs` to the landing area a peer-form destination names (R53). -/
def Hw.landTo (h : Hw) (d : BitVec 512) (bs : List Byte) : Hw :=
  match addrForm (dDst d) with
  | .peer core off => { h with landing := h.landing ++ [⟨core, off, bs, dGroup d, dStep d⟩] }
  | _ => h

/-- What finishing leaves in the state. -/
def Hw.finishCmd (h : Hw) (id : QId) (c : Cmd) (r : Done) : Hw :=
  let p := engPage id.eng
  let h := r.touched.foldl (fun h (va, n) => h.touch (queueMaster id) va n) h
  let h := r.counts.foldl (fun h (o, n) => h.count p o n) h
  let h := r.counts64.foldl (fun h (o, n) => h.count64 p o n) h
  let h := if r.drew then h.draw else h
  let h := h.updCmd id c.ptr fun c => { c with
    finished := true, code := r.code, result := r.result, writes := r.writes,
    predMask := r.predMask, predVal := r.predVal, hitchCounts := r.hitchCounts, signals := r.signals, work := r.work, spans := r.spans }
  h.landTo c.desc (r.result.take (dDstLen c.desc))

/-- What an execution that does not finish leaves: a rejection, a fault, poison, or nothing yet. -/
def Hw.failCmd (h : Hw) (id : QId) (c : Cmd) (e : UnitErr) : Hw :=
  match e with
  | .notYet => h
  | .reject code => h.reject id c.ptr code c.desc
  | .rd .wait => h
  | .rd (.ecc va n) => (h.touch (queueMaster id) va n).reject id c.ptr cECC c.desc
  | .rd (.fault cause level va) =>
    match id.eng with
    | .core _ => h.killFault id cause level va false c.desc
    | .stage _ _ => h.holdFault id c.ptr cause level va false c.desc

/-- Whether a command lies before the rejected command of its queue, if there is one: a rejected command executes no further, and
those after it are to be killed (R60). -/
def Hw.beforeReject (h : Hw) (id : QId) (c : Cmd) : Bool :=
  match (h.qs id).rejected with
  | none => true
  | some r => decide (ptrSub c.ptr.toNat (h.qCommit id) < ptrSub r.ptr.toNat (h.qCommit id))

/-- The issued commands of a queue that have opcode `op` and have not finished, oldest first; a queue in FAULT_HOLD executes nothing. -/
def Hw.running (h : Hw) (id : QId) (op : Nat) : List Cmd :=
  if (h.qs id).st = .faultHold then []
  else (h.qs id).cmds.filter fun c => !c.finished && !c.skipped && dOpcode c.desc == op && h.beforeReject id c

/-- Whether an execution waits, for an operand or for memory. -/
def exWaits : Ex Done → Bool
  | .error .notYet | .error (.rd .wait) => true
  | _ => false

/-- What comes of an execution. -/
def Hw.endExec (h : Hw) (id : QId) (c : Cmd) : Ex Done → Hw
  | .ok r => h.finishCmd id c r
  | .error e => h.failCmd id c e

/-- A core runs the oldest such command that does not wait: its units work on their own commands of any queue, each by itself. -/
def Hw.execCore (h : Hw) (id : QId) (op : Nat) (f : Hw → Cmd → Ex Done) : Hw :=
  match (h.running id op).find? fun c => !exWaits (f h c) with
  | none => h
  | some c => h.endExec id c (f h c)

/-- The first unfinished command of a stage queue, which executes its commands in order (R243, R261, R291). -/
def Hw.stageHead (h : Hw) (id : QId) (op : Nat) : Option Cmd :=
  if (h.qs id).st = .faultHold then none
  else match (h.qs id).cmds.find? (fun c => !c.finished && !c.skipped) with
    | some c => if dOpcode c.desc = op ∧ h.beforeReject id c = true then some c else none
    | none => none

/-- A stage unit runs the first unfinished command of a queue. -/
def Hw.execStage (h : Hw) (id : QId) (op : Nat) (f : Hw → Cmd → Ex Done) : Hw :=
  match h.stageHead id op with
  | none => h
  | some c => h.endExec id c (f h c)

/-- Whether the count rule of R54 makes a command effect-free: every count is zero. -/
def allZero (ns : List Nat) : Bool := ns.all (· == 0)

end Sys2Proof.Machine
end

