-- ==== Sys2Proof/Machine/Matrix.lean ====
section
/-! DEFINITION. The matrix arrays and the matrix-vector path (R127 to R158): tiles, accumulation, MATMUL, MATVEC, tree mode
and column bypass. -/

namespace Sys2Proof.Machine

/-! ### Tiles (R95, R96, R138, R139) -/

/-- Total bytes of a tile (R96). -/
def tileBytes (fmt : Nat) (sparse : Bool) : Nat :=
  match fmt, sparse with
  | 0, false => 16448 | 0, true => 8768
  | 1, false => 8256 | 1, true => 4672 | 2, false => 8256 | 2, true => 4672
  | 6, false => 2112 | 6, true => 1600
  | 7, false => 2192 | 7, true => 1648
  | _, false => 4160 | _, true => 2624

/-- A tile as read: its shift, valid rows, and its bytes. -/
structure Tile where
  shift : Int
  rows : Nat
  cols : Nat
  fmt : Nat
  sparse : Bool
  bytes : Array Byte

/-- Bytes of the stored elements of a tile. -/
def tileData (fmt : Nat) (sparse : Bool) : Nat := fmtBits fmt * (if sparse then 2048 else 4096) / 8

/-- Position `i` of a sparse tile's metadata (R139). -/
def tileOffset (t : Tile) (i : Nat) : Nat :=
  let base := 64 + tileData t.fmt true + (if t.fmt = fmBS4 then 40 else 0)
  (t.bytes.getD (base + i / 4) 0).toNat / 4 ^ (i % 4) % 4

/-- The stored element at stored row `s` and column `c`, without tile_shift: q × 2^e for BS4. -/
def tileStored (t : Tile) (s c : Nat) : FVal :=
  let i := 64 * s + c
  let x := elemAt (if t.fmt = fmBS4 then fmINT4 else t.fmt) (t.bytes.extract 64 t.bytes.size) i
  if t.fmt = fmBS4 then
    let ex := t.bytes.extract (64 + tileData t.fmt t.sparse) t.bytes.size
    (ofInt (signedOf 4 x)).scale (bs4Exp ex (2 * s + c / 32))
  else decode t.fmt x

/-- The K row a stored row stands for in column `c`. -/
def tileRow (t : Tile) (s c : Nat) : Nat := if t.sparse then 4 * (s / 2) + tileOffset t (64 * s + c) else s

/-- The weight a stored row contributes: rows and columns at or beyond the header's are zero (R138). -/
def tileWeight (t : Tile) (s c : Nat) : FVal :=
  if t.rows ≤ tileRow t s c ∨ t.cols ≤ c then .fin false 0 0 else tileStored t s c

/-- Stored rows of a tile. -/
def tileStoredRows (t : Tile) : Nat := if t.sparse then 32 else 64

/-- Checks a tile against its command (R96, R139, R148): format, sparsity, version, size, columns and metadata. -/
def tileCheck (fmt : Nat) (sparse : Bool) (cols : Nat) (bs : Array Byte) : Ex Tile :=
  let w0 := leNat (bs.extract 0 4).toList
  let w1 := leNat (bs.extract 4 8).toList
  let t : Tile := { shift := signedOf 8 (bitsOf w1 7 0), rows := bitsOf w0 14 8, cols := bitsOf w0 22 16, fmt := fmt,
                    sparse := sparse, bytes := bs }
  let okHead := bitsOf w0 2 0 == fmt && bitOf w0 3 == sparse && bitsOf w1 15 8 == 1
    && bitsOf w1 31 16 * 16 == tileBytes fmt sparse && t.cols == cols && decide (1 ≤ t.rows ∧ t.rows ≤ 64)
    && bitsOf w0 7 4 == 0 && !bitOf w0 15 && bitsOf w0 31 23 == 0 && (bs.extract 8 64).all (· == 0)
  let okMeta := !sparse || (t.rows == 64 && (List.range 16).all fun g => (List.range 64).all fun c =>
    decide (tileOffset t (64 * (2 * g) + c) < tileOffset t (64 * (2 * g + 1) + c)))
  if okHead && okMeta then .ok t else .error (.reject cFORMAT)

/-- Where tile (kt, nt) of a grid starts (R147). -/
def tileVa (va fmt : Nat) (sparse : Bool) (kTiles kt nt : Nat) : Nat := va + (nt * kTiles + kt) * tileBytes fmt sparse
/-- The columns that a tile of grid column nt must have (R148). -/
def tileWidth (nTiles tileCols nOut nt : Nat) : Nat := if nt + 1 = nTiles then nOut - (nTiles - 1) * tileCols else tileCols

/-- Reads and checks tile (kt, nt) of a grid (R147, R148). -/
def readTile (h : Hw) (m : Master) (va fmt : Nat) (sparse : Bool) (kTiles nTiles tileCols nOut kt nt : Nat) : Ex Tile := do
  let bs ← exRead h m (tileVa va fmt sparse kTiles kt nt) (tileBytes fmt sparse)
  tileCheck fmt sparse (tileWidth nTiles tileCols nOut nt) bs.toArray

/-- The ranges of a tile that are read when only the stored rows `rows` are wanted, as offset and length: the header, those rows, and the
exponents or metadata after the elements (R151). -/
def tileRanges (fmt : Nat) (sparse : Bool) (rows : List Nat) : List (Nat × Nat) :=
  let w := fmtBits fmt * 8
  let tail := 64 + tileData fmt sparse
  ((0, 64) :: rows.map fun s => (64 + s * w, w)) ++ (if tail < tileBytes fmt sparse then [(tail, tileBytes fmt sparse - tail)] else [])

/-- Reads the ranges of a tile; what is not read stands as zero bytes, and nothing uses it. -/
def readParts (h : Hw) (m : Master) (va : Nat) : Nat → List (Nat × Nat) → Ex (List Byte)
  | _, [] => .ok []
  | at_, (o, n) :: t => do
    let bs ← exRead h m (va + o) n
    let rest ← readParts h m va (o + n) t
    .ok (List.replicate (o - at_) 0 ++ bs ++ rest)

/-- Reads the stored rows `rows` of a tile and checks it. -/
def readTileRows (h : Hw) (m : Master) (va fmt : Nat) (sparse : Bool) (cols : Nat) (rows : List Nat) : Ex Tile := do
  let bs ← readParts h m va 0 (tileRanges fmt sparse rows)
  tileCheck fmt sparse cols bs.toArray

/-! ### Accumulation (R133, R134) -/

/-- A saturating INT32 addition and whether it saturated (R133). -/
def addSat (a b : Int) : Int × Nat :=
  let z := a + b
  if 2147483647 < z then (2147483647, 1) else if z < -2147483648 then (-2147483648, 1) else (z, 0)

/-- Sums integers in order from zero. -/
def sumInt (xs : List Int) : Int × Nat := xs.foldl (fun (a, n) x => let (z, s) := addSat a x; (z, n + s)) (0, 0)

/-- Sums FP32 codes in order from +0. -/
def sumFloat (xs : List Nat) : Nat := xs.foldl fadd 0

/-- One level of a pairwise tree. -/
def pairUp {α : Type} (f : α → α → α) : List α → List α
  | a :: b :: t => f a b :: pairUp f t
  | l => l

/-- A pairwise tree of at most `fuel` levels. -/
def treeSum {α : Type} (f : α → α → α) (z : α) : Nat → List α → α
  | 0, l => l.headD z
  | fuel + 1, l => if l.length ≤ 1 then l.headD z else treeSum f z fuel (pairUp f l)

/-- The exact integer of a value that is one. -/
def intOf (x : FVal) : Int := roundInt x none

/-- Splits a list into runs of `n`, `fuel` of them. -/
def runsOf {α : Type} (n : Nat) : Nat → List α → List (List α)
  | 0, _ => []
  | fuel + 1, xs => if xs.isEmpty then [] else xs.take n :: runsOf n fuel (xs.drop n)

/-- The products of one pass member by member, `per` to a member; a member without tiles has none (R130, R147). -/
def memberRuns {α : Type} (members per : Nat) (ps : List α) : List (List α) :=
  (List.range members).map fun i => (ps.drop (i * per)).take per

/-- The products that the 64 cells of a column of one member take in turn (log entry 63). -/
def cellRuns {α : Type} (mp : List α) : List (List α) :=
  (List.range 64).map fun i => (List.range ((mp.length + 63) / 64)).filterMap fun t => mp[64 * t + i]?

/-- The column sum of one pass of integer products: down the column, or through the tree of each member and then over the members
(R133, R142). -/
def passInt (tree : Bool) (members per : Nat) (ps : List Int) : Int × Nat :=
  if !tree then sumInt ps
  else
    let addp (a b : Int × Nat) : Int × Nat := let (z, s) := addSat a.1 b.1; (z, a.2 + b.2 + s)
    treeSum addp (0, 0) 2 ((memberRuns members per ps).map fun mp => treeSum addp (0, 0) 6 ((cellRuns mp).map sumInt))

/-- The same for FP32 products (R134, R142). -/
def passFloat (tree : Bool) (members per : Nat) (ps : List Nat) : Nat :=
  if !tree then sumFloat ps
  else treeSum fadd 0 2 ((memberRuns members per ps).map fun mp => treeSum fadd 0 6 ((cellRuns mp).map sumFloat))

/-- The two BF16 parts of an FP32 operand (R135). -/
def splitHi (x : Nat) : Nat := (toFloat fmBF16 (decodeFloat 0 x)).1 * 65536
def splitLo (x : Nat) : Nat := (toFloat fmBF16 ((decodeFloat 0 x).add (decodeFloat 0 (splitHi x)).negate)).1 * 65536

/-! ### Output (R136, R176, R177) -/

/-- Converts an accumulator to an output element: `entry` is the rescale entry, `t0` the shifts of an INT32 accumulator. -/
def outElem (dstFmt : Nat) (isInt : Bool) (rescale : Bool) (entry : Nat) (t0 : Int) (accI : Int) (accF : Nat) : Nat × Tally :=
  if !rescale then convertTo dstFmt (decodeFloat 0 accF)
  else
    let mult := bitsOf entry 15 0
    let shift := signedOf 8 (bitsOf entry 23 16)
    let x := if isInt then ofInt accI else decodeFloat 0 accF
    let t := if isInt then shift + t0 else shift
    if mult = 0 then
      match x with
      | .nan => convertTo dstFmt .nan
      | _ => convertTo dstFmt (.fin false 0 0)
    else convertTo dstFmt ((x.mul (.fin false mult 0)).scale (t - 15))

/-! ### MATMUL (R145 to R148) -/

/-- Whether an operand pair is one of R132, and whether it accumulates in INT32. -/
def arrayPair (w a : Nat) : Option Bool :=
  if (w = fmINT8 ∨ w = fmINT4 ∨ w = fmBS4) ∧ a = fmINT8 then some true
  else if (w = fmINT4 ∨ w = fmBS4) ∧ a = fmINT4 then some true
  else if (w = fmE4M3 ∨ w = fmE5M2) ∧ (a = fmE4M3 ∨ a = fmE5M2) then some false
  else if w = a ∧ (w = fmBF16 ∨ w = fmFP16 ∨ w = fmFP32) then some false
  else none

/-- Whether a source format may be converted in the feeders (R132). -/
def feederConv (src act : Nat) : Bool :=
  decide (src < 3) && (act == fmE4M3 || act == fmE5M2 || act == fmINT8 || act == fmINT4)

/-- Fields of the MATMUL words (R145). -/
structure MatmulOp where
  src : Nat
  act : Nat
  wgt : Nat
  dst : Nat
  shape : Nat
  array : Nat
  sparse : Bool
  rescale : Bool
  rotate : Bool
  tileCols : Nat
  m : Nat
  kTiles : Nat
  nOut : Nat
  va : Nat
  rescaleIndex : Nat
  scaleIndex : Nat

def matmulOp (d : BitVec 512) : MatmulOp :=
  let a := dword d 0
  { src := bitsOf a 2 0, act := bitsOf a 5 3, wgt := bitsOf a 8 6, dst := bitsOf a 11 9, shape := bitsOf a 13 12,
    array := bitsOf a 15 14, sparse := bitOf a 16, rescale := bitOf a 17, rotate := bitOf a 18, tileCols := bitsOf a 25 19,
    m := dword d 1, kTiles := bitsOf (dword d 2) 15 0, nOut := bitsOf (dword d 2) 31 16,
    va := dword d 3 + dword d 4 * 0x100000000, rescaleIndex := bitsOf (dword d 5) 15 0, scaleIndex := bitsOf (dword d 5) 31 16 }

/-- Whether the feeders convert. -/
def MatmulOp.conv (o : MatmulOp) : Bool := o.src != o.act
def MatmulOp.nTiles (o : MatmulOp) : Nat := (o.nOut + o.tileCols - 1) / o.tileCols
/-- Arrays a command names, as a mask. -/
def MatmulOp.members (o : MatmulOp) : Nat := if o.shape = 0 then 2 ^ o.array else 15
/-- K tiles per pass (R130) times the format factor (R132). -/
def MatmulOp.passTiles (o : MatmulOp) : Nat :=
  let k := match o.shape with | 1 => 2 | 3 => 4 | _ => 1
  let f := (if o.act = fmINT4 then 2 else 1) * (if o.sparse then 2 else 1)
  k * f
/-- Members in the partial-sum chain. -/
def MatmulOp.chain (o : MatmulOp) : Nat := match o.shape with | 1 => 2 | 3 => 4 | _ => 1

/-- Passes of a command (R147): groups of grid columns by groups of grid rows. -/
def MatmulOp.passes (o : MatmulOp) : Nat :=
  let n := match o.shape with | 1 => 2 | 2 => 4 | _ => 1
  ((o.nTiles + n - 1) / n) * ((o.kTiles + o.passTiles - 1) / o.passTiles)
/-- Cycles that streaming the rows of A through one pass takes (R132, R142). -/
def MatmulOp.streamCycles (o : MatmulOp) (tree : Bool) : Nat :=
  let row := if o.wgt = fmFP32 then 6 else if o.wgt = fmBF16 ∨ o.wgt = fmFP16 then 2 else 1
  o.m * row * (if tree then 4 else 1)
/-- Of the first `t` cycles of a command, those in which its arrays wait for a weight load (R129): the whole of the first load, and of
each further one what the streaming before it does not cover, which for FP32 weights is all of it. -/
def MatmulOp.loadStalls (o : MatmulOp) (tree : Bool) (t : Nat) : Nat :=
  let load := if o.wgt = fmFP32 then 128 else 64
  let stream := o.streamCycles tree
  let gap := if o.wgt = fmFP32 then load else load - stream
  let u := t - load
  let more := o.passes - 1
  if stream + gap = 0 ∨ more ≤ u / (stream + gap) then min t load + more * gap
  else min t load + u / (stream + gap) * gap + (u % (stream + gap) - stream)

/-- Width of array `a`, and of the gang (R155). -/
def Hw.arrWidth (h : Hw) (n a : Nat) : Nat := bitsOf (h.rd (corePage n) 0x300) (8 * a + 6) (8 * a)
def Hw.gangWidth (h : Hw) (n : Nat) : Nat := bitsOf (h.rd (corePage n) 0x304) 6 0

/-- The largest result slot of a core, in bytes (R144). -/
def Hw.slotLimit (h : Hw) : Nat := (bitsOf (h.rd 0x000 0x070) 31 16 - 512) * 1024

/-- Checks 3 and 6 of R59 for MATMUL (R146): formats, then lengths. `ctx` is the queue's loaded context. -/
def matmulFormat (h : Hw) (n : Nat) (d : BitVec 512) : Bool :=
  let o := matmulOp d
  (arrayPair o.wgt o.act).isSome && (!o.conv || feederConv o.src o.act) && (!o.rotate || o.conv)
    && o.dst != fmBS4 && !(o.dst == fmINT4 && o.nOut % 2 == 1) && !(o.sparse && o.wgt == fmFP32)
    && (if o.shape = 0 then h.arrWidth n o.array != 0 else h.gangWidth n != 0 && o.array == 0)
    && decide (1 ≤ o.tileCols ∧ o.tileCols ≤ if o.shape = 0 then h.arrWidth n o.array else h.gangWidth n)
    && (o.rescale || (arrayPair o.wgt o.act) != some true)
    && bitsOf (dword d 0) 31 26 == 0 && bitsOf (dword d 3) 3 0 == 0 && bitsOf (dword d 4) 31 20 == 0

def matmulLength (h : Hw) (ctx : List Byte) (d : BitVec 512) : Bool :=
  let o := matmulOp d
  decide (elemBytes o.src (o.m * o.kTiles * 64) ≤ dSrcLen d) && decide (elemBytes o.dst (o.m * o.nOut) ≤ dDstLen d)
    && decide (o.m * o.nOut * 4 ≤ h.slotLimit)
    && (!o.rescale || decide (o.rescaleIndex + o.nOut ≤ ctxRescaleEntries ctx))
    && (!o.conv || decide (o.scaleIndex < ctxScaleEntries ctx))
    && decide (o.va + o.kTiles * o.nTiles * tileBytes o.wgt o.sparse ≤ 2 ^ 52)

/-- The entry of the rescale table for column `c`, zero where none is asked for. -/
def rescaleEntry (h : Hw) (m : Master) (ctx : List Byte) (on : Bool) (index c : Nat) : Ex Nat :=
  if on then exNat h m (ctxRescaleTable ctx + 4 * (index + c)) 4 else .ok 0

/-- One activation row in the array's format, as values (R168): decoded to FP32, rotated, scaled and quantised. -/
def feedRow (o : MatmulOp) (sA : Int) (row : Array Byte) : List FVal × Tally :=
  let n := o.kTiles * 64
  let xs := (List.range n).map fun i => elemAt o.src row i
  if !o.conv then (xs.map (decode o.src), {})
  else
    let f := xs.map (decode o.src)
    let f := if o.rotate then rotateAll o.kTiles (f.map f32) else f
    let cs := f.map fun x => convertTo o.act (x.scale (-sA))
    (cs.map fun c => decode o.act c.1, cs.foldl (fun t c => t.add c.2) {})

/-- The products of stored row `s` of a tile with activations `x` (64 of them) in column `c`. -/
def tileProduct (t : Tile) (x : Array FVal) (c s : Nat) : FVal :=
  (tileWeight t s c).mul (x.getD (tileRow t s c) (.fin false 0 0))

/-- The sums of one output column over the grid rows, pass of `tilesPer` tiles by pass (R134, R135, R147): integer sum, FP32 sum,
saturations. Every exact product is scaled and then rounded once (R175). -/
def columnSum (isInt tree : Bool) (fp32 : Bool) (chain tilesPer : Nat) (sA : Int) (tiles : List (Tile × Array FVal)) (c : Nat) : Int × Nat × Nat :=
  let per := tilesPer / chain * (((tiles.head?.map fun x => tileStoredRows x.1)).getD 64)
  (runsOf tilesPer tiles.length tiles).foldl (fun (ai, af, sat) pass =>
    let each (f : Tile → Array FVal → Nat → FVal) : List FVal :=
      pass.flatMap fun (t, x) => (List.range (tileStoredRows t)).map fun s => f t x s
    if isInt then
      let (z, n) := passInt tree chain per ((each fun t x s => tileProduct t x c s).map intOf)
      let (a, k) := addSat ai z
      (a, af, sat + n + k)
    else if fp32 then
      let part (f g : Nat → Nat) : Nat := passFloat tree chain per ((each fun t x s =>
        let w := f32 (tileWeight t s c)
        let a := f32 (x.getD (tileRow t s c) (.fin false 0 0))
        ((decodeFloat 0 (g w)).mul (decodeFloat 0 (f a))).scale t.shift).map f32)
      (ai, fadd (fadd (fadd af (part splitHi splitHi)) (part splitLo splitHi)) (part splitHi splitLo), sat)
    else
      let p := passFloat tree chain per ((each fun t x s => (tileProduct t x c s).scale (t.shift + sA)).map f32)
      (ai, fadd af p, sat)) (0, 0, 0)

/-- Whether the tiles of one column of the grid have one tile_shift (R134). -/
def sameShift (ts : List Tile) : Bool := ts.all fun (t : Tile) => t.shift == (ts.headD t).shift

/-- Execution of MATMUL. -/
def matmulRun (h : Hw) (id : QId) (c : Cmd) : Ex Done := do
  let d := c.desc
  let o := matmulOp d
  if o.m = 0 ∨ o.kTiles = 0 ∨ o.nOut = 0 then .ok {}
  else
    let m := queueMaster id
    let isInt := (arrayPair o.wgt o.act) == some true
    let sA : Int ← if o.conv then (exNat h m (ctxScaleTable c.ctx + o.scaleIndex) 1).map (signedOf 8) else .ok 0
    let srcN := elemBytes o.src (o.m * o.kTiles * 64)
    let bytes ← h.source id c 0 srcN
    let rowBytes := elemBytes o.src (o.kTiles * 64)
    let rows := (List.range o.m).map fun r => feedRow o sA ((bytes.drop (r * rowBytes)).take rowBytes).toArray
    let cols ← (List.range o.nTiles).mapM fun nt =>
      (List.range o.kTiles).mapM fun kt => readTile h m o.va o.wgt o.sparse o.kTiles o.nTiles o.tileCols o.nOut kt nt
    let entries ← (List.range o.nOut).mapM fun j => rescaleEntry h m c.ctx o.rescale o.rescaleIndex j
    exCheck (!isInt || cols.all sameShift) cFORMAT
    let outs : List (List ((Nat × Tally) × Nat) × Tally) := rows.map fun (xs, t) =>
      let xa := (runsOf 64 o.kTiles xs).map List.toArray
      let es := (List.range o.nOut).map fun j =>
        let ts := cols.getD (j / o.tileCols) []
        let t0 := (ts.head?.map (·.shift)).getD 0
        let (ai, af, sat) := columnSum isInt c.tree (o.wgt == fmFP32) o.chain o.passTiles sA (ts.zip xa) (j % o.tileCols)
        (outElem o.dst isInt o.rescale (entries.getD j 0) (t0 + sA) ai af, sat)
      (es, t)
    let codes := outs.flatMap fun (es, _) => es.map fun e => e.1.1
    let tally := outs.foldl (fun a (es, t) => es.foldl (fun a e => a.add e.1.2) (a.add t)) ({} : Tally)
    let sats := (outs.map fun (es, _) => (es.map (·.2)).sum).sum
    let res := packElems o.dst codes
    .ok { result := res, writes := dstWrites d res
          counts := [(0x338, sats), (0x408, tally.sat), (0x40C, tally.nan)]
          touched := srcTouch d srcN ++ [(o.va, o.kTiles * o.nTiles * tileBytes o.wgt o.sparse)] }

/-- MATMUL (R145). -/
def execMatmul (n : Fin 48) (q : Fin 8) (s : State) : Out :=
  .next (s.onHw fun h => h.execCore ⟨.core n, q.val⟩ 0x10 (fun h c => matmulRun h ⟨.core n, q.val⟩ c))

/-! ### MATVEC (R149 to R154) -/

structure MatvecOp where
  vec : Nat
  wgt : Nat
  dst : Nat
  sparse : Bool
  zeroSkip : Bool
  rescale : Bool
  kTiles : Nat
  nOut : Nat
  rescaleIndex : Nat
  va : Nat

def matvecOp (d : BitVec 512) : MatvecOp :=
  let a := dword d 0
  { vec := bitsOf a 2 0, wgt := bitsOf a 5 3, dst := bitsOf a 8 6, sparse := bitOf a 9, zeroSkip := bitOf a 10,
    rescale := bitOf a 11, kTiles := bitsOf (dword d 1) 15 0, nOut := bitsOf (dword d 1) 31 16,
    rescaleIndex := bitsOf (dword d 2) 15 0, va := dword d 3 + dword d 4 * 0x100000000 }

def MatvecOp.nTiles (o : MatvecOp) : Nat := (o.nOut + 63) / 64

/-- The operand pairs of R150: whether the accumulator is INT32. -/
def vecPair (w v : Nat) : Option Bool :=
  if (w = fmINT4 ∨ w = fmBS4 ∨ w = fmINT8) ∧ v = fmINT8 then some true
  else if (w = fmINT4 ∨ w = fmBS4 ∨ w = fmE4M3 ∨ w = fmE5M2 ∨ w = fmBF16) ∧ v = fmBF16 then some false
  else none

/-- Rows per cycle (R150). -/
def vecRows (w : Nat) : Nat := match fmtBits w with | 4 => 32 | 8 => 16 | _ => 8

def matvecFormat (d : BitVec 512) : Bool :=
  let o := matvecOp d
  (vecPair o.wgt o.vec).isSome && o.dst != fmBS4 && !(o.dst == fmINT4 && o.nOut % 2 == 1)
    && (o.rescale || (vecPair o.wgt o.vec) != some true)
    && bitsOf (dword d 0) 31 12 == 0 && bitsOf (dword d 2) 31 16 == 0 && bitsOf (dword d 3) 3 0 == 0
    && bitsOf (dword d 4) 31 20 == 0 && dword d 5 == 0

def matvecLength (h : Hw) (ctx : List Byte) (d : BitVec 512) : Bool :=
  let o := matvecOp d
  decide (elemBytes o.vec (o.kTiles * 64) ≤ dSrcLen d) && decide (elemBytes o.dst o.nOut ≤ dDstLen d)
    && decide (o.nOut * 4 ≤ h.slotLimit) && (!o.rescale || decide (o.rescaleIndex + o.nOut ≤ ctxRescaleEntries ctx))
    && decide (o.va + o.kTiles * o.nTiles * tileBytes o.wgt o.sparse ≤ 2 ^ 52)

/-- Whether a vector element counts as zero (R151). -/
def isZeroVal : FVal → Bool
  | .fin _ m _ => m == 0
  | _ => false

/-- The stored rows of a tile that the path reads against the 64 activations `x` (R151). -/
def vecStored (skip sparse : Bool) (x : Array FVal) : List Nat :=
  (List.range (if sparse then 32 else 64)).filter fun s =>
    !skip || (if sparse then (List.range 4).any fun i => !isZeroVal (x.getD (4 * (s / 2) + i) (.fin false 0 0))
              else !isZeroVal (x.getD s (.fin false 0 0)))

def matvecRun (h : Hw) (id : QId) (c : Cmd) : Ex Done := do
  let d := c.desc
  let o := matvecOp d
  if o.kTiles = 0 ∨ o.nOut = 0 then .ok {}
  else
    let m := queueMaster id
    let isInt := (vecPair o.wgt o.vec) == some true
    let srcN := elemBytes o.vec (o.kTiles * 64)
    let bytes := (← h.source id c 0 srcN).toArray
    let xs := (List.range (o.kTiles * 64)).map fun i => decode o.vec (elemAt o.vec bytes i)
    let xa := (runsOf 64 o.kTiles xs).map List.toArray
    let kept (kt : Nat) : List Nat := vecStored o.zeroSkip o.sparse (xa.getD kt #[])
    let cols ← (List.range o.nTiles).mapM fun nt =>
      (List.range o.kTiles).mapM fun kt => readTileRows h m (tileVa o.va o.wgt o.sparse o.kTiles kt nt) o.wgt o.sparse
        (tileWidth o.nTiles 64 o.nOut nt) (kept kt)
    let entries ← (List.range o.nOut).mapM fun j => rescaleEntry h m c.ctx o.rescale o.rescaleIndex j
    exCheck (!isInt || cols.all sameShift) cFORMAT
    let read := cols.map fun ts => (ts.zip xa).map fun (t, x) => (t, x, vecStored o.zeroSkip o.sparse x)
    let outs : List ((Nat × Tally) × Nat) := (List.range o.nOut).map fun j =>
      let col := read.getD (j / 64) []
      let t0 : Int := (col.head?.map fun (p : Tile × Array FVal × List Nat) => p.1.shift).getD 0
      let ps := col.flatMap fun (t, x, ss) => ss.map fun s => (tileProduct t x (j % 64) s, t.shift)
      let cycles := runsOf (vecRows o.wgt) ps.length ps
      if isInt then
        let addp (a b : Int × Nat) : Int × Nat := let (z, k) := addSat a.1 b.1; (z, a.2 + b.2 + k)
        let (ai, sat) := cycles.foldl (fun acc cy => addp acc (treeSum addp (0, 0) 5 (cy.map fun p => (intOf p.1, 0)))) (0, 0)
        (outElem o.dst true o.rescale (entries.getD j 0) t0 ai 0, sat)
      else
        let af := cycles.foldl (fun acc cy => fadd acc (treeSum fadd 0 5 (cy.map fun p => f32 (p.1.scale p.2)))) 0
        (outElem o.dst false o.rescale (entries.getD j 0) 0 0 af, 0)
    let skipped := (read.map fun col => (col.map fun (t, _, ss) => tileStoredRows t - ss.length).sum).sum
    let bytesRead := (read.map fun col => (col.map fun (t, _, ss) =>
      tileBytes t.fmt t.sparse - (tileStoredRows t - ss.length) * (fmtBits t.fmt * 8)).sum).sum
    let tally := outs.foldl (fun a e => a.add e.1.2) ({} : Tally)
    let res := packElems o.dst (outs.map fun e => e.1.1)
    .ok { result := res, writes := dstWrites d res
          counts := [(0x348, (outs.map (·.2)).sum), (0x34C, skipped), (0x408, tally.sat), (0x40C, tally.nan)]
          counts64 := [(0x350, bytesRead)]
          touched := srcTouch d srcN ++ (List.range o.nTiles).flatMap fun nt => (List.range o.kTiles).flatMap fun kt =>
            (tileRanges o.wgt o.sparse (kept kt)).map fun x => (tileVa o.va o.wgt o.sparse o.kTiles kt nt + x.1, x.2) }

/-- MATVEC (R153). -/
def execMatvec (n : Fin 48) (q : Fin 8) (s : State) : Out :=
  .next (s.onHw fun h => h.execCore ⟨.core n, q.val⟩ 0x40 (fun h c => matvecRun h ⟨.core n, q.val⟩ c))

/-! ### Tree mode and bypass (R142, R155, R156) -/

def treeModeWrite (r : Req) (n : Fin 48) (v : Word) (h : Hw) : Hw :=
  h.guardWrite r (corePage n.val) 0x308 v.toNat fun h => h.wr (corePage n.val) 0x308 (v.toNat % 2)

/-- TREE_MODE_WRITE (R142): the value is stored, and each array's next command uses it. -/
def execTreeModeWrite (r : Req) (n : Fin 48) (v : Word) (s : State) : Out := .next (s.onHw (treeModeWrite r n v))

/-- Bits set in a 32-bit number. -/
def popcount (v : Nat) : Nat := ((List.range 32).filter fun i => v.testBit i).length

/-- ARR_WIDTH and ARR_GANG from the bypass maps (R155). -/
def Hw.arrFollow (h : Hw) (n : Nat) : Hw :=
  let p := corePage n
  let width (a : Nat) : Nat :=
    let b := popcount (h.rd p (0x318 + 8 * a)) + popcount (h.rd p (0x31C + 8 * a))
    if h.bit p 0x310 a || decide (8 < b) then 0 else 64 - b
  let ws := (List.range 4).map width
  let h := h.wr p 0x300 (ws.foldr (fun w acc => w + 256 * acc) 0)
  h.wr p 0x304 (ws.foldl min 64)

/-- Whether no unit of a core's arrays is busy and its queues all read DISABLED (R156). -/
def Hw.coreQuiet (h : Hw) (n : Nat) : Bool :=
  (List.range 8).all fun q => let s := h.qs ⟨coreEng n, q⟩; s.st == .disabled && s.cmds.isEmpty

/-- A write of ARR_OFF, or of the HI half of a bypass map with the LO half it is given (R156): the Handler's, while the core
is quiet. -/
def Hw.arrayRepair (h : Hw) (r : Req) (n o v : Nat) (lo : Option Nat) : Hw :=
  let p := corePage n
  h.guardWrite r p o v fun h =>
    if r ≠ .handler ∨ !h.coreQuiet n then h.badAccess (pageOff p o)
    else
      let h := match lo with
        | some l => h.wr p (o - 4) l
        | none => h
      (h.wr p o (if o = 0x310 then v % 16 else v)).arrFollow n

/-- The same with the staging of R38: a LO half is staged, a HI half takes the staged LO and empties the staging register. -/
def arrayRepairWrite (r : Req) (n o : Nat) (v : Word) (h : Hw) : Hw :=
  let off := pageOff (corePage n) o
  if o = 0x310 then h.arrayRepair r n o v.toNat none
  else if o % 8 = 0 then h.guardWrite r (corePage n) o v.toNat fun h =>
    if r ≠ .handler ∨ !h.coreQuiet n then h.badAccess off else h.stageLo r off v
  else (h.arrayRepair r n o v.toNat (some (h.stagedLo r (off - 4) 0).toNat)).unstage r

/-- ARRAY_REPAIR_WRITE (R156), at ARR_OFF or a half of ARR_BYPa. -/
def execArrayRepairWrite (r : Req) (n : Fin 48) (o : Nat) (v : Word) (s : State) : Out :=
  if o = 0x310 ∨ (0x318 ≤ o ∧ o < 0x338 ∧ o % 4 = 0) then .next (s.onHw (arrayRepairWrite r n.val o v))
  else .refused (.illFormed "ARRAY_REPAIR_WRITE")

end Sys2Proof.Machine
end

