-- ==== Sys2Proof/Machine/Convert.lean ====
section
/-! DEFINITION. CONVERT and OPT_UPDATE (R159 to R188). -/

namespace Sys2Proof.Machine

/-- Bytes of `n` elements in memory: a linear layout, or a BS4 vector (R138, R161). -/
def vecBytes (f n : Nat) : Nat := if f = fmBS4 then bs4Bytes n else elemBytes f n

/-- The value of element `i` of `n` in memory; `base` is the base of a BS4 vector (R161). -/
def vecAt (f n : Nat) (base : Int) (bs : Array Byte) (i : Nat) : FVal :=
  if f = fmBS4 then bs4At bs n base i else decode f (elemAt f bs i)

/-! ### CONVERT (R179, R180) -/

structure ConvertOp where
  src : Nat
  dst : Nat
  tiles : Bool
  sr : Bool
  rotate : Bool
  eRange : Nat
  n : Nat
  rows : Nat
  cols : Nat
  srcShift : Int
  dstShift : Int

def convertOp (d : BitVec 512) : ConvertOp :=
  let a := dword d 0
  let b := dword d 1
  let c := dword d 2
  { src := bitsOf a 2 0, dst := bitsOf a 5 3, tiles := bitOf a 6, sr := bitOf a 7, rotate := bitOf a 8, eRange := bitsOf a 13 9,
    n := if bitOf a 6 then bitsOf b 15 0 * bitsOf b 31 16 else b, rows := bitsOf b 15 0, cols := bitsOf b 31 16,
    srcShift := signedOf 8 (bitsOf c 7 0), dstShift := signedOf 8 (bitsOf c 15 8) }

/-- Bytes of the destination: a vector, or the dense tiles of the grid (R180). -/
def ConvertOp.dstBytes (o : ConvertOp) : Nat :=
  if o.tiles then (o.rows + 63) / 64 * ((o.cols + 63) / 64) * tileBytes o.dst false else vecBytes o.dst o.n

/-- Checks 3 and 6 of R59 for CONVERT (R180). -/
def convertFormat (d : BitVec 512) : Bool :=
  let o := convertOp d
  !(o.rotate && !o.tiles && o.n % 64 != 0) && !((o.src == fmBS4 || o.dst == fmBS4) && !o.tiles && o.n % 32 != 0)
    && !((o.src == fmINT4 || o.dst == fmINT4) && !o.tiles && o.n % 2 == 1)
    && (o.eRange == 0 || (o.dst == fmBS4 && o.tiles)) && (o.dstShift == 0 || !(o.dst == fmBS4 && o.tiles))
    && bitsOf (dword d 0) 31 14 == 0 && bitsOf (dword d 2) 31 16 == 0 && dword d 3 == 0 && dword d 4 == 0 && dword d 5 == 0

def convertLength (h : Hw) (d : BitVec 512) : Bool :=
  let o := convertOp d
  decide (vecBytes o.src o.n ≤ dSrcLen d) && decide (o.dstBytes ≤ dDstLen d) && decide (4 * o.n ≤ h.slotLimit)

/-- The draws of destination `d` of a command (R166), none without stochastic rounding. -/
def drawOf (sr : Bool) (c : Cmd) (dest : Nat) (i : Nat) : Option Nat :=
  if sr then some (srDraw c.seed (dJob c.desc) (dLayer c.desc) (dOper c.desc) (dest * 2 ^ 40 + i)) else none

/-- Converts values in order to a linear layout, with what they count; `r` draws by element index. -/
def convertAll (f : Nat) (r : Nat → Option Nat) (i0 : Nat) (xs : List FVal) : List Nat × Tally :=
  let out := xs.foldl (fun (acc : Nat × List Nat × Tally) x =>
    let (c, t) := convertTo f x (r acc.1)
    (acc.1 + 1, c :: acc.2.1, acc.2.2.add t)) (i0, [], {})
  (out.2.1.reverse, out.2.2)

/-- The header of a dense tile that CONVERT writes (R95, R179). -/
def tileHeader (f rows cols : Nat) (shift : Int) : List Byte :=
  leBytes 4 (f + rows * 256 + cols * 65536)
    ++ leBytes 4 (toSigned 8 shift + 256 + tileBytes f false / 16 * 65536) ++ List.replicate 56 0

/-- One tile: 4,096 values by row, the first with element index `i0` (log entry 29 for the index and the padding). -/
def tileOut (o : ConvertOp) (r : Nat → Option Nat) (i0 rows cols : Nat) (xs : List FVal) : List Byte × Tally :=
  if o.dst = fmBS4 then
    let bl := blocks32 128 xs
    let base := bs4Base o.eRange bl
    let (qs, es, t) := bs4Quant base (fun i => r (i0 + i)) bl
    (padTo 16 (tileHeader o.dst rows cols base ++ packNibbles qs ++ packExps es), t)
  else
    let (cs, t) := convertAll o.dst r i0 (xs.map (·.scale (-o.dstShift)))
    (padTo 16 (tileHeader o.dst rows cols o.dstShift ++ packElems o.dst cs), t)

/-- The tiles of the grid, in the order of R147. -/
def convertTiles (o : ConvertOp) (r : Nat → Option Nat) (val : Nat → FVal) : List Byte × Tally :=
  let kT := (o.rows + 63) / 64
  (List.range (kT * ((o.cols + 63) / 64))).foldl (fun (acc : List Byte × Tally) ti =>
    let kt := ti % kT
    let nt := ti / kT
    let at_ (i j : Nat) : FVal :=
      let k := 64 * kt + i
      let c := 64 * nt + j
      if k < o.rows ∧ c < o.cols then val (k * o.cols + c) else .fin false 0 0
    let columns : Array (Array FVal) := ((List.range 64).map fun j =>
      let col := (List.range 64).map fun i => at_ i j
      let col := if o.rotate then rotateBlock (col.map f32) else col
      (col.map (·.scale (if o.src = fmBS4 then 0 else o.srcShift))).toArray).toArray
    let xs := (List.range 4096).map fun i => (columns.getD (i % 64) #[]).getD (i / 64) (.fin false 0 0)
    let (bs, t) := tileOut o r (4096 * ti) (min 64 (o.rows - 64 * kt)) (min 64 (o.cols - 64 * nt)) xs
    (acc.1 ++ bs, acc.2.add t)) ([], {})

/-- The elements of a conversion without tiles. -/
def convertLinear (o : ConvertOp) (r : Nat → Option Nat) (val : Nat → FVal) : List Byte × Tally :=
  let xs := (List.range o.n).map val
  let xs := if o.rotate then rotateAll (o.n / 64) (xs.map f32) else xs
  let xs := xs.map (·.scale (if o.src = fmBS4 then 0 else o.srcShift))
  if o.dst = fmBS4 then bs4Vector o.dstShift r xs
  else
    let (cs, t) := convertAll o.dst r 0 (xs.map (·.scale (-o.dstShift)))
    (packElems o.dst cs, t)

def convertRun (h : Hw) (id : QId) (c : Cmd) : Ex Done := do
  let o := convertOp c.desc
  if o.n = 0 then .ok {}
  else
    let n := vecBytes o.src o.n
    let bs := (← h.source id c 0 n).toArray
    let val := vecAt o.src o.n o.srcShift bs
    let (res, t) := if o.tiles then convertTiles o (drawOf o.sr c 0) val else convertLinear o (drawOf o.sr c 0) val
    .ok { result := res, writes := dstWrites c.desc res
          counts := [(0x408, t.sat), (0x40C, t.nan), (0x410, t.clamp)], touched := srcTouch c.desc n }

/-- CONVERT (R179). -/
def execConvert (n : Fin 48) (q : Fin 8) (s : State) : Out :=
  .next (s.onHw fun h => h.execCore ⟨.core n, q.val⟩ 0x90 (fun h c => convertRun h ⟨.core n, q.val⟩ c))

/-! ### The optimisers (R182 to R185) -/

/-- The hyperparameter block (R182), as FP32 codes and shifts. -/
structure Hyper where
  lr : Nat
  beta1 : Nat
  beta2 : Nat
  eps : Nat
  wd : Nat
  c1 : Nat
  c2 : Nat
  gradShift : Int
  mBase : Int
  vBase : Int

def hyperOf (bs : List Byte) : Hyper :=
  { lr := bnum bs 0 4, beta1 := bnum bs 4 4, beta2 := bnum bs 8 4, eps := bnum bs 12 4, wd := bnum bs 16 4,
    c1 := bnum bs 20 4, c2 := bnum bs 24 4, gradShift := signedOf 8 (bnum bs 28 1), mBase := signedOf 8 (bnum bs 29 1),
    vBase := signedOf 8 (bnum bs 30 1) }

/-- Bytes of one Adam moment, and of a row's state (R183). -/
def momentBytes (bs4 : Bool) (len : Nat) : Nat := if bs4 then bs4Bytes len else (len + len / 32 + 15) / 16 * 16
def stateBytes (optimiser : Nat) (bs4 : Bool) (len : Nat) : Nat :=
  match optimiser with | 1 => 4 | 2 => 2 * momentBytes bs4 len | _ => 0

/-- FP32 codes of a stored moment. -/
def momentRead (bs4 : Bool) (base : Int) (len : Nat) (bs : List Byte) : List Nat :=
  let a := bs.toArray
  (List.range len).map fun i =>
    if bs4 then f32 (bs4At a len base i)
    else f32 ((decode fmINT8 (elemAt fmINT8 a i)).scale (signedOf 8 ((a.getD (len + i / 32) 0).toNat)))

/-- The smallest s with m × 2^e ≤ 127 × 2^s, m > 0. -/
def int8Need (m : Nat) (e : Int) : Int :=
  let x0 := e + Nat.log2 m - 7
  let fits (x : Int) : Bool :=
    let lo := min e x
    decide (m * pow2 (e - lo) ≤ 127 * pow2 (x - lo))
  match [x0, x0 + 1, x0 + 2].find? fits with
  | some x => x
  | none => x0 + 3

/-- The shift of an INT8 state block (R184): −128 for a block of zeros, open for one that is not finite. -/
def int8Shift (xs : List FVal) : Int :=
  let (m, e) := maxMag xs
  let x := if xs.any FVal.nonFinite then Config.openBlockShift m e else if m = 0 then -128 else int8Need m e
  max (-128) (min 127 x)

/-- The bytes of a moment, stochastically rounded (R184). -/
def momentWrite (bs4 : Bool) (base : Int) (r : Nat → Option Nat) (xs : List FVal) : List Byte × Tally :=
  if bs4 then bs4Vector base r xs
  else
    let out := (blocks32 (xs.length / 32) xs).foldl (fun (acc : Nat × List Nat × List Byte × Tally) b =>
      let s := int8Shift b
      let (cs, t) := convertAll fmINT8 r acc.1 (b.map (·.scale (-s)))
      (acc.1 + b.length, acc.2.1 ++ cs, acc.2.2.1 ++ [BitVec.ofNat 8 (toSigned 8 s)], acc.2.2.2.add t)) (0, [], [], {})
    (padTo 16 (packElems fmINT8 out.2.1 ++ out.2.2.1), out.2.2.2)

/-- One row under an optimiser (R184): new parameters as FP32 codes, and the new state bytes. `r d i` draws element `i` of
destination `d`. -/
def optRow (optimiser : Nat) (bs4 : Bool) (y : Hyper) (r : Nat → Nat → Option Nat) (g p : List Nat) (st : List Byte) :
    List Nat × List Byte × Tally :=
  let len := g.length
  let apply (u : List Nat) : List Nat := (p.zip u).map fun (p, u) => fsub p (fmul y.lr (fadd u (fmul y.wd p)))
  match optimiser with
  | 1 =>
    let sum := g.foldl (fun a x => fadd a (fmul x x)) 0
    let a := fadd (bnum st 0 4) (fdiv sum (f32 (ofInt len)))
    let den := fadd (fsqrt a) y.eps
    (apply (g.map fun x => fdiv x den), leBytes 4 a, {})
  | 2 =>
    let mb := momentBytes bs4 len
    let m0 := momentRead bs4 y.mBase len (st.take mb)
    let v0 := momentRead bs4 y.vBase len (st.drop mb)
    let one := 0x3F800000
    let m := (m0.zip g).map fun (m, g) => fadd (fmul y.beta1 m) (fmul (fsub one y.beta1) g)
    let v := (v0.zip g).map fun (v, g) => fadd (fmul y.beta2 v) (fmul (fmul (fsub one y.beta2) g) g)
    let u := (m.zip v).map fun (m, v) => fdiv (fmul y.c1 m) (fadd (fsqrt (fmul y.c2 v)) y.eps)
    let (mBytes, t1) := momentWrite bs4 y.mBase (r 1) (m.map (decodeFloat 0))
    let (vBytes, t2) := momentWrite bs4 y.vBase (r 2) (v.map (decodeFloat 0))
    (apply u, mBytes ++ vBytes, t1.add t2)
  | _ => (apply g, [], {})

/-! ### OPT_UPDATE (R181) -/

structure OptOp where
  param : Nat
  grad : Nat
  optimiser : Nat
  bs4 : Bool
  sr : Bool
  skip : Bool
  len : Nat
  rows : Nat
  state : Nat
  hyper : Nat

def optOp (d : BitVec 512) : OptOp :=
  let a := dword d 0
  { param := bitsOf a 2 0, grad := bitsOf a 5 3, optimiser := bitsOf a 7 6, bs4 := bitOf a 8, sr := bitOf a 9,
    skip := bitOf a 10, len := bitsOf (dword d 1) 15 0, rows := bitsOf (dword d 1) 31 16,
    state := dword d 2 + dword d 3 * 0x100000000, hyper := dword d 4 + dword d 5 * 0x100000000 }

def optFormat (d : BitVec 512) : Bool :=
  let o := optOp d
  (o.param == fmFP32 || o.param == fmBF16) && (o.grad == fmFP32 || o.grad == fmBF16 || o.grad == fmE5M2)
    && o.optimiser != 3 && !(o.optimiser == 2 && o.len % 32 != 0) && !(o.optimiser == 0 && o.state != 0)
    && bitsOf (dword d 0) 31 11 == 0 && o.state % 16 == 0 && bitsOf (dword d 3) 31 20 == 0 && o.hyper % 32 == 0
    && bitsOf (dword d 5) 31 20 == 0

def optLength (d : BitVec 512) : Bool :=
  let o := optOp d
  decide (elemBytes o.grad (o.rows * o.len) ≤ dSrcLen d) && decide (elemBytes o.param (o.rows * o.len) ≤ dDstLen d)
    && decide (o.state + o.rows * stateBytes o.optimiser o.bs4 o.len ≤ 2 ^ 52)

/-- Whether two byte ranges meet. -/
def rangesMeet (a b : Nat × Nat) : Bool := decide (a.1 < b.1 + b.2 ∧ b.1 < a.1 + a.2 ∧ 0 < a.2 ∧ 0 < b.2)

/-- Whether any two of a list of ranges meet. -/
def anyMeet : List (Nat × Nat) → Bool
  | [] => false
  | a :: t => t.any (rangesMeet a) || anyMeet t

/-- The ranges an OPT_UPDATE names: gradient, parameters, state, hyperparameters. -/
def optRanges (d : BitVec 512) : List (Nat × Nat) :=
  let o := optOp d
  let g := match addrForm (dSrc d) with | .va a => [(a, elemBytes o.grad (o.rows * o.len))] | _ => []
  let p := match addrForm (dDst d) with | .va a => [(a, elemBytes o.param (o.rows * o.len))] | _ => []
  g ++ p ++ [(o.state, o.rows * stateBytes o.optimiser o.bs4 o.len), (o.hyper, 32)]

/-- The writes of the rows that change: `n` bytes each from `va` on. -/
def rowWrites (va n : Nat) (keep : List Bool) (bytes : List Byte) : List (Nat × List Byte) :=
  if n = 0 then []
  else (List.range keep.length).filterMap fun i => if keep.getD i false then none else some (va + i * n, (bytes.drop (i * n)).take n)

def optRun (h : Hw) (id : QId) (c : Cmd) : Ex Done := do
  let d := c.desc
  let o := optOp d
  if o.len = 0 ∨ o.rows = 0 then .ok {}
  else
    let m := queueMaster id
    let gN := elemBytes o.grad (o.rows * o.len)
    let pN := elemBytes o.param (o.rows * o.len)
    let sN := stateBytes o.optimiser o.bs4 o.len
    match addrForm (dDst d) with
    | .va dst =>
      let gs := (← h.source id c 0 gN).toArray
      let ps ← exRead h m dst pN
      let st ← exRead h m o.state (o.rows * sN)
      let y := hyperOf (← exRead h m o.hyper 32)
      let pa := ps.toArray
      let out := (List.range o.rows).map fun row =>
        let raw := (List.range o.len).map fun i => decode o.grad (elemAt o.grad gs (row * o.len + i))
        let bad := raw.any FVal.nonFinite
        let old := (List.range o.len).map fun i => elemAt o.param pa (row * o.len + i)
        let st := (st.drop (row * sN)).take sN
        if bad && o.skip then (old, st, ({} : Tally), 1, true)
        else
          let g := raw.map fun x => f32 (x.scale y.gradShift)
          let (p, st, t) := optRow o.optimiser o.bs4 y (fun dest i => drawOf true c dest (row * o.len + i)) g
            (old.map fun x => f32 (decode o.param x)) st
          let (cs, t') := convertAll o.param (drawOf (o.sr && o.param == fmBF16) c 0) (row * o.len) (p.map (decodeFloat 0))
          (cs, st, t.add t', if bad then 1 else 0, false)
      let pBytes := packElems o.param (out.flatMap (·.1))
      let sBytes := out.flatMap (·.2.1)
      let t := out.foldl (fun a e => a.add e.2.2.1) ({} : Tally)
      let clash := anyMeet (optRanges d)
      let free := freeBytes h.freeCtr (pBytes.length + sBytes.length)
      let (pBytes, sBytes) := if clash then (free.take pBytes.length, free.drop pBytes.length) else (pBytes, sBytes)
      let keep := out.map (·.2.2.2.2)
      let ws := rowWrites dst (elemBytes o.param o.len) keep pBytes ++ rowWrites o.state sN keep sBytes
      .ok { result := pBytes, writes := ws, spans := ws.map fun w => (w.1, w.2.length)
            counts := [(0x408, t.sat), (0x40C, t.nan), (0x410, t.clamp), (0x414, (out.map (·.2.2.2.1)).sum)]
            touched := srcTouch d gN ++ [(dst, pN), (o.hyper, 32)] ++ (if sN = 0 then [] else [(o.state, o.rows * sN)])
            drew := clash }
    | _ => .error (.reject cFORMAT)

/-- What a finished command will write, open: the bytes of its writes, and of the rows an embedding update holds. -/
def freeWrites (ctr : Nat) (c : Cmd) : Cmd :=
  { c with
    writes := c.writes.map fun w => (w.1, freeBytes ctr w.2.length)
    work := match c.work with
      | .emb w => .emb { w with rows := w.rows.map fun x =>
          { x with data := freeBytes ctr x.data.length, state := freeBytes (ctr + 1) x.state.length } }
      | w => w }

/-- Makes what a finished command will write open. -/
def Hw.openCmd (h : Hw) (id : QId) (p : Word) : Hw := (h.updCmd id p (freeWrites h.freeCtr)).draw.draw

/-- The other issued, uncommitted commands that satisfy `f`. -/
def Hw.sharers (h : Hw) (id : QId) (p : Word) (f : QId → Cmd → Bool) : List (QId × Word) :=
  h.queues.flatMap fun e => (e.2.cmds.filter fun c => !(e.1 = id && c.ptr = p) && f e.1 c).map fun c => (e.1, c.ptr)

/-- Makes what a command and its sharers will write open, when it has any. -/
def Hw.openShared (h : Hw) (id : QId) (p : Word) (f : QId → Cmd → Bool) : Hw :=
  match h.sharers id p f with
  | [] => h
  | l => ((id, p) :: l).foldl (fun h e => h.openCmd e.1 e.2) h

/-- Whether a command updates rows in place: an OPT_UPDATE, or an EMB_UPDATE. -/
def updatesRows (q : QId) (c : Cmd) : Bool :=
  match q.eng with
  | .core _ => dOpcode c.desc == 0x91
  | .stage _ .emb => dOpcode c.desc == 0x11
  | .stage _ _ => false

/-- Whether one of some ranges meets one of others. -/
def spansMeet (a b : List (Nat × Nat)) : Bool := a.any fun x => b.any (rangesMeet x)

/-- Whether the command of another queue is a finished update that will write into the ranges `mine`. -/
def updateMeets (mine : List (Nat × Nat)) (q : QId) (c : Cmd) : Bool := updatesRows q c && c.finished && spansMeet mine c.spans

/-- An update that has finished, and one of the same rows not ordered before or after it by the first's Hitch (R186, R289): the values
of both are open, and of this one where the other has committed since it issued. -/
def Hw.openClashes (h : Hw) (id : QId) (p : Word) : Hw :=
  match (h.qs id).cmds.find? fun c => c.ptr = p with
  | none => h
  | some c =>
    let h := if spansMeet c.spans c.clash then h.openCmd id p else h
    h.openShared id p (updateMeets c.spans)

/-- An update commits: those that have issued and not yet executed are not ordered after it. -/
def Hw.noteUpdate (h : Hw) (id : QId) (c : Cmd) : Hw :=
  let note (q : QId) (x : Cmd) : Cmd :=
    if updatesRows q x && !x.finished && !(q = id && x.ptr = c.ptr) then { x with clash := x.clash ++ c.spans } else x
  if updatesRows id c = false ∨ c.spans = [] then h
  else { h with queues := h.queues.map fun e => (e.1, { e.2 with cmds := e.2.cmds.map (note e.1) }) }

def optUpdate (id : QId) (h : Hw) : Hw :=
  match (h.running id 0x91).find? fun c => !exWaits (optRun h id c) with
  | none => h
  | some c => (h.execCore id 0x91 (fun h c => optRun h id c)).openClashes id c.ptr

/-- OPT_UPDATE (R181). -/
def execOptUpdate (n : Fin 48) (q : Fin 8) (s : State) : Out := .next (s.onHw (optUpdate ⟨.core n, q.val⟩))

end Sys2Proof.Machine
end

