-- ==== Sys2Proof/Machine/Builtin.lean ====
section
/-! DEFINITION. The built-in functions of the special-function unit (R191 to R193): segment maps, the evaluation over the open ROM, and
the verification at every FP32 input that the ROM has passed. -/

namespace Sys2Proof.Machine

/-! ### Segment maps and built-in functions (R191, R192) -/

/-- A segment map: uniform from `lo` over 2^w, or binade from `a`. -/
inductive SegMap where
  | uniform (lo : FVal) (w : Int)
  | binade (a : Int)

/-- Floor of an exact value. -/
def floorVal : FVal → Int
  | .fin n m e =>
    let z : Int := if n then -(m : Int) else m
    if 0 ≤ e then z * pow2 e else z / (2 ^ (-e).toNat : Nat)
  | _ => 0

/-- The exponent E of a nonzero magnitude: 2^E ≤ m × 2^e < 2^(E+1). -/
def expOf (m : Nat) (e : Int) : Int := Nat.log2 m + e

/-- The segment a map gives an argument (R191). -/
def SegMap.segment (mp : SegMap) (t : FVal) : Nat :=
  match mp with
  | .uniform lo w =>
    match t with
    | .nan => (Config.openSegment (f32 t) 0).val
    | .inf n => if n then 0 else 63
    | x => (max 0 (min 63 (floorVal ((x.add lo.negate).scale (6 - w))))).toNat
  | .binade a =>
    match t with
    | .nan => (Config.openSegment (f32 t) 1).val
    | .inf n => if n then 0 else (Config.openSegment (f32 t) 1).val
    | .fin n m e =>
      if n ∨ m = 0 ∨ expOf m e < a then 0
      else if a + 8 ≤ expOf m e then (Config.openSegment (f32 t) 1).val
      else
        (8 * (expOf m e - a)).toNat + m * 8 / 2 ^ Nat.log2 m % 8

/-- The start of segment `j`. -/
def SegMap.start (mp : SegMap) (j : Nat) : FVal :=
  match mp with
  | .uniform lo w => lo.add ((ofInt j).scale (w - 6))
  | .binade a => if j = 0 then .fin false 0 0 else .fin false (8 + j % 8) (a + (j / 8 : Nat) - 3)

/-- The map of a built-in function (R192); SILU uses that of SIGMOID. -/
def builtinMap : Nat → SegMap
  | 0 => .uniform (ofInt 0) 0
  | 1 => .uniform (ofInt 1) 0
  | 2 => .uniform (ofInt 1) 0
  | 3 => .uniform (ofInt 0) 2
  | 5 => .binade (-5)
  | 6 => .binade (-5)
  | _ => .binade (-4)

/-- The function whose ROM a built-in uses. -/
def romOf (f : Nat) : Nat := if f = 7 then 4 else f

/-- A coefficient of a built-in function. -/
def builtinCoef (f j i : Nat) : Nat := (Config.romCoef (romOf f) j i).toNat

/-- The result of evaluating a function: its FP32 code, the segment of its last look-up, and the integer parts of its range
reductions (R193, R209). -/
structure Eval where
  y : Nat
  seg : Option Nat := none
  red : List Int := []

/-- a × b + c in one rounding. -/
def fma (a b c : FVal) : FVal := decodeFloat 0 (f32 ((a.mul b).add c))

/-- The look-up and the polynomial of a built-in function at an exact reduced argument: segment and p (R191). -/
def builtinPoly (f : Nat) (t : FVal) : Nat × Nat :=
  let mp := builtinMap f
  let j := mp.segment t
  let u := t.add (mp.start j).negate
  let co (i : Nat) := decodeFloat 0 (builtinCoef f j i)
  (j, f32 (fma (fma (co 2) u (co 1)) u (co 0)))

/-- a × 2^s, rounded once; s is cut where the result no longer depends on it. -/
def scaleCut (a : Nat) (s : Int) : Nat := fscale a (max (-1000) (min 1000 s))

abbrev fpNaN : Nat := 0x7FC00000
abbrev fpInf : Nat := 0x7F800000
abbrev fpNegInf : Nat := 0xFF800000
abbrev fpOne : Nat := 0x3F800000
abbrev fpNegZero : Nat := 0x80000000

/-- Whether an FP32 code has its sign bit set. -/
def fNeg (x : Nat) : Bool := decide (0x80000000 ≤ x)
/-- The same magnitude with the sign of `n`. -/
def withSign (n : Bool) (x : Nat) : Nat := if n then x % 0x80000000 + 0x80000000 else x % 0x80000000

/-- The magnitude of a value. -/
def FVal.mag : FVal → FVal
  | .fin _ m e => .fin false m e
  | .inf _ => .inf false
  | .nan => .nan

/-- p of |x| over the binade map of `f`, or `top` where |x| reaches the end 2^k of the map (R192). -/
def onMap (f top : Nat) (k : Int) (x : Nat) : Option Nat × Nat :=
  match (decodeFloat 0 x).mag with
  | .fin _ m e => if m ≠ 0 ∧ k ≤ expOf m e then (none, top) else
      let r := builtinPoly f (.fin false m e)
      (some r.1, r.2)
  | _ => (none, top)

/-- Φ or sigmoid of x from p of |x| (R192): p, or 1 − p for a negative x. -/
def reflect (f : Nat) (k : Int) (x : Nat) : Eval :=
  let r := onMap f fpOne k x
  { y := if fNeg x then fsub fpOne r.2 else r.2, seg := r.1 }

/-- Special inputs of a built-in function (R192): NaN, the infinities and the zeros. A zero that reduces to t = 0 is looked up in
segment 0. -/
def builtinSpecial (f x : Nat) : Option Eval :=
  let n := fNeg x
  match decodeFloat 0 x with
  | .nan => some { y := fpNaN }
  | .inf _ =>
    let y := match f with
      | 0 => if n then 0 else fpInf
      | 1 => if n then fpNaN else fpInf
      | 2 => if n then fpNegZero else 0
      | 3 => if n then fpNaN else 0
      | 4 => if n then 0 else fpOne
      | 5 => if n then 0xBF800000 else fpOne
      | 6 => if n then fpNegZero else fpInf
      | 7 => if n then fpNegZero else fpInf
      | _ => if n then 0 else fpInf
    some { y := y }
  | .fin _ 0 _ =>
    let y := match f with
      | 0 => fpOne
      | 1 => fpNegInf
      | 2 => withSign n fpInf
      | 3 => withSign n fpInf
      | 4 => 0x3F000000
      | 5 => x
      | 6 => x
      | 7 => x
      | _ => 0x3F317218
    some { y := y, seg := if 1 ≤ f ∧ f ≤ 3 then none else some 0, red := if f = 0 then [0] else [] }
  | .fin n _ _ => if n ∧ (f = 1 ∨ f = 3) then some { y := fpNaN } else none

/-- A built-in function at a finite nonzero FP32 code, from the ROM (R191, R192). -/
def romEval (f x : Nat) : Eval :=
  let v := decodeFloat 0 x
  match v with
  | .fin n m e =>
    let ex := expOf m e
    match f with
    | 0 =>
      let k := floorVal v
      let r := builtinPoly 0 (v.add (ofInt (-k)))
      { y := scaleCut r.2 k, seg := some r.1, red := [k] }
    | 1 =>
      let r := builtinPoly 1 (.fin false m (e - ex))
      { y := fadd (f32 (ofInt ex)) r.2, seg := some r.1, red := [ex] }
    | 2 =>
      let r := builtinPoly 2 (.fin false m (e - ex))
      let y := scaleCut r.2 (-ex)
      { y := if n then f32 (decodeFloat 0 y).negate else y, seg := some r.1, red := [ex] }
    | 3 =>
      let j := ex / 2
      let r := builtinPoly 3 (.fin false m (e - 2 * j))
      { y := scaleCut r.2 (-j), seg := some r.1, red := [j] }
    | 4 => reflect 4 4 x
    | 5 =>
      let r := onMap 5 fpOne 3 x
      { y := if n then f32 (decodeFloat 0 r.2).negate else r.2, seg := r.1 }
    | 6 => let r := reflect 6 3 x; { r with y := fmul x r.y }
    | 7 => let r := reflect 4 4 x; { r with y := fmul r.y x }
    | _ =>
      let r := onMap 8 0 4 x
      { y := fadd (if n then 0 else x) r.2, seg := r.1 }
  | _ => { y := fpNaN }

/-! ### The verified ROM (R192, R193)

The spec gives no coefficient, but it states that those of the hardware keep the bounds of R192 and are monotone at every FP32 input, as
verified. `romKeeps` is that verification. A constant that failed it would be no ROM of the hardware: the value is then the exact one,
rounded (log entry 30). Exact values are computed to 512 binary places. -/

/-- 1 with 512 binary places. -/
def fxOne : Int := (2 ^ 512 : Nat)
/-- A fixed-point number as exact value. -/
def fxVal (z : Int) : FVal := (ofInt z).scale (-512)
/-- A finite value with 512 binary places, cut toward −∞. -/
def fxOf (x : FVal) : Int := floorVal (x.scale 512)
/-- Products and quotients. -/
def fxMul (a b : Int) : Int := a * b / fxOne
def fxDiv (a b : Int) : Int := a * fxOne / b

/-- e^r for |r| < 1, by its series. -/
def fxExp (r : Int) : Int :=
  ((List.range 200).foldl (fun s n => (s.1 + s.2, fxMul s.2 r / ((n + 1 : Nat) : Int))) ((0 : Int), fxOne)).1
/-- The series of the inverse tangent (`g` = −1) and of the inverse hyperbolic tangent (`g` = 1), |z| ≤ 1/3. -/
def fxAtan (g z : Int) : Int :=
  ((List.range 400).foldl (fun s n => (s.1 + s.2 / ((2 * n + 1 : Nat) : Int), g * fxMul (fxMul s.2 z) z)) ((0 : Int), z)).1
/-- ln a for 1 ≤ a ≤ 2. -/
def fxLn (a : Int) : Int := 2 * fxAtan 1 (fxDiv (a - fxOne) (a + fxOne))
def fxLn2 : Int := fxLn (2 * fxOne)
/-- π, by Machin's formula. -/
def fxPi : Int := 16 * fxAtan (-1) (fxOne / 5) - 4 * fxAtan (-1) (fxOne / 239)
/-- e^−t for t ≥ 0. -/
def fxExpNeg (t : Int) : Int :=
  let k := t / fxLn2
  fxExp (-(t - k * fxLn2)) / (2 ^ k.toNat : Nat)
/-- The normal distribution function of −t, for t ≥ 0: ½ less the density times t + t³/3 + t⁵/15 + …. -/
def fxPhiNeg (t : Int) : Int :=
  let sq := fxMul t t
  let s := ((List.range 800).foldl (fun s n => (s.1 + s.2, fxMul s.2 sq / ((2 * n + 3 : Nat) : Int))) ((0 : Int), t)).1
  let root : Int := (isqrt ((2 * fxPi) * fxOne).toNat : Nat)
  fxOne / 2 - fxMul (fxDiv (fxExpNeg (sq / 2)) root) s

/-- The value that R192 gives a built-in function at a finite nonzero input, to far more places than FP32 holds. Beyond |x| = 256, and 16
for GELU, the exponential parts are below every FP32 number and are dropped. -/
def exactVal (f : Nat) (v : FVal) : FVal :=
  match v with
  | .fin n m e =>
    let ex := expOf m e
    let far := decide (8 ≤ ex)
    let t := if far then 256 * fxOne else fxOf v.mag
    let em := fxExpNeg t
    let sig := fxDiv (if n then em else fxOne) (fxOne + em)
    match f with
    | 0 =>
      let k := max (-1000) (min 1000 (floorVal v))
      (fxVal (fxExp (fxMul (fxOf (v.add (ofInt (-floorVal v)))) fxLn2))).scale k
    | 1 => fxVal (ex * fxOne + fxDiv (fxLn (fxOf (.fin false m (e - ex)))) fxLn2)
    | 2 => (ofInt 1).div v
    | 3 => (fxVal (isqrt (2 ^ 1536 / (fxOf (.fin false m (e - 2 * (ex / 2)))).toNat) : Nat)).scale (-(ex / 2))
    | 4 => fxVal sig
    | 5 => let q := fxMul em em; if ex < -40 then v else .mul (if n then ofInt (-1) else ofInt 1) (fxVal (fxDiv (fxOne - q) (fxOne + q)))
    | 6 =>
      if 4 ≤ ex then (if n then .fin true 0 0 else v)
      else let p := fxPhiNeg t; v.mul (fxVal (if n then p else fxOne - p))
    | 7 => v.mul (fxVal sig)
    | _ =>
      let g := fxVal (fxLn (fxOne + em))
      if n then g else v.add g
  | x => x

/-- The error bound of a built-in function where its exact value is `y` (R192): so many ulp, or the absolute figure if that is larger. -/
def romBound (f : Nat) (x y : FVal) : FVal :=
  let ey : Int := match y with | .fin _ m e => if m = 0 then -126 else expOf m e | _ => 128
  let exx : Int := match x with | .fin _ m e => if m = 0 then 0 else max 0 (expOf m e) | _ => 0
  let ulps (k : Nat) : FVal := .fin false k (max ey (-126) - 23)
  let wide (k : Nat) (a : FVal) : FVal := match (ulps k).add a.negate with | .fin true _ _ => a | _ => ulps k
  match f with
  | 0 => if ey < -126 then .fin false 1 (-149) else ulps 2
  | 1 => wide 2 (.fin false 1 (-23))
  | 2 | 3 => ulps 2
  | 4 | 8 => wide 4 (.fin false 1 (-23))
  | 5 => wide 4 (.fin false 1 (-24))
  | _ => wide 8 (if exx = 0 then .fin false 1 (-23) else x.mag.scale (-23))

/-- A value no farther from zero than 2^128, the place of an FP32 infinity. -/
def clampVal : FVal → FVal
  | .inf n => .fin n 1 128
  | .fin n m e => if m ≠ 0 ∧ 128 ≤ expOf m e then .fin n 1 128 else .fin n m e
  | .nan => .nan

/-- Whether the result `y` keeps the bound at input `x`. -/
def inBound (f x y : Nat) : Bool :=
  let v := decodeFloat 0 x
  let e := clampVal (exactVal f v)
  match ((clampVal (decodeFloat 0 y)).add e.negate).mag, romBound f v e with
  | .nan, _ => false
  | d, b => match b.add d.negate with
    | .fin n m _ => !n || m == 0
    | _ => false

/-- The FP32 code of an order key. -/
def keyCode (k : Int) : Nat := if k < 0 then 0x80000000 + k.natAbs else k.natAbs

/-- The monotone interval of a built-in function, by order key (R192): whether the pair k, k + 1 lies in it. -/
def monotoneAt (f : Nat) (k : Int) : Bool :=
  match f with
  | 1 | 3 => decide (0 < k)
  | 2 => decide (0 < k ∨ k < -1)
  | 6 => decide (-0x3F400000 ≤ k)
  | 7 => decide (-0x3FA28F5C ≤ k)
  | _ => true

/-- What verification asks at the finite input of key `k` (R192, R193). -/
def romKeepsAt (f : Nat) (k : Int) : Bool :=
  let at_ (k : Int) : Nat := ((builtinSpecial f (keyCode k)).getD (romEval f (keyCode k))).y
  ((builtinSpecial f (keyCode k)).isSome || inBound f (keyCode k) (at_ k))
    && (!monotoneAt f k || decide (k = 0x7F7FFFFF)
      || (let a := at_ k
          let b := at_ (k + 1)
          !fIsNan a && !fIsNan b && !(if f = 2 ∨ f = 3 then flt a b else flt b a)))

/-- Whether every number below `n` passes. -/
def allBelow (p : Nat → Bool) : Nat → Bool
  | 0 => true
  | n + 1 => p n && allBelow p n

/-- The verification of the ROM of a built-in function, at every finite FP32 input (R193). -/
def romKeeps (f : Nat) : Bool := allBelow (fun i => romKeepsAt f ((i : Int) - 0x7F7FFFFF)) 0xFEFFFFFF

/-- A built-in function at an FP32 code (R192). -/
def builtin (f x : Nat) : Eval :=
  match builtinSpecial f x with
  | some e => e
  | none => let e := romEval f x; if romKeeps f then e else { e with y := f32 (exactVal f (decodeFloat 0 x)) }

end Sys2Proof.Machine
end

