-- ==== Sys2Proof/Machine/Sfu.lean ====
section
/-! DEFINITION. The special-function unit (R189 to R211) beside its built-in functions: the microprograms, their store, and
SFU_MAP, SFU_GATED, SOFTMAX, STATS_MERGE, ROW_NORM and TABLE_CHECK. -/

namespace Sys2Proof.Machine

/-! ### Microprograms (R203 to R207) -/

/-- The map of table `k` of a record. -/
def recordMap (r : List Byte) (k : Nat) : SegMap :=
  let o := 4 + 12 * k
  if bitOf (bnum r o 4) 0 then .binade (signedOf 8 (bitsOf (bnum r o 4) 15 8))
  else
    let lo := decodeFloat 0 (bnum r (o + 4) 4)
    let w := match (decodeFloat 0 (bnum r (o + 8) 4)).add lo.negate with
      | .fin _ m e => expOf m e
      | _ => 0
    .uniform lo w

/-- Whether a uniform map keeps the conditions of R191: hi − lo a power of two and lo a multiple of 2^(w−6). -/
def uniformGood (lo hi : Nat) : Bool :=
  match (decodeFloat 0 hi).add (decodeFloat 0 lo).negate with
  | .fin n m e =>
    !n && m != 0 && m == 2 ^ Nat.log2 m &&
      (match decodeFloat 0 lo with
       | .fin _ ml el => ml == 0 || decide (expOf m e - 6 ≤ el) || ml % pow2 (expOf m e - 6 - el) == 0
       | _ => false)
  | _ => false

/-- Step `i` of a record, and its fields (R206). -/
def stepWord (r : List Byte) (i : Nat) : Nat := bnum r (0x40 + 8 * i) 8
def recordSteps (r : List Byte) : Nat := bitsOf (bnum r 0 4) 13 8

/-- Whether a step is well formed (R207). -/
def stepGood (r : List Byte) (w : Nat) : Bool :=
  let op := bitsOf w 3 0
  let d := bitsOf w 7 4
  let mode := bitsOf w 27 24
  bitsOf w 63 28 == 0 &&
    (match op with
     | 0 => decide (d ≤ 6 ∧ mode ≤ 3)
     | 1 => decide (d ≤ 4 ∧ mode ≤ 10) &&
        (decide (2 ≤ mode) || bitOf (bnum r (4 + 12 * mode) 4) 0 || uniformGood (bnum r (8 + 12 * mode) 4) (bnum r (12 + 12 * mode) 4))
     | 5 => decide (d ≤ 7 ∧ mode ≤ 4)
     | 2 | 3 | 4 | 6 => decide (d ≤ 7)
     | _ => false)

/-- Whether a microprogram record is well formed (R205, R207). -/
def recordGood (r : List Byte) : Bool :=
  let s := recordSteps r
  let mapZero (k : Nat) : Bool :=
    let w := bnum r (4 + 12 * k) 4
    bitsOf w 7 1 == 0 && bitsOf w 31 16 == 0 && (!bitOf w 0 || (bnum r (8 + 12 * k) 4 == 0 && bnum r (12 + 12 * k) 4 == 0))
  bitsOf (bnum r 0 4) 7 0 == 1 && decide (1 ≤ s ∧ s ≤ 32) && bitsOf (bnum r 0 4) 31 14 == 0 && mapZero 0 && mapZero 1
    && bnum r 0x1C 4 == 0 && ((List.range s).all fun i => stepGood r (stepWord r i))
    && ((List.range (32 - s)).all fun i => stepWord r (s + i) == 0)
    && ((List.range 128).all fun i => bnum r (0x140 + 16 * i + 12) 4 == 0)
    && (r.drop 0x940).all (· == 0)

/-- The working state of a lane: registers, last segment, reductions. -/
structure Lane where
  v : List Nat
  seg : Option Nat
  red : List Int

/-- An operand of a step: a register or a constant (R206). -/
def laneArg (r : List Byte) (l : Lane) (k : Nat) : Nat := if k < 8 then l.v.getD k 0 else bnum r (0x20 + 4 * (k - 8)) 4

/-- The truncation of a finite value toward zero. -/
def truncVal (x : FVal) : Int :=
  match x with
  | .fin n m e => let z := floorVal (.fin false m e); if n then -z else z
  | _ => 0

/-- Range reduction (R206 op 0): the two results and the integer part that a seam is judged by. -/
def rangeReduce (mode a : Nat) : Nat × Nat × List Int :=
  let x := decodeFloat 0 a
  match mode with
  | 0 =>
    match x with
    | .fin n m _ =>
      let k := floorVal x
      let fl := if m = 0 then withSign n 0 else f32 (ofInt k)
      (fsub a fl, fl, [k])
    | _ => let fl := if fIsNan a then fpNaN else a; (fpNaN, fl, [fKey fl])
  | 3 => (a % 0x80000000, withSign (fNeg a) fpOne, [])
  | _ =>
    match x with
    | .fin _ m e =>
      if m = 0 then (a, 0, [0])
      else if mode = 1 then (f32 (.fin false m (e - expOf m e)), f32 (ofInt (expOf m e)), [expOf m e])
      else
        let j := expOf m e / 2
        (f32 (.fin false m (e - 2 * j)), f32 (ofInt j), [j])
    | _ => (a, 0, [0])

/-- Segment look-up (R206 op 1): u, the coefficients and the segment. -/
def lookUp (r : List Byte) (table a : Nat) : List Nat × Nat :=
  let mp := if table < 2 then recordMap r table else builtinMap (table - 2)
  let j := mp.segment (decodeFloat 0 a)
  let u := f32 ((decodeFloat 0 a).add (mp.start j).negate)
  let co (i : Nat) : Nat := if table < 2 then bnum r (0x140 + 0x400 * table + 16 * j + 4 * i) 4 else builtinCoef (table - 2) j i
  ([u, co 0, co 1, co 2], j)

/-- Reconstruction (R206 op 6): the product with 2^trunc(b), which is infinite, zero or NaN with an infinite or NaN b. -/
def reconstruct (a b : Nat) : Nat :=
  match decodeFloat 0 b with
  | .nan => fpNaN
  | .inf n => f32 ((decodeFloat 0 a).mul (if n then ofInt 0 else .inf false))
  | y => scaleCut a (truncVal y)

/-- One step of a microprogram (R206). -/
def laneStep (r : List Byte) (w : Nat) (l : Lane) : Lane :=
  let d := bitsOf w 7 4
  let a := laneArg r l (bitsOf w 11 8)
  let b := laneArg r l (bitsOf w 15 12)
  let c := laneArg r l (bitsOf w 19 16)
  let e := laneArg r l (bitsOf w 23 20)
  let mode := bitsOf w 27 24
  match bitsOf w 3 0 with
  | 0 =>
    let (x, y, k) := rangeReduce mode a
    { l with v := listSet (listSet l.v d x) (d + 1) y, red := l.red ++ k }
  | 1 =>
    let (xs, j) := lookUp r mode a
    { l with v := (xs.foldl (fun (acc : Nat × List Nat) x => (acc.1 + 1, listSet acc.2 acc.1 x)) (d, l.v)).2, seg := some j }
  | 2 => { l with v := listSet l.v d (f32 (fma (decodeFloat 0 a) (decodeFloat 0 b) (decodeFloat 0 c))) }
  | 3 => { l with v := listSet l.v d (fmul a b) }
  | 4 => { l with v := listSet l.v d (fadd a b) }
  | 5 =>
    let hold := match mode with
      | 0 => fNeg c
      | 1 => c % 0x80000000 == 0
      | 2 => fIsNan c
      | 3 => c % 0x80000000 == fpInf
      | _ => !fIsNan c && !fIsNan e && flt c e
    { l with v := listSet l.v d (if hold then a else b) }
  | _ => { l with v := listSet l.v d (reconstruct a b) }

/-- A microprogram at an FP32 code. -/
def microEval (r : List Byte) (x : Nat) : Eval :=
  let l := (List.range (recordSteps r)).foldl (fun l i => laneStep r (stepWord r i) l) ⟨[x, 0, 0, 0, 0, 0, 0, 0], none, []⟩
  { y := if fIsNan (l.v.getD 0 0) then fpNaN else l.v.getD 0 0, seg := l.seg, red := l.red }

/-! ### The store (R203, R204) -/

def Hw.sfuStore (h : Hw) (n : Nat) : SfuStore := (alGet n h.sfu).getD {}
def Hw.setSfu (h : Hw) (n : Nat) (s : SfuStore) : Hw := { h with sfu := alPut n s h.sfu }

/-- Opcodes of the chapter. -/
def isSfuOp (op : Nat) : Bool := decide (0x60 ≤ op ∧ op ≤ 0x65)

/-- Whether the store of core `n` holds the table at `va` and has not been invalidated since (R203). -/
def Hw.storeHolds (h : Hw) (n va : Nat) : Bool :=
  let s := h.sfuStore n
  s.loaded && !s.stale && h.rd64 (corePage n) 0x450 == va

/-- Whether a command has what it needs of the store: a command without a context needs nothing. -/
def sfuReady (c : Cmd) : Bool := c.ctx.isEmpty || c.prog.isSome

/-- The func field of a command, of SOFTMAX, STATS_MERGE and ROW_NORM none. -/
def sfuFuncOf (d : BitVec 512) : Option Nat :=
  match dOpcode d with
  | 0x60 | 0x61 => some (bitsOf (dword d 0) 10 6)
  | 0x65 => some (bitsOf (dword d 0) 4 0)
  | _ => none

/-- The record that a command which takes the unit now runs (R204): the store's, or, where memory has changed under the store without an
invalidate, one of the two. -/
def Hw.sfuRecord (h : Hw) (m : Master) (n : Nat) (c : Cmd) : List Byte :=
  match sfuFuncOf c.desc with
  | some f =>
    if f < 16 ∨ !bitOf (h.rd (corePage n) 0x44C) (f - 16) then []
    else
      let old := (h.sfuStore n).slots.getD (f - 16) []
      match h.read m (ctxMicrograms c.ctx + 2560 * (f - 16)) 2560 with
      | .ok new => if new = old ∨ Config.freeNat h.freeCtr 2 = 0 ∨ recordGood new = false then old else new
      | .error _ => old
  | none => []

/-- Begins a load of the table a context names, unless the store holds it or such a load is under way. -/
def Hw.beginLoad (h : Hw) (n : Nat) (q : Fin 8) (ctx : List Byte) : Hw :=
  let va := ctxMicrograms ctx
  let s := h.sfuStore n
  if ctx.isEmpty || h.storeHolds n va || s.loads.any (·.va == va) then h
  else h.setSfu n { s with loads := s.loads ++ [⟨q, va, ctxPrograms ctx⟩] }

/-- A command takes the unit as it issues (R203, R204): it starts with the program in the store, or begins a load. A CTX_LOAD begins the
load of its context in advance. -/
def Hw.sfuIssue (h : Hw) (n : Nat) (q : Fin 8) (c : Cmd) (next : List Byte) : Hw :=
  let id : QId := ⟨coreEng n, q⟩
  if c.skipped then h
  else if dOpcode c.desc = 0x01 then h.beginLoad n q next
  else if !isSfuOp (dOpcode c.desc) || c.ctx.isEmpty then h
  else if h.storeHolds n (ctxMicrograms c.ctx) then
    let p := h.sfuRecord (queueMaster id) n c
    (h.updCmd id c.ptr fun c => { c with prog := some p }).draw
  else h.beginLoad n q c.ctx

/-- The commands of core `n` that wait for the table at `va`. -/
def Hw.sfuWaiters (h : Hw) (n va : Nat) : List (QId × Cmd) :=
  (engQs (coreEng n)).flatMap fun id => ((h.qs id).cmds.filter fun c =>
    !c.finished && !c.skipped && isSfuOp (dOpcode c.desc) && !sfuReady c && ctxMicrograms c.ctx == va).map fun c => (id, c)

/-- Ends a load: the records stand in the store of core `n`, and those who wait for them have the program they start with. -/
def Hw.sfuLoad (h : Hw) (m : Master) (n va count : Nat) (bs : List Byte) : Hw :=
  let slots := (List.range count).map fun i => (bs.drop (2560 * i)).take 2560
  let valid := slots.foldr (fun r acc => 2 * acc + (if recordGood r then 1 else 0)) 0
  let h := h.touch m va (2560 * count)
  let h := h.setSfu n { h.sfuStore n with slots := slots, loaded := true, stale := false }
  let h := ((h.wr (corePage n) 0x44C valid).wr64 (corePage n) 0x450 va).count (corePage n) 0x464
  let program (c : Cmd) : List Byte := match sfuFuncOf c.desc with
    | some f => if f < 16 ∨ !bitOf valid (f - 16) then [] else slots.getD (f - 16) []
    | none => []
  (h.sfuWaiters n va).foldl (fun h x => h.updCmd x.1 x.2.ptr fun c => { c with prog := some (program c) }) h

/-- The oldest load of a queue reads its records. What the read meets falls on the command that needs the store, if it is still there: a
load goes on after a kill of that command (R210). -/
def microprogramLoad (n : Fin 48) (q : Fin 8) (h : Hw) : Hw :=
  let m := queueMaster ⟨.core n, q.val⟩
  match (h.sfuStore n.val).loads.find? (fun l => l.q == q) with
  | none => h
  | some l =>
    let s := h.sfuStore n.val
    let k := h.setSfu n.val { s with loads := s.loads.erase l }
    match h.read m l.va (2560 * l.count), (h.sfuWaiters n.val l.va).head? with
    | .ok bs, _ => k.sfuLoad m n.val l.va l.count bs
    | .error .wait, _ => h
    | .error (.fault c lv a), some x => k.killFault x.1 c lv a false x.2.desc
    | .error (.ecc a i), some x => (k.touch m a i).reject x.1 x.2.ptr cECC x.2.desc
    | .error (.ecc a i), none => k.touch m a i
    | .error _, none => k

/-- MICROPROGRAM_LOAD (R203): a load that a command of the queue began, or a CTX_LOAD in advance, completes. -/
def execMicroprogramLoad (n : Fin 48) (q : Fin 8) (s : State) : Out := .next (s.onHw (microprogramLoad n q))

def sfuInvalidate (r : Req) (n : Fin 48) (_v : Word) (h : Hw) : Hw :=
  h.guardWrite r (corePage n.val) 0x444 1 fun h => h.setSfu n.val { h.sfuStore n.val with stale := true }

/-- SFU_INVALIDATE (R204): a command that has its program keeps it; the next one reloads. -/
def execSfuInvalidate (r : Req) (n : Fin 48) (v : Word) (s : State) : Out := .next (s.onHw (sfuInvalidate r n v))

/-- The function that func names for a command (R196). -/
def sfuFunc (c : Cmd) (f : Nat) : Ex (Nat → Eval) :=
  if !sfuReady c then .error .notYet
  else if f < 9 then .ok (builtin f)
  else match c.prog with
    | none | some [] => .error (.reject cFORMAT)
    | some r => .ok (microEval r)

/-! ### Elements in and out (R190) -/

/-- An element as FP32 code: decoded, times 2^shift (log entry 31 for a product beyond FP32). -/
def sfuIn (f : Nat) (shift : Int) (code : Nat) : Nat := f32 ((decode f code).scale shift)
/-- An FP32 result as destination element. -/
def sfuOut (f : Nat) (shift : Int) (y : Nat) : Nat × Tally := convertTo f ((decodeFloat 0 y).scale (-shift))

/-- Destination elements of a list of FP32 codes, with what they count. -/
def sfuOutAll (f : Nat) (shift : Int) (ys : List Nat) : List Nat × Tally :=
  let cs := ys.map (sfuOut f shift)
  (cs.map (·.1), cs.foldl (fun t c => t.add c.2) {})

/-- Formats of the chapter (R196): source FP32 to INT8, destination anything but BS4, no odd INT4 rows. -/
def sfuFormats (src dst perRow : Nat) : Bool := decide (src ≤ 5) && dst != fmBS4 && !(dst == fmINT4 && perRow % 2 == 1)
/-- func values that exist (R196). -/
def sfuFuncOk (f : Nat) : Bool := decide (f ≤ 8 ∨ 16 ≤ f)

/-- A reduction over a row in the order of R194. -/
def laneReduce (f : Nat → Nat → Nat) (xs : List Nat) : Option Nat :=
  let a := xs.toArray
  let one (acc : Option Nat) (x : Option Nat) : Option Nat :=
    match acc, x with
    | some p, some q => some (f p q) | some p, none => some p | none, y => y
  let lanes := (List.range 256).map fun l =>
    (List.range ((xs.length + 255 - l) / 256)).foldl (fun acc i => one acc (a[256 * i + l]?)) none
  treeSum one none 8 lanes

def rowSum (xs : List Nat) : Nat := (laneReduce fadd xs).getD 0
/-- The maximum: the first of equals. -/
def rowMax (xs : List Nat) : Nat := (laneReduce (fun a b => if flt a b then b else a) xs).getD fpNegInf

/-! ### SFU_MAP and SFU_GATED (R197) -/

structure MapOp where
  src : Nat
  dst : Nat
  func : Nat
  n : Nat
  rows : Nat
  srcShift : Int
  dstShift : Int

def mapOp (d : BitVec 512) : MapOp :=
  let a := dword d 0
  let c := dword d 2
  { src := bitsOf a 2 0, dst := bitsOf a 5 3, func := bitsOf a 10 6, n := dword d 1, rows := bitsOf c 15 0,
    srcShift := signedOf 8 (bitsOf c 23 16), dstShift := signedOf 8 (bitsOf c 31 24) }

def mapFormat (gated : Bool) (d : BitVec 512) : Bool :=
  let o := mapOp d
  sfuFormats o.src o.dst o.n && sfuFuncOk o.func && bitsOf (dword d 0) 31 11 == 0 && (gated || o.rows == 0)
    && dword d 3 == 0 && dword d 4 == 0 && dword d 5 == 0

def mapLength (gated : Bool) (h : Hw) (d : BitVec 512) : Bool :=
  let o := mapOp d
  let outs := if gated then o.rows * o.n else o.n
  decide (elemBytes o.src (if gated then 2 * outs else outs) ≤ dSrcLen d) && decide (elemBytes o.dst outs ≤ dDstLen d)
    && decide (4 * outs ≤ h.slotLimit)

def sfuMapRun (h : Hw) (id : QId) (c : Cmd) : Ex Done := do
  let o := mapOp c.desc
  if o.n = 0 then .ok {}
  else
    let f ← sfuFunc c o.func
    let k := elemBytes o.src o.n
    let bs := (← h.source id c 0 k).toArray
    let xs := (List.range o.n).map fun i => sfuIn o.src o.srcShift (elemAt o.src bs i)
    let ys := xs.map fun x => (f x).y
    let (cs, t) := sfuOutAll o.dst o.dstShift ys
    let res := packElems o.dst cs
    .ok { result := res, writes := dstWrites c.desc res, touched := srcTouch c.desc k
          counts := [(0x458, ((xs.zip ys).filter fun (x, y) => !fIsNan x && fIsNan y).length), (0x408, t.sat), (0x40C, t.nan)] }

/-- SFU_MAP (R197). -/
def execSfuMap (n : Fin 48) (q : Fin 8) (s : State) : Out :=
  .next (s.onHw fun h => h.execCore ⟨.core n, q.val⟩ 0x60 (fun h c => sfuMapRun h ⟨.core n, q.val⟩ c))

def sfuGatedRun (h : Hw) (id : QId) (c : Cmd) : Ex Done := do
  let o := mapOp c.desc
  if o.n * o.rows = 0 then .ok {}
  else
    let f ← sfuFunc c o.func
    let k := elemBytes o.src (2 * o.n * o.rows)
    let bs := (← h.source id c 0 k).toArray
    let outs := (List.range (o.rows * o.n)).map fun i =>
      let r := i / o.n
      let j := i % o.n
      let a := sfuIn o.src o.srcShift (elemAt o.src bs (2 * o.n * r + j))
      let b := sfuIn o.src 0 (elemAt o.src bs (2 * o.n * r + o.n + j))
      let y := fmul (f a).y b
      (y, if !fIsNan a && !fIsNan b && fIsNan y then 1 else 0)
    let (cs, t) := sfuOutAll o.dst o.dstShift (outs.map (·.1))
    let res := packElems o.dst cs
    .ok { result := res, writes := dstWrites c.desc res, touched := srcTouch c.desc k
          counts := [(0x458, (outs.map (·.2)).sum), (0x408, t.sat), (0x40C, t.nan)] }

/-- SFU_GATED (R197); b is decoded without src_shift (log entry 31). -/
def execSfuGated (n : Fin 48) (q : Fin 8) (s : State) : Out :=
  .next (s.onHw fun h => h.execCore ⟨.core n, q.val⟩ 0x61 (fun h c => sfuGatedRun h ⟨.core n, q.val⟩ c))

/-! ### SOFTMAX and STATS_MERGE (R198 to R200) -/

structure SoftOp where
  src : Nat
  dst : Nat
  mode : Nat
  n : Nat
  rows : Nat
  srcShift : Int
  dstShift : Int
  k : Nat
  cVa : Nat

def softOp (d : BitVec 512) : SoftOp :=
  let a := dword d 0
  let c := dword d 2
  { src := bitsOf a 2 0, dst := bitsOf a 5 3, mode := bitsOf a 7 6, n := dword d 1, rows := bitsOf c 15 0,
    srcShift := signedOf 8 (bitsOf c 23 16), dstShift := signedOf 8 (bitsOf c 31 24), k := dword d 3,
    cVa := dword d 4 + dword d 5 * 0x100000000 }

/-- Positive and finite (R198). -/
def posFinite (k : Nat) : Bool := decide (0 < k ∧ k < fpInf)

def softFormat (d : BitVec 512) : Bool :=
  let o := softOp d
  let wide (f : Nat) : Bool := f == fmFP32 || f == fmBF16
  sfuFormats o.src o.dst o.n && bitsOf (dword d 0) 31 8 == 0 &&
    (match o.mode with
     | 0 => posFinite o.k && o.cVa == 0
     | 1 => posFinite o.k && o.cVa == 0 && wide o.dst && o.dstShift == 0
     | 2 => o.k == 0 && wide o.src && o.cVa % 4 == 0 && bitsOf (dword d 5) 31 20 == 0
     | _ => false)

/-- Bytes of the destination: outputs, or values and then records of 8 bytes at the next 16-byte boundary. -/
def SoftOp.dstBytes (o : SoftOp) : Nat :=
  let v := elemBytes o.dst (o.rows * o.n)
  if o.mode = 1 then (v + 15) / 16 * 16 + 8 * o.rows else v

def softLength (h : Hw) (d : BitVec 512) : Bool :=
  let o := softOp d
  decide (elemBytes o.src (o.rows * o.n) ≤ dSrcLen d) && decide (o.dstBytes ≤ dDstLen d)
    && decide (4 * o.rows * o.n + (if o.mode = 1 then 8 * o.rows else 0) ≤ h.slotLimit)
    && (o.mode != 2 || decide (o.cVa + 4 * o.rows ≤ 2 ^ 52))

/-- EXP2 as FP32 code. -/
def exp2 (x : Nat) : Nat := (builtin 0 x).y

/-- What a row of a soft maximum gives: outputs, record, whether it counts in SM_EMPTY or SM_NAN (R199), and the NaN outputs it makes
from inputs without a NaN (R211). -/
structure SoftRow where
  ys : List Nat
  m : Nat
  s : Nat
  empty : Nat
  nan : Nat
  made : Nat

def softRow (mode k c : Nat) (xs : List Nat) : SoftRow :=
  let made (ys : List Nat) : Nat := if xs.any fIsNan || (mode == 2 && fIsNan c) then 0 else (ys.filter fIsNan).length
  if xs.any fun x => fIsNan x || x == fpInf then
    let ys := xs.map fun _ => fpNaN
    ⟨ys, fpNaN, fpNaN, 0, 1, made ys⟩
  else if xs.all (· == fpNegInf) then ⟨xs.map fun _ => 0, fpNegInf, 0, 1, 0, 0⟩
  else if mode = 2 then
    let ys := xs.map fun e => fmul e c
    ⟨ys, 0, 0, 0, 0, made ys⟩
  else
    let m := rowMax xs
    let es := xs.map fun x => exp2 (fmul k (fsub x m))
    let s := rowSum es
    if mode = 1 then ⟨es, m, s, 0, 0, made es⟩
    else
      let c := (builtin 2 s).y
      let ys := es.map fun e => fmul e c
      ⟨ys, m, s, 0, 0, made ys⟩

def softmaxRun (h : Hw) (id : QId) (c : Cmd) : Ex Done := do
  let o := softOp c.desc
  if o.n = 0 ∧ o.rows = 0 then .ok {}
  else
    if !sfuReady c then .error .notYet
    let k := elemBytes o.src (o.rows * o.n)
    let bs := (← h.source id c 0 k).toArray
    let cs ← if o.mode = 2 then exRead h (queueMaster id) o.cVa (4 * o.rows) else .ok []
    let rows := (List.range o.rows).map fun r =>
      softRow o.mode o.k (bnum cs (4 * r) 4) ((List.range o.n).map fun i => sfuIn o.src o.srcShift (elemAt o.src bs (r * o.n + i)))
    let (codes, t) := sfuOutAll o.dst o.dstShift (rows.flatMap (·.ys))
    let vals := packElems o.dst codes
    let res := if o.mode = 1 then padTo 16 vals ++ rows.flatMap fun r => leBytes 4 r.m ++ leBytes 4 r.s else vals
    .ok { result := res, writes := dstWrites c.desc res
          touched := srcTouch c.desc k ++ (if o.mode = 2 ∧ o.rows ≠ 0 then [(o.cVa, 4 * o.rows)] else [])
          counts := [(0x458, (rows.map (·.made)).sum), (0x45C, (rows.map (·.empty)).sum), (0x460, (rows.map (·.nan)).sum), (0x408, t.sat),
            (0x40C, t.nan)] }

/-- SOFTMAX (R198, R199). -/
def execSoftmax (n : Fin 48) (q : Fin 8) (s : State) : Out :=
  .next (s.onHw fun h => h.execCore ⟨.core n, q.val⟩ 0x62 (fun h c => softmaxRun h ⟨.core n, q.val⟩ c))

def mergeParts (d : BitVec 512) : Nat := bitsOf (dword d 0) 12 0
def mergeRows (d : BitVec 512) : Nat := dword d 1

def statsFormat (d : BitVec 512) : Bool :=
  decide (mergeParts d ≤ 4096) && bitsOf (dword d 0) 31 13 == 0 && dword d 2 == 0 && posFinite (dword d 3) && dword d 4 == 0
    && dword d 5 == 0

def statsLength (h : Hw) (d : BitVec 512) : Bool :=
  let n := mergeParts d * mergeRows d
  decide (8 * n ≤ dSrcLen d) && decide (4 * n ≤ dDstLen d) && decide (4 * n ≤ h.slotLimit)

/-- The factors of one row from its parts' m and s (R200), and whether it counts in SM_EMPTY or SM_NAN. -/
def mergeRow (k : Nat) (ps : List (Nat × Nat)) : List Nat × Nat × Nat :=
  if ps.any fun p => fIsNan p.1 || fIsNan p.2 then (ps.map fun _ => fpNaN, 0, 1)
  else if ps.all fun p => p.1 == fpNegInf then (ps.map fun _ => 0, 1, 0)
  else
    let m := ps.foldl (fun a p => if flt a p.1 then p.1 else a) ((ps.head?.map (·.1)).getD 0)
    let ws := ps.map fun p => if p.1 = fpNegInf then 0 else exp2 (fmul k (fsub p.1 m))
    let s := (ps.zip ws).foldl (fun a (p, w) => fadd a (fmul p.2 w)) 0
    let r := (builtin 2 s).y
    ((ps.zip ws).map fun (p, w) => if p.1 = fpNegInf then 0 else fmul w r, 0, 0)

def statsMergeRun (h : Hw) (id : QId) (c : Cmd) : Ex Done := do
  let parts := mergeParts c.desc
  let rows := mergeRows c.desc
  if parts * rows = 0 then .ok {}
  else
    if !sfuReady c then .error .notYet
    let bs ← h.source id c 0 (8 * parts * rows)
    let a := bs.toArray
    let at_ (p r : Nat) : Nat × Nat := (elemAt fmFP32 a (2 * (p * rows + r)), elemAt fmFP32 a (2 * (p * rows + r) + 1))
    let out := (List.range rows).map fun r => mergeRow (dword c.desc 3) ((List.range parts).map fun p => at_ p r)
    let res := (List.range parts).flatMap fun p => out.flatMap fun o => leBytes 4 (o.1.getD p 0)
    .ok { result := res, writes := dstWrites c.desc res, touched := srcTouch c.desc (8 * parts * rows)
          counts := [(0x458, (out.map fun o => if o.2.2 = 0 then (o.1.filter fIsNan).length else 0).sum), (0x45C, (out.map (·.2.1)).sum),
            (0x460, (out.map (·.2.2)).sum)] }

/-- STATS_MERGE (R200). -/
def execStatsMerge (n : Fin 48) (q : Fin 8) (s : State) : Out :=
  .next (s.onHw fun h => h.execCore ⟨.core n, q.val⟩ 0x63 (fun h c => statsMergeRun h ⟨.core n, q.val⟩ c))

/-! ### ROW_NORM (R201) -/

structure NormOp where
  src : Nat
  dst : Nat
  layer : Bool
  bias : Bool
  len : Nat
  rows : Nat
  srcShift : Int
  dstShift : Int
  eps : Nat
  gain : Nat

def normOp (d : BitVec 512) : NormOp :=
  let a := dword d 0
  let c := dword d 2
  { src := bitsOf a 2 0, dst := bitsOf a 5 3, layer := bitOf a 6, bias := bitOf a 7, len := dword d 1, rows := bitsOf c 15 0,
    srcShift := signedOf 8 (bitsOf c 23 16), dstShift := signedOf 8 (bitsOf c 31 24), eps := dword d 3,
    gain := dword d 4 + dword d 5 * 0x100000000 }

def normFormat (d : BitVec 512) : Bool :=
  let o := normOp d
  sfuFormats o.src o.dst o.len && bitsOf (dword d 0) 31 8 == 0 && (o.layer || !o.bias) && decide (o.eps < fpInf)
    && o.gain % 16 == 0 && bitsOf (dword d 5) 31 20 == 0

/-- Bytes of the gain vector and the bias vector. -/
def NormOp.gainBytes (o : NormOp) : Nat := 2 * o.len * (if o.bias then 2 else 1)

def normLength (h : Hw) (d : BitVec 512) : Bool :=
  let o := normOp d
  decide (elemBytes o.src (o.rows * o.len) ≤ dSrcLen d) && decide (elemBytes o.dst (o.rows * o.len) ≤ dDstLen d)
    && decide (4 * o.rows * o.len ≤ h.slotLimit) && decide (o.gain + o.gainBytes ≤ 2 ^ 52)

/-- One normalised row as FP32 codes. -/
def normRow (o : NormOp) (g b xs : List Nat) : List Nat :=
  let q := (builtin 2 (f32 (ofInt o.len))).y
  let cs := if o.layer then let mu := fmul (rowSum xs) q; xs.map fun x => fsub x mu else xs
  let v := fmul (rowSum (cs.map fun x => fmul x x)) q
  let r := (builtin 3 (fadd v o.eps)).y
  let ys := (cs.zip g).map fun (x, g) => fmul (fmul x r) g
  if o.bias then (ys.zip b).map fun (y, b) => fadd y b else ys

def rowNormRun (h : Hw) (id : QId) (c : Cmd) : Ex Done := do
  let o := normOp c.desc
  if o.len * o.rows = 0 then .ok {}
  else
    if !sfuReady c then .error .notYet
    let k := elemBytes o.src (o.rows * o.len)
    let bs := (← h.source id c 0 k).toArray
    let ga := (← exRead h (queueMaster id) o.gain o.gainBytes).toArray
    let vec (i0 : Nat) : List Nat := (List.range o.len).map fun i => f32 (decode fmBF16 (elemAt fmBF16 ga (i0 + i)))
    let g := vec 0
    let b := if o.bias then vec o.len else []
    let rows := (List.range o.rows).map fun r =>
      let xs := (List.range o.len).map fun i => sfuIn o.src o.srcShift (elemAt o.src bs (r * o.len + i))
      let ys := normRow o g b xs
      (ys, if xs.any fIsNan || g.any fIsNan || b.any fIsNan then 0 else (ys.filter fIsNan).length)
    let (cs, t) := sfuOutAll o.dst o.dstShift (rows.flatMap (·.1))
    let res := packElems o.dst cs
    .ok { result := res, writes := dstWrites c.desc res, touched := srcTouch c.desc k ++ [(o.gain, o.gainBytes)]
          counts := [(0x458, (rows.map (·.2)).sum), (0x408, t.sat), (0x40C, t.nan)] }

/-- ROW_NORM (R201). -/
def execRowNorm (n : Fin 48) (q : Fin 8) (s : State) : Out :=
  .next (s.onHw fun h => h.execCore ⟨.core n, q.val⟩ 0x64 (fun h c => rowNormRun h ⟨.core n, q.val⟩ c))

/-! ### TABLE_CHECK (R209) -/

def checkFormat (d : BitVec 512) : Bool :=
  sfuFuncOk (bitsOf (dword d 0) 4 0) && bitsOf (dword d 0) 31 6 == 0 && !fNonFinite (dword d 1) && !fNonFinite (dword d 2)
    && !flt (dword d 2) (dword d 1) && bitsOf (dword d 3) 31 16 == 0 && dword d 4 == 0 && dword d 5 == 0

def checkLength (h : Hw) (d : BitVec 512) : Bool :=
  let n := 16 + 16 * bitsOf (dword d 3) 15 0
  decide (n ≤ dDstLen d) && decide (n ≤ h.slotLimit)

/-- What a check has found: violations, seam violations, and the records, latest first. -/
structure Found where
  prev : Option (Nat × Eval) := none
  viol : Nat := 0
  seams : Nat := 0
  recs : List (List Byte) := []

/-- One more input of a check. -/
def checkStep (down : Bool) (maxRec : Nat) (f : Nat → Eval) (s : Found) (x : Nat) : Found :=
  let e := f x
  match s.prev with
  | none => { s with prev := some (x, e) }
  | some (x0, e0) =>
    let nan := fIsNan e0.y || fIsNan e.y
    let bad := nan || (if down then flt e0.y e.y else flt e.y e0.y)
    if !bad then { s with prev := some (x, e) }
    else
      let seam := e0.seg != e.seg || e0.red != e.red
      let segOf (x : Nat) (e : Eval) : Nat := match e.seg with | some j => j | none => (Config.openSegment x 2).val
      let r := leBytes 4 x0 ++ leBytes 4 e0.y ++ leBytes 4 e.y
        ++ leBytes 4 (segOf x0 e0 + 256 * segOf x e + (if seam then 0x10000 else 0) + (if nan then 0x20000 else 0))
      { prev := some (x, e), viol := s.viol + 1, seams := s.seams + (if seam then 1 else 0)
        recs := if s.recs.length < maxRec then r :: s.recs else s.recs }

def tableCheckRun (c : Cmd) : Ex Done := do
  let d := c.desc
  let f ← sfuFunc c (bitsOf (dword d 0) 4 0)
  let lo := fKey (dword d 1)
  let hi := fKey (dword d 2)
  let inputs := (hi - lo).toNat + 1
  let r := (List.range inputs).foldl (fun s i => checkStep (bitOf (dword d 0) 5) (bitsOf (dword d 3) 15 0) f s (keyCode (lo + i))) {}
  let res := leBytes 4 inputs ++ leBytes 4 r.viol ++ leBytes 4 r.seams ++ leBytes 4 r.recs.length ++ r.recs.reverse.flatten
  .ok { result := res, writes := dstWrites d res, hitchCounts := [(0x468, r.seams)] }

/-- TABLE_CHECK (R209). -/
def execTableCheck (n : Fin 48) (q : Fin 8) (s : State) : Out :=
  .next (s.onHw fun h => h.execCore ⟨.core n, q.val⟩ 0x65 (fun _ c => tableCheckRun c))

end Sys2Proof.Machine
end

