-- ==== Sys2Proof/Machine/Select.lean ====
section
/-! DEFINITION. The selection unit (R212 to R230): SELECT, SEL_MERGE and SEL_ROUTE. -/

namespace Sys2Proof.Machine

/-- A key: global index and FP32 score. -/
structure SelKey where
  index : Nat
  score : Nat
  deriving DecidableEq, Repr

/-- Whether key a is better than key b under an order, descending or not (R212). -/
def better (asc : Bool) (a b : SelKey) : Bool :=
  if fKey a.score = fKey b.score then decide (a.index < b.index)
  else if asc then flt a.score b.score else flt b.score a.score

/-- The worst infinity of an order, which fills unused entries (R212, R218). -/
def worstInf (asc : Bool) : Nat := if asc then fpInf else fpNegInf

/-- Whether an unmasked element is valid (R213). -/
def keyValid (asc : Bool) (k : SelKey) : Bool := !fIsNan k.score && k.score != worstInf asc

/-- Inserts a key into a list sorted best first. -/
def keyInsert (asc : Bool) (k : SelKey) : List SelKey → List SelKey
  | [] => [k]
  | a :: t => if better asc k a then k :: a :: t else a :: keyInsert asc k t

/-- Keys best first. -/
def keySort (asc : Bool) (ks : List SelKey) : List SelKey := ks.foldl (fun l k => keyInsert asc k l) []

/-- What a row of a result says (R218). -/
structure SelRow where
  entries : List SelKey
  tied : Nat := 0
  dups : Nat := 0
  dupWarning : Bool := false
  nanSeen : Bool := false

/-- The bytes of a result of `k` entries (R218). -/
def selBytes (asc : Bool) (k : Nat) (r : SelRow) : List Byte :=
  let v := r.entries.length
  let short := decide (v < k)
  let tied := decide (v = k ∧ 0 < r.tied)
  let kth := match r.entries.getLast? with | some e => e.score | none => worstInf asc
  let flag (b : Bool) (n : Nat) : Nat := if b then 2 ^ n else 0
  leBytes 2 v ++ leBytes 2 k
    ++ leBytes 4 (flag short 0 + flag tied 1 + flag r.dupWarning 2 + flag r.nanSeen 3 + flag asc 4 + 0x100
        + min r.dups 0xFFFF * 0x10000)
    ++ leBytes 4 (if tied then min r.tied 0xFFFFFFFF else 0) ++ leBytes 4 kth
    ++ (r.entries.flatMap fun e => leBytes 4 e.index ++ leBytes 4 e.score)
    ++ (List.replicate (k - v) (leBytes 4 0xFFFFFFFF ++ leBytes 4 (worstInf asc))).flatten

/-- The refills of a row (R215): every 16th pop of a leaf that has more valid elements than it has popped. -/
def selRefills (base : Nat) (valid popped : List SelKey) : Nat :=
  let count (l : Nat) (ks : List SelKey) : Nat := (ks.filter fun k => (k.index - base) % 256 = l).length
  ((List.range 256).map fun l =>
    let c := count l valid
    let p := count l popped
    ((List.range (p / 16)).filter fun i => 16 * (i + 1) < c).length).sum

/-! ### SELECT and SEL_ROUTE (R216, R227) -/

structure SelectOp where
  src : Nat
  asc : Bool
  mask : Bool
  n : Nat
  k : Nat
  rows : Nat
  base : Nat
  maskVa : Nat

def selectOp (route : Bool) (d : BitVec 512) : SelectOp :=
  let a := dword d 0
  let c := dword d 2
  { src := bitsOf a 2 0, asc := bitOf a 3, mask := bitOf a 4, n := dword d 1, k := bitsOf c 12 0, rows := bitsOf c 31 16,
    base := if route then 0 else dword d 3, maskVa := dword d 4 + dword d 5 * 0x100000000 }

/-- Groups of 256 elements in a row. -/
def SelectOp.groups (o : SelectOp) : Nat := (o.n + 255) / 256

def predBase (d : BitVec 512) : Nat := bitsOf (dword d 3) 5 0

/-- Checks 3 and 6 of R59 (R217, R228). -/
def selectFormat (route : Bool) (h : Hw) (d : BitVec 512) : Bool :=
  let o := selectOp route d
  decide (o.src ≤ 5) && !(o.k == 0 && o.rows != 0) && decide (o.k ≤ bitsOf (h.rd 0x000 0x084) 15 0)
    && (o.mask || o.maskVa == 0) && bitsOf (dword d 0) 31 5 == 0 && bitsOf (dword d 2) 15 13 == 0 && o.maskVa % 32 == 0
    && bitsOf (dword d 5) 31 20 == 0
    && (!route || (decide (1 ≤ o.n ∧ o.n ≤ 64 ∧ o.k ≤ o.n ∧ predBase d + o.n ≤ 64) && bitsOf (dword d 3) 31 6 == 0))

/-- Bytes of the destination. -/
def selectBytes (route : Bool) (o : SelectOp) : Nat :=
  let r := o.rows * (16 + 8 * o.k)
  if route then (r + 15) / 16 * 16 + 4 * o.n else r

def selectLength (route : Bool) (h : Hw) (d : BitVec 512) : Bool :=
  let o := selectOp route d
  decide (elemBytes o.src (o.rows * o.n) ≤ dSrcLen d) && decide (selectBytes route o ≤ dDstLen d)
    && decide (selectBytes route o ≤ h.slotLimit) && decide (o.base + o.n ≤ 0xFFFFFFFF)
    && decide (o.maskVa + o.rows * 32 * o.groups ≤ 2 ^ 52)

/-- One row of scores (R213 to R219): the row, NaN elements met, refills, and whether a tie pass ran. -/
def selectRow (o : SelectOp) (bs mask : Array Byte) (r : Nat) : SelRow × Nat × Nat × Bool :=
  let all := (List.range o.n).filterMap fun i =>
    if o.mask && !((mask.getD (32 * o.groups * r + i / 8) 0).toNat.testBit (i % 8)) then none
    else some { index := o.base + i, score := f32 (decode o.src (elemAt o.src bs (r * o.n + i))) : SelKey }
  let nans := (all.filter fun k => fIsNan k.score).length
  let valid := all.filter (keyValid o.asc)
  let sorted := keySort o.asc valid
  let got := sorted.take o.k
  let rest := sorted.drop o.k
  let same (k : SelKey) : Bool := match got.getLast? with | some g => fKey g.score == fKey k.score | none => false
  let tie := got.length = o.k ∧ (rest.head?.map same).getD false = true
  ({ entries := got, tied := if tie then (rest.filter same).length else 0, nanSeen := decide (0 < nans) }, nans,
    selRefills o.base valid got, tie)

/-- All rows of a SELECT or SEL_ROUTE: the bytes of the results and the counts. -/
def selectAll (h : Hw) (id : QId) (c : Cmd) (route : Bool) : Ex (List SelRow × Done) := do
  let o := selectOp route c.desc
  let k := elemBytes o.src (o.rows * o.n)
  let bs := (← if k = 0 then .ok [] else h.source id c 0 k).toArray
  let mask ← if o.mask ∧ o.rows ≠ 0 then exRead h (queueMaster id) o.maskVa (o.rows * 32 * o.groups) else .ok []
  let rows := (List.range o.rows).map (selectRow o bs mask.toArray)
  let res := (rows.map (·.1)).flatMap (selBytes o.asc o.k)
  .ok (rows.map (·.1), {
    result := res, writes := dstWrites c.desc res
    touched := srcTouch c.desc k ++ (if o.mask ∧ o.rows ≠ 0 then [(o.maskVa, o.rows * 32 * o.groups)] else [])
    counts := [(0x488, (rows.map (·.2.1)).sum), (0x48C, (rows.map (·.2.2.1)).sum), (0x490, (rows.filter (·.2.2.2)).length),
               (0x494, (rows.filter fun r => r.1.entries.length < o.k).length)] })

def selectRun (h : Hw) (id : QId) (c : Cmd) : Ex Done :=
  let o := selectOp false c.desc
  if o.rows * o.n = 0 then .ok {} else (selectAll h id c false).map (·.2)

/-- SELECT (R216). -/
def execSelect (n : Fin 48) (q : Fin 8) (s : State) : Out :=
  .next (s.onHw fun h => h.execCore ⟨.core n, q.val⟩ 0x80 (fun h c => selectRun h ⟨.core n, q.val⟩ c))

def selRouteRun (h : Hw) (id : QId) (c : Cmd) : Ex Done := do
  let o := selectOp true c.desc
  let (rows, r) ← selectAll h id c true
  let count (e : Nat) : Nat := (rows.filter fun r => r.entries.any fun k => k.index == e).length
  let counts := (List.range o.n).map count
  let res := padTo 16 r.result ++ counts.flatMap (leBytes 4)
  let base := predBase c.desc
  let val := (List.range o.n).foldl (fun v e => if counts.getD e 0 = 0 then v else v ||| 2 ^ (base + e)) 0
  .ok { r with result := res, writes := dstWrites c.desc res, predMask := BitVec.ofNat 64 ((2 ^ o.n - 1) * 2 ^ base)
               predVal := BitVec.ofNat 64 val }

/-- SEL_ROUTE (R227): with no row at all, every count and every predicate of its is 0. -/
def execSelRoute (n : Fin 48) (q : Fin 8) (s : State) : Out :=
  .next (s.onHw fun h => h.execCore ⟨.core n, q.val⟩ 0x82 (fun h c => selRouteRun h ⟨.core n, q.val⟩ c))

/-! ### SEL_MERGE (R223 to R225) -/

structure SelMergeOp where
  parts : Nat
  asc : Bool
  kIn : Nat
  kOut : Nat
  rows : Nat

def selMergeOp (d : BitVec 512) : SelMergeOp :=
  { parts := bitsOf (dword d 0) 8 0, asc := bitOf (dword d 0) 16, kIn := bitsOf (dword d 1) 12 0,
    kOut := bitsOf (dword d 2) 12 0, rows := bitsOf (dword d 2) 31 16 }

def selMergeFormat (h : Hw) (d : BitVec 512) : Bool :=
  let o := selMergeOp d
  let cap := bitsOf (h.rd 0x000 0x084) 15 0
  (o.rows == 0 || decide (1 ≤ o.parts ∧ o.parts ≤ 256 ∧ 1 ≤ o.kIn ∧ o.kIn ≤ cap ∧ 1 ≤ o.kOut ∧ o.kOut ≤ cap))
    && bitsOf (dword d 0) 15 9 == 0 && bitsOf (dword d 0) 31 17 == 0 && bitsOf (dword d 1) 31 13 == 0
    && bitsOf (dword d 2) 15 13 == 0 && dword d 3 == 0 && dword d 4 == 0 && dword d 5 == 0

def selMergeLength (h : Hw) (d : BitVec 512) : Bool :=
  let o := selMergeOp d
  decide (o.parts * o.rows * (16 + 8 * o.kIn) ≤ dSrcLen d) && decide (o.rows * (16 + 8 * o.kOut) ≤ dDstLen d)
    && decide (o.rows * (16 + 8 * o.kOut) ≤ h.slotLimit)

/-- A partial result as read: its keys in order and its header's tie and flag fields. -/
structure Part where
  keys : List SelKey
  tiedAtK : Bool
  tied : Nat
  kth : Nat
  dupWarning : Bool
  nanSeen : Bool
  nans : Nat

/-- Reads a part (R223, R225): none for a header that breaks the rules. -/
def partOf (o : SelMergeOp) (bs : List Byte) : Option Part :=
  let w0 := bnum bs 0 4
  let w1 := bnum bs 4 4
  let valid := bitsOf w0 15 0
  if bitsOf w1 15 8 ≠ 1 ∨ bitsOf w0 31 16 ≠ o.kIn ∨ o.kIn < valid ∨ bitOf w1 4 ≠ o.asc then none
  else
    let keys := (List.range valid).map fun j => { index := bnum bs (16 + 8 * j) 4, score := bnum bs (20 + 8 * j) 4 : SelKey }
    some { keys := keys.filter (keyValid o.asc), tiedAtK := bitOf w1 1, tied := bnum bs 8 4, kth := bnum bs 12 4
           dupWarning := bitOf w1 2, nanSeen := bitOf w1 3, nans := (keys.filter fun k => fIsNan k.score).length }

/-- The best head of the parts, the lowest part among equals, with its part. -/
def bestHead (asc : Bool) : Nat → List (List SelKey) → Option (Nat × SelKey)
  | _, [] => none
  | i, [] :: t => bestHead asc (i + 1) t
  | i, (k :: _) :: t =>
    match bestHead asc (i + 1) t with
    | some (j, b) => if better asc b k then some (j, b) else some (i, k)
    | none => some (i, k)

/-- Drops the head of part `i`. -/
def popPart (i : Nat) (ps : List (List SelKey)) : List (List SelKey) := listSet ps i ((ps.getD i []).drop 1)

/-- What a merge of one row has done. -/
structure Merge where
  out : List SelKey := []
  dups : Nat := 0
  mismatch : Nat := 0
  tied : Nat := 0

/-- Replays of the tree through the id filter (R223, R224), `fuel` of them at most. -/
def mergePops (asc : Bool) (kOut : Nat) : Nat → List (List SelKey) → Merge → Merge
  | 0, _, m => m
  | fuel + 1, ps, m =>
    match bestHead asc 0 ps with
    | none => m
    | some (i, k) =>
      let seen := m.out.find? fun e => e.index == k.index
      let full := decide (kOut ≤ m.out.length)
      let ties := match m.out.getLast? with | some e => fKey e.score == fKey k.score | none => false
      if full && !ties then m
      else
        let m := match seen with
          | some e => { m with dups := m.dups + 1, mismatch := m.mismatch + (if fKey e.score = fKey k.score then 0 else 1) }
          | none => if full then { m with tied := m.tied + 1 } else { m with out := m.out ++ [k] }
        mergePops asc kOut fuel (popPart i ps) m

/-- One merged row (R223 to R225). -/
def mergeRowOf (o : SelMergeOp) (ps : List Part) : SelRow × Merge :=
  let total := (ps.map fun p => p.keys.length).sum
  let m := mergePops o.asc o.kOut (total + 1) (ps.map (·.keys)) {}
  let ext := match m.out.getLast? with
    | some e => ((ps.filter fun p => p.tiedAtK && fKey p.kth == fKey e.score).map (·.tied)).sum
    | none => 0
  ({ entries := m.out, tied := m.tied + ext, dups := m.dups, dupWarning := decide (0 < m.mismatch) || ps.any (·.dupWarning)
     nanSeen := ps.any fun p => p.nanSeen || p.nans != 0 }, m)

def selMergeRun (h : Hw) (id : QId) (c : Cmd) : Ex Done := do
  let o := selMergeOp c.desc
  if o.rows = 0 then .ok {}
  else
    let len := 16 + 8 * o.kIn
    let bs ← h.source id c 0 (o.parts * o.rows * len)
    let out ← (List.range o.rows).mapM fun r => do
      let ps ← (List.range o.parts).mapM fun p =>
        match partOf o ((bs.drop ((p * o.rows + r) * len)).take len) with
        | some x => .ok x
        | none => .error (.reject cFORMAT)
      Except.ok (mergeRowOf o ps, (ps.map (·.nans)).sum)
    let res := out.flatMap fun x => selBytes o.asc o.kOut x.1.1
    .ok { result := res, writes := dstWrites c.desc res, touched := srcTouch c.desc (o.parts * o.rows * len)
          counts := [(0x488, (out.map (·.2)).sum), (0x494, (out.filter fun x => x.1.1.entries.length < o.kOut).length),
                     (0x498, (out.map fun x => x.1.2.dups).sum), (0x49C, (out.map fun x => x.1.2.mismatch).sum)] }

/-- SEL_MERGE (R223). -/
def execSelMerge (n : Fin 48) (q : Fin 8) (s : State) : Out :=
  .next (s.onHw fun h => h.execCore ⟨.core n, q.val⟩ 0x81 (fun h c => selMergeRun h ⟨.core n, q.val⟩ c))

end Sys2Proof.Machine
end

