-- ==== Sys2Proof/Machine/Stage.lean ====
section
/-! DEFINITION. What every stage unit shares (R243 to R246, R261, R291, R323, R335, R372): execution that reads as it goes,
the commit gate, the writes of a commit step, and the end of a commit, which Hitch uses too (R70 steps 2, 5 and 6). -/

namespace Sys2Proof.Machine

/-! ### Execution that reads as it goes -/

/-- Execution that keeps the ranges it has read. -/
abbrev Rx (α : Type) := StateT (List (Nat × Nat)) (Except UnitErr) α

/-- A read of `n` bytes. -/
def rxRead (h : Hw) (m : Master) (va n : Nat) : Rx (List Byte) := fun t =>
  match h.read m va n with
  | .ok bs => .ok (bs, if n = 0 then t else (va, n) :: t)
  | .error e => .error (.rd e)

/-- A read of a number. -/
def rxNat (h : Hw) (m : Master) (va n : Nat) : Rx Nat := do return leNat (← rxRead h m va n)

/-- Ends execution with a rejection. -/
def rxFail {α : Type} (code : Nat) : Rx α := fun _ => .error (.reject code)
/-- Ends execution with a rejection unless the condition holds. -/
def rxCheck (c : Bool) (code : Nat) : Rx Unit := if c then pure () else rxFail code
/-- A read of a command's source from its start. -/
def rxSource (h : Hw) (id : QId) (c : Cmd) (n : Nat) : Rx (List Byte) := fun t => (h.source id c 0 n).map (·, srcTouch c.desc n ++ t)

/-- Runs it: what it read is touched when it finishes. -/
def rxRun (x : Rx Done) : Ex Done :=
  match x [] with
  | .ok (d, t) => .ok { d with touched := d.touched ++ t.reverse }
  | .error e => .error e

/-! ### The gate (R70 step 2, R77, R383) -/

/-- Whether a completion record is due (R56). -/
def Hw.recordDue (h : Hw) (id : QId) (c : Cmd) : Bool := dRecord c.desc || bitOf (h.qrd id 0x18) 10 || c.code != 0

/-- Records owed and not written. -/
def Hw.owedRecords (h : Hw) (id : QId) : Nat := ((h.qs id).owed.filter (·.record)).length

/-- Where a record goes that follows all those owed. -/
def Hw.cqNextVa (h : Hw) (id : QId) : Nat :=
  bitsOf (h.qrd id 0x30 + h.qrd id 0x34 * 0x100000000) 51 4 * 16 + 16 * ((h.qrd id 0x3C + h.owedRecords id) % h.cqEntries id)

/-- The writes a mirror packet of a commit carries (R382): those of the commit and its completion record. -/
def Hw.packetWrites (h : Hw) (id : QId) (c : Cmd) (due : Bool) (record : List Byte) : List (Nat × List Byte) :=
  (c.writes ++ (if due then [(h.cqNextVa id, withMirrored record true)] else [])).filter fun w =>
    (h.windowOf w.1).isNone && (h.pair.state != 6 || h.pair.copied.any fun r => decide (r.1 ≤ w.1 ∧ w.1 + w.2.length ≤ r.1 + r.2))

/-- Whether the resynchronisation walk keeps a write of a commit from being forwarded (R395). -/
def Hw.unforwarded (h : Hw) (c : Cmd) : Bool :=
  h.pair.state == 6 && c.writes.any fun w =>
    (h.windowOf w.1).isNone && !(h.pair.copied.any fun r => decide (r.1 ≤ w.1 ∧ w.1 + w.2.length ≤ r.1 + r.2))

/-- Whether a commit is to be forwarded: mirror is set and changes are forwarded (R383). -/
def Hw.forwards (h : Hw) (c : Cmd) : Bool := dMirror c.desc && h.mirroring

/-- Whether a record owed only for a saturation has still to be written: the queue's next command does not begin step 5 before (R69). -/
def Hw.lateOwed (h : Hw) (id : QId) : Bool := (h.qs id).owed.any (·.late)

/-- The ring half of the gate: every owed record and the due one have their entries (R69, R77). -/
def Hw.ringGate (h : Hw) (id : QId) (c : Cmd) : Bool :=
  decide (h.owedRecords id + (if h.recordDue id c then 1 else 0) ≤ h.cqFree id) && !h.lateOwed id

/-- The credit half of the gate (R383). -/
def Hw.creditGate (h : Hw) (id : QId) (c : Cmd) : Bool :=
  !h.forwards c ||
    (let n := packetBytes (h.packetWrites id c (h.recordDue id c) (leBytes 16 0))
     h.credit n || decide (h.logBytes < n))

/-- Counts the head once in MIR_WAIT while it waits for a credit (R383). -/
def Hw.noteWait (h : Hw) (id : QId) : Hw :=
  if (h.qs id).mirWaited then h else (h.count 0x012 0x138).setQs id { h.qs id with mirWaited := true }

/-! ### The end of a commit (R70 steps 5 and 6) -/

/-- The record of a commit. -/
def Hw.commitRecord (h : Hw) (id : QId) (c : Cmd) (code : Nat) (mirrored : Bool) : List Byte :=
  recordBytes id c.desc code c.skipped ((h.qs id).killed.contains c.ptr) mirrored
    (c.ptr.toNat + 1)

/-- A command as the commit of `p` leaves it: one that names the result slot of `p` and has not executed keeps its bytes. -/
def Cmd.keepSlot (p c : Cmd) : Cmd :=
  match addrForm (dSrc c.desc) with
  | .slot d => if c.ptr - BitVec.ofNat 32 d = p.ptr ∧ c.finished = false then { c with operand := some p.result } else c
  | _ => c

/-- Everything of a commit but its writes and what its unit does: semaphores, counters, COMMIT, the mirror packet, the record.
`sigs` are the semaphores it increments, `ws` the writes that a packet carries. -/
def Hw.commitEnd (h : Hw) (id : QId) (c : Cmd) (sigs : List (Nat × Nat × Nat)) : Hw :=
  let p := engPage id.eng
  let (h, full) := sigs.foldl (fun (x : Hw × Bool) s =>
    (x.1.semAdd s.1 s.2.1 s.2.2, x.2 || x.1.semFull s.1 s.2.1 s.2.2)) (h, false)
  let code := if c.code = 0 ∧ full = true then cSEM_OVERFLOW else c.code
  let h := if dOpcode c.desc = 0x06 ∧ c.skipped = false then
      h.trace { cmdTrace id 6 c.desc (dword c.desc 0) 0 with phase := 1 } else h
  let h := c.hitchCounts.foldl (fun h (o, n) => h.count p o n) h
  let h := if code = 0 then h else h.err p id.q code
  let late := !h.recordDue id c && code != 0
  let due := h.recordDue id c || late
  let fwd := h.forwards c
  let record := h.commitRecord id c code fwd
  let ws := h.packetWrites id c due record
  let part := h.unforwarded c
  let big := decide (h.logBytes < packetBytes ws)
  let rid := queueRecord id
  let h := h.noteUpdate id c
  let quad := engQuad id.eng
  let tail := h.qrd id 0x3C + h.owedRecords id + (if due then 1 else 0)
  let q := h.qs id
  let h := h.setQs id { q with cmds := (q.cmds.filter (fun x => x.ptr ≠ c.ptr)).map c.keepSlot, killed := q.killed.filter (· ≠ c.ptr), mirWaited := false,
                               confirmed := q.confirmed.filter (·.1 ≠ c.ptr) }
  let h := h.qwr id 0x14 (h.qCommit id + 1)
  let h := if fwd && !big then
      h.sendPacket (h.mirrorPort quad) (some id) (dGroup c.desc) (dStep c.desc) (some rid) ws
        [(0x18, leBytes 8 (h.qCtx id)), (0x20, leBytes 4 (h.qCommit id)), (0x24, leBytes 4 tail)]
    else if fwd then { h with pair := { h.pair with mirrorBroken := true } }.raise 0x012 6
    else h
  let record := withMirrored record (fwd && !big && !part)
  let h := { h with changes := [] }.paceStreams id c.desc true
  h.owe id { bytes := record, record := due, irq := dIrq c.desc && due, ack := fwd && !big, hitch := true, late := late }

/-! ### Commit steps of stage units (R246) -/

/-- A write in parts that do not cross a 64 KiB page. -/
def cutWrite : Nat → Nat × List Byte → List (Nat × List Byte)
  | 0, w => [w]
  | n + 1, w =>
    if w.2.length ≤ granuleLeft w.1 then [w]
    else (w.1, w.2.take (granuleLeft w.1)) :: cutWrite n (w.1 + granuleLeft w.1, w.2.drop (granuleLeft w.1))

/-- Writes cut so: each part is made as soon as its page lets it. -/
def cutWrites (ws : List (Nat × List Byte)) : List (Nat × List Byte) := ws.flatMap fun w => cutWrite (w.2.length / 0x10000 + 1) w

/-- Parts of writes in order: those that could be made, and what stopped it. -/
def Hw.stageParts (id : QId) (c : Cmd) : List (Nat × List Byte) → Hw → Hw × List (Nat × List Byte)
  | [], h => (h, [])
  | (va, bs) :: t, h =>
    let m := queueMaster id
    match (if (h.windowOf va).isSome then Except.ok [] else h.place m va bs) with
    | .ok _ => Hw.stageParts id c t ((h.lookups m va bs.length).write m va bs)
    | .error (.fault cause level a) => (h.holdFault id c.ptr cause level a true c.desc, (va, bs) :: t)
    | .error _ => (h, (va, bs) :: t)

/-- The writes of a stage unit in order, page by page: the parts left, and what stopped it. -/
def Hw.stageWrites (id : QId) (c : Cmd) (ws : List (Nat × List Byte)) (h : Hw) : Hw × List (Nat × List Byte) :=
  Hw.stageParts id c (cutWrites ws) h

/-- The head of a stage queue, when it has finished and nothing stops its commit step from starting or going on: in FAULT_HOLD the
access held must be that of a later command (log entry 62). -/
def Hw.stageCommitHead (h : Hw) (id : QId) : Option Cmd :=
  match (h.qs id).cmds with
  | c :: _ =>
    if (h.qs id).st = .faultHold ∧ ((h.qs id).heldAt = none ∨ (h.qs id).heldAt = some c.ptr) then none
    else if c.finished ∧ c.ptr.toNat = h.qCommit id then some c else none
  | [] => none

/-- Whether a kill of this cause waits for a command's commit: its commit step has begun (R246), it is an untagged MUZ_STEP or
EMB_GATHER that has signalled (R269, and R18 as log entry 86 reads it), or a prompt that has signalled
(R346), a soft reset only until every chunk of it is. -/
def holdsKill (cause : KillCause) (c : Cmd) : Bool :=
  c.todo.isSome
    || (!c.sent.isEmpty && !dSpec c.desc && (cause == .preempt || cause == .runtime || cause == .reset))
    || (match c.work with
    | .pck w => decide (0 < w.chunks) && (cause == .preempt || cause == .runtime || (cause == .reset && decide (w.chunks < w.total)))
    | _ => false)

/-- Whether the unit keeps the confirmation of a command's step (R264). -/
def Hw.keptConfirm (h : Hw) (id : QId) (c : Cmd) : Bool := (h.qs id).confirmed.contains (c.ptr, dGroup c.desc, dStep c.desc)

/-- Whether a kill of this cause waits for a command of the queue. -/
def Hw.killWaits (h : Hw) (id : QId) (cause : KillCause) : Bool := (h.qs id).cmds.any (holdsKill cause)

/-- A kill waits. -/
def Hw.deferKill (h : Hw) (id : QId) (cause : KillCause) : Hw :=
  let q := h.qs id
  if q.deferred.contains cause then h else h.setQs id { q with deferred := q.deferred ++ [cause] }

/-- A kill, or its wait for a command that commits first; a pre-emption leaves the queue PAUSED (R74). -/
def Hw.killOrDefer (h : Hw) (id : QId) (cause : KillCause) : Hw :=
  if h.killWaits id cause then h.deferKill id cause
  else
    let h := h.kill id cause
    if cause = .preempt then h.enterSt id .paused else h

/-- A kill that waited acts once nothing holds it. -/
def Hw.runDeferred (h : Hw) (id : QId) : Hw :=
  match (h.qs id).deferred with
  | [] => h
  | cause :: _ => if h.killWaits id cause then h else h.kill id cause

/-- A commit step: gate, writes, what the unit does, the end. `eff` is the unit's effect between its writes and the end. -/
def Hw.stageCommit (h : Hw) (id : QId) (eff : Cmd → Hw → Hw) : Hw :=
  match h.stageCommitHead id with
  | none => h
  | some c =>
    if c.todo.isNone && !h.ringGate id c then h
    else if c.todo.isNone && !h.creditGate id c then h.noteWait id
    else
      let ws := c.todo.getD c.writes
      let (h', rest) := Hw.stageWrites id c ws h
      if rest = [] then
        let g := eff c h'
        (g.commitEnd id (((g.qs id).cmds.find? fun x => x.ptr = c.ptr).getD c) c.signals).runDeferred id
      else if c.todo.isNone ∧ (cutWrites ws).length = rest.length then h'
      else h'.updCmd id c.ptr fun c => { c with todo := some rest }

end Sys2Proof.Machine
end

