-- ==== Sys2Proof/Machine/Splice.lean ====
section
/-! DEFINITION. Splice (R231 to R249): vocabulary slots, TOKENISE, DETOKENISE and stream records. -/

namespace Sys2Proof.Machine

/-! ### Vocabulary slots (R231 to R234) -/

def Hw.voc (h : Hw) (v : Nat) : VocSlot := (alGet v h.vocs).getD {}
def Hw.setVoc (h : Hw) (v : Nat) (s : VocSlot) : Hw := { h with vocs := alPut v s h.vocs }

/-- VOCv_STAT, held on the page that is the home of the slots. -/
def vocStatOff (v : Nat) : Nat := 0x08C + 0x10 * v
def Hw.vocStat (h : Hw) (v : Nat) : Nat := h.rd 0x0C0 (vocStatOff v)
/-- The active bank of a slot. -/
def Hw.vocBank (h : Hw) (v : Nat) : Nat := bitsOf (h.vocStat v) 16 16
/-- The header of a bank, and the generation it received when it became active. -/
def VocSlot.hdr (s : VocSlot) (b : Nat) : List Byte := if b = 0 then s.hdr0 else s.hdr1
def VocSlot.gen (s : VocSlot) (b : Nat) : Nat := if b = 0 then s.gen0 else s.gen1
def VocSlot.set (s : VocSlot) (b : Nat) (hdr : List Byte) (gen : Nat) : VocSlot :=
  if b = 0 then { s with hdr0 := hdr, gen0 := gen } else { s with hdr1 := hdr, gen1 := gen }

/-- References that the commands of a kind of stage unit hold on a bank of a slot. -/
def Hw.pinCount (h : Hw) (u : StageUnit) (slot bank : Nat) : Nat :=
  (h.queues.map fun e => match e.1.eng with
    | .stage _ u' => if u' = u then ((e.2.cmds.map fun c => (c.pins.filter (· = (slot, bank))).length).sum) else 0
    | .core _ => 0).sum

/-- The reference count of a bank (R233): commands in flight on it and open streams bound to it. -/
def Hw.vocRefs (h : Hw) (v b : Nat) : Nat :=
  h.pinCount .spl v b + (h.streams.filter fun s => s.slot = v ∧ s.bank = b).length

/-- The fields of a vocabulary header (R234). -/
def vForm (hd : List Byte) : Nat := bitsOf (bnum hd 0 4) 9 8
def vFold (hd : List Byte) : Bool := bitOf (bnum hd 0 4) 10
def vCpMap (hd : List Byte) : Bool := bitOf (bnum hd 0 4) 11
def vTokens (hd : List Byte) : Nat := bnum hd 4 4
def vMaxPiece (hd : List Byte) : Nat := bitsOf (bnum hd 8 4) 10 0
def vSpecials (hd : List Byte) : Nat := bitsOf (bnum hd 8 4) 30 24
def vMergeLog (hd : List Byte) : Nat := bnum hd 12 1
def vCompLog (hd : List Byte) : Nat := bnum hd 13 1
def vProbe (hd : List Byte) : Nat := bnum hd 14 2
def vVa (hd : List Byte) (i : Nat) : Nat := bnum hd (0x10 + 8 * i) 8
def vByteToken (hd : List Byte) (b : Nat) : Nat := bnum hd (0x80 + 4 * b) 4

/-- The check of a vocabulary header (R234); its addresses are multiples of 64 below 2^52. -/
def vocHeaderGood (cap : Nat) (hd : List Byte) : Bool :=
  bitsOf (bnum hd 0 4) 7 0 == 1 && vForm hd != 3 && bitsOf (bnum hd 0 4) 31 12 == 0
    && decide (1 ≤ vTokens hd ∧ vTokens hd ≤ cap) && decide (1 ≤ vMaxPiece hd ∧ vMaxPiece hd ≤ 1024)
    && bitsOf (bnum hd 8 4) 15 11 == 0 && bitsOf (bnum hd 8 4) 23 22 == 0 && !bitOf (bnum hd 8 4) 31 && decide (vSpecials hd ≤ 64)
    && decide (4 ≤ vMergeLog hd ∧ vMergeLog hd ≤ 24) && decide (4 ≤ vCompLog hd ∧ vCompLog hd ≤ 16) && decide (1 ≤ vProbe hd)
    && ((List.range 8).all fun i => vVa hd i % 64 == 0 && decide (vVa hd i < 2 ^ 52)) && (((hd.drop 0x50).take 0x30).all (· == 0))

/-- A read that a register write makes of a header: an absent or moving page is PAGE_FAULT, an uncorrectable line
ECC_UNCORRECTABLE (R232, R274, R300). -/
def Hw.headerRead (h : Hw) (slice va n : Nat) : Except Nat (List Byte) :=
  match h.read ⟨slice, 0, 0, none⟩ va n with
  | .ok bs => .ok bs
  | .error (.ecc _ _) => .error cECC
  | .error _ => .error cPAGE_FAULT

/-- What that read leaves behind. -/
def Hw.headerTouch (h : Hw) (slice va n : Nat) : Hw := h.touch ⟨slice, 0, 0, none⟩ va n

def vocabFlip (r : Req) (d : Fin 4) (i : Fin 16) (_v : Word) (h : Hw) : Hw :=
  let p := 0x0C0 + 8 * d.val
  let v := i.val
  h.guardWrite r p (0x088 + 0x10 * v) 1 fun h =>
    let st := h.vocStat v
    let bank := h.vocBank v
    let other := 1 - bank
    let next := h.rd64 0x0C0 (0x080 + 0x10 * v)
    let gen := (bitsOf st 15 0 + 1) % 0x10000
    if h.vocRefs v other ≠ 0 then (h.wr 0x0C0 (vocStatOff v) (putBit st 19 true)).raise p 8
    else if next = 0 then
      let h := (h.setVoc v ((h.voc v).set other [] gen)).wr 0x0C0 (vocStatOff v) (gen + other * 0x10000)
      { h with measures := h.measures ++ [.vocab v gen []] }
    else
      match h.headerRead d.val next 1152 with
      | .error code =>
        let h := if code = cECC then h.headerTouch d.val next 1152 else h
        ((h.wr 0x0C0 (vocStatOff v) (putBit st 18 true)).err p (4 * v) code).raise p 8
      | .ok hd =>
        let h := h.headerTouch d.val next 1152
        if !vocHeaderGood (bitsOf (h.rd 0x000 0x078) 31 8) hd then
          ((h.wr 0x0C0 (vocStatOff v) (putBit st 18 true)).err p (4 * v) cFORMAT).raise p 8
        else
          let h := h.setVoc v ((h.voc v).set other hd gen)
          let h := h.wr 0x0C0 (vocStatOff v) (gen + other * 0x10000 + 0x20000)
          { h with measures := h.measures ++ [.vocab v gen hd] }

/-- VOCAB_FLIP (R232). -/
def execVocabFlip (r : Req) (d : Fin 4) (i : Fin 16) (v : Word) (s : State) : Out := .next (s.onHw (vocabFlip r d i v))

/-! ### Commands (R244, R245) -/

structure SpliceOp where
  slot : Nat
  final : Bool
  strict : Bool
  special : Bool
  fresh : Bool
  sigCore : Nat
  n : Nat
  va : Nat

def spliceOp (d : BitVec 512) : SpliceOp :=
  let a := dword d 0
  { slot := bitsOf a 3 0, final := bitOf a 4, strict := bitOf a 5, special := bitOf a 6, fresh := bitOf a 7,
    sigCore := bitsOf a 13 8, n := dword d 1, va := dword d 2 + dword d 3 * 0x100000000 }

/-- The header fields that Splice, the Packer and the serving block require to be zero (R244). -/
def stagePlain (d : BitVec 512) : Bool :=
  dGroup d == 0 && !dPredEn d && !dPredInv d && !dFence d && !dSnapshot d && !dSpec d && !dWaitEn d

def spliceFormat (h : Hw) (d : BitVec 512) : Bool :=
  let o := spliceOp d
  stagePlain d && bitsOf (dword d 0) 31 14 == 0 && o.va % 2048 == 0 && bitsOf (dword d 3) 31 20 == 0 && dword d 4 == 0
    && dword d 5 == 0 && decide (o.sigCore < 48) && (!o.fresh || bitOf (h.vocStat o.slot) 17)

def spliceLength (d : BitVec 512) : Bool :=
  let o := spliceOp d
  decide (o.n * (if dOpcode d = 0x10 then 1 else 4) ≤ dSrcLen d) && decide (16 ≤ dDstLen d) && decide (o.va + 2048 ≤ 2 ^ 52)

/-! ### UTF-8 (R237) -/

/-- The continuation ranges that follow a lead byte in well-formed UTF-8; none for a byte that starts no sequence. -/
def utf8Tail (b : Nat) : Option (List (Nat × Nat)) :=
  let c := (0x80, 0xBF)
  if b < 0x80 then some [] else if 0xC2 ≤ b ∧ b ≤ 0xDF then some [c]
  else if b = 0xE0 then some [(0xA0, 0xBF), c] else if b = 0xED then some [(0x80, 0x9F), c]
  else if 0xE1 ≤ b ∧ b ≤ 0xEF then some [c, c] else if b = 0xF0 then some [(0x90, 0xBF), c, c]
  else if b = 0xF4 then some [(0x80, 0x8F), c, c] else if 0xF1 ≤ b ∧ b ≤ 0xF3 then some [c, c, c] else none

/-- How many bytes of the continuation are right, and whether the input ended before the first wrong one. -/
def utf8Match : List (Nat × Nat) → List Byte → Nat × Bool
  | [], _ => (0, false)
  | _ :: _, [] => (0, true)
  | (lo, hi) :: rs, b :: bs =>
    if lo ≤ b.toNat ∧ b.toNat ≤ hi then let (n, e) := utf8Match rs bs; (n + 1, e) else (0, false)

/-- The code point of a well-formed sequence. -/
def utf8Value (bs : List Byte) : Nat :=
  match bs with
  | [a] => a.toNat
  | [a, b] => a.toNat % 32 * 64 + b.toNat % 64
  | [a, b, c] => a.toNat % 16 * 4096 + b.toNat % 64 * 64 + c.toNat % 64
  | [a, b, c, d] => a.toNat % 8 * 262144 + b.toNat % 64 * 4096 + c.toNat % 64 * 64 + d.toNat % 64
  | _ => 0

/-- The bytes of a code point. -/
def utf8Bytes (c : Nat) : List Byte :=
  let b (n : Nat) : Byte := BitVec.ofNat 8 n
  if c < 0x80 then [b c] else if c < 0x800 then [b (0xC0 + c / 64), b (0x80 + c % 64)]
  else if c < 0x10000 then [b (0xE0 + c / 4096), b (0x80 + c / 64 % 64), b (0x80 + c % 64)]
  else [b (0xF0 + c / 262144), b (0x80 + c / 4096 % 64), b (0x80 + c / 64 % 64), b (0x80 + c % 64)]

/-- A decoded character: code point, the input bytes it took, and whether it is a substitution. -/
structure Ch where
  cp : Nat
  raw : List Byte
  bad : Bool

/-- Decodes bytes; what is left is a valid prefix that the end of the input cut, unless `final`. -/
def utf8Decode (final : Bool) : Nat → List Byte → List Ch × List Byte
  | 0, _ => ([], [])
  | fuel + 1, bs =>
    match bs with
    | [] => ([], [])
    | b :: t =>
      match utf8Tail b.toNat with
      | none => let (cs, r) := utf8Decode final fuel t; (⟨0xFFFD, [b], true⟩ :: cs, r)
      | some rs =>
        let (n, ended) := utf8Match rs t
        if n = rs.length then
          let (cs, r) := utf8Decode final fuel (t.drop n)
          (⟨utf8Value (b :: t.take n), b :: t.take n, false⟩ :: cs, r)
        else if ended && !final then ([], bs)
        else
          let (cs, r) := utf8Decode final fuel (t.drop n)
          (⟨0xFFFD, b :: t.take n, true⟩ :: cs, r)

/-! ### Stream records (R241) -/

structure StreamRec where
  openBit : Bool := false
  detok : Bool := false
  slot : Nat := 0
  bank : Nat := 0
  gen : Nat := 0
  carry : List Byte := []
  split : Nat := 0
  seg : List Nat := []
  special : List Byte := []
  piece : List Byte := []
  held : Nat := 0
  replaced : Nat := 0
  total : Nat := 0

def streamRead (bs : List Byte) : StreamRec :=
  let w := bnum bs 0 4
  { openBit := bitOf w 8, detok := bitOf w 9, slot := bitsOf w 13 10, bank := bitsOf w 14 14, gen := bnum bs 4 2,
    carry := (bs.drop 8).take (bitsOf (bnum bs 4 4) 17 16), split := bitsOf (bnum bs 12 4) 5 0,
    seg := (List.range (bitsOf (bnum bs 12 4) 12 8)).map fun i => bnum bs (0x40 + 4 * i) 4,
    special := (bs.drop 0x4C0).take (bitsOf (bnum bs 12 4) 22 16), piece := (bs.drop 0xC0).take (bnum bs 16 4),
    held := bnum bs 20 4, replaced := bnum bs 24 4, total := bnum bs 28 4 }

/-- Cuts or pads bytes to a length. -/
def fitBytes (n : Nat) (bs : List Byte) : List Byte := bs.take n ++ List.replicate (n - bs.length) 0

def streamBytes (r : StreamRec) : List Byte :=
  let flag (b : Bool) (n : Nat) : Nat := if b then 2 ^ n else 0
  leBytes 4 (1 + flag r.openBit 8 + flag r.detok 9 + r.slot * 1024 + r.bank * 16384)
    ++ leBytes 4 (r.gen + r.carry.length * 65536) ++ fitBytes 4 r.carry
    ++ leBytes 4 (r.split + r.seg.length * 256 + r.special.length * 65536) ++ leBytes 4 r.piece.length ++ leBytes 4 r.held
    ++ leBytes 4 (min r.replaced 0xFFFFFFFF) ++ leBytes 4 (min r.total 0xFFFFFFFF) ++ List.replicate 32 0
    ++ fitBytes 128 (r.seg.flatMap (leBytes 4)) ++ fitBytes 1024 r.piece ++ fitBytes 64 r.special ++ List.replicate 0x300 0

/-! ### The text path (R235, R236, R238) -/

/-- Where the tables of a bank are read from, and the bytes of dst that its tokens may take. -/
structure VocRef where
  h : Hw
  m : Master
  hd : List Byte
  room : Nat

/-- The property entry of a code point, as a number. -/
def VocRef.prop (v : VocRef) (cp : Nat) : Rx Nat := do
  let j ← rxNat v.h v.m (vVa v.hd 0 + 2 * (cp / 256)) 2
  rxNat v.h v.m (vVa v.hd 0 + 0x2200 + 4096 * j + 16 * (cp % 256)) 16

def propCcc (e : Nat) : Nat := bitsOf e 7 0
def propClass (e : Nat) : Nat := bitsOf e 11 8
def propFirst (e : Nat) : Bool := bitOf e 12
def propSecond (e : Nat) : Bool := bitOf e 13

/-- The expansion of a code point under word `i` of its property entry: 1 the map, 2 the fold, 3 the decomposition. -/
def VocRef.expand (v : VocRef) (i cp : Nat) : Rx (List Nat) := do
  let e ← v.prop cp
  let w := bitsOf e (32 * i + 31) (32 * i)
  let n := bitsOf w 4 0
  if n = 0 then pure [cp]
  else (List.range n).mapM fun k => rxNat v.h v.m (vVa v.hd 1 + 4 * (bitsOf w 31 5 + k)) 4

/-- Expands each code point of a list. -/
def VocRef.expandAll (v : VocRef) (i : Nat) : List Nat → Rx (List Nat)
  | [] => pure []
  | c :: cs => do return (← v.expand i c) ++ (← VocRef.expandAll v i cs)

/-- Hangul syllables decompose arithmetically. -/
def hangulDecompose (c : Nat) : Option (List Nat) :=
  if 0xAC00 ≤ c ∧ c < 0xAC00 + 11172 then
    let s := c - 0xAC00
    let t := s % 28
    some ([0x1100 + s / 588, 0x1161 + s % 588 / 28] ++ (if t = 0 then [] else [0x11A7 + t]))
  else none

/-- Decomposes each code point. -/
def VocRef.decompose (v : VocRef) : List Nat → Rx (List Nat)
  | [] => pure []
  | c :: cs => do
    let d ← match hangulDecompose c with
      | some d => pure d
      | none => v.expand 3 c
    return d ++ (← VocRef.decompose v cs)

/-- A look-up in a hash table of 16-byte entries, from slot `i` on. -/
def VocRef.probe (v : VocRef) (va log a b : Nat) : Nat → Nat → Rx (Option (List Byte))
  | 0, _ => pure none
  | fuel + 1, i => do
    let e ← rxRead v.h v.m (va + 16 * (i % 2 ^ log)) 16
    if bnum e 0 4 = 0xFFFFFFFF then pure none
    else if bnum e 0 4 = a ∧ bnum e 4 4 = b then pure (some e)
    else VocRef.probe v va log a b fuel (i + 1)

/-- The slot a pair hashes to (R235). -/
def hashSlot (log a b : Nat) : Nat := ((a * 0x9E3779B1) % 0x100000000 ^^^ b) % 2 ^ log

/-- The composite of two code points: Hangul arithmetically, else by the table. -/
def VocRef.pair (v : VocRef) (a b : Nat) : Rx (Option Nat) := do
  if 0x1100 ≤ a ∧ a < 0x1113 ∧ 0x1161 ≤ b ∧ b < 0x1176 then pure (some (0xAC00 + (a - 0x1100) * 588 + (b - 0x1161) * 28))
  else if 0xAC00 ≤ a ∧ a < 0xAC00 + 11172 ∧ (a - 0xAC00) % 28 = 0 ∧ 0x11A8 ≤ b ∧ b < 0x11C3 then pure (some (a + b - 0x11A7))
  else
    let ea ← v.prop a
    let eb ← v.prop b
    if propFirst ea && propSecond eb then
      match ← v.probe (vVa v.hd 2) (vCompLog v.hd) a b (vProbe v.hd) (hashSlot (vCompLog v.hd) a b) with
      | some e => pure (some (bnum e 8 4))
      | none => pure none
    else pure none

/-- A code point of an open segment with its class, and the input bytes that stand in it. -/
structure SegCp where
  cp : Nat
  ccc : Nat
  raw : Nat

/-- Inserts a mark after those of no higher class. -/
def cccInsert (x : SegCp) : List SegCp → List SegCp
  | [] => [x]
  | y :: t => if x.ccc < y.ccc then x :: y :: t else y :: cccInsert x t

/-- Sorts each run of code points with nonzero class, stably (stage 5). -/
def cccOrder : List SegCp → List SegCp → List SegCp
  | [], run => run
  | x :: t, run => if x.ccc = 0 then run ++ x :: cccOrder t [] else cccOrder t (cccInsert x run)

/-- Canonical composition of an ordered segment: `st` the last starter, `mid` what follows it, latest first (stage 6). -/
def VocRef.compose (v : VocRef) : List SegCp → Option SegCp → List SegCp → Rx (List SegCp)
  | [], st, mid => pure (st.toList ++ mid.reverse)
  | x :: t, st, mid => do
    let open_ := match mid.head? with | none => true | some y => decide (y.ccc < x.ccc)
    match st with
    | none => if x.ccc = 0 then do return mid.reverse ++ (← VocRef.compose v t (some x) [])
              else VocRef.compose v t none (x :: mid)
    | some s => do
      let p ← if open_ then v.pair s.cp x.cp else pure none
      match p with
      | some c => VocRef.compose v t (some { s with cp := c, raw := s.raw + x.raw }) mid
      | none =>
        if x.ccc = 0 then do return s :: mid.reverse ++ (← VocRef.compose v t (some x) [])
        else VocRef.compose v t (some s) (x :: mid)

/-- What the text path holds between characters. -/
structure Text where
  split : Nat := 0
  /-- the open segment: each code point with the input bytes that stand in it, and those that stand in the open piece (log entry 32) -/
  seg : List (Nat × Nat) := []
  piece : List Byte := []
  pieceIn : Nat := 0
  /-- tokens emitted, latest first -/
  out : List Nat := []
  segClosed : Nat := 0
  cuts : Nat := 0

/-- One round of merging: the leftmost pair of lowest rank (R238). -/
def VocRef.bestPair (v : VocRef) : Nat → List Nat → Option (Nat × Nat × Nat) → Rx (Option (Nat × Nat × Nat))
  | i, a :: b :: t, best => do
    let e ← v.probe (vVa v.hd 5) (vMergeLog v.hd) a b (vProbe v.hd) (hashSlot (vMergeLog v.hd) a b)
    let best := match e, best with
      | some e, none => some (i, bnum e 8 4, bnum e 12 4)
      | some e, some b => if bnum e 8 4 < b.2.1 then some (i, bnum e 8 4, bnum e 12 4) else some b
      | none, b => b
    VocRef.bestPair v (i + 1) (b :: t) best
  | _, _, best => pure best

/-- Merges a piece, `fuel` rounds at most (R238). -/
def VocRef.merge (v : VocRef) : Nat → List Nat → Rx (List Nat)
  | 0, t => pure t
  | fuel + 1, t => do
    match ← v.bestPair 0 t none with
    | none => pure t
    | some (i, _, r) => VocRef.merge v fuel (t.take i ++ r :: t.drop (i + 2))

/-- Emits tokens: a command whose output would pass dst_len ends here (R245). -/
def VocRef.emit (v : VocRef) (x : Text) (ts : List Nat) : Rx Text := do
  let out := ts.reverse ++ x.out
  rxCheck (decide (4 * out.length ≤ v.room)) cLENGTH
  pure { x with out := out }

/-- Ends the open piece and emits its tokens. -/
def VocRef.closePiece (v : VocRef) (x : Text) : Rx Text := do
  if x.piece = [] then pure { x with pieceIn := 0 }
  else
    let t ← v.merge x.piece.length (x.piece.map fun b => vByteToken v.hd b.toNat)
    v.emit { x with piece := [], pieceIn := 0 } t

/-- One code point of normalised text through the split automaton (stage 7), with its input bytes. -/
def VocRef.presplit (v : VocRef) (x : Text) (cp raw : Nat) : Rx Text := do
  let cls := propClass (← v.prop cp)
  let e ← rxNat v.h v.m (vVa v.hd 3 + 16 * x.split + cls) 1
  let x ← if bitOf e 6 then v.closePiece x else pure x
  let bs := utf8Bytes cp
  let x ← if x.piece ≠ [] ∧ vMaxPiece v.hd < x.piece.length + bs.length then do
      let x ← v.closePiece x
      pure { x with cuts := x.cuts + 1 }
    else pure x
  pure { x with piece := x.piece ++ bs, pieceIn := x.pieceIn + raw, split := bitsOf e 5 0 }

/-- Several code points. -/
def VocRef.presplitAll (v : VocRef) : List SegCp → Text → Rx Text
  | [], x => pure x
  | c :: cs, x => do VocRef.presplitAll v cs (← v.presplit x c.cp c.raw)

/-- The code points of a segment, ordered and, with form 1 or 2, composed. -/
def VocRef.segText (v : VocRef) (seg : List (Nat × Nat)) : Rx (List SegCp) := do
  let cs ← seg.mapM fun c => do return ⟨c.1, propCcc (← v.prop c.1), c.2⟩
  let cs := cccOrder cs []
  if vForm v.hd = 0 then pure cs else v.compose cs none []

/-- Ends the open segment. -/
def VocRef.closeSeg (v : VocRef) (x : Text) : Rx Text := do
  if x.seg = [] then pure x else v.presplitAll (← v.segText x.seg) { x with seg := [] }

/-- Whether a code point with class 0 joins the open segment: the segment composes to one starter that composes with it (log
entry 32). -/
def VocRef.joins (v : VocRef) (seg : List (Nat × Nat)) (cp : Nat) : Rx Bool := do
  if vForm v.hd = 0 then pure false
  else match ← v.segText seg with
    | [s] => do return (← v.pair s.cp cp).isSome
    | _ => pure false

/-- One decomposed code point joins a segment (stages 5 and 6); `raw` input bytes go with it. -/
def VocRef.segPush (v : VocRef) (x : Text) (cp raw : Nat) : Rx Text := do
  let ccc := propCcc (← v.prop cp)
  let x ← if ccc = 0 ∧ x.seg ≠ [] then do
      if ← v.joins x.seg cp then pure x else v.closeSeg x
    else pure x
  let x := { x with seg := x.seg ++ [(cp, raw)] }
  if x.seg.length = 32 then do
    let x ← v.closeSeg x
    pure { x with segClosed := x.segClosed + 1 }
  else pure x

/-- The code points that one becomes; its input bytes go with the last. -/
def VocRef.segPushAll (v : VocRef) (raw : Nat) : List Nat → Text → Rx Text
  | [], x => pure x
  | [c], x => v.segPush x c raw
  | c :: cs, x => do VocRef.segPushAll v raw cs (← v.segPush x c 0)

/-- One code point through stages 3 to 8. -/
def VocRef.push (v : VocRef) (x : Text) (cp raw : Nat) : Rx Text := do
  let cs ← if vCpMap v.hd then v.expand 1 cp else pure [cp]
  let cs ← if vFold v.hd then v.expandAll 2 cs else pure cs
  let cs ← if vForm v.hd = 0 then pure cs else v.decompose cs
  v.segPushAll raw cs x

/-- The special tokens of a vocabulary: id and bytes (R235). -/
def VocRef.specials (v : VocRef) : Rx (List (Nat × List Byte)) :=
  (List.range (vSpecials v.hd)).mapM fun i => do
    let e ← rxRead v.h v.m (vVa v.hd 4 + 80 * i) 80
    pure (bnum e 0 4, (e.drop 8).take (min 64 (bnum e 4 4)))

/-- The longest special string that starts the text, the earliest of equals. -/
def specialMatch (text : List Byte) (sp : List (Nat × List Byte)) : Option (Nat × List Byte) :=
  sp.foldl (fun best e => if e.2 ≠ [] ∧ e.2.isPrefixOf text = true ∧ (match best with | some b => decide (b.2.length < e.2.length) | none => true) = true
    then some e else best) none

/-- Whether a longer special string could still match text that ends here, with a carry behind it. -/
def specialOpen (text carry : List Byte) (got : Nat) (sp : List (Nat × List Byte)) : Bool :=
  sp.any fun e => decide (got < e.2.length) &&
    ((decide (text.length + carry.length < e.2.length) && (text ++ carry).isPrefixOf e.2)
      || (!carry.isEmpty && (text ++ utf8Bytes 0xFFFD).isPrefixOf e.2))

/-- Drops the characters that `n` bytes of text cover. -/
def dropText : Nat → List Ch → List Ch
  | _, [] => []
  | n, c :: cs => if n = 0 then c :: cs else dropText (n - (utf8Bytes c.cp).length) cs

/-- The decoded characters through stages 2 to 8, in order; what is held back for a partial special match, as raw bytes. In strict mode the
first substitution met ends the command (R237). -/
def VocRef.walk (v : VocRef) (sp : List (Nat × List Byte)) (strict final : Bool) (carry : List Byte) :
    Nat → List Ch → Text → Rx (Text × List Byte)
  | 0, _, x => pure (x, [])
  | fuel + 1, cs, x =>
    match cs with
    | [] => pure (x, [])
    | c :: rest => do
      let text := cs.flatMap fun c => utf8Bytes c.cp
      let hit := specialMatch text sp
      if !final && specialOpen text carry ((hit.map fun e => e.2.length).getD 0) sp then do
        rxCheck (!(strict && cs.any (·.bad))) cUTF8
        pure (x, cs.flatMap (·.raw))
      else match hit with
        | some e => do
          let left := dropText e.2.length cs
          rxCheck (!(strict && (cs.take (cs.length - left.length)).any (·.bad))) cUTF8
          let x ← v.emit (← v.closePiece (← v.closeSeg x)) [e.1]
          VocRef.walk v sp strict final carry fuel left { x with split := 0 }
        | none => do
          rxCheck (!(strict && c.bad)) cUTF8
          VocRef.walk v sp strict final carry fuel rest (← v.push x c.cp c.raw.length)

/-! ### Execution (R239 to R242) -/

/-- The stream a command runs on: its record, and the bank. A command with fresh = 1 ignores the record (R242); one with
fresh = 0 that names an open stream without a reference binds it to the active bank of its generation (R392). -/
def spliceStream (h : Hw) (id : QId) (c : Cmd) (detok : Bool) : Rx StreamRec := do
  let o := spliceOp c.desc
  if o.fresh then
    let b := match c.pins with | (_, b) :: _ => b | [] => h.vocBank o.slot
    pure { openBit := true, detok := detok, slot := o.slot, bank := b, gen := (h.voc o.slot).gen b }
  else
    let bs ← rxRead h (queueMaster id) o.va 2048
    let r := streamRead bs
    let bound := h.streams.any fun s => s.va = o.va ∧ s.slot = o.slot ∧ s.bank = r.bank
    rxCheck (bnum bs 0 1 == 1 && r.openBit && r.detok == detok && r.slot == o.slot && r.gen == (h.voc o.slot).gen r.bank
      && (bound || r.bank == h.vocBank o.slot)) cFORMAT
    pure r

/-- The result header (R246). -/
def spliceHeader (count : Nat) (replaced seg cut closed : Bool) (subs held : Nat) : List Byte :=
  let flag (b : Bool) (n : Nat) : Nat := if b then 2 ^ n else 0
  leBytes 4 count ++ leBytes 4 (flag replaced 0 + flag seg 1 + flag cut 2 + flag closed 3 + 0x100) ++ leBytes 4 subs ++ leBytes 4 held

/-- What a finished Splice command leaves: output, header, then stream record (R246). -/
def spliceDone (c : Cmd) (r : StreamRec) (raws : List Nat) (hdr out : List Byte) (counts : List (Nat × Nat)) : Done :=
  let o := spliceOp c.desc
  let dst := match addrForm (dDst c.desc) with | .va a => a | _ => 0
  { result := hdr ++ out
    writes := (if out = [] then [] else [(dst + 16, out)]) ++ [(dst, hdr), (o.va, streamBytes r)]
    hitchCounts := counts, work := .splice o.va o.slot r.bank o.fresh o.final raws
    signals := if dSigEn c.desc then [(o.sigCore, dSigSem c.desc, 1)] else [] }

/-- The input bytes that stand in each code point of the segment a stream holds open. The record gives only their sum with others; of a
stream that another module bound they are those of the code points (log entry 32). -/
def segRaws (h : Hw) (va : Nat) (r : StreamRec) : List Nat :=
  match h.streams.find? fun s => s.va = va ∧ s.raws.length = r.seg.length with
  | some s => s.raws
  | none => r.seg.map fun c => (utf8Bytes c).length

def tokeniseRun (h : Hw) (id : QId) (c : Cmd) : Rx Done := do
  let o := spliceOp c.desc
  if o.n = 0 ∧ o.final = false then pure { signals := if dSigEn c.desc then [(o.sigCore, dSigSem c.desc, 1)] else [] }
  else
    let r ← spliceStream h id c false
    let v : VocRef := ⟨h, queueMaster id, (h.voc o.slot).hdr r.bank, dDstLen c.desc - 16⟩
    let input ← rxSource h id c o.n
    let bytes := r.carry ++ input
    let (chs, carry) := utf8Decode o.final (bytes.length + 1) bytes
    let subs := (chs.filter (·.bad)).length
    let front := ((utf8Decode true (r.special.length + 1) r.special).1).map fun c => { c with bad := false }
    let sp ← if o.special then v.specials else pure []
    let raws := segRaws h o.va r
    let x0 : Text := { split := r.split, seg := r.seg.zip raws, piece := r.piece,
                       pieceIn := r.held - r.carry.length - r.special.length - raws.sum }
    let all := front ++ chs
    let (x, special) ← v.walk sp o.strict o.final carry (all.length + 1) all x0
    let x ← if o.final then do v.closePiece (← v.closeSeg x) else pure x
    let tokens := x.out.reverse
    let held := if o.final then 0 else carry.length + special.length + (x.seg.map (·.2)).sum + x.pieceIn
    let r' : StreamRec := { r with openBit := !o.final, carry := carry, split := x.split, seg := x.seg.map (·.1), special := special,
                                   piece := x.piece, held := held, replaced := r.replaced + subs, total := r.total + tokens.length }
    pure (spliceDone c r' (x.seg.map (·.2))
      (spliceHeader tokens.length (decide (0 < subs)) (decide (0 < x.segClosed)) (decide (0 < x.cuts)) o.final subs held)
      (tokens.flatMap (leBytes 4)) [(0x044, subs), (0x048, x.segClosed), (0x04C, x.cuts), (0x054, tokens.length)])

/-- The bytes that a token id contributes, and whether it is a bad id, which ends a strict command (R240). -/
def VocRef.tokenBytes (v : VocRef) (strict emit : Bool) (t : Nat) : Rx (List Byte × Bool) := do
  if vTokens v.hd ≤ t then do
    rxCheck (!strict) cFORMAT
    pure (utf8Bytes 0xFFFD, true)
  else
    let e ← rxNat v.h v.m (vVa v.hd 6 + 8 * t) 8
    let bs ← if bitOf e 48 && !emit then pure [] else rxRead v.h v.m (vVa v.hd 7 + bitsOf e 31 0) (bitsOf e 47 32)
    pure (bs, false)

/-- What ends a command as its characters are written in order: an ill-formed one in strict mode, or no room; 0 for nothing. -/
def chStop (strict : Bool) : Nat → List Ch → Nat
  | _, [] => 0
  | room, c :: cs =>
    let n := (utf8Bytes c.cp).length
    if strict && c.bad then cUTF8 else if room < n then cLENGTH else chStop strict (room - n) cs

/-- What DETOKENISE holds between token ids: bytes of a character not yet complete, what it has written, latest part first, and how many
substitutions and bad ids it has met. -/
structure Detok where
  carry : List Byte
  out : List (List Byte) := []
  size : Nat := 0
  subs : Nat := 0
  bad : Nat := 0

/-- More bytes through the decoder: complete characters are written in order until an ill-formed one ends a strict command or there is no
room for one (R240, R245). -/
def VocRef.detokPush (v : VocRef) (strict final : Bool) (bs : List Byte) (x : Detok) : Rx Detok := do
  let bytes := x.carry ++ bs
  let (chs, carry) := utf8Decode final (bytes.length + 1) bytes
  let why := chStop strict (v.room - x.size) chs
  rxCheck (why == 0) why
  let out := chs.flatMap fun c => utf8Bytes c.cp
  pure { x with carry := carry, out := out :: x.out, size := x.size + out.length, subs := x.subs + (chs.filter (·.bad)).length }

/-- Token ids in order. -/
def VocRef.detokAll (v : VocRef) (strict emit : Bool) : List Nat → Detok → Rx Detok
  | [], x => pure x
  | t :: ts, x => do
    let (bs, bad) ← v.tokenBytes strict emit t
    let x ← v.detokPush strict false bs x
    VocRef.detokAll v strict emit ts (if bad then { x with bad := x.bad + 1 } else x)

def detokeniseRun (h : Hw) (id : QId) (c : Cmd) : Rx Done := do
  let o := spliceOp c.desc
  if o.n = 0 ∧ o.final = false then pure { signals := if dSigEn c.desc then [(o.sigCore, dSigSem c.desc, 1)] else [] }
  else
    let r ← spliceStream h id c true
    let v : VocRef := ⟨h, queueMaster id, (h.voc o.slot).hdr r.bank, dDstLen c.desc - 16⟩
    let ids ← rxSource h id c (4 * o.n)
    let x ← v.detokAll o.strict o.special ((List.range o.n).map fun i => bnum ids (4 * i) 4) { carry := r.carry }
    let x ← if o.final then v.detokPush o.strict true [] x else pure x
    let subs := x.subs + x.bad
    let out := x.out.reverse.flatten
    let r' : StreamRec := { r with openBit := !o.final, carry := x.carry, held := x.carry.length, replaced := r.replaced + subs,
                                   total := r.total + out.length }
    pure (spliceDone c r' [] (spliceHeader out.length (decide (0 < subs)) false false o.final subs x.carry.length) out
      [(0x044, subs), (0x050, x.bad), (0x058, out.length)])

/-- A reference on the bank a command's stream names, taken when it reads the record (R233). -/
def Hw.splicePin (h : Hw) (id : QId) (c : Cmd) (detok : Bool) : Hw :=
  let o := spliceOp c.desc
  if c.pins ≠ [] ∨ (o.n = 0 ∧ o.final = false) then h
  else match spliceStream h id c detok [] with
    | .ok (r, _) => h.updCmd id c.ptr fun c => { c with pins := [(o.slot, r.bank)] }
    | .error _ => h

/-- Whether another command in flight names the same stream record: what both write is open (R242). -/
def spliceSame (c : Cmd) (q : QId) (c' : Cmd) : Bool :=
  (match q.eng with | .stage _ .spl => true | _ => false) && (dOpcode c'.desc == 0x10 || dOpcode c'.desc == 0x11)
    && (spliceOp c'.desc).va == (spliceOp c.desc).va

/-- A Splice command that runs out of destination leaves what follows the first 16 bytes open (R245). -/
def Hw.spliceExec (h : Hw) (id : QId) (op : Nat) (detok : Bool) (f : Hw → Cmd → Rx Done) : Hw :=
  match h.stageHead id op with
  | none => h
  | some c =>
    let h := h.splicePin id c detok
    let c := ((h.qs id).cmds.find? fun x => x.ptr = c.ptr).getD c
    match rxRun (f h c) with
    | .ok r => (h.finishCmd id c r).openShared id c.ptr (spliceSame c)
    | .error e => (if e = .reject cLENGTH then h.openDst id c.desc 16 else h).failCmd id c e

/-- TOKENISE (R236). -/
def execTokenise (d : Fin 4) (q : Fin 4) (s : State) : Out :=
  .next (s.onHw fun h => h.spliceExec ⟨.stage d .spl, q.val⟩ 0x10 false (fun h c => tokeniseRun h ⟨.stage d .spl, q.val⟩ c))

/-- DETOKENISE (R240). -/
def execDetokenise (d : Fin 4) (q : Fin 4) (s : State) : Out :=
  .next (s.onHw fun h => h.spliceExec ⟨.stage d .spl, q.val⟩ 0x11 true (fun h c => detokeniseRun h ⟨.stage d .spl, q.val⟩ c))

/-- Step 4 of a Splice commit (R233, R242, R246): the stream's reference. -/
def spliceCommit (c : Cmd) (h : Hw) : Hw :=
  match c.work with
  | .splice va slot bank fresh final raws =>
    let others := h.streams.filter fun s => s.va ≠ va
    match h.streams.find? fun s => s.va = va with
    | some s =>
      if final then { h with streams := others }
      else { h with streams := others ++ [if fresh then ⟨va, slot, bank, raws⟩ else { s with raws := raws }] }
    | none => if final then h else { h with streams := others ++ [⟨va, slot, bank, raws⟩] }
  | _ => h

end Sys2Proof.Machine
end

