-- ==== Sys2Proof/Machine/Muzzle.lean ====
section
/-! DEFINITION. Muzzle (R250 to R272): grammar tables, the trie, masks, constraint records, MUZ_STEP and its commit. -/

namespace Sys2Proof.Machine

/-! ### Grammar headers (R250) -/

def gAuto (g : List Byte) : Bool := bitOf (bnum g 0 4) 8
def gTrie (g : List Byte) : Bool := bitOf (bnum g 0 4) 9
def gFallback (g : List Byte) : Bool := bitOf (bnum g 0 4) 10
def gTokens (g : List Byte) : Nat := bnum g 4 4
def gStates (g : List Byte) : Nat := bnum g 8 4
def gStart (g : List Byte) : Nat := bnum g 12 4
def gFallbackToken (g : List Byte) : Nat := bnum g 16 4
def gStack (g : List Byte) : Nat := bnum g 20 4
def gNodes (g : List Byte) : Nat := bnum g 24 4
def gDepth (g : List Byte) : Nat := bnum g 28 4
def gVa (g : List Byte) (i : Nat) : Nat := bnum g (0x20 + 8 * i) 8

/-- The check of a grammar header. -/
def grammarGood (capTokens capStack : Nat) (g : List Byte) : Bool :=
  bitsOf (bnum g 0 4) 7 0 == 1 && bitsOf (bnum g 0 4) 31 11 == 0 && decide (1 ≤ gTokens g ∧ gTokens g ≤ capTokens)
    && (if gAuto g then decide (1 ≤ gStates g ∧ gStates g ≤ 0xFFFFFF ∧ gStart g < gStates g) else gStates g == 0 && gStart g == 0)
    && (if gFallback g then decide (gFallbackToken g < gTokens g) else gFallbackToken g == 0) && decide (gStack g ≤ capStack)
    && (if gTrie g then decide (1 ≤ gNodes g ∧ gNodes g ≤ 65536 ∧ 1 ≤ gDepth g ∧ gDepth g ≤ 64) else gNodes g == 0 && gDepth g == 0)
    && ((List.range 4).all fun i => gVa g i % 64 == 0 && decide (gVa g i < 2 ^ 52))

/-- The same against the capabilities of the unit's page. -/
def Hw.grammarOk (h : Hw) (id : QId) (g : List Byte) : Bool :=
  grammarGood (bitsOf (h.rd 0x000 0x078) 31 8) (bitsOf (h.rd (engPage id.eng) 0x040) 11 0) g

/-! ### The automaton (R251 to R253) -/

/-- What a unit reads a grammar with: the master, the header, and the record's address. -/
structure GramRef where
  h : Hw
  m : Master
  g : List Byte
  va : Nat

/-- A state record. -/
def GramRef.stateRec (r : GramRef) (s : Nat) : Rx (List Byte) := rxRead r.h r.m (gVa r.g 0 + 16 * s) 16

/-- Searches the `n` transitions from index `lo` for the range that holds a token. -/
def GramRef.search (r : GramRef) (tok : Nat) : Nat → Nat → Nat → Rx (Option (List Byte))
  | 0, _, _ => pure none
  | fuel + 1, lo, n => do
    if n = 0 then pure none
    else
      let k := n / 2
      let t ← rxRead r.h r.m (gVa r.g 2 + 16 * (lo + k)) 16
      if tok < bnum t 0 4 then GramRef.search r tok fuel lo k
      else if bnum t 4 4 < tok then GramRef.search r tok fuel (lo + k + 1) (n - k - 1)
      else pure (some t)

/-- Stack entry `i` of a record. -/
def GramRef.stackAt (r : GramRef) (x : MuzRec) (i : Nat) : Rx Nat :=
  match alGet i x.stack with
  | some v => pure v
  | none => rxNat r.h r.m (r.va + 0x100 + 4 * i) 4

/-- How a step ends. -/
inductive StepEnd where
  | ok (x : MuzRec)
  | miss
  | overflow

/-- Pops `k` entries: the depth, the last value popped, and state ids at or above n_states met; none when the stack is empty. -/
def GramRef.pops (r : GramRef) (x : MuzRec) : Nat → Nat → Nat → Nat → Rx (Option (Nat × Nat) × Nat)
  | 0, sp, last, bad => pure (some (sp, last), bad)
  | k + 1, sp, _, bad => do
    if sp = 0 then pure (none, bad)
    else
      let p := (← r.stackAt x (sp - 1)) % 0x1000000
      GramRef.pops r x k (sp - 1) p (bad + if gStates r.g ≤ p then 1 else 0)

/-- The automaton's step from state `s` with dispatch depth `d` (R253), with the state ids at or above n_states it met. -/
def GramRef.autoStep (r : GramRef) (tok : Nat) : Nat → Nat → Nat → MuzRec → Nat → Rx (StepEnd × Nat)
  | 0, _, _, _, bad => pure (.miss, bad)
  | fuel + 1, d, s, x, bad => do
    let st ← r.stateRec s
    let off := bnum st 8 4
    let main := bnum st 12 2
    let w ← if d = 0 then r.search tok 20 off main else r.search tok 20 (off + main) (bnum st 14 1)
    match w with
    | none => pure (.miss, bad)
    | some t =>
      let c := bnum t 8 4
      match ← r.pops x (bitsOf c 26 24) x.sp 0 bad with
      | (none, bad) => pure (.miss, bad)
      | (some (sp, p), bad) =>
        let use := bitOf c 27
        let s' := if use then p else bitsOf c 23 0
        let bad := bad + if !use && decide (gStates r.g ≤ s') then 1 else 0
        if bitOf c 28 && sp == gStack r.g then pure (.overflow, bad)
        else
          let x := if bitOf c 28 then { x with sp := sp + 1, stack := alPut sp (bnum t 12 4 % 0x1000000) x.stack } else { x with sp := sp }
          if bitOf c 29 then (if d = 7 then pure (.miss, bad) else GramRef.autoStep r tok fuel (d + 1) s' x bad)
          else if gStates r.g ≤ s' then pure (.miss, bad)
          else pure (.ok { x with state := s' }, bad)

/-! ### The trie (R254, R255) -/

def GramRef.node (r : GramRef) (n : Nat) : Rx (List Byte) := rxRead r.h r.m (gVa r.g 3 + 16 * n) 16

/-- Searches `n` children from node `lo` for one with a token. -/
def GramRef.child (r : GramRef) (tok : Nat) : Nat → Nat → Nat → Rx (Option Nat)
  | 0, _, _ => pure none
  | fuel + 1, lo, n => do
    if n = 0 then pure none
    else
      let k := n / 2
      let e ← r.node (lo + k)
      if tok < bnum e 0 4 then GramRef.child r tok fuel lo k
      else if bnum e 0 4 < tok then GramRef.child r tok fuel (lo + k + 1) (n - k - 1)
      else pure (some (lo + k))

/-- The trie's step (R255). -/
def GramRef.trieStep (r : GramRef) (tok : Nat) : Nat → Nat → Rx Nat
  | 0, _ => pure 0
  | fuel + 1, n => do
    let e ← r.node n
    match ← r.child tok 18 (bnum e 4 2) (bnum e 6 2) with
    | some c => pure c
    | none => if n = 0 then pure 0 else GramRef.trieStep r tok fuel (bnum e 8 2)

/-- The children's tokens that carry a flag. -/
def GramRef.kids (r : GramRef) (e : List Byte) (bit : Nat) : Rx (List Nat) := do
  let cs ← (List.range (bnum e 6 2)).mapM fun i => r.node (bnum e 4 2 + i)
  pure ((cs.filter fun c => bitOf (bnum c 8 4) bit).map fun c => bnum c 0 4)

/-- The banned set, and the forced set of the deepest node that has one, along the fail chain (R255). -/
def GramRef.trieSets (r : GramRef) : Nat → Nat → Rx (List Nat × Option (List Nat))
  | 0, _ => pure ([], none)
  | fuel + 1, n => do
    let e ← r.node n
    let b ← if bitOf (bnum e 8 4) 18 then r.kids e 16 else pure []
    let f ← if bitOf (bnum e 8 4) 19 then do pure (some (← r.kids e 17)) else pure none
    if n = 0 then pure (b, f)
    else
      let (b', f') ← GramRef.trieSets r fuel (bnum e 8 2)
      pure (b ++ b', f.orElse fun _ => f')

/-! ### Masks (R256, R257) -/

/-- The allowed set of the automaton at a state, and its accept bit. -/
def GramRef.autoSet (r : GramRef) (s : Nat) : Rx ((Nat → Bool) × Bool) := do
  let st ← r.stateRec s
  let w := bnum st 4 4
  let accept := bitOf (bnum st 12 4) 24
  match bitsOf w 25 24 with
  | 2 => pure (fun _ => true, accept)
  | 3 => pure (fun _ => false, accept)
  | form =>
    let bs ← rxRead r.h r.m (gVa r.g 1 + 8 * bnum st 0 4) (8 * bitsOf w 23 0)
    let runs := (List.range (bitsOf w 23 0)).map fun i => (bnum bs (8 * i) 4, bnum bs (8 * i + 4) 4)
    pure (fun t => (runs.any fun x => decide (x.1 ≤ t ∧ t ≤ x.2)) == (form == 0), accept)

/-- The allowed set at a position: the set, accept, and whether a forced set applies. -/
def GramRef.allowed (r : GramRef) (x : MuzRec) : Rx ((Nat → Bool) × Bool × Bool) := do
  let (a, accept) ← if x.mode = 1 then pure ((fun _ => true : Nat → Bool), false) else r.autoSet x.state
  if x.mode = 0 then pure (a, accept, false)
  else
    let (b, f) ← r.trieSets (gDepth r.g + 2) x.node
    pure (fun t => a t && !b.contains t && (match f with | some l => l.contains t | none => true), accept, f.isSome)

/-- The bitmap of a set of tokens below n_tokens. -/
def maskBitmap (g : List Byte) (f : Nat → Bool) : List Byte :=
  (List.range (32 * ((gTokens g + 255) / 256))).map fun i =>
    BitVec.ofNat 8 ((List.range 8).foldr (fun k acc => 2 * acc + (if 8 * i + k < gTokens g ∧ f (8 * i + k) = true then 1 else 0)) 0)

/-- How many tokens a set allows. -/
def setCount (g : List Byte) (f : Nat → Bool) : Nat := ((List.range (gTokens g)).filter f).length

/-! ### Stepping (R256 to R259) -/

/-- What a command has done so far. -/
structure MuzRun where
  x : MuzRec
  stepped : Nat := 0
  fallbacks : Nat := 0
  miss : Bool := false
  overflow : Bool := false
  bad : Nat := 0

/-- One token. -/
def GramRef.stepToken (r : GramRef) (u : MuzRun) (tok : Nat) : Rx MuzRun := do
  let missed (u : MuzRun) : MuzRun := { u with miss := true, x := { u.x with dead := true, missSeen := true } }
  if u.miss || u.overflow || u.x.failed then pure u
  else
    let (f, _, _) ← r.allowed u.x
    let dead := u.x.dead || setCount r.g f == 0
    if dead then
      if gFallback r.g && tok == gFallbackToken r.g then pure { u with fallbacks := u.fallbacks + 1, x := { u.x with dead := true } }
      else pure (missed u)
    else if gTokens r.g ≤ tok ∨ f tok = false then pure (missed u)
    else
      let (e, bad) ← if u.x.mode = 1 then pure (.ok u.x, 0) else r.autoStep tok 8 0 u.x.state u.x 0
      let u := { u with bad := u.bad + bad }
      match e with
      | .miss => pure (missed u)
      | .overflow => pure { u with overflow := true, x := { u.x with failed := true } }
      | .ok y =>
        let n ← if u.x.mode = 0 then pure u.x.node else r.trieStep tok (gDepth r.g + 2) u.x.node
        pure { u with stepped := u.stepped + 1, x := { y with node := n, steps := min (y.steps + 1) 0xFFFFFFFF } }

/-- Every token of a command. -/
def GramRef.stepAll (r : GramRef) : List Nat → MuzRun → Rx MuzRun
  | [], u => pure u
  | t :: ts, u => do GramRef.stepAll r ts (← r.stepToken u t)

/-! ### MUZ_STEP (R260 to R266) -/

structure MuzOp where
  mode : Nat
  fresh : Bool
  imm : Bool
  mrEn : Bool
  core : Nat
  sem : Nat
  n : Nat
  va : Nat

def muzOp (d : BitVec 512) : MuzOp :=
  let a := dword d 0
  { mode := bitsOf a 1 0, fresh := bitOf a 2, imm := bitOf a 3, mrEn := bitOf a 4, core := bitsOf a 10 5, sem := bitsOf a 14 11,
    n := dword d 1, va := dword d 2 + dword d 3 * 0x100000000 }

/-- The header fields of a Muzzle command (R262). -/
def muzPlain (d : BitVec 512) : Bool :=
  !dPredEn d && !dPredInv d && !dFence d && !dSnapshot d && !dWaitEn d && (dGroup d != 0) == dSpec d
    && (dOpcode d == 0x10 || !dSigEn d)

def muzFormat (d : BitVec 512) : Bool :=
  let o := muzOp d
  o.mode != 3 && decide (o.core < 48) && bitsOf (dDst d) 4 0 == 0 && bitsOf (dword d 0) 31 15 == 0 && o.va % 256 == 0
    && bitsOf (dword d 3) 31 20 == 0 && dword d 4 == 0 && dword d 5 == 0

def muzLength (d : BitVec 512) : Bool :=
  let o := muzOp d
  (o.imm || decide (4 * o.n ≤ dSrcLen d)) && decide (o.va + 4352 ≤ 2 ^ 52)

/-- Reads a constraint record's header. -/
def muzRecOf (bs : List Byte) : MuzRec :=
  let w := bnum bs 0 4
  { dead := bitOf w 9, failed := bitOf w 10, missSeen := bitOf w 11, mode := bitsOf w 13 12, state := bitsOf (bnum bs 4 4) 23 0,
    node := bnum bs 8 2, sp := bitsOf (bnum bs 8 4) 26 16, steps := bnum bs 12 4, grammar := bnum bs 16 8 }

/-- The header line of a constraint record (R260). -/
def muzRecBytes (x : MuzRec) : List Byte :=
  let flag (b : Bool) (n : Nat) : Nat := if b then 2 ^ n else 0
  leBytes 4 (1 + flag true 8 + flag x.dead 9 + flag x.failed 10 + flag x.missSeen 11 + x.mode * 4096) ++ leBytes 4 x.state
    ++ leBytes 4 (x.node + x.sp * 65536) ++ leBytes 4 x.steps ++ leBytes 8 x.grammar ++ List.replicate 40 0

/-- The pending state of the latest earlier uncommitted command of the queue that names the same record (R266). -/
def Hw.muzPending (h : Hw) (id : QId) (c : Cmd) (va : Nat) : Option MuzRec :=
  ((h.qs id).cmds.takeWhile fun x => x.ptr ≠ c.ptr).foldl (fun acc x =>
    match x.work with
    | .muz v p _ _ => if v = va then some p else acc
    | _ => acc) none

/-- The state a command starts from (R260, R266). -/
def muzStart (h : Hw) (id : QId) (c : Cmd) (g : List Byte) : Rx MuzRec := do
  let o := muzOp c.desc
  let root := ctxMuzzle (h.qs id).ctx
  if o.fresh then pure { mode := o.mode, state := gStart g, grammar := root }
  else
    let x ← match h.muzPending id c o.va with
      | some p => pure p
      | none => do
        let bs ← rxRead h (queueMaster id) o.va 64
        rxCheck (bnum bs 0 1 == 1 && bitOf (bnum bs 0 4) 8) cFORMAT
        pure (muzRecOf bs)
    rxCheck (x.mode == o.mode && x.grammar == root) cFORMAT
    pure x

/-- The entries of `new` that are not in `old`. -/
def overDiff (old new : List (Nat × Nat)) : List (Nat × Nat) := new.filter fun e => alGet e.1 old ≠ some e.2

/-- What a MUZ_STEP gives: mask and trailer, and what it leaves. -/
def muzRun (h : Hw) (id : QId) (c : Cmd) : Rx (List Byte × Done) := do
  let o := muzOp c.desc
  let g := (h.qs id).grammar
  let flag (b : Bool) (n : Nat) : Nat := if b then 2 ^ n else 0
  rxCheck (!g.isEmpty) cCONTEXT
  rxCheck ((o.mode == 1 || gAuto g) && (o.mode == 0 || gTrie g)) cFORMAT
  rxCheck (decide (maskBytes g ≤ dDstLen c.desc)) cLENGTH
  let r : GramRef := ⟨h, queueMaster id, g, o.va⟩
  let x0 ← muzStart h id c g
  let toks ← if o.imm then pure [o.n] else do
    let bs ← rxSource h id c (4 * o.n)
    pure ((List.range o.n).map fun i => bnum bs (4 * i) 4)
  let u ← r.stepAll toks { x := x0 }
  let (f, accept, forced) ← r.allowed u.x
  let dead := u.x.dead || setCount g f == 0
  let x := { u.x with dead := dead }
  let fb := dead && !x.failed && gFallback g
  let set (t : Nat) : Bool := if x.failed then false else if dead then fb && t == gFallbackToken g else f t
  let count := setCount g set
  let deadEnd := count == 0
  let trailer := leBytes 4 (if o.mode = 1 then 0 else x.state) ++ leBytes 4 ((if o.mode = 0 then 0 else x.node) + x.sp * 65536)
    ++ leBytes 4 count
    ++ leBytes 4 (flag deadEnd 0 + flag fb 1 + flag u.miss 2 + flag x.failed 3 + flag (o.mode != 1 && accept) 4
        + flag (forced && !dead && !x.failed) 5 + 0x100)
  let out := maskBitmap g set ++ trailer
  let stack := (overDiff x0.stack x.stack).map fun e => (o.va + 0x100 + 4 * e.1, leBytes 4 e.2)
  pure (out, {
    result := out, writes := (o.va, muzRecBytes x) :: stack
    code := if x.failed then cSTACK_OVERFLOW else if deadEnd then cDEAD_END else 0
    hitchCounts := [(0x044, u.stepped), (0x048, if u.miss then 1 else 0), (0x04C, if deadEnd then 1 else 0), (0x050, u.fallbacks),
                    (0x054, if u.overflow then 1 else 0), (0x05C, u.bad)]
    signals := if dSigEn c.desc then [(o.core, dSigSem c.desc, 1)] else []
    work := .muz o.va x out.length (u.miss || u.overflow) })

/-- Whether a command of another queue names the same constraint record: the record and the masks of both are open (R266). -/
def muzSame (id : QId) (va : Nat) (q : QId) (c : Cmd) : Bool :=
  q != id && (match c.work with | .muz v _ _ _ => v == va | _ => false)

/-- Opens the masks of two commands that name one record. -/
def Hw.muzClash (h : Hw) (id : QId) (c : Cmd) (va : Nat) : Hw :=
  let others := h.sharers id c.ptr (muzSame id va)
  if others = [] then h
  else
    let h := ((id, c.ptr) :: others).foldl (fun h e =>
      match (h.qs e.1).cmds.find? fun x => x.ptr = e.2 with
      | some x => match x.work with
        | .muz _ _ n _ => Hw.openRange (queueMaster e.1) (n / 0x10000 + 2) (dDst x.desc) n h
        | _ => h
      | none => h) h
    h.openShared id c.ptr (muzSame id va)

/-- Whether step `s` of group `g` is confirmed (R64). -/
def Hw.confirmed (h : Hw) (g s : Nat) : Bool := match alGet g h.groups with | some e => e.confirmed.toNat.testBit s | none => false

/-- Whether a command's commit waits for the confirmation of its step (R264, R294). -/
def Hw.waitsConfirm (h : Hw) (id : QId) (c : Cmd) : Bool :=
  dSpec c.desc && !h.confirmed (dGroup c.desc) (dStep c.desc) && !h.keptConfirm id c

/-- The mask-ready signal (R264, R268): tagged when the command is speculative and its step not yet confirmed; a saturation is the
command's status (R69). -/
def Hw.muzReady (h : Hw) (id : QId) (c : Cmd) : Hw :=
  let o := muzOp c.desc
  if !o.mrEn then h
  else
    let full := h.semFull o.core o.sem 1
    let h := h.semAdd o.core o.sem 1
    let h := if h.waitsConfirm id c then
        { h with tagged := h.tagged ++ [⟨o.core, o.sem, 1, dGroup c.desc, dStep c.desc, id, c.ptr⟩] }
      else h
    h.updCmd id c.ptr fun c => { c with sent := [(o.core, o.sem)], code := if c.code = 0 ∧ full = true then cSEM_OVERFLOW else c.code }

/-- Steps 1 to 5 of a MUZ_STEP (R264): the mask is written before the commit. -/
def muzStep (id : QId) (h : Hw) : Hw :=
  match h.stageHead id 0x10 with
  | none => h
  | some c =>
    match muzRun h id c [] with
    | .error e => h.failCmd id c e
    | .ok ((out, r), t) =>
      let (h, rest) := Hw.stageWrites id c [(dDst c.desc, out)] h
      if rest ≠ [] then h
      else
        let h := h.finishCmd id c { r with touched := t.reverse }
        (h.muzReady id c).muzClash id c (muzOp c.desc).va

/-- MUZ_STEP (R264). -/
def execMuzStep (d : Fin 4) (q : Fin 4) (s : State) : Out := .next (s.onHw (muzStep ⟨.stage d .muz, q.val⟩))

/-- What a Muzzle commit adds to its writes: the interrupt of R258, and, when the tags stand no longer, nothing more. -/
def muzCommitEff (id : QId) (c : Cmd) (h : Hw) : Hw :=
  match c.work with
  | .muz _ _ _ true => h.raise (engPage id.eng) 8
  | _ => h

def muzCommit (id : QId) (h : Hw) : Hw :=
  match h.stageCommitHead id with
  | none => h
  | some c =>
    match c.work with
    | .muz _ _ _ _ => if h.waitsConfirm id c then h else h.stageCommit id (muzCommitEff id)
    | _ => h

/-- MUZ_COMMIT (R265): a speculative step waits for its confirmation. -/
def execMuzCommit (d : Fin 4) (q : Fin 4) (s : State) : Out := .next (s.onHw (muzCommit ⟨.stage d .muz, q.val⟩))

end Sys2Proof.Machine
end

