-- ==== Sys2Proof/Machine/Emb.lean ====
section
/-! DEFINITION. Embedding tables (R273 to R298): table slots, the directory, gathers, updates, row replacement and moves, the
exchange between owners, and the free rings. Every access of a command is made as the requesting unit's (log entry 34). -/

namespace Sys2Proof.Machine

/-! ### Table slots and descriptors (R273 to R276) -/

def Hw.tbl (h : Hw) (t : Nat) : TblSlot := (alGet t h.tbls).getD {}
def Hw.setTbl (h : Hw) (t : Nat) (s : TblSlot) : Hw := { h with tbls := alPut t s h.tbls }
def TblSlot.desc (s : TblSlot) (b : Nat) : List Byte := if b = 0 then s.d0 else s.d1
def TblSlot.bases (s : TblSlot) (b : Nat) : List (Nat × Nat) := if b = 0 then s.r0 else s.r1
def TblSlot.set (s : TblSlot) (b : Nat) (d : List Byte) (r : List (Nat × Nat)) : TblSlot :=
  if b = 0 then { s with d0 := d, r0 := r } else { s with d1 := d, r1 := r }

/-- Registers of slot `t` on the page that is the home of the slots. -/
def tblOff (t o : Nat) : Nat := 0x400 + 0x20 * t + o
def Hw.tblStat (h : Hw) (t : Nat) : Nat := h.rd 0x0C2 (tblOff t 0x0C)
def Hw.tblBank (h : Hw) (t : Nat) : Nat := bitsOf (h.tblStat t) 16 16
/-- C. -/
def Hw.tblGen (h : Hw) (t : Nat) : Nat := bitsOf (h.tblStat t) 15 0
def Hw.tblLoaded (h : Hw) (t : Nat) : Bool := bitOf (h.tblStat t) 17
def Hw.setTblGen (h : Hw) (t g : Nat) : Hw := h.wr 0x0C2 (tblOff t 0x0C) (h.tblStat t / 0x10000 * 0x10000 + g % 0x10000)

/-- The fields of a table descriptor (R275). -/
def tFormat (d : List Byte) : Nat := bitsOf (bnum d 0 4) 10 8
def tResident (d : List Byte) : Bool := bitOf (bnum d 0 4) 11
def tLen (d : List Byte) : Nat := bitsOf (bnum d 4 4) 14 0
def tShift (d : List Byte) : Int := signedOf 8 (bnum d 6 1)
def tRows (d : List Byte) : Nat := bnum d 8 4
def tShards (d : List Byte) : Nat := bitsOf (bnum d 12 4) 5 0
/-- Address `i`: 0 directory, 1 default row, 2 pool 0, 3 pool 1, 5 free ring, 6 state. -/
def tVa (d : List Byte) (i : Nat) : Nat := bnum d (0x10 + 8 * i) 8
def tSlots (d : List Byte) (pool : Nat) : Nat := bnum d (0x30 + 4 * pool) 4
def tFreeLog (d : List Byte) : Nat := bnum d 0x48 1
def tMap (d : List Byte) (j : Nat) : Nat := bnum d (0x60 + j) 1
/-- Row bytes and stride (R276). -/
def tRowBytes (d : List Byte) : Nat := vecBytes (tFormat d) (tLen d)
def tStride (d : List Byte) : Nat := (tRowBytes d + 63) / 64 * 64

/-- The check of a table descriptor (R275). -/
def tblDescGood (formats : Nat) (d : List Byte) : Bool :=
  bnum d 0 1 == 1 && bitsOf (bnum d 0 4) 31 12 == 0 && formats.testBit (tFormat d)
    && decide (1 ≤ tLen d ∧ tLen d ≤ 16384) && !bitOf (bnum d 4 4) 15 && bnum d 7 1 == 0
    && decide (1 ≤ tRows d ∧ tRows d ≤ 2 ^ 30) && decide (1 ≤ tShards d ∧ tShards d ≤ 32) && bitsOf (bnum d 12 4) 31 6 == 0
    && ([0, 1, 2, 3, 5, 6].all fun i => tVa d i % 64 == 0 && decide (tVa d i < 2 ^ 52))
    && decide (tSlots d 0 < 2 ^ 30 ∧ tSlots d 1 < 2 ^ 30) && (tSlots d 1 != 0 || tVa d 3 == 0)
    && bnum d 0x49 3 == 0 && decide (4 ≤ tFreeLog d ∧ tFreeLog d ≤ 20) && ((d.drop 0x4C).take 0x14).all (· == 0)
    && ((List.range 32).all fun j => decide (tMap d j < 32))
    && !(tFormat d == fmINT4 && tLen d % 2 == 1) && !(tFormat d == fmBS4 && tLen d % 32 != 0)

/-- The ranges a resident table captures: number, address and bytes (R274 step 3). -/
def tRanges (d : List Byte) : List (Nat × Nat × Nat) :=
  [(0, tVa d 0, 16 * tShards d * tRows d), (1, tVa d 1, tRowBytes d), (2, tVa d 2, tSlots d 0 * tStride d),
   (3, tVa d 3, tSlots d 1 * tStride d), (5, tVa d 5, 8 * 2 ^ tFreeLog d)]

/-- Walks `fuel` pages from `va`: each pinned, all in one tier on contiguous frames, the next expected at `want`. -/
def Hw.walkRange (h : Hw) (slice : Nat) : Nat → Nat → Nat → Except Nat Unit
  | 0, _, _ => .ok ()
  | fuel + 1, va, want =>
    match h.walk slice va with
    | .error (.fault c _ _) => .error (if c = fWalkError then cECC else cPAGE_FAULT)
    | .error _ => .error cECC
    | .ok lf =>
      if pteMoving lf.pte then .error cPAGE_FAULT
      else if ptePin lf.pte = false ∨ leafKey lf va ≠ want then .error cFORMAT
      else h.walkRange slice fuel (va + 0x10000) (want + 0x10000)

/-- The captured base of one range. -/
def Hw.captureRange (h : Hw) (slice va n : Nat) : Except Nat Nat :=
  match h.walk slice va with
  | .error (.fault c _ _) => .error (if c = fWalkError then cECC else cPAGE_FAULT)
  | .error _ => .error cECC
  | .ok lf => (h.walkRange slice ((va % 0x10000 + n + 0xFFFF) / 0x10000) (va / 0x10000 * 0x10000)
      (leafKey lf (va / 0x10000 * 0x10000))).map fun _ => leafKey lf va

/-- The captured bases of every range. -/
def Hw.capture (h : Hw) (slice : Nat) : List (Nat × Nat × Nat) → Except Nat (List (Nat × Nat))
  | [] => .ok []
  | (i, va, n) :: t =>
    if n = 0 then h.capture slice t
    else match h.captureRange slice va n with
      | .error e => .error e
      | .ok k => (h.capture slice t).map ((i, k) :: ·)

/-! ### References (R273, R281) -/

/-- What the embedding commands in flight carry. -/
def Hw.embWorks (h : Hw) : List EmbWork :=
  h.queues.flatMap fun e => e.2.cmds.filterMap fun c => match c.work with | .emb w => some w | _ => none

/-- Commands, gathers of the mailbox port, and batches of other modules, bound to a bank. -/
def Hw.tblRefs (h : Hw) (t b : Nat) : Nat :=
  (h.embWorks.filter fun w => w.table = t ∧ w.bank = b).length + (h.gathers.filter fun g => g.table = t ∧ g.bank = b).length
    + (h.exch.filter fun f => f.table = t ∧ f.bank = b).length

/-- Commands, and batches of other modules (R286), pinned at a generation. -/
def Hw.tblPinned (h : Hw) (t g : Nat) : Nat :=
  (h.embWorks.filter fun w => w.table = t ∧ w.pin = some g).length + (h.exch.filter fun f => f.table = t ∧ f.pin = some g).length

/-- The rows whose entries or bytes an embedding command of a table writes at its commit step. -/
def embNamed (t : Nat) (c : Cmd) : List Nat :=
  match c.work with
  | .emb w =>
    if w.table ≠ t then []
    else if dOpcode c.desc = 0x11 then w.rows.map (·.row)
    else w.list.map fun e => bitsOf e 31 0
  | _ => []

/-- Whether the writes of a commit step of an EMB have begun and not ended and one of them is this row's: its directory entry, or with
`dir` false its bytes (R280, R287 step 2, R289). -/
def Hw.rowLocked (h : Hw) (t : Nat) (dir : Bool) (row : Nat) : Bool :=
  h.queues.any fun e => (match e.1.eng with | .stage _ .emb => true | _ => false) && e.2.cmds.any fun c =>
    c.todo.isSome && (!dir || dOpcode c.desc != 0x11) && (embNamed t c).contains row

def tableFlip (r : Req) (d : Fin 4) (i : Fin 64) (_v : Word) (h : Hw) : Hw :=
  let p := 0x0C2 + 8 * d.val
  let t := i.val
  h.guardWrite r p (tblOff t 0x08) 1 fun h =>
    let st := h.tblStat t
    let other := 1 - h.tblBank t
    let next := h.rd64 0x0C2 (tblOff t 0x00)
    let gen := (h.tblGen t + 1) % 0x10000
    let bad (h : Hw) (code : Nat) : Hw := ((h.wr 0x0C2 (tblOff t 0x0C) (putBit st 19 true)).err p (4 * t) code).raise p 8
    if h.tblRefs t other ≠ 0 then (h.wr 0x0C2 (tblOff t 0x0C) (putBit st 18 true)).raise p 8
    else if next = 0 then
      (h.setTbl t ((h.tbl t).set other [] [])).wr 0x0C2 (tblOff t 0x0C) (gen + other * 0x10000)
    else
      match h.headerRead d.val next 128 with
      | .error code => bad (if code = cECC then h.headerTouch d.val next 128 else h) code
      | .ok desc =>
        let h := h.headerTouch d.val next 128
        if !tblDescGood (h.rd 0x000 0x094) desc then bad h cFORMAT
        else match (if tResident desc then h.capture d.val (tRanges desc) else .ok []) with
          | .error code => bad h code
          | .ok bases =>
            (h.setTbl t ((h.tbl t).set other desc bases)).wr 0x0C2 (tblOff t 0x0C) (gen + other * 0x10000 + 0x20000)

/-- TABLE_FLIP (R274). -/
def execTableFlip (r : Req) (d : Fin 4) (i : Fin 64) (v : Word) (s : State) : Out := .next (s.onHw (tableFlip r d i v))

/-! ### The directory (R277 to R280) -/

/-- A table as a command reaches it: its bank's descriptor and captured bases, and the master that reads it. -/
structure TblRef where
  h : Hw
  m : Master
  t : Nat
  d : List Byte
  bases : List (Nat × Nat)

def Hw.tblRef (h : Hw) (m : Master) (t b : Nat) : TblRef := ⟨h, m, t, (h.tbl t).desc b, (h.tbl t).bases b⟩

/-- The captured key of byte `o` of range `i`, of a resident table. -/
def TblRef.key (r : TblRef) (i o : Nat) : Option Nat := (alGet i r.bases).map (· + o)

/-- Reads `n` bytes at offset `o` of range `i`. -/
def TblRef.read (r : TblRef) (i o n : Nat) : Rx (List Byte) :=
  match r.key i o with
  | none => rxRead r.h r.m (tVa r.d i + o) n
  | some k => fun t =>
    if r.h.bistHeld k then .error (.rd .wait)
    else if r.h.badRead? k n then .error (.rd (.ecc (tVa r.d i + o) n))
    else .ok (r.h.bytes k n, t)

/-- Where a row lies: owner module and quadrant, and the offset of its entry. -/
def TblRef.ownerModule (r : TblRef) (row : Nat) : Nat := bitsOf (tMap r.d (row % tShards r.d)) 2 0
def TblRef.ownerQuad (r : TblRef) (row : Nat) : Nat := bitsOf (tMap r.d (row % tShards r.d)) 4 3
def TblRef.local (r : TblRef) (row : Nat) : Nat := row / tShards r.d
def TblRef.dirOff (r : TblRef) (row : Nat) : Nat := 16 * ((row % tShards r.d) * tRows r.d + r.local row)
/-- The first test of R279. -/
def TblRef.inside (r : TblRef) (row : Nat) : Bool := decide (r.local row < tRows r.d)

/-- A directory entry (R278). -/
structure DirEnt where
  slot : Nat
  pool : Nat
  gen : Nat
  valid : Bool
  moving : Bool
  hasPrev : Bool
  pSlot : Nat
  pPool : Nat
  pGen : Nat
  deriving DecidableEq, Repr

def dirOf (bs : List Byte) : DirEnt :=
  let a := bnum bs 0 8
  let b := bnum bs 8 8
  { slot := bitsOf a 29 0, pool := bitsOf a 30 30, gen := bitsOf a 47 32, valid := bitOf a 48, moving := bitOf a 49,
    hasPrev := bitOf a 50, pSlot := bitsOf b 29 0, pPool := bitsOf b 30 30, pGen := bitsOf b 47 32 }

def DirEnt.bytes (e : DirEnt) : List Byte :=
  let f (b : Bool) (n : Nat) : Nat := if b then 2 ^ n else 0
  leBytes 8 (e.slot + e.pool * 2 ^ 30 + e.gen * 2 ^ 32 + f e.valid 48 + f e.moving 49 + f e.hasPrev 50)
    ++ leBytes 8 (e.pSlot + e.pPool * 2 ^ 30 + e.pGen * 2 ^ 32)

/-- A row's entry, once no commit step that is under way writes the entry. -/
def TblRef.entryOnly (r : TblRef) (row : Nat) : Rx DirEnt := fun t =>
  if r.h.rowLocked r.t true row then .error (.rd .wait) else (r.read 0 (r.dirOff row) 16 t).map fun x => (dirOf x.1, x.2)

/-- A row's entry, once no commit step that is under way writes the entry or the row: the owner orders what reads a row and what writes
it (R280). -/
def TblRef.entry (r : TblRef) (row : Nat) : Rx DirEnt := fun t =>
  if r.h.rowLocked r.t false row then .error (.rd .wait) else r.entryOnly row t

/-- The row bytes of a slot; a slot beyond its pool ends the command (R293). -/
def TblRef.slotRow (r : TblRef) (slot pool : Nat) : Rx (List Byte) := do
  rxCheck (decide (slot < tSlots r.d pool)) cFORMAT
  r.read (2 + pool) (slot * tStride r.d) (tRowBytes r.d)

/-- Whether a row lags C by 2^14 to 2^15 − 1 (R283). -/
def lags (c g : Nat) : Bool := let n := (c + 0x10000 - g % 0x10000) % 0x10000; decide (0x4000 ≤ n ∧ n < 0x8000)

/-- Whether generation `g` is newer than the pin (R279). -/
def newerThan (g pin : Nat) : Bool := let n := (g + 0x10000 - pin % 0x10000) % 0x10000; decide (1 ≤ n ∧ n < 0x8000)

/-- The default row. -/
def TblRef.default (r : TblRef) (row : Nat) (stale : Bool) : Rx EmbRow := do
  return ⟨0, row, true, stale, false, ← r.read 1 0 (tRowBytes r.d), []⟩

/-- A copy of a row. -/
def TblRef.copy (r : TblRef) (row : Nat) (stale : Bool) (slot pool : Nat) : Rx EmbRow := do
  return ⟨0, row, false, stale, true, ← r.slotRow slot pool, []⟩

/-- A read of a row for a command (R279). -/
def TblRef.row (r : TblRef) (c : Nat) (pin : Option Nat) (row : Nat) : Rx EmbRow := do
  if !r.inside row then r.default row false
  else
    let e ← r.entry row
    let stale := e.valid && lags c e.gen
    match pin with
    | some p =>
      if newerThan e.gen p then
        if e.hasPrev then r.copy row stale e.pSlot e.pPool else r.default row stale
      else if e.valid then r.copy row stale e.slot e.pool else r.default row stale
    | none => if e.valid then r.copy row stale e.slot e.pool else r.default row stale

/-- A read of a row for an update (R288): its current copy; of one that is not valid, nothing. -/
def TblRef.rowFor (r : TblRef) (c : Nat) (row : Nat) : Rx EmbRow := do
  let e ← r.entry row
  if e.valid then r.copy row (lags c e.gen) e.slot e.pool else return ⟨0, row, false, false, false, [], []⟩

/-! ### Commands (R291 to R294) -/

structure EmbOp where
  table : Nat
  imm : Bool
  outFmt : Nat
  opt : Nat
  bs4 : Bool
  sr : Bool
  skip : Bool
  gradFmt : Nat
  stamp : Bool
  sigCore : Nat
  n : Nat
  gradVa : Nat
  hyperVa : Nat

def embOp (d : BitVec 512) : EmbOp :=
  let a := dword d 0
  { table := bitsOf a 5 0, imm := bitOf a 6, outFmt := bitsOf a 9 7, opt := bitsOf a 7 6, bs4 := bitOf a 8, sr := bitOf a 9,
    skip := bitOf a 10, gradFmt := bitsOf a 13 11, stamp := bitOf a 6
    sigCore := match dOpcode d with | 0x10 => bitsOf a 15 10 | 0x11 => bitsOf a 19 14 | 0x14 => bitsOf a 11 6 | _ => bitsOf a 12 7
    n := dword d 1, gradVa := dword d 2 + dword d 3 * 0x100000000, hyperVa := dword d 4 + dword d 5 * 0x100000000 }

/-- Bytes of an output row (R292). -/
def outRowBytes (d : List Byte) (fmt : Nat) : Nat :=
  ((if fmt = tFormat d then tRowBytes d else elemBytes fmt (tLen d)) + 15) / 16 * 16

def outFmtGood (d : List Byte) (fmt : Nat) : Bool := fmt == tFormat d || fmt == fmFP32 || fmt == fmBF16

def embPlain (d : BitVec 512) : Bool :=
  !dPredEn d && !dPredInv d && !dFence d && !dWaitEn d && (dGroup d != 0) == dSpec d
    && (dOpcode d == 0x10 || (!dSpec d && !dSnapshot d))

def embFormat (h : Hw) (d : BitVec 512) : Bool :=
  let o := embOp d
  let t := (h.tbl o.table).desc (h.tblBank o.table)
  let a := dword d 0
  let rest := dword d 2 == 0 && dword d 3 == 0 && dword d 4 == 0 && dword d 5 == 0
  embPlain d && h.tblLoaded o.table && decide (o.sigCore < 48) &&
    (match dOpcode d with
    | 0x10 => bitsOf a 31 16 == 0 && rest && outFmtGood t o.outFmt
    | 0x11 => bitsOf a 31 20 == 0 && o.opt != 3 && (o.gradFmt == fmFP32 || o.gradFmt == fmBF16 || o.gradFmt == fmE5M2)
        && (tFormat t == fmFP32 || tFormat t == fmBF16) && (o.opt == 0 || tVa t 6 != 0)
        && o.gradVa % 16 == 0 && o.hyperVa % 32 == 0
    | 0x12 => bitsOf a 31 13 == 0 && rest
    | 0x13 => bitsOf a 31 13 == 0 && rest && !o.stamp
    | _ => bitsOf a 31 12 == 0 && rest && o.n == 0 && dSrc d == 0 && dDst d == 0)

def embLength (h : Hw) (d : BitVec 512) : Bool :=
  let o := embOp d
  let t := (h.tbl o.table).desc (h.tblBank o.table)
  let n := if o.imm then 1 else o.n
  match dOpcode d with
  | 0x10 => (o.imm || decide (4 * o.n ≤ dSrcLen d)) && decide (16 + n * outRowBytes t o.outFmt ≤ dDstLen d)
  | 0x11 => decide (4 * o.n ≤ dSrcLen d) && decide (16 ≤ dDstLen d) && decide (o.gradVa + o.n * elemBytes o.gradFmt (tLen t) ≤ 2 ^ 52)
      && decide (o.hyperVa + 32 ≤ 2 ^ 52)
  | 0x14 => true
  | _ => decide (8 * o.n ≤ dSrcLen d) && decide (16 ≤ dDstLen d)

/-- Whether a command waits at issue (R282): a command pinned at C − 1 remains. -/
def embWaits (h : Hw) (d : BitVec 512) : Bool :=
  let t := (embOp d).table
  (dOpcode d == 0x12 || dOpcode d == 0x13 || dOpcode d == 0x14) && h.tblPinned t ((h.tblGen t + 0xFFFF) % 0x10000) != 0

/-- What a command carries from its issue (R273, R281, R167). -/
def embStart (h : Hw) (d : BitVec 512) : Work :=
  let t := (embOp d).table
  let c := h.tblGen t
  .emb { table := t, bank := h.tblBank t, serial := h.tblSerial, pin := if dSnapshot d then some c else none, gen := c
         seeds := (List.range 4).map fun q => BitVec.ofNat 64 (h.rd64 (0x0C2 + 8 * q) 0x068) }

/-- Whether the row a killed EMB_UPDATE waits for is still moving (R289). -/
def Hw.moveHeld (h : Hw) (id : QId) : Bool :=
  match (h.qs id).moveHold with
  | none => false
  | some (t, row) =>
    match (h.tblRef (queueMaster id) t (h.tblBank t)).entry row [] with
    | .ok (e, _) => e.moving
    | .error _ => false

/-! ### Lists and batches (R290) -/

/-- The row an entry of a list names. -/
def listRow (d : BitVec 512) (e : Nat) : Nat := if dOpcode d = 0x12 ∨ dOpcode d = 0x13 then bitsOf e 31 0 else e
/-- Slot, pool and delete of an entry of ROW_PUT or ROW_MOVE (R292). -/
def entSlot (e : Nat) : Nat := bitsOf e 61 32
def entPool (e : Nat) : Nat := bitsOf e 62 62
def entDel (e : Nat) : Bool := bitOf e 63

/-- The elements of a list without repeats, in order of first appearance. -/
def firsts (l : List Nat) : List Nat := (l.foldl (fun acc x => if acc.contains x then acc else x :: acc) []).reverse

/-- The entries of a list that name a row of the table, each with the part of the list it is in: a part ends where the filter of 4,096
entries is full (R290). -/
def listParts (inside : Nat → Bool) (key : Nat → Nat) : List Nat → List Nat → Nat → List (Nat × Nat)
  | [], _, _ => []
  | x :: t, seen, p =>
    if !inside (key x) then listParts inside key t seen p
    else if seen.contains (key x) then (p, x) :: listParts inside key t seen p
    else if seen.length < 4096 then (p, x) :: listParts inside key t (key x :: seen) p
    else (p + 1, x) :: listParts inside key t [key x] (p + 1)

/-- The batches of a list: in each part one for each owner it names, with repeats removed; rows that fail the first test of R279 go to
no owner. -/
def embBatches (r : TblRef) (d : BitVec 512) (l : List Nat) : List EmbBatch :=
  let all := listParts r.inside (listRow d) l [] 0
  let owner (e : Nat) : Nat := r.ownerModule (listRow d e) * 4 + r.ownerQuad (listRow d e)
  (firsts (all.map (·.1))).flatMap fun p =>
    let mine := (all.filter (·.1 = p)).map (·.2)
    let mine := if dOpcode d = 0x12 ∨ dOpcode d = 0x13 then mine else firsts mine
    (firsts (mine.map owner)).map fun o => ⟨p, o / 4, o % 4, mine.filter fun e => owner e = o, false⟩

/-- The list of a command. -/
def embList (h : Hw) (id : QId) (c : Cmd) : Rx (List Nat) := do
  let o := embOp c.desc
  if dOpcode c.desc = 0x10 ∧ o.imm = true then pure [o.n]
  else if dOpcode c.desc = 0x14 then pure []
  else
    let w := if dOpcode c.desc = 0x10 ∨ dOpcode c.desc = 0x11 then 4 else 8
    let bs ← rxSource h id c (w * o.n)
    pure ((List.range o.n).map fun i => bnum bs (w * i) w)

/-- A row that another module serves: what comes back is not this model's (log entry 22). -/
def remoteRow (ctr n part row : Nat) : EmbRow :=
  ⟨part, row, Config.freeNat ctr 2 == 1, Config.freeNat (ctr + 1) 2 == 1, Config.freeNat (ctr + 2) 2 == 1, freeBytes ctr n, []⟩

/-- The rows a gather's batch reads at its owner: the copies R279 chooses. -/
def gatherBatch (r : TblRef) (pin : Option Nat) (c : Nat) : List Nat → Rx (List EmbRow)
  | [] => pure []
  | row :: rest => do
    let x ← r.row c pin row
    let xs ← gatherBatch r pin c rest
    pure (x :: xs)

/-- The rows an update's batch reads at its owner: the current copies with their state (R288). -/
def updateBatch (r : TblRef) (sN c : Nat) : List Nat → Rx (List EmbRow)
  | [] => pure []
  | row :: rest => do
    let x ← r.rowFor c row
    let st ← if x.ok = true ∧ sN ≠ 0 then rxRead r.h r.m (tVa r.d 6 + r.local row * sN) sN else pure []
    let xs ← updateBatch r sN c rest
    pure ({ x with state := st } :: xs)

/-- The checks of a ROW_PUT or ROW_MOVE batch at its owner (R293): delete where it must be zero, slots beyond their pool. -/
def embServeCheck (r : TblRef) (d : BitVec 512) : List Nat → Rx Unit
  | [] => pure ()
  | e :: rest => do
    let put := dOpcode d = 0x12
    rxCheck (!(entDel e && (!put || (embOp d).stamp))) cFORMAT
    if put && ((embOp d).stamp || entDel e) then pure ()
    else if put then rxCheck (decide (entSlot e < tSlots r.d (entPool e))) cFORMAT
    else do
      let x ← r.entryOnly (bitsOf e 31 0)
      rxCheck (!x.valid || x.moving || decide (entSlot e < tSlots r.d (entPool e))) cFORMAT
    embServeCheck r d rest

/-- The entries of a ROW_MOVE batch whose rows it marks moving (R287 step 1), each row once, with their directory entries. -/
def embMoveRows (r : TblRef) : List Nat → List Nat → Rx (List (Nat × DirEnt))
  | [], _ => pure []
  | e :: rest, seen => do
    let row := bitsOf e 31 0
    if seen.contains row then embMoveRows r rest seen
    else
      let x ← r.entryOnly row
      if !x.valid || x.moving then embMoveRows r rest seen
      else
        let xs ← embMoveRows r rest (row :: seen)
        pure ((row, x) :: xs)

/-- A directory word or row as its owner writes it: at the captured base of a resident table, else through translation. -/
def Hw.tblWrite (h : Hw) (m : Master) (va : Nat) (key : Option Nat) (bs : List Byte) : Hw :=
  match key with
  | some k => h.store k bs
  | none => (h.lookup m va).write m va bs

/-- The sum of the gradient rows of one index, in list order (R288 step 2), and how many there are. -/
def gradSum (fmt len : Nat) (gs : Array Byte) (l : List Nat) (row : Nat) : List Nat × Nat :=
  let at_ (i : Nat) : List Nat := (List.range len).map fun j => f32 (decode fmt (elemAt fmt gs (i * len + j)))
  ((List.range l.length).zip l).foldl (fun acc e =>
    if e.2 ≠ row then acc
    else if acc.2 = 0 then (at_ e.1, 1) else ((acc.1.zip (at_ e.1)).map fun (a, b) => fadd a b, acc.2 + 1)) ([], 0)

/-- The gradients a command's list names (R288), none but for an update. -/
def embGrads (h : Hw) (id : QId) (c : Cmd) (w : EmbWork) : Rx (List Byte) :=
  let o := embOp c.desc
  if dOpcode c.desc = 0x11 then
    rxRead h (queueMaster id) o.gradVa (w.list.length * elemBytes o.gradFmt (tLen ((h.tbl w.table).desc w.bank)))
  else pure []

/-- A batch for another module leaves by a Leash port (R290); what comes back is free, the rows of a mutation aside. -/
def embFar (id : QId) (b : EmbBatch) (p : Nat) (h : Hw) (c : Cmd) (w : EmbWork) : Ex (Hw × EmbWork × List (Nat × Nat)) :=
  match embGrads h id c w [] with
  | .error e => .error e
  | .ok (gs, t) =>
    let op := dOpcode c.desc
    let o := embOp c.desc
    let d := (h.tbl w.table).desc w.bank
    let gs := gs.toArray
    let grads := if op = 0x11 then b.rows.map fun row => (gradSum o.gradFmt (tLen d) gs w.list row).1 else []
    let n := 8 * b.rows.length + 4 * tLen d * grads.length
    let h := (h.leashQueue p 1 n).send (.leash p (.batch b.module b.quad op w.table w.pin.isSome b.rows grads))
    let w := { w with batches := w.batches.filter (· ≠ b) }
    if op = 0x12 ∨ op = 0x13 then .ok (h, w, t)
    else
      let rows := b.rows.mapIdx fun i row => remoteRow (h.freeCtr + 3 * i) (tRowBytes d) b.part row
      .ok ({ h with freeCtr := h.freeCtr + 3 * b.rows.length }, { w with rows := w.rows ++ rows }, t)

/-- Serves a batch of this module's (R290). -/
def embServe (id : QId) (b : EmbBatch) (h : Hw) (c : Cmd) (w : EmbWork) : Ex (Hw × EmbWork × List (Nat × Nat)) :=
  let m := queueMaster id
  let r := h.tblRef m w.table w.bank
  let op := dOpcode c.desc
  let rest := w.batches.filter (· ≠ b)
  if op = 0x12 then
    match embServeCheck r c.desc b.rows [] with
    | .ok (_, t) => .ok (h, { w with batches := rest }, t)
    | .error e => .error e
  else if op = 0x13 then
    match (do embServeCheck r c.desc b.rows; embMoveRows r b.rows []) [] with
    | .error e => .error e
    | .ok (xs, t) =>
      let place := xs.map fun x => (tVa r.d 0 + r.dirOff x.1, r.key 0 (r.dirOff x.1), { x.2 with moving := true })
      match (place.filter fun p => p.2.1.isNone).findSome? fun p =>
          match h.place m p.1 (leBytes 16 0) with | .ok _ => none | .error e => some e with
      | some e => .error (.rd e)
      | none =>
        .ok (place.foldl (fun h p => h.tblWrite m p.1 p.2.1 p.2.2.bytes) h,
             { w with batches := rest, moved := w.moved ++ place.map fun p => (p.1, p.2.1) }, t)
  else
    match (if op = 0x11 then updateBatch r (stateBytes (embOp c.desc).opt (embOp c.desc).bs4 (tLen r.d)) (h.tblGen w.table) b.rows
           else gatherBatch r w.pin (h.tblGen w.table) b.rows) [] with
    | .ok (rows, t) =>
      let rows := rows.map fun x => { x with part := b.part }
      let rows := if op = 0x11 then rows.filter fun x => !w.rows.any fun y => y.row = x.row else rows
      .ok (h, { w with batches := rest, rows := w.rows ++ rows }, t)
    | .error e => .error e

/-- Keeps what a command carries. -/
def Hw.setWork (h : Hw) (id : QId) (p : Word) (w : Work) : Hw := h.updCmd id p fun c => { c with work := w }

/-- Serves or sends a batch of a command, or leaves what stopped it. A batch to a module that cannot be reached holds the command,
counted once (R290). -/
def Hw.embBatch (h : Hw) (id : QId) (c : Cmd) (w : EmbWork) (b : EmbBatch) : Hw :=
  let done (x : Ex (Hw × EmbWork × List (Nat × Nat))) : Hw := match x with
    | .ok (h, w, t) => (t.foldl (fun h e => h.touch (queueMaster id) e.1 e.2) h).setWork id c.ptr (.emb w)
    | .error e => h.failCmd id c e
  if b.module = h.moduleNo then done (embServe id b h c w)
  else match h.route b.module with
    | some p => done (embFar id b p h c w)
    | none =>
      if b.waited then h
      else
        (h.count (engPage id.eng) 0x064).setWork id c.ptr
          (.emb { w with batches := w.batches.map fun x => if x = b then { x with waited := true } else x })

/-- The first batch for an owner that a queue has sent and that has not arrived, with its command; a queue in FAULT_HOLD has none on
its way. -/
def Hw.embFirst (h : Hw) (module quad : Nat) (id : QId) : Option (Cmd × EmbWork × EmbBatch) :=
  if (h.qs id).st = .faultHold then none
  else (h.qs id).cmds.findSome? fun c => match c.work with
    | .emb w => (w.batches.find? fun b => b.module = module ∧ b.quad = quad).map fun b => (c, w, b)
    | _ => none

/-- That batch, when no other queue of the unit has sent one to the owner before it: what one unit sends another arrives in the order it
was sent (R12; log entry 90 for different owners). -/
def Hw.embSender (h : Hw) (id : QId) (module quad : Nat) : Option (Cmd × EmbWork × EmbBatch) :=
  match h.embFirst module quad id with
  | none => none
  | some x =>
    if (engQs id.eng).any fun q => match h.embFirst module quad q with | some y => decide (y.2.1.order < x.2.1.order) | none => false
    then none else some x

/-- Sends the batches of a command: reads the list, counts, and serves at once what its own unit owns. -/
def Hw.embSend (h : Hw) (id : QId) (c : Cmd) (w : EmbWork) : Hw :=
  let r := h.tblRef (queueMaster id) w.table w.bank
  match embList h id c [] with
  | .error e => h.failCmd id c e
  | .ok (l, t) =>
    let bs := embBatches r c.desc l
    let far := (bs.filter fun b => b.module ≠ h.moduleNo ∨ b.quad ≠ engQuad id.eng)
    let h := t.foldl (fun h e => h.touch (queueMaster id) e.1 e.2) h
    let h := h.count (engPage id.eng) 0x04C bs.length
    let h := if dOpcode c.desc = 0x10 then h.count (engPage id.eng) 0x048 ((far.map fun b => b.rows.length).sum) else h
    let h := { h.setWork id c.ptr (.emb { w with list := l, sent := true, order := h.embSeq, batches := bs }) with embSeq := h.embSeq + 1 }
    (bs.filter fun b => !far.contains b).foldl (fun h b =>
      match (h.qs id).cmds.find? fun x => x.ptr = c.ptr with
      | some c => match c.work with | .emb w => if (h.qs id).st = .faultHold then h else h.embBatch id c w b | _ => h
      | none => h) h

/-- The stage head with the opcode, its list sent and every batch served; else what is left after that step. -/
def Hw.embReady (h : Hw) (id : QId) (op : Nat) : Hw × Option (Cmd × EmbWork) :=
  match h.stageHead id op with
  | none => (h, none)
  | some c =>
    match c.work with
    | .emb w =>
      let h := if w.sent then h else h.embSend id c w
      match h.stageHead id op with
      | none => (h, none)
      | some c => match c.work with
        | .emb w => if w.sent ∧ w.batches = [] then (h, some (c, w)) else (h, none)
        | _ => (h, none)
    | _ => (h, none)

/-! ### EMB_GATHER (R294) -/

/-- One output row (R292). -/
def outRow (d : List Byte) (fmt : Nat) (bs : List Byte) : List Byte :=
  if fmt = tFormat d then padTo 16 bs
  else
    let a := bs.toArray
    let val (i : Nat) : FVal :=
      let x := vecAt (tFormat d) (tLen d) (tShift d) a i
      if tFormat d = fmBS4 then x else x.scale (tShift d)
    padTo 16 (packElems fmt ((List.range (tLen d)).map fun i => (convertTo fmt (val i)).1))

/-- The header of a gather (R295). -/
def gatherHeader (n dflt : Nat) (snap stale : Bool) (gen : Nat) : List Byte :=
  leBytes 4 n ++ leBytes 4 ((if dflt = 0 then 0 else 1) + (if snap then 2 else 0) + (if stale then 4 else 0) + 0x100)
    ++ leBytes 4 dflt ++ leBytes 4 (gen % 0x10000)

/-- The rows of a list in order: those served, each in the part of the list it is in, and the default row for those that fail the first
test of R279. -/
def gatherRows (r : TblRef) (served : List EmbRow) : List (Nat × Nat) → List Nat → Rx (List EmbRow)
  | _, [] => pure []
  | (p, k) :: parts, row :: rest => do
    let hit := row == k
    let x ← match (if hit then served.find? fun x => x.part = p ∧ x.row = row else none) with
      | some x => pure x
      | none => r.default row false
    let xs ← gatherRows r served (if hit then parts else (p, k) :: parts) rest
    pure (x :: xs)
  | [], row :: rest => do
    let x ← r.default row false
    let xs ← gatherRows r served [] rest
    pure (x :: xs)

/-- The signal of a gather, tagged when it is speculative (R268, R294). -/
def Hw.tagSignal (h : Hw) (core sem : Nat) (tag : Option (Nat × Nat)) (id : QId) (p : Word) : Hw :=
  let h := h.semAdd core sem 1
  match tag with
  | some (g, s) => { h with tagged := h.tagged ++ [⟨core, sem, 1, g, s, id, p⟩] }
  | none => h

/-- The signal of an EMB_GATHER: a saturation is the command's status (R69). -/
def Hw.gatherSignal (h : Hw) (id : QId) (c : Cmd) : Hw :=
  if !dSigEn c.desc then h
  else
    let core := (embOp c.desc).sigCore
    let sem := dSigSem c.desc
    let full := h.semFull core sem 1
    let h := h.tagSignal core sem (if h.waitsConfirm id c then some (dGroup c.desc, dStep c.desc) else none) id c.ptr
    h.updCmd id c.ptr fun c => { c with sent := [(core, sem)], code := if c.code = 0 ∧ full = true then cSEM_OVERFLOW else c.code }

/-- The rows are written, then the header, then the signal is sent (R294). -/
def embGather (id : QId) (h : Hw) : Hw :=
  match h.embReady id 0x10 with
  | (h, none) => h
  | (h, some (c, w)) =>
    let o := embOp c.desc
    let r := h.tblRef (queueMaster id) w.table w.bank
    if w.list = [] then h.finishCmd id c { work := .emb w, signals := if dSigEn c.desc then [(o.sigCore, dSigSem c.desc, 1)] else [] }
    else
      match gatherRows r w.rows (listParts r.inside (listRow c.desc) w.list [] 0) w.list [] with
      | .error e => h.failCmd id c e
      | .ok (xs, t) =>
        let dflt := (xs.filter (·.dflt)).length
        let stale := (xs.filter (·.stale)).length
        let rows := xs.flatMap fun x => outRow r.d o.outFmt x.data
        let head := gatherHeader xs.length dflt w.pin.isSome (decide (0 < stale)) w.gen
        let w := { w with outLen := 16 + rows.length }
        let (h, rest) := Hw.stageWrites id c [(dDst c.desc + 16, rows), (dDst c.desc, head)] h
        let h := h.setWork id c.ptr (.emb w)
        if rest ≠ [] then h
        else
          (h.finishCmd id c {
            result := head ++ rows, counts := [(0x044, dflt), (0x060, stale)], touched := t, work := .emb { w with done := true } }).gatherSignal id c

/-- EMB_GATHER (R294). -/
def execEmbGather (d : Fin 4) (q : Fin 4) (s : State) : Out := .next (s.onHw (embGather ⟨.stage d .emb, q.val⟩))

/-! ### The mailbox port (R294, R355) -/

/-- What a gather of the mailbox port, or a batch of another module, meets: one that waits stays; a page that is absent or moving holds the
unit, and the gather goes on after FAULT_CLEAR; anything else ends it and is recorded in ERR_FIRST (R297; log entry 88). -/
def Hw.portFail (h : Hw) (m : Master) (page : Nat) (hold drop : Hw → Hw) (e : UnitErr) : Hw :=
  match e with
  | .notYet | .rd .wait => h
  | .reject code => (drop h).err page 0 code
  | .rd (.ecc va n) => (drop (h.touch m va n)).err page 0 cECC
  | .rd (.fault cause level va) => hold (h.postFault m cause level va false 0 true)

/-- The row a gather of the mailbox port reads. -/
def Hw.portRow (h : Hw) (r : TblRef) (g : PortGather) : Rx EmbRow :=
  if r.inside g.token && r.ownerModule g.token != h.moduleNo then pure (remoteRow h.freeCtr (tRowBytes r.d) 0 g.token)
  else r.row (h.tblGen g.table) none g.token

/-- A gather of the mailbox port, which bypasses the queues (R294): its row, its header, its signal. -/
def Hw.portGather (h : Hw) (g : PortGather) : Hw :=
  let id : QId := ⟨stageEng g.quad .emb, 4⟩
  let m := queueMaster id
  let r := h.tblRef m g.table g.bank
  let p := engPage id.eng
  let put (f : PortGather → PortGather) (h : Hw) : Hw := { h with gathers := h.gathers.map fun x => if x = g then f x else x }
  let drop (h : Hw) : Hw := { h with gathers := h.gathers.erase g }
  let far := r.inside g.token && r.ownerModule g.token != h.moduleNo
  if r.d = [] ∨ outFmtGood r.d g.fmt = false then (drop h).err p 0 cFORMAT
  else if g.held && h.isHeld m then h
  else if far && (h.route (r.ownerModule g.token)).isNone then
    if g.waited then h else put (fun x => { x with waited := true }) (h.count p 0x064)
  else match h.portRow r g [] with
    | .error e => h.portFail m p (put fun x => { x with held := true }) drop e
    | .ok (x, t) =>
      let out := [(g.dst + 16, outRow r.d g.fmt x.data), (g.dst, gatherHeader 1 (if x.dflt then 1 else 0) false x.stale (h.tblGen g.table))]
      match out.findSome? fun w => match h.place m w.1 w.2 with | .ok _ => none | .error e => some e with
      | some (.fault cause level va) => put (fun x => { x with held := true }) (h.postFault m cause level va true 0 true)
      | some _ => h
      | none =>
        let h := t.foldl (fun h e => h.touch m e.1 e.2) h
        let h := h.writeAll m out
        let h := if r.inside g.token then h.count p 0x04C else h
        let h := match (if far then h.route (r.ownerModule g.token) else none) with
          | some l => (((h.leashQueue l 1 8).send (.leash l (.batch (r.ownerModule g.token) (r.ownerQuad g.token) 0x10 g.table false [g.token] []))).draw).draw.draw
          | none => h
        let h := if r.inside g.token && (far || r.ownerQuad g.token != g.quad) then h.count p 0x048 else h
        let h := (h.count p 0x044 (if x.dflt then 1 else 0)).count p 0x060 (if x.stale then 1 else 0)
        (drop h).tagSignal g.core g.sem g.tag id 0

/-! ### Batches from other modules (R286, R290) -/

/-- Serves a gather's batch of another module: the rows go back by the port they were asked for on; an uncorrectable line answers
poison. -/
def Hw.farTry (h : Hw) (f : FarServe) : Hw :=
  let m := queueMaster ⟨stageEng f.quad .emb, 4⟩
  let page := engPage (stageEng f.quad .emb)
  let drop (h : Hw) : Hw := { h with exch := h.exch.erase f }
  let hold (h : Hw) : Hw := { h with exch := h.exch.map fun x => if x = f then { x with held := true } else x }
  if f.held && h.isHeld m then h
  else match gatherBatch (h.tblRef m f.table f.bank) f.pin (h.tblGen f.table) f.rows [] with
    | .error e =>
      let g := h.portFail m page hold drop e
      if g.exch.length < h.exch.length then g.send (.leash f.port .poisoned) else g
    | .ok (xs, t) =>
      let h := t.foldl (fun h e => h.touch m e.1 e.2) (drop h)
      (h.leashQueue f.port 2 ((xs.map fun x => x.data.length).sum)).send (.leash f.port (.rows (xs.map fun x => (x.dflt, x.stale, x.data))))

/-- A gather's batch arrives from another module: it binds the active bank, and with snapshot pins C (R281, R286). -/
def Hw.farArrive (h : Hw) (d p : Nat) (b : FarBatch) : Hw :=
  if !(h.port p).up then h
  else
    let t := b.table.val
    let f : FarServe := { port := p, quad := d, table := t, bank := h.tblBank t, serial := h.tblSerial,
                          pin := if b.snapshot then some (h.tblGen t) else none, rows := b.rows.map (·.toNat) }
    { h with exch := h.exch ++ [f], tblSerial := h.tblSerial + 1 }.farTry f

def exchangeBatch (d : Fin 4) (src : ExchSrc) (h : Hw) : Hw :=
  match src with
  | .queue q module quad =>
    match h.embSender ⟨.stage d .emb, q.val⟩ module.val quad.val with
    | none => h
    | some (c, w, b) => h.embBatch ⟨.stage d .emb, q.val⟩ c w b
  | .leash p b => h.farArrive d.val p.val b

/-- EXCHANGE_BATCH (R290): the fabric orders no two owners, so the command names the one that a batch reaches (R12). -/
def execExchangeBatch (d : Fin 4) (src : ExchSrc) (s : State) : Out := .next (s.onHw (exchangeBatch d src))

/-- Runs the gathers that wait at the mailbox ports and the batches of other modules, each where it can be served. -/
def Hw.runGathers (h : Hw) : Hw :=
  let h := h.gathers.foldl Hw.portGather h
  h.exch.foldl Hw.farTry h

/-! ### EMB_UPDATE (R288, R289) -/

/-- One distinct row of an update: the row with its new bytes and state, and whether its gradient is non-finite. -/
def embUpdateRow (t : List Byte) (o : EmbOp) (c : Cmd) (seed : DWord) (y : Hyper) (gs : Array Byte) (l : List Nat) (place : Nat)
    (x : EmbRow) : EmbRow × Bool :=
  let len := tLen t
  let g := (gradSum o.gradFmt len gs l x.row).1
  let bad := g.any fNonFinite
  if bad && o.skip then (x, true)
  else
    let a := x.data.toArray
    let old := (List.range len).map fun i => f32 (decode (tFormat t) (elemAt (tFormat t) a i))
    let i0 := Config.embIndex place (x.row / tShards t) * len
    let draw (dest i : Nat) : Option Nat :=
      some (srDraw seed (dJob c.desc) (dLayer c.desc) (dOper c.desc) (dest * 2 ^ 40 + i0 + i))
    let g := g.map fun v => fscale v y.gradShift
    let (p, st, _) := optRow o.opt o.bs4 y draw g (old.map fun v => fscale v (tShift t)) x.state
    let p := p.map fun v => (decodeFloat 0 v).scale (-(tShift t))
    let (cs, _) := convertAll (tFormat t) (if o.sr ∧ tFormat t = fmBF16 then draw 0 else fun _ => none) 0 p
    ({ x with data := packElems (tFormat t) cs, state := st }, bad)

/-- The ranges an update will write: its valid rows of this module and their state (R186). -/
def updateSpans (r : TblRef) (o : EmbOp) : List EmbRow → Rx (List (Nat × Nat))
  | [] => pure []
  | x :: rest => do
    let ws ← updateSpans r o rest
    if !x.ok || r.ownerModule x.row != r.h.moduleNo then pure ws
    else
      let e ← r.entry x.row
      let sN := stateBytes o.opt o.bs4 (tLen r.d)
      pure ((tVa r.d (2 + e.pool) + e.slot * tStride r.d, tRowBytes r.d) :: (tVa r.d 6 + r.local x.row * sN, sN) :: ws)

/-- Whether another queue's command is an executed update that names one of the rows. -/
def embSame (t : Nat) (rows : List Nat) (_ : QId) (c : Cmd) : Bool :=
  c.finished && dOpcode c.desc == 0x11 &&
    (match c.work with | .emb w => w.table == t && w.rows.any fun x => rows.contains x.row | _ => false)

def embUpdate (id : QId) (h : Hw) : Hw :=
  match h.embReady id 0x11 with
  | (h, none) => h
  | (h, some (c, w)) =>
    let o := embOp c.desc
    let m := queueMaster id
    let r := h.tblRef m w.table w.bank
    if w.list = [] then h.finishCmd id c { work := .emb w, signals := if dSigEn c.desc then [(o.sigCore, dSigSem c.desc, 1)] else [] }
    else
      match (do let gs ← embGrads h id c w; let y ← rxRead h m o.hyperVa 32; let sp ← updateSpans r o w.rows; pure (gs, y, sp)) [] with
    | .error e => h.failCmd id c e
    | .ok ((gs, y, spans), t) =>
      let far (x : EmbRow) : Bool := r.ownerModule x.row != h.moduleNo
      let seed (x : EmbRow) : DWord := w.seeds.getD (r.ownerQuad x.row) 0
      let out := (w.rows.filter (·.ok)).map fun x =>
        (x, embUpdateRow r.d o c (seed x) (hyperOf y) gs.toArray w.list (w.list.idxOf x.row) x)
      let skipped := (w.list.filter fun i => !(w.rows.any fun x => x.row = i ∧ x.ok = true)).length
      let odd := decide (o.opt = 2 ∧ tLen r.d % 32 ≠ 0)
      let new := (out.filter fun e => !far e.1).map fun e =>
        if odd then { e.2.1 with data := freeBytes h.freeCtr e.2.1.data.length, state := freeBytes (h.freeCtr + 1) e.2.1.state.length }
        else e.2.1
      let repeats (x : EmbRow) : Nat := (w.list.filter (· = x.row)).length - 1
      let h := (w.rows.filter fun x => !far x).foldl (fun h x => h.count (0x0C2 + 8 * r.ownerQuad x.row) 0x058 (repeats x)) h
      let h := (out.filter fun e => !far e.1).foldl (fun h e => h.count (0x0C2 + 8 * r.ownerQuad e.1.row) 0x05C (if e.2.2 then 1 else 0)) h
      let nonFin := (out.filter fun e => e.2.2).length
      let head := leBytes 4 (out.filter fun e => !(e.2.2 && o.skip)).length ++ leBytes 4 (0x100 + min nonFin 0xFFFF * 0x10000)
        ++ leBytes 4 ((w.rows.map repeats).sum) ++ leBytes 4 skipped
      let h := h.finishCmd id c { result := head, counts := [(0x060, (w.rows.filter (·.stale)).length)], touched := t, drew := odd,
                                  signals := if dSigEn c.desc then [(o.sigCore, dSigSem c.desc, 1)] else [], spans := spans,
                                  work := .emb { w with rows := new, done := true } }
      (h.openClashes id c.ptr).openShared id c.ptr (embSame w.table (new.map (·.row)))

/-- EMB_UPDATE (R288). -/
def execEmbUpdate (d : Fin 4) (q : Fin 4) (s : State) : Out := .next (s.onHw (embUpdate ⟨.stage d .emb, q.val⟩))

/-! ### ROW_PUT, ROW_MOVE and PUBLISH (R284 to R287) -/

/-- What these have in common: the list served, the command finishes; its effects are its commit step's. A ROW_MOVE waits to be
the oldest of its queue, since later commands of a queue wait for its commit. -/
def embPlainExec (id : QId) (op : Nat) (oldest : Bool) (h : Hw) : Hw :=
  if oldest && (match h.stageHead id op with | some c => (h.qs id).cmds.head?.map (·.ptr) != some c.ptr | none => false) then h
  else
    match h.embReady id op with
    | (h, none) => h
    | (h, some (c, w)) =>
      h.finishCmd id c { signals := if dSigEn c.desc then [((embOp c.desc).sigCore, dSigSem c.desc, 1)] else [],
                         work := .emb { w with done := !w.list.isEmpty || op == 0x14 } }

/-- ROW_PUT (R284). -/
def execRowPut (d : Fin 4) (q : Fin 4) (s : State) : Out := .next (s.onHw (embPlainExec ⟨.stage d .emb, q.val⟩ 0x12 false))

/-- ROW_MOVE (R287). -/
def execRowMove (d : Fin 4) (q : Fin 4) (s : State) : Out := .next (s.onHw (embPlainExec ⟨.stage d .emb, q.val⟩ 0x13 true))

/-- PUBLISH (R286). -/
def execPublish (d : Fin 4) (q : Fin 4) (s : State) : Out := .next (s.onHw (embPlainExec ⟨.stage d .emb, q.val⟩ 0x14 false))

/-- One entry of ROW_PUT on a row (R284): the new entry, none when it is skipped, and what it displaces. -/
def putRow (e : DirEnt) (c : Nat) (stamp del : Bool) (slot pool : Nat) : Option (DirEnt × List (Nat × Nat)) :=
  if stamp then
    if e.valid then
      some ({ e with pSlot := e.slot, pPool := e.pool, pGen := e.gen, hasPrev := true, gen := c },
            if e.hasPrev ∧ (e.pSlot, e.pPool) ≠ (e.slot, e.pool) then [(e.pSlot, e.pPool)] else [])
    else none
  else
    let p := (c + 1) % 0x10000
    let (e', disp) := if e.gen ≠ p then
        ({ e with pSlot := e.slot, pPool := e.pool, pGen := e.gen, hasPrev := e.valid, gen := p },
          if e.hasPrev then [(e.pSlot, e.pPool)] else [])
      else (e, if e.valid then [(e.slot, e.pool)] else [])
    some (if del then { e' with valid := false } else { e' with slot := slot, pool := pool, valid := true }, disp)

/-- What a commit step will do. -/
structure EmbPlan where
  /-- rows and entries in order: address, captured base, bytes -/
  words : List (Nat × Option Nat × List Byte) := []
  frees : List (Nat × Nat) := []
  head : List Byte := []

/-- What stops it. -/
inductive PlanStop where
  | wait
  | moving (row : Nat)
  | err (e : UnitErr)

abbrev Plan (α : Type) := Except PlanStop (α × List (Nat × Nat))

/-- The entries of a ROW_PUT on this module's rows: directory as it stands, entries applied and skipped, displaced slots;
`n` counts free choices of rows another module owns (log entry 22). -/
def planPut (r : TblRef) (d : BitVec 512) (c ctr : Nat) :
    List Nat → Nat → List (Nat × DirEnt) → Nat → Nat → List (Nat × Nat) → List (Nat × Nat) →
    Plan (List (Nat × DirEnt) × Nat × Nat × List (Nat × Nat))
  | [], _, cache, a, s, frees, t => .ok ((cache, a, s, frees), t)
  | x :: rest, n, cache, a, s, frees, t =>
    let row := bitsOf x 31 0
    if !r.inside row then planPut r d c ctr rest n cache a (s + 1) frees t
    else if r.ownerModule row ≠ r.h.moduleNo then
      let k := Config.freeNat (ctr + n) 2
      planPut r d c ctr rest (n + 1) cache (a + k % 2) (s + (1 - k % 2)) frees t
    else
      match (match alGet row cache with | some e => Except.ok (e, t) | none => r.entry row t) with
      | .error e => .error (.err e)
      | .ok (e, t) =>
        if e.moving then .error .wait
        else match putRow e c (embOp d).stamp (entDel x) (entSlot x) (entPool x) with
          | none => planPut r d c ctr rest n cache a (s + 1) frees t
          | some (e', disp) => planPut r d c ctr rest n (alPut row e' cache) (a + 1) s (frees ++ disp) t

/-- The entries of a ROW_MOVE whose moving bit it set: the copy and the flip (R287 steps 3 and 4), each row once. -/
def planMove (r : TblRef) (ctr : Nat) (moved : List (Nat × Option Nat)) :
    List Nat → Nat → List Nat → EmbPlan → Nat → Nat → List (Nat × Nat) → Plan (EmbPlan × Nat × Nat)
  | [], _, _, p, a, s, t => .ok ((p, a, s), t)
  | x :: rest, n, seen, p, a, s, t =>
    let row := bitsOf x 31 0
    if r.inside row && r.ownerModule row != r.h.moduleNo then
      let k := Config.freeNat (ctr + n) 2
      planMove r ctr moved rest (n + 1) seen p (a + k % 2) (s + (1 - k % 2)) t
    else if !r.inside row || seen.contains row || !(moved.any fun m => m.1 = tVa r.d 0 + r.dirOff row) then
      planMove r ctr moved rest n seen p a (s + 1) t
    else
      match (do let e ← r.entry row; let bs ← r.slotRow e.slot e.pool; pure (e, bs)) t with
      | .error e => .error (.err e)
      | .ok ((e, bs), t) =>
        let o := entSlot x * tStride r.d
        let e' := { e with slot := entSlot x, pool := entPool x, moving := false }
        planMove r ctr moved rest n (row :: seen)
          { p with words := p.words ++ [(tVa r.d (2 + entPool x) + o, r.key (2 + entPool x) o, bs),
                                        (tVa r.d 0 + r.dirOff row, r.key 0 (r.dirOff row), e'.bytes)],
                   frees := p.frees ++ [(e.slot, e.pool)] } (a + 1) s t

/-- The rows of an EMB_UPDATE under its locks (R289): a row on the move kills the command. -/
def planUpdate (r : TblRef) (o : EmbOp) : List EmbRow → List (Nat × Nat) → Plan (List (Nat × Option Nat × List Byte))
  | [], t => .ok ([], t)
  | x :: rest, t =>
    match r.entry x.row t with
    | .error e => .error (.err e)
    | .ok (e, t) =>
      if e.moving then .error (.moving x.row)
      else
        let off := e.slot * tStride r.d
        let sN := stateBytes o.opt o.bs4 (tLen r.d)
        match planUpdate r o rest t with
        | .error e => .error e
        | .ok (ws, t) =>
          .ok ((tVa r.d (2 + e.pool) + off, r.key (2 + e.pool) off, x.data)
            :: (if x.state = [] then [] else [(tVa r.d 6 + r.local x.row * sN, none, x.state)]) ++ ws, t)

/-- The commit step of each opcode (R295). -/
def embPlan (h : Hw) (id : QId) (c : Cmd) (w : EmbWork) : Plan EmbPlan :=
  let r := h.tblRef (queueMaster id) w.table w.bank
  let head (a s : Nat) : List Byte := leBytes 4 a ++ leBytes 4 0x100 ++ leBytes 4 s ++ leBytes 4 ((h.tblGen w.table + 1) % 0x10000)
  match dOpcode c.desc with
  | 0x11 => match planUpdate r (embOp c.desc) w.rows [] with
    | .error e => .error e
    | .ok (ws, t) => .ok ({ words := ws, head := c.result }, t)
  | 0x12 => match planPut r c.desc (h.tblGen w.table) h.freeCtr w.list 0 [] 0 0 [] [] with
    | .error e => .error e
    | .ok ((cache, a, s, frees), t) =>
      .ok ({ words := cache.map fun e => (tVa r.d 0 + r.dirOff e.1, r.key 0 (r.dirOff e.1), e.2.bytes), frees := frees, head := head a s }, t)
  | 0x13 => match planMove r h.freeCtr w.moved w.list 0 [] {} 0 0 [] with
    | .error e => .error e
    | .ok ((p, a, s), t) => .ok ({ p with head := head a s }, t)
  | _ => .ok ({}, [])

/-- Whether the free ring of a table has no room (R285). -/
def Hw.freeRingFull (h : Hw) (t log : Nat) : Bool :=
  decide (2 ^ log ≤ ptrSub (h.rd 0x0C2 (tblOff t 0x18)) (h.rd 0x0C2 (tblOff t 0x14)))

/-! ### The free ring (R285) -/

/-- The oldest displaced slot of a table that no command bound before its displacement can still reach, the command `own` aside, and room
for it. -/
def Hw.freeDue (h : Hw) (t : Nat) (own : Option Nat) : Option FreeEnt :=
  match h.frees.find? fun f => f.table = t with
  | none => none
  | some f =>
    let bound (serial : Nat) : Bool := decide (serial < f.serial) && decide (some serial ≠ own)
    if (h.embWorks.any fun w => w.table = t && bound w.serial) || (h.gathers.any fun g => g.table = t && bound g.serial)
      || (h.exch.any fun x => x.table = t && bound x.serial) || h.freeRingFull t f.log then none else some f

/-- Writes it, and what was written; a page that is absent or moving holds the unit. -/
def Hw.freePut (h : Hw) (t : Nat) (own : Option Nat) : Hw × Option (Nat × List Byte) :=
  match h.freeDue t own with
  | none => (h, none)
  | some f =>
    let m := queueMaster ⟨stageEng f.quad .emb, 4⟩
    let tail := h.rd 0x0C2 (tblOff t 0x18)
    let o := 8 * (tail % 2 ^ f.log)
    let bs := leBytes 8 (f.slot + f.pool * 2 ^ 30)
    if h.isHeld m then (h, none)
    else match (if f.key.isSome then Except.ok [] else h.place m (f.va + o) bs) with
      | .error (.fault cause level va) => (h.postFault m cause level va true 0 true, none)
      | .error _ => (h, none)
      | .ok _ =>
        let h := h.tblWrite m (f.va + o) (f.key.map (· + o)) bs
        ({ h.wr 0x0C2 (tblOff t 0x18) (tail + 1) with frees := h.frees.erase f }, some (f.va + o, bs))

/-- The entries of displaced slots that R285 allows at a commit, in order (R295 step 3): they are writes of the commit. -/
def Hw.freePuts (id : QId) (c : Cmd) (t : Nat) (own : Option Nat) : Nat → Hw → Hw
  | 0, h => h
  | n + 1, h =>
    match h.freePut t own with
    | (h, none) => h
    | (h, some w) => Hw.freePuts id c t own n (h.updCmd id c.ptr fun c => { c with writes := c.writes ++ [w] })

/-- What the end of an EMB commit does beside its writes: displaced slots go to the ring, or are set out for it until every earlier binding
has ended, and PUBLISH advances C. -/
def embCommitEff (id : QId) (c : Cmd) (h : Hw) : Hw :=
  match c.work with
  | .emb w =>
    let r := h.tblRef (queueMaster id) w.table w.bank
    let h := { h with frees := h.frees ++ w.frees.map fun f =>
      ⟨w.table, engQuad id.eng, f.1, f.2, tVa r.d 5, r.key 5 0, tFreeLog r.d, h.tblSerial⟩ }
    let h := Hw.freePuts id c w.table (some w.serial) (h.frees.filter fun f => f.table = w.table).length h
    if dOpcode c.desc = 0x14 then
      let g := (h.tblGen w.table + 1) % 0x10000
      (h.setTblGen w.table g).noteChange (.generation w.table g)
    else h
  | _ => h

/-- The commit step of an EMB command (R265 as R294 takes it, R289, R295): a speculative gather waits for its confirmation, a
commit that would displace a slot waits while the ring is full. -/
def embCommit (id : QId) (h : Hw) : Hw :=
  match h.stageCommitHead id with
  | none => h
  | some c =>
    match c.work with
    | .emb w =>
      if h.waitsConfirm id c then h
      else if c.todo.isSome || dOpcode c.desc = 0x10 || !w.done || !h.ringGate id c || !h.creditGate id c then
        h.stageCommit id (embCommitEff id)
      else
        match embPlan h id c w with
        | .error .wait => h
        | .error (.moving row) =>
          let h := ((h.kill id .fault).count (engPage id.eng) 0x050).err (engPage id.eng) id.q cMOVING_ROW
          h.setQs id { h.qs id with moveHold := some (w.table, row) }
        | .error (.err e) => h.failCmd id c e
        | .ok (p, t) =>
          let log := tFreeLog ((h.tbl w.table).desc w.bank)
          if p.frees ≠ [] ∧ h.freeRingFull w.table log = true then h
          else
            let m := queueMaster id
            let h := t.foldl (fun h e => h.touch m e.1 e.2) h
            let heads := if p.head = [] then [] else [(dDst c.desc, p.head)]
            let h := h.updCmd id c.ptr fun c => { c with
              writes := p.words.map (fun x => (x.1, x.2.2)) ++ heads
              todo := some (((p.words.filter fun x => x.2.1.isNone).map fun x => (x.1, x.2.2)) ++ heads)
              work := .emb { w with frees := p.frees, moved := [] } }
            let h := p.words.foldl (fun h x => match x.2.1 with | some k => h.store k x.2.2 | none => h) h
            let h := if dOpcode c.desc = 0x12 ∨ dOpcode c.desc = 0x13 then { h with freeCtr := h.freeCtr + w.list.length } else h
            h.stageCommit id (embCommitEff id)
    | _ => h

def freeRingWrite (t : Fin 64) (h : Hw) : Hw := (h.freePut t.val none).1

/-- FREE_RING_WRITE (R285). -/
def execFreeRingWrite (t : Fin 64) (s : State) : Out := .next (s.onHw (freeRingWrite t))

end Sys2Proof.Machine
end

