-- ==== Sys2Proof/Machine/Rtv.lean ====
section
/-! DEFINITION. The Retriever (R299 to R330): index slots, IVF-PQ and graph search, mutations and epochs. Every access of a
command is made as the issuing unit's (log entry 34). -/

namespace Sys2Proof.Machine

/-! ### Index slots and descriptors (R299 to R301) -/

def Hw.idx (h : Hw) (i : Nat) : IdxSlot := (alGet i h.idxs).getD {}
def Hw.setIdx (h : Hw) (i : Nat) (s : IdxSlot) : Hw := { h with idxs := alPut i s h.idxs }
def IdxSlot.desc (s : IdxSlot) (b : Nat) : List Byte := if b = 0 then s.d0 else s.d1
def IdxSlot.set (s : IdxSlot) (b : Nat) (d : List Byte) : IdxSlot := if b = 0 then { s with d0 := d } else { s with d1 := d }
/-- Registers of slot `i` on the page that is the home of the slots. -/
def idxOff (i o : Nat) : Nat := 0x400 + 0x20 * i + o
def Hw.idxStat (h : Hw) (i : Nat) : Nat := h.rd 0x0C1 (idxOff i 0x0C)
def Hw.idxBank (h : Hw) (i : Nat) : Nat := bitsOf (h.idxStat i) 16 16
def Hw.idxLoaded (h : Hw) (i : Nat) : Bool := bitOf (h.idxStat i) 17
/-- E. -/
def Hw.epoch (h : Hw) (i : Nat) : Nat := h.rd 0x0C1 (idxOff i 0x10)

/-- The fields of an index descriptor (R301). -/
def xGraph (d : List Byte) : Bool := bitOf (bnum d 0 4) 8
def xMetric (d : List Byte) : Nat := bitsOf (bnum d 0 4) 10 9
/-- m, the code bytes of an entry. -/
def xCode (d : List Byte) : Nat := if bitOf (bnum d 0 4) 11 then 64 else 32
def xDim (d : List Byte) : Nat := bitsOf (bnum d 4 4) 10 0
def xCount (d : List Byte) : Nat := bnum d 8 4
def xFormat (d : List Byte) : Nat := bitsOf (bnum d 12 4) 2 0
def xShift (d : List Byte) : Int := signedOf 8 (bnum d 13 1)
def xDir (d : List Byte) : Nat := bnum d 0x10 8
def xCent (d : List Byte) : Nat := bnum d 0x18 8
def xBook (d : List Byte) : Nat := bnum d 0x20 8
def xVec (d : List Byte) : Nat := bnum d 0x28 8
def xStride (d : List Byte) : Nat := bnum d 0x30 4
def xHome (d : List Byte) : Nat := bitsOf (bnum d 0x38 4) 1 0
def xEntries (d : List Byte) : Nat := bitsOf (bnum d 0x38 4) 4 2
def xEntry (d : List Byte) (i : Nat) : Nat := bnum d (0x40 + 4 * i) 4
/-- Order under R212: ascending under squared Euclidean (R308). -/
def xAsc (d : List Byte) : Bool := xMetric d == 2
/-- Bytes of an entry, of a full vector, and of a node (R303, R304). -/
def xEntryBytes (d : List Byte) : Nat := 32 + xCode d
def xVecBytes (d : List Byte) : Nat := elemBytes (xFormat d) (xDim d)
def xNodeBytes (d : List Byte) : Nat := 320 + (xVecBytes d + 63) / 64 * 64

/-- The check of an index descriptor (R301); `cap` is CAP_INDEX. -/
def idxDescGood (cap : Nat) (d : List Byte) : Bool :=
  let g := xGraph d
  let va (a : Nat) : Bool := a % 64 == 0 && decide (a < 2 ^ 52)
  bnum d 0 1 == 1 && bitsOf (bnum d 0 4) 31 12 == 0 && xMetric d != 3 && bitsOf (bnum d 4 4) 31 11 == 0
    && decide (1 ≤ xDim d ∧ xDim d ≤ bitsOf cap 15 0)
    && decide (1 ≤ xCount d ∧ xCount d ≤ (if g then 2 ^ 28 else 2 ^ bitsOf cap 31 24))
    && decide (xFormat d ≤ 5) && bitsOf (bnum d 12 4) 7 3 == 0 && bitsOf (bnum d 12 4) 31 16 == 0
    && va (xDir d) && va (xCent d) && va (xBook d) && va (xVec d) && xStride d % 16 == 0 && (xVec d != 0 || xStride d == 0)
    && bitsOf (bnum d 0x38 4) 31 5 == 0 && bnum d 0x3C 4 == 0 && (d.drop 0x50).all (· == 0)
    && (if g then !bitOf (bnum d 0 4) 11 && xCent d == 0 && xBook d == 0 && xVec d == 0 && xStride d == 0
          && decide (1 ≤ xEntries d ∧ xEntries d ≤ 4)
          && ((List.range 4).all fun i => decide (xEntry d i < 2 ^ 28) && (decide (i < xEntries d) || xEntry d i == 0))
        else xDim d % xCode d == 0 && bnum d 0x38 4 == 0 && ((d.drop 0x40).take 16).all (· == 0))

/-- What the Retriever's commands in flight carry, with their opcodes. -/
def Hw.rtvWorks (h : Hw) : List (Nat × RtvWork) :=
  h.queues.flatMap fun e => e.2.cmds.filterMap fun c => match c.work with | .rtv w => some (dOpcode c.desc, w) | _ => none

/-- Commands bound to a bank (R299). -/
def Hw.idxRefs (h : Hw) (i b : Nat) : Nat := (h.rtvWorks.filter fun w => w.2.slot = i ∧ w.2.bank = b).length
/-- Searches pinned at an epoch (R309). -/
def Hw.idxPinned (h : Hw) (i e : Nat) : Nat :=
  (h.rtvWorks.filter fun w => w.1 = 0x10 ∧ w.2.slot = i ∧ w.2.counted = true ∧ w.2.epoch = e).length

/-- Clears the pinned-search counts of a slot (R300). -/
def Hw.uncount (h : Hw) (i : Nat) : Hw :=
  { h with queues := h.queues.map fun e => (e.1, { e.2 with cmds := e.2.cmds.map fun c =>
      match c.work with
      | .rtv w => if w.slot = i then { c with work := .rtv { w with counted := false } } else c
      | _ => c }) }

def indexFlip (r : Req) (d : Fin 4) (i : Fin 16) (_v : Word) (h : Hw) : Hw :=
  let p := 0x0C1 + 8 * d.val
  let i := i.val
  h.guardWrite r p (idxOff i 0x08) 1 fun h =>
    let st := h.idxStat i
    let other := 1 - h.idxBank i
    let next := h.rd64 0x0C1 (idxOff i 0x00)
    let gen := (bitsOf st 15 0 + 1) % 0x10000
    let bad (h : Hw) (code : Nat) : Hw := ((h.wr 0x0C1 (idxOff i 0x0C) (putBit st 19 true)).err p (4 * i) code).raise p 8
    let fresh (h : Hw) : Hw := { h with cbTag := h.cbTag.filter fun t => ¬ (t.2.slot = i ∧ t.2.bank = other) }
    if h.idxRefs i other ≠ 0 then (h.wr 0x0C1 (idxOff i 0x0C) (putBit st 18 true)).raise p 8
    else if next = 0 then
      fresh ((h.setIdx i ((h.idx i).set other [])).wr 0x0C1 (idxOff i 0x0C) (gen + other * 0x10000))
    else
      match h.headerRead d.val next 128 with
      | .error code => bad (if code = cECC then h.headerTouch d.val next 128 else h) code
      | .ok desc =>
        let h := h.headerTouch d.val next 128
        if !idxDescGood (h.rd 0x000 0x080) desc then bad h cFORMAT
        else
          let h := (h.setIdx i ((h.idx i).set other desc)).wr 0x0C1 (idxOff i 0x0C) (gen + other * 0x10000 + 0x20000)
          fresh ((h.wr 0x0C1 (idxOff i 0x10) (bnum desc 0x34 4)).uncount i)

/-- INDEX_FLIP (R300). -/
def execIndexFlip (r : Req) (d : Fin 4) (i : Fin 16) (v : Word) (s : State) : Out := .next (s.onHw (indexFlip r d i v))

/-! ### Commands (R323 to R325) -/

structure RtvOp where
  slot : Nat
  sigCore : Nat
  fmt : Nat
  rescore : Bool
  filter : Bool
  k : Nat
  searchK : Nat
  nq : Nat
  va : Nat
  n : Nat
  cap : Nat

def rtvOp (d : BitVec 512) : RtvOp :=
  let a := dword d 0
  let b := dword d 1
  { slot := bitsOf a 3 0, sigCore := bitsOf a 9 4, fmt := bitsOf a 12 10, rescore := bitOf a 13, filter := bitOf a 14,
    k := bitsOf b 12 0, searchK := bitsOf b 28 16, nq := bitsOf (dword d 2) 6 0, va := dword d 3 + dword d 4 * 0x100000000,
    n := b, cap := dword d 2 }

/-- Bytes of a mutation's item (R319 to R321). -/
def rtvItem (t : List Byte) (op : Nat) : Nat :=
  match op with | 0x11 => 64 + xCode t | 0x12 => 16 | _ => 64 + xNodeBytes t

def rtvFormat (h : Hw) (d : BitVec 512) : Bool :=
  let o := rtvOp d
  let t := (h.idx o.slot).desc (h.idxBank o.slot)
  let a := dword d 0
  let cap := bitsOf (h.rd 0x000 0x084) 15 0
  let tail := dword d 2 == 0 && dword d 3 == 0 && dword d 4 == 0 && dword d 5 == 0
  stagePlain d && h.idxLoaded o.slot && decide (o.sigCore < 48) &&
    (match dOpcode d with
    | 0x10 => bitsOf a 31 15 == 0 && decide (o.fmt ≤ 2) && bitsOf (dword d 1) 15 13 == 0 && bitsOf (dword d 1) 31 29 == 0
        && o.k != 0 && decide (o.k ≤ o.searchK ∧ o.searchK ≤ cap) && decide (1 ≤ o.nq ∧ o.nq ≤ 64) && bitsOf (dword d 2) 31 7 == 0
        && !(o.rescore && (xGraph t || xVec t == 0)) && o.va % 64 == 0 && dword d 5 == 0
    | 0x11 => bitsOf a 31 10 == 0 && tail && !xGraph t
    | 0x12 => bitsOf a 31 10 == 0 && tail
    | 0x13 => bitsOf a 31 10 == 0 && tail && xGraph t
    | 0x14 => bitsOf a 31 10 == 0 && !xGraph t && o.va % 64 == 0 && dword d 5 == 0 && dSrc d == 0
    | _ => bitsOf a 31 10 == 0 && tail && dword d 1 == 0 && dSrc d == 0 && dDst d == 0)

def rtvLength (h : Hw) (d : BitVec 512) : Bool :=
  let o := rtvOp d
  let t := (h.idx o.slot).desc (h.idxBank o.slot)
  match dOpcode d with
  | 0x10 => decide (o.nq * elemBytes o.fmt (xDim t) ≤ dSrcLen d) && decide (o.nq * (32 + 8 * o.k) ≤ dDstLen d)
      && decide (o.va + 64 ≤ 2 ^ 52)
  | 0x14 => decide (16 ≤ dDstLen d) && decide (o.va + o.cap * xEntryBytes t ≤ 2 ^ 52)
  | 0x15 => true
  | op => decide (o.n * rtvItem t op ≤ dSrcLen d) && decide (16 ≤ dDstLen d)

/-- The mutations of an index (R317). -/
def rtvMutation (op : Nat) : Bool := decide (0x11 ≤ op ∧ op ≤ 0x14)

/-- Whether a search pinned at E − 1 keeps an RTV_EPOCH waiting (R317). -/
def rtvPinWait (h : Hw) (d : BitVec 512) : Bool :=
  let i := (rtvOp d).slot
  dOpcode d == 0x15 && h.idxPinned i ((h.epoch i + 0xFFFFFFFF) % 0x100000000) != 0

/-- Whether a command waits at issue (R317): RTV_EPOCH for earlier mutations and for searches pinned at E − 1, a mutation for an
RTV_EPOCH in flight. -/
def rtvWaits (h : Hw) (d : BitVec 512) : Bool :=
  let i := (rtvOp d).slot
  rtvPinWait h d || (dOpcode d == 0x15 && h.rtvWorks.any fun w => w.2.slot == i && (rtvMutation w.1 || w.1 == 0x15))
    || (rtvMutation (dOpcode d) && h.rtvWorks.any fun w => w.2.slot == i && w.1 == 0x15)

/-- What a command carries from its issue (R299, R309). -/
def rtvStart (h : Hw) (d : BitVec 512) : Work :=
  let i := (rtvOp d).slot
  .rtv { slot := i, bank := h.idxBank i, epoch := h.epoch i, counted := dOpcode d == 0x10 }

/-! ### Arithmetic of scores (R307, R308) -/

/-- A sum in the order of R307: 64 accumulators from +0, then a pairwise tree of 6 levels. -/
def sum64 (xs : List Nat) : Nat :=
  let a := xs.toArray
  let lanes := (List.range 64).map fun l =>
    (List.range ((xs.length + 63 - l) / 64)).foldl (fun acc i => fadd acc (a.getD (64 * i + l) 0)) 0
  treeSum fadd 0 6 lanes

def dot64 (xs ys : List Nat) : Nat := sum64 ((xs.zip ys).map fun (x, y) => fmul x y)
def dist64 (xs ys : List Nat) : Nat := sum64 ((xs.zip ys).map fun (x, y) => let d := fsub x y; fmul d d)

/-- A query as prepared, and whether it is a zero query (R307). -/
def prepQuery (t : List Byte) (fmt : Nat) (bs : Array Byte) (i : Nat) : RtvQuery :=
  let q := (List.range (xDim t)).map fun j => f32 (decode fmt (elemAt fmt bs (i * xDim t + j)))
  if xMetric t = 1 then
    let n2 := sum64 (q.map fun x => fmul x x)
    if n2 = 0 then { q := q, zero := true }
    else let r := (builtin 3 n2).y; { q := q.map fun x => fmul x r, zero := false }
  else { q := q, zero := false }

/-- A full vector (R313). -/
def vecOf (t : List Byte) (bs : List Byte) : List Nat :=
  let a := bs.toArray
  (List.range (xDim t)).map fun j => f32 ((decode (xFormat t) (elemAt (xFormat t) a j)).scale (xShift t))

/-- The exact score of a vector (R313). -/
def exactScore (t : List Byte) (q x : List Nat) : Nat := if xAsc t then dist64 q x else dot64 q x

/-- a ≼ b (R309). -/
def epochLe (a b : Nat) : Bool := decide ((b + 0x100000000 - a % 0x100000000) % 0x100000000 < 0x80000000)

/-- Whether an entry or node with these stamps is visible at Q (R309). -/
def visible (q ins del : Nat) (deleted : Bool) : Bool := epochLe ins q && (!deleted || !epochLe del q)

/-- Whether a stamp lags E by 2^30 to 2^31 − 1 (R309). -/
def stampLags (e a : Nat) : Bool :=
  let n := (e + 0x100000000 - a % 0x100000000) % 0x100000000
  decide (0x40000000 ≤ n ∧ n < 0x80000000)

/-- Inserts a candidate into a list kept best first, of at most `k`. -/
def candInsert (asc : Bool) (x : RtvCand) : List RtvCand → List RtvCand
  | [] => [x]
  | a :: t => if better asc ⟨x.id, x.score⟩ ⟨a.id, a.score⟩ then x :: a :: t else a :: candInsert asc x t

def candKeep (asc : Bool) (k : Nat) (l : List RtvCand) (x : RtvCand) : List RtvCand :=
  if keyValid asc ⟨x.id, x.score⟩ then (candInsert asc x l).take k else l

/-! ### IVF-PQ probes (R306 to R311) -/

/-- The parameter block's check (R324, R325). -/
def rtvParGood (graph : Bool) (cap : Nat) (p : List Byte) : Bool :=
  let visits := bnum p 0x18 4
  let nprobe := bnum p 0x1C 4
  (p.drop 0x20).all (· == 0) &&
    (if graph then bnum p 0 8 == 0 && nprobe == 0 && decide (1 ≤ visits ∧ visits ≤ 65536)
     else decide (bnum p 0 8 < 2 ^ 52) && visits == 0 && decide (1 ≤ nprobe ∧ nprobe ≤ cap))

/-- The lists a probe result names for one query, and whether one was skipped (R306). -/
def probeLists (t : List Byte) (bs : List Byte) : List Nat × Bool :=
  let ids := (List.range (bnum bs 0 2)).map fun j => bnum bs (16 + 8 * j) 4
  (firsts (ids.filter (decide <| · < xCount t)), ids.any fun i => decide (xCount t ≤ i))

/-- The probes of one query. -/
def queryProbes (id : QId) (c : Cmd) (w : RtvWork) (now i : Nat) (lists : List Nat) : List Probe :=
  lists.map fun l => { owner := l % 4, list := l, queue := id, ptr := c.ptr, query := i, slot := w.slot, bank := w.bank, since := now }

/-- What a search reads before it scans: parameter block, queries and probe lists. -/
def rtvRead (h : Hw) (id : QId) (c : Cmd) (w : RtvWork) : Rx (List Byte × List RtvQuery × List Probe) := do
  let t := (h.idx w.slot).desc w.bank
  let o := rtvOp c.desc
  let m := queueMaster id
  let par ← rxRead h m o.va 64
  rxCheck (rtvParGood (xGraph t) (bitsOf (h.rd 0x000 0x084) 15 0) par) cFORMAT
  let src ← rxSource h id c (o.nq * elemBytes o.fmt (xDim t))
  let qs := (List.range o.nq).map (prepQuery t o.fmt src.toArray)
  if xGraph t then pure (par, qs, [])
  else
    let n := bnum par 0x1C 4
    let bs ← rxRead h m (bnum par 0 8) (o.nq * (16 + 8 * n))
    let part (i : Nat) : List Byte := (bs.drop (i * (16 + 8 * n))).take (16 + 8 * n)
    rxCheck ((List.range o.nq).all fun i => bnum (part i) 5 1 == 1 && bnum (part i) 2 2 == n && decide (bnum (part i) 0 2 ≤ n)) cFORMAT
    let out := qs.mapIdx fun i q =>
      let (l, skip) := probeLists t (part i)
      if q.zero then (q, []) else ({ q with lists := l.length, skipped := skip }, queryProbes id c w h.time i l)
    pure (par, out.map (·.1), out.flatMap (·.2))

/-- What one probe found: its query, and the entries it scored, found stale and found with no id. -/
structure ProbeEnd where
  query : RtvQuery
  scored : Nat
  stale : Nat
  bad : Nat

/-- One probe of list L over its snapshot, region base and tail (R308, R309), with the codebooks the unit holds. -/
def rtvProbe (h : Hw) (m : Master) (t : List Byte) (w : RtvWork) (searchK L : Nat) (snap : Nat × Nat) (books : Array Byte)
    (q : RtvQuery) : Rx ProbeEnd := do
  let eb := xEntryBytes t
  let tail := snap.2
  let cent ← rxRead h m (xCent t + 4 * xDim t * L) (4 * xDim t)
  let es ← rxRead h m snap.1 (tail * eb)
  let s := xDim t / xCode t
  let cl := (List.range (xDim t)).map fun i => bnum cent (4 * i) 4
  let coarse := if xAsc t then dist64 q.q cl else dot64 q.q cl
  let lut (j v : Nat) : Nat :=
    dot64 ((q.q.drop (j * s)).take s) ((List.range s).map fun i => elemAt fmFP32 books (s * (256 * j + v) + i))
  let e := h.epoch w.slot
  let step (acc : ProbeEnd × List RtvCand) (i : Nat) : ProbeEnd × List RtvCand :=
    let b := (es.drop (i * eb)).take eb
    let del := bitOf (bnum b 12 4) 0
    let idn := bnum b 0 4
    let late := stampLags e (bnum b 4 4) || (del && stampLags e (bnum b 8 4))
    if idn = 0xFFFFFFFF then ({ acc.1 with bad := acc.1.bad + 1 }, acc.2)
    else
      let acc := if late then ({ acc.1 with stale := acc.1.stale + 1 }, acc.2) else acc
      if !visible w.epoch (bnum b 4 4) (bnum b 8 4) del then acc
      else
        let sum := (List.range (xCode t)).foldl (fun a j => fadd a (lut j (bnum b (32 + j) 1))) 0
        let score := if xAsc t then fsub (fadd coarse (bnum b 16 4)) (fscale sum 1) else fadd coarse sum
        ({ acc.1 with scored := acc.1.scored + 1, query := { acc.1.query with nan := acc.1.query.nan || fIsNan score } },
         candKeep (xAsc t) searchK acc.2 { id := idn, score := score, attr := bnum b 24 8 })
  let (r, cands) := (List.range tail).foldl step (⟨q, 0, 0, 0⟩, (alGet (L % 4) q.cands).getD [])
  pure { r with query := { r.query with cands := alPut (L % 4) cands q.cands, scored := min (q.scored + r.scored) 0xFFFFFFFF
                                        stale := q.stale || decide (0 < r.stale) } }

/-- The command of a probe and what it carries. -/
def Hw.probeCmd (h : Hw) (p : Probe) : Option (Cmd × RtvWork) :=
  match (h.qs p.queue).cmds.find? fun c => c.ptr = p.ptr with
  | some c => match c.work with | .rtv w => some (c, w) | _ => none
  | none => none

/-- The probes an owner's next read serves (R310): those on the list of the oldest one, 64 at most; none until that one has
waited batch_wait cycles of 5/6 ns, or 64 are pending on the owner (log entry 89). -/
def Hw.batchDue (h : Hw) (d : Nat) : List Probe :=
  let mine := h.probes.filter fun p => p.owner = d ∧ (h.qs p.queue).st ≠ .faultHold
  match mine.head? with
  | none => []
  | some p =>
    let same := mine.filter fun x => x.list = p.list ∧ x.slot = p.slot ∧ x.bank = p.bank
    if 5 * bitsOf (h.rd (0x0C1 + 8 * d) 0x044) 15 0 ≤ 6 * (h.time - p.since) ∨ 64 ≤ mine.length then same.take 64 else []

/-- Begins a probe: it reads the list's directory entry once, and what it takes then is its snapshot (R309). -/
def Hw.probeBegin (h : Hw) (p : Probe) : Hw :=
  if p.snap.isSome then h
  else match h.probeCmd p with
    | none => { h with probes := h.probes.erase p }
    | some (c, w) =>
      let va := xDir ((h.idx w.slot).desc w.bank) + 16 * p.list
      match h.read (queueMaster p.queue) va 16 with
      | .error e => h.failCmd p.queue c (.rd e)
      | .ok dir =>
        { h.touch (queueMaster p.queue) va 16 with
          probes := h.probes.map fun x => if x = p then { x with snap := some (bitsOf (bnum dir 0 8) 51 0, bnum dir 8 4) } else x }

/-- The codebooks of the probe's index as the owner's cache holds them, loaded whole on a miss (R327). -/
def Hw.codebooks (h : Hw) (d : Nat) (p : Probe) : Hw × Option (List Byte) :=
  match (alGet d h.cbTag).filter fun x => x.slot = p.slot && x.bank = p.bank with
  | some x => (h, some x.books)
  | none =>
    match h.probeCmd p with
    | none => (h, none)
    | some (c, w) =>
      let t := (h.idx w.slot).desc w.bank
      match h.read (queueMaster p.queue) (xBook t) (1024 * xDim t) with
      | .error e => (h.failCmd p.queue c (.rd e), none)
      | .ok bs =>
        ({ (h.touch (queueMaster p.queue) (xBook t) (1024 * xDim t)).count (0x0C1 + 8 * d) 0x07C with
           cbTag := alPut d ⟨p.slot, p.bank, bs⟩ h.cbTag }, some bs)

/-- Serves one probe that has begun: what it found stands in its command. -/
def Hw.serveProbe (h : Hw) (d : Nat) (books : Array Byte) (p : Probe) : Hw :=
  match h.probeCmd p, p.snap with
  | some (c, w), some snap =>
    let t := (h.idx w.slot).desc w.bank
    let q := w.queries.getD p.query ⟨[], true, [], 0, 0, false, false, false, false⟩
    match rtvProbe h (queueMaster p.queue) t w (rtvOp c.desc).searchK p.list snap books q [] with
    | .error e => h.failCmd p.queue c e
    | .ok (r, touched) =>
      let page := 0x0C1 + 8 * d
      let h := touched.foldl (fun h e => h.touch (queueMaster p.queue) e.1 e.2) { h with probes := h.probes.erase p }
      let h := ((h.count64 page 0x048 r.scored).count page 0x064 r.stale).count page 0x074 r.bad
      h.updCmd p.queue p.ptr fun c => { c with work := .rtv { w with queries := listSet w.queries p.query r.query } }
  | _, _ => h

/-- One read of a list for its pending probes (R310): those not begun take their snapshots, and the probes that share it are counted
once; each that an access stops goes on where it stopped. -/
def listRead (d : Fin 4) (h : Hw) : Hw :=
  match h.batchDue d.val with
  | [] => h
  | p :: rest =>
    let page := 0x0C1 + 8 * d.val
    let batch := p :: rest
    let mine (h : Hw) : List Probe := h.probes.filter fun x =>
      x.snap.isSome && (h.qs x.queue).st != .faultHold && batch.any fun y => decide ({ x with snap := none } = { y with snap := none })
    let old := (mine h).length
    let h := batch.foldl Hw.probeBegin h
    let new := (mine h).length - old
    let h := if new = 0 then h else h.count page 0x050
    let h := if new < 2 then h else h.count page 0x054 new
    match (mine h).head? with
    | none => h
    | some p => match h.codebooks d.val p with
      | (h, none) => h
      | (h, some bs) => (mine h).foldl (fun h p => h.serveProbe d.val bs.toArray p) h

/-- LIST_READ (R310). -/
def execListRead (d : Fin 4) (s : State) : Out := .next (s.onHw (listRead d))

/-! ### Graph search (R315, R316) -/

/-- A search under way: the beam with its expanded marks, the results, what has been visited. -/
structure Beam where
  w : List (RtvCand × Bool) := []
  res : List RtvCand := []
  visited : List Nat := []
  scored : Nat := 0
  stale : Nat := 0
  edgeStale : Nat := 0
  nan : Bool := false
  limit : Bool := false

structure GraphRef where
  h : Hw
  m : Master
  t : List Byte
  q : List Nat
  epoch : Nat
  e : Nat
  searchK : Nat
  maxVisits : Nat

/-- Whether a node ranks before another in the beam: R212's order, with a NaN after every number (log entry 89). -/
def beamBetter (asc : Bool) (a b : RtvCand) : Bool :=
  if fIsNan a.score then fIsNan b.score && decide (a.id < b.id)
  else fIsNan b.score || better asc ⟨a.id, a.score⟩ ⟨b.id, b.score⟩

/-- Inserts a node into the beam, kept best first. -/
def beamInsert (asc : Bool) (x : RtvCand) : List (RtvCand × Bool) → List (RtvCand × Bool)
  | [] => [(x, false)]
  | a :: t => if beamBetter asc x a.1 then (x, false) :: a :: t else a :: beamInsert asc x t

/-- visit(slot, gen). -/
def GraphRef.visit (r : GraphRef) (b : Beam) (slot : Nat) (gen : Option Nat) : Rx Beam := do
  if b.limit || b.visited.contains slot then pure b
  else if b.visited.length = r.maxVisits then pure { b with limit := true }
  else if xCount r.t ≤ slot then pure { b with edgeStale := b.edgeStale + 1 }
  else
    let n ← rxRead r.h r.m (xDir r.t + slot * xNodeBytes r.t) (320 + xVecBytes r.t)
    let b := { b with visited := slot :: b.visited }
    let w := bnum n 12 4
    let reused := match gen with | some g => g != bitsOf w 31 16 | none => false
    if !bitOf w 0 || reused then pure { b with edgeStale := b.edgeStale + 1 }
    else
      let idn := bnum n 0 4
      let late := stampLags r.e (bnum n 4 4) || (bitOf w 1 && stampLags r.e (bnum n 8 4))
      let score := exactScore r.t r.q (vecOf r.t (n.drop 320))
      let x : RtvCand := { id := idn, score := score, attr := bnum n 16 8, slot := slot }
      let b := { b with scored := b.scored + 1, stale := b.stale + (if late then 1 else 0), nan := b.nan || fIsNan score }
      let b := { b with w := (beamInsert (xAsc r.t) x b.w).take r.searchK }
      if visible r.epoch (bnum n 4 4) (bnum n 8 4) (bitOf w 1) && idn != 0xFFFFFFFF then
        pure { b with res := candKeep (xAsc r.t) r.searchK b.res x }
      else pure b

/-- The edges of a node. -/
def GraphRef.edges (r : GraphRef) (n : List Byte) : Nat → Nat → Beam → Rx Beam
  | 0, _, b => pure b
  | fuel + 1, i, b => do
    let e := bnum n (0x40 + 8 * i) 8
    let b ← r.visit b (bitsOf e 27 0) (some (bitsOf e 47 32))
    GraphRef.edges r n fuel (i + 1) b

/-- The loop of R315. -/
def GraphRef.loop (r : GraphRef) : Nat → Beam → Rx Beam
  | 0, b => pure b
  | fuel + 1, b => do
    if b.limit then pure b
    else match b.w.find? fun x => !x.2 with
      | none => pure b
      | some (x, _) =>
        let worst := match b.w.getLast? with | some y => y.1.slot == x.slot | none => false
        if b.w.length = r.searchK ∧ worst = true then pure b
        else
          let b := { b with w := b.w.map fun y => if y.1.slot = x.slot then (y.1, true) else y }
          let n ← rxRead r.h r.m (xDir r.t + x.slot * xNodeBytes r.t) (320 + xVecBytes r.t)
          let b ← r.edges n (min (bitsOf (bnum n 0x18 4) 5 0) (bitsOf (r.h.rd 0x000 0x080) 23 16)) 0 b
          GraphRef.loop r fuel b

/-- The entry nodes. -/
def GraphRef.enter (r : GraphRef) : Nat → Nat → Beam → Rx Beam
  | 0, _, b => pure b
  | fuel + 1, i, b => do GraphRef.enter r fuel (i + 1) (← r.visit b (xEntry r.t i) none)

/-- One query over a graph. -/
def graphQuery (r : GraphRef) (q : RtvQuery) : Rx (RtvQuery × Beam) := do
  if q.zero then pure (q, {})
  else
    let b ← r.enter (xEntries r.t) 0 {}
    let b ← r.loop (r.maxVisits + 1) b
    pure ({ q with cands := [(xHome r.t, b.res)], scored := b.scored, stale := decide (0 < b.stale), nan := b.nan, limit := b.limit }, b)

def graphAll (h : Hw) (m : Master) (t : List Byte) (w : RtvWork) (searchK : Nat) : List RtvQuery → Rx (List (RtvQuery × Beam))
  | [] => pure []
  | q :: qs => do
    let x ← graphQuery ⟨h, m, t, q.q, w.epoch, h.epoch w.slot, searchK, bnum w.par 0x18 4⟩ q
    let xs ← graphAll h m t w searchK qs
    pure (x :: xs)

/-! ### Results (R311 to R314) -/

/-- The merge of the owners' lists, through the id filter: the best `k`, duplicates dropped and those with another score. -/
def candMerge (asc : Bool) (k : Nat) (q : RtvQuery) : List RtvCand × Nat × Nat :=
  let all := ((List.range 4).flatMap fun d => (alGet d q.cands).getD []).foldl (fun l x => candInsert asc x l) []
  all.foldl (fun acc x =>
    if k ≤ acc.1.length then acc
    else match acc.1.find? fun y => y.id = x.id with
      | some y => (acc.1, acc.2.1 + 1, acc.2.2 + (if fKey y.score = fKey x.score then 0 else 1))
      | none => (acc.1 ++ [x], acc.2)) ([], 0, 0)

/-- The exact scores of the survivors (R313). -/
def rescoreAll (h : Hw) (m : Master) (t : List Byte) (q : List Nat) : List RtvCand → Rx (List RtvCand)
  | [] => pure []
  | x :: xs => do
    let bs ← rxRead h m (xVec t + xStride t * x.id) (xVecBytes t)
    let ys ← rescoreAll h m t q xs
    pure ({ x with score := exactScore t q (vecOf t bs) } :: ys)

/-- The result and trailer of one query, with candidates removed, duplicates dropped, and whether it falls short. -/
def rtvResult (h : Hw) (m : Master) (t : List Byte) (o : RtvOp) (w : RtvWork) (q : RtvQuery) :
    Rx (List Byte × Nat × Nat × Bool) := do
  let asc := xAsc t
  let (merged, dups, mism) := candMerge asc o.searchK q
  let all := bnum w.par 8 8
  let none_ := bnum w.par 16 8
  let kept := if o.filter then merged.filter fun x => (x.attr &&& all) == all && (x.attr &&& none_) == 0 else merged
  let kept' ← if o.rescore then rescoreAll h m t q.q kept else pure kept
  let nan := q.nan || kept'.any fun x => fIsNan x.score
  let final := (kept'.filter fun x => keyValid asc ⟨x.id, x.score⟩).foldl (fun l x => candInsert asc x l) []
  let got := final.take o.k
  let same (x : RtvCand) : Bool := match got.getLast? with | some g => fKey g.score == fKey x.score | none => false
  let row : SelRow := {
    entries := got.map fun x => ⟨x.id, x.score⟩
    tied := if got.length = o.k then ((final.drop o.k).filter same).length else 0
    dups := dups, dupWarning := decide (0 < mism), nanSeen := nan }
  let f (b : Bool) (n : Nat) : Nat := if b then 2 ^ n else 0
  let trailer := leBytes 4 q.scored ++ leBytes 4 (merged.length - kept.length) ++ leBytes 4 w.epoch
    ++ leBytes 4 (f q.zero 0 + f q.stale 1 + f q.limit 2 + f q.skipped 3 + f o.rescore 4 + 0x100 + min q.lists 0xFFFF * 0x10000)
  pure (selBytes asc o.k row ++ trailer, merged.length - kept.length, dups, decide (got.length < o.k))

def rtvResults (h : Hw) (m : Master) (t : List Byte) (o : RtvOp) (w : RtvWork) : List RtvQuery → Rx (List (List Byte × Nat × Nat × Bool))
  | [] => pure []
  | q :: qs => do
    let x ← rtvResult h m t o w q
    let xs ← rtvResults h m t o w qs
    pure (x :: xs)

/-- Finishes a search whose probes have all been served. -/
def Hw.rtvFinish (h : Hw) (id : QId) (c : Cmd) (w : RtvWork) : Hw :=
  let t := (h.idx w.slot).desc w.bank
  let o := rtvOp c.desc
  match rtvResults h (queueMaster id) t o w w.queries [] with
  | .error e => h.failCmd id c e
  | .ok (xs, touched) =>
    let res := xs.flatMap (·.1)
    h.finishCmd id c {
      result := res, writes := dstWrites c.desc res, touched := touched, work := .rtv w
      counts := [(0x058, (xs.map (·.2.1)).sum), (0x060, (xs.map (·.2.2.1)).sum), (0x05C, (xs.filter (·.2.2.2)).length)]
      signals := if dSigEn c.desc then [(o.sigCore, dSigSem c.desc, 1)] else [] }

/-- Begins a search: probes sent, or the graph walked on its home unit. -/
def Hw.rtvBegin (h : Hw) (id : QId) (c : Cmd) (w : RtvWork) : Hw :=
  let t := (h.idx w.slot).desc w.bank
  match rtvRead h id c w [] with
  | .error e => h.failCmd id c e
  | .ok ((par, qs, probes), touched) =>
    let w := { w with par := par, sent := true, queries := qs }
    if xGraph t then
      match graphAll h (queueMaster id) t w (rtvOp c.desc).searchK qs [] with
      | .error e => h.failCmd id c e
      | .ok (xs, t2) =>
        let p := 0x0C1 + 8 * xHome t
        let h := (touched ++ t2).foldl (fun h e => h.touch (queueMaster id) e.1 e.2) h
        let sum (f : Beam → Nat) : Nat := (xs.map fun x => f x.2).sum
        let h := ((h.count64 p 0x048 (sum (·.scored))).count p 0x064 (sum (·.stale))).count p 0x068 (sum (·.edgeStale))
        let h := h.count p 0x06C (xs.filter fun x => x.2.limit).length
        h.setWork id c.ptr (.rtv { w with queries := xs.map (·.1) })
    else
      let h := touched.foldl (fun h e => h.touch (queueMaster id) e.1 e.2) h
      { h.setWork id c.ptr (.rtv w) with probes := h.probes ++ probes }

/-- The first search of a queue that has sent nothing, all unfinished commands before it being searches that have (R323). -/
def Hw.rtvNext (h : Hw) (id : QId) : Option (Cmd × RtvWork) :=
  let open_ := (h.qs id).cmds.filter fun c => !c.finished && !c.skipped
  let sent (c : Cmd) : Bool := match c.work with | .rtv w => dOpcode c.desc == 0x10 && w.sent | _ => false
  match open_.dropWhile sent with
  | c :: _ => match c.work with | .rtv w => if dOpcode c.desc = 0x10 then some (c, w) else none | _ => none
  | [] => none

/-- A search goes on (R326): its results where every probe has been served, and the next search begins. -/
def rtvSearch (id : QId) (h : Hw) : Hw :=
  if (h.qs id).st = .faultHold then h
  else
    let h := match h.rtvNext id with
      | some (c, w) => h.rtvBegin id c w
      | none => h
    match h.stageHead id 0x10 with
    | none => h
    | some c =>
      match c.work with
      | .rtv w => if w.sent && !(h.probes.any fun p => p.queue = id ∧ p.ptr = c.ptr) then h.rtvFinish id c w else h
      | _ => h

/-- RTV_SEARCH (R326). -/
def execRtvSearch (d : Fin 4) (q : Fin 4) (s : State) : Out := .next (s.onHw (rtvSearch ⟨.stage d .rtv, q.val⟩))

/-! ### Mutations (R317 to R322) -/

/-- The items of a mutation are read in execution; they are applied at the commit step. -/
def rtvItems (id : QId) (op : Nat) (h : Hw) : Hw :=
  h.execStage id op fun h c =>
    match c.work with
    | .rtv w =>
      let o := rtvOp c.desc
      let t := (h.idx w.slot).desc w.bank
      let n := if op = 0x15 then 0 else o.n * rtvItem t op
      match (if n = 0 then Except.ok [] else h.source id c 0 n) with
      | .error e => .error e
      | .ok bs => .ok {
          touched := srcTouch c.desc n, work := .rtv { w with par := bs, sent := true }
          signals := if dSigEn c.desc then [(o.sigCore, dSigSem c.desc, 1)] else [] }
    | _ => .error .notYet

/-- RTV_INSERT (R319). -/
def execRtvInsert (d : Fin 4) (q : Fin 4) (s : State) : Out := .next (s.onHw (rtvItems ⟨.stage d .rtv, q.val⟩ 0x11))

/-- RTV_DELETE (R320). -/
def execRtvDelete (d : Fin 4) (q : Fin 4) (s : State) : Out := .next (s.onHw (rtvItems ⟨.stage d .rtv, q.val⟩ 0x12))

/-- RTV_NODE_PUT (R321). -/
def execRtvNodePut (d : Fin 4) (q : Fin 4) (s : State) : Out := .next (s.onHw (rtvItems ⟨.stage d .rtv, q.val⟩ 0x13))

/-- RTV_EPOCH (R317). -/
def execRtvEpoch (d : Fin 4) (q : Fin 4) (s : State) : Out := .next (s.onHw (rtvItems ⟨.stage d .rtv, q.val⟩ 0x15))

/-- The header of a mutation (R324). -/
def rtvHeader (a s full e : Nat) : List Byte := leBytes 4 a ++ leBytes 4 s ++ leBytes 4 full ++ leBytes 4 e

/-- RTV_COMPACT of a list (R322): a list out of range ends the command with FORMAT_UNSUPPORTED (log entry 36). -/
def rtvCompactRun (h : Hw) (id : QId) (c : Cmd) (w : RtvWork) : Rx Done := do
  let o := rtvOp c.desc
  let t := (h.idx w.slot).desc w.bank
  let m := queueMaster id
  rxCheck (decide (o.n < xCount t)) cFORMAT
  let eb := xEntryBytes t
  let dir ← rxRead h m (xDir t + 16 * o.n) 16
  let tail := bnum dir 8 4
  let es ← rxRead h m (bitsOf (bnum dir 0 8) 51 0) (tail * eb)
  let e := h.epoch w.slot
  let all := (List.range tail).map fun i => (es.drop (i * eb)).take eb
  let kept := all.filter fun b => !(bitOf (bnum b 12 4) 0 && epochLe (bnum b 8 4) e)
  rxCheck (decide (kept.length ≤ o.cap)) cLENGTH
  let stamp (b : List Byte) : List Byte := if epochLe (bnum b 4 4) e then b.take 4 ++ leBytes 4 e ++ b.drop 8 else b
  let head := rtvHeader kept.length (tail - kept.length) 0 ((e + 1) % 0x100000000)
  pure {
    result := head
    writes := (if kept = [] then [] else [(o.va, (kept.map stamp).flatten)])
      ++ [(xDir t + 16 * o.n, leBytes 8 o.va ++ leBytes 4 kept.length ++ leBytes 4 o.cap), (dDst c.desc, head)]
    work := .rtv { w with sent := true, holds := some o.n }
    signals := if dSigEn c.desc then [(o.sigCore, dSigSem c.desc, 1)] else [] }

/-- A compaction starts when it is the oldest of its queue, since it holds its list until it has committed. -/
def rtvCompact (id : QId) (h : Hw) : Hw :=
  match h.stageHead id 0x14 with
  | none => h
  | some c =>
    if (h.qs id).cmds.head?.map (·.ptr) ≠ some c.ptr then h
    else h.execStage id 0x14 fun h c => match c.work with
      | .rtv w => rxRun (rtvCompactRun h id c w)
      | _ => .error .notYet

/-- RTV_COMPACT (R322). -/
def execRtvCompact (d : Fin 4) (q : Fin 4) (s : State) : Out := .next (s.onHw (rtvCompact ⟨.stage d .rtv, q.val⟩))

/-- Whether another command's compaction holds a list that the items name (R322). -/
def Hw.listHeld (h : Hw) (slot : Nat) (lists : List Nat) : Bool :=
  h.rtvWorks.any fun w => w.2.slot == slot && (match w.2.holds with | some l => lists.contains l | none => false)

/-- A commit step as its items are applied: the state they see, the writes so far, and the counts. -/
structure RtvRun where
  h : Hw
  slot : Nat
  writes : List (Nat × List Byte) := []
  applied : Nat := 0
  skipped : Nat := 0
  full : Nat := 0
  bad : Nat := 0
  touched : List (Nat × Nat) := []

/-- An item of a commit step: what stops it, and whether that was a write. -/
abbrev RtvStep (α : Type) := Except (RdErr × Bool) α

/-- A write of an item. -/
def RtvRun.put (r : RtvRun) (m : Master) (va : Nat) (bs : List Byte) : RtvStep RtvRun :=
  match r.h.place m va bs with
  | .ok _ => .ok { r with h := (r.h.lookups m va bs.length).write m va bs, writes := r.writes ++ [(va, bs)] }
  | .error e => .error (e, true)
def RtvRun.skip (r : RtvRun) : RtvRun := { r with skipped := r.skipped + 1 }
def RtvRun.done (r : RtvRun) : RtvRun := { r with applied := r.applied + 1 }

/-- A read of what the items see. -/
def RtvRun.get (r : RtvRun) (m : Master) (va n : Nat) : RtvStep (List Byte × RtvRun) :=
  match r.h.read m va n with
  | .ok bs => .ok (bs, { r with touched := (va, n) :: r.touched })
  | .error e => .error (e, false)

/-- An item that names a list waits while a compaction holds that (R322). -/
def RtvRun.free (r : RtvRun) (l : Nat) : RtvStep Unit := if r.h.listHeld r.slot [l] then .error (.wait, false) else .ok ()

/-- One item of RTV_INSERT (R319): the entry is written before the tail moves past it. -/
def insertItem (m : Master) (t : List Byte) (e : Nat) (r : RtvRun) (x : List Byte) : RtvStep RtvRun := do
  let l := bnum x 0 4
  let img := x.drop 32
  if xCount t ≤ l then .ok r.skip
  else
    r.free l
    let (dir, r) ← r.get m (xDir t + 16 * l) 16
    let tail := bnum dir 8 4
    if tail = bnum dir 12 4 then .ok { r.skip with full := r.full + 1 }
    else if bnum img 0 4 = 0xFFFFFFFF then .ok { r.skip with bad := r.bad + 1 }
    else
      let ent := img.take 4 ++ leBytes 4 ((e + 1) % 0x100000000) ++ leBytes 4 0 ++ leBytes 4 (putBit (bnum img 12 4) 0 false) ++ img.drop 16
      let r ← r.put m (bitsOf (bnum dir 0 8) 51 0 + tail * xEntryBytes t) ent
      let r ← r.put m (xDir t + 16 * l + 8) (leBytes 4 (tail + 1))
      .ok r.done

/-- One item of RTV_DELETE (R320). -/
def deleteItem (m : Master) (t : List Byte) (e : Nat) (r : RtvRun) (x : List Byte) : RtvStep RtvRun := do
  let mark (va w bit : Nat) (r : RtvRun) : RtvStep RtvRun := do
    let r ← r.put m (va + 8) (leBytes 4 ((e + 1) % 0x100000000) ++ leBytes 4 (putBit w bit true))
    .ok r.done
  if xGraph t then
    let slot := bitsOf (bnum x 0 4) 27 0
    if xCount t ≤ slot then .ok r.skip
    else
      let va := xDir t + slot * xNodeBytes t
      let (n, r) ← r.get m va 16
      let w := bnum n 12 4
      if !bitOf w 0 || bitOf w 1 || bitsOf w 31 16 != bnum x 4 2 || bnum n 0 4 != bnum x 8 4 then .ok r.skip else mark va w 1 r
  else
    let l := bnum x 0 4
    if xCount t ≤ l then .ok r.skip
    else
      r.free l
      let (dir, r) ← r.get m (xDir t + 16 * l) 16
      let pos := bnum x 4 4
      if bnum dir 8 4 ≤ pos then .ok r.skip
      else
        let va := bitsOf (bnum dir 0 8) 51 0 + pos * xEntryBytes t
        let (b, r) ← r.get m va 16
        if bitOf (bnum b 12 4) 0 || bnum b 0 4 != bnum x 8 4 then .ok r.skip else mark va (bnum b 12 4) 0 r

/-- One item of RTV_NODE_PUT (R321): the record is written whole. -/
def nodeItem (m : Master) (t : List Byte) (e : Nat) (r : RtvRun) (x : List Byte) : RtvStep RtvRun := do
  let slot := bitsOf (bnum x 0 4) 27 0
  let reuse := bitOf (bnum x 0 4) 28
  let img := x.drop 64
  if xCount t ≤ slot then .ok r.skip
  else
    let va := xDir t + slot * xNodeBytes t
    let (n, r) ← r.get m va (320 + xVecBytes t)
    let w := bnum n 12 4
    let prev := (e + 0xFFFFFFFF) % 0x100000000
    if reuse && (!bitOf w 0 || (bitOf w 1 && epochLe (bnum n 8 4) prev)) then
      if bnum img 0 4 = 0xFFFFFFFF then .ok { r.skip with bad := r.bad + 1 }
      else
        let w' := 1 + (bitsOf w 31 16 + 1) % 0x10000 * 0x10000
        let node := img.take 4 ++ leBytes 4 ((e + 1) % 0x100000000) ++ (img.drop 8).take 4 ++ leBytes 4 w' ++ img.drop 16
        let r ← r.put m va node
        .ok r.done
    else if !reuse && bitOf w 0 then
      let ins := if epochLe (bnum n 4 4) e then e else bnum n 4 4
      let node := n.take 4 ++ leBytes 4 ins ++ (n.drop 8).take 8 ++ (img.drop 16).take 304 ++ n.drop 320
      let r ← r.put m va node
      .ok r.done
    else .ok r.skip

/-- The items of a mutation in order, each whole, until one is stopped: what is left and why. -/
def rtvApply (f : RtvRun → List Byte → RtvStep RtvRun) : List (List Byte) → RtvRun → RtvRun × List (List Byte) × Option (RdErr × Bool)
  | [], r => (r, [], none)
  | x :: xs, r => match f r x with | .ok r => rtvApply f xs r | .error e => (r, x :: xs, some e)

/-- Cuts bytes into items of `k`. -/
def cutItems (k : Nat) : Nat → List Byte → List (List Byte)
  | 0, _ => []
  | n + 1, bs => bs.take k :: cutItems k n (bs.drop k)

/-- What the end of an RTV commit does beside its writes: RTV_EPOCH advances E. -/
def rtvCommitEff (c : Cmd) (h : Hw) : Hw :=
  match c.work with
  | .rtv w => if dOpcode c.desc = 0x15 then h.wr 0x0C1 (idxOff w.slot 0x10) (h.epoch w.slot + 1) else h
  | _ => h

/-- What stops a commit step at an item: a fault holds the unit, an uncorrectable line ends the command (log entry 90). -/
def Hw.rtvStop (h : Hw) (id : QId) (c : Cmd) (e : RdErr × Bool) : Hw :=
  match e with
  | (.fault cause level va, true) => h.holdFault id c.ptr cause level va true c.desc
  | (e, _) => h.failCmd id c (.rd e)

/-- The items of a mutation's commit step: each is applied whole, to the list or node as it then stands, so that the mutations of one list
are ordered (R305). -/
def Hw.rtvMutate (h : Hw) (id : QId) (c : Cmd) (w : RtvWork) (items : List (List Byte)) : Hw :=
  let op := dOpcode c.desc
  let m := queueMaster id
  let t := (h.idx w.slot).desc w.bank
  let f := match op with | 0x11 => insertItem | 0x12 => deleteItem | _ => nodeItem
  let (r, left, stop) := rtvApply (f m t (h.epoch w.slot)) items { h := h, slot := w.slot }
  let fresh := c.todo.isNone
  let g := r.touched.foldl (fun h e => h.touch m e.1 e.2) r.h
  let g := (g.count (engPage id.eng) 0x070 r.full).count (engPage id.eng) 0x074 r.bad
  let w := { w with items := left, applied := w.applied + r.applied, skips := w.skips + r.skipped, fulls := w.fulls + r.full }
  let head := (dDst c.desc, rtvHeader w.applied w.skips w.fulls ((h.epoch w.slot + 1) % 0x100000000))
  let g := g.updCmd id c.ptr fun c => { c with
    work := .rtv w
    writes := (if fresh then [] else c.writes) ++ r.writes ++ (if left = [] then [head] else [])
    todo := some (if left = [] then [head] else []) }
  match stop with
  | none => g.stageCommit id rtvCommitEff
  | some e =>
    let ecc := match e.1 with | .ecc _ _ => true | _ => false
    if fresh && (r.writes == [] || ecc) then h.rtvStop id c e else g.rtvStop id c e

/-- Whether a probe that snapshotted a list before a compaction wrote its new region is still under way (R322). -/
def Hw.oldProbes (h : Hw) (w : RtvWork) (list base : Nat) : Bool :=
  h.probes.any fun p => p.slot == w.slot && p.bank == w.bank && p.list == list &&
    (match p.snap with | some s => s.1 != base | none => false)

/-- The commit step of a compaction (R322): its record waits for the probes that snapshotted the old region. -/
def Hw.compactCommit (h : Hw) (id : QId) (c : Cmd) (w : RtvWork) : Hw :=
  let o := rtvOp c.desc
  if !h.oldProbes w o.n o.va then h.stageCommit id rtvCommitEff
  else if c.todo.isNone && (!h.ringGate id c || !h.creditGate id c) then h
  else
    let ws := c.todo.getD c.writes
    let (g, rest) := Hw.stageWrites id c ws h
    if c.todo.isNone ∧ (cutWrites ws).length = rest.length then g else g.updCmd id c.ptr fun c => { c with todo := some rest }

/-- The commit step of a Retriever command (R317 to R322, R326). -/
def rtvCommit (id : QId) (h : Hw) : Hw :=
  match h.stageCommitHead id with
  | none => h
  | some c =>
    match c.work with
    | .rtv w =>
      let op := dOpcode c.desc
      let o := rtvOp c.desc
      if op == 0x14 then h.compactCommit id c w
      else if !(op == 0x11 || op == 0x12 || op == 0x13) || o.n = 0 then h.stageCommit id rtvCommitEff
      else if c.todo.isSome then (if w.items = [] then h.stageCommit id rtvCommitEff else h.rtvMutate id c w w.items)
      else if !h.ringGate id c || !h.creditGate id c then h.stageCommit id rtvCommitEff
      else h.rtvMutate id c w (cutItems (rtvItem ((h.idx w.slot).desc w.bank) op) o.n w.par)
    | _ => h

end Sys2Proof.Machine
end

