-- ==== Sys2Proof/Machine/Pck.lean ====
section
/-! DEFINITION. The Packer (R331 to R348): pair rows, and the streamed prompt. -/

namespace Sys2Proof.Machine

/-! ### Operands (R333 to R337) -/

structure PckOp where
  sigCore : Nat
  outCore : Nat
  outSem : Nat
  batchCore : Nat
  batchSem : Nat
  nq : Nat
  /-- first, or n_batches -/
  a : Nat
  /-- count, or batch_k -/
  b : Nat
  va : Nat
  maxPsg : Nat
  chunk : Nat

def pckOp (d : BitVec 512) : PckOp :=
  let x := dword d 0
  { sigCore := bitsOf x 5 0, outCore := bitsOf x 11 6, outSem := bitsOf x 15 12, batchCore := bitsOf x 21 16,
    batchSem := bitsOf x 25 22, nq := dword d 1, a := bitsOf (dword d 2) 12 0, b := bitsOf (dword d 2) 28 16,
    va := dword d 3 + dword d 4 * 0x100000000, maxPsg := bitsOf (dword d 5) 12 0, chunk := bitsOf (dword d 5) 28 16 }

/-- The checks at issue (R336, R337); a count of pair rows beyond the ordinals of R334 is out of range (log entry 37). -/
def pckFormat (d : BitVec 512) : Bool :=
  let o := pckOp d
  stagePlain d && !dMirror d && decide (o.sigCore < 48) && bitsOf (dword d 2) 15 13 == 0 && bitsOf (dword d 2) 31 29 == 0
    && o.va % 64 == 0 &&
    (if dOpcode d = 0x10 then bitsOf (dword d 0) 31 6 == 0 && dword d 5 == 0 && decide (o.b ≤ 4096)
     else bitsOf (dword d 0) 31 26 == 0 && decide (o.outCore < 48 ∧ o.batchCore < 48) && decide (1 ≤ o.a ∧ o.a ≤ 4096)
       && decide (1 ≤ o.b ∧ o.b ≤ 4096) && decide (1 ≤ o.maxPsg ∧ o.maxPsg ≤ 4096) && decide (16 ≤ o.chunk ∧ o.chunk ≤ 4096)
       && bitsOf (dword d 5) 15 13 == 0 && bitsOf (dword d 5) 31 29 == 0)

def pckLength (d : BitVec 512) : Bool :=
  let o := pckOp d
  decide (4 * o.nq ≤ dSrcLen d) && decide (o.va + 64 ≤ 2 ^ 52)

/-- The fields of the parameter block (R336). -/
def pkVa (p : List Byte) (i : Nat) : Nat := bnum p (8 * i) 8
def pkPassages (p : List Byte) : Nat := bnum p 0x30 4
/-- pair_len, or budget. -/
def pkLen (p : List Byte) : Nat := bnum p 0x34 4
def pkPos (p : List Byte) : Nat := bnum p 0x38 4
def pkReserve (p : List Byte) : Nat := bnum p 0x3C 4

def pckParGood (pairs : Bool) (p : List Byte) : Bool :=
  ((List.range 6).all fun i => decide (pkVa p i < 2 ^ 52)) && pkVa p 1 % 16 == 0
    && decide (pkLen p < 2 ^ 18 ∧ pkPos p < 2 ^ 18 ∧ pkReserve p < 2 ^ 18)
    && (!pairs || (pkVa p 3 == 0 && pkVa p 4 == 0 && pkVa p 5 == 0 && pkPos p == 0 && pkReserve p == 0))

/-- M, the chunks of a prompt (R337). -/
def pckChunks (o : PckOp) (p : List Byte) : Nat := (pkLen p - pkReserve p + o.chunk - 1) / o.chunk

/-- The fields of a template block (R333). -/
def tmHead (t : List Byte) : Nat := bnum t 0 2
def tmTail (t : List Byte) : Nat := bnum t 2 2
def tmPre (t : List Byte) : Nat := bnum t 4 1
def tmPost (t : List Byte) : Nat := bnum t 5 1
def tmPad (t : List Byte) : Nat := bnum t 8 4
def tmVocab (t : List Byte) : Nat := bitsOf (bnum t 12 4) 3 0
/-- `n` tokens of a template from token `i` on. -/
def tmTokens (t : List Byte) (i n : Nat) : List Nat := (List.range n).map fun j => bnum t (16 + 4 * (i + j)) 4
def tmHeadT (t : List Byte) : List Nat := tmTokens t 0 (tmHead t)
def tmPreT (t : List Byte) : List Nat := tmTokens t (tmHead t) (tmPre t)
def tmPostT (t : List Byte) : List Nat := tmTokens t (tmHead t + tmPre t) (tmPost t)
def tmTailT (t : List Byte) : List Nat := tmTokens t (tmHead t + tmPre t + tmPost t) (tmTail t)

/-- A token entry (R334). -/
def tokenEntry (token pos seg ord : Nat) : Nat := token + pos % 2 ^ 18 * 2 ^ 32 + seg * 2 ^ 50 + ord * 2 ^ 52

/-- Token entries of one kind, from position `pos` on. -/
def tokenRun (seg ord pos : Nat) (ts : List Nat) : List Nat := ts.mapIdx fun i t => tokenEntry t (pos + i) seg ord

def padEntry (t : List Byte) : Nat := tokenEntry (tmPad t) 0 3 0

/-- A passage's directory entry: tokens' address and length, none for a missing passage (R331, R332). -/
def passage (h : Hw) (m : Master) (par tmpl : List Byte) (pid : Nat) : Rx (Option (Nat × Nat)) := do
  if pkPassages par ≤ pid then pure none
  else
    let e ← rxRead h m (pkVa par 0 + 16 * pid) 16
    let w := bnum e 12 4
    if bitOf w 4 && bitsOf w 3 0 == tmVocab tmpl && bitsOf w 31 5 == 0 && bitsOf (bnum e 0 8) 63 52 == 0 then
      pure (some (bitsOf (bnum e 0 8) 51 0, bnum e 8 4))
    else pure none

/-- Tokens in memory. -/
def rxTokens (h : Hw) (m : Master) (va n : Nat) : Rx (List Nat) := do
  let bs ← rxRead h m va (4 * n)
  pure ((List.range n).map fun i => bnum bs (4 * i) 4)

/-- What both opcodes read first: parameter block, template with its tokens, candidate result, query tokens. -/
def pckRead (h : Hw) (id : QId) (c : Cmd) : Rx (List Byte × List Byte × List Byte × List Nat) := do
  let o := pckOp c.desc
  let m := queueMaster id
  let pairs := decide (dOpcode c.desc = 0x10)
  let par ← rxRead h m o.va 64
  rxCheck (pckParGood pairs par) cFORMAT
  if pairs then rxCheck (decide (16 + 8 * o.b * pkLen par ≤ dDstLen c.desc)) cLENGTH
  else
    rxCheck (decide (pkPos par + pkLen par ≤ bitsOf (h.rd 0x000 0x088) 23 0) && decide (pkReserve par < pkLen par)
      && decide (32 + 8 * o.chunk * pckChunks o par ≤ dDstLen c.desc)) cLENGTH
  let head ← rxRead h m (pkVa par 1) 16
  rxCheck (bnum head 6 1 == 1) cFORMAT
  let toks ← rxRead h m (pkVa par 1 + 16) (4 * (tmHead head + tmPre head + tmPost head + tmTail head))
  let top ← rxRead h m (pkVa par 2) 16
  rxCheck (bnum top 5 1 == 1 && (pairs || decide (o.a * o.b ≤ bnum top 2 2))) cFORMAT
  let ents ← rxRead h m (pkVa par 2 + 16) (8 * bnum top 0 2)
  rxCheck (if pairs then decide (tmHead head + o.nq + tmPre head + tmPost head < pkLen par)
           else decide (tmHead head + o.nq + tmTail head ≤ pkLen par - pkReserve par)) cLENGTH
  let qs ← rxSource h id c (4 * o.nq)
  pure (par, head ++ toks, top ++ ents, (List.range o.nq).map fun i => bnum qs (4 * i) 4)

/-- The passage id of candidate `i` of a result, and how many it holds. -/
def candId (cand : List Byte) (i : Nat) : Nat := bnum cand (16 + 8 * i) 4
def candValid (cand : List Byte) : Nat := bnum cand 0 2

/-! ### PCK_PAIRS (R338) -/

/-- The rows from row `i` on: entries, rows cut, rows without a passage, passages missing. -/
def pairRows (h : Hw) (m : Master) (o : PckOp) (par tmpl cand : List Byte) (qs : List Nat) :
    Nat → Nat → Rx (List Nat × Nat × Nat × Nat)
  | 0, _ => pure ([], 0, 0, 0)
  | fuel + 1, i => do
    let len := pkLen par
    let inside := decide (o.a + i < candValid cand)
    let p ← if inside then passage h m par tmpl (candId cand (o.a + i)) else pure none
    let room := len - (tmHead tmpl + o.nq + tmPre tmpl + tmPost tmpl)
    let ts ← match p with | some (va, n) => rxTokens h m va (min n room) | none => pure []
    let cut := match p with | some (_, n) => decide (room < n) | none => false
    let p0 := tmHead tmpl
    let p1 := p0 + o.nq
    let p2 := p1 + tmPre tmpl
    let p3 := p2 + ts.length
    let row := tokenRun 0 0 0 (tmHeadT tmpl) ++ tokenRun 1 0 p0 qs ++ tokenRun 0 i p1 (tmPreT tmpl) ++ tokenRun 2 i p2 ts
      ++ tokenRun 0 i p3 (tmPostT tmpl)
    let (rest, c, x, miss) ← pairRows h m o par tmpl cand qs fuel (i + 1)
    pure (row ++ List.replicate (len - row.length) (padEntry tmpl) ++ rest, c + (if cut then 1 else 0),
      x + (if p.isNone then 1 else 0), miss + (if p.isNone && inside then 1 else 0))

def pairsRun (h : Hw) (id : QId) (c : Cmd) : Rx Done := do
  let o := pckOp c.desc
  let signals := if dSigEn c.desc then [(o.sigCore, dSigSem c.desc, 1)] else []
  if o.nq = 0 ∧ o.b = 0 then pure { signals := signals }
  else
    let (par, tmpl, cand, qs) ← pckRead h id c
    let (rows, cut, none_, miss) ← pairRows h (queueMaster id) o par tmpl cand qs o.b 0
    let head := leBytes 4 o.b ++ leBytes 4 cut ++ leBytes 4 none_ ++ leBytes 4 0x100
    let bs := rows.flatMap (leBytes 8)
    pure {
      result := head ++ bs, writes := (if bs = [] then [] else [(dDst c.desc + 16, bs)]) ++ [(dDst c.desc, head)]
      counts := [(0x048, miss), (0x050, cut)], signals := signals }

/-- PCK_PAIRS (R338). -/
def execPckPairs (d : Fin 4) (q : Fin 4) (s : State) : Out :=
  .next (s.onHw fun h => h.execStage ⟨.stage d .pck, q.val⟩ 0x10 fun h c => rxRun (pairsRun h ⟨.stage d .pck, q.val⟩ c))

/-! ### PCK_PROMPT (R340 to R344) -/

/-- The first unfinished command of a queue when it is a PCK_PROMPT that streams. -/
def Hw.pckStream (h : Hw) (id : QId) : Option (Cmd × PckWork) :=
  match h.stageHead id 0x11 with
  | some c => match c.work with | .pck w => some (c, w) | _ => none
  | none => none

/-- The candidate best under R212, order 0. -/
def bestScored : List (Nat × Nat) → Option (Nat × Nat)
  | [] => none
  | x :: t =>
    match bestScored t with
    | some y => if better false ⟨y.1, y.2⟩ ⟨x.1, x.2⟩ then some y else some x
    | none => some x

/-- Ends passage emission: the tail, then pad entries to M chunks (R342, R343). -/
def PckWork.close (w : PckWork) (o : PckOp) : PckWork :=
  if w.closed then w
  else
    let es := w.entries ++ tokenRun 0 0 (pkPos w.par + w.entries.length) (tmTailT w.tmpl)
    { w with closed := true, tokens := es.length,
             entries := es ++ List.replicate (pckChunks o w.par * o.chunk - es.length) (padEntry w.tmpl) }

/-- One turn of the placing loop of R341 step 4 and R342 under the ceiling `c`; none when it has ended. -/
def pckPlaceOne (h : Hw) (m : Master) (o : PckOp) (c : Nat) (w : PckWork) : Rx (Option PckWork) := do
  match bestScored w.scored with
  | none => pure none
  | some x =>
    if w.closed ∨ fIsNan c = true ∨ flt x.2 c = true then pure none
    else
      let w' := { w with scored := w.scored.filter (· ≠ x) }
      let pid := candId w.cand x.1
      match ← passage h m w.par w.tmpl pid with
      | none => pure (some { w' with missing := w.missing + 1 })
      | some (va, n) =>
        if o.maxPsg ≤ w.placed.length then pure (some (w.close o))
        else
          let cost := tmPre w.tmpl + n + tmPost w.tmpl
          if w.left < cost then pure (some ({ w with truncated := true, firstDropped := x.1 }.close o))
          else
            let ts ← rxTokens h m va n
            let ord := w.placed.length
            let p0 := pkPos w.par + w.entries.length
            let es := tokenRun 0 ord p0 (tmPreT w.tmpl) ++ tokenRun 2 ord (p0 + tmPre w.tmpl) ts
              ++ tokenRun 0 ord (p0 + tmPre w.tmpl + n) (tmPostT w.tmpl)
            pure (some { w' with entries := w.entries ++ es, placed := w.placed ++ [(pid, x.2)], left := w.left - cost })

/-- How far the handling of a record came: what the prompt then carries, the ranges read, and what stopped it. -/
abbrev PckStep := PckWork × List (Nat × Nat) × Option UnitErr

/-- The placing loop: what has been placed stays placed when a later read stops it. -/
def pckPlace (h : Hw) (m : Master) (o : PckOp) (c : Nat) : Nat → PckWork → List (Nat × Nat) → PckStep
  | 0, w, t => (w, t, none)
  | fuel + 1, w, t =>
    match pckPlaceOne h m o c w t with
    | .error e => (w, t, some e)
    | .ok (none, t) => (w, t, none)
    | .ok (some w, t) => pckPlace h m o c fuel w t

/-- A record is read: its scored candidates and its ceiling (R341 steps 2 and 3). -/
def pckScore (h : Hw) (m : Master) (o : PckOp) (w : PckWork) : Rx PckWork := do
  let b := w.batch
  let bs ← rxRead h m (pkVa w.par 3 + b * (16 + 8 * o.b)) (16 + 8 * o.b)
  let v := bnum bs 0 2
  rxCheck (bnum bs 5 1 == 1 && bnum bs 2 2 == o.b && decide (v ≤ o.b)) cFORMAT
  let es := (List.range v).map fun j => (bnum bs (16 + 8 * j) 4, bnum bs (20 + 8 * j) 4)
  rxCheck (es.all fun e => decide (b * o.b ≤ e.1 ∧ e.1 < (b + 1) * o.b)) cFORMAT
  let new := es.filter fun e => decide (e.1 < candValid w.cand)
  let c ← if b + 1 = o.a then pure fpNegInf else rxNat h m (pkVa w.par 4 + 4 * b) 4
  let above := match w.ceil with | some x => (new.filter fun e => flt x e.2).length | none => 0
  let low := match w.ceil with | some x => if flt c x then c else x | none => c
  pure { w with placing := some c, scored := w.scored ++ new, breach := w.breach + above, ceil := some low }

/-- The record of a count that has been taken (R341 steps 2 to 4), as far as it comes; once emission has ended no record is read (R342). -/
def pckRecord (h : Hw) (m : Master) (o : PckOp) (w : PckWork) : PckStep :=
  let over_ (w : PckWork) : PckWork := { w with batch := w.batch + 1, taken := false, placing := none }
  if w.closed then (over_ w, [], none)
  else match (if w.placing.isSome then Except.ok (w, []) else pckScore h m o w []) with
    | .error e => (w, [], some e)
    | .ok (w, t) =>
      match pckPlace h m o (w.placing.getD 0) (w.scored.length + 1) w t with
      | (w, t, some e) => (w, t, some e)
      | (w, t, none) => (over_ (if w.batch + 1 = o.a then w.close o else w), t, none)

/-- The header of a prompt (R344). -/
def pckHeader (w : PckWork) : List Byte :=
  let f (b : Bool) (n : Nat) : Nat := if b then 2 ^ n else 0
  leBytes 4 w.tokens ++ leBytes 4 w.placed.length ++ leBytes 4 (f w.truncated 0 + f (w.missing != 0) 1 + f (w.breach != 0) 2 + 0x100)
    ++ leBytes 4 (candValid w.cand - w.placed.length - w.missing) ++ leBytes 4 w.missing ++ leBytes 4 w.chunks
    ++ leBytes 4 w.firstDropped ++ leBytes 4 0

/-- The command finishes once every count is taken and every chunk signalled. -/
def Hw.pckFinish (h : Hw) (id : QId) (c : Cmd) (w : PckWork) : Hw :=
  let o := pckOp c.desc
  if w.ending = none ∧ w.batch = o.a ∧ w.chunks = w.total then
    let lst := w.placed.map fun p => leBytes 4 p.1 ++ leBytes 4 p.2
    let code := match (h.qs id).cmds.find? fun x => x.ptr = c.ptr with | some x => x.code | none => 0
    h.finishCmd id c {
      result := pckHeader w, code := code, work := .pck w
      writes := (lst.mapIdx fun i e => (pkVa w.par 5 + 8 * i, e)) ++ [(dDst c.desc, pckHeader w)]
      signals := if dSigEn c.desc then [(o.sigCore, dSigSem c.desc, 1)] else [] }
  else h

/-- What a step of streaming counts (R348). -/
def Hw.pckCount (h : Hw) (id : QId) (a b : PckWork) : Hw :=
  let p := engPage id.eng
  (((h.count p 0x044 (b.placed.length - a.placed.length)).count p 0x048 (b.missing - a.missing)).count p 0x04C
    (if b.truncated && !a.truncated then 1 else 0)).count p 0x054 (b.breach - a.breach)

/-- Writes the next chunk and signals it (R343), and whether it could be written. A saturation is the command's status (R69). -/
def Hw.pckChunk (h : Hw) (id : QId) (c : Cmd) (w : PckWork) : Hw × Bool :=
  let o := pckOp c.desc
  let es := (w.entries.drop (w.chunks * o.chunk)).take o.chunk
  let (h, rest) := Hw.stageWrites id c [(dDst c.desc + 32 + 8 * o.chunk * w.chunks, es.flatMap (leBytes 8))] h
  if rest ≠ [] then (h, false)
  else
    let full := h.semFull o.outCore o.outSem 1
    let h := h.semAdd o.outCore o.outSem 1
    (h.updCmd id c.ptr fun c => { c with work := .pck { w with chunks := w.chunks + 1 },
                                         code := if full ∧ c.code = 0 then cSEM_OVERFLOW else c.code }, true)

/-- The prompt with its chunks padded, for an end other than its commit step (R343). -/
def PckWork.toEnd (w : PckWork) (o : PckOp) (e : Option Nat) : PckWork :=
  { w with ending := some e, closed := true, entries := w.entries ++ List.replicate (w.total * o.chunk - w.entries.length) (padEntry w.tmpl) }

/-- The end that a drained prompt waits for: the rejection, or the soft reset. -/
def Hw.pckEnded (h : Hw) (id : QId) (c : Cmd) (w : PckWork) : Hw :=
  match w.ending with
  | none => h
  | some none => h.runDeferred id
  | some (some code) => h.reject id c.ptr code c.desc

/-- Signals every remaining chunk of an ending prompt (R343); one that cannot be written now is signalled later, by CHUNK_SIGNAL. -/
def Hw.pckDrain (id : QId) (ptr : Word) : Nat → Hw → Hw
  | 0, h => h
  | fuel + 1, h =>
    match (h.qs id).cmds.find? fun x => x.ptr = ptr with
    | none => h
    | some c =>
      match c.work with
      | .pck w =>
        if w.total ≤ w.chunks then h.pckEnded id c w
        else match h.pckChunk id c w with
          | (h, true) => Hw.pckDrain id ptr fuel h
          | (h, false) => h
      | _ => h

/-- Begins an end other than the commit step. -/
def Hw.pckEnd (h : Hw) (id : QId) (c : Cmd) (w : PckWork) (e : Option Nat) : Hw :=
  Hw.pckDrain id c.ptr (w.total + 1) (h.setWork id c.ptr (.pck (w.toEnd (pckOp c.desc) e)))

/-- An end other than the commit step: a signalled command first pads and signals what remains (R343). -/
def Hw.pckFail (h : Hw) (id : QId) (c : Cmd) (w : PckWork) (e : UnitErr) : Hw :=
  if w.chunks = 0 then h.failCmd id c e
  else match e with
    | .reject code => h.pckEnd id c w (some code)
    | .rd (.ecc va n) => (h.touch (queueMaster id) va n).pckEnd id c w (some cECC)
    | _ => h.failCmd id c e

/-- A soft reset of a signalled prompt (R346): its chunks are drained and its counts are not returned. -/
def Hw.pckReset (h : Hw) (id : QId) : Hw :=
  (h.qs id).cmds.foldl (fun h c =>
    match c.work with
    | .pck w => if w.chunks = 0 then h else (h.updCmd id c.ptr fun c => { c with takes := [] }).pckEnd id c w none
    | _ => h) h

/-- PCK_PROMPT begins: head and query are emitted (R340). -/
def pckPrompt (id : QId) (h : Hw) : Hw :=
  match h.stageHead id 0x11 with
  | none => h
  | some c =>
    match c.work with
    | .none =>
      match pckRead h id c [] with
      | .error e => h.failCmd id c e
      | .ok ((par, tmpl, cand, qs), t) =>
        let es := tokenRun 0 0 (pkPos par) (tmHeadT tmpl) ++ tokenRun 1 0 (pkPos par + tmHead tmpl) qs
        let h := t.foldl (fun h e => h.touch (queueMaster id) e.1 e.2) h
        h.setWork id c.ptr (.pck { par := par, tmpl := tmpl, cand := cand, entries := es, total := pckChunks (pckOp c.desc) par,
                                   left := pkLen par - pkReserve par - es.length - tmTail tmpl })
    | _ => h

/-- PCK_PROMPT (R340). -/
def execPckPrompt (d : Fin 4) (q : Fin 4) (s : State) : Out := .next (s.onHw (pckPrompt ⟨.stage d .pck, q.val⟩))

/-- Whether a prompt waits for a count of batch_sem (R341). -/
def Hw.pckAwaits (h : Hw) (id : QId) : Bool :=
  match h.pckStream id with
  | some (c, w) => let o := pckOp c.desc; w.ending.isNone && !w.taken && decide (w.batch < o.a) && h.sem o.batchCore o.batchSem == 0
  | none => false

/-- A count of batch_sem is taken, and its record acted on as far as its reads allow (R341). -/
def batchRecordTake (id : QId) (h : Hw) : Hw :=
  match h.pckStream id with
  | none => h
  | some (c, w) =>
    let o := pckOp c.desc
    if w.ending.isSome || decide (o.a ≤ w.batch) || h.pckAwaits id then h
    else
      let g := if w.taken then h else
        (h.semTake o.batchCore o.batchSem).updCmd id c.ptr fun c => { c with takes := c.takes ++ [(o.batchCore, o.batchSem)] }
      let (w', t, stop) := pckRecord g (queueMaster id) o { w with taken := true }
      let g := t.foldl (fun h e => h.touch (queueMaster id) e.1 e.2) g
      let g := (g.pckCount id w w').setWork id c.ptr (.pck w')
      match stop with
      | some e => g.pckFail id c w' e
      | none => g.pckFinish id c w'

/-- BATCH_RECORD_TAKE (R341). -/
def execBatchRecordTake (d : Fin 4) (q : Fin 4) (s : State) : Out := .next (s.onHw (batchRecordTake ⟨.stage d .pck, q.val⟩))

/-- The next chunk of a prompt is written and signalled once it is complete (R343). -/
def chunkSignal (id : QId) (h : Hw) : Hw :=
  match h.pckStream id with
  | none => h
  | some (c, w) =>
    if w.ending.isSome then Hw.pckDrain id c.ptr (w.total + 1) h
    else if w.total ≤ w.chunks ∨ w.entries.length < (w.chunks + 1) * (pckOp c.desc).chunk then h
    else
      match h.pckChunk id c w with
      | (h, false) => h
      | (h, true) =>
        match h.pckStream id with
        | some (c, w) => h.pckFinish id c w
        | none => h

/-- CHUNK_SIGNAL (R343). -/
def execChunkSignal (d : Fin 4) (q : Fin 4) (s : State) : Out := .next (s.onHw (chunkSignal ⟨.stage d .pck, q.val⟩))

end Sys2Proof.Machine
end

