-- ==== Sys2Proof/Machine/Groups.lean ====
section
/-! DEFINITION. Commit groups and speculation (R64, R267, R268, R294, R350, R351): the commit-group table, confirmation and
reject. -/

namespace Sys2Proof.Machine

def Hw.group (h : Hw) (g : Nat) : Group := (alGet g h.groups).getD {}
def Hw.setGroup (h : Hw) (g : Nat) (e : Group) : Hw := { h with groups := alPut g e h.groups }

/-- The commands of a Muzzle or an EMB that carry the tag keep its confirmation (R264). -/
def Hw.keepConfirm (g s : Nat) (h : Hw) (id : QId) : Hw :=
  match id.eng with
  | .stage _ .muz | .stage _ .emb =>
    let q := h.qs id
    let ps := (q.cmds.filter fun c => dSpec c.desc && dGroup c.desc == g && dStep c.desc == s).map fun c => (c.ptr, g, s)
    h.setQs id { q with confirmed := q.confirmed ++ ps }
  | _ => h

/-- Confirms step `s` of group `g`: its tagged increments become ordinary (R64, R268). -/
def Hw.confirm (h : Hw) (g s : Nat) : Hw :=
  if g = 0 then h
  else
    let h := (h.queues.map (·.1)).foldl (Hw.keepConfirm g (s % 4)) h
    let e := h.group g
    { h.setGroup g { e with confirmed := e.confirmed ||| (1#4 <<< (s % 4)) } with
      tagged := h.tagged.filter fun t => !(t.group = g && t.step = s % 4)
      gathers := h.gathers.map fun x => if x.tag = some (g, s % 4) then { x with tag := none } else x }

/-- The steps a reject of step `s` covers: `s`, and the two after it in the sequence that are not confirmed, since at most three
steps of a sequence are live (R64, R355; log entry 38). -/
def Hw.rejected (h : Hw) (g s : Nat) : List Nat :=
  (s % 4) :: ([(s + 1) % 4, (s + 2) % 4].filter fun t => !h.confirmed g t)

/-- Whether a queue holds an uncommitted command of the group at one of the steps: a core's, a Muzzle's, an EMB's. -/
def Hw.carries (h : Hw) (id : QId) (g : Nat) (steps : List Nat) : Bool :=
  (match id.eng with | .core _ | .stage _ .muz | .stage _ .emb => true | _ => false) &&
    (h.qs id).cmds.any fun c => dGroup c.desc == g && steps.contains (dStep c.desc) && !h.keptConfirm id c

/-- Rejects step `s` of group `g` (R64, R267, R294): queues that carry it or a later step are killed, and tagged increments and
gathers of the mailbox ports that carry such a tag are removed. -/
def Hw.rejectStep (h : Hw) (g s : Nat) : Hw :=
  if g = 0 then h
  else
    let steps := h.rejected g s
    let hit := (h.queues.map (·.1)).filter fun id => h.carries id g steps
    let h := (hit.filter fun id => h.killWaits id .specReject).foldl (fun g id => g.deferKill id .specReject) h
    let h := h.killAll (hit.filter fun id => !h.killWaits id .specReject) [] (some .specReject) none
      fun t => t.group == g && steps.contains t.step
    { h with gathers := h.gathers.filter fun x => match x.tag with | some (g', t) => !(g' == g && steps.contains t) | none => true }

/-- SPEC_REJECT (R64). -/
def execSpecReject (g : Fin 256) (step : Fin 4) (s : State) : Out := .next (s.onHw fun h => h.rejectStep g.val step.val)

/-- SPEC_CONFIRM (R64). -/
def execSpecConfirm (g : Fin 256) (step : Fin 4) (s : State) : Out := .next (s.onHw fun h => h.confirm g.val step.val)

end Sys2Proof.Machine
end

