-- ==== Sys2Proof/Machine/Srv.lean ====
section
/-! DEFINITION. Generation and serving (R349 to R378): conversations, budgets, adapters, decode slots, launches, the token
mailbox, candidate records, the SRV commands, scans and events. -/

namespace Sys2Proof.Machine

/-! ### The unit, its slots and its tables (R352, R364, R367, R369) -/

def srvPage (d : Nat) : Nat := 0x0C5 + 8 * d
/-- The serving block of a quadrant as a master (R377). -/
def srvMaster (d : Nat) : Master := queueMaster ⟨stageEng d .srv, 0⟩
def Hw.srvUnit (h : Hw) (d : Nat) : SrvUnit := (alGet d h.srv).getD {}
def Hw.setSrvUnit (h : Hw) (d : Nat) (u : SrvUnit) : Hw := { h with srv := alPut d u h.srv }
/-- Module slot `ms` (R352). -/
def Hw.slot (h : Hw) (ms : Nat) : Option SrvSlot := alGet (ms % 256) (h.srvUnit (ms / 256)).slots
def Hw.setSlot (h : Hw) (ms : Nat) (x : SrvSlot) : Hw :=
  let u := h.srvUnit (ms / 256)
  h.setSrvUnit (ms / 256) { u with slots := alPut (ms % 256) x u.slots }
def Hw.dropSlot (h : Hw) (ms : Nat) : Hw :=
  let u := h.srvUnit (ms / 256)
  h.setSrvUnit (ms / 256) { u with slots := alDel (ms % 256) u.slots }

/-- A conversation record (R364). -/
structure Conv where
  state : Nat
  slot : Nat
  tenant : Nat
  handle : Nat
  bound : Bool
  version : Nat
  steps : Nat
  tier : Nat
  deadline : Nat
  heldAt : Nat
  params : Nat
  deriving DecidableEq, Repr

abbrev cvFREE : Nat := 0
abbrev cvHELD : Nat := 1
abbrev cvACTIVE : Nat := 2
abbrev cvHALTED : Nat := 3
abbrev cvPARKED : Nat := 4
abbrev cvEXPIRED : Nat := 5

def convOf (b : List Byte) : Conv :=
  let w := bnum b 0 4
  let a := bnum b 4 4
  { state := bitsOf w 2 0, slot := bitsOf w 15 8, tenant := bitsOf w 27 16, handle := bitsOf a 11 0, bound := bitOf a 12
    version := bitsOf a 31 16, steps := bnum b 8 4, tier := bitsOf (bnum b 12 4) 1 0, deadline := bnum b 0x10 8
    heldAt := bnum b 0x18 8, params := bnum b 0x20 8 }

def Conv.bytes (c : Conv) : List Byte :=
  leBytes 4 (c.state + c.slot * 0x100 + c.tenant * 0x10000)
    ++ leBytes 4 (c.handle + (if c.bound then 0x1000 else 0) + c.version % 0x10000 * 0x10000) ++ leBytes 4 c.steps ++ leBytes 4 c.tier
    ++ leBytes 8 c.deadline ++ leBytes 8 c.heldAt ++ leBytes 8 c.params ++ List.replicate 24 0

def Hw.convKey (h : Hw) (d n : Nat) : Nat := h.tierBase (srvPage d) 0x048 6 + 64 * n
def Hw.convs (h : Hw) (d : Nat) : Nat := 2 ^ h.rd (srvPage d) 0x050
def Hw.conv (h : Hw) (d n : Nat) : Conv := convOf (h.bytes (h.convKey d n) 64)
/-- Writes a conversation record; the change is one the twin hears of (R375). -/
def Hw.putConv (h : Hw) (d n : Nat) (c : Conv) : Hw :=
  (h.storeTier (h.convKey d n) c.bytes).noteChange (.conversation d n c.bytes)

/-- A budget entry (R367). -/
structure Budget where
  balance : Int
  rate : Nat
  cap : Int
  held : Nat
  last : Nat
  deriving DecidableEq, Repr

def Hw.budKey (h : Hw) (t : Nat) : Nat := h.tierBase 0x0C5 0x068 5 + 32 * t
def Budget.bytes (b : Budget) : List Byte :=
  leBytes 4 (toSigned 32 b.balance) ++ leBytes 4 b.rate ++ leBytes 4 (toSigned 32 b.cap) ++ leBytes 4 b.held ++ leBytes 8 b.last
    ++ List.replicate 8 0
def Hw.putBudget (h : Hw) (t : Nat) (b : Budget) : Hw :=
  (h.storeTier (h.budKey t) b.bytes).noteChange (.budget t b.bytes)
/-- The refill that opens each access (R367). -/
def Budget.refill (b : Budget) (now : Nat) : Budget :=
  let u := (now - b.last) / 0x100000
  { b with balance := min b.cap (b.balance + b.rate * u), last := b.last + u * 0x100000 }
/-- A tenant's entry, refilled. -/
def Hw.budget (h : Hw) (t : Nat) : Budget :=
  let b := h.bytes (h.budKey t) 32
  ({ balance := signedOf 32 (bnum b 0 4), rate := bnum b 4 4, cap := signedOf 32 (bnum b 8 4), held := bnum b 12 4
     last := bnum b 16 8 } : Budget).refill h.time
/-- An access that only looks: the refill stays (R367). -/
def Hw.seeBudget (h : Hw) (t : Nat) : Hw := h.storeTier (h.budKey t) (h.budget t).bytes
/-- Takes from a balance, saturating at −2³¹ (R368). -/
def Budget.debit (b : Budget) (n : Nat) : Budget := { b with balance := max (-0x80000000) (b.balance - n) }

/-- An adapter entry (R369). -/
structure Adapter where
  cur : Nat
  prev : Nat
  curRefs : Nat
  prevRefs : Nat
  curBlk : Nat
  prevBlk : Nat
  valid : Bool
  hasPrev : Bool
  deriving DecidableEq, Repr

def Hw.adpKey (h : Hw) (a : Nat) : Nat := h.tierBase 0x0C5 0x070 5 + 32 * a
def Hw.adapter (h : Hw) (a : Nat) : Adapter :=
  let b := h.bytes (h.adpKey a) 32
  { cur := bnum b 0 2, prev := bnum b 2 2, curRefs := bnum b 4 2, prevRefs := bnum b 6 2, curBlk := bnum b 8 8
    prevBlk := bnum b 16 8, valid := bitOf (bnum b 24 8) 0, hasPrev := bitOf (bnum b 24 8) 1 }
def Adapter.bytes (a : Adapter) : List Byte :=
  leBytes 2 a.cur ++ leBytes 2 a.prev ++ leBytes 2 a.curRefs ++ leBytes 2 a.prevRefs ++ leBytes 8 a.curBlk ++ leBytes 8 a.prevBlk
    ++ leBytes 8 ((if a.valid then 1 else 0) + (if a.hasPrev then 2 else 0))
def Hw.putAdapter (h : Hw) (n : Nat) (a : Adapter) : Hw := h.storeTier (h.adpKey n) a.bytes
/-- Counts a reference to the current version; fewer than 2^16 slots can hold one. -/
def Adapter.hold (a : Adapter) : Adapter := { a with curRefs := a.curRefs + 1 }
/-- Counts a reference to a version that the entry holds. -/
def Adapter.holdOf (a : Adapter) (v : Nat) : Adapter :=
  if a.valid ∧ a.cur = v then a.hold else { a with prevRefs := a.prevRefs + 1 }
/-- Drops a reference to a version. -/
def Adapter.release (a : Adapter) (v : Nat) : Adapter :=
  if a.cur = v ∧ a.curRefs ≠ 0 then { a with curRefs := a.curRefs - 1 }
  else if a.prev = v then { a with prevRefs := a.prevRefs - 1 } else a

/-! ### Parameters of an admission (R372) -/

def pGroup (p : List Byte) : Nat := bitsOf (bnum p 0 4) 7 0
def pDepth (p : List Byte) : Nat := bitsOf (bnum p 0 4) 9 8
def pIrq (p : List Byte) : Bool := bitOf (bnum p 0 4) 10
def pMuzMode (p : List Byte) : Nat := bitsOf (bnum p 0 4) 12 11
def pInFormat (p : List Byte) : Nat := bitsOf (bnum p 0 4) 15 13
def pTable (p : List Byte) : Nat := bitsOf (bnum p 0 4) 21 16
def pHead (p : List Byte) : Nat := bitsOf (bnum p 4 4) 5 0
def pInCore (p : List Byte) : Nat := bitsOf (bnum p 4 4) 13 8
def pInSem (p : List Byte) : Nat := bitsOf (bnum p 4 4) 19 16
def pMrCore (p : List Byte) : Nat := bitsOf (bnum p 4 4) 29 24
def pMrSem (p : List Byte) : Nat := bitsOf (bnum p 8 4) 3 0
def pMuzQueue (p : List Byte) : QId := ⟨stageEng (bitsOf (bnum p 8 4) 5 4) .muz, bitsOf (bnum p 8 4) 7 6⟩
def pSplQueue (p : List Byte) : QId := ⟨stageEng (bitsOf (bnum p 8 4) 9 8) .spl, bitsOf (bnum p 8 4) 11 10⟩
def pEmit (p : List Byte) : Bool := bitOf (bnum p 8 4) 12
def pVocab (p : List Byte) : Nat := bitsOf (bnum p 8 4) 16 13
def pHandle (p : List Byte) : Nat := bitsOf (bnum p 8 4) 28 17
def pAdapter (p : List Byte) : Bool := bitOf (bnum p 8 4) 29
def pStride (p : List Byte) : Nat := bnum p 12 4
/-- in, muz_rec, mask, cand, crec, text, stream and muz_ctx, 0 to 7. -/
def pVa (p : List Byte) (i : Nat) : Nat := bnum p (0x10 + 8 * i) 8
def pCost (p : List Byte) : Nat := bnum p 0x50 4

/-- Whether every field is within its range and every unnamed bit is zero; the bound of mask_stride is the one no grammar can
undercut, and MUZ_STEP's own check is the other (log entry 39). -/
def srvParGood (p : List Byte) : Bool :=
  pGroup p != 0 && decide (pDepth p ≤ 2 ∧ pMuzMode p ≤ 2 ∧ pHead p < 48 ∧ pInCore p < 48 ∧ pMrCore p < 48)
    && bitsOf (bnum p 0 4) 31 22 == 0 && bitsOf (bnum p 4 4) 7 6 == 0 && bitsOf (bnum p 4 4) 15 14 == 0
    && bitsOf (bnum p 4 4) 23 20 == 0 && bitsOf (bnum p 4 4) 31 30 == 0 && bitsOf (bnum p 8 4) 31 30 == 0
    && pStride p % 64 == 0 && decide (48 ≤ pStride p) && ((List.range 8).all fun i => decide (pVa p i < 2 ^ 52))
    && (p.drop 0x54).all (· == 0)

/-! ### Events (R376) -/

def Hw.evtRoom (h : Hw) (d : Nat) : Bool :=
  decide (ptrSub (h.rd (srvPage d) 0x064) (h.rd (srvPage d) 0x060) < 2 ^ h.rd (srvPage d) 0x05C)

/-- Writes one event. -/
def Hw.putEvent (h : Hw) (d : Nat) (bs : List Byte) : Hw :=
  let p := srvPage d
  let tail := h.rd p 0x064
  ((h.storeTier (h.tierBase p 0x054 4 + 16 * (tail % 2 ^ h.rd p 0x05C)) bs).wr p 0x064 (tail + 1)).raise p 8

abbrev evADMITTED : Nat := 1
abbrev evHELD : Nat := 2
abbrev evHALTED : Nat := 3
abbrev evEXPIRED : Nat := 4
abbrev evSWITCH : Nat := 5
abbrev evENDED : Nat := 6

/-- Writes an event, or has it wait while the ring is full. -/
def Hw.srvEvent (h : Hw) (d conv slot type code version : Nat) : Hw :=
  let bs := leBytes 4 (conv + slot * 0x100000 + type * 0x10000000) ++ leBytes 4 (code + version * 0x10000) ++ leBytes 8 h.time
  let u := h.srvUnit d
  if u.events = [] ∧ h.evtRoom d = true then h.putEvent d bs
  else (h.setSrvUnit d { u with events := u.events ++ [bs] }).count (srvPage d) 0x0C0

def eventWrite (d : Fin 4) (h : Hw) : Hw :=
  match (h.srvUnit d.val).events with
  | [] => h
  | bs :: rest => if h.evtRoom d.val then (h.setSrvUnit d.val { h.srvUnit d.val with events := rest }).putEvent d.val bs else h

/-- EVENT_WRITE (R376): the oldest waiting event, once the ring has room. -/
def execEventWrite (d : Fin 4) (s : State) : Out := .next (s.onHw (eventWrite d))

/-! ### What the twin hears of a slot (R385, R387) -/

/-- The fields of a slot's adoption record; a slot none of whose records has been released carries −1 (log entry 39). -/
def Hw.noteSlot (h : Hw) (ms : Nat) : Hw :=
  match h.slot ms with
  | some x => h.mirrorFields (ms / 256) (512 + ms)
      [(0, leBytes 4 (1 + if x.switch then 2 else 0)), (4, leBytes 4 (x.conv + pGroup x.params * 0x1000000)), (8, leBytes 4 x.c),
       (0x0C, leBytes 4 (x.rel + 0xFFFFFFFF)), (0x10, leBytes 8 x.paramsVa)]
  | none => h.mirrorFields (ms / 256) (512 + ms) [(0, leBytes 4 0)]

/-! ### Submitting to Muzzle and Splice (R349, R355, R356, R361) -/

/-- An accepted write of a queue's TAIL (R48, R57, R385): a slot it withdraws is forgotten. -/
def Hw.tailTo (h : Hw) (id : QId) (sub : Submitter) (v : Nat) : Hw :=
  let q := h.qs id
  let since := if h.qTail id = h.qIssue id then h.time else q.headSince
  let ahead (t : Word) : Bool := let n := ptrSub t.toNat (h.qCommit id); decide (0 < n ∧ n < 0x80000000)
  let subs := (q.subs.filter fun x => ahead x.1) ++ [(BitVec.ofNat 32 v, sub)]
  let below (p : Word) : Bool := decide (ptrSub p.toNat (h.qCommit id) < ptrSub v (h.qCommit id))
  let h := (h.setQs id { q with subs := subs, headSince := since, killed := q.killed.filter below,
                                confirmed := q.confirmed.filter fun x => below x.1 }).qwr id 0x0C v
  if h.ownsQueue id then h.mirrorFields (engQuad id.eng) (queueRecord id) [(0x0C, leBytes 4 v)] else h

/-- A descriptor of the serving block: format version 1, priority 1. -/
def srvDesc (op tenant : Nat) (mirror : Bool) (tag : Option (Nat × Nat)) (src srcLen dst dstLen : Nat) (ws : List Nat) : BitVec 512 :=
  let (g, s, sp) := match tag with | some (g, s) => (g, s % 4, 1) | none => (0, 0, 0)
  descOf (leBytes 4 (op + 0x100 + 0x1000 + g * 0x1000000) ++ leBytes 8 0
    ++ leBytes 4 (tenant + sp * 0x1000 + s * 0x2000 + (if mirror then 0x8000 else 0)) ++ leBytes 8 src ++ leBytes 8 dst
    ++ leBytes 4 srcLen ++ leBytes 4 dstLen ++ ws.flatMap (leBytes 4))

/-- A write of a serving block outside its commands, and whether it was made: at a fault the block is held (R377). -/
def Hw.srvWrite (h : Hw) (d va : Nat) (bs : List Byte) : Hw × Bool :=
  let m := srvMaster d
  match (if (h.windowOf va).isSome then Except.ok [] else h.place m va bs) with
  | .ok _ => ((h.lookups m va bs.length).write m va bs, true)
  | .error (.fault cause level a) => (h.postFault m cause level a true 0 true, false)
  | .error _ => (h, false)

/-- Such writes in order, as far as they can be made. -/
def Hw.srvWrites (d : Nat) : List (Nat × List Byte) → Hw → Hw × Bool
  | [], h => (h, true)
  | (va, bs) :: t, h => match h.srvWrite d va bs with | (h, true) => Hw.srvWrites d t h | (h, false) => (h, false)

/-- Writes a descriptor at the queue's tail and advances it, and whether it could: not while the queue is full, its ring cannot be
written or the block is held. -/
def Hw.trySubmit (h : Hw) (d : Nat) (x : Submit) : Hw × Bool :=
  let t := h.qTail x.queue
  if h.qEntries x.queue ≤ ptrSub t (h.qCommit x.queue) ∨ h.isHeld (srvMaster d) = true then (h, false)
  else match Hw.srvWrites d (x.before ++ [(h.slotVa x.queue t, leBytes 64 x.desc.toNat)]) h with
    | (h, false) => (h, false)
    | (h, true) =>
      let h := h.tailTo x.queue .serving ((t + 1) % 0x100000000)
      match x.step, h.slot x.slot with
      | some n, some sl => (h.setSlot x.slot { sl with launched := sl.launched.map fun l =>
          if l.step = n then { l with ptr := some (BitVec.ofNat 32 t) } else l }, true)
      | _, _ => (h, true)

/-- Submits a descriptor, or has it wait behind those of its queue. -/
def Hw.submit (h : Hw) (x : Submit) : Hw :=
  let d := x.slot / 256
  let wait (h : Hw) : Hw := h.setSrvUnit d { h.srvUnit d with subs := (h.srvUnit d).subs ++ [x] }
  if (h.srvUnit d).subs.any fun y => y.queue = x.queue then wait h
  else match h.trySubmit d x with | (h, true) => h | (h, false) => wait h

/-- Submits what waits in a unit, in order per queue, while it can. -/
def Hw.runSubs (d : Nat) : List Submit → Hw → Hw
  | [], h => h
  | x :: rest, h =>
    let u := h.srvUnit d
    if (u.subs.takeWhile (· ≠ x)).any fun y => y.queue = x.queue then Hw.runSubs d rest h
    else match h.trySubmit d x with
      | (h, false) => Hw.runSubs d rest h
      | (h, true) => Hw.runSubs d rest (h.setSrvUnit d { h.srvUnit d with subs := (h.srvUnit d).subs.erase x })

/-- The entries of killed Muzzle commands still to be rewritten, in order, as far as they can be. -/
def Hw.runFixes (d : Nat) : List (QId × Nat × List Byte) → Hw → Hw
  | [], h => h
  | x :: rest, h =>
    if h.isHeld (srvMaster d) then h
    else match h.srvWrite d x.2.1 x.2.2 with
      | (h, false) => h
      | (h, true) => Hw.runFixes d rest (h.setSrvUnit d { h.srvUnit d with fixes := rest })

/-- What a serving block has still to write is tried again. -/
def Hw.srvRetry (h : Hw) (d : Nat) : Hw :=
  let h := Hw.runFixes d (h.srvUnit d).fixes h
  Hw.runSubs d (h.srvUnit d).subs h

/-- Counts a launch that waits for queue space (R356). -/
def Hw.noteLaunchWait (ms : Nat) (before after : Hw) : Hw :=
  if (before.srvUnit (ms / 256)).subs.length < (after.srvUnit (ms / 256)).subs.length then after.count (srvPage (ms / 256)) 0x0B0 else after

/-- The tenant of a slot's conversation. -/
def Hw.slotTenant (h : Hw) (ms : Nat) (x : SrvSlot) : Nat := (h.conv (ms / 256) x.conv).tenant

/-- The MUZ_STEP of step `n` of a slot (R355 step 2), or of an admission's step 0 (R373). -/
def Hw.muzDesc (h : Hw) (ms : Nat) (x : SrvSlot) (n : Nat) (token : Option Nat) (tag : Option (Nat × Nat)) : BitVec 512 :=
  let p := x.params
  srvDesc 0x10 (h.slotTenant ms x) h.mirroring tag 0 0 (pVa p 2 + pStride p * (n % 4)) (pStride p)
    [pMuzMode p + (if token.isNone then 4 else 0) + (if token.isSome then 8 else 0) + 16 + pMrCore p * 32 + pMrSem p * 0x800, token.getD 0,
     pVa p 1 % 0x100000000, pVa p 1 / 0x100000000]

/-- Submits a MUZ_STEP, after a CTX_LOAD where it is the slot's first or the queue's last loaded context differs (R356). -/
def Hw.submitMuz (h : Hw) (ms : Nat) (x : SrvSlot) (n : Nat) (token : Option Nat) (tag : Option (Nat × Nat)) : Hw :=
  let q := pMuzQueue x.params
  let va := pVa x.params 7
  let h := if x.muz = true ∧ alGet q h.muzCtx = some va then h
    else { h.submit { slot := ms, queue := q, desc := srvDesc 0x01 (h.slotTenant ms x) h.mirroring none va 64 0 0 [], step := none } with
      muzCtx := alPut q va h.muzCtx }
  let h := match h.slot ms with | some y => h.setSlot ms { y with muz := true } | none => h
  h.submit { slot := ms, queue := q, desc := h.muzDesc ms x n token tag, step := if tag.isSome then some n else none }

/-- Submits DETOKENISE of the `m`th chosen token (R361); the token id lies in the last four bytes of the text entry (log entry
40). -/
def Hw.detok (h : Hw) (ms : Nat) (m token : Nat) (final : Bool) : Hw :=
  match h.slot ms with
  | none => h
  | some x =>
    let p := x.params
    let dst := pVa p 5 + 2048 * (m % 16)
    let w := pVocab p + (if final then 16 else 0) + (if pEmit p then 64 else 0) + (if x.fresh then 128 else 0)
    let desc := srvDesc 0x11 (h.slotTenant ms x) h.mirroring none (dst + 2044) 4 dst 2048
      [w, 1, pVa p 6 % 0x100000000, pVa p 6 / 0x100000000]
    (h.setSlot ms { x with fresh := false }).submit
      { slot := ms, queue := pSplQueue p, desc := desc, step := none, before := [(dst + 2044, leBytes 4 token)] }

/-! ### Launches (R355, R360) -/

/-- Confirms step `n` of a slot. -/
def Hw.confirmStep (h : Hw) (ms n : Nat) : Hw :=
  match h.slot ms with
  | none => h
  | some x =>
    let h := (h.confirm (pGroup x.params) (n % 4)).setSlot ms { x with c := max x.c n, launched := x.launched.filter (·.step ≠ n) }
    (h.count (srvPage (ms / 256)) 0x0A0).noteSlot ms

/-- Hands a token to the mailbox port of the quadrant's EMB (R355 step 1). -/
def Hw.handToken (h : Hw) (ms : Nat) (x : SrvSlot) (token : Nat) (tag : Option (Nat × Nat)) : Hw :=
  let p := x.params
  let t := pTable p
  let g : PortGather :=
    { quad := ms / 256, slot := ms % 256, table := t, bank := h.tblBank t, serial := h.tblSerial, token := token, fmt := pInFormat p,
      dst := pVa p 0, core := pInCore p, sem := pInSem p, tag := tag }
  { h with gathers := h.gathers ++ [g], tblSerial := h.tblSerial + 1 }.runGathers

/-- A chosen launch of step `n`, but for its DETOKENISE. -/
def Hw.launchChosen (h : Hw) (ms n token : Nat) : Hw :=
  match h.slot ms with
  | none => h
  | some x => ((h.confirmStep ms n).handToken ms x token none).submitMuz ms x n (some token) none

/-- A speculative launch of step `n`. -/
def Hw.launchSpec (h : Hw) (ms n token : Nat) : Hw :=
  match h.slot ms with
  | none => h
  | some x =>
    let tag := some (pGroup x.params, n % 4)
    let h := (h.count (srvPage (ms / 256)) 0x0A8).setSlot ms { x with launched := x.launched ++ [⟨n, token, none⟩] }
    Hw.noteLaunchWait ms h ((h.handToken ms x token tag).submitMuz ms x n (some token) tag)

/-- Rewrites the Muzzle entry of a speculative launch in place, in the ring or among those not yet written; while the ring cannot be
written the rewriting waits, and the queue with it (log entry 91). -/
def Hw.rewriteMuz (h : Hw) (ms : Nat) (x : SrvSlot) (l : Launch) (desc : BitVec 512) : Hw :=
  let u := h.srvUnit (ms / 256)
  match l.ptr with
  | some p =>
    let q := pMuzQueue x.params
    let fixes := u.fixes ++ [(q, h.slotVa q p.toNat, leBytes 64 desc.toNat)]
    Hw.runFixes (ms / 256) fixes (h.setSrvUnit (ms / 256) { u with fixes := fixes })
  | none =>
    h.setSrvUnit (ms / 256) { u with subs := u.subs.map fun y =>
      if y.slot = ms ∧ y.step = (some (l.step)) then { y with desc := desc, step := none } else y }

/-- The NOP that takes the place of a killed MUZ_STEP. -/
def Hw.muzNop (h : Hw) (ms : Nat) (x : SrvSlot) : BitVec 512 := srvDesc 0x00 (h.slotTenant ms x) h.mirroring none 0 0 0 0 []

/-- Rejects every speculative step of a slot (R360, R366, R371); the killed entries become NOPs (log entry 39). -/
def Hw.rejectSpec (h : Hw) (ms : Nat) : Hw :=
  match h.slot ms with
  | none => h
  | some x =>
    match x.launched with
    | [] => h
    | l :: _ =>
      let h := (h.count (srvPage (ms / 256)) 0x0A4).rejectStep (pGroup x.params) (l.step % 4)
      let h := x.launched.foldl (fun h l => h.rewriteMuz ms x l (h.muzNop ms x)) h
      h.setSlot ms { x with launched := [] }

/-- A halt of a slot (R362, R377). -/
def Hw.haltSlot (h : Hw) (ms : Nat) (type code : Nat) : Hw :=
  match h.slot ms with
  | none => h
  | some x =>
    let d := ms / 256
    let h := h.putConv d x.conv { h.conv d x.conv with state := cvHALTED }
    ((h.srvEvent d x.conv (ms % 256) type code 0).sendChanges d).noteSlot ms

/-- What an accepted write for the step after the last accepted choice does (R360). -/
def Hw.choose (h : Hw) (ms : Nat) (token : Nat) (last : Bool) : Hw :=
  match h.slot ms with
  | none => h
  | some x =>
    let n := x.acc
    let h := h.setSlot ms { x with acc := n + 1 }
    if last then ((h.rejectSpec ms).detok ms n token true).haltSlot ms evENDED 0
    else
      match x.launched.find? (·.step = n + 1) with
      | none => (h.launchChosen ms (n + 1) token).detok ms n token false
      | some l =>
        if l.token = token then (h.confirmStep ms (n + 1)).detok ms n token false
        else
          let h := (h.count (srvPage (ms / 256)) 0x0A4).rejectStep (pGroup x.params) ((n + 1) % 4)
          let h := h.rewriteMuz ms x l (h.muzDesc ms x (n + 1) (some token) none)
          let h := (x.launched.filter (·.step ≠ n + 1)).foldl (fun h l => h.rewriteMuz ms x l (h.muzNop ms x)) h
          let h := h.setSlot ms { x with acc := n + 1, launched := [] }
          ((h.confirmStep ms (n + 1)).handToken ms x token none).detok ms n token false

/-- An accepted write acts; what it submits counts once in LAUNCH_WAITS if it waits. -/
def Hw.actChoice (h : Hw) (ms token : Nat) (last : Bool) : Hw := Hw.noteLaunchWait ms h (h.choose ms token last)

/-! ### PROVISIONAL_CANDIDATE (R353, R354) -/

/-- Whether a command is the candidate command of step `n` of a slot. -/
def isCandidate (x : SrvSlot) (n : Nat) (c : Cmd) : Bool :=
  let o := selectOp false c.desc
  let m := selMergeOp c.desc
  c.finished && dGroup c.desc == pGroup x.params && dStep c.desc == n % 4
    && ((dOpcode c.desc == 0x80 && o.rows == 1 && o.k == 8) || (dOpcode c.desc == 0x81 && m.rows == 1 && m.kOut == 8))

/-- The finished candidate commands of step `n` among the head core's queues. -/
def Hw.candidates (h : Hw) (x : SrvSlot) (n : Nat) : List (QId × Cmd) :=
  (List.range 8).flatMap fun q =>
    let id : QId := ⟨coreEng (pHead x.params), q⟩
    ((h.qs id).cmds.filter (isCandidate x n)).map fun c => (id, c)

/-- The candidate command that reports next: of the lowest live step that has not reported, any of those it has, where the compiler
gave it several (R353). -/
def Hw.candidate (h : Hw) (x : SrvSlot) : Option (Nat × QId × Cmd) :=
  [x.c, x.c + 1, x.c + 2].findSome? fun n =>
    let cs := h.candidates x n
    if cs.any fun y => y.2.reported then none else cs[Config.freeNat h.freeCtr cs.length % cs.length]?.map fun y => (n, y)

def provisionalCandidate (d : Fin 4) (slot : Fin 256) (h : Hw) : Hw :=
  let ms := 256 * d.val + slot.val
  match h.slot ms with
  | none => h
  | some x =>
    match (if h.enabled (srvPage d.val) then h.candidate x else none) with
    | none => h
    | some (n, id, c) =>
      let h := h.draw.updCmd id c.ptr fun c => { c with reported := true }
      let state := (h.conv d.val x.conv).state
      if 1 ≤ bnum c.result 0 2 ∧ n + 1 ≤ x.c + pDepth x.params ∧ state = cvACTIVE ∧ x.switch = false ∧
          x.launched.all (·.step ≠ n + 1) = true then h.launchSpec ms (n + 1) (bnum c.result 16 4)
      else h

/-- PROVISIONAL_CANDIDATE (R354, R355). -/
def execProvisionalCandidate (d : Fin 4) (slot : Fin 256) (s : State) : Out := .next (s.onHw (provisionalCandidate d slot))

/-! ### Candidate records (R358, R362) -/

/-- The commit of a step's set (R364, R368): its confirmation ends, the step is counted and paid for. Called by Hitch. -/
def Hw.stepCommitted (h : Hw) (g s : Nat) : Hw :=
  let e := h.group g
  let h := h.setGroup g { e with confirmed := e.confirmed &&& ~~~ (1#4 <<< (s % 4)) }
  match e.slot with
  | none => h
  | some ms =>
    match h.slot ms with
    | none => h
    | some x =>
      if x.done % 4 ≠ s % 4 ∨ x.c < x.done then h
      else
        let d := ms / 256
        let cv := h.conv d x.conv
        let h := h.setSlot ms { x with done := x.done + 1 }
        let h := h.putBudget cv.tenant ((h.budget cv.tenant).debit 256)
        (h.putConv d x.conv { cv with steps := min (cv.steps + 1) 0xFFFFFFFF }).sendChanges d

/-- What a candidate record is made from: the result and the trailer. -/
def candSources (h : Hw) (d : Nat) (x : SrvSlot) : Rx (List Byte × List Byte) := do
  let m := srvMaster d
  let p := x.params
  let ctx ← rxRead h m (pVa p 7) 64
  let g ← rxRead h m (ctxMuzzle ctx) 64
  let res ← rxRead h m (pVa p 3 + 128 * (x.rel % 4)) 80
  let tr ← rxRead h m (pVa p 2 + pStride p * (x.rel % 4) + 32 * ((gTokens g + 255) / 256)) 16
  pure (res, tr)

/-- The bytes of a candidate record. -/
def candRecord (h : Hw) (ms : Nat) (x : SrvSlot) (res tr : List Byte) : List Byte :=
  let w := bnum res 4 4
  let t := bnum tr 12 4
  let valid := min (bnum res 0 2) 8
  let bal := (h.budget (h.slotTenant ms x)).balance / 256
  leBytes 4 x.rel ++ leBytes 4 (bitsOf (bnum tr 0 4) 23 0)
    ++ leBytes 4 (valid + bitsOf t 0 0 * 16 + bitsOf t 1 1 * 32 + bitsOf t 3 3 * 64 + bitsOf t 4 4 * 128 + bitsOf t 5 5 * 256
        + bitsOf w 1 1 * 512 + bitsOf w 3 3 * 1024 + 0x10000)
    ++ leBytes 4 (x.conv + ms / 256 * 0x40000 + ms % 256 * 0x100000) ++ leBytes 8 h.time ++ leBytes 4 (toSigned 32 bal) ++ leBytes 4 0
    ++ ((List.range 8).flatMap fun j => (res.drop (16 + 8 * j)).take 8) ++ List.replicate 32 0

def candidateRecordRelease (d : Fin 4) (slot : Fin 256) (h : Hw) : Hw :=
  let ms := 256 * d.val + slot.val
  let m := srvMaster d.val
  match h.slot ms with
  | none => h
  | some x =>
    let g := pGroup x.params
    if x.done ≤ x.rel ∨ x.stopped ∨ h.isHeld m = true ∨ (h.pair.outbound.any fun o => o.group = g ∧ o.step = x.rel % 4) then h
    else
      match candSources h d.val x [] with
      | .error (.rd (.ecc va n)) =>
        let h := (h.touch m va n).setSlot ms { x with stopped := true }
        if (h.conv d.val x.conv).state = cvACTIVE then h.haltSlot ms evHALTED cECC else h
      | .error (.rd (.fault cause level va)) => h.postFault m cause level va false 0 true
      | .error _ => h
      | .ok ((res, tr), t) =>
        let bs := candRecord h ms x res tr
        let va := pVa x.params 4 + 128 * (x.rel % 4)
        match Hw.srvWrites d.val [(va + 4, bs.drop 4), (va, bs.take 4)] (h.seeBudget (h.slotTenant ms x)) with
        | (h, false) => h
        | (h, true) =>
          let h := t.reverse.foldl (fun h e => h.touch m e.1 e.2) h
          let h := (h.setSlot ms { x with rel := x.rel + 1 }).noteSlot ms
          let h := if pIrq x.params then h.raise (srvPage d.val) 10 else h
          if (h.conv d.val x.conv).state ≠ cvACTIVE then h
          else if bitOf (bnum tr 12 4) 3 then h.haltSlot ms evHALTED cSTACK_OVERFLOW
          else if bnum res 0 2 = 0 then h.haltSlot ms evHALTED cDEAD_END
          else h

/-- CANDIDATE_RECORD_RELEASE (R358). -/
def execCandidateRecordRelease (d : Fin 4) (slot : Fin 256) (s : State) : Out := .next (s.onHw (candidateRecordRelease d slot))

/-! ### The mailbox (R359, R371) -/

/-- Whether a bound slot's confirmed steps have all committed (R366); a held admission has none. -/
def Hw.drained (h : Hw) (ms : Nat) : Bool :=
  match h.slot ms with
  | some x => decide ((h.conv (ms / 256) x.conv).state = cvHELD) || decide (x.c < x.done)
  | none => true

/-- Whether a mailbox write is accepted, or held for a switch: the tests of R359 but for the switch. -/
def Hw.mboxGood (h : Hw) (ms : Nat) (x : SrvSlot) (v : Nat) : Bool :=
  let state := (h.conv (ms / 256) x.conv).state
  (state == cvACTIVE || (state == cvHALTED && bitOf v 18)) && decide (x.acc < x.rel) && bitsOf v 27 20 == x.acc % 256
    && bitsOf v 31 28 == 0 && bitsOf v 19 19 == 0 && x.heldW.isNone

def mboxWrite (r : Req) (d : Fin 4) (slot : Fin 256) (v : Word) (h : Hw) : Hw :=
  let ms := 256 * d.val + slot.val
  let p := srvPage d.val
  h.guardWrite r p (0x800 + 4 * slot.val) v.toNat fun h =>
    match h.slot ms with
    | none => (h.count p 0x0AC).raise p 9
    | some x =>
      if !h.mboxGood ms x v.toNat then (h.count p 0x0AC).raise p 9
      else if x.switch then (h.setSlot ms { x with heldW := some v.toNat }).rejectSpec ms
      else h.actChoice ms (bitsOf v.toNat 17 0) (bitOf v.toNat 18)

/-- MBOX (R359, R360). -/
def execMbox (r : Req) (d : Fin 4) (slot : Fin 256) (v : Word) (s : State) : Out := .next (s.onHw (mboxWrite r d slot v))

def slotResume (r : Req) (d : Fin 4) (_v : Word) (h : Hw) : Hw :=
  let p := srvPage d.val
  h.guardWrite r p 0x088 1 fun h =>
    let ms := 256 * d.val + h.rd p 0x078
    match h.slot ms with
    | none => h
    | some x =>
      match (if h.drained ms then x.heldW else none) with
      | none => h
      | some v =>
        let cv := h.conv d.val x.conv
        let a := (h.adapter cv.handle).release cv.version
        let h := (h.putAdapter cv.handle a.hold).putConv d.val x.conv { cv with version := a.cur }
        let h := ((h.setSlot ms { x with switch := false, heldW := none }).sendChanges d.val).noteSlot ms
        h.actChoice ms (bitsOf v 17 0) (bitOf v 18)

/-- SLOT_RESUME (R371): acts on the write that a pending switch holds, once the slot's confirmed steps have committed (log entry 91). -/
def execSlotResume (r : Req) (d : Fin 4) (v : Word) (s : State) : Out := .next (s.onHw (slotResume r d v))

/-! ### The SRV commands: fields and checks at issue (R372, R373) -/

def sConv (d : BitVec 512) : Nat := bitsOf (dword d 0) 17 0
def sFresh (d : BitVec 512) : Bool := bitOf (dword d 0) 18
def sSlot (d : BitVec 512) : Nat := bitsOf (dword d 0) 27 20
def sHandle (d : BitVec 512) : Nat := bitsOf (dword d 0) 11 0
/-- force, or set_balance. -/
def sFlag (d : BitVec 512) : Bool := bitOf (dword d 0) 12
/-- params_va, ttl or blk_va. -/
def sLong (d : BitVec 512) : Nat := dword d 2 + dword d 3 * 0x100000000
def sSigCore (d : BitVec 512) : Nat := bitsOf (dword d 4) 5 0

def srvFormat (h : Hw) (unit : Nat) (d : BitVec 512) : Bool :=
  let w := dword d 0
  let convOk := decide (sConv d < h.convs unit)
  stagePlain d && dSrcLen d == 0 && dDstLen d == 0 && bitsOf (dword d 4) 31 6 == 0 && dword d 5 == 0 && decide (sSigCore d < 48) &&
    (match dOpcode d with
    | 0x10 => convOk && bitsOf w 31 28 == 0 && bitsOf w 19 19 == 0 && dword d 1 == 0 && sLong d % 128 == 0
    | 0x11 => convOk && bitsOf w 31 18 == 0 && bitsOf (dword d 1) 31 2 == 0
    | 0x12 => convOk && bitsOf w 31 18 == 0 && dword d 1 == 0 && sLong d == 0
    | 0x13 => bitsOf w 31 13 == 0 && bitsOf (dword d 1) 31 16 == 0
    | _ => bitsOf w 31 13 == 0)

def srvLength (d : BitVec 512) : Bool := dOpcode d != 0x10 || decide (sLong d + 128 ≤ 2 ^ 52)

/-- Whether a command waits at issue (R370). -/
def srvWaits (h : Hw) (d : BitVec 512) : Bool := dOpcode d == 0x13 && (h.adapter (sHandle d)).prevRefs != 0

/-! ### Execution (R373, R374) -/

/-- Whether an executed command of another serving queue has still to commit: the unit takes them one at a time (log entry 39). -/
def Hw.srvBusy (h : Hw) (id : QId) : Bool :=
  h.queues.any fun e => e.1 ≠ id && (match e.1.eng with | .stage _ .srv => e.2.cmds.any (·.finished) | _ => false)

/-- Ownership of slots, groups and conversations in a pair (R379). -/
def Hw.ownsSlot (h : Hw) (ms : Nat) : Bool := h.ownsAll || bitsOf ms 7 7 == h.role
def Hw.ownsGroup (h : Hw) (g : Nat) : Bool := h.ownsAll || bitsOf g 7 7 == h.role
def Hw.ownsConv (h : Hw) (c : Nat) : Bool := h.ownsAll || bitsOf c 17 17 == h.role

/-- The module slot a conversation holds in states HELD, ACTIVE and HALTED. -/
def Hw.convSlot (h : Hw) (d conv : Nat) : Option Nat :=
  let ms := 256 * d + (h.conv d conv).slot
  match h.slot ms with
  | some x => if x.conv = conv then some ms else none
  | none => none

/-- Finishes a command of the serving block. -/
def srvDone (c : Cmd) (params : List Byte) (t : List (Nat × Nat)) : Done :=
  { touched := t, signals := if dSigEn c.desc then [(sSigCore c.desc, dSigSem c.desc, 1)] else [], work := .srv params }

/-- Runs the head of a serving queue when no other executed command stands before it. -/
def Hw.srvExec (h : Hw) (id : QId) (op : Nat) (f : Cmd → Hw) : Hw :=
  match h.stageHead id op with
  | none => h
  | some c => if h.srvBusy id || h.isHeld (srvMaster (engQuad id.eng)) then h else f c

def srvAdmit (d : Fin 4) (q : Fin 4) (h : Hw) : Hw :=
  let id : QId := ⟨.stage d .srv, q.val⟩
  h.srvExec id 0x10 fun c =>
    let n := sConv c.desc
    let ms := 256 * d.val + sSlot c.desc
    let cv := h.conv d.val n
    match rxRead h (queueMaster id) (sLong c.desc) 128 [] with
    | .error e => h.failCmd id c e
    | .ok (p, t) =>
      if !h.ownsConv n || !h.ownsSlot ms || !h.ownsGroup (pGroup p) || !srvParGood p then h.failCmd id c (.reject cFORMAT)
      else if !sFresh c.desc ∧ (cv.state = cvEXPIRED ∨ (cv.state = cvPARKED ∧ cv.deadline ≤ h.time)) then
        let h := if cv.state = cvPARKED then
            ((h.putConv d.val n { cv with state := cvEXPIRED }).count (srvPage d.val) 0x0B8).sendChanges d.val
          else h
        h.failCmd id c (.reject cTTL_EXPIRED)
      else if cv.state ≠ (if sFresh c.desc then cvFREE else cvPARKED) ∨ (h.slot ms).isSome ∨ (h.group (pGroup p)).slot.isSome then
        h.failCmd id c (.reject cFORMAT)
      else h.finishCmd id c (srvDone c p t.reverse)

/-- SRV_ADMIT (R373). -/
def execSrvAdmit (d : Fin 4) (q : Fin 4) (s : State) : Out := .next (s.onHw (srvAdmit d q))

/-- The end of a conversation's binding (R366 steps 1 and 2): speculation rejected, then the command finishes once every
confirmed step has committed. -/
def srvLeave (d : Fin 4) (q : Fin 4) (op : Nat) (ok : Nat → Bool) (h : Hw) : Hw :=
  let id : QId := ⟨.stage d .srv, q.val⟩
  h.srvExec id op fun c =>
    let n := sConv c.desc
    if !h.ownsConv n || !ok (h.conv d.val n).state then h.failCmd id c (.reject cFORMAT)
    else match h.convSlot d.val n with
      | none => h.finishCmd id c (srvDone c [] [])
      | some ms =>
        let h := h.rejectSpec ms
        if h.drained ms then h.finishCmd id c (srvDone c [] []) else h

/-- SRV_PARK (R366, R373). -/
def execSrvPark (d : Fin 4) (q : Fin 4) (s : State) : Out :=
  .next (s.onHw (srvLeave d q 0x11 fun st => st == cvACTIVE || st == cvHALTED || st == cvPARKED))

/-- SRV_END (R364, R373). -/
def execSrvEnd (d : Fin 4) (q : Fin 4) (s : State) : Out := .next (s.onHw (srvLeave d q 0x12 fun st => st != cvFREE))

def srvAdapter (d : Fin 4) (q : Fin 4) (h : Hw) : Hw :=
  let id : QId := ⟨.stage d .srv, q.val⟩
  h.srvExec id 0x13 fun c =>
    if sFlag c.desc ∧ (h.adapter (sHandle c.desc)).valid = false then h.failCmd id c (.reject cFORMAT)
    else h.finishCmd id c (srvDone c [] [])

/-- SRV_ADAPTER (R370, R373). -/
def execSrvAdapter (d : Fin 4) (q : Fin 4) (s : State) : Out := .next (s.onHw (srvAdapter d q))

def srvBudget (d : Fin 4) (q : Fin 4) (h : Hw) : Hw :=
  let id : QId := ⟨.stage d .srv, q.val⟩
  h.srvExec id 0x14 fun c =>
    if signedOf 32 (dword c.desc 2) ≤ 0 then h.failCmd id c (.reject cFORMAT) else h.finishCmd id c (srvDone c [] [])

/-- SRV_BUDGET (R367, R373): a cap that is not above 0 is out of range (log entry 39). -/
def execSrvBudget (d : Fin 4) (q : Fin 4) (s : State) : Out := .next (s.onHw (srvBudget d q))

/-! ### Admission (R368, R369, R373) -/

/-- An admission that admits: the conversation becomes ACTIVE on its slot, an adapter version is bound, step 0 is confirmed and
its mask is asked for. -/
def Hw.admitSlot (h : Hw) (ms : Nat) : Hw :=
  match h.slot ms with
  | none => h
  | some x =>
    let d := ms / 256
    let cv := h.conv d x.conv
    let p := x.params
    let a := h.adapter (pHandle p)
    let (h, v) := if pAdapter p then (h.putAdapter (pHandle p) a.hold, a.cur) else (h, 0)
    let h := h.putConv d x.conv { cv with state := cvACTIVE, bound := pAdapter p, handle := if pAdapter p then pHandle p else 0,
                                          version := v }
    let h := (h.confirmStep ms 0)
    let h := Hw.noteLaunchWait ms h (h.submitMuz ms x 0 none none)
    h.srvEvent d x.conv (ms % 256) evADMITTED 0 v

/-- Debits an admission. -/
def Hw.payAdmit (h : Hw) (t cost : Nat) : Hw := h.putBudget t ((h.budget t).debit (256 * cost))

/-- Counts conversations of a tenant in HELD. -/
def Hw.heldDelta (h : Hw) (t : Nat) (up : Bool) : Hw :=
  let b := h.budget t
  h.putBudget t { b with held := if up then min (b.held + 1) 0xFFFFFFFF else b.held - 1 }

/-- The slots of a unit whose conversation is held, in order of held_at. -/
def insertBy (f : Nat → Nat) (a : Nat) : List Nat → List Nat
  | [] => [a]
  | b :: t => if f a < f b then a :: b :: t else b :: insertBy f a t

/-- A hold scan of one unit (R368). -/
def Hw.holdScan (h : Hw) (d : Nat) : Hw :=
  let held := ((h.srvUnit d).slots.filter fun e => (h.conv d e.2.conv).state = cvHELD).map (·.1)
  let at_ (s : Nat) : Nat := match h.slot (256 * d + s) with | some x => (h.conv d x.conv).heldAt | none => 0
  (held.foldl (fun l s => insertBy at_ s l) []).foldl (fun h s =>
    match h.slot (256 * d + s) with
    | none => h
    | some x =>
      let t := (h.conv d x.conv).tenant
      let h := h.seeBudget t
      if 0 < (h.budget t).balance then
        (((h.payAdmit t (pCost x.params)).heldDelta t false).admitSlot (256 * d + s)).sendChanges d
      else h) h

def holdScan (d : Fin 4) (h : Hw) : Hw :=
  let u := h.srvUnit d.val
  let period := bitsOf (h.rd (srvPage d.val) 0x044) 31 16 * 0x100000
  if !h.enabled (srvPage d.val) || period == 0 || decide (h.time < u.lastHold + period) || h.isHeld (srvMaster d.val) then h
  else (h.setSrvUnit d.val { u with lastHold := h.time }).holdScan d.val

/-- HOLD_SCAN (R368). -/
def execHoldScan (d : Fin 4) (s : State) : Out := .next (s.onHw (holdScan d))

def ttlScan (d : Fin 4) (h : Hw) : Hw :=
  let u := h.srvUnit d.val
  let p := srvPage d.val
  let period := bitsOf (h.rd p 0x044) 15 0 * 0x100000
  let busy := (List.range 4).any fun q => (h.qs ⟨.stage d .srv, q⟩).cmds.any (·.finished)
  if !h.enabled p || period == 0 || decide (h.time < u.lastTtl + period) || busy then h
  else
    let h := h.setSrvUnit d.val { u with lastTtl := h.time }
    (forN (h.convs d.val) (fun n h =>
      let cv := h.conv d.val n
      if cv.state = cvPARKED ∧ cv.deadline ≤ h.time ∧ h.ownsConv n = true then
        ((h.putConv d.val n { cv with state := cvEXPIRED }).count p 0x0B8).srvEvent d.val n 0 evEXPIRED 0 0
      else h) h).sendChanges d.val

/-- TTL_SCAN (R365): it does not run between the execution and the commit of a command of the unit (R377). -/
def execTtlScan (d : Fin 4) (s : State) : Out := .next (s.onHw (ttlScan d))

/-! ### The commit step (R374) -/

/-- Takes a conversation off its slot and group (R366 step 3). -/
def Hw.unbind (h : Hw) (d n : Nat) (mirror : Bool) : Hw :=
  match h.convSlot d n with
  | none => h
  | some ms =>
    match h.slot ms with
    | none => h
    | some x =>
      let g := pGroup x.params
      let h := h.setGroup g { h.group g with slot := none }
      let u := h.srvUnit d
      let h := (h.setSrvUnit d { u with subs := u.subs.map fun y => if y.slot = ms then { y with step := none } else y }).dropSlot ms
      if mirror then h.noteSlot ms else h

/-- Releases the adapter version a conversation references, and its place among the held ones. -/
def Hw.leave (h : Hw) (cv : Conv) : Hw :=
  let h := if cv.bound then h.putAdapter cv.handle ((h.adapter cv.handle).release cv.version) else h
  if cv.state = cvHELD then h.heldDelta cv.tenant false else h

def srvCommitEff (id : QId) (c : Cmd) (h : Hw) : Hw :=
  let d := engQuad id.eng
  let n := sConv c.desc
  let cv := h.conv d n
  let params := match c.work with | .srv p => p | _ => []
  match dOpcode c.desc with
  | 0x10 =>
    let ms := 256 * d + sSlot c.desc
    let t := dTenant c.desc
    let g := pGroup params
    let h := h.setGroup g { h.group g with slot := some ms }
    let h := h.setSlot ms { conv := n, params := params, paramsVa := sLong c.desc, fresh := sFresh c.desc }
    let cv : Conv := { cv with slot := sSlot c.desc, tenant := t, params := sLong c.desc,
                               steps := if sFresh c.desc then 0 else cv.steps, bound := false, handle := 0, version := 0 }
    let h := if c.code = cBUDGET_HELD then
        let h := (h.putConv d n { cv with state := cvHELD, heldAt := h.time }).heldDelta t true
        (h.count (srvPage d) 0x0B4).srvEvent d n (sSlot c.desc) evHELD cBUDGET_HELD 0
      else ((h.putConv d n cv).payAdmit t (pCost params)).admitSlot ms
    if dMirror c.desc then h.noteSlot ms else h
  | 0x11 =>
    let h := (h.leave cv).unbind d n (dMirror c.desc)
    h.putConv d n { cv with state := cvPARKED, slot := 0, bound := false, tier := bitsOf (dword c.desc 1) 1 0,
                            deadline := (h.time + sLong c.desc) % 2 ^ 64 }
  | 0x12 =>
    let h := (h.leave cv).unbind d n (dMirror c.desc)
    h.putConv d n (convOf [])
  | 0x13 =>
    let k := sHandle c.desc
    let a := h.adapter k
    let h := h.putAdapter k { cur := bitsOf (dword c.desc 1) 15 0, prev := a.cur, curRefs := 0, prevRefs := a.curRefs
                              curBlk := sLong c.desc, prevBlk := a.curBlk, valid := true, hasPrev := a.valid }
    if !sFlag c.desc then h
    else forN 1024 (fun ms h =>
      match h.slot ms with
      | none => h
      | some x =>
        let cv := h.conv (ms / 256) x.conv
        if cv.bound ∧ cv.handle = k ∧ cv.version = a.cur ∧ x.switch = false then
          ((h.setSlot ms { x with switch := true }).srvEvent (ms / 256) x.conv (ms % 256) evSWITCH 0 0).noteSlot ms
        else h) h
  | 0x14 =>
    let t := sHandle c.desc
    let b := h.budget t
    let cap := signedOf 32 (dword c.desc 2)
    let bal := if sFlag c.desc then signedOf 32 (dword c.desc 3) else b.balance
    let h := h.putBudget t { b with rate := dword c.desc 1, cap := cap, balance := min cap bal }
    forN 4 (fun q h => h.holdScan q) h
  | _ => h

/-- The commit step of a serving command: an admission finds the budget positive or not as it commits; a park or an end rejects
speculation that began since and waits again; an adapter change waits while a reference to the previous version remains. -/
def srvCommit (id : QId) (h : Hw) : Hw :=
  match h.stageCommitHead id with
  | none => h
  | some c =>
    let d := engQuad id.eng
    match dOpcode c.desc with
    | 0x10 =>
      let held := decide ((h.budget (dTenant c.desc)).balance ≤ 0)
      (h.updCmd id c.ptr fun c => { c with code := if held then cBUDGET_HELD else 0 }).stageCommit id (srvCommitEff id)
    | 0x11 | 0x12 =>
      match h.convSlot d (sConv c.desc) with
      | none => h.stageCommit id (srvCommitEff id)
      | some ms =>
        let h := h.rejectSpec ms
        if h.drained ms then h.stageCommit id (srvCommitEff id) else h
    | 0x13 => if (h.adapter (sHandle c.desc)).prevRefs ≠ 0 then h else h.stageCommit id (srvCommitEff id)
    | _ => h.stageCommit id (srvCommitEff id)

/-! ### GRP_CTL (R351) -/

/-- A write of GRP_CTL (R351): a bound group, or both bits, is discarded and counted; a group of 0 has no entry. -/
def grpCtlWrite (r : Req) (d : Fin 4) (v : Word) (h : Hw) : Hw :=
  let p := srvPage d.val
  h.guardWrite r p 0x098 v.toNat fun h =>
    let g := h.rd p 0x08C
    let s := bitsOf v.toNat 3 2
    let bound := (h.group g).slot.isSome
    let acts := bitsOf v.toNat 1 0
    if acts = 3 ∨ (acts ≠ 0 ∧ bound) then h.badAccess (pageOff p 0x098)
    else
      let h := h.wr p 0x098 (v.toNat &&& 0xC)
      if g = 0 then h
      else if acts = 1 then (h.confirm g s).count p 0x0A0
      else if acts = 2 then (h.rejectStep g s).count p 0x0A4
      else h

/-- GROUP_CONFIRM (R351): GRP_CTL written with bit 0. -/
def execGroupConfirm (r : Req) (d : Fin 4) (v : Word) (s : State) : Out := .next (s.onHw (grpCtlWrite r d (v ||| 1)))

/-- GROUP_REJECT (R351): GRP_CTL written with bit 1. -/
def execGroupReject (r : Req) (d : Fin 4) (v : Word) (s : State) : Out := .next (s.onHw (grpCtlWrite r d (v ||| 2)))

end Sys2Proof.Machine
end

