-- ==== Sys2Proof/Machine/Twin.lean ====
section
/-! DEFINITION. Twin pairing and the Leash (R379 to R405): the mirror's receiver, heartbeats, loss, failover, rejoining, the
link layer, remote accesses and time synchronisation. -/

namespace Sys2Proof.Machine

/-! ### The pair's registers and states (R405) -/

abbrev psUNPAIRED : Nat := 0
abbrev psJOINING : Nat := 1
abbrev psPAIRED : Nat := 2
abbrev psLOST : Nat := 3
abbrev psADOPTING : Nat := 4
abbrev psFULL : Nat := 5
abbrev psRESYNC : Nat := 6
abbrev psFENCED : Nat := 7

def Hw.setPair (h : Hw) (f : Pair → Pair) : Hw := { h with pair := f h.pair }
def Hw.pairOn (h : Hw) : Bool := bitOf h.pairCtl 0
def Hw.setPort (h : Hw) (p : Nat) (f : LeashPort → LeashPort) : Hw := { h with ports := listSet h.ports p (f (h.port p)) }
/-- Whether a twin is watched for loss (R389). -/
def Hw.watching (h : Hw) : Bool := h.pair.state == psJOINING || h.pair.state == psPAIRED || h.pair.state == psRESYNC
/-- The twin ports that can send. -/
def Hw.twinPorts (h : Hw) : List Nat := [0, 1].filter fun p => (h.port p).up
/-- Sends a control message on each of the ports. -/
def Hw.sendOn (h : Hw) (ps : List Nat) (m : LeashMsg) : Hw := ps.foldl (fun h p => h.send (.leash p m)) h

/-! ### Receiving the mirror (R384) -/

/-- Writes of a packet until one cannot be made: those left, and the fault if there is one. -/
def Hw.applyWrites (m : Master) : List (Nat × List Byte) → Hw → Hw × List (Nat × List Byte)
  | [], h => (h, [])
  | (va, bs) :: t, h =>
    match h.place m va bs with
    | .ok _ => Hw.applyWrites m t ((h.lookups m va bs.length).write m va bs)
    | .error (.fault cause level a) => (h.postFault m cause level a true 0 true, (va, bs) :: t)
    | .error _ => (h, (va, bs) :: t)

/-- One field or more of an adoption record (R387). -/
def Hw.putAdopt (h : Hw) (rec : Nat) (us : List (Nat × List Byte)) : Hw :=
  us.foldl (fun h u => h.storeTier (h.tierBase 0x012 0x11C 6 + 64 * rec + u.1) u.2) h

/-- A change that a packet carries beside its writes (R385, R386). -/
def Hw.applyChange (h : Hw) : MirrorChange → Hw
  | .generation slot v => h.setTblGen slot v
  | .conversation d n bs => h.storeTier (h.convKey d n) bs
  | .budget t bs => h.storeTier (h.budKey t) bs

/-- Applies received packets from the oldest on, while none is held (R384). -/
def Hw.applyInbound : Nat → Hw → Hw
  | 0, h => h
  | fuel + 1, h =>
    match h.pair.inbound with
    | [] => h
    | (p, pkt) :: rest =>
      let m := leashMaster p
      if h.isHeld m then h
      else
        let (h, left) := Hw.applyWrites m pkt.writes h
        if left ≠ [] then h.setPair fun x => { x with inbound := (p, { pkt with writes := left }) :: rest }
        else
          let h := match pkt.record with | some r => h.putAdopt r.val pkt.updates | none => h
          let h := pkt.changes.foldl Hw.applyChange h
          let h := h.setPair fun x => { x with inbound := rest }
          let h := if h.watching then h.send (.leash p .ack) else h
          Hw.applyInbound fuel h

/-- Applies what can be applied. -/
def Hw.runInbound (h : Hw) : Hw := Hw.applyInbound h.pair.inbound.length h

/-- Writes a packet into the log ring (R384; log entry 20); the next one follows it once it is complete. -/
def Hw.logPacket (h : Hw) (pkt : MirrorPacket) : Hw :=
  let n := h.logBytes
  let base := h.tierBase 0x012 0x110 6
  let h := forN pkt.size (fun i h => h.storeTier (base + (h.pair.logPos + i) % n) [Config.logByte pkt i]) h
  if pkt.complete then h.setPair fun x => { x with logPos := (x.logPos + pkt.size) % n } else h

def mirrorPacketReceive (p : Fin 2) (pkt : MirrorPacket) (h : Hw) : Hw :=
  if !h.pairOn || !h.watching || !(h.port p.val).up then h
  else if h.logBytes < pkt.size then (h.setPair fun x => { x with mirrorBroken := true }).raise 0x012 6
  else
    let h := h.logPacket pkt
    let rest := h.pair.partials.filter fun e => e.1 ≠ p.val
    if !pkt.complete then h.setPair fun x => { x with partials := rest ++ [(p.val, pkt)] }
    else (h.setPair fun x => { x with partials := rest, inbound := x.inbound ++ [(p.val, pkt)] }).runInbound

/-- MIRROR_PACKET_RECEIVE (R384): a packet whose commit record has not arrived is not applied. -/
def execMirrorPacketReceive (p : Fin 2) (pkt : MirrorPacket) (s : State) : Out := .next (s.onHw (mirrorPacketReceive p pkt))

/-! ### Acknowledgements (R20, R383) -/

/-- Lifts the wait of the oldest record of a queue that waits for the twin (R20). -/
def liftAck : List Owed → List Owed
  | [] => []
  | o :: t => if o.ack then { o with ack := false } :: t else o :: liftAck t

/-- Releases the records of a queue that can now be written. -/
def Hw.releaseOwed (h : Hw) (id : QId) (f : List Owed → List Owed) : Hw :=
  let q := h.qs id
  Hw.flushOwed id (q.owed.length + 1) (h.setQs id { q with owed := f q.owed })

def mirrorAck (p : Fin 2) (h : Hw) : Hw :=
  match h.pair.outbound.find? fun o => o.port = p.val with
  | none => h
  | some o =>
    let h := (h.setPair fun x => { x with outbound := x.outbound.erase o, logRoom := x.logRoom + o.pkt.size }).count 0x012 0x13C
    match o.queue with
    | some id => h.releaseOwed id liftAck
    | none => h

/-- MIRROR_ACK (R20): the oldest packet sent on the port is acknowledged. -/
def execMirrorAck (p : Fin 2) (s : State) : Out := .next (s.onHw (mirrorAck p))

/-- Step 3 of R391: outbound packets and remote writes to the twin go; held records are released with mirrored = 0. -/
def Hw.releaseAll (h : Hw) : Hw :=
  let twin := h.moduleNo ^^^ 1
  let lost := h.remoteOut.filter fun w => w.module = twin
  let h := lost.foldl (fun h _ => (h.count 0x012 0x144).raise 0x012 7) h
  let h := { h with remoteOut := h.remoteOut.filter fun w => w.module ≠ twin }
  let h := (h.setPair fun x => { x with outbound := [] })
  (h.queues.map (·.1)).foldl (fun h id => h.releaseOwed id fun l => l.map fun o =>
    if o.ack then { o with ack := false, bytes := withMirrored o.bytes false } else o) h

/-! ### Heartbeats (R388, R390) -/

def heartbeatSend (h : Hw) : Hw :=
  let st := h.pair.state
  let period := 1000 * bitsOf (h.rd 0x012 0x108) 7 0
  if h.pairOn ∧ st ≠ psUNPAIRED ∧ st ≠ psFENCED ∧ h.pair.lastSent + period ≤ h.time then
    (h.sendOn h.twinPorts (.heartbeat st)).setPair fun x => { x with lastSent := h.time }
  else h

/-- HEARTBEAT_SEND (R388). -/
def execHeartbeatSend (s : State) : Out := .next (s.onHw heartbeatSend)

/-- Entering FENCED (R390): enable of every queue is cleared, source 6. -/
def Hw.fence (h : Hw) : Hw :=
  let h := h.setPair fun x => { x with state := psFENCED, fullOwner := false, twinReady := false, toCopy := [], listLeft := 0, copied := [] }
  (allQueues.foldl Hw.clearEnable h).raise 0x012 6

/-- Entering PAIRED: the twin's log is empty and as large as this module's (log entry 24). -/
def Hw.enterPaired (h : Hw) : Hw :=
  h.setPair fun x => { x with state := psPAIRED, lastHb := h.time, logRoom := h.logBytes, cause := 0, settled := false, adoptAsked := false,
                              twinReady := false, toCopy := [], listLeft := 0, copied := [], adoptRefused := false }

/-- A module that joins again forgets what it still wanted acknowledged when it was fenced, and the records that waited for it (log entry
42). -/
def Hw.forgetUnacked (h : Hw) : Hw :=
  let h := h.setPair fun x => { x with outbound := [], partials := [] }
  (h.queues.map (·.1)).foldl (fun h id => h.releaseOwed id fun l => l.filter fun o => !o.ack) h

def heartbeatReceive (p : Fin 2) (state : Fin 8) (h : Hw) : Hw :=
  let st := h.pair.state
  let taken (x : Nat) : Bool := x == psLOST || x == psADOPTING || x == psFULL
  if !h.pairOn || !(h.port p.val).up then h
  else
    let h := h.setPair fun x => { x with lastHb := h.time }
    if (st = psPAIRED ∧ taken state.val) ∨ (h.role = 1 ∧ taken st ∧ taken state.val) then h.fence
    else if (st = psUNPAIRED ∨ st = psFENCED) ∧ h.pair.twinReady ∧ state.val = psRESYNC then
      h.forgetUnacked.setPair fun x => { x with state := psJOINING, synced := false, mirrorBroken := false, adoptRefused := false }
    else h

/-- HEARTBEAT_RECEIVE (R390); a module whose hello was accepted joins when its twin's state reads RESYNC (R394; log entry 42). -/
def execHeartbeatReceive (p : Fin 2) (state : Fin 8) (s : State) : Out := .next (s.onHw (heartbeatReceive p state))

/-! ### Declaring the twin lost (R389, R391, R393) -/

/-- Steps 2 and 3 of R391: packets without a commit record go, those that have one are applied; then what was held is released. -/
def Hw.settleLoss (h : Hw) : Hw :=
  if h.pair.settled then h
  else
    let h := (h.setPair fun x => { x with partials := [] }).runInbound
    if h.pair.inbound ≠ [] then h else h.releaseAll.setPair fun x => { x with settled := true }

/-- A declaration (R391 step 1). The source of a resynchronisation returns to FULL; a joining module adopts nothing. -/
def Hw.declare (h : Hw) (cause : Nat) : Hw :=
  if !h.pairOn || !h.watching then h
  else
    let st := h.pair.state
    let h := h.setPair fun x => { x with
      state := if st = psRESYNC then psFULL else psLOST
      cause := cause
      adoptRefused := x.adoptRefused || decide (st = psJOINING)
      settled := false
      adoptAsked := false
      toCopy := []
      listLeft := 0
      copied := [] }
    let h := (h.wr64 0x012 0x130 h.time).raise 0x012 3
    let h := { h with life := h.life.bump 0x024 }.trace { type := 8, engine := 0, arg0 := 2, arg1 := cause }
    if st = psRESYNC then h.settleLoss else h

def heartbeatTimeout (h : Hw) : Hw :=
  let c := h.rd 0x012 0x108
  if ((h.port 0).trained ∨ (h.port 1).trained) ∧ h.pair.lastHb + 1000 * bitsOf c 7 0 * bitsOf c 11 8 ≤ h.time then h.declare 1 else h

/-- HEARTBEAT_TIMEOUT (R389, cause 1). -/
def execHeartbeatTimeout (s : State) : Out := .next (s.onHw heartbeatTimeout)

def linkDownGrace (h : Hw) : Hw :=
  match h.pair.downSince with
  | none => h
  | some t => if t + 1000 * bitsOf (h.rd 0x012 0x108) 31 16 ≤ h.time then h.declare 2 else h

/-- LINK_DOWN_GRACE (R389, cause 2). -/
def execLinkDownGrace (s : State) : Out := .next (s.onHw linkDownGrace)

/-- WITHDRAW_NOTICE (R389, cause 3). -/
def execWithdrawNotice (p : Fin 2) (s : State) : Out := .next (s.onHw fun h => if (h.port p.val).up then h.declare 3 else h)

/-- Step 4 of R391: adoption starts at once with auto_adopt, else once it is asked for. -/
def Hw.startAdopt (h : Hw) : Hw :=
  if h.pair.state = psLOST ∧ h.pair.settled ∧ !h.pair.adoptRefused ∧ (h.pair.adoptAsked ∨ bitOf h.pairCtl 7) then
    h.setPair fun x => { x with state := psADOPTING }
  else h

def twinLost (h : Hw) : Hw := if h.pair.state = psLOST then h.settleLoss.startAdopt else h

/-- TWIN_LOST (R391 steps 2 and 3). -/
def execTwinLost (s : State) : Out := .next (s.onHw twinLost)

/-! ### Adoption (R391 steps 5 to 8) -/

/-- The 64 bytes of an adoption record. -/
def Hw.adoptRec (h : Hw) (i : Nat) : List Byte := h.bytes (h.tierBase 0x012 0x11C 6 + 64 * i) 64

/-- How far pointer `a` lies ahead of `b`, negative where it lies behind: pointers count modulo 2³². -/
def aheadOf (a b : Nat) : Int := (BitVec.ofNat 32 (ptrSub a b)).toInt

/-- Loads one queue record (step 5). -/
def Hw.adoptQueue (h : Hw) (id : QId) : Hw :=
  let r := h.adoptRec (queueRecord id)
  if h.ownsQueue id || !bitOf (bnum r 0 4) 0 then h
  else if (h.qs id).st ≠ .disabled then h.count 0x012 0x140
  else
    let commit := bnum r 0x20 4
    let tail := let a := bnum r 0x0C 4; let b := h.qTail id; if aheadOf a commit < aheadOf b commit then b else a
    let cqTail := bnum r 0x24 4
    let head := let a := bnum r 0x34 4; let b := h.qrd id 0x38; if ptrSub cqTail b < ptrSub cqTail a then b else a
    let h := ((((h.qwr id 0x00 (bnum r 0x10 4)).qwr id 0x04 (bnum r 0x14 4)).qwr id 0x08 (bnum r 0x04 4)).qwr id 0x18 (bnum r 0x08 4))
    let h := (((h.qwr id 0x30 (bnum r 0x28 4)).qwr id 0x34 (bnum r 0x2C 4)).qwr id 0x2C (bnum r 0x30 4)).qwr id 0x3C cqTail
    let h := ((h.qwr id 0x38 head).qwr id 0x14 commit).qwr id 0x0C tail
    let h := if hasCtx id.eng then (h.qwr id 0x24 (bnum r 0x18 4)).qwr id 0x28 (bnum r 0x1C 4) else h
    let h := h.setQs id { h.qs id with subs := [(BitVec.ofNat 32 tail, .handler)], killed := [], confirmed := [] }
    h.setEnable id

/-- Zeroes the twin's semaphores and predicate bits of a core (step 6). -/
def Hw.zeroTwin (h : Hw) (n : Nat) : Hw :=
  let h := forN 16 (fun i h => if bitsOf i 3 3 = h.role then h else h.setSem n i 0) h
  h.wr (corePage n) (if h.role = 0 then 0x04C else 0x048) 0

/-- Loads one slot record (step 7). -/
def Hw.adoptSlot (h : Hw) (ms : Nat) : Hw :=
  let r := h.adoptRec (512 + ms)
  if h.ownsSlot ms || !bitOf (bnum r 0 4) 0 then h
  else
    let d := ms / 256
    let conv := bitsOf (bnum r 4 4) 17 0
    let va := bnum r 0x10 8
    let (params, h) := match h.read (srvMaster d) va 128 with
      | .ok p => (p, h)
      | .error _ => (freeBytes h.freeCtr 128, h.draw)
    let rel := (bnum r 0x0C 4 + 1) % 0x100000000
    let cv := h.conv d conv
    let g := bitsOf (bnum r 4 4) 31 24
    let x : SrvSlot := { conv := conv, params := params, paramsVa := va, c := bnum r 8 4, done := rel, rel := rel, acc := rel - 1,
                         fresh := decide (rel ≤ 1 ∧ cv.steps ≤ rel), switch := bitOf (bnum r 0 4) 1 }
    let h := (h.setSlot ms x).setGroup g { h.group g with slot := some ms }
    let h := if rel = 0 ∧ cv.state ≠ cvHELD then h.confirm g 0 else h
    if !cv.bound then h
    else
      let a := h.adapter cv.handle
      if (a.valid ∧ a.cur = cv.version) ∨ (a.hasPrev ∧ a.prev = cv.version) then h.putAdapter cv.handle (a.holdOf cv.version)
      else h.haltSlot ms evHALTED cFORMAT

def adoptionDone (h : Hw) : Hw :=
  if h.pair.state ≠ psADOPTING then h
  else
    let h := allQueues.foldl Hw.adoptQueue h
    let h := forN 48 (fun n h => h.zeroTwin n) h
    let h := forN 1024 (fun ms h => h.adoptSlot ms) h
    let h := (h.setPair fun x => { x with state := psFULL, fullOwner := true }).raise 0x012 4
    h.trace { type := 8, engine := 0, arg0 := 3 }

/-- ADOPTION_DONE (R391 steps 5 to 8). -/
def execAdoptionDone (s : State) : Out := .next (s.onHw adoptionDone)

/-! ### Resynchronisation (R395) and handback (R396) -/

/-- The leaves below a table with kv = 1, as address and bytes. -/
def Hw.kvLeaves (h : Hw) : Nat → Nat → Nat → Nat → List (Nat × Nat)
  | 0, _, _, _ => []
  | fuel + 1, l, k, va =>
    (List.range 512).flatMap fun i =>
      let e := leNat (h.bytes (k + 8 * i) 8)
      let a := va + i * 2 ^ (43 - 9 * l)
      if !pteValid e || !pteGood l e then []
      else if pteLeaf e then (if pteKv e then [(a, leafBytes (l == 2))] else [])
      else h.kvLeaves fuel (l + 1) (memKey (pteTier e) (pteNext e)) a

/-- Sends one range of the walk. -/
def Hw.copyRange (h : Hw) (va n : Nat) (bs : List Byte) : Hw :=
  let h := h.sendPacket (h.mirrorPort 0) none 0 0 none [(va, bs)] []
  h.setPair fun x => { x with copied := x.copied ++ [(va, n)] }

/-- Copies the next range of the walk (R395 step 1), the leaves first and then the ranges of RESYNC_LIST. A Hitch is one step here, so no
lock is held in the fence. A line that cannot be read is left out (log entry 92). -/
def Hw.resyncStep (h : Hw) : Hw :=
  let m := leashMaster 0
  if h.isHeld m then h
  else match h.pair.toCopy with
    | [] =>
      if h.pair.listLeft = 0 then h
      else
        match h.read m (h.rd64 0x012 0x124 + 16 * (h.rd 0x012 0x12C - h.pair.listLeft)) 16 with
        | .error (.fault cause level a) => h.postFault m cause level a false 0 true
        | .error .wait => h
        | .error (.ecc a n) => (h.touch m a n).setPair fun x => { x with listLeft := x.listLeft - 1 }
        | .ok bs => h.setPair fun x => { x with listLeft := x.listLeft - 1, toCopy := [(bnum bs 0 8, bnum bs 8 8)] }
    | (va, n) :: rest =>
      match h.read m va n with
      | .error (.fault cause level a) => h.postFault m cause level a false 0 true
      | .error .wait => h
      | .error (.ecc a k) =>
        let h := h.touch m a k
        let h := match h.read m va (a - va) with
          | .ok (b :: bs) => h.copyRange va (a - va) (b :: bs)
          | _ => h
        h.setPair fun x => { x with toCopy := if a + k < va + n then (a + k, va + n - (a + k)) :: rest else rest }
      | .ok bs => ((h.touch m va n).copyRange va n bs).setPair fun x => { x with toCopy := rest }

/-- The adoption records of step 2 of R395. -/
def Hw.resyncRecords (h : Hw) : Hw :=
  let h := allQueues.foldl (fun h id =>
    if h.qEnable id then
      h.mirrorFields (engQuad id.eng) (queueRecord id)
        [(0x00, leBytes 4 1), (0x04, leBytes 4 (h.qrd id 0x08)), (0x08, leBytes 4 (h.qrd id 0x18)), (0x0C, leBytes 4 (h.qTail id)),
         (0x10, leBytes 4 (h.qrd id 0x00) ++ leBytes 4 (h.qrd id 0x04)), (0x18, leBytes 8 (if hasCtx id.eng then h.qCtx id else 0)),
         (0x20, leBytes 4 (h.qCommit id)), (0x24, leBytes 4 (h.qrd id 0x3C)),
         (0x28, leBytes 4 (h.qrd id 0x30) ++ leBytes 4 (h.qrd id 0x34)), (0x30, leBytes 4 (h.qrd id 0x2C)), (0x34, leBytes 4 (h.qrd id 0x38))]
    else h) h
  forN 1024 (fun ms h => if (h.slot ms).isSome then h.noteSlot ms else h) h

def resyncDone (h : Hw) : Hw :=
  if h.pair.state = psRESYNC ∧ h.pair.toCopy = [] ∧ h.pair.listLeft = 0 then
    let full := h.pair.fullOwner
    (h.resyncRecords.enterPaired.setPair fun x => { x with fullOwner := full, mirrorBroken := false, logRoom := h.pair.logRoom }).raise 0x012 5
  else if h.pair.state = psJOINING then h.enterPaired.raise 0x012 5
  else h

/-- RESYNC_DONE (R395): at the source once the walk has ended, and at the joining module. -/
def execResyncDone (s : State) : Out := .next (s.onHw resyncDone)

/-- Whether everything that handback would pass to the twin is idle (R396). -/
def Hw.twinIdle (h : Hw) : Bool :=
  let own (id : QId) : Bool := match id.eng with | .core _ => h.bit 0x012 0x10C id.q | .stage _ _ => h.bit 0x012 0x10C (8 + id.q)
  (allQueues.all fun id => own id || decide ((h.qs id).st = .disabled))
    && (List.range 1024).all fun ms => bitsOf ms 7 7 == h.role || (h.slot ms).isNone

/-! ### PAIR_CTL (R379, R388, R390, R394 to R396, R405) -/

/-- A change of enable: the module is UNPAIRED and owns everything (R379, R390). When it is set, hellos go on the trained twin ports (log
entry 42). -/
def Hw.pairReset (h : Hw) : Hw :=
  let fenced := decide (h.pair.state = psFENCED)
  let h := h.setPair fun x => { x with
    state := psUNPAIRED, fullOwner := false, twinReady := false, toCopy := [], listLeft := 0, copied := [], partials := [], adoptAsked := false
    settled := false, cause := 0, refuse := 0, handbackRefused := false, adoptRefused := false }
  if fenced then h else h.releaseAll

def Hw.withdraw (h : Hw) : Hw :=
  if h.pair.state = psUNPAIRED ∨ h.pair.state = psFULL ∨ h.pair.state = psFENCED then h
  else (h.sendOn h.twinPorts .withdraw).fence

def Hw.startResync (h : Hw) : Hw :=
  if h.pair.state = psFULL ∧ h.pair.twinReady then
    let ranges := (((List.range 4).map h.rootKey).eraseDups.flatMap fun k => h.kvLeaves 4 0 k 0).eraseDups
    h.setPair fun x => { x with state := psRESYNC, toCopy := ranges, listLeft := h.rd 0x012 0x12C, copied := [], logRoom := h.logBytes, lastHb := h.time, outbound := [] }
  else h

def Hw.handback (h : Hw) : Hw :=
  if h.pair.state ≠ psPAIRED ∨ h.pair.fullOwner = false then h
  else if h.twinIdle then h.setPair fun x => { x with fullOwner := false, handbackRefused := false }
  else h.setPair fun x => { x with handbackRefused := true }

/-- A write of PAIR_CTL: role, pair and n_pairs change only while enable is 0 (R405). The bits that start something act in the
order of their numbers. -/
def pairCtlWrite (r : Req) (v : Word) (h : Hw) : Hw :=
  h.guardWrite r 0x012 0x100 v.toNat fun h =>
    let v := v.toNat
    let old := h.pairCtl
    if bitOf old 0 ∧ bitsOf v 5 1 ≠ bitsOf old 5 1 then h.badAccess (pageOff 0x012 0x100)
    else
      let h := h.wr 0x012 0x100 (v &&& 0xBF)
      let h := if bitOf v 0 == bitOf old 0 then h else if bitOf v 0 then h.pairReset.sendOn h.twinPorts .hello else h.pairReset
      let h := if bitOf v 8 then (if h.pair.state = psLOST then h.setPair fun x => { x with adoptAsked := true } else h).startAdopt else h
      let h := if bitOf v 9 then h.declare 4 else h
      let h := if bitOf v 10 ∧ h.pairOn = true then h.withdraw else h
      let h := if bitOf v 11 then h.startResync else h
      if bitOf v 12 then h.handback else h

/-- WITHDRAW (R388): PAIR_CTL written with bit 10. -/
def execWithdraw (r : Req) (v : Word) (s : State) : Out := .next (s.onHw (pairCtlWrite r (v ||| 0x400)))

/-- DECLARE_LOST (R389, cause 4): PAIR_CTL written with bit 9. -/
def execDeclareLost (r : Req) (v : Word) (s : State) : Out := .next (s.onHw (pairCtlWrite r (v ||| 0x200)))

/-- ADOPT (R391 step 4): PAIR_CTL written with bit 8, or auto_adopt. -/
def execAdopt (r : Option Req) (v : Word) (s : State) : Out :=
  match r with
  | some r => .next (s.onHw (pairCtlWrite r (v ||| 0x100)))
  | none => .next (s.onHw Hw.startAdopt)

/-- PAIR_ENABLE (R379): PAIR_CTL written with no bit that starts anything. -/
def execPairEnable (r : Req) (v : Word) (s : State) : Out := .next (s.onHw (pairCtlWrite r (v &&& 0xBF)))

/-- RESYNC (R394, R395): PAIR_CTL written with bit 11. -/
def execResync (r : Req) (v : Word) (s : State) : Out := .next (s.onHw (pairCtlWrite r (v ||| 0x800)))

/-- HANDBACK (R396): PAIR_CTL written with bit 12. -/
def execHandback (r : Req) (v : Word) (s : State) : Out := .next (s.onHw (pairCtlWrite r (v ||| 0x1000)))

/-! ### Hello (R394, R400) -/

/-- The module and port that a port's cable should lead to. -/
def Hw.peerOf (h : Hw) (p : Nat) : Option (Nat × Nat) :=
  let m := h.moduleNo
  let n := h.moduleCount
  if p < 2 then some (m ^^^ 1, p)
  else if n < 4 then none
  else if p = 3 then some ((m + 2) % n, 2) else some ((m + n - 2) % n, 3)

/-- Lanes that have locked. -/
def laneCount (l : BitVec 8) : Nat := ((List.range 8).filter fun i => l.getLsbD i).length

/-- LINK_STAT.state of a port: trained with all its lanes or with half, or training. -/
def LeashPort.linkState (l : LeashPort) : Nat := if l.trained then (if laneCount l.lanes < 8 then 3 else 2) else if l.training then 1 else 0

/-- LINK_STAT of a port (R405), with the peer that its last hello named. -/
def LeashPort.linkStat (l : LeashPort) : Nat :=
  l.linkState + (if l.trained ∧ l.up = false then 8 else 0) + laneCount l.lanes * 16 + l.peer * 0x1000

/-- Why pairing is refused, 0 for none (R394). -/
def Hw.refuseOf (h : Hw) (msg : HelloMsg) : Nat :=
  if msg.major.toNat ≠ bitsOf (h.rd 0x000 0x040) 31 16 then 1
  else if msg.role = bitOf h.pairCtl 1 then 2
  else if msg.pair.val ≠ bitsOf h.pairCtl 3 2 ∨ msg.nPairs.val ≠ bitsOf h.pairCtl 5 4 then 3
  else if msg.owned.toNat ^^^ (h.rd 0x012 0x10C) ≠ 0xFFF then 4 else 0

/-- What a twin port held unacknowledged goes by the other one (R382). -/
def Hw.handOver (h : Hw) (p : Nat) : Hw :=
  if p < 2 then
    let o := 1 - p
    let n := (h.pair.outbound.filter fun x => x.port = p).map (·.pkt.size)
    let h := h.setPair fun x => { x with outbound := x.outbound.map fun x => if x.port = p then { x with port := o } else x }
    n.foldl (fun h n => h.leashQueue o 0 n) h
  else h

/-- A hello on a twin port, with pairing enabled. -/
def Hw.pairHello (h : Hw) (p : Nat) (msg : HelloMsg) : Hw :=
  let st := h.pair.state
  let free (x : Nat) : Bool := x == psUNPAIRED || x == psFENCED
  if !(free st || st == psFULL) then h
  else
    let ref := h.refuseOf msg
    if ref ≠ 0 then (h.setPair fun x => { x with refuse := ref, twinReady := false }).raise (0x012 + p) 2
    else
      let h := h.setPair fun x => { x with refuse := 0 }
      if free st && free msg.state.val then
        (h.forgetUnacked.enterPaired.setPair fun x => { x with synced := false, mirrorBroken := false }).send (.leash p .hello)
      else if (st == psFULL && free msg.state.val) || (free st && (msg.state.val == psFULL || msg.state.val == psRESYNC)) then
        h.setPair fun x => { x with twinReady := true }
      else h

def hello (p : Fin 4) (msg : HelloMsg) (h : Hw) : Hw :=
  let l := h.port p.val
  if !l.trained then h
  else
    let peer := 2 * msg.pair.val + (if msg.role then 1 else 0)
    let mis := match h.peerOf p.val with
      | none => true
      | some (m, q) => decide (msg.port.val ≠ q) || (decide (2 ≤ p.val) && decide (peer ≠ m))
    let h := h.wr64 (0x012 + p.val) 0x048 msg.serial.toNat
    let h := h.setPort p.val fun l => { l with up := !mis, peer := peer % 8 + 8 * msg.port.val }
    if mis then (h.handOver p.val).raise (0x012 + p.val) 2
    else if p.val < 2 ∧ h.pairOn = true then h.pairHello p.val msg else h

/-- HELLO (R394, R400). -/
def execHello (p : Fin 4) (msg : HelloMsg) (s : State) : Out := .next (s.onHw (hello p msg))

/-! ### The link layer (R397 to R399) -/

/-- One step of the CRC-64 of ECMA-182: a byte, its highest bit first. -/
def crc64Byte (c : BitVec 64) (b : Byte) : BitVec 64 :=
  (List.range 8).foldl (fun c _ => if c.msb then (c <<< 1) ^^^ 0x42F0E1EBA9EA3693#64 else c <<< 1) (c ^^^ (b.setWidth 64 <<< 56))
/-- The CRC-64 of a flit (R397; log entry 41). -/
def crc64 (bs : List Byte) : Nat := (bs.foldl crc64Byte 0).toNat

/-- Starts training a port again (R399); a port that trains already goes on. -/
def Hw.retrain (h : Hw) (p : Nat) : Hw :=
  if (h.port p).training then h
  else
    let lanes := (h.port p).lanes
    let h := { h with life := (List.range 8).foldl (fun l i => if lanes.getLsbD i then l.bump (0x560 + 4 * (8 * p + i)) else l) h.life }
    let h := h.setPort p fun _ => { training := true }
    let h := (h.count (0x012 + p) 0x05C).raise (0x012 + p) 1
    let h := if !(h.port 0).trained ∧ !(h.port 1).trained ∧ h.pair.downSince = none then
        h.setPair fun x => { x with downSince := some h.time } else h
    h.handOver p

/-- Asks for a replay from the expected number on; the sixteenth request within 1 µs retrains the port (R399). -/
def Hw.askRetry (h : Hw) (p : Nat) : Hw :=
  let l := h.port p
  let times := (l.retries.filter fun t => decide (h.time < t + 1000)) ++ [h.time]
  let h := (h.setPort p fun l => { l with discarding := true, retries := times }).count (0x012 + p) 0x058
  let h := h.send (.leash p (.retry l.expect))
  if 16 ≤ times.length then h.retrain p else h

/-- Drops what the peer has received: everything up to number `a`. -/
def dropAcked (a : Nat) (l : List (Nat × Nat)) : List (Nat × Nat) :=
  if l.any (·.1 = a) then (l.dropWhile (·.1 ≠ a)).drop 1 else l

/-- Replays from a number on (R399). -/
def Hw.replayFrom (h : Hw) (p seq : Nat) : Hw :=
  let l := h.port p
  let keep := l.replay.dropWhile (·.1 ≠ seq)
  if keep = [] then h else (h.setPort p fun l => { l with replay := keep }).send (.leash p (.replay (keep.map (·.1))))

def retryRequest (p : Fin 4) (seq : BitVec 12) (h : Hw) : Hw := if (h.port p.val).up then h.replayFrom p.val seq.toNat else h

/-- RETRY_REQUEST (R399). -/
def execRetryRequest (p : Fin 4) (seq : BitVec 12) (s : State) : Out := .next (s.onHw (retryRequest p seq))

/-- A data flit that is in order: its payload joins its channel's message, or goes on to another module (R397, R400). -/
def Hw.deliver (h : Hw) (p : Nat) (f : List Byte) : Hw :=
  let w0 := bnum f 0 4
  let vc := bitsOf w0 6 4
  let dst := bitsOf (bnum f 4 4) 21 19
  let h := h.setPort p fun l => { l with expect := (l.expect + 1) % 4096, discarding := false }
  if dst ≠ h.moduleNo then
    match h.route dst with
    | some q => h.leashQueue q vc 224
    | none => { h with fwd := h.fwd ++ [(dst, vc)] }
  else
    let pay := (f.drop 8).take 224
    h.setPort p fun l => { l with rx := if bitOf w0 7 then l.rx.filter (·.1 ≠ vc)
                                        else alPut vc ((alGet vc l.rx).getD [] ++ pay) l.rx }

/-- What a good flit does. -/
def Hw.goodFlit (h : Hw) (p : Nat) (f : List Byte) : Hw :=
  let w0 := bnum f 0 4
  let w1 := bnum f 4 4
  let seq := bitsOf w0 19 8
  let h := h.setPort p fun l =>
    let vc := bitsOf w1 18 16
    let l := { l with replay := dropAcked (bitsOf w0 31 20) l.replay
                      cred := if vc < 3 then listSet l.cred vc (l.cred.getD vc 0 + bitsOf w1 15 0) else l.cred }
    l.pump l.txq.length
  match bitsOf w0 3 0 with
  | 1 =>
    if seq = (h.port p).expect then h.deliver p f
    else if (h.port p).discarding then h.count (0x012 + p) 0x054
    else (h.count (0x012 + p) 0x054).askRetry p
  | 3 => h.replayFrom p seq
  | _ => h

def flitReceive (p : Fin 4) (flit : List Byte) (h : Hw) : Hw :=
  if !(h.port p.val).up then h
  else
    match Config.leashFec flit with
    | none => (h.count (0x012 + p.val) 0x054).askRetry p.val
    | some f =>
      let h := if f = flit.take 240 then h else h.count (0x012 + p.val) 0x050
      if crc64 (f.take 232) = bnum f 232 8 then h.goodFlit p.val f
      else (h.count (0x012 + p.val) 0x054).askRetry p.val

/-- FLIT_RECEIVE (R397 to R399): a flit has 256 bytes. -/
def execFlitReceive (p : Fin 4) (flit : List Byte) (s : State) : Out :=
  if flit.length = 256 then .next (s.onHw (flitReceive p flit)) else .refused (.illFormed "FLIT_RECEIVE")

def linkRetrain (p : Fin 4) (r : Option Req) (v : Word) (h : Hw) : Hw :=
  match r with
  | none => h.retrain p.val
  | some r => h.guardWrite r (0x012 + p.val) 0x040 (v ||| 1).toNat fun h => if bitOf (v ||| 1).toNat 0 then h.retrain p.val else h

/-- LINK_RETRAIN (R399). -/
def execLinkRetrain (p : Fin 4) (r : Option Req) (v : Word) (s : State) : Out := .next (s.onHw (linkRetrain p r v))

/-- Whether the lanes that locked make a link: all, or one half (R399). -/
def lanesMake (l : BitVec 8) : Bool := l == 0xFF || (l &&& 0x0F) == 0x0F || (l &&& 0xF0) == 0xF0

def linkTrained (p : Fin 4) (lanes : BitVec 8) (h : Hw) : Hw :=
  if (h.port p.val).trained || !lanesMake lanes then h
  else
    let l : LeashPort := { up := true, trained := true, lanes := if lanes = 0xFF then lanes else if (lanes &&& 0x0F) = 0x0F then 0x0F else 0xF0 }
    let h := h.setPort p.val fun _ => l
    let h := h.raise (0x012 + p.val) 0
    let h := if p.val < 2 then
        let o := 1 - p.val
        let h := h.setPair fun x => { x with downSince := none }
        let stuck := if (h.port o).trained then [] else h.pair.outbound.filter fun x => x.port = o
        let h := h.setPair fun x => { x with outbound := x.outbound.map fun y => if stuck.contains y then { y with port := p.val } else y }
        (h.pair.outbound.filter fun x => x.port = p.val).foldl (fun h x => h.leashQueue p.val 0 x.pkt.size) h
      else h
    h.send (.leash p.val .hello)

/-- LINK_TRAINED (R399, R404): the port runs on all its lanes, or on the half that locked. -/
def execLinkTrained (p : Fin 4) (lanes : BitVec 8) (s : State) : Out := .next (s.onHw (linkTrained p lanes))

/-! ### Remote accesses (R401) -/

def remoteAccess (p : Fin 4) (write : Bool) (va len : Nat) (bytes : List Byte) (h : Hw) : Hw :=
  if !(h.port p.val).up then h else h.leashTry (p.val, if write then .write va bytes false else .read va len)

/-- REMOTE_ACCESS (R401) as the named module meets it: translated as an access of its Leash port (R89). One that waits, or is held on a
fault, is kept, and those behind it on the port with it. -/
def execRemoteAccess (p : Fin 4) (write : Bool) (va len : Nat) (bytes : List Byte) (s : State) : Out :=
  .next (s.onHw (remoteAccess p write va len bytes))

/-- Sends the forwarded flits and the posted remote writes that have a route (R400, R401). -/
def Hw.runRemote (h : Hw) : Hw :=
  let h := h.fwd.foldl (fun h x =>
    match h.route x.1 with
    | some p => { h.leashQueue p x.2 224 with fwd := h.fwd.erase x }
    | none => h) h
  h.remoteOut.foldl (fun h w =>
    match h.route w.module with
    | some p => { (h.leashQueue p 1 (w.bytes.length + 16)).send (.leash p (.write w.module w.va w.bytes)) with
                  remoteOut := h.remoteOut.erase w }
    | none => h) h

/-! ### Global time (R403) -/

/-- Whether this module is the time master (R403): module 0, or module 1 once it has declared its twin lost (log entry 43). -/
def Hw.timeMaster (h : Hw) : Bool :=
  decide (h.moduleNo = 0)
    || (decide (h.moduleNo = 1) && (h.pair.state == psLOST || h.pair.state == psADOPTING || h.pair.state == psFULL))

/-- Whether a port leads to this module's time parent (R403): the twin of role 1, LSH2 of role 0; while that is down, the next module on the
way to module 0. -/
def Hw.parentPort (h : Hw) (p : Nat) : Bool :=
  if h.timeMaster then false
  else if h.role = 1 ∧ ((h.port 0).up || (h.port 1).up) then decide (p < 2)
  else if (h.port 2).up then p == 2
  else p == 3

/-- Half of an odd difference is a free choice of the two neighbours (log entry 43). -/
def halfOf (n : Int) (ctr : Nat) : Int := if n % 2 = 0 then n / 2 else n / 2 + (Config.freeNat ctr 2 % 2 : Nat)

def timeSync (p : Fin 4) (t1 t2 t3 t4 : DWord) (h : Hw) : Hw :=
  let period := 2 ^ h.rd 0x012 0x148
  if !(h.port p.val).up || !h.parentPort p.val || (h.pair.synced && decide (h.time < h.pair.lastSync + period)) then h
  else
    let a : Int := (t2 - t1).toInt
    let b : Int := (t4 - t3).toInt
    let off := halfOf (a - b) h.freeCtr
    let hop := halfOf (a + b) h.freeCtr
    let first := !h.pair.synced && decide (1000000 < off)
    let h := h.draw
    let h := (h.wr 0x012 0x150 (toSigned 32 off)).wr (0x012 + p.val) 0x064 (toSigned 32 hop)
    let h := if first then
        ({ h with time := h.time + off.toNat }.setBit 0x012 0x14C 2 true).trace { type := 8, engine := 0, arg0 := 4, arg1 := off.toNat }
      else h
    h.setPair fun x => { x with synced := true, lastSync := h.time, slew := if first then 0 else off, slewAcc := 0 }

/-- TIME_SYNC (R403): the first correction after joining may step the counter forward; every other slews it. -/
def execTimeSync (p : Fin 4) (t1 t2 t3 t4 : DWord) (s : State) : Out := .next (s.onHw (timeSync p t1 t2 t3 t4))

/-- What one tick of 40 ns adds to global time: 500 ppm of slew is 1 ns in 50 ticks (log entry 43). -/
def Hw.advance (h : Hw) : Hw :=
  let x := h.pair
  if x.slew = 0 then { h with time := h.time + 40 }
  else if x.slewAcc + 1 < 50 then { h with time := h.time + 40, pair := { x with slewAcc := x.slewAcc + 1 } }
  else if 0 < x.slew then { h with time := h.time + 41, pair := { x with slewAcc := 0, slew := x.slew - 1 } }
  else { h with time := h.time + 39, pair := { x with slewAcc := 0, slew := x.slew + 1 } }

end Sys2Proof.Machine
end

