-- ==== Sys2Proof/Machine/Irq.lean ====
section
/-! DEFINITION. The interrupt controller (R417 to R428): software sources, summary messages and their acknowledgement. Edges are
latched by Hw.edge, which every raise goes through. -/

namespace Sys2Proof.Machine

/-- The summary a source is routed to (R422). -/
def Hw.routeOf (h : Hw) (s : Nat) : Nat := bitsOf (h.rd 0x004 (0x080 + 4 * (s / 4))) (8 * (s % 4) + 4) (8 * (s % 4))
/-- Whether a source is pending and not masked. -/
def Hw.srcOn (h : Hw) (s : Nat) : Bool :=
  h.bit 0x004 (0x040 + 4 * (s / 32)) (s % 32) && !h.bit 0x004 (0x050 + 4 * (s / 32)) (s % 32)
/-- The lowest active source of a summary; none when the summary is not active. -/
def Hw.sumFirst (h : Hw) (k : Nat) : Option Nat := (List.range 128).find? fun s => h.srcOn s && h.routeOf s == k
def Hw.sumActive (h : Hw) (k : Nat) : Bool := (h.sumFirst k).isSome
/-- The destination of a summary: 0 none, 1 port A, 2 port B, 3 the Handler. -/
def Hw.sumDest (h : Hw) (k : Nat) : Nat := bitsOf (h.rd 0x004 (0x100 + 4 * (k / 16))) (2 * (k % 16) + 1) (2 * (k % 16))
def Hw.sumOut (h : Hw) (k : Nat) : Bool := h.bit 0x004 0x074 k
/-- Whether a summary's message is due. -/
def Hw.sumDue (h : Hw) (k : Nat) : Bool := h.sumActive k && !h.sumOut k && h.sumDest k != 0

/-- Has a message wait at a port (R411). -/
def PciePort.post (p : PciePort) (k : Nat) : PciePort := if p.waiting.contains k then p else { p with waiting := p.waiting ++ [k] }

/-- Sends the message of a summary to its destination, which makes it outstanding (R422). -/
def Hw.sumSend (h : Hw) (k : Nat) : Hw :=
  let h := h.setBit 0x004 0x074 k true
  match h.sumDest k with
  | 1 => { h with pcieA := h.pcieA.post k }
  | 2 => { h with pcieB := h.pcieB.post k }
  | _ => h.send (.handlerInput k)

/-- The summary that a destination is sent first: the one whose lowest active source is lowest (R423). -/
def Hw.sumNext (h : Hw) (dest : Nat) : Option Nat :=
  (List.range 128).findSome? fun s =>
    let k := h.routeOf s
    if h.srcOn s && h.sumDue k && h.sumDest k == dest then some k else none

/-- Sends every message among `ks` that is due, in the order of R423. -/
def Hw.sumSendAll (ks : List Nat) : Nat → Hw → Hw
  | 0, h => h
  | fuel + 1, h =>
    match (List.range 128).findSome? fun s =>
        let k := h.routeOf s
        if h.srcOn s && h.sumDue k && ks.contains k then some k else none with
    | some k => Hw.sumSendAll ks fuel (h.sumSend k)
    | none => h

def summaryMessage (k : Fin 32) (h : Hw) : Hw :=
  if h.sumDue k.val ∧ h.sumNext (h.sumDest k.val) = some k.val then h.sumSend k.val else h

/-- SUMMARY_MESSAGE (R422, R423). -/
def execSummaryMessage (k : Fin 32) (s : State) : Out := .next (s.onHw (summaryMessage k))

def sumAck (r : Req) (v : Word) (h : Hw) : Hw :=
  h.guardWrite r 0x004 0x070 v.toNat fun h =>
    let ks := (List.range 32).filter fun k => v.toNat.testBit k
    let h := h.wr 0x004 0x074 (h.reg (pageOff 0x004 0x074) &&& ~~~ v).toNat
    h.sumSendAll ks 32

/-- SUM_ACK (R422): outstanding is cleared, and a summary that is still active is sent again at once. -/
def execSumAck (r : Req) (v : Word) (s : State) : Out := .next (s.onHw (sumAck r v))

def swTrig (r : Req) (v : Word) (h : Hw) : Hw :=
  h.guardWrite r 0x004 0x07C v.toNat fun h =>
    let s := bitsOf v.toNat 6 0
    if (88 ≤ s ∧ s ≤ 95) ∨ (112 ≤ s ∧ s ≤ 119) then h.edge s else h.badAccess (pageOff 0x004 0x07C)

/-- SW_TRIG (R421). -/
def execSwTrig (r : Req) (v : Word) (s : State) : Out := .next (s.onHw (swTrig r v))

/-- What a reset of a port does to the summaries routed to it and to those whose message waits at it (R411, R422): outstanding is
cleared, waiting messages are discarded, and those still active are sent again. -/
def Hw.sumPortReset (h : Hw) (dest : Nat) : Hw :=
  let wait := if dest = 1 then h.pcieA.waiting else h.pcieB.waiting
  let ks := (List.range 32).filter fun k => h.sumDest k == dest || wait.contains k
  let h := ks.foldl (fun h k => h.setBit 0x004 0x074 k false) h
  let h := if dest = 1 then { h with pcieA := { h.pcieA with waiting := [] } } else { h with pcieB := { h.pcieB with waiting := [] } }
  h.sumSendAll ks 32

end Sys2Proof.Machine
end

