-- ==== Sys2Proof/Machine/Pcie.lean ====
section
/-! DEFINITION. The host interface (R406 to R416): links and their resets, configuration requests, the aperture, completions of
module reads, errors, and MSI-X. -/

namespace Sys2Proof.Machine

/-! ### Errors (R412) -/

/-- Logs an error in the function's AER capability. -/
def Hw.aerLog (h : Hw) (p : Port) (kind : Nat) : Hw :=
  h.setPcie p fun x => { x with aer := if x.aer.contains kind then x.aer else x.aer ++ [kind] }

/-- An uncorrectable error: logged, counted, source 3. -/
def Hw.tlpError (h : Hw) (p : Port) (kind : Nat) : Hw := ((h.aerLog p kind).count (portPage p) 0x074).raise (portPage p) 3

/-- RECEIVED_TLP_ERROR (R412). -/
def execReceivedTlpError (p : Port) (kind : Fin 4) (s : State) : Out := .next (s.onHw fun h => h.tlpError p kind.val)

/-- CORRECTABLE_LINK_ERROR (R412; the lane's lifetime count, R498). -/
def correctableLinkError (p : Port) (lane : Fin 16) (h : Hw) : Hw :=
  let h := (h.aerLog p 7).count (portPage p) 0x070
  { h with life := h.life.bump (0x5E0 + 4 * (16 * portNo p + lane.val)) }

def execCorrectableLinkError (p : Port) (lane : Fin 16) (s : State) : Out := .next (s.onHw (correctableLinkError p lane))

/-! ### The agreed ABI (R46) -/

/-- GLB.ABI_AGREED from the port copies of HOST_ABI, and the record of a mismatch that has just arisen. -/
def Hw.recomputeAbi (h : Hw) : Hw :=
  let a := h.rd 0x000 0x044 0
  let b := h.rd 0x000 0x044 1
  let own := h.rd 0x000 0x040
  let major := bitsOf own 23 16
  let ok (v : Nat) : Bool := bitsOf v 23 16 == major && v != 0
  let bad (v : Nat) : Bool := v != 0 && bitsOf v 23 16 != major
  let minor := ([a, b].filter ok).foldl (fun m v => min m (bitsOf v 15 0)) (bitsOf own 15 0)
  let old := h.rd 0x000 0x048
  let v := (if ok a || ok b then 0x80000000 + major * 0x10000 + minor else 0) + (if bad a then 0x10000000 else 0)
    + (if bad b then 0x20000000 else 0)
  let h := h.wr 0x000 0x048 v
  if (bad a && !bitOf old 28) || (bad b && !bitOf old 29) then h.err 0x000 0 cABI else h

/-! ### Losing a port (R407, R413, R414) -/

/-- Ends a module read with kennel_unreachable: the channel whose run it is stops as R120 and R414 state. -/
def Hw.endRead (h : Hw) (r : OutRead) : Hw :=
  match r.who with
  | .dmaFlush n run port =>
    if (h.ch n).run = run ∧ (h.ch n).asking = some port then h.dmaFault n fKennel (h.dmaLevel n (h.dmaDst n - 1)) (h.dmaDst n - 1) true
    else h
  | .dmaLine n run va =>
    if (h.ch n).run = run ∧ (h.ch n).lines.any (fun l => l.va == va && l.data.isNone) then
      h.dmaFault n fKennel (h.dmaLevel n va) (max va (h.dmaSrc n)) false
    else h

/-- Ends the module reads of a port that `f` picks. -/
def Hw.endReads (h : Hw) (p : Port) (f : OutRead → Bool) : Hw :=
  let gone := (h.pcie p).reads.filter f
  let h := h.setPcie p fun x => { x with reads := x.reads.filter fun r => !f r }
  gone.foldl Hw.endRead h

/-- Moves to or from the Kennel behind a port end with outcome 6 in steps 1 to 4 (R104, R414). -/
def Hw.endMoves (h : Hw) (p : Port) : Hw :=
  h.abortMoves 6 fun m => (reqTier m.req == 2 && reqPort m.req == portNo p)
    || (m.stage != 0 && pteTier m.old.toNat == 2 && ptePort m.old.toNat == portNo p)

/-- What a port's link or Bus Master Enable leaves when it goes: a channel that waits for its last read stops (R414). -/
def Hw.kennelGone (h : Hw) (p : Port) : Hw :=
  (h.endReads p fun r => match r.who with | .dmaFlush _ _ _ => true | .dmaLine _ _ _ => false).endMoves p

/-- Function-level reset, or a reset of R407, in the order of R413; `f` is what happens to the link. -/
def Hw.portReset (h : Hw) (p : Port) (f : PciePort → PciePort) : Hw :=
  let h := h.setPcie p fun x => f { x with busMaster := false }
  let h := (h.endReads p fun _ => true).endMoves p
  let h := h.setPcie p fun x => { up := x.up, speed := x.speed, width := x.width, ready := x.ready, waiting := x.waiting }
  let h := (h.wr64 (portPage p) 0x044 0).wr (portPage p) 0x04C 0x1C
  let r := portReq p
  let h := ((h.wr 0x000 0x044 0 (reqBank r)).wr 0x000 0x0A0 0 (reqBank r)).setAcc r {}
  let h := [0x058, 0x05C, 0x060, 0x064].foldl (fun h o => h.wr 0x003 o 0 (reqBank r)) h
  let h := { h with attests := h.attests.filter fun x => x.who != r, portQ := h.portQ.filter fun x => x.1 != p }
  let h := h.recomputeAbi.sumPortReset (1 + portNo p)
  (h.count (portPage p) 0x07C).raise (portPage p) 2

/-- PORT_RESET (R407): PERST#, hot reset or link-down. -/
def execPortReset (p : Port) (s : State) : Out :=
  .next (s.onHw fun h =>
    let was := (h.pcie p).up
    let h := h.portReset p fun x => { x with up := false, speed := 0, width := 0 }
    if was then h.raise (portPage p) 1 else h)

/-- FUNCTION_LEVEL_RESET (R413). -/
def execFunctionLevelReset (p : Port) (s : State) : Out := .next (s.onHw fun h => h.portReset p id)

/-! ### The link (R406) -/

def pcieLinkUp (p : Port) (speed : Fin 6) (width : Fin 17) (h : Hw) : Hw :=
  let widths := if h.pcieBif then [1, 2, 4, 8] else [1, 2, 4, 8, 16]
  if speed.val = 0 ∨ !widths.contains width.val then h
  else (h.setPcie p fun x => { x with up := true, speed := speed.val, width := width.val }).raise (portPage p) 0

/-- PCIE_LINK_UP (R406). -/
def execPcieLinkUp (p : Port) (speed : Fin 6) (width : Fin 17) (s : State) : Out := .next (s.onHw (pcieLinkUp p speed width))

/-! ### Configuration requests (R407, R408; log entry 44) -/

/-- The offset from which a request of the model means a word of BAR4, whose MSI-X table stands first; the pending-bit array stands
somewhere behind it. -/
abbrev msixTable : Nat := 0x1000
abbrev pendArray : Nat := msixTable + 0x1000 + Config.capOff 5

/-- Whether a configuration word is one of the six base address registers. -/
def isBar (off : Nat) : Bool := decide (0x10 ≤ off ∧ off < 0x28)

/-- The bits of a word that the host may write, and the word at reset: every bit of a base address register is kept, and reads as
`barWord` says. -/
def cfgMaskOf (off : Nat) : Word := if off < msixTable ∧ isBar off = false then Config.cfgMask off else BitVec.allOnes 32
def cfgResetOf (off : Nat) : Word := if off < msixTable ∧ isBar off = false then Config.cfgReset off else 0

/-- What a base address register reads (R25): the address bits above the size of its BAR, and in its low word the type, 64-bit memory,
prefetchable for BAR2. -/
def barWord (bar2 off : Nat) (v : Word) : Word :=
  let size := if off < 0x18 then 26 else if off < 0x20 then bar2 else 16
  if off % 8 = 0 then (v &&& BitVec.ofNat 32 (0x100000000 - 2 ^ min size 32)) ||| (if off = 0x18 then 0xC else 0x4)
  else v &&& BitVec.ofNat 32 (0x100000000 - 2 ^ (size - 32))

/-- A configuration word as read. -/
def Hw.cfgWord (h : Hw) (p : Port) (off : Nat) : Word :=
  let x := h.pcie p
  let put (b : Bool) (n : Nat) : Nat := if b then 2 ^ n else 0
  let stored := (alGet off x.cfg).getD (cfgResetOf off)
  if off = 0x00 then 0x92602A5D
  else if off = 0x04 then BitVec.ofNat 32 (put x.memSpace 1 + put x.busMaster 2) ||| (stored &&& 0xFFFFFFF9)
  else if off = 0x08 then BitVec.ofNat 32 (0x12000000 + h.rd 0x000 0x05C % 0x100)
  else if off = 0x2C then 0x92602A5D
  else if isBar off then barWord x.bar2 off stored
  else if off = Config.capOff 4 + 4 then h.reg (pageOff 0x000 0x050)
  else if off = Config.capOff 4 + 8 then h.reg (pageOff 0x000 0x054)
  else if msixTable ≤ off ∧ off < msixTable + 0x1000 ∧ off % 16 = 12 then BitVec.ofNat 32 (put (x.vecMask.getLsbD ((off - msixTable) / 16)) 0)
  else if pendArray ≤ off ∧ off < pendArray + 32 then (x.vecPend >>> (8 * (off - pendArray))).setWidth 32
  else stored

/-- What a write of a configuration word does beside storing it. -/
def Hw.cfgAct (h : Hw) (p : Port) (off : Nat) (v : Nat) : Hw :=
  if off = 0x04 then
    let h := h.setPcie p fun x => { x with memSpace := bitOf v 1, busMaster := bitOf v 2 }
    if bitOf v 2 then h else h.kennelGone p
  else if off = Config.capOff 0 then
    let d := bitsOf v 1 0
    if d = 0 ∨ d = 3 then h.setPcie p fun x => { x with dstate := d } else h
  else if off = Config.capOff 1 then (if bitOf v 15 then h.portReset p id else h)
  else if off = Config.capOff 2 then h.setPcie p fun x => { x with msixOn := bitOf v 31, msixFnMask := bitOf v 30 }
  else if off = Config.capOff 3 then
    let n := 20 + bitsOf v 13 8
    if 28 ≤ n ∧ n ≤ 48 then (h.setPcie p fun x => { x with bar2 := n }).wr (portPage p) 0x04C n else h
  else if msixTable ≤ off ∧ off < msixTable + 0x1000 ∧ off % 16 = 12 then
    let k := (off - msixTable) / 16
    h.setPcie p fun x => { x with vecMask := if bitOf v 0 then x.vecMask ||| (1#256 <<< k) else x.vecMask &&& ~~~ (1#256 <<< k) }
  else h

def configRequest (p : Port) (write : Bool) (off : Nat) (v : Word) (h : Hw) : Hw :=
  let x := h.pcie p
  if !x.up then h
  else if 3 ≤ h.pow.state then (h.wakeBy (2 + portNo p)).send (.cfgReply p none)
  else if !x.ready then h.send (.cfgReply p none)
  else if write then
    let mask := cfgMaskOf off
    let stored := (alGet off x.cfg).getD (cfgResetOf off)
    let h := h.setPcie p fun x => { x with cfg := alPut off ((stored &&& ~~~ mask) ||| (v &&& mask)) x.cfg }
    (h.cfgAct p off v.toNat).send (.cfgReply p (some 0))
  else h.send (.cfgReply p (some (h.cfgWord p off)))

/-- CONFIG_REQUEST (R407): Request Retry Status until the Handler has marked the port ready, and in Watch and Deep, which it ends (R434). -/
def execConfigRequest (p : Port) (write : Bool) (off : Nat) (v : Word) (s : State) : Out :=
  .next (s.onHw (configRequest p write off v))

/-! ### The aperture (R409, R412) -/

/-- The device virtual address of byte `off` of BAR2. -/
def Hw.aperVa (h : Hw) (p : Port) (off : Nat) : Nat :=
  let size := 2 ^ (h.pcie p).bar2
  h.rd64 (portPage p) 0x044 / size * size + off

def apertureAccess (p : Port) (write : Bool) (off len : Nat) (bytes : List Byte) (ep : Bool) (h : Hw) : Hw :=
  let x := h.pcie p
  if !x.up then h
  else if 3 ≤ h.pow.state then
    let h := h.wakeBy (2 + portNo p)
    if write then h else h.send (.aperReply p none false)
  else if !x.memSpace || decide (2 ^ x.bar2 < off + (if write then bytes.length else len)) then
    if write then h else h.send (.aperReply p none false)
  else
    let va := h.aperVa p off
    let h := if write && ep then (h.count (portPage p) 0x06C).aerLog p 4 else h
    if 2 ^ 52 < va + (if write then bytes.length else len) then (if write then h else h.send (.aperReply p none false))
    else h.portTry (p, .mem (if write then .write va bytes ep else .read va len))

/-- APERTURE_ACCESS (R409): behind a write of its port that waits it waits, and so it does at a disabled slice; a write that meets a moving
page waits for its flip. -/
def execApertureAccess (p : Port) (write : Bool) (off len : Nat) (bytes : List Byte) (ep : Bool) (s : State) : Out :=
  .next (s.onHw (apertureAccess p write off len bytes ep))

/-! ### Completions of module reads (R412, R415) -/

/-- Delivers a read to its requester: the line, poisoned or not, or the end of the read before DONE (R116, R123); a run that is over
takes nothing. -/
def Hw.deliverRead (h : Hw) (r : OutRead) (bytes : List Byte) (bad : Bool) : Hw :=
  match r.who with
  | .dmaFlush n run port =>
    let c := h.ch n
    if c.run = run ∧ c.asking = some port then h.setCh n { c with flushed := c.flushed ++ [port], asking := none } else h
  | .dmaLine n run va =>
    let c := h.ch n
    if c.run ≠ run then h
    else h.setCh n { c with lines := c.lines.map fun l => if l.va == va && l.data.isNone then { l with data := some bytes, bad := bad } else l }

/-- Ends a read by an error: delivered poisoned, counted, source 4. -/
def Hw.badRead (h : Hw) (p : Port) (r : OutRead) (kind : Nat) : Hw :=
  let h := h.setPcie p fun x => { x with reads := x.reads.erase r }
  let h := (h.deliverRead r (freeBytes h.freeCtr r.len) true).draw
  ((h.aerLog p kind).count (portPage p) 0x064).raise (portPage p) 4

def completionReceived (p : Port) (tag : Nat) (good : Bool) (bytes : List Byte) (h : Hw) : Hw :=
  match (h.pcie p).reads.find? (·.tag = tag) with
  | none => h.tlpError p 2
  | some r =>
    if !good then h.badRead p r 5
    else
      let h := h.setPcie p fun x => { x with reads := x.reads.erase r }
      (h.deliverRead r ((bytes ++ List.replicate r.len 0).take r.len) false).count64 (portPage p) 0x054 r.len

/-- COMPLETION_RECEIVED (R412). -/
def execCompletionReceived (p : Port) (tag : Nat) (good : Bool) (bytes : List Byte) (s : State) : Out :=
  .next (s.onHw (completionReceived p tag good bytes))

def completionTimeout (p : Port) (tag : Nat) (h : Hw) : Hw :=
  match (h.pcie p).reads.find? (·.tag = tag) with
  | none => h
  | some r => h.badRead p r 6

/-- COMPLETION_TIMEOUT (R412). -/
def execCompletionTimeout (p : Port) (tag : Nat) (s : State) : Out := .next (s.onHw (completionTimeout p tag))

/-! ### MSI-X (R411) -/

def msixSend (p : Port) (vec : Fin 256) (h : Hw) : Hw :=
  let x := h.pcie p
  if !x.waiting.contains vec.val || !x.msixOn || !x.busMaster || !x.up then h
  else if x.msixFnMask || x.vecMask.getLsbD vec.val then h.setPcie p fun x => { x with vecPend := x.vecPend ||| (1#256 <<< vec.val) }
  else (h.setPcie p fun x => { x with waiting := x.waiting.erase vec.val, vecPend := x.vecPend &&& ~~~ (1#256 <<< vec.val) }).send
    (.msix p vec.val)

/-- MSIX_SEND (R411): a masked message sets its pending bit and is sent once the mask clears. -/
def execMsixSend (p : Port) (vec : Fin 256) (s : State) : Out := .next (s.onHw (msixSend p vec))

end Sys2Proof.Machine
end

