-- ==== Sys2Proof/Machine/Power.lean ====
section
/-! DEFINITION. Power states, wake sources, Watch sampling, the timer, DVFS, the power and thermal ceilings, droop, and the supply
sequencer (R429 to R452, R509, R514). -/

namespace Sys2Proof.Machine

def Hw.setPow (h : Hw) (f : Power → Power) : Hw := { h with pow := f h.pow }

/-! ### DVFS (R441) -/

/-- VDD_CD of a point in mV. -/
def pointMv (p : Nat) : Nat :=
  [550, 570, 590, 610, 630, 650, 680, 710, 740, 770, 800, 830, 860, 890, 920, 950].getD p 950

/-- The effective point that the request and the ceilings give; a droop is a ceiling of 4 (R443, R519; log entry 48). -/
def Hw.goal (h : Hw) (d : Nat) : Nat :=
  min (min (h.rd 0x002 (0x040 + 4 * d) % 16) h.pow.ceiling) (min (h.pow.thermal.getD d 15) (if h.pow.droop.isSome then 4 else 15))

def Hw.point (h : Hw) (d : Nat) : Nat := h.pow.points.getD d 0
def Hw.ramp (h : Hw) (d : Nat) : Option Ramp := h.pow.ramps.getD d none

/-- How long a ramp takes, at 10 mV per µs. -/
def Ramp.ns (r : Ramp) : Nat := (max r.fromMv (pointMv r.target) - min r.fromMv (pointMv r.target)) * 100
/-- The voltage of a ramp at time `t`. -/
def Ramp.mvAt (r : Ramp) (t : Nat) : Nat :=
  let moved := (t - r.start) / 100
  let goal := pointMv r.target
  if r.fromMv < goal then min goal (r.fromMv + moved) else max goal (r.fromMv - moved)

/-- Writes CDd_STAT and BIAS_STAT from what they report (R440, R452). -/
def Hw.noteDvfs (h : Hw) (d : Nat) : Hw :=
  let v := h.point d + 0x10 * h.pow.ceiling + 0x100 * h.pow.thermal.getD d 15 + (if (h.ramp d).isSome then 0x1000 else 0)
    + (if h.pow.state = 0 then 0 else 0x2000) + 0x10000 * (400 + 100 * h.point d)
  let bias := match h.pow.state with
    | 0 => if h.pow.points.any (13 ≤ ·) then 0 else 1
    | n => n
  (h.wr 0x002 (0x050 + 4 * d) v).wr 0x001 0x0C8 bias

/-- CCLK of a die moves to point `p`. -/
def Hw.setPoint (h : Hw) (d p : Nat) : Hw :=
  if h.point d = p then h else (h.setPow fun w => { w with points := listSet w.points d p }).count 0x002 0x068

/-- Makes for the effective point unless a ramp is under way: a rise ramps the voltage first, a fall switches CCLK first. -/
def Hw.retarget (h : Hw) (d : Nat) : Hw :=
  match h.ramp d with
  | some _ => h.noteDvfs d
  | none =>
    let p := h.point d
    let g := h.goal d
    if p = g then h.noteDvfs d
    else
      let h := h.setPow fun w => { w with ramps := listSet w.ramps d (some ⟨pointMv p, h.time, g⟩) }
      (if g < p then h.setPoint d g else h).noteDvfs d

/-- The same for every die. -/
def Hw.retargetAll (h : Hw) : Hw := forN 4 (fun d h => h.retarget d) h

def pointRequest (r : Req) (d : Fin 4) (v : Word) (h : Hw) : Hw :=
  h.guardWrite r 0x002 (0x040 + 4 * d.val) v.toNat fun h => (h.wr 0x002 (0x040 + 4 * d.val) (v.toNat % 16)).retarget d.val

/-- POINT_REQUEST (R441): a point written during a ramp takes effect at its end. -/
def execPointRequest (r : Req) (d : Fin 4) (v : Word) (s : State) : Out := .next (s.onHw (pointRequest r d v))

def rampDone (d : Fin 4) (h : Hw) : Hw :=
  match h.ramp d.val with
  | none => h
  | some r =>
    if h.time < r.start + r.ns then h
    else ((h.setPoint d.val r.target).setPow fun w => { w with ramps := listSet w.ramps d.val none }).retarget d.val

/-- RAMP_DONE (R441). -/
def execRampDone (d : Fin 4) (s : State) : Out := .next (s.onHw (rampDone d))

/-! ### The power ceiling (R442) -/

def inputPowerSample (watts : Nat) (h : Hw) : Hw :=
  let n := max 1 (h.rd 0x001 0x04C % 0x10000 / 10)
  let xs := (min watts 0xFFFF :: h.pow.samples).take n
  (h.setPow fun w => { w with samples := xs }).wr 0x001 0x050 (xs.sum / xs.length + 0x10000 * min watts 0xFFFF)

/-- INPUT_POWER_SAMPLE (R442). -/
def execInputPowerSample (watts : Nat) (s : State) : Out := .next (s.onHw (inputPowerSample watts))

/-- PLIMIT as it acts: 200 W to 850 W. -/
def Hw.plimit (h : Hw) : Nat := max 1600 (min 6800 (h.rd 0x001 0x048 % 0x10000))

def powerLimitStep (mean : Nat) (h : Hw) : Hw :=
  let step := h.rd 0x001 0x04C / 0x10000
  if h.time < h.pow.limitAt + 1000 * step then h
  else
    let top := ((List.range 4).map h.goal).foldl max 0
    let old := h.pow.ceiling
    let c := if h.plimit < mean then top - 1 else if 100 * mean < 97 * h.plimit then min 15 (old + 1) else old
    let h := (h.setPow fun w => { w with ceiling := c, limitAt := h.time }).retargetAll
    let h := if c < old then h.raise 0x001 2 else h
    let unmet := c == 0 && decide (h.plimit < h.rd 0x001 0x050 % 0x10000)
    let h := if unmet && !h.pow.limitUnmet then h.raise 0x001 1 else h
    h.setPow fun w => { w with limitUnmet := unmet }

/-- POWER_LIMIT_STEP (R442). -/
def execPowerLimitStep (mean : Nat) (s : State) : Out := .next (s.onHw (powerLimitStep mean))

/-! ### Supplies off (R443, R446 to R448, R514) -/

/-- The group of a rail (R448). -/
def railGroup (i : Nat) : Nat := if i < 2 then 1 else if i < 9 then 2 else 3

/-- Switches off every rail of group `g` and later: the module is held in reset, and PWRGD falls. -/
def Hw.powerOff (h : Hw) (g : Nat) : Hw :=
  let h := forN 13 (fun i h => if g ≤ railGroup i then h.setBit 0x001 (0x104 + 8 * i) 8 false else h) h
  h.setPow fun w => { w with off := true, pwrgd := false }

/-- Owes the lifetime image a count. -/
def Hw.oweLife (h : Hw) (o : Nat) : Hw := { h with life := { h.life with owed := h.life.owed ++ [o] } }

def railFault (i : Fin 13) (h : Hw) : Hw :=
  if h.pow.off then h
  else
    let h := ((h.setBit 0x001 (0x104 + 8 * i.val) 9 true).powerOff (railGroup i.val)).oweLife 0x030
    h.setPow fun w => { w with cause := if railGroup i.val = 1 then 1 else 6 }

/-- RAIL_FAULT (R448, R453). -/
def execRailFault (i : Fin 13) (s : State) : Out := .next { s with hw := railFault i s.hw }

/-- OFF_OK as the pin shows it (R515). -/
def Hw.offOkPin (h : Hw) : Bool := h.pow.offOk || decide (3 ≤ h.pow.state)

/-- UNDERVOLTAGE_LOCKOUT of an input: its groups and every later one go off until the inputs are reapplied. A removal without OFF_OK,
or in another order than VIN_CORE, VIN_IO, VIN_ANA, is owed to the next power-on (R447, R514; log entry 49). -/
def undervoltageLockout (i : Fin 3) (h : Hw) : Hw :=
  if !(h.pow.vin.getD i.val false) then h
  else
    let ordered := (h.pow.vin.drop (i.val + 1)).all (! ·)
    let bad := !h.offOkPin || !ordered
    let h := if h.pow.off then h else h.powerOff (i.val + 1)
    h.setPow fun w => { w with vin := listSet w.vin i.val false, cause := 1, locked := true, unorderedNext := w.unorderedNext || bad }

def execUndervoltageLockout (i : Fin 3) (s : State) : Out := .next { s with hw := undervoltageLockout i s.hw }

/-- SUPPLY_INPUT_VALID (R446): VIN_ANA starts a new sequence; an input that comes early latches seq_fault until VIN_ANA has been
removed and applied again. -/
def supplyInputValid (i : Fin 3) (h : Hw) : Hw :=
  let v (n : Nat) : Bool := h.pow.vin.getD n false
  if v i.val then h
  else
    let h := h.setPow fun w => { w with vin := listSet w.vin i.val true }
    if i.val = 0 then
      let e := if v 1 then 1 else if v 2 then 2 else 0
      let h := h.setPow fun w => { w with locked := false, early := e, anaAge := 0 }
      if e = 0 then h else h.oweLife 0x034
    else
      let bad := if i.val = 1 then !v 0 || decide (h.pow.anaAge < 10000000) else !v 1
      if bad ∧ h.pow.early = 0 then (h.setPow fun w => { w with early := i.val }).oweLife 0x034 else h

def execSupplyInputValid (i : Fin 3) (s : State) : Out := .next { s with hw := supplyInputValid i s.hw }

/-! ### The thermal ceiling and droop (R443, R517, R519) -/

/-- THERMAL_SAMPLE with the reading in 0.25 °C: throttling at 105 °C, release at 102 °C, shutdown at 125 °C. -/
def thermalSample (d : Fin 4) (temp : Int) (h : Hw) : Hw :=
  if 500 ≤ temp then
    ((h.powerOff 3).oweLife 0x03C).setPow fun w => { w with locked := true, cause := 1 }
  else
    let c := h.pow.thermal.getD d.val 15
    if h.time < h.pow.thermalAt.getD d.val 0 + 100000 then h
    else
      let c' := if 420 ≤ temp then c - 1 else if temp ≤ 408 then min 15 (c + 1) else c
      if c' = c then h
      else
        let h := h.setPow fun w => { w with thermal := listSet w.thermal d.val c', thermalAt := listSet w.thermalAt d.val h.time }
        let h := h.retarget d.val
        if c' < c then h.raise 0x001 2 else h

def execThermalSample (d : Fin 4) (temp : Int) (s : State) : Out := .next (s.onHw (thermalSample d temp))

/-- What a droop does to a die: CCLK falls to its point at once and the voltage follows; a ramp to a higher point is abandoned (R519). -/
def Hw.droopDie (h : Hw) (d : Nat) : Hw :=
  let g := h.goal d
  match h.ramp d with
  | none => h.retarget d
  | some r =>
    if r.target ≤ g then h
    else
      let mv := r.mvAt h.time
      let h := if h.point d < g ∧ mv < pointMv g then h else h.setPoint d g
      (h.setPow fun w => { w with ramps := listSet w.ramps d (if mv = pointMv g then none else some ⟨mv, h.time, g⟩) }).noteDvfs d

/-- DROOP: a VIN_CORE sample below 45.0 V (R443, R514). -/
def droop (mv : Nat) (h : Hw) : Hw :=
  let h := h.wr 0x001 0x0D8 (h.rd 0x001 0x0D8 / 0x10000 * 0x10000 + min mv 0xFFFF)
  if 45000 ≤ mv then h
  else
    let low := match h.pow.droop with
      | some (_, l) => min l mv
      | none => mv
    let h := if h.pow.droop = none then h.raise 0x001 3 else h
    let h := h.setPow fun w => { w with droop := some (h.time + 1000000, low) }
    forN 4 (fun d h => h.droopDie d) h

def execDroop (mv : Nat) (s : State) : Out := .next (s.onHw (droop mv))

/-- DROOP_HOLD_EXPIRY: 1 ms after the last low sample; the droop enters the histogram by its lowest sample (R443, R498). -/
def droopHoldExpiry (h : Hw) : Hw :=
  match h.pow.droop with
  | none => h
  | some (t, low) =>
    if h.time < t then h
    else
      let h := { h with life := h.life.bump (0x100 + 4 * min ((45000 - low) / 250) 15) }
      (h.setPow fun w => { w with droop := none }).retargetAll

def execDroopHoldExpiry (s : State) : Out := .next (s.onHw droopHoldExpiry)

/-- PLL_LOCK_LOST (R450): the spec gives the error no code (log entry 50). -/
def pllLockLost (i : Fin 27) (h : Hw) : Hw :=
  (((h.setBit 0x002 0x064 i.val false).err 0x002 (i.val % 16) (Config.freeNat h.freeCtr 0x10000 % 0x10000)).draw).raise 0x002 0

def execPllLockLost (i : Fin 27) (s : State) : Out := .next (s.onHw (pllLockLost i))

/-! ### Power states (R429 to R434) -/

/-- The target: the smallest vote, values above 4 counting as 4 (R430). -/
def Hw.target (h : Hw) : Nat :=
  ([0, 1, 2].map fun b => min 4 (h.rd 0x001 0x044 b % 8)).foldl min 4

/-- Whether a queue reads DISABLED or IDLE (R75). -/
def Hw.restful (h : Hw) (id : QId) : Bool :=
  let q := h.qs id
  let dry := q.cmds.isEmpty && q.owed.isEmpty && h.qIssue id == h.qTail id && h.qIssue id == h.qCommit id
  (q.st == .disabled && q.cmds.isEmpty) || (q.st == .running && dry)

/-- Whether a queue holds work. -/
def Hw.working (h : Hw) (id : QId) : Bool :=
  let q := h.qs id
  !q.cmds.isEmpty || ((q.st == .running || q.st == .faultHold) && h.qIssue id != h.qTail id)

/-- Whether anything R431 counts as work is under way now. -/
def Hw.busyNow (h : Hw) : Bool :=
  (h.queues.map (·.1)).any h.working
    || (List.range 32).any (fun n => let st := h.dmaSt n; decide (1 ≤ st ∧ st ≤ 4))
    || h.ports.any (fun l => !l.txq.isEmpty) || !h.pair.outbound.isEmpty || !h.pair.inbound.isEmpty
    || !h.gathers.isEmpty || !h.exch.isEmpty || !h.probes.isEmpty || h.srv.any (fun x => !x.2.subs.isEmpty || !x.2.fixes.isEmpty)
    || h.bist.busy || !h.portQ.isEmpty || !h.leashQ.isEmpty

/-- Whether a condition of R431, by its code, holds. -/
def Hw.powerCond (h : Hw) : Nat → Bool
  | 1 => !h.busyNow && decide (h.pow.lastWork + h.rd 0x001 0x054 * 5 / 6 ≤ h.time)
  | 2 => (h.queues.map (·.1)).all fun id => match id.eng with | .core _ => h.restful id && (h.qs id).owed.isEmpty | _ => true
  | 3 => ((h.queues.map (·.1)).all fun id => match id.eng with | .core _ => true | _ => h.restful id)
      && (List.range 32).all (fun n => let st := h.dmaSt n; st == 0 || decide (5 ≤ st))
      && h.mig.moves.isEmpty && h.mig.taken.isEmpty && (List.range 16).all (fun i => !h.pfOn i || (h.stream i).fault)
  | 4 => [h.pcieA, h.pcieB].all fun p => !p.up || p.dstate == 3
  | 5 => !h.pairOn || h.pair.state == psUNPAIRED || h.pair.state == psFULL || h.pair.state == psFENCED
  | _ => true

/-- The first condition that keeps the module from power state `n`, 0 for none (R431). -/
def Hw.blockedFor (h : Hw) (n : Nat) : Nat :=
  let conds := if n = 1 then [1] else if n = 2 then [1, 2] else [1, 2, 3, 4, 5]
  (conds.find? fun c => !h.powerCond c).getD 0

/-- PWR_STAT.blocked: what keeps the module from the next state toward the target (R430, R431). -/
def Hw.blocked (h : Hw) : Nat := if h.pow.state < h.target then h.blockedFor (h.pow.state + 1) else 0

/-- The largest entry time of a state in ns (R429). -/
def entryNs : Nat → Nat
  | 1 => 1000 | 2 => 50000 | 3 => 2000000 | _ => 3000000

/-- A Leash port goes down for Watch. -/
def Hw.portDown (h : Hw) (p : Nat) : Hw := h.setPort p fun _ => {}

/-- Enters power state `n`. -/
def Hw.enterState (h : Hw) (n : Nat) : Hw :=
  let h := h.trace { type := 8, engine := 0, arg0 := 1, arg1 := n }
  let h := if n = 3 then forN 4 (fun p h => h.portDown p) h else h
  let h := if n = 2 then h.setTclk true else h
  let h := h.setPow fun w => { w with state := n, entryEnd := h.time + entryNs n, latched := none, others := 0, lastWatch := h.time }
  (forN 4 (fun d h => h.noteDvfs d) h).raise 0x001 0

/-- POWER_STATE_ENTRY: one state toward the target, once its conditions hold (R430, R431). -/
def powerStateEntry (h : Hw) : Hw :=
  if h.time < h.pow.entryEnd ∨ h.target ≤ h.pow.state ∨ h.blocked ≠ 0 then h else h.enterState (h.pow.state + 1)

def execPowerStateEntry (s : State) : Out := .next (s.onHw powerStateEntry)

/-- The end of an entry replays the wake event that came during it (R437). -/
def Hw.replayWake (h : Hw) : Hw :=
  match h.pow.latched with
  | some c => if h.pow.entryEnd ≤ h.time then h.wakeNow c true else h
  | none => h

def vote (r : Req) (v : Word) (h : Hw) : Hw :=
  h.guardWrite r 0x001 0x044 v.toNat fun h =>
    let h := h.wr 0x001 0x044 (v.toNat % 8) (reqBank r)
    if h.target < h.pow.state then h.wakeBy 8 else h

/-- VOTE (R430). -/
def execVote (r : Req) (v : Word) (s : State) : Out := .next (s.onHw (vote r v))

/-- DEMAND_EXIT (R433): an access that no register write stands for, such as a walk. -/
def execDemandExit (s : State) : Out := .next (s.onHw fun h => h.wakeBy 7)

/-- WAKE (R435, R437). -/
def execWake (code : Fin 9) (s : State) : Out := .next (s.onHw fun h => h.wakeBy code.val)

/-- Whether the module answers an address on the management bus: its straps name no reserved one (R509). -/
def Power.answers (w : Power) : Bool := decide (8 ≤ w.mba ∧ w.mba < 0x78)

/-- MANAGEMENT_ADDRESS_MATCH (R436, R509): in Watch and Deep the address byte is not acknowledged and the wake starts. -/
def managementAddressMatch (addr : BitVec 7) (h : Hw) : Hw :=
  if h.pow.state < 3 ∨ addr.toNat ≠ h.pow.mba ∨ h.pow.answers = false then h else (h.send .smbNack).wakeBy 1

def execManagementAddressMatch (addr : BitVec 7) (s : State) : Out := .next (s.onHw (managementAddressMatch addr))

/-! ### Sampling (R438) and the timer (R439) -/

/-- Whether a sample of channel `c` lies outside its thresholds; temperatures are signed. -/
def Hw.crossed (h : Hw) (c : Nat) (x : BitVec 16) : Bool :=
  let t := h.rd 0x001 (0x060 + 4 * c)
  if c < 5 then decide (x.toInt < signedOf 16 (t % 0x10000) ∨ signedOf 16 (t / 0x10000) < x.toInt)
  else decide (x.toNat < t % 0x10000 ∨ t / 0x10000 < x.toNat)

/-- Whether a change of twin sideband presence is one that hb_wake selects. -/
def Hw.hbWakes (h : Hw) (now : Bool) : Bool :=
  h.pow.hb != now &&
    match bitsOf (h.rd 0x001 0x05C) 11 10 with
    | 1 => !now | 2 => now | 3 => true | _ => false

/-- Several wake events at once: the first wakes, the others count. -/
def Hw.wakeAll (h : Hw) (codes : List Nat) : Hw :=
  match codes.filter h.wakes with
  | [] => h
  | c :: cs => (h.setPow fun w => { w with others := min (w.others + cs.length) 255 }).exitBy c

/-- WATCH_PERIOD in ns of the 32.768 kHz clock. -/
def Hw.watchNs (h : Hw) : Nat := h.rd 0x001 0x058 % 0x1000000 * 1000000000 / 32768

def watchSample (samples : List (BitVec 16)) (h : Hw) : Hw :=
  if h.pow.state ≠ 3 ∨ h.time < h.pow.lastWatch + h.watchNs then h
  else
    let on := (List.range 9).filter fun c => h.bit 0x001 0x05C c
    let x (c : Nat) : BitVec 16 := samples.getD c 0
    let codes := on.flatMap fun c =>
      if c < 8 then (if h.crossed c (x c) then [6] else []) else if h.hbWakes (x 8 != 0) then [4] else []
    let h := on.foldl (fun h c => h.wr 0x001 (0x080 + 4 * c) (x c).toNat) h
    let h := h.setPow fun w => { w with lastWatch := h.time, hb := if on.contains 8 then x 8 != 0 else w.hb }
    h.wakeAll codes

/-- WATCH_SAMPLE (R438). -/
def execWatchSample (samples : List (BitVec 16)) (s : State) : Out :=
  if samples.length = 9 then .next (s.onHw (watchSample samples)) else .refused (.illFormed "WATCH_SAMPLE")

def thresholdCompare (samples : List (BitVec 16)) (h : Hw) : Hw :=
  if 3 ≤ h.pow.state then h
  else
    let x (c : Nat) : BitVec 16 := samples.getD c 0
    let h := forN 3 (fun i h => h.wr 0x001 (0x0D0 + 4 * i) (h.rd 0x001 (0x0D0 + 4 * i) / 0x10000 * 0x10000 + (x (5 + i)).toNat)) h
    let out := (List.range 8).filter fun c => h.bit 0x001 0x05C c && h.crossed c (x c)
    let new := out.filter fun c => !h.pow.excursion.contains c
    let h := h.setPow fun w => { w with excursion := out }
    new.foldl (fun h _ => h.edge 110) h

/-- THRESHOLD_COMPARE (R438): one edge of source 110 for each excursion of each channel. -/
def execThresholdCompare (samples : List (BitVec 16)) (s : State) : Out :=
  if samples.length = 8 then .next (s.onHw (thresholdCompare samples)) else .refused (.illFormed "THRESHOLD_COMPARE")

def heartbeatSidebandChange (present : Bool) (h : Hw) : Hw :=
  let w := h.hbWakes present && decide (h.pow.state = 2 ∨ h.pow.state = 4)
  let h := h.setPow fun w => { w with hb := present }
  if w then h.wakeBy 4 else h

/-- HEARTBEAT_SIDEBAND_CHANGE (R438): watched between samples in Hold and Deep. -/
def execHeartbeatSidebandChange (present : Bool) (s : State) : Out := .next (s.onHw (heartbeatSidebandChange present))

def timerMatch (h : Hw) : Hw :=
  if !h.bit 0x001 0x0BC 0 ∨ h.pow.timerFired ∨ h.time < h.rd64 0x001 0x0B4 then h
  else
    let h := h.setPow fun w => { w with timerFired := true }
    if h.pow.state = 0 then h.edge 109 else h.wakeBy 5

/-- TIMER_MATCH (R439): once for each TIMER written. -/
def execTimerMatch (s : State) : Out := .next (s.onHw timerMatch)

/-- What one tick adds to global time: 40 ns, and in Deep one cycle of 32.768 kHz, of which 37 in 64 last 1 ns longer (R439; log
entry 51). -/
def Hw.tickTime (h : Hw) : Hw :=
  if h.pow.state = 4 then
    let k := h.pow.deepTick
    { h with time := h.time + 30517 + (if k * 37 % 64 < 37 then 1 else 0), pow := { h.pow with deepTick := (k + 1) % 64 } }
  else h.advance

/-! ### Shutdown (R447, R515) -/

/-- OFF_OK: a write of SHDN_CTL with off_ok set. -/
def offOk (r : Req) (v : Word) (h : Hw) : Hw :=
  h.guardWrite r 0x001 0x0C4 v.toNat fun h => if bitOf v.toNat 0 then h.setPow fun w => { w with offOk := true } else h

def execOffOk (r : Req) (v : Word) (s : State) : Out := .next (s.onHw (offOk r (v ||| 1)))

/-- SHDN_REQ: the flag and source 4; the firmware, once it runs, writes the lifetime log. In Watch and Deep it wakes nothing. -/
def shdnReq (s : State) : State :=
  let h := s.hw.setPow fun w => { w with shdnReq := true }
  let h := h.raise 0x001 4
  if h.firmware then { s with hw := h }.lifeAppend 2 else { s with hw := h }

def execShdnReq (s : State) : Out := .next (s.whenUp shdnReq)

end Sys2Proof.Machine
end

