-- ==== Sys2Proof/Machine/Bist.lean ====
section
/-! DEFINITION. Built-in self-test and repair (R468 to R482). -/

namespace Sys2Proof.Machine

def Hw.setBist (h : Hw) (f : Bist → Bist) : Hw := { h with bist := f h.bist }

/-! ### Members (R468, R469) -/

/-- The members of a kind. -/
def bistMembers : Nat → Nat
  | 0 => 48 | 1 => 4 | 2 => 256 | _ => 1536
/-- The test power of a member in 1/8 W. -/
def bistPower : Nat → Nat
  | 0 => 112 | 1 => 96 | 2 => 20 | _ => 240
/-- The size of a large member in 16 MiB units, 0 for the others. -/
def bistSize : Nat → Nat
  | 2 => 1 | 3 => 64 | _ => 0
/-- The range of a large member: key and length. -/
def bistRange (kind index : Nat) : Nat × Nat :=
  if kind = 2 then (memKey 0 (index * 0x1000000), 0x1000000)
  else (memKey 1 (index / 384 * 0x6000000000 + index % 384 * 0x40000000), 0x40000000)
/-- Spare rows of an instance. -/
def bistSpares (kind inst : Nat) : Nat :=
  match kind with
  | 0 => if inst < 64 then 4 else if inst < 72 then 2 else 0
  | 1 => if inst < 9 then 2 else 0
  | 2 => if inst < 16 then 8 else 0
  | _ => 0
/-- The key under which an instance's used spares stand. -/
def spareKey (kind index inst : Nat) : Nat := (kind * 2048 + index) * 256 + inst
def Hw.sparesUsed (h : Hw) (kind index inst : Nat) : Nat := smGet 0 (spareKey kind index inst) h.bist.spares

/-! ### Isolation (R471, R472) -/

/-- Whether a base die's cores, DMA channels and stage units are out of service. -/
def Hw.dieQuiet (h : Hw) (q : Nat) : Bool :=
  (List.range 12).all (fun i => h.coreQuiet (12 * q + i))
    && (List.range 8).all (fun i => let st := h.dmaSt (8 * q + i); st == 0 || decide (5 ≤ st))
    && (h.queues.all fun x => engQuad x.1.eng != q || (x.2.st == .disabled && x.2.cmds.isEmpty && x.2.owed.isEmpty))

/-- Whether a member is isolated, or needs no isolation. -/
def Hw.isolated (h : Hw) (kind index : Nat) : Bool :=
  match kind with
  | 0 => decide (index < 48) && h.coreQuiet index
  | 1 => decide (index < 4) && h.dieQuiet index
  | _ => decide (index < bistMembers kind)

/-- Every memory instance of a core or base die is left zeroed (R472): of a base die the slice TLB and the buffers of its stage units, a
Retriever's codebooks among them (R469). -/
def Hw.reinit (h : Hw) (kind index : Nat) : Hw :=
  if kind = 0 then
    let p := corePage index
    let h := { h with mmu := { h.mmu with tlb := h.mmu.tlb.filter fun e => e.holder != 4 + index }, sfu := alDel index h.sfu,
                      landed := h.landed.filter fun l => l.core != index }
    ((h.wr p 0x44C 0).wr p 0x450 0).wr p 0x454 0
  else { h with mmu := { h.mmu with tlb := h.mmu.tlb.filter fun e => e.holder != index }, cbTag := alDel index h.cbTag }

/-! ### Runs (R470, R473, R481) -/

def Hw.bistPowerNow (h : Hw) : Nat := h.bist.running.length * bistPower h.bist.kind

/-- The result ring's records, and whether it is full (R474). -/
def Hw.resRoom (h : Hw) : Bool := decide (ptrSub (h.rd 0x007 0x070) (h.rd 0x007 0x06C) < 2 ^ h.rd 0x007 0x068)

/-- Ends the run once nothing of it is left. -/
def Hw.bistEnd (h : Hw) : Hw :=
  if h.bist.busy ∧ h.bist.left = 0 ∧ h.bist.running = [] ∧ h.bist.recs = [] then
    (h.setBist fun b => { b with busy := false }).raise 0x007 0
  else h

/-- Refuses a run, or the rest of it. -/
def Hw.bistRefuse (h : Hw) : Hw := ((h.setBist fun b => { b with refused := true, left := 0 }).raise 0x007 2).bistEnd

/-- The go bit of BIST_CTL. -/
def Hw.bistStart (h : Hw) (v : Nat) : Hw :=
  let h := h.wr 0x007 0x040 (v &&& 0x1C)
  let kind := bitsOf v 3 2
  let first := h.rd 0x007 0x044
  let n := h.rd 0x007 0x048
  let h := h.setBist fun b => { holds := b.holds, spares := b.spares, steered := b.steered, kind := kind, destructive := bitOf v 4, next := first }
  if h.rd 0x007 0x04C < bistPower kind ∨ bistMembers kind < first + n then h.bistRefuse
  else (h.setBist fun b => { b with busy := true, left := n }).worked.bistEnd

/-- A write of BIST_CTL: go while a run is in progress is discarded and counted; abort starts no later member. -/
def bistCtlWrite (r : Req) (v : Nat) (h : Hw) : Hw :=
  h.guardWrite r 0x007 0x040 v fun h =>
    if bitOf v 0 ∧ h.bist.busy then h.badAccess (pageOff 0x007 0x040)
    else
      let h := if bitOf v 0 then h.bistStart v else if h.bist.busy then h else h.wr 0x007 0x040 (v &&& 0x1C)
      if bitOf v 1 ∧ h.bist.busy then (h.setBist fun b => { b with left := 0, aborted := true }).bistEnd else h

/-- BIST_GO (R470). -/
def execBistGo (r : Req) (v : Word) (s : State) : Out := .next (s.onHw (bistCtlWrite r (v ||| 1).toNat))

/-- BIST_ABORT (R481). -/
def execBistAbort (r : Req) (v : Word) (s : State) : Out := .next (s.onHw (bistCtlWrite r ((v ||| 2) &&& 0xFFFFFFFE).toNat))

/-- The staging space: key of its first byte. -/
def Hw.stageKey (h : Hw) : Nat := memKey (h.rd 0x007 0x054 % 4) (bitsOf (h.rd64 0x007 0x054) 51 16 * 0x10000)

/-- The first free staging place of a member of `n` units, while the running members and it do not exceed the space (R470, R473). -/
def Hw.stagePlace (h : Hw) (n : Nat) : Option Nat :=
  let size := h.rd 0x007 0x05C
  if size < (h.bist.running.length + 1) * n then none
  else ((List.range (size + 1 - n)).map fun o => h.stageKey + o * 0x1000000).find? fun k => h.bist.running.all fun m =>
    match m.stage with
    | none => true
    | some p => decide (p + n * 0x1000000 ≤ k ∨ k + n * 0x1000000 ≤ p)

/-- Copies a range with its poison (R98, R473); nothing reaches a staging place beyond its tier (R81). -/
def Hw.bistCopy (h : Hw) (src dst n : Nat) : Hw :=
  let h := h.meet src n
  if !inTier dst n then h else
  let bad := h.poison.filter (unitMeets src n)
  let h := { h with
    mem := memCopy src dst n h.mem
    upsets := h.upsets.filter fun u => !unitMeets dst n u
    flips := h.flips.filter fun u => !unitMeets dst n u
    poison := h.poison.filter fun u => !unitMeets dst n u }
  bad.foldl (fun h u => h.poisonRange (u - src + dst) (poisonUnit u)) h

/-- Zeroes a range with valid check bits. -/
def Hw.zeroRange (h : Hw) (k n : Nat) : Hw :=
  { h with
    mem := h.mem.filter fun c => !decide (k ≤ c.1 ∧ c.1 < k + n)
    poison := h.poison.filter fun u => !unitMeets k n u
    upsets := h.upsets.filter fun u => !unitMeets k n u
    flips := h.flips.filter fun u => !unitMeets k n u }

/-- BIST_MEMBER_START: the next member starts once the power budget, its quadrant and the staging space allow it; one that cannot be
isolated ends the run (R470, R471, R473). The run needs the module in Run (R433, R473). -/
def bistMemberStart (h : Hw) : Hw :=
  let b := h.bist
  let size := bistSize b.kind
  if !h.enabled 0x007 ∨ b.left = 0 ∨ !h.resRoom ∨ h.rd 0x007 0x04C < h.bistPowerNow + bistPower b.kind
      ∨ (b.kind = 3 ∧ b.running.any (fun m => m.index / 384 == b.next / 384)) ∨ 3 ≤ h.pow.state then h
  else if h.pow.state ≠ 0 then h.demand
  else if !h.isolated b.kind b.next then h.bistRefuse
  else
    let go (stage : Option Nat) (h : Hw) : Hw :=
      h.setBist fun b => { b with next := b.next + 1, left := b.left - 1, running := b.running ++ [⟨b.next, stage⟩],
                                  holds := if size = 0 then b.holds else b.holds ++ [bistRange b.kind b.next] }
    if size = 0 ∨ b.destructive then go none h
    else
      match h.stagePlace size with
      | none => h
      | some k =>
        let x := bistRange b.kind b.next
        go (some k) (h.bistCopy x.1 k x.2)

def execBistMemberStart (s : State) : Out := .next (s.onHw bistMemberStart)

/-- Whether a failing row has a repair (R474): a spare row left, or a column to bypass. Whether an LPDDR6 device has a spare row is not
known to the module's state (log entry 53). -/
def Hw.repairable (h : Hw) (kind index i : Nat) (f : FailRow) : Bool :=
  if f.logic then false
  else if kind = 3 then (Config.freeByte h.freeCtr i).getLsbD 0
  else if kind = 0 ∧ 80 ≤ f.inst.toNat ∧ f.inst.toNat < 84 then
    let o := 0x318 + 8 * (f.inst.toNat - 80)
    decide (popcount (h.rd (corePage index) o) + popcount (h.rd (corePage index) (o + 4)) < 8)
  else decide (h.sparesUsed kind index f.inst.toNat < bistSpares kind f.inst.toNat)

/-- The first 12 bytes of a failure record (R474). -/
def Hw.failBytes (h : Hw) (kind index i : Nat) (f : FailRow) : List Byte :=
  leBytes 4 (kind + 0x10 * index + 0x10000 * f.inst.toNat + (if f.logic then 0x1000000 else 0)
      + (if h.repairable kind index i f then 0x2000000 else 0))
    ++ leBytes 4 (if f.logic then 0 else f.address.toNat)
    ++ leBytes 4 (if f.logic then 0 else f.bit.toNat + (if f.more then 0x10000 else 0))

/-- A range whose bytes are open. -/
def Hw.openKeys (h : Hw) (k n : Nat) : Hw :=
  { h with mem := (List.range n).foldl (fun m i => smSet 0 (k + i) (Config.freeByte h.freeCtr i) m) h.mem }.draw

/-- What a saved member restores (R473): its range, where a byte that no longer agrees with its saved copy is a free value, since
only a runtime that maps the staging space, or an access that waited, makes them differ (log entry 52). Without a copy its lines are
poisoned (R481); with one that overlaps a range under test both are open. -/
def Hw.restore (h : Hw) (k stage n : Nat) : Hw :=
  if !inTier stage n then h.poisonRange k n
  else if h.bist.holds.any fun x => decide (x.1 < stage + n ∧ stage < x.1 + x.2) then (h.openKeys k n).openKeys stage n
  else
  let diff := (h.mem.filterMap fun c =>
      if k ≤ c.1 ∧ c.1 < k + n ∧ h.byte (c.1 - k + stage) ≠ c.2 then some c.1
      else if stage ≤ c.1 ∧ c.1 < stage + n ∧ h.byte (c.1 - stage + k) ≠ c.2 then some (c.1 - stage + k) else none)
  if diff = [] then h
  else { h with mem := diff.foldl (fun m a => smSet 0 a (Config.freeByte h.freeCtr (a - k)) m) h.mem }.draw

/-- A failure of the base-die logic of BD0 at start-up leaves every port unready (R479). -/
def Hw.noBoot (h : Hw) : Hw :=
  { h.wr 0x003 0x048 (h.rd 0x003 0x048 % 0x100 + 0x3100) with
    pcieA := { h.pcieA with ready := false }, pcieB := { h.pcieB with ready := false } }

/-- BIST_MEMBER_END: the `i`th running member ends with the rows its test found failing (R472 to R474). -/
def bistMemberEnd (i : Nat) (fails : List FailRow) (h : Hw) : Hw :=
  match h.bist.running[i]? with
  | none => h
  | some m =>
    let b := h.bist
    let x := bistRange b.kind m.index
    let recs := fails.mapIdx (h.failBytes b.kind m.index)
    let h := h.draw
    let h := if b.kind = 1 ∧ m.index = 0 ∧ h.rd 0x003 0x048 % 16 = 1 ∧ (fails.any fun f => f.inst == 16) = true then h.noBoot else h
    let h :=
      if bistSize b.kind = 0 then h.reinit b.kind m.index
      else
        let h := match m.stage with
          | none => h.zeroRange x.1 x.2
          | some k => h.restore x.1 k x.2
        h.setBist fun b => { b with holds := b.holds.erase x }
    (h.setBist fun b => { b with running := listDrop b.running i, done := min (b.done + 1) 4095, recs := b.recs ++ recs }).bistEnd

def execBistMemberEnd (i : Nat) (fails : List FailRow) (s : State) : Out := .next (s.onHw (bistMemberEnd i fails))

/-- BIST_RECORD_WRITE (R474): the oldest record enters the ring when there is room. -/
def bistRecordWrite (h : Hw) : Hw :=
  match h.bist.recs with
  | [] => h
  | x :: rest =>
    if !h.resRoom then h
    else
      let t := h.rd 0x007 0x070
      let h := h.storeTier (h.tierBase 0x007 0x060 4 + 16 * (t % 2 ^ h.rd 0x007 0x068)) (x ++ leBytes 4 (h.time % 0x100000000))
      let h := ((h.wr 0x007 0x070 ((t + 1) % 0x100000000)).count 0x007 0x074).raise 0x007 1
      (h.setBist fun b => { b with recs := rest }).bistEnd

def execBistRecordWrite (s : State) : Out := .next (s.onHw bistRecordWrite)

/-! ### Repair (R475 to R478) -/

/-- How applying an entry went. -/
inductive Repaired where
  | done | noSpare | refused
  deriving DecidableEq, Repr

/-- Lists a retired frame, by the Handler (R478), and whether it could be written; none while the write waits. -/
def Hw.retire (h : Hw) (a : Nat) : Option (Hw × Bool) :=
  let n := h.rd 0x007 0x09C
  (h.handlerWrite (bitsOf (h.rd64 0x007 0x094) 51 3 * 8 + 8 * n) (leBytes 8 a)).map fun x =>
    if x.2 then (x.1.wr 0x007 0x09C ((n + 1) % 0x100000000), true) else x

/-- Applies the 16 bytes of a repair entry (R476); an entry of type 5 acts in step 5 of the boot flow only (R478, R480), where the device has
a spare row, which the module's state does not know (log entry 53). -/
def Hw.applyRepair (h : Hw) (e : List Byte) : Hw × Repaired :=
  let w := bnum e 0 4
  let kind := bitsOf w 7 4
  let index := bitsOf w 18 8
  let inst := bitsOf w 26 19
  let unit := bnum e 4 4
  let addr := bnum e 8 8
  let free := h.isolated kind index
  match bitsOf w 3 0 with
  | 1 =>
    if !free then (h, .refused)
    else if bistSpares kind inst ≤ h.sparesUsed kind index inst then (h, .noSpare)
    else
      let k := spareKey kind index inst
      let h := h.setBist fun b => { b with spares := smSet 0 k (h.sparesUsed kind index inst + 1) b.spares, steered := b.steered ++ [(k, addr)] }
      (h.count 0x007 0x090, .done)
  | 2 =>
    if !free ∨ kind ≠ 0 ∨ inst < 80 ∨ 84 ≤ inst ∨ 64 ≤ addr then (h, .refused)
    else
      let p := corePage index
      let o := 0x318 + 8 * (inst - 80) + (if addr < 32 then 0 else 4)
      (((h.wr p o (h.rd p o ||| 2 ^ (addr % 32))).arrFollow index), .done)
  | 3 =>
    if !free ∨ kind ≠ 0 ∨ inst < 80 ∨ 84 ≤ inst then (h, .refused)
    else ((h.wr (corePage index) 0x310 (h.rd (corePage index) 0x310 ||| 2 ^ (inst - 80))).arrFollow index, .done)
  | 4 =>
    let ok := match blockOf unit with
      | some (.core, _) | some (.dma, _) | some (.lpc, _) | some (.spl, _) | some (.rtv, _) | some (.emb, _) | some (.pck, _)
      | some (.muz, _) | some (.srv, _) => true
      | _ => false
    if !free ∨ !ok then (h, .refused)
    else
      ({ h with fused := if h.fused.contains unit then h.fused else unit :: h.fused }, .done)
  | 5 =>
    if !free ∨ kind ≠ 3 ∨ h.rd 0x003 0x048 % 16 ≠ 1 then (h, .refused)
    else (h.draw, if (Config.freeByte h.freeCtr 0).getLsbD 0 then .done else .noSpare)
  | 6 =>
    match h.retire addr with
    | none => ({ h with retires := h.retires ++ [addr] }, .done)
    | some (g, true) => (g, .done)
    | some (g, false) => (g, .refused)
  | _ => (h, .refused)

/-- The lifetime row that counts a repair of a type (R498). -/
def repairLife : Nat → Nat
  | 1 => 0x040 | 2 => 0x044 | 6 => 0x048 | 5 => 0x04C | _ => 0x050

def repairApply (r : Req) (h : Hw) : Hw :=
  h.guardWrite r 0x007 0x078 1 fun h =>
    if r ≠ .handler then h.badAccess (pageOff 0x007 0x078)
    else
      let e := (List.range 4).flatMap fun i => leBytes 4 (h.rd 0x007 (0x080 + 4 * i))
      match h.applyRepair e with
      | (h, .done) =>
        let t := bitsOf (bnum e 0 4) 3 0
        let l := h.life.bump 0x050
        { h with life := if repairLife t = 0x050 then l else l.bump (repairLife t) }.wr 0x007 0x07C 0
      | (h, .noSpare) => h.wr 0x007 0x07C 1
      | (h, .refused) => h.wr 0x007 0x07C 2

/-- REPAIR_APPLY (R475, R476): a write of RPR_CTL with apply set, the Handler's only. -/
def execRepairApply (r : Req) (_v : Word) (s : State) : Out := .next (s.onHw (repairApply r))

end Sys2Proof.Machine
end

