-- ==== Sys2Proof/Machine/Commands.lean ====
section
/-! DEFINITION. Commands, queues, commit and kill (R50 to R79): the issue conditions and checks, the system opcodes, the landing
areas, Hitch, the queue registers that act. -/

namespace Sys2Proof.Machine

/-! ### What a core opcode needs (R59, R67, R68, R144) -/

/-- The units of a core a command occupies, as a mask: the arrays in bits 3 to 0, the matrix-vector path 4, special functions 5,
selection 6, conversion 7; system opcodes none. -/
def coreUnits (d : BitVec 512) : Nat :=
  match dOpcode d with
  | 0x10 => (matmulOp d).members
  | 0x40 => 16
  | 0x60 | 0x61 | 0x62 | 0x63 | 0x64 | 0x65 => 32
  | 0x80 | 0x81 | 0x82 => 64
  | 0x90 | 0x91 => 128
  | _ => 0

/-- The scratchpad bytes of a command's result slot (R144, R146, R153, R180, R196, R217, R224); none for OPT_UPDATE, for which no
size is stated (log entry 57). -/
def coreRoom (d : BitVec 512) : Nat :=
  match dOpcode d with
  | 0x10 => let o := matmulOp d; 4 * o.m * o.nOut
  | 0x40 => 4 * (matvecOp d).nOut
  | 0x60 => 4 * (mapOp d).n
  | 0x61 => let o := mapOp d; 4 * o.rows * o.n
  | 0x62 => let o := softOp d; 4 * o.rows * o.n + (if o.mode = 1 then 8 * o.rows else 0)
  | 0x63 => 4 * (mergeParts d * mergeRows d)
  | 0x64 => let o := normOp d; 4 * o.rows * o.len
  | 0x65 => 16 + 16 * bitsOf (dword d 3) 15 0
  | 0x80 => selectBytes false (selectOp false d)
  | 0x82 => selectBytes true (selectOp true d)
  | 0x81 => let o := selMergeOp d; o.rows * (16 + 8 * o.kOut)
  | 0x90 => 4 * (convertOp d).n
  | _ => 0

/-- The bytes that a later command may read from the slot (R52, R54). -/
def coreResult (d : BitVec 512) : Nat :=
  match dOpcode d with
  | 0x10 => let o := matmulOp d; elemBytes o.dst (o.m * o.nOut)
  | 0x40 => let o := matvecOp d; elemBytes o.dst o.nOut
  | 0x60 => let o := mapOp d; elemBytes o.dst o.n
  | 0x61 => let o := mapOp d; elemBytes o.dst (o.rows * o.n)
  | 0x62 => (softOp d).dstBytes
  | 0x64 => let o := normOp d; elemBytes o.dst (o.rows * o.len)
  | 0x90 => (convertOp d).dstBytes
  | 0x91 => let o := optOp d; elemBytes o.param (o.rows * o.len)
  | _ => coreRoom d

/-- Whether a command uses the context (R67). -/
def usesCtx (e : Eng) (d : BitVec 512) : Bool :=
  match e, dOpcode d with
  | .core _, 0x10 => (matmulOp d).rescale || (matmulOp d).conv
  | .core _, 0x40 => (matvecOp d).rescale
  | .core _, 0x60 | .core _, 0x61 => decide (16 ≤ (mapOp d).func)
  | .core _, 0x65 => bitOf (dword d 0) 4
  | .stage _ .muz, 0x10 => true
  | _, _ => false

/-! ### The checks (R52 to R54, R59, R68) -/

/-- Check 3 for a core: the opcode and its formats; the op_words of NOP, CTX_LOAD and GROUP_END are not looked at (log entry 83). -/
def Hw.coreFormat (h : Hw) (n : Nat) (d : BitVec 512) : Bool :=
  match dOpcode d with
  | 0x00 | 0x02 | 0x04 | 0x05 | 0x06 => true
  | 0x01 => (addrForm (dSrc d)).isVa
  | 0x03 => let c := bitsOf (dword d 0) 5 0; decide (c < 48) && h.present (corePage c)
  | 0x07 => dword d 0 % 8 == 0 && (match addrForm (dSrc d) with | .landing _ => false | _ => true)
  | 0x10 => matmulFormat h n d
  | 0x40 => matvecFormat d
  | 0x60 => mapFormat false d
  | 0x61 => mapFormat true d
  | 0x62 => softFormat d
  | 0x63 => statsFormat d
  | 0x64 => normFormat d
  | 0x65 => checkFormat d
  | 0x80 => selectFormat false h d
  | 0x81 => selMergeFormat h d
  | 0x82 => selectFormat true h d
  | 0x90 => convertFormat d
  | 0x91 => optFormat d
  | _ => false

/-- Check 4 for a core: the address forms, then slots, groups and spans. -/
def Hw.coreForms (h : Hw) (id : QId) (ptr : Word) (d : BitVec 512) : Nat :=
  let s := addrForm (dSrc d)
  let t := addrForm (dDst d)
  let peer := match t with | .peer _ _ => true | _ => false
  let badSrc := match s with | .bad => true | .peer _ _ => true | _ => false
  let badDst := match t with | .bad => true | .slot _ => true | .landing _ => true | _ => false
  let noSlot := match s with
    | .slot dist => (match (h.qs id).cmds.find? (fun x => x.ptr = ptr - BitVec.ofNat 32 dist) with | some p => p.skipped | none => true)
    | _ => false
  let land := match s with | .landing _ => true | _ => false
  if badSrc || badDst || (peer && dDstLen d % 8 != 0) then cFORMAT
  else if noSlot || ((peer || land) && dGroup d == 0) || (dOpcode d == 0x07 && (!peer || dGroup d == 0)) then cSLOT
  else match spanOf (h.qs id).cmds with
    | some k => if dGroup d ≠ 0 ∧ (dGroup d, dStep d) ≠ k then cSLOT else 0
    | none => 0

/-- Check 6 for a core. -/
def Hw.coreLength (h : Hw) (id : QId) (ptr : Word) (ctx : List Byte) (d : BitVec 512) : Bool :=
  (match addrForm (dSrc d) with
    | .va a => decide (a + dSrcLen d ≤ 2 ^ 52)
    | .landing o => decide (o + dSrcLen d ≤ 262144)
    | .slot dist => (h.qs id).cmds.any fun x => x.ptr = ptr - BitVec.ofNat 32 dist && decide (dSrcLen d ≤ coreResult x.desc)
    | _ => true)
  && (match addrForm (dDst d) with
    | .va a => decide (a + dDstLen d ≤ 2 ^ 52)
    | .peer _ o => decide (o + dDstLen d ≤ 262144)
    | _ => true)
  && (match dOpcode d with
    | 0x01 => decide (64 ≤ dSrcLen d)
    | 0x04 => decide (4 ≤ dSrcLen d)
    | 0x07 => decide (dword d 0 + dDstLen d ≤ dSrcLen d)
    | 0x10 => matmulLength h ctx d
    | 0x40 => matvecLength h ctx d
    | 0x60 => mapLength false h d
    | 0x61 => mapLength true h d
    | 0x62 => softLength h d
    | 0x63 => statsLength h d
    | 0x64 => normLength h d
    | 0x65 => checkLength h d
    | 0x80 => selectLength false h d
    | 0x81 => selMergeLength h d
    | 0x82 => selectLength true h d
    | 0x90 => convertLength h d
    | 0x91 => optLength d
    | _ => true)

/-- The semaphore core a Splice, Retriever, Packer or serving command names for sig_sem, whatever its opcode (R244, R324, R336,
R372; log entry 57); an embedding or Muzzle command of opcode 0x00, 0x01 or 0x06 names none. -/
def plainSigCore (u : StageUnit) (d : BitVec 512) : Option Nat :=
  match u with
  | .spl => some (spliceOp d).sigCore
  | .rtv => some (rtvOp d).sigCore
  | .pck => some (pckOp d).sigCore
  | .srv => some (sSigCore d)
  | .emb | .muz => none

/-- Checks 3 and 4 for a stage unit: its opcodes, its header fields, and device virtual addresses only. -/
def Hw.stageFormat (h : Hw) (quad : Nat) (u : StageUnit) (d : BitVec 512) : Bool :=
  let op := dOpcode d
  let plain := match u with
    | .muz => muzPlain d
    | .emb => embPlain d
    | .pck => stagePlain d && !dMirror d
    | .srv => stagePlain d && dSrcLen d == 0 && dDstLen d == 0
    | _ => stagePlain d
  let named := match plainSigCore u d with | some c => !dSigEn d || decide (c < 48) | none => true
  (addrForm (dSrc d)).isVa && (addrForm (dDst d)).isVa && plain &&
    (if op == 0x00 || op == 0x06 then named
     else match u with
      | .spl => (op == 0x10 || op == 0x11) && spliceFormat h d
      | .muz => op == 0x01 || (op == 0x10 && muzFormat d)
      | .emb => decide (0x10 ≤ op ∧ op ≤ 0x14) && embFormat h d
      | .rtv => decide (0x10 ≤ op ∧ op ≤ 0x15) && rtvFormat h d
      | .pck => (op == 0x10 || op == 0x11) && pckFormat d
      | .srv => decide (0x10 ≤ op ∧ op ≤ 0x14) && srvFormat h quad d)

/-- Check 6 for a stage unit. -/
def Hw.stageLength (h : Hw) (u : StageUnit) (d : BitVec 512) : Bool :=
  decide (dSrc d + dSrcLen d ≤ 2 ^ 52) && decide (dDst d + dDstLen d ≤ 2 ^ 52) &&
    (if dOpcode d < 0x10 then dOpcode d != 0x01 || decide (64 ≤ dSrcLen d)
     else match u with
      | .spl => spliceLength d
      | .muz => muzLength d
      | .emb => embLength h d
      | .rtv => rtvLength h d
      | .pck => pckLength d
      | .srv => srvLength d)

/-- The submitting requester of slot `p` (R48): that of the accepted TAIL write that first covered it. -/
def Hw.submitterOf (h : Hw) (id : QId) (p : Nat) : Submitter :=
  match (h.qs id).subs.find? (fun x => let n := ptrSub x.1.toNat p; decide (0 < n ∧ n < 0x80000000)) with
  | some x => x.2
  | none => .handler

/-- Check 1 (R47, R48). -/
def Hw.submitterOk (h : Hw) : Submitter → Bool
  | .portA => h.agreed .portA
  | .portB => h.agreed .portB
  | .handler | .serving => true

/-! ### The head of a queue (R59, R61, R62, R66) -/

/-- The command at ISSUE as the Shepherd sees it: its descriptor, whether its slot or the reloaded context was read with an error, the
context and grammar that stand when it issues, the context a CTX_LOAD brings, and whether its predicate skips it. -/
structure Head where
  id : QId
  desc : BitVec 512
  blind : Bool
  ctxBad : Bool
  ctx : List Byte
  grammar : List Byte
  next : List Byte
  skip : Bool

/-- Conditions 1 and 2, and a head to issue; a Muzzle queue's killed entries are rewritten first (R268, R360). -/
def Hw.queueOpen (h : Hw) (id : QId) : Bool :=
  let p := engPage id.eng
  let q := h.qs id
  h.present p && h.enabled p && !h.resetting.contains p && !h.stepHeld.contains p && h.pow.state == 0 && h.qEnable id
    && decide (q.st = .running) && q.rejected.isNone && q.deferred.isEmpty && h.qIssue id != h.qTail id
    && !h.srv.any (fun x => x.2.fixes.any (·.1 = id))
    && decide (h.uncommitted id < bitsOf (h.qrd id 0x18) 8 0)

/-- A context block with, for a Muzzle, its grammar header (R66, R250). -/
def Hw.ctxRead (h : Hw) (id : QId) (va : Nat) : Except RdErr (List Byte × List Byte) :=
  if va = 0 then .ok ([], [])
  else match h.read (queueMaster id) va 64 with
    | .error e => .error e
    | .ok c =>
      match id.eng with
      | .stage _ .muz =>
        if ctxMuzzle c = 0 then .ok (c, [])
        else match h.read (queueMaster id) (ctxMuzzle c) 64 with
          | .error e => .error e
          | .ok g => .ok (c, if h.grammarOk id g then g else [])
      | _ => .ok (c, [])

/-- Whether the predicate of a descriptor skips it on its core (R61). -/
def Hw.predSkips (h : Hw) (id : QId) (d : BitVec 512) : Bool :=
  match id.eng with
  | .core n => dPredEn d && (h.pred n.val (dPredIndex d) == dPredInv d)
  | .stage _ _ => false

/-- Reads what the head needs, or gives what stops it with the descriptor it concerns. A slot that reads with an error shows no fields:
its contents are a free value (log entry 56). -/
def Hw.headOf (h : Hw) (id : QId) : Except (RdErr × BitVec 512) Head := do
  let q := h.qs id
  let (c, g, bad) ←
    if q.reload then
      match h.ctxRead id (h.qCtx id) with
      | .ok (c, g) => .ok (c, g, false)
      | .error (.ecc _ _) => .ok ([], [], true)
      | .error e => .error (e, 0)
    else .ok (q.ctx, q.grammar, false)
  match h.read (queueMaster id) (h.slotVa id (h.qIssue id)) 64 with
  | .error (.ecc _ _) => .ok ⟨id, descOf (freeBytes h.freeCtr 64), true, bad, c, g, c, false⟩
  | .error e => .error (e, 0)
  | .ok bs =>
    let d := descOf bs
    let skip := h.predSkips id d
    match id.eng with
    | .stage _ _ => .ok ⟨id, d, false, bad, c, g, c, skip⟩
    | .core _ =>
      if dOpcode d = 0x01 ∧ skip = false ∧ (addrForm (dSrc d)).isVa = true then
        match h.read (queueMaster id) (dSrc d) 64 with
        | .ok n => .ok ⟨id, d, false, bad, c, g, n, skip⟩
        | .error (.ecc _ _) => .ok ⟨id, d, false, bad, c, g, [], skip⟩
        | .error e => .error (e, d)
      else .ok ⟨id, d, false, bad, c, g, c, skip⟩

/-- Whether a queue has no context for a command at its head (R67): none has been loaded, or that of a Muzzle queue names no grammar and
no CTX_LOAD is still to execute (R250). -/
def Hw.lacksCtx (h : Hw) (x : Head) : Bool :=
  (h.qCtx x.id == 0 && !(h.qs x.id).ctxSince) ||
    (match x.id.eng with
     | .stage _ .muz => ctxMuzzle x.ctx == 0 && !((h.qs x.id).cmds.any fun c => dOpcode c.desc == 0x01 && !c.finished)
     | _ => false)

/-- What the checks of a head give (R59): 0 for none that fails. A command that its predicate skips is checked too (log entry 82). -/
def Hw.headCheck (h : Hw) (x : Head) : Nat :=
  let d := x.desc
  let ptr := BitVec.ofNat 32 (h.qIssue x.id)
  if x.blind || x.ctxBad then cECC
  else if !h.submitterOk (h.submitterOf x.id (h.qIssue x.id)) then cABI
  else if dFormat d != 1 then cFORMAT
  else match x.id.eng with
    | .core n =>
      if !h.coreFormat n.val d then cFORMAT
      else
        let f := h.coreForms x.id ptr d
        if f ≠ 0 then f
        else if usesCtx x.id.eng d && h.lacksCtx x then cCONTEXT
        else if h.coreLength x.id ptr x.ctx d then 0 else cLENGTH
    | .stage quad u =>
      if !h.stageFormat quad.val u d then cFORMAT
      else if usesCtx x.id.eng d && h.lacksCtx x then cCONTEXT
      else if h.stageLength u d then 0 else cLENGTH

/-- Scratchpad bytes held by the issued commands of a core (R144). -/
def Hw.roomUsed (h : Hw) (n : Nat) : Nat :=
  ((List.range 8).map fun q => ((h.qs ⟨coreEng n, q⟩).cmds.map fun c => if c.skipped then 0 else coreRoom c.desc).sum).sum

/-- Units of a core that run a command of which `f` holds, as a mask. -/
def Hw.unitsWhere (h : Hw) (n : Nat) (f : Cmd → Bool) : Nat :=
  (List.range 8).foldl (fun m q => (h.qs ⟨coreEng n, q⟩).cmds.foldl (fun m c =>
    if c.skipped || c.finished || !f c then m else m ||| coreUnits c.desc) m) 0

/-- Units of a core that run a command, as a mask. -/
def Hw.unitsBusy (h : Hw) (n : Nat) : Nat := h.unitsWhere n fun _ => true

/-- Conditions 3 to 5, with no regard to the unit. -/
def Hw.headFit (h : Hw) (x : Head) : Bool :=
  x.blind || (match x.id.eng with
    | .stage _ _ => true
    | .core n =>
      (!dFence x.desc || h.qIssue x.id == h.qCommit x.id) && (!dWaitEn x.desc || h.sem n.val (dWaitSem x.desc) != 0)
        && (x.skip || decide (h.slotLimit < coreRoom x.desc) || decide (h.roomUsed n.val + coreRoom x.desc ≤ h.slotLimit)))

/-- Condition 6. -/
def Hw.unitFree (h : Hw) (x : Head) : Bool :=
  x.blind || x.skip || (match x.id.eng with
    | .stage _ _ => true
    | .core n => coreUnits x.desc &&& h.unitsBusy n.val == 0)

/-- The slot or handle for which a stage unit's head waits at issue, and the counter of its page that counts the wait, if one does
(R282, R289, R317, R370). -/
def Hw.headWaits (h : Hw) (x : Head) : Option (Nat × Option Nat) :=
  match x.id.eng with
  | .core _ => none
  | .stage _ u =>
    if dOpcode x.desc < 0x10 ∨ h.headCheck x ≠ 0 then none
    else match u with
      | .emb => if embWaits h x.desc then some ((embOp x.desc).table, some 0x054)
                else if h.moveHeld x.id then some ((embOp x.desc).table, none) else none
      | .rtv => if rtvWaits h x.desc then some ((rtvOp x.desc).slot, if rtvPinWait h x.desc then some 0x078 else none) else none
      | .srv => if srvWaits h x.desc then some (sHandle x.desc, some 0x0BC) else none
      | _ => none

/-- Cycles of CCLK that `ns` nanoseconds hold on the die of a core, at its present point of 400 + 100 p MHz (R441). -/
def Hw.cclk (h : Hw) (n ns : Nat) : Nat := ns * (4 + h.pow.points.getD (n / 12) 0) / 10

/-- The effective level of a head (R62). -/
def Hw.headLevel (h : Hw) (x : Head) : Nat :=
  let p := dPriority x.desc
  match x.id.eng with
  | .stage _ _ => p
  | .core n =>
    let age := h.rd (corePage n.val) 0x080 % 0x10000
    if age = 0 then p
    else max (min p 1) (p - h.cclk n.val (h.time - (h.qs x.id).headSince) / (age * 1024))

/-- The queue granted last on an engine at a level. -/
def Hw.lastGranted (h : Hw) (e : Eng) (lvl : Nat) : Nat :=
  match h.granted.find? (fun g => g.1 = e ∧ g.2.1 = lvl) with
  | some g => g.2.2
  | none => engQueues e - 1

/-- The heads of an engine's queues that can be read, by queue. -/
def Hw.heads (h : Hw) (e : Eng) : List Head :=
  (List.range (engQueues e)).filterMap fun q =>
    if h.queueOpen ⟨e, q⟩ then (match h.headOf ⟨e, q⟩ with | .ok x => some x | .error _ => none) else none

/-- The first queue of an engine whose head meets a fault on its way: cause, level, address, and the descriptor it concerns. -/
def Hw.headFault (h : Hw) (e : Eng) : Option (QId × Nat × Nat × Nat × BitVec 512) :=
  (List.range (engQueues e)).findSome? fun q =>
    if h.queueOpen ⟨e, q⟩ then
      (match h.headOf ⟨e, q⟩ with | .error (.fault c l va, d) => some (⟨e, q⟩, c, l, va, d) | _ => none)
    else none

/-- Arbitration (R62): the lowest level, and round robin within it. -/
def Hw.arbitrate (h : Hw) (e : Eng) (xs : List Head) : Option Head :=
  match (xs.map h.headLevel).min? with
  | none => none
  | some lvl =>
    let last := h.lastGranted e lvl
    let k := engQueues e
    let same := xs.filter fun x => h.headLevel x == lvl
    (List.range k).findSome? fun i => same.find? fun x => x.id.q == (last + 1 + i) % k

/-! ### Issue -/

/-- A queue that issues becomes the one granted last at its level, and a page in step mode holds again (R62, R489). -/
def Hw.noteGrant (h : Hw) (x : Head) : Hw :=
  let e := x.id.eng
  let lvl := h.headLevel x
  let p := engPage e
  { h with
    granted := (e, lvl, x.id.q) :: h.granted.filter fun g => !(g.1 == e && g.2.1 == lvl)
    stepHeld := if h.bit p 0x008 2 && !h.stepHeld.contains p then h.stepHeld ++ [p] else h.stepHeld }

/-- A break on a command that matches the DBG filter (R490; log entry 58). -/
def Hw.breakAt (h : Hw) (id : QId) (d : BitVec 512) : Hw :=
  let p := engPage id.eng
  if h.bit 0x009 0x008 0 && h.bit 0x009 0x064 1 && h.filterMatch 0x009 0x104 (engTrace id.eng) (dJob d) (dLayer d) (dOper d) then
    let h := ((h.setBit 0x009 0x064 1 false).setBit p 0x008 2 true).count 0x009 0x068
    let h := { h with stepHeld := if h.stepHeld.contains p then h.stepHeld else h.stepHeld ++ [p] }
    h.raise 0x009 0
  else h

/-- What a stage unit's command carries from its issue. -/
def Hw.startWork (h : Hw) (id : QId) (d : BitVec 512) : Work :=
  if dOpcode d < 0x10 then .none
  else match id.eng with
    | .stage _ .emb => embStart h d
    | .stage _ .rtv => rtvStart h d
    | _ => .none

/-- The references a command takes as it issues: a fresh Splice command that of the active bank of its slot (R233). -/
def Hw.startPins (h : Hw) (id : QId) (d : BitVec 512) : List (Nat × Nat) :=
  match id.eng with
  | .stage _ .spl => if 0x10 ≤ dOpcode d ∧ (spliceOp d).fresh = true then [((spliceOp d).slot, h.vocBank (spliceOp d).slot)] else []
  | _ => []

/-- The arguments of an ISSUE record (R492). -/
def issueArg (d : BitVec 512) : Nat :=
  dOpcode d + dPriority d * 2 ^ 8 + (if dSpec d then 2 ^ 10 else 0) + dStep d * 2 ^ 11 + dGroup d * 2 ^ 13 + dTenant d * 2 ^ 21

/-- The command as issued. -/
def Hw.newCmd (h : Hw) (x : Head) : Cmd :=
  let d := x.desc
  let wait := match x.id.eng with | .core n => if dWaitEn d then [(n.val, dWaitSem d)] else [] | .stage _ _ => []
  let seed := match x.id.eng with | .core n => BitVec.ofNat 64 (h.rd64 (corePage n.val) 0x400) | .stage _ _ => 0
  { ptr := BitVec.ofNat 32 (h.qIssue x.id), desc := d, sub := h.submitterOf x.id (h.qIssue x.id), lvl := h.headLevel x,
    seed := seed, ctx := x.ctx, rerun := (h.qs x.id).killed.contains (BitVec.ofNat 32 (h.qIssue x.id)), skipped := x.skip, finished := x.skip,
    takes := wait, issuedAt := h.time, code := 0, result := [], writes := [], predMask := 0, predVal := 0, hitchCounts := [],
    signals := [], pins := if x.skip then [] else h.startPins x.id d, todo := none,
    tree := match x.id.eng with | .core n => h.bit (corePage n.val) 0x308 0 | .stage _ _ => false
    work := if x.skip then .none else h.startWork x.id d }

/-- Whether a speculative command issues after its step has been confirmed, and so keeps that (R64, R264). -/
def Hw.keepsConfirm (h : Hw) (id : QId) (d : BitVec 512) : Bool :=
  (match id.eng with | .stage _ .muz | .stage _ .emb => true | _ => false) && dSpec d && h.confirmed (dGroup d) (dStep d)

/-- Issues a head, or rejects it (R59 to R61). -/
def Hw.issueHead (h : Hw) (x : Head) : Hw :=
  let id := x.id
  let m := queueMaster id
  let ptr := h.qIssue id
  let code := h.headCheck x
  let h := h.noteGrant x
  let h := if (h.qs id).reload ∧ h.qCtx id ≠ 0 then h.touch m (h.qCtx id) 64 else h
  let h := h.touch m (h.slotVa id ptr) 64
  let h := if x.blind then h.draw else h
  if code ≠ 0 then
    (h.setQs id { h.qs id with ctx := x.ctx, grammar := x.grammar, reload := x.ctxBad }).reject id (BitVec.ofNat 32 ptr) code x.desc
  else
    let c := h.newCmd x
    let h := c.takes.foldl (fun h t => h.semTake t.1 t.2) h
    let loads := decide (dOpcode x.desc = 0x01) && !x.skip
    let keep := if h.keepsConfirm id x.desc then [(c.ptr, dGroup x.desc, dStep x.desc)] else []
    let serial := match c.work with | .emb _ => h.tblSerial + 1 | _ => h.tblSerial
    let h := { h with tblSerial := serial }
    let q := h.qs id
    let h := h.setQs id { q with
      cmds := q.cmds ++ [c], ctx := x.next, grammar := x.grammar, reload := false, held := none, moveHold := none
      ctxAddr := if loads then dSrc x.desc else q.ctxAddr, ctxSince := q.ctxSince || loads
      confirmed := q.confirmed ++ keep, headSince := h.time }
    let h := h.qwr id 0x10 (ptr + 1)
    let h := match id.eng with | .core n => h.sfuIssue n.val (Fin.ofNat 8 id.q) c x.next | .stage _ _ => h
    let h := h.trace (cmdTrace id 1 x.desc ptr (issueArg x.desc))
    let h := if dOpcode x.desc = 0x06 ∧ x.skip = false then h.trace (cmdTrace id 6 x.desc (dword x.desc 0) 0) else h
    h.breakAt id x.desc

/-- Counts the waits at issue that have not been counted (R282, R317, R370). -/
def Hw.noteHolds (h : Hw) (xs : List Head) : Hw :=
  xs.foldl (fun h x =>
    match h.headWaits x with
    | some (k, some o) => if (h.qs x.id).held = some k then h
                          else (h.count (engPage x.id.eng) o).setQs x.id { h.qs x.id with held := some k }
    | _ => h) h

/-- A descriptor or context read that faults (R89): a core's queue is killed, a stage unit is held. The record names the descriptor `d`
of the command, all zero where its slot has not been read (R90; log entry 75). -/
def Hw.failHead (h : Hw) (id : QId) (cause level va : Nat) (d : BitVec 512) : Hw :=
  match id.eng with
  | .core _ => h.killFault id cause level va false d
  | .stage _ _ => h.holdFault id (BitVec.ofNat 32 (h.qIssue id)) cause level va false d

/-- Whether an engine has queue `q` (R57, R243). -/
def hasQueue (e : Eng) (q : Nat) : Bool := decide (q < engQueues e)

/-- What a command about queue `q` of an engine answers: a stage unit has four queues. -/
def onQueue (mn : String) (e : Eng) (q : Fin 8) (s : State) (f : QId → Hw → Hw) : Out :=
  if hasQueue e q.val then .next (s.onHw (f ⟨e, q.val⟩)) else .refused (.illFormed mn)

/-- One issue of an engine (R59, R62). -/
def commandIssue (e : Eng) (h : Hw) : Hw :=
  match h.headFault e with
  | some (id, c, l, va, d) => h.failHead id c l va d
  | none =>
    let xs := h.heads e
    let h := h.noteHolds xs
    match h.arbitrate e (xs.filter fun x => h.headFit x && h.unitFree x && (h.headWaits x).isNone) with
    | none => h
    | some x => (h.issueHead x).worked

/-- COMMAND_ISSUE (R59). -/
def execCommandIssue (e : Eng) (s : State) : Out := .next (s.onHw (commandIssue e))

/-- REJECTED_COMMAND_HALT (R60). -/
def rejectedCommandHalt (id : QId) (h : Hw) : Hw := if h.rejectDue id then h.rejectHalt id else h

def execRejectedCommandHalt (e : Eng) (q : Fin 8) (s : State) : Out := onQueue "REJECTED_COMMAND_HALT" e q s rejectedCommandHalt

/-- The queues whose running commands occupy a unit of the mask, when each may be pre-empted for level `lvl` (R63). -/
def Hw.preemptible (h : Hw) (n : Nat) (own : QId) (mask lvl : Nat) : Option (List QId) :=
  let all := (List.range 8).flatMap fun q => let id : QId := ⟨coreEng n, q⟩
    ((h.qs id).cmds.filter fun c => !c.skipped && !c.finished && coreUnits c.desc &&& mask != 0).map fun c => (id, c)
  if all.all fun x => x.1 != own && decide (lvl < x.2.lvl) && bitOf (h.qrd x.1 0x18) 9 && dGroup x.2.desc == 0
  then some ((all.map (·.1)).eraseDups) else none

/-- The queues that give way to a waiting head, none where it waits for another reason (R63). -/
def Hw.givesWay (h : Hw) (n : Nat) (x : Head) : Option (List QId) :=
  if h.headFit x && !h.unitFree x then h.preemptible n x.id (coreUnits x.desc) (h.headLevel x) else none

def autoPreempt (n : Fin 48) (h : Hw) : Hw :=
  let e : Eng := .core n
  if !h.bit (corePage n.val) 0x040 0 then h
  else
    match h.arbitrate e ((h.heads e).filter fun x => (h.givesWay n.val x).isSome) with
    | none => h
    | some x =>
      let h' := ((h.givesWay n.val x).getD []).foldl (fun h id => h.kill id .preempt) h
      if h'.qIssue x.id = h.qIssue x.id then h'.issueHead x else h'

/-- AUTO_PREEMPT (R63): the waiting command is granted the freed unit, unless the kill took its queue back too. -/
def execAutoPreempt (n : Fin 48) (s : State) : Out := .next (s.onHw (autoPreempt n))

/-- The run of commands of a queue that reach Hitch together (R64, R522): the head alone, or the set it begins up to its GROUP_END; none
while that has not issued. -/
def hitchRun (cmds : List Cmd) : Option (List Cmd) :=
  match cmds with
  | [] => none
  | c :: _ =>
    if dGroup c.desc = 0 then some [c]
    else
      let ends (x : Cmd) : Bool := dOpcode x.desc == 0x05 && !x.skipped && dGroup x.desc == dGroup c.desc && dStep x.desc == dStep c.desc
      match cmds.findIdx? ends with
      | some i => some (cmds.take (i + 1))
      | none => none

def groupOverflow (n : Fin 48) (q : Fin 8) (h : Hw) : Hw :=
  let id : QId := ⟨.core n, q.val⟩
  let w := bitsOf (h.qrd id 0x18) 8 0
  let x := h.qs id
  match x.cmds with
  | [] => h
  | c :: _ =>
    if x.st ≠ .running ∨ x.rejected.isSome ∨ w = 0 ∨ h.uncommitted id < w ∨ (hitchRun x.cmds).isSome then h
    else (h.reject id c.ptr cGROUP_OVERFLOW c.desc).rejectHalt id

/-- GROUP_OVERFLOW (R65). -/
def execGroupOverflow (n : Fin 48) (q : Fin 8) (s : State) : Out := .next (s.onHw (groupOverflow n q))

/-! ### The system opcodes (R66, R68) -/

/-- A stage unit's command of opcode 0x00 or 0x06 signals at its commit step (log entry 57). -/
def plainDone (e : Eng) (c : Cmd) : Done :=
  match e with
  | .core _ => {}
  | .stage _ u => { signals := match plainSigCore u c.desc with
      | some n => if dSigEn c.desc then [(n, dSigSem c.desc, 1)] else []
      | none => [] }

/-- An opcode whose execution does nothing. -/
def plainExec (op : Nat) (id : QId) (h : Hw) : Hw :=
  match id.eng with
  | .core _ => h.execCore id op fun _ c => .ok (plainDone id.eng c)
  | .stage _ _ => h.execStage id op fun _ c => .ok (plainDone id.eng c)

/-- NOP (R68). -/
def execNop (e : Eng) (q : Fin 8) (s : State) : Out := onQueue "NOP" e q s (plainExec 0x00)

/-- TRACE_MARK (R68): its records are emitted at issue and at Hitch. -/
def execTraceMark (e : Eng) (q : Fin 8) (s : State) : Out := onQueue "TRACE_MARK" e q s (plainExec 0x06)

/-- A root that has not been measured since M3 was last zeroed is to be measured (R464). -/
def Hw.noteRoot (h : Hw) (root : Nat) : Hw :=
  if root = 0 ∨ root ∈ h.measured then h
  else { h with measures := h.measures ++ [.grammar root], measured := h.measured ++ [root] }

/-- Loads a context block, and on a Muzzle the grammar header it names (R66, R250). -/
def ctxLoadRun (id : QId) (h : Hw) (c : Cmd) : Rx Done := do
  let b ← rxRead h (queueMaster id) (dSrc c.desc) 64
  match id.eng with
  | .stage _ .muz =>
    if ctxMuzzle b = 0 then pure { result := b }
    else
      let g ← rxRead h (queueMaster id) (ctxMuzzle b) 64
      rxCheck (h.grammarOk id g) cFORMAT
      pure { result := b ++ g }
  | _ => pure { result := b }

def ctxLoad (id : QId) (h : Hw) : Hw :=
  match (match id.eng with | .core _ => (h.running id 0x01).head? | .stage _ _ => h.stageHead id 0x01) with
  | none => h
  | some c =>
    match rxRun (ctxLoadRun id h c) with
    | .error e => h.failCmd id c e
    | .ok r =>
      let b := r.result
      let h := h.finishCmd id c { r with result := [] }
      let h := h.noteRoot (ctxMuzzle (b.take 64))
      match id.eng with
      | .core _ => h
      | .stage _ _ => h.setQs id { h.qs id with ctx := b.take 64, grammar := b.drop 64 }

/-- CTX_LOAD (R66): a core's later commands have taken the context at their issue. -/
def execCtxLoad (e : Eng) (q : Fin 8) (s : State) : Out := onQueue "CTX_LOAD" e q s ctxLoad

/-- SET_PRED (R68). -/
def execSetPred (n : Fin 48) (q : Fin 8) (s : State) : Out :=
  .next (s.onHw fun h => h.execCore ⟨.core n, q.val⟩ 0x02 fun _ c => .ok
    { predMask := BitVec.ofNat 64 (dword c.desc 0 + dword c.desc 1 * 0x100000000)
      predVal := BitVec.ofNat 64 (dword c.desc 2 + dword c.desc 3 * 0x100000000) })

/-- SIGNAL (R68). -/
def execSignal (n : Fin 48) (q : Fin 8) (s : State) : Out :=
  .next (s.onHw fun h => h.execCore ⟨.core n, q.val⟩ 0x03 fun _ c => .ok
    { signals := [(bitsOf (dword c.desc 0) 5 0, bitsOf (dword c.desc 0) 11 8, bitsOf (dword c.desc 1) 15 0)] })

/-- One read of a WAIT_MEM: it goes on waiting unless the masked word matches. -/
def waitMemRun (id : QId) (h : Hw) (c : Cmd) : Ex Done :=
  match h.source id c 0 4 with
  | .error e => .error e
  | .ok bs => if leNat bs &&& dword c.desc 0 = dword c.desc 1 then .ok { touched := srcTouch c.desc 4 } else .error .notYet

/-- WAIT_MEM (R68): the oldest one of the queue whose word matches, or whose read fails, ends. -/
def execWaitMem (n : Fin 48) (q : Fin 8) (s : State) : Out :=
  .next (s.onHw fun h => h.execCore ⟨.core n, q.val⟩ 0x04 (waitMemRun ⟨.core n, q.val⟩))

/-- Whether a WAIT_MEM has waited as long as it may. -/
def Hw.waitOver (h : Hw) (n : Nat) (c : Cmd) : Bool :=
  dword c.desc 2 != 0 && decide (dword c.desc 2 * 1024 ≤ h.cclk n (h.time - c.issuedAt))

def waitTimeout (n : Fin 48) (q : Fin 8) (h : Hw) : Hw :=
  let id : QId := ⟨.core n, q.val⟩
  match (h.running id 0x04).find? (h.waitOver n.val) with
  | none => h
  | some c => h.reject id c.ptr cWAIT_TIMEOUT c.desc

/-- WAIT_TIMEOUT (R68). -/
def execWaitTimeout (n : Fin 48) (q : Fin 8) (s : State) : Out := .next (s.onHw (waitTimeout n q))

/-- GROUP_END (R64). -/
def execGroupEnd (n : Fin 48) (q : Fin 8) (s : State) : Out :=
  .next (s.onHw fun h => h.execCore ⟨.core n, q.val⟩ 0x05 fun _ _ => .ok {})

/-- PEER_SEND (R68). -/
def execPeerSend (n : Fin 48) (q : Fin 8) (s : State) : Out :=
  .next (s.onHw fun h => h.execCore ⟨.core n, q.val⟩ 0x07 fun h c =>
    match h.source ⟨.core n, q.val⟩ c (dword c.desc 0) (dDstLen c.desc) with
    | .error e => .error e
    | .ok bs => .ok { result := bs, touched := srcTouch c.desc (dword c.desc 0 + dDstLen c.desc) })

/-! ### Landing areas (R53) -/

/-- Whether two landings share a granule. -/
def Landing.meets (a b : Landing) : Bool := a.core == b.core && decide (a.off < b.off + b.bytes.length ∧ b.off < a.off + a.bytes.length)

/-- A landing whose granules under another's are open: the `ctr`th free value. -/
def Landing.opened (ctr : Nat) (a b : Landing) : Landing :=
  { a with bytes := (List.range a.bytes.length).map fun i =>
      if decide (b.off ≤ (a.off + i) / 8 * 8 ∧ (a.off + i) / 8 * 8 < b.off + b.bytes.length) then Config.freeByte ctr (a.off + i)
      else a.bytes.getD i 0 }

/-- Granules arrive: those that another landing has filled have two writers, and their contents are open. -/
def landingArrival (n : Fin 48) (h : Hw) : Hw :=
  match h.landing.find? (fun l => l.core = n.val) with
  | none => h
  | some l =>
    let clash := h.landed.filter l.meets
    let new := clash.foldl (fun a b => Landing.opened h.freeCtr a b) l
    let h := { h with
      landing := h.landing.erase l
      landed := (h.landed.map fun a => if l.meets a then Landing.opened h.freeCtr a l else a) ++ [new] }
    if clash = [] then h else h.draw

/-- LANDING_ARRIVAL (R53). -/
def execLandingArrival (n : Fin 48) (s : State) : Out := .next (s.onHw (landingArrival n))

/-! ### Hitch (R64, R70, R522) -/

/-- The core queues whose head is a member of a set. -/
def Hw.setQueues (h : Hw) (k : Nat × Nat) : List QId := (h.queues.map (·.1)).filter fun id => (h.setsOf id).contains k

/-- The run of each queue that takes part in the Hitch of a queue's head, when the set is ready (R64, R70 steps 1 and 2): every member
is finished and stands first in its queue, every core of the group's bitmap has executed its GROUP_END, and a speculative set is
confirmed. -/
def Hw.hitchReady (h : Hw) (id : QId) : Option (List (QId × List Cmd)) :=
  match (h.qs id).cmds with
  | [] => none
  | c :: _ =>
    let k := (dGroup c.desc, dStep c.desc)
    let qs := if k.1 = 0 then [id] else h.setQueues k
    let runs := qs.map fun q => (q, ((hitchRun (h.qs q).cmds).getD []))
    let good (x : QId × List Cmd) : Bool :=
      !x.2.isEmpty && decide ((h.qs x.1).st ≠ .faultHold) && x.2.all (fun c => c.finished && h.beforeReject x.1 c) &&
        (x.2.head?.any fun c => decide (c.ptr.toNat = h.qCommit x.1) && decide ((dGroup c.desc, dStep c.desc) = k))
    let cores := (h.group k.1).cores
    let ended := k.1 == 0 || (List.range 48).all fun n => !cores.getLsbD n || runs.any fun x => x.1.eng == coreEng n
    let spec := runs.any fun x => x.2.any fun c => decide (dGroup c.desc = k.1) && dSpec c.desc
    if runs.all good && ended && (k.1 == 0 || !spec || h.confirmed k.1 k.2) then some runs else none

/-- The ring half of the gate for a run: an entry for every record due (R70 step 2, R77). -/
def Hw.runRing (h : Hw) (x : QId × List Cmd) : Bool :=
  decide (h.owedRecords x.1 + (x.2.filter fun c => h.recordDue x.1 c).length ≤ h.cqFree x.1) && !h.lateOwed x.1

/-- The packets a run sends, by size, but for those too large for the log (R383). -/
def Hw.runPackets (h : Hw) (x : QId × List Cmd) : List Nat :=
  ((x.2.filter h.forwards).map fun c => packetBytes (h.packetWrites x.1 c (h.recordDue x.1 c) (leBytes 16 0))).filter
    fun n => decide (n ≤ h.logBytes)

/-- The credit half: a credit for every packet of the set (R383). -/
def Hw.runCredit (h : Hw) (runs : List (QId × List Cmd)) : Bool :=
  let ns := runs.flatMap h.runPackets
  ns.isEmpty || (decide ((h.pair.outbound.filter fun o => o.queue.isSome).length + ns.length ≤ 256) && decide (ns.sum ≤ h.pair.logRoom))

/-- What a destination range meets in the lock phase (R70 step 3, R102): nothing, or why it cannot be locked. A write through a remote
window takes no lock. -/
def Hw.lockGran (h : Hw) (m : Master) : Nat → Nat → Nat → Option RdErr
  | 0, _, _ => none
  | fuel + 1, va, n =>
    if n = 0 then none
    else
      let c := min n (granuleLeft va)
      if h.fenced va then some (.fault fMoving (match h.leafOf m va with | .ok lf => lf.level | .error _ => 3) va)
      else match h.locate m va true with
        | .error e => some e
        | .ok _ => h.lockGran m fuel (va + c) (n - c)

def Hw.lock (h : Hw) (id : QId) (w : Nat × List Byte) : Option RdErr :=
  if (h.windowOf w.1).isSome then none else h.lockGran (queueMaster id) (w.2.length / 0x10000 + 2) w.1 w.2.length

/-- The first command of the runs that cannot lock its destination. -/
def Hw.lockFail (h : Hw) (runs : List (QId × List Cmd)) : Option (QId × Cmd × RdErr) :=
  runs.findSome? fun x => x.2.findSome? fun c => (c.writes.findSome? (h.lock x.1)).map fun e => (x.1, c, e)

/-- The semaphores a core command's Hitch increments (R68, R69). -/
def coreSignals (id : QId) (c : Cmd) : List (Nat × Nat × Nat) :=
  match id.eng with
  | .core n => c.signals ++ (if dSigEn c.desc then [(n.val, dSigSem c.desc, 1)] else [])
  | .stage _ _ => c.signals

/-- Steps 5 and 6 of one command: its writes, predicates and context, and the end of its commit. -/
def Hw.hitchOne (h : Hw) (id : QId) (c : Cmd) : Hw :=
  let m := queueMaster id
  let h := c.writes.foldl (fun h w => (h.lookups m w.1 w.2.length).write m w.1 w.2) h
  let h := match id.eng with | .core n => h.setPreds n.val c.predMask c.predVal | .stage _ _ => h
  let h := if dOpcode c.desc = 0x01 ∧ c.skipped = false then (h.qwr id 0x24 (dSrc c.desc)).qwr id 0x28 (dSrc c.desc / 0x100000000) else h
  h.commitEnd id c (coreSignals id c)

/-- The granules of a set are cleared (R53). -/
def Hw.clearLanding (h : Hw) (k : Nat × Nat) : Hw :=
  { h with landed := h.landed.filter fun l => (l.group, l.step) ≠ k, landing := h.landing.filter fun l => (l.group, l.step) ≠ k }

/-- Runs the commands of a queue whose Hitch has begun, up to one whose predecessor owes a record only for a saturation (R69). -/
def Hw.goOn (id : QId) : Nat → Hw → Hw
  | 0, h => h
  | fuel + 1, h =>
    match (h.qs id).cmds with
    | [] => h
    | c :: _ => if c.going && !h.lateOwed id then Hw.goOn id fuel (h.hitchOne id c) else h

/-- The queues that hold members of a set whose Hitch has begun. -/
def Hw.goingIn (h : Hw) (k : Nat × Nat) : List QId :=
  (h.queues.map (·.1)).filter fun id => (h.qs id).cmds.any fun c => c.going && decide ((dGroup c.desc, dStep c.desc) = k)

/-- Steps 5 and 6 of a set, on all its queues: once all has committed, its landing granules are cleared and the serving block hears. -/
def Hw.setGoesOn (h : Hw) (k : Nat × Nat) : Hw :=
  let h := (h.goingIn k).foldl (fun h id => Hw.goOn id (h.qs id).cmds.length h) h
  if h.goingIn k = [] then (h.clearLanding k).stepCommitted k.1 k.2 else h

/-- Step 4: the commands of the runs go. -/
def Hw.releaseRuns (h : Hw) (runs : List (QId × List Cmd)) : Hw :=
  runs.foldl (fun h x => x.2.foldl (fun h c => h.updCmd x.1 c.ptr fun c => { c with going := true }) h) h

/-- The set whose Hitch has begun and holds the head of a queue: its members end with the set's GROUP_END. -/
def Hw.goingSet (h : Hw) (id : QId) : Option (Nat × Nat) :=
  ((h.qs id).cmds.filter (·.going)).getLast?.map fun c => (dGroup c.desc, dStep c.desc)

/-- Steps 2 to 6 of the runs that reach Hitch together (R70). -/
def Hw.hitchRuns (h : Hw) (id : QId) (runs : List (QId × List Cmd)) : Hw :=
  if !runs.all h.runRing then h
  else if !h.runCredit runs then h.noteWait id
  else match h.lockFail runs with
    | some (f, c, .fault cause level va) => h.killFault f cause level va true c.desc
    | some _ => h
    | none =>
      match (h.qs id).cmds with
      | [] => h
      | c :: _ => if dGroup c.desc = 0 then h.hitchOne id c else (h.releaseRuns runs).setGoesOn (dGroup c.desc, dStep c.desc)

def hitch (n : Fin 48) (q : Fin 8) (h : Hw) : Hw :=
  let id : QId := ⟨.core n, q.val⟩
  match h.goingSet id with
  | some k => h.setGoesOn k
  | none =>
    match h.hitchReady id with
    | none => h
    | some runs => h.hitchRuns id runs

/-- HITCH (R70): a command, or the whole set it belongs to. -/
def execHitch (n : Fin 48) (q : Fin 8) (s : State) : Out := .next (s.onHw (hitch n q))

/-- COMPLETION_RECORD_WRITE (R69, R70 step 6). -/
def completionRecordWrite (id : QId) (h : Hw) : Hw := Hw.flushOwed id ((h.qs id).owed.length + 1) h

def execCompletionRecordWrite (e : Eng) (q : Fin 8) (s : State) : Out := onQueue "COMPLETION_RECORD_WRITE" e q s completionRecordWrite

/-! ### Commit steps of stage units (R246) -/

/-- What a system opcode of a stage unit does at its commit step: CTX_LOAD commits the context (R66). -/
def plainCommitEff (id : QId) (c : Cmd) (h : Hw) : Hw :=
  if dOpcode c.desc = 0x01 then (h.qwr id 0x24 (dSrc c.desc)).qwr id 0x28 (dSrc c.desc / 0x100000000) else h

def stageCommitStep (d : Nat) (u : StageUnit) (q : Nat) (h : Hw) : Hw :=
  let id : QId := ⟨stageEng d u, q⟩
  match h.stageCommitHead id with
  | none => h
  | some c =>
    if dOpcode c.desc < 0x10 then if h.waitsConfirm id c then h else h.stageCommit id (plainCommitEff id)
    else match u with
      | .spl => h.stageCommit id spliceCommit
      | .muz => muzCommit id h
      | .emb => embCommit id h
      | .rtv => rtvCommit id h
      | .pck => h.stageCommit id fun _ h => h
      | .srv => srvCommit id h

/-- STAGE_COMMIT_STEP (R246). -/
def execStageCommitStep (d : Fin 4) (u : StageUnit) (q : Fin 4) (s : State) : Out := .next (s.onHw (stageCommitStep d.val u q.val))

/-! ### Kill and control (R72 to R77) -/

/-- A kill of any cause (R72), and the state step 8 leaves: FAULT_HOLD, with its master held, PAUSED, or as it was. -/
def killRow (id : QId) (cause : KillCause) (h : Hw) : Hw :=
  let h := h.killOrDefer id cause
  if cause = .fault then
    let m := queueMaster id
    let h := h.enterSt id .faultHold
    if h.isHeld m then h else { h with mmu := { h.mmu with held := h.mmu.held ++ [Held.mk m.slice m.kind m.id []] } }
  else h

/-- KILL (R72). -/
def execKill (e : Eng) (q : Fin 8) (cause : KillCause) (s : State) : Out :=
  if (killCauses e).contains cause then onQueue "KILL" e q s fun id => killRow id cause else .refused (.illFormed "KILL")

def queueTailWrite (r : Req) (id : QId) (v : Word) (h : Hw) : Hw :=
  h.guardWrite r (engPage id.eng) (qOff id 0x0C) v.toNat fun h =>
    let n := ptrSub v.toNat (h.qCommit id)
    if h.uncommitted id ≤ n ∧ n ≤ h.qEntries id then
      h.tailTo id (match r with | .portA => .portA | .portB => .portB | .handler => .handler) v.toNat
    else h.err (engPage id.eng) id.q cOVERRUN

/-- QUEUE_TAIL_WRITE (R57). -/
def execQueueTailWrite (r : Req) (e : Eng) (q : Fin 8) (v : Word) (s : State) : Out :=
  onQueue "QUEUE_TAIL_WRITE" e q s fun id => queueTailWrite r id v

/-- Resumes a queue (R74). -/
def Hw.resumeQueue (h : Hw) (id : QId) : Hw :=
  let h := h.enterSt id .running
  h.setQs id { h.qs id with headSince := h.time }

/-- Skips the slot at COMMIT of a HALTED queue (R60); a stream that the queue paces takes its layer (R106). -/
def Hw.skipSlot (h : Hw) (id : QId) : Hw :=
  if (h.qs id).st = .halted ∧ h.qCommit id ≠ h.qTail id then
    let p := BitVec.ofNat 32 (h.qCommit id)
    let c := h.qCommit id + 1
    let h := match h.read (queueMaster id) (h.slotVa id (h.qCommit id)) 64 with
      | .ok bs => h.paceStreams id (descOf bs) false
      | .error _ => h
    let h := (h.qwr id 0x14 c).qwr id 0x10 c
    let q := h.qs id
    (h.setQs id { q with killed := q.killed.filter (· ≠ p), confirmed := q.confirmed.filter (·.1 ≠ p) }).resumeQueue id
  else h

/-- The action of a Qn_CTL write that sets one GO bit; one that the state does not allow has no effect (R74). -/
def Hw.queueAction (h : Hw) (id : QId) (v : Nat) : Hw :=
  let st := (h.qs id).st
  if bitOf v 4 then (if st = .disabled then h else h.killOrDefer id .runtime)
  else if bitOf v 3 then h.skipSlot id
  else if bitOf v 2 then (if st = .disabled then h else h.killOrDefer id .preempt)
  else if bitOf v 1 then (if st = .paused ∨ st = .halted then h.resumeQueue id else h)
  else h

/-- Qn_CTL (R74, R75): more than one GO bit, or the enable of a queue that the twin owns or a self-test isolates (R380, R481),
discards the write whole; the action comes first, then enable. -/
def qctlWrite (r : Req) (id : QId) (v : Nat) (h : Hw) : Hw :=
  h.guardWrite r (engPage id.eng) (qOff id 0x1C) v fun h =>
    let gos := ([1, 2, 3, 4].filter (bitOf v)).length
    if 1 < gos ∨ (bitOf v 0 = true ∧ h.qEnable id = false ∧ (h.ownsQueue id = false ∨ h.underTest id.eng = true)) then
      h.badAccess (pageOff (engPage id.eng) (qOff id 0x1C))
    else
      let h := h.queueAction id v
      if bitOf v 0 then (if h.qEnable id then h else h.setEnable id) else h.clearEnable id

/-- A Qn_CTL value without its GO bits, and with one. -/
def qctlPlain (v : Word) : Nat := bitsOf v.toNat 0 0
def qctlGo (v : Word) (n : Nat) : Nat := v.toNat ||| 2 ^ n

/-- QUEUE_KILL (R75). -/
def execQueueKill (r : Req) (e : Eng) (q : Fin 8) (v : Word) (s : State) : Out :=
  onQueue "QUEUE_KILL" e q s fun id => qctlWrite r id (qctlGo v 4)

/-- QUEUE_SKIP (R60). -/
def execQueueSkip (r : Req) (e : Eng) (q : Fin 8) (v : Word) (s : State) : Out :=
  onQueue "QUEUE_SKIP" e q s fun id => qctlWrite r id (qctlGo v 3)

/-- QUEUE_PREEMPT (R74). -/
def execQueuePreempt (r : Req) (e : Eng) (q : Fin 8) (v : Word) (s : State) : Out :=
  onQueue "QUEUE_PREEMPT" e q s fun id => qctlWrite r id (qctlGo v 2)

/-- QUEUE_RESUME (R74). -/
def execQueueResume (r : Req) (e : Eng) (q : Fin 8) (v : Word) (s : State) : Out :=
  onQueue "QUEUE_RESUME" e q s fun id => qctlWrite r id (qctlGo v 1)

/-- QUEUE_ENABLE (R74). -/
def execQueueEnable (r : Req) (e : Eng) (q : Fin 8) (v : Word) (s : State) : Out :=
  onQueue "QUEUE_ENABLE" e q s fun id => qctlWrite r id (qctlPlain v)

/-- Whether the runtime may write BASE, SIZE, COMMIT and CTX of a queue (R74). -/
def Hw.queueOpenToWrites (h : Hw) (id : QId) : Bool :=
  (h.qs id).cmds.isEmpty && (match (h.qs id).st with
    | .paused | .disabled => true
    | _ => false)

def queueCommitWrite (r : Req) (id : QId) (v : Word) (h : Hw) : Hw :=
  h.guardWrite r (engPage id.eng) (qOff id 0x14) v.toNat fun h =>
    if !h.queueOpenToWrites id then h.badAccess (pageOff (engPage id.eng) (qOff id 0x14))
    else
      let sub := match r with | .portA => Submitter.portA | .portB => .portB | .handler => .handler
      let h := (h.qwr id 0x14 v.toNat).qwr id 0x10 v.toNat
      h.setQs id { h.qs id with subs := [(BitVec.ofNat 32 (h.qTail id), sub)], killed := [], confirmed := [] }

/-- QUEUE_COMMIT_WRITE (R48, R74). -/
def execQueueCommitWrite (r : Req) (e : Eng) (q : Fin 8) (v : Word) (s : State) : Out :=
  onQueue "QUEUE_COMMIT_WRITE" e q s fun id => queueCommitWrite r id v

def cqHeadWrite (r : Req) (id : QId) (v : Word) (h : Hw) : Hw :=
  h.guardWrite r (engPage id.eng) (qOff id 0x38) v.toNat fun h =>
    let n := ptrSub v.toNat (h.qrd id 0x3C)
    if 0 < n ∧ n < 0x80000000 then h.badAccess (pageOff (engPage id.eng) (qOff id 0x38))
    else
      let h := h.qwr id 0x38 v.toNat
      let h := if h.ownsQueue id then h.mirrorFields (engQuad id.eng) (queueRecord id) [(0x34, leBytes 4 v.toNat)] else h
      Hw.flushOwed id ((h.qs id).owed.length + 1) h

/-- CQ_HEAD_WRITE (R77). -/
def execCqHeadWrite (r : Req) (e : Eng) (q : Fin 8) (v : Word) (s : State) : Out :=
  onQueue "CQ_HEAD_WRITE" e q s fun id => cqHeadWrite r id v

/-- DRAIN_COMPLETE (R40): a queue whose enable is clear reads DISABLED once its issued work has drained. -/
def execDrainComplete (e : Eng) (q : Fin 8) (s : State) : Out := onQueue "DRAIN_COMPLETE" e q s fun id h => h.drainDone id

end Sys2Proof.Machine
end

