-- ==== Sys2Proof/Machine/Boot.lean ====
section
/-! DEFINITION. Reset, boot and attestation (R453 to R467): the reset kinds, verified boot, rollback counters, configuration blocks,
keys, recovery, measurements, reports and the signing engine. -/

namespace Sys2Proof.Machine

/-- `n` bytes of a list from offset `o`. -/
def slice (bs : List Byte) (o n : Nat) : List Byte := (bs.drop o).take n

/-! ### Measurements (R464) -/

/-- Measurement register i, its 64 bytes in order. -/
def Hw.measurement (h : Hw) (i : Nat) : List Byte := (List.range 16).flatMap fun w => leBytes 4 (h.rd 0x005 (0x080 + 64 * i + 4 * w))

/-- Stores a measurement register. -/
def Hw.setMeasurement (h : Hw) (i : Nat) (bs : List Byte) : Hw :=
  forN 16 (fun w h => h.wr 0x005 (0x080 + 64 * i + 4 * w) (leNat (slice bs (4 * w) 4))) h

/-- An extend of Mi with digest `d`. -/
def Hw.extend (h : Hw) (i : Nat) (d : List Byte) : Hw := h.setMeasurement i (digest (h.measurement i ++ d))

/-- One read of the Handler for a measurement, and what it leaves behind; none while a slice or a self-test holds it. One that faults is a
bus error with its record (R89), and its bytes, as those that read with an uncorrectable error, are free (log entry 54). -/
def Hw.handlerRead (h : Hw) (va n : Nat) : Option (Hw × List Byte) :=
  let h := h.demandFor handlerMaster va n
  match h.read handlerMaster va n with
  | .ok bs => some (h.touch handlerMaster va n, bs)
  | .error (.fault cause level a) => some ((h.postFault handlerMaster cause level a false 0 false).draw, freeBytes h.freeCtr n)
  | .error (.ecc _ _) => some ((h.touch handlerMaster va n).draw, freeBytes h.freeCtr n)
  | .error .wait => none

/-- Reads one after another, joined. -/
def Hw.handlerReads : List (Nat × Nat) → Hw → Option (Hw × List Byte)
  | [], h => some (h, [])
  | (va, n) :: t, h => do
    let (h, a) ← h.handlerRead va n
    let (h, b) ← Hw.handlerReads t h
    pure (h, a ++ b)

/-- What a vocabulary flip is measured as: slot, generation, header, and the tables whose extent the header gives (log entry 54). -/
def Hw.vocabImage (h : Hw) (slot gen : Nat) (hd : List Byte) : Option (Hw × List Byte) := do
  let va (o : Nat) : Nat := bnum hd o 8
  let w2 := bnum hd 8 4
  let w3 := bnum hd 12 4
  let (h, bs) ← Hw.handlerReads (if hd = [] then [] else
    [(va 0x20, 16 * 2 ^ bitsOf w3 15 8), (va 0x28, 16 * (bitsOf w2 21 16 + 1)), (va 0x30, 80 * bitsOf w2 30 24),
     (va 0x38, 16 * 2 ^ bitsOf w3 7 0), (va 0x40, 8 * bnum hd 4 4)]) h
  pure (h, leBytes 1 slot ++ leBytes 2 gen ++ hd ++ bs)

/-- What a grammar is measured as: header, state table, trie, and the two pools up to the highest run and transition a state names. -/
def Hw.grammarImage (h : Hw) (root : Nat) : Option (Hw × List Byte) := do
  let (h, g) ← h.handlerRead root 64
  let (h, states) ← h.handlerRead (gVa g 0) (if gAuto g then 16 * gStates g else 0)
  let recs := (List.range (states.length / 16)).map fun i => slice states (16 * i) 16
  let runs := recs.foldl (fun m r => max m (bnum r 0 4 + bitsOf (bnum r 4 4) 23 0)) 0
  let trans := recs.foldl (fun m r => max m (bnum r 8 4 + bitsOf (bnum r 12 4) 15 0 + bitsOf (bnum r 12 4) 23 16)) 0
  let (h, rest) ← Hw.handlerReads [(gVa g 3, if gTrie g then 16 * gNodes g else 0), (gVa g 1, 8 * runs), (gVa g 2, 16 * trans)] h
  pure (h, g ++ states ++ rest)

/-- MEASUREMENT_EXTEND: the oldest measurement extends M2 or M3 (R464, R467). -/
def measurementExtend (h : Hw) : Hw :=
  match h.measures with
  | [] => h
  | m :: rest =>
    let done (i : Nat) : Option (Hw × List Byte) → Hw
      | some (g, bs) => ({ g with measures := rest }.extend i (digest bs)).raise 0x005 0
      | none => h
    match m with
    | .vocab slot gen hd => done 2 (h.vocabImage slot gen hd)
    | .grammar root => done 3 (h.grammarImage root)

def execMeasurementExtend (s : State) : Out := .next (s.onHw fun h => if 3 ≤ h.pow.state then h else measurementExtend h)

/-! ### Images and blocks (R457, R459) -/

/-- Whether `n` bytes from `o` are zero. -/
def zeroAt (bs : List Byte) (o n : Nat) : Bool := (slice bs o n).all (· == 0)

/-- The digest, and signature check, of a header's first 16 bytes and what follows the header. -/
def signedBy (pub header body : List Byte) : Bool :=
  slice header 0x10 64 == digest (slice header 0 16 ++ body) && edVerifies pub (slice header 0x10 64) (slice header 0x50 114)
where edVerifies (pub m sig : List Byte) : Bool := Config.edVerify pub m sig

/-- An eligible image slot (R457): its security version and digest. -/
def Boot.image? (b : Boot) (off : Nat) : Option (Nat × List Byte) :=
  let hd := b.bytes off 256
  let len := bnum hd 12 4
  if bnum hd 0 4 = 0x48464C5A ∧ bnum hd 4 4 = 1 ∧ 1 ≤ len ∧ len ≤ 0x400000 ∧ zeroAt hd 0xC2 62
      ∧ signedBy Config.vendorKey hd (b.bytes (off + 0x100) len) ∧ b.counters.getD 0 0 ≤ bnum hd 8 4 then
    some (bnum hd 8 4, slice hd 0x10 64)
  else none

/-- A block of the configuration region as it lies there. -/
structure CfgBlock where
  type : Nat
  seq : Nat
  digest : List Byte
  payload : List Byte

/-- A private key derived from the seed (R461). -/
def keyOf (seed : List Byte) (label : String) (more : List Byte) : List Byte := shake256 57 (seed ++ labelBytes label ++ more)

/-- Whether a block verifies with a key that its type allows, and its seq is not below its type's counter. -/
def Boot.blockGood (b : Boot) (hd payload : List Byte) : Bool :=
  let type := bnum hd 4 1
  let signer := bnum hd 5 1
  let pub := if signer = 0 then Config.vendorKey else Config.edPublic (keyOf b.seed "ZM-CFK" [])
  bnum hd 6 2 == 1 && decide (1 ≤ type ∧ type ≤ 3) && decide (signer ≤ 1) && (signer == 0 || type != 1)
    && zeroAt hd 0xC2 62 && signedBy pub hd payload && decide (b.counters.getD type 0 ≤ bnum hd 8 4)

/-- The good blocks of the region from offset `o` on, in order. -/
def Boot.blocks (b : Boot) : Nat → Nat → List CfgBlock
  | 0, _ => []
  | fuel + 1, o =>
    let hd := b.bytes o 256
    let len := bnum hd 12 4
    if 0x3000000 < o + 256 ∨ bnum hd 0 4 ≠ 0x42464C5A ∨ 0xFFF000 < len ∨ 0x3000000 < o + 256 + len then []
    else
      let payload := b.bytes (o + 256) len
      let rest := Boot.blocks b fuel (o + (256 + len + 0xFFF) / 0x1000 * 0x1000)
      if b.blockGood hd payload then ⟨bnum hd 4 1, bnum hd 8 4, slice hd 0x10 64, payload⟩ :: rest else rest

/-- The block of a type with the highest seq; the first of equals. -/
def bestBlock (type : Nat) (bs : List CfgBlock) : Option CfgBlock :=
  (bs.filter (·.type = type)).foldl (fun best x =>
    match best with
    | none => some x
    | some y => if y.seq < x.seq then some x else some y) none

/-- The entries of a repair block's payload (R475). -/
def repairEntries (p : List Byte) : List (List Byte) :=
  (List.range (min (leNat (slice p 0 16)) ((p.length - 16) / 16))).map fun i => slice p (16 + 16 * i) 16

/-! ### The boot flow (R460 to R463) -/

/-- Recovery: both ports are ready, and every page but GLB, RST and SEC behaves as disabled. -/
def Hw.recovery (h : Hw) (code : Nat) : Hw :=
  let h := (h.wr 0x003 0x048 (3 + 0x100 * code)).setBit 0x005 0x040 2 true
  { h with pcieA := { h.pcieA with ready := true }, pcieB := { h.pcieB with ready := true } }

/-- An entry of a repair block at boot: retired frames are listed once the Handler has tables to reach the list by, and a row that a
module reset has left steered stays so (R477; log entry 53). -/
def Hw.bootRepair (h : Hw) (e : List Byte) : Hw :=
  let w := bnum e 0 4
  if bitsOf w 3 0 = 6 then { h with retires := h.retires ++ [bnum e 8 8] }
  else if bitsOf w 3 0 = 1 ∧ (spareKey (bitsOf w 7 4) (bitsOf w 18 8) (bitsOf w 26 19), bnum e 8 8) ∈ h.bist.steered then h
  else (h.applyRepair e).1

/-- Step 4: the blocks, and M1 with each applied block's digest in type order. -/
def State.bootBlocks (s : State) : State :=
  let bs := s.boot.blocks 4096 0x2000000
  let pick (t : Nat) : Option CfgBlock := bestBlock t bs
  let seqs := [1, 2, 3].map fun t => ((pick t).map (·.seq)).getD 0
  let h := [1, 2, 3].foldl (fun h t =>
    match pick t with
    | none => if t = 1 then h.wr 0x003 0x048 (h.rd 0x003 0x048 + 0x2100) else h
    | some b =>
      let h := if t = 2 then (repairEntries b.payload).foldl Hw.bootRepair h else h
      h.extend 1 b.digest) s.hw
  { s with hw := h, boot := { s.boot with applied := seqs } }

/-- Steps 3 and 4 of R462 on image slot `n`, of version `svn` and digest `d`: M0, the attestation key's certificate, the watchdog, the
configuration blocks and the lifetime log. -/
def State.startImage (s : State) (seed : List Byte) (n svn : Nat) (d : List Byte) : State :=
  let h := s.hw.extend 0 d
  let pub := Config.edPublic (keyOf seed "ZM-AK" d)
  let cert := Config.edSign (keyOf seed "ZM-DIK" []) (digest (pub ++ h.measurement 0))
  let h := ((h.wr 0x005 0x040 3).wr 0x005 0x044 svn).wr 0x003 0x050 (1 + 0x100 * 2000)
  let h := h.wr 0x003 0x048 (1 + 0x10 * n)
  let s := { s with hw := h, boot := { s.boot with image := d, cert := cert, wdogAt := h.time } }.bootBlocks.lifeBoot
  if s.hw.pow.shdnReq then s.lifeAppend 2 else s

/-- Steps 1 to 4 of R462, after a power-on reset (`cold`) or a module reset. Steps 5 and 6 are the firmware's commands. -/
def State.bootFlow (s : State) (cold : Bool) : State :=
  let h := (s.hw.wr 0x002 0x064 0x07FFFFFF).draw
  let seed := if cold then (Config.pufSeed s.hw.freeCtr (s.boot.flash.filter fun c => decide (0x3000000 ≤ c.1 ∧ c.1 < 0x3100000))).getD []
    else s.boot.seed
  let b := { s.boot with seed := seed, image := [], cert := [], applied := [0, 0, 0] }
  if seed = [] then { s with hw := h.recovery 2, boot := b }
  else
    let h := h.wr 0x005 0x040 1
    let h := forN 4 (fun i h => h.wr 0x005 (0x048 + 4 * i) (b.counters.getD i 0)) h
    let slot : Option (Nat × Nat × List Byte) :=
      match b.image? 0, b.image? 0x1000000 with
      | none, none => none
      | some (v, d), none => some (0, v, d)
      | none, some (v, d) => some (1, v, d)
      | some (va, da), some (vb, db) => if va < vb then some (1, vb, db) else some (0, va, da)
    match slot with
    | none => { s with hw := h.recovery 3, boot := b }
    | some (n, svn, d) => { s with hw := h, boot := b }.startImage seed n svn d

/-! ### Reset kinds (R447, R448, R453, R454) -/

/-- What a power-on reset leaves: host memory, what the always-on domain and the sequencer keep, and repairs of none. -/
def Hw.powerUp (h : Hw) : Hw :=
  let faults := (List.range 13).filter fun i => h.bit 0x001 (0x104 + 8 * i) 9
  let w := h.pow
  let n : Hw := {
    mem := h.mem.filter fun c => decide (0x20000000000000 ≤ c.1)
    freeCtr := h.freeCtr
    out := h.out
    pcieBif := h.pcieBif
    pow := { vin := w.vin, mba := w.mba, hb := w.hb, unordered := w.unorderedNext }
    life := { owed := h.life.owed ++ [0x020] ++ (if w.unorderedNext then [0x038] else []) } }
  let n := forN 13 (fun i n => n.wr 0x001 (0x104 + 8 * i) (if w.cause = 6 ∧ faults.contains i then 0x300 else 0x100)) n
  n.wr 0x003 0x040 w.cause

/-- POWER_ON_RESET: the inputs are valid in order and the rails good (R446 to R448). -/
def powerOnReset (s : State) : State :=
  let w := s.hw.pow
  if !w.off ∨ w.locked ∨ w.early ≠ 0 ∨ w.vin ≠ [true, true, true] then s
  else { s with hw := s.hw.powerUp }.bootFlow true

def execPowerOnReset (s : State) : Out := .next (powerOnReset s)

/-- A write of WDOG_KICK or WDOG_CTL: the Handler's only, counted otherwise (R455). -/
def State.wdogWrite (s : State) (r : Req) (o : Nat) (f : State → State) : State :=
  s.guardWrite r 0x003 o 0 fun s => if r ≠ .handler then { s with hw := s.hw.badAccess (pageOff 0x003 o) } else f s

/-- Restarts the watchdog count. -/
def State.wdogStart (s : State) : State := { s with boot := { s.boot with wdogAt := s.hw.time } }

/-- WDOG_KICK (R455). -/
def execWdogKick (r : Req) (_v : Word) (s : State) : Out := .next (s.whenUp fun s => s.wdogWrite r 0x054 State.wdogStart)

/-- TEST_RESET resets the IEEE 1149.1 test logic, which holds no state of this model (R453). -/
def execTestReset (s : State) : Out := .next s

/-! ### Ports, counters and recovery (R458, R462, R463) -/

/-- A write of BOOT_CTL: port_ready ends Request Retry Status; boot_ok raises the counters and ends the boot flow. -/
def bootCtl (r : Req) (v : Nat) (s : State) : State :=
  s.guardWrite r 0x005 0x058 v fun s =>
    let h := s.hw
    let h := if bitOf v 0 then { h with pcieA := { h.pcieA with ready := true } } else h
    let h := if bitOf v 1 then { h with pcieB := { h.pcieB with ready := true } } else h
    if bitOf v 2 then
      let h := h.wr 0x003 0x048 (h.rd 0x003 0x048 / 0x10 * 0x10 + 2)
      let new := [h.rd 0x005 0x044, s.boot.applied.getD 0 0, s.boot.applied.getD 1 0, s.boot.applied.getD 2 0]
      { s with hw := h, boot := { s.boot with counters := (List.range 4).map fun i => max (s.boot.counters.getD i 0) (new.getD i 0) } }
    else { s with hw := h }

/-- PORT_READY (R462). -/
def execPortReady (r : Req) (v : Word) (s : State) : Out := .next (s.whenUp (bootCtl r (v &&& 3).toNat))

/-- BOOT_OK (R458). -/
def execBootOk (r : Req) (v : Word) (s : State) : Out := .next (s.whenUp (bootCtl r (v ||| 4).toNat))

/-- Whether the module is in recovery, and whether the ROM then serves the management bus: at an address of its own (R463, R509). -/
def State.inRecovery (s : State) : Bool := s.hw.rd 0x003 0x048 % 16 == 3
def State.serves (s : State) : Bool := s.inRecovery && s.hw.pow.answers

/-- FLASH_ERASE, in the image slots only. -/
def execFlashErase (off : Nat) (s : State) : Out :=
  .next (s.whenUp fun s => if s.serves ∧ off < 0x2000000 then { s with boot := s.boot.erase off } else s)

/-- FLASH_PROGRAM, in the image slots only. -/
def execFlashProgram (off : Nat) (bytes : List Byte) (s : State) : Out :=
  if bytes = [] ∨ 32 < bytes.length then .refused (.illFormed "FLASH_PROGRAM")
  else .next (s.whenUp fun s =>
    if s.serves ∧ off + bytes.length ≤ 0x2000000 then { s with boot := s.boot.program off bytes } else s)

/-- FLASH_READ: 32 bytes of the 256 MiB. -/
def execFlashRead (off : Nat) (s : State) : Out :=
  .next (s.whenUp fun s =>
    if s.serves ∧ off + 32 ≤ 0x10000000 then { s with hw := s.hw.send (.flash (s.boot.bytes off 32)) } else s)

/-! ### Attestation (R464, R465) -/

/-- The buffer a requester has named. -/
def Hw.reqAddr (h : Hw) (r : Req) : Nat := h.rd64 0x003 0x058 (reqBank r)

/-- Ends a request with a code (R467). -/
def Hw.reqDone (h : Hw) (r : Req) (code : Nat) : Hw := (h.wr 0x003 0x064 (2 + 0x100 * code) (reqBank r)).raise 0x003 0

/-- An extend of M4 to M7 by the 64 bytes at REQ_ADDR; none while a slice or a self-test holds the read. -/
def Hw.extendHost (h : Hw) (r : Req) (i : Nat) : Option Hw :=
  let a := h.reqAddr r
  let h := h.demandFor handlerMaster a 64
  match h.read handlerMaster a 64 with
  | .ok bs => some ((((h.touch handlerMaster a 64).extend (4 + i) bs).raise 0x005 0).reqDone r 0)
  | .error (.fault cause level va) => some ((h.postFault handlerMaster cause level va false 0 false).reqDone r 1)
  | .error (.ecc _ _) => some ((h.touch handlerMaster a 64).reqDone r 1)
  | .error .wait => none

/-- Serves the extends that no earlier request stands before (R465). -/
def Hw.serveExtends : Nat → Hw → Hw
  | 0, h => h
  | fuel + 1, h =>
    match h.attests with
    | [] => h
    | x :: rest =>
      match x.reg.bind (h.extendHost x.who) with
      | none => h
      | some g => Hw.serveExtends fuel { g with attests := rest }

/-- Enters a request. -/
def Hw.ask (h : Hw) (r : Req) (reg : Option Nat) : Hw :=
  { h.wr 0x003 0x064 1 (reqBank r) with attests := h.attests ++ [⟨r, h.time, reg⟩] }

/-- A write of REQ_CTL: attest and extend are discarded and counted while the requester's request is busy (log entry 55). -/
def reqCtl (r : Req) (v : Nat) (s : State) : State :=
  s.guardWrite r 0x003 0x060 v fun s =>
    let h := s.hw
    if (bitOf v 0 ∨ bitOf v 1) ∧ h.rd 0x003 0x064 (reqBank r) % 2 = 1 then { s with hw := h.badAccess (pageOff 0x003 0x060) }
    else
      let h := h.wr 0x003 0x060 (v &&& 0xC) (reqBank r)
      if bitOf v 0 then { s with hw := h.ask r none }
      else if bitOf v 1 then
        let h := h.ask r (some (bitsOf v 3 2))
        { s with hw := Hw.serveExtends h.attests.length h }
      else { s with hw := h }

/-- ATTEST (R465). -/
def execAttest (r : Req) (v : Word) (s : State) : Out := .next (s.whenUp (reqCtl r (v ||| 1).toNat))

/-- EXTEND (R464). -/
def execExtend (r : Req) (v : Word) (s : State) : Out := .next (s.whenUp (reqCtl r ((v ||| 2) &&& 0xFFFFFFFE).toNat))

/-- The generation of a vocabulary slot as the report shows it: without the flips whose measurement is still to come (R466). -/
def Hw.reportGen (h : Hw) (v : Nat) : Nat :=
  let late := (h.measures.filter fun m => match m with | .vocab i _ _ => i == v | .grammar _ => false).length
  (bitsOf (h.vocStat v) 15 0 + 0x10000 - late % 0x10000) % 0x10000

/-- The report of R465 on a nonce. -/
def State.report (s : State) (nonce : List Byte) : List Byte :=
  let h := s.hw
  let key := keyOf s.boot.seed "ZM-AK" s.boot.image
  let body := leBytes 4 1 ++ leBytes 4 ((if h.measures = [] then 0 else 1) + (if s.inRecovery then 2 else 0))
    ++ leBytes 8 (h.rd64 0x000 0x050) ++ leBytes 8 h.time ++ leBytes 4 (h.rd 0x000 0x040) ++ leBytes 4 (h.rd 0x005 0x044)
    ++ s.boot.counters.flatMap (leBytes 4) ++ nonce ++ (List.range 8).flatMap h.measurement
    ++ (List.range 16).flatMap (fun v => leBytes 2 (h.reportGen v))
    ++ pad 64 (Config.edPublic key) ++ pad 120 s.boot.cert
  body ++ pad 120 (Config.edSign key (digest body))
where pad (n : Nat) (bs : List Byte) : List Byte := (bs ++ List.replicate n 0).take n

/-- REPORT_BUILD: the oldest request, once nothing is pending or after 50 ms (R465). -/
def reportBuild (s : State) : State :=
  match s.hw.attests with
  | [] => s
  | x :: rest =>
    let h := s.hw
    if 3 ≤ h.pow.state ∨ x.reg.isSome = true ∨ (h.measures ≠ [] ∧ h.time < x.at_ + 50000000) then s
    else
      let a := h.reqAddr x.who
      let ends (h : Hw) (code : Nat) : State :=
        let h := if code = 0 then h else Hw.openRange handlerMaster 3 a 928 h
        { s with hw := Hw.serveExtends rest.length ({ h with attests := rest }.reqDone x.who code) }
      let h := h.demandFor handlerMaster a 928
      match h.read handlerMaster a 32 with
      | .error (.fault cause level va) => ends (h.postFault handlerMaster cause level va false 0 false) 1
      | .error .wait => s
      | .error (.ecc _ _) => ends (h.touch handlerMaster a 32) 1
      | .ok nonce =>
        match (h.touch handlerMaster a 32).handlerWrite a (s.report nonce) with
        | none => s
        | some (g, ok) => ends g (if ok then 0 else 1)

def execReportBuild (s : State) : Out := .next (s.whenUp reportBuild)

/-! ### The signing engine (R461, R467) -/

/-- The signing engine signs the 64-byte digest at SIGN_ADDR and writes the signature after it; busy while the Handler's access waits. -/
def State.signNow (s : State) : State :=
  let h := s.hw
  let a := h.rd64 0x005 0x060
  let key := if h.bit 0x005 0x068 1 then keyOf s.boot.seed "ZM-AK" s.boot.image else keyOf s.boot.seed "ZM-CFK" []
  let ends (h : Hw) : State := { s with hw := h.setBit 0x005 0x068 2 false }
  let waits : State := { s with hw := h.setBit 0x005 0x068 2 true }
  let h := h.demandFor handlerMaster a 178
  match h.read handlerMaster a 64 with
  | .error (.fault cause level va) => ends (h.postFault handlerMaster cause level va false 0 false)
  | .error .wait => waits
  | .error (.ecc _ _) => ends (h.touch handlerMaster a 64)
  | .ok d =>
    match (h.touch handlerMaster a 64).handlerWrite (a + 64) ((Config.edSign key d).take 114) with
    | none => waits
    | some (g, _) => ends g

/-- SIGN: a write of SIGN_CTL with go set. -/
def sign (r : Req) (v : Nat) (s : State) : State :=
  s.guardWrite r 0x005 0x068 v fun s => { s with hw := s.hw.wr 0x005 0x068 (v &&& 2) }.signNow

def execSign (r : Req) (v : Word) (s : State) : Out := .next (s.whenUp (sign r (v ||| 1).toNat))

/-! ### What the Handler waits for -/

/-- Lists the retired frames that wait, oldest first (R478). -/
def Hw.listRetired : Nat → Hw → Hw
  | 0, h => h
  | fuel + 1, h =>
    match h.retires with
    | [] => h
    | a :: rest =>
      if h.rd64 0x007 0x094 = 0 then h
      else match h.retire a with
        | none => h
        | some (g, _) => Hw.listRetired fuel { g with retires := rest }

/-- The Handler's accesses that a slice, a moving page or a self-test held are tried again. -/
def State.handlerRetry (s : State) : State :=
  if 3 ≤ s.hw.pow.state then s
  else
    let h := Hw.serveExtends s.hw.attests.length s.hw
    let s := { s with hw := Hw.listRetired h.retires.length h }
    if s.hw.bit 0x005 0x068 2 then s.signNow else s

end Sys2Proof.Machine
end

