-- ==== Sys2Proof/Machine/Trace.lean ====
section
/-! DEFINITION. Counters, the Trail port and SNAP records (R483 to R497, R503, R504). -/

namespace Sys2Proof.Machine

/-- Whether an engine id names a counted engine of a resource that is present (R483). -/
def Hw.counted (h : Hw) (id : Nat) : Bool :=
  if id < 384 then !h.isFused (corePage (id / 8))
  else if id < 408 then !h.isFused (0x0C0 + 8 * ((id - 384) / 6) + (id - 384) % 6)
  else if id < 440 then !h.isFused (0x040 + (id - 408))
  else decide (id < 444)

/-- Counter `k` of an engine in a bank: 0 busy, 1 stalled, 2 idle, 3 + n stall reason n (R484, R485). -/
def ctrKey (id bank k : Nat) : Nat := (2 * id + bank) * 32 + k
def Hw.ctr (h : Hw) (id bank k : Nat) : Nat := smGet 0 (ctrKey id bank k) h.trc.counters
/-- Adds cycles to a counter. -/
def Hw.addCtr (h : Hw) (id bank k n : Nat) : Hw :=
  { h with trc := { h.trc with counters := smSet 0 (ctrKey id bank k) (h.ctr id bank k + n) h.trc.counters } }

/-! ### Reading and clearing (R488) -/

def engSel (r : Req) (v : Word) (h : Hw) : Hw :=
  h.guardWrite r 0x009 0x040 v.toNat fun h =>
    let b := reqBank r
    let v := v.toNat % 0x2000
    let id := v % 0x1000
    let bank := v / 0x1000
    let ok := h.counted id
    let get (k : Nat) : Nat := if ok then h.ctr id bank k else 0
    let h := (h.wr 0x009 0x040 v b).wr 0x009 0x044 ((if ok then 1 else 0) + (if ok ∧ 384 ≤ id then 2 else 0)) b
    let h := ((h.wr64 0x009 0x048 (get 0) b).wr64 0x009 0x050 (get 1) b).wr64 0x009 0x058 (if bank = 0 then get 2 else 0) b
    forN 16 (fun n h => h.wr64 0x009 (0x080 + 8 * n) (get (3 + n)) b) h

/-- ENG_SEL (R488): one consistent copy into the requester's read registers. -/
def execEngSel (r : Req) (v : Word) (s : State) : Out := .next (s.onHw (engSel r v))

/-- A write of CNT_CTL. -/
def counterClear (r : Req) (v : Nat) (h : Hw) : Hw :=
  h.guardWrite r 0x009 0x060 v fun h =>
    if bitOf v 0 then { h with trc := { h.trc with counters := [], snapBase := [] } } else h

/-- COUNTER_CLEAR (R488): both banks of every engine; the read copies stand. -/
def execCounterClear (r : Req) (v : Word) (s : State) : Out := .next (s.onHw (counterClear r (v ||| 1).toNat))

/-! ### SNAP records (R495) -/

/-- The SNAP record of an engine, and its counts as the new base. -/
def Hw.snapOne (h : Hw) (id : Nat) : Hw :=
  let d (k : Nat) : Nat := h.ctr id 0 k - smGet 0 (ctrKey id 0 k) h.trc.snapBase
  let h := h.stampRecord
  let rec_ := h.traceBytes { type := 5, engine := id, arg0 := d 0, arg1 := min (d 1) 0xFFFFFFFF + min (d 2) 0xFFFFFFFF * 0x100000000 }
  let n := h.trc.fifo.length
  let h := if h.bit 0x008 0x008 0 && h.bit 0x008 0x040 5 then h.traceEnter rec_ else h
  if h.trc.fifo.length = n then h
  else
    let base := [0, 1, 2].foldl (fun m k => smSet 0 (ctrKey id 0 k) (h.ctr id 0 k) m) h.trc.snapBase
    { h with trc := { h.trc with snapBase := base } }

def snap (h : Hw) : Hw :=
  let period := h.rd 0x008 0x048 % 0x10000
  if period = 0 ∨ h.time < h.trc.snapAt + 1000 * period then h
  else
    let c := h.rd 0x008 0x04C
    let first := c % 0x1000
    let ids := ((List.range (bitsOf c 27 16)).map (first + ·)).filter h.counted
    ids.foldl Hw.snapOne { h with trc := { h.trc with snapAt := h.time - (h.time - h.trc.snapAt) % (1000 * period) } }

/-- SNAP (R495): a delta whose record is dropped stays for the next. -/
def execSnap (s : State) : Out := .next (s.onHw snap)

/-! ### The Trail port (R497) -/

def trailRecordSend (h : Hw) : Hw :=
  match h.trc.fifo with
  | [] => h
  | x :: rest =>
    if !h.bit 0x008 0x040 0 ∨ h.trc.off then h
    else
      let lane := h.trc.lane
      ({ h with trc := { h.trc with fifo := rest, lane := (lane + 1) % 4 } }.count64 0x008 0x050 1).send (.trail lane x)

/-- TRAIL_RECORD_SEND (R497): record j of the stream leaves on lane j mod 4. -/
def execTrailRecordSend (s : State) : Out := .next (s.onHw trailRecordSend)

end Sys2Proof.Machine
end

