-- ==== Sys2Proof/Machine/Flags.lean ====
section
/-! DEFINITION. The status registers: what each reads, computed from the state (R39, R75, R78, R111, R126, R158, R211, R230, R249,
R272, R298, R329, R347, R378, R405, R416, R428, R451, R467, R482, R503, R505). -/

namespace Sys2Proof.Machine

/-- A field of a register: the low `w` bits of `v` from bit `s` up. -/
def fld (v w s : Nat) : Nat := v % 2 ^ w * 2 ^ s
/-- A flag at bit `s`. -/
def flg (b : Bool) (s : Nat) : Nat := if b then 2 ^ s else 0
/-- A count that saturates in `w` bits. -/
def capped (v w : Nat) : Nat := min v (2 ^ w - 1)

/-! ### Queues (R75) -/

/-- Qn_STAT.state of a queue: a RUNNING queue whose ISSUE, COMMIT and TAIL are equal reads IDLE. -/
def Hw.queueState (h : Hw) (id : QId) : Nat :=
  match (h.qs id).st with
  | .disabled => 0
  | .running => if h.qIssue id = h.qCommit id ∧ h.qIssue id = h.qTail id then 1 else 2
  | .paused => 3 | .faultHold => 4 | .halted => 5

/-- Qn_STAT. -/
def Hw.queueStat (h : Hw) (id : QId) : Nat :=
  h.queueState id + fld (h.uncommitted id) 9 8 + fld (h.qs id).cause 4 24

/-- A bitmap of the queues of a core for which `f` holds. -/
def queueMap (n : Nat) (f : QId → Bool) : Nat := ((engQs (coreEng n)).map fun id => flg (f id) id.q).sum

/-- SHEP_STAT of a core: RUNNING as Qn_STAT reads it. -/
def Hw.shepStat (h : Hw) (n : Nat) : Nat :=
  queueMap n (fun id => h.queueState id == 2) + 0x100 * queueMap n (fun id => h.queueState id == 5)
    + 0x10000 * queueMap n (fun id => h.queueState id == 4) + 0x1000000 * queueMap n (fun id => h.queueState id == 3)

/-- Whether a queue waits in step 2 of Hitch (R70): its oldest command has finished. -/
def Hw.atGate (h : Hw) (id : QId) : Bool :=
  match (h.qs id).cmds with
  | [] => false
  | c :: _ => c.finished

/-- Issued commands of an engine. -/
def Hw.inFlight (h : Hw) (e : Eng) : Nat := ((engQs e).map fun id => (h.qs id).cmds.length).sum
/-- Issued commands of an engine that have not finished. -/
def Hw.executing (h : Hw) (e : Eng) : Nat := ((engQs e).map fun id => ((h.qs id).cmds.filter fun c => !c.finished).length).sum

/-! ### The common block (R39) -/

/-- PAGE_ID. -/
def pageId (b : Block) (i : Nat) : Nat := b.typeCode * 0x10000 + i * 0x100 + 1

/-- PAGE_CAPS: PCIE's bit 24 copies the PCIE_BIF strap (R416). -/
def Hw.pageCaps (h : Hw) (b : Block) : Nat :=
  b.caps * 0x10000 + flg b.stepCapable 9 + flg b.resetCapable 8 + b.irqSources + flg (b == .pcie && h.pcieBif) 24

/-- The engine of a page that holds queues. -/
def pageEng (p : Nat) : Option Eng :=
  match blockOf p with
  | some (.core, n) => some (coreEng n)
  | some (.spl, d) => some (stageEng d .spl) | some (.rtv, d) => some (stageEng d .rtv)
  | some (.emb, d) => some (stageEng d .emb) | some (.pck, d) => some (stageEng d .pck)
  | some (.muz, d) => some (stageEng d .muz) | some (.srv, d) => some (stageEng d .srv)
  | _ => none

/-- PAGE_STAT.busy: a command or transfer of the block is in flight. -/
def Hw.pageBusy (h : Hw) (p : Nat) : Bool :=
  match pageEng p with
  | some e => (engQs e).any fun id => !(h.qs id).cmds.isEmpty || !(h.qs id).owed.isEmpty
  | none =>
    match blockOf p with
    | some (.dma, n) => decide (2 ≤ h.dmaSt n ∧ h.dmaSt n ≤ 4)
    | some (.mmu, m) => h.invalBusy m
    | some (.mig, _) => !h.mig.moves.isEmpty || !h.mig.taken.isEmpty || h.mig.streams.any fun x => !x.2.inflight.isEmpty
    | some (.tier, _) => h.scanning
    | some (.bist, _) => h.bist.busy
    | some (.lsh, n) => !(h.port n).txq.isEmpty || !(h.port n).replay.isEmpty
    | some (.pcie, n) => !(if n = 0 then h.pcieA else h.pcieB).reads.isEmpty
    | some (.rst, _) => !h.attests.isEmpty
    | some (.sec, _) => !h.measures.isEmpty
    | some (.trc, _) => !h.trc.fifo.isEmpty
    | _ => false

/-- PAGE_STAT.block_stat. -/
def Hw.blockStat (h : Hw) (p : Nat) : Nat :=
  match blockOf p with
  | some (.core, n) => queueMap n (fun id => !(h.qs id).cmds.isEmpty) + 0x100 * queueMap n h.atGate
  | some (.dma, n) => h.dmaSt n
  | some (.spl, d) => capped (h.inFlight (stageEng d .spl)) 3
  | some (.muz, d) => capped (h.executing (stageEng d .muz)) 3
  | some (.pck, d) => capped ((engQs (stageEng d .pck)).filter fun id => (h.qs id).cmds.any fun c => !c.finished).length 3
  | some (.emb, d) => capped (h.executing (stageEng d .emb)) 5
  | some (.rtv, d) => capped (h.probes.filter fun x => x.owner = d).length 7
  | some (.srv, d) => capped (h.srvUnit d).slots.length 9
  | some (.lsh, n) => (h.port n).linkState
  | _ => 0

/-- PAGE_STAT of a page, whose present reads 0 for a disabled resource (R31). -/
def Hw.pageStat (h : Hw) (p : Nat) : Nat :=
  flg (h.present p) 0 + flg (h.enabled p) 1 + flg (h.pageBusy p) 2 + flg (h.resetting.contains p) 3 + flg (h.bit p 0x01C 31) 4
    + flg (h.stepHeld.contains p) 5 + 0x10000 * h.blockStat p

/-- PAGE_CTL, whose enable reads 1 on the pages that are never disabled. -/
def Hw.pageCtl (h : Hw) (p : Nat) : Nat := h.rd p 0x008 &&& 4 ||| flg (h.enabled p) 0

/-! ### Core units (R158, R211, R230) -/

/-- ARR_STAT of a core. -/
def Hw.arrStat (h : Hw) (n : Nat) : Nat :=
  let u := h.unitsBusy n
  u % 16 + h.unitsWhere n (·.tree) % 16 * 16 + flg (bitOf u 4) 8

/-- SFU_STAT of a core: a command waits, the store is loading, a table check runs. -/
def Hw.sfuStat (h : Hw) (n : Nat) : Nat :=
  let waits (f : Nat → Bool) : Bool := (engQs (coreEng n)).any fun id => (h.qs id).cmds.any fun c => !c.finished && !c.skipped && f (dOpcode c.desc)
  flg (bitOf (h.unitsBusy n) 5) 0 + flg (!(h.sfuStore n).loads.isEmpty) 1 + flg (waits (· == 0x65)) 2

/-! ### Slots, tables and indexes (R249, R298, R330, R378) -/

/-- VOCv_STAT: the references of the inactive bank. -/
def Hw.vocStatRead (h : Hw) (v : Nat) : Nat := h.vocStat v % 0x100000 + fld (capped (h.vocRefs v (1 - h.vocBank v)) 12) 12 20

/-- TBLt_STAT and TBLt_REFS. -/
def Hw.tblStatRead (h : Hw) (t : Nat) : Nat :=
  let held := (List.range 4).any fun d => (engQs (stageEng d .emb)).any fun id => (h.qs id).held == some t
  h.tblStat t % 0x100000 + flg held 20
def Hw.tblRefsRead (h : Hw) (t : Nat) : Nat :=
  capped (h.tblPinned t ((h.tblGen t + 0xFFFF) % 0x10000)) 16 + 0x10000 * capped (h.tblRefs t (1 - h.tblBank t)) 16

/-- IDXi_STAT and IDXi_REFS. -/
def Hw.idxStatRead (h : Hw) (i : Nat) : Nat :=
  let held := (List.range 4).any fun d => (engQs (stageEng d .rtv)).any fun id => (h.qs id).held == some i
  h.idxStat i % 0x100000 + flg held 20
def Hw.idxRefsRead (h : Hw) (i : Nat) : Nat :=
  capped (h.idxPinned i ((h.epoch i + 0xFFFFFFFF) % 0x100000000)) 16 + 0x10000 * capped (h.idxRefs i (1 - h.idxBank i)) 16

/-- The bound conversation, steps and group of the slot that SLOT_SEL selects; zero where none is bound. -/
def Hw.slotRead (h : Hw) (d o : Nat) : Nat :=
  match h.slot (256 * d + h.rd (srvPage d) 0x078 % 256) with
  | none => 0
  | some x =>
    if o = 0x07C then
      (h.conv d x.conv).state % 8 + flg x.switch 3 + fld (capped x.launched.length 2) 2 4 + fld (pGroup x.params) 8 8
    else if o = 0x080 then x.c % 0x100000000
    else x.conv % 0x40000

/-- The commit group that GRP_SEL selects: its cores, and GRP_STAT. -/
def Hw.groupRead (h : Hw) (o : Nat) : Nat :=
  let g := h.group (h.rd 0x0C5 0x08C % 256)
  if o = 0x090 then g.cores.toNat % 0x100000000
  else if o = 0x094 then g.cores.toNat / 0x100000000
  else g.confirmed.toNat + flg g.slot.isSome 8 + fld (g.slot.getD 0) 10 9

/-! ### Links and host ports (R405, R416) -/

/-- PAIR_STAT. -/
def Hw.pairStat (h : Hw) : Nat :=
  let p := h.pair
  fld p.state 3 0 + fld p.cause 3 3 + flg p.mirrorBroken 6 + flg p.adoptRefused 7 + flg p.handbackRefused 8 + fld p.refuse 3 9
    + flg p.fullOwner 12 + fld (capped (p.outbound.filter fun o => o.queue.isSome).length 9) 9 16

/-- TIME_STAT: whether this module is the time master, and whether it free-runs with no parent (R403). -/
def Hw.timeStat (h : Hw) : Nat :=
  let master := h.timeMaster
  let parent := (List.range 4).any fun p => h.parentPort p && (h.port p).up
  flg master 0 + flg (!master && !parent) 1 + h.rd 0x012 0x14C &&& 7

/-- LINK_STAT of a PCIe port: reset_active never lasts past the command that resets. -/
def Hw.pcieStat (h : Hw) (p : Port) : Nat :=
  let x := h.pcie p
  fld x.speed 3 0 + fld x.width 5 3 + flg x.up 8 + flg x.busMaster 9 + fld x.dstate 2 11

/-! ### Power, boot, self-test, trace -/

/-- PWR_STAT (R430, R431, R442 to R447). -/
def Hw.pwrStat (h : Hw) : Nat :=
  let w := h.pow
  fld w.state 3 0 + fld h.target 3 4 + fld h.blocked 4 8 + flg w.limitUnmet 12 + flg (decide (w.ceiling < 15)) 13
    + flg (w.thermal.any fun t => decide (t < 15)) 14 + flg w.droop.isSome 15 + flg w.shdnReq 16

/-- SEQ_STAT (R446, R447). -/
def Hw.seqStat (h : Hw) : Nat :=
  let w := h.pow
  flg (w.vin.getD 0 false) 0 + flg (w.vin.getD 1 false) 1 + flg (w.vin.getD 2 false) 2 + flg (decide (w.early ≠ 0)) 3 + fld w.early 2 4
    + flg w.unordered 6

/-- BIST_STAT. -/
def Hw.bistStat (h : Hw) : Nat :=
  let b := h.bist
  flg b.busy 0 + flg b.aborted 1 + flg b.refused 2 + fld (capped b.running.length 8) 8 8 + fld b.done 12 16

/-- TRC_STAT: the lanes are driven while link is 1 and TCLK runs (R497). -/
def Hw.trcStat (h : Hw) : Nat := flg (h.bit 0x008 0x040 0 && !h.trc.off) 0 + fld (capped h.trc.fifo.length 12) 12 1

/-- PFs_STAT of a stream (R106). -/
def Hw.pfStat (h : Hw) (s : Nat) : Nat :=
  let t := h.stream s
  let waits := (h.pfHead s).any fun e => pfGate e && !t.gateOpen
  let st := if t.fault then 3 else if !h.pfOn s then 0 else if waits then 2 else 1
  fld t.layer 16 0 + fld st 3 16 + fld t.inflight.length 3 22

/-- The `n` pages from `p` up that are not fused off, as a bitmap. -/
def Hw.presentMap (h : Hw) (p n : Nat) : Nat := ((List.range n).map fun i => flg (!h.fused.contains (p + i)) i).sum

/-- The capability registers that a fused-off resource reduces (R45): CAP_CORES_LO and CAP_CORES_HI, CAP_LPC, and the DMA channels of
CAP_SERVE. -/
def Hw.capWord (h : Hw) (o : Nat) : Option Nat :=
  if o = 0x060 then some (h.presentMap (corePage 0) 32)
  else if o = 0x064 then some (h.presentMap (corePage 32) 16)
  else if o = 0x074 then some (h.rd 0x000 o / 0x10000 * 0x10000 + h.presentMap 0x030 16)
  else if o = 0x07C then
    some (h.rd 0x000 o % 0x1000000 + ((List.range 32).filter fun n => !h.fused.contains (0x040 + n)).length * 0x1000000)
  else none

/-! ### The computed registers -/

/-- The value that register `o` of page `p` reads where it is computed; none where the register file holds it. -/
def Hw.computed (h : Hw) (p o bank : Nat) : Option Nat :=
  match blockOf p with
  | none => none
  | some (b, i) =>
    if o = 0x000 then some (pageId b i)
    else if o = 0x004 then some (h.pageCaps b)
    else if o = 0x008 then some (h.pageCtl p)
    else if o = 0x00C then some (h.pageStat p)
    else
      let queueStat? (lo hi : Nat) : Option Nat :=
        if queueRegAt lo hi 0x20 o then (pageEng p).map fun e => h.queueStat ⟨e, (o - lo) / 0x40⟩ else none
      match b with
      | .glb => h.capWord o
      | .core =>
        if o = 0x044 then some (h.shepStat i) else if o = 0x30C then some (h.arrStat i) else if o = 0x448 then some (h.sfuStat i)
        else if o = 0x484 then some (flg (bitOf (h.unitsBusy i) 6) 0)
        else queueStat? 0x100 0x300
      | .spl =>
        if 0x080 ≤ o ∧ o < 0x180 ∧ o % 0x10 = 0xC then some (h.vocStatRead ((o - 0x080) / 0x10)) else queueStat? 0x200 0x300
      | .emb =>
        if 0x400 ≤ o ∧ o < 0xC00 ∧ o % 0x20 = 0x0C then some (h.tblStatRead ((o - 0x400) / 0x20))
        else if 0x400 ≤ o ∧ o < 0xC00 ∧ o % 0x20 = 0x10 then some (h.tblRefsRead ((o - 0x400) / 0x20))
        else queueStat? 0x200 0x300
      | .rtv =>
        if 0x400 ≤ o ∧ o < 0x600 ∧ o % 0x20 = 0x0C then some (h.idxStatRead ((o - 0x400) / 0x20))
        else if 0x400 ≤ o ∧ o < 0x600 ∧ o % 0x20 = 0x14 then some (h.idxRefsRead ((o - 0x400) / 0x20))
        else queueStat? 0x200 0x300
      | .srv =>
        if o = 0x07C ∨ o = 0x080 ∨ o = 0x084 then some (h.slotRead i o)
        else if o = 0x090 ∨ o = 0x094 ∨ o = 0x09C then some (h.groupRead o)
        else queueStat? 0x200 0x300
      | .muz | .pck => queueStat? 0x200 0x300
      | .mmu =>
        if o = 0x06C then some (flg (h.invalBusy i) 1) else if o = 0x078 then some 0
        else if o = 0x07C then some (h.mmu.pend.filter fun r => r.slice = i).length else none
      | .mig =>
        if o = 0x058 then
          some (fld (capped h.mig.moves.length 4) 4 0 + ((List.range 16).map fun s => flg (h.pfOn s) (16 + s)).sum)
        else if 0x080 ≤ o ∧ o < 0x280 ∧ o % 0x20 = 0x1C then some (h.pfStat ((o - 0x080) / 0x20)) else none
      | .tier => if o = 0x05C then some (h.rd p o &&& 2 ||| flg h.scanning 2) else none
      | .lpc => if o = 0x044 then some (h.rd p o % 0x10000 + (if 4 ≤ h.pow.state then 0xFF0000 else 0)) else none
      | .dma => if o = 0x05C then some (h.dmaHeld i) else none
      | .lsh => if o = 0x044 then some (h.port i).linkStat else if o = 0x104 then some h.pairStat else if o = 0x14C then some h.timeStat else none
      | .pcie =>
        let q := if i = 0 then Port.a else Port.b
        if o = 0x040 then some (h.pcieStat q) else if o = 0x050 then some (capped (h.pcie q).reads.length 10) else none
      | .irq =>
        if 0x060 ≤ o ∧ o < 0x070 then some (((List.range 32).map fun k => flg (h.srcLevel (8 * (o - 0x060) + k)) k).sum)
        else if o = 0x078 then some (((List.range 32).map fun k => flg (h.sumActive k) k).sum) else none
      | .pwr => if o = 0x040 then some h.pwrStat else if o = 0x0C0 then some h.seqStat else none
      | .sec => if o = 0x05C then some h.measures.length else none
      | .bist => if o = 0x050 then some h.bistStat else none
      | .trc => if o = 0x044 then some h.trcStat else none
      | .life => if o = 0x054 then some (h.life.word (h.rd 0x006 0x050 bank % 1024)) else none
      | _ => none

/-- What register `off` of the window reads to a requester whose bank is `bank` (R30, R31, R34, R41): nothing of a read acts here. -/
def Hw.readWord (h : Hw) (off bank : Nat) : Word :=
  let p := pageOfOff off
  let o := inPage off
  match regRow off with
  | none => 0
  | some r =>
    let live := match h.computed p o bank with
      | some v => BitVec.ofNat 32 v
      | none => h.reg off bank
    if h.isFused p then (if o = 0x000 ∨ o = 0x00C then (if o = 0x000 then live else live &&& 0xFFFFFFFE) else 0)
    else if h.resetting.contains p ∧ ¬ (o < 0x010 ∨ o = 0x014) then BitVec.ofNat 32 r.reset
    else match r.acc with
      | .wo => 0
      | _ => live

end Sys2Proof.Machine
end

