-- ==== Sys2Proof/Machine/Reset.lean ====
section
/-! DEFINITION. The module reset and what starts it (R454, R455). -/

namespace Sys2Proof.Machine

/-- Every Hitch and every commit step that has begun completes, but for one that a fault holds (R454; log entry 55). -/
def Hw.finishCommits (h : Hw) : Hw :=
  h.queues.foldl (fun h x =>
    match x.1.eng with
    | .core _ => x.2.cmds.foldl (fun h c => if c.going then h.hitchOne x.1 c else h) h
    | .stage d u => if x.2.cmds.any (·.todo.isSome) then stageCommitStep d.val u x.1.q h else h) h

/-- Registers that a module reset leaves (log entry 55): the always-on part of PWR, the event counts (R419), and repairs. -/
def keptReg (off : Nat) : Bool :=
  let o := inPage off
  let p := pageOfOff off
  (p == 0x001 && decide (0x058 ≤ o ∧ o ≠ 0x0C4 ∧ o ≠ 0x0C8)) || (p == 0x003 && o == 0x04C) || (p == 0x007 && o == 0x090)
    || (p == 0x000 && (o == 0x060 || o == 0x064 || o == 0x074))
    || (p == 0x004 && decide (0x200 ≤ o ∧ o < 0x300)) || (decide (0x080 ≤ p ∧ p < 0x0B0) && decide (0x300 ≤ o ∧ o < 0x338 ∧ o ≠ 0x308))

/-- What a port's link and configuration space keep over a module reset. -/
def PciePort.keep (x : PciePort) : PciePort :=
  { up := x.up, speed := x.speed, width := x.width, busMaster := x.busMaster, memSpace := x.memSpace, dstate := x.dstate, bar2 := x.bar2,
    msixOn := x.msixOn, msixFnMask := x.msixFnMask, cfg := x.cfg.filter (fun e => decide (e.1 < msixTable)), aer := x.aer }

/-- The module reset of R454 by cause; `wipe` zeroes LPDDR6. -/
def State.moduleReset (s : State) (cause : Nat) (wipe : Bool) : State :=
  let h := s.hw
  let h := h.finishCommits
  let keepKey (k : Nat) : Bool := decide (0x20000000000000 ≤ k) || (!wipe && decide (0x10000000000000 ≤ k))
  let w := h.pow
  let n : Hw := {
    regs := h.regs.filter fun e => keptReg (e.1 / 4)
    mem := h.mem.filter fun c => keepKey c.1
    poison := h.poison.filter keepKey
    upsets := h.upsets.filter keepKey
    flips := h.flips.filter keepKey
    time := h.time
    freeCtr := h.freeCtr
    out := h.out
    fused := h.fused
    pcieBif := h.pcieBif
    pcieA := h.pcieA.keep
    pcieB := h.pcieB.keep
    pow := { vin := w.vin, unordered := w.unordered, unorderedNext := w.unorderedNext, mba := w.mba, hb := w.hb, shdnReq := w.shdnReq,
             timerFired := w.timerFired, lastWork := h.time, limitAt := h.time, thermalAt := [h.time, h.time, h.time, h.time] }
    pair := { downSince := some h.time }
    bist := { spares := h.bist.spares, steered := h.bist.steered }
    life := { owed := h.life.owed ++ [0x028] ++ (if cause = 5 then [0x02C] else []) } }
  let n := ((n.wr 0x003 0x040 cause).count 0x003 0x04C).wr (portPage .a) 0x04C h.pcieA.bar2 |>.wr (portPage .b) 0x04C h.pcieB.bar2
  { s with hw := n }.bootFlow false

/-- MOD_RESET (R454). -/
def modReset (r : Req) (v : Word) (s : State) : State :=
  s.guardWrite r 0x003 0x044 v.toNat fun s =>
    let cause := match r with | .portA => 2 | .portB => 3 | .handler => 4
    if v = 0x0000A55A then s.moduleReset cause false
    else if v = 0x0000A55B then s.moduleReset cause true
    else { s with hw := s.hw.badAccess (pageOff 0x003 0x044) }

def execModReset (r : Req) (v : Word) (s : State) : Out := .next (s.whenUp (modReset r v))

/-- WATCHDOG_EXPIRY (R455): the count stands still while the Handler is stopped (log entry 55). -/
def watchdogExpiry (s : State) : State :=
  let h := s.hw
  let c := h.rd 0x003 0x050
  if !bitOf c 0 ∨ 3 ≤ h.pow.state ∨ h.time < max s.boot.wdogAt h.pow.wokeAt + c / 0x100 * 1000000 then s else s.moduleReset 5 false

def execWatchdogExpiry (s : State) : Out := .next (s.whenUp watchdogExpiry)

end Sys2Proof.Machine
end

