-- ==== Sys2Proof/Machine/Access.lean ====
section
/-! DEFINITION. Accesses to the register window (R25 to R49): the split of R28, the shadow and staging registers of R37 and R38, reads
that clear, plain writes with what they carry along, the common control register with its soft reset (R40, R41, R76, R520), and
HOST_ABI. -/

namespace Sys2Proof.Machine

/-! ### Reads (R28, R34, R37) -/

/-- Whether reading this register clears it, for a row that is RC on a page that answers. -/
def Hw.clears (h : Hw) (off : Nat) (r : RegRow) : Bool :=
  r.acc == .rc && !h.isFused (pageOfOff off) && !h.resetting.contains (pageOfOff off)

/-- Clears a register that has been read, with what its page's summary line does. -/
def Hw.clearReg (h : Hw) (off : Nat) : Hw := h.setReg off 0

/-- One aligned 32-bit read: the value, and the state with the shadow filled (R37) and RC registers cleared (R34). -/
def Hw.readAct (h : Hw) (r : Req) (off : Nat) : Word × Hw :=
  let live := h.readWord off (reqBank r)
  match regRow off with
  | none => (live, h)
  | some row =>
    match row.half with
    | .one => (live, if h.clears off row then h.clearReg off else h)
    | .lo =>
      let h' := h.setAcc r { h.acc r with shadow := some (off, h.readWord (off + 4) (reqBank r)) }
      (live, if h.clears off row then (h'.clearReg off).clearReg (off + 4) else h')
    | .hi =>
      match (h.acc r).shadow with
      | some (o, v) => if o + 4 = off then (v, h) else (live, if h.clears off row then h.clearReg off else h)
      | none => (live, if h.clears off row then h.clearReg off else h)

/-- The bytes `o` to `o + n − 1` of a word. -/
def wordBytes (w : Word) (o n : Nat) : List Byte := ((leBytes 4 w.toNat).drop o).take n

/-- Reads `n` bytes from `off` up, one read of each register touched, lower address first. -/
def Hw.readBytes (r : Req) : Nat → Nat → Nat → Hw → List Byte × Hw
  | 0, _, _, h => ([], h)
  | fuel + 1, off, n, h =>
    if n = 0 then ([], h)
    else
      let k := min n (4 - off % 4)
      let (w, h) := h.readAct r (off / 4 * 4)
      let (rest, h) := Hw.readBytes r fuel (off + k) (n - k) h
      (wordBytes w (off % 4) k ++ rest, h)

/-- A read of the window, behind a write of its port that waits (log entry 77): longer than 8 bytes it is completed with Unsupported Request, here no bytes, and counted (R410); in Watch and
Deep a port's read wakes the module and is completed with Unsupported Request (R434). -/
def regRead (r : Req) (off size : Nat) (h : Hw) : Hw :=
  if h.portHeld r then h.holdPort r (.regRead off size)
  else if 3 ≤ h.pow.state then
    let h := h.turnAway r (pageOfOff off) (inPage off)
    if r = .handler then h else h.send (.readReply r [])
  else if 8 < size then (h.badAccess off).send (.readReply r [])
  else
    let (bs, h) := Hw.readBytes r 4 off size h
    h.send (.readReply r bs)

/-! ### Plain writes (R34 to R38, R81) -/

/-- Whether ring pointer `v` passes `tail`: it lies after it. -/
def passes (v tail : Nat) : Bool := decide (0 < ptrSub v tail ∧ ptrSub v tail < 0x80000000)

/-- The queue whose register block holds page offset `o` of page `p`, and the offset in the block. -/
def queueAt (p o : Nat) : Option (QId × Nat) :=
  match pageEng p with
  | none => none
  | some e =>
    let lo := match e with | .core _ => 0x100 | .stage _ _ => 0x200
    if lo ≤ o ∧ o < lo + 0x40 * engQueues e then some (⟨e, (o - lo) / 0x40⟩, (o - lo) % 0x40) else none

/-- Whether the owning chapter lets the runtime write this register now (R74, R118, R405), and takes the value (the ring heads that
may not pass their tails, and the fields of an enabled window). -/
def Hw.writable (h : Hw) (p o : Nat) (v : Nat) : Bool :=
  match blockOf p with
  | some (.dma, n) => !(decide (0x040 ≤ o ∧ o ≤ 0x050) && decide (1 ≤ h.dmaSt n ∧ h.dmaSt n ≤ 4))
  | some (.emb, _) =>
    if 0x400 ≤ o ∧ o < 0xC00 ∧ o % 0x20 = 0x14 then !passes v (h.rd p (o + 4)) else queueGate
  | some (.srv, _) => if o = 0x060 then !passes v (h.rd p 0x064) else queueGate
  | some (.bist, _) => !(o == 0x06C && passes v (h.rd p 0x070))
  | some (.lsh, _) =>
    if o = 0x10C then !h.bit 0x012 0x100 0
    else if 0x200 ≤ o ∧ o < 0x400 then
      let c := h.rd 0x012 (o / 0x20 * 0x20 + 0x10)
      !bitOf c 0 || (o % 0x20 == 0x10 && v / 2 % 0x200 == c / 2 % 0x200)
    else true
  | _ => queueGate
where
  queueGate : Bool :=
    match queueAt p o with
    | some (id, k) => if k = 0x00 ∨ k = 0x04 ∨ k = 0x08 ∨ k = 0x24 ∨ k = 0x28 then h.queueOpenToWrites id else true
    | none => true

/-- Whether a value lies in the range a field states (R36), and its tier code is one that a register takes (R81). -/
def RegRow.takes (row : RegRow) (v : Nat) : Bool :=
  (match row.range with
    | some (s, w, lo, hi) => decide (lo ≤ v / 2 ^ s % 2 ^ w ∧ v / 2 ^ s % 2 ^ w ≤ hi)
    | none => true) && !(row.tier && decide (2 ≤ v % 4))

/-- Stores the RW bits of a row. -/
def Hw.putReg (h : Hw) (off bank : Nat) (row : RegRow) (v : Nat) : Hw :=
  let m : Word := BitVec.ofNat 32 row.mask
  h.setReg off ((h.reg off bank &&& ~~~m) ||| (BitVec.ofNat 32 v &&& m)) bank

/-- The group that GRP_SEL selects. -/
def Hw.selGroup (h : Hw) : Nat := h.rd 0x0C5 0x08C % 256

/-- The LO half that a write of the HI half at `off` takes: the one staged for it, else the live one (R38). -/
def Hw.loHalf (h : Hw) (r : Req) (off : Nat) : Word :=
  match (h.acc r).staging with
  | some (o, v) => if o + 4 = off then v else h.readWord (off - 4) (reqBank r)
  | none => h.readWord (off - 4) (reqBank r)

/-- A write of a HI half: both halves are replaced at once (R38). The cores of a commit group stand in the commit-group table (R350). -/
def Hw.storeHi (h : Hw) (r : Req) (off : Nat) (row : RegRow) (v : Nat) : Hw :=
  let bank := reqBank r
  let grp := match blockOf (pageOfOff off) with | some (.srv, _) => inPage off == 0x094 | _ => false
  if grp then
    h.setGroup h.selGroup { h.group h.selGroup with
      cores := BitVec.ofNat 48 ((h.loHalf r off).toNat + v % 0x10000 * 0x100000000) }
  else
    let lo := match regRow (off - 4) with
      | some l => h.putReg (off - 4) bank l (h.stagedLo r (off - 4) bank).toNat
      | none => h
    lo.putReg off bank row v

/-- What an accepted plain write carries along, given the state before it: the rise of a page's line (R42), the records of a slice that
soft reset held back (R520), that a DMA copy is a new one (log entry 80), the start of a prefetch stream (R106), the timer's next match (R439), the base of SNAP deltas (R495). -/
def Hw.afterWrite (old : Hw) (p o : Nat) (h : Hw) : Hw :=
  match blockOf p with
  | some (.mmu, m) =>
    if o = 0x050 then { h with mmu := { h.mmu with blocked := h.mmu.blocked.filter (· != m) } } else h
  | some (.dma, n) =>
    if 0x040 ≤ o ∧ o ≤ 0x050 then h.setCh n { h.ch n with poisoned := false, ports := [] } else h
  | some (.mig, _) =>
    if 0x080 ≤ o ∧ o < 0x280 ∧ o % 0x20 = 0x18 then
      let s := (o - 0x080) / 0x20
      if h.bit p o 0 && !old.bit p o 0 then h.setStream s { layer := (h.pfLayers s + 0xFFFF) % 0x10000 } else h
    else h
  | some (.pwr, _) => if o = 0x0B8 ∨ o = 0x0BC then h.setPow fun w => { w with timerFired := false } else h
  | some (.trc, _) =>
    if o = 0x040 then (if h.bit p o 0 != old.bit p o 0 && !h.trc.off then h.raise p 0 else h)
    else if o = 0x048 then { h with trc := { h.trc with snapAt := h.time, snapBase := h.trc.counters.filter fun e => decide (e.1 % 64 < 3) } }
    else h
  | _ => h

/-- A 32-bit write of a register that has no row of its own. -/
def plainWrite (r : Req) (off : Nat) (v : Word) (h : Hw) : Hw :=
  let p := pageOfOff off
  let o := inPage off
  let bank := reqBank r
  h.guardWrite r p o v.toNat fun h =>
    match regRow off with
    | none => h
    | some row =>
      let v := v.toNat
      let bad := h.badAccess off
      let ok := (!row.handler || r == .handler) && row.takes v && h.writable p o v
      match row.acc with
      | .ro | .rc | .wo => if row.half = .hi then h.unstage r else h
      | .rw =>
        match row.half with
        | .one => if ok then h.watch p (fun g => Hw.afterWrite h p o (g.putReg off bank row v)) else bad
        | .lo => if ok then h.stageLo r off (BitVec.ofNat 32 v) else bad
        | .hi =>
          if !ok then bad.unstage r else Hw.afterWrite h p o ((h.storeHi r off row v).unstage r)

/-! ### PAGE_CTL (R39 to R41, R489) -/

/-- What setting PAGE_CTL.enable starts: a DMA start that waited for it (R117), accesses that waited at a slice (R86), a scan (R40), and the
SYSTEM record of tracing (R492). -/
def Hw.pageEnabled (h : Hw) (p : Nat) : Hw :=
  match blockOf p with
  | some (.dma, n) => if h.dmaSt n = dPENDING then h.dmaStart n (h.ch n).pendBy else h
  | some (.mmu, _) => h.drainOutside
  | some (.tier, _) => match h.mig.scanWait with
    | some t => h.startScan t
    | none => h
  | some (.trc, _) => h.trace { type := 8, engine := 0, arg0 := 5 }
  | _ => h

/-- Steps 1 to 3 of a soft reset (R41): uncommitted work of the page is killed, but for a command whose commit step has begun and what
R269 and R346 let finish; a transfer stops (R122); moves that have not flipped are undone (R104); a self-test is aborted (R481). -/
def Hw.resetBegin (h : Hw) (p : Nat) : Hw :=
  match pageEng p with
  | some e =>
    let ids := engQs e
    let busy := ids.filter fun id => decide (h.uncommitted id ≠ 0)
    let h := ids.foldl (fun h id => h.setQs id { h.qs id with cause := 0 }) h
    let h := busy.foldl (fun h id => (h.pckReset id).killOrDefer id .reset) h
    busy.foldl (fun h id => if (h.qs id).cmds.isEmpty then h.setQs id { h.qs id with cause := causeNo .reset } else h) h
  | none =>
    match blockOf p with
    | some (.dma, n) => if h.dmaSt n = dPENDING ∨ h.dmaSt n = dRUNNING ∨ h.dmaSt n = dWAIT_MOVE then h.dmaStopAct n else h
    | some (.mig, _) => h.settleTaken.abortMoves 8 fun _ => true
    | some (.bist, _) => if h.bist.busy then (h.setBist fun b => { b with left := 0, aborted := true }).bistEnd else h
    | _ => h

/-- A write of PAGE_CTL. Enable and step_mode are stored, step lets one command go, and soft_reset starts last. -/
def pageCtlWrite (r : Req) (p : Nat) (v : Nat) (h : Hw) : Hw :=
  h.guardWrite r p 0x008 v fun h =>
    match blockOf p with
    | none => h
    | some (b, _) =>
      let was := h.enabled p
      let h := h.wr p 0x008 (v &&& (if b.alwaysEnabled then 4 else 5))
      let h := if h.enabled p && !was then h.pageEnabled p else h
      let h := if b.stepCapable && (!bitOf v 2 || bitOf v 3) then { h with stepHeld := h.stepHeld.filter (· != p) } else h
      if bitOf v 1 && b.resetCapable && !h.resetting.contains p then
        { h with resetting := h.resetting ++ [p] }.resetBegin p
      else h

/-- PAGE_ENABLE (R40): PAGE_CTL written with no bit that starts anything. -/
def execPageEnable (r : Req) (page : Nat) (v : Word) (s : State) : Out :=
  if 0x4000 ≤ page then .fault .outOfWindow else .next (s.onHw (pageCtlWrite r page (v.toNat &&& 5)))

/-- STEP_MODE (R489): the same register, for its bit 2. -/
def execStepMode (r : Req) (page : Nat) (v : Word) (s : State) : Out :=
  if 0x4000 ≤ page then .fault .outOfWindow else .next (s.onHw (pageCtlWrite r page (v.toNat &&& 5)))

/-- STEP (R489): PAGE_CTL written with bit 3. -/
def execStep (r : Req) (page : Nat) (v : Word) (s : State) : Out :=
  if 0x4000 ≤ page then .fault .outOfWindow else .next (s.onHw (pageCtlWrite r page (v.toNat ||| 8)))

/-- SOFT_RESET (R41): PAGE_CTL written with bit 1. -/
def execSoftReset (r : Req) (page : Nat) (v : Word) (s : State) : Out :=
  if 0x4000 ≤ page then .fault .outOfWindow else .next (s.onHw (pageCtlWrite r page (v.toNat ||| 2)))

/-- Whether steps 1 to 3 of a soft reset are over. -/
def Hw.resetQuiet (h : Hw) (p : Nat) : Bool :=
  match pageEng p with
  | some e => (engQs e).all fun id => (h.qs id).cmds.isEmpty
  | none =>
    match blockOf p with
    | some (.dma, n) => h.dmaSt n != dRUNNING && h.dmaSt n != dWAIT_MOVE && !(h.ch n).stopAfter
    | some (.mig, _) => h.mig.moves.all fun m => decide (m.stage ≠ 3)
    | some (.bist, _) => h.bist.running.isEmpty
    | _ => true

/-- Whether a soft reset of its page keeps a register: PAGE_ID, PAGE_CAPS, IRQ_MASK and PAGE_CTL, and the queue registers of R76. That
PAGE_CTL.step_mode stays with PAGE_CTL.enable is the model's choice (log entry 59). -/
def softKept (p o : Nat) : Bool :=
  (decide (o < 0x040) && !(o == 0x010 || o == 0x018 || o == 0x01C)) ||
    (match queueAt p o with
      | some (_, k) => k != 0x1C && k != 0x20
      | none => false)

/-- Whether the register whose key is `k` is one of page `p`, where it stands there or the page presents it as a view (R231, R273, R299,
R378, R405). -/
def ofPage (p k : Nat) : Bool := decide (homeOff (pageOff p (inPage (k / 4))) = k / 4)

/-- A fault record in detection order: by the time in its first 8 bytes. -/
def insertRec (a : PendRec) : List PendRec → List PendRec
  | [] => [a]
  | b :: t => if bnum a.record 0 8 < bnum b.record 0 8 then a :: b :: t else b :: insertRec a t

/-- What a soft reset of slice `m` leaves (R520). -/
def Hw.mmuReset (h : Hw) (m : Nat) : Hw :=
  let mine := h.mmu.pend.filter fun r => r.slice = m
  let held := (h.mmu.held.filter fun x => x.slice = m ∧ x.record ≠ [] ∧ !mine.any fun r => r.record = x.record).map fun x => PendRec.mk m x.record
  { h with mmu := { h.mmu with
    tlb := h.mmu.tlb.filter fun e => e.holder ≠ m
    pend := (h.mmu.pend.filter fun r => r.slice ≠ m) ++ (mine ++ held).foldl (fun l r => insertRec r l) []
    blocked := if h.mmu.blocked.contains m then h.mmu.blocked else h.mmu.blocked ++ [m] } }

/-- What a soft reset does to what a block holds beside its registers. -/
def Hw.resetBlock (h : Hw) (p : Nat) : Hw :=
  let h := match pageEng p with
    | none => h
    | some e => (engQs e).foldl (fun h id =>
        let h := h.setQs id { h.qs id with draining := false, rejected := none, deferred := [], held := none, moveHold := none,
                                           mirWaited := false, ctx := [], grammar := [], reload := false }
        ((h.enterSt id .disabled).qwr id 0x10 (h.qCommit id))) h
  match blockOf p with
  | some (.core, n) => { h with sfu := alDel n h.sfu }
  | some (.emb, d) => { h with gathers := h.gathers.filter fun g => g.quad ≠ d, exch := h.exch.filter fun f => f.quad ≠ d }
  | some (.rtv, d) => { h with cbTag := alDel d h.cbTag }
  | some (.muz, d) => { h with muzCtx := h.muzCtx.filter fun x => engPage x.1.eng ≠ engPage (stageEng d .muz) }
  | some (.srv, d) => h.setSrvUnit d { h.srvUnit d with subs := [], fixes := [] }
  | some (.dma, n) => h.setCh n { run := (h.ch n).run + 1 }
  | some (.mmu, m) => h.mmuReset m
  | some (.mig, _) => { h with mig := { h.mig with streams := [] } }
  | some (.tier, _) => { h with mig := { h.mig with scanBusy := none, scanWait := none } }
  | some (.bist, _) => h.setBist fun b => { holds := b.holds, spares := b.spares, steered := b.steered }
  | _ => h

/-- Step 4 for TRC: the records in the FIFO are discarded and counted, and a LOSS record follows (R501). -/
def Hw.trcReset (h : Hw) (p : Nat) : Hw :=
  if p ≠ 0x008 ∨ h.trc.fifo = [] then h
  else
    let n := h.trc.fifo.length
    let h := h.count 0x008 0x058 n
    { h with trc := { h.trc with fifo := [], dropped := h.trc.dropped + n, firstDrop := if h.trc.dropped = 0 then h.time else h.trc.firstDrop } }

/-- Steps 4 and 5 of R41. -/
def softResetDone (page : Nat) (h : Hw) : Hw :=
  if !h.resetting.contains page || !h.resetQuiet page then h
  else
    let h := if page = 0x024 then h.abortMoves 8 fun _ => true else h
    let h := h.resetBlock page
    let h := { h with regs := h.regs.filter fun e => !ofPage page e.1 || softKept page (inPage (e.1 / 4)) }
    { h.trcReset page with resetting := h.resetting.filter (· != page) }

/-- SOFT_RESET_DONE (R41, R76, R520). -/
def execSoftResetDone (page : Nat) (s : State) : Out :=
  if 0x4000 ≤ page then .fault .outOfWindow else .next (s.onHw (softResetDone page))

/-! ### HOST_ABI (R46 to R49) -/

def hostAbiWrite (r : Req) (v : Word) (h : Hw) : Hw :=
  h.guardWrite r 0x000 0x044 v.toNat fun h =>
    let v := v.toNat % 0x1000000
    let h := (h.wr 0x000 0x044 v (reqBank r)).recomputeAbi
    if r ≠ .handler ∧ v ≠ 0 ∧ bitsOf v 23 16 ≠ 1 then h.err 0x000 0 cABI else h

/-- HOST_ABI (R46). -/
def execHostAbi (r : Req) (v : Word) (s : State) : Out := .next (s.onHw (hostAbiWrite r v))

/-! ### Writes that act -/

/-- The effect of a 32-bit write on the hardware part, for a register with a row of its own; none where it is a plain register, or
where the value starts nothing and the write is a plain one. -/
def actsOn (r : Req) (p o : Nat) (v : Word) : Option (Hw → Hw) :=
  let go (f : Hw → Hw) : Option (Hw → Hw) := if bitOf v.toNat 0 then some f else none
  match queueAt p o with
  | some (id, 0x0C) => some (queueTailWrite r id v)
  | some (id, 0x14) => some (queueCommitWrite r id v)
  | some (id, 0x1C) => some (qctlWrite r id v.toNat)
  | some (id, 0x38) => some (cqHeadWrite r id v)
  | some _ => none
  | none =>
    match blockOf p with
    | none => none
    | some (b, i) =>
      if o = 0x008 then some (pageCtlWrite r p v.toNat)
      else match b with
        | .glb => if o = 0x044 then some (hostAbiWrite r v) else none
        | .pwr => if o = 0x044 then some (vote r v) else if o = 0x0C4 then go (offOk r v) else none
        | .clk => if 0x040 ≤ o ∧ o < 0x050 ∧ o % 4 = 0 then some (pointRequest r (Fin.ofNat 4 ((o - 0x040) / 4)) v) else none
        | .irq => if o = 0x070 then some (sumAck r v) else if o = 0x07C then some (swTrig r v) else none
        | .bist => if o = 0x040 then some (bistCtlWrite r v.toNat) else if o = 0x078 then go (repairApply r) else none
        | .dbg => if o = 0x040 then some (engSel r v) else if o = 0x060 then some (counterClear r v.toNat) else none
        | .lsh => if o = 0x040 then go (linkRetrain (Fin.ofNat 4 i) (some r) v) else if o = 0x100 then some (pairCtlWrite r v) else none
        | .mmu => if o = 0x05C then some (faultClear r (Fin.ofNat 4 i) v) else if o = 0x06C then go (tlbInvalidate r (Fin.ofNat 4 i) v) else none
        | .mig =>
          if o = 0x04C then some (mreqTailWrite r v)
          else if 0x080 ≤ o ∧ o < 0x280 ∧ o % 0x20 = 0x0C then some (prefetchTailWrite r (Fin.ofNat 16 ((o - 0x080) / 0x20)) v) else none
        | .tier => if o = 0x05C then go (scanStart r v) else none
        | .dma => if o = 0x054 then some fun h => h.dmaCtlWrite r i v.toNat else none
        | .core =>
          if o = 0x308 then some (treeModeWrite r (Fin.ofNat 48 i) v)
          else if o = 0x310 ∨ (0x318 ≤ o ∧ o < 0x338 ∧ o % 4 = 0) then some (arrayRepairWrite r i o v)
          else if o = 0x444 then go (sfuInvalidate r (Fin.ofNat 48 i) v) else none
        | .spl => if 0x080 ≤ o ∧ o < 0x180 ∧ o % 0x10 = 0x8 then go (vocabFlip r (Fin.ofNat 4 i) (Fin.ofNat 16 ((o - 0x080) / 0x10)) v) else none
        | .emb => if 0x400 ≤ o ∧ o < 0xC00 ∧ o % 0x20 = 0x08 then go (tableFlip r (Fin.ofNat 4 i) (Fin.ofNat 64 ((o - 0x400) / 0x20)) v) else none
        | .rtv => if 0x400 ≤ o ∧ o < 0x600 ∧ o % 0x20 = 0x08 then go (indexFlip r (Fin.ofNat 4 i) (Fin.ofNat 16 ((o - 0x400) / 0x20)) v) else none
        | .srv =>
          if o = 0x088 then go (slotResume r (Fin.ofNat 4 i) v) else if o = 0x098 then some (grpCtlWrite r (Fin.ofNat 4 i) v)
          else if 0x800 ≤ o ∧ o < 0xC00 ∧ o % 4 = 0 then some (mboxWrite r (Fin.ofNat 4 i) (Fin.ofNat 256 ((o - 0x800) / 4)) v) else none
        | _ => none

/-- One aligned 32-bit write. -/
def State.writeWord (s : State) (r : Req) (off : Nat) (v : Word) : State :=
  let p := pageOfOff off
  let o := inPage off
  let plain : State := { s with hw := plainWrite r off v s.hw }
  if p = 0x003 ∧ o = 0x044 then modReset r v s
  else if p = 0x003 ∧ o = 0x050 then
    s.wdogWrite r 0x050 fun s =>
      let s' : State := { s with hw := plainWrite r off v s.hw }
      if bitOf v.toNat 0 && !s.hw.bit 0x003 0x050 0 then s'.wdogStart else s'
  else if p = 0x003 ∧ o = 0x054 then s.wdogWrite r 0x054 State.wdogStart
  else if p = 0x003 ∧ o = 0x060 then reqCtl r v.toNat s
  else if p = 0x005 ∧ o = 0x058 then bootCtl r v.toNat s
  else if p = 0x005 ∧ o = 0x068 ∧ bitOf v.toNat 0 then sign r v.toNat s
  else if p = 0x006 ∧ o = 0x040 ∧ bitOf v.toNat 0 then s.guardWrite r 0x006 0x040 v.toNat fun s => s.lifeAppend 3
  else match actsOn r p o v with
    | some f => { s with hw := f s.hw }
    | none => plain

/-- A write of the window (R28, R410): 64 bits as two words, lower address first; any other width than 32 bits, or an unaligned
address, is discarded and counted. -/
def State.writeBytes (s : State) (r : Req) (off size v : Nat) : State :=
  if off % 4 = 0 ∧ size = 4 then s.writeWord r off (BitVec.ofNat 32 v)
  else if off % 4 = 0 ∧ size = 8 then (s.writeWord r off (BitVec.ofNat 32 v)).writeWord r (off + 4) (BitVec.ofNat 32 (v / 0x100000000))
  else if 3 ≤ s.hw.pow.state then { s with hw := s.hw.turnAway r (pageOfOff off) (inPage off) }
  else { s with hw := s.hw.badAccess off }

/-! ### The rows -/

/-- REGISTER_WRITE (R26 to R28, R34 to R38). -/
def execRegisterWrite (r : Req) (off size v : Nat) (s : State) : Out :=
  if size = 0 ∨ 8 * size ≤ v.log2 then .refused (.illFormed "REGISTER_WRITE")
  else if 0x4000000 < off + size then .fault .outOfWindow
  else .next (s.whenUp fun s => s.writeBytes r off size v)

/-- READ_CLEAR (R28, R34, R37): a read, with all it clears. -/
def execReadClear (r : Req) (off size : Nat) (s : State) : Out :=
  if size = 0 then .refused (.illFormed "READ_CLEAR")
  else if 0x4000000 < off + size then .fault .outOfWindow
  else .next (s.onHw (regRead r off size))

/-- Whether `off` is the LO half of a 64-bit quantity. -/
def isLo (off : Nat) : Bool := (regRow off).any fun row => row.half == .lo

/-- LO_READ (R37). -/
def execLoRead (r : Req) (off : Nat) (s : State) : Out :=
  if !isLo off then .refused (.illFormed "LO_READ") else .next (s.onHw (regRead r off 4))

/-- Whether `off` is the HI half of a 64-bit quantity. -/
def isHi (off : Nat) : Bool := (regRow off).any fun row => row.half == .hi

/-- HI_READ (R37). -/
def execHiRead (r : Req) (off : Nat) (s : State) : Out :=
  if !isHi off then .refused (.illFormed "HI_READ") else .next (s.onHw (regRead r off 4))

/-- LO_WRITE (R38). -/
def execLoWrite (r : Req) (off : Nat) (v : Word) (s : State) : Out :=
  if !isLo off then .refused (.illFormed "LO_WRITE") else .next (s.whenUp fun s => s.writeWord r off v)

/-- HI_WRITE (R38). -/
def execHiWrite (r : Req) (off : Nat) (v : Word) (s : State) : Out :=
  if !isHi off then .refused (.illFormed "HI_WRITE") else .next (s.whenUp fun s => s.writeWord r off v)

end Sys2Proof.Machine
end

