-- ==== Sys2Proof/Machine/Tick.lean ====
section
/-! DEFINITION. What passes with time while no command waits: one tick of global time (R439), the applying and sending that a commit or
an arrival leaves to be done as soon as it can be, and the engine counters (R483 to R487). Log entry 60 says what a tick stands for. -/

namespace Sys2Proof.Machine

/-! ### The class of an engine's cycles (R484 to R486) -/

/-- What an engine does in a cycle: nothing, work, or a wait under a stall code, with the command it does it for. -/
inductive Cycle where
  | idle
  | busy (d : Option (BitVec 512))
  | stalled (code : Nat) (d : Option (BitVec 512))
  deriving DecidableEq, Repr

/-- The first failing condition of R59 for a queue whose head waits, by stall code; none where nothing stops it. -/
def Hw.headStall (h : Hw) (id : QId) : Option (Nat × Option (BitVec 512)) :=
  let p := engPage id.eng
  if (h.qs id).st = .faultHold then some (11, none)
  else if h.stepHeld.contains p then some (14, none)
  else if bitsOf (h.qrd id 0x18) 8 0 ≤ h.uncommitted id then some (0, none)
  else match h.headOf id with
    | .error _ => some (if (h.qs id).reload && (match h.ctxRead id (h.qCtx id) with | .ok _ => false | .error _ => true) then 15 else 10, none)
    | .ok x =>
      match id.eng with
      | .stage _ _ => if (h.headWaits x).isSome then some (4, some x.desc) else none
      | .core n =>
        if dFence x.desc && h.qIssue id != h.qCommit id then some (1, some x.desc)
        else if dWaitEn x.desc && h.sem n.val (dWaitSem x.desc) == 0 then some (2, some x.desc)
        else if !h.headFit x then some (3, some x.desc)
        else if !h.unitFree x then some (4, some x.desc)
        else none

/-- Whether a queue holds a head that waits at issue. -/
def Hw.headWaiting (h : Hw) (id : QId) : Bool :=
  let q := h.qs id
  h.qEnable id && (q.st == .running || q.st == .faultHold) && q.rejected.isNone && h.qIssue id != h.qTail id

/-- A WAIT_MEM that a core runs (R485). -/
def Hw.waitMem (h : Hw) (e : Eng) : Option Cmd :=
  match e with
  | .core _ => (engQs e).findSome? fun id => (h.running id 0x04).head?
  | .stage _ _ => none

/-- The class of the part of an engine that issues: the lowest-numbered waiting head names the stall, unless one issues; that a WAIT_MEM
with nothing else counts under code 2 is read from R485 (log entry 90). -/
def Hw.issueCycle (h : Hw) (e : Eng) : Cycle :=
  let ids := (engQs e).filter h.headWaiting
  let on := h.enabled (engPage e)
  if on && ids.any fun id => (h.headStall id).isNone then .busy none
  else match ids.head? with
    | some id => match h.headStall id with
      | some (c, d) => .stalled c d
      | none => .idle
    | none => match (engQs e).find? fun id => h.atGate id && ((h.qs id).st == .running || (h.qs id).st == .faultHold) with
      | some id => .stalled 12 ((h.qs id).cmds.head?.map (·.desc))
      | none => match h.waitMem e with
        | some c => .stalled 2 (some c.desc)
        | none => .idle

/-- The command that occupies the units `mask` of a core, and its queue. -/
def Hw.unitCmd (h : Hw) (n mask : Nat) : Option (QId × Cmd) :=
  (engQs (coreEng n)).findSome? fun id =>
    ((h.qs id).cmds.find? fun c => !c.skipped && !c.finished && coreUnits c.desc &&& mask != 0).map fun c => (id, c)

/-- What a core unit's command waits for: its operand's result slot or granules (R53, R144), memory (R86), or the load of its
microprogram (R203). -/
def Hw.operandStall (h : Hw) (id : QId) (c : Cmd) : Option Nat :=
  match h.source id c 0 (min (dSrcLen c.desc) 1) with
  | .error .notYet => some 6
  | .error (.rd .wait) => some 10
  | _ =>
    if !h.enabled (0x020 + (queueMaster id).slice) then some 10
    else if coreUnits c.desc = 32 ∧ sfuReady c = false then some 15
    else none

/-- The first array of a command: all its members hold together. -/
def firstArray (d : BitVec 512) : Nat := ((List.range 4).find? fun a => bitOf (coreUnits d) a).getD 0

/-- How `n` cycles of a unit of a core divide among its classes (R128, R129, R143): of an array, those without a row to feed, those
that wait for weights, and the rest; of another unit, those a bank refuses. -/
def Hw.unitCycles (h : Hw) (core e n : Nat) : List (Cycle × Nat) :=
  match h.unitCmd core (2 ^ (e - 1)) with
  | none => [(.idle, n)]
  | some (id, c) =>
    let d := some c.desc
    match h.operandStall id c with
    | some k => [(.stalled k d, n)]
    | none =>
      if e < 5 then
        let fed := min n (Config.lostCycles 7 (8 * core + 1 + firstArray c.desc) h.time)
        let stall := (matmulOp c.desc).loadStalls c.tree
        let load := stall (c.ran + (n - fed)) - stall c.ran
        [(.stalled 7 d, fed), (.stalled 8 d, load), (.busy d, n - fed - load)]
      else
        let lost := min n (Config.lostCycles 9 (8 * core + e) h.time)
        [(.stalled 9 d, lost), (.busy d, n - lost)]

/-- Why a stage unit's command does not advance: the lowest code that applies (R485). -/
def Hw.stageStall (h : Hw) (id : QId) (c : Cmd) : Option Nat :=
  let q := h.qs id
  let far := match c.work with
    | .emb w => w.sent && !w.batches.isEmpty && w.batches.all fun b => b.module != h.moduleNo
    | _ => false
  if h.pckAwaits id then some 2
  else if !h.enabled (0x020 + (queueMaster id).slice) || far then some 10
  else if q.st == .faultHold || q.moveHold.isSome then some 11
  else none

/-- What a unit with no command in execution holds besides: a serving block that waits for room in a queue it submits to or in its
event ring (R15, R356, R376), and gathers of a mailbox port that wait. -/
def Hw.stageRest (h : Hw) (d : Nat) (u : StageUnit) : Option Nat :=
  let s := h.srvUnit d
  if u = .srv ∧ (s.subs ≠ [] ∨ s.fixes ≠ [] ∨ s.events ≠ []) then some (if h.isHeld (srvMaster d) then 11 else 13)
  else if u = .emb then (h.gathers.find? fun g => g.quad = d).map fun g => if g.held then 11 else 10
  else none

/-- A stage unit: it advances a command of one of its queues, or what holds it up; else what it issues. -/
def Hw.stageCycle (h : Hw) (d : Nat) (u : StageUnit) : Cycle :=
  let run := (engQs (stageEng d u)).filterMap fun id =>
    ((h.qs id).cmds.find? fun c => !c.finished).map fun c => (c.desc, h.stageStall id c)
  match run.find? fun x => x.2.isNone with
  | some x => .busy (some x.1)
  | none =>
    match run.head? with
    | some x => .stalled (x.2.getD 0) (some x.1)
    | none =>
      match h.issueCycle (stageEng d u), h.stageRest d u with
      | .idle, some k => .stalled k none
      | c, _ => c

/-- A DMA channel: that another channel has borrowed the lines it asks for is back-pressure. -/
def Hw.dmaCycle (h : Hw) (n : Nat) : Cycle :=
  let st := h.dmaSt n
  if st = dWAIT_MOVE then .stalled 11 none
  else if st = dRUNNING ∨ st = dSTOPPING then
    if h.dmaCanRead n || h.dmaCanWrite n then .busy none
    else if (h.dmaWants n).isSome ∧ h.dmaRoom n = false ∧ (h.dmaReady n).isSome = false ∧ h.dmaHeld n = dmaReserve then .stalled 13 none
    else .stalled 10 none
  else .idle

/-- How `n` cycles of a counted engine divide among its classes (R483). -/
def Hw.engCycles (h : Hw) (id n : Nat) : List (Cycle × Nat) :=
  if id < 384 then
    if id % 8 = 0 then [(h.issueCycle (coreEng (id / 8)), n)] else h.unitCycles (id / 8) (id % 8) n
  else if id < 408 then
    [(h.stageCycle ((id - 384) / 6) ([StageUnit.spl, .rtv, .emb, .pck, .muz, .srv].getD ((id - 384) % 6) .spl), n)]
  else if id < 440 then [(h.dmaCycle (id - 408), n)]
  else [(if h.pageBusy 0x024 then .busy none else .idle, n)]

/-- The cycles of an engine's clock in one tick, 0 where it is gated (R429, R441): CCLK runs in Run only, FCLK in Idle for units with
work and in Hold not for the stage units. -/
def Hw.engClock (h : Hw) (id : Nat) : Nat :=
  let st := h.pow.state
  let idle := match h.engCycles id 48 with | [(.idle, _)] => true | _ => false
  if id < 384 then (if st = 0 then h.cclk (id / 8) 40 else 0)
  else if st = 0 then 48
  else if 3 ≤ st ∨ idle = true ∨ (st = 2 ∧ id < 408) then 0
  else 48

/-- Whether the filtered bank counts a cycle of a command (R487, R494). -/
def Hw.dbgMatches (h : Hw) (id : Nat) : Option (BitVec 512) → Bool
  | some d => h.bit 0x009 0x064 0 && h.filterMatch 0x009 0x104 id (dJob d) (dLayer d) (dOper d)
  | none => false

/-- Adds cycles of one class to the counters of an engine, and to those of its core (R128, R129, R143). -/
def Hw.countCycles (id : Nat) (h : Hw) (x : Cycle × Nat) : Hw :=
  let n := x.2
  if n = 0 then h
  else match x.1 with
    | .idle => h.addCtr id 0 2 n
    | .busy d =>
      let g := h.addCtr id 0 0 n
      if h.dbgMatches id d then g.addCtr id 1 0 n else g
    | .stalled k d =>
      let g := (h.addCtr id 0 1 n).addCtr id 0 (3 + k) n
      let g := if h.dbgMatches id d then (g.addCtr id 1 1 n).addCtr id 1 (3 + k) n else g
      let p := corePage (id / 8)
      match k with
      | 7 => g.count p 0x340 n
      | 8 => g.count p 0x33C n
      | 9 => g.count p 0x344 n
      | _ => g

/-- Adds a tick's cycles to the counters of one engine. -/
def Hw.countEng (h : Hw) (id : Nat) : Hw := (h.engCycles id (h.engClock id)).foldl (Hw.countCycles id) h

/-- A tick of the array commands of a core: those with their operands have run for as many cycles as their arrays were fed. -/
def Hw.runArrays (h : Hw) (core : Nat) : Hw :=
  if h.pow.state ≠ 0 then h
  else
    let n := h.cclk core 40
    let h := h.count (corePage core) 0x344 (Config.lostCycles 0 core h.time)
    (List.range 4).foldl (fun h a =>
      match h.unitCmd core (2 ^ a) with
      | some (id, c) =>
        if firstArray c.desc = a ∧ (h.operandStall id c).isNone = true then
          h.updCmd id c.ptr fun c => { c with ran := c.ran + (n - min n (Config.lostCycles 7 (8 * core + 1 + a) h.time)) }
        else h
      | none => h) h

/-- Every counted engine (R483). -/
def Hw.countAll (h : Hw) : Hw :=
  let h := (List.range 444).foldl (fun h id => if h.counted id then h.countEng id else h) h
  forN 48 (fun n h => if h.isFused (corePage n) then h else h.runArrays n) h

/-! ### The tick -/

/-- What goes on of itself while the module is in Run, Idle or Hold: mirror packets are applied (R384), ranges are copied in RESYNC
(R395), posted remote writes, gathers of the mailbox ports, batches of other modules and descriptors of the serving block go when they can (R401,
R294, R290, R356), a Packer's wait for a batch count and
a flit's for credit are counted (R341, R397), and a die makes for its effective point (R441). -/
def Hw.runOn (h : Hw) : Hw :=
  let h := h.runInbound
  let h := if h.pair.state = psRESYNC then h.resyncStep else h
  let h := h.runRemote.runGathers
  let h := forN 4 (fun d h => h.srvRetry d) h
  let h := forN 4 (fun p h => if (h.port p).txq.isEmpty then h else h.count (0x012 + p) 0x060 48) h
  let h := forN 16 (fun i h => let e := stageEng (i / 4) .pck
                               if h.pckAwaits ⟨e, i % 4⟩ then h.count (engPage e) 0x058 48 else h) h
  let h := if h.pow.state = 0 then h.retargetAll else h
  let h := if h.busyNow then h.worked else h
  h.countAll

/-- The memory errors that arise in a tick (R98; log entry 76), by the poison unit they fall in: uncorrectable ones, and correctable. -/
def Hw.ageMemory (h : Hw) : Hw :=
  let here := ((Config.bitErrors h.time).filter fun e => inTier e.1 1).map fun e => (e.1 / poisonUnit e.1 * poisonUnit e.1, e.2)
  { h with
    upsets := h.upsets ++ (here.filter fun e => !e.2 && !h.upsets.contains e.1).map (·.1)
    flips := h.flips ++ (here.filter fun e => e.2 && !h.flips.contains e.1).map (·.1) }

/-- One tick. -/
def Hw.tick (h : Hw) : Hw :=
  let h := h.draw.tickTime.ageMemory.replayWake
  if 3 ≤ h.pow.state then h else h.runOn

/-- One request of a host port that waited (R93): a register access that no write of its port holds back is made. -/
def State.portTry (s : State) (x : Port × PortReq) : State :=
  let r := portReq x.1
  match x.2 with
  | .regWrite off v => if s.hw.portHeld r then { s with hw := s.hw.holdPort r x.2 } else s.writeWord r off v
  | .regRead off size => { s with hw := regRead r off size s.hw }
  | .mem _ => { s with hw := s.hw.portTry x }

/-- What the host ports and the Leash ports wait for is tried again, oldest first. -/
def State.drainOutside (s : State) : State :=
  let s := s.hw.portQ.foldl State.portTry { s with hw := { s.hw with portQ := [] } }
  { s with hw := s.hw.leashQ.foldl Hw.leashTry { s.hw with leashQ := [] } }

/-- What the module does while no command waits; while its rails are off only the always-on domain sees VIN_ANA grow older (R446). -/
def State.tick (s : State) : State :=
  if s.hw.pow.off then
    if s.hw.pow.vin.getD 0 false then { s with hw := s.hw.setPow fun w => { w with anaAge := w.anaAge + 40 } } else s
  else
    let s := s.drainOutside.handlerRetry
    { s with hw := s.hw.tick }

end Sys2Proof.Machine
end

