-- ==== Sys2Proof/Machine/Dispatch.lean ====
section
/-! DEFINITION. One arm per command: a direct call of its meaning. -/

namespace Sys2Proof.Machine

/-- What a command does, on everything but the queue of waiting commands. -/
def exec (i : Instr) (s : State) : Host.Outcome State Fault Refusal :=
  match i with
  | .registerWrite r off size v => Sys2Proof.Machine.execRegisterWrite r off size v s
  | .readClear r off size => Sys2Proof.Machine.execReadClear r off size s
  | .loRead r off => Sys2Proof.Machine.execLoRead r off s
  | .hiRead r off => Sys2Proof.Machine.execHiRead r off s
  | .loWrite r off v => Sys2Proof.Machine.execLoWrite r off v s
  | .hiWrite r off v => Sys2Proof.Machine.execHiWrite r off v s
  | .pageEnable r page v => Sys2Proof.Machine.execPageEnable r page v s
  | .softReset r page v => Sys2Proof.Machine.execSoftReset r page v s
  | .softResetDone page => Sys2Proof.Machine.execSoftResetDone page s
  | .drainComplete e q => Sys2Proof.Machine.execDrainComplete e q s
  | .stepMode r page v => Sys2Proof.Machine.execStepMode r page v s
  | .step r page v => Sys2Proof.Machine.execStep r page v s
  | .hostAbi r v => Sys2Proof.Machine.execHostAbi r v s
  | .queueTailWrite r e q v => Sys2Proof.Machine.execQueueTailWrite r e q v s
  | .commandIssue e => Sys2Proof.Machine.execCommandIssue e s
  | .rejectedCommandHalt e q => Sys2Proof.Machine.execRejectedCommandHalt e q s
  | .autoPreempt n => Sys2Proof.Machine.execAutoPreempt n s
  | .groupOverflow n q => Sys2Proof.Machine.execGroupOverflow n q s
  | .nop e q => Sys2Proof.Machine.execNop e q s
  | .ctxLoad e q => Sys2Proof.Machine.execCtxLoad e q s
  | .setPred n q => Sys2Proof.Machine.execSetPred n q s
  | .signal n q => Sys2Proof.Machine.execSignal n q s
  | .waitMem n q => Sys2Proof.Machine.execWaitMem n q s
  | .waitTimeout n q => Sys2Proof.Machine.execWaitTimeout n q s
  | .groupEnd n q => Sys2Proof.Machine.execGroupEnd n q s
  | .traceMark e q => Sys2Proof.Machine.execTraceMark e q s
  | .peerSend n q => Sys2Proof.Machine.execPeerSend n q s
  | .landingArrival n => Sys2Proof.Machine.execLandingArrival n s
  | .hitch n q => Sys2Proof.Machine.execHitch n q s
  | .completionRecordWrite e q => Sys2Proof.Machine.execCompletionRecordWrite e q s
  | .kill e q cause => Sys2Proof.Machine.execKill e q cause s
  | .specReject g step => Sys2Proof.Machine.execSpecReject g step s
  | .specConfirm g step => Sys2Proof.Machine.execSpecConfirm g step s
  | .queueKill r e q v => Sys2Proof.Machine.execQueueKill r e q v s
  | .queueSkip r e q v => Sys2Proof.Machine.execQueueSkip r e q v s
  | .queuePreempt r e q v => Sys2Proof.Machine.execQueuePreempt r e q v s
  | .queueResume r e q v => Sys2Proof.Machine.execQueueResume r e q v s
  | .queueEnable r e q v => Sys2Proof.Machine.execQueueEnable r e q v s
  | .queueCommitWrite r e q v => Sys2Proof.Machine.execQueueCommitWrite r e q v s
  | .cqHeadWrite r e q v => Sys2Proof.Machine.execCqHeadWrite r e q v s
  | .tlbInvalidate r m v => Sys2Proof.Machine.execTlbInvalidate r m v s
  | .invalidationDone m => Sys2Proof.Machine.execInvalidationDone m s
  | .faultRecordWrite m => Sys2Proof.Machine.execFaultRecordWrite m s
  | .faultClear r m v => Sys2Proof.Machine.execFaultClear r m v s
  | .scrub k c corrected bad => Sys2Proof.Machine.execScrub k c corrected bad s
  | .refreshDoubled k c read => Sys2Proof.Machine.execRefreshDoubled k c read s
  | .mreqTailWrite r v => Sys2Proof.Machine.execMreqTailWrite r v s
  | .migrationRequest => Sys2Proof.Machine.execMigrationRequest s
  | .move ix => Sys2Proof.Machine.execMove ix s
  | .moveCopy ix => Sys2Proof.Machine.execMoveCopy ix s
  | .moveFlip ix => Sys2Proof.Machine.execMoveFlip ix s
  | .moveComplete ix => Sys2Proof.Machine.execMoveComplete ix s
  | .charge => Sys2Proof.Machine.execCharge s
  | .release => Sys2Proof.Machine.execRelease s
  | .prefetchTailWrite r st v => Sys2Proof.Machine.execPrefetchTailWrite r st v s
  | .prefetchEntryIssue st => Sys2Proof.Machine.execPrefetchEntryIssue st s
  | .prefetchEntryComplete st => Sys2Proof.Machine.execPrefetchEntryComplete st s
  | .ageRefresh => Sys2Proof.Machine.execAgeRefresh s
  | .scan r v => Sys2Proof.Machine.execScan r v s
  | .scanDone => Sys2Proof.Machine.execScanDone s
  | .dmaGo r n v => Sys2Proof.Machine.execDmaGo r n v s
  | .dmaStop r n v => Sys2Proof.Machine.execDmaStop r n v s
  | .dmaAccessWritten q => Sys2Proof.Machine.execDmaAccessWritten q s
  | .dmaDone n => Sys2Proof.Machine.execDmaDone n s
  | .dmaFaultStop n => Sys2Proof.Machine.execDmaFaultStop n s
  | .dmaWaitMoveRelease n => Sys2Proof.Machine.execDmaWaitMoveRelease n s
  | .dmaStopped n => Sys2Proof.Machine.execDmaStopped n s
  | .matmul n q => Sys2Proof.Machine.execMatmul n q s
  | .matvec n q => Sys2Proof.Machine.execMatvec n q s
  | .treeModeWrite r n v => Sys2Proof.Machine.execTreeModeWrite r n v s
  | .arrayRepairWrite r n o v => Sys2Proof.Machine.execArrayRepairWrite r n o v s
  | .convert n q => Sys2Proof.Machine.execConvert n q s
  | .optUpdate n q => Sys2Proof.Machine.execOptUpdate n q s
  | .sfuMap n q => Sys2Proof.Machine.execSfuMap n q s
  | .sfuGated n q => Sys2Proof.Machine.execSfuGated n q s
  | .softmax n q => Sys2Proof.Machine.execSoftmax n q s
  | .statsMerge n q => Sys2Proof.Machine.execStatsMerge n q s
  | .rowNorm n q => Sys2Proof.Machine.execRowNorm n q s
  | .tableCheck n q => Sys2Proof.Machine.execTableCheck n q s
  | .microprogramLoad n q => Sys2Proof.Machine.execMicroprogramLoad n q s
  | .sfuInvalidate r n v => Sys2Proof.Machine.execSfuInvalidate r n v s
  | .select n q => Sys2Proof.Machine.execSelect n q s
  | .selMerge n q => Sys2Proof.Machine.execSelMerge n q s
  | .selRoute n q => Sys2Proof.Machine.execSelRoute n q s
  | .vocabFlip r d ix v => Sys2Proof.Machine.execVocabFlip r d ix v s
  | .tokenise d q => Sys2Proof.Machine.execTokenise d q s
  | .detokenise d q => Sys2Proof.Machine.execDetokenise d q s
  | .stageCommitStep d u q => Sys2Proof.Machine.execStageCommitStep d u q s
  | .muzStep d q => Sys2Proof.Machine.execMuzStep d q s
  | .muzCommit d q => Sys2Proof.Machine.execMuzCommit d q s
  | .tableFlip r d ix v => Sys2Proof.Machine.execTableFlip r d ix v s
  | .embGather d q => Sys2Proof.Machine.execEmbGather d q s
  | .embUpdate d q => Sys2Proof.Machine.execEmbUpdate d q s
  | .rowPut d q => Sys2Proof.Machine.execRowPut d q s
  | .rowMove d q => Sys2Proof.Machine.execRowMove d q s
  | .publish d q => Sys2Proof.Machine.execPublish d q s
  | .freeRingWrite t => Sys2Proof.Machine.execFreeRingWrite t s
  | .exchangeBatch d src => Sys2Proof.Machine.execExchangeBatch d src s
  | .indexFlip r d ix v => Sys2Proof.Machine.execIndexFlip r d ix v s
  | .rtvSearch d q => Sys2Proof.Machine.execRtvSearch d q s
  | .listRead d => Sys2Proof.Machine.execListRead d s
  | .rtvInsert d q => Sys2Proof.Machine.execRtvInsert d q s
  | .rtvDelete d q => Sys2Proof.Machine.execRtvDelete d q s
  | .rtvNodePut d q => Sys2Proof.Machine.execRtvNodePut d q s
  | .rtvCompact d q => Sys2Proof.Machine.execRtvCompact d q s
  | .rtvEpoch d q => Sys2Proof.Machine.execRtvEpoch d q s
  | .pckPairs d q => Sys2Proof.Machine.execPckPairs d q s
  | .pckPrompt d q => Sys2Proof.Machine.execPckPrompt d q s
  | .batchRecordTake d q => Sys2Proof.Machine.execBatchRecordTake d q s
  | .chunkSignal d q => Sys2Proof.Machine.execChunkSignal d q s
  | .provisionalCandidate d slot => Sys2Proof.Machine.execProvisionalCandidate d slot s
  | .candidateRecordRelease d slot => Sys2Proof.Machine.execCandidateRecordRelease d slot s
  | .mbox r d slot v => Sys2Proof.Machine.execMbox r d slot v s
  | .srvAdmit d q => Sys2Proof.Machine.execSrvAdmit d q s
  | .srvPark d q => Sys2Proof.Machine.execSrvPark d q s
  | .srvEnd d q => Sys2Proof.Machine.execSrvEnd d q s
  | .srvAdapter d q => Sys2Proof.Machine.execSrvAdapter d q s
  | .srvBudget d q => Sys2Proof.Machine.execSrvBudget d q s
  | .ttlScan d => Sys2Proof.Machine.execTtlScan d s
  | .holdScan d => Sys2Proof.Machine.execHoldScan d s
  | .slotResume r d v => Sys2Proof.Machine.execSlotResume r d v s
  | .groupConfirm r d v => Sys2Proof.Machine.execGroupConfirm r d v s
  | .groupReject r d v => Sys2Proof.Machine.execGroupReject r d v s
  | .eventWrite d => Sys2Proof.Machine.execEventWrite d s
  | .mirrorPacketReceive p pkt => Sys2Proof.Machine.execMirrorPacketReceive p pkt s
  | .mirrorAck p => Sys2Proof.Machine.execMirrorAck p s
  | .heartbeatSend => Sys2Proof.Machine.execHeartbeatSend s
  | .heartbeatReceive p state => Sys2Proof.Machine.execHeartbeatReceive p state s
  | .heartbeatTimeout => Sys2Proof.Machine.execHeartbeatTimeout s
  | .linkDownGrace => Sys2Proof.Machine.execLinkDownGrace s
  | .withdrawNotice p => Sys2Proof.Machine.execWithdrawNotice p s
  | .withdraw r v => Sys2Proof.Machine.execWithdraw r v s
  | .declareLost r v => Sys2Proof.Machine.execDeclareLost r v s
  | .twinLost => Sys2Proof.Machine.execTwinLost s
  | .adopt r v => Sys2Proof.Machine.execAdopt r v s
  | .adoptionDone => Sys2Proof.Machine.execAdoptionDone s
  | .pairEnable r v => Sys2Proof.Machine.execPairEnable r v s
  | .hello p msg => Sys2Proof.Machine.execHello p msg s
  | .resync r v => Sys2Proof.Machine.execResync r v s
  | .resyncDone => Sys2Proof.Machine.execResyncDone s
  | .handback r v => Sys2Proof.Machine.execHandback r v s
  | .flitReceive p flit => Sys2Proof.Machine.execFlitReceive p flit s
  | .retryRequest p seq => Sys2Proof.Machine.execRetryRequest p seq s
  | .linkRetrain p r v => Sys2Proof.Machine.execLinkRetrain p r v s
  | .linkTrained p lanes => Sys2Proof.Machine.execLinkTrained p lanes s
  | .remoteAccess p write va len bytes => Sys2Proof.Machine.execRemoteAccess p write va len bytes s
  | .timeSync p t1 t2 t3 t4 => Sys2Proof.Machine.execTimeSync p t1 t2 t3 t4 s
  | .portReset p => Sys2Proof.Machine.execPortReset p s
  | .functionLevelReset p => Sys2Proof.Machine.execFunctionLevelReset p s
  | .pcieLinkUp p speed width => Sys2Proof.Machine.execPcieLinkUp p speed width s
  | .configRequest p write off v => Sys2Proof.Machine.execConfigRequest p write off v s
  | .apertureAccess p write off len bytes ep => Sys2Proof.Machine.execApertureAccess p write off len bytes ep s
  | .completionReceived p tag good bytes => Sys2Proof.Machine.execCompletionReceived p tag good bytes s
  | .completionTimeout p tag => Sys2Proof.Machine.execCompletionTimeout p tag s
  | .receivedTlpError p kind => Sys2Proof.Machine.execReceivedTlpError p kind s
  | .msixSend p vec => Sys2Proof.Machine.execMsixSend p vec s
  | .swTrig r v => Sys2Proof.Machine.execSwTrig r v s
  | .summaryMessage k => Sys2Proof.Machine.execSummaryMessage k s
  | .sumAck r v => Sys2Proof.Machine.execSumAck r v s
  | .vote r v => Sys2Proof.Machine.execVote r v s
  | .powerStateEntry => Sys2Proof.Machine.execPowerStateEntry s
  | .demandExit => Sys2Proof.Machine.execDemandExit s
  | .wake code => Sys2Proof.Machine.execWake code s
  | .managementAddressMatch addr => Sys2Proof.Machine.execManagementAddressMatch addr s
  | .watchSample samples => Sys2Proof.Machine.execWatchSample samples s
  | .thresholdCompare samples => Sys2Proof.Machine.execThresholdCompare samples s
  | .heartbeatSidebandChange present => Sys2Proof.Machine.execHeartbeatSidebandChange present s
  | .timerMatch => Sys2Proof.Machine.execTimerMatch s
  | .pointRequest r d v => Sys2Proof.Machine.execPointRequest r d v s
  | .rampDone d => Sys2Proof.Machine.execRampDone d s
  | .powerLimitStep mean => Sys2Proof.Machine.execPowerLimitStep mean s
  | .thermalSample d temp => Sys2Proof.Machine.execThermalSample d temp s
  | .droop mv => Sys2Proof.Machine.execDroop mv s
  | .droopHoldExpiry => Sys2Proof.Machine.execDroopHoldExpiry s
  | .pllLockLost ix => Sys2Proof.Machine.execPllLockLost ix s
  | .supplyInputValid ix => Sys2Proof.Machine.execSupplyInputValid ix s
  | .powerOnReset => Sys2Proof.Machine.execPowerOnReset s
  | .railFault ix => Sys2Proof.Machine.execRailFault ix s
  | .undervoltageLockout ix => Sys2Proof.Machine.execUndervoltageLockout ix s
  | .shdnReq => Sys2Proof.Machine.execShdnReq s
  | .offOk r v => Sys2Proof.Machine.execOffOk r v s
  | .modReset r v => Sys2Proof.Machine.execModReset r v s
  | .wdogKick r v => Sys2Proof.Machine.execWdogKick r v s
  | .watchdogExpiry => Sys2Proof.Machine.execWatchdogExpiry s
  | .testReset => Sys2Proof.Machine.execTestReset s
  | .portReady r v => Sys2Proof.Machine.execPortReady r v s
  | .bootOk r v => Sys2Proof.Machine.execBootOk r v s
  | .flashErase off => Sys2Proof.Machine.execFlashErase off s
  | .flashProgram off bytes => Sys2Proof.Machine.execFlashProgram off bytes s
  | .flashRead off => Sys2Proof.Machine.execFlashRead off s
  | .attest r v => Sys2Proof.Machine.execAttest r v s
  | .reportBuild => Sys2Proof.Machine.execReportBuild s
  | .extend r v => Sys2Proof.Machine.execExtend r v s
  | .measurementExtend => Sys2Proof.Machine.execMeasurementExtend s
  | .sign r v => Sys2Proof.Machine.execSign r v s
  | .bistGo r v => Sys2Proof.Machine.execBistGo r v s
  | .bistAbort r v => Sys2Proof.Machine.execBistAbort r v s
  | .bistMemberStart => Sys2Proof.Machine.execBistMemberStart s
  | .bistMemberEnd ix fails => Sys2Proof.Machine.execBistMemberEnd ix fails s
  | .bistRecordWrite => Sys2Proof.Machine.execBistRecordWrite s
  | .repairApply r v => Sys2Proof.Machine.execRepairApply r v s
  | .engSel r v => Sys2Proof.Machine.execEngSel r v s
  | .counterClear r v => Sys2Proof.Machine.execCounterClear r v s
  | .snap => Sys2Proof.Machine.execSnap s
  | .lifeWriteNow r v => Sys2Proof.Machine.execLifeWriteNow r v s
  | .lifePeriod => Sys2Proof.Machine.execLifePeriod s
  | .lifetimeSample temp => Sys2Proof.Machine.execLifetimeSample temp s
  | .trailRecordSend => Sys2Proof.Machine.execTrailRecordSend s
  | .correctableLinkError p lane => Sys2Proof.Machine.execCorrectableLinkError p lane s
  | .inputPowerSample watts => Sys2Proof.Machine.execInputPowerSample watts s

end Sys2Proof.Machine
end

