-- ==== Sys2Proof/Safety.lean ====
section
/-! DEFINITION. What a run keeps: the canonical forms of the register file, the memories and the flash, and the rollback counters. -/

namespace Sys2Proof.Machine

/-- The flash is in canonical form: rising offsets, no byte that reads as erased. -/
abbrev Flash.wf (m : List Host.Cell) : Bool := smWf (fun _ => (0xFF : Byte)) 0 m

/-- The boot store: the flash in canonical form and four rollback counters. -/
def Boot.Inv (b : Boot) : Prop := Flash.wf b.flash = true ∧ b.counters.length = 4

/-- No rollback counter of `b` stands below its value in `a` (R458). -/
def Boot.NoRollback (a b : Boot) : Prop := ∀ i < 4, a.counters.getD i 0 ≤ b.counters.getD i 0

/-- The register file and the memories are in canonical form. -/
def Hw.Canonical (h : Hw) : Prop := Registers.wf h.regs = true ∧ Memory.wf h.mem = true

end Sys2Proof.Machine
end

