-- ==== Sys2Proof/WellFormed.lean ====
section
/-! DEFINITION. The commands that can reach the module: the operands of each row that the spec allows. -/

namespace Sys2Proof

/-- A stage unit has four queues (R243). -/
def queueOk : Eng → Fin 8 → Bool
  | .core _, _ => true
  | .stage _ _, q => decide (q.val < 4)

/-- A page of the 64 MiB window (R25). -/
def pageOk (page : Nat) : Bool := decide (page < 0x4000)

/-- A half of a 64-bit quantity (R37). -/
def isHalf (k : Machine.Half) (off : Nat) : Bool := (Machine.regRow off).any fun row => row.half == k

/-- Whether a command is well-formed. -/
def Instr.wf : Instr → Bool
  | .registerWrite _ off size v => decide (1 ≤ size ∧ v.log2 < 8 * size ∧ off + size ≤ 0x4000000)
  | .readClear _ off size => decide (1 ≤ size ∧ off + size ≤ 0x4000000)
  | .loRead _ off => isHalf .lo off
  | .hiRead _ off => isHalf .hi off
  | .loWrite _ off _ => isHalf .lo off
  | .hiWrite _ off _ => isHalf .hi off
  | .pageEnable _ page _ => pageOk page
  | .softReset _ page _ => pageOk page
  | .softResetDone page => pageOk page
  | .drainComplete e q => queueOk e q
  | .stepMode _ page _ => pageOk page
  | .step _ page _ => pageOk page
  | .hostAbi _ _ => true
  | .queueTailWrite _ e q _ => queueOk e q
  | .commandIssue _ => true
  | .rejectedCommandHalt e q => queueOk e q
  | .autoPreempt _ => true
  | .groupOverflow _ _ => true
  | .nop e q => queueOk e q
  | .ctxLoad e q => queueOk e q
  | .setPred _ _ => true
  | .signal _ _ => true
  | .waitMem _ _ => true
  | .waitTimeout _ _ => true
  | .groupEnd _ _ => true
  | .traceMark e q => queueOk e q
  | .peerSend _ _ => true
  | .landingArrival _ => true
  | .hitch _ _ => true
  | .completionRecordWrite e q => queueOk e q
  | .kill e q cause => queueOk e q && (Machine.killCauses e).contains cause
  | .specReject _ _ => true
  | .specConfirm _ _ => true
  | .queueKill _ e q _ => queueOk e q
  | .queueSkip _ e q _ => queueOk e q
  | .queuePreempt _ e q _ => queueOk e q
  | .queueResume _ e q _ => queueOk e q
  | .queueEnable _ e q _ => queueOk e q
  | .queueCommitWrite _ e q _ => queueOk e q
  | .cqHeadWrite _ e q _ => queueOk e q
  | .tlbInvalidate _ _ _ => true
  | .invalidationDone _ => true
  | .faultRecordWrite _ => true
  | .faultClear _ _ _ => true
  | .scrub _ _ _ _ => true
  | .refreshDoubled _ _ _ => true
  | .mreqTailWrite _ _ => true
  | .migrationRequest => true
  | .move _ => true
  | .moveCopy _ => true
  | .moveFlip _ => true
  | .moveComplete _ => true
  | .charge => true
  | .release => true
  | .prefetchTailWrite _ _ _ => true
  | .prefetchEntryIssue _ => true
  | .prefetchEntryComplete _ => true
  | .ageRefresh => true
  | .scan _ _ => true
  | .scanDone => true
  | .dmaGo _ _ _ => true
  | .dmaStop _ _ _ => true
  | .dmaAccessWritten _ => true
  | .dmaDone _ => true
  | .dmaFaultStop _ => true
  | .dmaWaitMoveRelease _ => true
  | .dmaStopped _ => true
  | .matmul _ _ => true
  | .matvec _ _ => true
  | .treeModeWrite _ _ _ => true
  | .arrayRepairWrite _ _ o _ => decide (o = 0x310 ∨ (0x318 ≤ o ∧ o < 0x338 ∧ o % 4 = 0))
  | .convert _ _ => true
  | .optUpdate _ _ => true
  | .sfuMap _ _ => true
  | .sfuGated _ _ => true
  | .softmax _ _ => true
  | .statsMerge _ _ => true
  | .rowNorm _ _ => true
  | .tableCheck _ _ => true
  | .microprogramLoad _ _ => true
  | .sfuInvalidate _ _ _ => true
  | .select _ _ => true
  | .selMerge _ _ => true
  | .selRoute _ _ => true
  | .vocabFlip _ _ _ _ => true
  | .tokenise _ _ => true
  | .detokenise _ _ => true
  | .stageCommitStep _ _ _ => true
  | .muzStep _ _ => true
  | .muzCommit _ _ => true
  | .tableFlip _ _ _ _ => true
  | .embGather _ _ => true
  | .embUpdate _ _ => true
  | .rowPut _ _ => true
  | .rowMove _ _ => true
  | .publish _ _ => true
  | .freeRingWrite _ => true
  | .exchangeBatch _ src => match src with | .queue _ _ _ => true | .leash _ b => decide (0 < b.rows.length ∧ b.rows.length ≤ 4096)
  | .indexFlip _ _ _ _ => true
  | .rtvSearch _ _ => true
  | .listRead _ => true
  | .rtvInsert _ _ => true
  | .rtvDelete _ _ => true
  | .rtvNodePut _ _ => true
  | .rtvCompact _ _ => true
  | .rtvEpoch _ _ => true
  | .pckPairs _ _ => true
  | .pckPrompt _ _ => true
  | .batchRecordTake _ _ => true
  | .chunkSignal _ _ => true
  | .provisionalCandidate _ _ => true
  | .candidateRecordRelease _ _ => true
  | .mbox _ _ _ _ => true
  | .srvAdmit _ _ => true
  | .srvPark _ _ => true
  | .srvEnd _ _ => true
  | .srvAdapter _ _ => true
  | .srvBudget _ _ => true
  | .ttlScan _ => true
  | .holdScan _ => true
  | .slotResume _ _ _ => true
  | .groupConfirm _ _ _ => true
  | .groupReject _ _ _ => true
  | .eventWrite _ => true
  | .mirrorPacketReceive _ _ => true
  | .mirrorAck _ => true
  | .heartbeatSend => true
  | .heartbeatReceive _ _ => true
  | .heartbeatTimeout => true
  | .linkDownGrace => true
  | .withdrawNotice _ => true
  | .withdraw _ _ => true
  | .declareLost _ _ => true
  | .twinLost => true
  | .adopt _ _ => true
  | .adoptionDone => true
  | .pairEnable _ _ => true
  | .hello _ _ => true
  | .resync _ _ => true
  | .resyncDone => true
  | .handback _ _ => true
  | .flitReceive _ flit => decide (flit.length = 256)
  | .retryRequest _ _ => true
  | .linkRetrain _ _ _ => true
  | .linkTrained _ _ => true
  | .remoteAccess _ _ _ _ _ => true
  | .timeSync _ _ _ _ _ => true
  | .portReset _ => true
  | .functionLevelReset _ => true
  | .pcieLinkUp _ _ _ => true
  | .configRequest _ _ _ _ => true
  | .apertureAccess _ _ _ _ _ _ => true
  | .completionReceived _ _ _ _ => true
  | .completionTimeout _ _ => true
  | .receivedTlpError _ _ => true
  | .msixSend _ _ => true
  | .swTrig _ _ => true
  | .summaryMessage _ => true
  | .sumAck _ _ => true
  | .vote _ _ => true
  | .powerStateEntry => true
  | .demandExit => true
  | .wake _ => true
  | .managementAddressMatch _ => true
  | .watchSample samples => decide (samples.length = 9)
  | .thresholdCompare samples => decide (samples.length = 8)
  | .heartbeatSidebandChange _ => true
  | .timerMatch => true
  | .pointRequest _ _ _ => true
  | .rampDone _ => true
  | .powerLimitStep _ => true
  | .thermalSample _ _ => true
  | .droop _ => true
  | .droopHoldExpiry => true
  | .pllLockLost _ => true
  | .supplyInputValid _ => true
  | .powerOnReset => true
  | .railFault _ => true
  | .undervoltageLockout _ => true
  | .shdnReq => true
  | .offOk _ _ => true
  | .modReset _ _ => true
  | .wdogKick _ _ => true
  | .watchdogExpiry => true
  | .testReset => true
  | .portReady _ _ => true
  | .bootOk _ _ => true
  | .flashErase _ => true
  | .flashProgram _ bytes => !bytes.isEmpty && decide (bytes.length ≤ 32)
  | .flashRead _ => true
  | .attest _ _ => true
  | .reportBuild => true
  | .extend _ _ => true
  | .measurementExtend => true
  | .sign _ _ => true
  | .bistGo _ _ => true
  | .bistAbort _ _ => true
  | .bistMemberStart => true
  | .bistMemberEnd _ _ => true
  | .bistRecordWrite => true
  | .repairApply _ _ => true
  | .engSel _ _ => true
  | .counterClear _ _ => true
  | .snap => true
  | .lifeWriteNow _ _ => true
  | .lifePeriod => true
  | .lifetimeSample _ => true
  | .trailRecordSend => true
  | .correctableLinkError _ _ => true
  | .inputPowerSample _ => true

end Sys2Proof
end

