-- ==== Sys2Proof/Certificates/Slice0/Obligations.lean ====
section
/-! DEFINITION. The statements about the model. A statement of a command's effect says for which states and operands it completes, what
the next state holds, and what it leaves as it was. -/

namespace Sys2Proof.Claims

open Sys2Proof.Machine

/-- The module has its rails and is out of power-on reset. -/
def Up (s : State) : Prop := s.hw.pow.off = false

/-- Only registers, and interrupt edges that wait for a wake, differ. -/
def LinesOnly (s t : State) : Prop :=
  t = { s with hw := { s.hw with regs := t.hw.regs, pow := { s.hw.pow with edges := t.hw.pow.edges } } }

/-- Only registers differ. -/
def RegsOnly (s t : State) : Prop := t = { s with hw := { s.hw with regs := t.hw.regs } }

/-- Every register but those of page 0x004, where interrupt edges are latched, and those whose keys satisfy `f`, reads as before. -/
def RegsKept (s t : State) (f : Nat → Prop) : Prop :=
  ∀ off b, ¬ f (regKey off b) → regKey off b / 0x4000 ≠ 4 → t.hw.reg off b = s.hw.reg off b

/-- No write of a requester's port waits at a disabled slice or a moving page: what the port sends now acts now (R93). -/
def Clear (s : State) (r : Req) : Prop := s.hw.portHeld r = false

/-- A write of register `o` of page `p` by `r` reaches the register. -/
def Reaches (s : State) (r : Req) (p o : Nat) : Prop := Up s ∧ Clear s r ∧ s.hw.accepts r p o = true

/-- A write of this value does nothing of its own at this offset. -/
def Actionless (r : Req) (off : Nat) (v : Word) : Prop :=
  actsOn r (pageOfOff off) (inPage off) v = none ∧ doorbell (pageOfOff off) (inPage off) = false
    ∧ off ∉ [0x003044, 0x003050, 0x003054, 0x003060, 0x005058, 0x005068, 0x006040]

/-- A register that is written as it stands: one word, RW, with no action of its own. -/
def PlainRow (r : Req) (off : Nat) (v : Word) (row : RegRow) : Prop :=
  off % 4 = 0 ∧ off + 4 ≤ 0x4000000 ∧ regRow off = some row ∧ row.acc = .rw ∧ row.half = .one
    ∧ (row.handler = true → r = .handler) ∧ Actionless r off v

/-- The half of a 64-bit quantity, on a register with no action of its own. -/
def HalfRow (s : State) (r : Req) (off : Nat) (v : Word) (row : RegRow) (half : Half) : Prop :=
  Reaches s r (pageOfOff off) (inPage off) ∧ regRow off = some row ∧ row.half = half ∧ Actionless r off v

/-- What a write of PAGE_CTL leaves of a page that it enables: what waited for the page goes on (R40). -/
def enables (page : Nat) (s : State) (h : Hw) : Hw := if h.enabled page && !s.hw.demand.enabled page then h.pageEnabled page else h

/-- The result goes to the destination the descriptor names and nowhere else: no predicate, no semaphore, success. -/
def Delivers (d : BitVec 512) (r : Done) : Prop :=
  r.writes = dstWrites d r.result ∧ r.code = 0 ∧ r.predMask = 0 ∧ r.signals = [] ∧ r.work = .none

end Sys2Proof.Claims

open Sys2Proof Sys2Proof.Machine Sys2Proof.Claims

/-! ### The machine as a whole -/

/-- One step runs the command at the front of the queue, on the state with the queue's rest. The queue of waiting commands is the model's
own (log entry 60). -/
def Obligations.StepRunsFrontCommand : Prop :=
  ∀ (c : Instr) (rest : List Instr) (s : State), step { s with pending := c :: rest } = exec c { s with pending := rest }

/-- No command changes the queue of waiting commands. The queue of waiting commands is the model's own (log entry 60). -/
def Obligations.CommandsLeaveQueue : Prop :=
  ∀ (c : Instr) (s t : State), exec c s = .next t → t.pending = s.pending

/-- Every well-formed command answers a next state, whatever the state. -/
def Sys2Proof.Claims.WellFormedCommandsAnswer : Prop :=
  ∀ (c : Instr) (s : State), c.wf = true → ∃ t, exec c s = .next t

/-- A command that is not well-formed stops: one whose register access or page lies outside the window with a fault, any other by name. -/
def Sys2Proof.Claims.IllFormedCommandsStop : Prop :=
  ∀ (c : Instr) (s : State), c.wf = false → (∃ m, exec c s = .refused (.illFormed m)) ∨ exec c s = .fault .outOfWindow

/-- While the rails are off, only the supply events, the power-on reset and a test reset act: every other command leaves the state as it
is (R443, R448). -/
def Obligations.NothingActsWithoutRails : Prop :=
  ∀ (c : Instr) (s t : State), s.hw.pow.off = true → exec c s = .next t →
    (∀ i, c ≠ .railFault i) → (∀ i, c ≠ .undervoltageLockout i) → (∀ i, c ≠ .supplyInputValid i) → c ≠ .powerOnReset → t = s

/-- After reset every register reads its reset value in every bank, memory lists nothing, the rollback counters are zero, every queue is
DISABLED and nothing waits. Where the spec gives a register no reset value, the value is the model's choice, which log entry 2 names. -/
def Obligations.ResetState : Prop :=
  (∀ off b, State.reset.hw.reg off b = resetWord (regKey off b / 4)) ∧ State.reset.hw.mem = [] ∧ State.reset.boot.counters = [0, 0, 0, 0]
    ∧ (∀ id, (State.reset.hw.qs id).st = .disabled ∧ (State.reset.hw.qs id).cmds = []) ∧ State.reset.pending = []
    ∧ State.reset.hw.Canonical ∧ State.reset.boot.Inv

/-- Storing a register, storing bytes and copying bytes keep the canonical forms, and a read after each gives what it should. The canonical
form, and that memory nothing has written reads as 0, are the model's choices (log entry 4). -/
def Obligations.StoresKeepCanonicalForm : Prop :=
  ∀ (h : Hw), h.Canonical →
    (∀ off v b, (h.setReg off v b).Canonical ∧ (h.setReg off v b).reg off b = v
      ∧ ∀ off' b', regKey off' b' ≠ regKey off b → (h.setReg off v b).reg off' b' = h.reg off' b')
    ∧ (∀ k bs, (h.store k bs).Canonical ∧ (∀ i < bs.length, (h.store k bs).byte (k + i) = bs.getD i 0)
      ∧ ∀ j, j < k ∨ k + bs.length ≤ j → (h.store k bs).byte j = h.byte j)
    ∧ (∀ src dst n, Memory.wf (memCopy src dst n h.mem) = true)

/-- Every step keeps the boot store: the flash in canonical form, and four rollback counters. That erased flash reads 0xFF is the model's
choice (log entry 46). That the invariant holds at reset is a clause of ResetState. -/
def Obligations.EveryStepKeepsBootStore : Prop :=
  ∀ (s t : State), s.boot.Inv → step s = .next t → t.boot.Inv

/-- No step takes a rollback counter back (R458). -/
def Obligations.RollbackCountersNeverDecrease : Prop :=
  ∀ (s t : State), step s = .next t → Boot.NoRollback s.boot t.boot

/-! ### The register window -/

/-- A write of a plain RW register stores the RW bits and keeps the others; no other register reads differently but where an interrupt
edge is latched (a new TRC_CTL.link raises TRC's own source 0), and no byte of memory and no queue changes. -/
def Obligations.PlainRegisterWrite : Prop :=
  ∀ (s : State) (r : Req) (off : Nat) (v : Word) (row : RegRow),
    Reaches s r (pageOfOff off) (inPage off) → PlainRow r off v row → row.takes v.toNat = true →
    s.hw.writable (pageOfOff off) (inPage off) v.toNat = true →
    ∃ t, exec (.registerWrite r off 4 v.toNat) s = .next t
      ∧ t.hw.reg off (reqBank r) = (s.hw.reg off (reqBank r) &&& ~~~BitVec.ofNat 32 row.mask) ||| (v &&& BitVec.ofNat 32 row.mask)
      ∧ RegsKept s t (fun k => k = regKey off (reqBank r) ∨ (off = 0x008040 ∧ (k = regKey 0x008010 0 ∨ k = regKey 0x008018 0)))
      ∧ t.hw.mem = s.hw.mem ∧ t.hw.queues = s.hw.queues
      ∧ t.boot = s.boot ∧ t.pending = s.pending

/-- Writes that are discarded. Of a register that is read-only, write-only or clears on read, and does nothing of its own: silently. One
that is not 32 bits wide and aligned (two such for 64 bits), or of an unimplemented page: BAD_ACCESS_COUNT counts it, up to its largest
value, BAD_ACCESS_ADDR holds its offset, and nothing else changes (R28, R30). An unimplemented page reads zero at every offset. -/
def Obligations.DiscardedWrites : Prop :=
  (∀ (s : State) (r : Req) (off : Nat) (v : Word) (row : RegRow), Reaches s r (pageOfOff off) (inPage off) →
      Actionless r off v → off % 4 = 0 → off + 4 ≤ 0x4000000 → regRow off = some row → row.half = .one → row.acc ≠ .rw →
      exec (.registerWrite r off 4 v.toNat) s = .next s)
  ∧ (∀ (s : State) (r : Req) (off size v : Nat), Up s → Clear s r → s.hw.pow.state < 3 → 1 ≤ size → v.log2 < 8 * size → off + size ≤ 0x4000000 →
      ((size ≠ 4 ∧ size ≠ 8) ∨ off % 4 ≠ 0 ∨ (size = 4 ∧ blockOf (pageOfOff off) = none)) →
      ∃ t, exec (.registerWrite r off size v) s = .next t ∧ RegsOnly s t
        ∧ t.hw.rd 0x000 0x098 = min (s.hw.rd 0x000 0x098 + 1) 0xFFFFFFFF ∧ t.hw.rd 0x000 0x09C = off
        ∧ ∀ off' b, off' ≠ 0x098 → off' ≠ 0x09C → t.hw.reg off' b = s.hw.reg off' b)
  ∧ (∀ (s : State) (r : Req) (off v : Nat), Up s → Clear s r → s.hw.pow.state < 3 → v.log2 < 64 → off % 4 = 0 → off + 8 ≤ 0x4000000 →
      blockOf (pageOfOff off) = none → blockOf (pageOfOff (off + 4)) = none →
      ∃ t, exec (.registerWrite r off 8 v) s = .next t ∧ RegsOnly s t
        ∧ t.hw.rd 0x000 0x098 = min (s.hw.rd 0x000 0x098 + 2) 0xFFFFFFFF ∧ t.hw.rd 0x000 0x09C = off + 4
        ∧ ∀ off' b, off' ≠ 0x098 → off' ≠ 0x09C → t.hw.reg off' b = s.hw.reg off' b)
  ∧ ∀ (s : State) (r : Req) (off : Nat), Up s → Clear s r → s.hw.pow.state < 3 → off % 4 = 0 → off + 4 ≤ 0x4000000 → blockOf (pageOfOff off) = none →
      exec (.readClear r off 4) s = .next { s with hw := s.hw.send (.readReply r (leBytes 4 0)) }

/-- Reads and writes of the halves of a 64-bit quantity (R37, R38). A read of LO answers LO and fills the requester's shadow with HI; a
read of HI answers the shadow filled for it, else the live half. A write of LO is staged and changes no register; a write of HI stores
it with the LO half staged for it, else with the live one, and empties the staging register. GRP_CORES is such a pair, whose 48 bits stand
in the commit-group table at the group that GRP_SEL selects (R350, R378). -/
def Sys2Proof.Claims.HalvesOfA64BitRegister : Prop :=
  ∀ (s : State) (r : Req) (off : Nat) (v : Word) (row : RegRow), Up s → Clear s r →
    (regRow off = some row → row.half = .lo → s.hw.pow.state < 3 → s.hw.clears off row = false →
      exec (.loRead r off) s = .next { s with hw := (s.hw.setAcc r { s.hw.acc r with
        shadow := some (off, s.hw.readWord (off + 4) (reqBank r)) }).send (.readReply r (leBytes 4 (s.hw.readWord off (reqBank r)).toNat)) })
    ∧ (∀ x, regRow (off + 4) = some row → row.half = .hi → s.hw.pow.state < 3 → (s.hw.acc r).shadow = some (off, x) →
      exec (.hiRead r (off + 4)) s = .next { s with hw := s.hw.send (.readReply r (leBytes 4 x.toNat)) })
    ∧ (regRow off = some row → row.half = .hi → s.hw.pow.state < 3 → s.hw.clears off row = false →
      (∀ o x, (s.hw.acc r).shadow = some (o, x) → o + 4 ≠ off) →
      exec (.hiRead r off) s = .next { s with hw := s.hw.send (.readReply r (leBytes 4 (s.hw.readWord off (reqBank r)).toNat)) })
    ∧ (HalfRow s r off v row .lo → row.acc = .rw → (row.handler = true → r = .handler) → row.takes v.toNat = true →
      s.hw.writable (pageOfOff off) (inPage off) v.toNat = true →
      exec (.loWrite r off v) s = .next { s with hw := s.hw.setAcc r { s.hw.acc r with staging := some (off, v) } })
    ∧ (∀ low, HalfRow s r off v row .hi → row.acc = .rw → (row.handler = true → r = .handler) → row.takes v.toNat = true →
      s.hw.writable (pageOfOff off) (inPage off) v.toNat = true → 4 ≤ inPage off → regRow (off - 4) = some low →
      (∀ d, ¬ (blockOf (pageOfOff off) = some (.srv, d) ∧ inPage off = 0x094)) →
      ∃ t, exec (.hiWrite r off v) s = .next t
        ∧ t.hw.reg off (reqBank r) = (s.hw.reg off (reqBank r) &&& ~~~BitVec.ofNat 32 row.mask) ||| (v &&& BitVec.ofNat 32 row.mask)
        ∧ t.hw.reg (off - 4) (reqBank r) = (s.hw.reg (off - 4) (reqBank r) &&& ~~~BitVec.ofNat 32 low.mask)
            ||| (s.hw.stagedLo r (off - 4) (reqBank r) &&& BitVec.ofNat 32 low.mask)
        ∧ (t.hw.acc r).staging = none ∧ t.hw.mem = s.hw.mem ∧ t.hw.queues = s.hw.queues ∧ t.boot = s.boot ∧ t.pending = s.pending)
    ∧ (∀ d : Fin 4, HalfRow s r (pageOff (srvPage d.val) 0x094) v row .hi →
      ∃ t, exec (.hiWrite r (pageOff (srvPage d.val) 0x094) v) s = .next t
        ∧ (t.hw.group s.hw.selGroup).cores
          = BitVec.ofNat 48 ((s.hw.loHalf r (pageOff (srvPage d.val) 0x094)).toNat + v.toNat % 0x10000 * 0x100000000)
        ∧ (∀ g, g ≠ s.hw.selGroup → t.hw.group g = s.hw.group g) ∧ t.hw.regs = s.hw.regs
        ∧ (t.hw.acc r).staging = none ∧ t.hw.mem = s.hw.mem ∧ t.hw.queues = s.hw.queues ∧ t.boot = s.boot ∧ t.pending = s.pending)

/-- A read of a register that clears on read answers its value and leaves it zero; nothing else changes but what has been sent. -/
def Sys2Proof.Claims.ReadClears : Prop :=
  ∀ (s : State) (r : Req) (off : Nat) (row : RegRow), Up s → Clear s r → s.hw.pow.state < 3 → off % 4 = 0 → off + 4 ≤ 0x4000000 →
    regRow off = some row → row.half = .one → s.hw.clears off row = true →
    ∃ t, exec (.readClear r off 4) s = .next t
      ∧ t = { s with hw := { s.hw with regs := t.hw.regs, out := s.hw.out ++ [.readReply r (leBytes 4 (s.hw.readWord off (reqBank r)).toNat)] } }
      ∧ t.hw.reg off 0 = 0 ∧ ∀ off' b, regKey off' b ≠ regKey off 0 → t.hw.reg off' b = s.hw.reg off' b

/-- PAGE_CTL. A write stores enable (on pages that can be disabled) and step_mode, the doorbell having ended Idle or Hold; what waited for
the page to be enabled goes on; a clear step_mode, or the step bit, releases the page's hold; nothing else changes. -/
def Sys2Proof.Claims.PageControl : Prop :=
  ∀ (s : State) (r : Req) (page : Nat) (v : Word) (b : Block) (i : Nat), Reaches s r page 0x008 → blockOf page = some (b, i) →
    let h : Hw := enables page s (s.hw.demand.wr page 0x008 (v.toNat &&& (if b.alwaysEnabled then 4 else 5)))
    let held : List Nat := if b.stepCapable && !bitOf v.toNat 2 then h.stepHeld.filter (· != page) else h.stepHeld
    exec (.pageEnable r page v) s = .next { s with hw := { h with stepHeld := held } }
    ∧ exec (.stepMode r page v) s = .next { s with hw := { h with stepHeld := held } }
    ∧ (bitOf v.toNat 1 = false → exec (.step r page v) s = .next { s with hw := { h with
        stepHeld := if b.stepCapable then h.stepHeld.filter (· != page) else h.stepHeld } })

/-- SOFT_RESET marks the page as resetting and begins the reset; SOFT_RESET_DONE, once the block is quiet, ends it: the page no longer
resets, and each of its registers that a soft reset does not keep reads its reset value in every bank, but for TRC's DROPPED. -/
def Sys2Proof.Claims.SoftReset : Prop :=
  (∀ (s : State) (r : Req) (page : Nat) (v : Word) (b : Block) (i : Nat),
    Reaches s r page 0x008 → blockOf page = some (b, i) → b.resetCapable = true → b = .mmu ∨ b = .tier ∨ b = .lpc ∨ b = .lsh ∨ b = .pcie →
    let h : Hw := enables page s (s.hw.demand.wr page 0x008 (v.toNat &&& 5))
    h.resetting.contains page = false → exec (.softReset r page v) s = .next { s with hw := { h with resetting := h.resetting ++ [page] } })
  ∧ (∀ (s : State) (r : Req) (page : Nat) (v : Word) (b : Block) (i : Nat),
    Reaches s r page 0x008 → blockOf page = some (b, i) → b.stepCapable = true → s.hw.demand.resetting.contains page = false →
    ∃ h : Hw, exec (.softReset r page v) s = .next { s with hw := h.resetBegin page } ∧ h.resetting = s.hw.demand.resetting ++ [page]
      ∧ h = { s.hw.demand with regs := h.regs, resetting := h.resetting, stepHeld := h.stepHeld })
  ∧ ∀ (s : State) (page : Nat), Up s → page < 0x4000 → s.hw.resetting.contains page = true → s.hw.resetQuiet page = true →
    ∃ t, exec (.softResetDone page) s = .next t ∧ t.hw.resetting.contains page = false ∧ t.boot = s.boot ∧ t.pending = s.pending
      ∧ ∀ off b, regKey off b / 0x4000 = page → softKept page (regKey off b / 4 % 0x1000) = false → regKey off b / 4 ≠ 0x008058 →
        t.hw.reg off b = Registers.dflt (regKey off b)

/-- HOST_ABI stores the low 24 bits in the requester's bank, and ABI_AGREED follows from the two ports': agreed with the module's major
version and the least minor version while a port names that major, and a mismatch flag for each port that names another. A queue whose
enable is clear reads DISABLED once nothing of it is issued. -/
def Obligations.HostAbiAndDrain : Prop :=
  (∀ (s : State) (r : Req) (v : Word), Reaches s r 0x000 0x044 →
    ∃ t, exec (.hostAbi r v) s = .next t ∧ RegsOnly s t ∧ t.hw.rd 0x000 0x044 (reqBank r) = v.toNat % 0x1000000
      ∧ (∀ b < 3, b ≠ reqBank r → t.hw.rd 0x000 0x044 b = s.hw.rd 0x000 0x044 b)
      ∧ let a := t.hw.rd 0x000 0x044 0
        let b := t.hw.rd 0x000 0x044 1
        let own := s.hw.rd 0x000 0x040
        let names (x : Nat) : Bool := x != 0 && bitsOf x 23 16 == bitsOf own 23 16
        let clash (x : Nat) : Bool := x != 0 && bitsOf x 23 16 != bitsOf own 23 16
        bitOf (t.hw.rd 0x000 0x048) 31 = (names a || names b) ∧ bitOf (t.hw.rd 0x000 0x048) 28 = clash a
          ∧ bitOf (t.hw.rd 0x000 0x048) 29 = clash b
          ∧ (names a = true ∨ names b = true → bitsOf (t.hw.rd 0x000 0x048) 23 16 = bitsOf own 23 16
            ∧ bitsOf (t.hw.rd 0x000 0x048) 15 0 = min (min (bitsOf own 15 0) (if names a then bitsOf a 15 0 else 0xFFFF))
                (if names b then bitsOf b 15 0 else 0xFFFF)))
  ∧ ∀ (s : State) (e : Eng) (q : Fin 8), Up s → hasQueue e q.val = true →
    let id : QId := ⟨e, q.val⟩
    (s.hw.qs id).draining = true → (s.hw.qs id).cmds = [] → (s.hw.qs id).rejected = none →
    ∃ t, exec (.drainComplete e q) s = .next t ∧ (t.hw.qs id).st = .disabled ∧ (t.hw.qs id).draining = false
      ∧ t = { s with hw := { s.hw with queues := t.hw.queues, mmu := t.hw.mmu } }
      ∧ ∀ id', id' ≠ id → t.hw.qs id' = s.hw.qs id'

/-- Every well-formed command answers a next state whatever the state, and every other stops, by name or with a fault. Which commands are
well-formed is the model's reading of the ranges that the register pages and descriptors give. -/
def Obligations.CommandsAnswerWhenWellFormed : Prop := WellFormedCommandsAnswer ∧ IllFormedCommandsStop

/-- Accesses to the halves of 64-bit registers, and reads that clear. -/
def Obligations.HalvesAndReadClears : Prop := HalvesOfA64BitRegister ∧ ReadClears

/-- PAGE_CTL: enable, step mode, step and soft reset. Which state a soft reset keeps beside the registers that the spec names is the model's
reading (log entry 59). -/
def Obligations.PageControlAndSoftReset : Prop := PageControl ∧ SoftReset

/-! ### Commands, queues, commit and kill -/

/-- What finishing leaves of a command: done, with its result, its code and what its Hitch is to write and to signal; a peer-form
destination sends it to the landing area; other commands and queues stand. Without a range read, memory and every register but the
unit's own counters stand too. -/
def Obligations.FinishedCommand : Prop :=
  ∀ (h : Hw) (id : QId) (c : Cmd) (r : Done),
    let k := h.finishCmd id c r
    (k.qs id).cmds = (h.qs id).cmds.map (fun x => if x.ptr = c.ptr then { x with
        finished := true, code := r.code, result := r.result, writes := r.writes, predMask := r.predMask, predVal := r.predVal,
        hitchCounts := r.hitchCounts, signals := r.signals, work := r.work, spans := r.spans } else x)
    ∧ (∀ id', id' ≠ id → k.qs id' = h.qs id')
    ∧ k.landing = h.landing ++ (match addrForm (dDst c.desc) with
        | .peer core off => [⟨core, off, r.result.take (dDstLen c.desc), dGroup c.desc, dStep c.desc⟩]
        | _ => [])
    ∧ (r.touched = [] → k.mem = h.mem ∧ ∀ off b,
        (∀ x ∈ r.counts, regKey off b ≠ regKey (engPage id.eng * 0x1000 + x.1) 0) →
        (∀ x ∈ r.counts64, regKey off b ≠ regKey (engPage id.eng * 0x1000 + x.1) 0
          ∧ regKey off b ≠ regKey (engPage id.eng * 0x1000 + (x.1 + 4)) 0) → k.reg off b = h.reg off b)

/-- What a kill leaves of one queue on a core: the issued commands but those whose Hitch has begun are gone with any rejection, ISSUE
stands behind what is left, and the cause reads; a pre-emption that waited takes effect. Its landing data goes, memory and the other queues
stand. -/
def Sys2Proof.Claims.KillDropsIssuedCommands : Prop :=
  ∀ (h : Hw) (n : Fin 48) (q : Fin 8) (cause : KillCause),
    let id : QId := ⟨.core n, q.val⟩
    let k := h.killOne id (some cause)
    let kept := (h.qs id).cmds.filter (·.going)
    (k.qs id).cmds = kept ∧ (k.qs id).rejected = none ∧ (k.qs id).deferred = [] ∧ (k.qs id).cause = causeNo cause
      ∧ (k.qs id).st = (if (h.qs id).deferred.contains .preempt then .paused else (h.qs id).st)
      ∧ k.qIssue id = (k.qCommit id + kept.length) % 0x100000000
      ∧ ((∀ c ∈ (h.qs id).cmds, c.work = .none) → k.mem = h.mem)
      ∧ (∀ id', id' ≠ id → k.qs id' = h.qs id')
      ∧ (∀ l ∈ k.landed, (l.group, l.step) ∉ h.setsOf id) ∧ (∀ l ∈ k.landing, (l.group, l.step) ∉ h.setsOf id)

/-- A write of TAIL in its range makes the command slots up to it the requester's; beyond, the queue's OVERRUN is recorded and TAIL
stands (R57, R48). Beside that, at most a packet to the twin leaves. -/
def Sys2Proof.Claims.QueueTailWrites : Prop :=
  ∀ (s : State) (r : Req) (e : Eng) (q : Fin 8) (v : Word), hasQueue e q.val = true →
    let id : QId := ⟨e, q.val⟩
    Reaches s r (engPage e) (qOff id 0x0C) →
    let h := s.hw.demand.worked
    let n := ptrSub v.toNat (h.qCommit id)
    (h.uncommitted id ≤ n → n ≤ h.qEntries id →
      ∃ k : Hw, exec (.queueTailWrite r e q v) s = .next { s with hw := k } ∧ k.qTail id = v.toNat
        ∧ (k.qs id).subs.getLast? = some (v, match r with | .portA => .portA | .portB => .portB | .handler => .handler)
        ∧ k = { h with regs := k.regs, queues := k.queues, pair := k.pair, ports := k.ports, changes := k.changes } ∧ (∀ id', id' ≠ id → k.qs id' = h.qs id')
        ∧ (k.qs id).cmds = (h.qs id).cmds ∧ (k.qs id).st = (h.qs id).st
        ∧ ∀ off b, regKey off b ≠ regKey (engPage e * 0x1000 + qOff id 0x0C) 0 → k.reg off b = h.reg off b)
    ∧ (¬ (h.uncommitted id ≤ n ∧ n ≤ h.qEntries id) →
      exec (.queueTailWrite r e q v) s = .next { s with hw := h.err (engPage e) q.val cOVERRUN })

/-- Qn_CTL. With no GO bit, enable alone acts: it starts a DISABLED queue that this module owns and no self-test isolates, and clearing
it lets issued work drain. One GO bit acts first, as the queue's state allows: kill, pre-empt, resume (of a PAUSED or HALTED queue) and
skip (of a HALTED one). -/
def Sys2Proof.Claims.QueueControl : Prop :=
  ∀ (s : State) (r : Req) (e : Eng) (q : Fin 8) (v : Word), hasQueue e q.val = true →
    let id : QId := ⟨e, q.val⟩
    Reaches s r (engPage e) (qOff id 0x1C) →
    let h := s.hw.demand
    let enable (k : Hw) : Hw := if bitOf v.toNat 0 then (if k.qEnable id then k else k.setEnable id) else k.clearEnable id
    let st := (h.qs id).st
    let only (g : Nat) : Prop := ∀ n ∈ [1, 2, 3, 4], n ≠ g → bitOf v.toNat n = false
    (bitOf v.toNat 0 = false ∨ h.qEnable id = true ∨ (h.ownsQueue id = true ∧ h.underTest e = false)) →
    exec (.queueEnable r e q v) s = .next { s with hw := enable h }
    ∧ (only 1 → st = .paused ∨ st = .halted → exec (.queueResume r e q v) s = .next { s with hw := enable (h.resumeQueue id) })
    ∧ (only 3 → st = .halted → h.qCommit id ≠ h.qTail id →
        exec (.queueSkip r e q v) s = .next { s with hw := enable (h.skipSlot id) })
    ∧ (only 4 → st ≠ .disabled → exec (.queueKill r e q v) s = .next { s with hw := enable (h.killOrDefer id .runtime) })
    ∧ (only 2 → st ≠ .disabled → exec (.queuePreempt r e q v) s = .next { s with hw := enable (h.killOrDefer id .preempt) })

/-- What the queue operations leave: a resumed queue runs; a skip leaves COMMIT and ISSUE one slot on and the queue running; an enabled
queue runs from COMMIT with its context to be reloaded; a pre-emption that nothing holds up leaves a core's queue PAUSED. -/
def Sys2Proof.Claims.QueueOperations : Prop :=
  ∀ (h : Hw) (id : QId), hasQueue id.eng id.q = true →
    (h.resumeQueue id |>.qs id).st = .running
    ∧ ((h.qs id).st = .halted → h.qCommit id ≠ h.qTail id →
        ((h.skipSlot id).qs id).st = .running ∧ (h.skipSlot id).qCommit id = (h.qCommit id + 1) % 0x100000000
          ∧ (h.skipSlot id).qIssue id = (h.qCommit id + 1) % 0x100000000)
    ∧ ((h.qs id).st = .disabled → ((h.setEnable id).qs id).st = .running ∧ (h.setEnable id).qEnable id = true
        ∧ (h.setEnable id).qIssue id = (h.setEnable id).qCommit id ∧ ((h.setEnable id).qs id).reload = hasCtx id.eng)
    ∧ ((∀ c ∈ (h.qs id).cmds, holdsKill .preempt c = false) → ((h.killOrDefer id .preempt).qs id).st = .paused)

/-- COMMAND_ISSUE. An engine issues the head that arbitration grants among those whose conditions hold. One that every check passes joins
the issued commands, with ISSUE one on; one that fails a check is the queue's rejected command, and ISSUE stands; the other queues stand.
A head that cannot be read because of a fault kills its queue on a core and holds it on a stage unit. With no head granted, nothing changes
but waits that are counted. -/
def Obligations.CommandIssues : Prop :=
  ∀ (s : State) (e : Eng), Up s →
    let h := s.hw.noteHolds (s.hw.heads e)
    let ready := (s.hw.heads e).filter fun x => h.headFit x && h.unitFree x && (h.headWaits x).isNone
    (∀ x, s.hw.headFault e = none → h.arbitrate e ready = some x →
      ∃ k : Hw, exec (.commandIssue e) s = .next { s with hw := k.worked } ∧ k = h.issueHead x
        ∧ (h.headCheck x = 0 → (k.qs x.id).cmds.map (·.desc) = (h.qs x.id).cmds.map (·.desc) ++ [x.desc]
          ∧ (∃ c, (k.qs x.id).cmds.getLast? = some c ∧ c.desc = x.desc ∧ c.skipped = x.skip
            ∧ c.finished = x.skip ∧ c.ptr = BitVec.ofNat 32 (h.qIssue x.id) ∧ c.sub = h.submitterOf x.id (h.qIssue x.id))
          ∧ k.qIssue x.id = (h.qIssue x.id + 1) % 0x100000000 ∧ (k.qs x.id).rejected = (h.qs x.id).rejected)
        ∧ (h.headCheck x ≠ 0 → (h.qs x.id).rejected = none →
          (k.qs x.id).rejected = some ⟨BitVec.ofNat 32 (h.qIssue x.id), h.headCheck x, x.desc⟩ ∧ (k.qs x.id).cmds = (h.qs x.id).cmds
            ∧ k.qIssue x.id = h.qIssue x.id)
        ∧ ∀ id, id ≠ x.id → k.qs id = h.qs id)
    ∧ (s.hw.headFault e = none → h.arbitrate e ready = none → exec (.commandIssue e) s = .next { s with hw := h })
    ∧ (∀ id cause level va d, s.hw.headFault e = some (id, cause, level, va, d) →
      exec (.commandIssue e) s = .next { s with hw := match e with
        | .core _ => s.hw.killFault id cause level va false d
        | .stage _ _ => s.hw.holdFault id (BitVec.ofNat 32 (s.hw.qIssue id)) cause level va false d })

/-- A rejected command that is in a set or its span, or is the oldest, halts its queue, with the rejection gone and the commands after it
killed but those whose Hitch has begun; any other waits. -/
def Sys2Proof.Claims.RejectedCommandHalts : Prop :=
  ∀ (s : State) (e : Eng) (q : Fin 8), Up s → hasQueue e q.val = true →
    let id : QId := ⟨e, q.val⟩
    (s.hw.rejectDue id = true → ∃ k : Hw, exec (.rejectedCommandHalt e q) s = .next { s with hw := k }
      ∧ (k.qs id).st = .halted ∧ (k.qs id).rejected = none ∧ (k.qs id).cmds = (s.hw.qs id).cmds.filter (·.going))
    ∧ (s.hw.rejectDue id = false → exec (.rejectedCommandHalt e q) s = .next s)

/-- AUTO_PREEMPT, where it is enabled, takes the head that arbitration would grant among those for which the holders of their unit give
way: it kills those holders for pre-emption and issues that head, unless the kill took its queue back too. GROUP_OVERFLOW rejects the head
of a full queue whose set has not ended. -/
def Sys2Proof.Claims.PreemptionAndOverflow : Prop :=
  (∀ (s : State) (n : Fin 48) (x : Head) (ids : List QId), Up s → s.hw.bit (corePage n.val) 0x040 0 = true →
    s.hw.arbitrate (.core n) ((s.hw.heads (.core n)).filter fun x => (s.hw.givesWay n.val x).isSome) = some x →
    s.hw.givesWay n.val x = some ids →
    let k := ids.foldl (fun h id => h.kill id .preempt) s.hw
    (k.qIssue x.id = s.hw.qIssue x.id → exec (.autoPreempt n) s = .next { s with hw := k.issueHead x })
    ∧ (k.qIssue x.id ≠ s.hw.qIssue x.id → exec (.autoPreempt n) s = .next { s with hw := k }))
  ∧ ∀ (s : State) (n : Fin 48) (q : Fin 8) (c : Cmd) (rest : List Cmd), Up s →
    let id : QId := ⟨.core n, q.val⟩
    let w := bitsOf (s.hw.qrd id 0x18) 8 0
    (s.hw.qs id).cmds = c :: rest → (s.hw.qs id).st = .running → (s.hw.qs id).rejected = none → w ≠ 0 → w ≤ s.hw.uncommitted id →
    hitchRun (c :: rest) = none →
    ∃ k : Hw, exec (.groupOverflow n q) s = .next { s with hw := k } ∧ k = (s.hw.reject id c.ptr cGROUP_OVERFLOW c.desc).rejectHalt id
      ∧ (k.qs id).st = .halted ∧ (k.qs id).cmds = (c :: rest).filter (·.going)

/-- The system opcodes: NOP, TRACE_MARK and GROUP_END finish with nothing to write; SET_PRED carries its mask and value to its Hitch, and
SIGNAL its core, semaphore and count; the oldest WAIT_MEM whose masked word matches finishes, and the others go on waiting; the oldest that
has waited as long as it may is rejected; PEER_SEND sends the bytes it names. -/
def Sys2Proof.Claims.SystemOpcodes : Prop :=
  ∀ (s : State) (n : Fin 48) (q : Fin 8) (c : Cmd), Up s →
    let id : QId := ⟨.core n, q.val⟩
    let fin (r : Done) : Host.Outcome State Fault Refusal := .next { s with hw := s.hw.finishCmd id c r }
    ((s.hw.running id 0x00).head? = some c → exec (.nop (.core n) q) s = fin {})
    ∧ ((s.hw.running id 0x06).head? = some c → exec (.traceMark (.core n) q) s = fin {})
    ∧ ((s.hw.running id 0x05).head? = some c → exec (.groupEnd n q) s = fin {})
    ∧ ((s.hw.running id 0x02).head? = some c → exec (.setPred n q) s = fin {
        predMask := BitVec.ofNat 64 (dword c.desc 0 + dword c.desc 1 * 0x100000000)
        predVal := BitVec.ofNat 64 (dword c.desc 2 + dword c.desc 3 * 0x100000000) })
    ∧ ((s.hw.running id 0x03).head? = some c → exec (.signal n q) s = fin {
        signals := [(bitsOf (dword c.desc 0) 5 0, bitsOf (dword c.desc 0) 11 8, bitsOf (dword c.desc 1) 15 0)] })
    ∧ (let waits (x : Cmd) : Prop := ∃ bs, s.hw.source id x 0 4 = .ok bs ∧ leNat bs &&& dword x.desc 0 ≠ dword x.desc 1;
        (∀ bs before after, s.hw.running id 0x04 = before ++ c :: after → (∀ x ∈ before, waits x) → s.hw.source id c 0 4 = .ok bs →
          leNat bs &&& dword c.desc 0 = dword c.desc 1 → exec (.waitMem n q) s = fin { touched := srcTouch c.desc 4 })
        ∧ ((∀ x ∈ s.hw.running id 0x04, waits x) → exec (.waitMem n q) s = .next s))
    ∧ (∀ bs, (s.hw.running id 0x07).head? = some c → s.hw.source id c (dword c.desc 0) (dDstLen c.desc) = .ok bs →
        exec (.peerSend n q) s = fin { result := bs, touched := srcTouch c.desc (dword c.desc 0 + dDstLen c.desc) })
    ∧ (let over_ (x : Cmd) : Prop := dword x.desc 2 ≠ 0 ∧ dword x.desc 2 * 1024 ≤ s.hw.cclk n.val (s.hw.time - x.issuedAt);
        (∀ before after, s.hw.running id 0x04 = before ++ c :: after → (∀ x ∈ before, ¬ over_ x) → over_ c →
          exec (.waitTimeout n q) s = .next { s with hw := s.hw.reject id c.ptr cWAIT_TIMEOUT c.desc })
        ∧ ((∀ x ∈ s.hw.running id 0x04, ¬ over_ x) → exec (.waitTimeout n q) s = .next s))

/-- NOP and TRACE_MARK on a stage unit finish, to signal at their commit step where they name a semaphore. CTX_LOAD reads the 64 bytes at
its source: on a Muzzle it brings the context and a readable grammar header in force, on a core it finishes, its later commands having
taken the context as they issued. A grammar root is noted for measurement. -/
def Obligations.StageSystemOpcodes : Prop :=
  (∀ (s : State) (d : Fin 4) (u : StageUnit) (q : Fin 8) (c : Cmd), Up s → q.val < 4 →
    let id : QId := ⟨.stage d u, q.val⟩
    let r : Done := { signals := match plainSigCore u c.desc with
      | some n => if dSigEn c.desc then [(n, dSigSem c.desc, 1)] else []
      | none => [] }
    (s.hw.stageHead id 0x00 = some c → exec (.nop (.stage d u) q) s = .next { s with hw := s.hw.finishCmd id c r })
    ∧ (s.hw.stageHead id 0x06 = some c → exec (.traceMark (.stage d u) q) s = .next { s with hw := s.hw.finishCmd id c r }))
  ∧ (∀ (s : State) (n : Fin 48) (q : Fin 8) (c : Cmd) (b : List Byte), Up s →
    let id : QId := ⟨.core n, q.val⟩
    (s.hw.running id 0x01).head? = some c → s.hw.read (queueMaster id) (dSrc c.desc) 64 = .ok b → b.length = 64 →
    exec (.ctxLoad (.core n) q) s = .next { s with hw :=
      (s.hw.finishCmd id c { touched := [(dSrc c.desc, 64)] }).noteRoot (ctxMuzzle b) })
  ∧ ∀ (s : State) (d : Fin 4) (q : Fin 8) (c : Cmd) (b g : List Byte), Up s → q.val < 4 →
    let id : QId := ⟨.stage d .muz, q.val⟩
    s.hw.stageHead id 0x01 = some c → s.hw.read (queueMaster id) (dSrc c.desc) 64 = .ok b → b.length = 64 → ctxMuzzle b ≠ 0 →
    s.hw.read (queueMaster id) (ctxMuzzle b) 64 = .ok g → g.length = 64 → s.hw.grammarOk id g = true →
    ∃ k : Hw, exec (.ctxLoad (.stage d .muz) q) s = .next { s with hw := k } ∧ (k.qs id).ctx = b ∧ (k.qs id).grammar = g
      ∧ (ctxMuzzle b ∉ s.hw.measured → k.measures = s.hw.measures ++ [.grammar (ctxMuzzle b)])

/-- Landing data that arrives where no other has arrived stands as it was sent; where two writers meet, both are open. -/
def Sys2Proof.Claims.LandingArrives : Prop :=
  ∀ (s : State) (n : Fin 48) (l : Landing), Up s → s.hw.landing.find? (fun l => l.core = n.val) = some l →
    (s.hw.landed.filter l.meets = [] →
      exec (.landingArrival n) s = .next { s with hw := { s.hw with landing := s.hw.landing.erase l, landed := s.hw.landed ++ [l] } })
    ∧ (s.hw.landed.filter l.meets ≠ [] → ∃ k : Hw, exec (.landingArrival n) s = .next { s with hw := k }
      ∧ k.landing = s.hw.landing.erase l ∧ k.landed.length = s.hw.landed.length + 1 ∧ k.freeCtr = s.hw.freeCtr + 1
      ∧ k = { s.hw with landing := k.landing, landed := k.landed, freeCtr := k.freeCtr })

/-- HITCH. A set that is ready, or a command alone, commits once the ring has an entry for every record due, a credit is held for every
packet, and every destination locks: a command alone has its writes made in order and its commit ended, so that COMMIT is one on and it has
left its queue; a set has begun, and goes on. While the ring has no entry nothing changes, and a wait for a credit is counted. A destination
that meets a fault kills its queue instead. A set that has begun goes on at every later HITCH. That a set commits in one step unless a
record of R69 stands between is the model's choice (log entry 9). -/
def Obligations.HitchCommits : Prop :=
  ∀ (s : State) (n : Fin 48) (q : Fin 8), Up s →
    let id : QId := ⟨.core n, q.val⟩
    (∀ k, s.hw.goingSet id = some k → exec (.hitch n q) s = .next { s with hw := s.hw.setGoesOn k })
    ∧ (s.hw.goingSet id = none → s.hw.hitchReady id = none → exec (.hitch n q) s = .next s)
    ∧ (∀ (runs : List (QId × List Cmd)) (c : Cmd) (rest : List Cmd),
      s.hw.goingSet id = none → s.hw.hitchReady id = some runs → (s.hw.qs id).cmds = c :: rest →
      (runs.all s.hw.runRing = false → exec (.hitch n q) s = .next s)
      ∧ (runs.all s.hw.runRing = true → s.hw.runCredit runs = false → exec (.hitch n q) s = .next { s with hw := s.hw.noteWait id })
      ∧ (runs.all s.hw.runRing = true → s.hw.runCredit runs = true →
        (s.hw.lockFail runs = none → dGroup c.desc = 0 → runs = [(id, [c])] ∧
          ∃ k : Hw, exec (.hitch n q) s = .next { s with hw := k } ∧ k = s.hw.hitchOne id c
            ∧ ((∀ x ∈ c.signals, x.2.1 < 16) → (∀ x ∈ c.hitchCounts, x.1 < 0x100 ∨ (0x300 ≤ x.1 ∧ x.1 < 0x1000)) → k.qCommit id = (s.hw.qCommit id + 1) % 0x100000000)
            ∧ (c.spans = [] → (k.qs id).cmds = ((c :: rest).filter (fun x => x.ptr ≠ c.ptr)).map c.keepSlot))
        ∧ (s.hw.lockFail runs = none → dGroup c.desc ≠ 0 →
          exec (.hitch n q) s = .next { s with hw := (s.hw.releaseRuns runs).setGoesOn (dGroup c.desc, dStep c.desc) })
        ∧ (∀ f d cause level va, s.hw.lockFail runs = some (f, d, .fault cause level va) →
          exec (.hitch n q) s = .next { s with hw := s.hw.killFault f cause level va true d.desc })))

/-- A set whose Hitch has begun and none of whose queues owes a record that holds it commits whole: its landing granules are cleared and the
serving block hears. -/
def Sys2Proof.Claims.SetsCommit : Prop :=
  ∀ (h : Hw) (k : Nat × Nat),
    let g := (h.goingIn k).foldl (fun h id => Hw.goOn id (h.qs id).cmds.length h) h
    (g.goingIn k = [] → h.setGoesOn k = (g.clearLanding k).stepCommitted k.1 k.2 ∧ (∀ l ∈ (g.clearLanding k).landed, (l.group, l.step) ≠ k)
      ∧ ∀ l ∈ (g.clearLanding k).landing, (l.group, l.step) ≠ k)
    ∧ (g.goingIn k ≠ [] → h.setGoesOn k = g)

/-- The end of a commit: COMMIT is one on, the command is gone, and a command that reads its result slot keeps the bytes. -/
def Sys2Proof.Claims.CommitEnds : Prop :=
  ∀ (h : Hw) (id : QId) (c : Cmd) (sigs : List (Nat × Nat × Nat)), hasQueue id.eng id.q = true →
    (∀ x ∈ sigs, x.2.1 < 16) → (∀ x ∈ c.hitchCounts, x.1 < 0x100 ∨ (0x300 ≤ x.1 ∧ x.1 < 0x1000)) → (h.commitEnd id c sigs).qCommit id = (h.qCommit id + 1) % 0x100000000
      ∧ (c.spans = [] → ((h.commitEnd id c sigs).qs id).cmds = ((h.qs id).cmds.filter (fun x => x.ptr ≠ c.ptr)).map c.keepSlot)

/-- COMMIT may be written while the queue is PAUSED or DISABLED and nothing of it is issued: it takes ISSUE with it, and what stands up to TAIL is the requester's from
then on; otherwise the write is a discarded access. A write of CQ_HEAD beyond CQ_TAIL is one too; any other frees entries, into which owed
records go. -/
def Sys2Proof.Claims.QueuePointers : Prop :=
  ∀ (s : State) (r : Req) (e : Eng) (q : Fin 8) (v : Word), hasQueue e q.val = true →
    let id : QId := ⟨e, q.val⟩
    (Reaches s r (engPage e) (qOff id 0x14) →
      ((s.hw.qs id).cmds = [] → (s.hw.qs id).st = .paused ∨ (s.hw.qs id).st = .disabled →
        ∃ k : Hw, exec (.queueCommitWrite r e q v) s = .next { s with hw := k } ∧ k.qCommit id = v.toNat ∧ k.qIssue id = v.toNat
          ∧ (k.qs id).subs = [(BitVec.ofNat 32 (s.hw.qTail id), match r with | .portA => .portA | .portB => .portB | .handler => .handler)]
          ∧ (k.qs id).killed = [] ∧ (k.qs id).confirmed = [] ∧ k = { s.hw with regs := k.regs, queues := k.queues }
          ∧ ∀ off b, regKey off b ≠ regKey (engPage e * 0x1000 + qOff id 0x14) 0 →
              regKey off b ≠ regKey (engPage e * 0x1000 + qOff id 0x10) 0 → k.reg off b = s.hw.reg off b)
      ∧ ((s.hw.qs id).cmds ≠ [] ∨ ((s.hw.qs id).st ≠ .paused ∧ (s.hw.qs id).st ≠ .disabled) →
        exec (.queueCommitWrite r e q v) s = .next { s with hw := s.hw.badAccess (pageOff (engPage e) (qOff id 0x14)) }))
    ∧ (Reaches s r (engPage e) (qOff id 0x38) →
      let n := ptrSub v.toNat (s.hw.qrd id 0x3C)
      (n = 0 ∨ 0x80000000 ≤ n → ∃ k : Hw,
        exec (.cqHeadWrite r e q v) s = .next { s with hw := Hw.flushOwed id ((s.hw.qs id).owed.length + 1) k } ∧ k.qrd id 0x38 = v.toNat
        ∧ k = { s.hw with regs := k.regs, pair := k.pair, ports := k.ports, changes := k.changes }
        ∧ ∀ off b, regKey off b ≠ regKey (engPage e * 0x1000 + qOff id 0x38) 0 → k.reg off b = s.hw.reg off b)
      ∧ (0 < n → n < 0x80000000 →
        exec (.cqHeadWrite r e q v) s = .next { s with hw := s.hw.badAccess (pageOff (engPage e) (qOff id 0x38)) }))

/-- COMPLETION_RECORD_WRITE. The oldest record owed is written once the ring has an entry that can be written and nothing waits for the
twin's acknowledgement: its 16 bytes go where the ring's entry is placed, CQ_TAIL is one on, the entry leaves what is owed, and the next is
tried. With nothing owed, or while it waits, nothing changes. -/
def Sys2Proof.Claims.CompletionRecords : Prop :=
  ∀ (s : State) (e : Eng) (q : Fin 8), Up s → hasQueue e q.val = true →
    let id : QId := ⟨e, q.val⟩
    ((s.hw.qs id).owed = [] → exec (.completionRecordWrite e q) s = .next s)
    ∧ ∀ (o : Owed) (rest : List Owed), (s.hw.qs id).owed = o :: rest →
      (o.ack = true ∨ (o.record = true ∧ s.hw.cqReady id = false) → exec (.completionRecordWrite e q) s = .next s)
      ∧ (o.ack = false → (o.record = true → s.hw.cqReady id = true) →
        let told := if o.hitch then s.hw.trace (hitchTrace id o.bytes) else s.hw
        let k := s.hw.writeRecord id o
        exec (.completionRecordWrite e q) s = .next { s with
          hw := Hw.flushOwed id (rest.length + 1) (k.setQs id { s.hw.qs id with owed := rest }) }
        ∧ (rest = [] → exec (.completionRecordWrite e q) s = .next { s with hw := k.setQs id { s.hw.qs id with owed := [] } })
        ∧ (o.record = true → k.qrd id 0x3C = (s.hw.qrd id 0x3C + 1) % 0x100000000)
        ∧ (o.record = false → k = told)
        ∧ (∀ ps, o.record = true → told.windowOf (told.cqVa id) = none → told.place (queueMaster id) (told.cqVa id) o.bytes = .ok ps →
          k.mem = (ps.foldl (fun h p => h.store p.1 p.2) told).mem))

/-- KILL, with a cause that the queue can have. With nothing that holds it up, the issued commands are gone but those whose Hitch has begun,
the cause reads, and the queue is PAUSED after a pre-emption, and in FAULT_HOLD with its master held after a fault; the queues that hold
other members of its sets are killed with it, and read the cause group. A command that commits first defers it. Any other cause is none of
the queue's: the command is ill-formed. -/
def Sys2Proof.Claims.Kills : Prop :=
  ∀ (s : State) (e : Eng) (q : Fin 8) (cause : KillCause), Up s → hasQueue e q.val = true →
    let id : QId := ⟨e, q.val⟩
    (cause ∉ killCauses e → exec (.kill e q cause) s = .refused (.illFormed "KILL"))
    ∧ (cause ∈ killCauses e → (∀ c ∈ (s.hw.qs id).cmds, holdsKill cause c = false) →
      ∃ k : Hw, exec (.kill e q cause) s = .next { s with hw := k }
        ∧ (k.qs id).cmds = (s.hw.qs id).cmds.filter (·.going) ∧ (k.qs id).rejected = none ∧ (k.qs id).cause = causeNo cause
        ∧ (cause = .preempt → (k.qs id).st = .paused) ∧ (cause = .fault → (k.qs id).st = .faultHold ∧ k.isHeld (queueMaster id) = true)
        ∧ (cause ≠ .preempt → cause ≠ .fault → (s.hw.qs id).deferred = [] → (k.qs id).st = (s.hw.qs id).st)
        ∧ ∀ id' ∈ s.hw.killClosure [] s.hw.queues.length [id], id' ≠ id →
          (k.qs id').cmds = (s.hw.qs id').cmds.filter (·.going) ∧ (k.qs id').cause = causeNo .group)
    ∧ (cause ∈ killCauses e → cause ≠ .fault → (∃ c ∈ (s.hw.qs id).cmds, holdsKill cause c = true) →
      exec (.kill e q cause) s = .next { s with hw := s.hw.deferKill id cause })

/-- SPEC_CONFIRM: the step stands as confirmed in its group, and what carried its tag carries none; memory, registers and commands stand.
SPEC_REJECT takes with it every tagged increment and gather of the step and of the later steps it covers, and kills the queues that carry
them with the cause spec_reject, but for commands that commit first. The group number 0 names no group. -/
def Obligations.Speculation : Prop :=
  ∀ (s : State) (g : Fin 256) (n : Fin 4), Up s →
    (g.val ≠ 0 → ∃ k : Hw, exec (.specConfirm g n) s = .next { s with hw := k } ∧ k.confirmed g.val n.val = true
      ∧ (∀ m : Fin 4, m ≠ n → k.confirmed g.val m.val = s.hw.confirmed g.val m.val)
      ∧ (∀ g', g' ≠ g.val → k.group g' = s.hw.group g') ∧ (k.group g.val).cores = (s.hw.group g.val).cores
      ∧ k.tagged = s.hw.tagged.filter (fun t => !(t.group = g.val && t.step = n.val))
      ∧ k.gathers = s.hw.gathers.map (fun x => if x.tag = some (g.val, n.val) then { x with tag := none } else x)
      ∧ k.mem = s.hw.mem ∧ k.regs = s.hw.regs ∧ ∀ id, (k.qs id).cmds = (s.hw.qs id).cmds ∧ (k.qs id).st = (s.hw.qs id).st)
    ∧ (g.val ≠ 0 → ∃ k : Hw, exec (.specReject g n) s = .next { s with hw := k }
      ∧ (∀ t ∈ k.tagged, ¬ (t.group = g.val ∧ t.step ∈ s.hw.rejected g.val n.val))
      ∧ (∀ x ∈ k.gathers, ∀ m ∈ s.hw.rejected g.val n.val, x.tag ≠ some (g.val, m))
      ∧ (∀ id, s.hw.carries id g.val (s.hw.rejected g.val n.val) = true → (∀ c ∈ (s.hw.qs id).cmds, c.todo = none) →
        (k.qs id).cmds = (s.hw.qs id).cmds.filter (·.going) ∧ (k.qs id).cause = causeNo .specReject)
      ∧ ((∀ id, s.hw.carries id g.val (s.hw.rejected g.val n.val) = false) → (∀ id, (k.qs id).cmds = (s.hw.qs id).cmds) ∧ k.mem = s.hw.mem))
    ∧ (g.val = 0 → exec (.specConfirm g n) s = .next s ∧ exec (.specReject g n) s = .next s)

/-- A stage unit's commit step: once its completion ring has room and a credit is held, its writes are made in order, the unit's own effect
follows, and the commit ends. A step that waits for the ring or, counted once, for a credit changes nothing else; one whose first write, cut
at page boundaries, meets a fault is held there, and one that stops further on keeps what it has still to write. This says so for the system opcodes, Splice and the Packer; other statements say it for the other units. -/
def Obligations.StageCommits : Prop :=
  ∀ (s : State) (d : Fin 4) (u : StageUnit) (q : Fin 4) (c : Cmd) (eff : Cmd → Hw → Hw), Up s →
    let id : QId := ⟨stageEng d.val u, q.val⟩
    s.hw.stageCommitHead id = some c → c.todo = none →
    (dOpcode c.desc < 0x10 ∧ s.hw.waitsConfirm id c = false ∧ eff = plainCommitEff id)
      ∨ (0x10 ≤ dOpcode c.desc ∧ u = .spl ∧ eff = spliceCommit)
      ∨ (0x10 ≤ dOpcode c.desc ∧ u = .pck ∧ eff = fun _ h => h) →
    (s.hw.ringGate id c = false → exec (.stageCommitStep d u q) s = .next s)
    ∧ (s.hw.ringGate id c = true → s.hw.creditGate id c = false →
        exec (.stageCommitStep d u q) s = .next { s with hw := s.hw.noteWait id })
    ∧ (s.hw.ringGate id c = true → s.hw.creditGate id c = true →
        (∀ k, Hw.stageWrites id c c.writes s.hw = (k, []) →
          let g := eff c k
          exec (.stageCommitStep d u q) s = .next { s with hw :=
            (g.commitEnd id (((g.qs id).cmds.find? fun x => x.ptr = c.ptr).getD c) c.signals).runDeferred id })
        ∧ (∀ k w t, Hw.stageWrites id c c.writes s.hw = (k, w :: t) → t.length + 1 < (cutWrites c.writes).length →
          exec (.stageCommitStep d u q) s = .next { s with hw := k.updCmd id c.ptr fun c => { c with todo := some (w :: t) } })
        ∧ (∀ va bs t cause level a, cutWrites c.writes = (va, bs) :: t → s.hw.windowOf va = none →
          s.hw.place (queueMaster id) va bs = .error (.fault cause level a) →
          exec (.stageCommitStep d u q) s = .next { s with hw := s.hw.holdFault id c.ptr cause level a true c.desc }))

/-- Writes of TAIL, COMMIT, CQ_HEAD and Qn_CTL, and what the actions of Qn_CTL leave. -/
def Obligations.QueueRegisterWrites : Prop := QueueTailWrites ∧ QueuePointers ∧ QueueControl ∧ QueueOperations

/-- Rejection, auto-pre-emption and overflow of a group. -/
def Obligations.Halts : Prop := RejectedCommandHalts ∧ PreemptionAndOverflow

/-- The system opcodes of a core, and landing areas. Where two writers meet in a landing area the bytes are open (log entry 3). -/
def Obligations.CoreSystemOpcodes : Prop := SystemOpcodes ∧ LandingArrives

/-- What the end of a commit leaves, a set that goes on, and the completion records that are owed. -/
def Obligations.EndOfACommit : Prop := CommitEnds ∧ SetsCommit ∧ CompletionRecords

/-- A kill, and what it drops. -/
def Obligations.KillsDropWork : Prop := Kills ∧ KillDropsIssuedCommands

/-! ### Memory tiers, translation and migration -/

/-- Invalidation (R88): a write of INVAL_CTL queues its range on the slice, and, when the slice has none under way, no TLB entry of the
range is left; the end of the oldest leaves none of its range, takes it off and raises source 2. Nothing but the MMU's own part changes. -/
def Sys2Proof.Claims.Invalidation : Prop :=
  (∀ (s : State) (r : Req) (m : Fin 4) (v : Word), Reaches s r (0x020 + m.val) 0x06C →
    let page := s.hw.rd64 (0x020 + m.val) 0x060 / 0x10000
    let pages := s.hw.rd (0x020 + m.val) 0x068
    ∃ k : Hw, exec (.tlbInvalidate r m v) s = .next { s with hw := k } ∧ k.mmu.invals = s.hw.mmu.invals ++ [⟨m.val, page, pages⟩]
      ∧ (s.hw.invalBusy m.val = false → ∀ e ∈ k.mmu.tlb, invalHits page pages e = false)
      ∧ k = { s.hw with mmu := { s.hw.mmu with tlb := k.mmu.tlb, invals := k.mmu.invals } })
  ∧ ∀ (s : State) (m : Fin 4) (i : Inval), Up s → s.hw.mmu.invals.find? (fun i => i.slice = m.val) = some i →
    ∃ k : Hw, exec (.invalidationDone m) s = .next { s with hw := k.raise (0x020 + m.val) 2 } ∧ k.mmu.invals = s.hw.mmu.invals.erase i
      ∧ (∀ e ∈ k.mmu.tlb, invalHits i.page i.pages e = false)
      ∧ k = { s.hw with mmu := { s.hw.mmu with tlb := k.mmu.tlb, invals := k.mmu.invals } }

/-- Fault service (R91, R92): the oldest record that waits is written once its ring has room; FAULT_CLEAR releases the master it names: a
core's queue in FAULT_HOLD runs, so does every queue of a stage unit, a stream retries, and a Leash port makes the accesses that wait. A name
that no held master has does nothing. -/
def Sys2Proof.Claims.FaultService : Prop :=
  (∀ (s : State) (m : Fin 4) (x : PendRec), Up s → s.hw.mmu.pend.find? (fun r => r.slice = m.val) = some x →
    (s.hw.faultRingFull m.val = false → s.hw.mmu.blocked.contains m.val = false → exec (.faultRecordWrite m) s =
      .next { s with hw := { s.hw with mmu := { s.hw.mmu with pend := s.hw.mmu.pend.erase x } }.writeFault m.val x.record })
    ∧ (s.hw.faultRingFull m.val = true ∨ s.hw.mmu.blocked.contains m.val = true → exec (.faultRecordWrite m) s = .next s))
  ∧ ∀ (s : State) (r : Req) (m : Fin 4) (v : Word), Reaches s r (0x020 + m.val) 0x05C →
    let kind := bitsOf v.toNat 19 16
    let id := bitsOf v.toNat 15 0
    let q : QId := ⟨coreEng (id / 8), id % 8⟩
    ((∃ x ∈ s.hw.mmu.held, x.kind = 6 ∧ x.id = id) → kind = 6 → exec (.faultClear r m v) s = .next { s with hw :=
        ({ s.hw with mmu := { s.hw.mmu with held := s.hw.mmu.held.filter fun x => ¬ (x.kind = 6 ∧ x.id = id) } } : Hw).drainOutside })
    ∧ ((∃ x ∈ s.hw.mmu.held, x.kind = kind ∧ x.id = id) → kind ≠ 6 → ∃ k : Hw, exec (.faultClear r m v) s = .next { s with hw := k }
      ∧ (∀ x ∈ k.mmu.held, ¬ (x.kind = kind ∧ x.id = id)) ∧ k.mem = s.hw.mem ∧ k.regs = s.hw.regs
      ∧ (kind = 0 → (s.hw.qs q).st = .faultHold → (k.qs q).st = .running)
      ∧ (kind = 2 → ∀ q ∈ s.hw.queues.map (·.1), (queueMaster q).kind = 2 → (queueMaster q).id = id → (s.hw.qs q).st = .faultHold →
          (k.qs q).st = .running)
      ∧ (kind = 7 → (k.stream id).fault = false))
    ∧ ((∀ x ∈ s.hw.mmu.held, ¬ (x.kind = kind ∧ x.id = id)) → exec (.faultClear r m v) s = .next s)

/-- SCRUB. A pass that is due counts the lines it corrected, poisons every line of its channel that cannot be corrected, notes the time and
raises source 2; one that is not due, or whose controller is off, does nothing (R99). REFRESH_DOUBLED: the channel's refresh is doubled
while one of its devices reads 85 °C or more, with an interrupt as that begins, and LPC_TEMP holds the hottest device of the controller
(R100, R111). -/
def Sys2Proof.Claims.ScrubAndRefresh : Prop :=
  (∀ (s : State) (k : Fin 16) (c : Fin 8) (n : Nat) (bad : List Nat), Up s →
    let p := 0x030 + k.val
    let ch := 8 * k.val + c.val
    let due : Prop := s.hw.enabled p = true ∧ s.hw.present p = true ∧ s.hw.rd p 0x040 ≠ 0
      ∧ s.hw.scrubbed ch + s.hw.rd p 0x040 * 3600000000000 ≤ s.hw.time
    (¬ due → exec (.scrub k c n bad) s = .next s)
    ∧ (due → ∃ j : Hw, exec (.scrub k c n bad) s = .next { s with hw := j.raise p 2 }
      ∧ (onChannel ch s.hw.flips = [] → j.rd p (0x050 + 0x10 * c.val) = min (s.hw.rd p (0x050 + 0x10 * c.val) + n) 0xFFFFFFFF)
      ∧ (∀ a ∈ bad, a < 0x10000000000000 → lpChannel (a / 64 * 64) = ch → memKey 1 (a / 64 * 64) ∈ j.poison)
      ∧ (∀ u ∈ onChannel ch s.hw.upsets, u ∈ j.poison) ∧ j.scrubbed ch = s.hw.time ∧ j.mem = s.hw.mem ∧ j.queues = s.hw.queues))
  ∧ ∀ (s : State) (k : Fin 16) (c : Fin 8) (dev : Fin 256) (temp : BitVec 8), Up s →
    let p := 0x030 + k.val
    let ch := 8 * k.val + c.val
    let read : Hw := { s.hw with temps := alPut (256 * ch + dev.val) temp s.hw.temps }
    let hot := (read.devTemps ch 1).any fun t => decide (85 ≤ t)
    ∃ t : State, exec (.refreshDoubled k c ⟨dev, temp⟩) s = .next t
      ∧ t = { s with hw := { read with regs := t.hw.regs, pow := { s.hw.pow with edges := t.hw.pow.edges } } }
      ∧ t.hw.rd p 0x048 = toSigned 8 ((read.devTemps (8 * k.val) 8).foldl max temp.toInt)
      ∧ t.hw.bit p 0x044 (8 + c.val) = hot ∧ (hot = true → s.hw.bit p 0x044 (8 + c.val) = false → t.hw.bit p 0x010 1 = true)

/-- Migration requests (R101, R104, R108, R521). A write of MREQ_TAIL within the ring is taken and any other is a discarded access. The
engine takes the request at the head: one that is malformed ends with outcome 8, one of no pages with outcome 1, a MOVE joins those in
flight. CHARGE and RELEASE account pages to a tenant where quotas are
enabled: a charge beyond the limit ends with outcome 2. -/
def Obligations.MigrationRequests : Prop :=
  (∀ (s : State) (r : Req) (v : Word), Reaches s r 0x024 0x04C →
    exec (.mreqTailWrite r v) s = .next { s with
      hw := if ptrSub v.toNat (s.hw.rd 0x024 0x050) ≤ 2 ^ s.hw.rd 0x024 0x048 then s.hw.wr 0x024 0x04C v.toNat
        else s.hw.badAccess (pageOff 0x024 0x04C) })
  ∧ (∀ (s : State), Up s → s.hw.enabled 0x024 = true →
    let head := s.hw.rd 0x024 0x050
    let w := s.hw.bytes (s.hw.mreqKey head) 32
    let h := s.hw.wr 0x024 0x050 (head + 1)
    head ≠ s.hw.rd 0x024 0x04C → inTier (s.hw.mreqKey head) 32 = true →
    ((reqOp w ∉ [1, 2, 3] ∨ reqClean w = false) → exec .migrationRequest s = .next { s with hw := h.finishReq head w 8 0 })
    ∧ (reqOp w ∈ [1, 2, 3] → reqClean w = true → reqPages w = 0 → exec .migrationRequest s = .next { s with hw := h.finishReq head w 1 0 })
    ∧ (reqOp w = 1 → reqClean w = true → reqPages w ≠ 0 → s.hw.mig.moves.length < s.hw.rd 0x024 0x054 →
        exec .migrationRequest s = .next { s with
          hw := { h with mig := { h.mig with moves := h.mig.moves ++ [{ slot := head, req := w }] } } })
    ∧ (reqOp w = 2 ∨ reqOp w = 3 → reqClean w = true → reqPages w ≠ 0 →
        exec .migrationRequest s = .next { s with hw := { h with mig := { h.mig with taken := h.mig.taken ++ [(head, w)] } } }))
  ∧ (∀ (s : State) (t : Nat × List Byte), Up s → s.hw.enabled 0x025 = false →
    (s.hw.taken 2 = some t → exec .charge s = .next { s with hw := (s.hw.untake t).finishReq t.1 t.2 1 (reqPages t.2) })
    ∧ (s.hw.taken 3 = some t → exec .release s = .next { s with hw := (s.hw.untake t).finishReq t.1 t.2 1 (reqPages t.2) }))
  ∧ ∀ (s : State) (t : Nat × List Byte), Up s → s.hw.enabled 0x025 = true → reqTier t.2 ≠ 3 →
    inTier (s.hw.quotaKey (reqTenant t.2)) 32 = true →
    let used := s.hw.quotaUsed (reqTenant t.2) (reqTier t.2)
    let h := s.hw.untake t
    (s.hw.taken 2 = some t → s.hw.quotaLimit (reqTenant t.2) (reqTier t.2) < used + reqPages t.2 →
      exec .charge s = .next { s with hw := h.finishReq t.1 t.2 2 0 })
    ∧ (s.hw.taken 2 = some t → used + reqPages t.2 ≤ s.hw.quotaLimit (reqTenant t.2) (reqTier t.2) →
      exec .charge s = .next { s with
        hw := (h.setUsed (reqTenant t.2) (reqTier t.2) (used + reqPages t.2)).finishReq t.1 t.2 1 (reqPages t.2) })
    ∧ (s.hw.taken 3 = some t → exec .release s = .next { s with
        hw := (h.setUsed (reqTenant t.2) (reqTier t.2) (used - reqPages t.2)).finishReq t.1 t.2 1 (reqPages t.2) })

/-- A MOVE (R102). Its first step tests the page and fences it, or ends the request with the outcome of the test that failed; the copy sets
moving in the leaf as it stands, leaves no TLB entry of the page, and makes the destination frame hold the bytes of the source; the flip
stores the new leaf and accounts the pages, and what waits for the page goes on; the last step ends the request with its last page, or goes
on to the next. An entry that the runtime has written while it was moving is free bytes after the flip (R85). -/
def Obligations.MovesAPage : Prop :=
  ∀ (s : State) (i : Fin 8) (m : Move), Up s → s.hw.mig.moves[i.val]? = some m →
    (m.stage = 0 → (∀ o, s.hw.moveTest m = .error o → exec (.move i) s = .next { s with
          hw := (s.hw.dropMove i.val).finishReq m.slot m.req o m.done })
      ∧ ∀ lf, s.hw.moveTest m = .ok lf → exec (.move i) s = .next { s with hw := s.hw.setMove i.val { m with
          stage := 1, leafAt := lf.at_, old := BitVec.ofNat 64 lf.pte, size := leafBytes lf.big / 0x10000 } })
    ∧ (m.stage = 1 → Memory.wf s.hw.mem = true →
      let e := leNat (s.hw.bytes m.leafAt 8) ||| 2
      let src := memKey (tierSpace (pteTier e) (ptePort e)) (pteFrame e)
      let dst := memKey (tierSpace (reqTier m.req) (reqPort m.req)) (moveDst m)
      let h := s.hw.store m.leafAt (leBytes 1 e)
      ∃ k : Hw, exec (.moveCopy i) s = .next { s with hw := k } ∧ k.mig.moves[i.val]? = some { m with stage := 2, old := BitVec.ofNat 64 e }
        ∧ (∀ j < m.size * 0x10000, k.byte (dst + j) = h.byte (src + j))
        ∧ (∀ a, a < dst ∨ dst + m.size * 0x10000 ≤ a → k.byte a = h.byte a)
        ∧ (∀ e ∈ k.mmu.tlb, invalHits (moveVa m / 0x10000) m.size e = false) ∧ k.queues = s.hw.queues)
    ∧ (m.stage = 2 →
      let old := m.old.toNat
      let h := if leNat (s.hw.bytes m.leafAt 8) = old then s.hw.store m.leafAt (leBytes 8 (flipPte old (reqTier m.req) (reqPort m.req) (moveDst m)))
        else (s.hw.store m.leafAt (freeBytes s.hw.freeCtr 8)).draw
      let moved (h : Hw) : Hw := ((h.count 0x024 0x05C m.size).setMove i.val { m with stage := 3 }).drainOutside
      (pteKv old = false ∨ s.hw.enabled 0x025 = false → exec (.moveFlip i) s = .next { s with hw := moved h })
      ∧ (pteKv old = true → s.hw.enabled 0x025 = true →
        let h1 := h.setUsed (pteTenant old) (reqTier m.req) (h.quotaUsed (pteTenant old) (reqTier m.req) + m.size)
        exec (.moveFlip i) s = .next { s with
          hw := moved (h1.setUsed (pteTenant old) (pteTier old) (h1.quotaUsed (pteTenant old) (pteTier old) - m.size)) }))
    ∧ (m.stage = 3 →
      (reqPages m.req ≤ m.done + m.size → exec (.moveComplete i) s = .next { s with
        hw := (s.hw.dropMove i.val).finishReq m.slot m.req 1 (m.done + m.size) })
      ∧ (m.done + m.size < reqPages m.req → exec (.moveComplete i) s = .next { s with
        hw := s.hw.setMove i.val { m with stage := 0, done := m.done + m.size } }))

/-- Prefetch (R106, R521). A write of a stream's TAIL within its ring is taken. An entry that is near enough and whose gate has opened leaves
the ring and is in flight; a range of it that faults puts the stream in its fault state. The oldest in flight is copied, unless it is
skipped, and sends its signal. -/
def Obligations.Prefetch : Prop :=
  (∀ (s : State) (r : Req) (i : Fin 16) (v : Word), Reaches s r 0x024 (pfOff i.val 0x0C) →
    let n := 2 ^ s.hw.rd 0x024 (pfOff i.val 0x08)
    let loop := s.hw.bit 0x024 (pfOff i.val 0x18) 1
    exec (.prefetchTailWrite r i v) s = .next { s with
      hw := if ptrSub v.toNat (s.hw.rd 0x024 (pfOff i.val 0x10)) ≤ n ∧ (loop = false ∨ v.toNat ≤ n)
        then s.hw.wr 0x024 (pfOff i.val 0x0C) v.toNat else s.hw.badAccess (pageOff 0x024 (pfOff i.val 0x0C)) })
  ∧ (∀ (s : State) (i : Fin 16) (e : List Byte), Up s → s.hw.pfHead i.val = some e → s.hw.pfOn i.val = true →
    let st := s.hw.stream i.val
    let head := s.hw.rd 0x024 (pfOff i.val 0x10)
    let skip := (pfPredEn e && (s.hw.pred (pfCore e) (pfPred e) == pfPredInv e)) || pfLen e == 0
    st.fault = false → st.inflight.length < 4 → s.hw.pfNear i.val e = true → (pfGate e = true → st.gateOpen = true) →
    (skip = true ∨ (s.hw.probe (streamMaster i.val) false (pfSrc e) (pfLen e) = none
        ∧ s.hw.probe (streamMaster i.val) true (pfDst e) (pfLen e) = none) →
      ∃ k : Hw, exec (.prefetchEntryIssue i) s = .next { s with hw := k } ∧ k.rd 0x024 (pfOff i.val 0x10) = (head + 1) % 0x100000000
        ∧ (k.stream i.val).inflight = st.inflight ++ [⟨BitVec.ofNat 32 head, e, skip, false⟩] ∧ (k.stream i.val).gateOpen = false
        ∧ (k.stream i.val).layer = st.layer ∧ (∀ j, j ≠ i.val → k.stream j = s.hw.stream j)
        ∧ k = { s.hw with regs := k.regs, mig := { s.hw.mig with streams := k.mig.streams } })
    ∧ (∀ c l va, skip = false → s.hw.probe (streamMaster i.val) false (pfSrc e) (pfLen e) = some (.fault c l va) →
      exec (.prefetchEntryIssue i) s = .next { s with hw := s.hw.streamFault i.val c l va false })
    ∧ (∀ c l va, skip = false → s.hw.probe (streamMaster i.val) false (pfSrc e) (pfLen e) = none →
      s.hw.probe (streamMaster i.val) true (pfDst e) (pfLen e) = some (.fault c l va) →
      exec (.prefetchEntryIssue i) s = .next { s with hw := s.hw.streamFault i.val c l va true }))
  ∧ ∀ (s : State) (i : Fin 16) (e : PfEnt) (rest : List PfEnt), Up s →
    let st := s.hw.stream i.val
    let m := streamMaster i.val
    let n := pfLen e.entry
    let copied := if e.skip then s.hw else Hw.copyVa m (2 * (n / 0x10000) + 4) (pfSrc e.entry) (pfDst e.entry) n
        ((s.hw.touch m (pfSrc e.entry) n).lookups m (pfDst e.entry) n)
    st.inflight = e :: rest → st.fault = false →
    (e.skip = true ∨ (s.hw.probe m false (pfSrc e.entry) n = none ∧ s.hw.probe m true (pfDst e.entry) n = none)) →
    let h := copied.setStream i.val { copied.stream i.val with inflight := rest }
    exec (.prefetchEntryComplete i) s = .next { s with
      hw := if pfSigEn e.entry then h.semAdd (pfCore e.entry) (pfSem e.entry) 1 else h }

/-- Age stamps (R109, R110). Once AGE_PERIOD has passed no TLB holds a pool page. A scan that is asked for while none runs starts, or waits
while TIER is disabled; one that is asked for while another runs starts nothing; its end writes the frames that are old enough, up to the
count that fits, with their number in SCAN_FOUND and source 0 raised. -/
def Sys2Proof.Claims.AgesAndScans : Prop :=
  (∀ (s : State), Up s → let per := s.hw.rd 0x025 0x058
    (per ≠ 0 → s.hw.enabled 0x025 = true → s.hw.mig.lastAge + per * 0x1000000 ≤ s.hw.time →
      ∃ k : Hw, exec .ageRefresh s = .next { s with hw := k }
        ∧ (∀ e ∈ k.mmu.tlb, ptePool e.pte.toNat = false) ∧ k.mig.lastAge = s.hw.time
        ∧ k = { s.hw with mmu := { s.hw.mmu with tlb := k.mmu.tlb }, mig := { s.hw.mig with lastAge := k.mig.lastAge } })
    ∧ (per = 0 ∨ s.hw.enabled 0x025 = false ∨ s.hw.time < s.hw.mig.lastAge + per * 0x1000000 → exec .ageRefresh s = .next s))
  ∧ (∀ (s : State) (r : Req) (v : Word), Reaches s r 0x025 0x05C →
    let h := s.hw.wr 0x025 0x05C (bitsOf v.toNat 1 1 * 2)
    let t := bitsOf v.toNat 1 1
    (s.hw.scanning = true → exec (.scan r v) s = .next { s with hw := h })
    ∧ (s.hw.scanning = false → s.hw.enabled 0x025 = true →
      exec (.scan r v) s = .next { s with hw := { h with mig := { h.mig with scanBusy := some t, scanWait := none } } })
    ∧ (s.hw.scanning = false → s.hw.enabled 0x025 = false →
      exec (.scan r v) s = .next { s with hw := { h with mig := { h.mig with scanWait := some t } } }))
  ∧ ∀ (s : State) (t : Nat), Up s → s.hw.mig.scanBusy = some t →
    let base := if t = 0 then s.hw.tierBase 0x025 0x048 4 else s.hw.tierBase 0x025 0x050 4
    let all := s.hw.oldFrames base (spaceSize t / 0x10000) (if t = 0 then s.hw.mig.scanNear else s.hw.mig.scanLp)
    let found := all.take (s.hw.rd 0x025 0x06C)
    let out := s.hw.tierBase 0x025 0x064 3
    ∃ j : Hw, exec .scanDone s = .next { s with hw := (j.wr 0x025 0x070 found.length).raise 0x025 0 } ∧ j.mig.scanBusy = none
      ∧ j.mem = ((found.zipIdx 0).foldl (fun h x => h.storeTier (out + 8 * x.2) (leBytes 8 (x.1 * 0x10000 + t))) s.hw).mem
      ∧ j.regs = s.hw.regs ∧ j.queues = s.hw.queues

/-- Invalidation of translations, and service of translation faults. Which entry a TLB replaces is the model's choice (log entry 23). -/
def Obligations.TranslationUpkeep : Prop := Invalidation ∧ FaultService

/-- Scrub, refresh, age stamps and scans. -/
def Obligations.TierUpkeep : Prop := ScrubAndRefresh ∧ AgesAndScans

/-! ### DMA -/

/-- What starts and ends a DMA transfer (R116 to R118, R122). GO on an idle channel stores CTL's fields; on a disabled page the channel is
PENDING, and enabling the page starts it; on an enabled one the checks act in their order: an ABI that is not agreed, a count of 0, which is
DONE at once, an address with bits above 51, a range past the top. A sig_core that is no core discards the write (R36). STOP moves RUNNING
to STOPPING, PENDING to IDLE, and lets a write that waits for a move finish. In a busy channel no other write of CTL acts. A transfer whose
count is 0 is DONE, after a zero-length read on each host port that it has written by; a port that is down is a fault. -/
def Obligations.DmaStartsAndStops : Prop :=
  ∀ (s : State) (r : Req) (n : Fin 32) (v : Word),
    let p := dmaPage n.val
    let st := s.hw.dmaSt n.val
    let busy : Prop := st = dRUNNING ∨ st = dWAIT_MOVE ∨ st = dSTOPPING ∨ st = dPENDING
    let code := s.hw.dmaCode n.val
    let h := (s.hw.wr p 0x054 ((v.toNat ||| 1) &&& 0x3FFF0)).demand.worked
    let src := h.dmaSrc n.val
    let dst := h.dmaDst n.val
    let c := h.dmaCount n.val
    let fails (e : Nat) : Hw := ((h.dmaSet n.val dERROR e).err p 2 e).raise p 2
    let ok : Prop := bitsOf (h.rd p 0x044) 31 20 = 0 ∧ bitsOf (h.rd p 0x04C) 31 20 = 0
    let fits : Prop := src + c ≤ 2 ^ 52 ∧ dst + c ≤ 2 ^ 52
    (Reaches s r p 0x054 →
      (¬ busy → 48 ≤ bitsOf v.toNat 17 12 →
        exec (.dmaGo r n v) s = .next { s with hw := s.hw.badAccess (pageOff p 0x054) })
      ∧ (¬ busy → bitsOf v.toNat 17 12 < 48 →
        (h.enabled p = false → exec (.dmaGo r n v) s = .next { s with
          hw := (h.setCh n.val { h.ch n.val with pendBy := r }).dmaSet n.val dPENDING (h.dmaCode n.val) })
        ∧ (h.enabled p = true →
          (h.agreed r = false → exec (.dmaGo r n v) s = .next { s with hw := fails cABI })
          ∧ (h.agreed r = true → c = 0 → exec (.dmaGo r n v) s = .next { s with hw := h.dmaFinish n.val })
          ∧ (h.agreed r = true → c ≠ 0 → ¬ ok → exec (.dmaGo r n v) s = .next { s with hw := fails cFORMAT })
          ∧ (h.agreed r = true → c ≠ 0 → ok → ¬ fits → exec (.dmaGo r n v) s = .next { s with hw := fails cLENGTH })
          ∧ (h.agreed r = true → c ≠ 0 → ok → fits → ∃ k : Hw, exec (.dmaGo r n v) s = .next { s with hw := k }
              ∧ k.dmaSt n.val = dRUNNING ∧ (k.ch n.val).lines = [] ∧ (k.ch n.val).len = c
              ∧ k.dmaSrc n.val = src ∧ k.dmaDst n.val = dst ∧ k.dmaCount n.val = c
              ∧ k = { h with regs := k.regs, dma := k.dma })))
      ∧ (busy → bitOf v.toNat 1 = false → exec (.dmaGo r n v) s = .next { s with hw := s.hw.badAccess (pageOff p 0x054) })
      ∧ (st = dRUNNING → exec (.dmaStop r n v) s = .next { s with hw := s.hw.dmaSet n.val dSTOPPING code })
      ∧ (st = dPENDING → exec (.dmaStop r n v) s = .next { s with hw := s.hw.dmaSet n.val dIDLE code })
      ∧ (st = dWAIT_MOVE → exec (.dmaStop r n v) s = .next { s with
          hw := (s.hw.setCh n.val { s.hw.ch n.val with stopAfter := true }).dmaSet n.val dSTOPPING code }))
    ∧ (Reaches s r p 0x008 → s.hw.demand.enabled p = false → s.hw.demand.dmaSt n.val = dPENDING → bitOf v.toNat 0 = true →
      let h := s.hw.demand.wr p 0x008 (v.toNat &&& 5)
      exec (.pageEnable r p v) s = .next { s with hw := h.dmaStart n.val (h.ch n.val).pendBy })
    ∧ (Up s → st = dSTOPPING → (s.hw.ch n.val).stopAfter = false → ∃ k : Hw, exec (.dmaStopped n) s = .next { s with hw := k }
        ∧ k.dmaSt n.val = dIDLE ∧ (k.ch n.val).lines = [] ∧ k = { s.hw with regs := k.regs, dma := k.dma })
    ∧ (Up s → st = dRUNNING → s.hw.dmaCount n.val = 0 →
      let ch := s.hw.ch n.val
      ((∀ q ∈ ch.ports, q ∈ ch.flushed) → exec (.dmaDone n) s = .next { s with hw := s.hw.dmaFinish n.val })
      ∧ (∀ port, ch.ports.find? (fun q => !ch.flushed.contains q) = some port → ch.asking = none →
        (s.hw.kennelUp port = true → s.hw.tagFree port = true → exec (.dmaDone n) s = .next { s with
          hw := (s.hw.askHost port (.dmaFlush n.val ch.run port) 0).setCh n.val { ch with asking := some port } })
        ∧ (s.hw.kennelUp port = false → exec (.dmaDone n) s = .next { s with
          hw := s.hw.dmaFault n.val fKennel (s.hw.dmaLevel n.val (s.hw.dmaDst n.val - 1)) (s.hw.dmaDst n.val - 1) true })))

/-- A finished channel reads DONE, with ECC_UNCORRECTABLE where its copy met poison, and raises source 0 where CTL asks for it (R116,
R123). -/
def Sys2Proof.Claims.DmaFinishes : Prop :=
  ∀ (h : Hw) (n : Fin 32),
    let ctl := h.rd (dmaPage n.val) 0x054
    (h.dmaFinish n.val).dmaSt n.val = dDONE ∧ (h.dmaFinish n.val).dmaCode n.val = (if (h.ch n.val).poisoned then cECC else 0)
      ∧ ((h.dmaFinish n.val).ch n.val).lines = [] ∧ (bitOf ctl 6 = true → (h.dmaFinish n.val).bit (dmaPage n.val) 0x010 0 = true)
      ∧ (bitOf ctl 7 = false ∨ 48 ≤ bitsOf ctl 17 12 → ∀ c < 48, ∀ i < 16, (h.dmaFinish n.val).sem c i = h.sem c i)

/-- DMA_ACCESS_WRITTEN: in a quadrant the read engine turns to one channel and then the write engine to one, each to one it picks among
those it can serve, of the lowest priority value (R113). -/
def Sys2Proof.Claims.DmaEngines : Prop :=
  (∀ (s : State) (q : Fin 4), Up s →
    let read := match s.hw.dmaPick q.val 0 s.hw.dmaCanRead with
      | some n => (s.hw.dmaReadLine n).dmaServed n 0
      | none => s.hw
    exec (.dmaAccessWritten q) s = .next { s with hw := match read.dmaPick q.val 1 read.dmaCanWrite with
      | some n => (read.dmaWriteNext n).dmaServed n 1
      | none => read })
  ∧ ∀ (h : Hw) (q : Fin 4) (e : Fin 2) (can : Nat → Bool),
    (∀ n, h.dmaPick q.val e.val can = some n → can n = true ∧ n / 8 = q.val ∧ ∀ m ∈ quadChannels q.val, can m = true → h.dmaPrio n ≤ h.dmaPrio m)
    ∧ (h.dmaPick q.val e.val can = none → ∀ m ∈ quadChannels q.val, can m = false)

/-- What the engines do for a channel (R112, R114, R115, R119, R121). The next source line enters the buffer with its bytes, or is asked of
the host. A destination access whose source bytes are at hand is written, and nothing beside it; SRC and DST advance by its size and COUNT
falls by it; bytes that overlap ahead of the source are open. A write to a moving page waits for the flip. -/
def Sys2Proof.Claims.DmaLinesAndWrites : Prop :=
  ∀ (h : Hw) (n : Fin 32),
    let m := dmaMaster n.val
    let src := h.dmaSrc n.val
    let dst := h.dmaDst n.val
    let w := dmaAccess dst (h.dmaCount n.val)
    (∀ va k, h.dmaWants n.val = some va → h.dmaSpot n.val va = .ok (some k) →
      let g := h.dmaReadLine n.val
      (k / 0x10000000000000 < 2 →
        (g.ch n.val).lines = (h.ch n.val).lines ++ [{ va := va, data := some (g.bytes k 64), bad := g.poisoned k 64 }])
      ∧ (2 ≤ k / 0x10000000000000 → (g.ch n.val).lines = (h.ch n.val).lines ++ [{ va := va }]))
    ∧ (∀ ls dk, h.dmaReady n.val = some ls → h.dmaTarget n.val = .ok (some dk) →
      let k := h.dmaWriteNext n.val
      let onto := decide (src < dst ∧ dst < src + (h.ch n.val).len)
      (onto = false → ∀ i < w, k.byte (dk + i) = dmaByte ls (src + i))
        ∧ (∀ a, a < dk ∨ dk + w ≤ a → k.byte a = ((if onto then h.draw else h).lookups m dst w).byte a)
        ∧ k.dmaSrc n.val = (src + w) % 2 ^ 64 ∧ k.dmaDst n.val = (dst + w) % 2 ^ 64
        ∧ k.dmaCount n.val = h.dmaCount n.val - w ∧ k.dmaSt n.val = h.dmaSt n.val ∧ k.queues = h.queues)
    ∧ (∀ ls, h.dmaReady n.val = some ls → h.dmaTarget n.val = .error .wait → h.dmaMoving n.val = true →
      h.dmaWriteNext n.val = h.dmaSet n.val dWAIT_MOVE (h.dmaCode n.val))

/-- A channel that an engine meets a fault for stops where it stands (R120), and one that waited for a flip runs on or, stopped meanwhile,
finishes its write (R121, R122). -/
def Sys2Proof.Claims.DmaFaultsAndFlips : Prop :=
  ∀ (s : State) (n : Fin 32), Up s →
    let c := s.hw.ch n.val
    (∀ cause level va wr, s.hw.dmaNextFault n.val = some (cause, level, va, wr) →
      exec (.dmaFaultStop n) s = .next { s with hw := s.hw.dmaFault n.val cause level va wr })
    ∧ (s.hw.dmaNextFault n.val = none → exec (.dmaFaultStop n) s = .next s)
    ∧ (s.hw.dmaSt n.val = dWAIT_MOVE → s.hw.dmaMoving n.val = false →
      exec (.dmaWaitMoveRelease n) s = .next { s with hw := s.hw.dmaSet n.val dRUNNING (s.hw.dmaCode n.val) })
    ∧ (s.hw.dmaSt n.val = dSTOPPING → c.stopAfter = true → s.hw.dmaMoving n.val = false →
      (∀ ls k, s.hw.dmaReady n.val = some ls → s.hw.dmaTarget n.val = .ok k →
        let h := s.hw.dmaPut n.val ls k
        exec (.dmaWaitMoveRelease n) s = .next { s with hw := h.setCh n.val { h.ch n.val with stopAfter := false } })
      ∧ (∀ ls cause level va, s.hw.dmaReady n.val = some ls → s.hw.dmaTarget n.val = .error (.fault cause level va) →
        exec (.dmaWaitMoveRelease n) s = .next { s with hw := s.hw.dmaFault n.val cause level va true }))
    ∧ (s.hw.dmaMoving n.val = true → exec (.dmaWaitMoveRelease n) s = .next s)

/-- DMA accesses, their ends and their faults. How lines of host memory arrive is the model's choice (log entry 27), and what of a copy a
later GO resumes (log entry 80). -/
def Obligations.DmaMovesBytes : Prop := DmaEngines ∧ DmaLinesAndWrites ∧ DmaFinishes ∧ DmaFaultsAndFlips

/-! ### Matrix arrays and the matrix-vector path -/

/-- MATMUL (R145 to R148), in the array mode that the command began with (R142). With its scale, activations, tiles and rescale entries read, and, in integer formats, one tile_shift in each
column of the grid, it finishes with the m × n_out elements, row by row, each made from its column's sum over the passes; a command with a
count of zero finishes with nothing. The order of rounding of partial sums is read as log entries 29 and 63 say. -/
def Obligations.MatmulResult : Prop :=
  ∀ (s : State) (n : Fin 48) (q : Fin 8) (c : Cmd), Up s →
    let id : QId := ⟨.core n, q.val⟩
    let o := matmulOp c.desc
    let isInt := (arrayPair o.wgt o.act) == some true
    let srcN := elemBytes o.src (o.m * o.kTiles * 64)
    (s.hw.running id 0x10).head? = some c →
    (o.m = 0 ∨ o.kTiles = 0 ∨ o.nOut = 0 → exec (.matmul n q) s = .next { s with hw := s.hw.finishCmd id c {} })
    ∧ (∀ (sA : Int) (bytes : List Byte) (cols : List (List Tile)) (entries : List Nat), o.m ≠ 0 → o.kTiles ≠ 0 → o.nOut ≠ 0 →
      (o.conv = true → (exNat s.hw (queueMaster id) (ctxScaleTable c.ctx + o.scaleIndex) 1).map (signedOf 8) = .ok sA) →
      (o.conv = false → sA = 0) → s.hw.source id c 0 srcN = .ok bytes →
      ((List.range o.nTiles).mapM fun nt => (List.range o.kTiles).mapM fun kt =>
        readTile s.hw (queueMaster id) o.va o.wgt o.sparse o.kTiles o.nTiles o.tileCols o.nOut kt nt) = .ok cols →
      ((List.range o.nOut).mapM fun j => rescaleEntry s.hw (queueMaster id) c.ctx o.rescale o.rescaleIndex j) = .ok entries →
      (isInt = true → cols.all sameShift = true) →
      let feed (i : Nat) := feedRow o sA ((bytes.drop (i * elemBytes o.src (o.kTiles * 64))).take (elemBytes o.src (o.kTiles * 64))).toArray
      let acc (i j : Nat) := columnSum isInt c.tree (o.wgt == fmFP32) o.chain o.passTiles sA
        ((cols.getD (j / o.tileCols) []).zip ((runsOf 64 o.kTiles (feed i).1).map List.toArray)) (j % o.tileCols)
      let out (i j : Nat) := outElem o.dst isInt o.rescale (entries.getD j 0)
        (((cols.getD (j / o.tileCols) []).head?.map (·.shift)).getD 0 + sA) (acc i j).1 (acc i j).2.1
      ∃ r, exec (.matmul n q) s = .next { s with hw := s.hw.finishCmd id c r }
        ∧ r.result = packElems o.dst ((List.range o.m).flatMap fun i => (List.range o.nOut).map fun j => (out i j).1)
        ∧ Delivers c.desc r
        ∧ (0x338, ((List.range o.m).map fun i => ((List.range o.nOut).map fun j => (acc i j).2.2).sum).sum) ∈ r.counts)

/-- MATVEC (R149 to R154). With its vector, the stored rows it reads of its tiles, and its rescale entries read, and one tile_shift in each
column of tiles where it works in integers, it finishes with its n_out elements; a row that zero_skip skips contributes nothing; a command
with a count of zero finishes with nothing. -/
def Obligations.MatvecResult : Prop :=
  ∀ (s : State) (n : Fin 48) (q : Fin 8) (c : Cmd), Up s →
    let id : QId := ⟨.core n, q.val⟩
    let o := matvecOp c.desc
    let isInt := (vecPair o.wgt o.vec) == some true
    (s.hw.running id 0x40).head? = some c →
    (o.kTiles = 0 ∨ o.nOut = 0 → exec (.matvec n q) s = .next { s with hw := s.hw.finishCmd id c {} })
    ∧ (∀ (bytes : List Byte) (cols : List (List Tile)) (entries : List Nat), o.kTiles ≠ 0 → o.nOut ≠ 0 →
      s.hw.source id c 0 (elemBytes o.vec (o.kTiles * 64)) = .ok bytes →
      let xs := (List.range (o.kTiles * 64)).map fun i => decode o.vec (elemAt o.vec bytes.toArray i)
      let xa := (runsOf 64 o.kTiles xs).map List.toArray
      ((List.range o.nTiles).mapM fun nt => (List.range o.kTiles).mapM fun kt =>
        readTileRows s.hw (queueMaster id) (tileVa o.va o.wgt o.sparse o.kTiles kt nt) o.wgt o.sparse (tileWidth o.nTiles 64 o.nOut nt)
          (vecStored o.zeroSkip o.sparse (xa.getD kt #[]))) = .ok cols →
      ((List.range o.nOut).mapM fun j => rescaleEntry s.hw (queueMaster id) c.ctx o.rescale o.rescaleIndex j) = .ok entries →
      (isInt = true → cols.all sameShift = true) →
      let col (j : Nat) := (cols.getD (j / 64) []).zip xa
      let products (j : Nat) := (col j).flatMap fun (t, x) =>
        (vecStored o.zeroSkip o.sparse x).map fun i => (tileProduct t x (j % 64) i, t.shift)
      let cycles (j : Nat) := runsOf (vecRows o.wgt) (products j).length (products j)
      let addp (a b : Int × Nat) : Int × Nat := ((addSat a.1 b.1).1, a.2 + b.2 + (addSat a.1 b.1).2)
      let sumI (j : Nat) := ((cycles j).foldl (fun acc cy => addp acc (treeSum addp (0, 0) 5 (cy.map fun p => (intOf p.1, 0)))) (0, 0)).1
      let sumF (j : Nat) := (cycles j).foldl (fun acc cy => fadd acc (treeSum fadd 0 5 (cy.map fun p => f32 (p.1.scale p.2)))) 0
      let out (j : Nat) := if isInt
        then outElem o.dst true o.rescale (entries.getD j 0) (((col j).head?.map fun p => p.1.shift).getD 0) (sumI j) 0
        else outElem o.dst false o.rescale (entries.getD j 0) 0 0 (sumF j)
      ∃ r, exec (.matvec n q) s = .next { s with hw := s.hw.finishCmd id c r }
        ∧ r.result = packElems o.dst ((List.range o.nOut).map fun j => (out j).1)
        ∧ Delivers c.desc r)

/-- Integer accumulation is exact as long as the magnitudes add up to no more than INT32 holds: down the columns or through the trees of one
to four members with their share of the products, and it counts no saturation (R133, R142). -/
def Obligations.IntegerSumsAreExact : Prop :=
  ∀ (tree : Bool) (members per : Nat) (ps : List Int), 1 ≤ members → members ≤ 4 → ps.length ≤ members * per →
    (ps.map Int.natAbs).sum ≤ 2147483647 → passInt tree members per ps = (ps.sum, 0)

/-- TREE_MODE holds its one bit (R142). ARR_OFF and the bypass maps are the Handler's to write while the core's queues read DISABLED: a LO
half is staged, a HI half stores both, and ARR_WIDTH and ARR_GANG follow, an array that is off or has more than 8 columns bypassed being of
no width (R155, R156). Any other write of them is a discarded access. -/
def Obligations.ArrayControl : Prop :=
  (∀ (s : State) (r : Req) (n : Fin 48) (v : Word), Reaches s r (corePage n.val) 0x308 →
    exec (.treeModeWrite r n v) s = .next { s with hw := s.hw.wr (corePage n.val) 0x308 (v.toNat % 2) })
  ∧ ∀ (s : State) (r : Req) (n : Fin 48) (o : Nat) (v : Word), Reaches s r (corePage n.val) o →
    let p := corePage n.val
    let half : Prop := 0x318 ≤ o ∧ o < 0x338 ∧ o % 4 = 0
    let width (h : Hw) (a : Nat) : Nat := if h.bit p 0x310 a = true ∨ 8 < popcount (h.rd p (0x318 + 8 * a)) + popcount (h.rd p (0x31C + 8 * a))
      then 0 else 64 - (popcount (h.rd p (0x318 + 8 * a)) + popcount (h.rd p (0x31C + 8 * a)))
    let follows (k : Hw) : Prop := (∀ a < 4, k.arrWidth n.val a = width k a)
      ∧ k.gangWidth n.val = min (min (width k 0) (width k 1)) (min (width k 2) (width k 3))
      ∧ k = { s.hw with regs := k.regs, accA := k.accA, accB := k.accB, accH := k.accH }
    (r = .handler → s.hw.coreQuiet n.val = true →
      (o = 0x310 → ∃ k : Hw, exec (.arrayRepairWrite r n o v) s = .next { s with hw := k } ∧ k.rd p 0x310 = v.toNat % 16 ∧ follows k)
      ∧ (half → o % 8 = 0 → exec (.arrayRepairWrite r n o v) s = .next { s with hw := s.hw.stageLo r (pageOff p o) v })
      ∧ (half → o % 8 = 4 → ∃ k : Hw, exec (.arrayRepairWrite r n o v) s = .next { s with hw := k } ∧ k.rd p o = v.toNat
        ∧ k.reg (pageOff p (o - 4)) = s.hw.stagedLo r (pageOff p o - 4) 0 ∧ (k.acc r).staging = none ∧ follows k))
    ∧ (r ≠ .handler ∨ s.hw.coreQuiet n.val = false → o = 0x310 ∨ (half ∧ o % 8 = 0) →
      exec (.arrayRepairWrite r n o v) s = .next { s with hw := s.hw.badAccess (pageOff p o) })
    ∧ (r ≠ .handler ∨ s.hw.coreQuiet n.val = false → half → o % 8 = 4 →
      exec (.arrayRepairWrite r n o v) s = .next { s with hw := (s.hw.badAccess (pageOff p o)).unstage r })

/-! ### Conversion and optimisers -/

/-- CONVERT (R179, R180) finishes with its elements, or its tiles, in the destination format; one of no elements with nothing. -/
def Obligations.ConvertResult : Prop :=
  ∀ (s : State) (n : Fin 48) (q : Fin 8) (c : Cmd), Up s →
    let id : QId := ⟨.core n, q.val⟩
    let o := convertOp c.desc
    (s.hw.running id 0x90).head? = some c →
    (o.n = 0 → exec (.convert n q) s = .next { s with hw := s.hw.finishCmd id c {} })
    ∧ (∀ bs, o.n ≠ 0 → s.hw.source id c 0 (vecBytes o.src o.n) = .ok bs →
      let out := (if o.tiles then convertTiles else convertLinear) o (drawOf o.sr c 0) (vecAt o.src o.n o.srcShift bs.toArray)
      ∃ r, exec (.convert n q) s = .next { s with hw := s.hw.finishCmd id c r } ∧ r.result = out.1 ∧ Delivers c.desc r
        ∧ r.counts = [(0x408, out.2.sat), (0x40C, out.2.nan), (0x410, out.2.clamp)])

/-- OPT_UPDATE (R181 to R186). A row whose gradient is not finite stands where skip is set; any other has the parameters and the state that
its optimiser gives it, and is all that is written. Where two of the command's ranges meet, or another update not ordered before or after it
writes what it writes, the bytes are open (log entry 3). -/
def Sys2Proof.Claims.UpdatesRows : Prop :=
  ∀ (s : State) (n : Fin 48) (q : Fin 8) (c : Cmd) (dst : Nat), Up s →
    let id : QId := ⟨.core n, q.val⟩
    let o := optOp c.desc
    let sN := stateBytes o.optimiser o.bs4 o.len
    (s.hw.running id 0x91).head? = some c → addrForm (dDst c.desc) = .va dst →
    (o.len = 0 ∨ o.rows = 0 → exec (.optUpdate n q) s = .next { s with hw := (s.hw.finishCmd id c {}).openClashes id c.ptr })
    ∧ (∀ gs ps st hy, o.len ≠ 0 → o.rows ≠ 0 → s.hw.source id c 0 (elemBytes o.grad (o.rows * o.len)) = .ok gs →
      exRead s.hw (queueMaster id) dst (elemBytes o.param (o.rows * o.len)) = .ok ps →
      exRead s.hw (queueMaster id) o.state (o.rows * sN) = .ok st → exRead s.hw (queueMaster id) o.hyper 32 = .ok hy →
      let raw (i : Nat) := (List.range o.len).map fun j => decode o.grad (elemAt o.grad gs.toArray (i * o.len + j))
      let old (i : Nat) := (List.range o.len).map fun j => elemAt o.param ps.toArray (i * o.len + j)
      let was (i : Nat) := (st.drop (i * sN)).take sN
      let new (i : Nat) := optRow o.optimiser o.bs4 (hyperOf hy) (fun d j => drawOf true c d (i * o.len + j))
        ((raw i).map fun x => f32 (x.scale (hyperOf hy).gradShift)) ((old i).map fun x => f32 (decode o.param x)) (was i)
      let stands (i : Nat) : Bool := (raw i).any FVal.nonFinite && o.skip
      let params (i : Nat) := if stands i then old i
        else (convertAll o.param (drawOf (o.sr && o.param == fmBF16) c 0) (i * o.len) ((new i).1.map (decodeFloat 0))).1
      let pB := packElems o.param ((List.range o.rows).flatMap params)
      let sB := (List.range o.rows).flatMap fun i => if stands i then was i else (new i).2.1
      let open_ := freeBytes s.hw.freeCtr (pB.length + sB.length)
      let clash := anyMeet (optRanges c.desc)
      let kept := (List.range o.rows).map stands
      ∃ r, exec (.optUpdate n q) s = .next { s with hw := (s.hw.finishCmd id c r).openClashes id c.ptr }
        ∧ r.result = (if clash then open_.take pB.length else pB)
        ∧ r.writes = rowWrites dst (elemBytes o.param o.len) kept r.result
            ++ rowWrites o.state sN kept (if clash then open_.drop pB.length else sB)
        ∧ r.spans = r.writes.map (fun w => (w.1, w.2.length))
        ∧ r.code = 0 ∧ r.predMask = 0 ∧ r.signals = [] ∧ r.work = .none ∧ r.drew = clash)

/-- A row that stands is not written, and every other is written whole at its place. -/
def Sys2Proof.Claims.RowsThatStand : Prop :=
  ∀ (va n : Nat) (kept : List Bool) (bytes : List Byte), n ≠ 0 → bytes.length = kept.length * n →
    ∀ w, w ∈ rowWrites va n kept bytes ↔ ∃ i < kept.length, kept.getD i false = false ∧ w = (va + i * n, (bytes.drop (i * n)).take n)

/-- OPT_UPDATE, and the rows that it writes. Where ranges meet the bytes are open (log entry 3). -/
def Obligations.OptimiserUpdate : Prop := UpdatesRows ∧ RowsThatStand

/-! ### Special functions -/

/-- SFU_MAP, SFU_GATED and TABLE_CHECK (R197, R209). A command of the special-function unit whose function is at hand, a built-in one or the
microprogram that it took as it began, finishes: one by one, in pairs of halves of a row, or with the report of the monotonicity check over
every input of its range. -/
def Sys2Proof.Claims.SpecialFunctions : Prop :=
  ∀ (s : State) (n : Fin 48) (q : Fin 8) (c : Cmd) (f : Nat → Eval) (bs : List Byte), Up s →
    let id : QId := ⟨.core n, q.val⟩
    let o := mapOp c.desc
    let names (k : Nat) : Prop := sfuReady c = true ∧
      ((k < 9 ∧ f = builtin k) ∨ (9 ≤ k ∧ ∃ r, r ≠ [] ∧ c.prog = some r ∧ f = microEval r))
    let x (i : Nat) := sfuIn o.src o.srcShift (elemAt o.src bs.toArray i)
    let packed (ys : List Nat) : List Byte := packElems o.dst (sfuOutAll o.dst o.dstShift ys).1
    ((s.hw.running id 0x60).head? = some c → (o.n = 0 → exec (.sfuMap n q) s = .next { s with hw := s.hw.finishCmd id c {} })
      ∧ (o.n ≠ 0 → names o.func → s.hw.source id c 0 (elemBytes o.src o.n) = .ok bs →
        ∃ r, exec (.sfuMap n q) s = .next { s with hw := s.hw.finishCmd id c r } ∧ Delivers c.desc r
          ∧ r.result = packed ((List.range o.n).map fun i => (f (x i)).y)))
    ∧ ((s.hw.running id 0x61).head? = some c → (o.n * o.rows = 0 → exec (.sfuGated n q) s = .next { s with hw := s.hw.finishCmd id c {} })
      ∧ (o.n * o.rows ≠ 0 → names o.func → s.hw.source id c 0 (elemBytes o.src (2 * o.n * o.rows)) = .ok bs →
        ∃ r, exec (.sfuGated n q) s = .next { s with hw := s.hw.finishCmd id c r } ∧ Delivers c.desc r
          ∧ r.result = packed ((List.range (o.rows * o.n)).map fun i => fmul (f (x (2 * o.n * (i / o.n) + i % o.n))).y
              (sfuIn o.src 0 (elemAt o.src bs.toArray (2 * o.n * (i / o.n) + o.n + i % o.n))))))
    ∧ ((s.hw.running id 0x65).head? = some c → names (bitsOf (dword c.desc 0) 4 0) →
      let lo := fKey (dword c.desc 1)
      let inputs := (fKey (dword c.desc 2) - lo).toNat + 1
      let k := (List.range inputs).foldl (fun s i => checkStep (bitOf (dword c.desc 0) 5) (bitsOf (dword c.desc 3) 15 0) f s (keyCode (lo + i))) {}
      ∃ r, exec (.tableCheck n q) s = .next { s with hw := s.hw.finishCmd id c r } ∧ Delivers c.desc r
        ∧ r.result = leBytes 4 inputs ++ leBytes 4 k.viol ++ leBytes 4 k.seams ++ leBytes 4 k.recs.length ++ k.recs.reverse.flatten
        ∧ r.hitchCounts = [(0x468, k.seams)])

/-- SOFTMAX, STATS_MERGE and ROW_NORM (R198 to R201): once they hold the unit with its store loaded, and with their operands read, they finish with the
rows that their rules give; a command of no rows finishes with nothing. -/
def Sys2Proof.Claims.RowFunctions : Prop :=
  ∀ (s : State) (n : Fin 48) (q : Fin 8) (c : Cmd) (bs aux : List Byte), Up s →
    let id : QId := ⟨.core n, q.val⟩
    let m := queueMaster id
    let fin (r : Done) : Host.Outcome State Fault Refusal := .next { s with hw := s.hw.finishCmd id c r }
    let so := softOp c.desc
    let no := normOp c.desc
    let parts := mergeParts c.desc
    let rows := mergeRows c.desc
    ((s.hw.running id 0x62).head? = some c → (so.n = 0 ∧ so.rows = 0 → exec (.softmax n q) s = fin {})
      ∧ (¬ (so.n = 0 ∧ so.rows = 0) → sfuReady c = true → s.hw.source id c 0 (elemBytes so.src (so.rows * so.n)) = .ok bs →
        (so.mode = 2 → exRead s.hw m so.cVa (4 * so.rows) = .ok aux) → (so.mode ≠ 2 → aux = []) →
        let row (i : Nat) := softRow so.mode so.k (bnum aux (4 * i) 4)
          ((List.range so.n).map fun j => sfuIn so.src so.srcShift (elemAt so.src bs.toArray (i * so.n + j)))
        let vals := packElems so.dst (sfuOutAll so.dst so.dstShift ((List.range so.rows).flatMap fun i => (row i).ys)).1
        ∃ r, exec (.softmax n q) s = fin r ∧ Delivers c.desc r
          ∧ r.result = (if so.mode = 1 then padTo 16 vals ++ (List.range so.rows).flatMap fun i => leBytes 4 (row i).m ++ leBytes 4 (row i).s
              else vals)))
    ∧ ((s.hw.running id 0x63).head? = some c → (parts * rows = 0 → exec (.statsMerge n q) s = fin {})
      ∧ (parts * rows ≠ 0 → sfuReady c = true → s.hw.source id c 0 (8 * parts * rows) = .ok bs →
        let part (p i : Nat) : Nat × Nat :=
          (elemAt fmFP32 bs.toArray (2 * (p * rows + i)), elemAt fmFP32 bs.toArray (2 * (p * rows + i) + 1))
        let factors (i : Nat) := (mergeRow (dword c.desc 3) ((List.range parts).map fun p => part p i)).1
        ∃ r, exec (.statsMerge n q) s = fin r ∧ Delivers c.desc r
          ∧ r.result = (List.range parts).flatMap fun p => (List.range rows).flatMap fun i => leBytes 4 ((factors i).getD p 0)))
    ∧ ((s.hw.running id 0x64).head? = some c → (no.len * no.rows = 0 → exec (.rowNorm n q) s = fin {})
      ∧ (no.len * no.rows ≠ 0 → sfuReady c = true → s.hw.source id c 0 (elemBytes no.src (no.rows * no.len)) = .ok bs →
        exRead s.hw m no.gain no.gainBytes = .ok aux →
        let vec (i0 : Nat) : List Nat := (List.range no.len).map fun i => f32 (decode fmBF16 (elemAt fmBF16 aux.toArray (i0 + i)))
        let row (i : Nat) := normRow no (vec 0) (if no.bias then vec no.len else [])
          ((List.range no.len).map fun j => sfuIn no.src no.srcShift (elemAt no.src bs.toArray (i * no.len + j)))
        ∃ r, exec (.rowNorm n q) s = fin r ∧ Delivers c.desc r
          ∧ r.result = packElems no.dst (sfuOutAll no.dst no.dstShift ((List.range no.rows).flatMap row)).1))

/-- MICROPROGRAM_LOAD (R203, R204). The oldest load that a queue began reads the records it names and ends: the store holds them, each
valid as it is well formed, under their address, and every command that waited for them has its program. A read that faults kills the
queue of the command that waits. SFU_CTL.invalidate makes what the store holds stale; a command that has its program keeps it. -/
def Sys2Proof.Claims.Microprograms : Prop :=
  (∀ (s : State) (n : Fin 48) (q : Fin 8), Up s →
    let m := queueMaster ⟨.core n, q.val⟩
    ((∀ l ∈ (s.hw.sfuStore n.val).loads, l.q ≠ q) → exec (.microprogramLoad n q) s = .next s)
    ∧ ∀ l, (s.hw.sfuStore n.val).loads.find? (fun l => l.q == q) = some l →
      (∀ bs, s.hw.read m l.va (2560 * l.count) = .ok bs →
        let slots := (List.range l.count).map fun i => (bs.drop (2560 * i)).take 2560
        ∃ k : Hw, exec (.microprogramLoad n q) s = .next { s with hw := k }
          ∧ k.sfuStore n.val = { slots := slots, loaded := true, stale := false, loads := (s.hw.sfuStore n.val).loads.erase l }
          ∧ (∀ i < l.count, i < 32 → k.bit (corePage n.val) 0x44C i = recordGood (slots.getD i []))
          ∧ k.rd64 (corePage n.val) 0x450 = l.va % 2 ^ 64 ∧ k.sfuWaiters n.val l.va = []
          ∧ ∀ id, (k.qs id).cmds.map (·.desc) = (s.hw.qs id).cmds.map (·.desc))
      ∧ (∀ cause level va x rest, s.hw.read m l.va (2560 * l.count) = .error (.fault cause level va) →
        s.hw.sfuWaiters n.val l.va = x :: rest → exec (.microprogramLoad n q) s = .next { s with
          hw := (s.hw.setSfu n.val { s.hw.sfuStore n.val with loads := (s.hw.sfuStore n.val).loads.erase l }).killFault x.1 cause level va
            false x.2.desc }))
  ∧ ∀ (s : State) (r : Req) (n : Fin 48) (v : Word), Reaches s r (corePage n.val) 0x444 →
    exec (.sfuInvalidate r n v) s = .next { s with hw := s.hw.setSfu n.val { s.hw.sfuStore n.val with stale := true } }

/-! ### Selection -/

/-- What a row of SELECT holds (R212 to R219): the k best of its unmasked valid elements, or all of them when they are fewer, best first,
and no other valid element is better than one of them. -/
def Obligations.SelectionIsBest : Prop :=
  ∀ (o : SelectOp) (bs mask : Array Byte) (i : Nat),
    let key (j : Nat) : SelKey := { index := o.base + j, score := f32 (decode o.src (elemAt o.src bs (i * o.n + j))) }
    let shown (j : Nat) : Bool := !o.mask || (mask.getD (32 * o.groups * i + j / 8) 0).toNat.testBit (j % 8)
    let valid : SelKey → Prop := fun k => ∃ j < o.n, shown j = true ∧ k = key j ∧ keyValid o.asc k = true
    let e := (selectRow o bs mask i).1.entries
    (∀ k ∈ e, valid k) ∧ e.Pairwise (fun a b => better o.asc a b = true) ∧ e.length ≤ o.k
      ∧ (∀ k, valid k → k ∉ e → e.length = o.k ∧ ∀ a ∈ e, better o.asc a k = true)

/-- SELECT, SEL_ROUTE and SEL_MERGE (R216, R223 to R227) finish with the bytes of their rows' results; SEL_ROUTE also tells how many rows
chose each element, and carries to its Hitch a predicate bit for each, with no row too; a SELECT of no elements, or a SEL_MERGE of no rows,
finishes with nothing. -/
def Obligations.SelectionResults : Prop :=
  ∀ (s : State) (n : Fin 48) (q : Fin 8) (c : Cmd), Up s →
    let id : QId := ⟨.core n, q.val⟩
    let fin (r : Done) : Host.Outcome State Fault Refusal := .next { s with hw := s.hw.finishCmd id c r }
    let reads (route : Bool) (bs mask : List Byte) : Prop :=
      let o := selectOp route c.desc
      (elemBytes o.src (o.rows * o.n) ≠ 0 → s.hw.source id c 0 (elemBytes o.src (o.rows * o.n)) = .ok bs)
        ∧ (elemBytes o.src (o.rows * o.n) = 0 → bs = [])
        ∧ (o.mask = true ∧ o.rows ≠ 0 → exRead s.hw (queueMaster id) o.maskVa (o.rows * 32 * o.groups) = .ok mask) ∧ (o.mask = false ∨ o.rows = 0 → mask = [])
    let row (route : Bool) (bs mask : List Byte) (i : Nat) := (selectRow (selectOp route c.desc) bs.toArray mask.toArray i).1
    let results (route : Bool) (bs mask : List Byte) : List Byte :=
      let o := selectOp route c.desc
      (List.range o.rows).flatMap fun i => selBytes o.asc o.k (row route bs mask i)
    let chose (bs mask : List Byte) (e : Nat) : Nat :=
      ((List.range (selectOp true c.desc).rows).filter fun i => (row true bs mask i).entries.any fun k => k.index == e).length
    let ro := selectOp true c.desc
    let mo := selMergeOp c.desc
    ((s.hw.running id 0x80).head? = some c →
      ((selectOp false c.desc).rows * (selectOp false c.desc).n = 0 → exec (.select n q) s = fin {})
      ∧ (∀ bs mask, (selectOp false c.desc).rows * (selectOp false c.desc).n ≠ 0 → reads false bs mask → ∃ r, exec (.select n q) s = fin r ∧ Delivers c.desc r ∧ r.result = results false bs mask))
    ∧ ((s.hw.running id 0x82).head? = some c → (∀ bs mask, reads true bs mask → ∃ r, exec (.selRoute n q) s = fin r ∧ r.writes = dstWrites c.desc r.result
        ∧ r.result = padTo 16 (results true bs mask) ++ ((List.range ro.n).map (chose bs mask)).flatMap (leBytes 4)
        ∧ r.predMask = BitVec.ofNat 64 ((2 ^ ro.n - 1) * 2 ^ predBase c.desc)
        ∧ (∀ e < ro.n, predBase c.desc + e < 64 → r.predVal.getLsbD (predBase c.desc + e) = decide (chose bs mask e ≠ 0))))
    ∧ ((s.hw.running id 0x81).head? = some c → (mo.rows = 0 → exec (.selMerge n q) s = fin {})
      ∧ (∀ (bs : List Byte) (ps : Nat → Nat → Part), mo.rows ≠ 0 → s.hw.source id c 0 (mo.parts * mo.rows * (16 + 8 * mo.kIn)) = .ok bs →
        (∀ i < mo.rows, ∀ p < mo.parts,
          partOf mo ((bs.drop ((p * mo.rows + i) * (16 + 8 * mo.kIn))).take (16 + 8 * mo.kIn)) = some (ps i p)) →
        ∃ r, exec (.selMerge n q) s = fin r ∧ Delivers c.desc r
          ∧ r.result = (List.range mo.rows).flatMap fun i => selBytes mo.asc mo.kOut (mergeRowOf mo ((List.range mo.parts).map (ps i))).1))

/-- The special-function unit: its element functions, its row functions, and its microprograms. The contents of the built-in coefficient ROM
are open (log entry 30). -/
def Obligations.SpecialFunctionResults : Prop := SpecialFunctions ∧ RowFunctions ∧ Microprograms

/-! ### Splice and Muzzle -/

/-- VOCAB_FLIP (R232): a bank that is still referred to cannot be flipped to, which VOCv_STAT tells; a zero address empties the bank flipped
to; a header that cannot be read or is not good leaves the slot as it was and is recorded; a good one makes the other bank active under the
next generation, and is noted for measurement. -/
def Sys2Proof.Claims.VocabularyFlip : Prop :=
  ∀ (s : State) (r : Req) (d : Fin 4) (i : Fin 16) (w : Word),
    let p := 0x0C0 + 8 * d.val
    let v := i.val
    let st := s.hw.vocStat v
    let other := 1 - s.hw.vocBank v
    let next := s.hw.rd64 0x0C0 (0x080 + 0x10 * v)
    let gen := (bitsOf st 15 0 + 1) % 0x10000
    Reaches s r p (0x088 + 0x10 * v) →
    (s.hw.vocRefs v other ≠ 0 → exec (.vocabFlip r d i w) s = .next { s with
      hw := (s.hw.wr 0x0C0 (vocStatOff v) (putBit st 19 true)).raise p 8 })
    ∧ (s.hw.vocRefs v other = 0 → next = 0 → exec (.vocabFlip r d i w) s = .next { s with
      hw := { (s.hw.setVoc v ((s.hw.voc v).set other [] gen)).wr 0x0C0 (vocStatOff v) (gen + other * 0x10000) with
        measures := s.hw.measures ++ [.vocab v gen []] } })
    ∧ (∀ code, s.hw.vocRefs v other = 0 → next ≠ 0 → s.hw.headerRead d.val next 1152 = .error code →
      let h := if code = cECC then s.hw.headerTouch d.val next 1152 else s.hw
      exec (.vocabFlip r d i w) s = .next { s with
        hw := ((h.wr 0x0C0 (vocStatOff v) (putBit st 18 true)).err p (4 * v) code).raise p 8 })
    ∧ (∀ hd, s.hw.vocRefs v other = 0 → next ≠ 0 → s.hw.headerRead d.val next 1152 = .ok hd →
      let h := s.hw.headerTouch d.val next 1152
      (vocHeaderGood (bitsOf (h.rd 0x000 0x078) 31 8) hd = false → exec (.vocabFlip r d i w) s = .next { s with
        hw := ((h.wr 0x0C0 (vocStatOff v) (putBit st 18 true)).err p (4 * v) cFORMAT).raise p 8 })
      ∧ (vocHeaderGood (bitsOf (h.rd 0x000 0x078) 31 8) hd = true → ∃ k : Hw, exec (.vocabFlip r d i w) s = .next { s with hw := k }
        ∧ (k.voc v).hdr other = hd ∧ (k.voc v).gen other = gen ∧ k.vocBank v = other ∧ k.measures = h.measures ++ [.vocab v gen hd]
        ∧ k.mem = h.mem ∧ k.queues = h.queues))

/-- TOKENISE and DETOKENISE (R236 to R246). A command whose reads succeed and whose checks pass finishes with what its run gives; one of no
input that does not end its stream, only with its signal; one that begins and ends an empty stream, with an empty result and a closed stream
record. -/
def Sys2Proof.Claims.SpliceStreams : Prop :=
  ∀ (s : State) (d q : Fin 4) (detok : Bool) (c : Cmd), Up s →
    let id : QId := ⟨.stage d .spl, q.val⟩
    let o := spliceOp c.desc
    let op : Nat := if detok then 0x11 else 0x10
    let cmd : Instr := if detok then .detokenise d q else .tokenise d q
    let run (h : Hw) (c : Cmd) : Rx Done := if detok then detokeniseRun h id c else tokeniseRun h id c
    let fin (h : Hw) (c : Cmd) (r : Done) : Host.Outcome State Fault Refusal :=
      .next { s with hw := (h.finishCmd id c r).openShared id c.ptr (spliceSame c) }
    let record (b : Nat) := streamBytes { openBit := false, detok := detok, slot := o.slot, bank := b, gen := (s.hw.voc o.slot).gen b }
    let signals : List (Nat × Nat × Nat) := if dSigEn c.desc then [(o.sigCore, dSigSem c.desc, 1)] else []
    s.hw.stageHead id op = some c →
    (let h := s.hw.splicePin id c detok
     let c' := ((h.qs id).cmds.find? fun x => x.ptr = c.ptr).getD c
     ∀ r, rxRun (run h c') = .ok r → exec cmd s = fin h c' r)
    ∧ ((s.hw.qs id).cmds.find? (fun x => x.ptr = c.ptr) = some c →
      (o.n = 0 → o.final = false → exec cmd s = fin s.hw c { signals := signals })
      ∧ (∀ b rest a e, o.n = 0 → o.final = true → o.fresh = true → o.special = false → c.pins = (o.slot, b) :: rest →
        addrForm (dSrc c.desc) = .va a → addrForm (dDst c.desc) = .va e → 16 ≤ dDstLen c.desc →
        exec cmd s = fin s.hw c {
          result := spliceHeader 0 false false false true 0 0
          writes := [(e, spliceHeader 0 false false false true 0 0), (o.va, record b)]
          hitchCounts := if detok then [(0x044, 0), (0x050, 0), (0x058, 0)] else [(0x044, 0), (0x048, 0), (0x04C, 0), (0x054, 0)]
          work := .splice o.va o.slot b true true [], signals := signals }))

/-- Vocabularies and streams. The choices of log entry 32 stand behind the runs of the two commands. -/
def Obligations.SpliceCommands : Prop := VocabularyFlip ∧ SpliceStreams

/-- MUZ_STEP and MUZ_COMMIT (R264 to R269). A step whose run gives a mask writes it before it commits, finishes, and sends its mask-ready
signal; a mask write that cannot be made leaves the command unfinished; a queue without a grammar rejects the step. Its commit, once its
step is confirmed if it is speculative and ring and credits allow, makes the writes of the record, raises source 8 where it missed, and ends.
STAGE_COMMIT_STEP on a Muzzle is the same commit. -/
def Obligations.MuzzleCommands : Prop :=
  ∀ (s : State) (d q : Fin 4) (c : Cmd), Up s →
    let id : QId := ⟨.stage d .muz, q.val⟩
    (s.hw.stageHead id 0x10 = some c →
      (∀ out r t, muzRun s.hw id c [] = .ok ((out, r), t) →
        (∀ h, Hw.stageWrites id c [(dDst c.desc, out)] s.hw = (h, []) → exec (.muzStep d q) s = .next { s with
          hw := ((h.finishCmd id c { r with touched := t.reverse }).muzReady id c).muzClash id c (muzOp c.desc).va })
        ∧ (∀ h w rest, Hw.stageWrites id c [(dDst c.desc, out)] s.hw = (h, w :: rest) → exec (.muzStep d q) s = .next { s with hw := h })
        ∧ r.result = out ∧ r.writes.head? = some ((muzOp c.desc).va, (r.writes.headD (0, [])).2)
        ∧ r.code ∈ [0, cDEAD_END, cSTACK_OVERFLOW]
        ∧ r.signals = if dSigEn c.desc then [((muzOp c.desc).core, dSigSem c.desc, 1)] else [])
      ∧ ((s.hw.qs id).grammar = [] → exec (.muzStep d q) s = .next { s with hw := s.hw.reject id c.ptr cCONTEXT c.desc }))
    ∧ (∀ va x n missed, s.hw.stageCommitHead id = some c → c.work = .muz va x n missed →
      (s.hw.waitsConfirm id c = true → exec (.muzCommit d q) s = .next s)
      ∧ (s.hw.waitsConfirm id c = false → c.todo = none →
        (s.hw.ringGate id c = false → exec (.muzCommit d q) s = .next s)
        ∧ (s.hw.ringGate id c = true → s.hw.creditGate id c = false →
          exec (.muzCommit d q) s = .next { s with hw := s.hw.noteWait id })
        ∧ (s.hw.ringGate id c = true → s.hw.creditGate id c = true → ∀ k, Hw.stageWrites id c c.writes s.hw = (k, []) →
          let g := if missed then k.raise (engPage id.eng) 8 else k
          exec (.muzCommit d q) s = .next { s with hw :=
            (g.commitEnd id (((g.qs id).cmds.find? fun x => x.ptr = c.ptr).getD c) c.signals).runDeferred id })))
    ∧ (s.hw.stageCommitHead id = some c → 0x10 ≤ dOpcode c.desc → exec (.stageCommitStep d .muz q) s = exec (.muzCommit d q) s)

/-! ### Embedding tables -/

/-- TABLE_FLIP (R274, R275): a bank that is still referred to cannot be flipped to; a zero address empties it; a descriptor that cannot be
read, fails the check, or names a resident range that cannot be captured leaves the slot as it was and is recorded; a good one makes the
other bank active, LOADED, under the next generation. -/
def Sys2Proof.Claims.TableFlips : Prop :=
  ∀ (s : State) (r : Req) (d : Fin 4) (i : Fin 64) (w : Word),
    let p := 0x0C2 + 8 * d.val
    let t := i.val
    let st := s.hw.tblStat t
    let other := 1 - s.hw.tblBank t
    let next := s.hw.rd64 0x0C2 (tblOff t 0x00)
    let gen := (s.hw.tblGen t + 1) % 0x10000
    let bad (h : Hw) (code : Nat) : Host.Outcome State Fault Refusal :=
      .next { s with hw := ((h.wr 0x0C2 (tblOff t 0x0C) (putBit st 19 true)).err p (4 * t) code).raise p 8 }
    Reaches s r p (tblOff t 0x08) →
    (s.hw.tblRefs t other ≠ 0 → exec (.tableFlip r d i w) s = .next { s with
      hw := (s.hw.wr 0x0C2 (tblOff t 0x0C) (putBit st 18 true)).raise p 8 })
    ∧ (s.hw.tblRefs t other = 0 → next = 0 → exec (.tableFlip r d i w) s = .next { s with
      hw := (s.hw.setTbl t ((s.hw.tbl t).set other [] [])).wr 0x0C2 (tblOff t 0x0C) (gen + other * 0x10000) })
    ∧ (∀ code, s.hw.tblRefs t other = 0 → next ≠ 0 → s.hw.headerRead d.val next 128 = .error code →
      exec (.tableFlip r d i w) s = bad (if code = cECC then s.hw.headerTouch d.val next 128 else s.hw) code)
    ∧ (∀ desc, s.hw.tblRefs t other = 0 → next ≠ 0 → s.hw.headerRead d.val next 128 = .ok desc →
      let h := s.hw.headerTouch d.val next 128
      (tblDescGood (h.rd 0x000 0x094) desc = false → exec (.tableFlip r d i w) s = .next { s with
        hw := ((h.wr 0x0C2 (tblOff t 0x0C) (putBit st 19 true)).err p (4 * t) cFORMAT).raise p 8 })
      ∧ (∀ code, tblDescGood (h.rd 0x000 0x094) desc = true → tResident desc = true → h.capture d.val (tRanges desc) = .error code →
        exec (.tableFlip r d i w) s = bad h code)
      ∧ (tblDescGood (h.rd 0x000 0x094) desc = true → tResident desc = false → ∃ k : Hw, exec (.tableFlip r d i w) s = .next { s with hw := k }
        ∧ (k.tbl t).desc other = desc ∧ (k.tbl t).bases other = [] ∧ k.tblGen t = gen ∧ k.tblBank t = other ∧ k.tblLoaded t = true
        ∧ k.mem = h.mem ∧ k.queues = h.queues)
      ∧ (∀ bases, tblDescGood (h.rd 0x000 0x094) desc = true → tResident desc = true → h.capture d.val (tRanges desc) = .ok bases →
        ∃ k : Hw, exec (.tableFlip r d i w) s = .next { s with hw := k }
          ∧ (k.tbl t).desc other = desc ∧ (k.tbl t).bases other = bases ∧ k.tblGen t = gen ∧ k.tblLoaded t = true))

/-- FREE_RING_WRITE (R285): a displaced slot that no bound command can reach, while the ring has room, goes into the entry at FREE_TAIL,
which advances; where its page is absent or moving the unit is held, and a held unit, or no such slot, leaves everything as it was. -/
def Sys2Proof.Claims.FreeRing : Prop :=
  ∀ (s : State) (t : Fin 64), Up s →
    (s.hw.freeDue t.val none = none → exec (.freeRingWrite t) s = .next s)
    ∧ (∀ f, s.hw.freeDue t.val none = some f →
      let m := queueMaster ⟨stageEng f.quad .emb, 4⟩
      let tail := s.hw.rd 0x0C2 (tblOff t.val 0x18)
      let o := 8 * (tail % 2 ^ f.log)
      let bs := leBytes 8 (f.slot + f.pool * 2 ^ 30)
      (s.hw.isHeld m = true → exec (.freeRingWrite t) s = .next s)
      ∧ (s.hw.isHeld m = false → f.key.isSome = true ∨ (∃ b, s.hw.place m (f.va + o) bs = .ok b) →
        let h := s.hw.tblWrite m (f.va + o) (f.key.map (· + o)) bs
        exec (.freeRingWrite t) s = .next { s with hw := { h.wr 0x0C2 (tblOff t.val 0x18) (tail + 1) with frees := h.frees.erase f } })
      ∧ (∀ cause level va, s.hw.isHeld m = false → f.key = none → s.hw.place m (f.va + o) bs = .error (.fault cause level va) →
        exec (.freeRingWrite t) s = .next { s with hw := s.hw.postFault m cause level va true 0 true }))

/-- The generation and the directory (R284, R286). PUBLISH's commit step advances C by one modulo 2^16, after the entries of the free ring
that are due by then. An entry of ROW_PUT gives a row its slot at C + 1; the copy of an older generation becomes the previous one; the slot
that falls out is displaced. -/
def Sys2Proof.Claims.Generations : Prop :=
  (∀ (s : State) (d q : Fin 4) (c : Cmd) (w : EmbWork), Up s →
    let id : QId := ⟨.stage d .emb, q.val⟩
    s.hw.stageCommitHead id = some c → c.todo = none → c.work = .emb w → dOpcode c.desc = 0x14 → w.done = true →
    s.hw.waitsConfirm id c = false →
    (s.hw.ringGate id c = false → exec (.stageCommitStep d .emb q) s = .next s)
    ∧ (s.hw.ringGate id c = true → s.hw.creditGate id c = false →
      exec (.stageCommitStep d .emb q) s = .next { s with hw := s.hw.noteWait id })
    ∧ (s.hw.ringGate id c = true → s.hw.creditGate id c = true →
      let fresh (c : Cmd) : Cmd := { c with writes := [], todo := some [], work := .emb { w with frees := [], moved := [] } }
      let h := s.hw.updCmd id c.ptr fresh
      let k := Hw.freePuts id (fresh c) w.table (some w.serial) (h.frees.filter fun f => f.table = w.table).length h
      let g := (k.tblGen w.table + 1) % 0x10000
      let e := (k.setTblGen w.table g).noteChange (.generation w.table g)
      exec (.stageCommitStep d .emb q) s = .next { s with
        hw := (e.commitEnd id (((e.qs id).cmds.find? fun x => x.ptr = c.ptr).getD (fresh c)) c.signals).runDeferred id }))
  ∧ ∀ (e : DirEnt) (c slot pool : Nat) (del : Bool),
    ∃ e' disp, putRow e c false del slot pool = some (e', disp)
      ∧ e'.gen = (c + 1) % 0x10000 ∧ e'.valid = !del ∧ e'.moving = e.moving
      ∧ (del = false → e'.slot = slot ∧ e'.pool = pool)
      ∧ (e.gen ≠ (c + 1) % 0x10000 → e'.pSlot = e.slot ∧ e'.pPool = e.pool ∧ e'.pGen = e.gen ∧ e'.hasPrev = e.valid
        ∧ disp = if e.hasPrev then [(e.pSlot, e.pPool)] else [])
      ∧ (e.gen = (c + 1) % 0x10000 → e'.pSlot = e.pSlot ∧ e'.hasPrev = e.hasPrev ∧ disp = if e.valid then [(e.slot, e.pool)] else [])

/-- EMB_GATHER (R290 to R295): a command whose batches are all served writes its rows, in list order, and then the header that counts the
default rows and tells of stale ones; then it finishes and its semaphore is signalled; where a write stops it, it stays unfinished. An empty
list finishes with its signal only. Before that, it reads its list and sends a batch to each owner. -/
def Sys2Proof.Claims.Gathers : Prop :=
  ∀ (s : State) (d q : Fin 4) (c : Cmd) (w : EmbWork), Up s →
    let id : QId := ⟨.stage d .emb, q.val⟩
    let m := queueMaster id
    let o := embOp c.desc
    let r := s.hw.tblRef m w.table w.bank
    s.hw.stageHead id 0x10 = some c → c.work = .emb w →
    (w.sent = true → w.batches = [] → w.list = [] → exec (.embGather d q) s = .next { s with hw := s.hw.finishCmd id c {
      work := .emb w, signals := if dSigEn c.desc then [(o.sigCore, dSigSem c.desc, 1)] else [] } })
    ∧ (∀ xs t, w.sent = true → w.batches = [] → w.list ≠ [] →
      gatherRows r w.rows (listParts r.inside (listRow c.desc) w.list [] 0) w.list [] = .ok (xs, t) →
      let dflt := (xs.filter (·.dflt)).length
      let stale := (xs.filter (·.stale)).length
      let rows := xs.flatMap fun x => outRow r.d o.outFmt x.data
      let head := gatherHeader xs.length dflt w.pin.isSome (decide (0 < stale)) w.gen
      let w' := { w with outLen := 16 + rows.length }
      (∀ h, Hw.stageWrites id c [(dDst c.desc + 16, rows), (dDst c.desc, head)] s.hw = (h, []) →
        exec (.embGather d q) s = .next { s with hw := ((h.setWork id c.ptr (.emb w')).finishCmd id c {
          result := head ++ rows, counts := [(0x044, dflt), (0x060, stale)], touched := t
          work := .emb { w' with done := true } }).gatherSignal id c })
      ∧ ∀ h x rest, Hw.stageWrites id c [(dDst c.desc + 16, rows), (dDst c.desc, head)] s.hw = (h, x :: rest) →
        exec (.embGather d q) s = .next { s with hw := h.setWork id c.ptr (.emb w') })
    ∧ (∀ l t, w.sent = false → embList s.hw id c [] = .ok (l, t) →
      let bs := embBatches r c.desc l
      bs ≠ [] → (∀ b ∈ bs, b.module ≠ s.hw.moduleNo ∨ b.quad ≠ d.val) → c ∈ (s.hw.qs id).cmds →
      ∃ k : Hw, exec (.embGather d q) s = .next { s with hw := k }
        ∧ (∀ x ∈ (k.qs id).cmds, x.ptr = c.ptr → x.work = .emb { w with list := l, sent := true, order := s.hw.embSeq, batches := bs })
        ∧ k.embSeq = s.hw.embSeq + 1 ∧ k.mem = (t.foldl (fun h e => h.touch m e.1 e.2) s.hw).mem)

/-- EMB_UPDATE (R288), once its batches are served: the gradient rows and hyperparameters read, each distinct row takes the step, and the
header counts rows updated, gradients not finite, repeats summed and entries skipped. The rows of other modules step there. Where an 8-bit
state has a partial block the new bytes are open. Nothing is written before its commit step. -/
def Sys2Proof.Claims.Updates : Prop :=
  ∀ (s : State) (d q : Fin 4) (c : Cmd) (w : EmbWork), Up s →
    let id : QId := ⟨.stage d .emb, q.val⟩
    let m := queueMaster id
    let o := embOp c.desc
    let r := s.hw.tblRef m w.table w.bank
    s.hw.stageHead id 0x11 = some c → c.work = .emb w → w.sent = true → w.batches = [] →
    (w.list = [] → exec (.embUpdate d q) s = .next { s with hw := s.hw.finishCmd id c {
      work := .emb w, signals := if dSigEn c.desc then [(o.sigCore, dSigSem c.desc, 1)] else [] } })
    ∧ (∀ gs y spans t, w.list ≠ [] →
      (do let gs ← embGrads s.hw id c w
          let y ← rxRead s.hw m o.hyperVa 32
          let sp ← updateSpans r o w.rows
          pure (gs, y, sp)) [] = .ok ((gs, y, spans), t) →
      let repeats (x : EmbRow) : Nat := (w.list.filter (· = x.row)).length - 1
      let out := (w.rows.filter (·.ok)).map fun x =>
        (x, embUpdateRow r.d o c (w.seeds.getD (r.ownerQuad x.row) 0) (hyperOf y) gs.toArray w.list (w.list.idxOf x.row) x)
      let new := (out.filter fun e => r.ownerModule e.1.row = s.hw.moduleNo).map (·.2.1)
      let nonFin := (out.filter fun e => e.2.2).length
      ∃ (k : Hw) (x : Done),
        exec (.embUpdate d q) s = .next { s with
          hw := ((k.finishCmd id c x).openClashes id c.ptr).openShared id c.ptr (embSame w.table (new.map (·.row))) }
        ∧ k = { s.hw with regs := k.regs }
        ∧ x.result = leBytes 4 (out.filter fun e => !(e.2.2 && o.skip)).length ++ leBytes 4 (0x100 + min nonFin 0xFFFF * 0x10000)
            ++ leBytes 4 ((w.rows.map repeats).sum)
            ++ leBytes 4 (w.list.filter fun i => !(w.rows.any fun y => y.row = i ∧ y.ok = true)).length
        ∧ (o.opt ≠ 2 ∨ tLen r.d % 32 = 0 → x.work = .emb { w with rows := new, done := true })
        ∧ x.writes = [] ∧ x.code = 0 ∧ x.spans = spans ∧ x.touched = t
        ∧ x.signals = if dSigEn c.desc then [(o.sigCore, dSigSem c.desc, 1)] else [])

/-- ROW_PUT, ROW_MOVE and PUBLISH (R284 to R287) finish once their batches are served, ROW_MOVE only as its queue's oldest; what they do to
the table is their commit step's. A row that an EMB_UPDATE finds moving at its commit step kills the command, which is counted and recorded
(R289). -/
def Sys2Proof.Claims.RowCommands : Prop :=
  ∀ (s : State) (d q : Fin 4) (c : Cmd) (w : EmbWork), Up s →
    let id : QId := ⟨.stage d .emb, q.val⟩
    let done (op : Nat) : Host.Outcome State Fault Refusal := .next { s with hw := s.hw.finishCmd id c {
      signals := if dSigEn c.desc then [((embOp c.desc).sigCore, dSigSem c.desc, 1)] else []
      work := .emb { w with done := !w.list.isEmpty || op == 0x14 } } }
    (c.work = .emb w → w.sent = true → w.batches = [] →
      (s.hw.stageHead id 0x12 = some c → exec (.rowPut d q) s = done 0x12)
      ∧ (s.hw.stageHead id 0x13 = some c → (s.hw.qs id).cmds.head? = some c → exec (.rowMove d q) s = done 0x13)
      ∧ (s.hw.stageHead id 0x13 = some c → (∀ c', (s.hw.qs id).cmds.head? = some c' → c'.ptr ≠ c.ptr) → exec (.rowMove d q) s = .next s)
      ∧ (s.hw.stageHead id 0x14 = some c → exec (.publish d q) s = done 0x14))
    ∧ (∀ row, s.hw.stageCommitHead id = some c → c.work = .emb w → c.todo = none → w.done = true → dOpcode c.desc = 0x11 →
      s.hw.waitsConfirm id c = false → s.hw.ringGate id c = true → s.hw.creditGate id c = true →
      planUpdate (s.hw.tblRef (queueMaster id) w.table w.bank) (embOp c.desc) w.rows [] = .error (.moving row) →
      let h := ((s.hw.kill id .fault).count (engPage id.eng) 0x050).err (engPage id.eng) q.val cMOVING_ROW
      exec (.stageCommitStep d .emb q) s = .next { s with hw := h.setQs id { h.qs id with moveHold := some (w.table, row) } })

/-- EXCHANGE_BATCH (R290): the batch a unit sent first to the named owner is served there, or leaves by the Leash port to its module; a
module that cannot be reached holds it, counted once. A gather's batch from another module is bound to the active bank, served, and its rows
go back by its port; while it waits it stays. -/
def Sys2Proof.Claims.Exchanges : Prop :=
  ∀ (s : State) (d q quad : Fin 4) (module : Fin 8), Up s →
    let id : QId := ⟨.stage d .emb, q.val⟩
    let go : Host.Outcome State Fault Refusal := exec (.exchangeBatch d (.queue q module quad)) s
    (s.hw.embSender id module.val quad.val = none → go = .next s)
    ∧ (∀ c w b, s.hw.embSender id module.val quad.val = some (c, w, b) →
      let served (h : Hw) (w' : EmbWork) (t : List (Nat × Nat)) : Host.Outcome State Fault Refusal := .next { s with
        hw := (t.foldl (fun h e => h.touch (queueMaster id) e.1 e.2) h).setWork id c.ptr (.emb w') }
      (∀ h w' t, b.module = s.hw.moduleNo → embServe id b s.hw c w = .ok (h, w', t) → go = served h w' t)
      ∧ (∀ p h w' t, b.module ≠ s.hw.moduleNo → s.hw.route b.module = some p → embFar id b p s.hw c w = .ok (h, w', t) → go = served h w' t)
      ∧ (b.module ≠ s.hw.moduleNo → s.hw.route b.module = none → go = .next { s with
        hw := if b.waited then s.hw else (s.hw.count (engPage id.eng) 0x064).setWork id c.ptr
          (.emb { w with batches := w.batches.map fun x => if x = b then { x with waited := true } else x }) }))
    ∧ ∀ (p : Fin 4) (b : FarBatch),
      let f : FarServe := { port := p.val, quad := d.val, table := b.table.val, bank := s.hw.tblBank b.table.val, serial := s.hw.tblSerial
                            pin := if b.snapshot then some (s.hw.tblGen b.table.val) else none, rows := b.rows.map (·.toNat) }
      let g := { s.hw with exch := s.hw.exch ++ [f], tblSerial := s.hw.tblSerial + 1 }
      let m := queueMaster ⟨stageEng d.val .emb, 4⟩
      let rows := gatherBatch (g.tblRef m f.table f.bank) f.pin (g.tblGen f.table) f.rows []
      ((s.hw.port p.val).up = false → exec (.exchangeBatch d (.leash p b)) s = .next s)
      ∧ ((s.hw.port p.val).up = true → rows = .error (.rd .wait) → exec (.exchangeBatch d (.leash p b)) s = .next { s with hw := g })
      ∧ (∀ xs t, (s.hw.port p.val).up = true → rows = .ok (xs, t) →
        let k := t.foldl (fun h e => h.touch m e.1 e.2) { g with exch := g.exch.erase f }
        exec (.exchangeBatch d (.leash p b)) s = .next { s with
          hw := (k.leashQueue p.val 2 ((xs.map fun x => x.data.length).sum)).send
            (.leash p.val (.rows (xs.map fun x => (x.dflt, x.stale, x.data)))) })

/-- Embedding table slots, free rings and generations. -/
def Obligations.EmbeddingTables : Prop := TableFlips ∧ FreeRing ∧ Generations

/-- The embedding commands. What a remote module holds is open (log entry 22). -/
def Obligations.EmbeddingCommands : Prop := Gathers ∧ Updates ∧ RowCommands ∧ Exchanges

/-! ### Retriever -/

/-- INDEX_FLIP (R300, R301): a bank that is still referred to cannot be flipped to; a zero address empties it; a descriptor that cannot be
read or fails the check leaves the slot as it was and is recorded; a good one makes the other bank active, LOADED, under the next
generation, with the descriptor's epoch, and no cache keeps the codebooks of what stood there. -/
def Sys2Proof.Claims.IndexFlips : Prop :=
  ∀ (s : State) (r : Req) (d : Fin 4) (i : Fin 16) (w : Word),
    let p := 0x0C1 + 8 * d.val
    let n := i.val
    let st := s.hw.idxStat n
    let other := 1 - s.hw.idxBank n
    let next := s.hw.rd64 0x0C1 (idxOff n 0x00)
    let gen := (bitsOf st 15 0 + 1) % 0x10000
    Reaches s r p (idxOff n 0x08) →
    (s.hw.idxRefs n other ≠ 0 → exec (.indexFlip r d i w) s = .next { s with
      hw := (s.hw.wr 0x0C1 (idxOff n 0x0C) (putBit st 18 true)).raise p 8 })
    ∧ (s.hw.idxRefs n other = 0 → next = 0 → ∃ k : Hw, exec (.indexFlip r d i w) s = .next { s with hw := k }
      ∧ (k.idx n).desc other = [] ∧ k.idxBank n = other ∧ k.idxLoaded n = false ∧ bitsOf (k.idxStat n) 15 0 = gen ∧ k.mem = s.hw.mem)
    ∧ (∀ code, s.hw.idxRefs n other = 0 → next ≠ 0 → s.hw.headerRead d.val next 128 = .error code →
      let h := if code = cECC then s.hw.headerTouch d.val next 128 else s.hw
      exec (.indexFlip r d i w) s = .next { s with
        hw := ((h.wr 0x0C1 (idxOff n 0x0C) (putBit st 19 true)).err p (4 * n) code).raise p 8 })
    ∧ (∀ desc, s.hw.idxRefs n other = 0 → next ≠ 0 → s.hw.headerRead d.val next 128 = .ok desc →
      let h := s.hw.headerTouch d.val next 128
      (idxDescGood (h.rd 0x000 0x080) desc = false → exec (.indexFlip r d i w) s = .next { s with
        hw := ((h.wr 0x0C1 (idxOff n 0x0C) (putBit st 19 true)).err p (4 * n) cFORMAT).raise p 8 })
      ∧ (idxDescGood (h.rd 0x000 0x080) desc = true → ∃ k : Hw, exec (.indexFlip r d i w) s = .next { s with hw := k }
        ∧ (k.idx n).desc other = desc ∧ k.idxBank n = other ∧ k.idxLoaded n = true ∧ bitsOf (k.idxStat n) 15 0 = gen
        ∧ k.epoch n = bnum desc 0x34 4 % 0x100000000 ∧ k.mem = h.mem ∧ (∀ e, k.idxPinned n e = 0)
        ∧ ∀ x ∈ k.cbTag, ¬ (x.2.slot = n ∧ x.2.bank = other)))

/-- RTV_SEARCH and LIST_READ (R306 to R316, R326). A search that has sent nothing reads its parameters, queries and probe lists and sends
its probes; one whose probes have all been served delivers the results its queries give, with a trailer each. A list read takes the
snapshots of the probes that are due, all on one list, counts once those that begin, and serves all that have begun, with the codebooks the
unit holds or loads; none is due in an idle unit. -/
def Sys2Proof.Claims.Searches : Prop :=
  (∀ (s : State) (d q : Fin 4), Up s →
    let id : QId := ⟨.stage d .rtv, q.val⟩
    (∀ c w, (s.hw.qs id).st ≠ .faultHold → s.hw.rtvNext id = none → s.hw.stageHead id 0x10 = some c → c.work = .rtv w → w.sent = true →
      (∀ p ∈ s.hw.probes, ¬ (p.queue = id ∧ p.ptr = c.ptr)) →
      let o := rtvOp c.desc
      ∀ xs t, rtvResults s.hw (queueMaster id) ((s.hw.idx w.slot).desc w.bank) o w w.queries [] = .ok (xs, t) →
        let res := xs.flatMap (·.1)
        exec (.rtvSearch d q) s = .next { s with hw := s.hw.finishCmd id c {
          result := res, writes := dstWrites c.desc res, touched := t, work := .rtv w
          counts := [(0x058, (xs.map (·.2.1)).sum), (0x060, (xs.map (·.2.2.1)).sum), (0x05C, (xs.filter (·.2.2.2)).length)]
          signals := if dSigEn c.desc then [(o.sigCore, dSigSem c.desc, 1)] else [] } })
    ∧ (∀ c w par qs probes t, (s.hw.qs id).st ≠ .faultHold → s.hw.rtvNext id = some (c, w) → s.hw.stageHead id 0x10 = some c →
      xGraph ((s.hw.idx w.slot).desc w.bank) = false → rtvRead s.hw id c w [] = .ok ((par, qs, probes), t) → probes ≠ [] →
      let h := t.foldl (fun h e => h.touch (queueMaster id) e.1 e.2) s.hw
      exec (.rtvSearch d q) s = .next { s with
        hw := { h.setWork id c.ptr (.rtv { w with par := par, sent := true, queries := qs }) with probes := h.probes ++ probes } })
    ∧ (∀ c w c' w', (s.hw.qs id).st ≠ .faultHold → s.hw.rtvNext id = some (c, w) →
      let k := s.hw.rtvBegin id c w
      k.stageHead id 0x10 = some c' → c'.work = .rtv w' → w'.sent = true → (∀ p ∈ k.probes, ¬ (p.queue = id ∧ p.ptr = c'.ptr)) →
        exec (.rtvSearch d q) s = .next { s with hw := k.rtvFinish id c' w' })
    ∧ ((s.hw.qs id).st = .faultHold → exec (.rtvSearch d q) s = .next s))
  ∧ ∀ (s : State) (d : Fin 4), Up s →
    (s.hw.batchDue d.val = [] → exec (.listRead d) s = .next s)
    ∧ (∀ p rest, s.hw.batchDue d.val = p :: rest →
      let page := 0x0C1 + 8 * d.val
      let mine (h : Hw) : List Probe := h.probes.filter fun x => x.snap.isSome && (h.qs x.queue).st != .faultHold
        && (p :: rest).any fun y => decide ({ x with snap := none } = { y with snap := none })
      let h := (p :: rest).foldl Hw.probeBegin s.hw
      let new := (mine h).length - (mine s.hw).length
      let one := if new = 0 then h else h.count page 0x050
      let g := if new < 2 then one else one.count page 0x054 new
      (∀ x ∈ rest, x.list = p.list ∧ x.slot = p.slot ∧ x.bank = p.bank ∧ x.owner = d.val) ∧ rest.length < 64
      ∧ (mine g = [] → exec (.listRead d) s = .next { s with hw := g })
      ∧ ∀ x l, mine g = x :: l →
        (∀ k, g.codebooks d.val x = (k, none) → exec (.listRead d) s = .next { s with hw := k })
        ∧ (∀ k bs, g.codebooks d.val x = (k, some bs) →
          exec (.listRead d) s = .next { s with hw := (mine k).foldl (fun h p => h.serveProbe d.val bs.toArray p) k })
        ∧ (∀ bs, alGet d.val g.cbTag = some ⟨x.slot, x.bank, bs⟩ → g.codebooks d.val x = (g, some bs)))

/-- The lists of a search (R311, R312): what an owner keeps is at most `search_k` candidates with valid keys, and stays in order; the merge
has no id twice, at most `search_k` entries, and only what the owners found. -/
def Obligations.CandidateLists : Prop :=
  (∀ (asc : Bool) (k : Nat) (l : List RtvCand) (x : RtvCand),
    l.length ≤ k → (∀ y ∈ l, keyValid asc ⟨y.id, y.score⟩ = true) →
    let l' := candKeep asc k l x
    l'.length ≤ k ∧ (∀ y ∈ l', keyValid asc ⟨y.id, y.score⟩ = true) ∧ (∀ y ∈ l', y = x ∨ y ∈ l)
      ∧ (l.Pairwise (fun a b => better asc ⟨b.id, b.score⟩ ⟨a.id, a.score⟩ = false) →
        l'.Pairwise (fun a b => better asc ⟨b.id, b.score⟩ ⟨a.id, a.score⟩ = false)))
  ∧ ∀ (asc : Bool) (k : Nat) (q : RtvQuery),
    let out := (candMerge asc k q).1
    out.length ≤ k ∧ (out.map (·.id)).Nodup ∧ ∀ x ∈ out, ∃ d < 4, x ∈ (alGet d q.cands).getD []

/-- RTV_INSERT, RTV_DELETE, RTV_NODE_PUT and RTV_EPOCH (R317 to R321) finish with their items read. RTV_COMPACT (R322), as its queue's
oldest, finishes with the list's surviving entries at the new place, its directory entry and the header to be written. -/
def Sys2Proof.Claims.Mutations : Prop :=
  ∀ (s : State) (d q : Fin 4) (c : Cmd) (w : RtvWork), Up s →
    let id : QId := ⟨.stage d .rtv, q.val⟩
    let o := rtvOp c.desc
    let t := (s.hw.idx w.slot).desc w.bank
    c.work = .rtv w →
    (let fin (op : Nat) (bs : List Byte) : Host.Outcome State Fault Refusal := .next { s with hw := s.hw.finishCmd id c {
      touched := srcTouch c.desc (if op = 0x15 then 0 else o.n * rtvItem t op), work := .rtv { w with par := bs, sent := true }
      signals := if dSigEn c.desc then [(o.sigCore, dSigSem c.desc, 1)] else [] } }
    (∀ op cmd, (op, cmd) ∈ [(0x11, Instr.rtvInsert d q), (0x12, Instr.rtvDelete d q), (0x13, Instr.rtvNodePut d q)] →
      s.hw.stageHead id op = some c →
      (o.n * rtvItem t op = 0 → exec cmd s = fin op [])
      ∧ (∀ bs, o.n * rtvItem t op ≠ 0 → s.hw.source id c 0 (o.n * rtvItem t op) = .ok bs → exec cmd s = fin op bs))
    ∧ (s.hw.stageHead id 0x15 = some c → exec (.rtvEpoch d q) s = fin 0x15 []))
    ∧ (s.hw.stageHead id 0x14 = some c →
      ((∀ c', (s.hw.qs id).cmds.head? = some c' → c'.ptr ≠ c.ptr) → exec (.rtvCompact d q) s = .next s)
      ∧ (∀ dir es t1 t2, (s.hw.qs id).cmds.head? = some c → o.n < xCount t →
        rxRead s.hw (queueMaster id) (xDir t + 16 * o.n) 16 [] = .ok (dir, t1) →
        let tail := bnum dir 8 4
        rxRead s.hw (queueMaster id) (bitsOf (bnum dir 0 8) 51 0) (tail * xEntryBytes t) t1 = .ok (es, t2) →
        let e := s.hw.epoch w.slot
        let kept := ((List.range tail).map fun i => (es.drop (i * xEntryBytes t)).take (xEntryBytes t)).filter fun b =>
          !(bitOf (bnum b 12 4) 0 && epochLe (bnum b 8 4) e)
        let stamp (b : List Byte) : List Byte := if epochLe (bnum b 4 4) e then b.take 4 ++ leBytes 4 e ++ b.drop 8 else b
        let head := rtvHeader kept.length (tail - kept.length) 0 ((e + 1) % 0x100000000)
        kept.length ≤ o.cap → ∃ r, exec (.rtvCompact d q) s = .next { s with hw := s.hw.finishCmd id c r } ∧ r.result = head
          ∧ r.writes = (if kept = [] then [] else [(o.va, (kept.map stamp).flatten)])
            ++ [(xDir t + 16 * o.n, leBytes 8 o.va ++ leBytes 4 kept.length ++ leBytes 4 o.cap), (dDst c.desc, head)]
          ∧ r.work = .rtv { w with sent := true, holds := some o.n } ∧ r.code = 0))

/-- The commit steps of mutations (R317, R319, R320). A new entry takes the list's next place with insert epoch E + 1 and not deleted, and
the list's count grows by one; a full list takes none. A deleted entry gets E + 1 as its delete epoch. An item whose list a compaction holds
waits. RTV_EPOCH advances E. A compaction's record waits for the probes that snapshotted the old region. -/
def Sys2Proof.Claims.MutationCommits : Prop :=
  (∀ (m : Master) (t : List Byte) (e : Nat) (r : RtvRun) (x dir : List Byte), bnum x 0 4 < xCount t →
    let at_ := xDir t + 16 * bnum x 0 4
    let tail := bnum dir 8 4
    let img := x.drop 32
    let new := img.take 4 ++ leBytes 4 ((e + 1) % 0x100000000) ++ leBytes 4 0 ++ leBytes 4 (putBit (bnum img 12 4) 0 false) ++ img.drop 16
    let r0 := { r with touched := (at_, 16) :: r.touched }
    (r.h.listHeld r.slot [bnum x 0 4] = true → insertItem m t e r x = .error (.wait, false))
    ∧ (r.h.listHeld r.slot [bnum x 0 4] = false → r.h.read m at_ 16 = .ok dir →
      (∀ r1 r2, tail ≠ bnum dir 12 4 → bnum img 0 4 ≠ 0xFFFFFFFF →
        r0.put m (bitsOf (bnum dir 0 8) 51 0 + tail * xEntryBytes t) new = .ok r1 → r1.put m (at_ + 8) (leBytes 4 (tail + 1)) = .ok r2 →
        insertItem m t e r x = .ok { r2 with applied := r.applied + 1 }
        ∧ r2.writes = r.writes ++ [(bitsOf (bnum dir 0 8) 51 0 + tail * xEntryBytes t, new), (at_ + 8, leBytes 4 (tail + 1))])
      ∧ (tail = bnum dir 12 4 → insertItem m t e r x = .ok { r0 with full := r.full + 1, skipped := r.skipped + 1 })
      ∧ (∀ b r1, xGraph t = false → bnum x 4 4 < tail →
        let va := bitsOf (bnum dir 0 8) 51 0 + bnum x 4 4 * xEntryBytes t
        let mark := leBytes 4 ((e + 1) % 0x100000000) ++ leBytes 4 (putBit (bnum b 12 4) 0 true)
        r.h.read m va 16 = .ok b → bitOf (bnum b 12 4) 0 = false → bnum b 0 4 = bnum x 8 4 →
        ({ r0 with touched := (va, 16) :: r0.touched }).put m (va + 8) mark = .ok r1 →
        deleteItem m t e r x = .ok { r1 with applied := r.applied + 1 } ∧ r1.writes = r.writes ++ [(va + 8, mark)])))
  ∧ ∀ (s : State) (d q : Fin 4) (c : Cmd) (w : RtvWork), Up s →
    let id : QId := ⟨.stage d .rtv, q.val⟩
    let o := rtvOp c.desc
    let op := dOpcode c.desc
    let t := (s.hw.idx w.slot).desc w.bank
    s.hw.stageCommitHead id = some c → c.todo = none → c.work = .rtv w →
    let ends (k : Hw) (c : Cmd) : Host.Outcome State Fault Refusal := .next { s with
      hw := (k.commitEnd id (((k.qs id).cmds.find? fun x => x.ptr = c.ptr).getD c) c.signals).runDeferred id }
    (0x10 ≤ op → s.hw.ringGate id c = false → exec (.stageCommitStep d .rtv q) s = .next s)
    ∧ (s.hw.ringGate id c = true → s.hw.creditGate id c = true →
      (∀ k, op = 0x15 → Hw.stageWrites id c c.writes s.hw = (k, []) →
        exec (.stageCommitStep d .rtv q) s = ends (k.wr 0x0C1 (idxOff w.slot 0x10) (k.epoch w.slot + 1)) c)
      ∧ (∀ k, op = 0x10 ∨ (op = 0x14 ∧ s.hw.oldProbes w o.n o.va = false) → Hw.stageWrites id c c.writes s.hw = (k, []) →
        exec (.stageCommitStep d .rtv q) s = ends k c)
      ∧ (∀ k, op = 0x14 → s.hw.oldProbes w o.n o.va = true → Hw.stageWrites id c c.writes s.hw = (k, []) → c.writes ≠ [] →
        exec (.stageCommitStep d .rtv q) s = .next { s with hw := k.updCmd id c.ptr fun c => { c with todo := some [] } })
      ∧ (∀ f r, (op, f) ∈ [(0x11, insertItem), (0x12, deleteItem), (0x13, nodeItem)] → o.n ≠ 0 →
        rtvApply (f (queueMaster id) t (s.hw.epoch w.slot)) (cutItems (rtvItem t op) o.n w.par) { h := s.hw, slot := w.slot } = (r, [], none) →
        let g := r.touched.foldl (fun h e => h.touch (queueMaster id) e.1 e.2) r.h
        let g := (g.count (engPage id.eng) 0x070 r.full).count (engPage id.eng) 0x074 r.bad
        let w' := { w with items := [], applied := w.applied + r.applied, skips := w.skips + r.skipped, fulls := w.fulls + r.full }
        let head := (dDst c.desc, rtvHeader w'.applied w'.skips w'.fulls ((s.hw.epoch w.slot + 1) % 0x100000000))
        let upd (c : Cmd) : Cmd := { c with work := .rtv w', writes := r.writes ++ [head], todo := some [head] }
        ∀ k, Hw.stageWrites id (upd c) [head] (g.updCmd id c.ptr upd) = (k, []) → exec (.stageCommitStep d .rtv q) s = ends k (upd c)))

/-- Index slots and searches. -/
def Obligations.RetrieverSearches : Prop := IndexFlips ∧ Searches

/-- Mutations of an index and their commit steps. -/
def Obligations.RetrieverMutations : Prop := Mutations ∧ MutationCommits

/-! ### Packer -/

/-- PCK_PAIRS (R338), once what it reads is read, finishes with `count` rows of exactly pair_len entries each and a header; PCK_PROMPT
(R340) begins with the template's head and the query. A batch count taken (R341) has its record acted on, as far as its reads allow; a chunk
that is complete is written and signalled (R343), and the command finishes when every count is taken and every chunk signalled. A prompt that
ends otherwise has its remaining chunks padded and signalled. -/
def Obligations.PackerCommands : Prop :=
  ∀ (s : State) (d q : Fin 4) (c : Cmd), Up s →
    let id : QId := ⟨.stage d .pck, q.val⟩
    let m := queueMaster id
    let o := pckOp c.desc
    let signals : List (Nat × Nat × Nat) := if dSigEn c.desc then [(o.sigCore, dSigSem c.desc, 1)] else []
    (s.hw.stageHead id 0x10 = some c →
      (o.nq = 0 → o.b = 0 → exec (.pckPairs d q) s = .next { s with hw := s.hw.finishCmd id c { signals := signals } })
      ∧ (∀ par tmpl cand qs t rows cut none_ miss t', ¬ (o.nq = 0 ∧ o.b = 0) → pckRead s.hw id c [] = .ok ((par, tmpl, cand, qs), t) →
        pairRows s.hw m o par tmpl cand qs o.b 0 t = .ok ((rows, cut, none_, miss), t') →
        let head := leBytes 4 o.b ++ leBytes 4 cut ++ leBytes 4 none_ ++ leBytes 4 0x100
        let bs := rows.flatMap (leBytes 8)
        ∃ r, exec (.pckPairs d q) s = .next { s with hw := s.hw.finishCmd id c r } ∧ r.result = head ++ bs
          ∧ r.writes = (if bs = [] then [] else [(dDst c.desc + 16, bs)]) ++ [(dDst c.desc, head)]
          ∧ r.counts = [(0x048, miss), (0x050, cut)] ∧ r.signals = signals ∧ r.code = 0 ∧ rows.length = o.b * pkLen par))
    ∧ (∀ par tmpl cand qs t, s.hw.stageHead id 0x11 = some c → c.work = .none → pckRead s.hw id c [] = .ok ((par, tmpl, cand, qs), t) →
      let es := tokenRun 0 0 (pkPos par) (tmHeadT tmpl) ++ tokenRun 1 0 (pkPos par + tmHead tmpl) qs
      let h := t.foldl (fun h e => h.touch m e.1 e.2) s.hw
      exec (.pckPrompt d q) s = .next { s with
        hw := h.setWork id c.ptr (.pck { par := par, tmpl := tmpl, cand := cand, entries := es, total := pckChunks o par,
                                         left := pkLen par - pkReserve par - es.length - tmTail tmpl }) })
    ∧ (s.hw.pckStream id = none → exec (.batchRecordTake d q) s = .next s ∧ exec (.chunkSignal d q) s = .next s)
    ∧ (∀ w, s.hw.pckStream id = some (c, w) →
      (w.ending.isSome = true ∨ o.a ≤ w.batch ∨ (w.taken = false ∧ s.hw.sem o.batchCore o.batchSem = 0) →
        exec (.batchRecordTake d q) s = .next s)
      ∧ (w.ending = none → w.batch < o.a → w.taken = true ∨ s.hw.sem o.batchCore o.batchSem ≠ 0 →
        let g := if w.taken then s.hw else
          (s.hw.semTake o.batchCore o.batchSem).updCmd id c.ptr fun c => { c with takes := c.takes ++ [(o.batchCore, o.batchSem)] }
        ∀ w' t stop, pckRecord g m o { w with taken := true } = (w', t, stop) →
        let h := t.foldl (fun h e => h.touch m e.1 e.2) g
        let k := (h.pckCount id w w').setWork id c.ptr (.pck w')
        (∀ e, stop = some e → exec (.batchRecordTake d q) s = .next { s with hw := k.pckFail id c w' e })
        ∧ (stop = none → exec (.batchRecordTake d q) s = .next { s with hw := k.pckFinish id c w' }
          ∧ (w'.batch ≠ o.a ∨ w'.chunks ≠ w'.total → exec (.batchRecordTake d q) s = .next { s with hw := k })))
      ∧ (w.ending.isSome = true → exec (.chunkSignal d q) s = .next { s with hw := Hw.pckDrain id c.ptr (w.total + 1) s.hw })
      ∧ (w.ending = none → w.total ≤ w.chunks ∨ w.entries.length < (w.chunks + 1) * o.chunk → exec (.chunkSignal d q) s = .next s)
      ∧ (w.ending = none → w.chunks < w.total → (w.chunks + 1) * o.chunk ≤ w.entries.length →
        let es := (w.entries.drop (w.chunks * o.chunk)).take o.chunk
        let put := Hw.stageWrites id c [(dDst c.desc + 32 + 8 * o.chunk * w.chunks, es.flatMap (leBytes 8))] s.hw
        let w' := { w with chunks := w.chunks + 1 }
        (∀ k x rest, put = (k, x :: rest) → exec (.chunkSignal d q) s = .next { s with hw := k })
        ∧ ∀ k, put = (k, []) →
          let full := k.semFull o.outCore o.outSem 1
          let g := (k.semAdd o.outCore o.outSem 1).updCmd id c.ptr fun c => { c with
            work := .pck w', code := if full ∧ c.code = 0 then cSEM_OVERFLOW else c.code }
          (w.batch ≠ o.a ∨ w.chunks + 1 ≠ w.total → exec (.chunkSignal d q) s = .next { s with hw := g })
          ∧ (w.batch = o.a → w.chunks + 1 = w.total → ∃ r, exec (.chunkSignal d q) s = .next { s with hw := g.finishCmd id c r }
            ∧ r.result = pckHeader w' ∧ r.writes.getLast? = some (dDst c.desc, pckHeader w') ∧ r.signals = signals)))

/-! ### Serving -/

/-- MBOX and SLOT_RESUME (R359, R360, R371): a write that fails the tests, or to an unbound slot, is counted and raised; one for a slot with a
switch pending is held and its speculation rejected; any other is acted on: it ends the conversation, confirms the step launched for its
token, rejects one launched for another and launches the chosen, or launches it. SLOT_RESUME acts on a held write under the current adapter
version once the slot's confirmed steps have committed, and does nothing before, or where none is held. -/
def Sys2Proof.Claims.Mailbox : Prop :=
  (∀ (s : State) (r : Req) (d : Fin 4) (slot : Fin 256) (v : Word),
    let ms := 256 * d.val + slot.val
    let p := srvPage d.val
    let h := s.hw.demand.worked
    Reaches s r p (0x800 + 4 * slot.val) →
    (h.slot ms = none → exec (.mbox r d slot v) s = .next { s with hw := (h.count p 0x0AC).raise p 9 })
    ∧ (∀ x, h.slot ms = some x →
      (h.mboxGood ms x v.toNat = false → exec (.mbox r d slot v) s = .next { s with hw := (h.count p 0x0AC).raise p 9 })
      ∧ (h.mboxGood ms x v.toNat = true → x.switch = true → exec (.mbox r d slot v) s = .next { s with
          hw := (h.setSlot ms { x with heldW := some v.toNat }).rejectSpec ms })
      ∧ (h.mboxGood ms x v.toNat = true → x.switch = false → exec (.mbox r d slot v) s = .next { s with
          hw := h.actChoice ms (bitsOf v.toNat 17 0) (bitOf v.toNat 18) })))
  ∧ (∀ (s : State) (r : Req) (d : Fin 4) (v : Word) (x : SrvSlot), Reaches s r (srvPage d.val) 0x088 →
    let ms := 256 * d.val + s.hw.rd (srvPage d.val) 0x078
    s.hw.slot ms = some x →
    (x.heldW = none ∨ s.hw.drained ms = false → exec (.slotResume r d v) s = .next s)
    ∧ (∀ y, x.heldW = some y → s.hw.drained ms = true →
      let cv := s.hw.conv d.val x.conv
      let a := (s.hw.adapter cv.handle).release cv.version
      let h := (s.hw.putAdapter cv.handle a.hold).putConv d.val x.conv { cv with version := a.cur }
      let h := ((h.setSlot ms { x with switch := false, heldW := none }).sendChanges d.val).noteSlot ms
      exec (.slotResume r d v) s = .next { s with hw := h.actChoice ms (bitsOf y 17 0) (bitOf y 18) }))
  ∧ ∀ (h : Hw) (ms token : Nat) (x : SrvSlot), h.slot ms = some x →
    let k := h.setSlot ms { x with acc := x.acc + 1 }
    let kept := (h.srvUnit (ms / 256)).subs.length
    (∀ last, let g := h.choose ms token last
      h.actChoice ms token last = if kept < (g.srvUnit (ms / 256)).subs.length then g.count (srvPage (ms / 256)) 0x0B0 else g)
    ∧ h.choose ms token true = ((k.rejectSpec ms).detok ms x.acc token true).haltSlot ms evENDED 0
    ∧ (∀ l, x.launched.find? (·.step = x.acc + 1) = some l → l.token = token →
      h.choose ms token false = (k.confirmStep ms (x.acc + 1)).detok ms x.acc token false)
    ∧ (∀ l, x.launched.find? (·.step = x.acc + 1) = some l → l.token ≠ token →
      let g := (k.count (srvPage (ms / 256)) 0x0A4).rejectStep (pGroup x.params) ((x.acc + 1) % 4)
      let g := g.rewriteMuz ms x l (g.muzDesc ms x (x.acc + 1) (some token) none)
      let g := (x.launched.filter (·.step ≠ x.acc + 1)).foldl (fun h l => h.rewriteMuz ms x l (h.muzNop ms x)) g
      let g := g.setSlot ms { x with acc := x.acc + 1, launched := [] }
      h.choose ms token false = ((g.confirmStep ms (x.acc + 1)).handToken ms x token none).detok ms x.acc token false)
    ∧ (x.launched.find? (·.step = x.acc + 1) = none →
      h.choose ms token false = (k.launchChosen ms (x.acc + 1) token).detok ms x.acc token false)

/-- GROUP_CONFIRM and GROUP_REJECT (R351): both bits, or a bound group, is discarded and counted; otherwise the step of GRP_SEL's group is
confirmed or rejected and counted, and group 0 has nothing to confirm. -/
def Sys2Proof.Claims.GroupControl : Prop :=
  ∀ (s : State) (r : Req) (d : Fin 4) (v : Word),
    let p := srvPage d.val
    let g := s.hw.rd p 0x08C
    let step := bitsOf v.toNat 3 2
    let h := s.hw.wr p 0x098 (v.toNat &&& 0xC)
    let refused : Host.Outcome State Fault Refusal := .next { s with hw := s.hw.badAccess (pageOff p 0x098) }
    Reaches s r p 0x098 →
    ((s.hw.group g).slot.isSome = true ∨ bitOf v.toNat 1 = true → exec (.groupConfirm r d v) s = refused)
    ∧ ((s.hw.group g).slot.isSome = true ∨ bitOf v.toNat 0 = true → exec (.groupReject r d v) s = refused)
    ∧ ((s.hw.group g).slot.isSome = false →
      (g = 0 → (bitOf v.toNat 1 = false → exec (.groupConfirm r d v) s = .next { s with hw := h })
        ∧ (bitOf v.toNat 0 = false → exec (.groupReject r d v) s = .next { s with hw := h }))
      ∧ (g ≠ 0 → bitOf v.toNat 1 = false → exec (.groupConfirm r d v) s = .next { s with hw := (h.confirm g step).count p 0x0A0 })
      ∧ (g ≠ 0 → bitOf v.toNat 0 = false → exec (.groupReject r d v) s = .next { s with hw := (h.rejectStep g step).count p 0x0A4 }))

/-- PROVISIONAL_CANDIDATE and CANDIDATE_RECORD_RELEASE (R354, R355, R358, R362). A candidate command that has finished is reported once,
and its best token launches the next step when the depth allows. A record is written, its first word last, once its step has committed. -/
def Sys2Proof.Claims.Candidates : Prop :=
  ∀ (s : State) (d : Fin 4) (slot : Fin 256), Up s →
    let ms := 256 * d.val + slot.val
    let m := srvMaster d.val
    (s.hw.slot ms = none → exec (.provisionalCandidate d slot) s = .next s ∧ exec (.candidateRecordRelease d slot) s = .next s)
    ∧ (∀ x, s.hw.slot ms = some x →
      (s.hw.enabled (srvPage d.val) = false ∨ s.hw.candidate x = none → exec (.provisionalCandidate d slot) s = .next s)
      ∧ (∀ n id c, s.hw.enabled (srvPage d.val) = true → s.hw.candidate x = some (n, id, c) →
        let h := s.hw.draw.updCmd id c.ptr fun c => { c with reported := true }
        let go : Bool := decide (1 ≤ bnum c.result 0 2 ∧ n + 1 ≤ x.c + pDepth x.params ∧ (h.conv d.val x.conv).state = cvACTIVE
          ∧ x.switch = false ∧ x.launched.all (·.step ≠ n + 1) = true)
        exec (.provisionalCandidate d slot) s = .next { s with hw := if go then h.launchSpec ms (n + 1) (bnum c.result 16 4) else h })
      ∧ (x.done ≤ x.rel ∨ x.stopped = true ∨ s.hw.isHeld m = true
          ∨ (s.hw.pair.outbound.any fun o => o.group = pGroup x.params ∧ o.step = x.rel % 4) = true →
        exec (.candidateRecordRelease d slot) s = .next s)
      ∧ (∀ res tr t k, x.rel < x.done → x.stopped = false → s.hw.isHeld m = false →
        (∀ o ∈ s.hw.pair.outbound, ¬ (o.group = pGroup x.params ∧ o.step = x.rel % 4)) →
        candSources s.hw d.val x [] = .ok ((res, tr), t) →
        let bs := candRecord s.hw ms x res tr
        let va := pVa x.params 4 + 128 * (x.rel % 4)
        let put := Hw.srvWrites d.val [(va + 4, bs.drop 4), (va, bs.take 4)] (s.hw.seeBudget (s.hw.slotTenant ms x))
        (put = (k, false) → exec (.candidateRecordRelease d slot) s = .next { s with hw := k })
        ∧ (put = (k, true) →
        let h := t.reverse.foldl (fun h e => h.touch m e.1 e.2) k
        let h := (h.setSlot ms { x with rel := x.rel + 1 }).noteSlot ms
        let h := if pIrq x.params then h.raise (srvPage d.val) 10 else h
        let active : Bool := decide ((h.conv d.val x.conv).state = cvACTIVE)
        (active = false ∨ (bitOf (bnum tr 12 4) 3 = false ∧ bnum res 0 2 ≠ 0) →
          exec (.candidateRecordRelease d slot) s = .next { s with hw := h })
        ∧ (active = true → bitOf (bnum tr 12 4) 3 = true →
          exec (.candidateRecordRelease d slot) s = .next { s with hw := h.haltSlot ms evHALTED cSTACK_OVERFLOW })
        ∧ (active = true → bitOf (bnum tr 12 4) 3 = false → bnum res 0 2 = 0 →
          exec (.candidateRecordRelease d slot) s = .next { s with hw := h.haltSlot ms evHALTED cDEAD_END }))))

/-- HOLD_SCAN, TTL_SCAN and EVENT_WRITE (R365, R368, R376): a scan that is not due changes nothing and one that is due goes through its
unit; the oldest waiting event goes to the ring once it has room. -/
def Sys2Proof.Claims.ScansAndEvents : Prop :=
  ∀ (s : State) (d : Fin 4), Up s →
    let p := srvPage d.val
    let u := s.hw.srvUnit d.val
    let hold := bitsOf (s.hw.rd p 0x044) 31 16 * 0x100000
    let ttl := bitsOf (s.hw.rd p 0x044) 15 0 * 0x100000
    let busy := (List.range 4).any fun q => (s.hw.qs ⟨.stage d .srv, q⟩).cmds.any (·.finished)
    (s.hw.enabled p = false ∨ hold = 0 ∨ s.hw.time < u.lastHold + hold ∨ s.hw.isHeld (srvMaster d.val) = true → exec (.holdScan d) s = .next s)
    ∧ (s.hw.enabled p = true → hold ≠ 0 → u.lastHold + hold ≤ s.hw.time → s.hw.isHeld (srvMaster d.val) = false →
      exec (.holdScan d) s = .next { s with hw := (s.hw.setSrvUnit d.val { u with lastHold := s.hw.time }).holdScan d.val })
    ∧ (s.hw.enabled p = false ∨ ttl = 0 ∨ s.hw.time < u.lastTtl + ttl ∨ busy = true → exec (.ttlScan d) s = .next s)
    ∧ (s.hw.enabled p = true → ttl ≠ 0 → u.lastTtl + ttl ≤ s.hw.time → busy = false → ∃ k : Hw,
      exec (.ttlScan d) s = .next { s with hw := k } ∧ (k.srvUnit d.val).lastTtl = s.hw.time ∧ k.queues = s.hw.queues
        ∧ (k.srvUnit d.val).slots = u.slots)
    ∧ (u.events = [] → exec (.eventWrite d) s = .next s)
    ∧ (∀ bs rest, u.events = bs :: rest →
      (s.hw.evtRoom d.val = false → exec (.eventWrite d) s = .next s)
      ∧ (s.hw.evtRoom d.val = true → ∃ k : Hw, exec (.eventWrite d) s = .next { s with hw := k }
        ∧ (k.srvUnit d.val).events = rest ∧ k.rd p 0x064 = (s.hw.rd p 0x064 + 1) % 0x100000000
        ∧ k.mem = (s.hw.storeTier (s.hw.tierBase p 0x054 4 + 16 * (s.hw.rd p 0x064 % 2 ^ s.hw.rd p 0x05C)) bs).mem))

/-- The SRV commands (R366, R370, R373, R374), when no other executed serving command stands before them: what each is rejected for,
and that it finishes otherwise; a PARK or END of a bound conversation first rejects its speculation and waits until its confirmed steps have
committed. Their commit step does what the command does to the tables; an admission is held where the budget is not positive by then. -/
def Obligations.ServingCommands : Prop :=
  ∀ (s : State) (d q : Fin 4) (c : Cmd), Up s →
    let id : QId := ⟨.stage d .srv, q.val⟩
    let n := sConv c.desc
    let cv := s.hw.conv d.val n
    let ms := 256 * d.val + sSlot c.desc
    let rejects (cmd : Instr) (h : Hw) (code : Nat) : Prop := exec cmd s = .next { s with hw := h.reject id c.ptr code c.desc }
    let finishes (cmd : Instr) (h : Hw) (p : List Byte) (t : List (Nat × Nat)) : Prop :=
      exec cmd s = .next { s with hw := h.finishCmd id c (srvDone c p t) }
    s.hw.srvBusy id = false → s.hw.isHeld (srvMaster d.val) = false →
    (∀ p t, s.hw.stageHead id 0x10 = some c → rxRead s.hw (queueMaster id) (sLong c.desc) 128 [] = .ok (p, t) →
      let good := s.hw.ownsConv n = true ∧ s.hw.ownsSlot ms = true ∧ s.hw.ownsGroup (pGroup p) = true ∧ srvParGood p = true
      let late := cv.state = cvEXPIRED ∨ (cv.state = cvPARKED ∧ cv.deadline ≤ s.hw.time)
      (¬ good → rejects (.srvAdmit d q) s.hw cFORMAT)
      ∧ (good → sFresh c.desc = false → cv.state = cvEXPIRED → rejects (.srvAdmit d q) s.hw cTTL_EXPIRED)
      ∧ (good → sFresh c.desc = false → cv.state = cvPARKED → cv.deadline ≤ s.hw.time → rejects (.srvAdmit d q)
          (((s.hw.putConv d.val n { cv with state := cvEXPIRED }).count (srvPage d.val) 0x0B8).sendChanges d.val) cTTL_EXPIRED)
      ∧ (good → (sFresh c.desc = true ∨ ¬ late) →
        cv.state ≠ (if sFresh c.desc then cvFREE else cvPARKED) ∨ (s.hw.slot ms).isSome = true ∨ (s.hw.group (pGroup p)).slot.isSome = true →
        rejects (.srvAdmit d q) s.hw cFORMAT)
      ∧ (good → (sFresh c.desc = true ∨ ¬ late) → cv.state = (if sFresh c.desc then cvFREE else cvPARKED) → s.hw.slot ms = none →
        (s.hw.group (pGroup p)).slot = none → finishes (.srvAdmit d q) s.hw p t.reverse))
    ∧ (∀ op cmd, (op, cmd) ∈ [(0x11, Instr.srvPark d q), (0x12, Instr.srvEnd d q)] → s.hw.stageHead id op = some c →
      let ok : Prop := s.hw.ownsConv n = true ∧ (if op = 0x11 then cv.state = cvACTIVE ∨ cv.state = cvHALTED ∨ cv.state = cvPARKED
        else cv.state ≠ cvFREE)
      (¬ ok → rejects cmd s.hw cFORMAT)
      ∧ (ok → s.hw.convSlot d.val n = none → finishes cmd s.hw [] [])
      ∧ (∀ b, ok → s.hw.convSlot d.val n = some b →
        let k := s.hw.rejectSpec b
        (k.drained b = true → finishes cmd k [] []) ∧ (k.drained b = false → exec cmd s = .next { s with hw := k })))
    ∧ (s.hw.stageHead id 0x13 = some c →
      let missing : Bool := sFlag c.desc && !(s.hw.adapter (sHandle c.desc)).valid
      (missing = true → rejects (.srvAdapter d q) s.hw cFORMAT) ∧ (missing = false → finishes (.srvAdapter d q) s.hw [] []))
    ∧ (s.hw.stageHead id 0x14 = some c →
      (signedOf 32 (dword c.desc 2) ≤ 0 → rejects (.srvBudget d q) s.hw cFORMAT)
      ∧ (0 < signedOf 32 (dword c.desc 2) → finishes (.srvBudget d q) s.hw [] []))
    ∧ (s.hw.stageCommitHead id = some c → 0x10 ≤ dOpcode c.desc → c.todo = none →
      let taken (c' : Cmd) : Cmd := if dOpcode c.desc = 0x10 then
        { c' with code := if (s.hw.budget (dTenant c.desc)).balance ≤ 0 then cBUDGET_HELD else 0 } else c'
      let h := if dOpcode c.desc = 0x10 then s.hw.updCmd id c.ptr taken else s.hw
      h.ringGate id (taken c) = true → h.creditGate id (taken c) = true →
      (dOpcode c.desc = 0x11 ∨ dOpcode c.desc = 0x12 → s.hw.convSlot d.val n = none) →
      (dOpcode c.desc = 0x13 → (s.hw.adapter (sHandle c.desc)).prevRefs = 0) →
      ∀ k, Hw.stageWrites id (taken c) c.writes h = (k, []) →
        let g := srvCommitEff id (taken c) k
        exec (.stageCommitStep d .srv q) s = .next { s with
          hw := (g.commitEnd id (((g.qs id).cmds.find? fun x => x.ptr = c.ptr).getD (taken c)) c.signals).runDeferred id })

/-- The token mailbox, groups, candidates, scans and events. The choices of log entry 39 stand behind the serving block. -/
def Obligations.ServingBlock : Prop := Mailbox ∧ GroupControl ∧ Candidates ∧ ScansAndEvents

/-! ### Twin pairing and the Leash -/

/-- The mirror (R20, R382 to R384). A packet from a watched twin over a link that is up goes into the log; one without its commit record is
held back, one too large breaks the mirror; a complete one is applied in order. An acknowledgement takes the oldest packet of its port, gives
its room back, counts, and lifts the wait of the oldest record that waits for it. -/
def Sys2Proof.Claims.MirrorPackets : Prop :=
  (∀ (s : State) (p : Fin 2) (pkt : MirrorPacket), Up s →
    let good := s.hw.pairOn = true ∧ s.hw.watching = true ∧ (s.hw.port p.val).up = true
    (¬ good → exec (.mirrorPacketReceive p pkt) s = .next s)
    ∧ (good → s.hw.logBytes < pkt.size → exec (.mirrorPacketReceive p pkt) s = .next { s with
        hw := (s.hw.setPair fun x => { x with mirrorBroken := true }).raise 0x012 6 })
    ∧ (good → pkt.size ≤ s.hw.logBytes →
      let h := s.hw.logPacket pkt
      let rest := h.pair.partials.filter fun e => e.1 ≠ p.val
      (pkt.complete = false → exec (.mirrorPacketReceive p pkt) s = .next { s with
        hw := h.setPair fun x => { x with partials := rest ++ [(p.val, pkt)] } })
      ∧ (pkt.complete = true → exec (.mirrorPacketReceive p pkt) s = .next { s with
        hw := (h.setPair fun x => { x with partials := rest, inbound := x.inbound ++ [(p.val, pkt)] }).runInbound })))
  ∧ ∀ (s : State) (p : Fin 2), Up s →
    let oldest := s.hw.pair.outbound.find? fun o => o.port = p.val
    (oldest = none → exec (.mirrorAck p) s = .next s)
    ∧ (∀ o, oldest = some o →
      let h := (s.hw.setPair fun x => { x with outbound := x.outbound.erase o, logRoom := x.logRoom + o.pkt.size }).count 0x012 0x13C
      (o.queue = none → exec (.mirrorAck p) s = .next { s with hw := h })
      ∧ (∀ id, o.queue = some id → exec (.mirrorAck p) s = .next { s with hw := h.releaseOwed id liftAck }))

/-- Heartbeats and loss (R388 to R391). A heartbeat goes out on every twin port each period. One that says the twin has taken over fences a
PAIRED module. A silence of the set length over a live link, a link down for the set grace, a notice, or the runtime declares the twin lost,
which is noted with its cause and the time; what the twin had finished is then applied. -/
def Sys2Proof.Claims.LossOfTheTwin : Prop :=
  (∀ (s : State), Up s →
    let c := s.hw.rd 0x012 0x108
    let period := 1000 * bitsOf c 7 0
    let st := s.hw.pair.state
    let due := s.hw.pairOn = true ∧ st ≠ psUNPAIRED ∧ st ≠ psFENCED ∧ s.hw.pair.lastSent + period ≤ s.hw.time
    (due → exec .heartbeatSend s = .next { s with
      hw := (s.hw.sendOn s.hw.twinPorts (.heartbeat st)).setPair fun x => { x with lastSent := s.hw.time } })
    ∧ (¬ due → exec .heartbeatSend s = .next s)
    ∧ ((s.hw.port 0).trained = true ∨ (s.hw.port 1).trained = true → s.hw.pair.lastHb + period * bitsOf c 11 8 ≤ s.hw.time →
        exec .heartbeatTimeout s = .next { s with hw := s.hw.declare 1 })
    ∧ (((s.hw.port 0).trained = false ∧ (s.hw.port 1).trained = false) ∨ s.hw.time < s.hw.pair.lastHb + period * bitsOf c 11 8 →
        exec .heartbeatTimeout s = .next s)
    ∧ (∀ t, s.hw.pair.downSince = some t → t + 1000 * bitsOf c 31 16 ≤ s.hw.time →
        exec .linkDownGrace s = .next { s with hw := s.hw.declare 2 })
    ∧ (∀ t, s.hw.pair.downSince = some t → s.hw.time < t + 1000 * bitsOf c 31 16 → exec .linkDownGrace s = .next s)
    ∧ (s.hw.pair.downSince = none → exec .linkDownGrace s = .next s)
    ∧ (st = psLOST → exec .twinLost s = .next { s with hw := s.hw.settleLoss.startAdopt })
    ∧ (st ≠ psLOST → exec .twinLost s = .next s))
  ∧ (∀ (s : State) (p : Fin 2) (x : Fin 8), Up s →
    let h := s.hw.setPair fun x => { x with lastHb := s.hw.time }
    let took := x.val = psLOST ∨ x.val = psADOPTING ∨ x.val = psFULL
    ((s.hw.port p.val).up = true → exec (.withdrawNotice p) s = .next { s with hw := s.hw.declare 3 })
    ∧ (s.hw.pairOn = false ∨ (s.hw.port p.val).up = false → exec (.heartbeatReceive p x) s = .next s)
    ∧ (s.hw.pairOn = true → (s.hw.port p.val).up = true → s.hw.pair.state = psPAIRED →
      (took → exec (.heartbeatReceive p x) s = .next { s with hw := h.fence })
      ∧ (¬ took → exec (.heartbeatReceive p x) s = .next { s with hw := h }))
    ∧ (s.hw.pairOn = true → (s.hw.port p.val).up = true → s.hw.pair.state = psUNPAIRED ∨ s.hw.pair.state = psFENCED →
      s.hw.pair.twinReady = true → x.val = psRESYNC → ∃ k : Hw, exec (.heartbeatReceive p x) s = .next { s with hw := k }
        ∧ k.pair.state = psJOINING ∧ k.pair.lastHb = s.hw.time ∧ k.pair.outbound = []))
  ∧ ∀ (h : Hw) (cause : Nat),
    (h.pairOn = false ∨ h.watching = false → h.declare cause = h)
    ∧ (h.pairOn = true → h.pair.state = psPAIRED ∨ h.pair.state = psJOINING →
      let k := h.declare cause
      k.pair.state = psLOST ∧ k.pair.cause = cause ∧ k.pair.toCopy = [] ∧ (k.pair.adoptRefused = true ↔
        h.pair.adoptRefused = true ∨ h.pair.state = psJOINING)
      ∧ k.rd64 0x012 0x130 = h.time % 2 ^ 64 ∧ k.mem = h.mem ∧ k.queues = h.queues)

/-- Adoption and resynchronisation (R391, R394 to R396). The end of an adoption leaves the module FULL and the owner of everything;
the end of a resynchronisation leaves the joining module PAIRED, with source 5 raised, and its source PAIRED with what it owns. -/
def Sys2Proof.Claims.AdoptionAndResync : Prop :=
  ∀ (s : State), Up s →
    let st := s.hw.pair.state
    (st ≠ psADOPTING → exec .adoptionDone s = .next s)
    ∧ (st = psADOPTING → ∃ k : Hw, exec .adoptionDone s = .next { s with hw := k } ∧ k.pair.state = psFULL ∧ k.pair.fullOwner = true)
    ∧ (st = psJOINING → exec .resyncDone s = .next { s with hw := s.hw.enterPaired.raise 0x012 5 })
    ∧ (st = psRESYNC → s.hw.pair.toCopy = [] → s.hw.pair.listLeft = 0 → ∃ k : Hw, exec .resyncDone s = .next { s with hw := k } ∧ k.pair.state = psPAIRED
        ∧ k.pair.mirrorBroken = false ∧ k.pair.fullOwner = s.hw.pair.fullOwner)
    ∧ (st ≠ psJOINING → ¬ (st = psRESYNC ∧ s.hw.pair.toCopy = [] ∧ s.hw.pair.listLeft = 0) → exec .resyncDone s = .next s)

/-- PAIR_CTL (R379, R388 to R396, R405). While the pair is enabled a change of role, pair or n_pairs is discarded and counted. A write that
leaves `enable` as it is stores its fields; with one of its action bits it then withdraws, declares the twin lost, adopts, resynchronises or
hands back. A change of `enable` returns the module to UNPAIRED, and setting it sends hellos. -/
def Sys2Proof.Claims.PairControl : Prop :=
  (∀ (s : State) (r : Req) (v : Word), Reaches s r 0x012 0x100 →
    let old := s.hw.pairCtl
    let fields := bitsOf v.toNat 5 1 = bitsOf old 5 1
    let h := s.hw.wr 0x012 0x100 (v.toNat &&& 0xBF)
    (bitOf old 0 = true → ¬ fields → ∀ cmd, cmd ∈ [Instr.withdraw r v, .declareLost r v, .adopt (some r) v, .pairEnable r v, .resync r v,
        .handback r v] → exec cmd s = .next { s with hw := s.hw.badAccess (pageOff 0x012 0x100) })
    ∧ (bitOf old 0 = false ∨ fields → bitsOf v.toNat 12 8 = 0 → bitOf v.toNat 0 = bitOf old 0 →
      exec (.pairEnable r v) s = .next { s with hw := h }
      ∧ exec (.withdraw r v) s = .next { s with hw := if h.pairOn then h.withdraw else h }
      ∧ exec (.declareLost r v) s = .next { s with hw := h.declare 4 }
      ∧ exec (.adopt (some r) v) s = .next { s with
          hw := (if h.pair.state = psLOST then h.setPair fun x => { x with adoptAsked := true } else h).startAdopt }
      ∧ exec (.resync r v) s = .next { s with hw := h.startResync }
      ∧ exec (.handback r v) s = .next { s with hw := h.handback })
    ∧ (bitOf old 0 = false → bitOf v.toNat 0 = true →
      exec (.pairEnable r v) s = .next { s with hw := h.pairReset.sendOn h.twinPorts .hello })
    ∧ (bitOf old 0 = true → fields → bitOf v.toNat 0 = false → exec (.pairEnable r v) s = .next { s with hw := h.pairReset }))
  ∧ (∀ (s : State) (v : Word), Up s → exec (.adopt none v) s = .next { s with hw := s.hw.startAdopt })
  ∧ ∀ (h : Hw),
    (h.pair.state = psUNPAIRED ∨ h.pair.state = psFULL ∨ h.pair.state = psFENCED → h.withdraw = h)
    ∧ (h.pair.state = psPAIRED → h.withdraw.pair.state = psFENCED ∧ h.withdraw.pair.fullOwner = false)
    ∧ (h.pair.state = psPAIRED → h.pair.fullOwner = true → h.twinIdle = true → h.handback.pair.fullOwner = false)
    ∧ (h.pair.state = psPAIRED → h.pair.fullOwner = true → h.twinIdle = false →
      h.handback.pair.fullOwner = true ∧ h.handback.pair.handbackRefused = true)
    ∧ (h.pair.state = psLOST → h.pair.settled = true → h.pair.adoptRefused = false → h.pair.adoptAsked = true →
      h.startAdopt.pair.state = psADOPTING)
    ∧ (h.pair.state = psFULL → h.pair.twinReady = true →
      h.startResync.pair.state = psRESYNC ∧ h.startResync.pair.listLeft = h.rd 0x012 0x12C)
    ∧ (h.pair.state ≠ psFULL ∨ h.pair.twinReady = false → h.startResync = h)

/-- The pair of modules. The joining rules that the spec leaves to be read are in log entry 42, the layout of packets in log entry 20. -/
def Obligations.TwinPair : Prop := MirrorPackets ∧ LossOfTheTwin ∧ AdoptionAndResync ∧ PairControl

/-- Links (R399, R400, R404): a port whose lanes make a link comes up, on all of them or on half; a retrain takes a port down
that does not train already. A hello on a trained port names the peer, and a cable to another port or module keeps the port down and hands
over what it held unacknowledged. A retry request replays from the number it names. -/
def Sys2Proof.Claims.LeashPorts : Prop :=
  (∀ (s : State) (p : Fin 4) (lanes : BitVec 8), Up s →
    let port := s.hw.port p.val
    (port.trained = true ∨ lanesMake lanes = false → exec (.linkTrained p lanes) s = .next s)
    ∧ (port.trained = false → lanesMake lanes = true → p.val < s.hw.ports.length → ∃ k : Hw,
      exec (.linkTrained p lanes) s = .next { s with hw := k } ∧ (k.port p.val).up = true ∧ (k.port p.val).trained = true
        ∧ (k.port p.val).lanes = (if lanes = 0xFF then 0xFF else if (lanes &&& 0x0F) = 0x0F then 0x0F else 0xF0)
        ∧ (p.val < 2 → k.pair.downSince = none) ∧ k.mem = s.hw.mem ∧ k.queues = s.hw.queues))
  ∧ (∀ (s : State) (p : Fin 4) (v : Word), Up s →
    exec (.linkRetrain p none v) s = .next { s with hw := s.hw.retrain p.val }
    ∧ (∀ r, Reaches s r (0x012 + p.val) 0x040 → exec (.linkRetrain p (some r) v) s = .next { s with hw := s.hw.retrain p.val }))
  ∧ (∀ (h : Hw) (p : Nat),
    ((h.port p).training = true → h.retrain p = h)
    ∧ ((h.port p).training = false → p < h.ports.length → let k := h.retrain p
      (k.port p).trained = false ∧ (k.port p).up = false ∧ (k.port p).training = true ∧ k.mem = h.mem ∧ k.queues = h.queues))
  ∧ (∀ (s : State) (p : Fin 4) (msg : HelloMsg), Up s →
    let port := s.hw.port p.val
    let peer := 2 * msg.pair.val + (if msg.role then 1 else 0)
    let mis : Bool := match s.hw.peerOf p.val with
      | none => true
      | some (m, q) => decide (msg.port.val ≠ q) || (decide (2 ≤ p.val) && decide (peer ≠ m))
    let h := (s.hw.wr64 (0x012 + p.val) 0x048 msg.serial.toNat).setPort p.val fun l =>
      { l with up := !mis, peer := peer % 8 + 8 * msg.port.val }
    (port.trained = false → exec (.hello p msg) s = .next s)
    ∧ (port.trained = true → mis = true → exec (.hello p msg) s = .next { s with
      hw := (h.handOver p.val).raise (0x012 + p.val) 2 })
    ∧ (port.trained = true → mis = false → (2 ≤ p.val ∨ h.pairOn = false) → exec (.hello p msg) s = .next { s with hw := h })
    ∧ (port.trained = true → mis = false → p.val < 2 → h.pairOn = true → exec (.hello p msg) s = .next { s with hw := h.pairHello p.val msg }))
  ∧ ∀ (s : State) (p : Fin 4) (seq : BitVec 12), Up s →
    ((s.hw.port p.val).up = true → exec (.retryRequest p seq) s = .next { s with hw := s.hw.replayFrom p.val seq.toNat })
    ∧ ((s.hw.port p.val).up = false → exec (.retryRequest p seq) s = .next s)

/-- Flits, remote accesses and time (R397 to R403). A flit that its correction cannot mend, or whose CRC is wrong, is counted and asked for
again; a good one is taken. A remote write reaches the page it names; a remote read is answered with its bytes; one that faults
is posted for the port, and like one that waits it is kept, with those behind it. A time exchange with the parent measures the offset, and steps the counter only the first time and only forward. -/
def Sys2Proof.Claims.LeashTraffic : Prop :=
  (∀ (s : State) (p : Fin 4) (flit : List Byte), Up s → flit.length = 256 →
    ((s.hw.port p.val).up = false → exec (.flitReceive p flit) s = .next s)
    ∧ ((s.hw.port p.val).up = true →
      (Config.leashFec flit = none → exec (.flitReceive p flit) s = .next { s with hw := (s.hw.count (0x012 + p.val) 0x054).askRetry p.val })
      ∧ (∀ f, Config.leashFec flit = some f →
        let h := if f = flit.take 240 then s.hw else s.hw.count (0x012 + p.val) 0x050
        (crc64 (f.take 232) = bnum f 232 8 → exec (.flitReceive p flit) s = .next { s with hw := h.goodFlit p.val f })
        ∧ (crc64 (f.take 232) ≠ bnum f 232 8 → exec (.flitReceive p flit) s = .next { s with
            hw := (h.count (0x012 + p.val) 0x054).askRetry p.val }))))
  ∧ (∀ (s : State) (p : Fin 4) (va len : Nat) (bytes : List Byte), Up s →
    let m := leashMaster p.val
    let req (w : Bool) : Nat × MemReq := (p.val, if w then .write va bytes false else .read va len)
    let waits (w : Bool) (h : Hw) : Prop := exec (.remoteAccess p w va len bytes) s = .next { s with
      hw := { h with leashQ := h.leashQ ++ [req w] } }
    ((s.hw.port p.val).up = false → ∀ w, exec (.remoteAccess p w va len bytes) s = .next s)
    ∧ ((s.hw.port p.val).up = true → s.hw.isHeld m = true ∨ (s.hw.leashQ.any fun y => y.1 == p.val) = true → ∀ w, waits w s.hw)
    ∧ ((s.hw.port p.val).up = true → s.hw.isHeld m = false → (s.hw.leashQ.any fun y => y.1 == p.val) = false →
      let h := s.hw.demandFor m va bytes.length
      let g := s.hw.demandFor m va len
      (∀ ps, h.place m va bytes = .ok ps → exec (.remoteAccess p true va len bytes) s = .next { s with
        hw := h.landOutside m va bytes ps false })
      ∧ (∀ cause level a, h.place m va bytes = .error (.fault cause level a) → waits true (h.postFault m cause level a true 0 true))
      ∧ (h.place m va bytes = .error .wait → waits true h)
      ∧ (∀ bs, g.read m va len = .ok bs → exec (.remoteAccess p false va len bytes) s = .next { s with
        hw := (g.touch m va len).send (.leash p.val (.response bs)) })
      ∧ (∀ a n, g.read m va len = .error (.ecc a n) → exec (.remoteAccess p false va len bytes) s = .next { s with
        hw := (g.touch m va len).send (.leash p.val .poisoned) })
      ∧ (∀ cause level a, g.read m va len = .error (.fault cause level a) → waits false (g.postFault m cause level a false 0 true))
      ∧ (g.read m va len = .error .wait → waits false g)))
  ∧ ∀ (s : State) (p : Fin 4) (t1 t2 t3 t4 : DWord), Up s →
    let port := s.hw.port p.val
    let soon : Bool := s.hw.pair.synced && decide (s.hw.time < s.hw.pair.lastSync + 2 ^ s.hw.rd 0x012 0x148)
    let off := halfOf ((t2 - t1).toInt - (t4 - t3).toInt) s.hw.freeCtr
    (port.up = false ∨ s.hw.parentPort p.val = false ∨ soon = true → exec (.timeSync p t1 t2 t3 t4) s = .next s)
    ∧ (port.up = true → s.hw.parentPort p.val = true → soon = false → ∃ k : Hw, exec (.timeSync p t1 t2 t3 t4) s = .next { s with hw := k }
      ∧ k.pair.synced = true
      ∧ (s.hw.pair.synced = true ∨ off ≤ 1000000 → k.time = s.hw.time ∧ k.pair.slew = off ∧ k.pair.lastSync = s.hw.time)
      ∧ (s.hw.pair.synced = false → 1000000 < off → k.time = s.hw.time + off.toNat ∧ k.pair.slew = 0)
      ∧ k.rd 0x012 0x150 = toSigned 32 off % 0x100000000 ∧ k.mem = s.hw.mem ∧ k.queues = s.hw.queues)

/-- The Leash. The correction code of a flit is open (log entry 41); halves of time offsets are open (log entry 43). -/
def Obligations.Leash : Prop := LeashPorts ∧ LeashTraffic

/-! ### Host interface -/

/-- Resets, links, configuration requests and messages (R406, R407, R411, R413). A reset of a port clears what it reports per port, ends its
reads, and raises source 1 when a link was up; a link comes up at a width its bifurcation allows; a configuration request is retried until
the port is ready, and in Watch and Deep, which it ends, and a write of a word keeps its read-only bits; a message goes out when nothing masks it, and becomes pending otherwise. -/
def Sys2Proof.Claims.PortsAndConfiguration : Prop :=
  (∀ (s : State) (p : Port), Up s →
    let x := s.hw.pcie p
    let k := s.hw.portReset p fun x => { x with up := false, speed := 0, width := 0 }
    (x.up = true → exec (.portReset p) s = .next { s with hw := k.raise (portPage p) 1 })
    ∧ (x.up = false → exec (.portReset p) s = .next { s with hw := k })
    ∧ exec (.functionLevelReset p) s = .next { s with hw := s.hw.portReset p id })
  ∧ (∀ (h : Hw) (p : Port),
    let k := h.portReset p id
    (k.pcie p).busMaster = false ∧ (k.pcie p).reads = [] ∧ (k.pcie p).cfg = [] ∧ k.rd 0x000 0x044 (reqBank (portReq p)) = 0
      ∧ k.rd64 (portPage p) 0x044 = 0 ∧ k.rd (portPage p) 0x04C = 0x1C ∧ (∀ x ∈ k.portQ, x.1 ≠ p) ∧ (∀ x ∈ k.attests, x.who ≠ portReq p))
  ∧ (∀ (s : State) (p : Port) (speed : Fin 6) (width : Fin 17), Up s →
    let ok := speed.val ≠ 0 ∧ width.val ∈ (if s.hw.pcieBif then [1, 2, 4, 8] else [1, 2, 4, 8, 16])
    (ok → exec (.pcieLinkUp p speed width) s = .next { s with
      hw := (s.hw.setPcie p fun x => { x with up := true, speed := speed.val, width := width.val }).raise (portPage p) 0 })
    ∧ (¬ ok → exec (.pcieLinkUp p speed width) s = .next s))
  ∧ (∀ (s : State) (p : Port) (off : Nat) (v : Word), Up s →
    let x := s.hw.pcie p
    let mask := cfgMaskOf off
    let old := (alGet off x.cfg).getD (cfgResetOf off)
    let h := s.hw.setPcie p fun x => { x with cfg := alPut off ((old &&& ~~~ mask) ||| (v &&& mask)) x.cfg }
    (x.up = false → ∀ w, exec (.configRequest p w off v) s = .next s)
    ∧ (x.up = true → 3 ≤ s.hw.pow.state → ∀ w, exec (.configRequest p w off v) s = .next { s with
        hw := (s.hw.wakeBy (2 + portNo p)).send (.cfgReply p none) })
    ∧ (x.up = true → s.hw.pow.state < 3 → x.ready = false → ∀ w, exec (.configRequest p w off v) s = .next { s with
        hw := s.hw.send (.cfgReply p none) })
    ∧ (x.up = true → s.hw.pow.state < 3 → x.ready = true →
      exec (.configRequest p false off v) s = .next { s with hw := s.hw.send (.cfgReply p (some (s.hw.cfgWord p off))) }
      ∧ exec (.configRequest p true off v) s = .next { s with hw := (h.cfgAct p off v.toNat).send (.cfgReply p (some 0)) })
    ∧ (off = 0 ∨ off = 0x2C → s.hw.cfgWord p off = 0x92602A5D)
    ∧ (off = 0x10 ∨ off = 0x20 → s.hw.cfgWord p off &&& 0xF = 0x4)
    ∧ (off = 0x18 → 28 ≤ x.bar2 → s.hw.cfgWord p off &&& 0xF = 0xC)
    ∧ (msixTable ≤ off → off < msixTable + 0x1000 → off ≠ Config.capOff 4 + 4 → off ≠ Config.capOff 4 + 8 → off % 16 = 12 →
      s.hw.cfgWord p off = if x.vecMask.getLsbD ((off - msixTable) / 16) then 1 else 0))
  ∧ ∀ (s : State) (p : Port) (vec : Fin 256), Up s →
    let x := s.hw.pcie p
    let due := vec.val ∈ x.waiting ∧ x.msixOn = true ∧ x.busMaster = true ∧ x.up = true
    let masked : Bool := x.msixFnMask || x.vecMask.getLsbD vec.val
    (¬ due → exec (.msixSend p vec) s = .next s)
    ∧ (due → masked = true → exec (.msixSend p vec) s = .next { s with
        hw := s.hw.setPcie p fun x => { x with vecPend := x.vecPend ||| (1#256 <<< vec.val) } })
    ∧ (due → masked = false → exec (.msixSend p vec) s = .next { s with
        hw := (s.hw.setPcie p fun x => { x with waiting := x.waiting.erase vec.val
                                                vecPend := x.vecPend &&& ~~~ (1#256 <<< vec.val) }).send (.msix p vec.val) })

/-- The aperture and module reads (R93, R409, R412). An access outside the aperture has no effect but that a read is answered as
unsupported; in Watch and Deep it wakes the module. Behind a write of its port that waits it waits. A write lands in the pages it names, or
goes out of the module by a window; a read is answered with the bytes, poisoned ones where a line is bad, or as unsupported where it faults;
what meets a moving page or a disabled slice waits. A completion ends the read of its tag, and an unexpected one is an error; a failed one, or a
timeout, ends the read poisoned. -/
def Sys2Proof.Claims.ApertureAndReads : Prop :=
  (∀ (s : State) (p : Port) (off len : Nat) (bytes : List Byte) (ep : Bool), Up s →
    let x := s.hw.pcie p
    let m := apertureMaster p
    let va := s.hw.aperVa p off
    let size (w : Bool) := if w then bytes.length else len
    let answers (w : Bool) (h : Hw) : Prop := exec (.apertureAccess p w off len bytes ep) s = .next { s with hw := h }
    let unsupported (w : Bool) (h : Hw) : Hw := if w then h else h.send (.aperReply p none false)
    let reach (w : Bool) : Prop := x.up = true ∧ s.hw.pow.state < 3 ∧ x.memSpace = true ∧ off + size w ≤ 2 ^ x.bar2
    let told (w : Bool) : Hw := if w && ep then (s.hw.count (portPage p) 0x06C).aerLog p 4 else s.hw
    let req (w : Bool) : PortReq := .mem (if w then .write va bytes ep else .read va len)
    (∀ w, x.up = false → answers w s.hw)
    ∧ (∀ w, x.up = true → 3 ≤ s.hw.pow.state → answers w (unsupported w (s.hw.wakeBy (2 + portNo p))))
    ∧ (∀ w, x.up = true → s.hw.pow.state < 3 → ¬ reach w → answers w (unsupported w s.hw))
    ∧ (∀ w, reach w → 2 ^ 52 < va + size w → answers w (unsupported w (told w)))
    ∧ (∀ w, reach w → va + size w ≤ 2 ^ 52 → s.hw.portHeld (portReq p) = true → answers w ((told w).holdPort (portReq p) (req w)))
    ∧ (reach true → va + size true ≤ 2 ^ 52 → s.hw.portHeld (portReq p) = false →
      (∀ w, (told true).windowOf va = some w → answers true ((told true).postRemote w va bytes))
      ∧ ((told true).windowOf va = none →
        let h := (told true).demandFor m va bytes.length
        (∀ ps, h.place m va bytes = .ok ps → answers true (h.landOutside m va bytes ps ep))
        ∧ (∀ cause level a, h.place m va bytes = .error (.fault cause level a) → answers true (h.postFault m cause level a true 0 false))
        ∧ (h.place m va bytes = .error .wait → answers true ((told true).holdPort (portReq p) (req true)))))
    ∧ (reach false → va + size false ≤ 2 ^ 52 → s.hw.portHeld (portReq p) = false →
      let h := s.hw.demandFor m va len
      (∀ bs, h.read m va len = .ok bs → answers false ((h.touch m va len).send (.aperReply p (some bs) false)))
      ∧ (h.read m va len = .error .wait → answers false (s.hw.holdPort (portReq p) (req false)))
      ∧ (∀ a n ks, h.read m va len = .error (.ecc a n) → h.spot m va len = .ok ks →
        answers false (((h.touch m va len).count (portPage p) 0x068).send
          (.aperReply p (some (ks.flatMap fun x => h.poisonedBytes x.1 x.2)) true)).draw)
      ∧ (∀ e cause level a, h.read m va len = .error e → e ≠ .wait → h.spot m va len = .error (.fault cause level a) →
        answers false ((h.postFault m cause level a false 0 false).send (.aperReply p none false)))))
  ∧ ∀ (s : State) (p : Port) (tag : Nat) (good : Bool) (bytes : List Byte), Up s →
    let read := (s.hw.pcie p).reads.find? (·.tag = tag)
    (read = none → exec (.completionReceived p tag good bytes) s = .next { s with hw := s.hw.tlpError p 2 }
      ∧ exec (.completionTimeout p tag) s = .next s)
    ∧ (∀ r, read = some r →
      exec (.completionTimeout p tag) s = .next { s with hw := s.hw.badRead p r 6 }
      ∧ (good = false → exec (.completionReceived p tag good bytes) s = .next { s with hw := s.hw.badRead p r 5 })
      ∧ (good = true → exec (.completionReceived p tag good bytes) s = .next { s with
        hw := ((s.hw.setPcie p fun x => { x with reads := x.reads.erase r }).deliverRead r
          ((bytes ++ List.replicate r.len 0).take r.len) false).count64 (portPage p) 0x054 r.len }))
    ∧ (∀ kind : Fin 4, exec (.receivedTlpError p kind) s = .next { s with
        hw := ((s.hw.aerLog p kind.val).count (portPage p) 0x074).raise (portPage p) 3 })
    ∧ (∀ lane : Fin 16, let h := (s.hw.aerLog p 7).count (portPage p) 0x070
      exec (.correctableLinkError p lane) s = .next { s with
        hw := { h with life := h.life.bump (0x5E0 + 4 * (16 * portNo p + lane.val)) } })

/-- The two host ports. Offsets of the configuration space beyond those the spec gives are the model's (log entries 14 and 44). -/
def Obligations.HostPorts : Prop := PortsAndConfiguration ∧ ApertureAndReads

/-! ### Interrupts, tracing, counters and the lifetime log -/

/-- The interrupt controller (R420 to R423). An edge latches its source's pending bit and its count, masked or not, and a masked source makes
no summary active; in Hold, Watch and Deep it waits for the wake. SW_TRIG is an edge of a software source and is discarded and counted for any other number; a write of a pending word
stores it with no edge and no count. A summary with an unmasked pending source, nothing outstanding and a destination is sent there once it comes first, which makes it
outstanding; SUM_ACK clears outstanding, and what is still active is sent again. -/
def Obligations.InterruptController : Prop :=
  (∀ (h : Hw) (n : Nat), n < 128 → h.pow.state < 2 →
    let k := h.edge n
    let evt (h : Hw) := bitsOf (h.rd 0x004 (0x200 + 4 * (n / 2))) (16 * (n % 2) + 15) (16 * (n % 2))
    k.bit 0x004 (0x040 + 4 * (n / 32)) (n % 32) = true ∧ evt k = (evt h + 1) % 0x10000
    ∧ (h.bit 0x004 (0x050 + 4 * (n / 32)) (n % 32) = true → k.srcOn n = false ∧ ∀ j, k.sumFirst j ≠ some n))
  ∧ (∀ (h : Hw) (n : Nat), 2 ≤ h.pow.state → n ∈ (h.edge n).pow.edges ∧ (h.edge n).regs = h.regs)
  ∧ (∀ (s : State) (r : Req) (w : Fin 4) (v : Word), Reaches s r 0x004 (0x040 + 4 * w.val) →
    exec (.registerWrite r (0x004040 + 4 * w.val) 4 v.toNat) s = .next { s with hw := s.hw.wr 0x004 (0x040 + 4 * w.val) v.toNat })
  ∧ (∀ (s : State) (r : Req) (v : Word), Reaches s r 0x004 0x07C →
    let n := bitsOf v.toNat 6 0
    let soft := (88 ≤ n ∧ n ≤ 95) ∨ (112 ≤ n ∧ n ≤ 119)
    (soft → exec (.swTrig r v) s = .next { s with hw := s.hw.edge n })
    ∧ (¬ soft → exec (.swTrig r v) s = .next { s with hw := s.hw.badAccess (pageOff 0x004 0x07C) }))
  ∧ (∀ (s : State) (k : Fin 32), Up s →
    let go := s.hw.sumDue k.val = true ∧ s.hw.sumNext (s.hw.sumDest k.val) = some k.val
    (¬ go → exec (.summaryMessage k) s = .next s)
    ∧ (go → ∃ g : Hw, exec (.summaryMessage k) s = .next { s with hw := g } ∧ g.sumOut k.val = true
      ∧ (s.hw.sumDest k.val = 1 → k.val ∈ g.pcieA.waiting) ∧ (s.hw.sumDest k.val = 2 → k.val ∈ g.pcieB.waiting)
      ∧ (s.hw.sumDest k.val = 3 → g = (s.hw.setBit 0x004 0x074 k.val true).send (.handlerInput k.val))
      ∧ (∀ j : Fin 32, j ≠ k → g.sumOut j.val = s.hw.sumOut j.val)))
  ∧ ∀ (s : State) (r : Req) (v : Word), Reaches s r 0x004 0x070 →
    let ks := (List.range 32).filter fun k => v.toNat.testBit k
    let h := s.hw.wr 0x004 0x074 (s.hw.reg (pageOff 0x004 0x074) &&& ~~~ v).toNat
    exec (.sumAck r v) s = .next { s with hw := h.sumSendAll ks 32 }
    ∧ ((∀ k ∈ ks, h.sumActive k = false) → exec (.sumAck r v) s = .next { s with hw := h })

/-- Counters, SNAP records and the Trail port (R488, R495, R497): ENG_SEL copies an engine's counters into the requester's registers,
which clearing the counters leaves; a period that has passed takes the snapshots of its engines; the oldest record leaves on the next of four
lanes while the port is on. -/
def Sys2Proof.Claims.CountersAndTrail : Prop :=
  (∀ (s : State) (r : Req) (v : Word), Reaches s r 0x009 0x040 →
    let b := reqBank r
    let id := v.toNat % 0x1000
    let bank := v.toNat % 0x2000 / 0x1000
    ∃ k : Hw, exec (.engSel r v) s = .next { s with hw := k } ∧ k.rd 0x009 0x040 b = v.toNat % 0x2000
      ∧ bitOf (k.rd 0x009 0x044 b) 0 = s.hw.counted id
      ∧ (s.hw.counted id = true → k.rd64 0x009 0x048 b = s.hw.ctr id bank 0 % 2 ^ 64 ∧ k.rd64 0x009 0x050 b = s.hw.ctr id bank 1 % 2 ^ 64
        ∧ ∀ n < 16, k.rd64 0x009 (0x080 + 8 * n) b = s.hw.ctr id bank (3 + n) % 2 ^ 64)
      ∧ (s.hw.counted id = false → k.rd64 0x009 0x048 b = 0 ∧ k.rd64 0x009 0x050 b = 0)
      ∧ k.trc = s.hw.trc ∧ k.mem = s.hw.mem ∧ k.queues = s.hw.queues)
  ∧ (∀ (s : State) (r : Req) (v : Word), Reaches s r 0x009 0x060 →
    exec (.counterClear r v) s = .next { s with hw := { s.hw with trc := { s.hw.trc with counters := [], snapBase := [] } } })
  ∧ (∀ (s : State), Up s →
    let period := s.hw.rd 0x008 0x048 % 0x10000
    let c := s.hw.rd 0x008 0x04C
    let ids := ((List.range (bitsOf c 27 16)).map (c % 0x1000 + ·)).filter s.hw.counted
    (period = 0 ∨ s.hw.time < s.hw.trc.snapAt + 1000 * period → exec .snap s = .next s)
    ∧ (period ≠ 0 → s.hw.trc.snapAt + 1000 * period ≤ s.hw.time → exec .snap s = .next { s with
        hw := ids.foldl Hw.snapOne { s.hw with
          trc := { s.hw.trc with snapAt := s.hw.time - (s.hw.time - s.hw.trc.snapAt) % (1000 * period) } } }))
  ∧ ∀ (s : State), Up s →
    let on : Bool := s.hw.bit 0x008 0x040 0 && !s.hw.trc.off
    (s.hw.trc.fifo = [] ∨ on = false → exec .trailRecordSend s = .next s)
    ∧ (∀ x rest, s.hw.trc.fifo = x :: rest → on = true → ∃ k : Hw, exec .trailRecordSend s = .next { s with hw := k }
      ∧ k.trc.fifo = rest ∧ k.trc.lane = (s.hw.trc.lane + 1) % 4 ∧ k.out = s.hw.out ++ [.trail s.hw.trc.lane x]
      ∧ k.rd64 0x008 0x050 = min (s.hw.rd64 0x008 0x050 + 1) 0xFFFFFFFFFFFFFFFF)

/-- The lifetime image and its log (R498 to R500, R442). An entry is appended where the log stands, numbered one up, or, where the flash
write fails, the log stays and the failure is noted. LIFE_WRITE_NOW and a period that has passed append; a second that has passed is counted,
with the temperature's bin while the module is in Run, Idle or Hold. A power reading enters its window and the mean. -/
def Sys2Proof.Claims.LifetimeLog : Prop :=
  (∀ (s : State) (reason : Nat),
    let t := s.lifeAppend reason
    (Config.flashFails s.hw.freeCtr = true → t.boot = s.boot ∧ t.hw.life = s.hw.life ∧ t.hw.rd 0x006 0x044 = 2)
    ∧ (Config.flashFails s.hw.freeCtr = false → t.hw.life.seq = (s.hw.life.seq + 1) % 0x100000000 ∧ t.hw.life.reason = reason
      ∧ t.hw.life.slot = (s.hw.life.slot + 1) % 52992 ∧ t.hw.rd 0x006 0x044 = 0 ∧ t.hw.rd 0x006 0x04C = t.hw.life.seq
      ∧ (∀ i < 4096, t.boot.byte (logOff s.hw.life.slot + i) = (t.hw.life.tail 0).getD i 0)))
  ∧ (∀ (s : State) (r : Req) (v : Word), Reaches s r 0x006 0x040 → exec (.lifeWriteNow r v) s = .next (s.lifeAppend 3))
  ∧ (∀ (s : State), Up s →
    let due := s.hw.firmware = true ∧ s.hw.life.periodAt + s.hw.lifePeriod * 1000000000 ≤ s.hw.time
    (¬ due → exec .lifePeriod s = .next s)
    ∧ (due → exec .lifePeriod s = .next
        (({ s with hw := { s.hw with life := { s.hw.life with periodAt := s.hw.time } } } : State).lifeAppend 1)))
  ∧ (∀ (s : State) (temp : Int), Up s →
    let l := { s.hw.life with sampleAt := s.hw.life.sampleAt + 1000000000, seconds := s.hw.life.seconds + 1 }
    (s.hw.time < s.hw.life.sampleAt + 1000000000 → exec (.lifetimeSample temp) s = .next s)
    ∧ (s.hw.life.sampleAt + 1000000000 ≤ s.hw.time → exec (.lifetimeSample temp) s = .next { s with
        hw := { s.hw with life := if s.hw.pow.state < 3 then l.bump (0x080 + 4 * tempBin temp) else l } }))
  ∧ ∀ (s : State) (watts : Nat), Up s →
    let xs := (min watts 0xFFFF :: s.hw.pow.samples).take (max 1 (s.hw.rd 0x001 0x04C % 0x10000 / 10))
    exec (.inputPowerSample watts) s = .next { s with
      hw := (s.hw.setPow fun w => { w with samples := xs }).wr 0x001 0x050 (xs.sum / xs.length + 0x10000 * min watts 0xFFFF) }

/-- Observation: counters, trace, and the lifetime log. Whether a flash write fails is open (log entry 46). -/
def Obligations.Observation : Prop := CountersAndTrail ∧ LifetimeLog

/-! ### Power -/

/-- Entry and exit (R430, R431, R433, R435 to R437). Once the target lies deeper and nothing blocks it, the module enters the next state,
whose entry then lasts for its time. A vote that brings the target up, a demand, and a wake source that acts in the
present state bring it back to Run at once, or, during an entry, at its end. -/
def Sys2Proof.Claims.PowerStates : Prop :=
  (∀ (s : State), Up s →
    let h := s.hw
    let go := h.pow.entryEnd ≤ h.time ∧ h.pow.state < h.target ∧ h.blocked = 0
    (¬ go → exec .powerStateEntry s = .next s)
    ∧ (go → ∃ k : Hw, exec .powerStateEntry s = .next { s with hw := k } ∧ k.pow.state = h.pow.state + 1
      ∧ k.pow.entryEnd = h.time + entryNs (h.pow.state + 1) ∧ k.pow.latched = none ∧ k.mem = h.mem ∧ k.queues = h.queues)
    ∧ (exec .demandExit s = .next { s with hw := h.wakeBy 7 })
    ∧ (∀ code, exec (.wake code) s = .next { s with hw := h.wakeBy code.val }))
  ∧ (∀ (s : State) (r : Req) (v : Word), Reaches s r 0x001 0x044 →
    let h := s.hw.wr 0x001 0x044 (v.toNat % 8) (reqBank r)
    (h.target < h.pow.state → exec (.vote r v) s = .next { s with hw := h.wakeBy 8 })
    ∧ (h.pow.state ≤ h.target → exec (.vote r v) s = .next { s with hw := h }))
  ∧ (∀ (h : Hw) (code : Nat),
    (h.wakes code = false → h.wakeBy code = h)
    ∧ (h.wakes code = true → h.pow.state ≠ 0 → h.pow.entryEnd ≤ h.time → let k := h.wakeBy code
      k.pow.state = 0 ∧ k.pow.latched = none ∧ k.pow.edges = [] ∧ k.mem = h.mem ∧ k.queues = h.queues
        ∧ k.rd 0x001 0x0A8 = (code + 0x10 * h.pow.state + 0x100 * min h.pow.others 255) % 0x100000000)
    ∧ (h.wakes code = true → h.pow.state ≠ 0 → h.time < h.pow.entryEnd → h.pow.latched = none →
      h.wakeBy code = { h with pow := { h.pow with latched := some code } }))
  ∧ ∀ (s : State) (addr : BitVec 7), Up s →
    let mine := 3 ≤ s.hw.pow.state ∧ addr.toNat = s.hw.pow.mba ∧ 8 ≤ addr.toNat ∧ addr.toNat < 0x78
    (mine → exec (.managementAddressMatch addr) s = .next { s with hw := (s.hw.send .smbNack).wakeBy 1 })
    ∧ (¬ mine → exec (.managementAddressMatch addr) s = .next s)

/-- Watching (R438, R439). In Watch a sample that is due wakes the module for a channel outside its thresholds; in Run, Idle and
Hold a channel that leaves its thresholds latches source 110 once per excursion. The timer fires once, when global time reaches it. -/
def Sys2Proof.Claims.Watching : Prop :=
  (∀ (s : State) (samples : List (BitVec 16)), Up s →
    (samples.length = 9 →
      (s.hw.pow.state ≠ 3 ∨ s.hw.time < s.hw.pow.lastWatch + s.hw.watchNs → exec (.watchSample samples) s = .next s)
      ∧ (s.hw.pow.state = 3 → s.hw.pow.lastWatch + s.hw.watchNs ≤ s.hw.time → (∀ c < 9, s.hw.bit 0x001 0x05C c = false) →
        exec (.watchSample samples) s = .next { s with hw := s.hw.setPow fun w => { w with lastWatch := s.hw.time } })
      ∧ (s.hw.pow.state = 3 → s.hw.pow.lastWatch + s.hw.watchNs ≤ s.hw.time → s.hw.pow.entryEnd ≤ s.hw.time → s.hw.bit 0x001 0x0A4 5 = true →
        (∃ c < 8, s.hw.bit 0x001 0x05C c = true ∧ s.hw.crossed c (samples.getD c 0) = true) →
        ∃ k : Hw, exec (.watchSample samples) s = .next { s with hw := k } ∧ k.pow.state = 0))
    ∧ (samples.length = 8 →
      (3 ≤ s.hw.pow.state → exec (.thresholdCompare samples) s = .next s)
      ∧ (s.hw.pow.state < 3 → ∃ k : Hw, exec (.thresholdCompare samples) s = .next { s with hw := k }
        ∧ k.pow.state = s.hw.pow.state ∧ k.mem = s.hw.mem ∧ k.queues = s.hw.queues
        ∧ (s.hw.pow.state < 2 → (∃ c < 8, s.hw.bit 0x001 0x05C c = true ∧ c ∉ s.hw.pow.excursion ∧ s.hw.crossed c (samples.getD c 0) = true) →
          k.bit 0x004 0x04C 14 = true)))
    ∧ (samples.length ≠ 9 → exec (.watchSample samples) s = .refused (.illFormed "WATCH_SAMPLE"))
    ∧ (samples.length ≠ 8 → exec (.thresholdCompare samples) s = .refused (.illFormed "THRESHOLD_COMPARE")))
  ∧ (∀ (s : State) (b : Bool), Up s →
    let h := s.hw.setPow fun w => { w with hb := b }
    let wake := s.hw.hbWakes b = true ∧ (s.hw.pow.state = 2 ∨ s.hw.pow.state = 4)
    (wake → exec (.heartbeatSidebandChange b) s = .next { s with hw := h.wakeBy 4 })
    ∧ (¬ wake → exec (.heartbeatSidebandChange b) s = .next { s with hw := h }))
  ∧ ∀ (s : State), Up s →
    let due := s.hw.bit 0x001 0x0BC 0 = true ∧ s.hw.pow.timerFired = false ∧ s.hw.rd64 0x001 0x0B4 ≤ s.hw.time
    let h := s.hw.setPow fun w => { w with timerFired := true }
    (¬ due → exec .timerMatch s = .next s)
    ∧ (due → s.hw.pow.state = 0 → exec .timerMatch s = .next { s with hw := h.edge 109 })
    ∧ (due → s.hw.pow.state ≠ 0 → exec .timerMatch s = .next { s with hw := h.wakeBy 5 })

/-- Operating points and their ceilings (R441 to R443, R450, R517, R519). A point that is requested is made for: a rise ramps the voltage
first, a fall switches the clock first, and nothing moves during a ramp until its end. The power ceiling falls to one below the highest point made for
while the mean lies above the limit, and rises by one below 97 % of it; a die's ceiling falls by one at 105 °C, rises by one at 102 °C or
less, and 125 °C holds the module in reset. A low supply sample starts a droop, or keeps one up, for 1 ms, whose lowest sample its end counts.
A PLL that loses lock reads unlocked. -/
def Sys2Proof.Claims.PointsAndCeilings : Prop :=
  (∀ (s : State) (r : Req) (d : Fin 4) (v : Word), Reaches s r 0x002 (0x040 + 4 * d.val) →
    exec (.pointRequest r d v) s = .next { s with hw := (s.hw.wr 0x002 (0x040 + 4 * d.val) (v.toNat % 16)).retarget d.val })
  ∧ (∀ (s : State) (d : Fin 4), Up s →
    (s.hw.ramp d.val = none → exec (.rampDone d) s = .next s)
    ∧ (∀ x, s.hw.ramp d.val = some x →
      (s.hw.time < x.start + x.ns → exec (.rampDone d) s = .next s)
      ∧ (x.start + x.ns ≤ s.hw.time → exec (.rampDone d) s = .next { s with
        hw := ((s.hw.setPoint d.val x.target).setPow fun w => { w with ramps := listSet w.ramps d.val none }).retarget d.val })))
  ∧ (∀ (h : Hw) (d : Nat), h.pow.points.length = 4 → h.pow.ramps.length = 4 → d < 4 → let k := h.retarget d
    (∀ x, h.ramp d = some x → k.point d = h.point d ∧ k.ramp d = some x)
    ∧ (h.ramp d = none → h.point d = h.goal d → k.point d = h.point d ∧ k.ramp d = none)
    ∧ (h.ramp d = none → h.point d < h.goal d → k.point d = h.point d ∧ k.ramp d = some ⟨pointMv (h.point d), h.time, h.goal d⟩)
    ∧ (h.ramp d = none → h.goal d < h.point d → k.point d = h.goal d ∧ k.ramp d = some ⟨pointMv (h.point d), h.time, h.goal d⟩))
  ∧ (∀ (s : State) (mean : Nat), Up s →
    let soon := s.hw.time < s.hw.pow.limitAt + 1000 * (s.hw.rd 0x001 0x04C / 0x10000)
    let lim := s.hw.plimit
    (soon → exec (.powerLimitStep mean) s = .next s)
    ∧ (¬ soon → ∃ k : Hw, exec (.powerLimitStep mean) s = .next { s with hw := k } ∧ k.pow.limitAt = s.hw.time ∧ k.mem = s.hw.mem
      ∧ (lim < mean → k.pow.ceiling = ((List.range 4).map s.hw.goal).foldl max 0 - 1)
      ∧ (mean ≤ lim → 100 * mean < 97 * lim → k.pow.ceiling = min 15 (s.hw.pow.ceiling + 1))
      ∧ (mean ≤ lim → 97 * lim ≤ 100 * mean → k.pow.ceiling = s.hw.pow.ceiling)))
  ∧ (∀ (s : State) (d : Fin 4) (temp : Int), Up s → s.hw.pow.thermal.length = 4 →
    let c := s.hw.pow.thermal.getD d.val 15
    let soon := s.hw.time < s.hw.pow.thermalAt.getD d.val 0 + 100000
    (500 ≤ temp → ∃ k : Hw, exec (.thermalSample d temp) s = .next { s with hw := k } ∧ k.pow.off = true ∧ k.pow.locked = true)
    ∧ (temp < 500 → soon → exec (.thermalSample d temp) s = .next s)
    ∧ (temp < 500 → ¬ soon → ∃ k : Hw, exec (.thermalSample d temp) s = .next { s with hw := k }
      ∧ k.pow.thermal.getD d.val 15 = if 420 ≤ temp then c - 1 else if temp ≤ 408 then min 15 (c + 1) else c))
  ∧ (∀ (s : State) (mv : Nat), Up s →
    let h := s.hw.wr 0x001 0x0D8 (s.hw.rd 0x001 0x0D8 / 0x10000 * 0x10000 + min mv 0xFFFF)
    (45000 ≤ mv → exec (.droop mv) s = .next { s with hw := h })
    ∧ (mv < 45000 → ∃ k : Hw, exec (.droop mv) s = .next { s with hw := k }
      ∧ k.pow.droop = some (s.hw.time + 1000000, match s.hw.pow.droop with
          | some (_, l) => min l mv
          | none => mv) ∧ k.mem = s.hw.mem))
  ∧ (∀ (s : State), Up s →
    (s.hw.pow.droop = none → exec .droopHoldExpiry s = .next s)
    ∧ (∀ t low, s.hw.pow.droop = some (t, low) →
      (s.hw.time < t → exec .droopHoldExpiry s = .next s)
      ∧ (t ≤ s.hw.time → ∃ k : Hw, exec .droopHoldExpiry s = .next { s with hw := k } ∧ k.pow.droop = none
        ∧ k.life = s.hw.life.bump (0x100 + 4 * min ((45000 - low) / 250) 15))))
  ∧ ∀ (s : State) (i : Fin 27), Up s → ∃ k : Hw, exec (.pllLockLost i) s = .next { s with hw := k }
      ∧ k.bit 0x002 0x064 i.val = false ∧ k.mem = s.hw.mem ∧ k.queues = s.hw.queues

/-- The supply sequencer (R446 to R448, R453, R514, R515). A rail that fails switches off its group and every later one, holds the module in
reset and is noted with its cause; a lost input switches off from its group on and locks until VIN_ANA comes back; an input that comes before
the one it must follow latches a sequence fault. A power-on reset acts only once the three inputs are valid, in order and unlocked.
SHDN_REQ and OFF_OK leave their flags. -/
def Sys2Proof.Claims.Supplies : Prop :=
  (∀ (s : State) (i : Fin 13),
    (s.hw.pow.off = true → exec (.railFault i) s = .next s)
    ∧ (s.hw.pow.off = false → ∃ k : Hw, exec (.railFault i) s = .next { s with hw := k } ∧ k.pow.off = true ∧ k.pow.pwrgd = false
      ∧ k.pow.cause = (if i.val < 2 then 1 else 6) ∧ k.mem = s.hw.mem
      ∧ ∀ j < 13, k.bit 0x001 (0x104 + 8 * j) 8 = (s.hw.bit 0x001 (0x104 + 8 * j) 8 && decide (railGroup j < railGroup i.val))))
  ∧ (∀ (s : State) (i : Fin 3), s.hw.pow.vin.length = 3 →
    let v (n : Nat) : Bool := s.hw.pow.vin.getD n false
    (v i.val = false → exec (.undervoltageLockout i) s = .next s)
    ∧ (v i.val = true → ∃ k : Hw, exec (.undervoltageLockout i) s = .next { s with hw := k } ∧ k.pow.off = true
      ∧ k.pow.locked = true ∧ k.pow.vin = listSet s.hw.pow.vin i.val false
      ∧ (s.hw.offOkPin = false → k.pow.unorderedNext = true))
    ∧ (v i.val = true → exec (.supplyInputValid i) s = .next s)
    ∧ (v 0 = false → ∃ k : Hw, exec (.supplyInputValid 0) s = .next { s with hw := k } ∧ k.pow.locked = false ∧ k.pow.anaAge = 0
      ∧ k.pow.vin = listSet s.hw.pow.vin 0 true ∧ k.pow.early = if v 1 then 1 else if v 2 then 2 else 0)
    ∧ (v 1 = false → v 0 = true → 10000000 ≤ s.hw.pow.anaAge → exec (.supplyInputValid 1) s = .next { s with
      hw := s.hw.setPow fun w => { w with vin := listSet w.vin 1 true } })
    ∧ (v 2 = false → v 1 = false → s.hw.pow.early = 0 → ∃ k : Hw, exec (.supplyInputValid 2) s = .next { s with hw := k } ∧ k.pow.early = 2)
    ∧ (v 2 = false → v 1 = true → exec (.supplyInputValid 2) s = .next { s with
      hw := s.hw.setPow fun w => { w with vin := listSet w.vin 2 true } }))
  ∧ (∀ (s : State),
    let w := s.hw.pow
    let go := w.off = true ∧ w.locked = false ∧ w.early = 0 ∧ w.vin = [true, true, true]
    (go → exec .powerOnReset s = .next (({ s with hw := s.hw.powerUp } : State).bootFlow true))
    ∧ (¬ go → exec .powerOnReset s = .next s) ∧ exec .testReset s = .next s)
  ∧ (∀ (s : State), Up s →
    let h := (s.hw.setPow fun w => { w with shdnReq := true }).raise 0x001 4
    (h.firmware = true → exec .shdnReq s = .next (({ s with hw := h } : State).lifeAppend 2))
    ∧ (h.firmware = false → exec .shdnReq s = .next { s with hw := h }))
  ∧ ∀ (s : State) (r : Req) (v : Word), Reaches s r 0x001 0x0C4 →
    exec (.offOk r v) s = .next { s with hw := s.hw.setPow fun w => { w with offOk := true } }

/-- Power states, wake sources and sampling. That an entry lasts for the stated maximum, and that the timer fires once, are the model's
choices (log entry 15). -/
def Obligations.PowerAndWake : Prop := PowerStates ∧ Watching

/-- Operating points, ceilings and supplies. The ceiling after a droop and what a die's point reads at reset are the model's (log entry 48).
-/
def Obligations.PointsAndSupplies : Prop := PointsAndCeilings ∧ Supplies

/-! ### Reset and boot -/

/-- Module reset and the watchdog (R454, R455). Only the two keys reset the module, with the cause of the requester; any other value is
discarded and counted. The watchdog is the Handler's: a kick restarts its count, and an expiry resets with cause 5. A reset leaves no queue
and no pair, in Run, with its cause. -/
def Sys2Proof.Claims.ModuleResets : Prop :=
  (∀ (s : State) (r : Req) (v : Word), Reaches s r 0x003 0x044 →
    let cause := match r with | .portA => 2 | .portB => 3 | .handler => 4
    (v = 0x0000A55A → exec (.modReset r v) s = .next (s.moduleReset cause false))
    ∧ (v = 0x0000A55B → exec (.modReset r v) s = .next (s.moduleReset cause true))
    ∧ (v ≠ 0x0000A55A → v ≠ 0x0000A55B → exec (.modReset r v) s = .next { s with hw := s.hw.badAccess (pageOff 0x003 0x044) }))
  ∧ (∀ (s : State) (r : Req) (v : Word), Reaches s r 0x003 0x054 →
    (r = .handler → exec (.wdogKick r v) s = .next { s with boot := { s.boot with wdogAt := s.hw.time } })
    ∧ (r ≠ .handler → exec (.wdogKick r v) s = .next { s with hw := s.hw.badAccess (pageOff 0x003 0x054) }))
  ∧ (∀ (s : State), Up s →
    let c := s.hw.rd 0x003 0x050
    let due := bitOf c 0 = true ∧ s.hw.pow.state < 3 ∧ max s.boot.wdogAt s.hw.pow.wokeAt + c / 0x100 * 1000000 ≤ s.hw.time
    (due → exec .watchdogExpiry s = .next (s.moduleReset 5 false)) ∧ (¬ due → exec .watchdogExpiry s = .next s))
  ∧ ∀ (s : State) (cause : Nat) (wipe : Bool), let t := s.moduleReset cause wipe
    t.hw.queues = [] ∧ t.hw.pair.state = psUNPAIRED ∧ t.hw.rd 0x003 0x040 = cause % 0x100000000 ∧ t.hw.pow.state = 0 ∧ t.pending = s.pending

/-- Ports, rollback counters and recovery (R456, R458, R462, R463). BOOT_CTL marks ports ready, and boot_ok raises each counter to what
this boot has shown. In recovery, at an address of its own, and only there, the management bus erases, programs and reads the flash, and only the image slots change. -/
def Sys2Proof.Claims.BootAndRecovery : Prop :=
  (∀ (s : State) (r : Req) (v : Word), Reaches s r 0x005 0x058 →
    let a := if bitOf v.toNat 0 then { s.hw with pcieA := { s.hw.pcieA with ready := true } } else s.hw
    let h := if bitOf v.toNat 1 then { a with pcieB := { a.pcieB with ready := true } } else a
    exec (.portReady r v) s = .next { s with hw := h }
    ∧ ∃ t, exec (.bootOk r v) s = .next t ∧ t.hw = h.wr 0x003 0x048 (h.rd 0x003 0x048 / 0x10 * 0x10 + 2)
      ∧ t.boot.counters.getD 0 0 = max (s.boot.counters.getD 0 0) (s.hw.rd 0x005 0x044)
      ∧ (∀ i < 3, t.boot.counters.getD (i + 1) 0 = max (s.boot.counters.getD (i + 1) 0) (s.boot.applied.getD i 0))
      ∧ t.boot.flash = s.boot.flash)
  ∧ ∀ (s : State) (off : Nat) (bytes : List Byte), Up s →
    let rec_ := s.serves = true
    (rec_ → off < 0x2000000 → exec (.flashErase off) s = .next { s with boot := s.boot.erase off }
      ∧ ∀ o, (s.boot.erase off).byte o = if o / 0x10000 = off / 0x10000 then 0xFF else s.boot.byte o)
    ∧ (¬ rec_ ∨ 0x2000000 ≤ off → exec (.flashErase off) s = .next s)
    ∧ (bytes ≠ [] → bytes.length ≤ 32 →
      (rec_ → off + bytes.length ≤ 0x2000000 → exec (.flashProgram off bytes) s = .next { s with boot := s.boot.program off bytes }
        ∧ ∀ o, (s.boot.program off bytes).byte o = if off ≤ o ∧ o < off + bytes.length then bytes.getD (o - off) 0 else s.boot.byte o)
      ∧ (¬ rec_ ∨ 0x2000000 < off + bytes.length → exec (.flashProgram off bytes) s = .next s))
    ∧ (bytes = [] ∨ 32 < bytes.length → exec (.flashProgram off bytes) s = .refused (.illFormed "FLASH_PROGRAM"))
    ∧ (rec_ → off + 32 ≤ 0x10000000 → exec (.flashRead off) s = .next { s with hw := s.hw.send (.flash (s.boot.bytes off 32)) })
    ∧ (¬ rec_ ∨ 0x10000000 < off + 32 → exec (.flashRead off) s = .next s)

/-- Measurements, reports and signing (R464 to R467). An extend of M4 to M7 takes the 64 bytes at the requester's address, once no earlier
request is open; a measurement that waits extends M2 or M3; a report is built for the oldest request once no measurement waits, or after
50 ms, over its nonce; the signing engine writes the signature after the digest. A read or a write that a slice or a self-test holds
leaves what wants it waiting; one that faults is recorded. -/
def Sys2Proof.Claims.Attestation : Prop :=
  (∀ (s : State) (r : Req) (v : Word), Reaches s r 0x003 0x060 →
    let busy := s.hw.rd 0x003 0x064 (reqBank r) % 2 = 1
    let h := s.hw.wr 0x003 0x060 (v.toNat &&& 0xC) (reqBank r)
    let asked (x : Option Nat) : Hw := { h.wr 0x003 0x064 1 (reqBank r) with attests := h.attests ++ [⟨r, h.time, x⟩] }
    let i := bitsOf v.toNat 3 2
    let a := (asked (some i)).reqAddr r
    let g := (asked (some i)).demandFor handlerMaster a 64
    let ends (k : Hw) : Prop := exec (.extend r v) s = .next { s with hw := { k with attests := [] } }
    (busy → exec (.attest r v) s = .next { s with hw := s.hw.badAccess (pageOff 0x003 0x060) }
      ∧ exec (.extend r v) s = .next { s with hw := s.hw.badAccess (pageOff 0x003 0x060) })
    ∧ (¬ busy →
      exec (.attest r v) s = .next { s with hw := asked none }
      ∧ (∀ x rest, s.hw.attests = x :: rest → x.reg = none → exec (.extend r v) s = .next { s with hw := asked (some i) })
      ∧ (s.hw.attests = [] →
        (g.read handlerMaster a 64 = .error .wait → exec (.extend r v) s = .next { s with hw := asked (some i) })
        ∧ (∀ bs, g.read handlerMaster a 64 = .ok bs → ends ((((g.touch handlerMaster a 64).extend (4 + i) bs).raise 0x005 0).reqDone r 0))
        ∧ (∀ cause level va, g.read handlerMaster a 64 = .error (.fault cause level va) →
          ends ((g.postFault handlerMaster cause level va false 0 false).reqDone r 1))
        ∧ (∀ va n, g.read handlerMaster a 64 = .error (.ecc va n) → ends ((g.touch handlerMaster a 64).reqDone r 1)))))
  ∧ (∀ (h : Hw) (i : Nat) (d : List Byte), i < 8 → (h.extend i d).measurement i = (digest (h.measurement i ++ d)).take 64
      ∧ ∀ j < 8, j ≠ i → (h.extend i d).measurement j = h.measurement j)
  ∧ (∀ (s : State), Up s →
    (s.hw.measures = [] ∨ 3 ≤ s.hw.pow.state → exec .measurementExtend s = .next s)
    ∧ (∀ m rest, s.hw.pow.state < 3 → s.hw.measures = m :: rest →
      let image := match m with | .vocab slot gen hd => s.hw.vocabImage slot gen hd | .grammar root => s.hw.grammarImage root
      let reg := match m with | .vocab _ _ _ => 2 | .grammar _ => 3
      (image = none → exec .measurementExtend s = .next s)
      ∧ (∀ g bs, image = some (g, bs) → exec .measurementExtend s = .next { s with
          hw := (({ g with measures := rest }).extend reg (digest bs)).raise 0x005 0 }))
    ∧ (s.hw.attests = [] → exec .reportBuild s = .next s)
    ∧ (∀ x rest, s.hw.attests = x :: rest →
      let wait := 3 ≤ s.hw.pow.state ∨ x.reg.isSome = true ∨ (s.hw.measures ≠ [] ∧ s.hw.time < x.at_ + 50000000)
      let a := s.hw.reqAddr x.who
      let h := s.hw.demandFor handlerMaster a 928
      let ends (k : Hw) (code : Nat) : Prop := exec .reportBuild s = .next { s with
        hw := Hw.serveExtends rest.length (({ k with attests := rest }).reqDone x.who code) }
      (wait → exec .reportBuild s = .next s)
      ∧ (¬ wait → h.read handlerMaster a 32 = .error .wait → exec .reportBuild s = .next s)
      ∧ (∀ cause level va, ¬ wait → h.read handlerMaster a 32 = .error (.fault cause level va) →
        ends (Hw.openRange handlerMaster 3 a 928 (h.postFault handlerMaster cause level va false 0 false)) 1)
      ∧ (∀ nonce, ¬ wait → h.read handlerMaster a 32 = .ok nonce →
        let put := (h.touch handlerMaster a 32).handlerWrite a (s.report nonce)
        (put = none → exec .reportBuild s = .next s) ∧ (∀ g, put = some (g, true) → ends g 0)
        ∧ (∀ g, put = some (g, false) → ends (Hw.openRange handlerMaster 3 a 928 g) 1))))
  ∧ ∀ (s : State) (r : Req) (v : Word), Reaches s r 0x005 0x068 →
    let h := s.hw.wr 0x005 0x068 (v.toNat &&& 2)
    let a := h.rd64 0x005 0x060
    let g := h.demandFor handlerMaster a 178
    let key := if bitOf v.toNat 1 then keyOf s.boot.seed "ZM-AK" s.boot.image else keyOf s.boot.seed "ZM-CFK" []
    let ends (busy : Bool) (k : Hw) : Prop := exec (.sign r v) s = .next { s with hw := k.setBit 0x005 0x068 2 busy }
    (g.read handlerMaster a 64 = .error .wait → ends true h)
    ∧ (∀ cause level va, g.read handlerMaster a 64 = .error (.fault cause level va) →
      ends false (g.postFault handlerMaster cause level va false 0 false))
    ∧ (∀ d, g.read handlerMaster a 64 = .ok d →
      let put := (g.touch handlerMaster a 64).handlerWrite (a + 64) ((Config.edSign key d).take 114)
      (put = none → ends true h) ∧ ∀ k ok, put = some (k, ok) → ends false k)

/-- Reset, boot, recovery, attestation. The keys and signatures are open (log entry 47). -/
def Obligations.ResetAndBoot : Prop := ModuleResets ∧ BootAndRecovery ∧ Attestation

/-- What a command may do to the flash below the lifetime log (R456, R463): in recovery, and by FLASH_ERASE and FLASH_PROGRAM alone, the
image slots change, the sector and the bytes named; no other byte below the log and no other command's. -/
def Obligations.FlashChangesOnlyInRecovery : Prop :=
  ∀ (c : Instr) (s t : State) (o : Nat), exec c s = .next t → o < 0x3100000 → t.boot.byte o ≠ s.boot.byte o →
    o < 0x2000000 ∧ s.serves = true ∧ s.inRecovery = true ∧ Up s
      ∧ ((∃ off, c = .flashErase off ∧ o / 0x10000 = off / 0x10000)
        ∨ (∃ off bytes, c = .flashProgram off bytes ∧ off ≤ o ∧ o < off + bytes.length))

/-! ### Self-test and repair -/

/-- Self-test and repair (R468 to R478, R481). A go is discarded and counted while a run is in progress, refused when its power budget or
its members do not allow it, and otherwise starts the run; an abort starts no later member. The next member starts once budget, ring and
staging space allow it, in Run, which it demands, its bytes saved unless the run is destructive, and a member that is not isolated ends the run. A member that ends is done, its range zeroed where nothing saved it,
with a record for each failing row, which enters the ring while it has room. REPAIR_APPLY is the Handler's, and notes how it went. What a
restore leaves is open (log entries 52 and 53). -/
def Obligations.SelfTestAndRepair : Prop :=
  (∀ (s : State) (r : Req) (v : Word), Reaches s r 0x007 0x040 →
    (s.hw.bist.busy = true →
      exec (.bistGo r v) s = .next { s with hw := s.hw.badAccess (pageOff 0x007 0x040) }
      ∧ exec (.bistAbort r v) s = .next { s with hw := (s.hw.setBist fun b => { b with left := 0, aborted := true }).bistEnd })
    ∧ (s.hw.bist.busy = false → bitOf v.toNat 1 = false → exec (.bistGo r v) s = .next { s with hw := s.hw.bistStart (v ||| 1).toNat })
    ∧ (s.hw.bist.busy = false → exec (.bistAbort r v) s = .next { s with hw := s.hw.wr 0x007 0x040 (v.toNat &&& 0x1C) }))
  ∧ (∀ (h : Hw) (v : Nat), v < 0x100000000 →
    let kind := bitsOf v 3 2
    let first := h.rd 0x007 0x044
    let n := h.rd 0x007 0x048
    let ok := bistPower kind ≤ h.rd 0x007 0x04C ∧ first + n ≤ bistMembers kind
    let k := h.bistStart v
    (¬ ok → k.bist.refused = true ∧ k.bist.busy = false ∧ k.bist.left = 0)
    ∧ (ok → n ≠ 0 → k.bist.busy = true ∧ k.bist.left = n ∧ k.bist.next = first ∧ k.bist.kind = kind ∧ k.bist.destructive = bitOf v 4))
  ∧ (∀ (s : State), Up s →
    let b := s.hw.bist
    let waits : Bool := !s.hw.enabled 0x007 || b.left == 0 || !s.hw.resRoom || decide (s.hw.rd 0x007 0x04C < s.hw.bistPowerNow + bistPower b.kind)
      || (b.kind == 3 && b.running.any fun m => m.index / 384 == b.next / 384) || decide (3 ≤ s.hw.pow.state)
    let size := bistSize b.kind
    let starts (stage : Option Nat) (h : Hw) : Prop := exec .bistMemberStart s = .next { s with hw := h.setBist fun b => { b with
      next := b.next + 1, left := b.left - 1, running := b.running ++ [⟨b.next, stage⟩]
      holds := if size = 0 then b.holds else b.holds ++ [bistRange b.kind b.next] } }
    (waits = true → exec .bistMemberStart s = .next s)
    ∧ (waits = false → s.hw.pow.state ≠ 0 → exec .bistMemberStart s = .next { s with hw := s.hw.demand })
    ∧ (waits = false → s.hw.pow.state = 0 →
      (s.hw.isolated b.kind b.next = false → exec .bistMemberStart s = .next { s with hw := s.hw.bistRefuse })
      ∧ (s.hw.isolated b.kind b.next = true →
        (size = 0 ∨ b.destructive = true → starts none s.hw)
        ∧ (size ≠ 0 → b.destructive = false →
          (s.hw.stagePlace size = none → exec .bistMemberStart s = .next s)
          ∧ ∀ k, s.hw.stagePlace size = some k →
            starts (some k) (s.hw.bistCopy (bistRange b.kind b.next).1 k (bistRange b.kind b.next).2)))))
  ∧ (∀ (s : State) (i : Nat) (fails : List FailRow), Up s →
    (s.hw.bist.running[i]? = none → exec (.bistMemberEnd i fails) s = .next s)
    ∧ (∀ m, s.hw.bist.running[i]? = some m → ∃ k : Hw, exec (.bistMemberEnd i fails) s = .next { s with hw := k }
      ∧ k.bist.running = listDrop s.hw.bist.running i ∧ k.bist.done = min (s.hw.bist.done + 1) 4095
      ∧ k.bist.recs = s.hw.bist.recs ++ fails.mapIdx (s.hw.failBytes s.hw.bist.kind m.index)
      ∧ (bistSize s.hw.bist.kind = 0 → k.mem = s.hw.mem)
      ∧ (bistSize s.hw.bist.kind ≠ 0 → m.stage = none → let x := bistRange s.hw.bist.kind m.index
        (∀ a, x.1 ≤ a → a < x.1 + x.2 → k.byte a = 0) ∧ ∀ a, a < x.1 ∨ x.1 + x.2 ≤ a → k.byte a = s.hw.byte a)))
  ∧ (∀ (s : State), Up s →
    (s.hw.bist.recs = [] ∨ s.hw.resRoom = false → exec .bistRecordWrite s = .next s)
    ∧ (∀ x rest, s.hw.bist.recs = x :: rest → s.hw.resRoom = true → ∃ k : Hw, exec .bistRecordWrite s = .next { s with hw := k }
      ∧ k.bist.recs = rest ∧ k.rd 0x007 0x070 = (s.hw.rd 0x007 0x070 + 1) % 0x100000000
      ∧ k.mem = (s.hw.storeTier (s.hw.tierBase 0x007 0x060 4 + 16 * (s.hw.rd 0x007 0x070 % 2 ^ s.hw.rd 0x007 0x068))
          (x ++ leBytes 4 (s.hw.time % 0x100000000))).mem))
  ∧ ∀ (s : State) (r : Req) (v : Word), Reaches s r 0x007 0x078 →
    let e := (List.range 4).flatMap fun i => leBytes 4 (s.hw.rd 0x007 (0x080 + 4 * i))
    let t := bitsOf (bnum e 0 4) 3 0
    (r ≠ .handler → exec (.repairApply r v) s = .next { s with hw := s.hw.badAccess (pageOff 0x007 0x078) })
    ∧ (r = .handler →
      (∀ h, s.hw.applyRepair e = (h, .refused) → exec (.repairApply r v) s = .next { s with hw := h.wr 0x007 0x07C 2 })
      ∧ (∀ h, s.hw.applyRepair e = (h, .noSpare) → exec (.repairApply r v) s = .next { s with hw := h.wr 0x007 0x07C 1 })
      ∧ (∀ h, s.hw.applyRepair e = (h, .done) → ∃ l, exec (.repairApply r v) s = .next { s with
          hw := { h with life := l }.wr 0x007 0x07C 0 }
        ∧ l = if repairLife t = 0x050 then h.life.bump 0x050 else (h.life.bump 0x050).bump (repairLife t)))
end

