-- ==== Sys2Proof/Laws/Maps.lean ====
section
/-! SUPPORT. The laws of the two kinds of map: what a read gives after a write, and that every operation keeps the canonical form. -/

namespace Sys2Proof.Machine

variable {α : Type}

theorem smGet_smPut_same (d : α) (k : Nat) (v : α) (m : List (Nat × α)) : smGet d k (smPut k v m) = v := by
  induction m with
  | nil => simp [smPut, smGet]
  | cons e t ih =>
    simp only [smPut]
    split
    · simp [smGet]
    · split
      · simp [smGet]
      · simp [smGet, *]

theorem smGet_smPut_other (d : α) {j k : Nat} (hjk : j ≠ k) (v : α) (m : List (Nat × α)) :
    smGet d j (smPut k v m) = smGet d j m := by
  induction m with
  | nil => simp [smPut, smGet, hjk]
  | cons e t ih =>
    simp only [smPut]
    split
    · simp [smGet, hjk]
    · split
      · rename_i h; subst h; simp [smGet, hjk]
      · simp [smGet, ih]

theorem smGet_smDel_same (d : α) (k : Nat) (m : List (Nat × α)) : smGet d k (smDel k m) = d := by
  induction m with
  | nil => rfl
  | cons e t ih =>
    unfold smDel at ih ⊢
    by_cases h : e.1 = k
    · simp [h, ih]
    · simp [h, smGet, ih, Ne.symm h]

theorem smGet_smDel_other (d : α) {j k : Nat} (hjk : j ≠ k) (m : List (Nat × α)) : smGet d j (smDel k m) = smGet d j m := by
  induction m with
  | nil => rfl
  | cons e t ih =>
    unfold smDel at ih ⊢
    by_cases h : e.1 = k
    · subst h; simp [smGet, ih, hjk]
    · simp [h, smGet, ih]

/-- A read after a write of the same key gives the value written. -/
@[simp] theorem smGet_smSet_same [DecidableEq α] (d : α) (k : Nat) (v : α) (m : List (Nat × α)) : smGet d k (smSet d k v m) = v := by
  unfold smSet
  split
  · rename_i h; rw [smGet_smDel_same, h]
  · exact smGet_smPut_same d k v m

/-- A write leaves every other key alone. -/
theorem smGet_smSet_other [DecidableEq α] (d d' : α) {j k : Nat} (hjk : j ≠ k) (v : α) (m : List (Nat × α)) :
    smGet d' j (smSet d k v m) = smGet d' j m := by
  unfold smSet
  split
  · exact smGet_smDel_other d' hjk m
  · exact smGet_smPut_other d' hjk v m

/-! ### The canonical form -/

theorem smWf_mono [DecidableEq α] (d : Nat → α) {lo lo' : Nat} (h : lo' ≤ lo) (m : List (Nat × α)) (hw : smWf d lo m = true) :
    smWf d lo' m = true := by
  cases m with
  | nil => rfl
  | cons e t =>
    obtain ⟨k, v⟩ := e
    simp only [smWf, Bool.and_eq_true, decide_eq_true_eq] at hw ⊢
    exact ⟨⟨by omega, hw.1.2⟩, hw.2⟩

theorem smWf_smPut [DecidableEq α] (d : Nat → α) {k : Nat} {v : α} (hv : v ≠ d k) (m : List (Nat × α)) :
    ∀ lo, lo ≤ k → smWf d lo m = true → smWf d lo (smPut k v m) = true := by
  induction m with
  | nil => intro lo hlo _; simp [smPut, smWf, hlo, hv]
  | cons e t ih =>
    obtain ⟨k', v'⟩ := e
    intro lo hlo hw
    simp only [smWf, Bool.and_eq_true, decide_eq_true_eq] at hw
    simp only [smPut]
    split
    · simp only [smWf, Bool.and_eq_true, decide_eq_true_eq]
      exact ⟨⟨hlo, hv⟩, ⟨⟨by omega, hw.1.2⟩, hw.2⟩⟩
    · split
      · rename_i h; subst h
        simp only [smWf, Bool.and_eq_true, decide_eq_true_eq]
        exact ⟨⟨hlo, hv⟩, hw.2⟩
      · simp only [smWf, Bool.and_eq_true, decide_eq_true_eq]
        exact ⟨hw.1, ih (k' + 1) (by omega) hw.2⟩

theorem smWf_filter [DecidableEq α] (d : Nat → α) (p : Nat × α → Bool) (m : List (Nat × α)) :
    ∀ lo, smWf d lo m = true → smWf d lo (m.filter p) = true := by
  induction m with
  | nil => intro lo _; rfl
  | cons e t ih =>
    obtain ⟨k, v⟩ := e
    intro lo hw
    simp only [smWf, Bool.and_eq_true, decide_eq_true_eq] at hw
    rw [List.filter_cons]
    split
    · simp only [smWf, Bool.and_eq_true, decide_eq_true_eq]
      exact ⟨hw.1, ih (k + 1) hw.2⟩
    · exact smWf_mono d (by omega) _ (ih (k + 1) hw.2)

/-- A write keeps the canonical form. -/
theorem smWf_smSet [DecidableEq α] (d : Nat → α) (k : Nat) (v : α) (m : List (Nat × α)) (hw : smWf d 0 m = true) :
    smWf d 0 (smSet (d k) k v m) = true := by
  unfold smSet
  split
  · exact smWf_filter d _ m 0 hw
  · rename_i h; exact smWf_smPut d h m 0 (Nat.zero_le _) hw

/-! ### Association lists -/

variable {κ : Type} [DecidableEq κ]

@[simp] theorem alGet_alPut_same (k : κ) (v : α) (l : List (κ × α)) : alGet k (alPut k v l) = some v := by
  induction l with
  | nil => simp [alPut, alGet]
  | cons e t ih =>
    simp only [alPut]
    split
    · simp [alGet]
    · simp [alGet, *]

theorem alGet_alPut_other {j k : κ} (hjk : j ≠ k) (v : α) (l : List (κ × α)) : alGet j (alPut k v l) = alGet j l := by
  induction l with
  | nil => simp [alPut, alGet, hjk]
  | cons e t ih =>
    simp only [alPut]
    split
    · rename_i h; subst h; simp [alGet, hjk]
    · simp [alGet, ih]

/-! ### Memory -/

/-- A store keeps the canonical form of memory. -/
theorem memStore_wf (bs : List Byte) : ∀ (k : Nat) (m : List Host.Cell), Memory.wf m = true → Memory.wf (memStore k bs m) = true := by
  induction bs with
  | nil => intro k m h; exact h
  | cons b bs ih => intro k m h; exact ih (k + 1) _ (smWf_smSet Memory.dflt k b m h)

/-- A copy keeps it. -/
theorem memCopy_wf (src dst n : Nat) (m : List Host.Cell) (h : Memory.wf m = true) : Memory.wf (memCopy src dst n m) = true := by
  unfold memCopy
  generalize m.filter (fun c => decide (src ≤ c.1 ∧ c.1 < src + n)) = cs
  have h0 : Memory.wf (m.filter fun c => !decide (dst ≤ c.1 ∧ c.1 < dst + n)) = true := smWf_filter Memory.dflt _ m 0 h
  revert h0
  generalize (m.filter fun c => !decide (dst ≤ c.1 ∧ c.1 < dst + n)) = m0
  induction cs generalizing m0 with
  | nil => intro h0; exact h0
  | cons c cs ih => intro h0; exact ih _ (smWf_smSet Memory.dflt _ _ m0 h0)

/-- A byte outside a store reads as before. -/
theorem memStore_other (bs : List Byte) : ∀ (k j : Nat) (m : List Host.Cell), (j < k ∨ k + bs.length ≤ j) →
    smGet 0 j (memStore k bs m) = smGet 0 j m := by
  induction bs with
  | nil => intro k j m _; rfl
  | cons b bs ih =>
    intro k j m h
    simp only [List.length_cons] at h
    rw [memStore, ih (k + 1) j _ (by omega), smGet_smSet_other _ _ (by omega)]

/-- A stored byte reads as stored. -/
theorem memStore_get (bs : List Byte) : ∀ (k i : Nat) (m : List Host.Cell), i < bs.length →
    smGet 0 (k + i) (memStore k bs m) = bs.getD i 0 := by
  induction bs with
  | nil => intro k i m h; simp at h
  | cons b bs ih =>
    intro k i m h
    cases i with
    | zero => rw [memStore, memStore_other bs (k + 1) (k + 0) _ (by omega)]; simp
    | succ i =>
      simp only [List.length_cons] at h
      rw [memStore, show k + (i + 1) = (k + 1) + i by omega, ih (k + 1) i _ (by omega)]
      simp

end Sys2Proof.Machine
end

