-- ==== Sys2Proof/Laws/State.lean ====
section
/-! SUPPORT. One lemma per field and update of the state: what the plain updates leave alone. -/

namespace Sys2Proof.Machine

/-! `Hw.setReg` -/

@[simp] theorem Hw.setReg_mem (h : Hw) (off : Nat) (v : Word) (b : Nat) : (h.setReg off v b).mem = h.mem := rfl
@[simp] theorem Hw.setReg_poison (h : Hw) (off : Nat) (v : Word) (b : Nat) : (h.setReg off v b).poison = h.poison := rfl
@[simp] theorem Hw.setReg_upsets (h : Hw) (off : Nat) (v : Word) (b : Nat) : (h.setReg off v b).upsets = h.upsets := rfl
@[simp] theorem Hw.setReg_flips (h : Hw) (off : Nat) (v : Word) (b : Nat) : (h.setReg off v b).flips = h.flips := rfl
@[simp] theorem Hw.setReg_scrubAt (h : Hw) (off : Nat) (v : Word) (b : Nat) : (h.setReg off v b).scrubAt = h.scrubAt := rfl
@[simp] theorem Hw.setReg_temps (h : Hw) (off : Nat) (v : Word) (b : Nat) : (h.setReg off v b).temps = h.temps := rfl
@[simp] theorem Hw.setReg_time (h : Hw) (off : Nat) (v : Word) (b : Nat) : (h.setReg off v b).time = h.time := rfl
@[simp] theorem Hw.setReg_freeCtr (h : Hw) (off : Nat) (v : Word) (b : Nat) : (h.setReg off v b).freeCtr = h.freeCtr := rfl
@[simp] theorem Hw.setReg_out (h : Hw) (off : Nat) (v : Word) (b : Nat) : (h.setReg off v b).out = h.out := rfl
@[simp] theorem Hw.setReg_accA (h : Hw) (off : Nat) (v : Word) (b : Nat) : (h.setReg off v b).accA = h.accA := rfl
@[simp] theorem Hw.setReg_accB (h : Hw) (off : Nat) (v : Word) (b : Nat) : (h.setReg off v b).accB = h.accB := rfl
@[simp] theorem Hw.setReg_accH (h : Hw) (off : Nat) (v : Word) (b : Nat) : (h.setReg off v b).accH = h.accH := rfl
@[simp] theorem Hw.setReg_queues (h : Hw) (off : Nat) (v : Word) (b : Nat) : (h.setReg off v b).queues = h.queues := rfl
@[simp] theorem Hw.setReg_granted (h : Hw) (off : Nat) (v : Word) (b : Nat) : (h.setReg off v b).granted = h.granted := rfl
@[simp] theorem Hw.setReg_groups (h : Hw) (off : Nat) (v : Word) (b : Nat) : (h.setReg off v b).groups = h.groups := rfl
@[simp] theorem Hw.setReg_tagged (h : Hw) (off : Nat) (v : Word) (b : Nat) : (h.setReg off v b).tagged = h.tagged := rfl
@[simp] theorem Hw.setReg_probes (h : Hw) (off : Nat) (v : Word) (b : Nat) : (h.setReg off v b).probes = h.probes := rfl
@[simp] theorem Hw.setReg_dma (h : Hw) (off : Nat) (v : Word) (b : Nat) : (h.setReg off v b).dma = h.dma := rfl
@[simp] theorem Hw.setReg_dmaLast (h : Hw) (off : Nat) (v : Word) (b : Nat) : (h.setReg off v b).dmaLast = h.dmaLast := rfl
@[simp] theorem Hw.setReg_dmaAsks (h : Hw) (off : Nat) (v : Word) (b : Nat) : (h.setReg off v b).dmaAsks = h.dmaAsks := rfl
@[simp] theorem Hw.setReg_portQ (h : Hw) (off : Nat) (v : Word) (b : Nat) : (h.setReg off v b).portQ = h.portQ := rfl
@[simp] theorem Hw.setReg_leashQ (h : Hw) (off : Nat) (v : Word) (b : Nat) : (h.setReg off v b).leashQ = h.leashQ := rfl
@[simp] theorem Hw.setReg_landed (h : Hw) (off : Nat) (v : Word) (b : Nat) : (h.setReg off v b).landed = h.landed := rfl
@[simp] theorem Hw.setReg_landing (h : Hw) (off : Nat) (v : Word) (b : Nat) : (h.setReg off v b).landing = h.landing := rfl
@[simp] theorem Hw.setReg_mmu (h : Hw) (off : Nat) (v : Word) (b : Nat) : (h.setReg off v b).mmu = h.mmu := rfl
@[simp] theorem Hw.setReg_mig (h : Hw) (off : Nat) (v : Word) (b : Nat) : (h.setReg off v b).mig = h.mig := rfl
@[simp] theorem Hw.setReg_sfu (h : Hw) (off : Nat) (v : Word) (b : Nat) : (h.setReg off v b).sfu = h.sfu := rfl
@[simp] theorem Hw.setReg_vocs (h : Hw) (off : Nat) (v : Word) (b : Nat) : (h.setReg off v b).vocs = h.vocs := rfl
@[simp] theorem Hw.setReg_tbls (h : Hw) (off : Nat) (v : Word) (b : Nat) : (h.setReg off v b).tbls = h.tbls := rfl
@[simp] theorem Hw.setReg_frees (h : Hw) (off : Nat) (v : Word) (b : Nat) : (h.setReg off v b).frees = h.frees := rfl
@[simp] theorem Hw.setReg_tblSerial (h : Hw) (off : Nat) (v : Word) (b : Nat) : (h.setReg off v b).tblSerial = h.tblSerial := rfl
@[simp] theorem Hw.setReg_gathers (h : Hw) (off : Nat) (v : Word) (b : Nat) : (h.setReg off v b).gathers = h.gathers := rfl
@[simp] theorem Hw.setReg_exch (h : Hw) (off : Nat) (v : Word) (b : Nat) : (h.setReg off v b).exch = h.exch := rfl
@[simp] theorem Hw.setReg_fwd (h : Hw) (off : Nat) (v : Word) (b : Nat) : (h.setReg off v b).fwd = h.fwd := rfl
@[simp] theorem Hw.setReg_embSeq (h : Hw) (off : Nat) (v : Word) (b : Nat) : (h.setReg off v b).embSeq = h.embSeq := rfl
@[simp] theorem Hw.setReg_idxs (h : Hw) (off : Nat) (v : Word) (b : Nat) : (h.setReg off v b).idxs = h.idxs := rfl
@[simp] theorem Hw.setReg_cbTag (h : Hw) (off : Nat) (v : Word) (b : Nat) : (h.setReg off v b).cbTag = h.cbTag := rfl
@[simp] theorem Hw.setReg_srv (h : Hw) (off : Nat) (v : Word) (b : Nat) : (h.setReg off v b).srv = h.srv := rfl
@[simp] theorem Hw.setReg_muzCtx (h : Hw) (off : Nat) (v : Word) (b : Nat) : (h.setReg off v b).muzCtx = h.muzCtx := rfl
@[simp] theorem Hw.setReg_changes (h : Hw) (off : Nat) (v : Word) (b : Nat) : (h.setReg off v b).changes = h.changes := rfl
@[simp] theorem Hw.setReg_streams (h : Hw) (off : Nat) (v : Word) (b : Nat) : (h.setReg off v b).streams = h.streams := rfl
@[simp] theorem Hw.setReg_measures (h : Hw) (off : Nat) (v : Word) (b : Nat) : (h.setReg off v b).measures = h.measures := rfl
@[simp] theorem Hw.setReg_measured (h : Hw) (off : Nat) (v : Word) (b : Nat) : (h.setReg off v b).measured = h.measured := rfl
@[simp] theorem Hw.setReg_fused (h : Hw) (off : Nat) (v : Word) (b : Nat) : (h.setReg off v b).fused = h.fused := rfl
@[simp] theorem Hw.setReg_resetting (h : Hw) (off : Nat) (v : Word) (b : Nat) : (h.setReg off v b).resetting = h.resetting := rfl
@[simp] theorem Hw.setReg_stepHeld (h : Hw) (off : Nat) (v : Word) (b : Nat) : (h.setReg off v b).stepHeld = h.stepHeld := rfl
@[simp] theorem Hw.setReg_trc (h : Hw) (off : Nat) (v : Word) (b : Nat) : (h.setReg off v b).trc = h.trc := rfl
@[simp] theorem Hw.setReg_pcieBif (h : Hw) (off : Nat) (v : Word) (b : Nat) : (h.setReg off v b).pcieBif = h.pcieBif := rfl
@[simp] theorem Hw.setReg_pcieA (h : Hw) (off : Nat) (v : Word) (b : Nat) : (h.setReg off v b).pcieA = h.pcieA := rfl
@[simp] theorem Hw.setReg_pcieB (h : Hw) (off : Nat) (v : Word) (b : Nat) : (h.setReg off v b).pcieB = h.pcieB := rfl
@[simp] theorem Hw.setReg_pow (h : Hw) (off : Nat) (v : Word) (b : Nat) : (h.setReg off v b).pow = h.pow := rfl
@[simp] theorem Hw.setReg_attests (h : Hw) (off : Nat) (v : Word) (b : Nat) : (h.setReg off v b).attests = h.attests := rfl
@[simp] theorem Hw.setReg_retires (h : Hw) (off : Nat) (v : Word) (b : Nat) : (h.setReg off v b).retires = h.retires := rfl
@[simp] theorem Hw.setReg_bist (h : Hw) (off : Nat) (v : Word) (b : Nat) : (h.setReg off v b).bist = h.bist := rfl
@[simp] theorem Hw.setReg_life (h : Hw) (off : Nat) (v : Word) (b : Nat) : (h.setReg off v b).life = h.life := rfl
@[simp] theorem Hw.setReg_ports (h : Hw) (off : Nat) (v : Word) (b : Nat) : (h.setReg off v b).ports = h.ports := rfl
@[simp] theorem Hw.setReg_pair (h : Hw) (off : Nat) (v : Word) (b : Nat) : (h.setReg off v b).pair = h.pair := rfl
@[simp] theorem Hw.setReg_remoteOut (h : Hw) (off : Nat) (v : Word) (b : Nat) : (h.setReg off v b).remoteOut = h.remoteOut := rfl

/-! `Hw.wr` -/

@[simp] theorem Hw.wr_mem (h : Hw) (p o v b : Nat) : (h.wr p o v b).mem = h.mem := rfl
@[simp] theorem Hw.wr_poison (h : Hw) (p o v b : Nat) : (h.wr p o v b).poison = h.poison := rfl
@[simp] theorem Hw.wr_upsets (h : Hw) (p o v b : Nat) : (h.wr p o v b).upsets = h.upsets := rfl
@[simp] theorem Hw.wr_flips (h : Hw) (p o v b : Nat) : (h.wr p o v b).flips = h.flips := rfl
@[simp] theorem Hw.wr_scrubAt (h : Hw) (p o v b : Nat) : (h.wr p o v b).scrubAt = h.scrubAt := rfl
@[simp] theorem Hw.wr_temps (h : Hw) (p o v b : Nat) : (h.wr p o v b).temps = h.temps := rfl
@[simp] theorem Hw.wr_time (h : Hw) (p o v b : Nat) : (h.wr p o v b).time = h.time := rfl
@[simp] theorem Hw.wr_freeCtr (h : Hw) (p o v b : Nat) : (h.wr p o v b).freeCtr = h.freeCtr := rfl
@[simp] theorem Hw.wr_out (h : Hw) (p o v b : Nat) : (h.wr p o v b).out = h.out := rfl
@[simp] theorem Hw.wr_accA (h : Hw) (p o v b : Nat) : (h.wr p o v b).accA = h.accA := rfl
@[simp] theorem Hw.wr_accB (h : Hw) (p o v b : Nat) : (h.wr p o v b).accB = h.accB := rfl
@[simp] theorem Hw.wr_accH (h : Hw) (p o v b : Nat) : (h.wr p o v b).accH = h.accH := rfl
@[simp] theorem Hw.wr_queues (h : Hw) (p o v b : Nat) : (h.wr p o v b).queues = h.queues := rfl
@[simp] theorem Hw.wr_granted (h : Hw) (p o v b : Nat) : (h.wr p o v b).granted = h.granted := rfl
@[simp] theorem Hw.wr_groups (h : Hw) (p o v b : Nat) : (h.wr p o v b).groups = h.groups := rfl
@[simp] theorem Hw.wr_tagged (h : Hw) (p o v b : Nat) : (h.wr p o v b).tagged = h.tagged := rfl
@[simp] theorem Hw.wr_probes (h : Hw) (p o v b : Nat) : (h.wr p o v b).probes = h.probes := rfl
@[simp] theorem Hw.wr_dma (h : Hw) (p o v b : Nat) : (h.wr p o v b).dma = h.dma := rfl
@[simp] theorem Hw.wr_dmaLast (h : Hw) (p o v b : Nat) : (h.wr p o v b).dmaLast = h.dmaLast := rfl
@[simp] theorem Hw.wr_dmaAsks (h : Hw) (p o v b : Nat) : (h.wr p o v b).dmaAsks = h.dmaAsks := rfl
@[simp] theorem Hw.wr_portQ (h : Hw) (p o v b : Nat) : (h.wr p o v b).portQ = h.portQ := rfl
@[simp] theorem Hw.wr_leashQ (h : Hw) (p o v b : Nat) : (h.wr p o v b).leashQ = h.leashQ := rfl
@[simp] theorem Hw.wr_landed (h : Hw) (p o v b : Nat) : (h.wr p o v b).landed = h.landed := rfl
@[simp] theorem Hw.wr_landing (h : Hw) (p o v b : Nat) : (h.wr p o v b).landing = h.landing := rfl
@[simp] theorem Hw.wr_mmu (h : Hw) (p o v b : Nat) : (h.wr p o v b).mmu = h.mmu := rfl
@[simp] theorem Hw.wr_mig (h : Hw) (p o v b : Nat) : (h.wr p o v b).mig = h.mig := rfl
@[simp] theorem Hw.wr_sfu (h : Hw) (p o v b : Nat) : (h.wr p o v b).sfu = h.sfu := rfl
@[simp] theorem Hw.wr_vocs (h : Hw) (p o v b : Nat) : (h.wr p o v b).vocs = h.vocs := rfl
@[simp] theorem Hw.wr_tbls (h : Hw) (p o v b : Nat) : (h.wr p o v b).tbls = h.tbls := rfl
@[simp] theorem Hw.wr_frees (h : Hw) (p o v b : Nat) : (h.wr p o v b).frees = h.frees := rfl
@[simp] theorem Hw.wr_tblSerial (h : Hw) (p o v b : Nat) : (h.wr p o v b).tblSerial = h.tblSerial := rfl
@[simp] theorem Hw.wr_gathers (h : Hw) (p o v b : Nat) : (h.wr p o v b).gathers = h.gathers := rfl
@[simp] theorem Hw.wr_exch (h : Hw) (p o v b : Nat) : (h.wr p o v b).exch = h.exch := rfl
@[simp] theorem Hw.wr_fwd (h : Hw) (p o v b : Nat) : (h.wr p o v b).fwd = h.fwd := rfl
@[simp] theorem Hw.wr_embSeq (h : Hw) (p o v b : Nat) : (h.wr p o v b).embSeq = h.embSeq := rfl
@[simp] theorem Hw.wr_idxs (h : Hw) (p o v b : Nat) : (h.wr p o v b).idxs = h.idxs := rfl
@[simp] theorem Hw.wr_cbTag (h : Hw) (p o v b : Nat) : (h.wr p o v b).cbTag = h.cbTag := rfl
@[simp] theorem Hw.wr_srv (h : Hw) (p o v b : Nat) : (h.wr p o v b).srv = h.srv := rfl
@[simp] theorem Hw.wr_muzCtx (h : Hw) (p o v b : Nat) : (h.wr p o v b).muzCtx = h.muzCtx := rfl
@[simp] theorem Hw.wr_changes (h : Hw) (p o v b : Nat) : (h.wr p o v b).changes = h.changes := rfl
@[simp] theorem Hw.wr_streams (h : Hw) (p o v b : Nat) : (h.wr p o v b).streams = h.streams := rfl
@[simp] theorem Hw.wr_measures (h : Hw) (p o v b : Nat) : (h.wr p o v b).measures = h.measures := rfl
@[simp] theorem Hw.wr_measured (h : Hw) (p o v b : Nat) : (h.wr p o v b).measured = h.measured := rfl
@[simp] theorem Hw.wr_fused (h : Hw) (p o v b : Nat) : (h.wr p o v b).fused = h.fused := rfl
@[simp] theorem Hw.wr_resetting (h : Hw) (p o v b : Nat) : (h.wr p o v b).resetting = h.resetting := rfl
@[simp] theorem Hw.wr_stepHeld (h : Hw) (p o v b : Nat) : (h.wr p o v b).stepHeld = h.stepHeld := rfl
@[simp] theorem Hw.wr_trc (h : Hw) (p o v b : Nat) : (h.wr p o v b).trc = h.trc := rfl
@[simp] theorem Hw.wr_pcieBif (h : Hw) (p o v b : Nat) : (h.wr p o v b).pcieBif = h.pcieBif := rfl
@[simp] theorem Hw.wr_pcieA (h : Hw) (p o v b : Nat) : (h.wr p o v b).pcieA = h.pcieA := rfl
@[simp] theorem Hw.wr_pcieB (h : Hw) (p o v b : Nat) : (h.wr p o v b).pcieB = h.pcieB := rfl
@[simp] theorem Hw.wr_pow (h : Hw) (p o v b : Nat) : (h.wr p o v b).pow = h.pow := rfl
@[simp] theorem Hw.wr_attests (h : Hw) (p o v b : Nat) : (h.wr p o v b).attests = h.attests := rfl
@[simp] theorem Hw.wr_retires (h : Hw) (p o v b : Nat) : (h.wr p o v b).retires = h.retires := rfl
@[simp] theorem Hw.wr_bist (h : Hw) (p o v b : Nat) : (h.wr p o v b).bist = h.bist := rfl
@[simp] theorem Hw.wr_life (h : Hw) (p o v b : Nat) : (h.wr p o v b).life = h.life := rfl
@[simp] theorem Hw.wr_ports (h : Hw) (p o v b : Nat) : (h.wr p o v b).ports = h.ports := rfl
@[simp] theorem Hw.wr_pair (h : Hw) (p o v b : Nat) : (h.wr p o v b).pair = h.pair := rfl
@[simp] theorem Hw.wr_remoteOut (h : Hw) (p o v b : Nat) : (h.wr p o v b).remoteOut = h.remoteOut := rfl

/-! `Hw.setBit` -/

@[simp] theorem Hw.setBit_mem (h : Hw) (p o n : Nat) (b : Bool) : (h.setBit p o n b).mem = h.mem := rfl
@[simp] theorem Hw.setBit_poison (h : Hw) (p o n : Nat) (b : Bool) : (h.setBit p o n b).poison = h.poison := rfl
@[simp] theorem Hw.setBit_upsets (h : Hw) (p o n : Nat) (b : Bool) : (h.setBit p o n b).upsets = h.upsets := rfl
@[simp] theorem Hw.setBit_flips (h : Hw) (p o n : Nat) (b : Bool) : (h.setBit p o n b).flips = h.flips := rfl
@[simp] theorem Hw.setBit_scrubAt (h : Hw) (p o n : Nat) (b : Bool) : (h.setBit p o n b).scrubAt = h.scrubAt := rfl
@[simp] theorem Hw.setBit_temps (h : Hw) (p o n : Nat) (b : Bool) : (h.setBit p o n b).temps = h.temps := rfl
@[simp] theorem Hw.setBit_time (h : Hw) (p o n : Nat) (b : Bool) : (h.setBit p o n b).time = h.time := rfl
@[simp] theorem Hw.setBit_freeCtr (h : Hw) (p o n : Nat) (b : Bool) : (h.setBit p o n b).freeCtr = h.freeCtr := rfl
@[simp] theorem Hw.setBit_out (h : Hw) (p o n : Nat) (b : Bool) : (h.setBit p o n b).out = h.out := rfl
@[simp] theorem Hw.setBit_accA (h : Hw) (p o n : Nat) (b : Bool) : (h.setBit p o n b).accA = h.accA := rfl
@[simp] theorem Hw.setBit_accB (h : Hw) (p o n : Nat) (b : Bool) : (h.setBit p o n b).accB = h.accB := rfl
@[simp] theorem Hw.setBit_accH (h : Hw) (p o n : Nat) (b : Bool) : (h.setBit p o n b).accH = h.accH := rfl
@[simp] theorem Hw.setBit_queues (h : Hw) (p o n : Nat) (b : Bool) : (h.setBit p o n b).queues = h.queues := rfl
@[simp] theorem Hw.setBit_granted (h : Hw) (p o n : Nat) (b : Bool) : (h.setBit p o n b).granted = h.granted := rfl
@[simp] theorem Hw.setBit_groups (h : Hw) (p o n : Nat) (b : Bool) : (h.setBit p o n b).groups = h.groups := rfl
@[simp] theorem Hw.setBit_tagged (h : Hw) (p o n : Nat) (b : Bool) : (h.setBit p o n b).tagged = h.tagged := rfl
@[simp] theorem Hw.setBit_probes (h : Hw) (p o n : Nat) (b : Bool) : (h.setBit p o n b).probes = h.probes := rfl
@[simp] theorem Hw.setBit_dma (h : Hw) (p o n : Nat) (b : Bool) : (h.setBit p o n b).dma = h.dma := rfl
@[simp] theorem Hw.setBit_dmaLast (h : Hw) (p o n : Nat) (b : Bool) : (h.setBit p o n b).dmaLast = h.dmaLast := rfl
@[simp] theorem Hw.setBit_dmaAsks (h : Hw) (p o n : Nat) (b : Bool) : (h.setBit p o n b).dmaAsks = h.dmaAsks := rfl
@[simp] theorem Hw.setBit_portQ (h : Hw) (p o n : Nat) (b : Bool) : (h.setBit p o n b).portQ = h.portQ := rfl
@[simp] theorem Hw.setBit_leashQ (h : Hw) (p o n : Nat) (b : Bool) : (h.setBit p o n b).leashQ = h.leashQ := rfl
@[simp] theorem Hw.setBit_landed (h : Hw) (p o n : Nat) (b : Bool) : (h.setBit p o n b).landed = h.landed := rfl
@[simp] theorem Hw.setBit_landing (h : Hw) (p o n : Nat) (b : Bool) : (h.setBit p o n b).landing = h.landing := rfl
@[simp] theorem Hw.setBit_mmu (h : Hw) (p o n : Nat) (b : Bool) : (h.setBit p o n b).mmu = h.mmu := rfl
@[simp] theorem Hw.setBit_mig (h : Hw) (p o n : Nat) (b : Bool) : (h.setBit p o n b).mig = h.mig := rfl
@[simp] theorem Hw.setBit_sfu (h : Hw) (p o n : Nat) (b : Bool) : (h.setBit p o n b).sfu = h.sfu := rfl
@[simp] theorem Hw.setBit_vocs (h : Hw) (p o n : Nat) (b : Bool) : (h.setBit p o n b).vocs = h.vocs := rfl
@[simp] theorem Hw.setBit_tbls (h : Hw) (p o n : Nat) (b : Bool) : (h.setBit p o n b).tbls = h.tbls := rfl
@[simp] theorem Hw.setBit_frees (h : Hw) (p o n : Nat) (b : Bool) : (h.setBit p o n b).frees = h.frees := rfl
@[simp] theorem Hw.setBit_tblSerial (h : Hw) (p o n : Nat) (b : Bool) : (h.setBit p o n b).tblSerial = h.tblSerial := rfl
@[simp] theorem Hw.setBit_gathers (h : Hw) (p o n : Nat) (b : Bool) : (h.setBit p o n b).gathers = h.gathers := rfl
@[simp] theorem Hw.setBit_exch (h : Hw) (p o n : Nat) (b : Bool) : (h.setBit p o n b).exch = h.exch := rfl
@[simp] theorem Hw.setBit_fwd (h : Hw) (p o n : Nat) (b : Bool) : (h.setBit p o n b).fwd = h.fwd := rfl
@[simp] theorem Hw.setBit_embSeq (h : Hw) (p o n : Nat) (b : Bool) : (h.setBit p o n b).embSeq = h.embSeq := rfl
@[simp] theorem Hw.setBit_idxs (h : Hw) (p o n : Nat) (b : Bool) : (h.setBit p o n b).idxs = h.idxs := rfl
@[simp] theorem Hw.setBit_cbTag (h : Hw) (p o n : Nat) (b : Bool) : (h.setBit p o n b).cbTag = h.cbTag := rfl
@[simp] theorem Hw.setBit_srv (h : Hw) (p o n : Nat) (b : Bool) : (h.setBit p o n b).srv = h.srv := rfl
@[simp] theorem Hw.setBit_muzCtx (h : Hw) (p o n : Nat) (b : Bool) : (h.setBit p o n b).muzCtx = h.muzCtx := rfl
@[simp] theorem Hw.setBit_changes (h : Hw) (p o n : Nat) (b : Bool) : (h.setBit p o n b).changes = h.changes := rfl
@[simp] theorem Hw.setBit_streams (h : Hw) (p o n : Nat) (b : Bool) : (h.setBit p o n b).streams = h.streams := rfl
@[simp] theorem Hw.setBit_measures (h : Hw) (p o n : Nat) (b : Bool) : (h.setBit p o n b).measures = h.measures := rfl
@[simp] theorem Hw.setBit_measured (h : Hw) (p o n : Nat) (b : Bool) : (h.setBit p o n b).measured = h.measured := rfl
@[simp] theorem Hw.setBit_fused (h : Hw) (p o n : Nat) (b : Bool) : (h.setBit p o n b).fused = h.fused := rfl
@[simp] theorem Hw.setBit_resetting (h : Hw) (p o n : Nat) (b : Bool) : (h.setBit p o n b).resetting = h.resetting := rfl
@[simp] theorem Hw.setBit_stepHeld (h : Hw) (p o n : Nat) (b : Bool) : (h.setBit p o n b).stepHeld = h.stepHeld := rfl
@[simp] theorem Hw.setBit_trc (h : Hw) (p o n : Nat) (b : Bool) : (h.setBit p o n b).trc = h.trc := rfl
@[simp] theorem Hw.setBit_pcieBif (h : Hw) (p o n : Nat) (b : Bool) : (h.setBit p o n b).pcieBif = h.pcieBif := rfl
@[simp] theorem Hw.setBit_pcieA (h : Hw) (p o n : Nat) (b : Bool) : (h.setBit p o n b).pcieA = h.pcieA := rfl
@[simp] theorem Hw.setBit_pcieB (h : Hw) (p o n : Nat) (b : Bool) : (h.setBit p o n b).pcieB = h.pcieB := rfl
@[simp] theorem Hw.setBit_pow (h : Hw) (p o n : Nat) (b : Bool) : (h.setBit p o n b).pow = h.pow := rfl
@[simp] theorem Hw.setBit_attests (h : Hw) (p o n : Nat) (b : Bool) : (h.setBit p o n b).attests = h.attests := rfl
@[simp] theorem Hw.setBit_retires (h : Hw) (p o n : Nat) (b : Bool) : (h.setBit p o n b).retires = h.retires := rfl
@[simp] theorem Hw.setBit_bist (h : Hw) (p o n : Nat) (b : Bool) : (h.setBit p o n b).bist = h.bist := rfl
@[simp] theorem Hw.setBit_life (h : Hw) (p o n : Nat) (b : Bool) : (h.setBit p o n b).life = h.life := rfl
@[simp] theorem Hw.setBit_ports (h : Hw) (p o n : Nat) (b : Bool) : (h.setBit p o n b).ports = h.ports := rfl
@[simp] theorem Hw.setBit_pair (h : Hw) (p o n : Nat) (b : Bool) : (h.setBit p o n b).pair = h.pair := rfl
@[simp] theorem Hw.setBit_remoteOut (h : Hw) (p o n : Nat) (b : Bool) : (h.setBit p o n b).remoteOut = h.remoteOut := rfl

/-! `Hw.count` -/

@[simp] theorem Hw.count_mem (h : Hw) (p o n : Nat) : (h.count p o n).mem = h.mem := rfl
@[simp] theorem Hw.count_poison (h : Hw) (p o n : Nat) : (h.count p o n).poison = h.poison := rfl
@[simp] theorem Hw.count_upsets (h : Hw) (p o n : Nat) : (h.count p o n).upsets = h.upsets := rfl
@[simp] theorem Hw.count_flips (h : Hw) (p o n : Nat) : (h.count p o n).flips = h.flips := rfl
@[simp] theorem Hw.count_scrubAt (h : Hw) (p o n : Nat) : (h.count p o n).scrubAt = h.scrubAt := rfl
@[simp] theorem Hw.count_temps (h : Hw) (p o n : Nat) : (h.count p o n).temps = h.temps := rfl
@[simp] theorem Hw.count_time (h : Hw) (p o n : Nat) : (h.count p o n).time = h.time := rfl
@[simp] theorem Hw.count_freeCtr (h : Hw) (p o n : Nat) : (h.count p o n).freeCtr = h.freeCtr := rfl
@[simp] theorem Hw.count_out (h : Hw) (p o n : Nat) : (h.count p o n).out = h.out := rfl
@[simp] theorem Hw.count_accA (h : Hw) (p o n : Nat) : (h.count p o n).accA = h.accA := rfl
@[simp] theorem Hw.count_accB (h : Hw) (p o n : Nat) : (h.count p o n).accB = h.accB := rfl
@[simp] theorem Hw.count_accH (h : Hw) (p o n : Nat) : (h.count p o n).accH = h.accH := rfl
@[simp] theorem Hw.count_queues (h : Hw) (p o n : Nat) : (h.count p o n).queues = h.queues := rfl
@[simp] theorem Hw.count_granted (h : Hw) (p o n : Nat) : (h.count p o n).granted = h.granted := rfl
@[simp] theorem Hw.count_groups (h : Hw) (p o n : Nat) : (h.count p o n).groups = h.groups := rfl
@[simp] theorem Hw.count_tagged (h : Hw) (p o n : Nat) : (h.count p o n).tagged = h.tagged := rfl
@[simp] theorem Hw.count_probes (h : Hw) (p o n : Nat) : (h.count p o n).probes = h.probes := rfl
@[simp] theorem Hw.count_dma (h : Hw) (p o n : Nat) : (h.count p o n).dma = h.dma := rfl
@[simp] theorem Hw.count_dmaLast (h : Hw) (p o n : Nat) : (h.count p o n).dmaLast = h.dmaLast := rfl
@[simp] theorem Hw.count_dmaAsks (h : Hw) (p o n : Nat) : (h.count p o n).dmaAsks = h.dmaAsks := rfl
@[simp] theorem Hw.count_portQ (h : Hw) (p o n : Nat) : (h.count p o n).portQ = h.portQ := rfl
@[simp] theorem Hw.count_leashQ (h : Hw) (p o n : Nat) : (h.count p o n).leashQ = h.leashQ := rfl
@[simp] theorem Hw.count_landed (h : Hw) (p o n : Nat) : (h.count p o n).landed = h.landed := rfl
@[simp] theorem Hw.count_landing (h : Hw) (p o n : Nat) : (h.count p o n).landing = h.landing := rfl
@[simp] theorem Hw.count_mmu (h : Hw) (p o n : Nat) : (h.count p o n).mmu = h.mmu := rfl
@[simp] theorem Hw.count_mig (h : Hw) (p o n : Nat) : (h.count p o n).mig = h.mig := rfl
@[simp] theorem Hw.count_sfu (h : Hw) (p o n : Nat) : (h.count p o n).sfu = h.sfu := rfl
@[simp] theorem Hw.count_vocs (h : Hw) (p o n : Nat) : (h.count p o n).vocs = h.vocs := rfl
@[simp] theorem Hw.count_tbls (h : Hw) (p o n : Nat) : (h.count p o n).tbls = h.tbls := rfl
@[simp] theorem Hw.count_frees (h : Hw) (p o n : Nat) : (h.count p o n).frees = h.frees := rfl
@[simp] theorem Hw.count_tblSerial (h : Hw) (p o n : Nat) : (h.count p o n).tblSerial = h.tblSerial := rfl
@[simp] theorem Hw.count_gathers (h : Hw) (p o n : Nat) : (h.count p o n).gathers = h.gathers := rfl
@[simp] theorem Hw.count_exch (h : Hw) (p o n : Nat) : (h.count p o n).exch = h.exch := rfl
@[simp] theorem Hw.count_fwd (h : Hw) (p o n : Nat) : (h.count p o n).fwd = h.fwd := rfl
@[simp] theorem Hw.count_embSeq (h : Hw) (p o n : Nat) : (h.count p o n).embSeq = h.embSeq := rfl
@[simp] theorem Hw.count_idxs (h : Hw) (p o n : Nat) : (h.count p o n).idxs = h.idxs := rfl
@[simp] theorem Hw.count_cbTag (h : Hw) (p o n : Nat) : (h.count p o n).cbTag = h.cbTag := rfl
@[simp] theorem Hw.count_srv (h : Hw) (p o n : Nat) : (h.count p o n).srv = h.srv := rfl
@[simp] theorem Hw.count_muzCtx (h : Hw) (p o n : Nat) : (h.count p o n).muzCtx = h.muzCtx := rfl
@[simp] theorem Hw.count_changes (h : Hw) (p o n : Nat) : (h.count p o n).changes = h.changes := rfl
@[simp] theorem Hw.count_streams (h : Hw) (p o n : Nat) : (h.count p o n).streams = h.streams := rfl
@[simp] theorem Hw.count_measures (h : Hw) (p o n : Nat) : (h.count p o n).measures = h.measures := rfl
@[simp] theorem Hw.count_measured (h : Hw) (p o n : Nat) : (h.count p o n).measured = h.measured := rfl
@[simp] theorem Hw.count_fused (h : Hw) (p o n : Nat) : (h.count p o n).fused = h.fused := rfl
@[simp] theorem Hw.count_resetting (h : Hw) (p o n : Nat) : (h.count p o n).resetting = h.resetting := rfl
@[simp] theorem Hw.count_stepHeld (h : Hw) (p o n : Nat) : (h.count p o n).stepHeld = h.stepHeld := rfl
@[simp] theorem Hw.count_trc (h : Hw) (p o n : Nat) : (h.count p o n).trc = h.trc := rfl
@[simp] theorem Hw.count_pcieBif (h : Hw) (p o n : Nat) : (h.count p o n).pcieBif = h.pcieBif := rfl
@[simp] theorem Hw.count_pcieA (h : Hw) (p o n : Nat) : (h.count p o n).pcieA = h.pcieA := rfl
@[simp] theorem Hw.count_pcieB (h : Hw) (p o n : Nat) : (h.count p o n).pcieB = h.pcieB := rfl
@[simp] theorem Hw.count_pow (h : Hw) (p o n : Nat) : (h.count p o n).pow = h.pow := rfl
@[simp] theorem Hw.count_attests (h : Hw) (p o n : Nat) : (h.count p o n).attests = h.attests := rfl
@[simp] theorem Hw.count_retires (h : Hw) (p o n : Nat) : (h.count p o n).retires = h.retires := rfl
@[simp] theorem Hw.count_bist (h : Hw) (p o n : Nat) : (h.count p o n).bist = h.bist := rfl
@[simp] theorem Hw.count_life (h : Hw) (p o n : Nat) : (h.count p o n).life = h.life := rfl
@[simp] theorem Hw.count_ports (h : Hw) (p o n : Nat) : (h.count p o n).ports = h.ports := rfl
@[simp] theorem Hw.count_pair (h : Hw) (p o n : Nat) : (h.count p o n).pair = h.pair := rfl
@[simp] theorem Hw.count_remoteOut (h : Hw) (p o n : Nat) : (h.count p o n).remoteOut = h.remoteOut := rfl

/-! `Hw.setQs` -/

@[simp] theorem Hw.setQs_regs (h : Hw) (id : QId) (q : QState) : (h.setQs id q).regs = h.regs := rfl
@[simp] theorem Hw.setQs_mem (h : Hw) (id : QId) (q : QState) : (h.setQs id q).mem = h.mem := rfl
@[simp] theorem Hw.setQs_poison (h : Hw) (id : QId) (q : QState) : (h.setQs id q).poison = h.poison := rfl
@[simp] theorem Hw.setQs_upsets (h : Hw) (id : QId) (q : QState) : (h.setQs id q).upsets = h.upsets := rfl
@[simp] theorem Hw.setQs_flips (h : Hw) (id : QId) (q : QState) : (h.setQs id q).flips = h.flips := rfl
@[simp] theorem Hw.setQs_scrubAt (h : Hw) (id : QId) (q : QState) : (h.setQs id q).scrubAt = h.scrubAt := rfl
@[simp] theorem Hw.setQs_temps (h : Hw) (id : QId) (q : QState) : (h.setQs id q).temps = h.temps := rfl
@[simp] theorem Hw.setQs_time (h : Hw) (id : QId) (q : QState) : (h.setQs id q).time = h.time := rfl
@[simp] theorem Hw.setQs_freeCtr (h : Hw) (id : QId) (q : QState) : (h.setQs id q).freeCtr = h.freeCtr := rfl
@[simp] theorem Hw.setQs_out (h : Hw) (id : QId) (q : QState) : (h.setQs id q).out = h.out := rfl
@[simp] theorem Hw.setQs_accA (h : Hw) (id : QId) (q : QState) : (h.setQs id q).accA = h.accA := rfl
@[simp] theorem Hw.setQs_accB (h : Hw) (id : QId) (q : QState) : (h.setQs id q).accB = h.accB := rfl
@[simp] theorem Hw.setQs_accH (h : Hw) (id : QId) (q : QState) : (h.setQs id q).accH = h.accH := rfl
@[simp] theorem Hw.setQs_granted (h : Hw) (id : QId) (q : QState) : (h.setQs id q).granted = h.granted := rfl
@[simp] theorem Hw.setQs_groups (h : Hw) (id : QId) (q : QState) : (h.setQs id q).groups = h.groups := rfl
@[simp] theorem Hw.setQs_tagged (h : Hw) (id : QId) (q : QState) : (h.setQs id q).tagged = h.tagged := rfl
@[simp] theorem Hw.setQs_probes (h : Hw) (id : QId) (q : QState) : (h.setQs id q).probes = h.probes := rfl
@[simp] theorem Hw.setQs_dma (h : Hw) (id : QId) (q : QState) : (h.setQs id q).dma = h.dma := rfl
@[simp] theorem Hw.setQs_dmaLast (h : Hw) (id : QId) (q : QState) : (h.setQs id q).dmaLast = h.dmaLast := rfl
@[simp] theorem Hw.setQs_dmaAsks (h : Hw) (id : QId) (q : QState) : (h.setQs id q).dmaAsks = h.dmaAsks := rfl
@[simp] theorem Hw.setQs_portQ (h : Hw) (id : QId) (q : QState) : (h.setQs id q).portQ = h.portQ := rfl
@[simp] theorem Hw.setQs_leashQ (h : Hw) (id : QId) (q : QState) : (h.setQs id q).leashQ = h.leashQ := rfl
@[simp] theorem Hw.setQs_landed (h : Hw) (id : QId) (q : QState) : (h.setQs id q).landed = h.landed := rfl
@[simp] theorem Hw.setQs_landing (h : Hw) (id : QId) (q : QState) : (h.setQs id q).landing = h.landing := rfl
@[simp] theorem Hw.setQs_mmu (h : Hw) (id : QId) (q : QState) : (h.setQs id q).mmu = h.mmu := rfl
@[simp] theorem Hw.setQs_mig (h : Hw) (id : QId) (q : QState) : (h.setQs id q).mig = h.mig := rfl
@[simp] theorem Hw.setQs_sfu (h : Hw) (id : QId) (q : QState) : (h.setQs id q).sfu = h.sfu := rfl
@[simp] theorem Hw.setQs_vocs (h : Hw) (id : QId) (q : QState) : (h.setQs id q).vocs = h.vocs := rfl
@[simp] theorem Hw.setQs_tbls (h : Hw) (id : QId) (q : QState) : (h.setQs id q).tbls = h.tbls := rfl
@[simp] theorem Hw.setQs_frees (h : Hw) (id : QId) (q : QState) : (h.setQs id q).frees = h.frees := rfl
@[simp] theorem Hw.setQs_tblSerial (h : Hw) (id : QId) (q : QState) : (h.setQs id q).tblSerial = h.tblSerial := rfl
@[simp] theorem Hw.setQs_gathers (h : Hw) (id : QId) (q : QState) : (h.setQs id q).gathers = h.gathers := rfl
@[simp] theorem Hw.setQs_exch (h : Hw) (id : QId) (q : QState) : (h.setQs id q).exch = h.exch := rfl
@[simp] theorem Hw.setQs_fwd (h : Hw) (id : QId) (q : QState) : (h.setQs id q).fwd = h.fwd := rfl
@[simp] theorem Hw.setQs_embSeq (h : Hw) (id : QId) (q : QState) : (h.setQs id q).embSeq = h.embSeq := rfl
@[simp] theorem Hw.setQs_idxs (h : Hw) (id : QId) (q : QState) : (h.setQs id q).idxs = h.idxs := rfl
@[simp] theorem Hw.setQs_cbTag (h : Hw) (id : QId) (q : QState) : (h.setQs id q).cbTag = h.cbTag := rfl
@[simp] theorem Hw.setQs_srv (h : Hw) (id : QId) (q : QState) : (h.setQs id q).srv = h.srv := rfl
@[simp] theorem Hw.setQs_muzCtx (h : Hw) (id : QId) (q : QState) : (h.setQs id q).muzCtx = h.muzCtx := rfl
@[simp] theorem Hw.setQs_changes (h : Hw) (id : QId) (q : QState) : (h.setQs id q).changes = h.changes := rfl
@[simp] theorem Hw.setQs_streams (h : Hw) (id : QId) (q : QState) : (h.setQs id q).streams = h.streams := rfl
@[simp] theorem Hw.setQs_measures (h : Hw) (id : QId) (q : QState) : (h.setQs id q).measures = h.measures := rfl
@[simp] theorem Hw.setQs_measured (h : Hw) (id : QId) (q : QState) : (h.setQs id q).measured = h.measured := rfl
@[simp] theorem Hw.setQs_fused (h : Hw) (id : QId) (q : QState) : (h.setQs id q).fused = h.fused := rfl
@[simp] theorem Hw.setQs_resetting (h : Hw) (id : QId) (q : QState) : (h.setQs id q).resetting = h.resetting := rfl
@[simp] theorem Hw.setQs_stepHeld (h : Hw) (id : QId) (q : QState) : (h.setQs id q).stepHeld = h.stepHeld := rfl
@[simp] theorem Hw.setQs_trc (h : Hw) (id : QId) (q : QState) : (h.setQs id q).trc = h.trc := rfl
@[simp] theorem Hw.setQs_pcieBif (h : Hw) (id : QId) (q : QState) : (h.setQs id q).pcieBif = h.pcieBif := rfl
@[simp] theorem Hw.setQs_pcieA (h : Hw) (id : QId) (q : QState) : (h.setQs id q).pcieA = h.pcieA := rfl
@[simp] theorem Hw.setQs_pcieB (h : Hw) (id : QId) (q : QState) : (h.setQs id q).pcieB = h.pcieB := rfl
@[simp] theorem Hw.setQs_pow (h : Hw) (id : QId) (q : QState) : (h.setQs id q).pow = h.pow := rfl
@[simp] theorem Hw.setQs_attests (h : Hw) (id : QId) (q : QState) : (h.setQs id q).attests = h.attests := rfl
@[simp] theorem Hw.setQs_retires (h : Hw) (id : QId) (q : QState) : (h.setQs id q).retires = h.retires := rfl
@[simp] theorem Hw.setQs_bist (h : Hw) (id : QId) (q : QState) : (h.setQs id q).bist = h.bist := rfl
@[simp] theorem Hw.setQs_life (h : Hw) (id : QId) (q : QState) : (h.setQs id q).life = h.life := rfl
@[simp] theorem Hw.setQs_ports (h : Hw) (id : QId) (q : QState) : (h.setQs id q).ports = h.ports := rfl
@[simp] theorem Hw.setQs_pair (h : Hw) (id : QId) (q : QState) : (h.setQs id q).pair = h.pair := rfl
@[simp] theorem Hw.setQs_remoteOut (h : Hw) (id : QId) (q : QState) : (h.setQs id q).remoteOut = h.remoteOut := rfl

/-! `Hw.send` -/

@[simp] theorem Hw.send_regs (h : Hw) (m : OutMsg) : (h.send m).regs = h.regs := rfl
@[simp] theorem Hw.send_mem (h : Hw) (m : OutMsg) : (h.send m).mem = h.mem := rfl
@[simp] theorem Hw.send_poison (h : Hw) (m : OutMsg) : (h.send m).poison = h.poison := rfl
@[simp] theorem Hw.send_upsets (h : Hw) (m : OutMsg) : (h.send m).upsets = h.upsets := rfl
@[simp] theorem Hw.send_flips (h : Hw) (m : OutMsg) : (h.send m).flips = h.flips := rfl
@[simp] theorem Hw.send_scrubAt (h : Hw) (m : OutMsg) : (h.send m).scrubAt = h.scrubAt := rfl
@[simp] theorem Hw.send_temps (h : Hw) (m : OutMsg) : (h.send m).temps = h.temps := rfl
@[simp] theorem Hw.send_time (h : Hw) (m : OutMsg) : (h.send m).time = h.time := rfl
@[simp] theorem Hw.send_freeCtr (h : Hw) (m : OutMsg) : (h.send m).freeCtr = h.freeCtr := rfl
@[simp] theorem Hw.send_accA (h : Hw) (m : OutMsg) : (h.send m).accA = h.accA := rfl
@[simp] theorem Hw.send_accB (h : Hw) (m : OutMsg) : (h.send m).accB = h.accB := rfl
@[simp] theorem Hw.send_accH (h : Hw) (m : OutMsg) : (h.send m).accH = h.accH := rfl
@[simp] theorem Hw.send_queues (h : Hw) (m : OutMsg) : (h.send m).queues = h.queues := rfl
@[simp] theorem Hw.send_granted (h : Hw) (m : OutMsg) : (h.send m).granted = h.granted := rfl
@[simp] theorem Hw.send_groups (h : Hw) (m : OutMsg) : (h.send m).groups = h.groups := rfl
@[simp] theorem Hw.send_tagged (h : Hw) (m : OutMsg) : (h.send m).tagged = h.tagged := rfl
@[simp] theorem Hw.send_probes (h : Hw) (m : OutMsg) : (h.send m).probes = h.probes := rfl
@[simp] theorem Hw.send_dma (h : Hw) (m : OutMsg) : (h.send m).dma = h.dma := rfl
@[simp] theorem Hw.send_dmaLast (h : Hw) (m : OutMsg) : (h.send m).dmaLast = h.dmaLast := rfl
@[simp] theorem Hw.send_dmaAsks (h : Hw) (m : OutMsg) : (h.send m).dmaAsks = h.dmaAsks := rfl
@[simp] theorem Hw.send_portQ (h : Hw) (m : OutMsg) : (h.send m).portQ = h.portQ := rfl
@[simp] theorem Hw.send_leashQ (h : Hw) (m : OutMsg) : (h.send m).leashQ = h.leashQ := rfl
@[simp] theorem Hw.send_landed (h : Hw) (m : OutMsg) : (h.send m).landed = h.landed := rfl
@[simp] theorem Hw.send_landing (h : Hw) (m : OutMsg) : (h.send m).landing = h.landing := rfl
@[simp] theorem Hw.send_mmu (h : Hw) (m : OutMsg) : (h.send m).mmu = h.mmu := rfl
@[simp] theorem Hw.send_mig (h : Hw) (m : OutMsg) : (h.send m).mig = h.mig := rfl
@[simp] theorem Hw.send_sfu (h : Hw) (m : OutMsg) : (h.send m).sfu = h.sfu := rfl
@[simp] theorem Hw.send_vocs (h : Hw) (m : OutMsg) : (h.send m).vocs = h.vocs := rfl
@[simp] theorem Hw.send_tbls (h : Hw) (m : OutMsg) : (h.send m).tbls = h.tbls := rfl
@[simp] theorem Hw.send_frees (h : Hw) (m : OutMsg) : (h.send m).frees = h.frees := rfl
@[simp] theorem Hw.send_tblSerial (h : Hw) (m : OutMsg) : (h.send m).tblSerial = h.tblSerial := rfl
@[simp] theorem Hw.send_gathers (h : Hw) (m : OutMsg) : (h.send m).gathers = h.gathers := rfl
@[simp] theorem Hw.send_exch (h : Hw) (m : OutMsg) : (h.send m).exch = h.exch := rfl
@[simp] theorem Hw.send_fwd (h : Hw) (m : OutMsg) : (h.send m).fwd = h.fwd := rfl
@[simp] theorem Hw.send_embSeq (h : Hw) (m : OutMsg) : (h.send m).embSeq = h.embSeq := rfl
@[simp] theorem Hw.send_idxs (h : Hw) (m : OutMsg) : (h.send m).idxs = h.idxs := rfl
@[simp] theorem Hw.send_cbTag (h : Hw) (m : OutMsg) : (h.send m).cbTag = h.cbTag := rfl
@[simp] theorem Hw.send_srv (h : Hw) (m : OutMsg) : (h.send m).srv = h.srv := rfl
@[simp] theorem Hw.send_muzCtx (h : Hw) (m : OutMsg) : (h.send m).muzCtx = h.muzCtx := rfl
@[simp] theorem Hw.send_changes (h : Hw) (m : OutMsg) : (h.send m).changes = h.changes := rfl
@[simp] theorem Hw.send_streams (h : Hw) (m : OutMsg) : (h.send m).streams = h.streams := rfl
@[simp] theorem Hw.send_measures (h : Hw) (m : OutMsg) : (h.send m).measures = h.measures := rfl
@[simp] theorem Hw.send_measured (h : Hw) (m : OutMsg) : (h.send m).measured = h.measured := rfl
@[simp] theorem Hw.send_fused (h : Hw) (m : OutMsg) : (h.send m).fused = h.fused := rfl
@[simp] theorem Hw.send_resetting (h : Hw) (m : OutMsg) : (h.send m).resetting = h.resetting := rfl
@[simp] theorem Hw.send_stepHeld (h : Hw) (m : OutMsg) : (h.send m).stepHeld = h.stepHeld := rfl
@[simp] theorem Hw.send_trc (h : Hw) (m : OutMsg) : (h.send m).trc = h.trc := rfl
@[simp] theorem Hw.send_pcieBif (h : Hw) (m : OutMsg) : (h.send m).pcieBif = h.pcieBif := rfl
@[simp] theorem Hw.send_pcieA (h : Hw) (m : OutMsg) : (h.send m).pcieA = h.pcieA := rfl
@[simp] theorem Hw.send_pcieB (h : Hw) (m : OutMsg) : (h.send m).pcieB = h.pcieB := rfl
@[simp] theorem Hw.send_pow (h : Hw) (m : OutMsg) : (h.send m).pow = h.pow := rfl
@[simp] theorem Hw.send_attests (h : Hw) (m : OutMsg) : (h.send m).attests = h.attests := rfl
@[simp] theorem Hw.send_retires (h : Hw) (m : OutMsg) : (h.send m).retires = h.retires := rfl
@[simp] theorem Hw.send_bist (h : Hw) (m : OutMsg) : (h.send m).bist = h.bist := rfl
@[simp] theorem Hw.send_life (h : Hw) (m : OutMsg) : (h.send m).life = h.life := rfl
@[simp] theorem Hw.send_ports (h : Hw) (m : OutMsg) : (h.send m).ports = h.ports := rfl
@[simp] theorem Hw.send_pair (h : Hw) (m : OutMsg) : (h.send m).pair = h.pair := rfl
@[simp] theorem Hw.send_remoteOut (h : Hw) (m : OutMsg) : (h.send m).remoteOut = h.remoteOut := rfl

/-! `Hw.draw` -/

@[simp] theorem Hw.draw_regs (h : Hw) : (h.draw).regs = h.regs := rfl
@[simp] theorem Hw.draw_mem (h : Hw) : (h.draw).mem = h.mem := rfl
@[simp] theorem Hw.draw_poison (h : Hw) : (h.draw).poison = h.poison := rfl
@[simp] theorem Hw.draw_upsets (h : Hw) : (h.draw).upsets = h.upsets := rfl
@[simp] theorem Hw.draw_flips (h : Hw) : (h.draw).flips = h.flips := rfl
@[simp] theorem Hw.draw_scrubAt (h : Hw) : (h.draw).scrubAt = h.scrubAt := rfl
@[simp] theorem Hw.draw_temps (h : Hw) : (h.draw).temps = h.temps := rfl
@[simp] theorem Hw.draw_time (h : Hw) : (h.draw).time = h.time := rfl
@[simp] theorem Hw.draw_out (h : Hw) : (h.draw).out = h.out := rfl
@[simp] theorem Hw.draw_accA (h : Hw) : (h.draw).accA = h.accA := rfl
@[simp] theorem Hw.draw_accB (h : Hw) : (h.draw).accB = h.accB := rfl
@[simp] theorem Hw.draw_accH (h : Hw) : (h.draw).accH = h.accH := rfl
@[simp] theorem Hw.draw_queues (h : Hw) : (h.draw).queues = h.queues := rfl
@[simp] theorem Hw.draw_granted (h : Hw) : (h.draw).granted = h.granted := rfl
@[simp] theorem Hw.draw_groups (h : Hw) : (h.draw).groups = h.groups := rfl
@[simp] theorem Hw.draw_tagged (h : Hw) : (h.draw).tagged = h.tagged := rfl
@[simp] theorem Hw.draw_probes (h : Hw) : (h.draw).probes = h.probes := rfl
@[simp] theorem Hw.draw_dma (h : Hw) : (h.draw).dma = h.dma := rfl
@[simp] theorem Hw.draw_dmaLast (h : Hw) : (h.draw).dmaLast = h.dmaLast := rfl
@[simp] theorem Hw.draw_dmaAsks (h : Hw) : (h.draw).dmaAsks = h.dmaAsks := rfl
@[simp] theorem Hw.draw_portQ (h : Hw) : (h.draw).portQ = h.portQ := rfl
@[simp] theorem Hw.draw_leashQ (h : Hw) : (h.draw).leashQ = h.leashQ := rfl
@[simp] theorem Hw.draw_landed (h : Hw) : (h.draw).landed = h.landed := rfl
@[simp] theorem Hw.draw_landing (h : Hw) : (h.draw).landing = h.landing := rfl
@[simp] theorem Hw.draw_mmu (h : Hw) : (h.draw).mmu = h.mmu := rfl
@[simp] theorem Hw.draw_mig (h : Hw) : (h.draw).mig = h.mig := rfl
@[simp] theorem Hw.draw_sfu (h : Hw) : (h.draw).sfu = h.sfu := rfl
@[simp] theorem Hw.draw_vocs (h : Hw) : (h.draw).vocs = h.vocs := rfl
@[simp] theorem Hw.draw_tbls (h : Hw) : (h.draw).tbls = h.tbls := rfl
@[simp] theorem Hw.draw_frees (h : Hw) : (h.draw).frees = h.frees := rfl
@[simp] theorem Hw.draw_tblSerial (h : Hw) : (h.draw).tblSerial = h.tblSerial := rfl
@[simp] theorem Hw.draw_gathers (h : Hw) : (h.draw).gathers = h.gathers := rfl
@[simp] theorem Hw.draw_exch (h : Hw) : (h.draw).exch = h.exch := rfl
@[simp] theorem Hw.draw_fwd (h : Hw) : (h.draw).fwd = h.fwd := rfl
@[simp] theorem Hw.draw_embSeq (h : Hw) : (h.draw).embSeq = h.embSeq := rfl
@[simp] theorem Hw.draw_idxs (h : Hw) : (h.draw).idxs = h.idxs := rfl
@[simp] theorem Hw.draw_cbTag (h : Hw) : (h.draw).cbTag = h.cbTag := rfl
@[simp] theorem Hw.draw_srv (h : Hw) : (h.draw).srv = h.srv := rfl
@[simp] theorem Hw.draw_muzCtx (h : Hw) : (h.draw).muzCtx = h.muzCtx := rfl
@[simp] theorem Hw.draw_changes (h : Hw) : (h.draw).changes = h.changes := rfl
@[simp] theorem Hw.draw_streams (h : Hw) : (h.draw).streams = h.streams := rfl
@[simp] theorem Hw.draw_measures (h : Hw) : (h.draw).measures = h.measures := rfl
@[simp] theorem Hw.draw_measured (h : Hw) : (h.draw).measured = h.measured := rfl
@[simp] theorem Hw.draw_fused (h : Hw) : (h.draw).fused = h.fused := rfl
@[simp] theorem Hw.draw_resetting (h : Hw) : (h.draw).resetting = h.resetting := rfl
@[simp] theorem Hw.draw_stepHeld (h : Hw) : (h.draw).stepHeld = h.stepHeld := rfl
@[simp] theorem Hw.draw_trc (h : Hw) : (h.draw).trc = h.trc := rfl
@[simp] theorem Hw.draw_pcieBif (h : Hw) : (h.draw).pcieBif = h.pcieBif := rfl
@[simp] theorem Hw.draw_pcieA (h : Hw) : (h.draw).pcieA = h.pcieA := rfl
@[simp] theorem Hw.draw_pcieB (h : Hw) : (h.draw).pcieB = h.pcieB := rfl
@[simp] theorem Hw.draw_pow (h : Hw) : (h.draw).pow = h.pow := rfl
@[simp] theorem Hw.draw_attests (h : Hw) : (h.draw).attests = h.attests := rfl
@[simp] theorem Hw.draw_retires (h : Hw) : (h.draw).retires = h.retires := rfl
@[simp] theorem Hw.draw_bist (h : Hw) : (h.draw).bist = h.bist := rfl
@[simp] theorem Hw.draw_life (h : Hw) : (h.draw).life = h.life := rfl
@[simp] theorem Hw.draw_ports (h : Hw) : (h.draw).ports = h.ports := rfl
@[simp] theorem Hw.draw_pair (h : Hw) : (h.draw).pair = h.pair := rfl
@[simp] theorem Hw.draw_remoteOut (h : Hw) : (h.draw).remoteOut = h.remoteOut := rfl

/-! `Hw.store` -/

@[simp] theorem Hw.store_regs (h : Hw) (k : Nat) (bs : List Byte) : (h.store k bs).regs = h.regs := rfl
@[simp] theorem Hw.store_scrubAt (h : Hw) (k : Nat) (bs : List Byte) : (h.store k bs).scrubAt = h.scrubAt := rfl
@[simp] theorem Hw.store_temps (h : Hw) (k : Nat) (bs : List Byte) : (h.store k bs).temps = h.temps := rfl
@[simp] theorem Hw.store_time (h : Hw) (k : Nat) (bs : List Byte) : (h.store k bs).time = h.time := rfl
@[simp] theorem Hw.store_freeCtr (h : Hw) (k : Nat) (bs : List Byte) : (h.store k bs).freeCtr = h.freeCtr := rfl
@[simp] theorem Hw.store_out (h : Hw) (k : Nat) (bs : List Byte) : (h.store k bs).out = h.out := rfl
@[simp] theorem Hw.store_accA (h : Hw) (k : Nat) (bs : List Byte) : (h.store k bs).accA = h.accA := rfl
@[simp] theorem Hw.store_accB (h : Hw) (k : Nat) (bs : List Byte) : (h.store k bs).accB = h.accB := rfl
@[simp] theorem Hw.store_accH (h : Hw) (k : Nat) (bs : List Byte) : (h.store k bs).accH = h.accH := rfl
@[simp] theorem Hw.store_queues (h : Hw) (k : Nat) (bs : List Byte) : (h.store k bs).queues = h.queues := rfl
@[simp] theorem Hw.store_granted (h : Hw) (k : Nat) (bs : List Byte) : (h.store k bs).granted = h.granted := rfl
@[simp] theorem Hw.store_groups (h : Hw) (k : Nat) (bs : List Byte) : (h.store k bs).groups = h.groups := rfl
@[simp] theorem Hw.store_tagged (h : Hw) (k : Nat) (bs : List Byte) : (h.store k bs).tagged = h.tagged := rfl
@[simp] theorem Hw.store_probes (h : Hw) (k : Nat) (bs : List Byte) : (h.store k bs).probes = h.probes := rfl
@[simp] theorem Hw.store_dma (h : Hw) (k : Nat) (bs : List Byte) : (h.store k bs).dma = h.dma := rfl
@[simp] theorem Hw.store_dmaLast (h : Hw) (k : Nat) (bs : List Byte) : (h.store k bs).dmaLast = h.dmaLast := rfl
@[simp] theorem Hw.store_dmaAsks (h : Hw) (k : Nat) (bs : List Byte) : (h.store k bs).dmaAsks = h.dmaAsks := rfl
@[simp] theorem Hw.store_portQ (h : Hw) (k : Nat) (bs : List Byte) : (h.store k bs).portQ = h.portQ := rfl
@[simp] theorem Hw.store_leashQ (h : Hw) (k : Nat) (bs : List Byte) : (h.store k bs).leashQ = h.leashQ := rfl
@[simp] theorem Hw.store_landed (h : Hw) (k : Nat) (bs : List Byte) : (h.store k bs).landed = h.landed := rfl
@[simp] theorem Hw.store_landing (h : Hw) (k : Nat) (bs : List Byte) : (h.store k bs).landing = h.landing := rfl
@[simp] theorem Hw.store_mmu (h : Hw) (k : Nat) (bs : List Byte) : (h.store k bs).mmu = h.mmu := rfl
@[simp] theorem Hw.store_mig (h : Hw) (k : Nat) (bs : List Byte) : (h.store k bs).mig = h.mig := rfl
@[simp] theorem Hw.store_sfu (h : Hw) (k : Nat) (bs : List Byte) : (h.store k bs).sfu = h.sfu := rfl
@[simp] theorem Hw.store_vocs (h : Hw) (k : Nat) (bs : List Byte) : (h.store k bs).vocs = h.vocs := rfl
@[simp] theorem Hw.store_tbls (h : Hw) (k : Nat) (bs : List Byte) : (h.store k bs).tbls = h.tbls := rfl
@[simp] theorem Hw.store_frees (h : Hw) (k : Nat) (bs : List Byte) : (h.store k bs).frees = h.frees := rfl
@[simp] theorem Hw.store_tblSerial (h : Hw) (k : Nat) (bs : List Byte) : (h.store k bs).tblSerial = h.tblSerial := rfl
@[simp] theorem Hw.store_gathers (h : Hw) (k : Nat) (bs : List Byte) : (h.store k bs).gathers = h.gathers := rfl
@[simp] theorem Hw.store_exch (h : Hw) (k : Nat) (bs : List Byte) : (h.store k bs).exch = h.exch := rfl
@[simp] theorem Hw.store_fwd (h : Hw) (k : Nat) (bs : List Byte) : (h.store k bs).fwd = h.fwd := rfl
@[simp] theorem Hw.store_embSeq (h : Hw) (k : Nat) (bs : List Byte) : (h.store k bs).embSeq = h.embSeq := rfl
@[simp] theorem Hw.store_idxs (h : Hw) (k : Nat) (bs : List Byte) : (h.store k bs).idxs = h.idxs := rfl
@[simp] theorem Hw.store_cbTag (h : Hw) (k : Nat) (bs : List Byte) : (h.store k bs).cbTag = h.cbTag := rfl
@[simp] theorem Hw.store_srv (h : Hw) (k : Nat) (bs : List Byte) : (h.store k bs).srv = h.srv := rfl
@[simp] theorem Hw.store_muzCtx (h : Hw) (k : Nat) (bs : List Byte) : (h.store k bs).muzCtx = h.muzCtx := rfl
@[simp] theorem Hw.store_changes (h : Hw) (k : Nat) (bs : List Byte) : (h.store k bs).changes = h.changes := rfl
@[simp] theorem Hw.store_streams (h : Hw) (k : Nat) (bs : List Byte) : (h.store k bs).streams = h.streams := rfl
@[simp] theorem Hw.store_measures (h : Hw) (k : Nat) (bs : List Byte) : (h.store k bs).measures = h.measures := rfl
@[simp] theorem Hw.store_measured (h : Hw) (k : Nat) (bs : List Byte) : (h.store k bs).measured = h.measured := rfl
@[simp] theorem Hw.store_fused (h : Hw) (k : Nat) (bs : List Byte) : (h.store k bs).fused = h.fused := rfl
@[simp] theorem Hw.store_resetting (h : Hw) (k : Nat) (bs : List Byte) : (h.store k bs).resetting = h.resetting := rfl
@[simp] theorem Hw.store_stepHeld (h : Hw) (k : Nat) (bs : List Byte) : (h.store k bs).stepHeld = h.stepHeld := rfl
@[simp] theorem Hw.store_trc (h : Hw) (k : Nat) (bs : List Byte) : (h.store k bs).trc = h.trc := rfl
@[simp] theorem Hw.store_pcieBif (h : Hw) (k : Nat) (bs : List Byte) : (h.store k bs).pcieBif = h.pcieBif := rfl
@[simp] theorem Hw.store_pcieA (h : Hw) (k : Nat) (bs : List Byte) : (h.store k bs).pcieA = h.pcieA := rfl
@[simp] theorem Hw.store_pcieB (h : Hw) (k : Nat) (bs : List Byte) : (h.store k bs).pcieB = h.pcieB := rfl
@[simp] theorem Hw.store_pow (h : Hw) (k : Nat) (bs : List Byte) : (h.store k bs).pow = h.pow := rfl
@[simp] theorem Hw.store_attests (h : Hw) (k : Nat) (bs : List Byte) : (h.store k bs).attests = h.attests := rfl
@[simp] theorem Hw.store_retires (h : Hw) (k : Nat) (bs : List Byte) : (h.store k bs).retires = h.retires := rfl
@[simp] theorem Hw.store_bist (h : Hw) (k : Nat) (bs : List Byte) : (h.store k bs).bist = h.bist := rfl
@[simp] theorem Hw.store_life (h : Hw) (k : Nat) (bs : List Byte) : (h.store k bs).life = h.life := rfl
@[simp] theorem Hw.store_ports (h : Hw) (k : Nat) (bs : List Byte) : (h.store k bs).ports = h.ports := rfl
@[simp] theorem Hw.store_pair (h : Hw) (k : Nat) (bs : List Byte) : (h.store k bs).pair = h.pair := rfl
@[simp] theorem Hw.store_remoteOut (h : Hw) (k : Nat) (bs : List Byte) : (h.store k bs).remoteOut = h.remoteOut := rfl

/-! `Hw.setStream` -/

@[simp] theorem Hw.setStream_regs (h : Hw) (i : Nat) (t : Stream) : (h.setStream i t).regs = h.regs := rfl
@[simp] theorem Hw.setStream_mem (h : Hw) (i : Nat) (t : Stream) : (h.setStream i t).mem = h.mem := rfl
@[simp] theorem Hw.setStream_poison (h : Hw) (i : Nat) (t : Stream) : (h.setStream i t).poison = h.poison := rfl
@[simp] theorem Hw.setStream_upsets (h : Hw) (i : Nat) (t : Stream) : (h.setStream i t).upsets = h.upsets := rfl
@[simp] theorem Hw.setStream_flips (h : Hw) (i : Nat) (t : Stream) : (h.setStream i t).flips = h.flips := rfl
@[simp] theorem Hw.setStream_scrubAt (h : Hw) (i : Nat) (t : Stream) : (h.setStream i t).scrubAt = h.scrubAt := rfl
@[simp] theorem Hw.setStream_temps (h : Hw) (i : Nat) (t : Stream) : (h.setStream i t).temps = h.temps := rfl
@[simp] theorem Hw.setStream_time (h : Hw) (i : Nat) (t : Stream) : (h.setStream i t).time = h.time := rfl
@[simp] theorem Hw.setStream_freeCtr (h : Hw) (i : Nat) (t : Stream) : (h.setStream i t).freeCtr = h.freeCtr := rfl
@[simp] theorem Hw.setStream_out (h : Hw) (i : Nat) (t : Stream) : (h.setStream i t).out = h.out := rfl
@[simp] theorem Hw.setStream_accA (h : Hw) (i : Nat) (t : Stream) : (h.setStream i t).accA = h.accA := rfl
@[simp] theorem Hw.setStream_accB (h : Hw) (i : Nat) (t : Stream) : (h.setStream i t).accB = h.accB := rfl
@[simp] theorem Hw.setStream_accH (h : Hw) (i : Nat) (t : Stream) : (h.setStream i t).accH = h.accH := rfl
@[simp] theorem Hw.setStream_queues (h : Hw) (i : Nat) (t : Stream) : (h.setStream i t).queues = h.queues := rfl
@[simp] theorem Hw.setStream_granted (h : Hw) (i : Nat) (t : Stream) : (h.setStream i t).granted = h.granted := rfl
@[simp] theorem Hw.setStream_groups (h : Hw) (i : Nat) (t : Stream) : (h.setStream i t).groups = h.groups := rfl
@[simp] theorem Hw.setStream_tagged (h : Hw) (i : Nat) (t : Stream) : (h.setStream i t).tagged = h.tagged := rfl
@[simp] theorem Hw.setStream_probes (h : Hw) (i : Nat) (t : Stream) : (h.setStream i t).probes = h.probes := rfl
@[simp] theorem Hw.setStream_dma (h : Hw) (i : Nat) (t : Stream) : (h.setStream i t).dma = h.dma := rfl
@[simp] theorem Hw.setStream_dmaLast (h : Hw) (i : Nat) (t : Stream) : (h.setStream i t).dmaLast = h.dmaLast := rfl
@[simp] theorem Hw.setStream_dmaAsks (h : Hw) (i : Nat) (t : Stream) : (h.setStream i t).dmaAsks = h.dmaAsks := rfl
@[simp] theorem Hw.setStream_portQ (h : Hw) (i : Nat) (t : Stream) : (h.setStream i t).portQ = h.portQ := rfl
@[simp] theorem Hw.setStream_leashQ (h : Hw) (i : Nat) (t : Stream) : (h.setStream i t).leashQ = h.leashQ := rfl
@[simp] theorem Hw.setStream_landed (h : Hw) (i : Nat) (t : Stream) : (h.setStream i t).landed = h.landed := rfl
@[simp] theorem Hw.setStream_landing (h : Hw) (i : Nat) (t : Stream) : (h.setStream i t).landing = h.landing := rfl
@[simp] theorem Hw.setStream_mmu (h : Hw) (i : Nat) (t : Stream) : (h.setStream i t).mmu = h.mmu := rfl
@[simp] theorem Hw.setStream_sfu (h : Hw) (i : Nat) (t : Stream) : (h.setStream i t).sfu = h.sfu := rfl
@[simp] theorem Hw.setStream_vocs (h : Hw) (i : Nat) (t : Stream) : (h.setStream i t).vocs = h.vocs := rfl
@[simp] theorem Hw.setStream_tbls (h : Hw) (i : Nat) (t : Stream) : (h.setStream i t).tbls = h.tbls := rfl
@[simp] theorem Hw.setStream_frees (h : Hw) (i : Nat) (t : Stream) : (h.setStream i t).frees = h.frees := rfl
@[simp] theorem Hw.setStream_tblSerial (h : Hw) (i : Nat) (t : Stream) : (h.setStream i t).tblSerial = h.tblSerial := rfl
@[simp] theorem Hw.setStream_gathers (h : Hw) (i : Nat) (t : Stream) : (h.setStream i t).gathers = h.gathers := rfl
@[simp] theorem Hw.setStream_exch (h : Hw) (i : Nat) (t : Stream) : (h.setStream i t).exch = h.exch := rfl
@[simp] theorem Hw.setStream_fwd (h : Hw) (i : Nat) (t : Stream) : (h.setStream i t).fwd = h.fwd := rfl
@[simp] theorem Hw.setStream_embSeq (h : Hw) (i : Nat) (t : Stream) : (h.setStream i t).embSeq = h.embSeq := rfl
@[simp] theorem Hw.setStream_idxs (h : Hw) (i : Nat) (t : Stream) : (h.setStream i t).idxs = h.idxs := rfl
@[simp] theorem Hw.setStream_cbTag (h : Hw) (i : Nat) (t : Stream) : (h.setStream i t).cbTag = h.cbTag := rfl
@[simp] theorem Hw.setStream_srv (h : Hw) (i : Nat) (t : Stream) : (h.setStream i t).srv = h.srv := rfl
@[simp] theorem Hw.setStream_muzCtx (h : Hw) (i : Nat) (t : Stream) : (h.setStream i t).muzCtx = h.muzCtx := rfl
@[simp] theorem Hw.setStream_changes (h : Hw) (i : Nat) (t : Stream) : (h.setStream i t).changes = h.changes := rfl
@[simp] theorem Hw.setStream_streams (h : Hw) (i : Nat) (t : Stream) : (h.setStream i t).streams = h.streams := rfl
@[simp] theorem Hw.setStream_measures (h : Hw) (i : Nat) (t : Stream) : (h.setStream i t).measures = h.measures := rfl
@[simp] theorem Hw.setStream_measured (h : Hw) (i : Nat) (t : Stream) : (h.setStream i t).measured = h.measured := rfl
@[simp] theorem Hw.setStream_fused (h : Hw) (i : Nat) (t : Stream) : (h.setStream i t).fused = h.fused := rfl
@[simp] theorem Hw.setStream_resetting (h : Hw) (i : Nat) (t : Stream) : (h.setStream i t).resetting = h.resetting := rfl
@[simp] theorem Hw.setStream_stepHeld (h : Hw) (i : Nat) (t : Stream) : (h.setStream i t).stepHeld = h.stepHeld := rfl
@[simp] theorem Hw.setStream_trc (h : Hw) (i : Nat) (t : Stream) : (h.setStream i t).trc = h.trc := rfl
@[simp] theorem Hw.setStream_pcieBif (h : Hw) (i : Nat) (t : Stream) : (h.setStream i t).pcieBif = h.pcieBif := rfl
@[simp] theorem Hw.setStream_pcieA (h : Hw) (i : Nat) (t : Stream) : (h.setStream i t).pcieA = h.pcieA := rfl
@[simp] theorem Hw.setStream_pcieB (h : Hw) (i : Nat) (t : Stream) : (h.setStream i t).pcieB = h.pcieB := rfl
@[simp] theorem Hw.setStream_pow (h : Hw) (i : Nat) (t : Stream) : (h.setStream i t).pow = h.pow := rfl
@[simp] theorem Hw.setStream_attests (h : Hw) (i : Nat) (t : Stream) : (h.setStream i t).attests = h.attests := rfl
@[simp] theorem Hw.setStream_retires (h : Hw) (i : Nat) (t : Stream) : (h.setStream i t).retires = h.retires := rfl
@[simp] theorem Hw.setStream_bist (h : Hw) (i : Nat) (t : Stream) : (h.setStream i t).bist = h.bist := rfl
@[simp] theorem Hw.setStream_life (h : Hw) (i : Nat) (t : Stream) : (h.setStream i t).life = h.life := rfl
@[simp] theorem Hw.setStream_ports (h : Hw) (i : Nat) (t : Stream) : (h.setStream i t).ports = h.ports := rfl
@[simp] theorem Hw.setStream_pair (h : Hw) (i : Nat) (t : Stream) : (h.setStream i t).pair = h.pair := rfl
@[simp] theorem Hw.setStream_remoteOut (h : Hw) (i : Nat) (t : Stream) : (h.setStream i t).remoteOut = h.remoteOut := rfl

/-! `Hw.setCh` -/

@[simp] theorem Hw.setCh_regs (h : Hw) (n : Nat) (c : DmaCh) : (h.setCh n c).regs = h.regs := rfl
@[simp] theorem Hw.setCh_mem (h : Hw) (n : Nat) (c : DmaCh) : (h.setCh n c).mem = h.mem := rfl
@[simp] theorem Hw.setCh_poison (h : Hw) (n : Nat) (c : DmaCh) : (h.setCh n c).poison = h.poison := rfl
@[simp] theorem Hw.setCh_upsets (h : Hw) (n : Nat) (c : DmaCh) : (h.setCh n c).upsets = h.upsets := rfl
@[simp] theorem Hw.setCh_flips (h : Hw) (n : Nat) (c : DmaCh) : (h.setCh n c).flips = h.flips := rfl
@[simp] theorem Hw.setCh_scrubAt (h : Hw) (n : Nat) (c : DmaCh) : (h.setCh n c).scrubAt = h.scrubAt := rfl
@[simp] theorem Hw.setCh_temps (h : Hw) (n : Nat) (c : DmaCh) : (h.setCh n c).temps = h.temps := rfl
@[simp] theorem Hw.setCh_time (h : Hw) (n : Nat) (c : DmaCh) : (h.setCh n c).time = h.time := rfl
@[simp] theorem Hw.setCh_freeCtr (h : Hw) (n : Nat) (c : DmaCh) : (h.setCh n c).freeCtr = h.freeCtr := rfl
@[simp] theorem Hw.setCh_out (h : Hw) (n : Nat) (c : DmaCh) : (h.setCh n c).out = h.out := rfl
@[simp] theorem Hw.setCh_accA (h : Hw) (n : Nat) (c : DmaCh) : (h.setCh n c).accA = h.accA := rfl
@[simp] theorem Hw.setCh_accB (h : Hw) (n : Nat) (c : DmaCh) : (h.setCh n c).accB = h.accB := rfl
@[simp] theorem Hw.setCh_accH (h : Hw) (n : Nat) (c : DmaCh) : (h.setCh n c).accH = h.accH := rfl
@[simp] theorem Hw.setCh_queues (h : Hw) (n : Nat) (c : DmaCh) : (h.setCh n c).queues = h.queues := rfl
@[simp] theorem Hw.setCh_granted (h : Hw) (n : Nat) (c : DmaCh) : (h.setCh n c).granted = h.granted := rfl
@[simp] theorem Hw.setCh_groups (h : Hw) (n : Nat) (c : DmaCh) : (h.setCh n c).groups = h.groups := rfl
@[simp] theorem Hw.setCh_tagged (h : Hw) (n : Nat) (c : DmaCh) : (h.setCh n c).tagged = h.tagged := rfl
@[simp] theorem Hw.setCh_probes (h : Hw) (n : Nat) (c : DmaCh) : (h.setCh n c).probes = h.probes := rfl
@[simp] theorem Hw.setCh_dmaLast (h : Hw) (n : Nat) (c : DmaCh) : (h.setCh n c).dmaLast = h.dmaLast := rfl
@[simp] theorem Hw.setCh_dmaAsks (h : Hw) (n : Nat) (c : DmaCh) : (h.setCh n c).dmaAsks = h.dmaAsks := rfl
@[simp] theorem Hw.setCh_portQ (h : Hw) (n : Nat) (c : DmaCh) : (h.setCh n c).portQ = h.portQ := rfl
@[simp] theorem Hw.setCh_leashQ (h : Hw) (n : Nat) (c : DmaCh) : (h.setCh n c).leashQ = h.leashQ := rfl
@[simp] theorem Hw.setCh_landed (h : Hw) (n : Nat) (c : DmaCh) : (h.setCh n c).landed = h.landed := rfl
@[simp] theorem Hw.setCh_landing (h : Hw) (n : Nat) (c : DmaCh) : (h.setCh n c).landing = h.landing := rfl
@[simp] theorem Hw.setCh_mmu (h : Hw) (n : Nat) (c : DmaCh) : (h.setCh n c).mmu = h.mmu := rfl
@[simp] theorem Hw.setCh_mig (h : Hw) (n : Nat) (c : DmaCh) : (h.setCh n c).mig = h.mig := rfl
@[simp] theorem Hw.setCh_sfu (h : Hw) (n : Nat) (c : DmaCh) : (h.setCh n c).sfu = h.sfu := rfl
@[simp] theorem Hw.setCh_vocs (h : Hw) (n : Nat) (c : DmaCh) : (h.setCh n c).vocs = h.vocs := rfl
@[simp] theorem Hw.setCh_tbls (h : Hw) (n : Nat) (c : DmaCh) : (h.setCh n c).tbls = h.tbls := rfl
@[simp] theorem Hw.setCh_frees (h : Hw) (n : Nat) (c : DmaCh) : (h.setCh n c).frees = h.frees := rfl
@[simp] theorem Hw.setCh_tblSerial (h : Hw) (n : Nat) (c : DmaCh) : (h.setCh n c).tblSerial = h.tblSerial := rfl
@[simp] theorem Hw.setCh_gathers (h : Hw) (n : Nat) (c : DmaCh) : (h.setCh n c).gathers = h.gathers := rfl
@[simp] theorem Hw.setCh_exch (h : Hw) (n : Nat) (c : DmaCh) : (h.setCh n c).exch = h.exch := rfl
@[simp] theorem Hw.setCh_fwd (h : Hw) (n : Nat) (c : DmaCh) : (h.setCh n c).fwd = h.fwd := rfl
@[simp] theorem Hw.setCh_embSeq (h : Hw) (n : Nat) (c : DmaCh) : (h.setCh n c).embSeq = h.embSeq := rfl
@[simp] theorem Hw.setCh_idxs (h : Hw) (n : Nat) (c : DmaCh) : (h.setCh n c).idxs = h.idxs := rfl
@[simp] theorem Hw.setCh_cbTag (h : Hw) (n : Nat) (c : DmaCh) : (h.setCh n c).cbTag = h.cbTag := rfl
@[simp] theorem Hw.setCh_srv (h : Hw) (n : Nat) (c : DmaCh) : (h.setCh n c).srv = h.srv := rfl
@[simp] theorem Hw.setCh_muzCtx (h : Hw) (n : Nat) (c : DmaCh) : (h.setCh n c).muzCtx = h.muzCtx := rfl
@[simp] theorem Hw.setCh_changes (h : Hw) (n : Nat) (c : DmaCh) : (h.setCh n c).changes = h.changes := rfl
@[simp] theorem Hw.setCh_streams (h : Hw) (n : Nat) (c : DmaCh) : (h.setCh n c).streams = h.streams := rfl
@[simp] theorem Hw.setCh_measures (h : Hw) (n : Nat) (c : DmaCh) : (h.setCh n c).measures = h.measures := rfl
@[simp] theorem Hw.setCh_measured (h : Hw) (n : Nat) (c : DmaCh) : (h.setCh n c).measured = h.measured := rfl
@[simp] theorem Hw.setCh_fused (h : Hw) (n : Nat) (c : DmaCh) : (h.setCh n c).fused = h.fused := rfl
@[simp] theorem Hw.setCh_resetting (h : Hw) (n : Nat) (c : DmaCh) : (h.setCh n c).resetting = h.resetting := rfl
@[simp] theorem Hw.setCh_stepHeld (h : Hw) (n : Nat) (c : DmaCh) : (h.setCh n c).stepHeld = h.stepHeld := rfl
@[simp] theorem Hw.setCh_trc (h : Hw) (n : Nat) (c : DmaCh) : (h.setCh n c).trc = h.trc := rfl
@[simp] theorem Hw.setCh_pcieBif (h : Hw) (n : Nat) (c : DmaCh) : (h.setCh n c).pcieBif = h.pcieBif := rfl
@[simp] theorem Hw.setCh_pcieA (h : Hw) (n : Nat) (c : DmaCh) : (h.setCh n c).pcieA = h.pcieA := rfl
@[simp] theorem Hw.setCh_pcieB (h : Hw) (n : Nat) (c : DmaCh) : (h.setCh n c).pcieB = h.pcieB := rfl
@[simp] theorem Hw.setCh_pow (h : Hw) (n : Nat) (c : DmaCh) : (h.setCh n c).pow = h.pow := rfl
@[simp] theorem Hw.setCh_attests (h : Hw) (n : Nat) (c : DmaCh) : (h.setCh n c).attests = h.attests := rfl
@[simp] theorem Hw.setCh_retires (h : Hw) (n : Nat) (c : DmaCh) : (h.setCh n c).retires = h.retires := rfl
@[simp] theorem Hw.setCh_bist (h : Hw) (n : Nat) (c : DmaCh) : (h.setCh n c).bist = h.bist := rfl
@[simp] theorem Hw.setCh_life (h : Hw) (n : Nat) (c : DmaCh) : (h.setCh n c).life = h.life := rfl
@[simp] theorem Hw.setCh_ports (h : Hw) (n : Nat) (c : DmaCh) : (h.setCh n c).ports = h.ports := rfl
@[simp] theorem Hw.setCh_pair (h : Hw) (n : Nat) (c : DmaCh) : (h.setCh n c).pair = h.pair := rfl
@[simp] theorem Hw.setCh_remoteOut (h : Hw) (n : Nat) (c : DmaCh) : (h.setCh n c).remoteOut = h.remoteOut := rfl

/-! `Hw.setGroup` -/

@[simp] theorem Hw.setGroup_regs (h : Hw) (g : Nat) (e : Group) : (h.setGroup g e).regs = h.regs := rfl
@[simp] theorem Hw.setGroup_mem (h : Hw) (g : Nat) (e : Group) : (h.setGroup g e).mem = h.mem := rfl
@[simp] theorem Hw.setGroup_poison (h : Hw) (g : Nat) (e : Group) : (h.setGroup g e).poison = h.poison := rfl
@[simp] theorem Hw.setGroup_upsets (h : Hw) (g : Nat) (e : Group) : (h.setGroup g e).upsets = h.upsets := rfl
@[simp] theorem Hw.setGroup_flips (h : Hw) (g : Nat) (e : Group) : (h.setGroup g e).flips = h.flips := rfl
@[simp] theorem Hw.setGroup_scrubAt (h : Hw) (g : Nat) (e : Group) : (h.setGroup g e).scrubAt = h.scrubAt := rfl
@[simp] theorem Hw.setGroup_temps (h : Hw) (g : Nat) (e : Group) : (h.setGroup g e).temps = h.temps := rfl
@[simp] theorem Hw.setGroup_time (h : Hw) (g : Nat) (e : Group) : (h.setGroup g e).time = h.time := rfl
@[simp] theorem Hw.setGroup_freeCtr (h : Hw) (g : Nat) (e : Group) : (h.setGroup g e).freeCtr = h.freeCtr := rfl
@[simp] theorem Hw.setGroup_out (h : Hw) (g : Nat) (e : Group) : (h.setGroup g e).out = h.out := rfl
@[simp] theorem Hw.setGroup_accA (h : Hw) (g : Nat) (e : Group) : (h.setGroup g e).accA = h.accA := rfl
@[simp] theorem Hw.setGroup_accB (h : Hw) (g : Nat) (e : Group) : (h.setGroup g e).accB = h.accB := rfl
@[simp] theorem Hw.setGroup_accH (h : Hw) (g : Nat) (e : Group) : (h.setGroup g e).accH = h.accH := rfl
@[simp] theorem Hw.setGroup_queues (h : Hw) (g : Nat) (e : Group) : (h.setGroup g e).queues = h.queues := rfl
@[simp] theorem Hw.setGroup_granted (h : Hw) (g : Nat) (e : Group) : (h.setGroup g e).granted = h.granted := rfl
@[simp] theorem Hw.setGroup_tagged (h : Hw) (g : Nat) (e : Group) : (h.setGroup g e).tagged = h.tagged := rfl
@[simp] theorem Hw.setGroup_probes (h : Hw) (g : Nat) (e : Group) : (h.setGroup g e).probes = h.probes := rfl
@[simp] theorem Hw.setGroup_dma (h : Hw) (g : Nat) (e : Group) : (h.setGroup g e).dma = h.dma := rfl
@[simp] theorem Hw.setGroup_dmaLast (h : Hw) (g : Nat) (e : Group) : (h.setGroup g e).dmaLast = h.dmaLast := rfl
@[simp] theorem Hw.setGroup_dmaAsks (h : Hw) (g : Nat) (e : Group) : (h.setGroup g e).dmaAsks = h.dmaAsks := rfl
@[simp] theorem Hw.setGroup_portQ (h : Hw) (g : Nat) (e : Group) : (h.setGroup g e).portQ = h.portQ := rfl
@[simp] theorem Hw.setGroup_leashQ (h : Hw) (g : Nat) (e : Group) : (h.setGroup g e).leashQ = h.leashQ := rfl
@[simp] theorem Hw.setGroup_landed (h : Hw) (g : Nat) (e : Group) : (h.setGroup g e).landed = h.landed := rfl
@[simp] theorem Hw.setGroup_landing (h : Hw) (g : Nat) (e : Group) : (h.setGroup g e).landing = h.landing := rfl
@[simp] theorem Hw.setGroup_mmu (h : Hw) (g : Nat) (e : Group) : (h.setGroup g e).mmu = h.mmu := rfl
@[simp] theorem Hw.setGroup_mig (h : Hw) (g : Nat) (e : Group) : (h.setGroup g e).mig = h.mig := rfl
@[simp] theorem Hw.setGroup_sfu (h : Hw) (g : Nat) (e : Group) : (h.setGroup g e).sfu = h.sfu := rfl
@[simp] theorem Hw.setGroup_vocs (h : Hw) (g : Nat) (e : Group) : (h.setGroup g e).vocs = h.vocs := rfl
@[simp] theorem Hw.setGroup_tbls (h : Hw) (g : Nat) (e : Group) : (h.setGroup g e).tbls = h.tbls := rfl
@[simp] theorem Hw.setGroup_frees (h : Hw) (g : Nat) (e : Group) : (h.setGroup g e).frees = h.frees := rfl
@[simp] theorem Hw.setGroup_tblSerial (h : Hw) (g : Nat) (e : Group) : (h.setGroup g e).tblSerial = h.tblSerial := rfl
@[simp] theorem Hw.setGroup_gathers (h : Hw) (g : Nat) (e : Group) : (h.setGroup g e).gathers = h.gathers := rfl
@[simp] theorem Hw.setGroup_exch (h : Hw) (g : Nat) (e : Group) : (h.setGroup g e).exch = h.exch := rfl
@[simp] theorem Hw.setGroup_fwd (h : Hw) (g : Nat) (e : Group) : (h.setGroup g e).fwd = h.fwd := rfl
@[simp] theorem Hw.setGroup_embSeq (h : Hw) (g : Nat) (e : Group) : (h.setGroup g e).embSeq = h.embSeq := rfl
@[simp] theorem Hw.setGroup_idxs (h : Hw) (g : Nat) (e : Group) : (h.setGroup g e).idxs = h.idxs := rfl
@[simp] theorem Hw.setGroup_cbTag (h : Hw) (g : Nat) (e : Group) : (h.setGroup g e).cbTag = h.cbTag := rfl
@[simp] theorem Hw.setGroup_srv (h : Hw) (g : Nat) (e : Group) : (h.setGroup g e).srv = h.srv := rfl
@[simp] theorem Hw.setGroup_muzCtx (h : Hw) (g : Nat) (e : Group) : (h.setGroup g e).muzCtx = h.muzCtx := rfl
@[simp] theorem Hw.setGroup_changes (h : Hw) (g : Nat) (e : Group) : (h.setGroup g e).changes = h.changes := rfl
@[simp] theorem Hw.setGroup_streams (h : Hw) (g : Nat) (e : Group) : (h.setGroup g e).streams = h.streams := rfl
@[simp] theorem Hw.setGroup_measures (h : Hw) (g : Nat) (e : Group) : (h.setGroup g e).measures = h.measures := rfl
@[simp] theorem Hw.setGroup_measured (h : Hw) (g : Nat) (e : Group) : (h.setGroup g e).measured = h.measured := rfl
@[simp] theorem Hw.setGroup_fused (h : Hw) (g : Nat) (e : Group) : (h.setGroup g e).fused = h.fused := rfl
@[simp] theorem Hw.setGroup_resetting (h : Hw) (g : Nat) (e : Group) : (h.setGroup g e).resetting = h.resetting := rfl
@[simp] theorem Hw.setGroup_stepHeld (h : Hw) (g : Nat) (e : Group) : (h.setGroup g e).stepHeld = h.stepHeld := rfl
@[simp] theorem Hw.setGroup_trc (h : Hw) (g : Nat) (e : Group) : (h.setGroup g e).trc = h.trc := rfl
@[simp] theorem Hw.setGroup_pcieBif (h : Hw) (g : Nat) (e : Group) : (h.setGroup g e).pcieBif = h.pcieBif := rfl
@[simp] theorem Hw.setGroup_pcieA (h : Hw) (g : Nat) (e : Group) : (h.setGroup g e).pcieA = h.pcieA := rfl
@[simp] theorem Hw.setGroup_pcieB (h : Hw) (g : Nat) (e : Group) : (h.setGroup g e).pcieB = h.pcieB := rfl
@[simp] theorem Hw.setGroup_pow (h : Hw) (g : Nat) (e : Group) : (h.setGroup g e).pow = h.pow := rfl
@[simp] theorem Hw.setGroup_attests (h : Hw) (g : Nat) (e : Group) : (h.setGroup g e).attests = h.attests := rfl
@[simp] theorem Hw.setGroup_retires (h : Hw) (g : Nat) (e : Group) : (h.setGroup g e).retires = h.retires := rfl
@[simp] theorem Hw.setGroup_bist (h : Hw) (g : Nat) (e : Group) : (h.setGroup g e).bist = h.bist := rfl
@[simp] theorem Hw.setGroup_life (h : Hw) (g : Nat) (e : Group) : (h.setGroup g e).life = h.life := rfl
@[simp] theorem Hw.setGroup_ports (h : Hw) (g : Nat) (e : Group) : (h.setGroup g e).ports = h.ports := rfl
@[simp] theorem Hw.setGroup_pair (h : Hw) (g : Nat) (e : Group) : (h.setGroup g e).pair = h.pair := rfl
@[simp] theorem Hw.setGroup_remoteOut (h : Hw) (g : Nat) (e : Group) : (h.setGroup g e).remoteOut = h.remoteOut := rfl

/-! `Hw.setPow` -/

@[simp] theorem Hw.setPow_regs (h : Hw) (f : Power → Power) : (h.setPow f).regs = h.regs := rfl
@[simp] theorem Hw.setPow_mem (h : Hw) (f : Power → Power) : (h.setPow f).mem = h.mem := rfl
@[simp] theorem Hw.setPow_poison (h : Hw) (f : Power → Power) : (h.setPow f).poison = h.poison := rfl
@[simp] theorem Hw.setPow_upsets (h : Hw) (f : Power → Power) : (h.setPow f).upsets = h.upsets := rfl
@[simp] theorem Hw.setPow_flips (h : Hw) (f : Power → Power) : (h.setPow f).flips = h.flips := rfl
@[simp] theorem Hw.setPow_scrubAt (h : Hw) (f : Power → Power) : (h.setPow f).scrubAt = h.scrubAt := rfl
@[simp] theorem Hw.setPow_temps (h : Hw) (f : Power → Power) : (h.setPow f).temps = h.temps := rfl
@[simp] theorem Hw.setPow_time (h : Hw) (f : Power → Power) : (h.setPow f).time = h.time := rfl
@[simp] theorem Hw.setPow_freeCtr (h : Hw) (f : Power → Power) : (h.setPow f).freeCtr = h.freeCtr := rfl
@[simp] theorem Hw.setPow_out (h : Hw) (f : Power → Power) : (h.setPow f).out = h.out := rfl
@[simp] theorem Hw.setPow_accA (h : Hw) (f : Power → Power) : (h.setPow f).accA = h.accA := rfl
@[simp] theorem Hw.setPow_accB (h : Hw) (f : Power → Power) : (h.setPow f).accB = h.accB := rfl
@[simp] theorem Hw.setPow_accH (h : Hw) (f : Power → Power) : (h.setPow f).accH = h.accH := rfl
@[simp] theorem Hw.setPow_queues (h : Hw) (f : Power → Power) : (h.setPow f).queues = h.queues := rfl
@[simp] theorem Hw.setPow_granted (h : Hw) (f : Power → Power) : (h.setPow f).granted = h.granted := rfl
@[simp] theorem Hw.setPow_groups (h : Hw) (f : Power → Power) : (h.setPow f).groups = h.groups := rfl
@[simp] theorem Hw.setPow_tagged (h : Hw) (f : Power → Power) : (h.setPow f).tagged = h.tagged := rfl
@[simp] theorem Hw.setPow_probes (h : Hw) (f : Power → Power) : (h.setPow f).probes = h.probes := rfl
@[simp] theorem Hw.setPow_dma (h : Hw) (f : Power → Power) : (h.setPow f).dma = h.dma := rfl
@[simp] theorem Hw.setPow_dmaLast (h : Hw) (f : Power → Power) : (h.setPow f).dmaLast = h.dmaLast := rfl
@[simp] theorem Hw.setPow_dmaAsks (h : Hw) (f : Power → Power) : (h.setPow f).dmaAsks = h.dmaAsks := rfl
@[simp] theorem Hw.setPow_portQ (h : Hw) (f : Power → Power) : (h.setPow f).portQ = h.portQ := rfl
@[simp] theorem Hw.setPow_leashQ (h : Hw) (f : Power → Power) : (h.setPow f).leashQ = h.leashQ := rfl
@[simp] theorem Hw.setPow_landed (h : Hw) (f : Power → Power) : (h.setPow f).landed = h.landed := rfl
@[simp] theorem Hw.setPow_landing (h : Hw) (f : Power → Power) : (h.setPow f).landing = h.landing := rfl
@[simp] theorem Hw.setPow_mmu (h : Hw) (f : Power → Power) : (h.setPow f).mmu = h.mmu := rfl
@[simp] theorem Hw.setPow_mig (h : Hw) (f : Power → Power) : (h.setPow f).mig = h.mig := rfl
@[simp] theorem Hw.setPow_sfu (h : Hw) (f : Power → Power) : (h.setPow f).sfu = h.sfu := rfl
@[simp] theorem Hw.setPow_vocs (h : Hw) (f : Power → Power) : (h.setPow f).vocs = h.vocs := rfl
@[simp] theorem Hw.setPow_tbls (h : Hw) (f : Power → Power) : (h.setPow f).tbls = h.tbls := rfl
@[simp] theorem Hw.setPow_frees (h : Hw) (f : Power → Power) : (h.setPow f).frees = h.frees := rfl
@[simp] theorem Hw.setPow_tblSerial (h : Hw) (f : Power → Power) : (h.setPow f).tblSerial = h.tblSerial := rfl
@[simp] theorem Hw.setPow_gathers (h : Hw) (f : Power → Power) : (h.setPow f).gathers = h.gathers := rfl
@[simp] theorem Hw.setPow_exch (h : Hw) (f : Power → Power) : (h.setPow f).exch = h.exch := rfl
@[simp] theorem Hw.setPow_fwd (h : Hw) (f : Power → Power) : (h.setPow f).fwd = h.fwd := rfl
@[simp] theorem Hw.setPow_embSeq (h : Hw) (f : Power → Power) : (h.setPow f).embSeq = h.embSeq := rfl
@[simp] theorem Hw.setPow_idxs (h : Hw) (f : Power → Power) : (h.setPow f).idxs = h.idxs := rfl
@[simp] theorem Hw.setPow_cbTag (h : Hw) (f : Power → Power) : (h.setPow f).cbTag = h.cbTag := rfl
@[simp] theorem Hw.setPow_srv (h : Hw) (f : Power → Power) : (h.setPow f).srv = h.srv := rfl
@[simp] theorem Hw.setPow_muzCtx (h : Hw) (f : Power → Power) : (h.setPow f).muzCtx = h.muzCtx := rfl
@[simp] theorem Hw.setPow_changes (h : Hw) (f : Power → Power) : (h.setPow f).changes = h.changes := rfl
@[simp] theorem Hw.setPow_streams (h : Hw) (f : Power → Power) : (h.setPow f).streams = h.streams := rfl
@[simp] theorem Hw.setPow_measures (h : Hw) (f : Power → Power) : (h.setPow f).measures = h.measures := rfl
@[simp] theorem Hw.setPow_measured (h : Hw) (f : Power → Power) : (h.setPow f).measured = h.measured := rfl
@[simp] theorem Hw.setPow_fused (h : Hw) (f : Power → Power) : (h.setPow f).fused = h.fused := rfl
@[simp] theorem Hw.setPow_resetting (h : Hw) (f : Power → Power) : (h.setPow f).resetting = h.resetting := rfl
@[simp] theorem Hw.setPow_stepHeld (h : Hw) (f : Power → Power) : (h.setPow f).stepHeld = h.stepHeld := rfl
@[simp] theorem Hw.setPow_trc (h : Hw) (f : Power → Power) : (h.setPow f).trc = h.trc := rfl
@[simp] theorem Hw.setPow_pcieBif (h : Hw) (f : Power → Power) : (h.setPow f).pcieBif = h.pcieBif := rfl
@[simp] theorem Hw.setPow_pcieA (h : Hw) (f : Power → Power) : (h.setPow f).pcieA = h.pcieA := rfl
@[simp] theorem Hw.setPow_pcieB (h : Hw) (f : Power → Power) : (h.setPow f).pcieB = h.pcieB := rfl
@[simp] theorem Hw.setPow_attests (h : Hw) (f : Power → Power) : (h.setPow f).attests = h.attests := rfl
@[simp] theorem Hw.setPow_retires (h : Hw) (f : Power → Power) : (h.setPow f).retires = h.retires := rfl
@[simp] theorem Hw.setPow_bist (h : Hw) (f : Power → Power) : (h.setPow f).bist = h.bist := rfl
@[simp] theorem Hw.setPow_life (h : Hw) (f : Power → Power) : (h.setPow f).life = h.life := rfl
@[simp] theorem Hw.setPow_ports (h : Hw) (f : Power → Power) : (h.setPow f).ports = h.ports := rfl
@[simp] theorem Hw.setPow_pair (h : Hw) (f : Power → Power) : (h.setPow f).pair = h.pair := rfl
@[simp] theorem Hw.setPow_remoteOut (h : Hw) (f : Power → Power) : (h.setPow f).remoteOut = h.remoteOut := rfl

/-! `Hw.setPair` -/

@[simp] theorem Hw.setPair_regs (h : Hw) (f : Pair → Pair) : (h.setPair f).regs = h.regs := rfl
@[simp] theorem Hw.setPair_mem (h : Hw) (f : Pair → Pair) : (h.setPair f).mem = h.mem := rfl
@[simp] theorem Hw.setPair_poison (h : Hw) (f : Pair → Pair) : (h.setPair f).poison = h.poison := rfl
@[simp] theorem Hw.setPair_upsets (h : Hw) (f : Pair → Pair) : (h.setPair f).upsets = h.upsets := rfl
@[simp] theorem Hw.setPair_flips (h : Hw) (f : Pair → Pair) : (h.setPair f).flips = h.flips := rfl
@[simp] theorem Hw.setPair_scrubAt (h : Hw) (f : Pair → Pair) : (h.setPair f).scrubAt = h.scrubAt := rfl
@[simp] theorem Hw.setPair_temps (h : Hw) (f : Pair → Pair) : (h.setPair f).temps = h.temps := rfl
@[simp] theorem Hw.setPair_time (h : Hw) (f : Pair → Pair) : (h.setPair f).time = h.time := rfl
@[simp] theorem Hw.setPair_freeCtr (h : Hw) (f : Pair → Pair) : (h.setPair f).freeCtr = h.freeCtr := rfl
@[simp] theorem Hw.setPair_out (h : Hw) (f : Pair → Pair) : (h.setPair f).out = h.out := rfl
@[simp] theorem Hw.setPair_accA (h : Hw) (f : Pair → Pair) : (h.setPair f).accA = h.accA := rfl
@[simp] theorem Hw.setPair_accB (h : Hw) (f : Pair → Pair) : (h.setPair f).accB = h.accB := rfl
@[simp] theorem Hw.setPair_accH (h : Hw) (f : Pair → Pair) : (h.setPair f).accH = h.accH := rfl
@[simp] theorem Hw.setPair_queues (h : Hw) (f : Pair → Pair) : (h.setPair f).queues = h.queues := rfl
@[simp] theorem Hw.setPair_granted (h : Hw) (f : Pair → Pair) : (h.setPair f).granted = h.granted := rfl
@[simp] theorem Hw.setPair_groups (h : Hw) (f : Pair → Pair) : (h.setPair f).groups = h.groups := rfl
@[simp] theorem Hw.setPair_tagged (h : Hw) (f : Pair → Pair) : (h.setPair f).tagged = h.tagged := rfl
@[simp] theorem Hw.setPair_probes (h : Hw) (f : Pair → Pair) : (h.setPair f).probes = h.probes := rfl
@[simp] theorem Hw.setPair_dma (h : Hw) (f : Pair → Pair) : (h.setPair f).dma = h.dma := rfl
@[simp] theorem Hw.setPair_dmaLast (h : Hw) (f : Pair → Pair) : (h.setPair f).dmaLast = h.dmaLast := rfl
@[simp] theorem Hw.setPair_dmaAsks (h : Hw) (f : Pair → Pair) : (h.setPair f).dmaAsks = h.dmaAsks := rfl
@[simp] theorem Hw.setPair_portQ (h : Hw) (f : Pair → Pair) : (h.setPair f).portQ = h.portQ := rfl
@[simp] theorem Hw.setPair_leashQ (h : Hw) (f : Pair → Pair) : (h.setPair f).leashQ = h.leashQ := rfl
@[simp] theorem Hw.setPair_landed (h : Hw) (f : Pair → Pair) : (h.setPair f).landed = h.landed := rfl
@[simp] theorem Hw.setPair_landing (h : Hw) (f : Pair → Pair) : (h.setPair f).landing = h.landing := rfl
@[simp] theorem Hw.setPair_mmu (h : Hw) (f : Pair → Pair) : (h.setPair f).mmu = h.mmu := rfl
@[simp] theorem Hw.setPair_mig (h : Hw) (f : Pair → Pair) : (h.setPair f).mig = h.mig := rfl
@[simp] theorem Hw.setPair_sfu (h : Hw) (f : Pair → Pair) : (h.setPair f).sfu = h.sfu := rfl
@[simp] theorem Hw.setPair_vocs (h : Hw) (f : Pair → Pair) : (h.setPair f).vocs = h.vocs := rfl
@[simp] theorem Hw.setPair_tbls (h : Hw) (f : Pair → Pair) : (h.setPair f).tbls = h.tbls := rfl
@[simp] theorem Hw.setPair_frees (h : Hw) (f : Pair → Pair) : (h.setPair f).frees = h.frees := rfl
@[simp] theorem Hw.setPair_tblSerial (h : Hw) (f : Pair → Pair) : (h.setPair f).tblSerial = h.tblSerial := rfl
@[simp] theorem Hw.setPair_gathers (h : Hw) (f : Pair → Pair) : (h.setPair f).gathers = h.gathers := rfl
@[simp] theorem Hw.setPair_exch (h : Hw) (f : Pair → Pair) : (h.setPair f).exch = h.exch := rfl
@[simp] theorem Hw.setPair_fwd (h : Hw) (f : Pair → Pair) : (h.setPair f).fwd = h.fwd := rfl
@[simp] theorem Hw.setPair_embSeq (h : Hw) (f : Pair → Pair) : (h.setPair f).embSeq = h.embSeq := rfl
@[simp] theorem Hw.setPair_idxs (h : Hw) (f : Pair → Pair) : (h.setPair f).idxs = h.idxs := rfl
@[simp] theorem Hw.setPair_cbTag (h : Hw) (f : Pair → Pair) : (h.setPair f).cbTag = h.cbTag := rfl
@[simp] theorem Hw.setPair_srv (h : Hw) (f : Pair → Pair) : (h.setPair f).srv = h.srv := rfl
@[simp] theorem Hw.setPair_muzCtx (h : Hw) (f : Pair → Pair) : (h.setPair f).muzCtx = h.muzCtx := rfl
@[simp] theorem Hw.setPair_changes (h : Hw) (f : Pair → Pair) : (h.setPair f).changes = h.changes := rfl
@[simp] theorem Hw.setPair_streams (h : Hw) (f : Pair → Pair) : (h.setPair f).streams = h.streams := rfl
@[simp] theorem Hw.setPair_measures (h : Hw) (f : Pair → Pair) : (h.setPair f).measures = h.measures := rfl
@[simp] theorem Hw.setPair_measured (h : Hw) (f : Pair → Pair) : (h.setPair f).measured = h.measured := rfl
@[simp] theorem Hw.setPair_fused (h : Hw) (f : Pair → Pair) : (h.setPair f).fused = h.fused := rfl
@[simp] theorem Hw.setPair_resetting (h : Hw) (f : Pair → Pair) : (h.setPair f).resetting = h.resetting := rfl
@[simp] theorem Hw.setPair_stepHeld (h : Hw) (f : Pair → Pair) : (h.setPair f).stepHeld = h.stepHeld := rfl
@[simp] theorem Hw.setPair_trc (h : Hw) (f : Pair → Pair) : (h.setPair f).trc = h.trc := rfl
@[simp] theorem Hw.setPair_pcieBif (h : Hw) (f : Pair → Pair) : (h.setPair f).pcieBif = h.pcieBif := rfl
@[simp] theorem Hw.setPair_pcieA (h : Hw) (f : Pair → Pair) : (h.setPair f).pcieA = h.pcieA := rfl
@[simp] theorem Hw.setPair_pcieB (h : Hw) (f : Pair → Pair) : (h.setPair f).pcieB = h.pcieB := rfl
@[simp] theorem Hw.setPair_pow (h : Hw) (f : Pair → Pair) : (h.setPair f).pow = h.pow := rfl
@[simp] theorem Hw.setPair_attests (h : Hw) (f : Pair → Pair) : (h.setPair f).attests = h.attests := rfl
@[simp] theorem Hw.setPair_retires (h : Hw) (f : Pair → Pair) : (h.setPair f).retires = h.retires := rfl
@[simp] theorem Hw.setPair_bist (h : Hw) (f : Pair → Pair) : (h.setPair f).bist = h.bist := rfl
@[simp] theorem Hw.setPair_life (h : Hw) (f : Pair → Pair) : (h.setPair f).life = h.life := rfl
@[simp] theorem Hw.setPair_ports (h : Hw) (f : Pair → Pair) : (h.setPair f).ports = h.ports := rfl
@[simp] theorem Hw.setPair_remoteOut (h : Hw) (f : Pair → Pair) : (h.setPair f).remoteOut = h.remoteOut := rfl

/-! `Hw.setBist` -/

@[simp] theorem Hw.setBist_regs (h : Hw) (f : Bist → Bist) : (h.setBist f).regs = h.regs := rfl
@[simp] theorem Hw.setBist_mem (h : Hw) (f : Bist → Bist) : (h.setBist f).mem = h.mem := rfl
@[simp] theorem Hw.setBist_poison (h : Hw) (f : Bist → Bist) : (h.setBist f).poison = h.poison := rfl
@[simp] theorem Hw.setBist_upsets (h : Hw) (f : Bist → Bist) : (h.setBist f).upsets = h.upsets := rfl
@[simp] theorem Hw.setBist_flips (h : Hw) (f : Bist → Bist) : (h.setBist f).flips = h.flips := rfl
@[simp] theorem Hw.setBist_scrubAt (h : Hw) (f : Bist → Bist) : (h.setBist f).scrubAt = h.scrubAt := rfl
@[simp] theorem Hw.setBist_temps (h : Hw) (f : Bist → Bist) : (h.setBist f).temps = h.temps := rfl
@[simp] theorem Hw.setBist_time (h : Hw) (f : Bist → Bist) : (h.setBist f).time = h.time := rfl
@[simp] theorem Hw.setBist_freeCtr (h : Hw) (f : Bist → Bist) : (h.setBist f).freeCtr = h.freeCtr := rfl
@[simp] theorem Hw.setBist_out (h : Hw) (f : Bist → Bist) : (h.setBist f).out = h.out := rfl
@[simp] theorem Hw.setBist_accA (h : Hw) (f : Bist → Bist) : (h.setBist f).accA = h.accA := rfl
@[simp] theorem Hw.setBist_accB (h : Hw) (f : Bist → Bist) : (h.setBist f).accB = h.accB := rfl
@[simp] theorem Hw.setBist_accH (h : Hw) (f : Bist → Bist) : (h.setBist f).accH = h.accH := rfl
@[simp] theorem Hw.setBist_queues (h : Hw) (f : Bist → Bist) : (h.setBist f).queues = h.queues := rfl
@[simp] theorem Hw.setBist_granted (h : Hw) (f : Bist → Bist) : (h.setBist f).granted = h.granted := rfl
@[simp] theorem Hw.setBist_groups (h : Hw) (f : Bist → Bist) : (h.setBist f).groups = h.groups := rfl
@[simp] theorem Hw.setBist_tagged (h : Hw) (f : Bist → Bist) : (h.setBist f).tagged = h.tagged := rfl
@[simp] theorem Hw.setBist_probes (h : Hw) (f : Bist → Bist) : (h.setBist f).probes = h.probes := rfl
@[simp] theorem Hw.setBist_dma (h : Hw) (f : Bist → Bist) : (h.setBist f).dma = h.dma := rfl
@[simp] theorem Hw.setBist_dmaLast (h : Hw) (f : Bist → Bist) : (h.setBist f).dmaLast = h.dmaLast := rfl
@[simp] theorem Hw.setBist_dmaAsks (h : Hw) (f : Bist → Bist) : (h.setBist f).dmaAsks = h.dmaAsks := rfl
@[simp] theorem Hw.setBist_portQ (h : Hw) (f : Bist → Bist) : (h.setBist f).portQ = h.portQ := rfl
@[simp] theorem Hw.setBist_leashQ (h : Hw) (f : Bist → Bist) : (h.setBist f).leashQ = h.leashQ := rfl
@[simp] theorem Hw.setBist_landed (h : Hw) (f : Bist → Bist) : (h.setBist f).landed = h.landed := rfl
@[simp] theorem Hw.setBist_landing (h : Hw) (f : Bist → Bist) : (h.setBist f).landing = h.landing := rfl
@[simp] theorem Hw.setBist_mmu (h : Hw) (f : Bist → Bist) : (h.setBist f).mmu = h.mmu := rfl
@[simp] theorem Hw.setBist_mig (h : Hw) (f : Bist → Bist) : (h.setBist f).mig = h.mig := rfl
@[simp] theorem Hw.setBist_sfu (h : Hw) (f : Bist → Bist) : (h.setBist f).sfu = h.sfu := rfl
@[simp] theorem Hw.setBist_vocs (h : Hw) (f : Bist → Bist) : (h.setBist f).vocs = h.vocs := rfl
@[simp] theorem Hw.setBist_tbls (h : Hw) (f : Bist → Bist) : (h.setBist f).tbls = h.tbls := rfl
@[simp] theorem Hw.setBist_frees (h : Hw) (f : Bist → Bist) : (h.setBist f).frees = h.frees := rfl
@[simp] theorem Hw.setBist_tblSerial (h : Hw) (f : Bist → Bist) : (h.setBist f).tblSerial = h.tblSerial := rfl
@[simp] theorem Hw.setBist_gathers (h : Hw) (f : Bist → Bist) : (h.setBist f).gathers = h.gathers := rfl
@[simp] theorem Hw.setBist_exch (h : Hw) (f : Bist → Bist) : (h.setBist f).exch = h.exch := rfl
@[simp] theorem Hw.setBist_fwd (h : Hw) (f : Bist → Bist) : (h.setBist f).fwd = h.fwd := rfl
@[simp] theorem Hw.setBist_embSeq (h : Hw) (f : Bist → Bist) : (h.setBist f).embSeq = h.embSeq := rfl
@[simp] theorem Hw.setBist_idxs (h : Hw) (f : Bist → Bist) : (h.setBist f).idxs = h.idxs := rfl
@[simp] theorem Hw.setBist_cbTag (h : Hw) (f : Bist → Bist) : (h.setBist f).cbTag = h.cbTag := rfl
@[simp] theorem Hw.setBist_srv (h : Hw) (f : Bist → Bist) : (h.setBist f).srv = h.srv := rfl
@[simp] theorem Hw.setBist_muzCtx (h : Hw) (f : Bist → Bist) : (h.setBist f).muzCtx = h.muzCtx := rfl
@[simp] theorem Hw.setBist_changes (h : Hw) (f : Bist → Bist) : (h.setBist f).changes = h.changes := rfl
@[simp] theorem Hw.setBist_streams (h : Hw) (f : Bist → Bist) : (h.setBist f).streams = h.streams := rfl
@[simp] theorem Hw.setBist_measures (h : Hw) (f : Bist → Bist) : (h.setBist f).measures = h.measures := rfl
@[simp] theorem Hw.setBist_measured (h : Hw) (f : Bist → Bist) : (h.setBist f).measured = h.measured := rfl
@[simp] theorem Hw.setBist_fused (h : Hw) (f : Bist → Bist) : (h.setBist f).fused = h.fused := rfl
@[simp] theorem Hw.setBist_resetting (h : Hw) (f : Bist → Bist) : (h.setBist f).resetting = h.resetting := rfl
@[simp] theorem Hw.setBist_stepHeld (h : Hw) (f : Bist → Bist) : (h.setBist f).stepHeld = h.stepHeld := rfl
@[simp] theorem Hw.setBist_trc (h : Hw) (f : Bist → Bist) : (h.setBist f).trc = h.trc := rfl
@[simp] theorem Hw.setBist_pcieBif (h : Hw) (f : Bist → Bist) : (h.setBist f).pcieBif = h.pcieBif := rfl
@[simp] theorem Hw.setBist_pcieA (h : Hw) (f : Bist → Bist) : (h.setBist f).pcieA = h.pcieA := rfl
@[simp] theorem Hw.setBist_pcieB (h : Hw) (f : Bist → Bist) : (h.setBist f).pcieB = h.pcieB := rfl
@[simp] theorem Hw.setBist_pow (h : Hw) (f : Bist → Bist) : (h.setBist f).pow = h.pow := rfl
@[simp] theorem Hw.setBist_attests (h : Hw) (f : Bist → Bist) : (h.setBist f).attests = h.attests := rfl
@[simp] theorem Hw.setBist_retires (h : Hw) (f : Bist → Bist) : (h.setBist f).retires = h.retires := rfl
@[simp] theorem Hw.setBist_life (h : Hw) (f : Bist → Bist) : (h.setBist f).life = h.life := rfl
@[simp] theorem Hw.setBist_ports (h : Hw) (f : Bist → Bist) : (h.setBist f).ports = h.ports := rfl
@[simp] theorem Hw.setBist_pair (h : Hw) (f : Bist → Bist) : (h.setBist f).pair = h.pair := rfl
@[simp] theorem Hw.setBist_remoteOut (h : Hw) (f : Bist → Bist) : (h.setBist f).remoteOut = h.remoteOut := rfl

/-! `Hw.noteChange` -/

@[simp] theorem Hw.noteChange_regs (h : Hw) (c : MirrorChange) : (h.noteChange c).regs = h.regs := rfl
@[simp] theorem Hw.noteChange_mem (h : Hw) (c : MirrorChange) : (h.noteChange c).mem = h.mem := rfl
@[simp] theorem Hw.noteChange_poison (h : Hw) (c : MirrorChange) : (h.noteChange c).poison = h.poison := rfl
@[simp] theorem Hw.noteChange_upsets (h : Hw) (c : MirrorChange) : (h.noteChange c).upsets = h.upsets := rfl
@[simp] theorem Hw.noteChange_flips (h : Hw) (c : MirrorChange) : (h.noteChange c).flips = h.flips := rfl
@[simp] theorem Hw.noteChange_scrubAt (h : Hw) (c : MirrorChange) : (h.noteChange c).scrubAt = h.scrubAt := rfl
@[simp] theorem Hw.noteChange_temps (h : Hw) (c : MirrorChange) : (h.noteChange c).temps = h.temps := rfl
@[simp] theorem Hw.noteChange_time (h : Hw) (c : MirrorChange) : (h.noteChange c).time = h.time := rfl
@[simp] theorem Hw.noteChange_freeCtr (h : Hw) (c : MirrorChange) : (h.noteChange c).freeCtr = h.freeCtr := rfl
@[simp] theorem Hw.noteChange_out (h : Hw) (c : MirrorChange) : (h.noteChange c).out = h.out := rfl
@[simp] theorem Hw.noteChange_accA (h : Hw) (c : MirrorChange) : (h.noteChange c).accA = h.accA := rfl
@[simp] theorem Hw.noteChange_accB (h : Hw) (c : MirrorChange) : (h.noteChange c).accB = h.accB := rfl
@[simp] theorem Hw.noteChange_accH (h : Hw) (c : MirrorChange) : (h.noteChange c).accH = h.accH := rfl
@[simp] theorem Hw.noteChange_queues (h : Hw) (c : MirrorChange) : (h.noteChange c).queues = h.queues := rfl
@[simp] theorem Hw.noteChange_granted (h : Hw) (c : MirrorChange) : (h.noteChange c).granted = h.granted := rfl
@[simp] theorem Hw.noteChange_groups (h : Hw) (c : MirrorChange) : (h.noteChange c).groups = h.groups := rfl
@[simp] theorem Hw.noteChange_tagged (h : Hw) (c : MirrorChange) : (h.noteChange c).tagged = h.tagged := rfl
@[simp] theorem Hw.noteChange_probes (h : Hw) (c : MirrorChange) : (h.noteChange c).probes = h.probes := rfl
@[simp] theorem Hw.noteChange_dma (h : Hw) (c : MirrorChange) : (h.noteChange c).dma = h.dma := rfl
@[simp] theorem Hw.noteChange_dmaLast (h : Hw) (c : MirrorChange) : (h.noteChange c).dmaLast = h.dmaLast := rfl
@[simp] theorem Hw.noteChange_dmaAsks (h : Hw) (c : MirrorChange) : (h.noteChange c).dmaAsks = h.dmaAsks := rfl
@[simp] theorem Hw.noteChange_portQ (h : Hw) (c : MirrorChange) : (h.noteChange c).portQ = h.portQ := rfl
@[simp] theorem Hw.noteChange_leashQ (h : Hw) (c : MirrorChange) : (h.noteChange c).leashQ = h.leashQ := rfl
@[simp] theorem Hw.noteChange_landed (h : Hw) (c : MirrorChange) : (h.noteChange c).landed = h.landed := rfl
@[simp] theorem Hw.noteChange_landing (h : Hw) (c : MirrorChange) : (h.noteChange c).landing = h.landing := rfl
@[simp] theorem Hw.noteChange_mmu (h : Hw) (c : MirrorChange) : (h.noteChange c).mmu = h.mmu := rfl
@[simp] theorem Hw.noteChange_mig (h : Hw) (c : MirrorChange) : (h.noteChange c).mig = h.mig := rfl
@[simp] theorem Hw.noteChange_sfu (h : Hw) (c : MirrorChange) : (h.noteChange c).sfu = h.sfu := rfl
@[simp] theorem Hw.noteChange_vocs (h : Hw) (c : MirrorChange) : (h.noteChange c).vocs = h.vocs := rfl
@[simp] theorem Hw.noteChange_tbls (h : Hw) (c : MirrorChange) : (h.noteChange c).tbls = h.tbls := rfl
@[simp] theorem Hw.noteChange_frees (h : Hw) (c : MirrorChange) : (h.noteChange c).frees = h.frees := rfl
@[simp] theorem Hw.noteChange_tblSerial (h : Hw) (c : MirrorChange) : (h.noteChange c).tblSerial = h.tblSerial := rfl
@[simp] theorem Hw.noteChange_gathers (h : Hw) (c : MirrorChange) : (h.noteChange c).gathers = h.gathers := rfl
@[simp] theorem Hw.noteChange_exch (h : Hw) (c : MirrorChange) : (h.noteChange c).exch = h.exch := rfl
@[simp] theorem Hw.noteChange_fwd (h : Hw) (c : MirrorChange) : (h.noteChange c).fwd = h.fwd := rfl
@[simp] theorem Hw.noteChange_embSeq (h : Hw) (c : MirrorChange) : (h.noteChange c).embSeq = h.embSeq := rfl
@[simp] theorem Hw.noteChange_idxs (h : Hw) (c : MirrorChange) : (h.noteChange c).idxs = h.idxs := rfl
@[simp] theorem Hw.noteChange_cbTag (h : Hw) (c : MirrorChange) : (h.noteChange c).cbTag = h.cbTag := rfl
@[simp] theorem Hw.noteChange_srv (h : Hw) (c : MirrorChange) : (h.noteChange c).srv = h.srv := rfl
@[simp] theorem Hw.noteChange_muzCtx (h : Hw) (c : MirrorChange) : (h.noteChange c).muzCtx = h.muzCtx := rfl
@[simp] theorem Hw.noteChange_streams (h : Hw) (c : MirrorChange) : (h.noteChange c).streams = h.streams := rfl
@[simp] theorem Hw.noteChange_measures (h : Hw) (c : MirrorChange) : (h.noteChange c).measures = h.measures := rfl
@[simp] theorem Hw.noteChange_measured (h : Hw) (c : MirrorChange) : (h.noteChange c).measured = h.measured := rfl
@[simp] theorem Hw.noteChange_fused (h : Hw) (c : MirrorChange) : (h.noteChange c).fused = h.fused := rfl
@[simp] theorem Hw.noteChange_resetting (h : Hw) (c : MirrorChange) : (h.noteChange c).resetting = h.resetting := rfl
@[simp] theorem Hw.noteChange_stepHeld (h : Hw) (c : MirrorChange) : (h.noteChange c).stepHeld = h.stepHeld := rfl
@[simp] theorem Hw.noteChange_trc (h : Hw) (c : MirrorChange) : (h.noteChange c).trc = h.trc := rfl
@[simp] theorem Hw.noteChange_pcieBif (h : Hw) (c : MirrorChange) : (h.noteChange c).pcieBif = h.pcieBif := rfl
@[simp] theorem Hw.noteChange_pcieA (h : Hw) (c : MirrorChange) : (h.noteChange c).pcieA = h.pcieA := rfl
@[simp] theorem Hw.noteChange_pcieB (h : Hw) (c : MirrorChange) : (h.noteChange c).pcieB = h.pcieB := rfl
@[simp] theorem Hw.noteChange_pow (h : Hw) (c : MirrorChange) : (h.noteChange c).pow = h.pow := rfl
@[simp] theorem Hw.noteChange_attests (h : Hw) (c : MirrorChange) : (h.noteChange c).attests = h.attests := rfl
@[simp] theorem Hw.noteChange_retires (h : Hw) (c : MirrorChange) : (h.noteChange c).retires = h.retires := rfl
@[simp] theorem Hw.noteChange_bist (h : Hw) (c : MirrorChange) : (h.noteChange c).bist = h.bist := rfl
@[simp] theorem Hw.noteChange_life (h : Hw) (c : MirrorChange) : (h.noteChange c).life = h.life := rfl
@[simp] theorem Hw.noteChange_ports (h : Hw) (c : MirrorChange) : (h.noteChange c).ports = h.ports := rfl
@[simp] theorem Hw.noteChange_pair (h : Hw) (c : MirrorChange) : (h.noteChange c).pair = h.pair := rfl
@[simp] theorem Hw.noteChange_remoteOut (h : Hw) (c : MirrorChange) : (h.noteChange c).remoteOut = h.remoteOut := rfl

/-! `State.onHw` and `State.whenUp` -/

@[simp] theorem State.onHw_pending (s : State) (f : Hw → Hw) : (s.onHw f).pending = s.pending := by unfold State.onHw; split <;> rfl
@[simp] theorem State.onHw_boot (s : State) (f : Hw → Hw) : (s.onHw f).boot = s.boot := by unfold State.onHw; split <;> rfl
/-- With the rails up a command's effect on the hardware part is done. -/
theorem State.onHw_up (s : State) (f : Hw → Hw) (h : s.hw.pow.off = false) : s.onHw f = { s with hw := f s.hw } := by
  simp [State.onHw, h]
theorem State.onHw_off (s : State) (f : Hw → Hw) (h : s.hw.pow.off = true) : s.onHw f = s := by simp [State.onHw, h]
theorem State.whenUp_up (s : State) (f : State → State) (h : s.hw.pow.off = false) : s.whenUp f = f s := by simp [State.whenUp, h]
theorem State.whenUp_off (s : State) (f : State → State) (h : s.hw.pow.off = true) : s.whenUp f = s := by simp [State.whenUp, h]

end Sys2Proof.Machine
end

