-- ==== Sys2Proof/Laws/Ops.lean ====
section
/-! SUPPORT. What the shared operations do: the register file, interrupt lines, memory. -/

namespace Sys2Proof.Machine

/-! ### Registers -/

@[simp] theorem Hw.reg_setReg_same (h : Hw) (off : Nat) (v : Word) (b : Nat) : (h.setReg off v b).reg off b = v := by
  simp [Hw.reg, Hw.setReg]

theorem Hw.reg_setReg_other (h : Hw) {off off' : Nat} (v : Word) {b b' : Nat} (hk : regKey off' b' ≠ regKey off b) :
    (h.setReg off v b).reg off' b' = h.reg off' b' := by
  simp [Hw.reg, Hw.setReg, smGet_smSet_other _ _ hk]

@[simp] theorem Hw.rd_wr_same (h : Hw) (p o v b : Nat) : (h.wr p o v b).rd p o b = v % 0x100000000 := by
  simp [Hw.rd, Hw.wr]

theorem Hw.rd_wr_other (h : Hw) {p o p' o' : Nat} (v : Nat) {b b' : Nat}
    (hk : regKey (p' * 0x1000 + o') b' ≠ regKey (p * 0x1000 + o) b) : (h.wr p o v b).rd p' o' b' = h.rd p' o' b' := by
  simp [Hw.rd, Hw.wr, Hw.reg_setReg_other _ _ hk]

/-- Storing a register keeps the canonical form. -/
theorem Hw.setReg_canonical (h : Hw) (off : Nat) (v : Word) (b : Nat) (hw : Registers.wf h.regs = true) :
    Registers.wf (h.setReg off v b).regs = true := smWf_smSet Registers.dflt _ v h.regs hw

/-- Storing bytes keeps it. -/
theorem Hw.store_canonical (h : Hw) (k : Nat) (bs : List Byte) (hw : Memory.wf h.mem = true) : Memory.wf (h.store k bs).mem = true :=
  memStore_wf bs k h.mem hw

/-- A stored byte reads as stored, and every other byte as before. -/
theorem Hw.byte_store_same (h : Hw) (k : Nat) (bs : List Byte) (i : Nat) (hi : i < bs.length) :
    (h.store k bs).byte (k + i) = bs.getD i 0 := memStore_get bs k i h.mem hi
theorem Hw.byte_store_other (h : Hw) (k : Nat) (bs : List Byte) (j : Nat) (hj : j < k ∨ k + bs.length ≤ j) :
    (h.store k bs).byte j = h.byte j := memStore_other bs k j h.mem hj

/-! ### What only registers and interrupt edges differ in -/

/-- `b` is `a` but for its registers. -/
def Hw.RegsOnly (a b : Hw) : Prop := b = { a with regs := b.regs }

/-- `b` is `a` but for its registers and the edges that wait for a wake. -/
def Hw.LinesOnly (a b : Hw) : Prop := b = { a with regs := b.regs, pow := { a.pow with edges := b.pow.edges } }

theorem Hw.RegsOnly.refl (a : Hw) : Hw.RegsOnly a a := rfl
theorem Hw.LinesOnly.refl (a : Hw) : Hw.LinesOnly a a := rfl

theorem Hw.RegsOnly.trans {a b c : Hw} (h : Hw.RegsOnly a b) (k : Hw.RegsOnly b c) : Hw.RegsOnly a c := by
  unfold Hw.RegsOnly at h k ⊢; rw [k, h]

theorem Hw.LinesOnly.trans {a b c : Hw} (h : Hw.LinesOnly a b) (k : Hw.LinesOnly b c) : Hw.LinesOnly a c := by
  unfold Hw.LinesOnly at h k ⊢; rw [k, h]

theorem Hw.RegsOnly.lines {a b : Hw} (h : Hw.RegsOnly a b) : Hw.LinesOnly a b := by
  unfold Hw.RegsOnly at h; unfold Hw.LinesOnly; rw [h]

theorem Hw.setReg_regsOnly (h : Hw) (off : Nat) (v : Word) (b : Nat) : Hw.RegsOnly h (h.setReg off v b) := rfl
theorem Hw.wr_regsOnly (h : Hw) (p o v b : Nat) : Hw.RegsOnly h (h.wr p o v b) := rfl
theorem Hw.wr64_regsOnly (h : Hw) (p o v b : Nat) : Hw.RegsOnly h (h.wr64 p o v b) := rfl
theorem Hw.setBit_regsOnly (h : Hw) (p o n : Nat) (b : Bool) : Hw.RegsOnly h (h.setBit p o n b) := rfl
theorem Hw.count_regsOnly (h : Hw) (p o n : Nat) : Hw.RegsOnly h (h.count p o n) := rfl
theorem Hw.count64_regsOnly (h : Hw) (p o n : Nat) : Hw.RegsOnly h (h.count64 p o n) :=
  h.wr64_regsOnly p o _ 0
theorem Hw.badAccess_regsOnly (h : Hw) (off : Nat) : Hw.RegsOnly h (h.badAccess off) := rfl
theorem Hw.latch_regsOnly (h : Hw) (s : Nat) : Hw.RegsOnly h (h.latch s) := rfl
theorem Hw.err_regsOnly (h : Hw) (p d code : Nat) : Hw.RegsOnly h (h.err p d code) := by
  unfold Hw.err; split <;> rfl

theorem Hw.edge_lines (h : Hw) (s : Nat) : Hw.LinesOnly h (h.edge s) := by
  unfold Hw.edge; split
  · exact (h.latch_regsOnly s).lines
  · rfl

theorem Hw.watch_lines (h : Hw) (p : Nat) (f : Hw → Hw) (hf : Hw.LinesOnly h (f h)) : Hw.LinesOnly h (h.watch p f) := by
  unfold Hw.watch; split
  · exact hf
  · split
    · exact hf.trans ((f h).edge_lines _)
    · exact hf

/-- All that raising an interrupt condition can do. -/
theorem Hw.raise_lines (h : Hw) (p n : Nat) : Hw.LinesOnly h (h.raise p n) :=
  h.watch_lines p _ (((h.setBit_regsOnly p 0x010 n true).trans ((h.setBit p 0x010 n true).setBit_regsOnly p 0x018 n true)).lines)

theorem Hw.setSem_regsOnly (h : Hw) (core i n : Nat) : Hw.RegsOnly h (h.setSem core i n) := rfl

theorem Hw.semAdd_lines (h : Hw) (core i n : Nat) : Hw.LinesOnly h (h.semAdd core i n) := by
  unfold Hw.semAdd; dsimp only; split
  · exact (h.setSem_regsOnly core i _).lines.trans (Hw.raise_lines _ _ _)
  · exact (h.setSem_regsOnly core i _).lines

/-! What that leaves alone, field by field -/

theorem Hw.LinesOnly.mem {a b : Hw} (h : Hw.LinesOnly a b) : b.mem = a.mem := by rw [h]
theorem Hw.LinesOnly.poison {a b : Hw} (h : Hw.LinesOnly a b) : b.poison = a.poison := by rw [h]
theorem Hw.LinesOnly.upsets {a b : Hw} (h : Hw.LinesOnly a b) : b.upsets = a.upsets := by rw [h]
theorem Hw.LinesOnly.time {a b : Hw} (h : Hw.LinesOnly a b) : b.time = a.time := by rw [h]
theorem Hw.LinesOnly.freeCtr {a b : Hw} (h : Hw.LinesOnly a b) : b.freeCtr = a.freeCtr := by rw [h]
theorem Hw.LinesOnly.out {a b : Hw} (h : Hw.LinesOnly a b) : b.out = a.out := by rw [h]
theorem Hw.LinesOnly.accA {a b : Hw} (h : Hw.LinesOnly a b) : b.accA = a.accA := by rw [h]
theorem Hw.LinesOnly.accB {a b : Hw} (h : Hw.LinesOnly a b) : b.accB = a.accB := by rw [h]
theorem Hw.LinesOnly.accH {a b : Hw} (h : Hw.LinesOnly a b) : b.accH = a.accH := by rw [h]
theorem Hw.LinesOnly.queues {a b : Hw} (h : Hw.LinesOnly a b) : b.queues = a.queues := by rw [h]
theorem Hw.LinesOnly.granted {a b : Hw} (h : Hw.LinesOnly a b) : b.granted = a.granted := by rw [h]
theorem Hw.LinesOnly.groups {a b : Hw} (h : Hw.LinesOnly a b) : b.groups = a.groups := by rw [h]
theorem Hw.LinesOnly.tagged {a b : Hw} (h : Hw.LinesOnly a b) : b.tagged = a.tagged := by rw [h]
theorem Hw.LinesOnly.probes {a b : Hw} (h : Hw.LinesOnly a b) : b.probes = a.probes := by rw [h]
theorem Hw.LinesOnly.dma {a b : Hw} (h : Hw.LinesOnly a b) : b.dma = a.dma := by rw [h]
theorem Hw.LinesOnly.landed {a b : Hw} (h : Hw.LinesOnly a b) : b.landed = a.landed := by rw [h]
theorem Hw.LinesOnly.landing {a b : Hw} (h : Hw.LinesOnly a b) : b.landing = a.landing := by rw [h]
theorem Hw.LinesOnly.mmu {a b : Hw} (h : Hw.LinesOnly a b) : b.mmu = a.mmu := by rw [h]
theorem Hw.LinesOnly.mig {a b : Hw} (h : Hw.LinesOnly a b) : b.mig = a.mig := by rw [h]
theorem Hw.LinesOnly.sfu {a b : Hw} (h : Hw.LinesOnly a b) : b.sfu = a.sfu := by rw [h]
theorem Hw.LinesOnly.vocs {a b : Hw} (h : Hw.LinesOnly a b) : b.vocs = a.vocs := by rw [h]
theorem Hw.LinesOnly.tbls {a b : Hw} (h : Hw.LinesOnly a b) : b.tbls = a.tbls := by rw [h]
theorem Hw.LinesOnly.frees {a b : Hw} (h : Hw.LinesOnly a b) : b.frees = a.frees := by rw [h]
theorem Hw.LinesOnly.tblSerial {a b : Hw} (h : Hw.LinesOnly a b) : b.tblSerial = a.tblSerial := by rw [h]
theorem Hw.LinesOnly.gathers {a b : Hw} (h : Hw.LinesOnly a b) : b.gathers = a.gathers := by rw [h]
theorem Hw.LinesOnly.idxs {a b : Hw} (h : Hw.LinesOnly a b) : b.idxs = a.idxs := by rw [h]
theorem Hw.LinesOnly.cbTag {a b : Hw} (h : Hw.LinesOnly a b) : b.cbTag = a.cbTag := by rw [h]
theorem Hw.LinesOnly.srv {a b : Hw} (h : Hw.LinesOnly a b) : b.srv = a.srv := by rw [h]
theorem Hw.LinesOnly.muzCtx {a b : Hw} (h : Hw.LinesOnly a b) : b.muzCtx = a.muzCtx := by rw [h]
theorem Hw.LinesOnly.changes {a b : Hw} (h : Hw.LinesOnly a b) : b.changes = a.changes := by rw [h]
theorem Hw.LinesOnly.streams {a b : Hw} (h : Hw.LinesOnly a b) : b.streams = a.streams := by rw [h]
theorem Hw.LinesOnly.measures {a b : Hw} (h : Hw.LinesOnly a b) : b.measures = a.measures := by rw [h]
theorem Hw.LinesOnly.measured {a b : Hw} (h : Hw.LinesOnly a b) : b.measured = a.measured := by rw [h]
theorem Hw.LinesOnly.fused {a b : Hw} (h : Hw.LinesOnly a b) : b.fused = a.fused := by rw [h]
theorem Hw.LinesOnly.resetting {a b : Hw} (h : Hw.LinesOnly a b) : b.resetting = a.resetting := by rw [h]
theorem Hw.LinesOnly.stepHeld {a b : Hw} (h : Hw.LinesOnly a b) : b.stepHeld = a.stepHeld := by rw [h]
theorem Hw.LinesOnly.trc {a b : Hw} (h : Hw.LinesOnly a b) : b.trc = a.trc := by rw [h]
theorem Hw.LinesOnly.pcieBif {a b : Hw} (h : Hw.LinesOnly a b) : b.pcieBif = a.pcieBif := by rw [h]
theorem Hw.LinesOnly.pcieA {a b : Hw} (h : Hw.LinesOnly a b) : b.pcieA = a.pcieA := by rw [h]
theorem Hw.LinesOnly.pcieB {a b : Hw} (h : Hw.LinesOnly a b) : b.pcieB = a.pcieB := by rw [h]
theorem Hw.LinesOnly.attests {a b : Hw} (h : Hw.LinesOnly a b) : b.attests = a.attests := by rw [h]
theorem Hw.LinesOnly.bist {a b : Hw} (h : Hw.LinesOnly a b) : b.bist = a.bist := by rw [h]
theorem Hw.LinesOnly.life {a b : Hw} (h : Hw.LinesOnly a b) : b.life = a.life := by rw [h]
theorem Hw.LinesOnly.ports {a b : Hw} (h : Hw.LinesOnly a b) : b.ports = a.ports := by rw [h]
theorem Hw.LinesOnly.pair {a b : Hw} (h : Hw.LinesOnly a b) : b.pair = a.pair := by rw [h]
theorem Hw.LinesOnly.remoteOut {a b : Hw} (h : Hw.LinesOnly a b) : b.remoteOut = a.remoteOut := by rw [h]

end Sys2Proof.Machine
end

