-- ==== Sys2Proof/Laws/Boot.lean ====
section
/-! SUPPORT. What the meanings that act on more than the hardware part do to the boot store and the waiting commands. -/

namespace Sys2Proof.Machine

/-- From `s` to `t` the waiting commands stand, the boot store keeps its form, and no rollback counter falls. -/
def State.Tame (s t : State) : Prop := t.pending = s.pending ∧ (s.boot.Inv → t.boot.Inv) ∧ Boot.NoRollback s.boot t.boot

theorem State.Tame.refl (s : State) : State.Tame s s := ⟨rfl, id, fun _ _ => Nat.le_refl _⟩

theorem State.Tame.trans {a b c : State} (h : State.Tame a b) (k : State.Tame b c) : State.Tame a c :=
  ⟨k.1.trans h.1, k.2.1 ∘ h.2.1, fun i hi => Nat.le_trans (h.2.2 i hi) (k.2.2 i hi)⟩

/-- A change of the hardware part alone. -/
theorem State.Tame.hw (s : State) (h : Hw) : State.Tame s { s with hw := h } := ⟨rfl, id, fun _ _ => Nat.le_refl _⟩

/-- A change that leaves the flash and the counters. -/
theorem State.Tame.same (s : State) (h : Hw) (b : Boot) (hf : b.flash = s.boot.flash) (hc : b.counters = s.boot.counters) :
    State.Tame s { s with hw := h, boot := b } :=
  ⟨rfl, fun i => by unfold Boot.Inv at *; rw [hf, hc]; exact i, fun i _ => by rw [show ({ s with hw := h, boot := b } : State).boot = b from rfl, hc]⟩

theorem State.Tame.onHw (s : State) (f : Hw → Hw) : State.Tame s (s.onHw f) := by
  unfold State.onHw; split
  · exact State.Tame.refl s
  · exact State.Tame.hw s _

theorem State.Tame.whenUp (s : State) (f : State → State) (h : State.Tame s (f s)) : State.Tame s (s.whenUp f) := by
  unfold State.whenUp; split
  · exact State.Tame.refl s
  · exact h

theorem State.Tame.guardWrite (s : State) (r : Req) (p o v : Nat) (f : State → State) (h : State.Tame s (f s)) :
    State.Tame s (s.guardWrite r p o v f) := by
  unfold State.guardWrite
  split
  · exact State.Tame.hw s _
  · split
    · exact State.Tame.hw s _
    · exact h

/-- A fold of changes each of which is tame. -/
theorem State.Tame.foldl {α : Type} (f : State → α → State) (hf : ∀ s a, State.Tame s (f s a)) (l : List α) :
    ∀ s, State.Tame s (l.foldl f s) := by
  induction l with
  | nil => exact State.Tame.refl
  | cons a t ih => exact fun s => (hf s a).trans (ih _)

/-! ### The flash -/

theorem flashStore_wf (bs : List Byte) : ∀ (k : Nat) (m : List Host.Cell), Flash.wf m = true → Flash.wf (flashStore k bs m) = true := by
  induction bs with
  | nil => intro k m h; exact h
  | cons b bs ih => intro k m h; exact ih (k + 1) _ (smWf_smSet (fun _ => (0xFF : Byte)) k b m h)

theorem flashStore_other (bs : List Byte) : ∀ (k j : Nat) (m : List Host.Cell), (j < k ∨ k + bs.length ≤ j) →
    smGet 0xFF j (flashStore k bs m) = smGet 0xFF j m := by
  induction bs with
  | nil => intro k j m _; rfl
  | cons b bs ih =>
    intro k j m h
    simp only [List.length_cons] at h
    rw [flashStore, ih (k + 1) j _ (by omega), smGet_smSet_other _ _ (by omega)]

theorem smGet_filter {α : Type} (d : α) (p : Nat → Bool) (j : Nat) (hj : p j = true) (m : List (Nat × α)) :
    smGet d j (m.filter fun e => p e.1) = smGet d j m := by
  induction m with
  | nil => rfl
  | cons e t ih =>
    by_cases h : p e.1 = true
    · simp [h, smGet, ih]
    · have : j ≠ e.1 := fun hh => h (hh ▸ hj)
      simp [h, smGet, ih, this]

/-- A programmed byte outside the range reads as before. -/
theorem Boot.byte_program_other (b : Boot) (o j : Nat) (bs : List Byte) (h : j < o ∨ o + bs.length ≤ j) :
    (b.program o bs).byte j = b.byte j := flashStore_other bs o j b.flash h

/-- A byte outside an erased sector reads as before. -/
theorem Boot.byte_erase_other (b : Boot) (o j : Nat) (h : j / 0x10000 ≠ o / 0x10000) : (b.erase o).byte j = b.byte j := by
  unfold Boot.erase Boot.byte
  apply smGet_filter (p := fun k => !decide (o / 0x10000 * 0x10000 ≤ k ∧ k < o / 0x10000 * 0x10000 + 0x10000))
  simp only [Bool.not_eq_true', decide_eq_false_iff_not]
  omega

theorem Boot.erase_inv (b : Boot) (o : Nat) (h : b.Inv) : (b.erase o).Inv :=
  ⟨smWf_filter (fun _ => (0xFF : Byte)) _ b.flash 0 h.1, h.2⟩

theorem Boot.program_inv (b : Boot) (o : Nat) (bs : List Byte) (h : b.Inv) : (b.program o bs).Inv := ⟨flashStore_wf bs o b.flash h.1, h.2⟩

/-! ### Meanings -/

theorem State.lifeAppend_tame (s : State) (reason : Nat) : State.Tame s (s.lifeAppend reason) := by
  unfold State.lifeAppend
  dsimp only
  split
  · exact State.Tame.hw s _
  · refine ⟨rfl, fun h => ?_, fun i _ => ?_⟩
    · dsimp only
      apply Boot.program_inv
      split
      · exact Boot.erase_inv _ _ h
      · exact h
    · dsimp only [Boot.program, Boot.erase]
      split <;> exact Nat.le_refl _

theorem State.lifeBoot_tame (s : State) : State.Tame s s.lifeBoot := State.Tame.hw s _

theorem State.bootBlocks_tame (s : State) : State.Tame s s.bootBlocks := State.Tame.same s _ _ rfl rfl

/-- The last lines of `State.startImage`: a shutdown asked for appends a record. -/
theorem State.Tame.owed {s u : State} (h : State.Tame s u) : State.Tame s (if u.hw.pow.shdnReq then u.lifeAppend 2 else u) := by
  split
  · exact h.trans (State.lifeAppend_tame u 2)
  · exact h

theorem State.startImage_tame (s : State) (seed : List Byte) (n svn : Nat) (d : List Byte) : State.Tame s (s.startImage seed n svn d) := by
  unfold State.startImage
  refine State.Tame.owed ?_
  refine State.Tame.trans ?_ (State.lifeBoot_tame _)
  refine State.Tame.trans ?_ (State.bootBlocks_tame _)
  apply State.Tame.same
  · rfl
  · rfl

theorem State.bootFlow_tame (s : State) (cold : Bool) : State.Tame s (s.bootFlow cold) := by
  unfold State.bootFlow
  generalize (if cold = true then _ else s.boot.seed) = seed
  dsimp only
  split
  · apply State.Tame.same <;> rfl
  · split
    · apply State.Tame.same <;> rfl
    · refine State.Tame.trans ?_ (State.startImage_tame _ _ _ _ _)
      apply State.Tame.same <;> rfl

theorem powerOnReset_tame (s : State) : State.Tame s (powerOnReset s) := by
  unfold powerOnReset
  dsimp only
  split
  · exact State.Tame.refl s
  · exact (State.Tame.hw s _).trans (State.bootFlow_tame _ _)

theorem State.moduleReset_tame (s : State) (cause : Nat) (wipe : Bool) : State.Tame s (s.moduleReset cause wipe) := by
  unfold State.moduleReset
  exact (State.Tame.hw s _).trans (State.bootFlow_tame _ _)

theorem modReset_tame (r : Req) (v : Word) (s : State) : State.Tame s (modReset r v s) := by
  apply State.Tame.guardWrite
  dsimp only
  split
  · exact State.moduleReset_tame s _ _
  · split
    · exact State.moduleReset_tame s _ _
    · exact State.Tame.hw s _

theorem State.wdogWrite_tame (s : State) (r : Req) (o : Nat) (f : State → State) (h : State.Tame s (f s)) : State.Tame s (s.wdogWrite r o f) := by
  apply State.Tame.guardWrite
  split
  · exact State.Tame.hw s _
  · exact h

theorem State.wdogStart_tame (s : State) : State.Tame s s.wdogStart := State.Tame.same s s.hw _ rfl rfl

theorem watchdogExpiry_tame (s : State) : State.Tame s (watchdogExpiry s) := by
  unfold watchdogExpiry
  dsimp only
  split
  · exact State.Tame.refl s
  · exact State.moduleReset_tame s _ _

theorem bootCtl_tame (r : Req) (v : Nat) (s : State) : State.Tame s (bootCtl r v s) := by
  apply State.Tame.guardWrite
  dsimp only
  split
  · refine ⟨rfl, fun h => ⟨h.1, by simp⟩, fun i hi => ?_⟩
    have : i = 0 ∨ i = 1 ∨ i = 2 ∨ i = 3 := by omega
    rcases this with rfl | rfl | rfl | rfl <;> simp [List.range_succ]
  · exact State.Tame.hw s _

theorem reqCtl_tame (r : Req) (v : Nat) (s : State) : State.Tame s (reqCtl r v s) := by
  apply State.Tame.guardWrite
  dsimp only
  repeat' (first | exact State.Tame.hw s _ | split)

theorem reportBuild_tame (s : State) : State.Tame s (reportBuild s) := by
  unfold reportBuild
  repeat' (first | exact State.Tame.refl s | exact State.Tame.hw s _ | dsimp only | split)

theorem State.signNow_tame (s : State) : State.Tame s s.signNow := by
  unfold State.signNow
  dsimp only
  repeat' (first | exact State.Tame.hw s _ | split)

theorem sign_tame (r : Req) (v : Nat) (s : State) : State.Tame s (sign r v s) :=
  State.Tame.guardWrite s _ _ _ _ _ ((State.Tame.hw s _).trans (State.signNow_tame _))

theorem State.handlerRetry_tame (s : State) : State.Tame s s.handlerRetry := by
  unfold State.handlerRetry
  dsimp only
  split
  · exact State.Tame.refl s
  · split
    · exact (State.Tame.hw s _).trans (State.signNow_tame _)
    · exact State.Tame.hw s _

theorem lifePeriod_tame (s : State) : State.Tame s (Machine.lifePeriod s) := by
  unfold Machine.lifePeriod
  dsimp only
  split
  · exact (State.Tame.hw s _).trans (State.lifeAppend_tame _ _)
  · exact State.Tame.refl s

theorem shdnReq_tame (s : State) : State.Tame s (shdnReq s) := by
  unfold shdnReq
  dsimp only
  split
  · exact (State.Tame.hw s _).trans (State.lifeAppend_tame _ _)
  · exact State.Tame.hw s _

theorem State.writeWord_tame (s : State) (r : Req) (off : Nat) (v : Word) : State.Tame s (s.writeWord r off v) := by
  unfold State.writeWord
  dsimp only
  split
  · exact modReset_tame r v s
  · split
    · apply State.wdogWrite_tame
      split
      · exact (State.Tame.hw s _).trans (State.wdogStart_tame _)
      · exact State.Tame.hw s _
    · split
      · exact State.wdogWrite_tame s _ _ _ (State.wdogStart_tame s)
      · split
        · exact reqCtl_tame r _ s
        · split
          · exact bootCtl_tame r _ s
          · split
            · exact sign_tame r _ s
            · split
              · exact State.Tame.guardWrite s _ _ _ _ _ (State.lifeAppend_tame s 3)
              · split <;> exact State.Tame.hw s _

theorem State.writeBytes_tame (s : State) (r : Req) (off size v : Nat) : State.Tame s (s.writeBytes r off size v) := by
  unfold State.writeBytes
  split
  · exact State.writeWord_tame s _ _ _
  · split
    · exact (State.writeWord_tame s _ _ _).trans (State.writeWord_tame _ _ _ _)
    · split <;> exact State.Tame.hw s _

theorem State.portTry_tame (s : State) (x : Port × PortReq) : State.Tame s (s.portTry x) := by
  unfold State.portTry
  dsimp only
  split
  · split
    · exact State.Tame.hw s _
    · exact State.writeWord_tame s _ _ _
  · exact State.Tame.hw s _
  · exact State.Tame.hw s _

theorem State.drainOutside_tame (s : State) : State.Tame s s.drainOutside :=
  ((State.Tame.hw s _).trans (State.Tame.foldl _ State.portTry_tame _ _)).trans (State.Tame.hw _ _)

theorem State.tick_tame (s : State) : State.Tame s s.tick := by
  unfold State.tick
  split
  · split
    · exact State.Tame.hw s _
    · exact State.Tame.refl s
  · exact (s.drainOutside_tame.trans (State.handlerRetry_tame _)).trans (State.Tame.hw _ _)

end Sys2Proof.Machine
end

