-- ==== Sys2Proof/Laws/Mmu.lean ====
section
/-! SUPPORT. What an access, a write, a fault record and a trace record leave alone. -/

namespace Sys2Proof.Machine

/-- From `h` to `k` nothing differs but what an access leaves behind: registers, memory (age stamps), poison, errors met, counts of the
lifetime image, translations held, interrupt edges that wait for a wake, and the count of free values. -/
def Hw.AccessOnly (h k : Hw) : Prop :=
  k = { h with regs := k.regs, mem := k.mem, poison := k.poison, upsets := k.upsets, flips := k.flips, life := k.life, freeCtr := k.freeCtr,
               mmu := { h.mmu with tlb := k.mmu.tlb }, pow := { h.pow with edges := k.pow.edges } }

theorem Hw.AccessOnly.refl (h : Hw) : Hw.AccessOnly h h := rfl

theorem Hw.AccessOnly.trans {a b c : Hw} (h : Hw.AccessOnly a b) (k : Hw.AccessOnly b c) : Hw.AccessOnly a c := by
  unfold Hw.AccessOnly at *; rw [k]; rw [h]

/-- The same, read from the last change back. -/
theorem Hw.AccessOnly.after {a b c : Hw} (k : Hw.AccessOnly b c) (h : Hw.AccessOnly a b) : Hw.AccessOnly a c := h.trans k

theorem Hw.LinesOnly.access {a b : Hw} (h : Hw.LinesOnly a b) : Hw.AccessOnly a b := by
  unfold Hw.LinesOnly at h; unfold Hw.AccessOnly; rw [h]

theorem Hw.RegsOnly.access {a b : Hw} (h : Hw.RegsOnly a b) : Hw.AccessOnly a b := h.lines.access

theorem Hw.life_access (h : Hw) (l : Life) : Hw.AccessOnly h { h with life := l } := rfl

theorem Hw.store_access (h : Hw) (k : Nat) (bs : List Byte) : Hw.AccessOnly h (h.store k bs) := rfl

theorem Hw.fold_access {α : Type} (f : Hw → α → Hw) (hf : ∀ h a, Hw.AccessOnly h (f h a)) (l : List α) :
    ∀ h, Hw.AccessOnly h (l.foldl f h) := by
  induction l with
  | nil => intro h; exact .refl h
  | cons a l ih => intro h; exact (hf h a).trans (ih _)

theorem Hw.uncorrectable_access (h : Hw) (u : Nat) : Hw.AccessOnly h (h.uncorrectable u) := by
  unfold Hw.uncorrectable
  dsimp only
  split
  · refine (Hw.raise_lines _ _ _).access.after ((Hw.err_regsOnly _ _ _ _).access.after ((Hw.count_regsOnly _ _ _ _).access.after ?_))
    rfl
  · split
    · refine (Hw.raise_lines _ _ _).access.after ((Hw.err_regsOnly _ _ _ _).access.after ((Hw.life_access _ _).after ?_))
      refine (Hw.wr64_regsOnly _ _ _ _ _).access.after ((Hw.count_regsOnly _ _ _ _).access.after ?_)
      rfl
    · rfl

theorem Hw.correctedRead_access (h : Hw) (u : Nat) : Hw.AccessOnly h (h.correctedRead u) := by
  unfold Hw.correctedRead
  dsimp only
  split
  · exact (Hw.count_regsOnly _ _ _ _).access.after (Hw.life_access _ _)
  · split
    · exact (Hw.life_access _ _).after (Hw.count_regsOnly _ _ _ _).access
    · exact .refl h

theorem Hw.meet_access (h : Hw) (k n : Nat) : Hw.AccessOnly h (h.meet k n) := by
  unfold Hw.meet
  exact (Hw.fold_access _ Hw.correctedRead_access _ h).trans (Hw.fold_access _ Hw.uncorrectable_access _ _)

theorem Hw.tlb_access (h : Hw) (l : List TlbEnt) : Hw.AccessOnly h { h with mmu := { h.mmu with tlb := l } } := rfl

theorem Hw.storeTier_access (h : Hw) (k : Nat) (bs : List Byte) : Hw.AccessOnly h (h.storeTier k bs) := by
  unfold Hw.storeTier
  split
  · exact h.store_access _ _
  · exact .refl h

theorem Hw.fillTlb_access (h : Hw) (t va : Nat) (lf : Leaf) : Hw.AccessOnly h (h.fillTlb t va lf) := by
  unfold Hw.fillTlb
  split
  · exact .refl h
  · dsimp only
    split
    · split
      · exact (Hw.storeTier_access _ _ _).after (Hw.tlb_access _ _)
      · exact Hw.tlb_access _ _
    · exact Hw.tlb_access _ _

theorem Hw.walked_access (h : Hw) (slice va : Nat) : Hw.AccessOnly h (h.walked slice va) :=
  Hw.fold_access (fun h k => h.meet k 8) (fun h k => h.meet_access k 8) _ h

theorem Hw.fillMicro_access (h : Hw) (m : Master) (va : Nat) (lf : Leaf) : Hw.AccessOnly h (h.fillMicro m va lf) := by
  unfold Hw.fillMicro
  split
  · split
    · exact .refl h
    · exact h.fillTlb_access _ _ _
  · exact .refl h

theorem Hw.fillWalk_access (h : Hw) (m : Master) (va : Nat) : Hw.AccessOnly h (h.fillWalk m va) := by
  unfold Hw.fillWalk
  generalize h.walk m.slice va = w
  cases w with
  | error _ => exact .refl h
  | ok lf => exact (h.fillTlb_access _ _ _).trans (Hw.fillMicro_access _ _ _ _)

/-- All that a lookup leaves behind. -/
theorem Hw.lookup_access (h : Hw) (m : Master) (va : Nat) : Hw.AccessOnly h (h.lookup m va) := by
  unfold Hw.lookup
  split
  · exact .refl h
  · split
    · exact h.fillMicro_access _ _ _
    · exact ((Hw.count_regsOnly _ _ _ _).lines.access.trans (Hw.walked_access _ _ _)).trans (Hw.fillWalk_access _ _ _)

theorem Hw.countKennel_access (h : Hw) (k n : Nat) (w : Bool) : Hw.AccessOnly h (h.countKennel k n w) := by
  unfold Hw.countKennel
  split
  · exact (Hw.count64_regsOnly _ _ _ _).lines.access
  · exact .refl h

theorem Hw.touchGran_access (m : Master) : ∀ (fuel va n : Nat) (h : Hw), Hw.AccessOnly h (Hw.touchGran m fuel va n h) := by
  intro fuel
  induction fuel with
  | zero => intro va n h; exact .refl h
  | succ f ih =>
    intro va n h
    unfold Hw.touchGran
    dsimp only
    split
    · exact .refl h
    · refine (h.lookup_access m va).trans (Hw.AccessOnly.trans ?_ (ih _ _ _))
      split
      · exact (Hw.meet_access _ _ _).trans (Hw.countKennel_access _ _ _ _)
      · exact .refl _

/-- All that an access leaves behind. -/
theorem Hw.touch_access (h : Hw) (m : Master) (va n : Nat) : Hw.AccessOnly h (h.touch m va n) := by
  unfold Hw.touch
  split
  · exact rfl
  · split
    · exact .refl h
    · exact Hw.touchGran_access m _ _ _ h

theorem Hw.lookupGran_access (m : Master) : ∀ (fuel va n : Nat) (h : Hw), Hw.AccessOnly h (Hw.lookupGran m fuel va n h) := by
  intro fuel
  induction fuel with
  | zero => intro va n h; exact .refl h
  | succ f ih =>
    intro va n h
    unfold Hw.lookupGran
    split
    · exact .refl h
    · exact (h.lookup_access m va).trans (ih _ _ _)

/-- All that the lookups of a write leave behind. -/
theorem Hw.lookups_access (h : Hw) (m : Master) (va n : Nat) : Hw.AccessOnly h (h.lookups m va n) := by
  unfold Hw.lookups
  split
  · exact .refl h
  · exact Hw.lookupGran_access m _ _ _ h

theorem Hw.storeAll_access (h : Hw) (ps : List (Nat × List Byte)) : Hw.AccessOnly h (h.storeAll ps) := by
  unfold Hw.storeAll
  apply Hw.fold_access
  intro h a
  exact (h.store_access _ _).trans (Hw.countKennel_access _ _ _ _)

/-- From `h` to `k` no queue, no landing data and no unit's work differs: what writes, fault records and trace records may change. -/
def Hw.OutsideOnly (h k : Hw) : Prop :=
  k = { h with regs := k.regs, mem := k.mem, poison := k.poison, upsets := k.upsets, flips := k.flips, life := k.life, mmu := k.mmu,
               freeCtr := k.freeCtr,
               pow := { h.pow with edges := k.pow.edges }, trc := k.trc, remoteOut := k.remoteOut }

theorem Hw.OutsideOnly.refl (h : Hw) : Hw.OutsideOnly h h := rfl

theorem Hw.OutsideOnly.trans {a b c : Hw} (h : Hw.OutsideOnly a b) (k : Hw.OutsideOnly b c) : Hw.OutsideOnly a c := by
  unfold Hw.OutsideOnly at *; rw [k]; rw [h]

/-- The same, read from the last change back. -/
theorem Hw.OutsideOnly.after {a b c : Hw} (k : Hw.OutsideOnly b c) (h : Hw.OutsideOnly a b) : Hw.OutsideOnly a c := h.trans k

theorem Hw.trc_outside (h : Hw) (t : Trc) : Hw.OutsideOnly h { h with trc := t } := rfl
theorem Hw.mmu_outside (h : Hw) (m : Mmu) : Hw.OutsideOnly h { h with mmu := m } := rfl
theorem Hw.remoteOut_outside (h : Hw) (l : List RemoteWrite) : Hw.OutsideOnly h { h with remoteOut := l } := rfl

theorem Hw.AccessOnly.outside {a b : Hw} (h : Hw.AccessOnly a b) : Hw.OutsideOnly a b := by
  unfold Hw.AccessOnly at h; unfold Hw.OutsideOnly; rw [h]

theorem Hw.LinesOnly.outside {a b : Hw} (h : Hw.LinesOnly a b) : Hw.OutsideOnly a b := h.access.outside
theorem Hw.RegsOnly.outside {a b : Hw} (h : Hw.RegsOnly a b) : Hw.OutsideOnly a b := h.lines.outside

theorem Hw.fold_outside {α : Type} (f : Hw → α → Hw) (hf : ∀ h a, Hw.OutsideOnly h (f h a)) (l : List α) :
    ∀ h, Hw.OutsideOnly h (l.foldl f h) := by
  induction l with
  | nil => intro h; exact .refl h
  | cons a l ih => intro h; exact (hf h a).trans (ih _)

theorem Hw.OutsideOnly.queues {a b : Hw} (h : Hw.OutsideOnly a b) : b.queues = a.queues := by rw [h]
theorem Hw.OutsideOnly.qs {a b : Hw} (h : Hw.OutsideOnly a b) (id : QId) : b.qs id = a.qs id := by unfold Hw.qs; rw [h.queues]
theorem Hw.OutsideOnly.landing {a b : Hw} (h : Hw.OutsideOnly a b) : b.landing = a.landing := by rw [h]
theorem Hw.OutsideOnly.landed {a b : Hw} (h : Hw.OutsideOnly a b) : b.landed = a.landed := by rw [h]
theorem Hw.OutsideOnly.pair {a b : Hw} (h : Hw.OutsideOnly a b) : b.pair = a.pair := by rw [h]

/-- All that a trace record leaves behind. -/
theorem Hw.traceEnter_outside (h : Hw) (bs : List Byte) : Hw.OutsideOnly h (h.traceEnter bs) := by
  unfold Hw.traceEnter
  dsimp only
  split
  · refine (Hw.trc_outside _ _).after ((Hw.count_regsOnly _ _ _ _).outside.after ?_)
    split
    · exact (h.raise_lines _ _).outside
    · exact .refl h
  · split <;> exact Hw.trc_outside _ _

theorem Hw.trace_outside (h : Hw) (r : TraceRec) : Hw.OutsideOnly h (h.trace r) := by
  unfold Hw.trace
  dsimp only
  split
  · exact (Hw.traceEnter_outside _ _).after (Hw.trc_outside _ _)
  · exact .refl h

theorem Hw.storeTier_outside (h : Hw) (k : Nat) (bs : List Byte) : Hw.OutsideOnly h (h.storeTier k bs) := (h.storeTier_access k bs).outside

theorem Hw.writeFault_outside (h : Hw) (q : Nat) (bs : List Byte) : Hw.OutsideOnly h (h.writeFault q bs) := by
  unfold Hw.writeFault
  dsimp only
  refine (Hw.trace_outside _ _).after ((Hw.raise_lines _ _ _).outside.after ((Hw.err_regsOnly _ _ _ _).outside.after ?_))
  exact (Hw.count_regsOnly _ _ _ _).outside.after ((Hw.wr_regsOnly _ _ _ _ _).outside.after (h.storeTier_outside _ _))

/-- All that a fault leaves behind. -/
theorem Hw.postRecord_outside (h : Hw) (q : Nat) (bs : List Byte) : Hw.OutsideOnly h (h.postRecord q bs) := by
  unfold Hw.postRecord
  split
  · exact (Hw.raise_lines _ _ _).outside.after (Hw.mmu_outside _ _)
  · exact h.writeFault_outside q bs

theorem Hw.postFault_outside (h : Hw) (m : Master) (cause level va : Nat) (w : Bool) (d : BitVec 512) (hold : Bool) :
    Hw.OutsideOnly h (h.postFault m cause level va w d hold) := by
  unfold Hw.postFault
  have hl := (h.lookups_access m va 1).outside
  dsimp only
  split
  · exact hl
  · refine hl.trans ?_
    split
    · exact (Hw.postRecord_outside _ _ _).after (Hw.mmu_outside _ _)
    · exact Hw.postRecord_outside _ _ _

/-- All that a write leaves behind. -/
theorem Hw.write_outside (h : Hw) (m : Master) (va : Nat) (bs : List Byte) : Hw.OutsideOnly h (h.write m va bs) := by
  unfold Hw.write
  split
  · unfold Hw.postRemote
    dsimp only
    split
    · exact (Hw.raise_lines _ _ _).outside.after (Hw.count_regsOnly _ _ _ _).outside
    · exact Hw.remoteOut_outside _ _
  · split
    · exact (h.storeAll_access _).outside
    · exact .refl h

end Sys2Proof.Machine
end

