-- ==== Sys2Proof/Laws/Queue.lean ====
section
/-! SUPPORT. What the queue operations do to the queues. -/

namespace Sys2Proof.Machine

@[simp] theorem Hw.qs_setQs_same (h : Hw) (id : QId) (q : QState) : (h.setQs id q).qs id = q := by
  simp [Hw.qs, Hw.setQs]

@[simp] theorem Hw.qs_setQs_other (h : Hw) {id id' : QId} (q : QState) (hne : id' ≠ id) : (h.setQs id q).qs id' = h.qs id' := by
  simp [Hw.qs, Hw.setQs, alGet_alPut_other hne]

/-! ### What leaves the queues alone -/

theorem Hw.setReg_qs (h : Hw) (off : Nat) (v : Word) (b : Nat) (id : QId) : (h.setReg off v b).qs id = h.qs id := rfl
@[simp] theorem Hw.wr_qs (h : Hw) (p o v b : Nat) (id : QId) : (h.wr p o v b).qs id = h.qs id := rfl
@[simp] theorem Hw.qwr_qs (h : Hw) (i : QId) (o v : Nat) (id : QId) : (h.qwr i o v).qs id = h.qs id := rfl
@[simp] theorem Hw.count_qs (h : Hw) (p o n : Nat) (id : QId) : (h.count p o n).qs id = h.qs id := rfl
@[simp] theorem Hw.count64_qs (h : Hw) (p o n : Nat) (id : QId) : (h.count64 p o n).qs id = h.qs id :=
  (Hw.count64_regsOnly h p o n).outside.qs id
@[simp] theorem Hw.err_qs (h : Hw) (p d c : Nat) (id : QId) : (h.err p d c).qs id = h.qs id := (Hw.err_regsOnly h p d c).outside.qs id
@[simp] theorem Hw.raise_qs (h : Hw) (p n : Nat) (id : QId) : (h.raise p n).qs id = h.qs id := (Hw.raise_lines h p n).outside.qs id
@[simp] theorem Hw.touch_qs (h : Hw) (m : Master) (va n : Nat) (id : QId) : (h.touch m va n).qs id = h.qs id :=
  (Hw.touch_access h m va n).outside.qs id
@[simp] theorem Hw.trace_qs (h : Hw) (r : TraceRec) (id : QId) : (h.trace r).qs id = h.qs id := (Hw.trace_outside h r).qs id
@[simp] theorem Hw.write_qs (h : Hw) (m : Master) (va : Nat) (bs : List Byte) (id : QId) : (h.write m va bs).qs id = h.qs id :=
  (Hw.write_outside h m va bs).qs id
@[simp] theorem Hw.postFault_qs (h : Hw) (m : Master) (a b c : Nat) (w : Bool) (d : BitVec 512) (k : Bool) (id : QId) :
    (h.postFault m a b c w d k).qs id = h.qs id := (Hw.postFault_outside h m a b c w d k).qs id
@[simp] theorem Hw.semAdd_qs (h : Hw) (core i n : Nat) (id : QId) : (h.semAdd core i n).qs id = h.qs id :=
  (Hw.semAdd_lines h core i n).outside.qs id
@[simp] theorem Hw.draw_qs (h : Hw) (id : QId) : h.draw.qs id = h.qs id := rfl

theorem foldl_qs {α : Type} (f : Hw → α → Hw) (id : QId) (hf : ∀ h a, (f h a).qs id = h.qs id) (l : List α) :
    ∀ h, (l.foldl f h).qs id = h.qs id := by
  induction l with
  | nil => intro h; rfl
  | cons a l ih => intro h; rw [List.foldl_cons, ih, hf]

end Sys2Proof.Machine
end

