-- ==== Sys2Proof/Laws/Regs.lean ====
section
/-! SUPPORT. Where register keys lie, and which operations leave the queue registers (offset 0x100 and up on the engines' pages). -/

namespace Sys2Proof.Machine

/-- The offset within its page survives in a register's key. -/
theorem regKey_inPage (off b : Nat) : regKey off b / 4 % 0x1000 = off % 0x1000 := by
  have h1 : regKey off b / 4 = homeOff off := by
    unfold regKey
    have : (if bankedOff off then b % 4 else 0) < 4 := by split <;> omega
    omega
  rw [h1]
  unfold homeOff
  dsimp only [inPage]
  split <;> first | rfl | (split <;> omega)

theorem lowBlock : ∀ p : Fin 0x80, ((blockOf p.val).map fun x => x.1 == .spl || x.1 == .rtv || x.1 == .emb || x.1 == .srv) ≠ some true := by
  decide +kernel

theorem blockOf_high (p : Nat) (h : 0xE0 ≤ p) : blockOf p = none := by
  unfold blockOf
  repeat rw [if_neg (by omega)]

/-- The page in a key is the register's, or the page that holds it for several; below 0x080 it stays below. -/
theorem regKey_low (p o b : Nat) (hp : p < 0x80) (ho : o < 0x1000) : regKey (p * 0x1000 + o) b / 0x4000 < 0x80 := by
  have hpg : pageOfOff (p * 0x1000 + o) = p := by unfold pageOfOff; omega
  have h1 : regKey (p * 0x1000 + o) b / 0x4000 = homeOff (p * 0x1000 + o) / 0x1000 := by
    unfold regKey
    have : (if bankedOff (p * 0x1000 + o) then b % 4 else 0) < 4 := by split <;> omega
    omega
  rw [h1]
  unfold homeOff
  rw [hpg]
  dsimp only [inPage]
  have hb := lowBlock ⟨p, hp⟩
  dsimp only at hb
  split
  · rename_i h; simp [h] at hb
  · rename_i h; simp [h] at hb
  · rename_i h; simp [h] at hb
  · rename_i h; simp [h] at hb
  · split <;> omega
  · omega

/-- From `h` to `k` the queue registers of every engine stand. -/
def Hw.QRegs (h k : Hw) : Prop :=
  ∀ off b, 0x80 ≤ regKey off b / 0x4000 → 0x100 ≤ regKey off b / 4 % 0x1000 → k.reg off b = h.reg off b

theorem Hw.QRegs.refl (h : Hw) : Hw.QRegs h h := fun _ _ _ _ => rfl
theorem Hw.QRegs.after {a b c : Hw} (k : Hw.QRegs b c) (h : Hw.QRegs a b) : Hw.QRegs a c :=
  fun off i h1 h2 => (k off i h1 h2).trans (h off i h1 h2)
theorem Hw.QRegs.of_regs {h k : Hw} (e : k.regs = h.regs) : Hw.QRegs h k := fun off b _ _ => by unfold Hw.reg; rw [e]

theorem Hw.setReg_q (h : Hw) (p o : Nat) (v : Word) (b : Nat) (ho : o < 0x1000) (hpo : p < 0x80 ∨ o < 0x100) :
    Hw.QRegs h (h.setReg (p * 0x1000 + o) v b) := by
  intro off b' h1 h2
  refine Hw.reg_setReg_other _ _ fun e => ?_
  rw [e] at h1 h2
  rcases hpo with hp | ho'
  · have := regKey_low p o b hp ho; omega
  · rw [regKey_inPage] at h2; omega

theorem Hw.wr_q (h : Hw) (p o v b : Nat) (ho : o < 0x1000) (hpo : p < 0x80 ∨ o < 0x100) : Hw.QRegs h (h.wr p o v b) :=
  h.setReg_q p o _ b ho hpo
theorem Hw.count_q (h : Hw) (p o n : Nat) (ho : o < 0x1000) (hpo : p < 0x80 ∨ o < 0x100) : Hw.QRegs h (h.count p o n) :=
  h.wr_q p o _ 0 ho hpo
theorem Hw.wr64_q (h : Hw) (p o v b : Nat) (ho : o < 0xFFC) (hpo : p < 0x80 ∨ o < 0xFC) : Hw.QRegs h (h.wr64 p o v b) :=
  (Hw.wr_q _ p (o + 4) _ b (by omega) (by omega)).after (Hw.wr_q h p o _ b (by omega) (by omega))
theorem Hw.count64_q (h : Hw) (p o n : Nat) (ho : o < 0xFFC) (hpo : p < 0x80 ∨ o < 0xFC) : Hw.QRegs h (h.count64 p o n) :=
  h.wr64_q p o _ 0 ho hpo
theorem Hw.setBit_q (h : Hw) (p o n : Nat) (b : Bool) (ho : o < 0x1000) (hpo : p < 0x80 ∨ o < 0x100) : Hw.QRegs h (h.setBit p o n b) :=
  h.wr_q p o _ 0 ho hpo
theorem Hw.err_q (h : Hw) (p d c : Nat) : Hw.QRegs h (h.err p d c) := by
  unfold Hw.err; split
  · exact .refl h
  · exact h.wr_q p _ _ 0 (by omega) (by omega)

theorem srcLow : ∀ p : Fin 0xE0, ∀ s, srcOfPage p.val = some s → s < 0x400 := by
  have : ∀ p : Fin 0xE0, ((srcOfPage p.val).getD 0) < 0x400 := by decide +kernel
  intro p s h
  have := this p
  rw [h] at this
  exact this

theorem srcOfPage_lt (p s : Nat) (h : srcOfPage p = some s) : s < 0x400 := by
  by_cases hp : p < 0xE0
  · exact srcLow ⟨p, hp⟩ s h
  · unfold srcOfPage at h
    rw [blockOf_high p (by omega)] at h
    simp at h

theorem Hw.latch_q (h : Hw) (s : Nat) (hs : s < 0x400) : Hw.QRegs h (h.latch s) := by
  unfold Hw.latch
  dsimp only
  exact (Hw.wr_q _ 4 _ _ 0 (by omega) (by omega)).after (h.setBit_q 4 _ _ _ (by omega) (by omega))

theorem Hw.edge_q (h : Hw) (s : Nat) (hs : s < 0x400) : Hw.QRegs h (h.edge s) := by
  unfold Hw.edge; split
  · exact h.latch_q s hs
  · exact .of_regs rfl

theorem Hw.watch_q (h : Hw) (p : Nat) (f : Hw → Hw) (hf : Hw.QRegs h (f h)) : Hw.QRegs h (h.watch p f) := by
  unfold Hw.watch; split
  · exact hf
  · rename_i s hs
    split
    · exact ((f h).edge_q s (srcOfPage_lt p s hs)).after hf
    · exact hf

theorem Hw.raise_q (h : Hw) (p n : Nat) : Hw.QRegs h (h.raise p n) :=
  h.watch_q p _ ((Hw.setBit_q _ p 0x018 n true (by omega) (by omega)).after (h.setBit_q p 0x010 n true (by omega) (by omega)))

theorem Hw.fold_q {α : Type} (f : Hw → α → Hw) (hf : ∀ h a, Hw.QRegs h (f h a)) (l : List α) : ∀ h, Hw.QRegs h (l.foldl f h) := by
  induction l with
  | nil => intro h; exact .refl h
  | cons a l ih => intro h; exact (ih _).after (hf h a)

theorem Hw.store_q (h : Hw) (k : Nat) (bs : List Byte) : Hw.QRegs h (h.store k bs) := .of_regs rfl

theorem Hw.uncorrectable_q (h : Hw) (u : Nat) : Hw.QRegs h (h.uncorrectable u) := by
  unfold Hw.uncorrectable
  dsimp only
  split
  · exact (Hw.raise_q _ _ _).after ((Hw.err_q _ _ _ _).after ((Hw.count_q _ _ _ _ (by omega) (by omega)).after (.of_regs rfl)))
  · split
    · refine (Hw.raise_q _ _ _).after ((Hw.err_q _ _ _ _).after ?_)
      refine Hw.QRegs.after (b := Hw.wr64 _ _ _ _) (.of_regs rfl) ?_
      exact (Hw.wr64_q _ _ _ _ _ (by omega) (by omega)).after ((Hw.count_q _ _ _ _ (by omega) (by omega)).after (.of_regs rfl))
    · exact .of_regs rfl

theorem Hw.correctedRead_q (h : Hw) (u : Nat) : Hw.QRegs h (h.correctedRead u) := by
  unfold Hw.correctedRead
  dsimp only
  split
  · exact (Hw.count_q _ _ _ _ (by omega) (by omega)).after (.of_regs rfl)
  · split
    · exact Hw.QRegs.after (.of_regs rfl) (Hw.count_q h _ _ 1 (by omega) (by omega))
    · exact .refl h

theorem Hw.storeTier_q (h : Hw) (k : Nat) (bs : List Byte) : Hw.QRegs h (h.storeTier k bs) := by
  unfold Hw.storeTier
  split
  · exact h.store_q _ _
  · exact .refl h

theorem Hw.meet_q (h : Hw) (k n : Nat) : Hw.QRegs h (h.meet k n) := by
  unfold Hw.meet
  exact (Hw.fold_q _ Hw.uncorrectable_q _ _).after (Hw.fold_q _ Hw.correctedRead_q _ h)

theorem Hw.fillTlb_q (h : Hw) (t va : Nat) (lf : Leaf) : Hw.QRegs h (h.fillTlb t va lf) := by
  unfold Hw.fillTlb
  split
  · exact .refl h
  · dsimp only
    split
    · split
      · exact (Hw.storeTier_q _ _ _).after (.of_regs rfl)
      · exact .of_regs rfl
    · exact .of_regs rfl

theorem Hw.walked_q (h : Hw) (slice va : Nat) : Hw.QRegs h (h.walked slice va) :=
  Hw.fold_q (fun h k => h.meet k 8) (fun h k => h.meet_q k 8) _ h

theorem Hw.fillMicro_q (h : Hw) (m : Master) (va : Nat) (lf : Leaf) : Hw.QRegs h (h.fillMicro m va lf) := by
  unfold Hw.fillMicro
  split
  · split
    · exact .refl h
    · exact h.fillTlb_q _ _ _
  · exact .refl h

theorem Hw.fillWalk_q (h : Hw) (m : Master) (va : Nat) : Hw.QRegs h (h.fillWalk m va) := by
  unfold Hw.fillWalk
  split
  · exact .refl h
  · exact (Hw.fillMicro_q _ _ _ _).after (h.fillTlb_q _ _ _)

theorem Hw.lookup_q (h : Hw) (m : Master) (va : Nat) : Hw.QRegs h (h.lookup m va) := by
  unfold Hw.lookup
  split
  · exact .refl h
  · split
    · exact h.fillMicro_q _ _ _
    · exact (Hw.fillWalk_q _ _ _).after ((Hw.walked_q _ _ _).after (Hw.count_q _ _ _ _ (by omega) (by omega)))

theorem Hw.countKennel_q (h : Hw) (k n : Nat) (w : Bool) : Hw.QRegs h (h.countKennel k n w) := by
  unfold Hw.countKennel
  split
  · split <;> exact Hw.count64_q _ _ _ _ (by omega) (by omega)
  · exact .refl h

theorem Hw.touchGran_q (m : Master) : ∀ (fuel va n : Nat) (h : Hw), Hw.QRegs h (Hw.touchGran m fuel va n h) := by
  intro fuel
  induction fuel with
  | zero => intro va n h; exact .refl h
  | succ f ih =>
    intro va n h
    unfold Hw.touchGran
    dsimp only
    split
    · exact .refl h
    · refine (ih _ _ _).after (Hw.QRegs.after ?_ (h.lookup_q m va))
      split
      · exact (Hw.countKennel_q _ _ _ _).after (Hw.meet_q _ _ _)
      · exact .refl _

theorem Hw.touch_q (h : Hw) (m : Master) (va n : Nat) : Hw.QRegs h (h.touch m va n) := by
  unfold Hw.touch
  split
  · exact .of_regs rfl
  · split
    · exact .refl h
    · exact Hw.touchGran_q m _ _ _ h

theorem Hw.lookupGran_q (m : Master) : ∀ (fuel va n : Nat) (h : Hw), Hw.QRegs h (Hw.lookupGran m fuel va n h) := by
  intro fuel
  induction fuel with
  | zero => intro va n h; exact .refl h
  | succ f ih =>
    intro va n h
    unfold Hw.lookupGran
    split
    · exact .refl h
    · exact (ih _ _ _).after (h.lookup_q m va)

theorem Hw.lookups_q (h : Hw) (m : Master) (va n : Nat) : Hw.QRegs h (h.lookups m va n) := by
  unfold Hw.lookups
  split
  · exact .refl h
  · exact Hw.lookupGran_q m _ _ _ h

theorem Hw.trace_q (h : Hw) (r : TraceRec) : Hw.QRegs h (h.trace r) := by
  unfold Hw.trace Hw.traceEnter
  dsimp only
  split
  · split
    · refine Hw.QRegs.after (.of_regs rfl) ((Hw.count_q _ _ _ _ (by omega) (by omega)).after ?_)
      split
      · exact (Hw.raise_q _ _ _).after (.of_regs rfl)
      · exact .of_regs rfl
    · split <;> exact .of_regs rfl
  · exact .refl h

theorem Hw.write_q (h : Hw) (m : Master) (va : Nat) (bs : List Byte) : Hw.QRegs h (h.write m va bs) := by
  unfold Hw.write
  split
  · unfold Hw.postRemote
    dsimp only
    split
    · exact (Hw.raise_q _ _ _).after (Hw.count_q _ _ _ _ (by omega) (by omega))
    · exact .of_regs rfl
  · split
    · unfold Hw.storeAll
      apply Hw.fold_q
      intro h a
      exact (Hw.countKennel_q _ _ _ _).after (Hw.store_q _ _ _)
    · exact .refl h

theorem Hw.writeFault_q (h : Hw) (q : Nat) (bs : List Byte) : Hw.QRegs h (h.writeFault q bs) := by
  unfold Hw.writeFault
  dsimp only
  refine (Hw.trace_q _ _).after ((Hw.raise_q _ _ _).after ((Hw.err_q _ _ _ _).after ?_))
  refine (Hw.count_q _ _ _ _ (by omega) (by omega)).after ((Hw.wr_q _ _ _ _ _ (by omega) (by omega)).after ?_)
  exact h.storeTier_q _ _

theorem Hw.postFault_q (h : Hw) (m : Master) (cause level va : Nat) (w : Bool) (d : BitVec 512) (hold : Bool) :
    Hw.QRegs h (h.postFault m cause level va w d hold) := by
  unfold Hw.postFault
  have hl := h.lookups_q m va 1
  dsimp only
  split
  · exact hl
  · refine Hw.QRegs.after ?_ hl
    have hp : ∀ (k : Hw) (bs : List Byte), Hw.QRegs k (k.postRecord m.slice bs) := by
      intro k bs
      unfold Hw.postRecord
      split
      · exact (Hw.raise_q _ _ _).after (.of_regs rfl)
      · exact k.writeFault_q _ _
    split
    · exact (hp _ _).after (.of_regs rfl)
    · exact hp _ _

theorem Hw.setSem_q (h : Hw) (core i n : Nat) (hi : i < 16) : Hw.QRegs h (h.setSem core i n) :=
  Hw.wr_q _ _ _ _ _ (by omega) (by omega)

theorem Hw.semAdd_q (h : Hw) (core i n : Nat) (hi : i < 16) : Hw.QRegs h (h.semAdd core i n) := by
  unfold Hw.semAdd
  dsimp only
  split
  · exact (Hw.raise_q _ _ _).after (h.setSem_q core i _ hi)
  · exact h.setSem_q core i _ hi

/-- Queue registers lie where `QRegs` speaks of, and their keys tell page and offset. -/
theorem qOff_key (e : Eng) (q o : Nat) (hq : q < engQueues e) (ho : o < 0x40) :
    regKey (engPage e * 0x1000 + qOff ⟨e, q⟩ o) 0 = 4 * (engPage e * 0x1000 + qOff ⟨e, q⟩ o) := by
  cases e with
  | core n =>
    simp only [engQueues] at hq
    simp only [engPage, qOff]
    have hp : ∀ n : Fin 48, blockOf (0x080 + n.val) = some (.core, n.val) := by decide +kernel
    have h1 : pageOfOff ((0x080 + n.val) * 0x1000 + (0x100 + 0x40 * q + o)) = 0x080 + n.val := by unfold pageOfOff; omega
    unfold regKey homeOff bankedOff
    simp only [h1, hp]
    have h2 : ∀ k < 0x10, (0x080 + n.val == k) = false := by intro k hk; simp; omega
    simp [h2]
  | stage d u =>
    simp only [engQueues] at hq
    simp only [engPage, qOff]
    have hp : ∀ (d : Fin 4) (u : StageUnit), (blockOf (0x0C0 + 8 * d.val + unitPage u)).map (·.1) = some (match u with
        | .spl => .spl | .rtv => .rtv | .emb => .emb | .pck => .pck | .muz => .muz | .srv => .srv) := by
      intro d u; cases u <;> revert d <;> decide +kernel
    have hu : unitPage u < 8 := by cases u <;> decide
    have h1 : pageOfOff ((0x0C0 + 8 * d.val + unitPage u) * 0x1000 + (0x200 + 0x40 * q + o)) = 0x0C0 + 8 * d.val + unitPage u := by
      unfold pageOfOff; omega
    have h3 : inPage ((0x0C0 + 8 * d.val + unitPage u) * 0x1000 + (0x200 + 0x40 * q + o)) = 0x200 + 0x40 * q + o := by
      unfold inPage; omega
    unfold regKey homeOff bankedOff
    simp only [h1, h3]
    have h2 : ∀ k < 0x10, (0x0C0 + 8 * d.val + unitPage u == k) = false := by intro k hk; simp; omega
    have := hp d u
    generalize hb : blockOf (0x0C0 + 8 * d.val + unitPage u) = b at this
    cases u <;> simp only [Option.map_eq_some_iff] at this <;> obtain ⟨⟨b1, b2⟩, rfl, hh⟩ := this <;> cases hh <;> simp [h2] <;> omega

end Sys2Proof.Machine
end

