-- ==== Sys2Proof/Tests/Slice0.lean ====
section
/-! SUPPORT. Tests of single steps, and for each statement states and operands that meet the hypotheses of its clauses (test_meets_…), with
what the clause then says where that can be evaluated. -/

namespace Sys2Proof.Tests

open Sys2Proof.Machine Sys2Proof.Claims

set_option Elab.async false

/-- The reset state with its hardware part changed. -/
def at_ (f : Hw → Hw) : State := { State.reset with hw := f State.reset.hw }

/-- A state with its hardware part changed. -/
def on_ (s : State) (f : Hw → Hw) : State := { s with hw := f s.hw }

/-- The next state, where there is one. -/
def ran (o : Host.Outcome State Fault Refusal) : Option State :=
  match o with
  | .next t => some t
  | _ => none

/-- Whether a command is refused as ill-formed. -/
def bad (o : Host.Outcome State Fault Refusal) (m : String) : Bool :=
  match o with
  | .refused r => r == .illFormed m
  | _ => false

/-- What `f` tells of the next state. -/
def seen {α : Type} (c : Instr) (s : State) (f : Hw → α) : Option α := (ran (exec c s)).map fun t => f t.hw

/-- Whether the command runs to this hardware part, all else as it was. -/
def goes (c : Instr) (s : State) (h : Hw) : Bool := decide (ran (exec c s) = some { s with hw := h })

/-- Registers stored: page, offset, value. -/
def regs_ (l : List (Nat × Nat × Nat)) (h : Hw) : Hw := l.foldl (fun h x => h.wr x.1 x.2.1 x.2.2) h

/-- Every slice translates the first 32 MiB to the start of LPDDR6, and is enabled. -/
def mapped (h : Hw) : Hw :=
  { regs_ [(0x020, 0x008, 1), (0x021, 0x008, 1), (0x022, 0x008, 1), (0x023, 0x008, 1)] h with
    mmu := { h.mmu with tlb := (List.range 4).map fun m => ⟨m, 0, true, 0x15⟩ } }

/-- A descriptor: opcode, and fields by their first bit. -/
def desc_ (op : Nat) (l : List (Nat × Nat)) : BitVec 512 := BitVec.ofNat 512 (op + (l.map fun x => x.2 * 2 ^ x.1).sum)

/-- An issued command. -/
def cmd_ (d : BitVec 512) : Cmd :=
  { ptr := 0, desc := d, sub := .handler, lvl := 0, seed := 0, ctx := [], rerun := false, skipped := false, finished := false, takes := [],
    issuedAt := 0, code := 0, result := [], writes := [], predMask := 0, predVal := 0, hitchCounts := [], signals := [], pins := [],
    todo := none, work := .none }

/-- Queue `q` of core 0, and of a stage unit of quadrant 0. -/
def coreQ (q : Nat := 0) : QId := ⟨.core 0, q⟩
def stageQ (u : StageUnit) (q : Nat := 0) : QId := ⟨.stage 0 u, q⟩

/-- A running queue that holds these commands, issued and uncommitted. -/
def holds_ (id : QId) (l : List Cmd) (h : Hw) : Hw :=
  (h.setQs id { h.qs id with st := .running, cmds := l }).qwr id 0x10 l.length

/-- Packets to the twin, as many as there are credits. -/
def outbound_ : List OutPkt := List.replicate 256 ⟨0, some coreQ, 0, 0, ⟨0, none, [], [], [], true⟩⟩

/-! ### Well-formedness: an ill-formed term for each check -/

theorem test_wf_write_size : (Instr.registerWrite .portA 0x0A0 0 0).wf = false := by decide
theorem test_wf_write_value : (Instr.registerWrite .portA 0x0A0 4 0x100000000).wf = false := by decide
theorem test_wf_write_window : (Instr.registerWrite .portA 0x3FFFFFE 4 0).wf = false := by decide
theorem test_wf_read_size : (Instr.readClear .portB 0x0A0 0).wf = false := by decide
theorem test_wf_read_window : (Instr.readClear .portB 0x3FFFFFE 4).wf = false := by decide
theorem test_wf_lo : (Instr.loRead .portA 0x0A0).wf = false ∧ (Instr.loWrite .portA 0x020064 0).wf = false := by decide
theorem test_wf_hi : (Instr.hiRead .portA 0x0A0).wf = false ∧ (Instr.hiWrite .portA 0x020060 0).wf = false := by decide
theorem test_wf_page : (Instr.pageEnable .portA 0x4000 0).wf = false ∧ (Instr.stepMode .portA 0x4000 4).wf = false
    ∧ (Instr.step .portA 0x4000 8).wf = false ∧ (Instr.softReset .portA 0x4000 2).wf = false
    ∧ (Instr.softResetDone 0x4000).wf = false := by decide
theorem test_wf_queue : (Instr.nop (.stage 0 .spl) 4).wf = false ∧ (Instr.kill (.stage 3 .muz) 7 .runtime).wf = false
    ∧ (Instr.queueTailWrite .portA (.stage 1 .srv) 4 0).wf = false ∧ (Instr.queueKill .portA (.stage 1 .srv) 4 0x10).wf = false := by decide
theorem test_wf_repair : (Instr.arrayRepairWrite .handler 0 0x314 0).wf = false ∧ (Instr.arrayRepairWrite .handler 0 0x338 0).wf = false := by
  decide
theorem test_wf_flit : (Instr.flitReceive 0 (List.replicate 255 0)).wf = false := by decide +kernel
theorem test_wf_samples : (Instr.watchSample (List.replicate 8 0)).wf = false ∧ (Instr.thresholdCompare (List.replicate 9 0)).wf = false := by
  decide
theorem test_wf_program : (Instr.flashProgram 0 []).wf = false ∧ (Instr.flashProgram 0 (List.replicate 33 0)).wf = false := by decide

/-! ### The machine as a whole -/

/-- A state in which something waits. -/
def waits_ : State := { State.reset with pending := [.snap, .demandExit] }

theorem test_step_front : (ran (step waits_)).map (·.pending) = some [.demandExit] := by decide +kernel
theorem test_step_idle : (ran (step State.reset)).map (·.pending) = some [] ∧ (State.reset.drainOutside.hw.draw.tickTime).time = 40 := by
  decide +kernel
theorem test_meets_CommandsLeaveQueue : (ran (exec (.counterClear .portA 1) waits_)).map (·.pending) = some waits_.pending := by decide +kernel
theorem test_meets_WellFormed : (Instr.snap).wf = true ∧ (Instr.flashProgram 0 (List.replicate 32 0)).wf = true
    ∧ (ran (exec .snap State.reset)).isSome = true := by decide +kernel
theorem test_meets_NothingActsWithoutRails : (at_ fun h => h.setPow fun w => { w with off := true }).hw.pow.off = true
    ∧ ran (exec (.shdnReq) (at_ fun h => h.setPow fun w => { w with off := true })) = some (at_ fun h => h.setPow fun w => { w with off := true }) := by
  decide +kernel
theorem test_meets_StoresKeepCanonicalForm : (regs_ [(0x008, 0x084, 5)] (State.reset.hw.store 9 [1, 0, 2])).Canonical
    ∧ regKey 0x008088 0 ≠ regKey 0x008084 0 := by
  unfold Hw.Canonical; decide +kernel
theorem test_store_zero : ((State.reset.hw.store 9 [1, 0, 2]).store 9 [0]).mem = [(11, 2)] := by decide +kernel

/-- A boot store in recovery, with an erase waiting; and the end of a boot that raises a counter. -/
def recov_ : State := { at_ (regs_ [(0x003, 0x048, 3)]) with pending := [.flashErase 0x1FFFFFF] }
def booted_ : State := { at_ (regs_ [(0x005, 0x044, 7)]) with pending := [.bootOk .handler 0x10] }

theorem test_meets_EveryStepKeepsBootStore : recov_.boot.Inv ∧ (ran (step recov_)).isSome = true := by
  unfold Boot.Inv; decide +kernel
theorem test_meets_RollbackCountersNeverDecrease : (ran (step booted_)).map (·.boot.counters) = some [7, 0, 0, 0] := by decide +kernel

/-! ### The register window -/

theorem test_meets_PlainRegisterWrite : ∃ row, Reaches State.reset .portA 0x008 0x084 ∧ PlainRow .portA 0x008084 0xFFFFFFFF row
    ∧ row.takes 0xFFFFFFFF = true ∧ State.reset.hw.writable 0x008 0x084 0xFFFFFFFF = true :=
  ⟨(regRow 0x008084).get (by decide +kernel), ⟨rfl, by unfold Clear; decide +kernel, by decide +kernel⟩,
    ⟨by decide +kernel, by decide +kernel, by decide +kernel, by decide +kernel, by decide +kernel, by decide +kernel,
      by unfold Actionless; decide +kernel⟩, by decide +kernel, by decide +kernel⟩
theorem test_plain_write : seen (.registerWrite .portA 0x008084 4 0xFFFFFFFF) State.reset (fun h => h.rd 0x008 0x084) = some 0xFFFFFFFF := by
  decide +kernel
theorem test_meets_DiscardedWrites_plain : ∃ row, Reaches State.reset .handler 0x000 0x098 ∧ Actionless .handler 0x098 5
    ∧ regRow 0x098 = some row ∧ row.half = .one ∧ row.acc ≠ .rw :=
  ⟨(regRow 0x098).get (by decide +kernel), ⟨rfl, by unfold Clear; decide +kernel, by decide +kernel⟩, by unfold Actionless; decide +kernel, by decide +kernel,
    by decide +kernel, by decide +kernel⟩
theorem test_meets_DiscardedWrites_counted : Up State.reset ∧ State.reset.hw.pow.state < 3 ∧ (0xFF : Nat).log2 < 8 * 1 ∧ (1 : Nat) ≠ 4
    ∧ 0x3FFFFFE % 4 ≠ 0 ∧ blockOf (pageOfOff 0x3FFFFFC) = none ∧ blockOf (pageOfOff 0x3FFFFF8) = none := by
  unfold Up; decide +kernel
theorem test_discarded_saturates : seen (.registerWrite .portB 0x3FFFFFC 4 1) (at_ (regs_ [(0x000, 0x098, 0xFFFFFFFF)]))
    (fun h => (h.rd 0x000 0x098, h.rd 0x000 0x09C)) = some (0xFFFFFFFF, 0x3FFFFFC)
    ∧ seen (.registerWrite .portB 0x3FFFFF8 8 1) State.reset (fun h => (h.rd 0x000 0x098, h.rd 0x000 0x09C)) = some (2, 0x3FFFFFC) := by
  decide +kernel
theorem test_unimplemented_reads_zero : seen (.readClear .portB 0x3FFFFFC 4) State.reset (·.out) = some [.readReply .portB [0, 0, 0, 0]] := by
  decide +kernel

/-- The HI half of DMA0.SRC filled in port A's shadow, and its LO half staged. -/
def half_ : State := at_ fun h => { regs_ [(0x040, 0x040, 7), (0x040, 0x044, 9)] h with
  accA := { shadow := some (0x040040, 5), staging := some (0x040040, 6) } }

theorem test_meets_Halves_read : ∃ lo hi, Up half_ ∧ half_.hw.pow.state < 3 ∧ regRow 0x040040 = some lo ∧ lo.half = .lo
    ∧ half_.hw.clears 0x040040 lo = false ∧ regRow 0x040044 = some hi ∧ hi.half = .hi ∧ half_.hw.clears 0x040044 hi = false
    ∧ (half_.hw.acc .portA).shadow = some (0x040040, 5) ∧ (half_.hw.acc .portB).shadow = none :=
  ⟨(regRow 0x040040).get (by decide +kernel), (regRow 0x040044).get (by decide +kernel), by unfold Up; decide +kernel⟩
theorem test_meets_Halves_write : ∃ lo hi, HalfRow half_ .portA 0x040040 0xFFFFFFFF lo .lo ∧ lo.acc = .rw ∧ lo.handler = false
    ∧ lo.takes 0xFFFFFFFF = true ∧ half_.hw.writable 0x040 0x040 0xFFFFFFFF = true
    ∧ HalfRow half_ .portA 0x040044 0xFFFFF hi .hi ∧ hi.acc = .rw ∧ hi.handler = false ∧ hi.takes 0xFFFFF = true
    ∧ half_.hw.writable 0x040 0x044 0xFFFFF = true ∧ regRow (0x040044 - 4) = some lo :=
  ⟨(regRow 0x040040).get (by decide +kernel), (regRow 0x040044).get (by decide +kernel), by unfold HalfRow Reaches Up Clear Actionless; decide +kernel⟩
theorem test_meets_Halves_group : ∃ row, HalfRow State.reset .portB (pageOff (srvPage 3) 0x094) 0x8001 row .hi :=
  ⟨(regRow (pageOff (srvPage 3) 0x094)).get (by decide +kernel), by unfold HalfRow Reaches Up Clear Actionless; decide +kernel⟩
theorem test_halves : seen (.hiWrite .portA 0x040044 8) half_ (fun h => (h.rd 0x040 0x040, h.rd 0x040 0x044)) = some (6, 8)
    ∧ seen (.hiRead .portA 0x040044) half_ (·.out) = some [.readReply .portA [5, 0, 0, 0]]
    ∧ seen (.hiRead .portB 0x040044) half_ (·.out) = some [.readReply .portB [9, 0, 0, 0]]
    ∧ seen (.loRead .portB 0x040040) half_ (fun h => h.accB.shadow) = some (some (0x040040, 9))
    ∧ seen (.loWrite .portB 0x040040 3) half_ (fun h => (h.rd 0x040 0x040, h.accB.staging)) = some (7, some (0x040040, 3)) := by decide +kernel
theorem test_meets_ReadClears : ∃ row, regRow 0x080070 = some row ∧ row.half = .one ∧ (at_ (regs_ [(0x080, 0x070, 3)])).hw.clears 0x080070 row = true
    ∧ Up (at_ (regs_ [(0x080, 0x070, 3)])) :=
  ⟨(regRow 0x080070).get (by decide +kernel), by unfold Up; decide +kernel⟩
theorem test_read_clear : seen (.readClear .portA 0x080070 4) (at_ (regs_ [(0x080, 0x070, 3)])) (fun h => (h.out, h.regs))
    = some ([.readReply .portA [3, 0, 0, 0]], []) := by decide +kernel

/-- Core 0's page is held by the single step. -/
def stepHeld_ : State := at_ fun h => { regs_ [(0x080, 0x008, 5)] h with stepHeld := [0x080] }
theorem test_meets_PageControl : Reaches stepHeld_ .portA 0x080 0x008 ∧ blockOf 0x080 = some (.core, 0) ∧ bitOf (0xD : Word).toNat 1 = false := by
  unfold Reaches Up Clear; decide +kernel
theorem test_page_control : goes (.pageEnable .portA 0x080 5) stepHeld_ stepHeld_.hw = true
    ∧ goes (.step .portA 0x080 0xD) stepHeld_ { stepHeld_.hw with stepHeld := [] } = true
    ∧ seen (.stepMode .portA 0x080 1) stepHeld_ (fun h => (h.stepHeld, h.rd 0x080 0x008)) = some ([], 1) := by decide +kernel
theorem test_meets_SoftReset_plain : Reaches State.reset .portA 0x020 0x008 ∧ blockOf 0x020 = some (.mmu, 0) ∧ Block.mmu.resetCapable = true
    ∧ State.reset.hw.demand.resetting.contains 0x020 = false := by
  unfold Reaches Up Clear; decide +kernel
theorem test_meets_SoftReset_step : Reaches State.reset .portB 0x0C0 0x008 ∧ blockOf 0x0C0 = some (.spl, 0) ∧ Block.spl.stepCapable = true
    ∧ State.reset.hw.demand.resetting.contains 0x0C0 = false := by
  unfold Reaches Up Clear; decide +kernel

/-- TRC under soft reset, with a filter written and records dropped. -/
def resetting_ : State := at_ fun h => { regs_ [(0x008, 0x084, 5), (0x008, 0x058, 2), (0x009, 0x060, 1)] h with resetting := [0x008, 0x080] }
theorem test_meets_SoftReset_done : Up resetting_ ∧ resetting_.hw.resetting.contains 0x008 = true ∧ resetting_.hw.resetQuiet 0x008 = true
    ∧ regKey 0x008084 0 / 0x4000 = 0x008 ∧ softKept 0x008 0x084 = false := by
  unfold Up; decide +kernel
theorem test_soft_reset_done : seen (.softResetDone 0x008) resetting_ (fun h => (h.resetting, h.rd 0x008 0x084)) = some ([0x080], 0) := by
  decide +kernel

theorem test_meets_HostAbi : Reaches State.reset .portB 0x000 0x044 := by unfold Reaches Up Clear; decide +kernel
theorem test_host_abi : seen (.hostAbi .portB 0xFF010000) State.reset (fun h => (h.rd 0x000 0x044 1, h.rd 0x000 0x044 0, h.rd 0x000 0x048))
    = some (0x010000, 0, 0x80010000)
    ∧ seen (.hostAbi .portB 0x020001) State.reset (fun h => h.rd 0x000 0x048) = some 0x20000000 := by decide +kernel
/-- A queue whose enable has been cleared. -/
def draining_ : State := at_ fun h => h.setQs (coreQ 7) { st := .running, draining := true }
theorem test_meets_Drain : Up draining_ ∧ hasQueue (.core 0) 7 = true ∧ (draining_.hw.qs (coreQ 7)).draining = true
    ∧ (draining_.hw.qs (coreQ 7)).cmds = [] ∧ (draining_.hw.qs (coreQ 7)).rejected = none := by
  unfold Up; decide +kernel
theorem test_drain : seen (.drainComplete (.core 0) 7) draining_ (fun h => (h.qs (coreQ 7)).st) = some .disabled := by decide +kernel

/-! ### Commands, queues, commit and kill -/

/-- Core 0's page enabled, queue 0 enabled and running with a ring of two slots at 0x1000, a window of 8 and one slot submitted by the
Handler, whose command is `d`. -/
def ready_ (d : BitVec 512) : State := at_ fun h =>
  let h := regs_ [(0x080, 0x008, 1), (0x080, 0x100, 0x1000), (0x080, 0x108, 1), (0x080, 0x10C, 1), (0x080, 0x118, 8), (0x080, 0x11C, 1)] (mapped h)
  (h.setQs (coreQ) { st := .running, subs := [(1, .handler)] }).store (memKey 1 0x1000) (leBytes 64 d.toNat)

/-- A core queue that holds one command. -/
def one_ (c : Cmd) : State := at_ fun h => holds_ coreQ [c] (mapped h)

theorem test_meets_FinishedCommand : ((one_ (cmd_ 0)).hw.finishCmd coreQ (cmd_ 0) { result := [7], counts := [(0x074, 2)] }).rd 0x080 0x074 = 2
    ∧ regKey 0x080070 0 ≠ regKey (engPage (.core 0) * 0x1000 + 0x074) 0 := by decide +kernel
theorem test_finished_lands : (let c := cmd_ (desc_ 7 [(24, 1), (0x18 * 8, 3 * 2 ^ 62 + 2 ^ 48 + 8), (0x24 * 8, 8)])
    ((one_ c).hw.finishCmd coreQ c { result := List.replicate 8 3 }).landing) = [⟨1, 8, List.replicate 8 3, 1, 0⟩] := by decide +kernel

theorem test_meets_KillDropsIssuedCommands : ((one_ (cmd_ 0)).hw.killOne coreQ (some .reset)).qIssue coreQ = 0
    ∧ (((one_ (cmd_ 0)).hw.killOne coreQ (some .reset)).qs coreQ).cause = 6 := by decide +kernel

theorem test_meets_QueueTailWrites : hasQueue (.core 0) 0 = true ∧ Reaches (ready_ 0) .portA (engPage (.core 0)) (qOff coreQ 0x0C)
    ∧ (let h := (ready_ 0).hw.demand.worked
       h.uncommitted coreQ ≤ ptrSub 2 (h.qCommit coreQ) ∧ ptrSub 2 (h.qCommit coreQ) ≤ h.qEntries coreQ
         ∧ ¬ (h.uncommitted coreQ ≤ ptrSub 3 (h.qCommit coreQ) ∧ ptrSub 3 (h.qCommit coreQ) ≤ h.qEntries coreQ)) := by
  unfold Reaches Up Clear; decide +kernel
theorem test_queue_tail : seen (.queueTailWrite .portA (.core 0) 0 2) (ready_ 0) (fun h => (h.qTail coreQ, (h.qs coreQ).subs))
    = some (2, [(1, .handler), (2, .portA)])
    ∧ seen (.queueTailWrite .portA (.core 0) 0 3) (ready_ 0) (fun h => (h.qTail coreQ, h.rd 0x080 0x01C)) = some (1, 0x8000000A) := by
  decide +kernel

/-- A queue halted with a slot at COMMIT, one paused, and one that runs. -/
def stopped_ : State := at_ fun h =>
  (((regs_ [(0x080, 0x10C, 0xFFFFFFFF), (0x080, 0x110, 0xFFFFFFFE), (0x080, 0x114, 0xFFFFFFFE)] h).setQs (coreQ 0) { st := .halted }).setQs (coreQ 1)
    { st := .paused }).setQs (coreQ 2) { st := .running }
theorem test_meets_QueueControl_enable : hasQueue (.stage 3 .srv) 3 = true ∧ Reaches State.reset .handler (engPage (.stage 3 .srv)) (qOff ⟨.stage 3 .srv, 3⟩ 0x1C)
    ∧ State.reset.hw.demand.ownsQueue ⟨.stage 3 .srv, 3⟩ = true ∧ State.reset.hw.demand.underTest (.stage 3 .srv) = false
    ∧ bitOf (0 : Word).toNat 0 = false := by
  unfold Reaches Up Clear; decide +kernel
theorem test_meets_QueueControl_actions : Reaches stopped_ .portA (engPage (.core 0)) (qOff (coreQ 1) 0x1C) ∧ bitOf (2 : Word).toNat 0 = false
    ∧ (∀ n ∈ [1, 2, 3, 4], n ≠ 1 → bitOf (2 : Word).toNat n = false) ∧ (stopped_.hw.demand.qs (coreQ 1)).st = .paused
    ∧ (∀ n ∈ [1, 2, 3, 4], n ≠ 3 → bitOf (8 : Word).toNat n = false) ∧ (stopped_.hw.demand.qs (coreQ 0)).st = .halted
    ∧ stopped_.hw.demand.qCommit (coreQ 0) ≠ stopped_.hw.demand.qTail (coreQ 0)
    ∧ (∀ n ∈ [1, 2, 3, 4], n ≠ 4 → bitOf (0x10 : Word).toNat n = false) ∧ (∀ n ∈ [1, 2, 3, 4], n ≠ 2 → bitOf (4 : Word).toNat n = false)
    ∧ (stopped_.hw.demand.qs (coreQ 2)).st ≠ .disabled := by
  unfold Reaches Up Clear; decide +kernel
theorem test_queue_control : goes (.queueResume .portA (.core 0) 1 2) stopped_ ((stopped_.hw.resumeQueue (coreQ 1)).clearEnable (coreQ 1)) = true
    ∧ goes (.queueSkip .portA (.core 0) 0 8) stopped_ ((stopped_.hw.skipSlot (coreQ 0)).clearEnable (coreQ 0)) = true
    ∧ goes (.queueKill .portA (.core 0) 2 0x10) stopped_ ((stopped_.hw.killOrDefer (coreQ 2) .runtime).clearEnable (coreQ 2)) = true
    ∧ goes (.queuePreempt .portA (.core 0) 2 4) stopped_ ((stopped_.hw.killOrDefer (coreQ 2) .preempt).clearEnable (coreQ 2)) = true
    ∧ seen (.queueEnable .portA (.core 0) 3 1) stopped_ (fun h => (h.qs (coreQ 3)).st) = some .running := by decide +kernel
theorem test_meets_QueueOperations : hasQueue (.core 0) 0 = true ∧ (stopped_.hw.qs (coreQ 0)).st = .halted
    ∧ stopped_.hw.qCommit (coreQ 0) ≠ stopped_.hw.qTail (coreQ 0) ∧ (stopped_.hw.skipSlot (coreQ 0)).qCommit (coreQ 0) = 0xFFFFFFFF
    ∧ (stopped_.hw.qs (coreQ 7)).st = .disabled ∧ ((stopped_.hw.setEnable (coreQ 7)).qs (coreQ 7)).reload = true
    ∧ (∀ c ∈ ((one_ (cmd_ 0)).hw.qs coreQ).cmds, holdsKill .preempt c = false)
    ∧ (((one_ (cmd_ 0)).hw.killOrDefer coreQ .preempt).qs coreQ).st = .paused := by decide +kernel

theorem test_meets_CommandIssues : Up (ready_ (desc_ 0 [(8, 1)])) ∧ (ready_ (desc_ 0 [(8, 1)])).hw.headFault (.core 0) = none
    ∧ (let s := ready_ (desc_ 0 [(8, 1)])
       let h := s.hw.noteHolds (s.hw.heads (.core 0))
       (h.arbitrate (.core 0) ((s.hw.heads (.core 0)).filter fun x => h.headFit x && h.unitFree x && (h.headWaits x).isNone)).any
         (fun x => h.headCheck x == 0) = true) := by
  unfold Up; decide +kernel
theorem test_meets_CommandIssues_rejected : (let s := ready_ (desc_ 0x7F [(8, 1)])
       let h := s.hw.noteHolds (s.hw.heads (.core 0))
       (h.arbitrate (.core 0) ((s.hw.heads (.core 0)).filter fun x => h.headFit x && h.unitFree x && (h.headWaits x).isNone)).any
         (fun x => h.headCheck x == cFORMAT && (h.qs x.id).rejected.isNone) = true) := by decide +kernel
/-- The ring's page is not mapped. -/
def unread_ : State := { ready_ 0 with hw := { (ready_ 0).hw with mmu := {} } }
theorem test_meets_CommandIssues_fault : (match unread_.hw.headFault (.core 0) with
    | some (id, c, _, _, _) => decide (id = coreQ ∧ c = fNotValid) | none => false) = true := by decide +kernel
theorem test_command_issue : seen (.commandIssue (.core 0)) (ready_ (desc_ 0 [(8, 1)])) (fun h => ((h.qs coreQ).cmds.map (·.desc), h.qIssue coreQ))
    = some ([desc_ 0 [(8, 1)]], 1)
    ∧ seen (.commandIssue (.core 0)) (ready_ (desc_ 0x7F [(8, 1)])) (fun h => ((h.qs coreQ).rejected.map (·.code), h.qIssue coreQ))
    = some (some cFORMAT, 0) := by decide +kernel

/-- A rejected command that is the oldest. -/
def rejected_ : State := at_ fun h => (mapped h).setQs coreQ { st := .running, rejected := some ⟨0, cFORMAT, 0⟩ }
theorem test_meets_RejectedCommandHalts : Up rejected_ ∧ hasQueue (.core 0) 0 = true ∧ rejected_.hw.rejectDue coreQ = true := by
  unfold Up; decide +kernel
theorem test_meets_RejectedCommandHalts_waits : (one_ (cmd_ 0)).hw.rejectDue coreQ = false ∧ (rejected_.hw.qs coreQ).cmds.filter (·.going) = [] := by
  decide +kernel
theorem test_rejected_halt : seen (.rejectedCommandHalt (.core 0) 0) rejected_ (fun h => ((h.qs coreQ).st, (h.qs coreQ).rejected, h.rd 0x080 0x01C))
    = some (.halted, none, 0x80000008) := by decide +kernel

/-- Queue 1 runs a matmul at level 3 that may be pre-empted; the head of queue 0 is a matmul at level 0. -/
def preempt_ : State :=
  let s := ready_ (desc_ 0x40 [(8, 1), (0x28 * 8, 0), (0x2C * 8, 1 + 1 * 2 ^ 16)])
  { s with hw := holds_ (coreQ 1) [{ cmd_ (desc_ 0x40 [(8, 1), (12, 3)]) with lvl := 3 }] (regs_ [(0x080, 0x040, 1), (0x080, 0x158, 0x208)] s.hw) }
/-- The same, with members of one set of two queues behind the matmul and before the head: the kill takes both queues back. -/
def preemptBoth_ : State := on_ preempt_ fun h =>
  let h := holds_ (coreQ 1) [{ cmd_ (desc_ 0x40 [(8, 1), (12, 3)]) with lvl := 3 }, { cmd_ (desc_ 0 [(24, 9)]) with ptr := 1 }] h
  let h := h.setQs coreQ { h.qs coreQ with cmds := [cmd_ (desc_ 0 [(24, 9)])], subs := [(2, .handler)] }
  regs_ [(0x080, 0x10C, 2), (0x080, 0x110, 1)] (h.store (memKey 1 0x1040) (h.bytes (memKey 1 0x1000) 64))
theorem test_meets_AutoPreempt : ∀ s ∈ [preempt_, preemptBoth_], s.hw.bit (corePage 0) 0x040 0 = true
    ∧ (match s.hw.arbitrate (.core 0) ((s.hw.heads (.core 0)).filter fun x => (s.hw.givesWay 0 x).isSome) with
      | some x => decide (x.id = coreQ ∧ s.hw.givesWay 0 x = some [coreQ 1]
          ∧ (((s.hw.kill (coreQ 1) .preempt).qIssue coreQ = s.hw.qIssue coreQ) ↔ s = preempt_))
      | none => false) = true := by decide +kernel
theorem test_auto_preempt : seen (.autoPreempt 0) preempt_ (fun h => ((h.qs (coreQ 1)).cmds, (h.qs (coreQ 1)).cause)) = some ([], 2) := by
  decide +kernel

/-- A set that fills its window of one. -/
def overflow_ : State := at_ fun h => (holds_ coreQ [cmd_ (desc_ 0 [(24, 9)])] (mapped h)).qwr coreQ 0x18 1
theorem test_meets_GroupOverflow : Up overflow_ ∧ (overflow_.hw.qs coreQ).cmds = [cmd_ (desc_ 0 [(24, 9)])]
    ∧ (overflow_.hw.qs coreQ).st = .running ∧ (overflow_.hw.qs coreQ).rejected = none ∧ bitsOf (overflow_.hw.qrd coreQ 0x18) 8 0 = 1
    ∧ 1 ≤ overflow_.hw.uncommitted coreQ ∧ hitchRun [cmd_ (desc_ 0 [(24, 9)])] = none := by
  unfold Up; decide +kernel
theorem test_group_overflow : seen (.groupOverflow 0 0) overflow_ (fun h => ((h.qs coreQ).st, (h.qs coreQ).cmds)) = some (.halted, []) := by
  decide +kernel

/-- WAIT_MEM for the word at 0x2000, whose value `v` masked by 0xF0 is awaited to be 0x30. -/
def waiting_ (v : Nat) : State :=
  let s := one_ (cmd_ (desc_ 4 [(0x10 * 8, 0x2000), (0x28 * 8, 0xF0), (0x2C * 8, 0x30), (0x30 * 8, 1)]))
  { s with hw := { s.hw.store (memKey 1 0x2000) (leBytes 4 v) with time := 2560 } }
theorem test_meets_SystemOpcodes : (one_ (cmd_ (desc_ 0 []))).hw.running coreQ 0x00 = [cmd_ (desc_ 0 [])]
    ∧ (one_ (cmd_ (desc_ 6 []))).hw.running coreQ 0x06 = [cmd_ (desc_ 6 [])] ∧ (one_ (cmd_ (desc_ 5 []))).hw.running coreQ 0x05 = [cmd_ (desc_ 5 [])]
    ∧ (one_ (cmd_ (desc_ 2 []))).hw.running coreQ 0x02 = [cmd_ (desc_ 2 [])] ∧ (one_ (cmd_ (desc_ 3 []))).hw.running coreQ 0x03 = [cmd_ (desc_ 3 [])] := by
  decide +kernel
theorem test_meets_WaitMem : ((waiting_ 0x3F).hw.running coreQ 0x04).any (fun c =>
      (waiting_ 0x3F).hw.source coreQ c 0 4 == .ok [0x3F, 0, 0, 0] && (0x3F &&& dword c.desc 0) == dword c.desc 1
        && (0x2F &&& dword c.desc 0) != dword c.desc 1 && dword c.desc 2 != 0
        && decide (dword c.desc 2 * 1024 ≤ (waiting_ 0x3F).hw.cclk 0 ((waiting_ 0x3F).hw.time - c.issuedAt))) = true := by decide +kernel
theorem test_meets_WaitMem_waits : ((waiting_ 0x2F).hw.running coreQ 0x04).all (fun c =>
      match (waiting_ 0x2F).hw.source coreQ c 0 4 with
      | .ok bs => (leNat bs &&& dword c.desc 0) != dword c.desc 1 | .error _ => false) = true
    ∧ ({ (waiting_ 0x2F) with hw := { (waiting_ 0x2F).hw with time := 0 } }.hw.running coreQ 0x04).all (fun c =>
      decide ((waiting_ 0x2F).hw.cclk 0 (0 - c.issuedAt) < dword c.desc 2 * 1024)) = true := by decide +kernel
theorem test_wait_mem : seen (.waitMem 0 0) (waiting_ 0x3F) (fun h => (h.qs coreQ).cmds.map (·.finished)) = some [true]
    ∧ seen (.waitMem 0 0) (waiting_ 0x2F) (fun h => (h.qs coreQ).cmds.map (·.finished)) = some [false]
    ∧ seen (.waitTimeout 0 0) (waiting_ 0x2F) (fun h => (h.qs coreQ).rejected.map (·.code)) = some (some cWAIT_TIMEOUT) := by decide +kernel

/-- PEER_SEND of 8 bytes from 0x2000 to byte 16 of core 1's landing area, in group 1. -/
def peer_ : State :=
  let s := one_ (cmd_ (desc_ 7 [(24, 1), (0x10 * 8, 0x2000), (0x18 * 8, 3 * 2 ^ 62 + 2 ^ 48 + 16), (0x20 * 8, 8), (0x24 * 8, 8)]))
  { s with hw := s.hw.store (memKey 1 0x2000) [1, 2, 3, 4, 5, 6, 7, 8] }
theorem test_meets_PeerSend : (peer_.hw.running coreQ 0x07).any (fun c =>
    peer_.hw.source coreQ c (dword c.desc 0) (dDstLen c.desc) == .ok [1, 2, 3, 4, 5, 6, 7, 8]) = true := by decide +kernel
theorem test_peer_send : seen (.peerSend 0 0) peer_ (·.landing) = some [⟨1, 16, [1, 2, 3, 4, 5, 6, 7, 8], 1, 0⟩] := by decide +kernel
theorem test_meets_LandingArrives : (seen (.peerSend 0 0) peer_ (fun h => h.landing.find? fun l => l.core = 1)) = some (some ⟨1, 16, [1, 2, 3, 4, 5, 6, 7, 8], 1, 0⟩)
    ∧ (([] : List Landing).filter (Landing.meets ⟨1, 16, [1], 1, 0⟩)) = []
    ∧ ([⟨1, 16, [9], 1, 0⟩].filter (Landing.meets ⟨1, 16, [1], 1, 0⟩)) ≠ [] := by decide +kernel

/-- A stage queue that holds one command. -/
def stage1_ (u : StageUnit) (c : Cmd) : State := at_ fun h => holds_ (stageQ u) [c] (mapped h)
theorem test_meets_StageSystemOpcodes : (stage1_ .spl (cmd_ (desc_ 0 []))).hw.stageHead (stageQ .spl) 0x00 = some (cmd_ (desc_ 0 []))
    ∧ (stage1_ .srv (cmd_ (desc_ 6 []))).hw.stageHead (stageQ .srv) 0x06 = some (cmd_ (desc_ 6 [])) := by decide +kernel

/-- CTX_LOAD of the block at 0x2000, which names grammar root 0x3000. -/
def ctx_ (id : QId) : State := at_ fun h =>
  (holds_ id [cmd_ (desc_ 1 [(0x10 * 8, 0x2000), (0x20 * 8, 64)])] (mapped h)).store (memKey 1 0x2020) (leBytes 8 0x3000)
theorem test_meets_CtxLoad_core : ((ctx_ coreQ).hw.running coreQ 0x01).any (fun c =>
    match (ctx_ coreQ).hw.read (queueMaster coreQ) (dSrc c.desc) 64 with
    | .ok b => decide (b.length = 64 ∧ ctxMuzzle b = 0x3000) | .error _ => false) = true := by decide +kernel
theorem test_ctx_load : seen (.ctxLoad (.core 0) 0) (ctx_ coreQ) (fun h => ((h.qs coreQ).cmds.map (·.finished), h.measures)) = some ([true], [.grammar 0x3000]) := by
  decide +kernel

/-- A finished command with a write, and one whose write meets an unmapped page. -/
def hitch_ (va : Nat) : State := one_ { cmd_ 0 with finished := true, writes := [(va, [5, 6])] }
theorem test_meets_HitchCommits : ∀ va ∈ [0x2000, 0x2000000], ((hitch_ va).hw.hitchReady coreQ).any (fun runs =>
    runs.all (hitch_ va).hw.runRing && (hitch_ va).hw.runCredit runs && decide (((hitch_ va).hw.lockFail runs).isSome = (va == 0x2000000))
      && decide (runs.map (·.1) = [coreQ])) = true := by decide +kernel
theorem test_hitch : seen (.hitch 0 0) (hitch_ 0x2000) (fun h => (h.bytes (memKey 1 0x2000) 2, h.qCommit coreQ, (h.qs coreQ).cmds)) = some ([5, 6], 1, [])
    ∧ seen (.hitch 0 0) (hitch_ 0x2000000) (fun h => (h.bytes (memKey 1 0x2000000) 2, h.qCommit coreQ, (h.qs coreQ).st)) = some ([0, 0], 0, .faultHold) := by decide +kernel
/-- A set of one queue, with its GROUP_END. -/
def set_ : State := at_ fun h => holds_ coreQ [{ cmd_ (desc_ 0 [(24, 1)]) with finished := true, writes := [(0x2000, [5])] },
  { cmd_ (desc_ 5 [(24, 1)]) with ptr := 1, finished := true }] (mapped h)
theorem test_meets_HitchCommits_set : (set_.hw.hitchReady coreQ).any (fun runs => runs.all set_.hw.runRing && set_.hw.runCredit runs
    && (set_.hw.lockFail runs).isNone && decide (runs.map (·.2.length) = [2])) = true := by decide +kernel
theorem test_hitch_set : seen (.hitch 0 0) set_ (fun h => (h.bytes (memKey 1 0x2000) 1, h.qCommit coreQ, (h.qs coreQ).cmds)) = some ([5], 2, []) := by
  decide +kernel

/-- The same on a Muzzle, with a good grammar header at the root. -/
def muzCtx_ : State := { ctx_ (stageQ .muz) with hw := (ctx_ (stageQ .muz)).hw.store (memKey 1 0x3000) [1, 0, 0, 0, 1] }
theorem test_meets_CtxLoad_muzzle : (muzCtx_.hw.stageHead (stageQ .muz) 0x01).any (fun c =>
    match muzCtx_.hw.read (queueMaster (stageQ .muz)) (dSrc c.desc) 64, muzCtx_.hw.read (queueMaster (stageQ .muz)) 0x3000 64 with
    | .ok b, .ok g => decide (b.length = 64 ∧ ctxMuzzle b = 0x3000 ∧ g.length = 64 ∧ muzCtx_.hw.grammarOk (stageQ .muz) g = true
        ∧ ctxMuzzle b ∉ muzCtx_.hw.measured)
    | _, _ => false) = true := by decide +kernel
theorem test_ctx_load_muzzle : seen (.ctxLoad (.stage 0 .muz) 0) muzCtx_ (fun h => ((h.qs (stageQ .muz)).grammar.take 5, h.measures))
    = some ([1, 0, 0, 0, 1], [.grammar 0x3000]) := by decide +kernel

theorem test_meets_CommitEnds : hasQueue (.core 0) 0 = true ∧ (∀ x ∈ [((0 : Nat), (15 : Nat), (1 : Nat))], x.2.1 < 16)
    ∧ (∀ x ∈ ({ cmd_ 0 with hitchCounts := [(0x070, 1), (0x300, 1)] } : Cmd).hitchCounts, x.1 < 0x100 ∨ (0x300 ≤ x.1 ∧ x.1 < 0x1000))
    ∧ (cmd_ 0).spans = [] := by decide +kernel
/-- A set whose Hitch has begun, one whose queue owes a record to the ring, and a command alone that waits for an entry or a credit. -/
def going_ : State := on_ set_ fun h => h.releaseRuns ((h.hitchReady coreQ).getD [])
def goingOwes_ : State := on_ going_ fun h =>
  (h.setQs coreQ { h.qs coreQ with owed := [⟨List.replicate 16 9, true, true, true, false, true⟩] }).qwr coreQ 0x3C 16
def hitchFull_ : State := on_ (one_ { cmd_ (desc_ 0 [(0x0C * 8 + 16, 1)]) with finished := true }) fun h => h.qwr coreQ 0x3C 16
def mirrored_ : Cmd := { cmd_ (desc_ 0x10 [(0x0C * 8 + 15, 1)]) with finished := true }
def hitchDry_ : State := on_ (one_ mirrored_) fun h =>
  { h with pair := { h.pair with state := 2, outbound := outbound_ } }
theorem test_meets_HitchCommits_goes : (going_.hw.goingSet coreQ) = some (1, 0) ∧ (one_ (cmd_ 0)).hw.goingSet coreQ = none
    ∧ (one_ (cmd_ 0)).hw.hitchReady coreQ = none
    ∧ (let g := Hw.goOn coreQ 2 going_.hw
       going_.hw.goingIn (1, 0) = [coreQ] ∧ g.goingIn (1, 0) = [])
    ∧ (Hw.goOn coreQ 2 goingOwes_.hw).goingIn (1, 0) = [coreQ] := by decide +kernel
theorem test_meets_HitchCommits_waits : (hitchFull_.hw.hitchReady coreQ).any (fun runs => !runs.all hitchFull_.hw.runRing) = true
    ∧ (hitchDry_.hw.hitchReady coreQ).any (fun runs => runs.all hitchDry_.hw.runRing && decide (runs = [(coreQ, (hitchDry_.hw.qs coreQ).cmds)])) = true
    ∧ hitchFull_.hw.goingSet coreQ = none ∧ hitchDry_.hw.goingSet coreQ = none := by decide +kernel
/-- There is no credit, whatever the size of the packet, which is free, unless it is larger than the log. -/
theorem test_meets_HitchCommits_credit (hp : Config.packetSize 0 0 ≤ 0x4000000) :
    hitchDry_.hw.runCredit [(coreQ, (hitchDry_.hw.qs coreQ).cmds)] = false := by
  have l : hitchDry_.hw.logBytes = 0x4000000 := by decide +kernel
  have q : (hitchDry_.hw.qs coreQ).cmds = [mirrored_] := by decide +kernel
  have f : hitchDry_.hw.forwards mirrored_ = true := by decide +kernel
  have w : hitchDry_.hw.packetWrites coreQ mirrored_ (hitchDry_.hw.recordDue coreQ mirrored_) (leBytes 16 0) = [] := by decide +kernel
  have e : hitchDry_.hw.runPackets (coreQ, [mirrored_]) = [Config.packetSize 0 0] := by
    simp [Hw.runPackets, l, f, w, packetBytes, hp]
  have o : (hitchDry_.hw.pair.outbound.filter fun o => o.queue.isSome).length = 256 := by decide +kernel
  rw [q]; simp [Hw.runCredit, e, o]
theorem test_commit_end : (let h := (one_ (cmd_ 0)).hw.commitEnd coreQ (cmd_ 0) [(0, 15, 1)]
    (h.qCommit coreQ, (h.qs coreQ).cmds, h.sem 0 15)) = (1, [], 1) := by decide +kernel

theorem test_meets_QueuePointers : hasQueue (.core 0) 1 = true ∧ Reaches stopped_ .portB (engPage (.core 0)) (qOff (coreQ 1) 0x14)
    ∧ (stopped_.hw.qs (coreQ 1)).st = .paused ∧ (stopped_.hw.qs (coreQ 7)).st = .disabled ∧ (stopped_.hw.qs (coreQ 2)).st ≠ .paused
    ∧ (stopped_.hw.qs (coreQ 2)).st ≠ .disabled ∧ Reaches stopped_ .portB (engPage (.core 0)) (qOff (coreQ 1) 0x38)
    ∧ ptrSub 0 (stopped_.hw.qrd (coreQ 1) 0x3C) = 0 ∧ 0x80000000 ≤ ptrSub 0x80000000 (stopped_.hw.qrd (coreQ 1) 0x3C)
    ∧ 0 < ptrSub 0x7FFFFFFF (stopped_.hw.qrd (coreQ 1) 0x3C) ∧ ptrSub 0x7FFFFFFF (stopped_.hw.qrd (coreQ 1) 0x3C) < 0x80000000 := by
  unfold Reaches Up Clear; decide +kernel
theorem test_queue_pointers : seen (.queueCommitWrite .portB (.core 0) 1 7) stopped_ (fun h => (h.qCommit (coreQ 1), h.qIssue (coreQ 1))) = some (7, 7)
    ∧ goes (.queueCommitWrite .portB (.core 0) 2 7) stopped_ (stopped_.hw.badAccess (pageOff 0x080 0x194)) = true
    ∧ seen (.cqHeadWrite .portB (.core 0) 1 0x80000000) stopped_ (fun h => h.qrd (coreQ 1) 0x38) = some 0x80000000
    ∧ goes (.cqHeadWrite .portB (.core 0) 1 0x7FFFFFFF) stopped_ (stopped_.hw.badAccess (pageOff 0x080 0x178)) = true := by decide +kernel

/-- A queue that owes a record, which waits for the twin or not, with a completion ring at 0x4000. -/
def owes_ (ack : Bool) : State := at_ fun h => (regs_ [(0x080, 0x130, 0x4000)] (mapped h)).setQs coreQ
  { st := .running, owed := [⟨List.replicate 16 9, true, true, ack, false, false⟩] }
theorem test_meets_CompletionRecords : hasQueue (.core 0) 0 = true ∧ (owes_ false).hw.cqReady coreQ = true
    ∧ ((owes_ false).hw.qwr coreQ 0x3C 16).cqReady coreQ = false ∧ ((owes_ true).hw.qs coreQ).owed.map (·.ack) = [true] := by decide +kernel
theorem test_completion_record : seen (.completionRecordWrite (.core 0) 0) (owes_ false)
      (fun h => (h.bytes (memKey 1 0x4000) 16, h.qrd coreQ 0x3C, (h.qs coreQ).owed, h.rd 0x080 0x010)) = some (List.replicate 16 9, 1, [], 1)
    ∧ goes (.completionRecordWrite (.core 0) 0) (owes_ true) (owes_ true).hw = true := by decide +kernel

theorem test_meets_Kills : Up (one_ (cmd_ 0)) ∧ hasQueue (.core 0) 0 = true ∧ KillCause.reset ≠ .fault
    ∧ (∀ c ∈ ((one_ (cmd_ 0)).hw.qs coreQ).cmds, c.todo = none) := by
  unfold Up; decide +kernel
theorem test_meets_Kills_causes : KillCause.fault ∈ killCauses (.core 0) ∧ KillCause.fault ∉ killCauses (.stage 0 .spl)
    ∧ KillCause.preempt ∈ killCauses (.stage 0 .spl) ∧ holdsKill .preempt { cmd_ 0 with todo := some [] } = true
    ∧ coreQ ∈ ((at_ fun h => holds_ (coreQ 1) [cmd_ (desc_ 0 [(24, 1)])] (holds_ coreQ [cmd_ (desc_ 0 [(24, 1)])] h)).hw.killClosure [] 2 [coreQ 1]) := by
  decide +kernel
theorem test_kill_refused : bad (exec (.kill (.stage 0 .spl) 0 .fault) State.reset) "KILL" = true := by decide +kernel
theorem test_kill : seen (.kill (.core 0) 0 .fault) (one_ (cmd_ 0)) (fun h => ((h.qs coreQ).st, (h.qs coreQ).cmds, h.isHeld (queueMaster coreQ)))
    = some (.faultHold, [], true)
    ∧ seen (.kill (.core 0) 0 .runtime) (one_ (cmd_ 0)) (fun h => ((h.qs coreQ).st, (h.qs coreQ).cmds)) = some (.running, []) := by decide +kernel

/-- A speculative command of step 3 of group 1, with an increment of its tag, and group 2 confirmed. -/
def spec_ : State := at_ fun h => { holds_ coreQ [cmd_ (desc_ 0 [(24, 1), (0x0C * 8 + 12, 1), (0x0C * 8 + 13, 3)])] (mapped h) with
  tagged := [⟨5, 2, 1, 1, 3, coreQ, 0⟩]
  gathers := [⟨0, 0, 0, 0, 0, 0, 0, 0, 0, 0, some (1, 3), false, false⟩] }
theorem test_meets_Speculation : (1 : Fin 256).val ≠ 0 ∧ (0 : Fin 256).val = 0 ∧ spec_.hw.carries coreQ 1 (spec_.hw.rejected 1 3) = true
    ∧ (∀ c ∈ (spec_.hw.qs coreQ).cmds, c.todo = none) := by decide +kernel
theorem test_speculation : seen (.specConfirm 1 3) spec_ (fun h => (h.confirmed 1 3, h.tagged, h.gathers.map (·.tag))) = some (true, [], [none])
    ∧ seen (.specReject 1 3) spec_ (fun h => ((h.qs coreQ).cmds, h.tagged, h.gathers)) = some ([], [], [])
    ∧ goes (.specReject 0 3) spec_ spec_.hw = true := by decide +kernel

/-- A finished stage command with a write at `va`. -/
def commit_ (u : StageUnit) (op va : Nat) (rec_ : Nat) : State :=
  stage1_ u { cmd_ (desc_ op [(0x0C * 8 + 16, rec_)]) with finished := true, writes := [(va, [5])] }
theorem test_meets_StageCommits : ∀ x ∈ [(StageUnit.emb, 0x06), (.spl, 0x10), (.pck, 0x11)],
    ((commit_ x.1 x.2 0x2000 0).hw.stageCommitHead (stageQ x.1)).any (fun c => decide (c.todo = none
      ∧ (dOpcode c.desc < 0x10 ∧ (commit_ x.1 x.2 0x2000 0).hw.waitsConfirm (stageQ x.1) c = false ∨ 0x10 ≤ dOpcode c.desc)
      ∧ (commit_ x.1 x.2 0x2000 0).hw.ringGate (stageQ x.1) c = true ∧ (commit_ x.1 x.2 0x2000 0).hw.creditGate (stageQ x.1) c = true
      ∧ (Hw.stageWrites (stageQ x.1) c c.writes (commit_ x.1 x.2 0x2000 0).hw).2 = [])) = true := by decide +kernel
theorem test_meets_StageCommits_waits : (((commit_ .pck 0x11 0x2000 1).hw.qwr (stageQ .pck) 0x3C 16).stageCommitHead (stageQ .pck)).any (fun c =>
      !((commit_ .pck 0x11 0x2000 1).hw.qwr (stageQ .pck) 0x3C 16).ringGate (stageQ .pck) c) = true
    ∧ ((commit_ .pck 0x11 0x2000000 0).hw.stageCommitHead (stageQ .pck)).any (fun c => decide (c.writes.map (·.1) = [0x2000000]
        ∧ cutWrites c.writes = [(0x2000000, [5])] ∧ (commit_ .pck 0x11 0x2000000 0).hw.windowOf 0x2000000 = none)
        && (match (commit_ .pck 0x11 0x2000000 0).hw.place (queueMaster (stageQ .pck)) 0x2000000 [5] with
            | .error (.fault _ _ _) => true | _ => false)) = true := by decide +kernel
theorem test_stage_commit : seen (.stageCommitStep 0 .spl 0) (commit_ .spl 0x10 0x2000 0) (fun h => (h.bytes (memKey 1 0x2000) 1, (h.qs (stageQ .spl)).cmds, h.qCommit (stageQ .spl))) = some ([5], [], 1)
    ∧ seen (.stageCommitStep 0 .pck 0) (commit_ .pck 0x11 0x2000000 0) (fun h => ((h.qs (stageQ .pck)).st, h.qCommit (stageQ .pck)))
      = some (.faultHold, 0) := by decide +kernel
/-- A commit to be mirrored for which the twin's log has no room; one whose second page is not mapped. -/
def uncredited_ : State := on_ (stage1_ .spl mirrored_) fun h =>
  { h with pair := { h.pair with state := 2, outbound := outbound_ } }
def partway_ : State := stage1_ .pck { cmd_ (desc_ 0x11 []) with finished := true, writes := [(0x1FFFFFF, [5, 6])] }
theorem test_meets_StageCommits_credit (hp : Config.packetSize 0 0 ≤ 0x4000000) :
    ∃ c, uncredited_.hw.stageCommitHead (stageQ .spl) = some c ∧ uncredited_.hw.ringGate (stageQ .spl) c = true
      ∧ uncredited_.hw.creditGate (stageQ .spl) c = false := by
  have o : (uncredited_.hw.pair.outbound.filter fun o => o.queue.isSome).length = 256 := by decide +kernel
  have l : uncredited_.hw.logBytes = 0x4000000 := by decide +kernel
  have f : uncredited_.hw.forwards mirrored_ = true := by decide +kernel
  have w : uncredited_.hw.packetWrites (stageQ .spl) mirrored_ (uncredited_.hw.recordDue (stageQ .spl) mirrored_) (leBytes 16 0) = [] := by
    decide +kernel
  refine ⟨mirrored_, by decide +kernel, by decide +kernel, ?_⟩
  simp [Hw.creditGate, f, w, l, Hw.credit, o, packetBytes, hp]
theorem test_meets_StageCommits_partway : (partway_.hw.stageCommitHead (stageQ .pck)).any (fun c =>
    decide ((Hw.stageWrites (stageQ .pck) c c.writes partway_.hw).2 = [(0x2000000, [6])] ∧ (cutWrites c.writes).length = 2)) = true := by
  decide +kernel

/-! ### Memory tiers, translation and migration -/

/-- An invalidation waits on slice 3. -/
def inval_ : State := at_ fun h => { mapped h with mmu := { (mapped h).mmu with invals := [⟨3, 0, 1⟩] } }
theorem test_meets_Invalidation : Reaches (at_ mapped) .handler (0x020 + 3) 0x06C ∧ (at_ mapped).hw.invalBusy 3 = false
    ∧ inval_.hw.mmu.invals.find? (fun i => i.slice = 3) = some ⟨3, 0, 1⟩ := by
  unfold Reaches Up Clear; decide +kernel
theorem test_invalidate : seen (.tlbInvalidate .handler 3 1) (at_ mapped) (fun h => (h.mmu.tlb, h.mmu.invals)) = some ([], [⟨3, 0, 0⟩])
    ∧ seen (.invalidationDone 3) inval_ (fun h => (h.mmu.tlb, h.mmu.invals, h.bit 0x023 0x010 2)) = some ([], [], true) := by decide +kernel

/-- A record waits on slice 0, and the masters of a core's queue, a stage unit and a stream are held. -/
def held_ : State := at_ fun h =>
  let h := (h.setQs coreQ { st := .faultHold }).setQs (stageQ .muz 3) { st := .faultHold }
  { h with mmu := { h.mmu with pend := [⟨0, List.replicate 32 1⟩], held := [⟨0, 0, 0, []⟩, ⟨0, 2, 4, []⟩, ⟨0, 7, 15, []⟩, ⟨0, 6, 3, []⟩] } }
theorem test_meets_FaultService : held_.hw.mmu.pend.find? (fun r => r.slice = 0) = some ⟨0, List.replicate 32 1⟩
    ∧ held_.hw.faultRingFull 0 = false ∧ held_.hw.mmu.blocked.contains 0 = false
    ∧ (held_.hw.wr 0x020 0x058 16).faultRingFull 0 = true
    ∧ Reaches held_ .portA (0x020 + 0) 0x05C ∧ (∃ x ∈ held_.hw.mmu.held, x.kind = 7 ∧ x.id = 15) ∧ (∃ x ∈ held_.hw.mmu.held, x.kind = 6 ∧ x.id = 3)
    ∧ (∀ x ∈ held_.hw.mmu.held, ¬ (x.kind = 15 ∧ x.id = 0xFFFF)) := by
  unfold Reaches Up Clear; decide +kernel
theorem test_fault_service : seen (.faultRecordWrite 0) held_ (fun h => (h.mmu.pend, h.rd 0x020 0x058)) = some ([], 1)
    ∧ seen (.faultClear .portA 0 0x00000000) held_ (fun h => ((h.qs coreQ).st, h.mmu.held.length)) = some (.running, 3)
    ∧ seen (.faultClear .portA 0 0x00020004) held_ (fun h => ((h.qs (stageQ .muz 3)).st, h.mmu.held.length)) = some (.running, 3)
    ∧ seen (.faultClear .portA 0 0x0007000F) held_ (fun h => (h.stream 15).fault) = some false
    ∧ goes (.faultClear .portA 0 0x000FFFFF) held_ held_.hw = true := by decide +kernel

/-- Controller 15 scrubs every hour, or does not; an hour has passed; a line of its channel 6 holds an upset. -/
def lpc_ (n : Nat) (c : Fin 8 := 6) : State := at_ fun h => { regs_ [(0x03F, 0x008, 1), (0x03F, 0x040, n)] h with
  time := 3600000000000, upsets := [memKey 1 0x17FFFFFFFC0], temps := [(256 * (120 + c.val) + 7, 84)] }
theorem test_meets_ScrubAndRefresh : (lpc_ 1).hw.enabled 0x03F = true ∧ (lpc_ 1).hw.rd 0x03F 0x040 ≠ 0 ∧ (lpc_ 1).hw.present 0x03F = true
    ∧ (lpc_ 1).hw.scrubbed 126 + (lpc_ 1).hw.rd 0x03F 0x040 * 3600000000000 ≤ (lpc_ 1).hw.time
    ∧ lpChannel (0x17FFFFFFFC0 / 64 * 64) = 126 ∧ onChannel 126 (lpc_ 1).hw.flips = [] ∧ onChannel 126 (lpc_ 1).hw.upsets ≠ []
    ∧ (lpc_ 0).hw.rd 0x03F 0x040 = 0
    ∧ ((lpc_ 2).hw.scrubbed 126 + (lpc_ 2).hw.rd 0x03F 0x040 * 3600000000000 ≤ (lpc_ 2).hw.time) = False
    ∧ 85 ≤ (85 : BitVec 8).toInt ∧ (lpc_ 1).hw.bit 0x03F 0x044 15 = false := by
  refine ⟨by decide +kernel, by decide +kernel, by decide +kernel, by decide +kernel, by decide +kernel, by decide +kernel, by decide +kernel,
    by decide +kernel, eq_false (by decide +kernel), by decide +kernel, by decide +kernel⟩
theorem test_scrub : seen (.scrub 15 6 3 [0x17FFFFFFFFF]) (lpc_ 1) (fun h => (h.rd 0x03F 0x0B0, h.poison, h.bit 0x03F 0x010 2, h.scrubbed 126))
      = some (3, [memKey 1 0x17FFFFFFFC0], true, 3600000000000)
    ∧ goes (.scrub 15 6 3 [5]) (lpc_ 0) (lpc_ 0).hw = true ∧ goes (.scrub 15 6 3 [5]) (lpc_ 2) (lpc_ 2).hw = true
    ∧ seen (.refreshDoubled 15 7 ⟨1, 85⟩) (lpc_ 1) (fun h => (h.rd 0x03F 0x048, h.bit 0x03F 0x044 15, h.bit 0x03F 0x010 1)) = some (85, true, true)
    ∧ seen (.refreshDoubled 15 7 ⟨1, 84⟩) (lpc_ 1) (fun h => (h.bit 0x03F 0x044 15, h.bit 0x03F 0x010 1)) = some (false, false)
    ∧ seen (.refreshDoubled 15 7 ⟨1, 20⟩) (lpc_ 1 7) (fun h => h.rd 0x03F 0x048) = some 84 := by decide +kernel

/-- A migration request at slot 0, the engine and quotas enabled or not; tenant 1's entry of LPDDR6 has the limit 5 and 3 used. -/
def migReq_ (op clean pages : Nat) (quotas : Nat := 0) : State := at_ fun h =>
  let h := regs_ [(0x024, 0x008, 1), (0x024, 0x040, 0x10001), (0x024, 0x04C, 1), (0x025, 0x008, quotas), (0x025, 0x040, 0x20001)] h
  (h.store (memKey 1 0x10000) (leBytes 4 (op + clean + 0x100 + 0x10000) ++ leBytes 4 pages)).store (memKey 1 0x20028) (leBytes 4 5 ++ leBytes 4 3)
/-- The same, taken. -/
def migTaken_ (op pages quotas : Nat) : State :=
  let s := migReq_ op 0 pages quotas
  { s with hw := { s.hw with mig := { s.hw.mig with taken := [(0, s.hw.bytes (s.hw.mreqKey 0) 32)] } } }

theorem test_meets_MigrationRequests_tail : Reaches State.reset .portA 0x024 0x04C
    ∧ ptrSub 1 (State.reset.hw.rd 0x024 0x050) ≤ 2 ^ State.reset.hw.rd 0x024 0x048 := by
  unfold Reaches Up Clear; decide +kernel
theorem test_meets_MigrationRequests : ∀ x ∈ [(1, 0, 1), (2, 0, 1), (3, 0, 1), (1, 0, 0), (15, 0, 1), (1, 0x20, 1)],
    (let s := migReq_ x.1 x.2.1 x.2.2
     s.hw.enabled 0x024 = true ∧ s.hw.rd 0x024 0x050 ≠ s.hw.rd 0x024 0x04C ∧ inTier (s.hw.mreqKey 0) 32 = true
       ∧ (let w := s.hw.bytes (s.hw.mreqKey 0) 32
          reqOp w = x.1 ∧ reqClean w = (x.2.1 == 0) ∧ reqPages w = x.2.2) ∧ s.hw.mig.moves.length < s.hw.rd 0x024 0x054) := by decide +kernel
theorem test_migration_request : seen .migrationRequest (migReq_ 1 0 1) (fun h => (h.mig.moves.map (·.slot), h.rd 0x024 0x050)) = some ([0], 1)
    ∧ seen .migrationRequest (migReq_ 2 0 1) (fun h => h.mig.taken.map (·.1)) = some [0]
    ∧ seen .migrationRequest (migReq_ 1 0 0) (fun h => h.bytes (memKey 1 0x10018) 1) = some [1]
    ∧ seen .migrationRequest (migReq_ 15 0 1) (fun h => h.bytes (memKey 1 0x10018) 1) = some [8]
    ∧ seen .migrationRequest (migReq_ 1 0x20 1) (fun h => h.bytes (memKey 1 0x10018) 1) = some [8] := by decide +kernel
theorem test_meets_ChargeRelease : ((migTaken_ 2 1 0).hw.taken 2).isSome = true ∧ (migTaken_ 2 1 0).hw.enabled 0x025 = false
    ∧ ((migTaken_ 3 1 0).hw.taken 3).isSome = true ∧ (migTaken_ 2 3 1).hw.enabled 0x025 = true
    ∧ ((migTaken_ 2 3 1).hw.taken 2).any (fun t => decide (reqTier t.2 ≠ 3 ∧ inTier ((migTaken_ 2 3 1).hw.quotaKey (reqTenant t.2)) 32 = true
        ∧ (migTaken_ 2 3 1).hw.quotaLimit (reqTenant t.2) (reqTier t.2) < (migTaken_ 2 3 1).hw.quotaUsed (reqTenant t.2) (reqTier t.2) + reqPages t.2)) = true
    ∧ ((migTaken_ 2 2 1).hw.taken 2).any (fun t => decide (
        (migTaken_ 2 2 1).hw.quotaUsed (reqTenant t.2) (reqTier t.2) + reqPages t.2 ≤ (migTaken_ 2 2 1).hw.quotaLimit (reqTenant t.2) (reqTier t.2))) = true := by
  decide +kernel
theorem test_charge : seen .charge (migTaken_ 2 3 1) (fun h => (h.quotaUsed 1 1, h.bytes (memKey 1 0x10018) 1)) = some (3, [2])
    ∧ seen .charge (migTaken_ 2 2 1) (fun h => (h.quotaUsed 1 1, h.bytes (memKey 1 0x10018) 1)) = some (5, [1])
    ∧ seen .release (migTaken_ 3 4 1) (fun h => (h.quotaUsed 1 1, h.bytes (memKey 1 0x10018) 1)) = some (0, [1]) := by decide +kernel

/-- Page tables from near 0, which map the page at 0x10000 to the frame `e` names, and a MOVE of it to LPDDR6 0x70000 at a stage. -/
def moving_ (e stage : Nat) (kv : Nat := 0) : State := at_ fun h =>
  let h := (((h.store 0 (leBytes 8 0x1001)).store 0x1000 (leBytes 8 0x2001)).store 0x2000 (leBytes 8 0x3001)).store 0x3008 (leBytes 8 e)
  let h := (h.store (memKey 1 0x50000) [7, 8, 9]).store (memKey 1 0x20028) (leBytes 4 5 ++ leBytes 4 3)
  let h := regs_ [(0x024, 0x008, 1), (0x024, 0x040, 0x10001), (0x025, 0x008, kv), (0x025, 0x040, 0x20001), (0x020, 0x008, 1)] h
  let req := leBytes 4 0x101 ++ leBytes 4 1 ++ leBytes 8 0x10000 ++ leBytes 8 0x70000 ++ leBytes 8 0
  { h with
    mig := { h.mig with moves := [{ slot := 0, req := req, stage := stage, leafAt := 0x3008, old := BitVec.ofNat 64 e, size := 1 }] }
    mmu := { h.mmu with tlb := [⟨0, 1, false, BitVec.ofNat 64 e⟩] } }
theorem test_meets_MovesAPage : ∀ x ∈ [(0x50015, 0), (0x5001D, 0), (0x50015, 1), (0x50015, 2), (0x50015, 3)],
    (let s := moving_ x.1 x.2
     s.hw.mig.moves[0]?.any (fun m => decide (m.stage = x.2) && (x.2 != 0 || (match s.hw.moveTest m with | .ok _ => x.1 == 0x50015 | .error o => o == 4))) = true
       ∧ Memory.wf s.hw.mem = true) := by decide +kernel
theorem test_meets_MovesAPage_ends : (moving_ 0x50015 3).hw.mig.moves[0]?.any (fun m => decide (reqPages m.req ≤ m.done + m.size)) = true
    ∧ (on_ (moving_ 0x50015 3) fun h => { h with mig := { h.mig with moves := h.mig.moves.map fun m => { m with req := leBytes 4 0x101 ++ leBytes 4 2 ++ m.req.drop 8 } } }).hw.mig.moves[0]?.any
        (fun m => decide (m.done + m.size < reqPages m.req)) = true
    ∧ leNat ((on_ (moving_ 0x50015 2) fun h => h.store 0x3008 [0x55]).hw.bytes 0x3008 8) ≠ 0x50015
    ∧ pteKv 0x50015 = false ∧ pteKv 0x10000000050095 = true ∧ (moving_ 0x10000000050095 2 1).hw.enabled 0x025 = true := by decide +kernel
theorem test_move : seen (.move 0) (moving_ 0x50015 0) (fun h => h.mig.moves.map fun m => (m.stage, m.leafAt, m.old.toNat))
      = some [(1, 0x3008, 0x50015)]
    ∧ seen (.move 0) (moving_ 0x5001D 0) (fun h => (h.mig.moves.length, h.bytes (memKey 1 0x10018) 1)) = some (0, [4])
    ∧ seen (.moveCopy 0) (moving_ 0x50015 1) (fun h => (h.bytes (memKey 1 0x70000) 4, h.bytes 0x3008 1, h.mmu.tlb.length)) = some ([7, 8, 9, 0], [0x17], 0) := by
  decide +kernel
theorem test_move_ends : seen (.moveFlip 0) (moving_ 0x50015 2) (fun h => (leNat (h.bytes 0x3008 8), h.rd 0x024 0x05C)) = some (0x70015, 1)
    ∧ seen (.moveFlip 0) (moving_ 0x10000000050095 2 1) (fun h => h.quotaUsed 1 1) = some 3
    ∧ seen (.moveComplete 0) (moving_ 0x50015 3) (fun h => (h.mig.moves, h.bytes (memKey 1 0x10018) 5)) = some ([], [1, 0, 0, 0, 1]) := by
  decide +kernel

/-- Stream 15 runs with one layer; its one entry copies 4 bytes from 0x2000 to `dst` and signals semaphore 1 of core 2. -/
def stream_ (dst : Nat) : State := at_ fun h =>
  let h := regs_ [(0x024, 0x008, 1), (0x024, pfOff 15 0x00, 0x30001), (0x024, pfOff 15 0x0C, 1), (0x024, pfOff 15 0x14, 0x10000),
    (0x024, pfOff 15 0x18, 1)] (mapped h)
  (h.store (memKey 1 0x30000) (leBytes 4 0 ++ leBytes 4 (8 + 2 * 0x10000 + 0x1000000) ++ leBytes 8 0x2000 ++ leBytes 8 dst ++ leBytes 4 4)).store
    (memKey 1 0x2000) [1, 2, 3, 4]
/-- With the entry in flight. -/
def inflight_ : State :=
  let s := stream_ 0x6000
  { s with hw := s.hw.setStream 15 { inflight := [⟨0, s.hw.bytes (memKey 1 0x30000) 32, false, false⟩] } }
theorem test_meets_Prefetch_tail : Reaches State.reset .portA 0x024 (pfOff 15 0x0C) ∧ State.reset.hw.bit 0x024 (pfOff 15 0x18) 1 = false
    ∧ ptrSub 1 (State.reset.hw.rd 0x024 (pfOff 15 0x10)) ≤ 2 ^ State.reset.hw.rd 0x024 (pfOff 15 0x08)
    ∧ (at_ (regs_ [(0x024, pfOff 15 0x18, 2)])).hw.bit 0x024 (pfOff 15 0x18) 1 = true := by
  unfold Reaches Up Clear; decide +kernel
theorem test_meets_Prefetch_issue : ((stream_ 0x6000).hw.pfHead 15).any (fun e => decide ((stream_ 0x6000).hw.pfOn 15 = true
      ∧ ((stream_ 0x6000).hw.stream 15).fault = false ∧ ((stream_ 0x6000).hw.stream 15).inflight.length < 4
      ∧ (stream_ 0x6000).hw.pfNear 15 e = true
      ∧ pfGate e = false ∧ (stream_ 0x6000).hw.probe (streamMaster 15) false (pfSrc e) (pfLen e) = none
      ∧ (stream_ 0x6000).hw.probe (streamMaster 15) true (pfDst e) (pfLen e) = none)) = true
    ∧ (match { (stream_ 0).hw with mmu := {} }.probe (streamMaster 15) false 0x2000 4 with | some (.fault _ _ _) => true | _ => false) = true
    ∧ ((stream_ 0x2000000).hw.pfHead 15).any (fun e => decide ((stream_ 0x2000000).hw.probe (streamMaster 15) false (pfSrc e) (pfLen e) = none)
        && (match (stream_ 0x2000000).hw.probe (streamMaster 15) true (pfDst e) (pfLen e) with | some (.fault _ _ _) => true | _ => false)) = true := by
  decide +kernel
theorem test_meets_Prefetch_complete : (inflight_.hw.stream 15).fault = false ∧ ((inflight_.hw.stream 15).inflight.all fun e =>
    decide (inflight_.hw.probe (streamMaster 15) false (pfSrc e.entry) (pfLen e.entry) = none
      ∧ inflight_.hw.probe (streamMaster 15) true (pfDst e.entry) (pfLen e.entry) = none)) = true := by decide +kernel
theorem test_prefetch : seen (.prefetchEntryIssue 15) (stream_ 0x6000) (fun h => ((h.stream 15).inflight.length, h.rd 0x024 (pfOff 15 0x10))) = some (1, 1)
    ∧ seen (.prefetchEntryIssue 15) { (stream_ 0) with hw := { (stream_ 0).hw with mmu := {} } } (fun h => (h.stream 15).fault) = some true
    ∧ seen (.prefetchEntryComplete 15) inflight_ (fun h => (h.bytes (memKey 1 0x6000) 4, h.sem 2 1, (h.stream 15).inflight)) = some ([1, 2, 3, 4], 1, [])
    ∧ seen (.prefetchTailWrite .portA 15 1) State.reset (fun h => h.rd 0x024 (pfOff 15 0x0C)) = some 1 := by decide +kernel

/-- Age stamps are refreshed every 2^24 ns; a scan of LPDDR6 runs and one frame is old. -/
def ages_ : State := at_ fun h =>
  let h := regs_ [(0x025, 0x008, 1), (0x025, 0x058, 1), (0x025, 0x050, 0x80001), (0x025, 0x060, 1), (0x025, 0x064, 0x90001), (0x025, 0x06C, 4)] h
  let h := h.store (memKey 1 0x80004) (leBytes 4 1)
  { h with time := 0x2000000, mig := { h.mig with scanBusy := some 1, lastAge := 0x1000000 }, mmu := { h.mmu with tlb := [⟨0, 1, false, 0x55⟩] } }
theorem test_meets_AgesAndScans : ages_.hw.rd 0x025 0x058 ≠ 0 ∧ ages_.hw.mig.lastAge + ages_.hw.rd 0x025 0x058 * 0x1000000 ≤ ages_.hw.time
    ∧ (State.reset.hw.rd 0x025 0x058 = 0 ∨ State.reset.hw.time < State.reset.hw.mig.lastAge + State.reset.hw.rd 0x025 0x058 * 0x1000000) ∧ Reaches State.reset .portA 0x025 0x05C
    ∧ ages_.hw.mig.scanBusy = some 1 ∧ ages_.hw.enabled 0x025 = true ∧ State.reset.hw.scanning = false ∧ ages_.hw.scanning = true
    ∧ State.reset.hw.enabled 0x025 = false
    ∧ (at_ (regs_ [(0x025, 0x008, 1)])).hw.enabled 0x025 = true ∧ (at_ (regs_ [(0x025, 0x008, 1)])).hw.scanning = false
    ∧ Reaches (at_ (regs_ [(0x025, 0x008, 1)])) .portA 0x025 0x05C ∧ Reaches ages_ .portA 0x025 0x05C := by
  unfold Reaches Up Clear; decide +kernel
theorem test_ages : seen .ageRefresh ages_ (fun h => (h.mmu.tlb, h.mig.lastAge)) = some ([], 0x2000000)
    ∧ seen (.scan .portA 3) State.reset (fun h => (h.mig.scanBusy, h.mig.scanWait)) = some (none, some 1)
    ∧ seen (.scan .portA 3) (at_ (regs_ [(0x025, 0x008, 1)])) (fun h => h.mig.scanBusy) = some (some 1)
    ∧ seen .scanDone ages_ (fun h => (h.mig.scanBusy, h.rd 0x025 0x070, h.bytes (memKey 1 0x90000) 4, h.bit 0x025 0x010 0))
      = some (none, 1, [1, 0, 1, 0], true) := by decide +kernel

/-! ### DMA -/

/-- Channel 31 in a state, with a copy of `n` bytes from 0x2003 to `dst`. -/
def dma_ (st n dst : Nat) (page : Nat := 1) : State := at_ fun h =>
  (regs_ [(0x05F, 0x008, page), (0x05F, 0x040, 0x2003), (0x05F, 0x048, dst), (0x05F, 0x050, n), (0x05F, 0x058, st * 0x10000)] (mapped h)).store
    (memKey 1 0x2000) (leBytes 8 0x0807060504030201)
theorem test_meets_DmaStarts : ∀ st ∈ [dIDLE, dDONE, dERROR], Reaches (dma_ st 5 0x6000) .handler (dmaPage 31) 0x054
    ∧ (dma_ st 5 0x6000).hw.dmaSt 31 = st ∧ (dma_ st 5 0x6000).hw.enabled 0x05F = true ∧ (dma_ st 5 0x6000).hw.agreed .handler = true
    ∧ (dma_ st 5 0x6000).hw.agreed .portA = false ∧ (dma_ st 5 0x6000 0).hw.enabled 0x05F = false := by
  unfold Reaches Up Clear; decide +kernel
theorem test_meets_DmaStops : ∀ st ∈ [dRUNNING, dPENDING, dWAIT_MOVE, dSTOPPING], (dma_ st 5 0x6000).hw.dmaSt 31 = st
    ∧ ((dma_ st 5 0x6000).hw.ch 31).stopAfter = false ∧ bitOf (0x3FFF0 : Word).toNat 1 = false := by decide +kernel
theorem test_meets_DmaStarts_core : 48 ≤ bitsOf (0x30001 : Word).toNat 17 12 ∧ bitsOf (0x2F001 : Word).toNat 17 12 < 48
    ∧ (dma_ dIDLE 5 0x6000).hw.agreed .portA = false ∧ (dma_ dIDLE 0 0x6000).hw.dmaCount 31 = 0 := by decide +kernel
theorem test_meets_DmaStarts_enable : Reaches (dma_ dPENDING 5 0x6000 0) .portA (dmaPage 31) 0x008 ∧ (dma_ dPENDING 5 0x6000 0).hw.demand.enabled 0x05F = false
    ∧ (dma_ dPENDING 5 0x6000 0).hw.demand.dmaSt 31 = dPENDING ∧ bitOf (1 : Word).toNat 0 = true := by
  unfold Reaches Up Clear; decide +kernel
theorem test_dma_starts : seen (.dmaGo .handler 31 1) (dma_ dIDLE 5 0x6000) (fun h => h.dmaSt 31) = some dRUNNING
    ∧ seen (.dmaGo .handler 31 1) (dma_ dIDLE 5 0x6000 0) (fun h => h.dmaSt 31) = some dPENDING
    ∧ seen (.dmaGo .portA 31 1) (dma_ dIDLE 5 0x6000) (fun h => (h.dmaSt 31, h.dmaCode 31)) = some (dERROR, cABI)
    ∧ seen (.dmaGo .handler 31 1) (dma_ dIDLE 0 0x6000) (fun h => h.dmaSt 31) = some dDONE
    ∧ seen (.pageEnable .portA 0x05F 1) (dma_ dPENDING 5 0x6000 0) (fun h => h.dmaSt 31) = some dRUNNING := by decide +kernel
theorem test_dma_bounds : seen (.dmaGo .handler 31 1) (at_ (regs_ [(0x05F, 0x008, 1), (0x05F, 0x044, 0x100000), (0x05F, 0x050, 1)]))
      (fun h => h.dmaCode 31) = some cFORMAT
    ∧ seen (.dmaGo .handler 31 1) (at_ (regs_ [(0x05F, 0x008, 1), (0x05F, 0x040, 0xFFFFFFFF), (0x05F, 0x044, 0xFFFFF), (0x05F, 0x050, 2)]))
      (fun h => h.dmaCode 31) = some cLENGTH
    ∧ seen (.dmaGo .handler 31 1) (at_ (regs_ [(0x05F, 0x008, 1), (0x05F, 0x040, 0xFFFFFFFF), (0x05F, 0x044, 0xFFFFF), (0x05F, 0x050, 1)]))
      (fun h => h.dmaSt 31) = some dRUNNING := by decide +kernel
theorem test_dma_stops : seen (.dmaStop .portA 31 2) (dma_ dRUNNING 5 0x6000) (fun h => h.dmaSt 31) = some dSTOPPING
    ∧ seen (.dmaStop .portA 31 2) (dma_ dWAIT_MOVE 5 0x6000) (fun h => (h.dmaSt 31, (h.ch 31).stopAfter)) = some (dSTOPPING, true)
    ∧ seen (.dmaStop .portA 31 2) (dma_ dPENDING 5 0x6000) (fun h => h.dmaSt 31) = some dIDLE
    ∧ seen (.dmaStopped 31) (dma_ dSTOPPING 5 0x6000) (fun h => h.dmaSt 31) = some dIDLE
    ∧ seen (.dmaDone 31) (dma_ dRUNNING 0 0x6000) (fun h => h.dmaSt 31) = some dDONE := by decide +kernel
/-- The channel has written through port A, or through B, with port A alone up. -/
def kennel_ (port : Nat) : State := on_ (dma_ dRUNNING 0 0x6000) fun h =>
  { h.setCh 31 { h.ch 31 with ports := [port], len := 5 } with pcieA := { h.pcieA with up := true, busMaster := true } }
theorem test_meets_DmaDone_ports : ∀ port ∈ [0, 1], ((kennel_ port).hw.ch 31).ports.find? (fun q => !((kennel_ port).hw.ch 31).flushed.contains q) = some port
    ∧ ((kennel_ port).hw.ch 31).asking = none ∧ (kennel_ port).hw.dmaSt 31 = dRUNNING ∧ (kennel_ port).hw.dmaCount 31 = 0
    ∧ (kennel_ port).hw.kennelUp port = (port == 0) ∧ (kennel_ port).hw.tagFree port = true := by decide +kernel
theorem test_dma_done_ports : seen (.dmaDone 31) (kennel_ 0) (fun h => ((h.ch 31).asking, (h.portReads 0).length, h.dmaSt 31)) = some (some 0, 1, dRUNNING)
    ∧ seen (.dmaDone 31) (kennel_ 1) (fun h => h.dmaSt 31) = some dFAULT := by decide +kernel

/-- The channel with its first source line in the buffer, for `dst`. -/
def filled_ (dst : Nat) (st : Nat := dRUNNING) : State := on_ (dma_ st 5 dst) fun h =>
  h.setCh 31 { h.ch 31 with len := 5, lines := [{ va := 0x2000, data := some (h.bytes (memKey 1 0x2000) 64) }] }
theorem test_meets_DmaEngines : (dma_ dRUNNING 5 0x6002).hw.dmaPick 3 0 (dma_ dRUNNING 5 0x6002).hw.dmaCanRead = some 31
    ∧ (filled_ 0x6002).hw.dmaPick 3 1 (filled_ 0x6002).hw.dmaCanWrite = some 31
    ∧ (dma_ dRUNNING 5 0x6002).hw.dmaPick 2 0 (dma_ dRUNNING 5 0x6002).hw.dmaCanRead = none := by decide +kernel
/-- The source in host memory. -/
def hosted_ : State := on_ (dma_ dRUNNING 5 0x6002) fun h => { h with
  mmu := { h.mmu with tlb := [⟨3, 0, true, 0x25⟩] }, pcieA := { h.pcieA with up := true, busMaster := true } }
theorem test_meets_DmaLines : (dma_ dRUNNING 5 0x6002).hw.dmaWants 31 = some 0x2000
    ∧ (dma_ dRUNNING 5 0x6002).hw.dmaSpot 31 0x2000 = .ok (some (memKey 1 0x2000)) ∧ memKey 1 0x2000 / 0x10000000000000 < 2
    ∧ hosted_.hw.dmaSpot 31 0x2000 = .ok (some (memKey 2 0x2000)) ∧ 2 ≤ memKey 2 0x2000 / 0x10000000000000 := by decide +kernel
theorem test_meets_DmaWrites : ((filled_ 0x6002).hw.dmaReady 31).isSome = true ∧ (filled_ 0x6002).hw.dmaTarget 31 = .ok (some (memKey 1 0x6002))
    ∧ dmaAccess 0x6002 5 = 2 := by
  unfold dmaAccess; decide +kernel
theorem test_dma_moves : seen (.dmaAccessWritten 3) (dma_ dRUNNING 5 0x6002)
      (fun h => (h.bytes (memKey 1 0x6002) 3, h.dmaSrc 31, h.dmaDst 31, h.dmaCount 31)) = some ([4, 5, 0], 0x2005, 0x6004, 3)
    ∧ seen (.dmaAccessWritten 3) hosted_ (fun h => ((h.ch 31).lines.map (·.data), (h.portReads 0).length)) = some ([none], 1)
    ∧ goes (.dmaAccessWritten 2) (dma_ dRUNNING 5 0x6002) (dma_ dRUNNING 5 0x6002).hw = true := by decide +kernel
theorem test_meets_DmaFaults : (filled_ 0x2000000).hw.dmaNextFault 31 = some (fNotValid, 0, 0x2000000, true)
    ∧ (dma_ dRUNNING 5 0x6002).hw.dmaNextFault 31 = none := by decide +kernel
theorem test_dma_fault : seen (.dmaFaultStop 31) (filled_ 0x2000000) (fun h => (h.dmaSt 31, h.dmaCount 31)) = some (dFAULT, 5) := by decide +kernel
/-- The destination page is moving, or has moved; the channel may have been stopped meanwhile. -/
def dmaMove_ (st e : Nat) (stopped : Bool := false) : State := on_ (filled_ 0x2000000 st) fun h =>
  { h.setCh 31 { h.ch 31 with stopAfter := stopped } with mmu := { h.mmu with tlb := h.mmu.tlb ++ [⟨3, 0x200, true, BitVec.ofNat 64 e⟩] } }
theorem test_meets_DmaWaits : (dmaMove_ dRUNNING 0x2000017).hw.dmaMoving 31 = true ∧ ((dmaMove_ dRUNNING 0x2000017).hw.dmaReady 31).isSome = true
    ∧ (dmaMove_ dRUNNING 0x2000017).hw.dmaTarget 31 = .error .wait
    ∧ (dmaMove_ dWAIT_MOVE 0x2000015).hw.dmaMoving 31 = false ∧ (dmaMove_ dSTOPPING 0x2000015 true).hw.dmaMoving 31 = false
    ∧ ((dmaMove_ dSTOPPING 0x2000015 true).hw.dmaReady 31).isSome = true
    ∧ (dmaMove_ dSTOPPING 0x2000015 true).hw.dmaTarget 31 = .ok (some (memKey 1 0x2000000))
    ∧ ((filled_ 0x2000000 dSTOPPING).hw.setCh 31 { (filled_ 0x2000000).hw.ch 31 with stopAfter := true }).dmaTarget 31
      = .error (.fault fNotValid 0 0x2000000) := by
  decide +kernel
theorem test_dma_waits : seen (.dmaAccessWritten 3) (dmaMove_ dRUNNING 0x2000017) (fun h => h.dmaSt 31) = some dWAIT_MOVE
    ∧ seen (.dmaWaitMoveRelease 31) (dmaMove_ dWAIT_MOVE 0x2000015) (fun h => h.dmaSt 31) = some dRUNNING
    ∧ seen (.dmaWaitMoveRelease 31) (dmaMove_ dSTOPPING 0x2000015 true) (fun h => (h.dmaSt 31, h.dmaCount 31, (h.ch 31).stopAfter))
      = some (dSTOPPING, 1, false) := by decide +kernel

/-! ### Matrix arrays, conversion, special functions, selection -/

/-- One command, with bytes stored in memory. -/
def with_ (c : Cmd) (l : List (Nat × List Byte)) : State :=
  let s := one_ c
  { s with hw := l.foldl (fun h x => h.store (memKey 1 x.1) x.2) s.hw }

/-- A context whose rescale table is at 0x3000. -/
def rescaleCtx_ : List Byte := List.replicate 16 0 ++ leBytes 8 0x3000 ++ List.replicate 40 0

/-- An INT8 tile with column 0 of 3 and 4, then zeros. -/
def tile_ (va : Nat) : List (Nat × List Byte) :=
  [(va, leBytes 4 (5 + 64 * 256 + 65536) ++ leBytes 4 (0x100 + 260 * 65536)), (va + 64, [3]), (va + 128, [4])]

/-- MATMUL of the row 2, 1, 0 … with that tile, rescaled by 1, to FP32. -/
def matmul_ : Cmd := { cmd_ (desc_ 0x10 [(0x10 * 8, 0x2000), (0x20 * 8, 64), (0x24 * 8, 4), (320, 5 + 5 * 8 + 5 * 64 + 0x20000 + 0x80000), (352, 1),
  (384, 0x10001), (416, 0x4000)]) with ctx := rescaleCtx_ }
def matmulState_ : State := with_ matmul_ ([(0x2000, [2, 1]), (0x3000, leBytes 4 0x8000)] ++ tile_ 0x4000)
theorem test_meets_MatmulResult : (matmulState_.hw.running coreQ 0x10).head? = some matmul_
    ∧ ((one_ (cmd_ (desc_ 0x10 []))).hw.running coreQ 0x10).head? = some (cmd_ (desc_ 0x10 [])) ∧ (matmulOp (desc_ 0x10 [])).m = 0
    ∧ (let h := matmulState_.hw
       let o := matmulOp matmul_.desc
       let m := queueMaster coreQ
       o.m ≠ 0 ∧ o.kTiles ≠ 0 ∧ o.nOut ≠ 0 ∧ o.conv = false ∧ (h.source coreQ matmul_ 0 64).toOption.isSome = true
         ∧ ((readTile h m o.va o.wgt o.sparse o.kTiles o.nTiles o.tileCols o.nOut 0 0).toOption.any fun t => sameShift [t]) = true
         ∧ ((rescaleEntry h m matmul_.ctx o.rescale o.rescaleIndex 0).toOption == some 0x8000) = true) := by decide +kernel
/-- A tile of the weights 3 and 4, and the activations 2 and 1: 3 · 2 + 4 · 1 = 10. -/
def short_ : Tile := { shift := 0, rows := 2, cols := 1, fmt := fmINT8, sparse := false, bytes := (List.replicate 64 0 ++ ([3] : List Byte) ++ List.replicate 63 0 ++ [4]).toArray }
def acts_ : Array FVal := #[ofInt 2, ofInt 1]
theorem test_matmul_sum : (columnSum true false false 1 1 0 [(short_, acts_)] 0).1 = 10 ∧ (columnSum true true false 1 1 0 [(short_, acts_)] 0).1 = 10
    ∧ (outElem fmFP32 true true 0x8000 0 10 0).1 = 0x41200000 := by decide +kernel

/-- MATVEC of the same. -/
def matvec_ : Cmd := { cmd_ (desc_ 0x40 [(0x10 * 8, 0x2000), (0x20 * 8, 64), (0x24 * 8, 4), (320, 5 + 5 * 8 + 0x800), (352, 0x10001), (416, 0x4000)])
  with ctx := rescaleCtx_ }
def matvecState_ : State := with_ matvec_ ([(0x2000, [2, 1]), (0x3000, leBytes 4 0x8000)] ++ tile_ 0x4000)
theorem test_meets_MatvecResult : (matvecState_.hw.running coreQ 0x40).head? = some matvec_
    ∧ ((one_ (cmd_ (desc_ 0x40 []))).hw.running coreQ 0x40).head? = some (cmd_ (desc_ 0x40 [])) ∧ (matvecOp (desc_ 0x40 [])).kTiles = 0
    ∧ (let h := matvecState_.hw
       let o := matvecOp matvec_.desc
       let m := queueMaster coreQ
       o.kTiles ≠ 0 ∧ o.nOut ≠ 0 ∧ (h.source coreQ matvec_ 0 64).toOption.isSome = true
         ∧ ((readTileRows h m (tileVa o.va o.wgt o.sparse o.kTiles 0 0) o.wgt o.sparse (tileWidth o.nTiles 64 o.nOut 0)
             (vecStored o.zeroSkip o.sparse acts_)).toOption.any fun t => sameShift [t]) = true
         ∧ ((rescaleEntry h m matvec_.ctx o.rescale o.rescaleIndex 0).toOption == some 0x8000) = true) := by decide +kernel
theorem test_matvec_products : (vecStored true false acts_).map (fun s => intOf (tileProduct short_ acts_ 0 s)) = [6, 4] := by decide +kernel

theorem test_meets_IntegerSumsAreExact : (([2147483646, -1] : List Int).map Int.natAbs).sum ≤ 2147483647 ∧ ([2147483646, -1] : List Int).length ≤ 4 * 64
    ∧ passInt true 4 64 [2147483646, -1] = (2147483645, 0) ∧ passInt false 1 64 [2147483647, 1] = (2147483647, 1) := by decide +kernel

/-- Core 0's page enabled. -/
def page0_ : State := at_ fun h => regs_ [(0x080, 0x008, 1)] (mapped h)
theorem test_meets_ArrayControl : Reaches page0_ .handler (corePage 0) 0x308 ∧ Reaches page0_ .handler (corePage 0) 0x310
    ∧ Reaches page0_ .handler (corePage 0) 0x334 ∧ Reaches page0_ .portA (corePage 0) 0x318 ∧ page0_.hw.coreQuiet 0 = true := by
  unfold Reaches Up Clear; decide +kernel
theorem test_array_repair : seen (.arrayRepairWrite .handler 0 0x310 2) page0_ (fun h => (h.arrWidth 0 0, h.arrWidth 0 1, h.gangWidth 0)) = some (64, 0, 0)
    ∧ seen (.arrayRepairWrite .handler 0 0x31C 3) page0_ (fun h => (h.arrWidth 0 0, h.gangWidth 0)) = some (62, 62)
    ∧ goes (.arrayRepairWrite .portA 0 0x31C 3) page0_ ((page0_.hw.badAccess 0x08031C).unstage .portA) = true := by decide +kernel

/-- CONVERT of two INT8 elements to FP32. -/
def convert_ : Cmd := cmd_ (desc_ 0x90 [(0x10 * 8, 0x2000), (0x20 * 8, 2), (0x24 * 8, 8), (320, 5), (352, 2)])
theorem test_meets_ConvertResult : ((with_ convert_ [(0x2000, [1, 0xFE])]).hw.running coreQ 0x90).head? = some convert_
    ∧ ((with_ convert_ [(0x2000, [1, 0xFE])]).hw.source coreQ convert_ 0 2).toOption = some [1, 0xFE] ∧ (convertOp convert_.desc).n = 2
    ∧ ((one_ (cmd_ (desc_ 0x90 []))).hw.running coreQ 0x90).head? = some (cmd_ (desc_ 0x90 [])) ∧ (convertOp (desc_ 0x90 [])).n = 0 := by decide +kernel
theorem test_convert : seen (.convert 0 0) (with_ convert_ [(0x2000, [1, 0xFE])]) (fun h => (h.qs coreQ).cmds.map (·.result))
    = some [leBytes 4 0x3F800000 ++ leBytes 4 0xC0000000] := by decide +kernel

/-- OPT_UPDATE by plain descent of one FP32 parameter; `dst` is where it stands. -/
def opt_ (dst : Nat) : Cmd := cmd_ (desc_ 0x91 [(0x10 * 8, 0x2000), (0x18 * 8, dst), (0x20 * 8, 4), (0x24 * 8, 4), (320, 0), (352, 0x10001), (448, 0x4000)])
def optState_ (dst : Nat) : State := with_ (opt_ dst) [(0x2000, leBytes 4 0x3F800000), (0x3000, leBytes 4 0x40000000), (0x4000, leBytes 4 0x3F800000)]
theorem test_meets_OptimiserUpdate : ∀ dst ∈ [0x3000, 0x2000], ((optState_ dst).hw.running coreQ 0x91).head? = some (opt_ dst) ∧ addrForm (dDst (opt_ dst).desc) = .va dst
    ∧ anyMeet (optRanges (opt_ dst).desc) = (dst == 0x2000)
    ∧ ((optState_ dst).hw.source coreQ (opt_ dst) 0 4).toOption.isSome = true
    ∧ (exRead (optState_ dst).hw (queueMaster coreQ) dst 4).toOption.isSome = true
    ∧ (exRead (optState_ dst).hw (queueMaster coreQ) 0 0).toOption.isSome = true
    ∧ (exRead (optState_ dst).hw (queueMaster coreQ) 0x4000 32).toOption.isSome = true := by decide +kernel
theorem test_meets_OptimiserUpdate_empty : ((one_ (cmd_ (desc_ 0x91 []))).hw.running coreQ 0x91).head? = some (cmd_ (desc_ 0x91 []))
    ∧ addrForm (dDst (desc_ 0x91 [])) = .va 0 ∧ (optOp (desc_ 0x91 [])).len = 0 := by decide +kernel

/-- Commands of the special-function unit on FP32 rows at 0x2000. -/
def sfu_ (op a b c d : Nat) (e : Nat := 0) : Cmd :=
  cmd_ (desc_ op [(0x10 * 8, 0x2000), (0x20 * 8, 64), (0x24 * 8, 64), (320, a), (352, b), (384, c), (416, d), (448, e)])
def sfuState_ (c : Cmd) : State := with_ c [(0x2000, leBytes 4 0x3F800000 ++ leBytes 4 0x40000000), (0x5000, leBytes 2 0x3F80 ++ leBytes 2 0x3F80)]
theorem test_meets_SpecialFunctions : ∀ p ∈ [(0x60, 2, 0), (0x60, 0, 0), (0x61, 1, 1), (0x61, 0, 0), (0x65, 0x3F800000, 0x3F800000)],
    let c := sfu_ p.1 0 p.2.1 p.2.2 0
    ((sfuState_ c).hw.running coreQ p.1).head? = some c ∧ sfuReady c = true
    ∧ ((sfuState_ c).hw.source coreQ c 0 8).toOption.isSome = true := by decide +kernel
theorem test_meets_RowFunctions : ∀ p ∈ [(0x62, 0, 2, 1), (0x62, 0x40, 2, 1), (0x62, 0x80, 2, 1), (0x62, 0, 0, 0), (0x63, 1, 1, 0), (0x63, 0, 0, 0), (0x64, 0, 2, 1),
      (0x64, 0, 0, 0)],
    let c := sfu_ p.1 p.2.1 p.2.2.1 p.2.2.2 0 0x5000
    ((sfuState_ c).hw.running coreQ p.1).head? = some c ∧ sfuReady c = true
    ∧ ((sfuState_ c).hw.source coreQ c 0 8).toOption.isSome = true ∧ (exRead (sfuState_ c).hw (queueMaster coreQ) 0x5000 4).toOption.isSome = true := by
  decide +kernel

/-- A command of the unit with a context that names one microprogram at 0x6000. -/
def micro_ : Cmd := { sfu_ 0x60 0x400 1 0 0 with ctx := leBytes 8 0x1000000000 ++ List.replicate 16 0 ++ leBytes 8 0x6000 ++ List.replicate 32 0 }
def loads_ (va : Nat) : State := on_ (sfuState_ { micro_ with ctx := leBytes 8 0x1000000000 ++ List.replicate 16 0 ++ leBytes 8 va ++ List.replicate 32 0 }) fun h =>
  h.setSfu 0 { h.sfuStore 0 with loads := [⟨0, va, 1⟩] }
theorem test_meets_Microprograms : sfuReady micro_ = false ∧ ctxPrograms micro_.ctx = 1 ∧ (∀ l ∈ (page0_.hw.sfuStore 0).loads, l.q ≠ 0)
    ∧ ((loads_ 0x6000).hw.sfuStore 0).loads.find? (fun l => l.q == 0) = some ⟨0, 0x6000, 1⟩
    ∧ (match (loads_ 0x6000).hw.read (queueMaster coreQ) 0x6000 2560 with | .ok bs => bs.length == 2560 | .error _ => false) = true
    ∧ ((loads_ 0x2000000).hw.sfuStore 0).loads.find? (fun l => l.q == 0) = some ⟨0, 0x2000000, 1⟩
    ∧ (match (loads_ 0x2000000).hw.read (queueMaster coreQ) 0x2000000 2560 with | .error (.fault _ _ _) => true | _ => false) = true
    ∧ ((loads_ 0x2000000).hw.sfuWaiters 0 0x2000000).map (·.1) = [coreQ] := by
  decide +kernel
theorem test_microprogram_load : seen (.microprogramLoad 0 0) (loads_ 0x6000) (fun h => ((h.sfuStore 0).loaded, (h.qs coreQ).cmds.map (·.prog.isSome)))
    = some (true, [true]) := by decide +kernel
theorem test_meets_Microprograms_invalidate : Reaches page0_ .handler (corePage 0) 0x444 := by unfold Reaches Up Clear; decide +kernel

theorem test_meets_SelectionIsBest : ((selectRow { src := 0, asc := false, mask := false, n := 3, k := 2, rows := 1, base := 10, maskVa := 0 }
    (leBytes 4 0x3F800000 ++ leBytes 4 0x40000000 ++ leBytes 4 0x3F800000).toArray #[] 0).1.entries.map (·.index)) = [11, 10] := by decide +kernel

/-- SELECT and SEL_ROUTE of the better of two elements of one row, and SEL_MERGE of one part of one entry. -/
def sel_ (op a b c : Nat) : Cmd := cmd_ (desc_ op [(0x10 * 8, 0x2000), (0x20 * 8, 64), (0x24 * 8, 64), (320, a), (352, b), (384, c)])
def selState_ (c : Cmd) : State := with_ c [(0x2000, leBytes 4 0x3F800000 ++ leBytes 4 0x40000000)]
theorem test_meets_SelectionResults : ∀ p ∈ [(0x80, 2, 0x10001), (0x80, 0, 0), (0x82, 2, 0x10001), (0x82, 2, 0)],
    let c := sel_ p.1 0 p.2.1 p.2.2
    ((selState_ c).hw.running coreQ p.1).head? = some c ∧ ((selState_ c).hw.source coreQ c 0 8).toOption.isSome = true
    ∧ (p.2.2 ≠ 0 → (selectOp (p.1 == 0x82) c.desc).rows * (selectOp (p.1 == 0x82) c.desc).n = 2)
    ∧ (p.2.2 = 0 → (selectOp (p.1 == 0x82) c.desc).rows = 0) := by decide +kernel
def merge_ : State := with_ (sel_ 0x81 1 1 0x10001) [(0x2000, leBytes 4 0x10001 ++ leBytes 4 0x100 ++ leBytes 8 0 ++ leBytes 4 7 ++ leBytes 4 0x3F800000)]
theorem test_meets_SelectionResults_merge : (merge_.hw.running coreQ 0x81).head? = some (sel_ 0x81 1 1 0x10001)
    ∧ ((merge_.hw.source coreQ (sel_ 0x81 1 1 0x10001) 0 24).toOption.any fun bs => (partOf (selMergeOp (sel_ 0x81 1 1 0x10001).desc) bs).isSome) = true
    ∧ ((with_ (sel_ 0x81 0 0 0) []).hw.running coreQ 0x81).head? = some (sel_ 0x81 0 0 0) := by decide +kernel
theorem test_select : seen (.select 0 0) (selState_ (sel_ 0x80 0 2 0x10001)) (fun h => (h.qs coreQ).cmds.map fun c => c.result.drop 16)
    = some [leBytes 4 1 ++ leBytes 4 0x40000000]
    ∧ seen (.selRoute 0 0) (selState_ (sel_ 0x82 0 2 0x10001)) (fun h => (h.qs coreQ).cmds.map fun c => c.predVal) = some [2]
    ∧ seen (.selMerge 0 0) merge_ (fun h => (h.qs coreQ).cmds.map fun c => c.result.drop 16) = some [leBytes 4 7 ++ leBytes 4 0x3F800000] := by
  decide +kernel

/-! ### Splice and Muzzle -/

/-- The header of a vocabulary of 100 tokens. -/
def vocHdr_ : List Byte := leBytes 4 1 ++ leBytes 4 100 ++ leBytes 4 16 ++ [8, 8, 1, 0] ++ List.replicate 1136 0
/-- A stage queue that holds one command, with bytes stored in memory. -/
def stageWith_ (u : StageUnit) (c : Cmd) (l : List (Nat × List Byte)) : State :=
  on_ (stage1_ u c) fun h => l.foldl (fun h x => h.store (memKey 1 x.1) x.2) h
/-- Slot 15 of the vocabularies is to name the header at `va`, which is good or not; `refs` streams are open on its other bank. -/
def flip_ (va refs : Nat) (good : Bool := true) : State := at_ fun h =>
  { ((regs_ [(0x0C0, 0x170, va % 0x100000000), (0x0C0, 0x174, va / 0x100000000)] (mapped h)).store (memKey 1 0x10000)
      (if good then vocHdr_ else [])) with streams := List.replicate refs ⟨0x8000, 15, 1, []⟩ }
theorem test_meets_VocabularyFlip : Reaches State.reset .portA (0x0C0 + 8 * 3) (0x088 + 0x10 * 15)
    ∧ (flip_ 0 1).hw.vocRefs 15 (1 - (flip_ 0 1).hw.vocBank 15) = 1 ∧ (flip_ 0 0).hw.rd64 0x0C0 (0x080 + 0x10 * 15) = 0
    ∧ (flip_ 0x10000 0).hw.vocRefs 15 (1 - (flip_ 0x10000 0).hw.vocBank 15) = 0 ∧ (flip_ 0x10000 0).hw.rd64 0x0C0 (0x080 + 0x10 * 15) = 0x10000
    ∧ (match (flip_ 0x2000000 0).hw.headerRead 3 0x2000000 1152 with | .error c => c == cPAGE_FAULT | .ok _ => false) = true
    ∧ (match (flip_ 0x10000 0).hw.headerRead 3 0x10000 1152 with
      | .ok hd => vocHeaderGood (bitsOf ((flip_ 0x10000 0).hw.headerTouch 3 0x10000 1152 |>.rd 0x000 0x078) 31 8) hd | .error _ => false) = true
    ∧ (match (flip_ 0x10000 0 false).hw.headerRead 3 0x10000 1152 with
      | .ok hd => !vocHeaderGood (bitsOf ((flip_ 0x10000 0 false).hw.headerTouch 3 0x10000 1152 |>.rd 0x000 0x078) 31 8) hd | .error _ => false) = true := by
  unfold Reaches Up Clear; decide +kernel
theorem test_vocab_flip : seen (.vocabFlip .portA 3 15 1) (flip_ 0x10000 0) (fun h => (h.vocBank 15, (h.voc 15).gen 1, h.measures.length)) = some (1, 1, 1)
    ∧ seen (.vocabFlip .portA 3 15 1) (flip_ 0x10000 0 false) (fun h => (h.vocBank 15, bitOf (h.vocStat 15) 18)) = some (0, true)
    ∧ seen (.vocabFlip .portA 3 15 1) (flip_ 0 1) (fun h => bitOf (h.vocStat 15) 19) = some true := by decide +kernel

/-- A command of no input that begins and ends its stream at 0x8000, or neither, on slot 0, which has a header. -/
def splice_ (op : Nat) (ends : Bool) (pins : List (Nat × Nat)) : State :=
  on_ (stageWith_ .spl { cmd_ (desc_ op [(0x18 * 8, 0x2000), (0x24 * 8, 64), (320, if ends then 0x90 else 0), (384, 0x8000)]) with pins := pins } []) fun h =>
    h.setVoc 0 { hdr0 := vocHdr_ }
theorem test_meets_SpliceStreams : ∀ x ∈ [(0x10, false), (0x11, true)],
    ((splice_ x.1 true []).hw.stageHead (stageQ .spl) x.1).any (fun c =>
      let h := (splice_ x.1 true []).hw.splicePin (stageQ .spl) c x.2
      let c' := ((h.qs (stageQ .spl)).cmds.find? fun y => y.ptr = c.ptr).getD c
      match rxRun (if x.2 then detokeniseRun h (stageQ .spl) c' else tokeniseRun h (stageQ .spl) c') with | .ok _ => true | .error _ => false) = true := by
  decide +kernel
theorem test_meets_SpliceStreams_empty : ∀ op ∈ [0x10, 0x11], ((splice_ op true [(0, 0)]).hw.stageHead (stageQ .spl) op).any (fun c =>
      decide (((splice_ op true [(0, 0)]).hw.qs (stageQ .spl)).cmds.find? (fun x => x.ptr = c.ptr) = some c ∧ (spliceOp c.desc).n = 0
        ∧ (spliceOp c.desc).final = true ∧ (spliceOp c.desc).fresh = true ∧ (spliceOp c.desc).special = false ∧ c.pins = [(0, 0)]
        ∧ addrForm (dSrc c.desc) = .va 0 ∧ addrForm (dDst c.desc) = .va 0x2000 ∧ 16 ≤ dDstLen c.desc)) = true
    ∧ ((splice_ op false []).hw.stageHead (stageQ .spl) op).any (fun c => decide ((spliceOp c.desc).n = 0 ∧ (spliceOp c.desc).final = false)) = true := by
  decide +kernel
theorem test_tokenise_empty : seen (.tokenise 0 0) (splice_ 0x10 true []) (fun h => (h.qs (stageQ .spl)).cmds.map fun c => (c.finished, c.writes.map (·.1)))
    = some [(true, [0x2000, 0x8000])] := by decide +kernel

/-- A Muzzle whose grammar of 8 tokens and one state allows everything, with the context that names it; the command begins the record at
0x8000 and writes its mask to `dst`. -/
def grammar_ : List Byte := leBytes 4 0x101 ++ leBytes 4 8 ++ leBytes 4 1 ++ leBytes 20 0 ++ leBytes 8 0x6000 ++ leBytes 24 0
def muz_ (dst : Nat) (g : List Byte := grammar_) (spec : Nat := 0) : State := on_ (stageWith_ .muz (cmd_ (desc_ 0x10 [(24, spec), (0x0C * 8 + 12, spec),
    (0x18 * 8, dst), (0x24 * 8, 48), (320, 4), (384, 0x8000)])) [(0x6004, leBytes 4 0x2000000)]) fun h =>
  h.setQs (stageQ .muz) { h.qs (stageQ .muz) with grammar := g }
theorem test_meets_MuzzleCommands : ∀ dst ∈ [0x2000, 0x2000000], ((muz_ dst).hw.stageHead (stageQ .muz) 0x10).any (fun c =>
    match muzRun (muz_ dst).hw (stageQ .muz) c [] with
    | .ok ((out, _), _) => decide ((Hw.stageWrites (stageQ .muz) c [(dDst c.desc, out)] (muz_ dst).hw).2.length = if dst = 0x2000 then 0 else 1)
    | .error _ => false) = true := by decide +kernel
theorem test_meets_MuzzleCommands_context : ((muz_ 0x2000 []).hw.stageHead (stageQ .muz) 0x10).isSome = true
    ∧ ((muz_ 0x2000 []).hw.qs (stageQ .muz)).grammar = [] := by decide +kernel
theorem test_muz_step : seen (.muzStep 0 0) (muz_ 0x2000) (fun h => (h.bytes (memKey 1 0x2000) 2, (h.qs (stageQ .muz)).cmds.map (·.finished)))
    = some ([0xFF, 0], [true]) := by decide +kernel
/-- The step finished, and speculative or not, with a full completion ring or not. -/
def muzDone_ (spec rec_ : Nat) (full : Bool) (credit : Bool := true) : State := on_ (stageWith_ .muz { cmd_ (desc_ 0x10 [(24, spec), (0x0C * 8 + 12, spec),
    (0x0C * 8 + 16, rec_), (0x0C * 8 + 15, if credit then 0 else 1)]) with
  finished := true, writes := [(0x8000, [1])], work := .muz 0x8000 {} 48 true } []) fun h =>
  let h := if full then h.qwr (stageQ .muz) 0x3C 16 else h
  if credit then h else { h with pair := { h.pair with state := 2, outbound := outbound_ } }
theorem test_meets_MuzCommit : ∀ x ∈ [(1, 0, false), (0, 1, true), (0, 0, false)],
    ((muzDone_ x.1 x.2.1 x.2.2).hw.stageCommitHead (stageQ .muz)).any (fun c => (match c.work with | .muz _ _ _ _ => true | _ => false)
      && decide (c.todo = none ∧ 0x10 ≤ dOpcode c.desc) && (muzDone_ x.1 x.2.1 x.2.2).hw.waitsConfirm (stageQ .muz) c == (x.1 == 1)
      && (muzDone_ x.1 x.2.1 x.2.2).hw.ringGate (stageQ .muz) c == !x.2.2 && (muzDone_ x.1 x.2.1 x.2.2).hw.creditGate (stageQ .muz) c
      && (Hw.stageWrites (stageQ .muz) c c.writes (muzDone_ x.1 x.2.1 x.2.2).hw).2.isEmpty) = true := by decide +kernel
theorem test_muz_commit : seen (.muzCommit 0 0) (muzDone_ 0 0 false) (fun h => (h.qCommit (stageQ .muz), h.bytes (memKey 1 0x8000) 1, h.bit (engPage (.stage 0 .muz)) 0x010 8))
    = some (1, [1], true) := by decide +kernel

/-! ### Embedding tables -/

/-- A descriptor of 8 rows of 4 FP32 elements: directory 0x10000, default row 0x11000, pool 0 at 0x12000 with 8 slots, ring of 16 at
0x13000, state 0x14000; shard 0 in module `m`. -/
def tblDesc_ (m : Nat := 0) (resident : Bool := false) : List Byte :=
  leBytes 4 (if resident then 0x801 else 1) ++ leBytes 4 4 ++ leBytes 4 8 ++ leBytes 4 1 ++ leBytes 8 0x10000 ++ leBytes 8 0x11000 ++ leBytes 8 0x12000
    ++ leBytes 8 0 ++ leBytes 8 8 ++ leBytes 8 0x13000 ++ leBytes 8 0x14000 ++ leBytes 4 4 ++ List.replicate 20 0 ++ leBytes 32 m
/-- Page tables from near 0 whose first page is pinned and lies at the start of LPDDR6. -/
def pinned_ (h : Hw) : Hw := ((h.store 0 (leBytes 8 0x1001)).store 0x1000 (leBytes 8 0x2001)).store 0x2000 (leBytes 8 0x1D)
/-- Table slot 63 is to take the descriptor at `va`. -/
def tblFlip_ (va : Nat) (d : List Byte) (refs : List PortGather := []) : State := at_ fun h =>
  { ((regs_ [(0x0C2, tblOff 63 0, va)] (mapped (pinned_ h))).store (memKey 1 0x18000) d) with gathers := refs }
theorem test_meets_TableFlips : Reaches State.reset .portA (0x0C2 + 8 * 3) (tblOff 63 0x08)
    ∧ (tblFlip_ 0 [] [⟨0, 0, 63, 1, 0, 0, 0, 0, 0, 0, none, false, false⟩]).hw.tblRefs 63 1 = 1 ∧ (tblFlip_ 0 []).hw.tblRefs 63 1 = 0
    ∧ (tblFlip_ 0 []).hw.tblBank 63 = 0 ∧ (tblFlip_ 0 []).hw.rd64 0x0C2 (tblOff 63 0) = 0 ∧ (tblFlip_ 0x18000 []).hw.rd64 0x0C2 (tblOff 63 0) = 0x18000
    ∧ (match (tblFlip_ 0x2000000 []).hw.headerRead 3 0x2000000 128 with | .error c => c == cPAGE_FAULT | .ok _ => false) = true := by
  unfold Reaches Up Clear; decide +kernel
theorem test_meets_TableFlips_read : ∀ x ∈ [(tblDesc_, false, true), (tblDesc_ 0 true, true, true), ([], false, false)],
    (match (tblFlip_ 0x18000 x.1).hw.headerRead 3 0x18000 128 with
      | .ok d => tblDescGood (((tblFlip_ 0x18000 x.1).hw.headerTouch 3 0x18000 128).rd 0x000 0x094) d == x.2.2 && tResident d == x.2.1
      | .error _ => false) = true := by decide +kernel
theorem test_meets_TableFlips_resident :
    (match ((tblFlip_ 0x18000 (tblDesc_ 0 true)).hw.headerTouch 3 0x18000 128).capture 3 (tRanges (tblDesc_ 0 true)) with
      | .ok l => decide (l.map (·.1) = [0, 1, 2, 5]) | .error _ => false) = true
    ∧ (match (at_ mapped).hw.capture 3 (tRanges (tblDesc_ 0 true)) with | .error c => c == cPAGE_FAULT | .ok _ => false) = true := by decide +kernel
theorem test_table_flip : seen (.tableFlip .portA 3 63 1) (tblFlip_ 0x18000 tblDesc_) (fun h => (h.tblBank 63, h.tblGen 63, h.tblLoaded 63)) = some (1, 1, true)
    ∧ seen (.tableFlip .portA 3 63 1) (tblFlip_ 0x18000 []) (fun h => (h.tblBank 63, bitOf (h.tblStat 63) 19)) = some (0, true) := by decide +kernel

/-- A displaced slot of table 63, whose ring is at `va`; its ring is full, or its unit held. -/
def frees_ (va : Nat) : State := at_ fun h =>
  let h := mapped h
  { h with frees := [⟨63, 0, 5, 0, va, none, 4, 0⟩] }
theorem test_meets_FreeRing : (frees_ 0x13000).hw.freeDue 63 none = some ⟨63, 0, 5, 0, 0x13000, none, 4, 0⟩ ∧ State.reset.hw.freeDue 63 none = none
    ∧ (frees_ 0x13000).hw.isHeld (queueMaster ⟨stageEng 0 .emb, 4⟩) = false
    ∧ (match (frees_ 0x13000).hw.place (queueMaster ⟨stageEng 0 .emb, 4⟩) 0x13000 (leBytes 8 5) with | .ok _ => true | .error _ => false) = true
    ∧ (match (frees_ 0x2000000).hw.place (queueMaster ⟨stageEng 0 .emb, 4⟩) 0x2000000 (leBytes 8 5) with | .error (.fault _ _ _) => true | _ => false) = true
    ∧ (let m := queueMaster ⟨stageEng 0 .emb, 4⟩
       (on_ (frees_ 0x13000) fun h => h.postFault m fNotValid 0 0x13000 true 0 true).hw.isHeld m = true) := by decide +kernel
theorem test_free_ring : seen (.freeRingWrite 63) (frees_ 0x13000) (fun h => (h.bytes (memKey 1 0x13000) 2, h.rd 0x0C2 (tblOff 63 0x18), h.frees))
    = some ([5, 0], 1, []) := by decide +kernel

/-- A command of EMB0 on table 0, with what it carries. -/
def work_ (list : List Nat) (rows : List EmbRow) (sent : Bool := true) (batches : List EmbBatch := []) (done : Bool := false) : EmbWork :=
  { table := 0, bank := 0, serial := 0, pin := none, gen := 0, seeds := [0, 0, 0, 0], list := list, sent := sent, batches := batches, rows := rows, done := done }
def emb_ (op : Nat) (w : EmbWork) (f : List (Nat × Nat) := []) (m : Nat := 0) (g : Cmd → Cmd := id) : State :=
  on_ (stageWith_ .emb (g { cmd_ (desc_ op ([(0x10 * 8, 0x8000), (0x18 * 8, 0x9000), (0x20 * 8, 64), (0x24 * 8, 64)] ++ f)) with work := .emb w })
    [(0x10000, (DirEnt.mk 3 0 0 true false false 0 0 0).bytes), (0x8000, [0]), (0x120C0, leBytes 4 0x3F800000)]) fun h =>
    (h.setTbl 0 ((h.tbl 0).set 0 (tblDesc_ m) [])).wr 0x0C2 (tblOff 0 0x0C) 0x20000
def row0_ (ok : Bool := true) : EmbRow := ⟨0, 0, false, false, ok, leBytes 4 0x3F800000 ++ leBytes 12 0, []⟩
theorem test_meets_Generations : ∀ x ∈ [(0, false, true), (0x10000, false, false)],
    (on_ (emb_ 0x14 (work_ [] [] (done := true)) [(0x0C * 8, x.1)] 0 fun c => { c with finished := true }) fun h =>
      if x.2.2 then h else h.qwr (stageQ .emb) 0x3C 16).hw.stageCommitHead (stageQ .emb) |>.any (fun c =>
        let s := (on_ (emb_ 0x14 (work_ [] [] (done := true)) [(0x0C * 8, x.1)] 0 fun c => { c with finished := true }) fun h =>
          if x.2.2 then h else h.qwr (stageQ .emb) 0x3C 16)
        decide (c.todo = none ∧ dOpcode c.desc = 0x14) && !s.hw.waitsConfirm (stageQ .emb) c
          && s.hw.ringGate (stageQ .emb) c == x.2.2 && s.hw.creditGate (stageQ .emb) c) = true := by decide +kernel
theorem test_publish : seen (.stageCommitStep 0 .emb 0) (emb_ 0x14 (work_ [] [] (done := true)) [] 0 fun c => { c with finished := true })
    (fun h => (h.tblGen 0, h.qCommit (stageQ .emb))) = some (1, 1) := by decide +kernel
theorem test_meets_Generations_rows : (putRow (DirEnt.mk 3 0 0 true false true 2 0 5) 0 false false 7 0).map (fun x => (x.1.slot, x.1.pSlot, x.1.gen, x.2)) = some (7, 3, 1, [(2, 0)])
    ∧ (putRow (DirEnt.mk 3 0 1 true false false 0 0 0) 0 false false 7 0).map (fun x => (x.1.slot, x.1.gen, x.2)) = some (7, 1, [(3, 0)]) := by decide +kernel

theorem test_meets_Gathers : ((emb_ 0x10 (work_ [] [])).hw.stageHead (stageQ .emb) 0x10).any (fun c => match c.work with
      | .emb w => w.sent && w.batches.isEmpty && w.list.isEmpty | _ => false) = true
    ∧ ((emb_ 0x10 (work_ [0] [row0_])).hw.stageHead (stageQ .emb) 0x10).any (fun c => match c.work with
      | .emb w => let r := (emb_ 0x10 (work_ [0] [row0_])).hw.tblRef (queueMaster (stageQ .emb)) 0 0
        match gatherRows r w.rows (listParts r.inside (listRow c.desc) w.list [] 0) w.list [] with
        | .ok (xs, _) => decide (xs = [row0_]) | .error _ => false
      | _ => false) = true
    ∧ (let r := (emb_ 0x10 (work_ [] [] false) [(352, 1)] 1).hw.tblRef (queueMaster (stageQ .emb)) 0 0
       ((emb_ 0x10 (work_ [] [] false) [(352, 1)] 1).hw.stageHead (stageQ .emb) 0x10).any (fun c =>
         match embList (emb_ 0x10 (work_ [] [] false) [(352, 1)] 1).hw (stageQ .emb) c [] with
         | .ok (l, _) => decide ((embBatches r c.desc l).map (·.module) = [1] ∧ (emb_ 0x10 (work_ [] [] false) [(352, 1)] 1).hw.moduleNo = 0)
         | .error _ => false)) = true := by decide +kernel
theorem test_meets_Gathers_writes : ∀ dst ∈ [0x9000, 0x2000000], (on_ (emb_ 0x10 (work_ [0] [row0_])) fun h => h).hw.stageHead (stageQ .emb) 0x10 |>.any (fun c =>
    decide ((Hw.stageWrites (stageQ .emb) c [(dst + 16, row0_.data), (dst, gatherHeader 1 0 false false 0)] (emb_ 0x10 (work_ [0] [row0_])).hw).2.length
      = if dst = 0x9000 then 0 else 2)) = true := by decide +kernel
theorem test_gather : seen (.embGather 0 0) (emb_ 0x10 (work_ [0] [row0_])) (fun h => (h.bytes (memKey 1 0x9010) 4, (h.qs (stageQ .emb)).cmds.map (·.finished)))
    = some ([0, 0, 0x80, 0x3F], [true])
    ∧ seen (.embGather 0 0) (emb_ 0x10 (work_ [] [] false) [(352, 1)]) (fun h => (h.qs (stageQ .emb)).cmds.map fun c => match c.work with
      | .emb w => (w.sent, w.rows.map (·.row)) | _ => (false, [])) = some [(true, [0])] := by decide +kernel

theorem test_meets_Updates : ((emb_ 0x11 (work_ [] [])).hw.stageHead (stageQ .emb) 0x11).isSome = true
    ∧ ((emb_ 0x11 (work_ [0] [row0_]) [(384, 0xA000), (448, 0xB000)]).hw.stageHead (stageQ .emb) 0x11).any (fun c => match c.work with
      | .emb w => (let h := (emb_ 0x11 (work_ [0] [row0_]) [(384, 0xA000), (448, 0xB000)]).hw
        let r := h.tblRef (queueMaster (stageQ .emb)) 0 0
        match (do let gs ← embGrads h (stageQ .emb) c w
                  let y ← rxRead h (queueMaster (stageQ .emb)) (embOp c.desc).hyperVa 32
                  let sp ← updateSpans r (embOp c.desc) w.rows
                  pure (gs, y, sp) : Rx (List Byte × List Byte × List (Nat × Nat))) [] with
        | .ok ((gs, _, sp), _) => decide (gs.length = 16 ∧ sp.length = 2 ∧ (embOp c.desc).opt ≠ 2) | .error _ => false)
      | _ => false) = true := by decide +kernel
theorem test_update : seen (.embUpdate 0 0) (emb_ 0x11 (work_ [0, 0, 9] [row0_]) [(384, 0xA000), (448, 0xB000)])
    (fun h => (h.qs (stageQ .emb)).cmds.map fun c => (c.finished, leNat (c.result.take 4), leNat ((c.result.drop 8).take 4), leNat ((c.result.drop 12).take 4)))
    = some [(true, 1, 1, 1)] := by decide +kernel

theorem test_meets_RowCommands : ∀ op ∈ [0x12, 0x13, 0x14], ((emb_ op (work_ [0] [])).hw.stageHead (stageQ .emb) op).any (fun c =>
      decide (((emb_ op (work_ [0] [])).hw.qs (stageQ .emb)).cmds.head? = some c)) = true := by decide +kernel
/-- The row's entry is marked moving. -/
def movingRow_ : State := on_ (emb_ 0x11 (work_ [0] [row0_] (done := true)) [] 0 fun c => { c with finished := true }) fun h =>
  h.store (memKey 1 0x10000) (DirEnt.mk 3 0 0 true true false 0 0 0).bytes
theorem test_meets_RowCommands_moving : (movingRow_.hw.stageCommitHead (stageQ .emb)).any (fun c => match c.work with
    | .emb w => !movingRow_.hw.waitsConfirm (stageQ .emb) c && movingRow_.hw.ringGate (stageQ .emb) c && movingRow_.hw.creditGate (stageQ .emb) c
      && (match planUpdate (movingRow_.hw.tblRef (queueMaster (stageQ .emb)) w.table w.bank) (embOp c.desc) w.rows [] with
          | .error (.moving 0) => true | _ => false)
    | _ => false) = true := by decide +kernel
/-- A ROW_MOVE behind another. -/
def second_ : State := on_ (emb_ 0x13 (work_ [0] [])) fun h => h.setQs (stageQ .emb) { h.qs (stageQ .emb) with
  cmds := ((h.qs (stageQ .emb)).cmds.map fun c => { c with finished := true }) ++ (h.qs (stageQ .emb)).cmds.map fun c => { c with ptr := 1 } }
theorem test_meets_RowCommands_waits : (second_.hw.stageHead (stageQ .emb) 0x13).any (fun c =>
    decide ((second_.hw.qs (stageQ .emb)).cmds.head?.map (·.ptr) ≠ some c.ptr)) = true := by decide +kernel

/-- A batch to the unit of quadrant 3 of this module, or of module 1, whose port is up or not. -/
def exch_ (m : Nat) (up : Bool) : State := on_ (emb_ 0x10 (work_ [0] [] (batches := [⟨0, m, 3, [0], false⟩]))) fun h => if up then h.setPort 0 fun l => { l with up := true } else h
theorem test_meets_Exchanges : (at_ mapped).hw.embSender (stageQ .emb) 0 3 = none
    ∧ (∀ x ∈ [(0, false), (1, true), (1, false)], ((exch_ x.1 x.2).hw.embSender (stageQ .emb) x.1 3).any (fun (c, w, b) =>
      decide (b.module = x.1 ∧ (exch_ x.1 x.2).hw.route 1 = if x.2 then some 0 else none)
        && (match embServe (stageQ .emb) b (exch_ x.1 x.2).hw c w, embFar (stageQ .emb) b 0 (exch_ x.1 x.2).hw c w with | .ok _, .ok _ => true | _, _ => false)) = true) := by
  decide +kernel
theorem test_meets_Exchanges_leash : ((exch_ 1 true).hw.port 0).up = true ∧ ((exch_ 1 false).hw.port 0).up = false
    ∧ (match gatherBatch ((exch_ 1 true).hw.tblRef (queueMaster ⟨stageEng 0 .emb, 4⟩) 0 0) none 0 [0] [] with | .ok (xs, _) => xs.map (·.ok) == [true] | .error _ => false) = true
    ∧ (match gatherBatch ((on_ (exch_ 1 true) fun h => h.wr 0x020 0x008 0).hw.tblRef (queueMaster ⟨stageEng 0 .emb, 4⟩) 0 0) none 0 [0] [] with
        | .error (.rd .wait) => true | _ => false) = true := by decide +kernel
theorem test_exchange : seen (.exchangeBatch 0 (.queue 0 0 3)) (exch_ 0 false) (fun h => (h.qs (stageQ .emb)).cmds.map fun c => match c.work with
      | .emb w => (w.batches.length, w.rows.map (·.row)) | _ => (9, [])) = some [(0, [0])]
    ∧ seen (.exchangeBatch 0 (.leash 0 ⟨0, false, [0]⟩)) (exch_ 1 true) (fun h => (h.exch.length, h.out.length)) = some (0, 1) := by decide +kernel

/-! ### Retriever -/

/-- A descriptor of 4 lists of vectors of 32 FP32 elements, or of a graph: directory 0x10000, centroids 0x11000, codebooks 0x20000, epoch 5. -/
def idxDesc_ : List Byte :=
  leBytes 4 1 ++ leBytes 4 32 ++ leBytes 4 4 ++ leBytes 4 0 ++ leBytes 8 0x10000 ++ leBytes 8 0x11000 ++ leBytes 8 0x20000 ++ leBytes 8 0
    ++ leBytes 4 0 ++ leBytes 4 5 ++ leBytes 72 0
/-- Index slot 15 is to take the descriptor at `va`; its other bank is bound or not. -/
def idxFlip_ (va : Nat) (d : List Byte) (bound : Bool := false) : State := on_ (stageWith_ .rtv { cmd_ (desc_ 0x10 []) with
    work := if bound then .rtv { slot := 15, bank := 1, epoch := 0, counted := true } else .none } [(0x18000, d)]) fun h => h.wr 0x0C1 (idxOff 15 0) va
theorem test_meets_IndexFlips : Reaches State.reset .portA (0x0C1 + 8 * 3) (idxOff 15 0x08)
    ∧ (idxFlip_ 0 [] true).hw.idxRefs 15 (1 - (idxFlip_ 0 [] true).hw.idxBank 15) = 1 ∧ (idxFlip_ 0 []).hw.idxRefs 15 1 = 0
    ∧ (idxFlip_ 0 []).hw.rd64 0x0C1 (idxOff 15 0) = 0 ∧ (idxFlip_ 0x18000 []).hw.rd64 0x0C1 (idxOff 15 0) = 0x18000
    ∧ (match (idxFlip_ 0x2000000 []).hw.headerRead 3 0x2000000 128 with | .error c => c == cPAGE_FAULT | .ok _ => false) = true
    ∧ (∀ x ∈ [(idxDesc_, true), ([], false)], (match (idxFlip_ 0x18000 x.1).hw.headerRead 3 0x18000 128 with
      | .ok d => idxDescGood (((idxFlip_ 0x18000 x.1).hw.headerTouch 3 0x18000 128).rd 0x000 0x080) d == x.2 | .error _ => false) = true) := by
  unfold Reaches Up Clear; decide +kernel
theorem test_index_flip : seen (.indexFlip .portA 3 15 1) (idxFlip_ 0x18000 idxDesc_) (fun h => (h.idxBank 15, h.epoch 15, h.idxLoaded 15)) = some (1, 5, true)
    ∧ seen (.indexFlip .portA 3 15 1) (idxFlip_ 0 [] true) (fun h => (h.idxBank 15, bitOf (h.idxStat 15) 18)) = some (0, true) := by decide +kernel

/-- A search of one BF16 query of 32 elements at 0x8000 for one candidate, with its parameter block at 0xC000 and its probe result, of one list, at
0xD000; what the command carries; and bytes of memory. -/
def rtvDesc_ (op : Nat) (b : Nat) : BitVec 512 := desc_ op [(0x10 * 8, 0x8000), (0x18 * 8, 0x9000), (0x20 * 8, 512), (0x24 * 8, 64), (320, 0x800), (352, b), (384, 1), (416, 0xC000)]
def rtv_ (op b : Nat) (w : RtvWork) (l : List (Nat × List Byte) := []) (g : Cmd → Cmd := id) : State :=
  on_ (stageWith_ .rtv (g { cmd_ (rtvDesc_ op b) with work := .rtv w })
    ([(0xC000, leBytes 8 0xD000 ++ List.replicate 20 0 ++ leBytes 4 1), (0xD000, leBytes 4 0x10001 ++ leBytes 4 0x100 ++ leBytes 8 0 ++ leBytes 8 2),
      (0x10000, leBytes 8 0x30000 ++ leBytes 4 1 ++ leBytes 4 2)] ++ l)) fun h => h.setIdx 0 { d0 := idxDesc_ }
def rw_ (sent : Bool) (qs : List RtvQuery := []) : RtvWork := { slot := 0, bank := 0, epoch := 0, counted := true, sent := sent, queries := qs }
def query_ : RtvQuery := { q := List.replicate 32 0x3F800000, zero := false }
theorem test_meets_Searches_finish : ((rtv_ 0x10 0x10001 (rw_ true [query_])).hw.stageHead (stageQ .rtv) 0x10).any (fun c => match c.work with
      | .rtv w => w.sent && (match rtvResults (rtv_ 0x10 0x10001 (rw_ true [query_])).hw (queueMaster (stageQ .rtv)) idxDesc_ (rtvOp c.desc) w w.queries [] with
        | .ok (xs, _) => decide (xs.length = 1) | .error _ => false)
      | _ => false) = true
    ∧ (rtv_ 0x10 0x10001 (rw_ true [query_])).hw.rtvNext (stageQ .rtv) = none ∧ (rtv_ 0x10 0x10001 (rw_ true [query_])).hw.probes = [] := by decide +kernel
theorem test_meets_Searches_begin : ((rtv_ 0x10 0x10001 (rw_ false)).hw.rtvNext (stageQ .rtv)).any (fun (c, w) =>
      decide ((rtv_ 0x10 0x10001 (rw_ false)).hw.stageHead (stageQ .rtv) 0x10 = some c ∧ xGraph ((rtv_ 0x10 0x10001 (rw_ false)).hw.idx w.slot |>.desc w.bank) = false)
        && (match rtvRead (rtv_ 0x10 0x10001 (rw_ false)).hw (stageQ .rtv) c w [] with
          | .ok ((_, _, ps), _) => decide (ps.map (fun p => (p.owner, p.list)) = [(2, 2)]) | .error _ => false)) = true
    ∧ ((on_ (rtv_ 0x10 0x10001 (rw_ false)) fun h => h.setQs (stageQ .rtv) { h.qs (stageQ .rtv) with st := .faultHold }).hw.qs (stageQ .rtv)).st = .faultHold := by
  decide +kernel
/-- A probe result that names no list: the search finishes as it begins. -/
def none_ : State := rtv_ 0x10 0x10001 (rw_ false) [(0xD000, leBytes 4 0x10000)]
theorem test_meets_Searches_empty : (none_.hw.rtvNext (stageQ .rtv)).any (fun (c, w) =>
      let k := none_.hw.rtvBegin (stageQ .rtv) c w
      (k.stageHead (stageQ .rtv) 0x10).any fun c' => match c'.work with | .rtv w' => w'.sent && k.probes.isEmpty | _ => false) = true := by decide +kernel

/-- Two probes of the owner 2 on list 2, pending since time 0; the cache of unit 2 holds the codebooks, or does not. -/
def probe_ (q : Nat) : Probe := { owner := 2, list := 2, queue := stageQ .rtv, ptr := 0, query := q, slot := 0, bank := 0, since := 0 }
def pend_ (cached : Bool) (hold : Bool := false) : State := on_ (rtv_ 0x10 0x10001 (rw_ true [query_, query_]) [(0x10020, leBytes 8 0x30000 ++ leBytes 4 1 ++ leBytes 4 2)]) fun h =>
  let h := { h with probes := [probe_ 0, probe_ 1], time := 0x10000, cbTag := if cached then [(2, ⟨0, 0, leBytes 128 1⟩)] else [] }
  let h := h.setIdx 0 { d0 := if cached then idxDesc_ else idxDesc_.take 32 ++ leBytes 8 0x2000000 ++ idxDesc_.drop 40 }
  if hold then h.setIdx 0 { d0 := idxDesc_.take 16 ++ leBytes 8 0x2000000 ++ idxDesc_.drop 24 } else h
theorem test_meets_ListRead : (pend_ true).hw.batchDue 2 = [probe_ 0, probe_ 1] ∧ (pend_ true).hw.batchDue 1 = []
    ∧ (let mine (h : Hw) : List Probe := h.probes.filter fun x => x.snap.isSome && (h.qs x.queue).st != .faultHold
       let g (s : State) : Hw := [probe_ 0, probe_ 1].foldl Hw.probeBegin s.hw
       (mine (g (pend_ true))).map (·.snap) = [some (0x30000, 1), some (0x30000, 1)] ∧ mine (g (pend_ true true)) = []
         ∧ (((g (pend_ true)).codebooks 2 (probe_ 0)).2).isSome = true ∧ (((g (pend_ false)).codebooks 2 (probe_ 0)).2).isSome = false) := by decide +kernel
theorem test_list_read : seen (.listRead 2) (pend_ true) (fun h => (h.probes.length, h.rd 0x0D1 0x050, h.rd 0x0D1 0x054)) = some (0, 1, 2)
    ∧ seen (.listRead 2) (pend_ true true) (fun h => (h.probes.length, h.rd 0x0D1 0x050)) = some (2, 0) := by decide +kernel

/-- Candidates: ids 7 and 8. -/
theorem test_meets_CandidateLists : let l : List RtvCand := [{ id := 7, score := 0x40000000, attr := 0 }]
    l.length ≤ 1 ∧ (∀ y ∈ l, keyValid false ⟨y.id, y.score⟩ = true)
      ∧ (candKeep false 1 l { id := 8, score := 0x40400000, attr := 0 }).map (·.id) = [8] ∧ (candKeep false 1 l { id := 8, score := 0x3F800000, attr := 0 }).map (·.id) = [7] := by
  decide +kernel

theorem test_meets_Mutations : ∀ x ∈ [(0x11, 1), (0x11, 0), (0x12, 1), (0x12, 0), (0x13, 1), (0x13, 0), (0x15, 0)],
    ((rtv_ x.1 x.2 (rw_ false)).hw.stageHead (stageQ .rtv) x.1).any (fun c => match (rtv_ x.1 x.2 (rw_ false)).hw.source (stageQ .rtv) c 0 (x.2 * rtvItem idxDesc_ x.1) with
      | .ok _ => decide ((rtvOp c.desc).n = x.2) | .error _ => false) = true := by decide +kernel
/-- A compaction of list 0, whose one entry is not deleted, to a region at 0xC000 for one. -/
def compact_ : State := rtv_ 0x14 0 (rw_ false) [(0x30000, leBytes 4 9 ++ leBytes 4 0)]
theorem test_meets_Mutations_compact : (compact_.hw.stageHead (stageQ .rtv) 0x14).any (fun c =>
      decide ((compact_.hw.qs (stageQ .rtv)).cmds.head? = some c ∧ (rtvOp c.desc).n < xCount idxDesc_ ∧ 1 ≤ (rtvOp c.desc).cap)
        && (match rxRead compact_.hw (queueMaster (stageQ .rtv)) 0x10000 16 [], rxRead compact_.hw (queueMaster (stageQ .rtv)) 0x30000 64 [] with
          | .ok (d, _), .ok _ => decide (bnum d 8 4 = 1) | _, _ => false)) = true
    ∧ ((on_ compact_ fun h => h.setQs (stageQ .rtv) { h.qs (stageQ .rtv) with
        cmds := (h.qs (stageQ .rtv)).cmds.map (fun c => { c with finished := true }) ++ (h.qs (stageQ .rtv)).cmds.map fun c => { c with ptr := 1 } }).hw.stageHead
          (stageQ .rtv) 0x14).any (fun c => decide (c.ptr = 1)) = true := by decide +kernel
theorem test_compact : seen (.rtvCompact 0 0) compact_ (fun h => (h.qs (stageQ .rtv)).cmds.map fun c => (c.finished, c.writes.map (·.1), leNat (c.result.take 4)))
    = some [(true, [0xC000, 0x10000, 0x9000], 1)] := by decide +kernel

/-- An item for list 0: entry 7, and the deletion of entry 9 at its place 0. -/
def insert_ : List Byte := leBytes 32 0 ++ leBytes 4 7 ++ leBytes 60 0
def delete_ : List Byte := leBytes 4 0 ++ leBytes 4 0 ++ leBytes 4 9 ++ leBytes 4 0
def full_ : State := on_ compact_ fun h => h.store (memKey 1 0x10008) (leBytes 4 2)
def holds0_ : State := on_ compact_ fun h => h.updCmd (stageQ .rtv) 0 fun c => { c with work := .rtv { rw_ false with holds := some 0 } }
theorem test_meets_MutationCommits : let m := queueMaster (stageQ .rtv)
    bnum insert_ 0 4 < xCount idxDesc_ ∧ compact_.hw.listHeld 0 [0] = false ∧ holds0_.hw.listHeld 0 [0] = true
    ∧ (match insertItem m idxDesc_ 5 { h := compact_.hw, slot := 0 } insert_ with | .ok r => decide (r.applied = 1 ∧ r.writes.map (·.1) = [0x30040, 0x10008]) | .error _ => false) = true
    ∧ (match insertItem m idxDesc_ 5 { h := full_.hw, slot := 0 } insert_ with | .ok r => decide (r.full = 1) | .error _ => false) = true
    ∧ (match deleteItem m idxDesc_ 5 { h := compact_.hw, slot := 0 } delete_ with | .ok r => decide (r.writes = [(0x30008, [6, 0, 0, 0, 1, 0, 0, 0])]) | .error _ => false) = true := by
  decide +kernel
/-- Finished mutations at their commit steps. -/
def rtvDone_ (op n : Nat) (par : List Byte) (ws : List (Nat × List Byte)) (probes : List Probe := []) : State :=
  on_ (rtv_ op n { rw_ false with par := par } [(0x30000, leBytes 4 9 ++ leBytes 4 0)] fun c => { c with finished := true, writes := ws }) fun h => { h with probes := probes }
theorem test_meets_MutationCommits_ends : ∀ x ∈ [(0x10, []), (0x14, []), (0x15, []), (0x14, [{ probe_ 0 with list := 0, snap := some (0x30000, 1) }])],
    (let s := rtvDone_ x.1 0 [] [(0xC000, [1])] x.2
     (s.hw.stageCommitHead (stageQ .rtv)).any fun c => match c.work with
      | .rtv w => decide (c.todo = none ∧ dOpcode c.desc = x.1) && s.hw.ringGate (stageQ .rtv) c && s.hw.creditGate (stageQ .rtv) c
          && s.hw.oldProbes w (rtvOp c.desc).n (rtvOp c.desc).va == !x.2.isEmpty && (Hw.stageWrites (stageQ .rtv) c c.writes s.hw).2.isEmpty
      | _ => false) = true := by decide +kernel
theorem test_meets_MutationCommits_items : ∀ x ∈ [(0x11, insert_, insertItem), (0x12, delete_, deleteItem), (0x13, leBytes 512 0, nodeItem)],
    (let s := rtvDone_ x.1 1 x.2.1 []
     match rtvApply (x.2.2 (queueMaster (stageQ .rtv)) idxDesc_ (s.hw.epoch 0)) (cutItems (rtvItem idxDesc_ x.1) 1 x.2.1) { h := s.hw, slot := 0 } with
      | (r, [], none) => (Hw.stageWrites (stageQ .rtv) (cmd_ 0) [(0x9000, rtvHeader r.applied r.skipped r.full 1)] r.h).2.isEmpty | _ => false) = true := by decide +kernel
theorem test_mutation_commits : seen (.stageCommitStep 0 .rtv 0) (rtvDone_ 0x11 1 insert_ []) (fun h => (h.bytes (memKey 1 0x30040) 8, h.bytes (memKey 1 0x10008) 1, h.bytes (memKey 1 0x9000) 1,
      h.qCommit (stageQ .rtv))) = some ([7, 0, 0, 0, 1, 0, 0, 0], [2], [1], 1)
    ∧ seen (.stageCommitStep 0 .rtv 0) (rtvDone_ 0x15 0 [] []) (fun h => h.epoch 0) = some 1 := by decide +kernel
theorem test_compaction_waits : seen (.stageCommitStep 0 .rtv 0) (rtvDone_ 0x14 0 [] [(0xC000, [1])] [{ probe_ 0 with list := 0, snap := some (0x30000, 1) }])
      (fun h => (((h.qs (stageQ .rtv)).cmds.map fun c => c.todo.isSome), h.bytes (memKey 1 0xC000) 1)) = some ([true], [1]) := by decide +kernel

/-! ### Packer -/

/-- A template of one token of each kind; a result of one candidate; a directory of one passage of two tokens; a parameter block. -/
def tmpl_ (tail : Nat) : List Byte := leBytes 2 1 ++ leBytes 2 tail ++ [1, 1, 1, 0] ++ leBytes 4 99 ++ leBytes 4 0 ++ leBytes 4 11 ++ leBytes 4 12 ++ leBytes 4 13 ++ (if tail = 1 then leBytes 4 14 else [])
def scores_ : List Byte := leBytes 2 1 ++ leBytes 2 1 ++ [0, 1, 0, 0] ++ leBytes 8 0 ++ leBytes 4 0 ++ leBytes 4 0x3F800000
def pckPar_ (pairs : Bool) : List Byte := leBytes 8 0x10000 ++ leBytes 8 0x11000 ++ leBytes 8 0x12000 ++
  (if pairs then leBytes 24 0 ++ leBytes 4 1 ++ leBytes 4 8 ++ leBytes 8 0 else leBytes 8 0x13000 ++ leBytes 8 0x14000 ++ leBytes 8 0x15000 ++ leBytes 4 1 ++ leBytes 4 16 ++ leBytes 4 0 ++ leBytes 4 1)
/-- A Packer command with these fields first and count, or of so many batches, its output at `dst`; the record of its first batch is good or not. -/
def pck_ (pairs : Bool) (nq a b : Nat) (w : Work := .none) (dst : Nat := 0x9000) (good : Bool := true) : State :=
  stageWith_ .pck { cmd_ (desc_ (if pairs then 0x10 else 0x11) [(0x10 * 8, 0x8000), (0x18 * 8, dst), (0x20 * 8, 4), (0x24 * 8, 512),
      (320, if pairs then 5 else 5 + 64 + 2 * 0x1000 + 3 * 0x10000 + 4 * 0x400000), (352, nq), (384, a + b * 0x10000), (416, 0xC000), (480, if pairs then 0 else 1 + 16 * 0x10000)]) with work := w }
    [(0x8000, leBytes 4 55), (0xC000, pckPar_ pairs), (0x10000, leBytes 8 0x16000 ++ leBytes 4 2 ++ leBytes 4 0x10), (0x11000, tmpl_ (if pairs then 0 else 1)),
      (0x12000, scores_), (0x13000, if good then scores_ else []), (0x16000, leBytes 4 21 ++ leBytes 4 22)]
def pkw_ : PckWork :=
  { par := pckPar_ false, tmpl := tmpl_ 1, cand := scores_, total := 1, left := 12, entries := [tokenEntry 11 0 0 0, tokenEntry 55 1 1 0] }
theorem test_meets_PackerCommands : ((pck_ true 0 0 0).hw.stageHead (stageQ .pck) 0x10).any (fun c => decide ((pckOp c.desc).nq = 0 ∧ (pckOp c.desc).b = 0)) = true
    ∧ ((pck_ true 1 0 1).hw.stageHead (stageQ .pck) 0x10).any (fun c => match pckRead (pck_ true 1 0 1).hw (stageQ .pck) c [] with
      | .ok ((par, tmpl, cand, qs), t) => (match pairRows (pck_ true 1 0 1).hw (queueMaster (stageQ .pck)) (pckOp c.desc) par tmpl cand qs 1 0 t with
        | .ok ((rows, _, _, _), _) => decide (rows.length = 8 ∧ rows[4]? = some (tokenEntry 22 4 2 0)) | .error _ => false)
      | .error _ => false) = true
    ∧ ((pck_ false 1 1 1).hw.stageHead (stageQ .pck) 0x11).any (fun c => decide (c.work = .none) && (match pckRead (pck_ false 1 1 1).hw (stageQ .pck) c [] with
      | .ok _ => true | .error _ => false)) = true
    ∧ State.reset.hw.pckStream (stageQ .pck) = none := by decide +kernel
theorem test_pck_prompt : seen (.pckPrompt 0 0) (pck_ false 1 1 1) (fun h => (h.pckStream (stageQ .pck)).map (·.2)) = some (some pkw_) := by decide +kernel
/-- A prompt of `a` batches under way. -/
def prompt_ (a : Nat) (f : PckWork → PckWork) (dst : Nat := 0x9000) (good : Bool := true) : State := pck_ false 1 a 1 (.pck (f pkw_)) dst good
theorem test_meets_PackerCommands_takes : ∀ x ∈ [((1 : Nat), true, none), (2, true, none), (1, false, some cFORMAT)],
    ((prompt_ x.1 (fun w => { w with taken := true }) 0x9000 x.2.1).hw.pckStream (stageQ .pck)).any (fun (c, w) => decide (w.ending = none ∧ w.batch < (pckOp c.desc).a ∧ w.taken = true)
      && (match pckRecord (prompt_ x.1 id 0x9000 x.2.1).hw (queueMaster (stageQ .pck)) (pckOp c.desc) w with
        | (w', _, none) => decide (x.2.2 = none ∧ (w'.batch = (pckOp c.desc).a ↔ x.1 = 1))
        | (_, _, some (.reject e)) => decide (x.2.2 = some e) | _ => false)) = true := by decide +kernel
theorem test_meets_PackerCommands_waits : (∀ s ∈ [prompt_ 1 fun w => { w with ending := some none }, prompt_ 1 fun w => { w with batch := 1 }, prompt_ 1 id],
      (s.hw.pckStream (stageQ .pck)).any (fun (c, w) => decide (w.ending.isSome = true ∨ (pckOp c.desc).a ≤ w.batch
        ∨ (w.taken = false ∧ s.hw.sem (pckOp c.desc).batchCore (pckOp c.desc).batchSem = 0))) = true)
    ∧ (∀ s ∈ [prompt_ 1 fun w => { w with chunks := 1 }, prompt_ 1 id], (s.hw.pckStream (stageQ .pck)).any (fun (c, w) =>
      decide (w.ending = none ∧ (w.total ≤ w.chunks ∨ w.entries.length < (w.chunks + 1) * (pckOp c.desc).chunk))) = true) := by decide +kernel
/-- With its entries complete. -/
def whole_ (a : Nat) (dst : Nat := 0x9000) : State := prompt_ a (fun w => { w with entries := List.replicate 16 7, batch := 1, closed := true, tokens := 9 }) dst
theorem test_meets_PackerCommands_chunks : ∀ x ∈ [((1 : Nat), (0x9000 : Nat)), (2, 0x9000), (1, 0x2000000)],
    ((whole_ x.1 x.2).hw.pckStream (stageQ .pck)).any (fun (c, w) => decide (w.ending = none ∧ w.chunks < w.total ∧ (w.chunks + 1) * (pckOp c.desc).chunk ≤ w.entries.length
        ∧ (w.batch = (pckOp c.desc).a ↔ x.1 = 1) ∧ w.chunks + 1 = w.total)
      && (Hw.stageWrites (stageQ .pck) c [(dDst c.desc + 32, (w.entries.take 16).flatMap (leBytes 8))] (whole_ x.1 x.2).hw).2.isEmpty == decide (x.2 = 0x9000)) = true := by decide +kernel
theorem test_chunk_signal : seen (.chunkSignal 0 0) (whole_ 1) (fun h => (h.bytes (memKey 1 0x9020) 2, h.sem 1 2, (h.qs (stageQ .pck)).cmds.map fun c => (c.finished, leNat (c.result.take 4))))
      = some ([7, 0], 1, [(true, 9)])
    ∧ seen (.batchRecordTake 0 0) (prompt_ 1 fun w => { w with taken := true }) (fun h => (h.rd 0x0C3 0x044, (h.pckStream (stageQ .pck)).map fun x => (x.2.placed, x.2.batch, x.2.tokens)))
      = some (1, some ([(0, 0x3F800000)], 1, 7)) := by decide +kernel

/-! ### Serving -/

/-- A tenant's budget entry: balance, with a cap of 9. -/
def bal_ (n : Nat) : List Byte := leBytes 4 n ++ leBytes 4 0 ++ leBytes 4 9
/-- Group 1, depth 2, the record's interrupt; head core 1, and addresses of a slot. -/
def srvPar_ : List Byte := leBytes 4 0x601 ++ leBytes 4 1 ++ leBytes 4 0 ++ leBytes 4 64 ++ leBytes 8 0x8000 ++ leBytes 8 0 ++ leBytes 8 0xA000 ++ leBytes 8 0x9000
  ++ leBytes 8 0xB000 ++ leBytes 8 0xE000 ++ leBytes 8 0xD000 ++ leBytes 8 0xC000 ++ leBytes 56 0
def slot_ : SrvSlot := { conv := 1, params := srvPar_, paramsVa := 0x7000 }
/-- Serving block 0 with its tables, and conversation 1 in a state. -/
def tables_ (st : Nat) (f : Hw → Hw) : State := at_ fun h =>
  f ((regs_ [(0x0C5, 0x008, 1), (0x0C5, 0x048, 0x40001), (0x0C5, 0x050, 4), (0x0C5, 0x068, 0x50001), (0x0C5, 0x070, 0x60001), (0x0C5, 0x054, 0x70001)] (mapped h)).store
    (memKey 1 0x40040) (leBytes 4 st))
/-- With slot 0 bound to it. -/
def srv_ (st : Nat) (x : SrvSlot) (f : Hw → Hw := id) : State := tables_ st fun h => f (h.setSlot 0 x)
theorem test_meets_Mailbox_writes : Reaches State.reset .portA (srvPage 3) (0x800 + 4 * 255) ∧ State.reset.hw.demand.worked.slot 0 = none
    ∧ (∀ x ∈ [({ slot_ with rel := 1 } : SrvSlot), { slot_ with rel := 1, switch := true }], Reaches (srv_ cvACTIVE x) .portA (srvPage 0) 0x800
      ∧ (srv_ cvACTIVE x).hw.demand.worked.slot 0 = some x
      ∧ (srv_ cvACTIVE x).hw.demand.worked.mboxGood 0 x 7 = true ∧ (srv_ cvACTIVE x).hw.demand.worked.mboxGood 0 x 0x100007 = false) := by
  unfold Reaches Up Clear; decide +kernel
theorem test_meets_Mailbox_resume : ∀ x ∈ [(slot_, false), ({ slot_ with heldW := some 7, switch := true }, false), ({ slot_ with heldW := some 7, switch := true, done := 1, rel := 1 }, true)],
    Reaches (srv_ cvACTIVE x.1) .handler (srvPage 0) 0x088 ∧ (srv_ cvACTIVE x.1).hw.slot (256 * 0 + (srv_ cvACTIVE x.1).hw.rd (srvPage 0) 0x078) = some x.1
      ∧ (srv_ cvACTIVE x.1).hw.drained 0 = x.2 := by
  unfold Reaches Up Clear; decide +kernel
theorem test_meets_Mailbox_choices : (srv_ cvACTIVE slot_).hw.slot 0 = some slot_ ∧ (slot_.launched.find? (·.step = slot_.acc + 1)) = none
    ∧ (∀ x ∈ [({ slot_ with launched := [⟨1, 7, none⟩] } : SrvSlot)], (srv_ cvACTIVE x).hw.slot 0 = some x
      ∧ x.launched.find? (·.step = x.acc + 1) = some ⟨1, 7, none⟩) ∧ (7 : Nat) ≠ 8 := by decide +kernel
theorem test_mailbox : seen (.mbox .portA 0 0 7) (srv_ cvACTIVE { slot_ with rel := 1, done := 1 }) (fun h => ((h.slot 0).map fun x => (x.acc, x.c), h.confirmed 1 1, h.gathers.map (·.token),
      h.rd 0x0C5 0x0A0)) = some (some (1, 1), true, [], 1)
    ∧ seen (.mbox .portA 0 0 0x100007) (srv_ cvACTIVE { slot_ with rel := 1 }) (fun h => (h.rd 0x0C5 0x0AC, h.bit 0x0C5 0x010 9)) = some (1, true)
    ∧ seen (.mbox .portA 0 0 0x40007) (srv_ cvACTIVE { slot_ with rel := 1 }) (fun h => ((h.conv 0 1).state, (h.srvUnit 0).events.length, h.rd 0x0C5 0x064)) = some (cvHALTED, 0, 1) := by
  decide +kernel

/-- GRP_SEL names group 1, bound or not. -/
def groups_ (bound : Bool) : State := at_ fun h =>
  let h := h.wr 0x0C5 0x08C 1
  if bound then h.setGroup 1 { slot := some 0 } else h
theorem test_meets_GroupControl : (∀ s ∈ [State.reset, groups_ true, groups_ false], Reaches s .portA (srvPage 0) 0x098)
    ∧ State.reset.hw.rd (srvPage 0) 0x08C = 0 ∧ (State.reset.hw.group 0).slot.isSome = false ∧ (groups_ true).hw.rd (srvPage 0) 0x08C = 1
    ∧ ((groups_ true).hw.group 1).slot.isSome = true ∧ ((groups_ false).hw.group 1).slot.isSome = false
    ∧ bitOf (2 : Word).toNat 1 = true ∧ bitOf (2 : Word).toNat 0 = false ∧ bitOf (13 : Word).toNat 1 = false ∧ bitOf (13 : Word).toNat 0 = true := by
  unfold Reaches Up Clear; decide +kernel
theorem test_group_control : seen (.groupConfirm .portA 0 0xC) (groups_ false) (fun h => (h.confirmed 1 3, h.rd 0x0C5 0x0A0)) = some (true, 1)
    ∧ goes (.groupReject .portA 0 0xD) (groups_ false) ((groups_ false).hw.badAccess (pageOff 0x0C5 0x098)) = true := by decide +kernel

/-- A finished SELECT of one row for 8 of step 0 of group 1, whose best token is 5. -/
def cand_ : Cmd := { cmd_ (desc_ 0x80 [(24, 1), (384, 8 + 0x10000)]) with finished := true, result := leBytes 2 1 ++ leBytes 14 0 ++ leBytes 4 5 ++ leBytes 4 0 }
def report_ (x : SrvSlot) : State := srv_ cvACTIVE x (holds_ ⟨.core 1, 3⟩ [cand_])
theorem candidate_only (h : Hw) (x : SrvSlot) (y : QId × Cmd) (hc : h.candidates x x.c = [y]) (hr : y.2.reported = false) :
    h.candidate x = some (x.c, y) := by
  simp [Hw.candidate, List.findSome?, hc, hr, Nat.mod_one]
theorem test_meets_Candidates_report : (report_ slot_).hw.enabled (srvPage 0) = true ∧ (report_ slot_).hw.slot 0 = some slot_
    ∧ State.reset.hw.slot 0 = none ∧ (srv_ cvACTIVE slot_).hw.candidate slot_ = none ∧ (report_ slot_).hw.candidate slot_ = some (0, ⟨.core 1, 3⟩, cand_) := by
  refine ⟨by decide +kernel, by decide +kernel, by decide +kernel, by decide +kernel, candidate_only _ _ _ ?_ ?_⟩ <;> decide +kernel
/-- A step committed, whose record is to be released; the result and the trailer. -/
def release_ (st : Nat) (valid : Nat) (trailer : Nat) (dst : Nat := 0xB000) : State :=
  srv_ st { slot_ with done := 1, params := srvPar_.take 48 ++ leBytes 8 dst ++ srvPar_.drop 56 } fun h =>
    (h.store (memKey 1 0x9000) (leBytes 2 valid)).store (memKey 1 0xA00C) (leBytes 4 trailer)
theorem test_meets_Candidates_release : ∀ x ∈ [(cvACTIVE, (1 : Nat), (0 : Nat), (0xB000 : Nat)), (cvHALTED, 1, 0, 0xB000), (cvACTIVE, 1, 8, 0xB000), (cvACTIVE, 0, 0, 0xB000), (cvACTIVE, 1, 0, 0x2000000)],
    (let s := release_ x.1 x.2.1 x.2.2.1 x.2.2.2
     (s.hw.slot 0).any fun y => decide (y.rel < y.done ∧ y.stopped = false ∧ s.hw.isHeld (srvMaster 0) = false ∧ s.hw.pair.outbound = [] ∧ (s.hw.conv 0 y.conv).state = x.1)
       && (match candSources s.hw 0 y [] with
         | .ok ((res, tr), _) => bitOf (bnum tr 12 4) 3 == (x.2.2.1 == 8) && bnum res 0 2 == x.2.1
             && (Hw.srvWrites 0 [(x.2.2.2 + 4, (candRecord s.hw 0 y res tr).drop 4), (x.2.2.2, (candRecord s.hw 0 y res tr).take 4)] (s.hw.seeBudget (s.hw.slotTenant 0 y))).2 == (x.2.2.2 == 0xB000)
         | .error _ => false)) = true := by decide +kernel
theorem test_meets_Candidates_waits : slot_.done ≤ slot_.rel ∧ (srv_ cvACTIVE slot_).hw.slot 0 = some slot_ := by decide +kernel
theorem test_release : seen (.candidateRecordRelease 0 0) (release_ cvACTIVE 1 0) (fun h => ((h.slot 0).map (·.rel), h.bytes (memKey 1 0xB00B) 1, h.bit 0x0C5 0x010 10)) = some (some 1, [0], true)
    ∧ seen (.candidateRecordRelease 0 0) (release_ cvACTIVE 1 8) (fun h => (h.conv 0 1).state) = some cvHALTED := by decide +kernel

/-- Scans that are due, each of a period of one unit. -/
def scans_ (f : Hw → Hw := id) : State := on_ (srv_ cvHELD slot_ f) fun h => { h.wr 0x0C5 0x044 0x10001 with time := 0x100000 }
/-- An event waits, the ring being full or not. -/
def event_ (n : Nat) : State := on_ (srv_ cvACTIVE slot_) fun h => (h.setSrvUnit 0 { events := [leBytes 16 3] }).wr 0x0C5 0x064 n
theorem test_meets_ScansAndEvents : scans_.hw.enabled (srvPage 0) = true ∧ bitsOf (scans_.hw.rd (srvPage 0) 0x044) 31 16 * 0x100000 = 0x100000
    ∧ bitsOf (scans_.hw.rd (srvPage 0) 0x044) 15 0 * 0x100000 = 0x100000 ∧ (scans_.hw.srvUnit 0).lastHold + 0x100000 ≤ scans_.hw.time
    ∧ (scans_.hw.srvUnit 0).lastTtl + 0x100000 ≤ scans_.hw.time ∧ scans_.hw.isHeld (srvMaster 0) = false ∧ ((scans_.hw.qs (stageQ .srv)).cmds.any (·.finished)) = false
    ∧ State.reset.hw.enabled (srvPage 0) = false ∧ (State.reset.hw.srvUnit 0).events = []
    ∧ ((event_ 0).hw.srvUnit 0).events = [leBytes 16 3] ∧ (event_ 0).hw.evtRoom 0 = true ∧ (event_ 16).hw.evtRoom 0 = false := by decide +kernel
theorem test_scans : seen (.holdScan 0) (on_ scans_ fun h => h.store (memKey 1 0x50000) (bal_ 5)) (fun h => ((h.conv 0 1).state, h.confirmed 1 0, (h.srvUnit 0).lastHold)) = some (cvACTIVE, true, 0x100000)
    ∧ seen (.ttlScan 0) (on_ scans_ fun h => h.store (memKey 1 0x40040) (leBytes 4 cvPARKED)) (fun h => ((h.conv 0 1).state, h.rd 0x0C5 0x0B8)) = some (cvEXPIRED, 1)
    ∧ seen (.eventWrite 0) (event_ 0) (fun h => (h.bytes (memKey 1 0x70000) 1, h.rd 0x0C5 0x064)) = some ([3], 1) := by decide +kernel

/-- A serving command on conversation 1, where the conversation is in a state; what it carries. -/
def srvCmd_ (op w0 w2 : Nat) (st : Nat) (g : Cmd → Cmd := id) (f : Hw → Hw := id) : State := tables_ st fun h =>
  f (holds_ (stageQ .srv) [g (cmd_ (desc_ op [(320, w0), (384, w2)]))] ((h.wr 0x0C5 0x008 1).store (memKey 1 0x7000) srvPar_))
theorem test_meets_ServingCommands_admit : (∀ x ∈ [(cvFREE, (0x40001 : Nat), (0 : Nat)), (cvEXPIRED, 1, 0), (cvPARKED, 1, 0), (cvPARKED, 1, 1), (cvACTIVE, 1, 0), (cvFREE, 0x40001, 2)],
      (let s := srvCmd_ 0x10 x.2.1 (if x.2.2 = 2 then 0x7100 else 0x7000) x.1 id fun h => { h.store (memKey 1 0x40050) (leBytes 8 x.2.2) with time := 0 }
       (s.hw.stageHead (stageQ .srv) 0x10).any fun c => decide (s.hw.srvBusy (stageQ .srv) = false ∧ s.hw.isHeld (srvMaster 0) = false ∧ s.hw.ownsConv 1 = true ∧ s.hw.ownsSlot 0 = true
           ∧ (s.hw.conv 0 1).state = x.1 ∧ sConv c.desc = 1 ∧ sFresh c.desc = (x.1 == cvFREE) ∧ (x.2.2 = 0 ↔ (s.hw.conv 0 1).deadline ≤ s.hw.time))
         && (match rxRead s.hw (queueMaster (stageQ .srv)) (sLong c.desc) 128 [] with
           | .ok (p, _) => srvParGood p == (x.2.2 != 2) && s.hw.ownsGroup (pGroup p) && decide (s.hw.slot 0 = none ∧ (s.hw.group (pGroup p)).slot = none) | .error _ => false)) = true) := by
  decide +kernel
theorem test_meets_ServingCommands_leave : (∀ x ∈ [((0x11 : Nat), cvFREE, (0 : Nat)), (0x12, cvFREE, 0), (0x11, cvPARKED, 0), (0x12, cvEXPIRED, 0), (0x11, cvACTIVE, 1), (0x12, cvHALTED, 1), (0x12, cvACTIVE, 2)],
      (let s := srvCmd_ x.1 1 0 x.2.1 id fun h => if x.2.2 = 0 then h else h.setSlot 0 { slot_ with done := x.2.2 - 1 }
       (s.hw.stageHead (stageQ .srv) x.1).any fun c => decide (s.hw.srvBusy (stageQ .srv) = false ∧ s.hw.ownsConv 1 = true ∧ sConv c.desc = 1 ∧ (s.hw.conv 0 1).state = x.2.1
         ∧ s.hw.convSlot 0 1 = (if x.2.2 = 0 then none else some 0) ∧ (x.2.2 ≠ 0 → (s.hw.rejectSpec 0).drained 0 = (x.2.2 == 2)))) = true) := by decide +kernel
theorem test_meets_ServingCommands_tables : (∀ x ∈ [(0x1000, (0 : Nat)), (0x1000, 1), (0, 0)],
      (let s := srvCmd_ 0x13 x.1 0 0 id fun h => h.store (memKey 1 0x60018) (leBytes 8 x.2)
       (s.hw.stageHead (stageQ .srv) 0x13).any fun c => (sFlag c.desc && !(s.hw.adapter (sHandle c.desc)).valid) == decide (x = (0x1000, 0))) = true)
    ∧ (∀ x ∈ [(0, false), (0x80000000, false), (1, true)], (let s := srvCmd_ 0x14 0 x.1 0
       (s.hw.stageHead (stageQ .srv) 0x14).any fun c => decide (0 < signedOf 32 (dword c.desc 2)) == x.2) = true) := by decide +kernel
/-- An executed serving command at its commit step. -/
def srvDone_ (op w0 w2 st : Nat) (f : Hw → Hw := id) : State :=
  srvCmd_ op w0 w2 st (fun c => { c with finished := true, work := .srv (if op = 0x10 then srvPar_ else []) }) f
theorem test_meets_ServingCommands_commit : ∀ x ∈ [((0x10 : Nat), (0x40001 : Nat), cvFREE, (5 : Nat)), (0x10, 0x40001, cvFREE, 0), (0x11, 1, cvPARKED, 0), (0x12, 1, cvPARKED, 0), (0x13, 1, 0, 0), (0x14, 1, 0, 0)],
    (let s := srvDone_ x.1 x.2.1 0x7000 x.2.2.1 fun h => h.store (memKey 1 0x50000) (bal_ x.2.2.2)
     (s.hw.stageCommitHead (stageQ .srv)).any fun c => decide (c.todo = none ∧ 0x10 ≤ dOpcode c.desc ∧ c.writes = [] ∧ s.hw.srvBusy (stageQ .srv) = false
       ∧ s.hw.ringGate (stageQ .srv) c = true ∧ s.hw.creditGate (stageQ .srv) c = true ∧ s.hw.ringGate (stageQ .srv) { c with code := cBUDGET_HELD } = true
       ∧ s.hw.creditGate (stageQ .srv) { c with code := cBUDGET_HELD } = true
       ∧ s.hw.convSlot 0 1 = none ∧ (s.hw.adapter (sHandle c.desc)).prevRefs = 0 ∧ ((s.hw.budget (dTenant c.desc)).balance ≤ 0 ↔ x.2.2.2 = 0))) = true := by decide +kernel
theorem test_admits : seen (.stageCommitStep 0 .srv 0) (srvDone_ 0x10 0x40001 0x7000 cvFREE fun h => h.store (memKey 1 0x50000) (bal_ 5))
      (fun h => ((h.conv 0 1).state, (h.slot 0).isSome, (h.group 1).slot, h.confirmed 1 0, h.rd 0x0C5 0x064)) = some (cvACTIVE, true, some 0, true, 1)
    ∧ seen (.stageCommitStep 0 .srv 0) (srvDone_ 0x10 0x40001 0x7000 cvFREE) (fun h => ((h.conv 0 1).state, (h.group 1).slot, h.rd 0x0C5 0x0B4)) = some (cvHELD, some 0, 1) := by decide +kernel
theorem test_leaves : seen (.stageCommitStep 0 .srv 0) (srvDone_ 0x11 1 9 cvACTIVE fun h => h.setSlot 0 { slot_ with done := 1 }) (fun h => ((h.conv 0 1).state, (h.conv 0 1).deadline, h.slot 0))
      = some (cvPARKED, 9, none)
    ∧ seen (.srvAdmit 0 0) (srvCmd_ 0x10 1 0x7000 cvEXPIRED) (fun h => (h.qs (stageQ .srv)).rejected.map (·.code)) = some (some cTTL_EXPIRED) := by decide +kernel

/-! ### Twin pairing and the Leash -/

/-- Pairing enabled, of role 1 or 0, with both twin ports up and the pair logic as given. -/
def pair_ (st : Nat) (f : Pair → Pair := id) (role : Nat := 0) (g : Hw → Hw := id) : State := at_ fun h =>
  let h := (mapped h).wr 0x012 0x100 (1 + 2 * role)
  let port : LeashPort := { up := true, trained := true, lanes := 0xFF }
  g { h with ports := [port, port, {}, {}], pair := f { h.pair with state := st, downSince := none } }
def packet_ (n : Nat) (complete : Bool) : MirrorPacket := ⟨n, some 3, [(0x2000, [7])], [(0, [1])], [], complete⟩
theorem test_meets_MirrorPackets : Up (pair_ psPAIRED) ∧ State.reset.hw.pairOn = false
    ∧ ((pair_ psPAIRED).hw.pairOn = true ∧ (pair_ psPAIRED).hw.watching = true ∧ ((pair_ psPAIRED).hw.port 1).up = true)
    ∧ (pair_ psPAIRED).hw.logBytes < (packet_ 0x4000001 true).size ∧ (packet_ 0x4000000 true).size ≤ (pair_ psPAIRED).hw.logBytes
    ∧ (packet_ 64 false).complete = false := by unfold Up; decide +kernel
theorem test_meets_MirrorPackets_ack : (State.reset.hw.pair.outbound.find? fun o => o.port = 0) = none
    ∧ ∀ q ∈ [none, some coreQ], ((pair_ psPAIRED fun x => { x with outbound := [⟨1, q, 0, 0, packet_ 64 true⟩] }).hw.pair.outbound.find? fun o => o.port = 1)
      = some ⟨1, q, 0, 0, packet_ 64 true⟩ := by decide +kernel
theorem test_mirror_ack : seen (.mirrorAck 1) (pair_ psPAIRED (fun x => { x with outbound := [⟨1, some coreQ, 0, 0, packet_ 64 true⟩] }) 0 fun h =>
      h.setQs coreQ { owed := [⟨[1], true, true, true, true, false⟩] }) (fun h => (h.pair.outbound, h.pair.logRoom, h.rd 0x012 0x13C)) = some ([], 64, 1) := by decide +kernel

/-- A silence of a second, and no link for as long. -/
def silent_ (down : Option Nat) (up : Bool) : State := pair_ psPAIRED (fun x => { x with downSince := down, lastSent := 900000000 }) 0 fun h =>
  { h with time := 1000000000, ports := if up then h.ports else [] }
theorem test_meets_LossOfTheTwin : let c := (silent_ none true).hw.rd 0x012 0x108
    let period := 1000 * bitsOf c 7 0
    (silent_ none true).hw.pairOn = true ∧ (silent_ none true).hw.pair.lastSent + period ≤ 1000000000
    ∧ ((silent_ none true).hw.port 0).trained = true ∧ ((silent_ none false).hw.port 0).trained = false ∧ (silent_ none true).hw.pair.lastHb + period * bitsOf c 11 8 ≤ 1000000000
    ∧ 0 < period * bitsOf c 11 8 ∧ 0 + 1000 * bitsOf c 31 16 ≤ 1000000000 ∧ 1000000000 < 999999999 + 1000 * bitsOf c 31 16
    ∧ (pair_ psLOST).hw.pair.state = psLOST ∧ (silent_ none true).hw.pair.state ≠ psLOST ∧ (silent_ (some 0) true).hw.pair.downSince = some 0 := by decide +kernel
theorem test_meets_LossOfTheTwin_heartbeats : ((pair_ psPAIRED).hw.port 1).up = true ∧ State.reset.hw.pairOn = false ∧ (pair_ psPAIRED).hw.pairOn = true
    ∧ (pair_ psPAIRED).hw.pair.state = psPAIRED ∧ ((5 : Fin 8).val = psLOST ∨ (5 : Fin 8).val = psADOPTING ∨ (5 : Fin 8).val = psFULL)
    ∧ ¬ ((2 : Fin 8).val = psLOST ∨ (2 : Fin 8).val = psADOPTING ∨ (2 : Fin 8).val = psFULL)
    ∧ (∀ st ∈ [psUNPAIRED, psFENCED], (pair_ st fun x => { x with twinReady := true }).hw.pair.state = st
      ∧ (pair_ st fun x => { x with twinReady := true }).hw.pair.twinReady = true) ∧ (6 : Fin 8).val = psRESYNC := by decide +kernel
theorem test_meets_LossOfTheTwin_declared : State.reset.hw.watching = false ∧ (pair_ psJOINING).hw.pairOn = true ∧ (pair_ psJOINING).hw.pair.state = psJOINING
    ∧ (pair_ psPAIRED).hw.pair.state = psPAIRED := by decide +kernel
theorem test_loss : seen .heartbeatTimeout (silent_ none true) (fun h => (h.pair.state, h.pair.cause, h.rd 0x012 0x130, h.bit 0x012 0x010 3)) = some (psLOST, 1, 1000000000, true) := by decide +kernel

theorem test_meets_AdoptionAndResync : (pair_ psPAIRED).hw.pair.state ≠ psADOPTING ∧ (pair_ psADOPTING).hw.pair.state = psADOPTING ∧ (pair_ psJOINING).hw.pair.state = psJOINING
    ∧ ((pair_ psRESYNC).hw.pair.state = psRESYNC ∧ (pair_ psRESYNC).hw.pair.toCopy = [] ∧ (pair_ psRESYNC).hw.pair.listLeft = 0)
    ∧ (pair_ psRESYNC fun x => { x with listLeft := 1 }).hw.pair.listLeft ≠ 0 := by decide +kernel

theorem test_meets_PairControl : (∀ s ∈ [State.reset, pair_ psPAIRED], Reaches s .portA 0x012 0x100) ∧ bitOf (pair_ psPAIRED).hw.pairCtl 0 = true
    ∧ bitsOf (3 : Word).toNat 5 1 ≠ bitsOf (pair_ psPAIRED).hw.pairCtl 5 1 ∧ bitsOf (1 : Word).toNat 5 1 = bitsOf (pair_ psPAIRED).hw.pairCtl 5 1
    ∧ bitsOf (1 : Word).toNat 12 8 = 0 ∧ bitOf (1 : Word).toNat 0 = bitOf (pair_ psPAIRED).hw.pairCtl 0
    ∧ bitOf State.reset.hw.pairCtl 0 = false ∧ bitOf (1 : Word).toNat 0 = true
    ∧ bitsOf (0 : Word).toNat 5 1 = bitsOf (pair_ psPAIRED).hw.pairCtl 5 1 ∧ bitOf (0 : Word).toNat 0 = false := by unfold Reaches Up Clear; decide +kernel
/-- A slot of the twin is bound. -/
def twinBusy_ : State := pair_ psPAIRED (fun x => { x with fullOwner := true }) 0 fun h => h.setSlot 128 { conv := 0, params := [], paramsVa := 0 }
theorem test_meets_PairControl_acts : (pair_ psFULL).hw.pair.state = psFULL ∧ (pair_ psPAIRED).hw.pair.state = psPAIRED
    ∧ (pair_ psPAIRED fun x => { x with fullOwner := true }).hw.twinIdle = true ∧ twinBusy_.hw.twinIdle = false ∧ twinBusy_.hw.pair.fullOwner = true
    ∧ (let x := (pair_ psLOST fun x => { x with settled := true, adoptAsked := true }).hw.pair
       x.state = psLOST ∧ x.settled = true ∧ x.adoptRefused = false ∧ x.adoptAsked = true)
    ∧ (pair_ psFULL fun x => { x with twinReady := true }).hw.pair.twinReady = true := by decide +kernel
theorem test_pair_control : seen (.pairEnable .portA 1) State.reset (fun h => (h.pairCtl, h.pair.state)) = some (1, psUNPAIRED)
    ∧ seen (.handback .portA 1) twinBusy_ (fun h => (h.pair.fullOwner, h.pair.handbackRefused)) = some (true, true) := by decide +kernel

/-- Port 3 in a state; a hello of module 1 from its port 3. -/
def cable_ (l : LeashPort) : State := at_ fun h => { h with ports := [l, l, l, l] }
def hello_ (port : Fin 4) (role : Bool) : HelloMsg := ⟨0x1234, 1, role, 0, 0, 0, 0, port⟩
theorem test_meets_LeashPorts : (cable_ { trained := true }).hw.port 3 = { trained := true } ∧ lanesMake 0x0E = false ∧ ((cable_ {}).hw.port 3).trained = false
    ∧ lanesMake 0x0F = true ∧ lanesMake 0xFF = true ∧ lanesMake 0xFE = true ∧ 3 < (cable_ {}).hw.ports.length ∧ Reaches (cable_ {}) .portB (0x012 + 3) 0x040
    ∧ ((cable_ { training := true }).hw.port 3).training = true ∧ ((cable_ {}).hw.port 3).training = false
    ∧ (cable_ { up := true }).hw.port 3 = { up := true } ∧ ((cable_ {}).hw.port 3).up = false := by unfold Reaches Up Clear; decide +kernel
theorem test_meets_LeashPorts_hello : let s := cable_ { trained := true }
    (s.hw.peerOf 0).any (fun (m, q) => decide (m = 1 ∧ q = 0)) = true ∧ (s.hw.peerOf 3).isNone = true ∧ (hello_ 1 true).port.val ≠ 0 ∧ s.hw.pairOn = false
    ∧ (pair_ psUNPAIRED).hw.pairOn = true ∧ ((pair_ psUNPAIRED).hw.port 0).trained = true ∧ ((pair_ psUNPAIRED).hw.peerOf 0).any (fun (_, q) => decide (q = 0)) = true
    ∧ ((on_ s fun h => h.wr 0x012 0x100 0x10).hw.peerOf 3) = some (2, 2) := by decide +kernel
theorem test_links : seen (.linkTrained 3 0x3F) (cable_ {}) (fun h => ((h.port 3).up, (h.port 3).lanes, h.bit 0x015 0x010 0)) = some (true, 0x0F, true)
    ∧ seen (.hello 3 (hello_ 2 false)) (cable_ { trained := true }) (fun h => ((h.port 3).up, h.rd 0x015 0x048)) = some (false, 0x1234)
    ∧ seen (.hello 0 (hello_ 0 true)) (cable_ { trained := true }) (fun h => ((h.port 0).up, (h.port 0).peer)) = some (true, 1)
    ∧ seen (.linkRetrain 3 none 0) (cable_ { trained := true, up := true }) (fun h => ((h.port 3).trained, (h.port 3).training, h.rd 0x015 0x05C)) = some (false, true, 1)
    ∧ seen (.retryRequest 3 7) (cable_ { up := true, replay := [(6, 1), (7, 1)] }) (fun h => (h.port 3).replay) = some [(7, 1)] := by decide +kernel

theorem crc64_zeros (n : Nat) : crc64 (List.replicate n 0) = 0 := by
  have h0 : crc64Byte 0 0 = 0 := by decide
  have : (List.replicate n (0 : Byte)).foldl crc64Byte 0 = 0 := by
    induction n with
    | zero => rfl
    | succ n ih => rw [List.replicate_succ, List.foldl_cons, h0, ih]
  rw [crc64, this]; rfl
/-- Two corrected flits of zeros, the second with a wrong check. -/
theorem test_meets_LeashTraffic_flits : ((cable_ { up := true }).hw.port 3).up = true ∧ ((cable_ {}).hw.port 3).up = false ∧ (List.replicate 256 (0 : Byte)).length = 256
    ∧ crc64 ((List.replicate 240 0).take 232) = bnum (List.replicate 240 0) 232 8
    ∧ crc64 ((List.replicate 232 0 ++ leBytes 8 1).take 232) ≠ bnum (List.replicate 232 0 ++ leBytes 8 1) 232 8 := by
  refine ⟨by decide +kernel, by decide +kernel, by decide +kernel, ?_, ?_⟩
  · rw [List.take_replicate, crc64_zeros]; decide +kernel
  · rw [List.take_left' List.length_replicate, crc64_zeros]; decide +kernel
/-- Port 3 reaches memory, the page at 0x2000000 moving, with what else is so. -/
def remote_ (f : Hw → Hw := id) : State := at_ fun h =>
  let l : LeashPort := { up := true }
  f { mapped h with ports := [l, l, l, l], mmu := { (mapped h).mmu with tlb := (mapped h).mmu.tlb ++ (List.range 4).map fun m => ⟨m, 0x200, true, 0x2000017⟩ } }
theorem test_meets_LeashTraffic_remote : ((cable_ {}).hw.port 3).up = false ∧ (remote_.hw.port 3).up = true
    ∧ (remote_ fun h => { h with mmu := { h.mmu with held := [⟨0, 6, 3, []⟩] } }).hw.isHeld (leashMaster 3) = true
    ∧ ((remote_ fun h => { h with leashQ := [(3, .read 0 1)] }).hw.leashQ.any fun y => y.1 == 3) = true
    ∧ (remote_.hw.isHeld (leashMaster 3) = false ∧ (remote_.hw.leashQ.any fun y => y.1 == 3) = false)
    ∧ (match (remote_.hw.demandFor (leashMaster 3) 0x2000 1).place (leashMaster 3) 0x2000 [5] with | .ok _ => true | .error _ => false) = true
    ∧ (match (remote_.hw.demandFor (leashMaster 3) 0x6000000 1).place (leashMaster 3) 0x6000000 [5] with | .error (.fault _ _ _) => true | _ => false) = true
    ∧ (match (remote_.hw.demandFor (leashMaster 3) 0x2000000 1).place (leashMaster 3) 0x2000000 [5] with | .error .wait => true | _ => false) = true
    ∧ (match (remote_.hw.demandFor (leashMaster 3) 0x2000 2).read (leashMaster 3) 0x2000 2 with | .ok _ => true | .error _ => false) = true
    ∧ (match (remote_.hw.demandFor (leashMaster 3) 0x6000000 2).read (leashMaster 3) 0x6000000 2 with | .error (.fault _ _ _) => true | _ => false) = true
    ∧ (match ((on_ remote_ fun h => { h with poison := [memKey 1 0x2000] }).hw.demandFor (leashMaster 3) 0x2000 2).read (leashMaster 3) 0x2000 2 with | .error (.ecc _ _) => true | _ => false) = true := by
  decide +kernel
/-- Slice 0 does not translate. -/
def sleeping_ : State := on_ remote_ fun h => regs_ [(0x020, 0x008, 0), (0x021, 0x008, 0), (0x022, 0x008, 0), (0x023, 0x008, 0)] h
theorem test_meets_LeashTraffic_waits : (match (sleeping_.hw.demandFor (leashMaster 3) 0x2000 2).read (leashMaster 3) 0x2000 2 with | .error .wait => true | _ => false) = true := by
  decide +kernel
theorem test_remote : seen (.remoteAccess 3 true 0x2000 0 [5, 6]) remote_ (fun h => (h.bytes (memKey 1 0x2000) 2, h.leashQ)) = some ([5, 6], [])
    ∧ seen (.remoteAccess 3 true 0x6000000 0 [5, 6]) remote_ (fun h => (h.leashQ.length, h.isHeld (leashMaster 3))) = some (1, true) := by decide +kernel

/-- Module 2's port 2, towards its parent, up or not. -/
def time_ (up synced : Bool) : State := at_ fun h =>
  let h := h.wr 0x012 0x100 0x15
  { h with ports := [{}, {}, { up := up }, {}], time := 5000000, pair := { h.pair with synced := synced, lastSync := 0 } }
theorem test_meets_LeashTraffic_time : ((time_ false true).hw.port 2).up = false ∧ ((time_ true false).hw.port 2).up = true ∧ (time_ true false).hw.parentPort 2 = true
    ∧ State.reset.hw.parentPort 2 = false ∧ (time_ true false).hw.pair.synced = false
    ∧ (on_ (time_ true true) fun h => { h with time := 0 }).hw.time < (time_ true true).hw.pair.lastSync + 2 ^ (time_ true true).hw.rd 0x012 0x148
    ∧ (time_ true true).hw.pair.lastSync + 2 ^ (time_ true true).hw.rd 0x012 0x148 ≤ (time_ true true).hw.time
    ∧ halfOf ((4000010 : DWord) - 0).toInt 0 = 2000005 ∧ halfOf (((10 : DWord) - 0).toInt - ((4 : DWord) - 0).toInt) 0 = 3 := by decide +kernel
theorem test_time_sync : seen (.timeSync 2 0 4000000 0 0) (time_ true false) (fun h => (h.time, h.pair.slew)) = some (7000000, 0)
    ∧ seen (.timeSync 2 0 4000000 0 0) (time_ true true) (fun h => (h.time, h.pair.slew)) = some (5000000, 2000000) := by decide +kernel

/-! ### Host interface -/

/-- Port A in a state, in a power state. -/
def host_ (f : PciePort → PciePort := id) (pow : Nat := 0) (g : Hw → Hw := id) : State := at_ fun h =>
  g (((mapped h).setPcie .a fun x => f { x with up := true, ready := true, memSpace := true, busMaster := true, msixOn := true }).setPow fun w => { w with state := pow })
theorem test_meets_PortsAndConfiguration_links : (host_.hw.pcie .a).up = true ∧ (State.reset.hw.pcie .a).up = false ∧ (1 : Fin 6).val ≠ 0 ∧ (16 : Fin 17).val = 16
    ∧ State.reset.hw.pcieBif = false := by decide +kernel
theorem test_meets_PortsAndConfiguration_requests : ((host_ id 3).hw.pcie .a).up = true ∧ 3 ≤ (host_ id 3).hw.pow.state ∧ host_.hw.pow.state < 3
    ∧ ((host_ fun x => { x with ready := false }).hw.pcie .a).ready = false ∧ (host_.hw.pcie .a).ready = true ∧ 28 ≤ (host_.hw.pcie .a).bar2 := by decide +kernel
theorem test_meets_PortsAndConfiguration_vectors : ∃ off ∈ [msixTable + 12, msixTable + 28, msixTable + 44],
    off ≠ Config.capOff 4 + 4 ∧ off ≠ Config.capOff 4 + 8 ∧ msixTable ≤ off ∧ off < msixTable + 0x1000 ∧ off % 16 = 12 := by
  generalize Config.capOff 4 = c
  by_cases h1 : c = msixTable + 8 <;> by_cases h2 : c = msixTable + 4
  · omega
  · exact ⟨msixTable + 28, by simp, by simp [h1], by simp [h1], by decide, by decide, by decide⟩
  · exact ⟨msixTable + 28, by simp, by simp [h2], by simp [h2], by decide, by decide, by decide⟩
  · exact ⟨msixTable + 12, by simp, by omega, by omega, by decide, by decide, by decide⟩
theorem test_meets_PortsAndConfiguration_messages : ∀ x ∈ [(true, false), (false, false), (false, true)],
    (let p := (host_ fun p => { p with waiting := [7], msixFnMask := x.1, vecMask := if x.2 then BitVec.allOnes 256 else 0 }).hw.pcie .a
     7 ∈ p.waiting ∧ p.msixOn = true ∧ p.busMaster = true ∧ p.up = true ∧ (p.msixFnMask || p.vecMask.getLsbD 7) = (x.1 || x.2)) := by decide +kernel
theorem test_ports : seen (.portReset .a) host_ (fun h => (h.pcieA.up, h.rd 0x010 0x07C, h.bit 0x010 0x010 1)) = some (false, 1, true)
    ∧ seen (.pcieLinkUp .b 4 8) State.reset (fun h => (h.pcieB.up, h.pcieB.width)) = some (true, 8)
    ∧ seen (.configRequest .a false 0 0) host_ (·.out) = some [.cfgReply .a (some 0x92602A5D)]
    ∧ seen (.configRequest .a false 0 0) (host_ id 3) (·.out) = some [.cfgReply .a none]
    ∧ seen (.msixSend .a 7) (host_ fun p => { p with waiting := [7], vecMask := 0 }) (·.out) = some [.msix .a 7] := by decide +kernel

theorem test_meets_ApertureAndReads_turned : (State.reset.hw.pcie .a).up = false ∧ ((host_ fun x => { x with memSpace := false }).hw.pcie .a).memSpace = false
    ∧ (host_.hw.pcie .a).bar2 = 28 ∧ 2 ^ 28 < 2 ^ 28 - 1 + 2
    ∧ 2 ^ 52 < (on_ host_ fun h => h.wr 0x010 0x048 0x100000).hw.aperVa .a 0 + 2
    ∧ (on_ host_ fun h => { h with portQ := [(.a, .mem (.write 0 [1] false))] }).hw.portHeld .portA = true ∧ host_.hw.portHeld .portA = false := by decide +kernel
/-- The page at 0x2000000 is moving, and window 15 stands at 0x4000000. -/
def aper_ : State := on_ host_ fun h =>
  { regs_ [(0x012, 0x3E0, 0x4000000), (0x012, 0x3F0, 1 + 2 + 12 * 16)] h with mmu := { h.mmu with tlb := h.mmu.tlb ++ (List.range 4).map fun m => ⟨m, 0x200, true, 0x2000017⟩ } }
theorem test_meets_ApertureAndReads_writes : aper_.hw.windowOf 0x4000000 = some 15 ∧ (∀ va ∈ [0x2000, 0x2000000, 0x6000000], aper_.hw.windowOf va = none)
    ∧ (match (aper_.hw.demandFor (apertureMaster .a) 0x2000 1).place (apertureMaster .a) 0x2000 [5] with | .ok _ => true | .error _ => false) = true
    ∧ (match (aper_.hw.demandFor (apertureMaster .a) 0x2000000 1).place (apertureMaster .a) 0x2000000 [5] with | .error .wait => true | _ => false) = true
    ∧ (match (aper_.hw.demandFor (apertureMaster .a) 0x6000000 1).place (apertureMaster .a) 0x6000000 [5] with | .error (.fault _ _ _) => true | _ => false) = true := by
  decide +kernel
theorem test_meets_ApertureAndReads_reads : (match (aper_.hw.demandFor (apertureMaster .a) 0x2000 2).read (apertureMaster .a) 0x2000 2 with | .ok _ => true | .error _ => false) = true
    ∧ (let h := (on_ aper_ fun h => regs_ [(0x020, 0x008, 0)] h).hw.demandFor (apertureMaster .a) 0x2000 2
       match h.read (apertureMaster .a) 0x2000 2 with | .error .wait => true | _ => false) = true
    ∧ (let h := (on_ aper_ fun h => { h with poison := [memKey 1 0x2000] }).hw.demandFor (apertureMaster .a) 0x2000 2
       (match h.read (apertureMaster .a) 0x2000 2 with | .error (.ecc _ _) => true | _ => false)
         && (match h.spot (apertureMaster .a) 0x2000 2 with | .ok _ => true | .error _ => false)) = true
    ∧ (let h := aper_.hw.demandFor (apertureMaster .a) 0x6000000 2
       (match h.read (apertureMaster .a) 0x6000000 2 with | .error e => decide (e ≠ .wait) | .ok _ => false)
         && (match h.spot (apertureMaster .a) 0x6000000 2 with | .error (.fault _ _ _) => true | _ => false)) = true := by decide +kernel
theorem test_aperture : seen (.apertureAccess .a true 0x2000 0 [5, 6] false) aper_ (fun h => h.bytes (memKey 1 0x2000) 2) = some [5, 6]
    ∧ seen (.apertureAccess .a true 0x2000000 0 [5] false) aper_ (fun h => h.portQ.length) = some 1
    ∧ seen (.apertureAccess .a false 0x6000000 2 [] false) aper_ (·.out) = some [.aperReply .a none false] := by decide +kernel
/-- A read of 64 bytes for a channel is outstanding. -/
def read_ : OutRead := ⟨3, .dmaLine 31 0 0, 64⟩
theorem test_meets_ApertureAndReads_completions : ((host_ fun x => { x with reads := [read_] }).hw.pcie .a).reads.find? (·.tag = 3) = some read_
    ∧ (host_.hw.pcie .a).reads.find? (·.tag = 3) = none := by decide +kernel
theorem test_completions : seen (.completionReceived .a 3 true [1]) (host_ fun x => { x with reads := [read_] }) (fun h => (h.pcieA.reads, h.rd 0x010 0x054)) = some ([], 64)
    ∧ seen (.completionReceived .a 3 true [1]) host_ (fun h => (h.rd 0x010 0x074, h.bit 0x010 0x010 3)) = some (1, true)
    ∧ seen (.completionReceived .a 3 false [1]) (host_ fun x => { x with reads := [read_] }) (fun h => (h.pcieA.reads, h.rd 0x010 0x064)) = some ([], 1)
    ∧ seen (.correctableLinkError .b 15) State.reset (fun h => smGet 0 (0x5E0 + 4 * 31) h.life.counts) = some 1 := by decide +kernel

/-! ### Interrupts, tracing, counters and the lifetime log -/

theorem test_meets_InterruptController : State.reset.hw.pow.state < 2 ∧ (127 : Nat) < 128
    ∧ (at_ (regs_ [(0x004, 0x05C, 0xFFFFFFFF)])).hw.bit 0x004 (0x050 + 4 * (127 / 32)) (127 % 32) = true
    ∧ 2 ≤ (host_ id 2).hw.pow.state ∧ (∀ o ∈ [0x040, 0x04C, 0x07C, 0x070], Reaches State.reset .portA 0x004 o)
    ∧ bitsOf (119 : Word).toNat 6 0 = 119 ∧ bitsOf (120 : Word).toNat 6 0 = 120 := by unfold Reaches Up Clear; decide +kernel
/-- Source 119 is pending and goes to summary 5, whose destination is given. -/
def irq_ (dest : Nat) (out : Nat := 0) : State := at_ (regs_ [(0x004, 0x04C, 0x800000), (0x004, 0x05C, 0), (0x004, 0x0F4, 0x05000000), (0x004, 0x100, dest * 0x400), (0x004, 0x074, out)])
theorem test_meets_InterruptController_messages : (∀ d ∈ [1, 2, 3], (irq_ d).hw.sumDue 5 = true ∧ (irq_ d).hw.sumNext ((irq_ d).hw.sumDest 5) = some 5 ∧ (irq_ d).hw.sumDest 5 = d)
    ∧ (irq_ 1).hw.sumDue 4 = false ∧ (irq_ 1).hw.sumActive 4 = false ∧ (irq_ 1).hw.sumActive 5 = true := by decide +kernel
theorem test_interrupts : seen (.swTrig .portA 119) State.reset (fun h => (h.rd 0x004 0x04C, h.rd 0x004 0x2EC)) = some (0x800000, 0x10000)
    ∧ seen (.summaryMessage 5) (irq_ 2) (fun h => (h.sumOut 5, h.pcieB.waiting)) = some (true, [5])
    ∧ seen (.sumAck .portA 0x20) (irq_ 1 0x20) (fun h => (h.sumOut 5, h.pcieA.waiting)) = some (true, [5])
    ∧ seen (.registerWrite .portA 0x00404C 4 0) (irq_ 1) (fun h => (h.sumActive 5, h.rd 0x004 0x2EC)) = some (false, 0) := by decide +kernel

theorem test_meets_CountersAndTrail : Reaches State.reset .portB 0x009 0x040 ∧ Reaches State.reset .portB 0x009 0x060 ∧ State.reset.hw.counted 443 = true ∧ State.reset.hw.counted 444 = false := by
  unfold Reaches Up Clear; decide +kernel
/-- A period of 2 µs has passed. -/
def snaps_ (n : Nat) : State := at_ fun h => { regs_ [(0x008, 0x048, n), (0x008, 0x04C, 0x10000)] h with time := 5000, trc := { h.trc with counters := [(0, 9)] } }
/-- Two records wait; the port is on, or not. -/
def trail_ (on : Nat) : State := at_ fun h => { h.wr 0x008 0x040 on with trc := { h.trc with fifo := [[1], [2]], lane := 3 } }
theorem test_meets_CountersAndTrail_records : (snaps_ 0).hw.rd 0x008 0x048 % 0x10000 = 0 ∧ (snaps_ 2).hw.trc.snapAt + 1000 * 2 ≤ (snaps_ 2).hw.time
    ∧ (snaps_ 6).hw.time < (snaps_ 6).hw.trc.snapAt + 1000 * 6 ∧ ((trail_ 1).hw.bit 0x008 0x040 0 && !(trail_ 1).hw.trc.off) = true
    ∧ ((trail_ 0).hw.bit 0x008 0x040 0 && !(trail_ 0).hw.trc.off) = false ∧ (trail_ 1).hw.trc.fifo = [[1], [2]] := by decide +kernel
theorem test_trail : seen .trailRecordSend (trail_ 1) (fun h => (h.trc.fifo, h.trc.lane, h.out, h.rd 0x008 0x050)) = some ([[2]], 0, [.trail 3 [1]], 1)
    ∧ seen .snap (snaps_ 2) (fun h => h.trc.snapAt) = some 4000
    ∧ seen (.engSel .portB 0x0000) (snaps_ 2) (fun h => (h.rd 0x009 0x048 (reqBank .portB), h.rd 0x009 0x048 (reqBank .portA))) = some (9, 0) := by decide +kernel

/-- The firmware runs, and ten minutes have passed. -/
def life_ (t : Nat) : State := at_ fun h => { h.wr 0x003 0x048 1 with time := t }
theorem test_meets_LifetimeLog : Reaches State.reset .handler 0x006 0x040 ∧ (Config.flashFails 0 = true ∨ Config.flashFails 0 = false)
    ∧ (life_ 600000000000).hw.firmware = true ∧ (life_ 600000000000).hw.life.periodAt + (life_ 600000000000).hw.lifePeriod * 1000000000 ≤ (life_ 600000000000).hw.time
    ∧ ¬ ((life_ 599999999999).hw.life.periodAt + (life_ 599999999999).hw.lifePeriod * 1000000000 ≤ (life_ 599999999999).hw.time)
    ∧ (life_ 999999999).hw.time < (life_ 999999999).hw.life.sampleAt + 1000000000 ∧ (life_ 1000000000).hw.life.sampleAt + 1000000000 ≤ (life_ 1000000000).hw.time := by
  refine ⟨by unfold Reaches Up Clear; decide +kernel, by cases Config.flashFails 0 <;> simp, ?_⟩; decide +kernel
theorem test_life : seen (.lifetimeSample 24) (life_ 1000000000) (fun h => (h.life.seconds, smGet 0 (0x080 + 4 * 8) h.life.counts)) = some (1, 1)
    ∧ seen (.inputPowerSample 0x12345) State.reset (fun h => h.rd 0x001 0x050) = some 0xFFFFFFFF := by decide +kernel

/-! ### Power -/

/-- In a power state, with registers and what else is so. -/
def pow_ (st : Nat) (l : List (Nat × Nat × Nat) := []) (f : Power → Power := id) (t : Nat := 0) : State := at_ fun h =>
  { (regs_ l (h.setPow fun w => { f w with state := st })) with time := t }
/-- All three votes are for a state, and a long quiet lies behind. -/
def voted_ (n st : Nat) : State := on_ (pow_ st [] id 1000000000) fun h => ((h.wr 0x001 0x044 n 0).wr 0x001 0x044 n 1).wr 0x001 0x044 n 2
theorem test_meets_PowerStates : (voted_ 1 0).hw.pow.entryEnd ≤ (voted_ 1 0).hw.time ∧ (voted_ 1 0).hw.pow.state < (voted_ 1 0).hw.target
    ∧ (voted_ 1 0).hw.blockedFor 1 = 0 ∧ (voted_ 0 0).hw.target = 0 ∧ (∀ r ∈ [Req.handler, .portA, .portB], Reaches (voted_ 2 2) r 0x001 0x044)
    ∧ ((voted_ 2 2).hw.wr 0x001 0x044 ((1 : Word).toNat % 8) (reqBank .portB)).target < 2 ∧ 2 ≤ ((voted_ 2 2).hw.wr 0x001 0x044 ((4 : Word).toNat % 8) (reqBank .portB)).target := by
  unfold Reaches Up Clear; decide +kernel
theorem test_meets_PowerStates_wake : (pow_ 0).hw.wakes 1 = false ∧ (pow_ 4).hw.wakes 1 = true ∧ (pow_ 4).hw.pow.state ≠ 0 ∧ (pow_ 4).hw.pow.entryEnd ≤ (pow_ 4).hw.time
    ∧ (pow_ 4 [] fun w => { w with entryEnd := 9 }).hw.time < (pow_ 4 [] fun w => { w with entryEnd := 9 }).hw.pow.entryEnd
    ∧ (pow_ 4 [] fun w => { w with entryEnd := 9 }).hw.pow.latched = none
    ∧ (3 ≤ (pow_ 3 [] fun w => { w with mba := 0x77 }).hw.pow.state ∧ (0x77 : BitVec 7).toNat = 0x77 ∧ 0x77 < 0x78)
    ∧ ¬ ((0x78 : BitVec 7).toNat < 0x78) := by decide +kernel
theorem test_power_states : seen .powerStateEntry (voted_ 1 0) (fun h => (h.pow.state, h.pow.entryEnd)) = some (1, 1000001000)
    ∧ seen (.wake 1) (pow_ 4) (fun h => (h.pow.state, h.rd 0x001 0x0A8)) = some (0, 0x41)
    ∧ seen (.managementAddressMatch 0x77) (pow_ 3 [] fun w => { w with mba := 0x77 }) (fun h => (h.pow.state, h.out)) = some (0, [.smbNack]) := by decide +kernel

/-- Channel 7 is watched, with the thresholds 0 and 8. -/
def watch_ (st : Nat) (t : Nat := 1000000000) : State := pow_ st [(0x001, 0x05C, 0x80), (0x001, 0x07C, 0x80000), (0x001, 0x0A4, 0x1FF)] id t
theorem test_meets_Watching : (List.replicate 9 (9 : BitVec 16)).length = 9 ∧ (List.replicate 8 (9 : BitVec 16)).length = 8 ∧ (pow_ 0).hw.pow.state ≠ 3
    ∧ (watch_ 3 0).hw.time < (watch_ 3 0).hw.pow.lastWatch + (watch_ 3 0).hw.watchNs ∧ (watch_ 3).hw.pow.lastWatch + (watch_ 3).hw.watchNs ≤ (watch_ 3).hw.time
    ∧ (∀ c < 9, (pow_ 3 [] id 1000000000).hw.bit 0x001 0x05C c = false) ∧ (pow_ 3 [] id 1000000000).hw.pow.lastWatch + (pow_ 3 [] id 1000000000).hw.watchNs ≤ 1000000000
    ∧ (watch_ 3).hw.pow.entryEnd ≤ (watch_ 3).hw.time ∧ (watch_ 3).hw.bit 0x001 0x0A4 5 = true ∧ (watch_ 3).hw.bit 0x001 0x05C 7 = true ∧ (watch_ 3).hw.crossed 7 9 = true
    ∧ (watch_ 0).hw.pow.state < 2 ∧ 7 ∉ (watch_ 0).hw.pow.excursion ∧ (watch_ 0).hw.bit 0x001 0x05C 7 = true ∧ (watch_ 0).hw.crossed 7 9 = true := by decide +kernel
theorem test_meets_Watching_sideband : (pow_ 4 [(0x001, 0x05C, 0x800)]).hw.hbWakes true = true ∧ (pow_ 0).hw.hbWakes true = false ∧ (pow_ 4).hw.pow.state = 4
    ∧ (∀ st ∈ [0, 4], (pow_ st [(0x001, 0x0BC, 1), (0x001, 0x0B4, 7)] id 7).hw.bit 0x001 0x0BC 0 = true
      ∧ (pow_ st [(0x001, 0x0BC, 1), (0x001, 0x0B4, 7)] id 7).hw.pow.timerFired = false
      ∧ (pow_ st [(0x001, 0x0BC, 1), (0x001, 0x0B4, 7)] id 7).hw.rd64 0x001 0x0B4 ≤ 7) ∧ (pow_ 0).hw.bit 0x001 0x0BC 0 = false := by decide +kernel
theorem test_watching : seen (.watchSample (List.replicate 9 9)) (watch_ 3) (fun h => (h.pow.state, h.rd 0x001 0x09C)) = some (0, 9)
    ∧ seen (.thresholdCompare (List.replicate 8 9)) (watch_ 0) (fun h => (h.bit 0x004 0x04C 14, h.pow.excursion)) = some (true, [7])
    ∧ seen .timerMatch (pow_ 0 [(0x001, 0x0BC, 1), (0x001, 0x0B4, 7)] id 7) (fun h => (h.pow.timerFired, h.bit 0x004 0x04C 13)) = some (true, true)
    ∧ seen .timerMatch (pow_ 0 [(0x001, 0x0BC, 1), (0x001, 0x0B4, 8)] id 7) (fun h => h.pow.timerFired) = some false := by decide +kernel

/-- A ramp of die 3 from point 0 to point 2, begun at time 0. -/
def ramp_ (t : Nat) : State := pow_ 0 [] (fun w => { w with ramps := [none, none, none, some ⟨550, 0, 2⟩] }) t
theorem test_meets_PointsAndCeilings_points : Reaches State.reset .handler 0x002 0x04C ∧ State.reset.hw.ramp 3 = none ∧ (ramp_ 4000).hw.ramp 3 = some ⟨550, 0, 2⟩
    ∧ (ramp_ 3999).hw.time < 0 + (⟨550, 0, 2⟩ : Ramp).ns ∧ 0 + (⟨550, 0, 2⟩ : Ramp).ns ≤ (ramp_ 4000).hw.time
    ∧ State.reset.hw.pow.points.length = 4 ∧ State.reset.hw.pow.ramps.length = 4
    ∧ (pow_ 0 [(0x002, 0x04C, 0)]).hw.point 3 = (pow_ 0 [(0x002, 0x04C, 0)]).hw.goal 3 ∧ (pow_ 0 [(0x002, 0x04C, 5)]).hw.point 3 < (pow_ 0 [(0x002, 0x04C, 5)]).hw.goal 3
    ∧ (pow_ 0 [(0x002, 0x04C, 0)] fun w => { w with points := [0, 0, 0, 7] }).hw.goal 3 < (pow_ 0 [(0x002, 0x04C, 0)] fun w => { w with points := [0, 0, 0, 7] }).hw.point 3 := by
  unfold Reaches Up Clear; decide +kernel
theorem test_meets_PointsAndCeilings_limits : (pow_ 0 [(0x001, 0x04C, 0x10000)] id 999).hw.time < 0 + 1000 * 1 ∧ (pow_ 0).hw.plimit < 100000 ∧ 100 * 0 < 97 * (pow_ 0).hw.plimit
    ∧ ((pow_ 0).hw.plimit ≤ (pow_ 0).hw.plimit ∧ 97 * (pow_ 0).hw.plimit ≤ 100 * (pow_ 0).hw.plimit) ∧ ¬ ((pow_ 0 [] id 1000000000).hw.time < (pow_ 0).hw.pow.limitAt + 1000 * ((pow_ 0).hw.rd 0x001 0x04C / 0x10000))
    ∧ (pow_ 0).hw.pow.thermal.length = 4 ∧ (pow_ 0 [] id 99999).hw.time < (pow_ 0).hw.pow.thermalAt.getD 3 0 + 100000
    ∧ ¬ ((pow_ 0 [] id 100000).hw.time < (pow_ 0).hw.pow.thermalAt.getD 3 0 + 100000) ∧ (State.reset.hw.pow.droop = none)
    ∧ (pow_ 0 [] fun w => { w with droop := some (5, 44000) }).hw.pow.droop = some (5, 44000) := by decide +kernel
theorem test_points : seen (.pointRequest .handler 3 5) State.reset (fun h => (h.point 3, h.ramp 3)) = some (0, some ⟨550, 0, 5⟩)
    ∧ seen (.rampDone 3) (ramp_ 4000) (fun h => h.point 3) = some 2
    ∧ seen (.powerLimitStep 100000) (pow_ 0 [(0x002, 0x040, 9)] id 1000000000) (fun h => (h.pow.ceiling, h.bit 0x001 0x010 2)) = some (11, true)
    ∧ seen (.thermalSample 3 420) (pow_ 0 [] id 100000) (fun h => h.pow.thermal) = some [15, 15, 15, 14]
    ∧ seen (.thermalSample 3 409) (pow_ 0 [] (fun w => { w with thermal := [15, 15, 15, 3] }) 100000) (fun h => h.pow.thermal) = some [15, 15, 15, 3]
    ∧ seen (.thermalSample 3 500) (pow_ 0) (fun h => (h.pow.off, h.pow.locked)) = some (true, true) := by decide +kernel
theorem test_droop : seen (.droop 44999) (pow_ 0 [] id 7) (fun h => (h.pow.droop, h.goal 0)) = some (some (1000007, 44999), 4)
    ∧ seen .droopHoldExpiry (pow_ 0 [] (fun w => { w with droop := some (5, 44000) }) 5) (fun h => (h.pow.droop, smGet 0 0x110 h.life.counts)) = some (none, 1) := by decide +kernel

theorem test_meets_Supplies : State.reset.hw.pow.off = false ∧ (pow_ 0 [] fun w => { w with off := true }).hw.pow.off = true ∧ State.reset.hw.pow.vin.length = 3
    ∧ (∀ i < 3, State.reset.hw.pow.vin.getD i false = true) ∧ State.reset.hw.offOkPin = false ∧ 10000000 ≤ State.reset.hw.pow.anaAge
    ∧ (∀ x ∈ [[false, false, false], [false, true, false], [false, false, true], [true, false, false], [true, true, false]], (pow_ 0 [] fun w => { w with vin := x }).hw.pow.vin = x)
    ∧ State.reset.hw.pow.early = 0
    ∧ (let w := (pow_ 0 [] fun w => { w with off := true, locked := false }).hw.pow
       w.off = true ∧ w.locked = false ∧ w.early = 0 ∧ w.vin = [true, true, true])
    ∧ Reaches State.reset .handler 0x001 0x0C4 ∧ (pow_ 0 [(0x003, 0x048, 1)]).hw.firmware = true ∧ (pow_ 0 [(0x003, 0x048, 0)]).hw.firmware = false := by
  unfold Reaches Up Clear; decide +kernel
theorem test_rail_fault : seen (.railFault 2) (pow_ 0 [(0x001, 0x10C, 0x100), (0x001, 0x114, 0x100)])
    (fun h => (h.pow.off, h.pow.cause, h.rd 0x001 0x10C, h.rd 0x001 0x114)) = some (true, 6, 0x100, 0x200) := by decide +kernel
theorem test_inputs : seen (.undervoltageLockout 2) State.reset (fun h => (h.pow.off, h.pow.vin, h.pow.locked)) = some (true, [true, true, false], true)
    ∧ seen (.supplyInputValid 1) (pow_ 0 [] fun w => { w with vin := [true, false, false], anaAge := 9999999 }) (fun h => h.pow.early) = some 1
    ∧ seen (.supplyInputValid 1) (pow_ 0 [] fun w => { w with vin := [true, false, false] }) (fun h => (h.pow.early, h.pow.vin)) = some (0, [true, true, false]) := by decide +kernel

/-! ### Reset and boot -/

theorem test_meets_ModuleResets : (∀ r ∈ [Req.handler, .portA, .portB], Reaches State.reset r 0x003 0x044 ∧ Reaches State.reset r 0x003 0x054)
    ∧ (0x0000A55A : Word) ≠ 0x0000A55B ∧ (0 : Word) ≠ 0x0000A55A ∧ (0 : Word) ≠ 0x0000A55B ∧ Req.portA ≠ .handler
    ∧ (let s := at_ fun h => { h.wr 0x003 0x050 (1 + 0x100 * 2000) with time := 2000000000 }
       bitOf (s.hw.rd 0x003 0x050) 0 = true ∧ s.hw.pow.state < 3 ∧ max s.boot.wdogAt s.hw.pow.wokeAt + s.hw.rd 0x003 0x050 / 0x100 * 1000000 ≤ s.hw.time)
    ∧ bitOf (State.reset.hw.rd 0x003 0x050) 0 = false := by unfold Reaches Up Clear; decide +kernel

/-- In recovery, at an address of its own. -/
def serving_ : State := at_ fun h => (h.wr 0x003 0x048 3).setPow fun w => { w with mba := 0x10 }
theorem test_meets_BootAndRecovery : Reaches State.reset .handler 0x005 0x058 ∧ serving_.serves = true ∧ State.reset.serves = false ∧ 0x1FFFFFF < 0x2000000
    ∧ [(1 : Byte)] ≠ [] ∧ [(1 : Byte)].length ≤ 32 ∧ 0x1FFFFFF + [(1 : Byte)].length ≤ 0x2000000 ∧ 0x2000000 < 0x2000000 + [(1 : Byte)].length
    ∧ 0xFFFFFE0 + 32 ≤ 0x10000000 ∧ 32 < (List.replicate 33 (0 : Byte)).length := by unfold Reaches Up Clear; decide +kernel
theorem test_meets_FlashChangesOnlyInRecovery : (ran (exec (.flashProgram 5 [1]) serving_)).map (fun t => t.boot.byte 5) = some 1 ∧ serving_.boot.byte 5 = 0xFF
    ∧ (5 : Nat) < 0x3100000 := by decide +kernel
theorem test_flash_read : seen (.flashRead 0) serving_ (·.out) = some [.flash (List.replicate 32 0xFF)] := by decide +kernel

/-- Port A has named the buffer at `a`; the page at 0x2000000 moves; slice 0 translates, or not. -/
def buffer_ (a : Nat) (on : Nat := 1) (f : Hw → Hw := id) : State := at_ fun h =>
  let h := mapped h
  f { regs_ [(0x020, 0x008, on)] ((h.wr 0x003 0x058 a (reqBank .portA)).wr 0x005 0x060 a) with mmu := { h.mmu with tlb := h.mmu.tlb ++ [⟨0, 0x200, true, 0x2000017⟩] } }
theorem test_meets_Attestation_extends : Reaches (buffer_ 0x2000) .portA 0x003 0x060 ∧ (buffer_ 0x2000).hw.rd 0x003 0x064 (reqBank .portA) % 2 = 0
    ∧ (on_ (buffer_ 0x2000) fun h => h.wr 0x003 0x064 1 (reqBank .portA)).hw.rd 0x003 0x064 (reqBank .portA) % 2 = 1
    ∧ (on_ (buffer_ 0x2000) fun h => { h with attests := [⟨.portB, 0, none⟩] }).hw.attests = [⟨.portB, 0, none⟩] ∧ (buffer_ 0x2000).hw.attests = []
    ∧ (buffer_ 0x2000).hw.reqAddr .portA = 0x2000
    ∧ (match ((buffer_ 0x2000).hw.demandFor handlerMaster 0x2000 64).read handlerMaster 0x2000 64 with | .ok _ => true | .error _ => false) = true
    ∧ (match ((buffer_ 0x2000 0).hw.demandFor handlerMaster 0x2000 64).read handlerMaster 0x2000 64 with | .error .wait => true | _ => false) = true
    ∧ (match ((buffer_ 0x4000000).hw.demandFor handlerMaster 0x4000000 64).read handlerMaster 0x4000000 64 with | .error (.fault _ _ _) => true | _ => false) = true
    ∧ (match ((buffer_ 0x2000 1 fun h => { h with poison := [memKey 1 0x2000] }).hw.demandFor handlerMaster 0x2000 64).read handlerMaster 0x2000 64 with
      | .error (.ecc _ _) => true | _ => false) = true := by unfold Reaches Up Clear; decide +kernel
/-- A measurement waits. -/
def measure_ (m : Measure) (on : Nat := 1) : State := buffer_ 0x2000 on fun h => { h with measures := [m] }
theorem test_meets_Attestation_measures : (3 : Nat) < 8 ∧ State.reset.hw.measures = [] ∧ (measure_ (.grammar 0x4000)).hw.measures = [.grammar 0x4000] ∧ (measure_ (.grammar 0x4000)).hw.pow.state < 3
    ∧ ((measure_ (.grammar 0x4000)).hw.grammarImage 0x4000).isSome = true ∧ ((measure_ (.grammar 0x4000) 0).hw.grammarImage 0x4000).isNone = true
    ∧ ((measure_ (.vocab 15 2 [])).hw.vocabImage 15 2 []).isSome = true := by decide +kernel

/-- A write of the Handler that stays within a granule it reaches goes on; one that meets a page that moves, or lacks its second granule, does not. -/
theorem handler_goes (h : Hw) (va k : Nat) (bs : List Byte) (hp : h.pow.state = 0) (hw : h.windowOf va = none) (hn : bs ≠ []) (hb : bs.length ≤ granuleLeft va)
    (h1 : h.locate handlerMaster va true = .ok k) : ∃ g, h.handlerWrite va bs = some (g, true) := by
  have hm : min bs.length (granuleLeft va) = bs.length := by omega
  simp [Hw.handlerWrite, Hw.demandFor, hp, hw, Hw.place, Hw.placeGran, hn, h1, hm, Except.map]
theorem handler_waits (h : Hw) (va : Nat) (bs : List Byte) (hp : h.pow.state = 0) (hw : h.windowOf va = none) (hb : bs ≠ [])
    (hl : h.locate handlerMaster va true = .error .wait) : h.handlerWrite va bs = none := by
  simp [Hw.handlerWrite, Hw.demandFor, hp, hw, Hw.place, Hw.placeGran, hb, hl]
theorem handler_faults (h : Hw) (va k cause level a : Nat) (bs : List Byte) (hp : h.pow.state = 0) (hw : h.windowOf va = none) (hb : granuleLeft va < bs.length)
    (h1 : h.locate handlerMaster va true = .ok k) (h2 : h.locate handlerMaster (va + granuleLeft va) true = .error (.fault cause level a)) :
    ∃ g, h.handlerWrite va bs = some (g, false) := by
  have hn : bs ≠ [] := by intro e; simp [e] at hb
  have hm : min bs.length (granuleLeft va) = granuleLeft va := by omega
  have hd : ¬ bs.length ≤ granuleLeft va := by omega
  simp [Hw.handlerWrite, Hw.demandFor, hp, hw, Hw.place, Hw.placeGran, hn, h1, hm, hd, h2, Except.map]
theorem report_length (s : State) (nonce : List Byte) (hc : s.boot.counters = [0, 0, 0, 0]) (hn : nonce.length = 32) : (s.report nonce).length = 928 := by
  have hl (n x : Nat) : (leBytes n x).length = n := by induction n generalizing x <;> simp_all [leBytes]
  have hp (n : Nat) (bs : List Byte) : (State.report.pad n bs).length = n := by simp [State.report.pad]
  have hm (i : Nat) : (s.hw.measurement i).length = 64 := by simp [Hw.measurement, List.length_flatMap, hl]
  simp only [State.report, List.length_append, List.length_flatMap, hl, hp, hm, hc, hn]
  decide
/-- A request waits for its report in a buffer at `a`, behind a measurement or not. -/
def asks_ (a : Nat) (on : Nat := 1) (reg : Option Nat := none) (t : Nat := 0) : State := buffer_ a on fun h =>
  { h with attests := [⟨.portA, 0, reg⟩], time := t }
theorem test_meets_Attestation_reports : (asks_ 0x2000).hw.attests = [⟨.portA, 0, none⟩] ∧ (3 ≤ (on_ (asks_ 0x2000) fun h => h.setPow fun w => { w with state := 3 }).hw.pow.state)
    ∧ (some (1 : Nat)).isSome = true ∧ (let s := on_ (asks_ 0x2000 1 none 49999999) fun h => { h with measures := [.grammar 0] }
       s.hw.measures ≠ [] ∧ s.hw.time < 0 + 50000000) ∧ (asks_ 0x2000).hw.measures = []
    ∧ (match ((asks_ 0x2000 0).hw.demandFor handlerMaster 0x2000 928).read handlerMaster 0x2000 32 with | .error .wait => true | _ => false) = true
    ∧ (match ((asks_ 0x4000000).hw.demandFor handlerMaster 0x4000000 928).read handlerMaster 0x4000000 32 with | .error (.fault _ _ _) => true | _ => false) = true
    ∧ (∀ a ∈ [0x4000, 0x2000000, 0x2000000 - 32],
      (match ((asks_ a).hw.demandFor handlerMaster a 928).read handlerMaster a 32 with | .ok _ => true | .error _ => false) = true) := by decide +kernel
/-- The same where the second granule of the buffer is not there. -/
def ends_ : State := on_ (asks_ 0x1FFFFE0) fun h => { h with mmu := { h.mmu with tlb := h.mmu.tlb.take 4 } }
theorem test_meets_Attestation_written (nonce : List Byte) (hn : nonce.length = 32) :
    (∃ g, ((asks_ 0x4000).hw.touch handlerMaster 0x4000 32).handlerWrite 0x4000 ((asks_ 0x4000).report nonce) = some (g, true))
    ∧ ((asks_ 0x2000000).hw.touch handlerMaster 0x2000000 32).handlerWrite 0x2000000 ((asks_ 0x2000000).report nonce) = none
    ∧ ∃ g, (ends_.hw.touch handlerMaster 0x1FFFFE0 32).handlerWrite 0x1FFFFE0 (ends_.report nonce) = some (g, false) := by
  have l1 := report_length (asks_ 0x4000) nonce rfl hn
  have l2 := report_length (asks_ 0x2000000) nonce rfl hn
  have l3 := report_length ends_ nonce rfl hn
  refine ⟨handler_goes _ _ (memKey 1 0x4000) _ ?_ ?_ ?_ ?_ ?_, handler_waits _ _ _ ?_ ?_ ?_ ?_, handler_faults _ _ (memKey 1 0x1FFFFE0) fNotValid 0 0x2000000 _ ?_ ?_ ?_ ?_ ?_⟩
  all_goals first
    | (intro e; simp [e] at l1)
    | (intro e; simp [e] at l2)
    | (rw [l1]; decide)
    | (rw [l3]; decide)
    | decide +kernel
theorem test_meets_Attestation_signs (sig : List Byte) (hs : sig.take 114 ≠ []) : Reaches (buffer_ 0x2000) .handler 0x005 0x068
    ∧ (buffer_ 0x2000).hw.rd64 0x005 0x060 = 0x2000 ∧ (match (buffer_ 0x2000 0).hw.read handlerMaster 0x2000 64 with | .error .wait => true | _ => false) = true
    ∧ (match (buffer_ 0x4000000).hw.read handlerMaster 0x4000000 64 with | .error (.fault _ _ _) => true | _ => false) = true
    ∧ (∀ a ∈ [0x2000, 0x2000000], (match (buffer_ a).hw.read handlerMaster a 64 with | .ok _ => true | .error _ => false) = true)
    ∧ ((buffer_ 0x2000000).hw.touch handlerMaster 0x2000000 64).handlerWrite 0x2000040 (sig.take 114) = none
    ∧ ∃ g, ((buffer_ 0x2000).hw.touch handlerMaster 0x2000 64).handlerWrite 0x2040 (sig.take 114) = some (g, true) := by
  have hl : (sig.take 114).length ≤ granuleLeft 0x2040 := by simp [granuleLeft]
  refine ⟨by unfold Reaches Up Clear; decide +kernel, by decide +kernel, by decide +kernel, by decide +kernel, by decide +kernel, handler_waits _ _ _ ?_ ?_ hs ?_,
    handler_goes _ _ (memKey 1 0x2040) _ ?_ ?_ hs hl ?_⟩ <;> decide +kernel
theorem test_attest : seen (.attest .portA 0) (buffer_ 0x2000) (fun h => (h.attests, h.rd 0x003 0x064 (reqBank .portA))) = some ([⟨.portA, 0, none⟩], 1) := by decide +kernel

/-! ### Self-test and repair -/

/-- Self-test of a kind, with 240/8 W and 2 staging units at near 0x40000000, in a state. -/
def bist_ (f : Bist → Bist) (pow : Nat := 0) (g : Hw → Hw := id) : State := at_ fun h =>
  let h := regs_ [(0x007, 0x008, 1), (0x007, 0x04C, 240), (0x007, 0x05C, 2), (0x007, 0x048, 1)] h
  g { h with bist := f h.bist, pow := { h.pow with state := pow } }
theorem test_meets_SelfTestAndRepair_runs : (∀ b ∈ [true, false], Reaches (bist_ fun x => { x with busy := b }) .portA 0x007 0x040 ∧ (bist_ fun x => { x with busy := b }).hw.bist.busy = b)
    ∧ bitOf (0x10 : Word).toNat 1 = false ∧ (bist_ id).hw.rd 0x007 0x048 = 1 ∧ bistPower 3 ≤ (bist_ id).hw.rd 0x007 0x04C ∧ (bist_ id).hw.rd 0x007 0x044 + 1 ≤ bistMembers 3
    ∧ ¬ (bistPower 3 ≤ (on_ (bist_ id) fun h => h.wr 0x007 0x04C 239).hw.rd 0x007 0x04C) := by unfold Reaches Up Clear; decide +kernel
theorem test_bist_go : seen (.bistGo .portA 0xC) (bist_ id) (fun h => (h.bist.busy, h.bist.left, h.bist.kind)) = some (true, 1, 3)
    ∧ seen (.bistGo .portA 0xC) (bist_ fun x => { x with busy := true }) (fun h => h.rd 0x000 0x098) = some 1 := by decide +kernel
theorem test_meets_SelfTestAndRepair_members :
    ∀ x ∈ [(0, false, 0), (2, true, 0), (2, false, 0), (0, false, 1)], (let s := bist_ (fun b => { b with busy := true, left := 1, kind := x.1, destructive := x.2.1 }) x.2.2
      s.hw.enabled 0x007 = true ∧ s.hw.bist.left ≠ 0 ∧ s.hw.resRoom = true ∧ s.hw.bistPowerNow + bistPower s.hw.bist.kind ≤ s.hw.rd 0x007 0x04C
        ∧ s.hw.bist.running = [] ∧ s.hw.pow.state = x.2.2 ∧ s.hw.isolated x.1 0 = true ∧ (bistSize x.1 = 0 ↔ x.1 = 0) ∧ (s.hw.stagePlace (bistSize 2)).isSome = true) := by
  decide +kernel
theorem test_meets_SelfTestAndRepair_turned : (bist_ id).hw.bist.left = 0 ∧ (on_ (bist_ id) fun h => h.setQs coreQ { st := .running }).hw.isolated 0 0 = false
    ∧ (on_ (bist_ id) fun h => h.wr 0x007 0x05C 0).hw.stagePlace 1 = none := by decide +kernel
/-- A member runs, of a kind, saved or not. -/
def member_ (kind : Nat) (stage : Option Nat) : State := bist_ fun b => { b with busy := true, kind := kind, running := [⟨0, stage⟩] }
theorem test_meets_SelfTestAndRepair_ends : (member_ 0 none).hw.bist.running[0]? = some ⟨0, none⟩ ∧ (bist_ id).hw.bist.running[0]? = none
    ∧ bistSize (member_ 0 none).hw.bist.kind = 0 ∧ bistSize (member_ 2 none).hw.bist.kind ≠ 0 ∧ (member_ 2 none).hw.bist.running[0]? = some ⟨0, none⟩
    ∧ bistRange 2 0 = (0, 0x1000000) := by decide +kernel
/-- A record waits; the ring has room, or not. -/
def record_ (tail : Nat) : State := bist_ (fun b => { b with recs := [List.replicate 12 3] }) 0 fun h => regs_ [(0x007, 0x060, 0x30001), (0x007, 0x070, tail)] h
theorem test_meets_SelfTestAndRepair_records : (bist_ id).hw.bist.recs = [] ∧ (record_ 0).hw.bist.recs = [List.replicate 12 3] ∧ (record_ 0).hw.resRoom = true
    ∧ (record_ (2 ^ (record_ 0).hw.rd 0x007 0x068)).hw.resRoom = false := by decide +kernel
theorem test_bist : seen .bistMemberStart (bist_ fun b => { b with busy := true, left := 1, kind := 2 }) (fun h => (h.bist.running.map (·.index), h.bist.holds)) = some ([0], [(0, 0x1000000)]) := by
  decide +kernel
theorem test_bist_ends : seen (.bistMemberEnd 0 [⟨3, true, 0, 0, false⟩]) (member_ 0 none) (fun h => (h.bist.running, h.bist.done, h.bist.recs.map (·.length))) = some ([], 1, [12])
    ∧ seen .bistRecordWrite (record_ 0) (fun h => (h.bytes (memKey 1 0x30000) 1, h.rd 0x007 0x070)) = some ([3], 1) := by decide +kernel
/-- The Handler's repair entry in its four words. -/
def repair_ (w0 w1 : Nat) : State := bist_ id 0 fun h => regs_ [(0x007, 0x080, w0), (0x007, 0x084, w1)] h
theorem test_meets_SelfTestAndRepair_repairs : (∀ x ∈ [((0 : Nat), (0 : Nat), Repaired.refused), (1 + 200 * 0x80000, 0, .noSpare), (1, 0, .done), (4, 0x080, .done)],
      Reaches (repair_ x.1 x.2.1) .handler 0x007 0x078 ∧ Reaches (repair_ x.1 x.2.1) .portA 0x007 0x078
        ∧ ((repair_ x.1 x.2.1).hw.applyRepair ((List.range 4).flatMap fun i => leBytes 4 ((repair_ x.1 x.2.1).hw.rd 0x007 (0x080 + 4 * i)))).2 = x.2.2)
    ∧ repairLife 0 = 0x050 ∧ repairLife 1 ≠ 0x050 := by unfold Reaches Up Clear; decide +kernel
theorem test_repair : seen (.repairApply .handler 1) (repair_ 4 0x080) (fun h => (h.fused, h.rd 0x007 0x07C)) = some ([0x080], 0) := by decide +kernel

end Sys2Proof.Tests
end

section
/-! PROOF of O9: what is discarded of the register window, and what an unimplemented page answers (R28, R30, R34).

Two facts carry it. A discarded access is `Hw.badAccess`, which changes BAD_ACCESS_COUNT and BAD_ACCESS_ADDR and no other register
(`Hw.badAccess_discards`); and on an unimplemented page, which has no register rows and no actions, every write comes down to it
(`State.writeWord_unimplemented`). -/

namespace Sys2Proof.Machine

open Sys2Proof.Claims

/-! ### Register keys of page 0x000 -/

theorem regKey_div_four (off b : Nat) : regKey off b / 4 = homeOff off := by
  have hbank : (if bankedOff off then b % 4 else 0) < 4 := by split <;> omega
  unfold regKey
  omega

/-- A register has its home at its own offset, or on the first page of a block that shares a view: LSH0's at the lowest. -/
theorem homeOff_self_or_high (off : Nat) : homeOff off = off ∨ 0x12000 ≤ homeOff off := by
  unfold homeOff
  split
  case h_6 => exact .inl rfl
  all_goals
    dsimp only
    split <;> omega

/-- No other register shares a key with one of the first pages that stands at its home. -/
theorem regKey_ne_of_low {off off' : Nat} (b b' : Nat) (hlow : off < 0x12000) (hhome : homeOff off = off) (hne : off' ≠ off) :
    regKey off' b' ≠ regKey off b := by
  intro hkey
  have hsame : homeOff off' = off := by rw [← regKey_div_four off' b', hkey, regKey_div_four, hhome]
  rcases homeOff_self_or_high off' with h | h <;> omega

/-! ### Discarded accesses are counted (R28) -/

/-- From `s` to `t`, `n` accesses were discarded, the last of them at window offset `last`: BAD_ACCESS_COUNT and BAD_ACCESS_ADDR tell it,
and nothing else differs. -/
def Discards (s t : State) (n last : Nat) : Prop :=
  RegsOnly s t ∧ t.hw.rd 0x000 0x098 = min (s.hw.rd 0x000 0x098 + n) 0xFFFFFFFF ∧ t.hw.rd 0x000 0x09C = last
    ∧ ∀ off b, off ≠ 0x098 → off ≠ 0x09C → t.hw.reg off b = s.hw.reg off b

theorem Hw.badAccess_discards (s : State) (off : Nat) (hoff : off < 0x100000000) :
    Discards s { s with hw := s.hw.badAccess off } 1 off := by
  refine ⟨rfl, ?_, ?_, fun off' b hcount haddr => ?_⟩
  · show (Hw.wr _ 0x000 0x09C off).rd 0x000 0x098 = _
    rw [Hw.rd_wr_other _ _ (regKey_ne_of_low 0 0 (by decide) (by decide) (by decide)), Hw.count, Hw.rd_wr_same]
    omega
  · show (Hw.wr _ 0x000 0x09C off).rd 0x000 0x09C = _
    rw [Hw.rd_wr_same]
    omega
  · exact (Hw.reg_setReg_other _ _ (regKey_ne_of_low 0 b (by decide) (by decide) haddr)).trans
      (Hw.reg_setReg_other _ _ (regKey_ne_of_low 0 b (by decide) (by decide) hcount))

theorem Discards.trans {s t u : State} {m n last last' : Nat} (h : Discards s t m last) (k : Discards t u n last') :
    Discards s u (m + n) last' := by
  obtain ⟨hregs, hcount, -, hkept⟩ := h
  obtain ⟨kregs, kcount, kaddr, kkept⟩ := k
  refine ⟨?_, ?_, kaddr, fun off b h1 h2 => (kkept off b h1 h2).trans (hkept off b h1 h2)⟩
  · unfold RegsOnly at *
    rw [kregs, hregs]
  · rw [kcount, hcount]
    omega

/-! ### What a register access passes before it acts -/

@[simp] theorem pageOff_pageOfOff_inPage (off : Nat) : pageOff (pageOfOff off) (inPage off) = off := by
  unfold pageOff pageOfOff inPage
  omega

/-- A write that reaches a register which is no doorbell acts at once. -/
theorem Hw.guardWrite_accepted (h : Hw) {r : Req} {p o : Nat} (v : Nat) (f : Hw → Hw) (hheld : h.portHeld r = false)
    (hacc : h.accepts r p o = true) (hbell : doorbell p o = false) : h.guardWrite r p o v f = f h := by
  simp only [doorbell, Bool.or_eq_false_iff] at hbell
  obtain ⟨⟨⟨h8, htail⟩, hctl⟩, hmbox⟩ := hbell
  simp [Hw.guardWrite, doorbell, hheld, hacc, h8, htail, hctl, hmbox]

theorem Hw.guardWrite_refused (h : Hw) {r : Req} {p o : Nat} (v : Nat) (f : Hw → Hw) (hheld : h.portHeld r = false)
    (hacc : h.accepts r p o = false) : h.guardWrite r p o v f = h.refuseWrite r p o := by
  simp [Hw.guardWrite, hheld, hacc]

/-- The offsets whose write acts on more than the hardware part of the state. -/
def stateOffs : List Nat := [0x003044, 0x003050, 0x003054, 0x003060, 0x005058, 0x005068, 0x006040]

/-- A write that is no action of its own is a plain one. -/
theorem State.writeWord_plain (s : State) {r : Req} {off : Nat} {v : Word}
    (hact : actsOn r (pageOfOff off) (inPage off) v = none) (hoff : off ∉ stateOffs) :
    s.writeWord r off v = { s with hw := plainWrite r off v s.hw } := by
  have hsplit : ∀ p o, pageOfOff off = p ∧ inPage off = o → off = pageOff p o := by
    rintro p o ⟨rfl, rfl⟩
    exact (pageOff_pageOfOff_inPage off).symm
  have hnot : ∀ p o, pageOff p o ∈ stateOffs → ¬ (pageOfOff off = p ∧ inPage off = o) :=
    fun p o hmem hpo => hoff (hsplit p o hpo ▸ hmem)
  unfold State.writeWord
  dsimp only
  rw [if_neg (hnot _ _ (by decide)), if_neg (hnot _ _ (by decide)), if_neg (hnot _ _ (by decide)), if_neg (hnot _ _ (by decide)),
    if_neg (hnot _ _ (by decide)), if_neg fun h => hnot 0x005 0x068 (by decide) ⟨h.1, h.2.1⟩,
    if_neg fun h => hnot 0x006 0x040 (by decide) ⟨h.1, h.2.1⟩, hact]

/-- A plain write of a register that stores nothing and is no HI half changes nothing (R34). -/
theorem plainWrite_unstored {h : Hw} {r : Req} {off : Nat} {v : Word} {row : RegRow} (hheld : h.portHeld r = false)
    (hacc : h.accepts r (pageOfOff off) (inPage off) = true) (hbell : doorbell (pageOfOff off) (inPage off) = false)
    (hrow : regRow off = some row) (hhalf : row.half = .one) (hrw : row.acc ≠ .rw) : plainWrite r off v h = h := by
  unfold plainWrite
  dsimp only
  rw [Hw.guardWrite_accepted h _ _ hheld hacc hbell, hrow]
  cases hcode : row.acc with
  | rw => exact absurd hcode hrw
  | ro | wo | rc => simp [hcode, hhalf]

/-! ### Unimplemented pages (R30) -/

section
variable {off : Nat} (hpage : blockOf (pageOfOff off) = none)
include hpage

theorem regRow_unimplemented : regRow off = none := by simp [regRow, hpage]

theorem actsOn_unimplemented (r : Req) (v : Word) : actsOn r (pageOfOff off) (inPage off) v = none := by
  simp [actsOn, queueAt, pageEng, hpage]

theorem not_mem_stateOffs_unimplemented : off ∉ stateOffs := by
  have himpl : ∀ x ∈ stateOffs, blockOf (pageOfOff x) ≠ none := by decide
  exact fun hmem => himpl off hmem hpage

theorem Hw.accepts_unimplemented (h : Hw) (r : Req) : h.accepts r (pageOfOff off) (inPage off) = false := by
  simp [Hw.accepts, hpage]

theorem Hw.refuseWrite_unimplemented (h : Hw) (r : Req) (hpow : h.pow.state < 3) :
    h.refuseWrite r (pageOfOff off) (inPage off) = h.badAccess off := by
  simp [Hw.refuseWrite, hiHalf, Hw.turnAway, regRow_unimplemented hpage, hpage, Nat.not_le.mpr hpow]

/-- A 32-bit write of an unimplemented page is discarded and counted. -/
theorem State.writeWord_unimplemented (s : State) (r : Req) (v : Word) (hclear : Clear s r) (hpow : s.hw.pow.state < 3) :
    s.writeWord r off v = { s with hw := s.hw.badAccess off } := by
  rw [State.writeWord_plain s (actsOn_unimplemented hpage r v) (not_mem_stateOffs_unimplemented hpage), plainWrite]
  dsimp only
  rw [Hw.guardWrite_refused s.hw _ _ hclear (Hw.accepts_unimplemented hpage s.hw r), Hw.refuseWrite_unimplemented hpage s.hw r hpow]

theorem Hw.readAct_unimplemented (h : Hw) (r : Req) : h.readAct r off = (0, h) := by
  simp [Hw.readAct, Hw.readWord, regRow_unimplemented hpage]

end

/-! ### The commands -/

theorem exec_registerWrite {s : State} {r : Req} {off size v : Nat} (hup : Up s) (hsize : 1 ≤ size) (hv : v.log2 < 8 * size)
    (hoff : off + size ≤ 0x4000000) : exec (.registerWrite r off size v) s = .next (s.writeBytes r off size v) := by
  show execRegisterWrite r off size v s = _
  rw [execRegisterWrite, if_neg (by omega), if_neg (by omega), State.whenUp_up _ _ hup]

theorem log2_toNat_lt (v : Word) : v.toNat.log2 < 8 * 4 := by
  by_cases hv : v.toNat = 0
  · simp [hv]
  · exact (Nat.log2_lt hv).mpr v.isLt

theorem State.writeBytes_word (s : State) (r : Req) (off v : Nat) (halign : off % 4 = 0) :
    s.writeBytes r off 4 v = s.writeWord r off (BitVec.ofNat 32 v) := by
  simp [State.writeBytes, halign]

/-- 64 bits are written as two words, lower address first (R28). -/
theorem State.writeBytes_two_words (s : State) (r : Req) (off v : Nat) (halign : off % 4 = 0) : s.writeBytes r off 8 v
    = (s.writeWord r off (BitVec.ofNat 32 v)).writeWord r (off + 4) (BitVec.ofNat 32 (v / 0x100000000)) := by
  simp [State.writeBytes, halign]

/-- A write of another width, or not aligned, is discarded whole and counted once (log entry 8). -/
theorem State.writeBytes_odd (s : State) (r : Req) (off size v : Nat) (hodd : (size ≠ 4 ∧ size ≠ 8) ∨ off % 4 ≠ 0)
    (hpow : s.hw.pow.state < 3) : s.writeBytes r off size v = { s with hw := s.hw.badAccess off } := by
  rw [State.writeBytes, if_neg (by omega), if_neg (by omega), if_neg (by omega)]

/-- An aligned 32-bit read is one read of its register. -/
theorem Hw.readBytes_word (h : Hw) (r : Req) (off : Nat) (halign : off % 4 = 0) :
    Hw.readBytes r 4 off 4 h = (leBytes 4 (h.readAct r off).1.toNat, (h.readAct r off).2) := by
  have hreg : off / 4 * 4 = off := by omega
  simp [Hw.readBytes, halign, hreg, wordBytes, leBytes]

/-- A write of a register that stores nothing and does nothing is discarded silently. -/
theorem exec_registerWrite_unstored {s : State} {r : Req} {off : Nat} {v : Word} {row : RegRow}
    (hreach : Reaches s r (pageOfOff off) (inPage off)) (hact : Actionless r off v) (halign : off % 4 = 0) (hoff : off + 4 ≤ 0x4000000)
    (hrow : regRow off = some row) (hhalf : row.half = .one) (hrw : row.acc ≠ .rw) :
    exec (.registerWrite r off 4 v.toNat) s = .next s := by
  obtain ⟨hup, hclear, hacc⟩ := hreach
  obtain ⟨hnone, hbell, hmem⟩ := hact
  rw [exec_registerWrite hup (by omega) (log2_toNat_lt v) hoff, State.writeBytes_word s r off _ halign, BitVec.ofNat_toNat,
    BitVec.setWidth_eq, State.writeWord_plain s hnone hmem, plainWrite_unstored hclear hacc hbell hrow hhalf hrw]

/-- A write that is not 32 or 64 bits wide or not aligned, or a 32-bit one of an unimplemented page, is discarded once. -/
theorem State.writeBytes_discards_once {s : State} {r : Req} {off size : Nat} (v : Nat) (hclear : Clear s r) (hpow : s.hw.pow.state < 3)
    (hbad : (size ≠ 4 ∧ size ≠ 8) ∨ off % 4 ≠ 0 ∨ (size = 4 ∧ blockOf (pageOfOff off) = none)) :
    s.writeBytes r off size v = { s with hw := s.hw.badAccess off } := by
  by_cases hodd : (size ≠ 4 ∧ size ≠ 8) ∨ off % 4 ≠ 0
  · exact s.writeBytes_odd r off size v hodd hpow
  · obtain ⟨rfl, hpage⟩ : size = 4 ∧ blockOf (pageOfOff off) = none := by
      rcases hbad with h | h | h
      · exact absurd (.inl h) hodd
      · exact absurd (.inr h) hodd
      · exact h
    rw [s.writeBytes_word r off v (by omega), s.writeWord_unimplemented hpage r _ hclear hpow]

/-- A 64-bit write of unimplemented pages is discarded word by word. -/
theorem State.writeBytes_discards_twice {s : State} {r : Req} {off : Nat} (v : Nat) (hclear : Clear s r) (hpow : s.hw.pow.state < 3)
    (halign : off % 4 = 0) (hoff : off + 8 ≤ 0x4000000) (hlo : blockOf (pageOfOff off) = none)
    (hhi : blockOf (pageOfOff (off + 4)) = none) : Discards s (s.writeBytes r off 8 v) 2 (off + 4) := by
  let t : State := { s with hw := s.hw.badAccess off }
  rw [s.writeBytes_two_words r off v halign, s.writeWord_unimplemented hlo r _ hclear hpow, t.writeWord_unimplemented hhi r _ hclear hpow]
  exact (Hw.badAccess_discards s off (by omega)).trans (Hw.badAccess_discards _ (off + 4) (by omega))

/-- An unimplemented page reads zero. -/
theorem exec_readClear_unimplemented {s : State} (r : Req) {off : Nat} (hup : Up s) (hclear : Clear s r) (hpow : s.hw.pow.state < 3)
    (halign : off % 4 = 0) (hoff : off + 4 ≤ 0x4000000) (hpage : blockOf (pageOfOff off) = none) :
    exec (.readClear r off 4) s = .next { s with hw := s.hw.send (.readReply r (leBytes 4 0)) } := by
  have hread : regRead r off 4 s.hw = s.hw.send (.readReply r (leBytes 4 0)) := by
    have hheld : s.hw.portHeld r = false := hclear
    simp [regRead, hheld, Nat.not_le.mpr hpow, Hw.readBytes_word s.hw r off halign, Hw.readAct_unimplemented hpage]
  show execReadClear r off 4 s = _
  rw [execReadClear, if_neg (by omega), if_neg (by omega), State.onHw_up s _ hup, hread]

/-- Settles O9: a silent discard, one counted once, one counted twice, and the read of an unimplemented page. -/
theorem discardedWrites : Obligations.DiscardedWrites := by
  unfold Obligations.DiscardedWrites
  refine ⟨fun s r off v row hreach hact halign hoff hrow hhalf hrw =>
      exec_registerWrite_unstored hreach hact halign hoff hrow hhalf hrw, ?once, ?twice, ?zero⟩
  case once =>
    intro s r off size v hup hclear hpow hsize hv hoff hbad
    refine ⟨_, exec_registerWrite hup hsize hv hoff, ?_⟩
    rw [State.writeBytes_discards_once v hclear hpow hbad]
    exact Hw.badAccess_discards s off (by omega)
  case twice =>
    intro s r off v hup hclear hpow hv halign hoff hlo hhi
    exact ⟨_, exec_registerWrite hup (by omega) (by omega) hoff, State.writeBytes_discards_twice v hclear hpow halign hoff hlo hhi⟩
  case zero =>
    intro s r off hup hclear hpow halign hoff hpage
    exact exec_readClear_unimplemented r hup hclear hpow halign hoff hpage

end Sys2Proof.Machine
end

section
/-! PROOF of O54: the interrupt controller's sources, summaries and their acknowledgement (R419 to R422).

Three facts carry it. The registers of the IRQ page are distinct (`Hw.rd_wr_irq_other`), so latching an edge moves PEND and the count and
nothing else there; a source that is not pending or is masked is nobody's first source (`Hw.sumFirst_ne_of_off`); and sending a summary's
message sets its own bit of SUM_OUT alone (`Hw.sumOut_sumSend`). -/

namespace Sys2Proof.Machine

open Sys2Proof.Claims

/-! ### Registers of the IRQ page -/

theorem blockOf_irq : blockOf 0x004 = some (.irq, 0) := by decide

theorem pageOfOff_irq {o : Nat} (ho : o < 0x1000) : pageOfOff (0x004 * 0x1000 + o) = 0x004 := by
  unfold pageOfOff
  omega

theorem inPage_irq {o : Nat} (ho : o < 0x1000) : inPage (0x004 * 0x1000 + o) = o := by
  unfold inPage
  omega

theorem homeOff_irq {o : Nat} (ho : o < 0x1000) : homeOff (0x004 * 0x1000 + o) = 0x004 * 0x1000 + o := by
  simp [homeOff, pageOfOff_irq ho, blockOf_irq]

theorem bankedOff_irq {o : Nat} (ho : o < 0x1000) : bankedOff (0x004 * 0x1000 + o) = false := by
  simp [bankedOff, pageOfOff_irq ho]

/-- The registers of the page are distinct. -/
theorem Hw.rd_wr_irq_other (h : Hw) {o o' : Nat} (v : Nat) (ho : o < 0x1000) (hne : o' ≠ o) :
    (h.wr 0x004 o v).rd 0x004 o' = h.rd 0x004 o' :=
  Hw.rd_wr_other _ _ (regKey_ne_of_low 0 0 (by omega) (homeOff_irq ho) (by omega))

/-- A register that is not banked has one value for every requester. -/
theorem Hw.setReg_unbanked (h : Hw) {off : Nat} (v : Word) (b : Nat) (hbank : bankedOff off = false) :
    h.setReg off v b = h.setReg off v := by
  simp [Hw.setReg, regKey, hbank]

/-- A row whose bits are all RW stores the word as it is written. -/
theorem Hw.putReg_all32 (h : Hw) (off bank : Nat) {row : RegRow} (v : Nat) (hmask : row.mask = all32) :
    h.putReg off bank row v = h.setReg off (BitVec.ofNat 32 v) bank := by
  have hones : BitVec.ofNat 32 all32 = BitVec.allOnes 32 := by decide
  simp only [Hw.putReg, hmask, hones, BitVec.not_allOnes, BitVec.and_zero, BitVec.zero_or, BitVec.and_allOnes]

/-! ### Bits set in a register -/

theorem putBit_true_testBit (v n m : Nat) : (putBit v n true).testBit m = (v.testBit m || decide (n = m)) := by
  simp [putBit, Nat.testBit_two_pow]

theorem Hw.bit_setBit_true (h : Hw) (p o n : Nat) {m : Nat} (hm : m < 32) :
    (h.setBit p o n true).bit p o m = (h.bit p o m || decide (n = m)) := by
  have hword : (0x100000000 : Nat) = 2 ^ 32 := by norm_num
  rw [Hw.bit, Hw.setBit, Hw.rd_wr_same, hword, Nat.testBit_mod_two_pow, putBit_true_testBit]
  simp [hm, Hw.bit]

theorem Hw.rd_lt (h : Hw) (p o b : Nat) : h.rd p o b < 0x100000000 := (h.reg _ _).isLt

/-! ### Edges of sources (R419, R420, R427) -/

theorem Hw.edge_awake {h : Hw} (n : Nat) (hpow : h.pow.state < 2) : h.edge n = h.latch n := if_pos hpow

/-- In Hold, Watch and Deep an edge waits for the wake, and no register changes. -/
theorem Hw.edge_asleep {h : Hw} (n : Nat) (hpow : 2 ≤ h.pow.state) : n ∈ (h.edge n).pow.edges ∧ (h.edge n).regs = h.regs := by
  rw [Hw.edge, if_neg (by omega)]
  by_cases hin : n ∈ h.pow.edges <;> simp [hin]

/-- EVT_CNT of a source. -/
def Hw.evtCnt (h : Hw) (n : Nat) : Nat := bitsOf (h.rd 0x004 (0x200 + 4 * (n / 2))) (16 * (n % 2) + 15) (16 * (n % 2))

/-- Half `b` of a word, replaced by `x`. -/
theorem bitsOf_replaceHalf {w : Nat} (b x : Nat) (hw : w < 0x100000000) (hb : b < 2) (hx : x < 0x10000) :
    bitsOf ((w - bitsOf w (16 * b + 15) (16 * b) * 2 ^ (16 * b) + x * 2 ^ (16 * b)) % 0x100000000) (16 * b + 15) (16 * b) = x := by
  obtain rfl | rfl : b = 0 ∨ b = 1 := by omega
  all_goals
    simp only [bitsOf, Nat.reduceMul, Nat.reduceAdd, Nat.reduceSub, Nat.reducePow]
    omega

theorem Hw.latch_pend (h : Hw) {n : Nat} (hn : n < 128) : (h.latch n).bit 0x004 (0x040 + 4 * (n / 32)) (n % 32) = true := by
  have hkept := (h.setBit 0x004 (0x040 + 4 * (n / 32)) (n % 32) true).rd_wr_irq_other (o := 0x200 + 4 * (n / 2))
    (o' := 0x040 + 4 * (n / 32))
  rw [Hw.latch, Hw.bit, hkept _ (by omega) (by omega), ← Hw.bit, Hw.bit_setBit_true _ _ _ _ (by omega)]
  simp

theorem Hw.latch_evtCnt (h : Hw) (n : Nat) : (h.latch n).evtCnt n = (h.evtCnt n + 1) % 0x10000 := by
  rw [Hw.latch, Hw.evtCnt, Hw.rd_wr_same]
  exact bitsOf_replaceHalf _ _ (h.rd_lt _ _ _) (by omega) (by omega)

theorem Hw.latch_mask (h : Hw) {n : Nat} (hn : n < 128) (m : Nat) :
    (h.latch n).bit 0x004 (0x050 + 4 * (n / 32)) m = h.bit 0x004 (0x050 + 4 * (n / 32)) m := by
  rw [Hw.latch, Hw.bit, Hw.rd_wr_irq_other _ _ (by omega) (by omega), Hw.setBit, Hw.rd_wr_irq_other _ _ (by omega) (by omega),
    Hw.bit]

theorem Hw.srcOn_masked {h : Hw} {n : Nat} (hmask : h.bit 0x004 (0x050 + 4 * (n / 32)) (n % 32) = true) : h.srcOn n = false := by
  simp [Hw.srcOn, hmask]

/-- A source that is masked or not pending makes no summary active (R420). -/
theorem Hw.sumFirst_ne_of_off {h : Hw} {n : Nat} (hoff : h.srcOn n = false) (k : Nat) : h.sumFirst k ≠ some n := by
  intro hfirst
  have hon := List.find?_some hfirst
  simp [hoff] at hon

/-! ### Summary messages (R422) -/

theorem Hw.rd_of_regs {h g : Hw} (hregs : g.regs = h.regs) (p o b : Nat) : g.rd p o b = h.rd p o b := by
  simp only [Hw.rd, Hw.reg, hregs]

theorem Hw.sumDest_setBit_sumOut (h : Hw) (k : Nat) (b : Bool) (j : Nat) : (h.setBit 0x004 0x074 k b).sumDest j = h.sumDest j := by
  rw [Hw.sumDest, Hw.setBit, Hw.rd_wr_irq_other _ _ (by omega) (by omega), Hw.sumDest]

section
variable {h : Hw} {k : Nat}

theorem Hw.sumSend_portA (hdest : h.sumDest k = 1) :
    h.sumSend k = { h.setBit 0x004 0x074 k true with pcieA := h.pcieA.post k } := by
  simp [Hw.sumSend, Hw.sumDest_setBit_sumOut, hdest]

theorem Hw.sumSend_portB (hdest : h.sumDest k = 2) :
    h.sumSend k = { h.setBit 0x004 0x074 k true with pcieB := h.pcieB.post k } := by
  simp [Hw.sumSend, Hw.sumDest_setBit_sumOut, hdest]

theorem Hw.sumSend_handler (hA : h.sumDest k ≠ 1) (hB : h.sumDest k ≠ 2) :
    h.sumSend k = (h.setBit 0x004 0x074 k true).send (.handlerInput k) := by
  unfold Hw.sumSend
  dsimp only
  rw [Hw.sumDest_setBit_sumOut]
  split
  · exact absurd ‹_› hA
  · exact absurd ‹_› hB
  · rfl

end

/-- Whatever the destination, of the registers only SUM_OUT is written. -/
theorem Hw.sumSend_regs (h : Hw) (k : Nat) : (h.sumSend k).regs = (h.setBit 0x004 0x074 k true).regs := by
  by_cases hA : h.sumDest k = 1
  · rw [Hw.sumSend_portA hA]
  · by_cases hB : h.sumDest k = 2
    · rw [Hw.sumSend_portB hB]
    · rw [Hw.sumSend_handler hA hB, Hw.send_regs]

/-- Sending a summary's message makes it outstanding, and no other. -/
theorem Hw.sumOut_sumSend (h : Hw) (k : Nat) {j : Nat} (hj : j < 32) : (h.sumSend k).sumOut j = (h.sumOut j || decide (k = j)) := by
  rw [Hw.sumOut, Hw.bit, Hw.rd_of_regs (h.sumSend_regs k), ← Hw.bit, Hw.bit_setBit_true _ _ _ _ hj, Hw.sumOut]

theorem PciePort.mem_waiting_post (p : PciePort) (k : Nat) : k ∈ (p.post k).waiting := by
  by_cases hin : k ∈ p.waiting <;> simp [PciePort.post, hin]

/-- An inactive summary has nothing to send. -/
theorem Hw.sumDue_inactive {h : Hw} {k : Nat} (hidle : h.sumActive k = false) : h.sumDue k = false := by
  simp [Hw.sumDue, hidle]

theorem Hw.sumSendAll_inactive {h : Hw} {ks : List Nat} (fuel : Nat) (hidle : ∀ k ∈ ks, h.sumActive k = false) :
    Hw.sumSendAll ks fuel h = h := by
  cases fuel with
  | zero => rfl
  | succ fuel =>
    have hnone : ((List.range 128).findSome? fun s =>
        let k := h.routeOf s
        if h.srcOn s && h.sumDue k && ks.contains k then some k else none) = none := by
      refine List.findSome?_eq_none_iff.mpr fun s _ => if_neg fun hdue => ?_
      simp only [Bool.and_eq_true, List.contains_iff_mem] at hdue
      obtain ⟨⟨-, hdue⟩, hmem⟩ := hdue
      rw [Hw.sumDue_inactive (hidle _ hmem)] at hdue
      exact absurd hdue (by decide)
    rw [Hw.sumSendAll, hnone]

/-! ### The commands -/

theorem queueAt_irq (o : Nat) : queueAt 0x004 o = none := by simp [queueAt, pageEng, blockOf_irq]

theorem Hw.writable_irq (h : Hw) (o v : Nat) : h.writable 0x004 o v = true := by
  simp [Hw.writable, Hw.writable.queueGate, blockOf_irq, queueAt_irq]

theorem Hw.afterWrite_irq (old h : Hw) (o : Nat) : Hw.afterWrite old 0x004 o h = h := by simp [Hw.afterWrite, blockOf_irq]

/-- The page raises no interrupt of its own (R418). -/
theorem Hw.watch_irq (h : Hw) (f : Hw → Hw) : h.watch 0x004 f = f h := by simp [Hw.watch, srcOfPage, blockOf_irq]

theorem doorbell_irq (o : Nat) : doorbell 0x004 o = (o == 0x008) := by simp [doorbell, queueReg, mboxReg, blockOf_irq]

/-- Beside PAGE_CTL, SUM_ACK and SW_TRIG act when they are written. -/
theorem actsOn_irq {r : Req} {o : Nat} (v : Word) (hctl : o ≠ 0x008) (hack : o ≠ 0x070) (htrig : o ≠ 0x07C) : actsOn r 0x004 o v = none := by
  simp [actsOn, queueAt_irq, blockOf_irq, hctl, hack, htrig]

/-- The row of the four PEND words. -/
def pendRow : RegRow := (RegRow.rw "PENDw" 0x040 0 all32).times 4 4

theorem regRow_pend : ∀ w : Fin 4, regRow (0x004 * 0x1000 + (0x040 + 4 * w.val)) = some pendRow := by decide

/-- A write of a PEND word stores it, with no edge and no count (R419, R421). -/
theorem plainWrite_pend {h : Hw} {r : Req} (w : Fin 4) (v : Word) (hheld : h.portHeld r = false)
    (hacc : h.accepts r 0x004 (0x040 + 4 * w.val) = true) :
    plainWrite r (0x004 * 0x1000 + (0x040 + 4 * w.val)) v h = h.wr 0x004 (0x040 + 4 * w.val) v.toNat := by
  have ho : 0x040 + 4 * w.val < 0x1000 := by omega
  have hbell : doorbell 0x004 (0x040 + 4 * w.val) = false := by
    rw [doorbell_irq, beq_eq_false_iff_ne]
    omega
  have hok : ((!pendRow.handler || r == .handler) && pendRow.takes v.toNat && h.writable 0x004 (0x040 + 4 * w.val) v.toNat) = true := by
    rw [h.writable_irq]
    rfl
  unfold plainWrite
  simp only [pageOfOff_irq ho, inPage_irq ho]
  rw [Hw.guardWrite_accepted h _ _ hheld hacc hbell, regRow_pend]
  show (if _ then _ else _) = _
  rw [if_pos hok, Hw.watch_irq, Hw.afterWrite_irq, Hw.putReg_all32 _ _ _ _ rfl, Hw.setReg_unbanked _ _ _ (bankedOff_irq ho)]
  rfl

theorem exec_registerWrite_pend {s : State} {r : Req} (w : Fin 4) (v : Word) (hreach : Reaches s r 0x004 (0x040 + 4 * w.val)) :
    exec (.registerWrite r (0x004040 + 4 * w.val) 4 v.toNat) s = .next { s with hw := s.hw.wr 0x004 (0x040 + 4 * w.val) v.toNat } := by
  obtain ⟨hup, hclear, hacc⟩ := hreach
  have hoff : 0x004040 + 4 * w.val = 0x004 * 0x1000 + (0x040 + 4 * w.val) := by omega
  have ho : 0x040 + 4 * w.val < 0x1000 := by omega
  have hplain : actsOn r (pageOfOff (0x004 * 0x1000 + (0x040 + 4 * w.val))) (inPage (0x004 * 0x1000 + (0x040 + 4 * w.val))) v = none := by
    rw [pageOfOff_irq ho, inPage_irq ho]
    exact actsOn_irq v (by omega) (by omega) (by omega)
  have hstate : ∀ w : Fin 4, 0x004 * 0x1000 + (0x040 + 4 * w.val) ∉ stateOffs := by decide
  rw [hoff, exec_registerWrite hup (by omega) (log2_toNat_lt v) (by omega), State.writeBytes_word _ _ _ _ (by omega), BitVec.ofNat_toNat,
    BitVec.setWidth_eq, State.writeWord_plain s hplain (hstate w), plainWrite_pend w v hclear hacc]

/-- What a write that reaches SW_TRIG does. -/
theorem exec_swTrig {s : State} {r : Req} (v : Word) (hreach : Reaches s r 0x004 0x07C) :
    let n := bitsOf v.toNat 6 0
    exec (.swTrig r v) s = .next { s with
      hw := if (88 ≤ n ∧ n ≤ 95) ∨ (112 ≤ n ∧ n ≤ 119) then s.hw.edge n else s.hw.badAccess (pageOff 0x004 0x07C) } := by
  obtain ⟨hup, hclear, hacc⟩ := hreach
  show execSwTrig r v s = _
  rw [execSwTrig, State.onHw_up s _ hup, swTrig, Hw.guardWrite_accepted _ _ _ hclear hacc (by decide)]

theorem exec_summaryMessage {s : State} (k : Fin 32) (hup : Up s) : exec (.summaryMessage k) s = .next { s with
    hw := if s.hw.sumDue k.val ∧ s.hw.sumNext (s.hw.sumDest k.val) = some k.val then s.hw.sumSend k.val else s.hw } := by
  show execSummaryMessage k s = _
  rw [execSummaryMessage, State.onHw_up s _ hup, summaryMessage]

/-- What a write that reaches SUM_ACK does. -/
theorem exec_sumAck {s : State} {r : Req} (v : Word) (hreach : Reaches s r 0x004 0x070) :
    let ks := (List.range 32).filter fun k => v.toNat.testBit k
    let h := s.hw.wr 0x004 0x074 (s.hw.reg (pageOff 0x004 0x074) &&& ~~~ v).toNat
    exec (.sumAck r v) s = .next { s with hw := h.sumSendAll ks 32 } := by
  obtain ⟨hup, hclear, hacc⟩ := hreach
  show execSumAck r v s = _
  rw [execSumAck, State.onHw_up s _ hup, sumAck, Hw.guardWrite_accepted _ _ _ hclear hacc (by decide)]

/-- Settles O54: edges latched and edges that wait, a written PEND word, SW_TRIG, a summary's message, and SUM_ACK. -/
theorem interruptController : Obligations.InterruptController := by
  unfold Obligations.InterruptController
  refine ⟨?latched, fun h n hpow => Hw.edge_asleep n hpow, fun s r w v hreach => exec_registerWrite_pend w v hreach, ?trigger,
    ?message, ?acknowledge⟩
  case latched =>
    intro h n hn hpow
    dsimp only
    rw [Hw.edge_awake n hpow]
    refine ⟨h.latch_pend hn, h.latch_evtCnt n, fun hmask => ?_⟩
    have hoff : (h.latch n).srcOn n = false := Hw.srcOn_masked ((h.latch_mask hn _).trans hmask)
    exact ⟨hoff, Hw.sumFirst_ne_of_off hoff⟩
  case trigger =>
    intro s r v hreach
    refine ⟨fun hsoft => ?_, fun hhard => ?_⟩
    · rw [exec_swTrig v hreach, if_pos hsoft]
    · rw [exec_swTrig v hreach, if_neg hhard]
  case message =>
    intro s k hup
    refine ⟨fun hstay => ?_, fun hgo => ⟨s.hw.sumSend k.val, ?_, ?_, ?_, ?_, ?_, ?_⟩⟩
    · rw [exec_summaryMessage k hup, if_neg hstay]
    · rw [exec_summaryMessage k hup, if_pos hgo]
    · simp [Hw.sumOut_sumSend]
    · intro hA
      rw [Hw.sumSend_portA hA]
      exact PciePort.mem_waiting_post _ _
    · intro hB
      rw [Hw.sumSend_portB hB]
      exact PciePort.mem_waiting_post _ _
    · intro hH
      exact Hw.sumSend_handler (by omega) (by omega)
    · intro j hj
      have hne : k.val ≠ j.val := fun heq => hj (Fin.ext heq.symm)
      simp [Hw.sumOut_sumSend, hne]
  case acknowledge =>
    intro s r v hreach
    refine ⟨exec_sumAck v hreach, fun hidle => ?_⟩
    rw [exec_sumAck v hreach, Hw.sumSendAll_inactive 32 hidle]

end Sys2Proof.Machine
end

section
/-! PROOF of O1 to O7, O11 and O59: what a command of the module can be.

Every command that answers a next state is of one of a few forms (`exec_ran`): a change of the hardware part while the rails are up, a
meaning that also reaches the boot store, a supply event, the power-on reset, or one of the two flash commands of recovery. What the boot
meanings do is said once, as `State.Quiet`: the boot store keeps its form and its counters, and below the lifetime log no byte differs. -/

namespace Sys2Proof.Machine

open Sys2Proof.Claims

/-! ### The flash below the lifetime log -/

/-- Where the lifetime log begins in the flash (R456). -/
def logBase : Nat := 0x3100000

/-- From `s` to `t` no flash byte below the lifetime log differs. -/
def State.LogOnly (s t : State) : Prop := ∀ o < logBase, t.boot.byte o = s.boot.byte o

theorem State.LogOnly.trans {a b c : State} (h : State.LogOnly a b) (k : State.LogOnly b c) : State.LogOnly a c :=
  fun o ho => (k o ho).trans (h o ho)

/-- From `s` to `t` the waiting commands stand, the boot store keeps its form, no counter falls, and below the log the flash stands. -/
def State.Quiet (s t : State) : Prop := State.Tame s t ∧ State.LogOnly s t

theorem State.Quiet.trans {a b c : State} (h : State.Quiet a b) (k : State.Quiet b c) : State.Quiet a c :=
  ⟨h.1.trans k.1, h.2.trans k.2⟩

/-- A change that leaves the flash as it is. -/
theorem State.Quiet.of_flash {s t : State} (ht : State.Tame s t) (hf : t.boot.flash = s.boot.flash) : State.Quiet s t :=
  ⟨ht, fun o _ => by unfold Boot.byte; rw [hf]⟩

theorem State.Quiet.hw (s : State) (h : Hw) : State.Quiet s { s with hw := h } := .of_flash (.hw s h) rfl

theorem State.Quiet.refl (s : State) : State.Quiet s s := .hw s s.hw

theorem State.Quiet.guardWrite {s : State} {f : State → State} (r : Req) (p o v : Nat) (h : State.Quiet s (f s)) :
    State.Quiet s (s.guardWrite r p o v f) := by
  unfold State.guardWrite
  split
  · exact .hw s _
  · split
    · exact .hw s _
    · exact h

theorem logBase_le_logOff (n : Nat) : logBase ≤ logOff n := Nat.le_add_right _ _

/-- A byte below the log lies in another sector than any entry of it. -/
theorem sector_ne_of_log {o : Nat} (n : Nat) (ho : o < logBase) : o / 0x10000 ≠ logOff n / 0x10000 := by
  have hlog := logBase_le_logOff n
  unfold logBase at ho hlog
  omega

theorem State.lifeAppend_quiet (s : State) (reason : Nat) : State.Quiet s (s.lifeAppend reason) := by
  refine ⟨s.lifeAppend_tame reason, fun o ho => ?_⟩
  unfold State.lifeAppend
  dsimp only
  split
  · rfl
  · show (Boot.program _ _ _).byte o = _
    rw [Boot.byte_program_other _ _ _ _ (.inl (lt_of_lt_of_le ho (logBase_le_logOff _)))]
    split
    · exact Boot.byte_erase_other _ _ _ (sector_ne_of_log _ ho)
    · rfl

/-! ### The meanings that reach the boot store -/

theorem State.lifeBoot_quiet (s : State) : State.Quiet s s.lifeBoot := .hw s _

theorem State.bootBlocks_quiet (s : State) : State.Quiet s s.bootBlocks := .of_flash s.bootBlocks_tame rfl

/-- What a shutdown asked for appends at the end of `State.startImage`. -/
theorem State.Quiet.owed {s u : State} (h : State.Quiet s u) : State.Quiet s (if u.hw.pow.shdnReq then u.lifeAppend 2 else u) := by
  split
  · exact h.trans (u.lifeAppend_quiet 2)
  · exact h

theorem State.startImage_quiet (s : State) (seed : List Byte) (n svn : Nat) (d : List Byte) : State.Quiet s (s.startImage seed n svn d) := by
  unfold State.startImage
  refine State.Quiet.owed (.trans (.trans ?_ (State.bootBlocks_quiet _)) (State.lifeBoot_quiet _))
  exact .of_flash (.same _ _ _ rfl rfl) rfl

theorem State.bootFlow_quiet (s : State) (cold : Bool) : State.Quiet s (s.bootFlow cold) := by
  refine ⟨s.bootFlow_tame cold, fun o ho => ?_⟩
  unfold State.bootFlow
  generalize (if cold = true then _ else s.boot.seed) = seed
  dsimp only
  split
  · rfl
  · split
    · rfl
    · exact (State.startImage_quiet _ _ _ _ _).2 o ho

theorem powerOnReset_quiet (s : State) : State.Quiet s (powerOnReset s) := by
  unfold powerOnReset
  dsimp only
  split
  · exact .refl s
  · exact (State.Quiet.hw s _).trans (State.bootFlow_quiet _ _)

theorem State.moduleReset_quiet (s : State) (cause : Nat) (wipe : Bool) : State.Quiet s (s.moduleReset cause wipe) :=
  (State.Quiet.hw s _).trans (State.bootFlow_quiet _ _)

theorem modReset_quiet (r : Req) (v : Word) (s : State) : State.Quiet s (modReset r v s) := by
  refine .guardWrite _ _ _ _ ?_
  dsimp only
  split
  · exact s.moduleReset_quiet _ _
  · split
    · exact s.moduleReset_quiet _ _
    · exact .hw s _

theorem watchdogExpiry_quiet (s : State) : State.Quiet s (watchdogExpiry s) := by
  unfold watchdogExpiry
  dsimp only
  split
  · exact .refl s
  · exact s.moduleReset_quiet _ _

theorem State.wdogStart_quiet (s : State) : State.Quiet s s.wdogStart := .of_flash s.wdogStart_tame rfl

theorem State.wdogWrite_quiet {s : State} {f : State → State} (r : Req) (o : Nat) (h : State.Quiet s (f s)) :
    State.Quiet s (s.wdogWrite r o f) := by
  refine .guardWrite _ _ _ _ ?_
  split
  · exact .hw s _
  · exact h

/-- A guarded write leaves the flash where what it guards does. -/
theorem State.guardWrite_flash {s : State} {f : State → State} (r : Req) (p o v : Nat) (h : (f s).boot.flash = s.boot.flash) :
    (s.guardWrite r p o v f).boot.flash = s.boot.flash := by
  unfold State.guardWrite
  split
  · rfl
  · split
    · rfl
    · exact h

theorem bootCtl_quiet (r : Req) (v : Nat) (s : State) : State.Quiet s (bootCtl r v s) := by
  refine .of_flash (bootCtl_tame r v s) (State.guardWrite_flash _ _ _ _ ?_)
  dsimp only
  split <;> rfl

theorem reqCtl_quiet (r : Req) (v : Nat) (s : State) : State.Quiet s (reqCtl r v s) := by
  refine .of_flash (reqCtl_tame r v s) (State.guardWrite_flash _ _ _ _ ?_)
  dsimp only
  split
  · rfl
  · split
    · rfl
    · split <;> rfl

theorem reportBuild_boot (s : State) : (reportBuild s).boot = s.boot := by
  unfold reportBuild
  split
  · rfl
  · dsimp only
    split
    · rfl
    · split
      · rfl
      · rfl
      · rfl
      · split <;> rfl

theorem State.signNow_boot (s : State) : s.signNow.boot = s.boot := by
  unfold State.signNow
  dsimp only
  split
  · rfl
  · rfl
  · rfl
  · split <;> rfl

theorem reportBuild_quiet (s : State) : State.Quiet s (reportBuild s) :=
  .of_flash (reportBuild_tame s) (congrArg Boot.flash (reportBuild_boot s))

theorem sign_quiet (r : Req) (v : Nat) (s : State) : State.Quiet s (sign r v s) :=
  .of_flash (sign_tame r v s) (State.guardWrite_flash _ _ _ _ (congrArg Boot.flash (State.signNow_boot _)))

theorem lifePeriod_quiet (s : State) : State.Quiet s (Machine.lifePeriod s) := by
  unfold Machine.lifePeriod
  dsimp only
  split
  · exact (State.Quiet.hw s _).trans (State.lifeAppend_quiet _ _)
  · exact .refl s

theorem lifeWriteNow_quiet (r : Req) (v : Nat) (s : State) : State.Quiet s (s.guardWrite r 0x006 0x040 v fun s => s.lifeAppend 3) :=
  .guardWrite _ _ _ _ (s.lifeAppend_quiet 3)

theorem shdnReq_quiet (s : State) : State.Quiet s (shdnReq s) := by
  unfold shdnReq
  dsimp only
  split
  · exact (State.Quiet.hw s _).trans (State.lifeAppend_quiet _ _)
  · exact .hw s _

/-- A 32-bit write is a plain one, or one of the seven registers whose write reaches the boot store. -/
theorem State.writeWord_quiet (s : State) (r : Req) (off : Nat) (v : Word) : State.Quiet s (s.writeWord r off v) := by
  unfold State.writeWord
  dsimp only
  split
  · exact modReset_quiet r v s
  split
  · refine State.wdogWrite_quiet _ _ ?_
    split
    · exact (State.Quiet.hw s _).trans (State.wdogStart_quiet _)
    · exact .hw s _
  split
  · exact State.wdogWrite_quiet _ _ s.wdogStart_quiet
  split
  · exact reqCtl_quiet r _ s
  split
  · exact bootCtl_quiet r _ s
  split
  · exact sign_quiet r _ s
  split
  · exact lifeWriteNow_quiet r _ s
  split <;> exact .hw s _

theorem State.writeBytes_quiet (s : State) (r : Req) (off size v : Nat) : State.Quiet s (s.writeBytes r off size v) := by
  unfold State.writeBytes
  split
  · exact s.writeWord_quiet _ _ _
  split
  · exact (s.writeWord_quiet _ _ _).trans (State.writeWord_quiet _ _ _ _)
  split <;> exact .hw s _

/-! ### The forms of a command -/

/-- The commands of the supply sequencer that act without rails. -/
def Instr.Supply (c : Instr) : Prop :=
  (∃ i, c = .railFault i) ∨ (∃ i, c = .undervoltageLockout i) ∨ (∃ i, c = .supplyInputValid i)

/-- FLASH_ERASE's meaning. -/
def State.serveErase (off : Nat) (s : State) : State :=
  if s.serves ∧ off < 0x2000000 then { s with boot := s.boot.erase off } else s

/-- FLASH_PROGRAM's meaning on a well-formed line. -/
def State.serveProgram (off : Nat) (bytes : List Byte) (s : State) : State :=
  if s.serves ∧ off + bytes.length ≤ 0x2000000 then { s with boot := s.boot.program off bytes } else s

/-- What a command that answers makes of the state `s`. -/
inductive Ran (c : Instr) (s : State) : State → Prop
  | hw (f : Hw → Hw) : Ran c s (s.onHw f)
  | whole {f : State → State} (hf : State.Quiet s (f s)) : Ran c s (s.whenUp f)
  | supply (h : Hw) (hc : Instr.Supply c) : Ran c s { s with hw := h }
  | power (hc : c = .powerOnReset) : Ran c s (powerOnReset s)
  | idle : Ran c s s
  | erase (off : Nat) (hc : c = .flashErase off) : Ran c s (s.whenUp (State.serveErase off))
  | program (off : Nat) (bytes : List Byte) (hc : c = .flashProgram off bytes) : Ran c s (s.whenUp (State.serveProgram off bytes))

theorem Ran.of_hw {c : Instr} {s t : State} {f : Hw → Hw} (h : (.next (s.onHw f) : Out) = .next t) : Ran c s t := by
  cases h
  exact .hw f

theorem Ran.of_whole {c : Instr} {s t : State} {f : State → State} (hf : State.Quiet s (f s)) (h : (.next (s.whenUp f) : Out) = .next t) :
    Ran c s t := by
  cases h
  exact .whole hf

/-- A command that is guarded by a test of its operands. -/
theorem Ran.of_guard {c : Instr} {s t : State} {p : Prop} [Decidable p] {x y : Out} (hx : ∀ u, x ≠ .next u)
    (hy : y = .next t → Ran c s t) (h : (if p then x else y) = .next t) : Ran c s t := by
  split at h
  · exact absurd h (hx t)
  · exact hy h

theorem refused_ne_next (r : Refusal) (u : State) : (.refused r : Out) ≠ .next u := nofun
theorem fault_ne_next (f : Fault) (u : State) : (.fault f : Out) ≠ .next u := nofun

/-- A command of the hardware part that is guarded by a test of its operands. -/
theorem Ran.of_known {c : Instr} {s t : State} {p : Prop} [Decidable p] {f : Hw → Hw} {r : Refusal}
    (h : (if p then .next (s.onHw f) else .refused r : Out) = .next t) : Ran c s t := by
  split at h
  · exact .of_hw h
  · cases h

/-- What a command that answers a next state can have done. -/
theorem exec_ran {c : Instr} {s t : State} (h : exec c s = .next t) : Ran c s t := by
  cases c
  case registerWrite r off size v =>
    exact Ran.of_guard (refused_ne_next _) (Ran.of_guard (fault_ne_next _) (Ran.of_whole (s.writeBytes_quiet _ _ _ _))) h
  case readClear => exact Ran.of_guard (refused_ne_next _) (Ran.of_guard (fault_ne_next _) Ran.of_hw) h
  case loRead | hiRead => exact Ran.of_guard (refused_ne_next _) Ran.of_hw h
  case loWrite | hiWrite => exact Ran.of_guard (refused_ne_next _) (Ran.of_whole (s.writeWord_quiet _ _ _)) h
  case pageEnable | softReset | softResetDone | stepMode | step => exact Ran.of_guard (fault_ne_next _) Ran.of_hw h
  case drainComplete | queueTailWrite | rejectedCommandHalt | nop | ctxLoad | traceMark | completionRecordWrite | queueKill | queueSkip
    | queuePreempt | queueResume | queueEnable | queueCommitWrite | cqHeadWrite => exact Ran.of_known h
  case kill e q cause =>
    have h : (if (killCauses e).contains cause then _ else _ : Out) = .next t := h
    split at h
    · exact Ran.of_known h
    · cases h
  case arrayRepairWrite | flitReceive | watchSample | thresholdCompare => exact Ran.of_known h
  case adopt r v => cases r <;> exact Ran.of_hw h
  case railFault i => cases h; exact .supply _ (.inl ⟨i, rfl⟩)
  case undervoltageLockout i => cases h; exact .supply _ (.inr (.inl ⟨i, rfl⟩))
  case supplyInputValid i => cases h; exact .supply _ (.inr (.inr ⟨i, rfl⟩))
  case powerOnReset => cases h; exact .power rfl
  case testReset => cases h; exact .idle
  case shdnReq => exact Ran.of_whole (shdnReq_quiet s) h
  case modReset r v => exact Ran.of_whole (modReset_quiet r v s) h
  case wdogKick => exact Ran.of_whole (State.wdogWrite_quiet _ _ s.wdogStart_quiet) h
  case watchdogExpiry => exact Ran.of_whole (watchdogExpiry_quiet s) h
  case portReady | bootOk => exact Ran.of_whole (bootCtl_quiet _ _ s) h
  case flashErase off => cases h; exact .erase off rfl
  case flashProgram off bytes =>
    refine Ran.of_guard (refused_ne_next _) (fun h => ?_) h
    cases h
    exact .program off bytes rfl
  case flashRead =>
    refine Ran.of_whole ?_ h
    split
    · exact .hw s _
    · exact .refl s
  case attest | extend => exact Ran.of_whole (reqCtl_quiet _ _ s) h
  case reportBuild => exact Ran.of_whole (reportBuild_quiet s) h
  case sign => exact Ran.of_whole (sign_quiet _ _ s) h
  case lifeWriteNow => exact Ran.of_whole (lifeWriteNow_quiet _ _ s) h
  case lifePeriod => exact Ran.of_whole (lifePeriod_quiet s) h
  all_goals exact Ran.of_hw h

/-! ### What follows for every command -/

theorem State.serveErase_tame (off : Nat) (s : State) : State.Tame s (s.serveErase off) := by
  unfold State.serveErase
  split
  · exact ⟨rfl, Boot.erase_inv _ _, fun _ _ => Nat.le_refl _⟩
  · exact .refl s

theorem State.serveProgram_tame (off : Nat) (bytes : List Byte) (s : State) : State.Tame s (s.serveProgram off bytes) := by
  unfold State.serveProgram
  split
  · exact ⟨rfl, Boot.program_inv _ _ _, fun _ _ => Nat.le_refl _⟩
  · exact .refl s

/-- Every command leaves the waiting commands, keeps the boot store's form, and takes no counter back. -/
theorem exec_tame {c : Instr} {s t : State} (h : exec c s = .next t) : State.Tame s t := by
  cases exec_ran h with
  | hw f => exact .onHw s f
  | whole hf => exact .whenUp s _ hf.1
  | supply k _ => exact .hw s k
  | power _ => exact powerOnReset_tame s
  | idle => exact .refl s
  | erase off _ => exact .whenUp s _ (s.serveErase_tame off)
  | program off bytes _ => exact .whenUp s _ (s.serveProgram_tame off bytes)

/-- Every step keeps the boot store's form and takes no counter back. -/
theorem step_boot {s t : State} (h : step s = .next t) : (s.boot.Inv → t.boot.Inv) ∧ Boot.NoRollback s.boot t.boot := by
  unfold step at h
  split at h
  · cases h
    exact s.tick_tame.2
  · exact (exec_tame h).2

/-- Settles O6: the tick and every command are tame. -/
theorem everyStepKeepsBootStore : Obligations.EveryStepKeepsBootStore := fun _ _ hinv h => (step_boot h).1 hinv

/-- Settles O7: the tick and every command are tame. -/
theorem rollbackCountersNeverDecrease : Obligations.RollbackCountersNeverDecrease := fun _ _ h => (step_boot h).2

/-- An erase that changes a byte was served in recovery, and the byte lies in its sector. -/
theorem State.serveErase_byte {off o : Nat} {s : State} (hne : (s.whenUp (State.serveErase off)).boot.byte o ≠ s.boot.byte o) :
    Up s ∧ s.serves = true ∧ off < 0x2000000 ∧ o / 0x10000 = off / 0x10000 := by
  by_cases hup : s.hw.pow.off = false
  · rw [State.whenUp_up _ _ hup, State.serveErase] at hne
    by_cases hserve : s.serves ∧ off < 0x2000000
    · rw [if_pos hserve] at hne
      exact ⟨hup, hserve.1, hserve.2, by_contra fun hsec => hne (Boot.byte_erase_other _ _ _ hsec)⟩
    · rw [if_neg hserve] at hne
      exact absurd rfl hne
  · rw [State.whenUp_off _ _ (by simpa using hup)] at hne
    exact absurd rfl hne

/-- A programming that changes a byte was served in recovery, and the byte is one of those named. -/
theorem State.serveProgram_byte {off o : Nat} {bytes : List Byte} {s : State}
    (hne : (s.whenUp (State.serveProgram off bytes)).boot.byte o ≠ s.boot.byte o) :
    Up s ∧ s.serves = true ∧ off + bytes.length ≤ 0x2000000 ∧ off ≤ o ∧ o < off + bytes.length := by
  by_cases hup : s.hw.pow.off = false
  · rw [State.whenUp_up _ _ hup, State.serveProgram] at hne
    by_cases hserve : s.serves ∧ off + bytes.length ≤ 0x2000000
    · rw [if_pos hserve] at hne
      have hin : ¬ (o < off ∨ off + bytes.length ≤ o) := fun hout => hne (Boot.byte_program_other _ _ _ _ hout)
      exact ⟨hup, hserve.1, hserve.2, by omega, by omega⟩
    · rw [if_neg hserve] at hne
      exact absurd rfl hne
  · rw [State.whenUp_off _ _ (by simpa using hup)] at hne
    exact absurd rfl hne

theorem State.inRecovery_of_serves {s : State} (h : s.serves = true) : s.inRecovery = true := by
  unfold State.serves at h
  simp only [Bool.and_eq_true] at h
  exact h.1

/-- Settles O59: of the forms of a command only the two flash commands touch a byte below the log. -/
theorem flashChangesOnlyInRecovery : Obligations.FlashChangesOnlyInRecovery := by
  intro c s t o h ho hne
  cases exec_ran h with
  | hw f => rw [State.onHw_boot] at hne; exact absurd rfl hne
  | @whole f hf =>
    unfold State.whenUp at hne
    split at hne
    · exact absurd rfl hne
    · exact absurd (hf.2 o ho) hne
  | supply k _ => exact absurd rfl hne
  | power _ => exact absurd ((powerOnReset_quiet s).2 o ho) hne
  | idle => exact absurd rfl hne
  | erase off hc =>
    obtain ⟨hup, hserve, hoff, hsec⟩ := State.serveErase_byte hne
    exact ⟨by omega, hserve, State.inRecovery_of_serves hserve, hup, .inl ⟨off, hc, hsec⟩⟩
  | program off bytes hc =>
    obtain ⟨hup, hserve, hoff, hlo, hhi⟩ := State.serveProgram_byte hne
    exact ⟨by omega, hserve, State.inRecovery_of_serves hserve, hup, .inr ⟨off, bytes, hc, hlo, hhi⟩⟩

/-- Settles O2: every command is tame. -/
theorem commandsLeaveQueue : Obligations.CommandsLeaveQueue := fun _ _ _ h => (exec_tame h).1

/-- Settles O3: of the forms of a command only a supply event and the power-on reset pass the test of the rails. -/
theorem nothingActsWithoutRails : Obligations.NothingActsWithoutRails := by
  intro c s t hoff h hrail huvlo hvalid hpor
  cases exec_ran h with
  | hw f => exact State.onHw_off s f hoff
  | whole _ | erase _ _ | program _ _ _ => exact State.whenUp_off s _ hoff
  | supply _ hc =>
    rcases hc with ⟨i, rfl⟩ | ⟨i, rfl⟩ | ⟨i, rfl⟩
    · exact absurd rfl (hrail i)
    · exact absurd rfl (huvlo i)
    · exact absurd rfl (hvalid i)
  | power hc => exact absurd hc hpor
  | idle => rfl

/-- Settles O1: that is what a step is. -/
theorem stepRunsFrontCommand : Obligations.StepRunsFrontCommand := fun _ _ _ => rfl

/-- Settles O4: every field of the state after reset is a literal. -/
theorem resetState : Obligations.ResetState :=
  ⟨fun _ _ => rfl, rfl, rfl, fun _ => ⟨rfl, rfl⟩, rfl, ⟨rfl, rfl⟩, ⟨rfl, rfl⟩⟩

/-- Settles O5, by the laws of the two kinds of map. -/
theorem storesKeepCanonicalForm : Obligations.StoresKeepCanonicalForm := by
  intro h hcanon
  obtain ⟨hregs, hmem⟩ := hcanon
  exact ⟨fun off v b => ⟨⟨h.setReg_canonical off v b hregs, hmem⟩, h.reg_setReg_same off v b, fun _ _ hne => h.reg_setReg_other v hne⟩,
    fun k bs => ⟨⟨hregs, h.store_canonical k bs hmem⟩, h.byte_store_same k bs, h.byte_store_other k bs⟩,
    fun src dst n => memCopy_wf src dst n h.mem hmem⟩

/-- A batch from another module that names no row, which `Instr.wf` does not allow and EXCHANGE_BATCH takes all the same. -/
def emptyBatch : Instr := .exchangeBatch 0 (.leash 0 { table := 0, snapshot := false, rows := [] })

/-- Refutes O11: EXCHANGE_BATCH answers a next state for an empty batch from another module, which is not well-formed. -/
theorem not_commandsAnswerWhenWellFormed : ¬ Obligations.CommandsAnswerWhenWellFormed := by
  rintro ⟨-, hstops⟩
  have hwf : emptyBatch.wf = false := by decide
  rcases hstops emptyBatch State.reset hwf with ⟨_, h⟩ | h <;> cases h

end Sys2Proof.Machine
end

section
/-! FACTS that the proofs below share: which registers an operation leaves, by their keys; register keys of different offsets; and what
a plain write carries along. -/

namespace Sys2Proof.Machine

open Sys2Proof.Claims

/-! ### Registers that an operation keeps -/

/-- From `h` to `k` every register whose key satisfies `K` reads as before. -/
def Hw.Keeps (K : Nat → Prop) (h k : Hw) : Prop := ∀ off b, K (regKey off b) → k.reg off b = h.reg off b

section
variable {K : Nat → Prop}

theorem Hw.Keeps.refl (h : Hw) : Hw.Keeps K h h := fun _ _ _ => rfl
theorem Hw.Keeps.trans {a b c : Hw} (h : Hw.Keeps K a b) (k : Hw.Keeps K b c) : Hw.Keeps K a c :=
  fun off i hK => (k off i hK).trans (h off i hK)
theorem Hw.Keeps.of_regs {h k : Hw} (e : k.regs = h.regs) : Hw.Keeps K h k := fun _ _ _ => by unfold Hw.reg; rw [e]
theorem Hw.Keeps.mono {L : Nat → Prop} {h k : Hw} (hK : ∀ x, L x → K x) (hk : Hw.Keeps K h k) : Hw.Keeps L h k :=
  fun off b hL => hk off b (hK _ hL)

theorem Hw.setReg_keeps (h : Hw) {off : Nat} (v : Word) {b : Nat} (hout : ¬ K (regKey off b)) : Hw.Keeps K h (h.setReg off v b) :=
  fun _ _ hK => Hw.reg_setReg_other h v fun heq => hout (heq ▸ hK)

theorem Hw.wr_keeps (h : Hw) {p o : Nat} (v : Nat) {b : Nat} (hout : ¬ K (regKey (p * 0x1000 + o) b)) : Hw.Keeps K h (h.wr p o v b) :=
  h.setReg_keeps _ hout

theorem Hw.setBit_keeps (h : Hw) {p o : Nat} (n : Nat) (b : Bool) (hout : ¬ K (regKey (p * 0x1000 + o) 0)) :
    Hw.Keeps K h (h.setBit p o n b) := h.wr_keeps _ hout

/-- No interrupt register of page 0x004 is among the kept ones. -/
def NoIrq (K : Nat → Prop) : Prop := ∀ o < 0x1000, ¬ K (regKey (0x004 * 0x1000 + o) 0)

theorem Hw.latch_keeps (h : Hw) {s : Nat} (hs : s < 0x400) (hK : NoIrq K) : Hw.Keeps K h (h.latch s) :=
  (h.setBit_keeps (s % 32) true (hK _ (by omega))).trans (Hw.wr_keeps _ _ (hK _ (by omega)))

theorem Hw.edge_keeps (h : Hw) {s : Nat} (hs : s < 0x400) (hK : NoIrq K) : Hw.Keeps K h (h.edge s) := by
  unfold Hw.edge
  split
  · exact h.latch_keeps hs hK
  · exact .of_regs rfl

/-- The line of a page moves no register but the interrupt controller's. -/
theorem Hw.watch_keeps_after {h : Hw} {p : Nat} {f : Hw → Hw} (hK : NoIrq K) : Hw.Keeps K (f h) (h.watch p f) := by
  unfold Hw.watch
  split
  · exact .refl _
  · rename_i s hs
    split
    · exact (f h).edge_keeps (srcOfPage_lt p s hs) hK
    · exact .refl _

theorem Hw.watch_keeps {h : Hw} {p : Nat} {f : Hw → Hw} (hK : NoIrq K) (hf : Hw.Keeps K h (f h)) : Hw.Keeps K h (h.watch p f) :=
  hf.trans (Hw.watch_keeps_after hK)

theorem Hw.raise_keeps (h : Hw) {p : Nat} (n : Nat) (hK : NoIrq K) (hpend : ¬ K (regKey (p * 0x1000 + 0x010) 0))
    (hraw : ¬ K (regKey (p * 0x1000 + 0x018) 0)) : Hw.Keeps K h (h.raise p n) :=
  Hw.watch_keeps hK ((h.setBit_keeps n true hpend).trans (Hw.setBit_keeps _ n true hraw))

end

/-- A register of any other page has no key on page 0x004. -/
theorem regKey_page_ne_irq {off : Nat} (b : Nat) (hpage : pageOfOff off ≠ 4) : regKey off b / 0x4000 ≠ 4 := by
  have hkey := regKey_div_four off b
  unfold pageOfOff at hpage
  rcases homeOff_self_or_high off with h | h <;> omega

/-- Keys off page 0x004 are no interrupt registers. -/
theorem noIrq_of_page {K : Nat → Prop} (hK : ∀ k, K k → k / 0x4000 ≠ 4) : NoIrq K := by
  intro o ho hk
  refine hK _ hk ?_
  have hkey : regKey (0x004 * 0x1000 + o) 0 / 4 = homeOff (0x004 * 0x1000 + o) := regKey_div_four _ _
  have hhome : homeOff (0x004 * 0x1000 + o) = 0x004 * 0x1000 + o := by
    rcases homeOff_self_or_high (0x004 * 0x1000 + o) with h | h
    · exact h
    · have hpage : pageOfOff (0x004 * 0x1000 + o) = 4 := by unfold pageOfOff; omega
      unfold homeOff at h ⊢
      rw [hpage, show blockOf 4 = some (.irq, 0) by decide] at h ⊢
  omega

/-- Registers at different offsets within their pages have different keys. -/
theorem regKey_ne_of_inPage {off off' : Nat} (b b' : Nat) (hne : off' % 0x1000 ≠ off % 0x1000) : regKey off' b' ≠ regKey off b := by
  intro heq
  rw [← regKey_inPage off' b', ← regKey_inPage off b, heq] at hne
  exact hne rfl

/-! ### Words of the register file -/

theorem Hw.reg_putReg_same (h : Hw) (off b : Nat) (row : RegRow) (v : Nat) :
    (h.putReg off b row v).reg off b = (h.reg off b &&& ~~~BitVec.ofNat 32 row.mask) ||| (BitVec.ofNat 32 v &&& BitVec.ofNat 32 row.mask) :=
  h.reg_setReg_same off _ b

theorem Hw.reg_putReg_other (h : Hw) {off off' b b' : Nat} (row : RegRow) (v : Nat) (hne : regKey off' b' ≠ regKey off b) :
    (h.putReg off b row v).reg off' b' = h.reg off' b' := h.reg_setReg_other _ hne

theorem Hw.putReg_regsOnly (h : Hw) (off b : Nat) (row : RegRow) (v : Nat) : Hw.RegsOnly h (h.putReg off b row v) := rfl

@[simp] theorem ofNat_toNat_word (v : Word) : BitVec.ofNat 32 v.toNat = v := by simp

theorem pageOff_div (p : Nat) {o : Nat} (ho : o < 0x1000) : pageOfOff (pageOff p o) = p := by unfold pageOfOff pageOff; omega
theorem pageOff_mod (p : Nat) {o : Nat} (ho : o < 0x1000) : inPage (pageOff p o) = o := by unfold inPage pageOff; omega

/-- A command about a queue of its engine, while the rails are up. -/
theorem onQueue_up {s : State} {e : Eng} {q : Fin 8} (hup : Up s) (hq : hasQueue e q.val = true) (m : String) (f : QId → Hw → Hw) :
    onQueue m e q s f = .next { s with hw := f ⟨e, q.val⟩ s.hw } := by rw [onQueue, if_pos hq, State.onHw_up _ _ hup]

/-! ### What a plain write carries along -/

/-- From `h` to `k` only what a plain write may carry along differs: registers, interrupt edges, the MMU, DMA channels, prefetch streams,
the timer, and the tracing unit. -/
def Hw.CarriesOnly (h k : Hw) : Prop :=
  k = { h with regs := k.regs, pow := k.pow, mmu := k.mmu, dma := k.dma, mig := k.mig, trc := k.trc }

theorem Hw.CarriesOnly.refl (h : Hw) : Hw.CarriesOnly h h := rfl
theorem Hw.CarriesOnly.trans {a b c : Hw} (h : Hw.CarriesOnly a b) (k : Hw.CarriesOnly b c) : Hw.CarriesOnly a c := by
  unfold Hw.CarriesOnly at *
  rw [k, h]
theorem Hw.LinesOnly.carries {a b : Hw} (h : Hw.LinesOnly a b) : Hw.CarriesOnly a b := by
  unfold Hw.LinesOnly at h
  unfold Hw.CarriesOnly
  rw [h]

theorem Hw.watch_carries {h : Hw} {p : Nat} {f : Hw → Hw} (hf : Hw.CarriesOnly h (f h)) : Hw.CarriesOnly h (h.watch p f) := by
  unfold Hw.watch
  split
  · exact hf
  · split
    · exact hf.trans ((f h).edge_lines _).carries
    · exact hf

theorem page_of_trc {p i : Nat} (hblock : blockOf p = some (.trc, i)) : p = 8 := by
  have hpages : ∀ p : Fin 0xE0, (blockOf p.val).map Prod.fst = some .trc → p.val = 8 := by decide +kernel
  by_cases hp : p < 0xE0
  · exact hpages ⟨p, hp⟩ (by rw [hblock]; rfl)
  · rw [blockOf_high p (by omega)] at hblock
    cases hblock

/-- What a plain write carries along in full: the register file stands but for TRC's own source 0 on a new TRC_CTL.link. -/
theorem Hw.afterWrite_cases (old : Hw) (p o : Nat) (h : Hw) :
    (Hw.CarriesOnly h (Hw.afterWrite old p o h) ∧ (Hw.afterWrite old p o h).regs = h.regs)
      ∨ (p = 8 ∧ o = 0x040 ∧ Hw.afterWrite old p o h = h.raise p 0) := by
  unfold Hw.afterWrite
  split
  case h_5 i hblock =>
    split
    · split
      · exact .inr ⟨page_of_trc hblock, ‹_›, rfl⟩
      · exact .inl ⟨rfl, rfl⟩
    · split <;> exact .inl ⟨rfl, rfl⟩
  case h_3 i hblock =>
    split
    · dsimp only
      split <;> exact .inl ⟨rfl, rfl⟩
    · exact .inl ⟨rfl, rfl⟩
  case h_6 => exact .inl ⟨rfl, rfl⟩
  all_goals split <;> exact .inl ⟨rfl, rfl⟩

theorem Hw.afterWrite_carries (old : Hw) (p o : Nat) (h : Hw) : Hw.CarriesOnly h (Hw.afterWrite old p o h) := by
  rcases Hw.afterWrite_cases old p o h with ⟨hc, -⟩ | ⟨-, -, he⟩
  · exact hc
  · rw [he]
    exact (h.raise_lines p 0).carries

/-- What a plain write carries along leaves the registers beside TRC's IRQ_PEND and IRQ_RAW. -/
theorem Hw.afterWrite_keeps {K : Nat → Prop} (old : Hw) {p o : Nat} (h : Hw) (hK : NoIrq K)
    (htrc : p = 8 → o = 0x040 → ¬ K (regKey 0x008010 0) ∧ ¬ K (regKey 0x008018 0)) : Hw.Keeps K h (Hw.afterWrite old p o h) := by
  rcases Hw.afterWrite_cases old p o h with ⟨-, hregs⟩ | ⟨rfl, ho, he⟩
  · exact .of_regs hregs
  · rw [he]
    exact h.raise_keeps 0 hK (htrc rfl ho).1 (htrc rfl ho).2

end Sys2Proof.Machine
end

section
/-! PROOF of O8 and O12: plain registers, halves of 64-bit registers, and reads that clear (R34, R37, R38).

A command about one register comes down to one word (`exec_registerWrite_word`, `exec_halfWrite`, `exec_halfRead`), and a word of a plain
register to `Hw.putReg` with what it carries along. -/

namespace Sys2Proof.Machine

open Sys2Proof.Claims

/-! ### Rows -/

/-- Every row stands on a word, and its copies too. -/
theorem rows_aligned : ∀ b : Block, (b.rows ++ commonRows).all (fun row => row.off % 4 == 0 && row.stride % 4 == 0) = true := by
  intro b
  cases b <;> decide +kernel

theorem RegRow.aligned_of_covers {row : RegRow} {o : Nat} (hoff : row.off % 4 = 0) (hstride : row.stride % 4 = 0)
    (hcov : row.covers o = true) : o % 4 = 0 := by
  simp only [RegRow.covers, Bool.and_eq_true, decide_eq_true_eq] at hcov
  obtain ⟨⟨hle, hmod⟩, -⟩ := hcov
  have hdvd : 4 ∣ o - row.off := (Nat.dvd_of_mod_eq_zero hstride).trans (Nat.dvd_of_mod_eq_zero hmod)
  omega

/-- A register stands on a word. -/
theorem aligned_of_regRow {off : Nat} {row : RegRow} (hrow : regRow off = some row) : off % 4 = 0 := by
  have hin : inPage off % 4 = 0 := by
    unfold regRow at hrow
    split at hrow
    · cases hrow
    · rename_i b _ _
      have hmem : row ∈ b.rows ++ commonRows ∧ row.covers (inPage off) = true := by
        split at hrow
        · split at hrow
          · cases hrow
          · exact ⟨List.mem_append_right _ (List.mem_of_find?_eq_some hrow), List.find?_some (p := fun x : RegRow => x.covers (inPage off)) hrow⟩
        · exact ⟨List.mem_append_left _ (List.mem_of_find?_eq_some hrow), List.find?_some (p := fun x : RegRow => x.covers (inPage off)) hrow⟩
      have hal := List.all_eq_true.mp (rows_aligned b) row hmem.1
      simp only [Bool.and_eq_true, beq_iff_eq] at hal
      exact RegRow.aligned_of_covers hal.1 hal.2 hmem.2
  unfold inPage at hin
  omega

/-! ### Commands about one register -/

/-- A write of a register with no action of its own is a plain one that reaches it. -/
theorem State.writeWord_actionless {s : State} {r : Req} {off : Nat} {v : Word} (hact : Actionless r off v) :
    s.writeWord r off v = { s with hw := plainWrite r off v s.hw } := s.writeWord_plain hact.1 hact.2.2

theorem exec_registerWrite_word {s : State} {r : Req} {off : Nat} {v : Word} (hup : Up s) (hact : Actionless r off v) (halign : off % 4 = 0)
    (hoff : off + 4 ≤ 0x4000000) : exec (.registerWrite r off 4 v.toNat) s = .next { s with hw := plainWrite r off v s.hw } := by
  rw [exec_registerWrite hup (by omega) (log2_toNat_lt v) hoff, State.writeBytes_word s r off _ halign, ofNat_toNat_word,
    State.writeWord_actionless hact]

theorem exec_loWrite {s : State} {r : Req} {off : Nat} {v : Word} {row : RegRow} (hup : Up s) (hact : Actionless r off v)
    (hrow : regRow off = some row) (hlo : row.half = .lo) : exec (.loWrite r off v) s = .next { s with hw := plainWrite r off v s.hw } := by
  show execLoWrite r off v s = _
  rw [execLoWrite, if_neg (by simp [isLo, hrow, hlo]), State.whenUp_up _ _ hup, State.writeWord_actionless hact]

theorem exec_hiWrite {s : State} {r : Req} {off : Nat} {v : Word} {row : RegRow} (hup : Up s) (hact : Actionless r off v)
    (hrow : regRow off = some row) (hhi : row.half = .hi) : exec (.hiWrite r off v) s = .next { s with hw := plainWrite r off v s.hw } := by
  show execHiWrite r off v s = _
  rw [execHiWrite, if_neg (by simp [isHi, hrow, hhi]), State.whenUp_up _ _ hup, State.writeWord_actionless hact]

/-- A read of one word outside Watch and Deep. -/
theorem regRead_word {h : Hw} {r : Req} {off : Nat} (hheld : h.portHeld r = false) (hpow : h.pow.state < 3) (halign : off % 4 = 0) :
    regRead r off 4 h = (h.readAct r off).2.send (.readReply r (leBytes 4 (h.readAct r off).1.toNat)) := by
  simp [regRead, hheld, Nat.not_le.mpr hpow, Hw.readBytes_word h r off halign]

theorem exec_loRead {s : State} {r : Req} {off : Nat} {row : RegRow} (hup : Up s) (hclear : Clear s r) (hpow : s.hw.pow.state < 3)
    (hrow : regRow off = some row) (hlo : row.half = .lo) : exec (.loRead r off) s
      = .next { s with hw := (s.hw.readAct r off).2.send (.readReply r (leBytes 4 (s.hw.readAct r off).1.toNat)) } := by
  show execLoRead r off s = _
  rw [execLoRead, if_neg (by simp [isLo, hrow, hlo]), State.onHw_up _ _ hup, regRead_word hclear hpow (aligned_of_regRow hrow)]

theorem exec_hiRead {s : State} {r : Req} {off : Nat} {row : RegRow} (hup : Up s) (hclear : Clear s r) (hpow : s.hw.pow.state < 3)
    (hrow : regRow off = some row) (hhi : row.half = .hi) : exec (.hiRead r off) s
      = .next { s with hw := (s.hw.readAct r off).2.send (.readReply r (leBytes 4 (s.hw.readAct r off).1.toNat)) } := by
  show execHiRead r off s = _
  rw [execHiRead, if_neg (by simp [isHi, hrow, hhi]), State.onHw_up _ _ hup, regRead_word hclear hpow (aligned_of_regRow hrow)]

/-! ### Plain writes that reach their register -/

section
variable {h : Hw} {r : Req} {off : Nat} {v : Word} {row : RegRow} (hheld : h.portHeld r = false)
  (hacc : h.accepts r (pageOfOff off) (inPage off) = true) (hbell : doorbell (pageOfOff off) (inPage off) = false)
  (hrow : regRow off = some row) (hrw : row.acc = .rw)
  (hok : ((!row.handler || r == .handler) && row.takes v.toNat && h.writable (pageOfOff off) (inPage off) v.toNat) = true)
include hheld hacc hbell hrow hrw hok

theorem plainWrite_one (hhalf : row.half = .one) : plainWrite r off v h
    = h.watch (pageOfOff off) fun g => Hw.afterWrite h (pageOfOff off) (inPage off) (g.putReg off (reqBank r) row v.toNat) := by
  unfold plainWrite
  dsimp only
  rw [Hw.guardWrite_accepted h _ _ hheld hacc hbell, hrow]
  simp [hrw, hhalf, hok]

theorem plainWrite_lo (hhalf : row.half = .lo) : plainWrite r off v h = h.stageLo r off v := by
  unfold plainWrite
  dsimp only
  rw [Hw.guardWrite_accepted h _ _ hheld hacc hbell, hrow]
  simp [hrw, hhalf, hok]

theorem plainWrite_hi (hhalf : row.half = .hi) : plainWrite r off v h
    = Hw.afterWrite h (pageOfOff off) (inPage off) ((h.storeHi r off row v.toNat).unstage r) := by
  unfold plainWrite
  dsimp only
  rw [Hw.guardWrite_accepted h _ _ hheld hacc hbell, hrow]
  simp [hrw, hhalf, hok]

end

theorem writeOk {h : Hw} {r : Req} {off : Nat} {v : Word} {row : RegRow} (hhandler : row.handler = true → r = .handler)
    (htakes : row.takes v.toNat = true) (hwr : h.writable (pageOfOff off) (inPage off) v.toNat = true) :
    ((!row.handler || r == .handler) && row.takes v.toNat && h.writable (pageOfOff off) (inPage off) v.toNat) = true := by
  rw [htakes, hwr]
  cases hcase : row.handler with
  | false => rfl
  | true => rw [hhandler hcase]; rfl

/-- What a plain write stores: the register, what it carries along, and the line that it may move. -/
def Hw.plainStore (h : Hw) (r : Req) (off : Nat) (row : RegRow) (v : Nat) : Hw :=
  h.watch (pageOfOff off) fun g => Hw.afterWrite h (pageOfOff off) (inPage off) (g.putReg off (reqBank r) row v)

theorem Hw.plainStore_carries (h : Hw) (r : Req) (off : Nat) (row : RegRow) (v : Nat) : Hw.CarriesOnly h (h.plainStore r off row v) :=
  Hw.watch_carries ((h.putReg_regsOnly off _ row v).lines.carries.trans (Hw.afterWrite_carries _ _ _ _))

/-- Beside the register itself a plain write moves interrupt registers only, but for TRC's own source. -/
theorem Hw.plainStore_keeps {K : Nat → Prop} (h : Hw) (r : Req) (off : Nat) (row : RegRow) (v : Nat) (hK : pageOfOff off = 4 ∨ NoIrq K)
    (htrc : off = 0x008040 → ¬ K (regKey 0x008010 0) ∧ ¬ K (regKey 0x008018 0)) :
    Hw.Keeps K (h.putReg off (reqBank r) row v) (h.plainStore r off row v) := by
  rcases hK with hirq | hK
  · unfold Hw.plainStore
    rw [hirq, Hw.watch_irq, Hw.afterWrite_irq]
    exact .refl _
  · refine Hw.Keeps.trans (Hw.afterWrite_keeps _ _ hK fun hp ho => htrc ?_) (Hw.watch_keeps_after hK)
    unfold pageOfOff at hp
    unfold inPage at ho
    omega

/-- Settles O8: the register stored, what it carries along, and the line that it may move. -/
theorem plainRegisterWrite : Obligations.PlainRegisterWrite := by
  intro s r off v row hreach hplain htakes hwr
  obtain ⟨hup, hclear, hacc⟩ := hreach
  obtain ⟨halign, hoff, hrow, hrw, hhalf, hhandler, hact⟩ := hplain
  have hexec : exec (.registerWrite r off 4 v.toNat) s = .next { s with hw := s.hw.plainStore r off row v.toNat } := by
    rw [exec_registerWrite_word hup hact halign hoff,
      plainWrite_one hclear hacc hact.2.1 hrow hrw (writeOk hhandler htakes hwr) hhalf]
    rfl
  have hcarries := s.hw.plainStore_carries r off row v.toNat
  refine ⟨_, hexec, ?stored, ?kept, by rw [hcarries], by rw [hcarries], rfl, rfl⟩
  case stored =>
    have hkeeps : Hw.Keeps (· = regKey off (reqBank r)) (s.hw.putReg off (reqBank r) row v.toNat) (s.hw.plainStore r off row v.toNat) := by
      refine s.hw.plainStore_keeps r off row v.toNat ?_ fun htrc => ?_
      · by_cases hpage : pageOfOff off = 4
        · exact .inl hpage
        · exact .inr (noIrq_of_page fun k hk => hk ▸ regKey_page_ne_irq _ hpage)
      · subst htrc
        exact ⟨regKey_ne_of_inPage _ _ (by decide), regKey_ne_of_inPage _ _ (by decide)⟩
    exact (hkeeps off _ rfl).trans (by rw [Hw.reg_putReg_same, ofNat_toNat_word])
  case kept =>
    intro off' b hnot hirq
    have hkeeps : Hw.Keeps (· = regKey off' b) (s.hw.putReg off (reqBank r) row v.toNat) (s.hw.plainStore r off row v.toNat) := by
      refine s.hw.plainStore_keeps r off row v.toNat (.inr (noIrq_of_page fun k hk => hk ▸ hirq)) fun htrc => ?_
      exact ⟨fun h => hnot (.inr ⟨htrc, .inl h.symm⟩), fun h => hnot (.inr ⟨htrc, .inr h.symm⟩)⟩
    exact (hkeeps off' b rfl).trans (Hw.reg_putReg_other _ _ _ fun h => hnot (.inl h))

/-! ### Halves -/

/-- Storing a HI half that is not GRP_CORES' stores both halves. -/
theorem Hw.storeHi_plain {h : Hw} {r : Req} {off : Nat} {row low : RegRow} (v : Nat) (hlow : regRow (off - 4) = some low)
    (hgrp : ∀ d, ¬ (blockOf (pageOfOff off) = some (.srv, d) ∧ inPage off = 0x094)) : h.storeHi r off row v
      = (h.putReg (off - 4) (reqBank r) low (h.stagedLo r (off - 4) (reqBank r)).toNat).putReg off (reqBank r) row v := by
  unfold Hw.storeHi
  dsimp only
  rw [hlow, if_neg]
  split
  · rename_i d hd
    simpa using fun ho => hgrp d ⟨hd, ho⟩
  · simp

theorem Hw.setAcc_regs (h : Hw) (r : Req) (a : ReqSt) : (h.setAcc r a).regs = h.regs := by cases r <;> rfl
theorem Hw.staging_unstage (h : Hw) (r : Req) : ((h.unstage r).acc r).staging = none := by cases r <;> rfl
theorem Hw.CarriesOnly.acc {a b : Hw} (h : Hw.CarriesOnly a b) (r : Req) : b.acc r = a.acc r := by
  rw [h]
  cases r <;> rfl

/-- A HI half stands in another word than TRC_CTL. -/
theorem not_trcCtl_of_hi {off : Nat} {row : RegRow} (hrow : regRow off = some row) (hhi : row.half = .hi) :
    ¬ (pageOfOff off = 8 ∧ inPage off = 0x040) := by
  rintro ⟨hp, ho⟩
  have hoff : off = 0x008040 := by
    unfold pageOfOff at hp
    unfold inPage at ho
    omega
  have hone : (regRow 0x008040).map (·.half) = some .one := by decide +kernel
  rw [hoff] at hrow
  rw [hrow, Option.map_some, hhi] at hone
  cases hone

/-- A write of a HI half replaces both halves and empties the staging register. -/
theorem hiWrite_stores {s : State} {r : Req} {off : Nat} {v : Word} {row low : RegRow} (hhalf : HalfRow s r off v row .hi)
    (hrw : row.acc = .rw) (hhandler : row.handler = true → r = .handler) (htakes : row.takes v.toNat = true)
    (hwr : s.hw.writable (pageOfOff off) (inPage off) v.toNat = true) (hin : 4 ≤ inPage off) (hlow : regRow (off - 4) = some low)
    (hgrp : ∀ d, ¬ (blockOf (pageOfOff off) = some (.srv, d) ∧ inPage off = 0x094)) :
    ∃ t, exec (.hiWrite r off v) s = .next t
      ∧ t.hw.reg off (reqBank r) = (s.hw.reg off (reqBank r) &&& ~~~BitVec.ofNat 32 row.mask) ||| (v &&& BitVec.ofNat 32 row.mask)
      ∧ t.hw.reg (off - 4) (reqBank r) = (s.hw.reg (off - 4) (reqBank r) &&& ~~~BitVec.ofNat 32 low.mask)
          ||| (s.hw.stagedLo r (off - 4) (reqBank r) &&& BitVec.ofNat 32 low.mask)
      ∧ (t.hw.acc r).staging = none ∧ t.hw.mem = s.hw.mem ∧ t.hw.queues = s.hw.queues ∧ t.boot = s.boot ∧ t.pending = s.pending := by
  obtain ⟨⟨hup, hclear, hacc⟩, hrow, hhi, hact⟩ := hhalf
  let a := s.hw.putReg (off - 4) (reqBank r) low (s.hw.stagedLo r (off - 4) (reqBank r)).toNat
  let b := (a.putReg off (reqBank r) row v.toNat).unstage r
  have hexec : exec (.hiWrite r off v) s = .next { s with hw := Hw.afterWrite s.hw (pageOfOff off) (inPage off) b } := by
    rw [exec_hiWrite hup hact hrow hhi, plainWrite_hi hclear hacc hact.2.1 hrow hrw (writeOk hhandler htakes hwr) hhi,
      Hw.storeHi_plain v.toNat hlow hgrp]
  have hregs : (Hw.afterWrite s.hw (pageOfOff off) (inPage off) b).regs = (a.putReg off (reqBank r) row v.toNat).regs := by
    rcases Hw.afterWrite_cases s.hw (pageOfOff off) (inPage off) b with ⟨-, h⟩ | ⟨hp, ho, -⟩
    · rw [h]
      exact Hw.setAcc_regs _ _ _
    · exact absurd ⟨hp, ho⟩ (not_trcCtl_of_hi hrow hhi)
  have hreg : ∀ o i, (Hw.afterWrite s.hw (pageOfOff off) (inPage off) b).reg o i = (a.putReg off (reqBank r) row v.toNat).reg o i :=
    fun o i => by unfold Hw.reg; rw [hregs]
  have hne : off % 0x1000 ≠ (off - 4) % 0x1000 := by
    unfold inPage at hin
    omega
  have hcarries := Hw.afterWrite_carries s.hw (pageOfOff off) (inPage off) b
  have hmem : b.mem = s.hw.mem ∧ b.queues = s.hw.queues := by cases r <;> exact ⟨rfl, rfl⟩
  refine ⟨_, hexec, ?_, ?_, ?_, ?_, ?_, rfl, rfl⟩
  · show Hw.reg _ _ _ = _
    rw [hreg, Hw.reg_putReg_same, Hw.reg_putReg_other _ _ _ (regKey_ne_of_inPage _ _ hne), ofNat_toNat_word]
  · show Hw.reg _ _ _ = _
    rw [hreg, Hw.reg_putReg_other _ _ _ (regKey_ne_of_inPage _ _ hne.symm), Hw.reg_putReg_same, ofNat_toNat_word]
  · show ((Hw.afterWrite _ _ _ b).acc r).staging = none
    rw [hcarries.acc, Hw.staging_unstage]
  · rw [hcarries]
    exact hmem.1
  · rw [hcarries]
    exact hmem.2

/-- The row of GRP_CORES_HI on every SRV page. -/
theorem regRow_grpCoresHi : ∀ d : Fin 4,
    regRow (pageOff (srvPage d.val) 0x094) = some (RegRow.rw "GRP_CORES_HI" 0x094 0 0xFFFF).hi := by decide +kernel

theorem blockOf_srvPage : ∀ d : Fin 4, blockOf (srvPage d.val) = some (.srv, d.val) := by decide

theorem queueAt_grpCoresHi : ∀ d : Fin 4, queueAt (srvPage d.val) 0x094 = none := by decide

/-- A write of GRP_CORES_HI stores the 48 bits at the group that GRP_SEL selects. -/
theorem exec_grpCoresHi {s : State} {r : Req} {v : Word} {row : RegRow} (d : Fin 4)
    (hhalf : HalfRow s r (pageOff (srvPage d.val) 0x094) v row .hi) :
    exec (.hiWrite r (pageOff (srvPage d.val) 0x094) v) s = .next { s with hw := (s.hw.setGroup s.hw.selGroup
      { s.hw.group s.hw.selGroup with 
          cores := BitVec.ofNat 48 ((s.hw.loHalf r (pageOff (srvPage d.val) 0x094)).toNat + v.toNat % 0x10000 * 0x100000000) }).unstage r } := by
  obtain ⟨⟨hup, hclear, hacc⟩, hrow, hhi, hact⟩ := hhalf
  have hpage : pageOfOff (pageOff (srvPage d.val) 0x094) = srvPage d.val := pageOff_div _ (by decide)
  have hin : inPage (pageOff (srvPage d.val) 0x094) = 0x094 := pageOff_mod _ (by decide)
  have hrow' := hrow
  rw [regRow_grpCoresHi] at hrow'
  cases hrow'
  have hwr : s.hw.writable (srvPage d.val) 0x094 v.toNat = true := by
    simp [Hw.writable, Hw.writable.queueGate, blockOf_srvPage, queueAt_grpCoresHi]
  have hok := writeOk (h := s.hw) (r := r) (off := pageOff (srvPage d.val) 0x094) (v := v)
    (row := (RegRow.rw "GRP_CORES_HI" 0x094 0 0xFFFF).hi) (fun h => nomatch h) rfl (by rw [hpage, hin]; exact hwr)
  rw [exec_hiWrite hup hact hrow hhi, plainWrite_hi hclear hacc hact.2.1 hrow rfl hok hhi]
  simp [Hw.storeHi, hpage, hin, blockOf_srvPage, Hw.afterWrite]

theorem Hw.group_setGroup_same (h : Hw) (g : Nat) (e : Group) : (h.setGroup g e).group g = e := by simp [Hw.group, Hw.setGroup]
theorem Hw.group_setGroup_other (h : Hw) {g g' : Nat} (e : Group) (hne : g' ≠ g) : (h.setGroup g e).group g' = h.group g' := by
  simp [Hw.group, Hw.setGroup, alGet_alPut_other hne]

theorem grpCoresHi_stores {s : State} {r : Req} {v : Word} {row : RegRow} (d : Fin 4)
    (hhalf : HalfRow s r (pageOff (srvPage d.val) 0x094) v row .hi) :
    ∃ t, exec (.hiWrite r (pageOff (srvPage d.val) 0x094) v) s = .next t
      ∧ (t.hw.group s.hw.selGroup).cores
        = BitVec.ofNat 48 ((s.hw.loHalf r (pageOff (srvPage d.val) 0x094)).toNat + v.toNat % 0x10000 * 0x100000000)
      ∧ (∀ g, g ≠ s.hw.selGroup → t.hw.group g = s.hw.group g) ∧ t.hw.regs = s.hw.regs
      ∧ (t.hw.acc r).staging = none ∧ t.hw.mem = s.hw.mem ∧ t.hw.queues = s.hw.queues ∧ t.boot = s.boot ∧ t.pending = s.pending := by
  have hgroup : ∀ (h : Hw) g, (h.unstage r).group g = h.group g := fun h g => by cases r <;> rfl
  refine ⟨_, exec_grpCoresHi d hhalf, ?_, fun g hg => ?_, ?_, ?_, ?_, ?_, rfl, rfl⟩
  · rw [hgroup, Hw.group_setGroup_same]
  · rw [hgroup, Hw.group_setGroup_other _ _ hg]
  · exact Hw.setAcc_regs _ _ _
  · exact Hw.staging_unstage _ r
  · cases r <;> rfl
  · cases r <;> rfl

theorem halvesOfA64BitRegister : HalvesOfA64BitRegister := by
  intro s r off v row hup hclear
  refine ⟨?loRead, ?hiShadow, ?hiLive, ?loWrite, fun low => hiWrite_stores, fun d => grpCoresHi_stores d⟩
  case loRead =>
    intro hrow hlo hpow hkeep
    rw [exec_loRead hup hclear hpow hrow hlo]
    simp [Hw.readAct, hrow, hlo, hkeep]
  case hiShadow =>
    intro x hrow hhi hpow hshadow
    rw [exec_hiRead hup hclear hpow hrow hhi]
    simp [Hw.readAct, hrow, hhi, hshadow]
  case hiLive =>
    intro hrow hhi hpow hkeep hother
    rw [exec_hiRead hup hclear hpow hrow hhi]
    cases hshadow : (s.hw.acc r).shadow with
    | none => simp [Hw.readAct, hrow, hhi, hkeep, hshadow]
    | some x => simp [Hw.readAct, hrow, hhi, hkeep, hshadow, hother x.1 x.2 hshadow]
  case loWrite =>
    rintro ⟨⟨_, hclear, hacc⟩, hrow, hlo, hact⟩ hrw hhandler htakes hwr
    rw [exec_loWrite hup hact hrow hlo, plainWrite_lo hclear hacc hact.2.1 hrow hrw (writeOk hhandler htakes hwr) hlo]
    rfl

/-! ### Reads that clear -/

theorem readClears : ReadClears := by
  intro s r off row hup hclear hpow halign hoff hrow hone hclears
  have hread : s.hw.readAct r off = (s.hw.readWord off (reqBank r), s.hw.clearReg off) := by simp [Hw.readAct, hrow, hone, hclears]
  have hexec : exec (.readClear r off 4) s
      = .next { s with hw := (s.hw.clearReg off).send (.readReply r (leBytes 4 (s.hw.readWord off (reqBank r)).toNat)) } := by
    show execReadClear r off 4 s = _
    rw [execReadClear, if_neg (by omega), if_neg (by omega), State.onHw_up _ _ hup, regRead_word hclear hpow halign, hread]
  exact ⟨_, hexec, rfl, s.hw.reg_setReg_same off 0 0, fun off' b hne => s.hw.reg_setReg_other 0 hne⟩

/-- Settles O12. -/
theorem halvesAndReadClears : Obligations.HalvesAndReadClears := ⟨halvesOfA64BitRegister, readClears⟩

end Sys2Proof.Machine
end

section
/-! PROOF of O10 and O13: HOST_ABI, a drained queue, PAGE_CTL, and the end of a soft reset (R39 to R41, R46, R74, R76). -/

namespace Sys2Proof.Machine

open Sys2Proof.Claims

/-! ### HOST_ABI -/

theorem regKey_glb_ne {o o' : Nat} (b b' : Nat) (ho : o < 0x1000) (ho' : o' < 0x1000) (hne : o' ≠ o) :
    regKey (0x000 * 0x1000 + o') b' ≠ regKey (0x000 * 0x1000 + o) b := regKey_ne_of_inPage b b' (by omega)

/-- The banks of HOST_ABI are three registers. -/
theorem regKey_hostAbi_bank : ∀ b < 3, ∀ b' < 3, b' ≠ b → regKey (0x000 * 0x1000 + 0x044) b' ≠ regKey (0x000 * 0x1000 + 0x044) b := by decide

theorem Hw.err_keeps {K : Nat → Prop} (h : Hw) (p d c : Nat) (hout : ¬ K (regKey (p * 0x1000 + 0x01C) 0)) : Hw.Keeps K h (h.err p d c) := by
  unfold Hw.err
  split
  · exact .refl h
  · exact h.wr_keeps _ hout

theorem Hw.Keeps.rd {K : Nat → Prop} {h k : Hw} (hk : Hw.Keeps K h k) {p o b : Nat} (hin : K (regKey (p * 0x1000 + o) b)) :
    k.rd p o b = h.rd p o b := by rw [Hw.rd, hk _ _ hin, Hw.rd]

/-- Whether a port's HOST_ABI names the module's major version; whether it names another. -/
def abiNames (own x : Nat) : Bool := bitsOf x 23 16 == bitsOf own 23 16 && x != 0
def abiClash (own x : Nat) : Bool := x != 0 && bitsOf x 23 16 != bitsOf own 23 16

/-- The minor version that ABI_AGREED shows. -/
def abiMinor (own a b : Nat) : Nat :=
  min (min (bitsOf own 15 0) (if abiNames own a then bitsOf a 15 0 else 0xFFFF)) (if abiNames own b then bitsOf b 15 0 else 0xFFFF)

/-- ABI_AGREED as the ports' HOST_ABI give it. -/
def abiAgreed (own a b : Nat) : Nat :=
  (if abiNames own a || abiNames own b then 0x80000000 + bitsOf own 23 16 * 0x10000 + abiMinor own a b else 0)
    + (if abiClash own a then 0x10000000 else 0) + (if abiClash own b then 0x20000000 else 0)

theorem bitsOf_minor_lt (v : Nat) : bitsOf v 15 0 < 0x10000 := Nat.mod_lt _ (by decide)
theorem bitsOf_major_lt (v : Nat) : bitsOf v 23 16 < 0x100 := Nat.mod_lt _ (by decide)
theorem abiMinor_lt (own a b : Nat) : abiMinor own a b < 0x10000 := by
  have := bitsOf_minor_lt own
  unfold abiMinor
  omega

theorem abiAgreed_lt (own a b : Nat) : abiAgreed own a b < 0x100000000 := by
  have := abiMinor_lt own a b
  have := bitsOf_major_lt own
  unfold abiAgreed
  split <;> split <;> split <;> omega

/-- The fields of ABI_AGREED. -/
theorem abiAgreed_fields (own a b : Nat) :
    bitOf (abiAgreed own a b) 31 = (abiNames own a || abiNames own b) ∧ bitOf (abiAgreed own a b) 28 = abiClash own a
      ∧ bitOf (abiAgreed own a b) 29 = abiClash own b
      ∧ (abiNames own a = true ∨ abiNames own b = true →
        bitsOf (abiAgreed own a b) 23 16 = bitsOf own 23 16 ∧ bitsOf (abiAgreed own a b) 15 0 = abiMinor own a b) := by
  have hminor := abiMinor_lt own a b
  have hmajor := bitsOf_major_lt own
  unfold abiAgreed
  generalize bitsOf own 23 16 = major at *
  generalize abiMinor own a b = minor at *
  rw [← Bool.or_eq_true]
  generalize (abiNames own a || abiNames own b) = n
  generalize abiClash own a = ca
  generalize abiClash own b = cb
  simp only [bitOf, bitsOf, Nat.testBit_eq_decide_div_mod_eq]
  cases n <;> cases ca <;> cases cb <;> simp <;> omega

/-- The least minor version of the module and of the ports that name its major version. -/
theorem foldl_minor (own a b : Nat) : ([a, b].filter (abiNames own)).foldl (fun m v => min m (bitsOf v 15 0)) (bitsOf own 15 0)
    = abiMinor own a b := by
  have := bitsOf_minor_lt own
  have := bitsOf_minor_lt a
  unfold abiMinor
  cases ha : abiNames own a <;> cases hb : abiNames own b <;> simp [ha, hb] <;> omega

/-- What recomputing ABI_AGREED does: the register holds what the ports' HOST_ABI give, and beside it ERR_FIRST alone may change. -/
theorem Hw.recomputeAbi_eq (h : Hw) : ∃ e : Bool, h.recomputeAbi
    = let g := h.wr 0x000 0x048 (abiAgreed (h.rd 0x000 0x040) (h.rd 0x000 0x044 0) (h.rd 0x000 0x044 1))
      if e then g.err 0x000 0 cABI else g := by
  simp only [abiAgreed, ← foldl_minor]
  exact ⟨_, rfl⟩

theorem Hw.errIf_regsOnly (h : Hw) (c : Prop) [Decidable c] (d x : Nat) : Hw.RegsOnly h (if c then h.err 0x000 d x else h) := by
  split
  · exact h.err_regsOnly _ _ _
  · exact .refl h

theorem Hw.errIf_keeps (h : Hw) (c : Prop) [Decidable c] (d x : Nat) :
    Hw.Keeps (· ≠ regKey (0x000 * 0x1000 + 0x01C) 0) h (if c then h.err 0x000 d x else h) := by
  split
  · exact h.err_keeps _ _ _ fun hne => hne rfl
  · exact .refl h

theorem RegsOnly.of_hw {s : State} {k : Hw} (h : Hw.RegsOnly s.hw k) : RegsOnly s { s with hw := k } :=
  congrArg (fun x => ({ s with hw := x } : State)) h

theorem exec_hostAbi {s : State} {r : Req} {v : Word} (hreach : Reaches s r 0x000 0x044) :
    exec (.hostAbi r v) s = .next { s with hw :=
      let h := (s.hw.wr 0x000 0x044 (v.toNat % 0x1000000) (reqBank r)).recomputeAbi
      if r ≠ .handler ∧ v.toNat % 0x1000000 ≠ 0 ∧ bitsOf (v.toNat % 0x1000000) 23 16 ≠ 1 then h.err 0x000 0 cABI else h } := by
  obtain ⟨hup, hclear, hacc⟩ := hreach
  show execHostAbi r v s = _
  rw [execHostAbi, State.onHw_up _ _ hup, hostAbiWrite, Hw.guardWrite_accepted _ _ _ hclear hacc (by decide)]

/-- What a write of HOST_ABI leaves: the requester's copy, ABI_AGREED made from the ports' copies, and nothing else but ERR_FIRST. -/
theorem exec_hostAbi_keeps {s : State} {r : Req} {v : Word} (hreach : Reaches s r 0x000 0x044) :
    ∃ t, exec (.hostAbi r v) s = .next t ∧ RegsOnly s t
      ∧ (let g := s.hw.wr 0x000 0x044 (v.toNat % 0x1000000) (reqBank r)
        Hw.Keeps (· ≠ regKey (0x000 * 0x1000 + 0x01C) 0)
          (g.wr 0x000 0x048 (abiAgreed (g.rd 0x000 0x040) (g.rd 0x000 0x044 0) (g.rd 0x000 0x044 1))) t.hw) := by
  obtain ⟨e, habi⟩ := (s.hw.wr 0x000 0x044 (v.toNat % 0x1000000) (reqBank r)).recomputeAbi_eq
  refine ⟨_, exec_hostAbi hreach, ?_, ?_⟩ <;> dsimp only <;> rw [habi]
  · exact RegsOnly.of_hw ((((Hw.wr_regsOnly _ _ _ _ _).trans (Hw.wr_regsOnly _ _ _ _ _)).trans (Hw.errIf_regsOnly _ _ _ _)).trans
      (Hw.errIf_regsOnly _ _ _ _))
  · exact (Hw.errIf_keeps _ _ _ _).trans (Hw.errIf_keeps _ _ _ _)

/-- The HOST_ABI clause of O10. -/
theorem hostAbi_agrees {s : State} {r : Req} {v : Word} (hreach : Reaches s r 0x000 0x044) :
    ∃ t, exec (.hostAbi r v) s = .next t ∧ RegsOnly s t ∧ t.hw.rd 0x000 0x044 (reqBank r) = v.toNat % 0x1000000
      ∧ (∀ b < 3, b ≠ reqBank r → t.hw.rd 0x000 0x044 b = s.hw.rd 0x000 0x044 b)
      ∧ t.hw.rd 0x000 0x048 = abiAgreed (s.hw.rd 0x000 0x040) (t.hw.rd 0x000 0x044 0) (t.hw.rd 0x000 0x044 1) := by
  obtain ⟨t, hexec, honly, hkeeps⟩ := exec_hostAbi_keeps (v := v) hreach
  have hother : ∀ o b, o < 0x1000 → o ≠ 0x01C → regKey (0x000 * 0x1000 + o) b ≠ regKey (0x000 * 0x1000 + 0x01C) 0 :=
    fun o b ho hne => regKey_glb_ne 0 b (by decide) ho hne
  have habi : ∀ b, t.hw.rd 0x000 0x044 b = (s.hw.wr 0x000 0x044 (v.toNat % 0x1000000) (reqBank r)).rd 0x000 0x044 b := fun b => by
    rw [hkeeps.rd (hother 0x044 b (by decide) (by decide)),
      Hw.rd_wr_other _ _ (regKey_glb_ne 0 b (by decide) (by decide) (by decide))]
  have hbank : reqBank r < 3 := by cases r <;> decide
  refine ⟨t, hexec, honly, ?_, fun b hb hne => ?_, ?_⟩
  · rw [habi, Hw.rd_wr_same]
    omega
  · rw [habi, Hw.rd_wr_other _ _ (regKey_hostAbi_bank _ hbank _ hb hne)]
  · rw [hkeeps.rd (hother 0x048 0 (by decide) (by decide)), Hw.rd_wr_same, habi 0, habi 1,
      Hw.rd_wr_other _ _ (regKey_glb_ne (reqBank r) 0 (by decide) (by decide) (by decide)), Nat.mod_eq_of_lt (abiAgreed_lt _ _ _)]

/-! ### A drained queue -/

theorem Hw.ite_mmu (h : Hw) (m : Mmu) (c : Prop) [Decidable c] :
    (if c then { h with mmu := m } else h) = { h with mmu := if c then m else h.mmu } := by
  split <;> rfl

/-- What entering a queue state does: the state is stored, a master that waited in FAULT_HOLD may go free, and a halt is raised. -/
theorem Hw.enterSt_eq (h : Hw) (id : QId) (st : QSt) : ∃ m, h.enterSt id st
    = let g : Hw := { h.setQs id { h.qs id with st := st, heldAt := if st = .faultHold then (h.qs id).heldAt else none } with mmu := m }
      if (h.qs id).st ≠ st ∧ (st = .halted ∨ st = .faultHold ∨ st = .paused) then g.raise (engPage id.eng) (haltSrc id) else g := by
  unfold Hw.enterSt
  dsimp only
  rw [Hw.ite_mmu]
  exact ⟨_, rfl⟩

theorem exec_drainComplete {s : State} {e : Eng} {q : Fin 8} (hup : Up s) (hq : hasQueue e q.val = true) :
    exec (.drainComplete e q) s = .next { s with hw := s.hw.drainDone ⟨e, q.val⟩ } := by
  show execDrainComplete e q s = _
  rw [execDrainComplete, onQueue_up hup hq]

/-- Settles O10: HOST_ABI, and a queue with nothing issued. -/
theorem hostAbiAndDrain : Obligations.HostAbiAndDrain := by
  refine ⟨fun s r v hreach => ?abi, fun s e q hup hq => ?drain⟩
  case abi =>
    obtain ⟨t, hexec, honly, hown, hothers, hagreed⟩ := hostAbi_agrees (v := v) hreach
    refine ⟨t, hexec, honly, hown, hothers, ?_⟩
    have hnames : ∀ own x, (x != 0 && bitsOf x 23 16 == bitsOf own 23 16) = abiNames own x := fun _ _ => Bool.and_comm _ _
    simp only [hnames]
    rw [hagreed]
    exact abiAgreed_fields _ _ _
  case drain =>
    intro id hdrain hcmds hrej
    obtain ⟨m, hm⟩ := (s.hw.setQs id { s.hw.qs id with draining := false }).enterSt_eq id .disabled
    have hdone : s.hw.drainDone id = { (s.hw.setQs id { s.hw.qs id with draining := false }).setQs id
        { s.hw.qs id with draining := false, st := .disabled, heldAt := none } with mmu := m } := by
      rw [Hw.drainDone]
      dsimp only
      rw [if_pos (by simp [hdrain, hcmds, hrej]), hm]
      simp
    refine ⟨_, exec_drainComplete hup hq, ?_⟩
    dsimp only
    rw [hdone]
    have hqs : ∀ (h : Hw) id', ({ h with mmu := m } : Hw).qs id' = h.qs id' := fun _ _ => rfl
    refine ⟨?_, ?_, rfl, fun id' hne => ?_⟩
    · rw [hqs, Hw.qs_setQs_same]
    · rw [hqs, Hw.qs_setQs_same]
    · rw [hqs, Hw.qs_setQs_other _ _ hne, Hw.qs_setQs_other _ _ hne]

end Sys2Proof.Machine
end

section
/-! PROOF of O13: PAGE_CTL's enable, step mode and step, and a soft reset from its start to its end (R39 to R41, R76, R489). -/

namespace Sys2Proof.Machine

open Sys2Proof.Claims

/-! ### A write of PAGE_CTL -/

/-- PAGE_CTL is a doorbell of its own: Idle and Hold end before it acts. -/
theorem Hw.guardWrite_pageCtl (h : Hw) {r : Req} {p : Nat} (v : Nat) (f : Hw → Hw) (hheld : h.portHeld r = false)
    (hacc : h.accepts r p 0x008 = true) : h.guardWrite r p 0x008 v f = f h.demand := by
  have hqueue : queueReg p 0x0C 0x008 = false := by
    unfold queueReg
    split <;> rfl
  have hmbox : mboxReg p 0x008 = false := by
    unfold mboxReg
    split <;> rfl
  simp [Hw.guardWrite, hheld, hacc, hqueue, hmbox, doorbell]

/-- What PAGE_CTL's enable and step_mode leave, and what its steps release, before a soft reset begins. -/
def Hw.pageStored (h : Hw) (p : Nat) (b : Block) (v : Nat) : Hw :=
  let g := h.wr p 0x008 (v &&& (if b.alwaysEnabled then 4 else 5))
  let g := if g.enabled p && !h.enabled p then g.pageEnabled p else g
  if b.stepCapable && (!bitOf v 2 || bitOf v 3) then { g with stepHeld := g.stepHeld.filter (· != p) } else g

/-- What a write that reaches PAGE_CTL does. -/
def Hw.pageWritten (h : Hw) (p : Nat) (b : Block) (v : Nat) : Hw :=
  let g := h.demand.pageStored p b v
  if bitOf v 1 && b.resetCapable && !g.resetting.contains p then { g with resetting := g.resetting ++ [p] }.resetBegin p else g

theorem pageCtlWrite_reached {h : Hw} {r : Req} {p i : Nat} {b : Block} (v : Nat) (hheld : h.portHeld r = false)
    (hacc : h.accepts r p 0x008 = true) (hblock : blockOf p = some (b, i)) : pageCtlWrite r p v h = h.pageWritten p b v := by
  rw [pageCtlWrite, Hw.guardWrite_pageCtl h v _ hheld hacc, hblock]
  rfl

theorem page_lt_of_block {p : Nat} {x : Block × Nat} (hblock : blockOf p = some x) : p < 0x4000 := by
  by_contra hp
  rw [blockOf_high p (by omega)] at hblock
  cases hblock

theorem Hw.ite_stepHeld (h : Hw) (l : List Nat) (c : Prop) [Decidable c] :
    (if c then { h with stepHeld := l } else h) = { h with stepHeld := if c then l else h.stepHeld } := by
  split <;> rfl

/-- Enable and step_mode pass through each of the values that the rows write. -/
theorem pageCtl_mask (b : Block) (v : Nat) :
    (v &&& 5) &&& (if b.alwaysEnabled then 4 else 5) = v &&& (if b.alwaysEnabled then 4 else 5)
      ∧ (v ||| 8) &&& (if b.alwaysEnabled then 4 else 5) = v &&& (if b.alwaysEnabled then 4 else 5)
      ∧ (v ||| 2) &&& (if b.alwaysEnabled then 4 else 5) = v &&& (if b.alwaysEnabled then 4 else 5) := by
  split <;> simp [Nat.and_or_distrib_right, Nat.and_assoc]

/-- The action bits of the values that the rows write. -/
theorem pageCtl_bits (v : Nat) : (bitOf (v &&& 5) 1 = false ∧ bitOf (v &&& 5) 2 = bitOf v 2 ∧ bitOf (v &&& 5) 3 = false)
    ∧ (bitOf (v ||| 8) 1 = bitOf v 1 ∧ bitOf (v ||| 8) 3 = true) ∧ bitOf (v ||| 2) 1 = true := by
  have h5 : Nat.testBit 5 1 = false ∧ Nat.testBit 5 2 = true ∧ Nat.testBit 5 3 = false := by decide
  have h8 : Nat.testBit 8 1 = false ∧ Nat.testBit 8 3 = true ∧ Nat.testBit 2 1 = true := by decide
  simp [bitOf, h5, h8]

/-- What the rows of PAGE_CTL answer. -/
def pageCtlAnswer (r : Req) (page v : Nat) (s : State) : Out :=
  if 0x4000 ≤ page then .fault .outOfWindow else .next (s.onHw (pageCtlWrite r page v))

theorem exec_pageCtl {s : State} {r : Req} {page i v : Nat} {b : Block} (hreach : Reaches s r page 0x008) (hblock : blockOf page = some (b, i)) :
    pageCtlAnswer r page v s = .next { s with hw := s.hw.pageWritten page b v } := by
  obtain ⟨hup, hclear, hacc⟩ := hreach
  have hpage := page_lt_of_block hblock
  rw [pageCtlAnswer, if_neg (by omega), State.onHw_up _ _ hup, pageCtlWrite_reached v hclear hacc hblock]

/-- A write of PAGE_CTL with no soft reset. -/
theorem exec_pageCtl_stored {s : State} {r : Req} {page i v : Nat} {b : Block} (hreach : Reaches s r page 0x008)
    (hblock : blockOf page = some (b, i)) (hbit : bitOf v 1 = false) :
    pageCtlAnswer r page v s = .next { s with hw := s.hw.demand.pageStored page b v } := by
  rw [exec_pageCtl hreach hblock, Hw.pageWritten]
  simp [hbit]

/-- What `Hw.pageStored` stores, with the value's own bits. -/
theorem Hw.pageStored_eq {s : State} {page v w : Nat} {b : Block}
    (hmask : w &&& (if b.alwaysEnabled then 4 else 5) = v &&& (if b.alwaysEnabled then 4 else 5)) : s.hw.demand.pageStored page b w
      = let h := enables page s (s.hw.demand.wr page 0x008 (v &&& (if b.alwaysEnabled then 4 else 5)))
        { h with stepHeld := if b.stepCapable && (!bitOf w 2 || bitOf w 3) then h.stepHeld.filter (· != page) else h.stepHeld } := by
  rw [Hw.pageStored, hmask]
  exact Hw.ite_stepHeld _ _ _

theorem pageControl : PageControl := by
  intro s r page v b i hreach hblock
  obtain ⟨hmask5, hmask8, -⟩ := pageCtl_mask b v.toNat
  obtain ⟨⟨h51, h52, h53⟩, ⟨h81, h83⟩, -⟩ := pageCtl_bits v.toNat
  have hplain := (exec_pageCtl_stored (v := v.toNat &&& 5) hreach hblock h51)
  rw [Hw.pageStored_eq hmask5, h52, h53, Bool.or_false] at hplain
  refine ⟨hplain, hplain, fun hbit => ?_⟩
  have hstep := exec_pageCtl_stored (v := v.toNat ||| 8) hreach hblock (h81.trans hbit)
  rw [Hw.pageStored_eq hmask8, h83, Bool.or_true, Bool.and_true] at hstep
  exact hstep

/-! ### Soft reset -/

/-- The blocks whose soft reset has nothing of theirs to stop. -/
theorem Hw.resetBegin_none {h : Hw} {p i : Nat} {b : Block} (hblock : blockOf p = some (b, i))
    (hb : b = .mmu ∨ b = .tier ∨ b = .lpc ∨ b = .lsh ∨ b = .pcie) : h.resetBegin p = h := by
  unfold Hw.resetBegin pageEng
  rw [hblock]
  rcases hb with rfl | rfl | rfl | rfl | rfl <;> rfl

theorem exec_softReset {s : State} {r : Req} {page i : Nat} {v : Word} {b : Block} (hreach : Reaches s r page 0x008)
    (hblock : blockOf page = some (b, i)) (hcap : b.resetCapable = true)
    (hidle : (s.hw.demand.pageStored page b (v.toNat ||| 2)).resetting.contains page = false) : exec (.softReset r page v) s
      = .next { s with hw :=
        let g := s.hw.demand.pageStored page b (v.toNat ||| 2)
        { g with resetting := g.resetting ++ [page] }.resetBegin page } := by
  have hexec : exec (.softReset r page v) s = .next { s with hw := s.hw.pageWritten page b (v.toNat ||| 2) } := exec_pageCtl hreach hblock
  rw [hexec, Hw.pageWritten]
  simp only [(pageCtl_bits v.toNat).2.2, hcap, hidle, Bool.not_false, Bool.and_self, if_true]

/-- The blocks that hold queues have no other effect of being enabled. -/
theorem Hw.pageEnabled_engine {h : Hw} {p i : Nat} {b : Block} (hblock : blockOf p = some (b, i)) (hstep : b.stepCapable = true) :
    h.pageEnabled p = h := by
  unfold Hw.pageEnabled
  rw [hblock]
  cases b
  all_goals simp only [Block.stepCapable, Bool.false_eq_true] at hstep
  all_goals rfl

theorem softReset_begins {s : State} {r : Req} {page : Nat} {v : Word} {b : Block} {i : Nat} (hreach : Reaches s r page 0x008)
    (hblock : blockOf page = some (b, i)) (hcap : b.resetCapable = true) (hb : b = .mmu ∨ b = .tier ∨ b = .lpc ∨ b = .lsh ∨ b = .pcie) :
    let h : Hw := enables page s (s.hw.demand.wr page 0x008 (v.toNat &&& 5))
    h.resetting.contains page = false → exec (.softReset r page v) s = .next { s with hw := { h with resetting := h.resetting ++ [page] } } := by
  intro h hidle
  have hfive : b.alwaysEnabled = false ∧ b.stepCapable = false := by rcases hb with rfl | rfl | rfl | rfl | rfl <;> exact ⟨rfl, rfl⟩
  have hstored : s.hw.demand.pageStored page b (v.toNat ||| 2) = h := by
    rw [Hw.pageStored_eq (pageCtl_mask b v.toNat).2.2, hfive.1, hfive.2]
    rfl
  rw [exec_softReset hreach hblock hcap (by rw [hstored]; exact hidle), hstored, Hw.resetBegin_none hblock hb]

theorem softReset_begins_engine {s : State} {r : Req} {page : Nat} {v : Word} {b : Block} {i : Nat} (hreach : Reaches s r page 0x008)
    (hblock : blockOf page = some (b, i)) (hstep : b.stepCapable = true) (hidle : s.hw.demand.resetting.contains page = false) :
    ∃ h : Hw, exec (.softReset r page v) s = .next { s with hw := h.resetBegin page } ∧ h.resetting = s.hw.demand.resetting ++ [page]
      ∧ h = { s.hw.demand with regs := h.regs, resetting := h.resetting, stepHeld := h.stepHeld } := by
  have hcap : b.resetCapable = true := by
    revert hstep
    cases b <;> decide
  have henables : ∀ k, enables page s k = k := fun k => by
    unfold enables
    rw [Hw.pageEnabled_engine hblock hstep, ite_self]
  have hstored := Hw.pageStored_eq (s := s) (page := page) (pageCtl_mask b v.toNat).2.2
  rw [henables] at hstored
  refine ⟨_, exec_softReset hreach hblock hcap (by rw [hstored]; exact hidle), ?_, ?_⟩
  · rw [hstored]
    rfl
  · rw [hstored]
    rfl

/-! ### The end of a soft reset -/

/-- The page that holds the register at page offset `o` for all pages of a block, where one does. -/
def Block.home (b : Block) (o : Nat) : Option Nat :=
  match b with
  | .spl => if 0x080 ≤ o ∧ o < 0x180 then some 0xC0 else none
  | .rtv => if 0x400 ≤ o ∧ o < 0x600 then some 0xC1 else none
  | .emb => if 0x400 ≤ o ∧ o < 0xC00 then some 0xC2 else none
  | .srv => if (0x068 ≤ o ∧ o < 0x078) ∨ (0x08C ≤ o ∧ o < 0x0A0) then some 0xC5 else none
  | .lsh => if 0x100 ≤ o then some 0x12 else none
  | _ => none

theorem homeOff_eq (off : Nat) : homeOff off
    = (((blockOf (pageOfOff off)).bind fun x => x.1.home (inPage off)).map fun p => p * 0x1000 + inPage off).getD off := by
  unfold homeOff
  generalize blockOf (pageOfOff off) = x
  cases x with
  | none => rfl
  | some x =>
    obtain ⟨b, i⟩ := x
    cases b
    case spl | rtv | emb | srv | lsh =>
      simp only [Block.home, Option.bind_some]
      split <;> rfl
    all_goals rfl

/-- The page that holds a block's registers is of that block. -/
theorem blockOf_home {b : Block} {o p : Nat} (hhome : b.home o = some p) : blockOf p = some (b, 0) := by
  unfold Block.home at hhome
  split at hhome <;> (try split at hhome) <;> cases hhome <;> decide

/-- A register has its home where its page's block holds it, and there it stays. -/
theorem homeOff_homeOff (off : Nat) : homeOff (homeOff off) = homeOff off := by
  have hin : inPage off < 0x1000 := Nat.mod_lt _ (by decide)
  cases hhome : (blockOf (pageOfOff off)).bind fun x => x.1.home (inPage off) with
  | none =>
    have hself : homeOff off = off := by rw [homeOff_eq, hhome]; rfl
    rw [hself, hself]
  | some p =>
    have hoff : homeOff off = pageOff p (inPage off) := by rw [homeOff_eq, hhome]; rfl
    obtain ⟨⟨b, i⟩, -, hb⟩ := Option.bind_eq_some_iff.mp hhome
    rw [hoff, homeOff_eq, pageOff_div p hin, pageOff_mod p hin, blockOf_home hb, Option.bind_some, hb]
    rfl

/-- A register whose home lies on a page is one of that page's. -/
theorem ofPage_regKey {off b page : Nat} (hpage : regKey off b / 0x4000 = page) : ofPage page (regKey off b) = true := by
  have hkey : regKey off b / 4 = homeOff off := regKey_div_four off b
  have hhome : pageOff page (inPage (homeOff off)) = homeOff off := by
    unfold pageOff inPage
    omega
  simp only [ofPage, hkey, hhome, homeOff_homeOff, decide_true]

theorem smGet_of_not_mem {α : Type} (d : α) {k : Nat} : ∀ {m : List (Nat × α)}, (∀ e ∈ m, e.1 ≠ k) → smGet d k m = d
  | [], _ => rfl
  | e :: m, h => by
    rw [smGet, if_neg fun hk => h e (List.mem_cons_self ..) hk.symm]
    exact smGet_of_not_mem d fun x hx => h x (List.mem_cons_of_mem _ hx)

theorem Hw.trcReset_keeps {K : Nat → Prop} (h : Hw) (p : Nat) (hout : ¬ K (regKey (0x008 * 0x1000 + 0x058) 0)) :
    Hw.Keeps K h (h.trcReset p) := by
  unfold Hw.trcReset
  split
  · exact .refl h
  · exact (h.wr_keeps _ hout).trans (.of_regs rfl)

theorem regKey_trcDropped : regKey (0x008 * 0x1000 + 0x058) 0 / 4 = 0x008058 := by decide

/-- What a page's reset does to the register file: of the page's own registers those kept stand. -/
def Hw.pageCleared (h : Hw) (page : Nat) : Hw :=
  { h with regs := h.regs.filter fun e => !ofPage page e.1 || softKept page (inPage (e.1 / 4)) }

theorem softResetDone_done {h : Hw} {page : Nat} (hres : h.resetting.contains page = true) (hquiet : h.resetQuiet page = true) :
    ∃ g : Hw, softResetDone page h = { (g.pageCleared page).trcReset page with resetting := g.resetting.filter (· != page) } := by
  rw [softResetDone, hres, hquiet, if_neg (by decide)]
  exact ⟨_, rfl⟩

/-- The registers of a page that a soft reset does not keep read their reset values once it is over. -/
theorem softResetDone_regs {h : Hw} {page : Nat} (hres : h.resetting.contains page = true) (hquiet : h.resetQuiet page = true) {off b : Nat}
    (hpage : regKey off b / 0x4000 = page) (hkept : softKept page (regKey off b / 4 % 0x1000) = false) (hdrop : regKey off b / 4 ≠ 0x008058) :
    (softResetDone page h).reg off b = Registers.dflt (regKey off b) := by
  obtain ⟨g, hg⟩ := softResetDone_done hres hquiet
  have hkeeps : Hw.Keeps (· = regKey off b) (g.pageCleared page) ((g.pageCleared page).trcReset page) :=
    Hw.trcReset_keeps _ page fun hk => hdrop (by rw [← hk, regKey_trcDropped])
  have hcleared : (g.pageCleared page).reg off b = Registers.dflt (regKey off b) := by
    refine smGet_of_not_mem _ fun e he hek => ?_
    have hpass := (List.mem_filter.mp he).2
    rw [hek, ofPage_regKey hpage, show inPage (regKey off b / 4) = regKey off b / 4 % 0x1000 from rfl, hkept] at hpass
    exact absurd hpass (by decide)
  rw [hg]
  exact (hkeeps off b rfl).trans hcleared

theorem softReset_ends {s : State} {page : Nat} (hup : Up s) (hwin : page < 0x4000) (hres : s.hw.resetting.contains page = true)
    (hquiet : s.hw.resetQuiet page = true) :
    ∃ t, exec (.softResetDone page) s = .next t ∧ t.hw.resetting.contains page = false ∧ t.boot = s.boot ∧ t.pending = s.pending
      ∧ ∀ off b, regKey off b / 0x4000 = page → softKept page (regKey off b / 4 % 0x1000) = false → regKey off b / 4 ≠ 0x008058 →
        t.hw.reg off b = Registers.dflt (regKey off b) := by
  have hexec : exec (.softResetDone page) s = .next { s with hw := softResetDone page s.hw } := by
    show execSoftResetDone page s = _
    rw [execSoftResetDone, if_neg (by omega), State.onHw_up _ _ hup]
  refine ⟨_, hexec, ?_, rfl, rfl, fun off b => softResetDone_regs hres hquiet⟩
  show (softResetDone page s.hw).resetting.contains page = false
  obtain ⟨g, hg⟩ := softResetDone_done hres hquiet
  rw [hg]
  simp

/-- Settles O13. -/
theorem pageControlAndSoftReset : Obligations.PageControlAndSoftReset :=
  ⟨pageControl, fun _ _ _ _ _ _ => softReset_begins, fun _ _ _ _ _ _ => softReset_begins_engine, fun _ _ => softReset_ends⟩

end Sys2Proof.Machine
end

section
/-! PROOF of O14, O22 and O16: what finishing leaves of a command, the system opcodes of cores and stage units, and landing areas
(R53, R64, R66, R68). -/

namespace Sys2Proof.Machine

open Sys2Proof.Claims

/-! ### What finishing leaves -/

/-- The counters of its unit that a finished command adds to. -/
def Hw.countDone (h : Hw) (p : Nat) (r : Done) : Hw :=
  r.counts64.foldl (fun h x => h.count64 p x.1 x.2) (r.counts.foldl (fun h x => h.count p x.1 x.2) h)

/-- What a finished command's reads, counters and draws leave, before the command itself is noted. -/
def Hw.finishTouch (h : Hw) (id : QId) (r : Done) : Hw :=
  let g := (r.touched.foldl (fun h x => h.touch (queueMaster id) x.1 x.2) h).countDone (engPage id.eng) r
  if r.drew then g.draw else g

/-- A command that has finished with `r`. -/
def Cmd.finish (r : Done) (c : Cmd) : Cmd :=
  { c with finished := true, code := r.code, result := r.result, writes := r.writes, predMask := r.predMask, predVal := r.predVal,
           hitchCounts := r.hitchCounts, signals := r.signals, work := r.work, spans := r.spans }

theorem Hw.finishCmd_eq (h : Hw) (id : QId) (c : Cmd) (r : Done) :
    h.finishCmd id c r = ((h.finishTouch id r).updCmd id c.ptr (Cmd.finish r)).landTo c.desc (r.result.take (dDstLen c.desc)) := rfl

theorem Hw.draw_access (h : Hw) : Hw.AccessOnly h h.draw := rfl

theorem Hw.countDone_access (h : Hw) (p : Nat) (r : Done) : Hw.AccessOnly h (h.countDone p r) := by
  unfold Hw.countDone
  refine (Hw.fold_access _ (fun h x => ?_) _ _).after (Hw.fold_access _ (fun h x => ?_) _ _)
  · exact (h.count64_regsOnly p x.1 x.2).access
  · exact (h.count_regsOnly p x.1 x.2).access

theorem Hw.finishTouch_access (h : Hw) (id : QId) (r : Done) : Hw.AccessOnly h (h.finishTouch id r) := by
  have hcount := (Hw.countDone_access _ (engPage id.eng) r).after
    (Hw.fold_access _ (fun h x => h.touch_access (queueMaster id) x.1 x.2) r.touched h)
  unfold Hw.finishTouch
  dsimp only
  split
  · exact (Hw.draw_access _).after hcount
  · exact hcount

theorem Hw.landTo_eq (h : Hw) (d : BitVec 512) (bs : List Byte) :
    h.landTo d bs = { h with landing := h.landing ++ (match addrForm (dDst d) with
      | .peer core off => [⟨core, off, bs, dGroup d, dStep d⟩]
      | _ => []) } := by
  unfold Hw.landTo
  split <;> simp_all

@[simp] theorem Hw.landTo_qs (h : Hw) (d : BitVec 512) (bs : List Byte) (id : QId) : (h.landTo d bs).qs id = h.qs id := by
  rw [Hw.landTo_eq]
  rfl

theorem Hw.updCmd_qs_same (h : Hw) (id : QId) (p : Word) (f : Cmd → Cmd) :
    (h.updCmd id p f).qs id = { h.qs id with cmds := (h.qs id).cmds.map fun c => if c.ptr = p then f c else c } := by
  rw [Hw.updCmd, Hw.qs_setQs_same]

theorem Hw.updCmd_qs_other (h : Hw) {id id' : QId} (p : Word) (f : Cmd → Cmd) (hne : id' ≠ id) : (h.updCmd id p f).qs id' = h.qs id' := by
  rw [Hw.updCmd, Hw.qs_setQs_other _ _ hne]

/-- The queue of a finished command: the command itself has its results. -/
theorem Hw.finishCmd_qs_same (h : Hw) (id : QId) (c : Cmd) (r : Done) :
    (h.finishCmd id c r).qs id = { h.qs id with cmds := (h.qs id).cmds.map fun x => if x.ptr = c.ptr then x.finish r else x } := by
  rw [Hw.finishCmd_eq, Hw.landTo_qs, Hw.updCmd_qs_same, (h.finishTouch_access id r).outside.qs]

theorem Hw.finishCmd_qs_other (h : Hw) {id id' : QId} (c : Cmd) (r : Done) (hne : id' ≠ id) : (h.finishCmd id c r).qs id' = h.qs id' := by
  rw [Hw.finishCmd_eq, Hw.landTo_qs, Hw.updCmd_qs_other _ _ _ hne, (h.finishTouch_access id r).outside.qs]

/-- A fold of operations each of which keeps the registers of `K`. -/
theorem Hw.fold_keeps {α : Type} {K : Nat → Prop} (f : Hw → α → Hw) :
    ∀ (l : List α) (h : Hw), (∀ h, ∀ a ∈ l, Hw.Keeps K h (f h a)) → Hw.Keeps K h (l.foldl f h)
  | [], h, _ => .refl h
  | a :: l, h, hf => (hf h a (List.mem_cons_self ..)).trans (Hw.fold_keeps f l _ fun h b hb => hf h b (List.mem_cons_of_mem a hb))

theorem Hw.count_keeps {K : Nat → Prop} (h : Hw) {p o : Nat} (n : Nat) (hout : ¬ K (regKey (p * 0x1000 + o) 0)) :
    Hw.Keeps K h (h.count p o n) := h.wr_keeps _ hout

theorem Hw.count64_keeps {K : Nat → Prop} (h : Hw) {p o : Nat} (n : Nat) (hlo : ¬ K (regKey (p * 0x1000 + o) 0))
    (hhi : ¬ K (regKey (p * 0x1000 + (o + 4)) 0)) : Hw.Keeps K h (h.count64 p o n) :=
  (h.wr_keeps _ hlo).trans (Hw.wr_keeps _ _ hhi)

theorem foldl_mem {α : Type} (f : Hw → α → Hw) (hf : ∀ h a, (f h a).mem = h.mem) (l : List α) : ∀ h, (l.foldl f h).mem = h.mem := by
  induction l with
  | nil => intro h; rfl
  | cons a l ih => intro h; rw [List.foldl_cons, ih, hf]

theorem Hw.countDone_mem (h : Hw) (p : Nat) (r : Done) : (h.countDone p r).mem = h.mem := by
  rw [Hw.countDone, foldl_mem (fun h (x : Nat × Nat) => h.count64 p x.1 x.2) (fun h x => (h.count64_regsOnly p x.1 x.2).lines.mem),
    foldl_mem (fun h (x : Nat × Nat) => h.count p x.1 x.2) (fun _ _ => rfl)]

theorem Hw.countDone_keeps {K : Nat → Prop} (h : Hw) {p : Nat} {r : Done} (hcounts : ∀ x ∈ r.counts, ¬ K (regKey (p * 0x1000 + x.1) 0))
    (hcounts64 : ∀ x ∈ r.counts64, ¬ K (regKey (p * 0x1000 + x.1) 0) ∧ ¬ K (regKey (p * 0x1000 + (x.1 + 4)) 0)) :
    Hw.Keeps K h (h.countDone p r) :=
  (Hw.fold_keeps _ _ _ fun h x hx => h.count_keeps _ (hcounts x hx)).trans
    (Hw.fold_keeps _ _ _ fun h x hx => h.count64_keeps _ (hcounts64 x hx).1 (hcounts64 x hx).2)

/-- Without a range read, only the counters and the count of draws differ. -/
theorem Hw.finishTouch_noRead (h : Hw) (id : QId) {r : Done} (hno : r.touched = []) :
    (h.finishTouch id r).mem = h.mem ∧ (h.finishTouch id r).regs = (h.countDone (engPage id.eng) r).regs := by
  unfold Hw.finishTouch
  rw [hno, List.foldl_nil]
  dsimp only
  split
  · exact ⟨h.countDone_mem _ r, rfl⟩
  · exact ⟨h.countDone_mem _ r, rfl⟩

/-- Settles O14: finishing is an access, a note on the command, and what lands. -/
theorem finishedCommand : Obligations.FinishedCommand := by
  intro h id c r k
  refine ⟨?_, fun id' hne => h.finishCmd_qs_other c r hne, ?_, fun hno => ⟨?mem, fun off b hcounts hcounts64 => ?regs⟩⟩
  · exact congrArg QState.cmds (h.finishCmd_qs_same id c r)
  · show (h.finishCmd id c r).landing = _
    rw [Hw.finishCmd_eq, Hw.landTo_eq]
    exact congrArg (· ++ _) (h.finishTouch_access id r).outside.landing
  case mem =>
    show (h.finishCmd id c r).mem = _
    rw [Hw.finishCmd_eq, Hw.landTo_eq]
    exact (h.finishTouch_noRead id hno).1
  case regs =>
    have hkeeps : Hw.Keeps (· = regKey off b) h (h.finishTouch id r) := by
      refine Hw.Keeps.trans ?_ (.of_regs (h.finishTouch_noRead id hno).2)
      exact h.countDone_keeps (fun x hx heq => hcounts x hx heq.symm)
        fun x hx => ⟨fun heq => (hcounts64 x hx).1 heq.symm, fun heq => (hcounts64 x hx).2 heq.symm⟩
    show (h.finishCmd id c r).reg off b = _
    rw [Hw.finishCmd_eq, Hw.landTo_eq]
    exact hkeeps off b rfl

/-! ### What a core runs -/

/-- A core runs the first command of the opcode before which every other waits. -/
theorem Hw.execCore_first (h : Hw) {id : QId} {op : Nat} {f : Hw → Cmd → Ex Done} {c : Cmd} {before after : List Cmd}
    (hrun : h.running id op = before ++ c :: after) (hbefore : ∀ x ∈ before, exWaits (f h x) = true) (hc : exWaits (f h c) = false) :
    h.execCore id op f = h.endExec id c (f h c) := by
  have hnone : before.find? (fun x => !exWaits (f h x)) = none :=
    List.find?_eq_none.mpr fun x hx => by simp [hbefore x hx]
  rw [Hw.execCore, hrun, List.find?_append, hnone, Option.none_or, List.find?_cons_of_pos (by simp [hc])]

/-- With nothing but commands that wait, a core runs nothing. -/
theorem Hw.execCore_waits (h : Hw) {id : QId} {op : Nat} {f : Hw → Cmd → Ex Done}
    (hall : ∀ x ∈ h.running id op, exWaits (f h x) = true) : h.execCore id op f = h := by
  have hnone : (h.running id op).find? (fun x => !exWaits (f h x)) = none :=
    List.find?_eq_none.mpr fun x hx => by simp [hall x hx]
  rw [Hw.execCore, hnone]

/-- The oldest command of an opcode finishes with what its execution gives. -/
theorem Hw.execCore_head (h : Hw) {id : QId} {op : Nat} {f : Hw → Cmd → Ex Done} {c : Cmd} {r : Done}
    (hhead : (h.running id op).head? = some c) (hf : f h c = .ok r) : h.execCore id op f = h.finishCmd id c r := by
  obtain ⟨rest, hrun⟩ := List.head?_eq_some_iff.mp hhead
  rw [h.execCore_first (before := []) hrun (by simp) (by rw [hf]; rfl), hf]
  rfl

theorem Hw.execStage_head (h : Hw) {id : QId} {op : Nat} {f : Hw → Cmd → Ex Done} {c : Cmd} {r : Done}
    (hhead : h.stageHead id op = some c) (hf : f h c = .ok r) : h.execStage id op f = h.finishCmd id c r := by
  rw [Hw.execStage, hhead]
  show h.endExec id c (f h c) = _
  rw [hf]
  rfl

/-! ### WAIT_MEM and its limit -/

/-- A WAIT_MEM whose masked word does not match goes on waiting. -/
theorem waitMemRun_waits {h : Hw} {id : QId} {c : Cmd} {bs : List Byte} (hread : h.source id c 0 4 = .ok bs)
    (hne : leNat bs &&& dword c.desc 0 ≠ dword c.desc 1) : exWaits (waitMemRun id h c) = true := by
  rw [waitMemRun, hread]
  show exWaits (if _ then _ else _) = true
  rw [if_neg hne]
  rfl

theorem waitMemRun_done {h : Hw} {id : QId} {c : Cmd} {bs : List Byte} (hread : h.source id c 0 4 = .ok bs)
    (heq : leNat bs &&& dword c.desc 0 = dword c.desc 1) : waitMemRun id h c = .ok { touched := srcTouch c.desc 4 } := by
  rw [waitMemRun, hread]
  exact if_pos heq

theorem Hw.waitOver_iff (h : Hw) (n : Nat) (c : Cmd) :
    h.waitOver n c = true ↔ dword c.desc 2 ≠ 0 ∧ dword c.desc 2 * 1024 ≤ h.cclk n (h.time - c.issuedAt) := by
  simp [Hw.waitOver]

/-! ### The system opcodes of a core -/

theorem systemOpcodes : SystemOpcodes := by
  intro s n q c hup
  have hq : hasQueue (.core n) q.val = true := by simp [hasQueue, engQueues]
  refine ⟨fun hc => ?_, fun hc => ?_, fun hc => ?_, fun hc => ?_, fun hc => ?_, ?waitMem, fun bs hc hread => ?peerSend, ?timeout⟩
  · show execNop (.core n) q s = _
    rw [execNop, onQueue_up hup hq, plainExec, s.hw.execCore_head hc rfl]
    rfl
  · show execTraceMark (.core n) q s = _
    rw [execTraceMark, onQueue_up hup hq, plainExec, s.hw.execCore_head hc rfl]
    rfl
  · show execGroupEnd n q s = _
    rw [execGroupEnd, State.onHw_up _ _ hup, s.hw.execCore_head hc rfl]
  · show execSetPred n q s = _
    rw [execSetPred, State.onHw_up _ _ hup, s.hw.execCore_head hc rfl]
  · show execSignal n q s = _
    rw [execSignal, State.onHw_up _ _ hup, s.hw.execCore_head hc rfl]
  case waitMem =>
    intro waits
    refine ⟨fun bs before after hrun hbefore hread hmatch => ?_, fun hall => ?_⟩
    · show execWaitMem n q s = _
      have hdone := waitMemRun_done hread hmatch
      rw [execWaitMem, State.onHw_up _ _ hup, s.hw.execCore_first hrun
        (fun x hx => let ⟨_, hx₁, hx₂⟩ := hbefore x hx; waitMemRun_waits hx₁ hx₂) (by rw [hdone]; rfl), hdone]
      rfl
    · show execWaitMem n q s = _
      rw [execWaitMem, State.onHw_up _ _ hup, s.hw.execCore_waits fun x hx => let ⟨_, hx₁, hx₂⟩ := hall x hx; waitMemRun_waits hx₁ hx₂]
  case peerSend =>
    show execPeerSend n q s = _
    rw [execPeerSend, State.onHw_up _ _ hup, s.hw.execCore_head hc (by rw [hread])]
  case timeout =>
    intro over_
    refine ⟨fun before after hrun hbefore hover => ?_, fun hall => ?_⟩
    · show execWaitTimeout n q s = _
      have hnone : before.find? (s.hw.waitOver n.val) = none :=
        List.find?_eq_none.mpr fun x hx hx' => hbefore x hx ((s.hw.waitOver_iff _ _).mp hx')
      rw [execWaitTimeout, State.onHw_up _ _ hup, waitTimeout, hrun, List.find?_append, hnone, Option.none_or,
        List.find?_cons_of_pos ((s.hw.waitOver_iff _ _).mpr hover)]
    · show execWaitTimeout n q s = _
      have hnone : (s.hw.running ⟨.core n, q.val⟩ 0x04).find? (s.hw.waitOver n.val) = none :=
        List.find?_eq_none.mpr fun x hx hx' => hall x hx ((s.hw.waitOver_iff _ _).mp hx')
      rw [execWaitTimeout, State.onHw_up _ _ hup, waitTimeout, hnone]

/-! ### Landing areas -/

theorem landingArrival_of_find {h : Hw} {n : Fin 48} {l : Landing} (hl : h.landing.find? (fun l => l.core = n.val) = some l) :
    landingArrival n h =
      let g : Hw := { h with
        landing := h.landing.erase l
        landed := (h.landed.map fun a => if l.meets a then Landing.opened h.freeCtr a l else a)
          ++ [(h.landed.filter l.meets).foldl (fun a b => Landing.opened h.freeCtr a b) l] }
      if h.landed.filter l.meets = [] then g else g.draw := by
  rw [landingArrival, hl]

/-- Where nothing shares a granule with what arrives, all that has landed stays. -/
theorem landed_stays {l : Landing} {landed : List Landing} (ctr : Nat) (halone : landed.filter l.meets = []) :
    landed.map (fun a => if l.meets a then Landing.opened ctr a l else a) = landed := by
  conv_rhs => rw [← List.map_id landed]
  refine List.map_congr_left fun a ha => ?_
  rw [if_neg (List.filter_eq_nil_iff.mp halone a ha), id]

theorem landingArrives : LandingArrives := by
  intro s n l hup hl
  have hexec : exec (.landingArrival n) s = .next { s with hw := landingArrival n s.hw } := by
    show execLandingArrival n s = _
    rw [execLandingArrival, State.onHw_up _ _ hup]
  refine ⟨fun halone => ?alone, fun hmet => ⟨_, hexec, ?meets⟩⟩
  case alone => rw [hexec, landingArrival_of_find hl, landed_stays _ halone, halone]; rfl
  case meets =>
    rw [landingArrival_of_find hl]
    simp only [if_neg hmet]
    exact ⟨rfl, by simp [Hw.draw], rfl, rfl⟩

/-- Settles O22: each opcode by what its execution gives, and an arrival by whether another writer's granules meet it. -/
theorem coreSystemOpcodes : Obligations.CoreSystemOpcodes := ⟨systemOpcodes, landingArrives⟩

/-! ### NOP, TRACE_MARK and CTX_LOAD on stage units -/

theorem rxRead_ok {h : Hw} {m : Master} {va n : Nat} {bs : List Byte} (t : List (Nat × Nat)) (hread : h.read m va n = .ok bs) (hn : n ≠ 0) :
    rxRead h m va n t = .ok (bs, (va, n) :: t) := by
  rw [rxRead, hread]
  exact congrArg (fun x => Except.ok (bs, x)) (if_neg hn)

theorem rxCheck_true (code : Nat) (t : List (Nat × Nat)) : rxCheck true code t = .ok ((), t) := rfl

/-- What a CTX_LOAD gives on a core: the block it read. -/
theorem ctxLoadRun_core {h : Hw} {n : Fin 48} {q : Nat} {c : Cmd} {b : List Byte}
    (hread : h.read (queueMaster ⟨.core n, q⟩) (dSrc c.desc) 64 = .ok b) :
    rxRun (ctxLoadRun ⟨.core n, q⟩ h c) = .ok { result := b, touched := [(dSrc c.desc, 64)] } := by
  have hx : ctxLoadRun ⟨.core n, q⟩ h c [] = .ok ({ result := b }, [(dSrc c.desc, 64)]) := by
    simp only [ctxLoadRun, bind, StateT.bind, Except.bind, rxRead_ok [] hread (by decide)]
    rfl
  rw [rxRun, hx]
  rfl

/-- What a CTX_LOAD gives on a Muzzle: the block and the grammar header it names, one after the other. -/
theorem ctxLoadRun_muz {h : Hw} {d : Fin 4} {q : Nat} {c : Cmd} {b g : List Byte}
    (hread : h.read (queueMaster ⟨.stage d .muz, q⟩) (dSrc c.desc) 64 = .ok b) (hroot : ctxMuzzle b ≠ 0)
    (hgram : h.read (queueMaster ⟨.stage d .muz, q⟩) (ctxMuzzle b) 64 = .ok g) (hok : h.grammarOk ⟨.stage d .muz, q⟩ g = true) :
    rxRun (ctxLoadRun ⟨.stage d .muz, q⟩ h c) =
      .ok { result := b ++ g, touched := [(dSrc c.desc, 64), (ctxMuzzle b, 64)] } := by
  have hx : ctxLoadRun ⟨.stage d .muz, q⟩ h c [] = .ok ({ result := b ++ g }, [(ctxMuzzle b, 64), (dSrc c.desc, 64)]) := by
    simp only [ctxLoadRun, bind, StateT.bind, Except.bind, rxRead_ok _ hread (by decide), if_neg hroot,
      rxRead_ok _ hgram (by decide), hok, rxCheck_true]
    rfl
  rw [rxRun, hx]
  rfl

theorem ctxMuzzle_take {b : List Byte} (hlen : b.length = 64) : b.take 64 = b := by rw [← hlen, List.take_length]

theorem Hw.noteRoot_new {h : Hw} {root : Nat} (hroot : root ≠ 0) (hnew : root ∉ h.measured) :
    (h.noteRoot root).measures = h.measures ++ [.grammar root] := by
  rw [Hw.noteRoot, if_neg (by simp [hroot, hnew])]

theorem ctxLoad_core {h : Hw} {n : Fin 48} {q : Nat} {c : Cmd} {b : List Byte} (hlen : b.length = 64)
    (hhead : (h.running ⟨.core n, q⟩ 0x01).head? = some c)
    (hread : h.read (queueMaster ⟨.core n, q⟩) (dSrc c.desc) 64 = .ok b) :
    ctxLoad ⟨.core n, q⟩ h = (h.finishCmd ⟨.core n, q⟩ c { touched := [(dSrc c.desc, 64)] }).noteRoot (ctxMuzzle b) := by
  simp only [ctxLoad, hhead, ctxLoadRun_core hread]
  rw [ctxMuzzle_take hlen]

theorem ctxLoad_muz {h : Hw} {d : Fin 4} {q : Nat} {c : Cmd} {b g : List Byte} (hlen : b.length = 64)
    (hhead : h.stageHead ⟨.stage d .muz, q⟩ 0x01 = some c)
    (hread : h.read (queueMaster ⟨.stage d .muz, q⟩) (dSrc c.desc) 64 = .ok b) (hroot : ctxMuzzle b ≠ 0)
    (hgram : h.read (queueMaster ⟨.stage d .muz, q⟩) (ctxMuzzle b) 64 = .ok g) (hok : h.grammarOk ⟨.stage d .muz, q⟩ g = true) :
    ctxLoad ⟨.stage d .muz, q⟩ h =
      let k := (h.finishCmd ⟨.stage d .muz, q⟩ c { touched := [(dSrc c.desc, 64), (ctxMuzzle b, 64)] }).noteRoot (ctxMuzzle b)
      k.setQs ⟨.stage d .muz, q⟩ { k.qs ⟨.stage d .muz, q⟩ with ctx := b, grammar := g } := by
  have htake : (b ++ g).take 64 = b := by rw [← hlen, List.take_left]
  have hdrop : (b ++ g).drop 64 = g := by rw [← hlen, List.drop_left]
  simp only [ctxLoad, hhead, ctxLoadRun_muz hread hroot hgram hok, htake, hdrop]

theorem Hw.finishCmd_measures (h : Hw) (id : QId) (c : Cmd) (r : Done) :
    (h.finishCmd id c r).measures = h.measures ∧ (h.finishCmd id c r).measured = h.measured := by
  have ht := h.finishTouch_access id r
  rw [Hw.finishCmd_eq, Hw.landTo_eq]
  exact ⟨by show (h.finishTouch id r).measures = _; rw [ht], by show (h.finishTouch id r).measured = _; rw [ht]⟩

/-- Settles O16: what each of the three gives, and that a CTX_LOAD finishes with it and notes its root. -/
theorem stageSystemOpcodes : Obligations.StageSystemOpcodes := by
  refine ⟨?plain, ?core, ?muz⟩
  case plain =>
    intro s d u q c hup hq
    have hq' : hasQueue (.stage d u) q.val = true := decide_eq_true hq
    refine ⟨fun hc => ?_, fun hc => ?_⟩
    · show execNop (.stage d u) q s = _
      rw [execNop, onQueue_up hup hq', plainExec, s.hw.execStage_head hc rfl]
      rfl
    · show execTraceMark (.stage d u) q s = _
      rw [execTraceMark, onQueue_up hup hq', plainExec, s.hw.execStage_head hc rfl]
      rfl
  case core =>
    intro s n q c b hup id hc hread hlen
    have hq : hasQueue (.core n) q.val = true := by simp [hasQueue, engQueues]
    show execCtxLoad (.core n) q s = _
    rw [execCtxLoad, onQueue_up hup hq, ctxLoad_core hlen hc hread]
  case muz =>
    intro s d q c b g hup hq id hc hread hlen hroot hgram _ hok
    have hq' : hasQueue (.stage d .muz) q.val = true := decide_eq_true hq
    let k := (s.hw.finishCmd id c { touched := [(dSrc c.desc, 64), (ctxMuzzle b, 64)] }).noteRoot (ctxMuzzle b)
    refine ⟨k.setQs id { k.qs id with ctx := b, grammar := g }, ?_, ?_, ?_, fun hnew => ?_⟩
    · show execCtxLoad (.stage d .muz) q s = _
      rw [execCtxLoad, onQueue_up hup hq', ctxLoad_muz hlen hc hread hroot hgram hok]
    · rw [Hw.qs_setQs_same]
    · rw [Hw.qs_setQs_same]
    · obtain ⟨hmeasures, hmeasured⟩ := s.hw.finishCmd_measures id c { touched := [(dSrc c.desc, 64), (ctxMuzzle b, 64)] }
      rw [Hw.setQs_measures, Hw.noteRoot_new hroot (by rwa [hmeasured]), hmeasures]

end Sys2Proof.Machine
end

section
/-! PROOF of O24: what a kill drops, and what it leaves (R64, R72). -/

namespace Sys2Proof.Machine

open Sys2Proof.Claims

/-! ### What a kill gives back -/

theorem Hw.fold_regsOnly {α : Type} (f : Hw → α → Hw) (hf : ∀ h a, Hw.RegsOnly h (f h a)) (l : List α) :
    ∀ h, Hw.RegsOnly h (l.foldl f h) := by
  induction l with
  | nil => intro h; exact .refl h
  | cons a l ih => intro h; exact (hf h a).trans (ih _)

theorem Hw.fold_lines {α : Type} (f : Hw → α → Hw) (hf : ∀ h a, Hw.LinesOnly h (f h a)) (l : List α) :
    ∀ h, Hw.LinesOnly h (l.foldl f h) := by
  induction l with
  | nil => intro h; exact .refl h
  | cons a l ih => intro h; exact (hf h a).trans (ih _)

theorem Hw.unsignal_regsOnly (h : Hw) (id : QId) : Hw.RegsOnly h (h.unsignal id) := by
  unfold Hw.unsignal
  refine Hw.fold_regsOnly _ (fun h c => ?_) _ h
  exact Hw.fold_regsOnly _ (fun h e => h.setSem_regsOnly _ _ _) _ h

theorem Hw.giveBack_lines (h : Hw) (id : QId) : Hw.LinesOnly h (h.giveBack id) := by
  unfold Hw.giveBack
  refine Hw.fold_lines _ (fun h c => ?_) _ h
  exact Hw.fold_lines _ (fun h e => h.semAdd_lines _ _ _) _ h

/-- Beside registers, taking increments back changes only which are tagged. -/
theorem Hw.takeBack_eq (h : Hw) (f : Tagged → Bool) :
    ∃ regs, h.takeBack f = { h with regs := regs, tagged := h.tagged.filter fun t => !f t } := by
  have hfold := Hw.fold_regsOnly (fun (h : Hw) (t : Tagged) =>
    (h.setSem t.core t.sem (h.sem t.core t.sem - t.n)).count (0x0C4 + 8 * (t.core / 12)) 0x058 t.n) (fun h t => rfl) (h.tagged.filter f) h
  unfold Hw.takeBack
  dsimp only
  rw [hfold]
  exact ⟨_, rfl⟩

/-! ### What a kill does to memory -/

theorem Hw.clearMoving_outside (h : Hw) (m : Master) (va : Nat) (key : Option Nat) : Hw.OutsideOnly h (h.clearMoving m va key) := by
  unfold Hw.clearMoving
  split
  · exact (h.store_access _ _).outside
  · split
    · exact h.write_outside _ _ _
    · exact .refl h

theorem Hw.endMoving_outside (h : Hw) (id : QId) (c : Cmd) : Hw.OutsideOnly h (h.endMoving id c) := by
  unfold Hw.endMoving
  split
  · exact Hw.fold_outside _ (fun h e => h.clearMoving_outside _ _ _) _ h
  · exact .refl h

theorem Hw.openRange_outside (m : Master) : ∀ (fuel va n : Nat) (h : Hw), Hw.OutsideOnly h (Hw.openRange m fuel va n h) := by
  intro fuel
  induction fuel with
  | zero => intro va n h; exact .refl h
  | succ f ih =>
    intro va n h
    unfold Hw.openRange
    split
    · exact .refl h
    · exact (ih _ _ _).after ((Hw.draw_access _).outside.after (h.write_outside _ _ _))

theorem Hw.openDst_outside (h : Hw) (id : QId) (d : BitVec 512) (o : Nat) : Hw.OutsideOnly h (h.openDst id d o) := by
  unfold Hw.openDst
  split
  · exact Hw.openRange_outside _ _ _ _ h
  · exact .refl h

theorem Hw.outside_ite {h k : Hw} (c : Prop) [Decidable c] (hk : Hw.OutsideOnly h k) : Hw.OutsideOnly h (if c then k else h) := by
  split
  · exact hk
  · exact .refl h

theorem Hw.killOpens_outside (h : Hw) (id : QId) (c : Cmd) : Hw.OutsideOnly h (h.killOpens id c) := by
  unfold Hw.killOpens
  split
  · exact Hw.outside_ite _ (h.openDst_outside _ _ _)
  · split
    · exact .refl h
    · exact Hw.openRange_outside _ _ _ _ h
  · split
    · exact Hw.openRange_outside _ _ _ _ h
    · exact .refl h
  · exact Hw.outside_ite _ (h.openDst_outside _ _ _)
  · exact .refl h

/-- What a kill of a queue leaves open and ends, before its commands are dropped. -/
def Hw.dropOpen (h : Hw) (id : QId) (spare : Option Word) : Hw :=
  ((h.killable id).filter fun c => some c.ptr ≠ spare).foldl (fun h c => h.killOpens id c)
    ((h.killable id).foldl (fun h c => h.endMoving id c) (h.unsignal id))

theorem Hw.dropOpen_outside (h : Hw) (id : QId) (spare : Option Word) : Hw.OutsideOnly h (h.dropOpen id spare) := by
  refine (Hw.fold_outside _ (fun h c => h.killOpens_outside _ _) _ _).after ?_
  exact (Hw.fold_outside _ (fun h c => h.endMoving_outside _ _) _ _).after (h.unsignal_regsOnly id).outside

/-! ### What is left of a queue -/

/-- A queue whose commands have been dropped. -/
def QState.dropped (q : QState) (id : QId) (spare : Option Word) (time : Nat) : QState :=
  { q with cmds := q.cmds.filter (·.going), rejected := none, deferred := [], mirWaited := false, held := none, moveHold := none,
           killed := (q.killed ++ ((q.cmds.filter fun c => !c.going).map (·.ptr)).filter fun p => some p ≠ spare).eraseDups,
           ctx := [], grammar := [], reload := hasCtx id.eng, headSince := time }

/-- Landing data of the sets goes, and with it the probes that a queue has sent. -/
def Hw.dropLanding (h : Hw) (id : QId) (sets : List (Nat × Nat)) : Hw :=
  { h with
    landed := h.landed.filter fun l => !sets.contains (l.group, l.step)
    landing := h.landing.filter fun l => !sets.contains (l.group, l.step)
    probes := h.probes.filter fun p => p.queue ≠ id }

/-- The commands of a queue dropped, before a pre-emption that waited takes effect. -/
def Hw.dropBare (h : Hw) (id : QId) (spare : Option Word) : Hw :=
  let g := (h.dropOpen id spare).dropLanding id (h.setsOf id)
  let g := g.setQs id ((h.qs id).dropped id spare g.time)
  g.qwr id 0x10 (g.qCommit id + ((h.qs id).cmds.filter (·.going)).length)

theorem Hw.dropCmds_eq (h : Hw) (id : QId) (spare : Option Word) : h.dropCmds id spare =
    if (h.qs id).deferred.contains .preempt then (h.dropBare id spare).enterSt id .paused else h.dropBare id spare := rfl

theorem Hw.dropBare_qs_same (h : Hw) (id : QId) (spare : Option Word) :
    (h.dropBare id spare).qs id = (h.qs id).dropped id spare (h.dropOpen id spare).time := Hw.qs_setQs_same _ _ _

theorem Hw.dropBare_qs_other (h : Hw) {id id' : QId} (spare : Option Word) (hne : id' ≠ id) :
    (h.dropBare id spare).qs id' = h.qs id' :=
  (Hw.qs_setQs_other _ _ hne).trans ((h.dropOpen_outside id spare).qs id')

/-! ### Entering a state -/

/-- A queue that has entered a state. -/
def QState.enter (q : QState) (st : QSt) : QState := { q with st := st, heldAt := if st = .faultHold then q.heldAt else none }

theorem Hw.enterSt_qs_same (h : Hw) (id : QId) (st : QSt) : (h.enterSt id st).qs id = (h.qs id).enter st := by
  obtain ⟨m, heq⟩ := h.enterSt_eq id st
  have hqs : ({ h.setQs id ((h.qs id).enter st) with mmu := m } : Hw).qs id = (h.qs id).enter st := h.qs_setQs_same _ _
  rw [heq]
  dsimp only
  split
  · rw [Hw.raise_qs]
    exact hqs
  · exact hqs

/-- Beside the queue itself, entering a state changes the masters held, and raises a halt. -/
theorem Hw.enterSt_other (h : Hw) (id : QId) (st : QSt) :
    ∃ m q, Hw.LinesOnly { h.setQs id q with mmu := m } (h.enterSt id st) ∧ Hw.QRegs h (h.enterSt id st) := by
  obtain ⟨m, heq⟩ := h.enterSt_eq id st
  refine ⟨m, (h.qs id).enter st, ?_⟩
  rw [heq]
  dsimp only
  split
  · exact ⟨Hw.raise_lines _ _ _, (Hw.raise_q _ _ _).after (.of_regs rfl)⟩
  · exact ⟨.refl _, .of_regs rfl⟩

theorem Hw.enterSt_qs_other (h : Hw) {id id' : QId} (st : QSt) (hne : id' ≠ id) : (h.enterSt id st).qs id' = h.qs id' := by
  obtain ⟨m, q, hlines, -⟩ := h.enterSt_other id st
  rw [hlines.outside.qs]
  exact h.qs_setQs_other q hne

theorem Hw.enterSt_q (h : Hw) (id : QId) (st : QSt) : Hw.QRegs h (h.enterSt id st) :=
  let ⟨_, _, _, hq⟩ := h.enterSt_other id st; hq

theorem Hw.enterSt_mem (h : Hw) (id : QId) (st : QSt) : (h.enterSt id st).mem = h.mem := by
  obtain ⟨m, q, hlines, -⟩ := h.enterSt_other id st
  exact hlines.mem

theorem Hw.enterSt_landed (h : Hw) (id : QId) (st : QSt) :
    (h.enterSt id st).landed = h.landed ∧ (h.enterSt id st).landing = h.landing := by
  obtain ⟨m, q, hlines, -⟩ := h.enterSt_other id st
  exact ⟨hlines.landed, hlines.landing⟩

/-! ### Queue registers -/

theorem qkey_inj {e : Eng} {q o o' : Nat} (hq : hasQueue e q = true) (ho : o < 0x40) (ho' : o' < 0x40) (hne : o' ≠ o) :
    regKey (engPage e * 0x1000 + qOff ⟨e, q⟩ o') 0 ≠ regKey (engPage e * 0x1000 + qOff ⟨e, q⟩ o) 0 := by
  have hlt : q < engQueues e := of_decide_eq_true hq
  rw [qOff_key e q o hlt ho, qOff_key e q o' hlt ho']
  cases e <;> simp only [qOff] <;> omega

theorem Hw.qrd_qwr_same (h : Hw) (id : QId) (o v : Nat) : (h.qwr id o v).qrd id o = v % 0x100000000 := h.rd_wr_same _ _ _ _

theorem Hw.qrd_qwr_other (h : Hw) {id : QId} {o o' : Nat} (v : Nat) (hq : hasQueue id.eng id.q = true) (ho : o < 0x40) (ho' : o' < 0x40)
    (hne : o' ≠ o) : (h.qwr id o v).qrd id o' = h.qrd id o' := h.rd_wr_other v (qkey_inj hq ho ho' hne)

theorem Hw.qrd_lt (h : Hw) (id : QId) (o : Nat) : h.qrd id o < 0x100000000 := (h.reg _ _).isLt

/-- What leaves the queue registers leaves each of them. -/
theorem Hw.QRegs.qrd {h k : Hw} (hk : Hw.QRegs h k) {id : QId} (o : Nat) (hq : hasQueue id.eng id.q = true) (ho : o < 0x40) :
    k.qrd id o = h.qrd id o := by
  obtain ⟨e, q⟩ := id
  have hlt : q < engQueues e := of_decide_eq_true hq
  have hkey := qOff_key e q o hlt ho
  have hpage : 0x80 ≤ engPage e := by cases e <;> simp only [engPage] <;> omega
  have hqueues : engQueues e ≤ 8 := by cases e <;> simp only [engQueues] <;> omega
  have hoff : 0x100 ≤ qOff ⟨e, q⟩ o ∧ qOff ⟨e, q⟩ o < 0x1000 := by cases e <;> simp only [qOff] <;> omega
  refine congrArg BitVec.toNat (hk _ _ ?_ ?_)
  · rw [hkey]
    omega
  · rw [hkey]
    omega

/-! ### What a kill leaves of a queue -/

/-- The commands of a queue have been dropped, but for those whose Hitch has begun, with any rejection; a pre-emption that waited has taken
effect. -/
structure QState.Dropped (q k : QState) : Prop where
  cmds : k.cmds = q.cmds.filter (·.going)
  rejected : k.rejected = none
  deferred : k.deferred = []
  st : k.st = if q.deferred.contains .preempt then .paused else q.st

theorem QState.Dropped.trans {a b c : QState} (h : a.Dropped b) (k : b.Dropped c) : a.Dropped c where
  cmds := by rw [k.cmds, h.cmds, List.filter_filter]; simp
  rejected := k.rejected
  deferred := k.deferred
  st := by rw [k.st, h.deferred, h.st]; rfl

theorem Hw.dropCmds_dropped (h : Hw) (id : QId) (spare : Option Word) :
    (h.qs id).Dropped ((h.dropCmds id spare).qs id) ∧ ((h.dropCmds id spare).qs id).cause = (h.qs id).cause := by
  rw [Hw.dropCmds_eq]
  split
  · rename_i hpre
    rw [Hw.enterSt_qs_same, Hw.dropBare_qs_same]
    exact ⟨⟨rfl, rfl, rfl, (if_pos hpre).symm⟩, rfl⟩
  · rename_i hpre
    rw [Hw.dropBare_qs_same]
    exact ⟨⟨rfl, rfl, rfl, (if_neg hpre).symm⟩, rfl⟩

theorem Hw.dropCmds_qs_other (h : Hw) {id id' : QId} (spare : Option Word) (hne : id' ≠ id) :
    (h.dropCmds id spare).qs id' = h.qs id' := by
  rw [Hw.dropCmds_eq]
  split
  · rw [Hw.enterSt_qs_other _ _ hne, h.dropBare_qs_other spare hne]
  · exact h.dropBare_qs_other spare hne

/-- What follows the dropping of a queue's commands in a kill: the cause, the counter, the kill record. -/
theorem Hw.killOne_eq (h : Hw) (id : QId) (cause : Option KillCause) (spare : Option Word) : ∃ k r, h.killOne id cause spare =
    Hw.trace k r ∧ Hw.RegsOnly ((h.dropCmds id spare).setQs id
      { (h.dropCmds id spare).qs id with cause := cause.elim ((h.dropCmds id spare).qs id).cause causeNo }) k
    ∧ (∀ n, id.eng = .core n → Hw.QRegs (h.dropCmds id spare) k) := by
  refine ⟨_, _, rfl, ?_, fun n hn => ?_⟩
  · cases id.eng with
    | core n => cases cause <;> rfl
    | stage d u => rfl
  · rw [hn]
    cases cause with
    | none => exact .of_regs rfl
    | some c => exact (Hw.count_q _ _ _ _ (by cases c <;> simp [causeCounter]) (by cases c <;> simp [causeCounter])).after (.of_regs rfl)

theorem Hw.killOne_dropped (h : Hw) (id : QId) (cause : Option KillCause) (spare : Option Word) :
    (h.qs id).Dropped ((h.killOne id cause spare).qs id) ∧ ((h.killOne id cause spare).qs id).cause = cause.elim (h.qs id).cause causeNo := by
  obtain ⟨k, r, heq, hregs, -⟩ := h.killOne_eq id cause spare
  obtain ⟨hdrop, hcause⟩ := h.dropCmds_dropped id spare
  rw [heq, Hw.trace_qs, hregs.outside.qs, Hw.qs_setQs_same]
  exact ⟨⟨hdrop.cmds, hdrop.rejected, hdrop.deferred, hdrop.st⟩, by rw [hcause]⟩

theorem Hw.killOne_qs_other (h : Hw) {id id' : QId} (cause : Option KillCause) (spare : Option Word) (hne : id' ≠ id) :
    (h.killOne id cause spare).qs id' = h.qs id' := by
  obtain ⟨k, r, heq, hregs, -⟩ := h.killOne_eq id cause spare
  rw [heq, Hw.trace_qs, hregs.outside.qs, Hw.qs_setQs_other _ _ hne, h.dropCmds_qs_other spare hne]

/-! ### A kill of one queue of a core -/

theorem Hw.traceEnter_mem (h : Hw) (bs : List Byte) : (h.traceEnter bs).mem = h.mem := by
  unfold Hw.traceEnter
  dsimp only
  split
  · simp only [Hw.count_mem]
    split
    · exact (h.raise_lines _ _).mem
    · rfl
  · split <;> rfl

theorem Hw.trace_mem (h : Hw) (r : TraceRec) : (h.trace r).mem = h.mem := by
  unfold Hw.trace
  dsimp only
  split
  · exact Hw.traceEnter_mem _ _
  · rfl

/-- On a core nothing is left open, and commands that carry no unit's work have begun no move. -/
theorem Hw.dropOpen_core_mem (h : Hw) {id : QId} {n : Fin 48} (hid : id.eng = .core n) (spare : Option Word)
    (hwork : ∀ c ∈ (h.qs id).cmds, c.work = .none) : (h.dropOpen id spare).mem = h.mem := by
  have hopens : ∀ (k : Hw) (c : Cmd), k.killOpens id c = k := fun k c => by rw [Hw.killOpens, hid]
  have hmoves : ∀ k : Hw, (h.killable id).foldl (fun h c => h.endMoving id c) k = k := by
    have hall : ∀ c ∈ h.killable id, c.work = .none := fun c hc => hwork c (List.mem_filter.mp hc).1
    generalize h.killable id = l at hall
    induction l with
    | nil => exact fun _ => rfl
    | cons c l ih =>
      intro k
      rw [List.foldl_cons, Hw.endMoving, hall c (List.mem_cons_self ..)]
      exact ih (fun c hc => hall c (List.mem_cons_of_mem _ hc)) k
  rw [Hw.dropOpen, hmoves, foldl_mem _ (fun k c => by rw [hopens])]
  exact (h.unsignal_regsOnly id).lines.mem

theorem Hw.dropCmds_mem (h : Hw) {id : QId} {n : Fin 48} (hid : id.eng = .core n) (spare : Option Word)
    (hwork : ∀ c ∈ (h.qs id).cmds, c.work = .none) : (h.dropCmds id spare).mem = h.mem := by
  rw [Hw.dropCmds_eq]
  split
  · rw [Hw.enterSt_mem]
    exact h.dropOpen_core_mem hid spare hwork
  · exact h.dropOpen_core_mem hid spare hwork

/-- The landing data of the sets that a kill meets goes. -/
theorem Hw.dropCmds_landed (h : Hw) (id : QId) (spare : Option Word) :
    (∀ l ∈ (h.dropCmds id spare).landed, (l.group, l.step) ∉ h.setsOf id)
      ∧ ∀ l ∈ (h.dropCmds id spare).landing, (l.group, l.step) ∉ h.setsOf id := by
  rw [Hw.dropCmds_eq]
  split
  · rw [(Hw.enterSt_landed _ _ _).1, (Hw.enterSt_landed _ _ _).2]
    exact ⟨fun l hl => by simpa using (List.mem_filter.mp hl).2, fun l hl => by simpa using (List.mem_filter.mp hl).2⟩
  · exact ⟨fun l hl => by simpa using (List.mem_filter.mp hl).2, fun l hl => by simpa using (List.mem_filter.mp hl).2⟩

/-- ISSUE stands behind the commands whose Hitch has begun. -/
theorem Hw.dropCmds_issue (h : Hw) {id : QId} (spare : Option Word) (hq : hasQueue id.eng id.q = true) :
    (h.dropCmds id spare).qIssue id
      = ((h.dropCmds id spare).qCommit id + ((h.qs id).cmds.filter (·.going)).length) % 0x100000000 := by
  have hbare : (h.dropBare id spare).qIssue id
      = ((h.dropBare id spare).qCommit id + ((h.qs id).cmds.filter (·.going)).length) % 0x100000000 := by
    rw [Hw.qIssue, Hw.qCommit, Hw.dropBare]
    rw [Hw.qrd_qwr_same, Hw.qrd_qwr_other _ _ hq (by decide) (by decide) (by decide)]
    rfl
  rw [Hw.dropCmds_eq]
  split
  · have hent := (h.dropBare id spare).enterSt_q id .paused
    rw [Hw.qIssue, Hw.qCommit, hent.qrd 0x10 hq (by decide), hent.qrd 0x14 hq (by decide)]
    exact hbare
  · exact hbare

theorem killDropsIssuedCommands : KillDropsIssuedCommands := by
  intro h n q cause id k kept
  have hq : hasQueue id.eng id.q = true := by simp [hasQueue, engQueues, id]
  obtain ⟨hdrop, hcause⟩ := h.killOne_dropped id (some cause) none
  obtain ⟨g, r, heq, hregs, hkeeps⟩ := h.killOne_eq id (some cause) none
  have htrace : Hw.OutsideOnly g (h.killOne id (some cause)) := by rw [heq]; exact g.trace_outside r
  have hqregs : Hw.QRegs (h.dropCmds id none) (h.killOne id (some cause)) := by
    rw [heq]; exact (g.trace_q r).after (hkeeps n rfl)
  obtain ⟨hlanded, hlanding⟩ := h.dropCmds_landed id none
  refine ⟨hdrop.cmds, hdrop.rejected, hdrop.deferred, hcause, hdrop.st, ?issue, fun hwork => ?mem,
    fun id' hne => h.killOne_qs_other _ _ hne, ?_, ?_⟩
  case issue =>
    show (h.killOne id (some cause)).qrd id 0x10 = ((h.killOne id (some cause)).qrd id 0x14 + _) % _
    rw [hqregs.qrd 0x10 hq (by decide), hqregs.qrd 0x14 hq (by decide)]
    exact h.dropCmds_issue none hq
  case mem =>
    show (h.killOne id (some cause)).mem = h.mem
    rw [heq, Hw.trace_mem, hregs.lines.mem, Hw.setQs_mem, h.dropCmds_mem rfl none hwork]
  · rw [htrace.landed, hregs.lines.landed]
    exact hlanded
  · rw [htrace.landing, hregs.lines.landing]
    exact hlanding

/-! ### Kills of queues together -/

theorem Hw.takeBack_qs (h : Hw) (f : Tagged → Bool) (id : QId) : (h.takeBack f).qs id = h.qs id := by
  obtain ⟨regs, heq⟩ := h.takeBack_eq f
  rw [heq]
  rfl

/-- What kills of the queues of a list leave of a queue outside it. -/
theorem killFold_qs_other {cause : Option KillCause} {spare : Option Word} {id : QId} {l : List QId} (hid : id ∉ l) (h : Hw) :
    (l.foldl (fun g id => g.killOne id cause spare) h).qs id = h.qs id :=
  List.foldlRecOn l _ (motive := fun (g : Hw) => g.qs id = h.qs id) rfl fun g hg x hx => by
    have hne : id ≠ x := fun heq => hid (heq ▸ hx)
    rw [g.killOne_qs_other cause spare hne, hg]

/-- What kills of the queues of a list leave of a queue in it. -/
theorem killFold_dropped {cause : Option KillCause} {spare : Option Word} {id : QId} {l : List QId} (hid : id ∈ l) :
    ∀ h : Hw, (h.qs id).Dropped ((l.foldl (fun g id => g.killOne id cause spare) h).qs id)
      ∧ ((l.foldl (fun g id => g.killOne id cause spare) h).qs id).cause = cause.elim (h.qs id).cause causeNo := by
  induction l with
  | nil => cases hid
  | cons x l ih =>
    intro h
    rw [List.foldl_cons]
    by_cases hl : id ∈ l
    · obtain ⟨hdrop, hcause⟩ := ih hl (h.killOne x cause spare)
      by_cases hx : id = x
      · obtain ⟨hdrop', hcause'⟩ := h.killOne_dropped id cause spare
        subst hx
        refine ⟨hdrop'.trans hdrop, ?_⟩
        rw [hcause, hcause']
        cases cause <;> rfl
      · rw [h.killOne_qs_other cause spare hx] at hdrop hcause
        exact ⟨hdrop, hcause⟩
    · have hx : id = x := (List.mem_cons.mp hid).resolve_right hl
      rw [killFold_qs_other hl, ← hx]
      exact h.killOne_dropped id cause spare

section
variable (h : Hw) (ids : List QId) (ks : List (Nat × Nat)) (cause : Option KillCause) (spare : Option Word) (gone : Tagged → Bool)

/-- The queues that a kill takes with it, beside those it names. -/
def Hw.killOthers : List QId := (h.killClosure ks h.queues.length ids).filter fun id => !ids.contains id

/-- Decrements and increments are back before any queue is killed. -/
def Hw.killReturns : Hw :=
  ((ids ++ h.killOthers ids ks).foldl Hw.giveBack h).takeBack fun t => gone t || h.sentBy (ids ++ h.killOthers ids ks) t

theorem Hw.killAll_eq : h.killAll ids ks cause spare gone =
    (h.killOthers ids ks).foldl (fun g id => g.killOne id (some .group))
      (ids.foldl (fun g id => g.killOne id cause spare) (h.killReturns ids ks gone)) := rfl

theorem Hw.killReturns_qs (id : QId) : (h.killReturns ids ks gone).qs id = h.qs id := by
  rw [Hw.killReturns, Hw.takeBack_qs]
  exact foldl_qs _ id (fun h x => (h.giveBack_lines x).outside.qs id) _ h

variable {h ids ks cause spare gone}

theorem mem_killOthers {id : QId} : id ∈ h.killOthers ids ks ↔ id ∈ h.killClosure ks h.queues.length ids ∧ id ∉ ids := by
  simp [Hw.killOthers]

/-- What a kill leaves of a queue that it names. -/
theorem Hw.killAll_dropped {id : QId} (hid : id ∈ ids) :
    (h.qs id).Dropped ((h.killAll ids ks cause spare gone).qs id)
      ∧ ((h.killAll ids ks cause spare gone).qs id).cause = cause.elim (h.qs id).cause causeNo := by
  rw [Hw.killAll_eq, killFold_qs_other fun hmem => (mem_killOthers.mp hmem).2 hid, ← h.killReturns_qs ids ks gone id]
  exact killFold_dropped hid _

/-- What a kill leaves of a queue that it takes with it. -/
theorem Hw.killAll_group {id : QId} (hclosure : id ∈ h.killClosure ks h.queues.length ids) (hid : id ∉ ids) :
    (h.qs id).Dropped ((h.killAll ids ks cause spare gone).qs id)
      ∧ ((h.killAll ids ks cause spare gone).qs id).cause = causeNo .group := by
  have hmem := killFold_dropped (cause := some .group) (spare := none) (mem_killOthers.mpr ⟨hclosure, hid⟩)
    (ids.foldl (fun g id => g.killOne id cause spare) (h.killReturns ids ks gone))
  rw [killFold_qs_other hid, h.killReturns_qs ids ks gone id] at hmem
  rw [Hw.killAll_eq]
  exact hmem

/-- Every other queue stands. -/
theorem Hw.killAll_qs_other {id : QId} (hclosure : id ∉ h.killClosure ks h.queues.length ids) (hid : id ∉ ids) :
    (h.killAll ids ks cause spare gone).qs id = h.qs id := by
  rw [Hw.killAll_eq, killFold_qs_other fun hmem => hclosure (mem_killOthers.mp hmem).1, killFold_qs_other hid, Hw.killReturns_qs]

end

/-! ### KILL -/

theorem Hw.kill_dropped (h : Hw) (id : QId) (cause : KillCause) :
    (h.qs id).Dropped ((h.kill id cause).qs id) ∧ ((h.kill id cause).qs id).cause = causeNo cause :=
  Hw.killAll_dropped (cause := some cause) (List.mem_singleton_self id)

theorem Hw.killWaits_iff (h : Hw) (id : QId) (cause : KillCause) :
    h.killWaits id cause = true ↔ ∃ c ∈ (h.qs id).cmds, holdsKill cause c = true := by simp [Hw.killWaits]

theorem Hw.killOrDefer_now {h : Hw} {id : QId} {cause : KillCause} (hnow : ∀ c ∈ (h.qs id).cmds, holdsKill cause c = false) :
    h.killOrDefer id cause = if cause = .preempt then (h.kill id cause).enterSt id .paused else h.kill id cause := by
  have hfalse : h.killWaits id cause = false := by simpa [Hw.killWaits] using hnow
  rw [Hw.killOrDefer, hfalse]
  rfl

/-- A kill that nothing holds up: what the named queue holds of commands, rejection and cause, and its state. -/
theorem Hw.killOrDefer_qs_same {h : Hw} {id : QId} {cause : KillCause} (hnow : ∀ c ∈ (h.qs id).cmds, holdsKill cause c = false) :
    let q := (h.killOrDefer id cause).qs id
    q.cmds = (h.qs id).cmds.filter (·.going) ∧ q.rejected = none ∧ q.cause = causeNo cause
      ∧ q.st = if cause = .preempt ∨ (h.qs id).deferred.contains .preempt then .paused else (h.qs id).st := by
  obtain ⟨hdrop, hcause⟩ := h.kill_dropped id cause
  rw [Hw.killOrDefer_now hnow]
  split
  · rename_i hpre
    rw [Hw.enterSt_qs_same]
    exact ⟨hdrop.cmds, hdrop.rejected, hcause, (if_pos (Or.inl hpre)).symm⟩
  · rename_i hpre
    refine ⟨hdrop.cmds, hdrop.rejected, hcause, ?_⟩
    rw [hdrop.st]
    exact if_congr (by simp [hpre]) rfl rfl

theorem Hw.killOrDefer_group {h : Hw} {id id' : QId} {cause : KillCause} (hnow : ∀ c ∈ (h.qs id).cmds, holdsKill cause c = false)
    (hmem : id' ∈ h.killClosure [] h.queues.length [id]) (hne : id' ≠ id) :
    ((h.killOrDefer id cause).qs id').cmds = (h.qs id').cmds.filter (·.going) ∧ ((h.killOrDefer id cause).qs id').cause = causeNo .group := by
  have hkill : (h.qs id').Dropped ((h.kill id cause).qs id') ∧ ((h.kill id cause).qs id').cause = causeNo .group :=
    Hw.killAll_group hmem (by simpa using hne)
  rw [Hw.killOrDefer_now hnow]
  split
  · rw [Hw.enterSt_qs_other _ _ hne]
    exact ⟨hkill.1.cmds, hkill.2⟩
  · exact ⟨hkill.1.cmds, hkill.2⟩

/-- The held master of a queue that a fault has killed. -/
def Hw.hold (h : Hw) (m : Master) : Hw :=
  if h.isHeld m then h else { h with mmu := { h.mmu with held := h.mmu.held ++ [Held.mk m.slice m.kind m.id []] } }

theorem Hw.hold_qs (h : Hw) (m : Master) (id : QId) : (h.hold m).qs id = h.qs id := by
  unfold Hw.hold
  split <;> rfl

theorem Hw.hold_isHeld (h : Hw) (m : Master) : (h.hold m).isHeld m = true := by
  unfold Hw.hold
  split
  · assumption
  · simp [Hw.isHeld]

theorem killRow_eq (id : QId) (cause : KillCause) (h : Hw) : killRow id cause h =
    if cause = .fault then ((h.killOrDefer id cause).enterSt id .faultHold).hold (queueMaster id) else h.killOrDefer id cause := rfl

theorem kills : Kills := by
  intro s e q cause hup hq id
  have hexec (hcause : cause ∈ killCauses e) : exec (.kill e q cause) s = .next { s with hw := killRow id cause s.hw } := by
    show execKill e q cause s = _
    rw [execKill, if_pos (by simpa using hcause), onQueue_up hup hq]
  refine ⟨fun hcause => ?illFormed, fun hcause hnow => ⟨_, hexec hcause, ?kill⟩, fun hcause hfault hwaits => ?defer⟩
  case illFormed => exact if_neg (by simpa using hcause)
  case defer =>
    rw [hexec hcause, killRow_eq, if_neg hfault, Hw.killOrDefer, if_pos ((s.hw.killWaits_iff id cause).mpr hwaits)]
  case kill =>
    obtain ⟨hcmds, hrej, hno, hst⟩ := Hw.killOrDefer_qs_same hnow
    rw [killRow_eq]
    split
    case isTrue hfault =>
      subst hfault
      rw [Hw.hold_qs, Hw.enterSt_qs_same]
      refine ⟨hcmds, hrej, hno, by simp, fun _ => ⟨rfl, Hw.hold_isHeld _ _⟩, by simp, fun id' hmem hne => ?_⟩
      rw [Hw.hold_qs, Hw.enterSt_qs_other _ _ hne]
      exact Hw.killOrDefer_group hnow hmem hne
    case isFalse hfault =>
      refine ⟨hcmds, hrej, hno, fun hpre => ?_, fun h => absurd h hfault, fun hpre _ hdef => ?_,
        fun id' hmem hne => Hw.killOrDefer_group hnow hmem hne⟩
      · rw [hst, if_pos (Or.inl hpre)]
      · rw [hst, hdef, if_neg (by simp [hpre])]

/-- Settles O24: a kill of one queue drops its commands, and a kill of queues together is such a kill of each. -/
theorem killsDropWork : Obligations.KillsDropWork := ⟨kills, killDropsIssuedCommands⟩

end Sys2Proof.Machine
end

section
/-! PROOF of O21 and O18: rejection, automatic pre-emption, overflow of a group, and speculation (R60, R63 to R65, R267, R268). -/

namespace Sys2Proof.Machine

open Sys2Proof.Claims

/-! ### Completion records leave a queue's commands -/

theorem Hw.writeRecord_outside (h : Hw) (id : QId) (o : Owed) : Hw.OutsideOnly h (h.writeRecord id o) := by
  have htold : Hw.OutsideOnly h (if o.hitch then h.trace (hitchTrace id o.bytes) else h) := Hw.outside_ite _ (h.trace_outside _)
  unfold Hw.writeRecord
  dsimp only
  generalize (if o.hitch then h.trace (hitchTrace id o.bytes) else h) = g at htold
  split
  · have hrecord : Hw.OutsideOnly g ((g.write (queueMaster id) (g.cqVa id) o.bytes).qwr id 0x3C
        ((g.write (queueMaster id) (g.cqVa id) o.bytes).qrd id 0x3C + 1)) :=
      (Hw.wr_regsOnly _ _ _ _ _).outside.after (g.write_outside _ _ _)
    split
    · exact (Hw.raise_lines _ _ _).outside.after (hrecord.after htold)
    · exact hrecord.after htold
  · exact htold

/-- One step of writing the records that a queue owes. -/
theorem Hw.flushOwed_succ (id : QId) (n : Nat) (h : Hw) : Hw.flushOwed id (n + 1) h =
    match (h.qs id).owed with
    | [] => h
    | o :: rest => if o.ack || (o.record && !h.cqReady id) then h
      else Hw.flushOwed id n ((h.writeRecord id o).setQs id { h.qs id with owed := rest }) := rfl

/-- Writing records leaves everything of the queue but what it owes. -/
theorem Hw.flushOwed_qs_same (id : QId) : ∀ (n : Nat) (h : Hw), ∃ owed, (Hw.flushOwed id n h).qs id = { h.qs id with owed := owed }
  | 0, h => ⟨(h.qs id).owed, rfl⟩
  | n + 1, h => by
    rw [Hw.flushOwed_succ]
    split
    · exact ⟨_, rfl⟩
    · split
      · exact ⟨_, rfl⟩
      · rename_i o rest _ _
        obtain ⟨owed, hrest⟩ := Hw.flushOwed_qs_same id n ((h.writeRecord id o).setQs id { h.qs id with owed := rest })
        rw [Hw.qs_setQs_same] at hrest
        exact ⟨owed, hrest⟩

theorem Hw.flushOwed_qs_other {id id' : QId} (hne : id' ≠ id) : ∀ (n : Nat) (h : Hw), (Hw.flushOwed id n h).qs id' = h.qs id'
  | 0, _ => rfl
  | n + 1, h => by
    rw [Hw.flushOwed_succ]
    split
    · rfl
    · split
      · rfl
      · rw [Hw.flushOwed_qs_other hne n, Hw.qs_setQs_other _ _ hne, (h.writeRecord_outside id _).qs]

theorem Hw.owe_qs_same (h : Hw) (id : QId) (o : Owed) : ∃ owed, (h.owe id o).qs id = { h.qs id with owed := owed } := by
  obtain ⟨owed, hrest⟩ := Hw.flushOwed_qs_same id ((h.qs id).owed.length + 1) (h.setQs id { h.qs id with owed := (h.qs id).owed ++ [o] })
  rw [Hw.qs_setQs_same] at hrest
  exact ⟨owed, hrest⟩

theorem Hw.owe_qs_other (h : Hw) {id id' : QId} (o : Owed) (hne : id' ≠ id) : (h.owe id o).qs id' = h.qs id' :=
  (Hw.flushOwed_qs_other hne _ _).trans (h.qs_setQs_other _ hne)

/-! ### Rejection -/

/-- Whatever a rejection drops, the queue's commands go but those whose Hitch has begun. -/
theorem Hw.rejectDrop_dropped (h : Hw) (id : QId) (r : Rejected) : (h.qs id).Dropped ((h.rejectDrop id r).qs id) := by
  unfold Hw.rejectDrop
  split
  · exact (Hw.killAll_dropped (List.mem_singleton_self id)).1
  · split
    · have hdrop := (((h.giveBack id).takeBack (h.sentBy [id])).dropCmds_dropped id (some r.ptr)).1
      rw [Hw.takeBack_qs, (h.giveBack_lines id).outside.qs] at hdrop
      exact hdrop
    · exact (Hw.killAll_dropped (List.mem_singleton_self id)).1

/-- A rejection that is acted on halts the queue. -/
theorem Hw.rejectHalt_halts {h : Hw} {id : QId} {r : Rejected} (hr : (h.qs id).rejected = some r) :
    ((h.rejectHalt id).qs id).st = .halted ∧ ((h.rejectHalt id).qs id).rejected = none
      ∧ ((h.rejectHalt id).qs id).cmds = (h.qs id).cmds.filter (·.going) := by
  have hdrop := h.rejectDrop_dropped id r
  obtain ⟨owed, howe⟩ := (((h.rejectDrop id r).enterSt id .halted).err (engPage id.eng) id.q r.code).owe_qs_same id
    { bytes := recordBytes id r.desc r.code false ((h.qs id).killed.contains r.ptr) false r.ptr.toNat, record := true,
      irq := dIrq r.desc, ack := false, hitch := false }
  rw [Hw.err_qs, Hw.enterSt_qs_same] at howe
  have heq : (h.rejectHalt id).qs id = { ((h.rejectDrop id r).qs id).enter .halted with owed := owed } := by
    rw [Hw.rejectHalt, hr]
    exact howe
  rw [heq]
  exact ⟨rfl, hdrop.rejected, hdrop.cmds⟩

theorem Hw.rejected_of_due {h : Hw} {id : QId} (hdue : h.rejectDue id = true) : ∃ r, (h.qs id).rejected = some r := by
  unfold Hw.rejectDue at hdue
  split at hdue
  · cases hdue
  · exact ⟨_, by assumption⟩

theorem rejectedCommandHalts : RejectedCommandHalts := by
  intro s e q hup hq id
  have hexec : exec (.rejectedCommandHalt e q) s = .next { s with hw := rejectedCommandHalt id s.hw } := by
    show execRejectedCommandHalt e q s = _
    rw [execRejectedCommandHalt, onQueue_up hup hq]
  refine ⟨fun hdue => ⟨_, hexec, ?_⟩, fun hdue => ?_⟩
  · obtain ⟨r, hr⟩ := Hw.rejected_of_due hdue
    rw [rejectedCommandHalt, if_pos hdue]
    exact Hw.rejectHalt_halts hr
  · rw [hexec, rejectedCommandHalt, hdue]
    rfl

/-! ### Automatic pre-emption and overflow -/

theorem autoPreempt_granted {h : Hw} {n : Fin 48} {x : Head} {ids : List QId} (hon : h.bit (corePage n.val) 0x040 0 = true)
    (hgrant : h.arbitrate (.core n) ((h.heads (.core n)).filter fun x => (h.givesWay n.val x).isSome) = some x)
    (hids : h.givesWay n.val x = some ids) :
    autoPreempt n h =
      let k := ids.foldl (fun h id => h.kill id .preempt) h
      if k.qIssue x.id = h.qIssue x.id then k.issueHead x else k := by
  simp [autoPreempt, hon, hgrant, hids]

theorem Hw.reject_first {h : Hw} {id : QId} (ptr : Word) (code : Nat) (d : BitVec 512) (hnone : (h.qs id).rejected = none) :
    h.reject id ptr code d = h.setQs id { h.qs id with rejected := some ⟨ptr, code, d⟩ } := by rw [Hw.reject, hnone]

theorem preemptionAndOverflow : PreemptionAndOverflow := by
  refine ⟨?preempt, ?overflow⟩
  case preempt =>
    intro s n x ids hup hon hgrant hids k
    have hexec : exec (.autoPreempt n) s = .next { s with hw := autoPreempt n s.hw } := by
      show execAutoPreempt n s = _
      rw [execAutoPreempt, State.onHw_up _ _ hup]
    rw [hexec, autoPreempt_granted hon hgrant hids]
    exact ⟨fun hissue => by rw [if_pos hissue], fun hissue => by rw [if_neg hissue]⟩
  case overflow =>
    intro s n q c rest hup id w hcmds hst hrej hw hfull hrun
    have hexec : exec (.groupOverflow n q) s = .next { s with hw := (s.hw.reject id c.ptr cGROUP_OVERFLOW c.desc).rejectHalt id } := by
      show execGroupOverflow n q s = _
      rw [execGroupOverflow, State.onHw_up _ _ hup, groupOverflow]
      have hskip : ¬ ((s.hw.qs id).st ≠ .running ∨ (s.hw.qs id).rejected.isSome ∨ w = 0 ∨ s.hw.uncommitted id < w
          ∨ (hitchRun (c :: rest)).isSome) := by
        simp [hst, hrej, hrun, hw, hfull]
      rw [← hcmds] at hskip
      split
      · rename_i hnil
        cases hcmds.symm.trans hnil
      · rename_i hcons
        cases hcmds.symm.trans hcons
        rw [if_neg hskip]
    refine ⟨_, hexec, rfl, ?_⟩
    have hq := s.hw.qs_setQs_same id { s.hw.qs id with rejected := some ⟨c.ptr, cGROUP_OVERFLOW, c.desc⟩ }
    obtain ⟨hhalt, -, hleft⟩ := Hw.rejectHalt_halts (congrArg QState.rejected hq)
    rw [Hw.reject_first _ _ _ hrej]
    exact ⟨hhalt, by rw [hleft, hq, hcmds]⟩

/-- Settles O21: what a rejection drops, and that an overflow is one. -/
theorem halts : Obligations.Halts := ⟨rejectedCommandHalts, preemptionAndOverflow⟩

/-! ### Speculation -/

/-- Keeping a confirmation changes only what the queue has noted of it. -/
theorem Hw.keepConfirm_qs (g n : Nat) (h : Hw) (i id : QId) :
    ∃ conf, (Hw.keepConfirm g n h i).qs id = { h.qs id with confirmed := conf } := by
  unfold Hw.keepConfirm
  have hset (conf : List (Word × Nat × Nat)) :
      ∃ conf', (h.setQs i { h.qs i with confirmed := conf }).qs id = { h.qs id with confirmed := conf' } := by
    by_cases heq : id = i
    · exact ⟨conf, by rw [heq, Hw.qs_setQs_same]⟩
    · exact ⟨(h.qs id).confirmed, by rw [Hw.qs_setQs_other _ _ heq]⟩
  split
  · exact hset _
  · exact hset _
  · exact ⟨_, rfl⟩

/-- From `h` to `k` only queues differ. -/
def Hw.QueuesOnly (h k : Hw) : Prop := k = { h with queues := k.queues }

theorem Hw.keepConfirm_queuesOnly (g n : Nat) (h : Hw) (i : QId) : Hw.QueuesOnly h (Hw.keepConfirm g n h i) := by
  unfold Hw.keepConfirm
  split <;> rfl

theorem Hw.keepConfirms_queuesOnly (g n : Nat) (l : List QId) (h : Hw) : Hw.QueuesOnly h (l.foldl (Hw.keepConfirm g n) h) :=
  List.foldlRecOn l _ (motive := fun k => Hw.QueuesOnly h k) rfl fun k hk i _ => by
    have hi := Hw.keepConfirm_queuesOnly g n k i
    unfold Hw.QueuesOnly at hk hi ⊢
    rw [hi, hk]

theorem Hw.keepConfirms_qs (g n : Nat) (l : List QId) (h : Hw) (id : QId) :
    ∃ conf, (l.foldl (Hw.keepConfirm g n) h).qs id = { h.qs id with confirmed := conf } :=
  List.foldlRecOn l _ (motive := fun k : Hw => ∃ conf, k.qs id = { h.qs id with confirmed := conf }) ⟨_, rfl⟩ fun k hk i _ => by
    obtain ⟨conf, hk⟩ := hk
    obtain ⟨conf', hi⟩ := Hw.keepConfirm_qs g n k i id
    exact ⟨conf', by rw [hi, hk]⟩

theorem Hw.confirmed_eq (h : Hw) (g n : Nat) : h.confirmed g n = (h.group g).confirmed.toNat.testBit n := by
  unfold Hw.confirmed Hw.group
  cases alGet g h.groups with
  | none => exact (Nat.zero_testBit n).symm
  | some e => rfl

theorem testBit_setStep (x : BitVec 4) (n m : Fin 4) :
    (x ||| (1#4 <<< n.val)).toNat.testBit m.val = (x.toNat.testBit m.val || decide (m = n)) := by
  revert x n m
  decide

/-- What confirming a step leaves. -/
theorem Hw.confirm_eq {h : Hw} {g : Nat} (hg : g ≠ 0) (n : Fin 4) : ∃ k, Hw.QueuesOnly h k
    ∧ (∀ id, ∃ conf, k.qs id = { h.qs id with confirmed := conf })
    ∧ h.confirm g n.val = { k.setGroup g { h.group g with confirmed := (h.group g).confirmed ||| (1#4 <<< n.val) } with
        tagged := h.tagged.filter fun t => !(t.group = g && t.step = n.val)
        gathers := h.gathers.map fun x => if x.tag = some (g, n.val) then { x with tag := none } else x } := by
  have hk := Hw.keepConfirms_queuesOnly g n.val (h.queues.map (·.1)) h
  refine ⟨_, hk, Hw.keepConfirms_qs g n.val (h.queues.map (·.1)) h, ?_⟩
  rw [Hw.confirm, if_neg hg, Nat.mod_eq_of_lt n.isLt]
  dsimp only
  rw [hk]
  rfl

theorem alGet_of_not_mem {κ α : Type} [DecidableEq κ] {k : κ} {l : List (κ × α)} (hk : k ∉ l.map (·.1)) : alGet k l = none := by
  induction l with
  | nil => rfl
  | cons x l ih =>
    rw [List.map_cons, List.mem_cons, not_or] at hk
    rw [alGet, if_neg hk.1, ih hk.2]

/-- A queue that holds a command is one of which the module holds a state. -/
theorem Hw.mem_queues_of_cmds {h : Hw} {id : QId} (hcmds : (h.qs id).cmds ≠ []) : id ∈ h.queues.map (·.1) := by
  by_contra hmem
  rw [Hw.qs, alGet_of_not_mem hmem] at hcmds
  exact hcmds rfl

theorem Hw.mem_queues_of_carries {h : Hw} {id : QId} {g : Nat} {steps : List Nat} (hc : h.carries id g steps = true) :
    id ∈ h.queues.map (·.1) := by
  refine Hw.mem_queues_of_cmds fun hnil => ?_
  simp [Hw.carries, hnil] at hc

theorem Hw.deferKill_qs (h : Hw) (i id : QId) (cause : KillCause) : ∃ d, (h.deferKill i cause).qs id = { h.qs id with deferred := d } := by
  unfold Hw.deferKill
  dsimp only
  split
  · exact ⟨_, rfl⟩
  · by_cases heq : id = i
    · exact ⟨_, by rw [heq, Hw.qs_setQs_same]⟩
    · exact ⟨_, by rw [Hw.qs_setQs_other _ _ heq]⟩

theorem Hw.deferKill_queuesOnly (h : Hw) (i : QId) (cause : KillCause) : Hw.QueuesOnly h (h.deferKill i cause) := by
  unfold Hw.deferKill
  dsimp only
  split <;> rfl

/-! #### What a kill takes back -/

theorem Hw.OutsideOnly.tagged {a b : Hw} (h : Hw.OutsideOnly a b) : b.tagged = a.tagged := by rw [h]

theorem Hw.enterSt_tagged (h : Hw) (id : QId) (st : QSt) : (h.enterSt id st).tagged = h.tagged := by
  obtain ⟨m, q, hlines, -⟩ := h.enterSt_other id st
  exact hlines.tagged

theorem Hw.killOne_tagged (h : Hw) (id : QId) (cause : Option KillCause) (spare : Option Word) :
    (h.killOne id cause spare).tagged = h.tagged := by
  obtain ⟨k, r, heq, hregs, -⟩ := h.killOne_eq id cause spare
  have hbare : (h.dropBare id spare).tagged = h.tagged := (h.dropOpen_outside id spare).tagged
  rw [heq, (k.trace_outside r).tagged, hregs.lines.tagged, Hw.setQs_tagged, Hw.dropCmds_eq]
  split
  · rw [Hw.enterSt_tagged, hbare]
  · exact hbare

theorem foldl_tagged {α : Type} (f : Hw → α → Hw) (hf : ∀ h a, (f h a).tagged = h.tagged) (l : List α) :
    ∀ h, (l.foldl f h).tagged = h.tagged := by
  induction l with
  | nil => intro h; rfl
  | cons a l ih => intro h; rw [List.foldl_cons, ih, hf]

/-- An increment that a kill is to take back is tagged no more. -/
theorem Hw.killAll_tagged (h : Hw) (ids : List QId) (ks : List (Nat × Nat)) (cause : Option KillCause) (spare : Option Word)
    (gone : Tagged → Bool) : ∀ t ∈ (h.killAll ids ks cause spare gone).tagged, gone t = false := by
  obtain ⟨regs, heq⟩ := ((ids ++ h.killOthers ids ks).foldl Hw.giveBack h).takeBack_eq
    fun t => gone t || h.sentBy (ids ++ h.killOthers ids ks) t
  rw [Hw.killAll_eq, foldl_tagged _ (fun g id => g.killOne_tagged id _ _), foldl_tagged _ (fun g id => g.killOne_tagged id _ _),
    Hw.killReturns, heq]
  intro t ht
  have := (List.mem_filter.mp ht).2
  simp only [Bool.not_eq_true', Bool.or_eq_false_iff] at this
  exact this.1

/-- A kill of nothing kills nothing: only what it takes back changes. -/
theorem Hw.killAll_nil (h : Hw) (cause : Option KillCause) (spare : Option Word) (gone : Tagged → Bool) :
    (∀ id, (h.killAll [] [] cause spare gone).qs id = h.qs id) ∧ (h.killAll [] [] cause spare gone).mem = h.mem := by
  have hclosure : ∀ n, h.killClosure [] n [] = [] := by
    intro n
    induction n with
    | zero => rfl
    | succ n ih =>
      have hmore : ∀ l : List QId, l.filter (fun id => (h.setsOf id).any ([] : List (Nat × Nat)).contains) = [] := fun l =>
        List.filter_eq_nil_iff.mpr fun id _ => by simp [List.any_eq_true]
      simpa [Hw.killClosure, hmore] using ih
  have hothers : h.killOthers [] [] = [] := by rw [Hw.killOthers, hclosure]; rfl
  obtain ⟨regs, heq⟩ := h.takeBack_eq fun t => gone t || h.sentBy [] t
  have hall : h.killAll [] [] cause spare gone = h.takeBack fun t => gone t || h.sentBy [] t := by
    rw [Hw.killAll_eq, Hw.killReturns, hothers]
    rfl
  rw [hall, heq]
  exact ⟨fun _ => rfl, rfl⟩

/-! #### Rejection of a step -/

/-- The queues that a reject meets, the kills that wait, and the kills that do not. -/
def Hw.rejectHits (h : Hw) (g n : Nat) : List QId := (h.queues.map (·.1)).filter fun id => h.carries id g (h.rejected g n)
def Hw.rejectDefers (h : Hw) (g n : Nat) : Hw :=
  ((h.rejectHits g n).filter fun id => h.killWaits id .specReject).foldl (fun g id => g.deferKill id .specReject) h

theorem Hw.rejectStep_eq {h : Hw} {g : Nat} (hg : g ≠ 0) (n : Nat) : h.rejectStep g n =
    let k := (h.rejectDefers g n).killAll ((h.rejectHits g n).filter fun id => !(h.rejectDefers g n).killWaits id .specReject) []
      (some .specReject) none fun t => t.group == g && (h.rejected g n).contains t.step
    { k with gathers := k.gathers.filter fun x =>
        match x.tag with | some (g', t) => !(g' == g && (h.rejected g n).contains t) | none => true } := by
  rw [Hw.rejectStep, if_neg hg]
  rfl

theorem Hw.rejectDefers_qs (h : Hw) (g n : Nat) (id : QId) : ∃ d, (h.rejectDefers g n).qs id = { h.qs id with deferred := d } :=
  List.foldlRecOn _ _ (motive := fun k : Hw => ∃ d, k.qs id = { h.qs id with deferred := d }) ⟨_, rfl⟩ fun k hk i _ => by
    obtain ⟨d, hk⟩ := hk
    obtain ⟨d', hi⟩ := k.deferKill_qs i id .specReject
    exact ⟨d', by rw [hi, hk]⟩

theorem Hw.rejectDefers_queuesOnly (h : Hw) (g n : Nat) : Hw.QueuesOnly h (h.rejectDefers g n) :=
  List.foldlRecOn _ _ (motive := fun k : Hw => Hw.QueuesOnly h k) rfl fun k hk i _ => by
    have hi := k.deferKill_queuesOnly i .specReject
    unfold Hw.QueuesOnly at hk hi ⊢
    rw [hi, hk]

/-- A command whose commit step has not begun does not hold up a reject. -/
theorem holdsKill_specReject {c : Cmd} (hc : c.todo = none) : holdsKill .specReject c = false := by
  unfold holdsKill
  rw [hc]
  cases c.work <;> simp

theorem rejectStep_kills {h : Hw} {g : Nat} (hg : g ≠ 0) (n : Nat) {id : QId} (hcarries : h.carries id g (h.rejected g n) = true)
    (htodo : ∀ c ∈ (h.qs id).cmds, c.todo = none) :
    ((h.rejectStep g n).qs id).cmds = (h.qs id).cmds.filter (·.going) ∧ ((h.rejectStep g n).qs id).cause = causeNo .specReject := by
  obtain ⟨d, hqs⟩ := h.rejectDefers_qs g n id
  have hnow : (h.rejectDefers g n).killWaits id .specReject = false := by
    rw [Hw.killWaits, hqs]
    exact List.any_eq_false.mpr fun c hc => by rw [holdsKill_specReject (htodo c hc)]; exact Bool.false_ne_true
  have hmem : id ∈ (h.rejectHits g n).filter fun id => !(h.rejectDefers g n).killWaits id .specReject := by
    simp only [List.mem_filter, hnow, Bool.not_false, and_true, Hw.rejectHits]
    exact ⟨Hw.mem_queues_of_carries hcarries, hcarries⟩
  rw [Hw.rejectStep_eq hg]
  obtain ⟨hdrop, hcause⟩ := Hw.killAll_dropped (h := h.rejectDefers g n) (ks := []) (cause := some .specReject) (spare := none)
    (gone := fun t => t.group == g && (h.rejected g n).contains t.step) hmem
  have hcmds := hdrop.cmds
  rw [hqs] at hcmds
  exact ⟨hcmds, hcause⟩

theorem rejectStep_none {h : Hw} {g : Nat} (hg : g ≠ 0) (n : Nat) (hnone : ∀ id, h.carries id g (h.rejected g n) = false) :
    (∀ id, ((h.rejectStep g n).qs id).cmds = (h.qs id).cmds) ∧ (h.rejectStep g n).mem = h.mem := by
  have hhits : h.rejectHits g n = [] := List.filter_eq_nil_iff.mpr fun id _ => by rw [hnone id]; exact Bool.false_ne_true
  rw [Hw.rejectStep_eq hg, hhits, List.filter_nil]
  obtain ⟨hqs, hmem⟩ := (h.rejectDefers g n).killAll_nil (some .specReject) none fun t => t.group == g && (h.rejected g n).contains t.step
  refine ⟨fun id => ?_, ?_⟩
  · obtain ⟨d, hd⟩ := h.rejectDefers_qs g n id
    have hcmds := congrArg QState.cmds hd
    rw [← hqs id] at hcmds
    exact hcmds
  · refine hmem.trans ?_
    rw [h.rejectDefers_queuesOnly g n]

theorem rejectStep_gathers {h : Hw} {g : Nat} (hg : g ≠ 0) (n : Nat) :
    ∀ x ∈ (h.rejectStep g n).gathers, ∀ m ∈ h.rejected g n, x.tag ≠ some (g, m) := by
  rw [Hw.rejectStep_eq hg]
  intro x hx m hm htag
  have := (List.mem_filter.mp hx).2
  rw [htag] at this
  simp [hm] at this

theorem rejectStep_tagged {h : Hw} {g : Nat} (hg : g ≠ 0) (n : Nat) :
    ∀ t ∈ (h.rejectStep g n).tagged, ¬ (t.group = g ∧ t.step ∈ h.rejected g n) := by
  rw [Hw.rejectStep_eq hg]
  rintro t ht ⟨hgroup, hstep⟩
  have := Hw.killAll_tagged _ _ _ _ _ _ t ht
  simp [hgroup, hstep] at this

/-- Settles O18: a confirmation by what it leaves, a reject by the kill of the queues that carry the tag. -/
theorem speculation : Obligations.Speculation := by
  intro s g n hup
  have hconfirm : exec (.specConfirm g n) s = .next { s with hw := s.hw.confirm g.val n.val } := by
    show execSpecConfirm g n s = _
    rw [execSpecConfirm, State.onHw_up _ _ hup]
  have hreject : exec (.specReject g n) s = .next { s with hw := s.hw.rejectStep g.val n.val } := by
    show execSpecReject g n s = _
    rw [execSpecReject, State.onHw_up _ _ hup]
  refine ⟨fun hg => ⟨_, hconfirm, ?confirm⟩, fun hg => ⟨_, hreject, ?reject⟩, fun hg => ⟨?_, ?_⟩⟩
  case confirm =>
    obtain ⟨k, hk, hqs, heq⟩ := Hw.confirm_eq hg n
    have hgroup : (s.hw.confirm g.val n.val).group g.val =
        { s.hw.group g.val with confirmed := (s.hw.group g.val).confirmed ||| (1#4 <<< n.val) } := by
      rw [heq]
      exact k.group_setGroup_same _ _
    have hbit (m : Fin 4) : (s.hw.confirm g.val n.val).confirmed g.val m.val = (s.hw.confirmed g.val m.val || decide (m = n)) := by
      rw [Hw.confirmed_eq, hgroup, Hw.confirmed_eq, testBit_setStep]
    refine ⟨by rw [hbit]; simp, fun m hm => by rw [hbit]; simp [hm], fun g' hg' => ?_, by rw [hgroup], ?_, ?_, ?_, ?_, fun id => ?_⟩
    · rw [heq]
      refine (k.group_setGroup_other _ hg').trans ?_
      rw [hk]
      rfl
    · rw [heq]
    · rw [heq]
    · rw [heq]
      show k.mem = _
      rw [hk]
    · rw [heq]
      show k.regs = _
      rw [hk]
    · obtain ⟨conf, hid⟩ := hqs id
      rw [heq]
      have hcmds := congrArg QState.cmds hid
      have hst := congrArg QState.st hid
      exact ⟨hcmds, hst⟩
  case reject =>
    exact ⟨rejectStep_tagged hg _, rejectStep_gathers hg _, fun id hc htodo => rejectStep_kills hg _ hc htodo, rejectStep_none hg _⟩
  · rw [hconfirm, hg]
    rfl
  · rw [hreject, hg]
    rfl

end Sys2Proof.Machine
end

section
/-! PROOF of O20: writes of TAIL, COMMIT, CQ_HEAD and Qn_CTL, and what the actions of Qn_CTL leave (R57, R60, R74, R75, R77). -/

namespace Sys2Proof.Machine

open Sys2Proof.Claims

/-! ### How a write of a queue register reaches it -/

theorem blockOf_core (n : Fin 48) : blockOf (engPage (.core n)) = some (.core, n.val) := by
  revert n
  decide +kernel

theorem blockOf_stage (d : Fin 4) (u : StageUnit) : (blockOf (engPage (.stage d u))).map (·.1) = some (match u with
    | .spl => .spl | .rtv => .rtv | .emb => .emb | .pck => .pck | .muz => .muz | .srv => .srv) := by
  cases u <;> revert d <;> decide +kernel

/-- An offset of a queue block is the register that it is. -/
theorem queueReg_qOff {e : Eng} {q : Nat} (hq : hasQueue e q = true) {o k : Nat} (ho : o < 0x40) :
    queueReg (engPage e) k (qOff ⟨e, q⟩ o) = (o == k) := by
  have hlt : q < engQueues e := of_decide_eq_true hq
  cases e with
  | core n =>
    simp only [engQueues] at hlt
    have hrange : 0x100 ≤ 0x100 + 0x40 * q + o ∧ 0x100 + 0x40 * q + o < 0x300 := by omega
    have hmod : (0x100 + 0x40 * q + o) % 0x40 = o := by omega
    simp [queueReg, blockOf_core, queueRegAt, qOff, hrange.1, hrange.2, hmod]
  | stage d u =>
    simp only [engQueues] at hlt
    have hrange : 0x200 ≤ 0x200 + 0x40 * q + o ∧ 0x200 + 0x40 * q + o < 0x300 := by omega
    have hmod : (0x200 + 0x40 * q + o) % 0x40 = o := by omega
    obtain ⟨⟨b, i⟩, hb, hbu⟩ := Option.map_eq_some_iff.mp (blockOf_stage d u)
    cases u <;> cases hbu <;> simp [queueReg, hb, queueRegAt, qOff, hrange.1, hrange.2, hmod]

theorem mboxReg_qOff {e : Eng} {q : Nat} (hq : hasQueue e q = true) {o : Nat} (ho : o < 0x40) :
    mboxReg (engPage e) (qOff ⟨e, q⟩ o) = false := by
  have hlt : q < engQueues e := of_decide_eq_true hq
  have hlow : ¬ 0x800 ≤ qOff ⟨e, q⟩ o := by cases e <;> simp only [qOff, engQueues] at hlt ⊢ <;> omega
  unfold mboxReg
  split
  · simp [hlow]
  · rfl

section
variable {h : Hw} {r : Req} {e : Eng} {q : Nat} (v : Nat) (f : Hw → Hw) (hq : hasQueue e q = true) (hclear : h.portHeld r = false)
include hq hclear

/-- A write of TAIL is a demand and new work. -/
theorem Hw.guardWrite_tail (hacc : h.accepts r (engPage e) (qOff ⟨e, q⟩ 0x0C) = true) :
    h.guardWrite r (engPage e) (qOff ⟨e, q⟩ 0x0C) v f = f h.demand.worked := by
  simp [Hw.guardWrite, hclear, hacc, queueReg_qOff hq (show 0x0C < 0x40 by decide)]

/-- A write of Qn_CTL is a demand. -/
theorem Hw.guardWrite_ctl (hacc : h.accepts r (engPage e) (qOff ⟨e, q⟩ 0x1C) = true) :
    h.guardWrite r (engPage e) (qOff ⟨e, q⟩ 0x1C) v f = f h.demand := by
  simp [Hw.guardWrite, doorbell, hclear, hacc, queueReg_qOff hq, mboxReg_qOff hq]

/-- A write of another queue register acts as it stands. -/
theorem Hw.guardWrite_queue {o : Nat} (ho : o < 0x40) (htail : o ≠ 0x0C) (hctl : o ≠ 0x1C)
    (hacc : h.accepts r (engPage e) (qOff ⟨e, q⟩ o) = true) : h.guardWrite r (engPage e) (qOff ⟨e, q⟩ o) v f = f h := by
  have hlow : qOff ⟨e, q⟩ o ≠ 0x008 := by cases e <;> simp only [qOff] <;> omega
  refine Hw.guardWrite_accepted h v f hclear hacc ?_
  simp [doorbell, queueReg_qOff hq ho, mboxReg_qOff hq ho, hlow, htail, hctl]

end

/-! ### Packets to the twin -/

/-- From `h` to `k` only what a packet to the twin changes differs. -/
def Hw.PacketOnly (h k : Hw) : Prop := k = { h with pair := k.pair, ports := k.ports, changes := k.changes }

theorem Hw.PacketOnly.refl (h : Hw) : Hw.PacketOnly h h := rfl

theorem Hw.PacketOnly.trans {a b c : Hw} (h : Hw.PacketOnly a b) (k : Hw.PacketOnly b c) : Hw.PacketOnly a c := by
  unfold Hw.PacketOnly at *
  rw [k, h]

theorem Hw.leashQueue_packet (h : Hw) (p vc n : Nat) : Hw.PacketOnly h (h.leashQueue p vc n) := by
  unfold Hw.leashQueue
  split <;> rfl

theorem Hw.sendPacket_packet (h : Hw) (port : Nat) (queue : Option QId) (group step : Nat) (record : Option Nat)
    (ws us : List (Nat × List Byte)) : Hw.PacketOnly h (h.sendPacket port queue group step record ws us) := by
  unfold Hw.sendPacket
  split
  · refine Hw.PacketOnly.trans ?_ (Hw.leashQueue_packet _ _ _ _)
    rfl
  · exact .refl h

theorem Hw.mirrorFields_packet (h : Hw) (d n : Nat) (us : List (Nat × List Byte)) : Hw.PacketOnly h (h.mirrorFields d n us) :=
  h.sendPacket_packet _ _ _ _ _ _ _

theorem Hw.packet_ite {h k : Hw} (c : Prop) [Decidable c] (hk : Hw.PacketOnly h k) : Hw.PacketOnly h (if c then k else h) := by
  split
  · exact hk
  · exact .refl h

theorem Hw.PacketOnly.qs {h k : Hw} (hk : Hw.PacketOnly h k) (id : QId) : k.qs id = h.qs id := by rw [hk]; rfl
theorem Hw.PacketOnly.regs {h k : Hw} (hk : Hw.PacketOnly h k) : k.regs = h.regs := by rw [hk]
theorem Hw.PacketOnly.qrd {h k : Hw} (hk : Hw.PacketOnly h k) (id : QId) (o : Nat) : k.qrd id o = h.qrd id o := by rw [hk]; rfl

/-! ### Writes of TAIL -/

/-- The submitter that a requester is. -/
def submitterOf (r : Req) : Submitter := match r with | .portA => .portA | .portB => .portB | .handler => .handler

/-- What accepting a TAIL leaves. -/
theorem Hw.tailTo_accepts (h : Hw) (id : QId) (sub : Submitter) (v : Word) :
    let k := h.tailTo id sub v.toNat
    k.qTail id = v.toNat ∧ (k.qs id).subs.getLast? = some (v, sub)
      ∧ k = { h with regs := k.regs, queues := k.queues, pair := k.pair, ports := k.ports, changes := k.changes }
      ∧ (∀ id', id' ≠ id → k.qs id' = h.qs id') ∧ (k.qs id).cmds = (h.qs id).cmds ∧ (k.qs id).st = (h.qs id).st
      ∧ ∀ off b, regKey off b ≠ regKey (engPage id.eng * 0x1000 + qOff id 0x0C) 0 → k.reg off b = h.reg off b := by
  intro k
  obtain ⟨g, q, hg, hk, hsubs, hcmds, hst⟩ : ∃ g q, g = (h.setQs id q).qwr id 0x0C v.toNat ∧ Hw.PacketOnly g k
      ∧ q.subs.getLast? = some (v, sub) ∧ q.cmds = (h.qs id).cmds ∧ q.st = (h.qs id).st := by
    refine ⟨_, _, rfl, Hw.packet_ite _ (Hw.mirrorFields_packet _ _ _ _), ?_, rfl, rfl⟩
    rw [List.getLast?_append]
    simp
  have hqs : g.qs id = q := by rw [hg, Hw.qwr_qs, Hw.qs_setQs_same]
  refine ⟨?_, ?_, ?_, fun id' hne => ?_, ?_, ?_, fun off b hkey => ?_⟩
  · show k.qrd id 0x0C = _
    rw [hk.qrd, hg, Hw.qrd_qwr_same, Nat.mod_eq_of_lt v.isLt]
  · rw [hk.qs, hqs, hsubs]
  · rw [hk, hg]
    rfl
  · rw [hk.qs, hg, Hw.qwr_qs, Hw.qs_setQs_other _ _ hne]
  · rw [hk.qs, hqs, hcmds]
  · rw [hk.qs, hqs, hst]
  · rw [Hw.reg, hk.regs, hg]
    exact Hw.reg_setReg_other _ _ hkey

theorem queueTailWrite_eq (r : Req) (id : QId) (v : Word) (h : Hw) : queueTailWrite r id v h =
    h.guardWrite r (engPage id.eng) (qOff id 0x0C) v.toNat fun h =>
      if h.uncommitted id ≤ ptrSub v.toNat (h.qCommit id) ∧ ptrSub v.toNat (h.qCommit id) ≤ h.qEntries id
      then h.tailTo id (submitterOf r) v.toNat else h.err (engPage id.eng) id.q cOVERRUN := rfl

theorem queueTailWrites : QueueTailWrites := by
  intro s r e q v hq id ⟨hup, hclear, hacc⟩ h n
  have hexec : exec (.queueTailWrite r e q v) s = .next { s with hw :=
      (if h.uncommitted id ≤ n ∧ n ≤ h.qEntries id then h.tailTo id (submitterOf r) v.toNat else h.err (engPage e) q.val cOVERRUN) } := by
    show execQueueTailWrite r e q v s = _
    rw [execQueueTailWrite, onQueue_up hup hq, queueTailWrite_eq, Hw.guardWrite_tail _ _ hq hclear hacc]
  refine ⟨fun hlo hhi => ⟨h.tailTo id (submitterOf r) v.toNat, ?_, h.tailTo_accepts id (submitterOf r) v⟩, fun hnot => ?_⟩
  · rw [hexec, if_pos ⟨hlo, hhi⟩]
  · rw [hexec, if_neg hnot]

/-! ### Writes of COMMIT and CQ_HEAD -/

theorem Hw.queueOpenToWrites_iff (h : Hw) (id : QId) :
    h.queueOpenToWrites id = true ↔ (h.qs id).cmds = [] ∧ ((h.qs id).st = .paused ∨ (h.qs id).st = .disabled) := by
  unfold Hw.queueOpenToWrites
  cases (h.qs id).st <;> simp

/-- What a COMMIT that is taken leaves. -/
def Hw.commitTo (h : Hw) (id : QId) (sub : Submitter) (v : Nat) : Hw :=
  let g := (h.qwr id 0x14 v).qwr id 0x10 v
  g.setQs id { g.qs id with subs := [(BitVec.ofNat 32 (g.qTail id), sub)], killed := [], confirmed := [] }

theorem Hw.commitTo_takes (h : Hw) {id : QId} (hq : hasQueue id.eng id.q = true) (sub : Submitter) (v : Word) :
    let k := h.commitTo id sub v.toNat
    k.qCommit id = v.toNat ∧ k.qIssue id = v.toNat ∧ (k.qs id).subs = [(BitVec.ofNat 32 (h.qTail id), sub)]
      ∧ (k.qs id).killed = [] ∧ (k.qs id).confirmed = [] ∧ k = { h with regs := k.regs, queues := k.queues }
      ∧ ∀ off b, regKey off b ≠ regKey (engPage id.eng * 0x1000 + qOff id 0x14) 0 →
          regKey off b ≠ regKey (engPage id.eng * 0x1000 + qOff id 0x10) 0 → k.reg off b = h.reg off b := by
  intro k
  have hv : v.toNat % 0x100000000 = v.toNat := Nat.mod_eq_of_lt v.isLt
  have hqs : k.qs id = { h.qs id with
      subs := [(BitVec.ofNat 32 (((h.qwr id 0x14 v.toNat).qwr id 0x10 v.toNat).qTail id), sub)], killed := [], confirmed := [] } :=
    Hw.qs_setQs_same _ _ _
  have htail : ((h.qwr id 0x14 v.toNat).qwr id 0x10 v.toNat).qTail id = h.qTail id := by
    rw [Hw.qTail, Hw.qrd_qwr_other _ _ hq (by decide) (by decide) (by decide),
      Hw.qrd_qwr_other _ _ hq (by decide) (by decide) (by decide)]
    rfl
  refine ⟨?_, ?_, ?_, ?_, ?_, rfl, fun off b h14 h10 => ?_⟩
  · show ((h.qwr id 0x14 v.toNat).qwr id 0x10 v.toNat).qrd id 0x14 = _
    rw [Hw.qrd_qwr_other _ _ hq (by decide) (by decide) (by decide), Hw.qrd_qwr_same, hv]
  · show ((h.qwr id 0x14 v.toNat).qwr id 0x10 v.toNat).qrd id 0x10 = _
    rw [Hw.qrd_qwr_same, hv]
  · rw [hqs, ← htail]
  · rw [hqs]
  · rw [hqs]
  · show ((h.qwr id 0x14 v.toNat).qwr id 0x10 v.toNat).reg off b = _
    exact (Hw.reg_setReg_other _ _ h10).trans (Hw.reg_setReg_other _ _ h14)

/-- What a CQ_HEAD that is taken leaves, before the records that are owed go into the entries it frees. -/
def Hw.cqHeadTo (h : Hw) (id : QId) (v : Nat) : Hw :=
  let g := h.qwr id 0x38 v
  if g.ownsQueue id then g.mirrorFields (engQuad id.eng) (queueRecord id) [(0x34, leBytes 4 v)] else g

theorem Hw.cqHeadTo_takes (h : Hw) (id : QId) (v : Word) :
    let k := h.cqHeadTo id v.toNat
    k.qrd id 0x38 = v.toNat ∧ k = { h with regs := k.regs, pair := k.pair, ports := k.ports, changes := k.changes }
      ∧ k.qs id = h.qs id
      ∧ ∀ off b, regKey off b ≠ regKey (engPage id.eng * 0x1000 + qOff id 0x38) 0 → k.reg off b = h.reg off b := by
  intro k
  have hk : Hw.PacketOnly (h.qwr id 0x38 v.toNat) k := Hw.packet_ite _ (Hw.mirrorFields_packet _ _ _ _)
  refine ⟨?_, ?_, hk.qs id, fun off b hkey => ?_⟩
  · rw [hk.qrd, Hw.qrd_qwr_same, Nat.mod_eq_of_lt v.isLt]
  · rw [hk]
    rfl
  · rw [Hw.reg, hk.regs]
    exact Hw.reg_setReg_other _ _ hkey

theorem queueCommitWrite_eq (r : Req) (id : QId) (v : Word) (h : Hw) : queueCommitWrite r id v h =
    h.guardWrite r (engPage id.eng) (qOff id 0x14) v.toNat fun h =>
      if !h.queueOpenToWrites id then h.badAccess (pageOff (engPage id.eng) (qOff id 0x14))
      else h.commitTo id (submitterOf r) v.toNat := rfl

theorem queuePointers : QueuePointers := by
  intro s r e q v hq id
  refine ⟨?commit, ?head⟩
  case commit =>
    intro ⟨hup, hclear, hacc⟩
    have hexec : exec (.queueCommitWrite r e q v) s = .next { s with hw :=
        (if !s.hw.queueOpenToWrites id then s.hw.badAccess (pageOff (engPage e) (qOff id 0x14))
        else s.hw.commitTo id (submitterOf r) v.toNat) } := by
      show execQueueCommitWrite r e q v s = _
      rw [execQueueCommitWrite, onQueue_up hup hq, queueCommitWrite_eq,
        Hw.guardWrite_queue _ _ hq hclear (by decide) (by decide) (by decide) hacc]
    refine ⟨fun hcmds hst => ⟨s.hw.commitTo id (submitterOf r) v.toNat, ?_, s.hw.commitTo_takes hq (submitterOf r) v⟩, fun hnot => ?_⟩
    · rw [hexec, (s.hw.queueOpenToWrites_iff id).mpr ⟨hcmds, hst⟩]
      rfl
    · have hfalse : s.hw.queueOpenToWrites id = false := by
        rw [Bool.eq_false_iff, Ne, Hw.queueOpenToWrites_iff]
        tauto
      rw [hexec, hfalse]
      rfl
  case head =>
    intro ⟨hup, hclear, hacc⟩ n
    obtain ⟨hread, honly, hqs, hregs⟩ := s.hw.cqHeadTo_takes id v
    have hexec : exec (.cqHeadWrite r e q v) s = .next { s with hw :=
        (if 0 < n ∧ n < 0x80000000 then s.hw.badAccess (pageOff (engPage e) (qOff id 0x38))
        else Hw.flushOwed id ((s.hw.qs id).owed.length + 1) (s.hw.cqHeadTo id v.toNat)) } := by
      rw [← hqs]
      show execCqHeadWrite r e q v s = _
      rw [execCqHeadWrite, onQueue_up hup hq, cqHeadWrite,
        Hw.guardWrite_queue _ _ hq hclear (by decide) (by decide) (by decide) hacc]
      rfl
    refine ⟨fun hn => ⟨s.hw.cqHeadTo id v.toNat, ?_, hread, honly, hregs⟩, fun hlo hhi => ?_⟩
    · rw [hexec, if_neg (by omega)]
    · rw [hexec, if_pos ⟨hlo, hhi⟩]

/-! ### Qn_CTL -/

/-- What enable of a Qn_CTL value does, once its action is done. -/
def Hw.ctlEnable (h : Hw) (id : QId) (v : Nat) : Hw :=
  if bitOf v 0 then (if h.qEnable id then h else h.setEnable id) else h.clearEnable id

/-- Whether a Qn_CTL value asks for the enable of a queue that this module cannot enable. -/
def Hw.ctlBars (h : Hw) (id : QId) (v : Nat) : Prop :=
  bitOf v 0 = true ∧ h.qEnable id = false ∧ (h.ownsQueue id = false ∨ h.underTest id.eng = true)

theorem qctlWrite_acts {h : Hw} {r : Req} {e : Eng} {q v : Nat} (hq : hasQueue e q = true) (hclear : h.portHeld r = false)
    (hacc : h.accepts r (engPage e) (qOff ⟨e, q⟩ 0x1C) = true) (hone : ([1, 2, 3, 4].filter (bitOf v)).length ≤ 1)
    (hbars : ¬ h.demand.ctlBars ⟨e, q⟩ v) :
    qctlWrite r ⟨e, q⟩ v h = (h.demand.queueAction ⟨e, q⟩ v).ctlEnable ⟨e, q⟩ v := by
  rw [qctlWrite, Hw.guardWrite_ctl _ _ hq hclear hacc]
  exact if_neg fun hnot => hnot.elim (by omega) hbars

theorem bitOf_qctlGo (v : Word) (g n : Nat) : bitOf (qctlGo v g) n = (bitOf v.toNat n || decide (g = n)) := by
  simp [bitOf, qctlGo, Nat.testBit_or, Nat.testBit_two_pow]

theorem bitOf_qctlPlain (v : Word) (n : Nat) : bitOf (qctlPlain v) n = (decide (n = 0) && bitOf v.toNat 0) := by
  unfold bitOf qctlPlain bitsOf
  cases n with
  | zero => simp [Nat.testBit_zero]
  | succ n => simp [Nat.testBit_succ]

/-- A Qn_CTL value with one GO bit: that bit alone is set of the four. -/
theorem bitOf_qctlGo_only {v : Word} {g : Nat} (honly : ∀ n ∈ [1, 2, 3, 4], n ≠ g → bitOf v.toNat n = false) {n : Nat}
    (hn : n ∈ [1, 2, 3, 4]) : bitOf (qctlGo v g) n = decide (n = g) := by
  rw [bitOf_qctlGo]
  by_cases h : n = g
  · simp [h]
  · rw [honly n hn h]
    simp [h, Ne.symm h]

theorem qctlGo_one {v : Word} {g : Nat} (honly : ∀ n ∈ [1, 2, 3, 4], n ≠ g → bitOf v.toNat n = false) :
    ([1, 2, 3, 4].filter (bitOf (qctlGo v g))).length ≤ 1 := by
  have hfilter : [1, 2, 3, 4].filter (bitOf (qctlGo v g)) = [1, 2, 3, 4].filter fun n => decide (n = g) :=
    List.filter_congr fun n hn => bitOf_qctlGo_only honly hn
  have hnodup : ([1, 2, 3, 4] : List Nat).Nodup := by decide
  rw [hfilter, ← List.countP_eq_length_filter]
  exact (List.nodup_iff_count_le_one.mp hnodup g)

theorem queueControl : QueueControl := by
  intro s r e q v hq id ⟨hup, hclear, hacc⟩ h enable st only hbars
  have hplain (v' : Nat) (h0 : bitOf v' 0 = bitOf v.toNat 0) : ¬ h.ctlBars id v' ∧ ∀ k : Hw, k.ctlEnable id v' = enable k := by
    refine ⟨?_, fun k => by simp only [Hw.ctlEnable, h0, enable]⟩
    rintro ⟨hen, hoff, hnot⟩
    rw [h0] at hen
    rcases hbars with hb | hb | ⟨ho, ht⟩
    · simp [hb] at hen
    · simp [hb] at hoff
    · rcases hnot with hnot | hnot
      · simp [ho] at hnot
      · exact Bool.false_ne_true (ht.symm.trans hnot)
  have hgo (g : Nat) (hg : g ≠ 0) (honly : only g) :
      qctlWrite r id (qctlGo v g) s.hw = enable (h.queueAction id (qctlGo v g)) := by
    obtain ⟨hnot, henable⟩ := hplain (qctlGo v g) (by rw [bitOf_qctlGo]; simp [hg])
    rw [qctlWrite_acts hq hclear hacc (qctlGo_one honly) hnot, henable]
  refine ⟨?_, fun honly hst => ?_, fun honly hst hne => ?_, fun honly hst => ?_, fun honly hst => ?_⟩
  · show execQueueEnable r e q v s = _
    obtain ⟨hnot, henable⟩ := hplain (qctlPlain v) (by rw [bitOf_qctlPlain]; simp)
    rw [execQueueEnable, onQueue_up hup hq,
      qctlWrite_acts hq hclear hacc (by simp [bitOf_qctlPlain]) hnot, henable]
    simp [Hw.queueAction, bitOf_qctlPlain, h]
  · show execQueueResume r e q v s = _
    rw [execQueueResume, onQueue_up hup hq, hgo 1 (by decide) honly]
    have hst' : (h.qs id).st = .paused ∨ (h.qs id).st = .halted := hst
    simp [Hw.queueAction, bitOf_qctlGo_only honly, hst']
  · show execQueueSkip r e q v s = _
    rw [execQueueSkip, onQueue_up hup hq, hgo 3 (by decide) honly]
    simp [Hw.queueAction, bitOf_qctlGo_only honly]
  · show execQueueKill r e q v s = _
    rw [execQueueKill, onQueue_up hup hq, hgo 4 (by decide) honly]
    have hst' : (h.qs id).st ≠ .disabled := hst
    simp [Hw.queueAction, bitOf_qctlGo_only honly, hst']
  · show execQueuePreempt r e q v s = _
    rw [execQueuePreempt, onQueue_up hup hq, hgo 2 (by decide) honly]
    have hst' : (h.qs id).st ≠ .disabled := hst
    simp [Hw.queueAction, bitOf_qctlGo_only honly, hst']

/-! ### What the operations leave -/

theorem Hw.resumeQueue_runs (h : Hw) (id : QId) : ((h.resumeQueue id).qs id).st = .running ∧ Hw.QRegs h (h.resumeQueue id) := by
  refine ⟨?_, (Hw.QRegs.of_regs rfl).after (h.enterSt_q id .running)⟩
  rw [Hw.resumeQueue, Hw.qs_setQs_same, Hw.enterSt_qs_same]
  rfl

theorem Hw.paceStreams_regs (h : Hw) (id : QId) (d : BitVec 512) (b : Bool) : (h.paceStreams id d b).regs = h.regs := by
  unfold Hw.paceStreams
  split
  · rfl
  · refine List.foldlRecOn _ _ (motive := fun k : Hw => k.regs = h.regs) rfl fun k hk x _ => ?_
    dsimp only
    split
    · exact hk
    · exact hk

/-- A skip takes the slot at COMMIT, and the queue runs. -/
theorem Hw.skipSlot_runs {h : Hw} {id : QId} (hq : hasQueue id.eng id.q = true) (hst : (h.qs id).st = .halted)
    (hne : h.qCommit id ≠ h.qTail id) :
    ((h.skipSlot id).qs id).st = .running ∧ (h.skipSlot id).qCommit id = (h.qCommit id + 1) % 0x100000000
      ∧ (h.skipSlot id).qIssue id = (h.qCommit id + 1) % 0x100000000 := by
  obtain ⟨k, g, hk, q, heq⟩ : ∃ k g, k = (Hw.qwr g id 0x14 (h.qCommit id + 1)).qwr id 0x10 (h.qCommit id + 1)
      ∧ ∃ q, h.skipSlot id = (k.setQs id q).resumeQueue id := by
    rw [Hw.skipSlot, if_pos ⟨hst, hne⟩]
    exact ⟨_, _, rfl, _, rfl⟩
  obtain ⟨hrun, hregs⟩ := (k.setQs id q).resumeQueue_runs id
  refine ⟨by rw [heq, hrun], ?_, ?_⟩
  · rw [heq, Hw.qCommit, hregs.qrd 0x14 hq (by decide)]
    show k.qrd id 0x14 = _
    rw [hk, Hw.qrd_qwr_other _ _ hq (by decide) (by decide) (by decide), Hw.qrd_qwr_same]
  · rw [heq, Hw.qIssue, hregs.qrd 0x10 hq (by decide)]
    show k.qrd id 0x10 = _
    rw [hk, Hw.qrd_qwr_same]

/-- An enable starts a DISABLED queue from COMMIT, its context to be reloaded. -/
theorem Hw.setEnable_starts {h : Hw} {id : QId} (hq : hasQueue id.eng id.q = true) (hst : (h.qs id).st = .disabled) :
    ((h.setEnable id).qs id).st = .running ∧ (h.setEnable id).qEnable id = true
      ∧ (h.setEnable id).qIssue id = (h.setEnable id).qCommit id ∧ ((h.setEnable id).qs id).reload = hasCtx id.eng := by
  obtain ⟨g, q, hg, hk, hrun, hreload⟩ : ∃ g q, g = ((h.qwr id 0x1C 1).qwr id 0x10 (h.qCommit id)).setQs id q
      ∧ Hw.PacketOnly g (h.setEnable id) ∧ q.st = .running ∧ q.reload = hasCtx id.eng := by
    unfold Hw.setEnable
    simp only [hst, if_true]
    exact ⟨_, _, rfl, Hw.packet_ite _ (Hw.mirrorFields_packet _ _ _ _), rfl, rfl⟩
  refine ⟨?_, ?_, ?_, ?_⟩
  · rw [hk.qs, hg, Hw.qs_setQs_same, hrun]
  · rw [Hw.qEnable, hk.qrd, hg]
    show bitOf (((h.qwr id 0x1C 1).qwr id 0x10 (h.qCommit id)).qrd id 0x1C) 0 = true
    rw [Hw.qrd_qwr_other _ _ hq (by decide) (by decide) (by decide), Hw.qrd_qwr_same]
    rfl
  · rw [Hw.qIssue, Hw.qCommit, hk.qrd, hk.qrd, hg]
    show ((h.qwr id 0x1C 1).qwr id 0x10 (h.qCommit id)).qrd id 0x10
      = ((h.qwr id 0x1C 1).qwr id 0x10 (h.qCommit id)).qrd id 0x14
    rw [Hw.qrd_qwr_same, Hw.qrd_qwr_other _ _ hq (by decide) (by decide) (by decide),
      Hw.qrd_qwr_other _ _ hq (by decide) (by decide) (by decide)]
    exact Nat.mod_eq_of_lt (h.qrd_lt id 0x14)
  · rw [hk.qs, hg, Hw.qs_setQs_same, hreload]

theorem queueOperations : QueueOperations := by
  intro h id hq
  refine ⟨(h.resumeQueue_runs id).1, Hw.skipSlot_runs hq, Hw.setEnable_starts hq, fun hnow => ?_⟩
  obtain ⟨-, -, -, hst⟩ := Hw.killOrDefer_qs_same hnow
  rw [hst, if_pos (Or.inl rfl)]

/-- Settles O20: each register by what its write does, and Qn_CTL by its one action and enable. -/
theorem queueRegisterWrites : Obligations.QueueRegisterWrites := ⟨queueTailWrites, queuePointers, queueControl, queueOperations⟩

end Sys2Proof.Machine
end

section
/-! PROOF of O23: the end of a commit, a set that goes on, and completion records (R56, R69, R70, R77). -/

namespace Sys2Proof.Machine

open Sys2Proof.Claims

/-! ### Completion records -/

/-- What a record leaves of the queue's registers but CQ_TAIL. -/
theorem Hw.writeRecord_qrd (h : Hw) {id : QId} (o : Owed) {k : Nat} (hq : hasQueue id.eng id.q = true) (hk : k < 0x40) (hne : k ≠ 0x3C) :
    (h.writeRecord id o).qrd id k = h.qrd id k := by
  have htold : (if o.hitch then h.trace (hitchTrace id o.bytes) else h).qrd id k = h.qrd id k := by
    split
    · exact (h.trace_q _).qrd k hq hk
    · rfl
  unfold Hw.writeRecord
  dsimp only
  generalize (if o.hitch then h.trace (hitchTrace id o.bytes) else h) = g at htold
  have hrecord : ((g.write (queueMaster id) (g.cqVa id) o.bytes).qwr id 0x3C
      ((g.write (queueMaster id) (g.cqVa id) o.bytes).qrd id 0x3C + 1)).qrd id k = h.qrd id k := by
    rw [Hw.qrd_qwr_other _ _ hq (by decide) hk hne, (g.write_q _ _ _).qrd k hq hk, htold]
  split
  · split
    · rw [(Hw.raise_q _ _ _).qrd k hq hk, hrecord]
    · exact hrecord
  · exact htold

theorem Hw.flushOwed_qrd {id : QId} {k : Nat} (hq : hasQueue id.eng id.q = true) (hk : k < 0x40) (hne : k ≠ 0x3C) :
    ∀ (n : Nat) (h : Hw), (Hw.flushOwed id n h).qrd id k = h.qrd id k
  | 0, _ => rfl
  | n + 1, h => by
    rw [Hw.flushOwed_succ]
    split
    · rfl
    · split
      · rfl
      · rw [Hw.flushOwed_qrd hq hk hne n]
        exact h.writeRecord_qrd _ hq hk hne

/-- What is told of a record before it is written. -/
def Hw.recordTold (h : Hw) (id : QId) (o : Owed) : Hw := if o.hitch then h.trace (hitchTrace id o.bytes) else h

theorem Hw.recordTold_q (h : Hw) (id : QId) (o : Owed) : Hw.QRegs h (h.recordTold id o) := by
  unfold Hw.recordTold
  split
  · exact h.trace_q _
  · exact .refl h

theorem Hw.writeRecord_none {h : Hw} {id : QId} {o : Owed} (hno : o.record = false) : h.writeRecord id o = h.recordTold id o := by
  rw [Hw.writeRecord]
  simp only [hno]
  rfl

/-- A record that is written: its bytes at the ring's entry, CQ_TAIL one on, and an interrupt where it is asked for. -/
theorem Hw.writeRecord_some {h : Hw} {id : QId} {o : Owed} (hyes : o.record = true) : h.writeRecord id o =
    let g := (h.recordTold id o).write (queueMaster id) ((h.recordTold id o).cqVa id) o.bytes
    let k := g.qwr id 0x3C (g.qrd id 0x3C + 1)
    if o.irq then k.raise (engPage id.eng) (recordSrc id) else k := by
  rw [Hw.writeRecord]
  simp only [hyes]
  rfl

theorem Hw.writeRecord_tail {h : Hw} {id : QId} {o : Owed} (hq : hasQueue id.eng id.q = true) (hyes : o.record = true) :
    (h.writeRecord id o).qrd id 0x3C = (h.qrd id 0x3C + 1) % 0x100000000 := by
  have htail : ((h.recordTold id o).write (queueMaster id) ((h.recordTold id o).cqVa id) o.bytes).qrd id 0x3C = h.qrd id 0x3C := by
    rw [(Hw.write_q _ _ _ _).qrd 0x3C hq (by decide), (h.recordTold_q id o).qrd 0x3C hq (by decide)]
  rw [Hw.writeRecord_some hyes]
  dsimp only
  split
  · rw [(Hw.raise_q _ _ _).qrd 0x3C hq (by decide), Hw.qrd_qwr_same, htail]
  · rw [Hw.qrd_qwr_same, htail]

/-- Stores in order: memory is what the parts leave. -/
theorem Hw.storeAll_mem (ps : List (Nat × List Byte)) : ∀ (h k : Hw), h.mem = k.mem →
    (h.storeAll ps).mem = (ps.foldl (fun h p => h.store p.1 p.2) k).mem := by
  induction ps with
  | nil => exact fun h k heq => heq
  | cons p ps ih =>
    intro h k heq
    refine ih ((h.store p.1 p.2).countKennel p.1 p.2.length true) (k.store p.1 p.2) ?_
    have hcount : ((h.store p.1 p.2).countKennel p.1 p.2.length true).mem = (h.store p.1 p.2).mem := by
      unfold Hw.countKennel
      split
      · exact (Hw.count64_regsOnly _ _ _ _).lines.mem
      · rfl
    rw [hcount, Hw.store, Hw.store, heq]

theorem Hw.write_placed {h : Hw} {m : Master} {va : Nat} {bs : List Byte} {ps : List (Nat × List Byte)} (hwin : h.windowOf va = none)
    (hplace : h.place m va bs = .ok ps) : h.write m va bs = h.storeAll ps := by
  rw [Hw.write, hwin]
  simp only [ite_self, hplace]

theorem Hw.writeRecord_mem {h : Hw} {id : QId} {o : Owed} {ps : List (Nat × List Byte)} (hyes : o.record = true)
    (hwin : (h.recordTold id o).windowOf ((h.recordTold id o).cqVa id) = none)
    (hplace : (h.recordTold id o).place (queueMaster id) ((h.recordTold id o).cqVa id) o.bytes = .ok ps) :
    (h.writeRecord id o).mem = (ps.foldl (fun h p => h.store p.1 p.2) (h.recordTold id o)).mem := by
  rw [Hw.writeRecord_some hyes, Hw.write_placed hwin hplace]
  dsimp only
  split
  · rw [(Hw.raise_lines _ _ _).mem]
    exact Hw.storeAll_mem ps _ _ rfl
  · exact Hw.storeAll_mem ps _ _ rfl

theorem completionRecords : CompletionRecords := by
  intro s e q hup hq id
  have hexec : exec (.completionRecordWrite e q) s = .next { s with hw := Hw.flushOwed id ((s.hw.qs id).owed.length + 1) s.hw } := by
    show execCompletionRecordWrite e q s = _
    rw [execCompletionRecordWrite, onQueue_up hup hq, completionRecordWrite]
  refine ⟨fun hnil => ?_, fun o rest howed => ⟨fun hwait => ?_, fun hack hready => ?_⟩⟩
  · rw [hexec, Hw.flushOwed_succ, hnil]
  · rw [hexec, Hw.flushOwed_succ, howed]
    dsimp only
    refine congrArg (fun k => Host.Outcome.next { s with hw := k }) (if_pos ?_)
    rcases hwait with hack | ⟨hrec, hfull⟩
    · simp [hack]
    · simp [hrec, hfull]
  · intro told k
    have hgo : (o.ack || (o.record && !s.hw.cqReady id)) = false := by
      cases hr : o.record
      · simp [hack]
      · simp [hack, hready hr]
    have hstep : exec (.completionRecordWrite e q) s = .next { s with
        hw := Hw.flushOwed id (rest.length + 1) (k.setQs id { s.hw.qs id with owed := rest }) } := by
      rw [hexec, Hw.flushOwed_succ, howed]
      dsimp only
      rw [hgo]
      rfl
    refine ⟨hstep, fun hrest => ?_, Hw.writeRecord_tail hq, Hw.writeRecord_none, fun ps hyes hwin hplace => Hw.writeRecord_mem hyes hwin hplace⟩
    rw [hstep, hrest, Hw.flushOwed_succ, Hw.qs_setQs_same]

/-! ### The end of a commit -/

/-- From `h` to `k` no queue differs, and COMMIT of the queue stands. -/
def Hw.CommitStands (id : QId) (h k : Hw) : Prop := (∀ i, k.qs i = h.qs i) ∧ k.qCommit id = h.qCommit id

theorem Hw.CommitStands.refl (id : QId) (h : Hw) : Hw.CommitStands id h h := ⟨fun _ => rfl, rfl⟩
theorem Hw.CommitStands.trans {id : QId} {a b c : Hw} (h : Hw.CommitStands id a b) (k : Hw.CommitStands id b c) : Hw.CommitStands id a c :=
  ⟨fun i => (k.1 i).trans (h.1 i), k.2.trans h.2⟩

theorem Hw.OutsideOnly.commitStands {id : QId} {h k : Hw} (ho : Hw.OutsideOnly h k) (hr : Hw.QRegs h k)
    (hq : hasQueue id.eng id.q = true) : Hw.CommitStands id h k := ⟨ho.qs, hr.qrd 0x14 hq (by decide)⟩

theorem Hw.CommitStands.of_eq {id : QId} {h k : Hw} (hregs : k.regs = h.regs) (hqueues : k.queues = h.queues) :
    Hw.CommitStands id h k :=
  ⟨fun i => by unfold Hw.qs; rw [hqueues], by unfold Hw.qCommit Hw.qrd Hw.rd Hw.reg; rw [hregs]⟩

theorem Hw.CommitStands.fold {α : Type} {id : QId} {f : Hw → α → Hw} {l : List α} (hf : ∀ h, ∀ a ∈ l, Hw.CommitStands id h (f h a)) (h : Hw) :
    Hw.CommitStands id h (l.foldl f h) :=
  List.foldlRecOn l _ (motive := fun k => Hw.CommitStands id h k) (.refl id h) fun k hk a ha => hk.trans (hf k a ha)

theorem Hw.CommitStands.ite {id : QId} {h k : Hw} (c : Prop) [Decidable c] (hk : Hw.CommitStands id h k) :
    Hw.CommitStands id h (if c then k else h) := by
  split
  · exact hk
  · exact .refl id h

/-- Counters of a unit's page lie beside its queue blocks. -/
theorem Hw.count_commitStands (h : Hw) {id : QId} {o : Nat} (n : Nat) (hq : hasQueue id.eng id.q = true)
    (ho : o < 0x100 ∨ (0x300 ≤ o ∧ o < 0x1000)) : Hw.CommitStands id h (h.count (engPage id.eng) o n) := by
  refine ⟨fun i => Hw.count_qs _ _ _ _ i, h.rd_wr_other _ fun hkey => ?_⟩
  have hlt : id.q < engQueues id.eng := of_decide_eq_true hq
  have hoff : 0x100 ≤ qOff id 0x14 ∧ qOff id 0x14 < 0x300 := by
    obtain ⟨e, q⟩ := id
    cases e <;> simp only [qOff, engQueues] at hlt ⊢ <;> omega
  have := regKey_inPage (engPage id.eng * 0x1000 + qOff id 0x14) 0
  rw [hkey, regKey_inPage] at this
  omega

/-- The semaphores of a commit, with a note of one that saturates: the note leaves the increments as they are. -/
theorem signals_fst (sigs : List (Nat × Nat × Nat)) : ∀ (h : Hw) (b : Bool),
    (sigs.foldl (fun (x : Hw × Bool) s => (x.1.semAdd s.1 s.2.1 s.2.2, x.2 || x.1.semFull s.1 s.2.1 s.2.2)) (h, b)).1
      = sigs.foldl (fun h s => h.semAdd s.1 s.2.1 s.2.2) h := by
  induction sigs with
  | nil => exact fun _ _ => rfl
  | cons s sigs ih => exact fun h b => ih _ _

theorem Hw.paceStreams_stands (h : Hw) (id : QId) (d : BitVec 512) (b : Bool) :
    (h.paceStreams id d b).regs = h.regs ∧ (h.paceStreams id d b).queues = h.queues := by
  unfold Hw.paceStreams
  split
  · exact ⟨rfl, rfl⟩
  · refine List.foldlRecOn _ _ (motive := fun k : Hw => k.regs = h.regs ∧ k.queues = h.queues) ⟨rfl, rfl⟩ fun k hk x _ => ?_
    dsimp only
    split
    · exact hk
    · exact hk

/-- A commit's end in its parts: all before the command leaves its queue, the command leaving, and all after. -/
theorem Hw.commitEnd_parts (h : Hw) {id : QId} (c : Cmd) (sigs : List (Nat × Nat × Nat)) (hq : hasQueue id.eng id.q = true) :
    ∃ g q k o, (∀ i, g.qs i = h.qs i)
      ∧ ((∀ x ∈ sigs, x.2.1 < 16) → (∀ x ∈ c.hitchCounts, x.1 < 0x100 ∨ (0x300 ≤ x.1 ∧ x.1 < 0x1000)) → Hw.CommitStands id h g)
      ∧ q.cmds = (((g.noteUpdate id c).qs id).cmds.filter fun x => x.ptr ≠ c.ptr).map c.keepSlot
      ∧ Hw.CommitStands id ((((g.noteUpdate id c)).setQs id q).qwr id 0x14 ((g.noteUpdate id c).qCommit id + 1)) k
      ∧ h.commitEnd id c sigs = k.owe id o := by
  obtain ⟨r, hr⟩ : ∃ r, h.commitEnd id c sigs = r := ⟨_, rfl⟩
  rw [hr]
  unfold Hw.commitEnd at hr
  have hfst := signals_fst sigs h false
  generalize sigs.foldl (fun (x : Hw × Bool) s => (x.1.semAdd s.1 s.2.1 s.2.2, x.2 || x.1.semFull s.1 s.2.1 s.2.2)) (h, false) = x at hr hfst
  split at hr
  rename_i h1 full
  extract_lets p code mark h2 h3 h4 late due fwd record ws part big rid h5 quad tail q h6 h7 pair h8 record' h9 at hr
  have hqueues : ∀ i, h4.qs i = h.qs i := by
    have hsem : ∀ i, h1.qs i = h.qs i := fun i => by
      rw [show h1 = _ from hfst]
      exact foldl_qs _ i (fun h x => h.semAdd_qs _ _ _ i) _ _
    have hmark : ∀ i, h2.qs i = h1.qs i := (Hw.outside_ite _ (h1.trace_outside _)).qs
    have hcount : ∀ i, h3.qs i = h2.qs i := fun i => foldl_qs _ i (fun h x => h.count_qs _ _ _ i) _ _
    have hcode : ∀ i, h4.qs i = h3.qs i := fun i => by
      show (if code = 0 then h3 else h3.err p id.q code).qs i = _
      split
      · rfl
      · exact h3.err_qs _ _ _ i
    exact fun i => (hcode i).trans ((hcount i).trans ((hmark i).trans (hsem i)))
  have hstands : (∀ x ∈ sigs, x.2.1 < 16) → (∀ x ∈ c.hitchCounts, x.1 < 0x100 ∨ (0x300 ≤ x.1 ∧ x.1 < 0x1000)) →
      Hw.CommitStands id h h4 := by
    intro hsigs hcounts
    have f1 : Hw.CommitStands id h h1 := by
      rw [show h1 = _ from hfst]
      exact .fold (fun h x hx => (h.semAdd_lines _ _ _).outside.commitStands (h.semAdd_q _ _ _ (hsigs x hx)) hq) h
    have f2 : Hw.CommitStands id h1 h2 := .ite _ ((h1.trace_outside _).commitStands (h1.trace_q _) hq)
    have f3 : Hw.CommitStands id h2 h3 := .fold (fun h x hx => h.count_commitStands x.2 hq (hcounts x hx)) h2
    have f4 : Hw.CommitStands id h3 h4 := by
      show Hw.CommitStands id h3 (if code = 0 then h3 else _)
      split
      · exact .refl id h3
      · exact (h3.err_regsOnly _ _ _).outside.commitStands (h3.err_q _ _ _) hq
    exact ((f1.trans f2).trans f3).trans f4
  have f8 : Hw.CommitStands id h7 h8 := by
    show Hw.CommitStands id h7 (if _ then _ else if _ then _ else h7)
    split
    · have hp := h7.sendPacket_packet (h7.mirrorPort quad) (some id) (dGroup c.desc) (dStep c.desc) (some rid) ws
        [(0x18, leBytes 8 (h7.qCtx id)), (0x20, leBytes 4 (h7.qCommit id)), (0x24, leBytes 4 tail)]
      exact ⟨hp.qs, hp.qrd id 0x14⟩
    · refine .ite _ ((Hw.raise_lines _ _ _).outside.commitStands (Hw.raise_q _ _ _) hq)
  have f9 : Hw.CommitStands id h8 h9 := by
    have hp := Hw.paceStreams_stands { h8 with changes := [] } id c.desc true
    exact .of_eq hp.1 hp.2
  exact ⟨h4, _, h9, _, hqueues, hstands, rfl, f8.trans f9, hr.symm⟩

theorem Hw.noteUpdate_regs (h : Hw) (id : QId) (c : Cmd) : (h.noteUpdate id c).regs = h.regs := by
  unfold Hw.noteUpdate
  dsimp only
  split <;> rfl

theorem Hw.noteUpdate_noSpans (h : Hw) (id : QId) {c : Cmd} (hno : c.spans = []) : h.noteUpdate id c = h := by
  unfold Hw.noteUpdate
  exact if_pos (Or.inr hno)

theorem Hw.commitEnd_commit (h : Hw) {id : QId} (c : Cmd) (sigs : List (Nat × Nat × Nat)) (hq : hasQueue id.eng id.q = true)
    (hsigs : ∀ x ∈ sigs, x.2.1 < 16) (hcounts : ∀ x ∈ c.hitchCounts, x.1 < 0x100 ∨ (0x300 ≤ x.1 ∧ x.1 < 0x1000)) :
    (h.commitEnd id c sigs).qCommit id = (h.qCommit id + 1) % 0x100000000 := by
  obtain ⟨g, q, k, o, -, hstands, -, hk, heq⟩ := h.commitEnd_parts c sigs hq
  have howe : (k.owe id o).qrd id 0x14 = k.qrd id 0x14 := Hw.flushOwed_qrd hq (by decide) (by decide) _ _
  have hnote : (g.noteUpdate id c).qCommit id = g.qCommit id := by
    unfold Hw.qCommit Hw.qrd Hw.rd Hw.reg
    rw [Hw.noteUpdate_regs]
  rw [heq, Hw.qCommit, howe]
  refine hk.2.trans ?_
  rw [Hw.qCommit, Hw.qrd_qwr_same, hnote, (hstands hsigs hcounts).2]

theorem Hw.commitEnd_cmds (h : Hw) {id : QId} {c : Cmd} (sigs : List (Nat × Nat × Nat)) (hq : hasQueue id.eng id.q = true)
    (hno : c.spans = []) : ((h.commitEnd id c sigs).qs id).cmds = ((h.qs id).cmds.filter fun x => x.ptr ≠ c.ptr).map c.keepSlot := by
  obtain ⟨g, q, k, o, hg, -, hcmds, hk, heq⟩ := h.commitEnd_parts c sigs hq
  obtain ⟨owed, howe⟩ := k.owe_qs_same id o
  rw [heq, howe]
  show (k.qs id).cmds = _
  rw [hk.1, Hw.qwr_qs, Hw.qs_setQs_same, hcmds, Hw.noteUpdate_noSpans _ _ hno, hg]

theorem commitEnds : CommitEnds := fun h _ c sigs hq hsigs hcounts =>
  ⟨h.commitEnd_commit c sigs hq hsigs hcounts, h.commitEnd_cmds sigs hq⟩

/-! ### A set that goes on -/

theorem setsCommit : SetsCommit := by
  intro h k g
  refine ⟨fun hnone => ⟨?_, ?_, ?_⟩, fun hsome => ?_⟩
  · exact if_pos hnone
  · intro l hl
    simpa using (List.mem_filter.mp hl).2
  · intro l hl
    simpa using (List.mem_filter.mp hl).2
  · exact if_neg hsome

/-- Settles O23: the parts of a commit's end, a set by its definition, and records one by one. -/
theorem endOfACommit : Obligations.EndOfACommit := ⟨commitEnds, setsCommit, completionRecords⟩

end Sys2Proof.Machine
end

section
/-! PROOF of O17 and O19: HITCH, and the commit steps of stage units (R64, R70, R246). -/

namespace Sys2Proof.Machine

open Sys2Proof.Claims

/-! ### The Hitch of one command -/

theorem Hw.setPreds_regsOnly (h : Hw) (core : Nat) (mask val : DWord) : Hw.RegsOnly h (h.setPreds core mask val) := by
  unfold Hw.setPreds
  split
  · exact .refl h
  · exact (h.wr_regsOnly _ _ _ _).trans (Hw.wr_regsOnly _ _ _ _ _)

theorem Hw.setPreds_q (h : Hw) (core : Nat) (mask val : DWord) : Hw.QRegs h (h.setPreds core mask val) := by
  unfold Hw.setPreds
  split
  · exact .refl h
  · exact (Hw.wr_q _ _ 0x04C _ _ (by decide) (Or.inr (by decide))).after (Hw.wr_q _ _ 0x048 _ _ (by decide) (Or.inr (by decide)))

theorem Hw.qwr_commitStands (h : Hw) {id : QId} {o : Nat} (v : Nat) (hq : hasQueue id.eng id.q = true) (ho : o < 0x40) (hne : 0x14 ≠ o) :
    Hw.CommitStands id h (h.qwr id o v) := ⟨fun _ => rfl, Hw.qrd_qwr_other _ _ hq ho (by decide) hne⟩

/-- A write of a command's write-out leaves queues and queue registers. -/
theorem Hw.writeOut_commitStands (h : Hw) {id : QId} (w : Nat × List Byte) (hq : hasQueue id.eng id.q = true) :
    Hw.CommitStands id h ((h.lookups (queueMaster id) w.1 w.2.length).write (queueMaster id) w.1 w.2) :=
  ((h.lookups_access _ _ _).outside.commitStands (h.lookups_q _ _ _) hq).trans
    ((Hw.write_outside _ _ _ _).commitStands (Hw.write_q _ _ _ _) hq)

/-- All of a command's Hitch before the end of its commit. -/
def Hw.hitchBefore (h : Hw) (id : QId) (c : Cmd) : Hw :=
  let g := c.writes.foldl (fun h w => (h.lookups (queueMaster id) w.1 w.2.length).write (queueMaster id) w.1 w.2) h
  let g := match id.eng with | .core n => g.setPreds n.val c.predMask c.predVal | .stage _ _ => g
  if dOpcode c.desc = 0x01 ∧ c.skipped = false then (g.qwr id 0x24 (dSrc c.desc)).qwr id 0x28 (dSrc c.desc / 0x100000000) else g

theorem Hw.hitchOne_eq (h : Hw) (id : QId) (c : Cmd) : h.hitchOne id c = (h.hitchBefore id c).commitEnd id c (coreSignals id c) := rfl

theorem Hw.hitchBefore_commitStands (h : Hw) {id : QId} (c : Cmd) (hq : hasQueue id.eng id.q = true) :
    Hw.CommitStands id h (h.hitchBefore id c) := by
  unfold Hw.hitchBefore
  have hwrites : Hw.CommitStands id h
      (c.writes.foldl (fun h w => (h.lookups (queueMaster id) w.1 w.2.length).write (queueMaster id) w.1 w.2) h) :=
    .fold (fun h w _ => h.writeOut_commitStands w hq) h
  generalize c.writes.foldl (fun h w => (h.lookups (queueMaster id) w.1 w.2.length).write (queueMaster id) w.1 w.2) h = g at hwrites
  have hpreds : Hw.CommitStands id g (match id.eng with | .core n => g.setPreds n.val c.predMask c.predVal | .stage _ _ => g) := by
    split
    · exact (g.setPreds_regsOnly _ _ _).outside.commitStands (g.setPreds_q _ _ _) hq
    · exact .refl id g
  refine (hwrites.trans hpreds).trans (.ite _ ?_)
  exact (Hw.qwr_commitStands _ _ hq (by decide) (by decide)).trans (Hw.qwr_commitStands _ _ hq (by decide) (by decide))

/-- The semaphores of a core command's Hitch are the core's. -/
theorem coreSignals_sem {id : QId} {c : Cmd} (hsem : ∀ x ∈ c.signals, x.2.1 < 16) : ∀ x ∈ coreSignals id c, x.2.1 < 16 := by
  intro x hx
  unfold coreSignals at hx
  split at hx
  · rcases List.mem_append.mp hx with hx | hx
    · exact hsem x hx
    · split at hx
      · rw [List.mem_singleton.mp hx]
        show dSigSem c.desc < 16
        exact Nat.mod_lt _ (by decide)
      · cases hx
  · exact hsem x hx

/-- A command that commits alone: COMMIT is one on. -/
theorem Hw.hitchOne_commit (h : Hw) {id : QId} {c : Cmd} (hq : hasQueue id.eng id.q = true) (hsem : ∀ x ∈ c.signals, x.2.1 < 16)
    (hcounts : ∀ x ∈ c.hitchCounts, x.1 < 0x100 ∨ (0x300 ≤ x.1 ∧ x.1 < 0x1000)) :
    (h.hitchOne id c).qCommit id = (h.qCommit id + 1) % 0x100000000 := by
  rw [Hw.hitchOne_eq, Hw.commitEnd_commit _ c _ hq (coreSignals_sem hsem) hcounts, (h.hitchBefore_commitStands c hq).2]

/-- A command that commits alone has left its queue. -/
theorem Hw.hitchOne_cmds (h : Hw) {id : QId} {c : Cmd} (hq : hasQueue id.eng id.q = true) (hno : c.spans = []) :
    ((h.hitchOne id c).qs id).cmds = ((h.qs id).cmds.filter fun x => x.ptr ≠ c.ptr).map c.keepSlot := by
  rw [Hw.hitchOne_eq, Hw.commitEnd_cmds _ _ hq hno, (h.hitchBefore_commitStands c hq).1]

/-! ### HITCH -/

theorem hitchReady_alone {h : Hw} {id : QId} {c : Cmd} {rest : List Cmd} {runs : List (QId × List Cmd)}
    (hready : h.hitchReady id = some runs) (hcmds : (h.qs id).cmds = c :: rest) (hgroup : dGroup c.desc = 0) : runs = [(id, [c])] := by
  unfold Hw.hitchReady at hready
  rw [hcmds] at hready
  simp only [hgroup, if_true, List.map_cons, List.map_nil, hcmds, hitchRun, Option.getD_some] at hready
  split at hready
  · exact (Option.some.inj hready).symm
  · cases hready

/-- Settles O17: the branches of HITCH, and what the Hitch of one command leaves. -/
theorem hitchCommits : Obligations.HitchCommits := by
  intro s n q hup id
  have hq : hasQueue id.eng id.q = true := by simp [hasQueue, engQueues, id]
  have hexec : exec (.hitch n q) s = .next { s with hw := hitch n q s.hw } := by
    show execHitch n q s = _
    rw [execHitch, State.onHw_up _ _ hup]
  refine ⟨fun k hgoing => ?_, fun hgoing hready => ?_, fun runs c rest hgoing hready hcmds => ?_⟩
  · rw [hexec, hitch, hgoing]
  · rw [hexec, hitch, hgoing, hready]
  · have hruns : hitch n q s.hw = s.hw.hitchRuns id runs := by rw [hitch, hgoing, hready]
    refine ⟨fun hring => ?_, fun hring hcredit => ?_, fun hring hcredit => ?_⟩
    · rw [hexec, hruns, Hw.hitchRuns, hring]
      rfl
    · rw [hexec, hruns, Hw.hitchRuns, hring, hcredit]
      rfl
    · have hlock : s.hw.hitchRuns id runs = match s.hw.lockFail runs with
          | some (f, c, .fault cause level va) => s.hw.killFault f cause level va true c.desc
          | some _ => s.hw
          | none => if dGroup c.desc = 0 then s.hw.hitchOne id c
              else (s.hw.releaseRuns runs).setGoesOn (dGroup c.desc, dStep c.desc) := by
        rw [Hw.hitchRuns, hring, hcredit, hcmds]
        rfl
      rw [hexec, hruns, hlock]
      refine ⟨fun hfree hgroup => ?_, fun hfree hgroup => ?_, fun f d cause level va hfault => ?_⟩
      · rw [hfree]
        simp only [if_pos hgroup]
        refine ⟨hitchReady_alone hready hcmds hgroup, _, rfl, rfl, s.hw.hitchOne_commit hq, fun hno => ?_⟩
        rw [← hcmds]
        exact s.hw.hitchOne_cmds hq hno
      · rw [hfree]
        simp only [if_neg hgroup]
      · rw [hfault]

/-! ### Commit steps of stage units -/

/-- A commit step that has not begun: the ring, then the credit, then its writes, the unit's effect and the end. -/
theorem Hw.stageCommit_fresh {h : Hw} {id : QId} {c : Cmd} (eff : Cmd → Hw → Hw) (hhead : h.stageCommitHead id = some c)
    (htodo : c.todo = none) : h.stageCommit id eff =
      if h.ringGate id c = false then h
      else if h.creditGate id c = false then h.noteWait id
      else
        let w := Hw.stageWrites id c c.writes h
        if w.2 = [] then
          ((eff c w.1).commitEnd id ((((eff c w.1).qs id).cmds.find? fun x => x.ptr = c.ptr).getD c) c.signals).runDeferred id
        else if (cutWrites c.writes).length = w.2.length then w.1
        else w.1.updCmd id c.ptr fun c => { c with todo := some w.2 } := by
  rw [Hw.stageCommit, hhead]
  cases hring : h.ringGate id c <;> cases hcredit : h.creditGate id c <;> simp [htodo, hring, hcredit]

/-- The commit step of the system opcodes, of Splice and of the Packer. -/
theorem stageCommitStep_eq {h : Hw} {d : Fin 4} {u : StageUnit} {q : Fin 4} {c : Cmd} {eff : Cmd → Hw → Hw}
    (hhead : h.stageCommitHead ⟨stageEng d.val u, q.val⟩ = some c)
    (heff : (dOpcode c.desc < 0x10 ∧ h.waitsConfirm ⟨stageEng d.val u, q.val⟩ c = false ∧ eff = plainCommitEff ⟨stageEng d.val u, q.val⟩)
      ∨ (0x10 ≤ dOpcode c.desc ∧ u = .spl ∧ eff = spliceCommit)
      ∨ (0x10 ≤ dOpcode c.desc ∧ u = .pck ∧ eff = fun _ h => h)) :
    stageCommitStep d.val u q.val h = h.stageCommit ⟨stageEng d.val u, q.val⟩ eff := by
  unfold stageCommitStep
  simp only [hhead]
  rcases heff with ⟨hop, hwait, rfl⟩ | ⟨hop, rfl, rfl⟩ | ⟨hop, rfl, rfl⟩
  · rw [if_pos hop, hwait]
    rfl
  · rw [if_neg (by omega)]
  · rw [if_neg (by omega)]

/-- A first write that meets a fault holds the unit, with all of the writes left. -/
theorem Hw.stageParts_fault {h : Hw} {id : QId} (c : Cmd) {va cause level a : Nat} {bs : List Byte} (t : List (Nat × List Byte))
    (hwin : h.windowOf va = none) (hplace : h.place (queueMaster id) va bs = .error (.fault cause level a)) :
    Hw.stageParts id c ((va, bs) :: t) h = (h.holdFault id c.ptr cause level a true c.desc, (va, bs) :: t) := by
  rw [Hw.stageParts]
  simp [hwin, hplace]

/-- Settles O19: the branches of a commit step that begins. -/
theorem stageCommits : Obligations.StageCommits := by
  intro s d u q c eff hup id hhead htodo heff
  have hexec : exec (.stageCommitStep d u q) s = .next { s with hw := s.hw.stageCommit id eff } := by
    show execStageCommitStep d u q s = _
    rw [execStageCommitStep, State.onHw_up _ _ hup, stageCommitStep_eq hhead heff]
  rw [hexec, Hw.stageCommit_fresh eff hhead htodo]
  refine ⟨fun hring => by rw [if_pos hring], fun hring hcredit => by rw [if_neg (by simp [hring]), if_pos hcredit],
    fun hring hcredit => ?_⟩
  rw [if_neg (by simp [hring]), if_neg (by simp [hcredit])]
  refine ⟨fun k hdone => ?_, fun k w t hleft hlen => ?_, fun va bs t cause level a hcut hwin hplace => ?_⟩
  · rw [hdone]
    rfl
  · rw [hleft]
    dsimp only
    rw [if_neg (List.cons_ne_nil _ _), if_neg (by simp only [List.length_cons]; omega)]
  · have hparts : Hw.stageWrites id c c.writes s.hw = (s.hw.holdFault id c.ptr cause level a true c.desc, (va, bs) :: t) := by
      rw [Hw.stageWrites, hcut]
      exact Hw.stageParts_fault c t hwin hplace
    rw [hparts, hcut]
    dsimp only
    rw [if_neg (List.cons_ne_nil _ _), if_pos rfl]

end Sys2Proof.Machine
end

section
/-! PROOF of O15: COMMAND_ISSUE (R59 to R62). -/

namespace Sys2Proof.Machine

open Sys2Proof.Claims

/-! ### Which heads arbitration grants -/

theorem Hw.arbitrate_mem {h : Hw} {e : Eng} {xs : List Head} {x : Head} (hx : h.arbitrate e xs = some x) : x ∈ xs := by
  unfold Hw.arbitrate at hx
  split at hx
  · cases hx
  · obtain ⟨i, -, hi⟩ := List.exists_of_findSome?_eq_some hx
    exact (List.mem_filter.mp (List.mem_of_find?_eq_some hi)).1

/-- A head is that of its queue. -/
theorem Hw.headOf_id {h : Hw} {id : QId} {x : Head} (hx : h.headOf id = .ok x) : x.id = id := by
  unfold Hw.headOf at hx
  extract_lets q slot at hx
  have hslot : ∀ y, (Except.ok y >>= slot) = .ok x → x.id = id := by
    intro y hy
    change slot y = .ok x at hy
    simp only [slot] at hy
    split at hy
    · cases hy; rfl
    · cases hy
    · split at hy
      · cases hy; rfl
      · split at hy
        · split at hy
          · cases hy; rfl
          · cases hy; rfl
          · cases hy
        · cases hy; rfl
  split at hx
  · split at hx
    · exact hslot _ hx
    · exact hslot _ hx
    · cases hx
  · exact hslot _ hx

theorem Hw.heads_id {h : Hw} {e : Eng} {x : Head} (hx : x ∈ h.heads e) : x.id.eng = e ∧ hasQueue e x.id.q = true := by
  unfold Hw.heads at hx
  obtain ⟨q, hq, hq'⟩ := List.mem_filterMap.mp hx
  split at hq'
  · split at hq'
    · rename_i y hy
      cases hq'
      rw [Hw.headOf_id hy]
      exact ⟨rfl, decide_eq_true (List.mem_range.mp hq)⟩
    · cases hq'
  · cases hq'

/-! ### What an issue leaves of queues and their registers -/

/-- From `h` to `k` no queue differs, nor any queue register. -/
def Hw.QueuesStand (h k : Hw) : Prop := (∀ i, k.qs i = h.qs i) ∧ Hw.QRegs h k

theorem Hw.QueuesStand.refl (h : Hw) : Hw.QueuesStand h h := ⟨fun _ => rfl, .refl h⟩
theorem Hw.QueuesStand.trans {a b c : Hw} (h : Hw.QueuesStand a b) (k : Hw.QueuesStand b c) : Hw.QueuesStand a c :=
  ⟨fun i => (k.1 i).trans (h.1 i), k.2.after h.2⟩
theorem Hw.QueuesStand.ite {h k : Hw} (c : Prop) [Decidable c] (hk : Hw.QueuesStand h k) : Hw.QueuesStand h (if c then k else h) := by
  split
  · exact hk
  · exact .refl h
theorem Hw.QueuesStand.of_eq {h k : Hw} (hregs : k.regs = h.regs) (hqueues : k.queues = h.queues) : Hw.QueuesStand h k :=
  ⟨fun i => by unfold Hw.qs; rw [hqueues], .of_regs hregs⟩

theorem Hw.touch_stand (h : Hw) (m : Master) (va n : Nat) : Hw.QueuesStand h (h.touch m va n) := ⟨h.touch_qs m va n, h.touch_q m va n⟩
theorem Hw.trace_stand (h : Hw) (r : TraceRec) : Hw.QueuesStand h (h.trace r) := ⟨h.trace_qs r, h.trace_q r⟩
theorem Hw.raise_stand (h : Hw) (p n : Nat) : Hw.QueuesStand h (h.raise p n) := ⟨h.raise_qs p n, h.raise_q p n⟩
theorem Hw.setBit_stand (h : Hw) (p o n : Nat) (b : Bool) (ho : o < 0x100) : Hw.QueuesStand h (h.setBit p o n b) :=
  ⟨(h.setBit_regsOnly p o n b).outside.qs, h.setBit_q p o n b (by omega) (Or.inr ho)⟩
theorem Hw.count_stand (h : Hw) (p o n : Nat) (ho : o < 0x100) : Hw.QueuesStand h (h.count p o n) :=
  ⟨h.count_qs p o n, h.count_q p o n (by omega) (Or.inr ho)⟩

theorem Hw.breakAt_stand (h : Hw) (id : QId) (d : BitVec 512) : Hw.QueuesStand h (h.breakAt id d) := by
  have hbits : Hw.QueuesStand h ((h.setBit 0x009 0x064 1 false).setBit (engPage id.eng) 0x008 2 true) :=
    (h.setBit_stand 0x009 0x064 1 false (by decide)).trans (Hw.setBit_stand _ (engPage id.eng) 0x008 2 true (by decide))
  have hcount := hbits.trans (Hw.count_stand _ 0x009 0x068 1 (by decide))
  unfold Hw.breakAt
  dsimp only
  generalize ((h.setBit 0x009 0x064 1 false).setBit (engPage id.eng) 0x008 2 true).count 0x009 0x068 = g at hcount ⊢
  split
  · refine hcount.trans (Hw.QueuesStand.trans ?_ (Hw.raise_stand _ _ _))
    exact .of_eq rfl rfl
  · exact .refl h

/-- The grant, and the reads that an issue makes. -/
def Hw.issueReads (h : Hw) (x : Head) : Hw :=
  let g := h.noteGrant x
  let g := if (g.qs x.id).reload ∧ g.qCtx x.id ≠ 0 then g.touch (queueMaster x.id) (g.qCtx x.id) 64 else g
  let g := g.touch (queueMaster x.id) (g.slotVa x.id (h.qIssue x.id)) 64
  if x.blind then g.draw else g

theorem Hw.issueReads_stand (h : Hw) (x : Head) : Hw.QueuesStand h (h.issueReads x) := by
  unfold Hw.issueReads
  refine Hw.QueuesStand.trans ?_ (.ite _ (.of_eq rfl rfl))
  refine Hw.QueuesStand.trans ?_ (Hw.touch_stand _ _ _ _)
  refine Hw.QueuesStand.trans ?_ (.ite _ (Hw.touch_stand _ _ _ _))
  exact .of_eq rfl rfl

/-- A command that the special-function unit has given its program. -/
def Cmd.withProg (f : Cmd → Option (List Byte)) (c : Cmd) : Cmd := { c with prog := f c }

theorem Hw.beginLoad_stand (h : Hw) (n : Nat) (q : Fin 8) (ctx : List Byte) : Hw.QueuesStand h (h.beginLoad n q ctx) := by
  unfold Hw.beginLoad
  dsimp only
  split
  · exact .refl h
  · exact .of_eq rfl rfl

/-- Beside the unit's store, an issue to the special-function unit gives the command its program at most. -/
theorem Hw.sfuIssue_progs (h : Hw) (n : Nat) (q : Fin 8) (c : Cmd) (next : List Byte) :
    Hw.QRegs h (h.sfuIssue n q c next) ∧ (∀ i, i ≠ ⟨coreEng n, q⟩ → (h.sfuIssue n q c next).qs i = h.qs i)
      ∧ ∃ f, (h.sfuIssue n q c next).qs ⟨coreEng n, q⟩ =
          { h.qs ⟨coreEng n, q⟩ with cmds := (h.qs ⟨coreEng n, q⟩).cmds.map (Cmd.withProg f) } := by
  have hstand {k : Hw} (hk : Hw.QueuesStand h k) : Hw.QRegs h k ∧ (∀ i, i ≠ ⟨coreEng n, q⟩ → k.qs i = h.qs i)
      ∧ ∃ f, k.qs ⟨coreEng n, q⟩ = { h.qs ⟨coreEng n, q⟩ with cmds := (h.qs ⟨coreEng n, q⟩).cmds.map (Cmd.withProg f) } := by
    refine ⟨hk.2, fun i _ => hk.1 i, (·.prog), ?_⟩
    rw [hk.1, show Cmd.withProg (·.prog) = id from rfl, List.map_id]
  unfold Hw.sfuIssue
  dsimp only
  split
  · exact hstand (.refl h)
  · split
    · exact hstand (h.beginLoad_stand _ _ _)
    · split
      · exact hstand (.refl h)
      · split
        · refine ⟨.of_regs rfl, fun i hi => h.updCmd_qs_other _ _ hi, fun x => if x.ptr = c.ptr then
            some (h.sfuRecord (queueMaster ⟨coreEng n, q⟩) n c) else x.prog, ?_⟩
          rw [Hw.draw_qs, Hw.updCmd_qs_same]
          have hmap : ∀ x : Cmd, (if x.ptr = c.ptr then { x with prog := some (h.sfuRecord (queueMaster ⟨coreEng n, q⟩) n c) } else x)
              = x.withProg fun x => if x.ptr = c.ptr then some (h.sfuRecord (queueMaster ⟨coreEng n, q⟩) n c) else x.prog := by
            intro x
            by_cases hp : x.ptr = c.ptr <;> simp [Cmd.withProg, hp]
          simp only [hmap]
        · exact hstand (h.beginLoad_stand _ _ _)

/-! ### An issue -/

theorem coreEng_val (n : Fin 48) : coreEng n.val = .core n := by simp [coreEng]

/-- A head that a check rejects. -/
theorem Hw.issueHead_rejects {h : Hw} {x : Head} (hcode : h.headCheck x ≠ 0) : h.issueHead x =
    ((h.issueReads x).setQs x.id { (h.issueReads x).qs x.id with ctx := x.ctx, grammar := x.grammar, reload := x.ctxBad }).reject x.id
      (BitVec.ofNat 32 (h.qIssue x.id)) (h.headCheck x) x.desc := by
  rw [Hw.issueHead]
  exact if_pos hcode

theorem Hw.semTake_stand (h : Hw) (core i : Nat) (hi : i < 16) : Hw.QueuesStand h (h.semTake core i) :=
  ⟨(h.setSem_regsOnly _ _ _).outside.qs, h.setSem_q _ _ _ hi⟩

theorem newCmd_takes (h : Hw) (x : Head) : ∀ t ∈ (h.newCmd x).takes, t.2 < 16 := by
  intro t ht
  unfold Hw.newCmd at ht
  dsimp only at ht
  split at ht
  · split at ht
    · rw [List.mem_singleton.mp ht]
      exact Nat.mod_lt _ (by decide)
    · cases ht
  · cases ht

/-- What a core's special-function unit adds to an issue. -/
def Hw.issueUnit (h : Hw) (x : Head) (c : Cmd) : Hw :=
  match x.id.eng with | .core n => h.sfuIssue n.val (Fin.ofNat 8 x.id.q) c x.next | .stage _ _ => h

/-- A head that passes every check, in parts: what it takes, the command joining the queue, and what follows. -/
theorem Hw.issueHead_issues {h : Hw} {x : Head} (hcode : h.headCheck x = 0) :
    ∃ g q, Hw.QueuesStand (h.issueReads x) g
      ∧ q.cmds = ((h.issueReads x).qs x.id).cmds ++ [(h.issueReads x).newCmd x] ∧ q.rejected = ((h.issueReads x).qs x.id).rejected
      ∧ Hw.QueuesStand (((g.setQs x.id q).qwr x.id 0x10 (h.qIssue x.id + 1)).issueUnit x ((h.issueReads x).newCmd x)) (h.issueHead x) := by
  obtain ⟨k, hk⟩ : ∃ k, k = h.issueHead x := ⟨_, rfl⟩
  rw [← hk]
  unfold Hw.issueHead at hk
  extract_lets id m ptr code h1 h2 h3 h4 q0 c h5 loads keep serial h6 q h7 h8 h9 h10 h11 at hk
  rw [if_neg (not_not_intro hcode)] at hk
  have hreads : h4 = h.issueReads x := rfl
  have htakes : Hw.QueuesStand h4 h5 := by
    refine List.foldlRecOn c.takes _ (motive := fun k => Hw.QueuesStand h4 k) (.refl h4) fun k hk t ht => hk.trans ?_
    exact k.semTake_stand _ _ (newCmd_takes h4 x t ht)
  have hserial : Hw.QueuesStand h5 h6 := .of_eq rfl rfl
  have hafter : Hw.QueuesStand h9 k := by
    rw [hk]
    exact ((h9.trace_stand _).trans (.ite _ (h10.trace_stand _))).trans (h11.breakAt_stand _ _)
  have hq : q = (h.issueReads x).qs x.id := (htakes.trans hserial).1 id
  let joined : QState := { q with
    cmds := q.cmds ++ [c], ctx := x.next, grammar := x.grammar, reload := false, held := none, moveHold := none
    ctxAddr := if loads then dSrc x.desc else q.ctxAddr, ctxSince := q.ctxSince || loads
    confirmed := q.confirmed ++ keep, headSince := h6.time }
  exact ⟨h6, joined, htakes.trans hserial, congrArg (fun q : QState => q.cmds ++ [c]) hq,
    (congrArg QState.rejected hq : q.rejected = _), hafter⟩

/-- A command as it was issued: what a unit that has given it a program leaves of it. -/
structure Head.Issued (h : Hw) (x : Head) (c : Cmd) : Prop where
  desc : c.desc = x.desc
  skipped : c.skipped = x.skip
  finished : c.finished = x.skip
  ptr : c.ptr = BitVec.ofNat 32 (h.qIssue x.id)
  sub : c.sub = h.submitterOf x.id (h.qIssue x.id)

theorem newCmd_issued {h g : Hw} {x : Head} (hg : Hw.QueuesStand h g) (hq : hasQueue x.id.eng x.id.q = true)
    (f : Cmd → Option (List Byte)) : Head.Issued h x ((g.newCmd x).withProg f) := by
  have hissue : g.qIssue x.id = h.qIssue x.id := hg.2.qrd 0x10 hq (by decide)
  refine ⟨rfl, rfl, rfl, ?_, ?_⟩
  · show BitVec.ofNat 32 (g.qIssue x.id) = _
    rw [hissue]
  · show g.submitterOf x.id (g.qIssue x.id) = _
    rw [hissue, Hw.submitterOf, hg.1, Hw.submitterOf]

/-- What the special-function unit's part of an issue leaves. -/
theorem Hw.issueUnit_progs (h : Hw) {x : Head} (c : Cmd) (hq : hasQueue x.id.eng x.id.q = true) :
    Hw.QRegs h (h.issueUnit x c) ∧ (∀ i, i ≠ x.id → (h.issueUnit x c).qs i = h.qs i)
      ∧ ∃ f, (h.issueUnit x c).qs x.id = { h.qs x.id with cmds := (h.qs x.id).cmds.map (Cmd.withProg f) } := by
  obtain ⟨⟨e, q⟩, d⟩ := x
  unfold Hw.issueUnit
  cases e with
  | core n =>
    have hlt : q < 8 := of_decide_eq_true hq
    have hid : (⟨coreEng n.val, (Fin.ofNat 8 q).val⟩ : QId) = ⟨.core n, q⟩ := by
      rw [coreEng_val, Fin.val_ofNat, Nat.mod_eq_of_lt hlt]
    have hprogs := h.sfuIssue_progs n.val (Fin.ofNat 8 q) c
    simp only [hid] at hprogs
    exact hprogs _
  | stage d u => exact ⟨.refl h, fun _ _ => rfl, (·.prog), by rw [show Cmd.withProg (·.prog) = id from rfl, List.map_id]⟩

/-- An issue: the command joins those issued, with ISSUE one on, and every other queue stands. -/
theorem Hw.issueHead_joins {h : Hw} {x : Head} (hcode : h.headCheck x = 0) (hq : hasQueue x.id.eng x.id.q = true) :
    let k := h.issueHead x
    (k.qs x.id).cmds.map (·.desc) = (h.qs x.id).cmds.map (·.desc) ++ [x.desc]
      ∧ (∃ c, (k.qs x.id).cmds.getLast? = some c ∧ Head.Issued h x c)
      ∧ k.qIssue x.id = (h.qIssue x.id + 1) % 0x100000000 ∧ (k.qs x.id).rejected = (h.qs x.id).rejected
      ∧ ∀ id, id ≠ x.id → k.qs id = h.qs id := by
  intro k
  obtain ⟨g, q, hg, hcmds, hrej, hk⟩ := Hw.issueHead_issues hcode
  have hreads := h.issueReads_stand x
  obtain ⟨hregs, hother, f, hself⟩ := ((g.setQs x.id q).qwr x.id 0x10 (h.qIssue x.id + 1)).issueUnit_progs ((h.issueReads x).newCmd x) hq
  rw [Hw.qwr_qs, Hw.qs_setQs_same] at hself
  rw [hreads.1] at hcmds hrej
  have hleft : (k.qs x.id).cmds = ((h.qs x.id).cmds ++ [(h.issueReads x).newCmd x]).map (Cmd.withProg f) := by
    rw [hk.1, hself]
    show q.cmds.map _ = _
    rw [hcmds]
  have hdesc : (Cmd.desc ∘ Cmd.withProg f) = Cmd.desc := rfl
  refine ⟨?_, ⟨((h.issueReads x).newCmd x).withProg f, ?_, newCmd_issued hreads hq f⟩, ?_, ?_, fun id hne => ?_⟩
  · rw [hleft, List.map_map, hdesc, List.map_append]
    rfl
  · rw [hleft, List.map_append, List.getLast?_append]
    rfl
  · rw [Hw.qIssue, hk.2.qrd 0x10 hq (by decide), hregs.qrd 0x10 hq (by decide), Hw.qrd_qwr_same]
  · rw [hk.1, hself]
    exact hrej
  · rw [hk.1, hother id hne, Hw.qwr_qs, Hw.qs_setQs_other _ _ hne, hg.1, hreads.1]

/-- A rejected head: the queue's rejection, with ISSUE as it stands, and every other queue stands. -/
theorem Hw.issueHead_rejected {h : Hw} {x : Head} (hcode : h.headCheck x ≠ 0) (hq : hasQueue x.id.eng x.id.q = true) :
    let k := h.issueHead x
    ((h.qs x.id).rejected = none → (k.qs x.id).rejected = some ⟨BitVec.ofNat 32 (h.qIssue x.id), h.headCheck x, x.desc⟩
      ∧ (k.qs x.id).cmds = (h.qs x.id).cmds ∧ k.qIssue x.id = h.qIssue x.id) ∧ ∀ id, id ≠ x.id → k.qs id = h.qs id := by
  intro k
  have hreads := h.issueReads_stand x
  let q : QState := { (h.issueReads x).qs x.id with ctx := x.ctx, grammar := x.grammar, reload := x.ctxBad }
  have hk : k = ((h.issueReads x).setQs x.id q).reject x.id (BitVec.ofNat 32 (h.qIssue x.id)) (h.headCheck x) x.desc :=
    Hw.issueHead_rejects hcode
  have hset : ((h.issueReads x).setQs x.id q).qs x.id = q := Hw.qs_setQs_same _ _ _
  refine ⟨fun hnone => ?_, fun id hne => ?_⟩
  · have hq0 : q.rejected = none := by
      show ((h.issueReads x).qs x.id).rejected = none
      rw [hreads.1, hnone]
    rw [hk, Hw.reject_first _ _ _ (by rw [hset, hq0]), Hw.qs_setQs_same, hset]
    refine ⟨rfl, ?_, hreads.2.qrd 0x10 hq (by decide)⟩
    show ((h.issueReads x).qs x.id).cmds = _
    rw [hreads.1]
  · rw [hk]
    have hreject (g : Hw) (p : Word) (code : Nat) (d : BitVec 512) : (g.reject x.id p code d).qs id = g.qs id := by
      unfold Hw.reject
      dsimp only
      split
      · split
        · exact Hw.qs_setQs_other _ _ hne
        · rfl
      · exact Hw.qs_setQs_other _ _ hne
    rw [hreject, Hw.qs_setQs_other _ _ hne, hreads.1]

/-- Settles O15: the branches of an issue, and what an issue and a rejection leave of the queues. -/
theorem commandIssues : Obligations.CommandIssues := by
  intro s e hup h ready
  have hexec : exec (.commandIssue e) s = .next { s with hw := commandIssue e s.hw } := by
    show execCommandIssue e s = _
    rw [execCommandIssue, State.onHw_up _ _ hup]
  have hfree (hfault : s.hw.headFault e = none) : commandIssue e s.hw =
      match h.arbitrate e ready with | none => h | some x => (h.issueHead x).worked := by
    rw [commandIssue, hfault] <;> rfl
  refine ⟨fun x hfault hgrant => ?issue, fun hfault hgrant => ?idle, fun id cause level va d hfault => ?fault⟩
  case issue =>
    obtain ⟨heng, hq⟩ := Hw.heads_id (List.mem_filter.mp (Hw.arbitrate_mem hgrant)).1
    rw [← heng] at hq
    refine ⟨h.issueHead x, ?_, rfl, fun hcode => ?_, fun hcode => (Hw.issueHead_rejected hcode hq).1, ?_⟩
    · rw [hexec, hfree hfault, hgrant]
    · obtain ⟨hdesc, ⟨c, hlast, hc⟩, hissue, hrej, -⟩ := Hw.issueHead_joins hcode hq
      exact ⟨hdesc, ⟨c, hlast, hc.desc, hc.skipped, hc.finished, hc.ptr, hc.sub⟩, hissue, hrej⟩
    · by_cases hcode : h.headCheck x = 0
      · exact (Hw.issueHead_joins hcode hq).2.2.2.2
      · exact (Hw.issueHead_rejected hcode hq).2
  case idle => rw [hexec, hfree hfault, hgrant]
  case fault =>
    rw [hexec, commandIssue, hfault]
    have heng : id.eng = e := by
      obtain ⟨q, -, hq⟩ := List.exists_of_findSome?_eq_some hfault
      split at hq
      · split at hq
        · cases hq
          rfl
        · cases hq
      · cases hq
    subst heng
    exact rfl

end Sys2Proof.Machine
end

section
/-! PROOF of O25: invalidation of translations, and service of translation faults (R88, R91, R92). -/

namespace Sys2Proof.Machine

open Sys2Proof.Claims

/-! ### Invalidation -/

theorem Hw.dropTlb_clears (h : Hw) (page pages : Nat) : ∀ e ∈ (h.dropTlb page pages).mmu.tlb, invalHits page pages e = false := by
  intro e he
  simpa using (List.mem_filter.mp he).2

theorem doorbell_mmu : ∀ m : Fin 4, doorbell (0x020 + m.val) 0x06C = false ∧ doorbell (0x020 + m.val) 0x05C = false := by
  decide +kernel

theorem invalidation : Invalidation := by
  refine ⟨fun s r m v ⟨hup, hclear, hacc⟩ => ?_, fun s m i hup hi => ?_⟩
  · intro page pages
    have hexec : exec (.tlbInvalidate r m v) s = .next { s with hw :=
        let h := if s.hw.invalBusy m.val then s.hw else s.hw.dropTlb page pages
        { h with mmu := { h.mmu with invals := h.mmu.invals ++ [⟨m.val, page, pages⟩] } } } := by
      show execTlbInvalidate r m v s = _
      rw [execTlbInvalidate, State.onHw_up _ _ hup, tlbInvalidate,
        Hw.guardWrite_accepted _ _ _ hclear hacc (doorbell_mmu m).1]
    refine ⟨_, hexec, ?_, fun hidle => ?_, ?_⟩
    · dsimp only
      split <;> rfl
    · rw [hidle]
      exact s.hw.dropTlb_clears page pages
    · dsimp only
      split <;> rfl
  · have hexec : exec (.invalidationDone m) s = .next { s with hw := invalidationDone m s.hw } := by
      show execInvalidationDone m s = _
      rw [execInvalidationDone, State.onHw_up _ _ hup]
    have hdone : invalidationDone m s.hw = Hw.raise
        (match (s.hw.mmu.invals.erase i).find? (fun j => j.slice = m.val) with
          | some j => Hw.dropTlb { s.hw.dropTlb i.page i.pages with mmu := { (s.hw.dropTlb i.page i.pages).mmu with
              invals := s.hw.mmu.invals.erase i } } j.page j.pages
          | none => { s.hw.dropTlb i.page i.pages with mmu := { (s.hw.dropTlb i.page i.pages).mmu with
              invals := s.hw.mmu.invals.erase i } }) (0x020 + m.val) 2 := by
      rw [invalidationDone, hi]
      rfl
    rw [hexec, hdone]
    refine ⟨_, rfl, ?_, ?_, ?_⟩
    · split <;> rfl
    · split
      · exact fun e he => s.hw.dropTlb_clears _ _ e (List.mem_filter.mp he).1
      · exact s.hw.dropTlb_clears _ _
    · split <;> rfl

/-! ### Fault service -/

/-- From `h` to `k` only queues, translations held, and prefetch streams differ. -/
def Hw.ReleaseOnly (h k : Hw) : Prop := k = { h with queues := k.queues, mmu := k.mmu, mig := k.mig }

theorem Hw.ReleaseOnly.refl (h : Hw) : Hw.ReleaseOnly h h := rfl
theorem Hw.ReleaseOnly.trans {a b c : Hw} (h : Hw.ReleaseOnly a b) (k : Hw.ReleaseOnly b c) : Hw.ReleaseOnly a c := by
  unfold Hw.ReleaseOnly at *
  rw [k, h]

/-- A queue that enters RUNNING raises nothing, and no master is held that was not. -/
theorem Hw.enterSt_running (h : Hw) (id : QId) :
    Hw.ReleaseOnly h (h.enterSt id .running) ∧ (h.enterSt id .running).mmu.held ⊆ h.mmu.held := by
  unfold Hw.enterSt
  dsimp only
  rw [if_neg (show ¬ ((h.qs id).st ≠ .running ∧ (QSt.running = .halted ∨ QSt.running = .faultHold ∨ QSt.running = .paused)) by simp)]
  constructor
  · rw [Hw.ite_mmu]
    rfl
  · rw [if_neg (show ¬ QSt.running = .faultHold by simp)]
    split
    · exact fun x hx => (List.mem_filter.mp hx).1
    · exact fun x hx => hx

/-- The queue runs if it is one of the unit's in FAULT_HOLD, which FAULT_CLEAR releases together. -/
def Hw.releaseQueue (id : Nat) (h : Hw) (q : QId) : Hw :=
  if (queueMaster q).kind = 2 ∧ (queueMaster q).id = id ∧ (h.qs q).st = .faultHold then h.enterSt q .running else h

/-- From `h` to `k` queues have been released: no master is newly held, and no queue has left its state but to run. -/
def Hw.Released (h k : Hw) : Prop :=
  Hw.ReleaseOnly h k ∧ k.mmu.held ⊆ h.mmu.held ∧ ∀ i, (k.qs i).st = (h.qs i).st ∨ (k.qs i).st = .running

theorem Hw.Released.refl (h : Hw) : Hw.Released h h := ⟨.refl h, fun _ hx => hx, fun _ => .inl rfl⟩
theorem Hw.Released.trans {a b c : Hw} (h : Hw.Released a b) (k : Hw.Released b c) : Hw.Released a c := by
  refine ⟨h.1.trans k.1, fun _ hx => h.2.1 (k.2.1 hx), fun i => ?_⟩
  obtain hk | hk := k.2.2 i
  · rw [hk]
    exact h.2.2 i
  · exact .inr hk

theorem Hw.enterSt_released (h : Hw) (id : QId) : Hw.Released h (h.enterSt id .running) := by
  obtain ⟨honly, hheld⟩ := h.enterSt_running id
  refine ⟨honly, hheld, fun i => ?_⟩
  by_cases hi : i = id
  · rw [hi, Hw.enterSt_qs_same]
    exact .inr rfl
  · rw [Hw.enterSt_qs_other _ _ hi]
    exact .inl rfl

theorem Hw.releaseQueue_released (id : Nat) (h : Hw) (q : QId) : Hw.Released h (h.releaseQueue id q) := by
  unfold Hw.releaseQueue
  split
  · exact h.enterSt_released q
  · exact .refl h

theorem Hw.releaseQueue_runs {id : Nat} {h : Hw} {q : QId} (hkind : (queueMaster q).kind = 2) (hid : (queueMaster q).id = id)
    (hst : (h.qs q).st = .faultHold ∨ (h.qs q).st = .running) : ((h.releaseQueue id q).qs q).st = .running := by
  unfold Hw.releaseQueue
  obtain hst | hst := hst
  · rw [if_pos ⟨hkind, hid, hst⟩, Hw.enterSt_qs_same]
    rfl
  · rw [if_neg (by simp [hst]), hst]

theorem releaseQueues_released (id : Nat) (qs : List QId) (h : Hw) : Hw.Released h (qs.foldl (Hw.releaseQueue id) h) := by
  induction qs generalizing h with
  | nil => exact .refl h
  | cons q qs ih => exact (h.releaseQueue_released id q).trans (ih _)

/-- Every queue of the unit that was in FAULT_HOLD, and is named, runs. -/
theorem releaseQueues_run {id : Nat} {q : QId} (hkind : (queueMaster q).kind = 2) (hid : (queueMaster q).id = id) (qs : List QId) (h : Hw)
    (hst : (h.qs q).st = .faultHold ∨ (h.qs q).st = .running) (hmem : q ∈ qs) : ((qs.foldl (Hw.releaseQueue id) h).qs q).st = .running := by
  induction qs generalizing h with
  | nil => cases hmem
  | cons p qs ih =>
    rw [List.foldl_cons]
    by_cases hp : q = p
    · subst hp
      have hrun := Hw.releaseQueue_runs hkind hid hst
      obtain hsame | hlater := (releaseQueues_released id qs (h.releaseQueue id q)).2.2 q
      · rw [hsame, hrun]
      · exact hlater
    · refine ih _ ?_ ((List.mem_cons.mp hmem).resolve_left hp)
      obtain hsame | hlater := (h.releaseQueue_released id p).2.2 q
      · rwa [hsame]
      · exact .inr hlater

theorem Hw.stream_setStream_same (h : Hw) (i : Nat) (t : Stream) : (h.setStream i t).stream i = t := by
  show (alGet i (alPut i t h.mig.streams)).getD {} = t
  rw [alGet_alPut_same]
  rfl

theorem Hw.stream_setStream_other (h : Hw) {i j : Nat} (t : Stream) (hne : j ≠ i) : (h.setStream i t).stream j = h.stream j := by
  show (alGet j (alPut i t h.mig.streams)).getD {} = (alGet j h.mig.streams).getD {}
  rw [alGet_alPut_other hne]

/-- A state in which the master that FAULT_CLEAR names is held no longer. -/
def Hw.unheld (h : Hw) (kind id : Nat) : Hw :=
  { h with mmu := { h.mmu with held := h.mmu.held.filter fun x => ¬ (x.kind = kind ∧ x.id = id) } }

theorem Hw.unheld_held (h : Hw) (kind id : Nat) : ∀ x ∈ (h.unheld kind id).mmu.held, ¬ (x.kind = kind ∧ x.id = id) :=
  fun _ hx => of_decide_eq_true (List.mem_filter.mp hx).2

theorem Hw.releaseMaster_held {h : Hw} {kind id : Nat} (hheld : ∃ x ∈ h.mmu.held, x.kind = kind ∧ x.id = id) :
    h.releaseMaster kind id =
      let g := h.unheld kind id
      let q : QId := ⟨coreEng (id / 8), id % 8⟩
      if kind = 0 then
        if (g.qs q).st = .faultHold then (g.enterSt q .running).setQs q { g.qs q with st := .running, headSince := g.time } else g
      else if kind = 2 then (g.queues.map (·.1)).foldl (Hw.releaseQueue id) g
      else if kind = 6 then g.drainOutside
      else if kind = 7 then g.setStream id { g.stream id with fault := false }
      else g := by
  have hany : (h.mmu.held.any fun x => decide (x.kind = kind ∧ x.id = id)) = true :=
    List.any_eq_true.mpr (by simpa using hheld)
  dsimp only
  rw [Hw.releaseMaster, hany, List.foldl_map]
  rfl

theorem Hw.releaseMaster_none {h : Hw} {kind id : Nat} (hnone : ∀ x ∈ h.mmu.held, ¬ (x.kind = kind ∧ x.id = id)) :
    h.releaseMaster kind id = h := by
  have hany : (h.mmu.held.any fun x => decide (x.kind = kind ∧ x.id = id)) = false :=
    List.any_eq_false.mpr (by simpa using hnone)
  rw [Hw.releaseMaster, hany]
  rfl

/-- FAULT_CLEAR of any other kind of master than a Leash port. -/
theorem Hw.releaseMaster_released {h : Hw} {kind id : Nat} (hheld : ∃ x ∈ h.mmu.held, x.kind = kind ∧ x.id = id) (hkind : kind ≠ 6) :
    Hw.ReleaseOnly h (h.releaseMaster kind id) ∧ (h.releaseMaster kind id).mmu.held ⊆ (h.unheld kind id).mmu.held := by
  have hfree : Hw.ReleaseOnly h (h.unheld kind id) := rfl
  rw [Hw.releaseMaster_held hheld]
  dsimp only
  split
  · split
    · obtain ⟨honly, hsub⟩ := (h.unheld kind id).enterSt_running ⟨coreEng (id / 8), id % 8⟩
      refine ⟨(hfree.trans honly).trans rfl, hsub⟩
    · exact ⟨hfree, fun _ hx => hx⟩
  · split
    · obtain ⟨honly, hsub, -⟩ := releaseQueues_released id ((h.unheld kind id).queues.map (·.1)) (h.unheld kind id)
      exact ⟨hfree.trans honly, hsub⟩
    · split
      · exact ⟨hfree.trans rfl, fun _ hx => hx⟩
      · exact ⟨hfree, fun _ hx => hx⟩

theorem exec_faultClear {s : State} {r : Req} {m : Fin 4} {v : Word} (hreach : Reaches s r (0x020 + m.val) 0x05C) :
    exec (.faultClear r m v) s = .next { s with hw := s.hw.releaseMaster (bitsOf v.toNat 19 16) (bitsOf v.toNat 15 0) } := by
  obtain ⟨hup, hclear, hacc⟩ := hreach
  show execFaultClear r m v s = _
  rw [execFaultClear, State.onHw_up _ _ hup, faultClear, Hw.guardWrite_accepted _ _ _ hclear hacc (doorbell_mmu m).2]

theorem exec_faultRecordWrite {s : State} {m : Fin 4} {x : PendRec} (hup : Up s)
    (hfind : s.hw.mmu.pend.find? (fun r => r.slice = m.val) = some x) :
    exec (.faultRecordWrite m) s = .next { s with hw :=
      (if s.hw.faultRingFull m.val || s.hw.mmu.blocked.contains m.val then s.hw
      else { s.hw with mmu := { s.hw.mmu with pend := s.hw.mmu.pend.erase x } }.writeFault m.val x.record) } := by
  show execFaultRecordWrite m s = _
  rw [execFaultRecordWrite, State.onHw_up _ _ hup, faultRecordWrite, hfind]

theorem faultService : FaultService := by
  refine ⟨fun s m x hup hfind => ⟨fun hring hblocked => ?_, fun hwait => ?_⟩, fun s r m v hreach => ?_⟩
  · rw [exec_faultRecordWrite hup hfind, hring, hblocked]
    rfl
  · rw [exec_faultRecordWrite hup hfind, if_pos (by simpa using hwait)]
  · intro kind id q
    refine ⟨fun hheld hkind => ?_, fun hheld hkind => ?_, fun hnone => ?_⟩
    · rw [exec_faultClear hreach, Hw.releaseMaster_held (by rwa [show bitsOf v.toNat 19 16 = 6 from hkind]),
        show bitsOf v.toNat 19 16 = 6 from hkind]
      rfl
    · obtain ⟨honly, hsub⟩ := Hw.releaseMaster_released hheld hkind
      refine ⟨_, exec_faultClear hreach, fun x hx => s.hw.unheld_held kind id x (hsub hx), by rw [honly], by rw [honly],
        fun hk hst => ?_, fun hk q' hq' hk' hid hst => ?_, fun hk => ?_⟩
      · have hst' : ((s.hw.unheld kind id).qs q).st = .faultHold := hst
        rw [Hw.releaseMaster_held hheld]
        dsimp only
        rw [if_pos hk, if_pos hst', Hw.qs_setQs_same]
      · rw [Hw.releaseMaster_held hheld]
        dsimp only
        rw [if_neg (show ¬ kind = 0 by omega), if_pos hk]
        exact releaseQueues_run hk' hid _ _ (.inl hst) hq'
      · rw [Hw.releaseMaster_held hheld]
        dsimp only
        rw [if_neg (show ¬ kind = 0 by omega), if_neg (show ¬ kind = 2 by omega), if_neg hkind, if_pos hk]
        rw [Hw.stream_setStream_same]
    · rw [exec_faultClear hreach, Hw.releaseMaster_none hnone]

/-- Settles O25. -/
theorem translationUpkeep : Obligations.TranslationUpkeep := ⟨invalidation, faultService⟩

end Sys2Proof.Machine
end

section
/-! PROOF of O26: scrub and refresh (R99, R100, R111), age stamps and scans (R109, R110). -/

namespace Sys2Proof.Machine

open Sys2Proof.Claims

/-! ### What the errors that a pass meets leave behind -/

/-- From `h` to `k` only what errors met leave behind differs: registers, poison, errors pending, counts of the lifetime image, and
interrupt edges. -/
def Hw.ErrorsOnly (h k : Hw) : Prop :=
  k = { h with regs := k.regs, poison := k.poison, upsets := k.upsets, life := k.life, pow := { h.pow with edges := k.pow.edges } }

theorem Hw.ErrorsOnly.refl (h : Hw) : Hw.ErrorsOnly h h := rfl
theorem Hw.ErrorsOnly.trans {a b c : Hw} (h : Hw.ErrorsOnly a b) (k : Hw.ErrorsOnly b c) : Hw.ErrorsOnly a c := by
  unfold Hw.ErrorsOnly at *
  rw [k, h]
theorem Hw.LinesOnly.errors {h k : Hw} (hk : Hw.LinesOnly h k) : Hw.ErrorsOnly h k := by
  unfold Hw.LinesOnly at hk
  unfold Hw.ErrorsOnly
  rw [hk]

theorem Hw.ErrorsOnly.mem {h k : Hw} (hk : Hw.ErrorsOnly h k) : k.mem = h.mem := by rw [hk]
theorem Hw.ErrorsOnly.flips {h k : Hw} (hk : Hw.ErrorsOnly h k) : k.flips = h.flips := by rw [hk]
theorem Hw.ErrorsOnly.queues {h k : Hw} (hk : Hw.ErrorsOnly h k) : k.queues = h.queues := by rw [hk]
theorem Hw.ErrorsOnly.time {h k : Hw} (hk : Hw.ErrorsOnly h k) : k.time = h.time := by rw [hk]
theorem Hw.ErrorsOnly.scrubAt {h k : Hw} (hk : Hw.ErrorsOnly h k) : k.scrubAt = h.scrubAt := by rw [hk]

theorem Hw.fold_errors {α : Type} (f : Hw → α → Hw) (hf : ∀ h a, Hw.ErrorsOnly h (f h a)) (l : List α) :
    ∀ h, Hw.ErrorsOnly h (l.foldl f h) := by
  induction l with
  | nil => intro h; exact .refl h
  | cons a l ih => intro h; exact (hf h a).trans (ih _)

theorem Hw.uncorrectable_errors (h : Hw) (u : Nat) : Hw.ErrorsOnly h (h.uncorrectable u) := by
  have hnear {g : Hw} (p d q n : Nat) (hg : Hw.ErrorsOnly h g) : Hw.ErrorsOnly h (((g.count p d).err p q cECC).raise p n) :=
    hg.trans (((g.count_regsOnly p d 1).lines.trans (Hw.err_regsOnly _ p q cECC).lines).trans (Hw.raise_lines _ p n)).errors
  unfold Hw.uncorrectable
  dsimp only
  split
  · exact hnear _ _ _ _ rfl
  · split
    · refine Hw.ErrorsOnly.trans ?_ ((Hw.err_regsOnly _ _ _ _).lines.trans (Hw.raise_lines _ _ _)).errors
      refine Hw.ErrorsOnly.trans (b := Hw.wr64 _ _ _ _) ?_ rfl
      refine Hw.ErrorsOnly.trans ?_ ((Hw.count_regsOnly _ _ _ _).lines.trans (Hw.wr64_regsOnly _ _ _ _ _).lines).errors
      rfl
    · rfl

theorem Hw.correctedRead_errors (h : Hw) (u : Nat) : Hw.ErrorsOnly h (h.correctedRead u) := by
  unfold Hw.correctedRead
  dsimp only
  split
  · exact Hw.ErrorsOnly.trans (b := { h with life := _ }) rfl (Hw.count_regsOnly _ _ _ _).lines.errors
  · split
    · exact (h.count_regsOnly _ _ _).lines.errors.trans rfl
    · exact .refl h

theorem Hw.uncorrectable_poison (h : Hw) (u : Nat) :
    (h.uncorrectable u).poison = if h.poison.contains u then h.poison else u :: h.poison := by
  unfold Hw.uncorrectable
  dsimp only
  split
  · rw [(Hw.raise_lines _ _ _).poison, (Hw.err_regsOnly _ _ _ _).lines.poison, (Hw.count_regsOnly _ _ _ _).lines.poison]
  · split
    · rw [(Hw.raise_lines _ _ _).poison, (Hw.err_regsOnly _ _ _ _).lines.poison]
      dsimp only
      rw [(Hw.wr64_regsOnly _ _ _ _ _).lines.poison, (Hw.count_regsOnly _ _ _ _).lines.poison]
    · rfl

/-! ### A pass over one channel -/

/-- A line of the pass that cannot be corrected: reported once. -/
def Hw.scrubLine (h : Hw) (u : Nat) : Hw := if h.poison.contains u then h else h.uncorrectable u

/-- The pass over the lines of channel `ch` that cannot be corrected. -/
def Hw.scrubPoison (h : Hw) (ch : Nat) (bad : List Nat) : Hw :=
  (onChannel ch ((bad.map fun a => memKey 1 (a / 64 * 64)) ++ h.upsets)).foldl Hw.scrubLine h

/-- The pass over the lines of channel `ch` that can. -/
def Hw.scrubMend (h : Hw) (ch : Nat) : Hw :=
  { ((onChannel ch h.flips).filter fun u => !h.poison.contains u).foldl Hw.correctedRead h with
      flips := h.flips.filter fun u => !(onChannel ch h.flips).contains u }

theorem Hw.scrubLine_errors (h : Hw) (u : Nat) : Hw.ErrorsOnly h (h.scrubLine u) := by
  unfold Hw.scrubLine
  split
  · exact .refl h
  · exact h.uncorrectable_errors u

theorem Hw.scrubLine_poison (h : Hw) (u : Nat) : u ∈ (h.scrubLine u).poison ∧ h.poison ⊆ (h.scrubLine u).poison := by
  unfold Hw.scrubLine
  split
  · rename_i hin
    exact ⟨List.contains_iff_mem.mp hin, List.Subset.refl _⟩
  · rename_i hout
    rw [Hw.uncorrectable_poison, if_neg hout]
    exact ⟨List.mem_cons_self .., List.subset_cons_self _ _⟩

theorem scrubLines_poison (us : List Nat) (h : Hw) :
    (∀ u ∈ us, u ∈ (us.foldl Hw.scrubLine h).poison) ∧ h.poison ⊆ (us.foldl Hw.scrubLine h).poison := by
  induction us generalizing h with
  | nil => exact ⟨fun u hu => absurd hu List.not_mem_nil, List.Subset.refl _⟩
  | cons u us ih =>
    obtain ⟨hin, hsub⟩ := ih (h.scrubLine u)
    obtain ⟨hu, hkeep⟩ := h.scrubLine_poison u
    refine ⟨fun w hw => ?_, fun w hw => hsub (hkeep hw)⟩
    obtain rfl | hw := List.mem_cons.mp hw
    · exact hsub hu
    · exact hin w hw

theorem Hw.wr64_keeps {K : Nat → Prop} (h : Hw) {p o : Nat} (v : Nat) (hlo : ¬ K (regKey (p * 0x1000 + o) 0))
    (hhi : ¬ K (regKey (p * 0x1000 + (o + 4)) 0)) : Hw.Keeps K h (h.wr64 p o v) :=
  (h.wr_keeps _ hlo).trans (Hw.wr_keeps _ _ hhi)

/-- An LPDDR6 error moves no CORRECTED counter. -/
theorem Hw.uncorrectable_corrected (h : Hw) {u p : Nat} (c : Nat) (hu : u / 0x10000000000000 = 1) (hp : p ≠ 4) (hc : c < 8) :
    (h.uncorrectable u).rd p (0x050 + 0x10 * c) = h.rd p (0x050 + 0x10 * c) := by
  have hpage : pageOfOff (p * 0x1000 + (0x050 + 0x10 * c)) ≠ 4 := by unfold pageOfOff; omega
  have hirq : NoIrq fun x => x = regKey (p * 0x1000 + (0x050 + 0x10 * c)) 0 :=
    noIrq_of_page fun k hk => hk ▸ regKey_page_ne_irq 0 hpage
  have hout (p' : Nat) {o : Nat} (ho : o < 0x1000) (hne : o ≠ 0x050 + 0x10 * c) :
      ¬ regKey (p' * 0x1000 + o) 0 = regKey (p * 0x1000 + (0x050 + 0x10 * c)) 0 := regKey_ne_of_inPage 0 0 (by omega)
  refine Hw.Keeps.rd (K := fun x => x = regKey (p * 0x1000 + (0x050 + 0x10 * c)) 0) ?_ rfl
  unfold Hw.uncorrectable
  dsimp only
  rw [if_neg (by omega), if_pos hu]
  refine Hw.Keeps.trans ?_ (Hw.raise_keeps _ 0 hirq (hout _ (by omega) (by omega)) (hout _ (by omega) (by omega)))
  refine Hw.Keeps.trans ?_ (Hw.err_keeps _ _ _ _ (hout _ (by omega) (by omega)))
  refine Hw.Keeps.trans (b := Hw.wr64 _ _ _ _) ?_ (.of_regs rfl)
  refine Hw.Keeps.trans ?_ (Hw.wr64_keeps _ _ (hout _ (by omega) (by omega)) (hout _ (by omega) (by omega)))
  refine Hw.Keeps.trans ?_ (Hw.count_keeps _ 1 (hout _ (by omega) (by omega)))
  exact .of_regs rfl

theorem Hw.scrubPoison_corrected (h : Hw) {p ch : Nat} (c : Nat) (bad : List Nat) (hp : p ≠ 4) (hc : c < 8) :
    (h.scrubPoison ch bad).rd p (0x050 + 0x10 * c) = h.rd p (0x050 + 0x10 * c) := by
  unfold Hw.scrubPoison
  refine List.foldlRecOn (motive := fun k : Hw => k.rd p (0x050 + 0x10 * c) = h.rd p (0x050 + 0x10 * c)) _ _ rfl fun k hk u hu => ?_
  obtain ⟨-, hchan⟩ := List.mem_filter.mp hu
  have hspace : u / 0x10000000000000 = 1 := by
    rw [Bool.and_eq_true, beq_iff_eq] at hchan
    exact hchan.1
  unfold Hw.scrubLine
  split
  · exact hk
  · rw [Hw.uncorrectable_corrected k c hspace hp hc, hk]

theorem Hw.scrubDue_iff (h : Hw) (k ch : Nat) : h.scrubDue k ch = true ↔ h.enabled (0x030 + k) = true ∧ h.present (0x030 + k) = true
    ∧ h.rd (0x030 + k) 0x040 ≠ 0 ∧ h.scrubbed ch + h.rd (0x030 + k) 0x040 * 3600000000000 ≤ h.time := by
  simp [Hw.scrubDue, and_assoc]

/-- The pass before it raises its source. -/
def Hw.scrubPass (h : Hw) (k c n : Nat) (bad : List Nat) : Hw :=
  let ch := 8 * k + c
  let g := ((h.scrubPoison ch bad).scrubMend ch).count (0x030 + k) (0x050 + 0x10 * c) n
  { g with life := g.life.bump (0x140 + 8 * ch) n, scrubAt := smSet 0 ch g.time g.scrubAt }

theorem Hw.scrubPoison_errors (h : Hw) (ch : Nat) (bad : List Nat) : Hw.ErrorsOnly h (h.scrubPoison ch bad) :=
  Hw.fold_errors _ Hw.scrubLine_errors _ h

theorem Hw.scrubMend_errors (h : Hw) (ch : Nat) : ∃ g, Hw.ErrorsOnly h g
    ∧ h.scrubMend ch = { g with flips := h.flips.filter fun u => !(onChannel ch h.flips).contains u } :=
  ⟨_, Hw.fold_errors _ Hw.correctedRead_errors _ h, rfl⟩

theorem exec_scrub {s : State} (k : Fin 16) (c : Fin 8) (n : Nat) (bad : List Nat) (hup : Up s) : exec (.scrub k c n bad) s =
    .next { s with hw := (if !s.hw.scrubDue k.val (8 * k.val + c.val) then s.hw
      else (s.hw.scrubPass k.val c.val n bad).raise (0x030 + k.val) 2) } := by
  show execScrub k c n bad s = _
  rw [execScrub, State.onHw_up _ _ hup]
  rfl

theorem Hw.scrubMend_none {h : Hw} {ch : Nat} (hnone : onChannel ch h.flips = []) : (h.scrubMend ch).regs = h.regs := by
  unfold Hw.scrubMend
  rw [hnone]
  rfl

theorem Hw.scrubMend_poison (h : Hw) (ch : Nat) : (h.scrubMend ch).poison = h.poison := by
  unfold Hw.scrubMend
  refine List.foldlRecOn (motive := fun k : Hw => k.poison = h.poison) _ _ rfl fun k hk u _ => ?_
  rw [← hk]
  unfold Hw.correctedRead
  dsimp only
  split
  · rfl
  · split <;> rfl

theorem Hw.scrubPass_poison (h : Hw) (k c n : Nat) (bad : List Nat) :
    ∀ u ∈ onChannel (8 * k + c) ((bad.map fun a => memKey 1 (a / 64 * 64)) ++ h.upsets), u ∈ (h.scrubPass k c n bad).poison := by
  intro u hu
  have hpoison : (h.scrubPass k c n bad).poison = (h.scrubPoison (8 * k + c) bad).poison := by
    unfold Hw.scrubPass
    dsimp only
    rw [(Hw.count_regsOnly _ _ _ _).lines.poison, Hw.scrubMend_poison]
  rw [hpoison]
  exact (scrubLines_poison _ h).1 u hu

theorem Hw.scrubPass_stands (h : Hw) (k c n : Nat) (bad : List Nat) : (h.scrubPass k c n bad).scrubbed (8 * k + c) = h.time
    ∧ (h.scrubPass k c n bad).mem = h.mem ∧ (h.scrubPass k c n bad).queues = h.queues := by
  obtain ⟨g, hg⟩ : ∃ g, g = ((h.scrubPoison (8 * k + c) bad).scrubMend (8 * k + c)).count (0x030 + k) (0x050 + 0x10 * c) n := ⟨_, rfl⟩
  have hstands : g.mem = h.mem ∧ g.queues = h.queues ∧ g.time = h.time := by
    have hpoison := h.scrubPoison_errors (8 * k + c) bad
    obtain ⟨m, hm, hmend⟩ := (h.scrubPoison (8 * k + c) bad).scrubMend_errors (8 * k + c)
    have hgone := hpoison.trans hm
    have hcount := (Hw.count_regsOnly ((h.scrubPoison (8 * k + c) bad).scrubMend (8 * k + c)) (0x030 + k) (0x050 + 0x10 * c) n).lines
    rw [← hg, hmend] at hcount
    exact ⟨hcount.mem.trans hgone.mem, hcount.queues.trans hgone.queues, hcount.time.trans hgone.time⟩
  obtain ⟨hmem, hqueues, htime⟩ := hstands
  unfold Hw.scrubPass
  dsimp only
  rw [← hg]
  exact ⟨(smGet_smSet_same _ _ _ _).trans htime, hmem, hqueues⟩

theorem Hw.scrubPass_corrected {h : Hw} {k : Nat} (c n : Nat) (bad : List Nat) (hc : c < 8) (hnone : onChannel (8 * k + c) h.flips = []) :
    (h.scrubPass k c n bad).rd (0x030 + k) (0x050 + 0x10 * c) = min (h.rd (0x030 + k) (0x050 + 0x10 * c) + n) 0xFFFFFFFF := by
  have hflips : onChannel (8 * k + c) (h.scrubPoison (8 * k + c) bad).flips = [] := by rw [(h.scrubPoison_errors _ bad).flips, hnone]
  have hbefore : ((h.scrubPoison (8 * k + c) bad).scrubMend (8 * k + c)).rd (0x030 + k) (0x050 + 0x10 * c)
      = h.rd (0x030 + k) (0x050 + 0x10 * c) := by
    rw [Hw.rd_of_regs (Hw.scrubMend_none hflips), Hw.scrubPoison_corrected h c bad (by omega) hc]
  show (Hw.count _ (0x030 + k) (0x050 + 0x10 * c) n).rd (0x030 + k) (0x050 + 0x10 * c) = _
  rw [Hw.count, Hw.rd_wr_same, hbefore]
  omega

theorem mem_onChannel_lpddr {ch a : Nat} (us : List Nat) (ha : a < 0x10000000000000) (hch : lpChannel (a / 64 * 64) = ch)
    {bad : List Nat} (hbad : a ∈ bad) : memKey 1 (a / 64 * 64) ∈ onChannel ch ((bad.map fun a => memKey 1 (a / 64 * 64)) ++ us) := by
  have hkey : memKey 1 (a / 64 * 64) / 0x10000000000000 = 1 ∧ memKey 1 (a / 64 * 64) % 0x10000000000000 = a / 64 * 64 := by
    unfold memKey
    omega
  refine List.mem_filter.mpr ⟨List.mem_append_left _ (List.mem_map.mpr ⟨a, hbad, rfl⟩), ?_⟩
  rw [hkey.1, hkey.2, hch]
  simp

/-! ### Refresh -/

/-- The controller's registers after a device of channel `c` has told its temperature. -/
def Hw.refreshed (h : Hw) (k c : Nat) (temp : BitVec 8) : Hw :=
  let p := 0x030 + k
  (h.wr p 0x048 (toSigned 8 ((h.devTemps (8 * k) 8).foldl max temp.toInt))).setBit p 0x044 (8 + c)
    ((h.devTemps (8 * k + c) 1).any fun t => decide (85 ≤ t))

theorem putBit_testBit_same (v n : Nat) (b : Bool) : (putBit v n b).testBit n = b := by
  unfold putBit
  cases b
  · by_cases hbit : v.testBit n
    · have hodd : v / 2 ^ n % 2 = 1 := by rwa [Nat.testBit_eq_decide_div_mod_eq, decide_eq_true_eq] at hbit
      have hless : (v - 2 ^ n) / 2 ^ n = v / 2 ^ n - 1 := by simpa using Nat.sub_mul_div v (2 ^ n) 1
      rw [if_neg (by decide), if_pos hbit, Nat.testBit_eq_decide_div_mod_eq, hless]
      exact decide_eq_false (by omega)
    · simp [hbit]
  · simp

theorem Hw.bit_setBit_same (h : Hw) (p o : Nat) {n : Nat} (b : Bool) (hn : n < 32) : (h.setBit p o n b).bit p o n = b := by
  have hword : (0x100000000 : Nat) = 2 ^ 32 := by norm_num
  rw [Hw.bit, Hw.setBit, Hw.rd_wr_same, hword, Nat.testBit_mod_two_pow, putBit_testBit_same]
  simp [hn]

/-- A source that is raised is pending on its page. -/
theorem Hw.raise_pending (h : Hw) {p n : Nat} (hirq : p ≠ 4) (hn : n < 32) : (h.raise p n).bit p 0x010 n = true := by
  have hpage : pageOfOff (p * 0x1000 + 0x010) ≠ 4 := by unfold pageOfOff; omega
  have hkeep := Hw.watch_keeps_after (h := h) (p := p) (f := fun h => (h.setBit p 0x010 n true).setBit p 0x018 n true)
    (K := fun x => x = regKey (p * 0x1000 + 0x010) 0) (noIrq_of_page fun k hk => hk ▸ regKey_page_ne_irq 0 hpage)
  have hraise : (h.raise p n).rd p 0x010 = ((h.setBit p 0x010 n true).setBit p 0x018 n true).rd p 0x010 := hkeep.rd rfl
  rw [Hw.bit, hraise, Hw.setBit, Hw.rd_wr_other _ _ (regKey_ne_of_inPage 0 0 (by omega)), ← Hw.bit, Hw.bit_setBit_same _ _ _ _ hn]

theorem refreshDoubled_eq (k : Fin 16) (c : Fin 8) (read : DeviceTemp) (h : Hw) : refreshDoubled k c read h =
    let g : Hw := { h with temps := alPut (256 * (8 * k.val + c.val) + read.dev.val) read.temp h.temps }
    if ((g.devTemps (8 * k.val + c.val) 1).any fun t => decide (85 ≤ t)) && !g.bit (0x030 + k.val) 0x044 (8 + c.val)
    then (g.refreshed k.val c.val read.temp).raise (0x030 + k.val) 1 else g.refreshed k.val c.val read.temp := rfl

theorem Hw.refreshed_lines (h : Hw) (k c : Nat) (temp : BitVec 8) : Hw.LinesOnly h (h.refreshed k c temp) :=
  (h.wr_regsOnly _ _ _ _).lines.trans (Hw.setBit_regsOnly _ _ _ _ _).lines

theorem Hw.refreshed_temp (h : Hw) (k c : Nat) (temp : BitVec 8) : (h.refreshed k c temp).rd (0x030 + k) 0x048
    = toSigned 8 ((h.devTemps (8 * k) 8).foldl max temp.toInt) := by
  have hbyte : toSigned 8 ((h.devTemps (8 * k) 8).foldl max temp.toInt) < 0x100000000 := by unfold toSigned; omega
  unfold Hw.refreshed
  dsimp only
  rw [Hw.setBit, Hw.rd_wr_other _ _ (regKey_ne_of_inPage 0 0 (by omega)), Hw.rd_wr_same, Nat.mod_eq_of_lt hbyte]

theorem Hw.refreshed_hot (h : Hw) (k : Nat) {c : Nat} (temp : BitVec 8) (hc : c < 8) :
    (h.refreshed k c temp).bit (0x030 + k) 0x044 (8 + c) = (h.devTemps (8 * k + c) 1).any fun t => decide (85 ≤ t) :=
  Hw.bit_setBit_same _ _ _ _ (by omega)

/-- A raised source moves neither LPC_TEMP nor the refresh bits. -/
theorem Hw.raise_rd_other (h : Hw) {p n o : Nat} (hirq : p ≠ 4) (hlow : 0x020 ≤ o) (ho : o < 0x1000) :
    (h.raise p n).rd p o = h.rd p o := by
  have hpage : pageOfOff (p * 0x1000 + o) ≠ 4 := by unfold pageOfOff; omega
  exact (h.raise_keeps (K := fun x => x = regKey (p * 0x1000 + o) 0) n (noIrq_of_page fun k hk => hk ▸ regKey_page_ne_irq 0 hpage)
    (regKey_ne_of_inPage 0 0 (by omega)) (regKey_ne_of_inPage 0 0 (by omega))).rd rfl

theorem scrubAndRefresh : ScrubAndRefresh := by
  refine ⟨fun s k c n bad hup => ?scrub, fun s k c dev temp hup => ?refresh⟩
  case scrub =>
    intro p ch due
    rw [exec_scrub k c n bad hup]
    refine ⟨fun hnot => ?_, fun hdue => ?_⟩
    · have hoff : s.hw.scrubDue k.val (8 * k.val + c.val) = false :=
        Bool.eq_false_iff.mpr fun h => hnot ((s.hw.scrubDue_iff _ _).mp h)
      rw [hoff]
      rfl
    · have hon : s.hw.scrubDue k.val (8 * k.val + c.val) = true := (s.hw.scrubDue_iff _ _).mpr hdue
      obtain ⟨hat, hmem, hqueues⟩ := s.hw.scrubPass_stands k.val c.val n bad
      refine ⟨s.hw.scrubPass k.val c.val n bad, ?_, fun hnone => Hw.scrubPass_corrected _ _ _ c.isLt hnone, fun a hbad ha hch => ?_,
        fun u hu => ?_, hat, hmem, hqueues⟩
      · rw [hon]
        rfl
      · exact s.hw.scrubPass_poison _ _ n bad _ (mem_onChannel_lpddr _ ha hch hbad)
      · refine s.hw.scrubPass_poison _ _ n bad u ?_
        obtain ⟨hin, hchan⟩ := List.mem_filter.mp hu
        exact List.mem_filter.mpr ⟨List.mem_append_right _ hin, hchan⟩
  case refresh =>
    intro p ch read hot
    have hp : p ≠ 4 := by omega
    have hlines : Hw.LinesOnly read (refreshDoubled k c ⟨dev, temp⟩ s.hw) := by
      rw [refreshDoubled_eq]
      dsimp only
      split
      · exact (Hw.refreshed_lines _ _ _ _).trans (Hw.raise_lines _ _ _)
      · exact Hw.refreshed_lines _ _ _ _
    have hsame (o : Nat) (hlow : 0x020 ≤ o) (ho : o < 0x1000) :
        (refreshDoubled k c ⟨dev, temp⟩ s.hw).rd p o = (read.refreshed k.val c.val temp).rd p o := by
      rw [refreshDoubled_eq]
      dsimp only
      split
      · exact Hw.raise_rd_other _ hp hlow ho
      · rfl
    refine ⟨{ s with hw := refreshDoubled k c ⟨dev, temp⟩ s.hw }, ?_, ?_, ?_, ?_, fun hhot hwas => ?_⟩
    · show execRefreshDoubled k c ⟨dev, temp⟩ s = _
      rw [execRefreshDoubled, State.onHw_up _ _ hup]
    · exact congrArg (fun g : Hw => { s with hw := g }) hlines
    · exact (hsame 0x048 (by omega) (by omega)).trans (read.refreshed_temp k.val c.val temp)
    · exact (congrArg (Nat.testBit · (8 + c.val)) (hsame 0x044 (by omega) (by omega))).trans (read.refreshed_hot k.val temp c.isLt)
    · have hraise : refreshDoubled k c ⟨dev, temp⟩ s.hw = (read.refreshed k.val c.val temp).raise p 1 := by
        rw [refreshDoubled_eq]
        refine if_pos (show (hot && !s.hw.bit p 0x044 (8 + c.val)) = true from ?_)
        rw [hhot, hwas]
        rfl
      dsimp only
      rw [hraise]
      exact Hw.raise_pending _ hp (by omega)

/-! ### Ages and scans -/

theorem doorbell_scan : doorbell 0x025 0x05C = false := by decide +kernel

theorem exec_scan {s : State} {r : Req} {v : Word} (hreach : Reaches s r 0x025 0x05C) : exec (.scan r v) s = .next { s with hw :=
    (if (s.hw.wr 0x025 0x05C (bitsOf v.toNat 1 1 * 2)).scanning then s.hw.wr 0x025 0x05C (bitsOf v.toNat 1 1 * 2)
    else (s.hw.wr 0x025 0x05C (bitsOf v.toNat 1 1 * 2)).startScan (bitsOf v.toNat 1 1)) } := by
  obtain ⟨hup, hclear, hacc⟩ := hreach
  show execScan r v s = _
  rw [execScan, State.onHw_up _ _ hup, scanStart, Hw.guardWrite_accepted _ _ _ hclear hacc doorbell_scan]

theorem Hw.enabled_scan (h : Hw) (v : Nat) : (h.wr 0x025 0x05C v).enabled 0x025 = h.enabled 0x025 := by
  have hbit : (h.wr 0x025 0x05C v).bit 0x025 0x008 0 = h.bit 0x025 0x008 0 := by
    rw [Hw.bit, Hw.rd_wr_other _ _ (regKey_ne_of_inPage 0 0 (by omega)), Hw.bit]
  unfold Hw.enabled
  rw [show blockOf 0x025 = some (.tier, 0) by decide]
  dsimp only
  rw [hbit]

theorem exec_ageRefresh {s : State} (hup : Up s) : exec .ageRefresh s = .next { s with hw := ageRefresh s.hw } := by
  show execAgeRefresh s = _
  rw [execAgeRefresh, State.onHw_up _ _ hup]

theorem ageRefresh_ends (s : State) (hup : Up s) :
    let per := s.hw.rd 0x025 0x058
    (per ≠ 0 → s.hw.enabled 0x025 = true → s.hw.mig.lastAge + per * 0x1000000 ≤ s.hw.time →
      ∃ k : Hw, exec .ageRefresh s = .next { s with hw := k }
        ∧ (∀ e ∈ k.mmu.tlb, ptePool e.pte.toNat = false) ∧ k.mig.lastAge = s.hw.time
        ∧ k = { s.hw with mmu := { s.hw.mmu with tlb := k.mmu.tlb }, mig := { s.hw.mig with lastAge := k.mig.lastAge } })
    ∧ (per = 0 ∨ s.hw.enabled 0x025 = false ∨ s.hw.time < s.hw.mig.lastAge + per * 0x1000000 → exec .ageRefresh s = .next s) := by
  intro per
  refine ⟨fun hper hon hdue => ⟨_, exec_ageRefresh hup, ?_⟩, fun hwait => ?_⟩
  · have hdue' : ¬ (per = 0 ∨ s.hw.enabled 0x025 = false ∨ s.hw.time < s.hw.mig.lastAge + per * 0x1000000) := by
      simp [hper, hon, hdue]
    unfold ageRefresh
    dsimp only
    rw [if_neg hdue']
    exact ⟨fun e he => by simpa using (List.mem_filter.mp he).2, rfl, rfl⟩
  · rw [exec_ageRefresh hup, ageRefresh]
    dsimp only
    rw [if_pos hwait]

/-- The entries that a scan writes change memory alone. -/
theorem scanOut_stands (out t : Nat) (xs : List (Nat × Nat)) (h : Hw) :
    let g := xs.foldl (fun (h : Hw) (x : Nat × Nat) => h.storeTier (out + 8 * x.2) (leBytes 8 (x.1 * 0x10000 + t))) h
    g.regs = h.regs ∧ g.queues = h.queues := by
  refine List.foldlRecOn (motive := fun g : Hw => g.regs = h.regs ∧ g.queues = h.queues) _ _ ⟨rfl, rfl⟩ fun g hg x _ => ?_
  unfold Hw.storeTier
  split
  · exact hg
  · exact hg

theorem exec_scanDone {s : State} (hup : Up s) : exec .scanDone s = .next { s with hw := scanDone s.hw } := by
  show execScanDone s = _
  rw [execScanDone, State.onHw_up _ _ hup]

theorem agesAndScans : AgesAndScans := by
  refine ⟨ageRefresh_ends, fun s r v hreach => ?start, fun s t hup hbusy => ?done⟩
  case start =>
    intro h t
    rw [exec_scan hreach, show h.scanning = s.hw.scanning from rfl, Hw.startScan, Hw.enabled_scan]
    refine ⟨fun hscan => ?_, fun hscan hon => ?_, fun hscan hoff => ?_⟩
    · rw [hscan]
      rfl
    · rw [hscan, hon]
      rfl
    · rw [hscan, hoff]
      rfl
  case done =>
    intro base all found out
    have hout := scanOut_stands out t (found.zipIdx 0) s.hw
    obtain ⟨g, hg⟩ : ∃ g, g = (found.zipIdx 0).foldl
        (fun (h : Hw) (x : Nat × Nat) => h.storeTier (out + 8 * x.2) (leBytes 8 (x.1 * 0x10000 + t))) s.hw := ⟨_, rfl⟩
    have hdone : ∃ near lp, scanDone s.hw =
        (Hw.wr { g with mig := { g.mig with scanBusy := none, scanNear := near, scanLp := lp } } 0x025 0x070 found.length).raise 0x025 0 := by
      rw [hg, scanDone, hbusy]
      exact ⟨_, _, rfl⟩
    obtain ⟨near, lp, hdone⟩ := hdone
    rw [exec_scanDone hup, hdone]
    refine ⟨{ g with mig := { g.mig with scanBusy := none, scanNear := near, scanLp := lp } }, rfl, rfl, ?_, ?_, ?_⟩
    · rw [hg]
    · rw [hg]
      exact hout.1
    · rw [hg]
      exact hout.2

/-- Settles O26: a pass by what its reports leave, a scan by the entries it writes. -/
theorem tierUpkeep : Obligations.TierUpkeep := ⟨scrubAndRefresh, agesAndScans⟩

end Sys2Proof.Machine
end

section
/-! PROOF of O27: migration requests, charges and releases (R101, R104, R108, R521). -/

namespace Sys2Proof.Machine

open Sys2Proof.Claims

theorem doorbell_mreqTail : doorbell 0x024 0x04C = false := by decide +kernel

theorem exec_mreqTailWrite {s : State} {r : Req} {v : Word} (hreach : Reaches s r 0x024 0x04C) :
    exec (.mreqTailWrite r v) s = .next { s with
      hw := if ptrSub v.toNat (s.hw.rd 0x024 0x050) ≤ 2 ^ s.hw.rd 0x024 0x048 then s.hw.wr 0x024 0x04C v.toNat
        else s.hw.badAccess (pageOff 0x024 0x04C) } := by
  obtain ⟨hup, hclear, hacc⟩ := hreach
  show execMreqTailWrite r v s = _
  rw [execMreqTailWrite, State.onHw_up _ _ hup, mreqTailWrite, Hw.guardWrite_accepted _ _ _ hclear hacc doorbell_mreqTail]

/-! ### The request at the head -/

/-- What becomes of the request `w` at the ring's head. -/
def Hw.takeReq (h : Hw) (head : Nat) (w : List Byte) : Hw :=
  let g := h.wr 0x024 0x050 (head + 1)
  if (reqOp w ≠ 1 ∧ reqOp w ≠ 2 ∧ reqOp w ≠ 3) ∨ !reqClean w then g.finishReq head w 8 0
  else if reqPages w = 0 then g.finishReq head w 1 0
  else if reqOp w = 1 then
    if h.rd 0x024 0x054 ≤ h.mig.moves.length then h
    else { g with mig := { g.mig with moves := g.mig.moves ++ [{ slot := head, req := w }] } }
  else { g with mig := { g.mig with taken := g.mig.taken ++ [(head, w)] } }

theorem exec_migrationRequest {s : State} (hup : Up s) (hon : s.hw.enabled 0x024 = true)
    (hwaits : s.hw.rd 0x024 0x050 ≠ s.hw.rd 0x024 0x04C) (htier : inTier (s.hw.mreqKey (s.hw.rd 0x024 0x050)) 32 = true) :
    exec .migrationRequest s = .next { s with
      hw := s.hw.takeReq (s.hw.rd 0x024 0x050) (s.hw.bytes (s.hw.mreqKey (s.hw.rd 0x024 0x050)) 32) } := by
  show execMigrationRequest s = _
  rw [execMigrationRequest, State.onHw_up _ _ hup, migrationRequest, hon, htier, beq_eq_false_iff_ne.mpr hwaits]
  rfl

theorem Hw.takeReq_malformed {h : Hw} {w : List Byte} (head : Nat) (hbad : reqOp w ∉ [1, 2, 3] ∨ reqClean w = false) :
    h.takeReq head w = (h.wr 0x024 0x050 (head + 1)).finishReq head w 8 0 :=
  if_pos (by simpa using hbad)

section
variable {h : Hw} {w : List Byte} (head : Nat) (hop : reqOp w ∈ [1, 2, 3]) (hclean : reqClean w = true)
include hop hclean

theorem Hw.takeReq_wellFormed : h.takeReq head w =
    let g := h.wr 0x024 0x050 (head + 1)
    if reqPages w = 0 then g.finishReq head w 1 0
    else if reqOp w = 1 then
      if h.rd 0x024 0x054 ≤ h.mig.moves.length then h
      else { g with mig := { g.mig with moves := g.mig.moves ++ [{ slot := head, req := w }] } }
    else { g with mig := { g.mig with taken := g.mig.taken ++ [(head, w)] } } := by
  have hgood : ¬ ((reqOp w ≠ 1 ∧ reqOp w ≠ 2 ∧ reqOp w ≠ 3) ∨ !reqClean w) := by
    simp only [List.mem_cons, List.not_mem_nil, or_false] at hop
    rw [hclean]
    simp
    omega
  exact if_neg hgood

theorem Hw.takeReq_empty (hpages : reqPages w = 0) : h.takeReq head w = (h.wr 0x024 0x050 (head + 1)).finishReq head w 1 0 := by
  rw [Hw.takeReq_wellFormed head hop hclean]
  exact if_pos hpages

theorem Hw.takeReq_move (hpages : reqPages w ≠ 0) (hmove : reqOp w = 1) (hroom : h.mig.moves.length < h.rd 0x024 0x054) :
    h.takeReq head w =
      let g := h.wr 0x024 0x050 (head + 1)
      { g with mig := { g.mig with moves := g.mig.moves ++ [{ slot := head, req := w }] } } := by
  rw [Hw.takeReq_wellFormed head hop hclean]
  dsimp only
  rw [if_neg hpages, if_pos hmove, if_neg (by omega)]

theorem Hw.takeReq_account (hpages : reqPages w ≠ 0) (haccount : reqOp w ≠ 1) :
    h.takeReq head w =
      let g := h.wr 0x024 0x050 (head + 1)
      { g with mig := { g.mig with taken := g.mig.taken ++ [(head, w)] } } := by
  rw [Hw.takeReq_wellFormed head hop hclean]
  dsimp only
  rw [if_neg hpages, if_neg haccount]

end

/-! ### Accounts -/

theorem exec_charge {s : State} (hup : Up s) : exec .charge s = .next { s with hw := charge s.hw } := by
  show execCharge s = _
  rw [execCharge, State.onHw_up _ _ hup]

theorem exec_release {s : State} (hup : Up s) : exec .release s = .next { s with hw := release s.hw } := by
  show execRelease s = _
  rw [execRelease, State.onHw_up _ _ hup]

section
variable {h : Hw} {t : Nat × List Byte}

theorem charge_unlimited (htaken : h.taken 2 = some t) (hoff : h.enabled 0x025 = false) :
    charge h = (h.untake t).finishReq t.1 t.2 1 (reqPages t.2) := by
  unfold charge
  rw [htaken]
  exact if_pos (by rw [show (h.untake t).enabled 0x025 = false from hoff]; rfl)

theorem release_unlimited (htaken : h.taken 3 = some t) (hoff : h.enabled 0x025 = false) :
    release h = (h.untake t).finishReq t.1 t.2 1 (reqPages t.2) := by
  unfold release
  rw [htaken]
  exact if_pos (by rw [show (h.untake t).enabled 0x025 = false from hoff]; rfl)

variable (hon : h.enabled 0x025 = true) (htier : reqTier t.2 ≠ 3) (hin : inTier (h.quotaKey (reqTenant t.2)) 32 = true)
include hon htier hin

theorem charge_limited (htaken : h.taken 2 = some t) : charge h =
    if h.quotaLimit (reqTenant t.2) (reqTier t.2) < h.quotaUsed (reqTenant t.2) (reqTier t.2) + reqPages t.2
    then (h.untake t).finishReq t.1 t.2 2 0
    else ((h.untake t).setUsed (reqTenant t.2) (reqTier t.2) (h.quotaUsed (reqTenant t.2) (reqTier t.2) + reqPages t.2)).finishReq
      t.1 t.2 1 (reqPages t.2) := by
  unfold charge
  rw [htaken]
  have hlisted : ¬ (reqTier t.2 = 3 ∨ (!inTier (h.quotaKey (reqTenant t.2)) 32) = true) := by simp [htier, hin]
  exact (if_neg (by rw [show (h.untake t).enabled 0x025 = true from hon]; decide)).trans (if_neg hlisted)

theorem release_limited (htaken : h.taken 3 = some t) : release h =
    ((h.untake t).setUsed (reqTenant t.2) (reqTier t.2) (h.quotaUsed (reqTenant t.2) (reqTier t.2) - reqPages t.2)).finishReq
      t.1 t.2 1 (reqPages t.2) := by
  unfold release
  rw [htaken]
  have hlisted : ¬ (reqTier t.2 = 3 ∨ (!inTier (h.quotaKey (reqTenant t.2)) 32) = true) := by simp [htier, hin]
  exact (if_neg (by rw [show (h.untake t).enabled 0x025 = true from hon]; decide)).trans (if_neg hlisted)

end

/-- Settles O27: the branches of the request taken, and the accounts of a tenant. -/
theorem migrationRequests : Obligations.MigrationRequests := by
  refine ⟨fun s r v hreach => exec_mreqTailWrite hreach, fun s hup hon => ?head, fun s t hup hoff => ⟨fun h => ?_, fun h => ?_⟩,
    fun s t hup hon htier hin => ?accounts⟩
  case head =>
    intro head w h hwaits htier
    rw [exec_migrationRequest hup hon hwaits htier]
    refine ⟨fun hbad => by rw [Hw.takeReq_malformed head hbad], fun hop hclean hpages => by rw [Hw.takeReq_empty head hop hclean hpages],
      fun hop hclean hpages hroom => ?_, fun hop hclean hpages => ?_⟩
    · rw [Hw.takeReq_move head (by simp [hop]) hclean hpages hop hroom]
    · rw [Hw.takeReq_account head (by simp [hop]) hclean hpages (by omega)]
  · rw [exec_charge hup, charge_unlimited h hoff]
  · rw [exec_release hup, release_unlimited h hoff]
  case accounts =>
    intro used h
    refine ⟨fun htaken hover => ?_, fun htaken hwithin => ?_, fun htaken => ?_⟩
    · rw [exec_charge hup, charge_limited hon htier hin htaken, if_pos hover]
    · rw [exec_charge hup, charge_limited hon htier hin htaken, if_neg (by omega)]
    · rw [exec_release hup, release_limited hon htier hin htaken]

end Sys2Proof.Machine
end

section
/-! PROOF of O28: the steps of a MOVE (R85, R102). -/

namespace Sys2Proof.Machine

open Sys2Proof.Claims

/-! ### What a copy of memory reads as -/

/-- A byte that no cell of the source comes to reads as before. -/
theorem smGet_copyCells_other {src dst x : Nat} (cs m : List Host.Cell) (hout : ∀ c ∈ cs, c.1 - src + dst ≠ x) :
    smGet 0 x (cs.foldl (fun m c => smSet 0 (c.1 - src + dst) c.2 m) m) = smGet 0 x m := by
  induction cs generalizing m with
  | nil => rfl
  | cons c cs ih =>
    rw [List.foldl_cons, ih _ fun d hd => hout d (List.mem_cons_of_mem _ hd),
      smGet_smSet_other _ _ (Ne.symm (hout c (List.mem_cons_self ..)))]

theorem smWf_above {lo : Nat} (m : List Host.Cell) (hwf : smWf Memory.dflt lo m = true) : ∀ c ∈ m, lo ≤ c.1 := by
  induction m generalizing lo with
  | nil => exact fun c hc => absurd hc List.not_mem_nil
  | cons d m ih =>
    obtain ⟨k, v⟩ := d
    simp only [smWf, Bool.and_eq_true, decide_eq_true_eq] at hwf
    intro c hc
    obtain rfl | hc := List.mem_cons.mp hc
    · exact hwf.1.1
    · have := ih hwf.2 c hc
      omega

/-- Byte `j` of the destination reads as byte `j` of the source. -/
theorem smGet_copyCells_same {src dst j lo : Nat} (cs m : List Host.Cell) (hwf : smWf Memory.dflt lo cs = true)
    (hsrc : ∀ c ∈ cs, src ≤ c.1) (hfree : smGet 0 (dst + j) m = 0) :
    smGet 0 (dst + j) (cs.foldl (fun m c => smSet 0 (c.1 - src + dst) c.2 m) m) = smGet 0 (src + j) cs := by
  induction cs generalizing m lo with
  | nil => exact hfree
  | cons c cs ih =>
    obtain ⟨k, v⟩ := c
    simp only [smWf, Bool.and_eq_true, decide_eq_true_eq] at hwf
    obtain ⟨-, hrest⟩ := hwf
    have hk : src ≤ k := hsrc (k, v) (List.mem_cons_self ..)
    have hsrc' : ∀ c ∈ cs, src ≤ c.1 := fun c hc => hsrc c (List.mem_cons_of_mem _ hc)
    rw [List.foldl_cons, smGet]
    dsimp only
    by_cases hj : src + j = k
    · have hlater : ∀ c ∈ cs, c.1 - src + dst ≠ dst + j := fun c hc => by
        have := smWf_above cs hrest c hc
        omega
      have hplace : k - src + dst = dst + j := by omega
      rw [if_pos hj, smGet_copyCells_other cs _ hlater, hplace, smGet_smSet_same]
    · rw [if_neg hj]
      exact ih _ hrest hsrc' ((smGet_smSet_other _ _ (by omega) _ _).trans hfree)

theorem memCopy_get {src dst n j : Nat} {m : List Host.Cell} (hwf : Memory.wf m = true) (hj : j < n) :
    smGet 0 (dst + j) (memCopy src dst n m) = smGet 0 (src + j) m := by
  have hfree : smGet 0 (dst + j) (m.filter fun c => !decide (dst ≤ c.1 ∧ c.1 < dst + n)) = 0 := by
    refine smGet_of_not_mem _ fun c hc heq => ?_
    have hout := (List.mem_filter.mp hc).2
    simp only [Bool.not_eq_true', decide_eq_false_iff_not] at hout
    omega
  have hsrc : ∀ c ∈ m.filter fun c => decide (src ≤ c.1 ∧ c.1 < src + n), src ≤ c.1 := fun c hc => by
    have hin := (List.mem_filter.mp hc).2
    simp only [decide_eq_true_eq] at hin
    exact hin.1
  rw [memCopy, smGet_copyCells_same _ _ (smWf_filter _ _ m 0 hwf) hsrc hfree]
  exact smGet_filter 0 (fun k => decide (src ≤ k ∧ k < src + n)) (src + j) (by simp; omega) m

theorem memCopy_other {src dst n a : Nat} (m : List Host.Cell) (ha : a < dst ∨ dst + n ≤ a) :
    smGet 0 a (memCopy src dst n m) = smGet 0 a m := by
  have hout : ∀ c ∈ m.filter fun c => decide (src ≤ c.1 ∧ c.1 < src + n), c.1 - src + dst ≠ a := fun c hc => by
    have hin := (List.mem_filter.mp hc).2
    simp only [decide_eq_true_eq] at hin
    omega
  rw [memCopy, smGet_copyCells_other _ _ hout]
  exact smGet_filter 0 (fun k => !decide (dst ≤ k ∧ k < dst + n)) a (by simp; omega) m

/-! ### The copy with its poison -/

/-- From `h` to `k` only what a copy of memory leaves differs: registers, memory, poison, errors known, counts of the lifetime image, and
interrupt edges. -/
def Hw.CopiesOnly (h k : Hw) : Prop :=
  k = { h with regs := k.regs, mem := k.mem, poison := k.poison, upsets := k.upsets, flips := k.flips, life := k.life,
               pow := { h.pow with edges := k.pow.edges } }

theorem Hw.CopiesOnly.refl (h : Hw) : Hw.CopiesOnly h h := rfl
theorem Hw.CopiesOnly.trans {a b c : Hw} (h : Hw.CopiesOnly a b) (k : Hw.CopiesOnly b c) : Hw.CopiesOnly a c := by
  unfold Hw.CopiesOnly at *
  rw [k, h]
theorem Hw.ErrorsOnly.copies {h k : Hw} (hk : Hw.ErrorsOnly h k) : Hw.CopiesOnly h k := by
  unfold Hw.ErrorsOnly at hk
  unfold Hw.CopiesOnly
  rw [hk]

theorem Hw.meet_errors (h : Hw) (k n : Nat) : Hw.ErrorsOnly h (h.meet k n) :=
  (Hw.fold_errors _ Hw.correctedRead_errors _ h).trans (Hw.fold_errors _ Hw.uncorrectable_errors _ _)

theorem Hw.countKennel_lines (h : Hw) (k n : Nat) (write : Bool) : Hw.LinesOnly h (h.countKennel k n write) := by
  unfold Hw.countKennel
  split
  · exact (Hw.count64_regsOnly _ _ _ _).lines
  · exact .refl h

/-- The memory of a copy is that of the copied cells, and no unit of the module moves. -/
theorem Hw.copyKeys_stands (h : Hw) (src dst n : Nat) :
    (h.copyKeys src dst n).mem = memCopy src dst n h.mem ∧ Hw.CopiesOnly h (h.copyKeys src dst n) := by
  have hlines {g k : Hw} (hk : Hw.LinesOnly g k) (hg : g.mem = memCopy src dst n h.mem ∧ Hw.CopiesOnly h g) :
      k.mem = memCopy src dst n h.mem ∧ Hw.CopiesOnly h k := ⟨hk.mem.trans hg.1, hg.2.trans hk.errors.copies⟩
  obtain ⟨k, hk⟩ : ∃ k, k = h.copyKeys src dst n := ⟨_, rfl⟩
  rw [← hk]
  unfold Hw.copyKeys at hk
  extract_lets g bad g1 g2 g3 g4 at hk
  have hmeet := h.meet_errors src n
  have h1 : g1.mem = memCopy src dst n h.mem ∧ Hw.CopiesOnly h g1 :=
    ⟨congrArg (memCopy src dst n) hmeet.mem, hmeet.copies.trans rfl⟩
  have h2 : g2.mem = memCopy src dst n h.mem ∧ Hw.CopiesOnly h g2 := by
    refine List.foldlRecOn (motive := fun k : Hw => k.mem = memCopy src dst n h.mem ∧ Hw.CopiesOnly h k) _ _ h1 fun k hk u _ => ?_
    exact ⟨hk.1, hk.2.trans rfl⟩
  have h4 : g4.mem = memCopy src dst n h.mem ∧ Hw.CopiesOnly h g4 :=
    hlines (Hw.countKennel_lines _ _ _ _) (hlines (Hw.countKennel_lines _ _ _ _) (hlines (Hw.count_regsOnly _ _ _ _).lines h2))
  rw [hk]
  split
  · exact hlines (Hw.count_regsOnly _ _ _ _).lines h4
  · exact h4

/-! ### The steps of a move -/

theorem listSet_get {α : Type} {l : List α} {i : Nat} {a b : α} (hi : l[i]? = some a) : (listSet l i b)[i]? = some b := by
  induction l generalizing i with
  | nil => cases hi
  | cons x l ih =>
    cases i with
    | zero => rfl
    | succ i => exact ih hi

section
variable {s : State} (i : Fin 8) (hup : Up s)
include hup

theorem exec_move : exec (.move i) s = .next { s with hw := moveBegin i s.hw } := by
  show execMove i s = _
  rw [execMove, State.onHw_up _ _ hup]

theorem exec_moveCopy : exec (.moveCopy i) s = .next { s with hw := moveCopy i s.hw } := by
  show execMoveCopy i s = _
  rw [execMoveCopy, State.onHw_up _ _ hup]

theorem exec_moveFlip : exec (.moveFlip i) s = .next { s with hw := moveFlip i s.hw } := by
  show execMoveFlip i s = _
  rw [execMoveFlip, State.onHw_up _ _ hup]

theorem exec_moveComplete : exec (.moveComplete i) s = .next { s with hw := moveComplete i s.hw } := by
  show execMoveComplete i s = _
  rw [execMoveComplete, State.onHw_up _ _ hup]

end

/-- The marked entry, the two frames of the copy, and the state that the copy begins in. -/
def Hw.markedPte (h : Hw) (m : Move) : Nat := leNat (h.bytes m.leafAt 8) ||| 2
def frameOfPte (e : Nat) : Nat := memKey (tierSpace (pteTier e) (ptePort e)) (pteFrame e)
def Move.frame (m : Move) : Nat := memKey (tierSpace (reqTier m.req) (reqPort m.req)) (moveDst m)
def Hw.marked (h : Hw) (m : Move) : Hw :=
  (h.store m.leafAt (leBytes 1 (h.markedPte m))).dropTlb (moveVa m / 0x10000) m.size

theorem Hw.setMove_mem (h : Hw) (i : Nat) (m : Move) : (h.setMove i m).mem = h.mem := rfl
theorem Hw.setMove_mmu (h : Hw) (i : Nat) (m : Move) : (h.setMove i m).mmu = h.mmu := rfl
theorem Hw.setMove_queues (h : Hw) (i : Nat) (m : Move) : (h.setMove i m).queues = h.queues := rfl
theorem Hw.setMove_moves (h : Hw) (i : Nat) (m : Move) : (h.setMove i m).mig.moves = listSet h.mig.moves i m := rfl
theorem Hw.marked_mem (h : Hw) (m : Move) : (h.marked m).mem = (h.store m.leafAt (leBytes 1 (h.markedPte m))).mem := rfl

section
variable {h : Hw} (i : Fin 8) {m : Move} (hmove : h.mig.moves[i.val]? = some m)
include hmove

theorem moveBegin_refused {o : Nat} (hstage : m.stage = 0) (htest : h.moveTest m = .error o) :
    moveBegin i h = (h.dropMove i.val).finishReq m.slot m.req o m.done := by
  simp only [moveBegin, hmove, hstage, htest, ne_eq, not_true, if_false]

theorem moveBegin_fenced {lf : Leaf} (hstage : m.stage = 0) (htest : h.moveTest m = .ok lf) :
    moveBegin i h = h.setMove i.val { m with
      stage := 1, leafAt := lf.at_, old := BitVec.ofNat 64 lf.pte, size := leafBytes lf.big / 0x10000 } := by
  simp only [moveBegin, hmove, hstage, htest, ne_eq, not_true, if_false]

theorem moveCopy_eq (hstage : m.stage = 1) : moveCopy i h =
    ((h.marked m).copyKeys (frameOfPte (h.markedPte m)) m.frame (m.size * 0x10000)).setMove i.val
      { m with stage := 2, old := BitVec.ofNat 64 (h.markedPte m) } := by
  unfold moveCopy
  rw [hmove]
  exact if_neg (by simp [hstage])

theorem moveFlip_eq (hstage : m.stage = 2) : moveFlip i h =
    let old := m.old.toNat
    let g := h.settleEntry m (flipPte old (reqTier m.req) (reqPort m.req) (moveDst m))
    let g := if pteKv old ∧ g.enabled 0x025 = true then
        let h1 := g.setUsed (pteTenant old) (reqTier m.req) (g.quotaUsed (pteTenant old) (reqTier m.req) + m.size)
        h1.setUsed (pteTenant old) (pteTier old) (h1.quotaUsed (pteTenant old) (pteTier old) - m.size)
      else g
    ((g.count 0x024 0x05C m.size).setMove i.val { m with stage := 3 }).drainOutside := by
  unfold moveFlip
  rw [hmove]
  exact if_neg (by simp [hstage])

theorem moveComplete_last (hstage : m.stage = 3) (hdone : reqPages m.req ≤ m.done + m.size) :
    moveComplete i h = (h.dropMove i.val).finishReq m.slot m.req 1 (m.done + m.size) := by
  simp only [moveComplete, hmove, hstage, hdone, ne_eq, not_true, if_false, if_true]

theorem moveComplete_next (hstage : m.stage = 3) (hmore : m.done + m.size < reqPages m.req) :
    moveComplete i h = h.setMove i.val { m with stage := 0, done := m.done + m.size } := by
  simp only [moveComplete, hmove, hstage, Nat.not_le.mpr hmore, ne_eq, not_true, if_false]

theorem moveCopy_moves (hstage : m.stage = 1) : (moveCopy i h).mig.moves[i.val]?
    = some { m with stage := 2, old := BitVec.ofNat 64 (h.markedPte m) } := by
  rw [moveCopy_eq i hmove hstage]
  rw [Hw.setMove_moves]
  refine listSet_get (a := m) ?_
  rw [(Hw.copyKeys_stands _ _ _ _).2]
  exact hmove

theorem moveCopy_mem (hstage : m.stage = 1) : (moveCopy i h).mem
    = memCopy (frameOfPte (h.markedPte m)) m.frame (m.size * 0x10000) (h.store m.leafAt (leBytes 1 (h.markedPte m))).mem := by
  rw [moveCopy_eq i hmove hstage]
  rw [Hw.setMove_mem, (Hw.copyKeys_stands _ _ _ _).1, Hw.marked_mem]

theorem moveCopy_stands (hstage : m.stage = 1) : (moveCopy i h).mmu = (h.marked m).mmu ∧ (moveCopy i h).queues = h.queues := by
  rw [moveCopy_eq i hmove hstage]
  obtain ⟨-, hcopies⟩ := (h.marked m).copyKeys_stands (frameOfPte (h.markedPte m)) m.frame (m.size * 0x10000)
  generalize (h.marked m).copyKeys (frameOfPte (h.markedPte m)) m.frame (m.size * 0x10000) = c at hcopies ⊢
  rw [Hw.setMove_mmu, Hw.setMove_queues, hcopies]
  exact ⟨rfl, rfl⟩

/-- The copy: the destination frame holds what the source held, and no other byte differs. -/
theorem moveCopy_copies (hstage : m.stage = 1) (hwf : Memory.wf h.mem = true) :
    (∀ j < m.size * 0x10000, (moveCopy i h).byte (m.frame + j)
        = (h.store m.leafAt (leBytes 1 (h.markedPte m))).byte (frameOfPte (h.markedPte m) + j))
      ∧ ∀ a, a < m.frame ∨ m.frame + m.size * 0x10000 ≤ a →
        (moveCopy i h).byte a = (h.store m.leafAt (leBytes 1 (h.markedPte m))).byte a := by
  have hmem := moveCopy_mem i hmove hstage
  have hstored : Memory.wf (h.store m.leafAt (leBytes 1 (h.markedPte m))).mem = true := memStore_wf _ _ _ hwf
  generalize h.store m.leafAt (leBytes 1 (h.markedPte m)) = g at hmem hstored ⊢
  unfold Hw.byte
  rw [hmem]
  exact ⟨fun j hj => memCopy_get hstored hj, fun a ha => memCopy_other _ ha⟩

end

theorem Hw.settleEntry_enabled (h : Hw) (m : Move) (e p : Nat) : (h.settleEntry m e).enabled p = h.enabled p := by
  unfold Hw.settleEntry
  split
  · rfl
  · rfl

/-- Settles O28: each step of a move, and what the copied frame reads as. -/
theorem movesAPage : Obligations.MovesAPage := by
  intro s i m hup hmove
  refine ⟨fun hstage => ⟨fun o htest => ?_, fun lf htest => ?_⟩, fun hstage hwf => ?copy, fun hstage => ?flip,
    fun hstage => ⟨fun hdone => ?_, fun hmore => ?_⟩⟩
  · rw [exec_move i hup, moveBegin_refused i hmove hstage htest]
  · rw [exec_move i hup, moveBegin_fenced i hmove hstage htest]
  case copy =>
    obtain ⟨hcopied, helse⟩ := moveCopy_copies i hmove hstage hwf
    obtain ⟨hmmu, hqueues⟩ := moveCopy_stands i hmove hstage
    exact ⟨moveCopy i s.hw, exec_moveCopy i hup, moveCopy_moves i hmove hstage, hcopied, helse,
      fun e he => Hw.dropTlb_clears _ _ _ e (hmmu ▸ he), hqueues⟩
  case flip =>
    intro old h moved
    have hentry : h = s.hw.settleEntry m (flipPte old (reqTier m.req) (reqPort m.req) (moveDst m)) := rfl
    have hon : h.enabled 0x025 = s.hw.enabled 0x025 := hentry ▸ s.hw.settleEntry_enabled m _ _
    rw [exec_moveFlip i hup, moveFlip_eq i hmove hstage]
    refine ⟨fun hfree => ?_, fun hkv hquota => ?_⟩
    · have hnone : ¬ (pteKv old = true ∧ s.hw.enabled 0x025 = true) := by
        rintro ⟨hkv, hquota⟩
        obtain hfree | hfree := hfree
        · exact absurd (hkv.symm.trans hfree) (by decide)
        · exact absurd (hquota.symm.trans hfree) (by decide)
      dsimp only
      rw [← hentry, hon, if_neg hnone]
    · intro h1
      dsimp only
      rw [← hentry, hon, if_pos ⟨hkv, hquota⟩]
  · rw [exec_moveComplete i hup, moveComplete_last i hmove hstage hdone]
  · rw [exec_moveComplete i hup, moveComplete_next i hmove hstage hmore]

end Sys2Proof.Machine
end

section
/-! PROOF of O29: prefetch streams (R106, R521). -/

namespace Sys2Proof.Machine

open Sys2Proof.Claims

theorem doorbell_prefetchTail : ∀ i : Fin 16, doorbell 0x024 (pfOff i.val 0x0C) = false := by decide +kernel

theorem exec_prefetchTailWrite {s : State} {r : Req} {i : Fin 16} {v : Word} (hreach : Reaches s r 0x024 (pfOff i.val 0x0C)) :
    exec (.prefetchTailWrite r i v) s = .next { s with
      hw := (if ptrSub v.toNat (s.hw.rd 0x024 (pfOff i.val 0x10)) ≤ 2 ^ s.hw.rd 0x024 (pfOff i.val 0x08)
          ∧ (s.hw.bit 0x024 (pfOff i.val 0x18) 1 = false ∨ v.toNat ≤ 2 ^ s.hw.rd 0x024 (pfOff i.val 0x08))
        then s.hw.wr 0x024 (pfOff i.val 0x0C) v.toNat else s.hw.badAccess (pageOff 0x024 (pfOff i.val 0x0C))) } := by
  obtain ⟨hup, hclear, hacc⟩ := hreach
  show execPrefetchTailWrite r i v s = _
  rw [execPrefetchTailWrite, State.onHw_up _ _ hup, prefetchTailWrite,
    Hw.guardWrite_accepted _ _ _ hclear hacc (doorbell_prefetchTail i)]

/-! ### What stops the copy of an entry -/

section
variable {h : Hw} {i : Nat} {e : List Byte} {skip : Bool}

theorem Hw.pfBad_none (hgood : skip = true ∨ (h.probe (streamMaster i) false (pfSrc e) (pfLen e) = none
    ∧ h.probe (streamMaster i) true (pfDst e) (pfLen e) = none)) : h.pfBad i e skip = none := by
  unfold Hw.pfBad
  obtain rfl | ⟨hsrc, hdst⟩ := hgood
  · rfl
  · rw [hsrc, hdst]
    split <;> rfl

theorem Hw.pfBad_src {x : RdErr} (hskip : skip = false) (hsrc : h.probe (streamMaster i) false (pfSrc e) (pfLen e) = some x) :
    h.pfBad i e skip = some (x, false) := by
  unfold Hw.pfBad
  rw [hskip, hsrc]
  rfl

theorem Hw.pfBad_dst {x : RdErr} (hskip : skip = false) (hsrc : h.probe (streamMaster i) false (pfSrc e) (pfLen e) = none)
    (hdst : h.probe (streamMaster i) true (pfDst e) (pfLen e) = some x) : h.pfBad i e skip = some (x, true) := by
  unfold Hw.pfBad
  rw [hskip, hsrc, hdst]
  rfl

end

/-! ### Issue -/

/-- Whether the predicate of an entry, or its length, makes it copy nothing. -/
def Hw.pfSkips (h : Hw) (e : List Byte) : Bool := (pfPredEn e && (h.pred (pfCore e) (pfPred e) == pfPredInv e)) || pfLen e == 0

/-- What an issue does with the entry at the head, whose turn has come. -/
def Hw.pfIssue (h : Hw) (i : Nat) (e : List Byte) (skip : Bool) : Hw :=
  match h.pfBad i e skip with
  | some (.fault c l va, w) => h.streamFault i c l va w
  | some _ => h
  | none => h.pfTake i e skip

theorem exec_prefetchEntryIssue {s : State} {i : Fin 16} {e : List Byte} (hup : Up s) (hhead : s.hw.pfHead i.val = some e)
    (hon : s.hw.pfOn i.val = true) (hfault : (s.hw.stream i.val).fault = false) (hroom : (s.hw.stream i.val).inflight.length < 4)
    (hnear : s.hw.pfNear i.val e = true) (hgate : pfGate e = true → (s.hw.stream i.val).gateOpen = true) :
    exec (.prefetchEntryIssue i) s = .next { s with hw := s.hw.pfIssue i.val e (s.hw.pfSkips e) } := by
  have hgo : (!s.hw.pfOn i.val || (s.hw.stream i.val).fault || decide (4 ≤ (s.hw.stream i.val).inflight.length) || !s.hw.pfNear i.val e
      || (pfGate e && !(s.hw.stream i.val).gateOpen)) = false := by
    rw [hon, hfault, hnear, decide_eq_false (by omega)]
    cases hpf : pfGate e
    · rfl
    · rw [hgate hpf]
      rfl
  show execPrefetchEntryIssue i s = _
  rw [execPrefetchEntryIssue, State.onHw_up _ _ hup, prefetchEntryIssue, hhead]
  dsimp only
  rw [hgo]
  rfl

theorem Hw.pfTake_takes (h : Hw) (i : Nat) (e : List Byte) (skip : Bool) :
    let k := h.pfTake i e skip
    let head := h.rd 0x024 (pfOff i 0x10)
    k.rd 0x024 (pfOff i 0x10) = (head + 1) % 0x100000000
      ∧ (k.stream i).inflight = (h.stream i).inflight ++ [⟨BitVec.ofNat 32 head, e, skip, false⟩] ∧ (k.stream i).gateOpen = false
      ∧ (k.stream i).layer = (h.stream i).layer ∧ (∀ j, j ≠ i → k.stream j = h.stream j)
      ∧ k = { h with regs := k.regs, mig := { h.mig with streams := k.mig.streams } } := by
  intro k head
  obtain ⟨st, hk, hflight, hgate, hlayer⟩ : ∃ st, k = (h.wr 0x024 (pfOff i 0x10) (head + 1)).setStream i st
      ∧ st.inflight = (h.stream i).inflight ++ [⟨BitVec.ofNat 32 head, e, skip, false⟩] ∧ st.gateOpen = false
      ∧ st.layer = (h.stream i).layer := ⟨_, rfl, rfl, rfl, rfl⟩
  have hstream : k.stream i = st := by rw [hk, Hw.stream_setStream_same]
  rw [hstream]
  refine ⟨?_, hflight, hgate, hlayer, fun j hj => ?_, ?_⟩
  · rw [hk]
    exact Hw.rd_wr_same _ _ _ _ _
  · rw [hk, Hw.stream_setStream_other _ _ hj]
    rfl
  · rw [hk]
    rfl

/-! ### Completion -/

theorem exec_prefetchEntryComplete {s : State} {i : Fin 16} {e : PfEnt} {rest : List PfEnt} (hup : Up s)
    (hfirst : (s.hw.stream i.val).inflight = e :: rest) (hfault : (s.hw.stream i.val).fault = false)
    (hgood : s.hw.pfBad i.val e.entry e.skip = none) :
    let m := streamMaster i.val
    let n := pfLen e.entry
    let copied := if e.skip then s.hw else Hw.copyVa m (2 * (n / 0x10000) + 4) (pfSrc e.entry) (pfDst e.entry) n
        ((s.hw.touch m (pfSrc e.entry) n).lookups m (pfDst e.entry) n)
    let h := copied.setStream i.val { copied.stream i.val with inflight := rest }
    exec (.prefetchEntryComplete i) s = .next { s with
      hw := if pfSigEn e.entry then h.semAdd (pfCore e.entry) (pfSem e.entry) 1 else h } := by
  intro m n copied h
  show execPrefetchEntryComplete i s = _
  rw [execPrefetchEntryComplete, State.onHw_up _ _ hup, prefetchEntryComplete]
  dsimp only
  rw [hfirst]
  dsimp only
  rw [hfault, if_neg (by decide), hgood]

/-- Settles O29: the branches of an issue, and what an entry taken leaves. -/
theorem prefetch : Obligations.Prefetch := by
  refine ⟨fun s r i v hreach => exec_prefetchTailWrite hreach, fun s i e hup hhead hon => ?issue, fun s i e rest hup => ?complete⟩
  case issue =>
    intro st head skip hfault hroom hnear hgate
    have hexec : exec (.prefetchEntryIssue i) s = .next { s with hw := s.hw.pfIssue i.val e skip } :=
      exec_prefetchEntryIssue hup hhead hon hfault hroom hnear hgate
    refine ⟨fun hgood => ⟨s.hw.pfTake i.val e skip, ?_, s.hw.pfTake_takes i.val e skip⟩, fun c l va hskip hsrc => ?_,
      fun c l va hskip hsrc hdst => ?_⟩
    · rw [hexec, Hw.pfIssue, Hw.pfBad_none hgood]
    · rw [hexec, Hw.pfIssue, Hw.pfBad_src hskip hsrc]
    · rw [hexec, Hw.pfIssue, Hw.pfBad_dst hskip hsrc hdst]
  case complete =>
    intro st m n copied hfirst hfault hgood
    exact exec_prefetchEntryComplete hup hfirst hfault (Hw.pfBad_none hgood)

end Sys2Proof.Machine
end

section
/-! PROOF of O30: what starts and ends a DMA transfer (R116 to R118, R122). -/

namespace Sys2Proof.Machine

open Sys2Proof.Claims

/-! ### A channel's registers -/

theorem blockOf_dma : ∀ n : Fin 32, blockOf (dmaPage n.val) = some (.dma, n.val) := by decide +kernel

theorem doorbell_dmaCtl : ∀ n : Fin 32, doorbell (dmaPage n.val) 0x054 = false := by decide +kernel

/-- Different registers of a channel's page are stored apart. -/
theorem Hw.rd_wr_offset (h : Hw) {p p' o o' : Nat} (v : Nat) (ho : o < 0x1000) (ho' : o' < 0x1000) (hne : o' ≠ o) :
    (h.wr p o v).rd p' o' = h.rd p' o' := Hw.rd_wr_other _ _ (regKey_ne_of_inPage 0 0 (by omega))

theorem Hw.dmaCode_lt (h : Hw) (n : Nat) : h.dmaCode n < 0x10000 := Nat.mod_lt _ (by decide)

theorem Hw.dmaSt_dmaSet (h : Hw) (n : Nat) {st code : Nat} (hst : st < 8) (hcode : code < 0x10000) : (h.dmaSet n st code).dmaSt n = st := by
  rw [Hw.dmaSt, Hw.dmaSet, Hw.rd_wr_same]
  simp only [bitsOf, Nat.reduceSub, Nat.reduceAdd, Nat.reducePow]
  omega

theorem Hw.dmaCode_dmaSet (h : Hw) (n st : Nat) {code : Nat} (hcode : code < 0x10000) :
    (h.dmaSet n st code).dmaCode n = code := by
  rw [Hw.dmaCode, Hw.dmaSet, Hw.rd_wr_same]
  omega

/-- SRC, DST and COUNT stand when STAT is set. -/
theorem Hw.dmaSet_counts (h : Hw) (n st code : Nat) : (h.dmaSet n st code).dmaSrc n = h.dmaSrc n
    ∧ (h.dmaSet n st code).dmaDst n = h.dmaDst n ∧ (h.dmaSet n st code).dmaCount n = h.dmaCount n := by
  have hrd {o : Nat} (ho : o < 0x1000) (hne : o ≠ 0x058) : (h.dmaSet n st code).rd (dmaPage n) o = h.rd (dmaPage n) o :=
    h.rd_wr_offset _ (by omega) ho hne
  unfold Hw.dmaSrc Hw.dmaDst Hw.dmaCount Hw.rd64
  simp only [hrd (o := 0x040) (by omega) (by omega), hrd (o := 0x040 + 4) (by omega) (by omega), hrd (o := 0x048) (by omega) (by omega),
    hrd (o := 0x048 + 4) (by omega) (by omega), hrd (o := 0x050) (by omega) (by omega), and_self]

theorem Hw.ch_setCh_same (h : Hw) (n : Nat) (c : DmaCh) : (h.setCh n c).ch n = c := by
  rw [Hw.ch, Hw.setCh, alGet_alPut_same]
  rfl

theorem Hw.ch_dmaSet (h : Hw) (n st code m : Nat) : (h.dmaSet n st code).ch m = h.ch m := rfl

/-! ### Writes of CTL -/

/-- The bits that a write of CTL takes from the value and from its row. -/
theorem dmaCtl_bits (v : Nat) : bitsOf (v ||| 1) 17 12 = bitsOf v 17 12 ∧ bitOf (v ||| 1) 1 = bitOf v 1 ∧ bitOf (v ||| 1) 0 = true
    ∧ bitOf (v ||| 2) 1 = true := by
  have hhigh : (v ||| 1) / 2 ^ 12 = v / 2 ^ 12 := by
    rw [← Nat.shiftRight_eq_div_pow, Nat.shiftRight_or_distrib, Nat.shiftRight_eq_div_pow]
    simp
  have h1 : Nat.testBit 1 1 = false ∧ Nat.testBit 1 0 = true ∧ Nat.testBit 2 1 = true := by decide
  refine ⟨?_, ?_, ?_, ?_⟩
  · rw [bitsOf, hhigh, bitsOf]
  · simp [bitOf, h1]
  · simp [bitOf]
  · simp [bitOf, h1]

/-- CTL's states in which only its stop bit acts. -/
def Hw.dmaBusy (h : Hw) (n : Nat) : Prop := h.dmaSt n = dRUNNING ∨ h.dmaSt n = dWAIT_MOVE ∨ h.dmaSt n = dSTOPPING ∨ h.dmaSt n = dPENDING

section
variable {s : State} {r : Req} {n : Fin 32} {v : Nat} (hreach : Reaches s r (dmaPage n.val) 0x054)
include hreach

theorem Hw.dmaCtlWrite_busy (hbusy : s.hw.dmaBusy n.val) : s.hw.dmaCtlWrite r n.val v =
    if bitOf v 1 then s.hw.dmaStopAct n.val else s.hw.badAccess (pageOff (dmaPage n.val) 0x054) := by
  rw [Hw.dmaCtlWrite]
  dsimp only
  rw [Hw.guardWrite_accepted _ _ _ hreach.2.1 hreach.2.2 (doorbell_dmaCtl n)]
  exact if_pos hbusy

theorem Hw.dmaCtlWrite_idle (hidle : ¬ s.hw.dmaBusy n.val) : s.hw.dmaCtlWrite r n.val v =
    if 48 ≤ bitsOf v 17 12 then s.hw.badAccess (pageOff (dmaPage n.val) 0x054)
    else
      let h := s.hw.wr (dmaPage n.val) 0x054 (v &&& 0x3FFF0)
      if bitOf v 0 then
        let h := h.demand.worked
        if h.enabled (dmaPage n.val) then h.dmaStart n.val r
        else (h.setCh n.val { h.ch n.val with pendBy := r }).dmaSet n.val dPENDING (h.dmaCode n.val)
      else h := by
  rw [Hw.dmaCtlWrite]
  dsimp only
  rw [Hw.guardWrite_accepted _ _ _ hreach.2.1 hreach.2.2 (doorbell_dmaCtl n)]
  exact if_neg hidle

theorem exec_dmaGo (v : Word) : exec (.dmaGo r n v) s = .next { s with hw := s.hw.dmaCtlWrite r n.val (v.toNat ||| 1) } := by
  show execDmaGo r n v s = _
  rw [execDmaGo, State.onHw_up _ _ hreach.1]

theorem exec_dmaStop (v : Word) : exec (.dmaStop r n v) s = .next { s with hw := s.hw.dmaCtlWrite r n.val (v.toNat ||| 2) } := by
  show execDmaStop r n v s = _
  rw [execDmaStop, State.onHw_up _ _ hreach.1]

/-- STOP on a busy channel. -/
theorem exec_dmaStop_busy (v : Word) (hbusy : s.hw.dmaBusy n.val) :
    exec (.dmaStop r n v) s = .next { s with hw := s.hw.dmaStopAct n.val } := by
  rw [exec_dmaStop hreach, Hw.dmaCtlWrite_busy hreach hbusy, (dmaCtl_bits v.toNat).2.2.2]
  rfl

theorem exec_dmaGo_idle {v : Word} (hidle : ¬ s.hw.dmaBusy n.val) (hcore : bitsOf v.toNat 17 12 < 48) :
    let h := (s.hw.wr (dmaPage n.val) 0x054 ((v.toNat ||| 1) &&& 0x3FFF0)).demand.worked
    exec (.dmaGo r n v) s = .next { s with hw := (if h.enabled (dmaPage n.val) then h.dmaStart n.val r
      else (h.setCh n.val { h.ch n.val with pendBy := r }).dmaSet n.val dPENDING (h.dmaCode n.val)) } := by
  intro h
  obtain ⟨hsig, -, hgo, -⟩ := dmaCtl_bits v.toNat
  rw [exec_dmaGo hreach, Hw.dmaCtlWrite_idle hreach hidle, hsig, if_neg (by omega)]
  dsimp only
  rw [hgo]
  rfl

end

/-! ### The checks of a start -/

section
variable {h : Hw} {n : Nat} {r : Req}

/-- A start that a check stops. -/
def Hw.dmaFails (h : Hw) (n code : Nat) : Hw := ((h.dmaSet n dERROR code).err (dmaPage n) 2 code).raise (dmaPage n) 2

theorem Hw.dmaStart_eq (h : Hw) (n : Nat) (r : Req) : h.dmaStart n r =
    if !h.agreed r then h.dmaFails n cABI
    else if h.dmaCount n = 0 then h.dmaFinish n
    else if bitsOf (h.rd (dmaPage n) 0x044) 31 20 ≠ 0 ∨ bitsOf (h.rd (dmaPage n) 0x04C) 31 20 ≠ 0 then h.dmaFails n cFORMAT
    else if 2 ^ 52 < h.dmaSrc n + h.dmaCount n ∨ 2 ^ 52 < h.dmaDst n + h.dmaCount n then h.dmaFails n cLENGTH
    else ((h.dmaDrop n).setCh n { (h.dmaDrop n).ch n with len := h.dmaCount n, run := ((h.dmaDrop n).ch n).run + 1 }).dmaSet n dRUNNING
      ((h.dmaDrop n).dmaCode n) := rfl

theorem Hw.dmaStart_unagreed (hagreed : h.agreed r = false) : h.dmaStart n r = h.dmaFails n cABI := by
  rw [Hw.dmaStart_eq, hagreed]
  rfl

variable (hagreed : h.agreed r = true)
include hagreed

theorem Hw.dmaStart_empty (hcount : h.dmaCount n = 0) : h.dmaStart n r = h.dmaFinish n := by
  rw [Hw.dmaStart_eq, hagreed, hcount]
  rfl

variable (hcount : h.dmaCount n ≠ 0)
include hcount

theorem Hw.dmaStart_format (hbad : ¬ (bitsOf (h.rd (dmaPage n) 0x044) 31 20 = 0 ∧ bitsOf (h.rd (dmaPage n) 0x04C) 31 20 = 0)) :
    h.dmaStart n r = h.dmaFails n cFORMAT := by
  rw [Hw.dmaStart_eq, hagreed, if_neg (by decide), if_neg hcount, if_pos (by omega)]

variable (hok : bitsOf (h.rd (dmaPage n) 0x044) 31 20 = 0 ∧ bitsOf (h.rd (dmaPage n) 0x04C) 31 20 = 0)
include hok

theorem Hw.dmaStart_length (hlong : ¬ (h.dmaSrc n + h.dmaCount n ≤ 2 ^ 52 ∧ h.dmaDst n + h.dmaCount n ≤ 2 ^ 52)) :
    h.dmaStart n r = h.dmaFails n cLENGTH := by
  rw [Hw.dmaStart_eq, hagreed, if_neg (by decide), if_neg hcount, if_neg (by omega), if_pos (by omega)]

theorem Hw.dmaStart_runs (hfits : h.dmaSrc n + h.dmaCount n ≤ 2 ^ 52 ∧ h.dmaDst n + h.dmaCount n ≤ 2 ^ 52) :
    (h.dmaStart n r).dmaSt n = dRUNNING ∧ ((h.dmaStart n r).ch n).lines = [] ∧ ((h.dmaStart n r).ch n).len = h.dmaCount n
      ∧ (h.dmaStart n r).dmaSrc n = h.dmaSrc n ∧ (h.dmaStart n r).dmaDst n = h.dmaDst n ∧ (h.dmaStart n r).dmaCount n = h.dmaCount n
      ∧ h.dmaStart n r = { h with regs := (h.dmaStart n r).regs, dma := (h.dmaStart n r).dma } := by
  rw [Hw.dmaStart_eq, hagreed, if_neg (by decide), if_neg hcount, if_neg (by omega), if_neg (by omega)]
  obtain ⟨hsrc, hdst, hlen⟩ := ((h.dmaDrop n).setCh n { (h.dmaDrop n).ch n with
    len := h.dmaCount n, run := ((h.dmaDrop n).ch n).run + 1 }).dmaSet_counts n dRUNNING ((h.dmaDrop n).dmaCode n)
  refine ⟨Hw.dmaSt_dmaSet _ _ (by decide) (Hw.dmaCode_lt _ _), ?_, ?_, hsrc, hdst, hlen, rfl⟩
  · rw [Hw.ch_dmaSet, Hw.ch_setCh_same, Hw.dmaDrop, Hw.ch_setCh_same]
  · rw [Hw.ch_dmaSet, Hw.ch_setCh_same]

end

/-! ### STOP, the page's enable, and the ends of a run -/

theorem Hw.dmaStopAct_running {h : Hw} {n : Nat} (hst : h.dmaSt n = dRUNNING) : h.dmaStopAct n = h.dmaSet n dSTOPPING (h.dmaCode n) := by
  rw [Hw.dmaStopAct, hst]
  rfl

theorem Hw.dmaStopAct_pending {h : Hw} {n : Nat} (hst : h.dmaSt n = dPENDING) : h.dmaStopAct n = h.dmaSet n dIDLE (h.dmaCode n) := by
  rw [Hw.dmaStopAct, hst]
  rfl

theorem Hw.dmaStopAct_waiting {h : Hw} {n : Nat} (hst : h.dmaSt n = dWAIT_MOVE) :
    h.dmaStopAct n = (h.setCh n { h.ch n with stopAfter := true }).dmaSet n dSTOPPING (h.dmaCode n) := by
  rw [Hw.dmaStopAct, hst]
  rfl

theorem Hw.enabled_dma (h : Hw) (n : Fin 32) : h.enabled (dmaPage n.val) = h.bit (dmaPage n.val) 0x008 0 := by
  unfold Hw.enabled
  rw [blockOf_dma]
  rfl

/-- Enabling the page starts the transfer that waited for it. -/
theorem exec_pageEnable_dma {s : State} {r : Req} {n : Fin 32} {v : Word} (hreach : Reaches s r (dmaPage n.val) 0x008)
    (hoff : s.hw.demand.enabled (dmaPage n.val) = false) (hpending : s.hw.demand.dmaSt n.val = dPENDING) (hbit : bitOf v.toNat 0 = true) :
    let h := s.hw.demand.wr (dmaPage n.val) 0x008 (v.toNat &&& 5)
    exec (.pageEnable r (dmaPage n.val) v) s = .next { s with hw := h.dmaStart n.val (h.ch n.val).pendBy } := by
  intro h
  have hmask : (v.toNat &&& 5) &&& (if Block.dma.alwaysEnabled then 4 else 5) = v.toNat &&& 5 := by
    rw [show Block.dma.alwaysEnabled = false from rfl, if_neg (by decide), Nat.and_assoc, Nat.and_self]
  have hon : h.enabled (dmaPage n.val) = true := by
    have h5 : Nat.testBit 5 0 = true := by decide
    have hword : (0x100000000 : Nat) = 2 ^ 32 := by norm_num
    rw [Hw.enabled_dma, Hw.bit, Hw.rd_wr_same, hword, Nat.testBit_mod_two_pow, Nat.testBit_and, h5,
      show v.toNat.testBit 0 = true from hbit]
    rfl
  have hst : h.dmaSt n.val = dPENDING := by
    rw [Hw.dmaSt, Hw.rd_wr_offset _ _ (by omega) (by omega) (by omega)]
    exact hpending
  have hstart : h.pageEnabled (dmaPage n.val) = h.dmaStart n.val (h.ch n.val).pendBy := by
    rw [Hw.pageEnabled, blockOf_dma]
    exact if_pos hst
  have hstored : s.hw.demand.pageStored (dmaPage n.val) .dma (v.toNat &&& 5) = h.pageEnabled (dmaPage n.val) := by
    rw [Hw.pageStored, hmask, show Block.dma.stepCapable = false from rfl, hoff, show h.enabled (dmaPage n.val) = true from hon]
    rfl
  refine (exec_pageCtl_stored hreach (blockOf_dma n) (pageCtl_bits v.toNat).1.1).trans ?_
  rw [hstored, hstart]

theorem exec_dmaStopped {s : State} {n : Fin 32} (hup : Up s) (hst : s.hw.dmaSt n.val = dSTOPPING)
    (hafter : (s.hw.ch n.val).stopAfter = false) :
    exec (.dmaStopped n) s = .next { s with hw := (s.hw.dmaDrop n.val).dmaSet n.val dIDLE (s.hw.dmaCode n.val) } := by
  show execDmaStopped n s = _
  rw [execDmaStopped, State.onHw_up _ _ hup, dmaStopped,
    if_pos ⟨hst, hafter⟩]

theorem exec_dmaDone {s : State} {n : Fin 32} (hup : Up s) (hst : s.hw.dmaSt n.val = dRUNNING) (hcount : s.hw.dmaCount n.val = 0) :
    exec (.dmaDone n) s = .next { s with hw :=
      (match (s.hw.ch n.val).ports.find? (fun q => !(s.hw.ch n.val).flushed.contains q) with
      | none => s.hw.dmaFinish n.val
      | some port =>
        if (s.hw.ch n.val).asking.isSome then s.hw
        else if s.hw.kennelUp port = false then
          s.hw.dmaFault n.val fKennel (s.hw.dmaLevel n.val (s.hw.dmaDst n.val - 1)) (s.hw.dmaDst n.val - 1) true
        else if s.hw.tagFree port = false then s.hw
        else (s.hw.askHost port (.dmaFlush n.val (s.hw.ch n.val).run port) 0).setCh n.val { s.hw.ch n.val with asking := some port }) } := by
  have hgo : ¬ (s.hw.dmaSt n.val ≠ dRUNNING ∨ s.hw.dmaCount n.val ≠ 0) := by simp [hst, hcount]
  show execDmaDone n s = _
  rw [execDmaDone, State.onHw_up _ _ hup, dmaDone]
  exact congrArg (fun g : Hw => Host.Outcome.next { s with hw := g }) (if_neg hgo)

/-- Settles O30: the writes of CTL, the checks of a start, and the ends of a run. -/
theorem dmaStartsAndStops : Obligations.DmaStartsAndStops := by
  intro s r n v p st busy code h src dst c fails ok fits
  refine ⟨fun hreach => ⟨?bad, ?go, ?busy, ?running, ?pending, ?waiting⟩, ?enable, ?stopped, ?done⟩
  case bad =>
    intro hidle hcore
    rw [exec_dmaGo hreach, Hw.dmaCtlWrite_idle hreach hidle, (dmaCtl_bits v.toNat).1, if_pos hcore]
  case go =>
    intro hidle hcore
    have hgo := exec_dmaGo_idle hreach hidle hcore
    refine ⟨fun hoff => ?_, fun hon => ?_⟩
    · refine hgo.trans ?_
      rw [show (Hw.worked _).enabled (dmaPage n.val) = false from hoff]
      rfl
    · have hstart : exec (.dmaGo r n v) s = .next { s with hw := h.dmaStart n.val r } := by
        refine hgo.trans ?_
        rw [show (Hw.worked _).enabled (dmaPage n.val) = true from hon]
        rfl
      rw [hstart]
      refine ⟨fun hag => by rw [Hw.dmaStart_unagreed hag]; rfl, fun hag hc => by rw [Hw.dmaStart_empty hag hc],
        fun hag hc hbad => by rw [Hw.dmaStart_format hag hc hbad]; rfl, fun hag hc hok hlong => by rw [Hw.dmaStart_length hag hc hok hlong]; rfl,
        fun hag hc hok hfits => ?_⟩
      exact ⟨_, rfl, Hw.dmaStart_runs hag hc hok hfits⟩
  case busy =>
    intro hbusy hbit
    rw [exec_dmaGo hreach, Hw.dmaCtlWrite_busy hreach hbusy, (dmaCtl_bits v.toNat).2.1, hbit]
    rfl
  case running =>
    intro hst
    rw [exec_dmaStop_busy hreach v (.inl hst), Hw.dmaStopAct_running hst]
  case pending =>
    intro hst
    rw [exec_dmaStop_busy hreach v (.inr (.inr (.inr hst))), Hw.dmaStopAct_pending hst]
  case waiting =>
    intro hst
    rw [exec_dmaStop_busy hreach v (.inr (.inl hst)), Hw.dmaStopAct_waiting hst]
  case enable => exact fun hreach hoff hpending hbit => exec_pageEnable_dma hreach hoff hpending hbit
  case stopped =>
    intro hup hst hafter
    refine ⟨_, exec_dmaStopped hup hst hafter, Hw.dmaSt_dmaSet _ _ (by decide) (Hw.dmaCode_lt _ _), ?_, rfl⟩
    rw [Hw.ch_dmaSet, Hw.dmaDrop, Hw.ch_setCh_same]
  case done =>
    intro hup hst hcount ch
    rw [exec_dmaDone hup hst hcount]
    refine ⟨fun hflushed => ?_, fun port hport hasking => ⟨fun hkennel htag => ?_, fun hkennel => ?_⟩⟩
    · have hnone : ch.ports.find? (fun q => !ch.flushed.contains q) = none :=
        List.find?_eq_none.mpr fun q hq => by simpa using hflushed q hq
      rw [show (s.hw.ch n.val).ports.find? (fun q => !(s.hw.ch n.val).flushed.contains q) = none from hnone]
    · rw [show (s.hw.ch n.val).ports.find? (fun q => !(s.hw.ch n.val).flushed.contains q) = some port from hport]
      dsimp only
      rw [show (s.hw.ch n.val).asking = none from hasking, hkennel, htag]
      rfl
    · rw [show (s.hw.ch n.val).ports.find? (fun q => !(s.hw.ch n.val).flushed.contains q) = some port from hport]
      dsimp only
      rw [show (s.hw.ch n.val).asking = none from hasking, hkennel]
      rfl

end Sys2Proof.Machine
end

section
/-! Registers that an access of memory leaves: those of every page from 0x040 up. -/

namespace Sys2Proof.Machine

open Sys2Proof.Claims

/-- The keys of registers on pages from 0x040 up. -/
def HighKey (x : Nat) : Prop := 0x40 ≤ x / 0x4000

theorem regKey_below {p o : Nat} (b : Nat) (hp : p < 0x40) (ho : o < 0x1000) : ¬ HighKey (regKey (p * 0x1000 + o) b) := by
  have hpage : pageOfOff (p * 0x1000 + o) = p := by unfold pageOfOff; omega
  have hblock := lowBlock ⟨p, by omega⟩
  have hhome : homeOff (p * 0x1000 + o) < 0x40000 := by
    unfold homeOff
    rw [hpage]
    dsimp only [inPage] at hblock ⊢
    split
    · rename_i h; simp [h] at hblock
    · rename_i h; simp [h] at hblock
    · rename_i h; simp [h] at hblock
    · rename_i h; simp [h] at hblock
    · split <;> omega
    · omega
  have hkey := regKey_div_four (p * 0x1000 + o) b
  unfold HighKey
  omega

theorem noIrq_high : NoIrq HighKey := fun _ ho => regKey_below 0 (by omega) ho

/-- From `h` to `k` no register of a page from 0x040 up differs. -/
abbrev Hw.HighKept (h k : Hw) : Prop := Hw.Keeps HighKey h k

section
variable (h : Hw) {p o : Nat} (hp : p < 0x40)
include hp

theorem Hw.wr_high (v : Nat) (ho : o < 0x1000) : Hw.HighKept h (h.wr p o v) := h.wr_keeps v (regKey_below 0 hp ho)
theorem Hw.count_high (n : Nat) (ho : o < 0x1000) : Hw.HighKept h (h.count p o n) := h.wr_high hp _ ho
theorem Hw.wr64_high (v : Nat) (ho : o < 0xFFC) : Hw.HighKept h (h.wr64 p o v) :=
  h.wr64_keeps v (regKey_below 0 hp (by omega)) (regKey_below 0 hp (by omega))
theorem Hw.count64_high (n : Nat) (ho : o < 0xFFC) : Hw.HighKept h (h.count64 p o n) := h.wr64_high hp _ ho
theorem Hw.err_high (d c : Nat) : Hw.HighKept h (h.err p d c) := h.err_keeps p d c (regKey_below 0 hp (by omega))
theorem Hw.raise_high (n : Nat) : Hw.HighKept h (h.raise p n) :=
  h.raise_keeps n noIrq_high (regKey_below 0 hp (by omega)) (regKey_below 0 hp (by omega))

end

theorem lpChannel_lt (a : Nat) : lpChannel a < 128 := by
  unfold lpChannel
  dsimp only
  omega

theorem Hw.uncorrectable_high (h : Hw) (u : Nat) : Hw.HighKept h (h.uncorrectable u) := by
  have hlp := lpChannel_lt (u % 0x10000000000000)
  unfold Hw.uncorrectable
  dsimp only
  split
  · refine Hw.Keeps.trans ?_ (Hw.raise_high _ (by omega) 1)
    refine Hw.Keeps.trans ?_ (Hw.err_high _ (by omega) _ _)
    refine Hw.Keeps.trans ?_ (Hw.count_high _ (by omega) 1 (by omega))
    exact .of_regs rfl
  · split
    · refine Hw.Keeps.trans ?_ (Hw.raise_high _ (by omega) 0)
      refine Hw.Keeps.trans ?_ (Hw.err_high _ (by omega) _ _)
      refine Hw.Keeps.trans (b := Hw.wr64 _ _ _ _) ?_ (.of_regs rfl)
      refine Hw.Keeps.trans ?_ (Hw.wr64_high _ (by omega) _ (by omega))
      refine Hw.Keeps.trans ?_ (Hw.count_high _ (by omega) 1 (by omega))
      exact .of_regs rfl
    · exact .of_regs rfl

theorem Hw.correctedRead_high (h : Hw) (u : Nat) : Hw.HighKept h (h.correctedRead u) := by
  have hlp := lpChannel_lt (u % 0x10000000000000)
  unfold Hw.correctedRead
  dsimp only
  split
  · refine Hw.Keeps.trans ?_ (Hw.count_high _ (by omega) 1 (by omega))
    exact .of_regs rfl
  · split
    · refine Hw.Keeps.trans (b := Hw.count _ _ _ _) ?_ (.of_regs rfl)
      exact h.count_high (by omega) 1 (by omega)
    · exact .refl h

theorem Hw.meet_high (h : Hw) (k n : Nat) : Hw.HighKept h (h.meet k n) :=
  (Hw.fold_keeps _ _ h fun h u _ => h.correctedRead_high u).trans (Hw.fold_keeps _ _ _ fun h u _ => h.uncorrectable_high u)

theorem Hw.storeTier_high (h : Hw) (k : Nat) (bs : List Byte) : Hw.HighKept h (h.storeTier k bs) := by
  unfold Hw.storeTier
  split
  · exact .of_regs rfl
  · exact .refl h

theorem Hw.fillTlb_high (h : Hw) (t va : Nat) (lf : Leaf) : Hw.HighKept h (h.fillTlb t va lf) := by
  unfold Hw.fillTlb
  split
  · exact .refl h
  · dsimp only
    split
    · split
      · exact Hw.Keeps.trans (.of_regs rfl) (Hw.storeTier_high _ _ _)
      · exact .of_regs rfl
    · exact .of_regs rfl

theorem Hw.fillMicro_high (h : Hw) (m : Master) (va : Nat) (lf : Leaf) : Hw.HighKept h (h.fillMicro m va lf) := by
  unfold Hw.fillMicro
  split
  · split
    · exact .refl h
    · exact h.fillTlb_high _ _ _
  · exact .refl h

theorem Hw.fillWalk_high (h : Hw) (m : Master) (va : Nat) : Hw.HighKept h (h.fillWalk m va) := by
  unfold Hw.fillWalk
  split
  · exact .refl h
  · exact (h.fillTlb_high _ _ _).trans (Hw.fillMicro_high _ _ _ _)

theorem Hw.walked_high (h : Hw) (slice va : Nat) : Hw.HighKept h (h.walked slice va) :=
  Hw.fold_keeps _ _ h fun h k _ => h.meet_high k 8

section
variable (m : Master) (hslice : m.slice < 0x20)
include hslice

theorem Hw.lookup_high (h : Hw) (va : Nat) : Hw.HighKept h (h.lookup m va) := by
  unfold Hw.lookup
  split
  · exact .refl h
  · split
    · exact h.fillMicro_high _ _ _
    · exact ((h.count_high (by omega) 1 (by omega)).trans (Hw.walked_high _ _ _)).trans (Hw.fillWalk_high _ _ _)

theorem Hw.lookupGran_high (fuel va n : Nat) (h : Hw) : Hw.HighKept h (Hw.lookupGran m fuel va n h) := by
  induction fuel generalizing va n h with
  | zero => exact .refl h
  | succ f ih =>
    unfold Hw.lookupGran
    split
    · exact .refl h
    · exact (h.lookup_high m hslice va).trans (ih _ _ _)

theorem Hw.lookups_high (h : Hw) (va n : Nat) : Hw.HighKept h (h.lookups m va n) := by
  unfold Hw.lookups
  split
  · exact .refl h
  · exact Hw.lookupGran_high m hslice _ _ _ h

end

/-- The spaces that a translation leads to. -/
theorem Hw.locate_space {h : Hw} {m : Master} {va k : Nat} {w : Bool} (hk : h.locate m va w = .ok k) : k / 0x10000000000000 < 5 := by
  have hleaf (lf : Leaf) : leafKey lf va / 0x10000000000000 < 5 := by
    have hport : ptePort lf.pte < 2 := Nat.mod_lt _ (by decide)
    have hframe : pteFrame lf.pte < 0x10000000000000 := by
      have hbits : bitsOf lf.pte 51 16 < 2 ^ 36 := Nat.mod_lt _ (by decide)
      unfold pteFrame
      omega
    have hoff : va % leafBytes lf.big < 0x10000000000000 := by
      unfold leafBytes
      split <;> omega
    unfold leafKey memKey tierSpace
    split <;> omega
  unfold Hw.locate at hk
  split at hk
  · cases hk
  · split at hk
    · cases hk
    · split at hk
      · cases hk
      · split at hk
        · cases hk
        · split at hk
          · cases hk
          · split at hk
            · cases hk
            · split at hk
              · cases hk
              · cases hk
                exact hleaf _

theorem Hw.countKennel_high (h : Hw) {k : Nat} (n : Nat) (write : Bool) (hspace : k / 0x10000000000000 < 0x30) :
    Hw.HighKept h (h.countKennel k n write) := by
  unfold Hw.countKennel
  split
  · exact h.count64_high (by omega) n (by split <;> omega)
  · exact .refl h

theorem Hw.touchGran_high (m : Master) (hslice : m.slice < 0x20) (fuel va n : Nat) (h : Hw) :
    Hw.HighKept h (Hw.touchGran m fuel va n h) := by
  induction fuel generalizing va n h with
  | zero => exact .refl h
  | succ f ih =>
    unfold Hw.touchGran
    dsimp only
    split
    · exact .refl h
    · refine (h.lookup_high m hslice va).trans (Hw.Keeps.trans ?_ (ih _ _ _))
      split
      · rename_i k hk
        have hspace := Hw.locate_space hk
        exact (Hw.meet_high _ _ _).trans (Hw.countKennel_high _ _ _ (by omega))
      · exact .refl _

theorem Hw.touch_high (h : Hw) (m : Master) (hslice : m.slice < 0x20) (va n : Nat) : Hw.HighKept h (h.touch m va n) := by
  unfold Hw.touch
  split
  · exact .of_regs rfl
  · split
    · exact .refl h
    · exact Hw.touchGran_high m hslice _ _ _ h

/-! ### Pages whose registers stand at home -/

/-- Blocks none of whose registers another page shows. -/
def Block.ownRegs : Block → Bool
  | .spl | .rtv | .emb | .srv | .lsh => false
  | _ => true

theorem regKey_home {p i o : Nat} {blk : Block} (b : Nat) (hblock : blockOf p = some (blk, i)) (hown : blk.ownRegs = true) (ho : o < 0x1000) :
    regKey (p * 0x1000 + o) b / 4 = p * 0x1000 + o := by
  have hpage : pageOfOff (p * 0x1000 + o) = p := by unfold pageOfOff; omega
  rw [regKey_div_four]
  unfold homeOff
  rw [hpage, hblock]
  split
  case h_6 => rfl
  all_goals
    rename_i hsame
    cases hsame
    cases hown

end Sys2Proof.Machine
end

section
/-! PROOF of O31: DMA accesses, their ends and their faults (R112 to R123). -/

namespace Sys2Proof.Machine

open Sys2Proof.Claims

/-! ### Arbitration -/

theorem foldl_min_spec (f : Nat → Nat) (l : List Nat) (a : Nat) :
    let r := l.foldl (fun a n => min a (f n)) a
    r ≤ a ∧ (∀ n ∈ l, r ≤ f n) ∧ (r = a ∨ ∃ n ∈ l, f n = r) := by
  induction l generalizing a with
  | nil => exact ⟨Nat.le_refl a, fun n hn => absurd hn List.not_mem_nil, .inl rfl⟩
  | cons x l ih =>
    obtain ⟨hle, hall, hat⟩ := ih (min a (f x))
    refine ⟨hle.trans (Nat.min_le_left _ _), fun n hn => ?_, ?_⟩
    · obtain rfl | hn := List.mem_cons.mp hn
      · exact hle.trans (Nat.min_le_right _ _)
      · exact hall n hn
    · obtain hat | ⟨n, hn, hat⟩ := hat
      · rw [List.foldl_cons, hat]
        by_cases hx : a ≤ f x
        · exact .inl (Nat.min_eq_left hx)
        · exact .inr ⟨x, List.mem_cons_self .., (Nat.min_eq_right (by omega)).symm⟩
      · exact .inr ⟨n, List.mem_cons_of_mem _ hn, hat⟩

theorem mem_quadChannels {q n : Nat} : n ∈ quadChannels q ↔ n / 8 = q := by
  simp only [quadChannels, List.mem_map, List.mem_range]
  exact ⟨fun ⟨i, hi, hn⟩ => by omega, fun hn => ⟨n % 8, by omega, by omega⟩⟩

theorem Hw.dmaPrio_le (h : Hw) (n : Nat) : h.dmaPrio n ≤ 3 := by
  have : h.dmaPrio n < 2 ^ 2 := Nat.mod_lt _ (by decide)
  omega

/-- The channels of a quadrant in the order of one round. -/
theorem mem_round {q last n : Nat} : n ∈ (List.range 8).map (fun i => 8 * q + (last + 1 + i) % 8) ↔ n / 8 = q := by
  simp only [List.mem_map, List.mem_range]
  exact ⟨fun ⟨i, hi, hn⟩ => by omega, fun hn => ⟨(n % 8 + 8 - (last + 1) % 8) % 8, by omega, by omega⟩⟩

/-- The lowest priority value among the channels that an engine can serve. -/
def Hw.dmaLevelOf (h : Hw) (ready : List Nat) : Nat := ready.foldl (fun a n => min a (h.dmaPrio n)) 3

theorem Hw.dmaPick_eq (h : Hw) (q engine : Nat) (can : Nat → Bool) : h.dmaPick q engine can =
    ((List.range 8).map fun i => 8 * q + (smGet 7 (2 * q + engine) h.dmaLast + 1 + i) % 8).find? fun n =>
      ((quadChannels q).filter can).contains n && h.dmaPrio n == h.dmaLevelOf ((quadChannels q).filter can) := rfl

theorem Hw.dmaPick_some {h : Hw} {q engine n : Nat} {can : Nat → Bool} (hpick : h.dmaPick q engine can = some n) :
    can n = true ∧ n / 8 = q ∧ ∀ m ∈ quadChannels q, can m = true → h.dmaPrio n ≤ h.dmaPrio m := by
  rw [Hw.dmaPick_eq] at hpick
  have hserved := List.find?_some hpick
  rw [Bool.and_eq_true, beq_iff_eq, List.contains_iff_mem] at hserved
  obtain ⟨hready, hlevel⟩ := hserved
  obtain ⟨hquad, hcan⟩ := List.mem_filter.mp hready
  refine ⟨hcan, mem_quadChannels.mp hquad, fun m hm hcanm => ?_⟩
  rw [hlevel]
  exact (foldl_min_spec h.dmaPrio _ 3).2.1 m (List.mem_filter.mpr ⟨hm, hcanm⟩)

theorem Hw.dmaPick_none {h : Hw} {q engine : Nat} {can : Nat → Bool} (hpick : h.dmaPick q engine can = none) :
    ∀ m ∈ quadChannels q, can m = false := by
  intro m hm
  by_contra hcan
  have hready : m ∈ (quadChannels q).filter can := List.mem_filter.mpr ⟨hm, by simpa using hcan⟩
  rw [Hw.dmaPick_eq, List.find?_eq_none] at hpick
  obtain ⟨-, hall, hat⟩ := foldl_min_spec h.dmaPrio ((quadChannels q).filter can) 3
  have hlowest : ∃ n ∈ (quadChannels q).filter can, h.dmaPrio n = h.dmaLevelOf ((quadChannels q).filter can) := by
    obtain hat | hat := hat
    · have hle := hall m hready
      have hprio := h.dmaPrio_le m
      exact ⟨m, hready, by unfold Hw.dmaLevelOf; omega⟩
    · exact hat
  obtain ⟨n, hn, hlevel⟩ := hlowest
  refine hpick n (mem_round.mpr (mem_quadChannels.mp (List.mem_filter.mp hn).1)) ?_
  rw [Bool.and_eq_true, beq_iff_eq, List.contains_iff_mem]
  exact ⟨hn, hlevel⟩

theorem dmaEngines : DmaEngines := by
  refine ⟨fun s q hup => ?_, fun h q e can => ⟨fun n hpick => Hw.dmaPick_some hpick, fun hpick => Hw.dmaPick_none hpick⟩⟩
  show execDmaAccessWritten q s = _
  rw [execDmaAccessWritten, State.onHw_up _ _ hup]
  rfl

/-! ### Lines -/

theorem Hw.walk_asks (h : Hw) (a : List Nat) (slice va : Nat) : ({ h with dmaAsks := a } : Hw).walk slice va = h.walk slice va := rfl
theorem Hw.dmaSpot_asks (h : Hw) (a : List Nat) (n va : Nat) : ({ h with dmaAsks := a } : Hw).dmaSpot n va = h.dmaSpot n va := rfl

/-- The state in which a channel's turn for a line is noted. -/
def Hw.dmaTurn (h : Hw) (n : Nat) : Hw :=
  { h with dmaAsks := (h.dmaAskers (n / 8)).filter (· != n) ++ h.dmaAsks.filter fun x => x / 8 != n / 8 }

/-- A line that enters a channel's buffer. -/
def Hw.dmaAddLine (h : Hw) (n : Nat) (l : DmaLine) : Hw := h.setCh n { h.ch n with lines := (h.ch n).lines ++ [l] }

theorem Hw.dmaAddLine_lines (h : Hw) (n : Nat) (l : DmaLine) : ((h.dmaAddLine n l).ch n).lines = (h.ch n).lines ++ [l] := by
  rw [Hw.dmaAddLine, Hw.ch_setCh_same]

theorem Hw.dmaReadLine_spot {h : Hw} {n va k : Nat} (hwants : h.dmaWants n = some va) (hspot : h.dmaSpot n va = .ok (some k)) :
    h.dmaReadLine n =
      if 2 ≤ k / 0x10000000000000 then
        (((h.dmaTurn n).lookups (dmaMaster n) va 64).askHost (k / 0x10000000000000 - 2) (.dmaLine n (h.ch n).run va) 64).dmaAddLine n { va := va }
      else
        let g := (h.dmaTurn n).touch (dmaMaster n) va 64
        g.dmaAddLine n { va := va, data := some (g.bytes k 64), bad := g.poisoned k 64 } := by
  unfold Hw.dmaReadLine
  rw [hwants]
  dsimp only
  rw [Hw.dmaSpot_asks, hspot]
  rfl

theorem Hw.AccessOnly.ch {h k : Hw} (hk : Hw.AccessOnly h k) (n : Nat) : k.ch n = h.ch n := by rw [hk]; rfl

theorem Hw.askHost_ch (h : Hw) (port : Nat) (who : ReadFor) (len n : Nat) : (h.askHost port who len).ch n = h.ch n := by
  unfold Hw.askHost
  dsimp only
  split <;> rfl

theorem Hw.dmaReadLine_near {h : Hw} {n va k : Nat} (hwants : h.dmaWants n = some va) (hspot : h.dmaSpot n va = .ok (some k))
    (hnear : k / 0x10000000000000 < 2) : ((h.dmaReadLine n).ch n).lines
      = (h.ch n).lines ++ [{ va := va, data := some ((h.dmaReadLine n).bytes k 64), bad := (h.dmaReadLine n).poisoned k 64 }] := by
  have hread := Hw.dmaReadLine_spot hwants hspot
  rw [if_neg (by omega)] at hread
  have hch : ((h.dmaTurn n).touch (dmaMaster n) va 64).ch n = h.ch n := ((h.dmaTurn n).touch_access _ _ _).ch n
  obtain ⟨g, hg⟩ : ∃ g, g = (h.dmaTurn n).touch (dmaMaster n) va 64 := ⟨_, rfl⟩
  rw [← hg] at hread hch
  rw [hread, Hw.dmaAddLine_lines, hch]
  rfl

theorem Hw.dmaReadLine_host {h : Hw} {n va k : Nat} (hwants : h.dmaWants n = some va) (hspot : h.dmaSpot n va = .ok (some k))
    (hhost : 2 ≤ k / 0x10000000000000) : ((h.dmaReadLine n).ch n).lines = (h.ch n).lines ++ [{ va := va }] := by
  rw [Hw.dmaReadLine_spot hwants hspot, if_pos hhost, Hw.dmaAddLine_lines, Hw.askHost_ch, ((h.dmaTurn n).lookups_access _ _ _).ch n]
  rfl

/-! ### A destination access -/

/-- The registers of a channel after an access of `w` bytes. -/
def Hw.dmaAdvance (h : Hw) (n src dst w fresh : Nat) : Hw :=
  let p := dmaPage n
  let h := h.count p 0x06C fresh
  let h := if w < 64 then h.count p 0x068 else h
  let h := (h.wr64 p 0x040 (src + w)).wr64 p 0x048 (dst + w)
  (h.wr p 0x050 (h.dmaCount n - w)).count64 p 0x060 w

theorem Hw.rd64_lt (h : Hw) (p o : Nat) : h.rd64 p o < 2 ^ 64 := by
  have hlo := h.rd_lt p o 0
  have hhi := h.rd_lt p (o + 4) 0
  unfold Hw.rd64
  omega

/-- What an access counts beside the bytes it moves. -/
def Hw.dmaCounts (h : Hw) (n w fresh : Nat) : Hw :=
  if w < 64 then (h.count (dmaPage n) 0x06C fresh).count (dmaPage n) 0x068 else h.count (dmaPage n) 0x06C fresh

theorem Hw.dmaCounts_rd (h : Hw) (n w fresh : Nat) {o : Nat} (ho : o < 0x060) : (h.dmaCounts n w fresh).rd (dmaPage n) o = h.rd (dmaPage n) o := by
  unfold Hw.dmaCounts
  split
  · simp (disch := omega) only [Hw.count, Hw.rd_wr_offset]
  · simp (disch := omega) only [Hw.count, Hw.rd_wr_offset]

theorem Hw.dmaAdvance_regs (h : Hw) (n src dst w fresh : Nat) :
    let k := h.dmaAdvance n src dst w fresh
    k.dmaSrc n = (src + w) % 2 ^ 64 ∧ k.dmaDst n = (dst + w) % 2 ^ 64 ∧ k.dmaCount n = h.dmaCount n - w ∧ k.dmaSt n = h.dmaSt n
      ∧ k.mem = h.mem ∧ k.queues = h.queues := by
  have hadvance : h.dmaAdvance n src dst w fresh =
      let g := ((h.dmaCounts n w fresh).wr64 (dmaPage n) 0x040 (src + w)).wr64 (dmaPage n) 0x048 (dst + w)
      (g.wr (dmaPage n) 0x050 (g.dmaCount n - w)).count64 (dmaPage n) 0x060 w := rfl
  have hcount := h.rd_lt (dmaPage n) 0x050 0
  have hkept {o : Nat} (ho : o < 0x060) := h.dmaCounts_rd n w fresh ho
  have hstands : (h.dmaCounts n w fresh).mem = h.mem ∧ (h.dmaCounts n w fresh).queues = h.queues := by
    unfold Hw.dmaCounts
    split <;> exact ⟨rfl, rfl⟩
  generalize h.dmaCounts n w fresh = g at hadvance hkept hstands
  have hlines : Hw.RegsOnly g (h.dmaAdvance n src dst w fresh) := by
    rw [hadvance]
    exact (((g.wr64_regsOnly _ _ _ _).trans (Hw.wr64_regsOnly _ _ _ _ _)).trans (Hw.wr_regsOnly _ _ _ _ _)).trans
      (Hw.count64_regsOnly _ _ _ _)
  refine ⟨?_, ?_, ?_, ?_, hlines.lines.mem.trans hstands.1, hlines.lines.queues.trans hstands.2⟩
  all_goals rw [hadvance]
  · simp (disch := omega) only [Hw.dmaSrc, Hw.count64, Hw.wr64, Hw.rd64, Hw.rd_wr_offset, Hw.rd_wr_same, Nat.reduceAdd]
    omega
  · simp (disch := omega) only [Hw.dmaDst, Hw.count64, Hw.wr64, Hw.rd64, Hw.rd_wr_offset, Hw.rd_wr_same, Nat.reduceAdd]
    omega
  · simp (disch := omega) only [Hw.dmaCount, Hw.count64, Hw.wr64, Hw.rd64, Hw.rd_wr_offset, Hw.rd_wr_same, Nat.reduceAdd, hkept]
    omega
  · simp (disch := omega) only [Hw.dmaSt, Hw.count64, Hw.wr64, Hw.rd64, Hw.rd_wr_offset, Nat.reduceAdd, hkept]

/-- Whether the destination lies over the source at a higher address, and the bytes that an access then writes. -/
def Hw.dmaOnto (h : Hw) (n : Nat) : Bool := decide (h.dmaSrc n < h.dmaDst n ∧ h.dmaDst n < h.dmaSrc n + (h.ch n).len)
def Hw.dmaWidth (h : Hw) (n : Nat) : Nat := dmaAccess (h.dmaDst n) (h.dmaCount n)
def Hw.dmaBytes (h : Hw) (n : Nat) (ls : List DmaLine) : List Byte :=
  if h.dmaOnto n then freeBytes h.freeCtr (h.dmaWidth n) else (List.range (h.dmaWidth n)).map fun i => dmaByte ls (h.dmaSrc n + i)

/-- The state in which an access of a channel finds memory. -/
def Hw.dmaMeets (h : Hw) (n : Nat) : Hw := (if h.dmaOnto n then h.draw else h).lookups (dmaMaster n) (h.dmaDst n) (h.dmaWidth n)

/-- The bytes of an access at key `k`, with their poison. -/
def Hw.dmaLands (h : Hw) (n : Nat) (ls : List DmaLine) (k : Nat) : Hw :=
  let g := ((h.dmaMeets n).store k (h.dmaBytes n ls)).countKennel k (h.dmaWidth n) true
  if !ls.any (·.bad) then g
  else if 2 ≤ k / 0x10000000000000 then (g.poisonRange k (h.dmaWidth n)).count (0x010 + (k / 0x10000000000000 - 2)) 0x068
  else g.poisonRange (k / 64 * 64) 64

theorem Hw.dmaPut_some (h : Hw) (n : Nat) (ls : List DmaLine) (k : Nat) : ∃ c fresh, h.dmaPut n ls (some k) =
    ((h.dmaLands n ls k).setCh n c).dmaAdvance n (h.dmaSrc n) (h.dmaDst n) (h.dmaWidth n) fresh := ⟨_, _, rfl⟩

theorem freeBytes_length (c n : Nat) : (freeBytes c n).length = n := by
  induction n with
  | zero => rfl
  | succ n ih => simp [freeBytes, ih]

theorem Hw.dmaBytes_length (h : Hw) (n : Nat) (ls : List DmaLine) : (h.dmaBytes n ls).length = h.dmaWidth n := by
  unfold Hw.dmaBytes
  split
  · exact freeBytes_length _ _
  · simp

theorem Hw.dmaBytes_get {h : Hw} {n i : Nat} (ls : List DmaLine) (honto : h.dmaOnto n = false) (hi : i < h.dmaWidth n) :
    (h.dmaBytes n ls).getD i 0 = dmaByte ls (h.dmaSrc n + i) := by
  unfold Hw.dmaBytes
  rw [honto, if_neg (by decide)]
  simp [hi]

theorem dmaMaster_slice (n : Fin 32) : (dmaMaster n.val).slice < 0x20 := by
  show n.val / 8 < 0x20
  omega

theorem Hw.dmaMeets_stands (h : Hw) (n : Fin 32) :
    Hw.HighKept h (h.dmaMeets n.val) ∧ (h.dmaMeets n.val).queues = h.queues := by
  unfold Hw.dmaMeets
  refine ⟨Hw.Keeps.trans ?_ (Hw.lookups_high _ (dmaMaster_slice n) _ _ _), (Hw.lookups_access _ _ _ _).outside.queues.trans ?_⟩
  · split
    · exact .of_regs rfl
    · exact .refl h
  · split <;> rfl

theorem Hw.poisonRange_mem (h : Hw) (k n : Nat) : (h.poisonRange k n).mem = h.mem := rfl
theorem Hw.poisonRange_queues (h : Hw) (k n : Nat) : (h.poisonRange k n).queues = h.queues := rfl

/-- Beside its own bytes an access moves no byte, no queue, and no register of a channel. -/
theorem Hw.dmaLands_stands (h : Hw) (n : Fin 32) (ls : List DmaLine) {k : Nat} (hspace : k / 0x10000000000000 < 5) :
    Hw.HighKept h (h.dmaLands n.val ls k) ∧ (h.dmaLands n.val ls k).queues = h.queues
      ∧ (h.dmaLands n.val ls k).mem = ((h.dmaMeets n.val).store k (h.dmaBytes n.val ls)).mem := by
  obtain ⟨hkept, hqueues⟩ := h.dmaMeets_stands n
  have hstore : Hw.HighKept h ((h.dmaMeets n.val).store k (h.dmaBytes n.val ls)) := hkept.trans (.of_regs (Hw.store_regs _ _ _))
  have hsq : ((h.dmaMeets n.val).store k (h.dmaBytes n.val ls)).queues = h.queues := (Hw.store_queues _ _ _).trans hqueues
  unfold Hw.dmaLands
  dsimp only
  generalize (h.dmaMeets n.val).store k (h.dmaBytes n.val ls) = m at hstore hsq ⊢
  have hcount := hstore.trans (m.countKennel_high (h.dmaWidth n.val) true (by omega : k / 0x10000000000000 < 0x30))
  have hlines := m.countKennel_lines k (h.dmaWidth n.val) true
  generalize m.countKennel k (h.dmaWidth n.val) true = g at hcount hlines ⊢
  have hg := hlines.queues.trans hsq
  split
  · exact ⟨hcount, hg, hlines.mem⟩
  · split
    · have hbad : Hw.HighKept h (g.poisonRange k (h.dmaWidth n.val)) := hcount.trans (.of_regs rfl)
      refine ⟨hbad.trans (Hw.count_high _ (by omega) 1 (by omega)), ?_, ?_⟩
      · rw [Hw.count_queues, Hw.poisonRange_queues, hg]
      · rw [Hw.count_mem, Hw.poisonRange_mem, hlines.mem]
    · exact ⟨hcount.trans (.of_regs rfl), hg, hlines.mem⟩

theorem highKey_dma (n : Fin 32) {o : Nat} (ho : o < 0x1000) : HighKey (regKey (dmaPage n.val * 0x1000 + o) 0) := by
  have hhome := regKey_home 0 (blockOf_dma n) (by decide) ho
  unfold HighKey
  unfold dmaPage at hhome ⊢
  omega

/-- What stands for every register of a channel stands for its counts. -/
theorem Hw.HighKept.channel {h k : Hw} (hk : Hw.HighKept h k) (n : Fin 32) :
    k.dmaCount n.val = h.dmaCount n.val ∧ k.dmaSt n.val = h.dmaSt n.val :=
  ⟨hk.rd (highKey_dma n (by omega)), congrArg (bitsOf · 18 16) (hk.rd (highKey_dma n (by omega)))⟩

theorem Hw.dmaTarget_space {h : Hw} {n k : Nat} (htarget : h.dmaTarget n = .ok (some k)) : k / 0x10000000000000 < 5 := by
  unfold Hw.dmaTarget at htarget
  split at htarget
  · cases htarget
  · cases hlocate : h.locate (dmaMaster n) (h.dmaDst n) true with
    | error e => rw [hlocate] at htarget; cases htarget
    | ok j =>
      rw [hlocate] at htarget
      cases htarget
      exact Hw.locate_space hlocate

theorem Hw.dmaWriteNext_ready {h : Hw} {n : Nat} {ls : List DmaLine} {k : Option Nat} (hready : h.dmaReady n = some ls)
    (htarget : h.dmaTarget n = .ok k) : h.dmaWriteNext n = h.dmaPut n ls k := by
  unfold Hw.dmaWriteNext
  rw [hready, htarget]

theorem Hw.dmaWriteNext_moving {h : Hw} {n : Nat} {ls : List DmaLine} (hready : h.dmaReady n = some ls)
    (htarget : h.dmaTarget n = .error .wait) (hmoving : h.dmaMoving n = true) :
    h.dmaWriteNext n = h.dmaSet n dWAIT_MOVE (h.dmaCode n) := by
  unfold Hw.dmaWriteNext
  rw [hready, htarget]
  exact if_pos hmoving

theorem dmaLinesAndWrites : DmaLinesAndWrites := by
  intro h n m src dst w
  refine ⟨fun va k hwants hspot => ⟨Hw.dmaReadLine_near hwants hspot, Hw.dmaReadLine_host hwants hspot⟩, fun ls dk hready htarget => ?write,
    fun ls hready htarget hmoving => Hw.dmaWriteNext_moving hready htarget hmoving⟩
  case write =>
    intro k onto
    obtain ⟨c, fresh, hput⟩ := h.dmaPut_some n.val ls dk
    have hk : k = ((h.dmaLands n.val ls dk).setCh n.val c).dmaAdvance n.val src dst w fresh :=
      (Hw.dmaWriteNext_ready hready htarget).trans hput
    obtain ⟨hkept, hqueues, hmem⟩ := h.dmaLands_stands n ls (Hw.dmaTarget_space htarget)
    obtain ⟨hcount, hst⟩ := hkept.channel n
    obtain ⟨hsrc', hdst', hcount', hst', hmem', hqueues'⟩ := ((h.dmaLands n.val ls dk).setCh n.val c).dmaAdvance_regs n.val src dst w fresh
    rw [← hk] at hsrc' hdst' hcount' hst' hmem' hqueues'
    have hbyte (a : Nat) : k.byte a = ((h.dmaMeets n.val).store dk (h.dmaBytes n.val ls)).byte a :=
      congrArg (smGet 0 a) (hmem'.trans hmem)
    have hlen := h.dmaBytes_length n.val ls
    refine ⟨fun honto i hi => ?_, fun a ha => ?_, hsrc', hdst', hcount'.trans (congrArg (· - w) hcount), hst'.trans hst, hqueues'.trans hqueues⟩
    · rw [hbyte, Hw.byte_store_same _ _ _ _ (by rw [hlen]; exact hi)]
      exact Hw.dmaBytes_get ls honto hi
    · rw [hbyte, Hw.byte_store_other _ _ _ _ (by rw [hlen]; exact ha)]
      rfl

/-! ### The end of a transfer -/

/-- The keys of the registers that stand on a page. -/
def PageKey (p x : Nat) : Prop := x / 0x4000 = p

theorem pageKey_home {p i o : Nat} {blk : Block} (b : Nat) (hblock : blockOf p = some (blk, i)) (hown : blk.ownRegs = true) (ho : o < 0x1000) :
    PageKey p (regKey (p * 0x1000 + o) b) := by
  have hhome := regKey_home b hblock hown ho
  unfold PageKey
  omega

theorem noIrq_pageKey {p : Nat} (hirq : p ≠ 4) : NoIrq (PageKey p) := noIrq_of_page fun k hk => by
  unfold PageKey at hk
  omega

theorem not_pageKey {p p' i o : Nat} {blk : Block} (hblock : blockOf p' = some (blk, i)) (hown : blk.ownRegs = true) (hne : p ≠ p')
    (ho : o < 0x1000) : ¬ PageKey p (regKey (p' * 0x1000 + o) 0) := fun hkey =>
  hne (hkey.symm.trans (pageKey_home 0 hblock hown ho))

/-- A source that another page raises moves no register of a page but the interrupt controller's. -/
theorem Hw.raise_pageKey (h : Hw) {p p' i : Nat} {blk : Block} (n : Nat) (hblock : blockOf p' = some (blk, i)) (hown : blk.ownRegs = true)
    (hne : p ≠ p') (hirq : p ≠ 4) : Hw.Keeps (PageKey p) h (h.raise p' n) :=
  h.raise_keeps n (noIrq_pageKey hirq) (not_pageKey hblock hown hne (by omega)) (not_pageKey hblock hown hne (by omega))

theorem blockOf_corePage : ∀ c : Fin 48, blockOf (corePage c.val) = some (.core, c.val) := by decide +kernel

theorem Hw.semAdd_pageKey (h : Hw) {p : Nat} (c : Fin 48) {i : Nat} (n : Nat) (hi : i < 16) (hne : p ≠ corePage c.val) (hirq : p ≠ 4) :
    Hw.Keeps (PageKey p) h (h.semAdd c.val i n) := by
  have hset (v : Nat) : Hw.Keeps (PageKey p) h (h.setSem c.val i v) :=
    h.wr_keeps _ (not_pageKey (blockOf_corePage c) (by decide) hne (by omega))
  unfold Hw.semAdd
  dsimp only
  split
  · exact (hset _).trans (Hw.raise_pageKey _ _ (blockOf_corePage c) (by decide) hne hirq)
  · exact hset _

/-- DONE, before its interrupt and its semaphore. -/
def Hw.dmaMarksDone (h : Hw) (n : Nat) : Hw :=
  (h.dmaSet n dDONE (if (h.ch n).poisoned then cECC else 0)).setCh n { run := (h.ch n).run }

/-- The control register as the transfer found it, and DONE with its interrupt. -/
def Hw.dmaCtl (h : Hw) (n : Nat) : Nat := h.rd (dmaPage n) 0x054
def Hw.dmaTells (h : Hw) (n : Nat) : Hw :=
  if bitOf (h.dmaCtl n) 6 then (h.dmaMarksDone n).raise (dmaPage n) 0 else h.dmaMarksDone n

theorem Hw.dmaFinish_eq (h : Hw) (n : Nat) : h.dmaFinish n =
    if bitOf (h.dmaCtl n) 7 ∧ bitsOf (h.dmaCtl n) 17 12 < 48
    then (h.dmaTells n).semAdd (bitsOf (h.dmaCtl n) 17 12) (bitsOf (h.dmaCtl n) 11 8) 1 else h.dmaTells n := rfl

/-- The semaphore that DONE adds to is of no channel's page. -/
theorem Hw.dmaFinish_kept (h : Hw) (n : Fin 32) : Hw.Keeps (PageKey (dmaPage n.val)) (h.dmaTells n.val) (h.dmaFinish n.val)
    ∧ (h.dmaFinish n.val).ch n.val = (h.dmaTells n.val).ch n.val := by
  rw [Hw.dmaFinish_eq]
  split
  · rename_i hsem
    have hi : bitsOf (h.dmaCtl n.val) 11 8 < 16 := Nat.mod_lt _ (by decide)
    have hpage : dmaPage n.val ≠ corePage (bitsOf (h.dmaCtl n.val) 17 12) ∧ dmaPage n.val ≠ 4 := by
      unfold dmaPage corePage
      omega
    refine ⟨Hw.semAdd_pageKey _ ⟨_, hsem.2⟩ 1 hi hpage.1 hpage.2, ?_⟩
    rw [Hw.ch, (Hw.semAdd_lines _ _ _ _).dma, Hw.ch]
  · exact ⟨.refl _, rfl⟩

theorem Hw.dmaTells_rd (h : Hw) (n : Fin 32) {o : Nat} (hlow : 0x020 ≤ o) (ho : o < 0x1000) :
    (h.dmaTells n.val).rd (dmaPage n.val) o = (h.dmaMarksDone n.val).rd (dmaPage n.val) o := by
  unfold Hw.dmaTells
  split
  · exact Hw.raise_rd_other _ (by unfold dmaPage; omega) hlow ho
  · rfl

theorem Hw.dmaFinish_stat (h : Hw) (n : Fin 32) : (h.dmaFinish n.val).rd (dmaPage n.val) 0x058
    = (h.dmaSet n.val dDONE (if (h.ch n.val).poisoned then cECC else 0)).rd (dmaPage n.val) 0x058 := by
  have hfinish := (h.dmaFinish_kept n).1.rd (pageKey_home 0 (blockOf_dma n) (by decide) (by omega : 0x058 < 0x1000))
  rw [hfinish, h.dmaTells_rd n (by omega) (by omega)]
  rfl

theorem Hw.dmaTells_ch (h : Hw) (n : Nat) : (h.dmaTells n).ch n = { run := (h.ch n).run } := by
  have hmarks : (h.dmaMarksDone n).ch n = { run := (h.ch n).run } := Hw.ch_setCh_same _ _ _
  unfold Hw.dmaTells
  split
  · rw [Hw.ch, (Hw.raise_lines _ _ _).dma, ← Hw.ch, hmarks]
  · exact hmarks

theorem Hw.dmaTells_sem (h : Hw) (n : Fin 32) (c : Fin 48) {i : Nat} (hi : i < 16) : (h.dmaTells n.val).sem c.val i = h.sem c.val i := by
  have hpage : corePage c.val ≠ dmaPage n.val ∧ corePage c.val ≠ 4 := by
    unfold dmaPage corePage
    omega
  have hmarks : Hw.Keeps (PageKey (corePage c.val)) h (h.dmaMarksDone n.val) :=
    (h.wr_keeps _ (not_pageKey (blockOf_dma n) (by decide) hpage.1 (by omega))).trans (.of_regs rfl)
  have htells : Hw.Keeps (PageKey (corePage c.val)) h (h.dmaTells n.val) := by
    unfold Hw.dmaTells
    split
    · exact hmarks.trans (Hw.raise_pageKey _ _ (blockOf_dma n) (by decide) hpage.1 hpage.2)
    · exact hmarks
  have hrd := htells.rd (pageKey_home 0 (blockOf_corePage c) (by decide) (by omega : 0x050 + 4 * (i / 2) < 0x1000))
  unfold Hw.sem
  rw [hrd]

theorem dmaFinishes : DmaFinishes := by
  intro h n ctl
  have hcode : (if (h.ch n.val).poisoned then cECC else 0) < 0x10000 := by split <;> decide
  have hstat := h.dmaFinish_stat n
  refine ⟨?_, ?_, ?_, fun hirq => ?_, fun hquiet c hc i hi => ?_⟩
  · rw [Hw.dmaSt, hstat]
    exact Hw.dmaSt_dmaSet _ _ (by decide) hcode
  · rw [Hw.dmaCode, hstat]
    exact Hw.dmaCode_dmaSet _ _ _ hcode
  · rw [(h.dmaFinish_kept n).2, Hw.dmaTells_ch]
  · have hpend := (h.dmaFinish_kept n).1.rd (pageKey_home 0 (blockOf_dma n) (by decide) (by omega : 0x010 < 0x1000))
    rw [Hw.bit, hpend, ← Hw.bit, Hw.dmaTells, if_pos (show bitOf (h.dmaCtl n.val) 6 = true from hirq)]
    exact Hw.raise_pending _ (by unfold dmaPage; omega) (by omega)
  · have hnone : ¬ (bitOf (h.dmaCtl n.val) 7 = true ∧ bitsOf (h.dmaCtl n.val) 17 12 < 48) := by
      rintro ⟨hsig, hcore⟩
      obtain hoff | hoff := hquiet
      · exact absurd (hsig.symm.trans hoff) (by decide)
      · exact absurd hcore (Nat.not_lt.mpr hoff)
    rw [Hw.dmaFinish_eq, if_neg hnone]
    exact h.dmaTells_sem n ⟨c, hc⟩ hi

/-! ### Faults and flips -/

section
variable {h : Hw} {n : Fin 32}

theorem dmaWaitMoveRelease_moving (hmoving : h.dmaMoving n.val = true) : dmaWaitMoveRelease n h = h := by
  unfold dmaWaitMoveRelease
  exact if_pos (.inr hmoving)

theorem dmaWaitMoveRelease_runs (hst : h.dmaSt n.val = dWAIT_MOVE) (hmoving : h.dmaMoving n.val = false) :
    dmaWaitMoveRelease n h = h.dmaSet n.val dRUNNING (h.dmaCode n.val) := by
  unfold dmaWaitMoveRelease
  dsimp only
  rw [hst, hmoving]
  simp

variable (hst : h.dmaSt n.val = dSTOPPING) (hafter : (h.ch n.val).stopAfter = true) (hmoving : h.dmaMoving n.val = false)
include hst hafter hmoving

theorem dmaWaitMoveRelease_writes {ls : List DmaLine} {k : Option Nat} (hready : h.dmaReady n.val = some ls)
    (htarget : h.dmaTarget n.val = .ok k) : dmaWaitMoveRelease n h =
      (h.dmaPut n.val ls k).setCh n.val { (h.dmaPut n.val ls k).ch n.val with stopAfter := false } := by
  unfold dmaWaitMoveRelease
  dsimp only
  rw [hst, hafter, hmoving, hready, htarget]
  rfl

theorem dmaWaitMoveRelease_faults {ls : List DmaLine} {cause level va : Nat} (hready : h.dmaReady n.val = some ls)
    (htarget : h.dmaTarget n.val = .error (.fault cause level va)) :
    dmaWaitMoveRelease n h = h.dmaFault n.val cause level va true := by
  unfold dmaWaitMoveRelease
  dsimp only
  rw [hst, hafter, hmoving, hready, htarget]
  rfl

end

theorem exec_dmaFaultStop {s : State} (n : Fin 32) (hup : Up s) : exec (.dmaFaultStop n) s = .next { s with hw := dmaFaultStop n s.hw } := by
  show execDmaFaultStop n s = _
  rw [execDmaFaultStop, State.onHw_up _ _ hup]

theorem exec_dmaWaitMoveRelease {s : State} (n : Fin 32) (hup : Up s) :
    exec (.dmaWaitMoveRelease n) s = .next { s with hw := dmaWaitMoveRelease n s.hw } := by
  show execDmaWaitMoveRelease n s = _
  rw [execDmaWaitMoveRelease, State.onHw_up _ _ hup]

theorem dmaFaultsAndFlips : DmaFaultsAndFlips := by
  intro s n hup c
  rw [exec_dmaFaultStop n hup, exec_dmaWaitMoveRelease n hup]
  refine ⟨fun cause level va wr hfault => ?_, fun hnone => ?_, fun hst hmoving => by rw [dmaWaitMoveRelease_runs hst hmoving],
    fun hst hafter hmoving => ⟨fun ls k hready htarget => ?_, fun ls cause level va hready htarget => ?_⟩,
    fun hmoving => by rw [dmaWaitMoveRelease_moving hmoving]⟩
  · rw [dmaFaultStop, hfault]
  · rw [dmaFaultStop, hnone]
  · rw [dmaWaitMoveRelease_writes hst hafter hmoving hready htarget]
  · rw [dmaWaitMoveRelease_faults hst hafter hmoving hready htarget]

/-- Settles O31: the engines' picks, the bytes and counts of an access, and the ends of a transfer. -/
theorem dmaMovesBytes : Obligations.DmaMovesBytes := ⟨dmaEngines, dmaLinesAndWrites, dmaFinishes, dmaFaultsAndFlips⟩

end Sys2Proof.Machine
end

section
/-! PROOF of O34: integer accumulation is exact (R133, R142). -/

namespace Sys2Proof.Machine

open Sys2Proof.Claims

/-- The sum of magnitudes. -/
def absSum (ps : List Int) : Nat := (ps.map Int.natAbs).sum

theorem natAbs_sum_le (ps : List Int) : ps.sum.natAbs ≤ absSum ps := by
  induction ps with
  | nil => exact Nat.le_refl 0
  | cons p ps ih =>
    have hstep := Int.natAbs_add_le p ps.sum
    simp only [absSum, List.map_cons, List.sum_cons] at ih ⊢
    omega

theorem absSum_append (a b : List Int) : absSum (a ++ b) = absSum a + absSum b := by simp [absSum]

theorem addSat_exact {a b : Int} (hbound : a.natAbs + b.natAbs ≤ 2147483647) : addSat a b = (a + b, 0) := by
  unfold addSat
  dsimp only
  rw [if_neg (by omega), if_neg (by omega)]

/-! ### Down a column -/

/-- One step of a column's sum. -/
def sumStep (acc : Int × Nat) (x : Int) : Int × Nat := ((addSat acc.1 x).1, acc.2 + (addSat acc.1 x).2)

theorem sumInt_eq (xs : List Int) : sumInt xs = xs.foldl sumStep (0, 0) := rfl

theorem foldl_sumStep_exact (xs : List Int) (a : Int) (hbound : a.natAbs + absSum xs ≤ 2147483647) :
    xs.foldl sumStep (a, 0) = (a + xs.sum, 0) := by
  induction xs generalizing a with
  | nil => simp
  | cons x xs ih =>
    have hcons : absSum (x :: xs) = x.natAbs + absSum xs := rfl
    have habs := Int.natAbs_add_le a x
    have hstep : sumStep (a, 0) x = (a + x, 0) := by
      unfold sumStep
      rw [addSat_exact (by omega)]
      rfl
    rw [List.foldl_cons, hstep, ih _ (by omega), List.sum_cons, Int.add_assoc]

theorem sumInt_exact {xs : List Int} (hbound : absSum xs ≤ 2147483647) : sumInt xs = (xs.sum, 0) := by
  rw [sumInt_eq, foldl_sumStep_exact xs 0 (by simpa using hbound), Int.zero_add]

/-! ### Through a tree -/

/-- The addition of a tree. -/
def addPair (a b : Int × Nat) : Int × Nat := ((addSat a.1 b.1).1, a.2 + b.2 + (addSat a.1 b.1).2)

/-- Exact partial sums. -/
def exactly (xs : List Int) : List (Int × Nat) := xs.map fun x => (x, 0)

theorem pairUp_exact (xs : List Int) (hbound : absSum xs ≤ 2147483647) :
    ∃ ys, pairUp addPair (exactly xs) = exactly ys ∧ ys.sum = xs.sum ∧ absSum ys ≤ absSum xs ∧ ys.length = (xs.length + 1) / 2 := by
  induction xs using List.twoStepInduction with
  | nil => exact ⟨[], rfl, rfl, Nat.le_refl _, rfl⟩
  | singleton x => exact ⟨[x], rfl, rfl, Nat.le_refl _, by simp⟩
  | cons_cons x y xs ih _ =>
    have hcons : absSum (x :: y :: xs) = x.natAbs + (y.natAbs + absSum xs) := rfl
    have habs := Int.natAbs_add_le x y
    obtain ⟨ys, hpair, hsum, hle, hlen⟩ := ih (by omega)
    have hadd : addPair (x, 0) (y, 0) = (x + y, 0) := by
      unfold addPair
      rw [addSat_exact (by omega)]
      rfl
    refine ⟨(x + y) :: ys, ?_, ?_, ?_, ?_⟩
    · show addPair (x, 0) (y, 0) :: pairUp addPair (exactly xs) = _
      rw [hadd, hpair]
      rfl
    · rw [List.sum_cons, hsum, List.sum_cons, List.sum_cons, Int.add_assoc]
    · have hys : absSum ((x + y) :: ys) = (x + y).natAbs + absSum ys := rfl
      omega
    · simp only [List.length_cons, hlen]
      omega

/-- A tree of enough levels adds exactly. -/
theorem treeSum_exact (fuel : Nat) (xs : List Int) (hlen : xs.length ≤ 2 ^ fuel) (hbound : absSum xs ≤ 2147483647) :
    treeSum addPair (0, 0) fuel (exactly xs) = (xs.sum, 0) := by
  have hsmall (ys : List Int) (hys : ys.length ≤ 1) : (exactly ys).headD (0, 0) = (ys.sum, 0) := by
    match ys, hys with
    | [], _ => rfl
    | [y], _ => simp [exactly]
  induction fuel generalizing xs with
  | zero => exact hsmall xs (by simpa using hlen)
  | succ fuel ih =>
    have hlength : (exactly xs).length = xs.length := List.length_map _
    unfold treeSum
    by_cases hone : xs.length ≤ 1
    · rw [if_pos (by omega), hsmall xs hone]
    · obtain ⟨ys, hpair, hsum, hle, hys⟩ := pairUp_exact xs hbound
      rw [if_neg (by omega), hpair, ih ys (by rw [Nat.pow_succ] at hlen; omega) (by omega), hsum]

/-! ### The cells of a member, and the members of a pass -/

section
variable {M : Type} [AddCommMonoid M] (f : Int → M)

/-- What `f` adds up to over a list. -/
def total (xs : List Int) : M := (xs.map f).sum

theorem total_append (a b : List Int) : total f (a ++ b) = total f a + total f b := by simp [total]

theorem total_firsts (n : Nat) (xs : List Int) : ((List.range n).map fun i => total f xs[i]?.toList).sum = total f (xs.take n) := by
  induction n with
  | zero => simp [total]
  | succ n ih => simp [List.range_succ, List.take_add_one, total_append, ih]

/-- The cells of a column that takes its products 64 at a time, `turns` times. -/
def cellsOf (turns : Nat) (xs : List Int) : List (List Int) :=
  (List.range 64).map fun i => (List.range turns).filterMap fun t => xs[64 * t + i]?

theorem total_cellsOf (turns : Nat) (xs : List Int) (hlen : xs.length ≤ 64 * turns) :
    ((cellsOf turns xs).map (total f)).sum = total f xs := by
  induction turns generalizing xs with
  | zero =>
    have hnil : xs = [] := List.length_eq_zero_iff.mp (by omega)
    subst hnil
    simp [cellsOf, total]
  | succ turns ih =>
    have hcell (i : Nat) : (List.range (turns + 1)).filterMap (fun t => xs[64 * t + i]?)
        = xs[i]?.toList ++ (List.range turns).filterMap fun t => (xs.drop 64)[64 * t + i]? := by
      rw [List.range_succ_eq_map, List.filterMap_cons, List.filterMap_map]
      have hnext : ((fun t => xs[64 * t + i]?) ∘ Nat.succ) = fun t => (xs.drop 64)[64 * t + i]? := by
        funext t
        rw [Function.comp_apply, List.getElem?_drop]
        congr 1
        omega
      rw [hnext, Nat.mul_zero, Nat.zero_add]
      cases xs[i]? <;> rfl
    have hsplit : (cellsOf (turns + 1) xs).map (total f) = (List.range 64).map fun i =>
        total f xs[i]?.toList + total f ((List.range turns).filterMap fun t => (xs.drop 64)[64 * t + i]?) := by
      simp only [cellsOf, List.map_map, Function.comp_def, hcell, total_append]
    have hrest := ih (xs.drop 64) (by rw [List.length_drop]; omega)
    rw [cellsOf, List.map_map] at hrest
    rw [hsplit, List.sum_map_add, total_firsts]
    refine (congrArg (total f (xs.take 64) + ·) hrest).trans ?_
    rw [← total_append, List.take_append_drop]

theorem total_cellRuns (xs : List Int) : ((cellRuns xs).map (total f)).sum = total f xs :=
  total_cellsOf f ((xs.length + 63) / 64) xs (by omega)

theorem total_memberRuns (members per : Nat) (xs : List Int) (hlen : xs.length ≤ members * per) :
    ((memberRuns members per xs).map (total f)).sum = total f xs := by
  induction members generalizing xs with
  | zero =>
    have hnil : xs = [] := List.length_eq_zero_iff.mp (by omega)
    subst hnil
    simp [memberRuns, total]
  | succ members ih =>
    have hsplit : memberRuns (members + 1) per xs = xs.take per :: memberRuns members per (xs.drop per) := by
      simp only [memberRuns, List.range_succ_eq_map, List.map_cons, List.map_map, Function.comp_def, List.drop_drop, Nat.zero_mul, List.drop_zero,
        Nat.succ_eq_add_one, Nat.succ_mul, Nat.add_comm]
    rw [Nat.succ_mul] at hlen
    rw [hsplit, List.map_cons, List.sum_cons, ih _ (by rw [List.length_drop]; omega), ← total_append, List.take_append_drop]

end

theorem total_id (xs : List Int) : total id xs = xs.sum := by simp [total]
theorem total_natAbs (xs : List Int) : total Int.natAbs xs = absSum xs := rfl

theorem absSum_sums_le (xss : List (List Int)) : absSum (xss.map List.sum) ≤ (xss.map absSum).sum := by
  induction xss with
  | nil => exact Nat.le_refl 0
  | cons xs xss ih =>
    have hhead := natAbs_sum_le xs
    simp only [absSum, List.map_cons, List.sum_cons] at ih ⊢
    simp only [absSum] at hhead
    omega

theorem le_sum_of_mem {n : Nat} {ns : List Nat} (hn : n ∈ ns) : n ≤ ns.sum := by
  induction ns with
  | nil => cases hn
  | cons m ns ih =>
    rw [List.sum_cons]
    obtain rfl | hn := List.mem_cons.mp hn
    · omega
    · have := ih hn
      omega

/-- Lists that add up to no more than INT32 holds are added exactly one by one, and then through a tree. -/
theorem treeSum_lists {fuel : Nat} {xss : List (List Int)} {g : List Int → Int × Nat} (hlen : xss.length ≤ 2 ^ fuel)
    (hbound : (xss.map absSum).sum ≤ 2147483647) (hg : ∀ xs, absSum xs ≤ 2147483647 → g xs = (xs.sum, 0)) :
    treeSum addPair (0, 0) fuel (xss.map g) = ((xss.map List.sum).sum, 0) := by
  have hmap : xss.map g = exactly (xss.map List.sum) := by
    rw [exactly, List.map_map]
    refine List.map_congr_left fun xs hxs => hg xs ?_
    exact (le_sum_of_mem (List.mem_map.mpr ⟨xs, hxs, rfl⟩)).trans hbound
  rw [hmap, treeSum_exact fuel _ (by rwa [List.length_map]) ((absSum_sums_le xss).trans hbound)]

/-- A member of a gang adds its products exactly. -/
theorem memberSum_exact {xs : List Int} (hbound : absSum xs ≤ 2147483647) :
    treeSum addPair (0, 0) 6 ((cellRuns xs).map sumInt) = (xs.sum, 0) := by
  have hcells : ((cellRuns xs).map absSum).sum = absSum xs := total_cellRuns Int.natAbs xs
  have hsum : ((cellRuns xs).map List.sum).sum = xs.sum := by
    have htotal := total_cellRuns id xs
    simpa only [funext total_id] using htotal
  rw [treeSum_lists (by simp [cellRuns]) (by omega) fun ys hys => sumInt_exact hys, hsum]

theorem passInt_tree (members per : Nat) (ps : List Int) : passInt true members per ps =
    treeSum addPair (0, 0) 2 ((memberRuns members per ps).map fun mp => treeSum addPair (0, 0) 6 ((cellRuns mp).map sumInt)) := rfl

/-- Settles O34: partial sums of bounded magnitudes never saturate, whatever the order of a tree. -/
theorem integerSumsAreExact : Obligations.IntegerSumsAreExact := by
  intro tree members per ps _ hmembers hlen hbound
  have habs : absSum ps ≤ 2147483647 := hbound
  cases tree with
  | false => exact sumInt_exact habs
  | true =>
    have hmember : ((memberRuns members per ps).map absSum).sum = absSum ps := total_memberRuns Int.natAbs members per ps hlen
    have hsum : ((memberRuns members per ps).map List.sum).sum = ps.sum := by
      have htotal := total_memberRuns id members per ps hlen
      simpa only [funext total_id] using htotal
    rw [passInt_tree, treeSum_lists (by simpa [memberRuns] using hmembers) (by omega) fun xs hxs => memberSum_exact hxs, hsum]

end Sys2Proof.Machine
end

section
/-! PROOF of O35: TREE_MODE, ARR_OFF and the bypass maps (R142, R155, R156). -/

namespace Sys2Proof.Machine

open Sys2Proof.Claims

/-- The registers of a core's page that the arrays' repair is written at are no doorbells. -/
theorem doorbell_array (n : Fin 48) {o : Nat} (ho : 0x300 ≤ o) : doorbell (corePage n.val) o = false := by
  have hblock := blockOf_corePage n
  have hat (lo hi k : Nat) (hhi : hi ≤ 0x300) : queueRegAt lo hi k o = false := by
    unfold queueRegAt
    rw [decide_eq_false (by omega), Bool.false_and]
  unfold doorbell queueReg mboxReg
  rw [hblock]
  dsimp only
  rw [hat _ _ _ (by omega), hat _ _ _ (by omega), beq_eq_false_iff_ne.mpr (by omega)]
  rfl

/-! ### Widths -/

/-- The width of array `a` by ARR_OFF and its bypass map. -/
def Hw.bypassWidth (h : Hw) (p a : Nat) : Nat :=
  if h.bit p 0x310 a = true ∨ 8 < popcount (h.rd p (0x318 + 8 * a)) + popcount (h.rd p (0x31C + 8 * a))
  then 0 else 64 - (popcount (h.rd p (0x318 + 8 * a)) + popcount (h.rd p (0x31C + 8 * a)))

theorem Hw.bypassWidth_le (h : Hw) (p a : Nat) : h.bypassWidth p a ≤ 64 := by
  unfold Hw.bypassWidth
  split <;> omega

theorem Hw.arrFollow_eq (h : Hw) (n : Nat) : h.arrFollow n =
    let p := corePage n
    (h.wr p 0x300 (h.bypassWidth p 0 + 256 * (h.bypassWidth p 1 + 256 * (h.bypassWidth p 2 + 256 * (h.bypassWidth p 3 + 256 * 0))))).wr p 0x304
      (min (min (min (min 64 (h.bypassWidth p 0)) (h.bypassWidth p 1)) (h.bypassWidth p 2)) (h.bypassWidth p 3)) := by
  have hwidth (a : Nat) : (if h.bit (corePage n) 0x310 a || decide (8 < popcount (h.rd (corePage n) (0x318 + 8 * a))
      + popcount (h.rd (corePage n) (0x31C + 8 * a))) then 0
      else 64 - (popcount (h.rd (corePage n) (0x318 + 8 * a)) + popcount (h.rd (corePage n) (0x31C + 8 * a)))) = h.bypassWidth (corePage n) a := by
    unfold Hw.bypassWidth
    simp only [Bool.or_eq_true, decide_eq_true_eq]
  unfold Hw.arrFollow
  dsimp only
  simp only [hwidth]
  rfl

/-- ARR_WIDTH and ARR_GANG tell the widths that ARR_OFF and the maps give. -/
theorem Hw.arrFollow_follows (h : Hw) (n : Nat) :
    let p := corePage n
    let k := h.arrFollow n
    (∀ o, 0x308 ≤ o → o < 0x1000 → k.rd p o = h.rd p o) ∧ (∀ a < 4, k.bypassWidth p a = h.bypassWidth p a)
      ∧ (∀ a < 4, k.arrWidth n a = k.bypassWidth p a)
      ∧ k.gangWidth n = min (min (k.bypassWidth p 0) (k.bypassWidth p 1)) (min (k.bypassWidth p 2) (k.bypassWidth p 3)) := by
  intro p k
  have hk : k = (h.wr p 0x300 (h.bypassWidth p 0 + 256 * (h.bypassWidth p 1 + 256 * (h.bypassWidth p 2 + 256 * (h.bypassWidth p 3 + 256 * 0))))).wr
      p 0x304 (min (min (min (min 64 (h.bypassWidth p 0)) (h.bypassWidth p 1)) (h.bypassWidth p 2)) (h.bypassWidth p 3)) := h.arrFollow_eq n
  have hrd (o : Nat) (hlow : 0x308 ≤ o) (ho : o < 0x1000) : k.rd p o = h.rd p o := by
    rw [hk, Hw.rd_wr_offset _ _ (by omega) ho (by omega), Hw.rd_wr_offset _ _ (by omega) ho (by omega)]
  have hsame (a : Nat) (ha : a < 4) : k.bypassWidth p a = h.bypassWidth p a := by
    unfold Hw.bypassWidth Hw.bit
    rw [hrd 0x310 (by omega) (by omega), hrd (0x318 + 8 * a) (by omega) (by omega), hrd (0x31C + 8 * a) (by omega) (by omega)]
  have h0 := h.bypassWidth_le p 0
  have h1 := h.bypassWidth_le p 1
  have h2 := h.bypassWidth_le p 2
  have h3 := h.bypassWidth_le p 3
  have hwidths : k.rd p 0x300 = h.bypassWidth p 0 + 256 * (h.bypassWidth p 1 + 256 * (h.bypassWidth p 2 + 256 * (h.bypassWidth p 3 + 256 * 0))) := by
    rw [hk, Hw.rd_wr_offset _ _ (by omega) (by omega) (by omega), Hw.rd_wr_same]
    exact Nat.mod_eq_of_lt (by omega)
  have hgang : k.rd p 0x304 = min (min (min (min 64 (h.bypassWidth p 0)) (h.bypassWidth p 1)) (h.bypassWidth p 2)) (h.bypassWidth p 3) := by
    rw [hk, Hw.rd_wr_same]
    exact Nat.mod_eq_of_lt (by omega)
  refine ⟨hrd, hsame, fun a ha => ?_, ?_⟩
  · rw [hsame a ha, Hw.arrWidth, hwidths]
    have hcases : a = 0 ∨ a = 1 ∨ a = 2 ∨ a = 3 := by omega
    obtain rfl | rfl | rfl | rfl := hcases
    all_goals
      simp only [bitsOf, Nat.reduceMul, Nat.reduceAdd, Nat.reduceSub, Nat.reducePow]
      omega
  · rw [hsame 0 (by omega), hsame 1 (by omega), hsame 2 (by omega), hsame 3 (by omega), Hw.gangWidth, hgang]
    simp only [bitsOf, Nat.reduceAdd, Nat.reduceSub, Nat.reducePow]
    omega

/-! ### Writes -/

theorem exec_treeModeWrite {s : State} {r : Req} {n : Fin 48} {v : Word} (hreach : Reaches s r (corePage n.val) 0x308) :
    exec (.treeModeWrite r n v) s = .next { s with hw := s.hw.wr (corePage n.val) 0x308 (v.toNat % 2) } := by
  obtain ⟨hup, hclear, hacc⟩ := hreach
  show execTreeModeWrite r n v s = _
  rw [execTreeModeWrite, State.onHw_up _ _ hup, treeModeWrite,
    Hw.guardWrite_accepted _ _ _ hclear hacc (doorbell_array n (by omega))]

/-- An offset at which ARRAY_REPAIR_WRITE is about a half of a bypass map. -/
def bypassHalf (o : Nat) : Prop := 0x318 ≤ o ∧ o < 0x338 ∧ o % 4 = 0

theorem exec_arrayRepairWrite {s : State} {r : Req} {n : Fin 48} {o : Nat} {v : Word} (hup : Up s) (hoff : o = 0x310 ∨ bypassHalf o) :
    exec (.arrayRepairWrite r n o v) s = .next { s with hw := arrayRepairWrite r n.val o v s.hw } := by
  show execArrayRepairWrite r n o v s = _
  rw [execArrayRepairWrite, if_pos (show o = 0x310 ∨ (0x318 ≤ o ∧ o < 0x338 ∧ o % 4 = 0) from hoff), State.onHw_up _ _ hup]

section
variable {h : Hw} {r : Req} {n : Fin 48} {o : Nat} (hclear : h.portHeld r = false) (hacc : h.accepts r (corePage n.val) o = true)
  (ho : 0x300 ≤ o)
include hclear hacc ho

theorem Hw.arrayRepair_allowed (v : Nat) (lo : Option Nat) (hhandler : r = .handler) (hquiet : h.coreQuiet n.val = true) :
    h.arrayRepair r n.val o v lo =
      (((match lo with
        | some l => h.wr (corePage n.val) (o - 4) l
        | none => h).wr (corePage n.val) o (if o = 0x310 then v % 16 else v))).arrFollow n.val := by
  unfold Hw.arrayRepair
  dsimp only
  rw [Hw.guardWrite_accepted _ _ _ hclear hacc (doorbell_array n ho)]
  exact if_neg (by simp [hhandler, hquiet])

theorem Hw.arrayRepair_refused (v : Nat) (lo : Option Nat) (hnot : r ≠ .handler ∨ h.coreQuiet n.val = false) :
    h.arrayRepair r n.val o v lo = h.badAccess (pageOff (corePage n.val) o) := by
  unfold Hw.arrayRepair
  dsimp only
  rw [Hw.guardWrite_accepted _ _ _ hclear hacc (doorbell_array n ho)]
  exact if_pos (by simpa using hnot)

end

theorem arrayRepairWrite_off (r : Req) (n : Nat) (v : Word) (h : Hw) :
    arrayRepairWrite r n 0x310 v h = h.arrayRepair r n 0x310 v.toNat none := rfl

theorem arrayRepairWrite_lo {h : Hw} {r : Req} {n : Fin 48} {o : Nat} {v : Word} (hclear : h.portHeld r = false)
    (hacc : h.accepts r (corePage n.val) o = true) (hhalf : bypassHalf o) (hlo : o % 8 = 0) :
    arrayRepairWrite r n.val o v h =
      if r ≠ .handler ∨ !h.coreQuiet n.val then h.badAccess (pageOff (corePage n.val) o) else h.stageLo r (pageOff (corePage n.val) o) v := by
  obtain ⟨hmin, hmax, -⟩ := hhalf
  unfold arrayRepairWrite
  dsimp only
  rw [if_neg (by omega), if_pos hlo, Hw.guardWrite_accepted _ _ _ hclear hacc (doorbell_array n (by omega))]

theorem arrayRepairWrite_hi {r : Req} {n o : Nat} {v : Word} {h : Hw} (hhalf : bypassHalf o) (hhi : o % 8 = 4) :
    arrayRepairWrite r n o v h =
      (h.arrayRepair r n o v.toNat (some (h.stagedLo r (pageOff (corePage n) o - 4) 0).toNat)).unstage r := by
  obtain ⟨hmin, hmax, -⟩ := hhalf
  unfold arrayRepairWrite
  dsimp only
  rw [if_neg (by omega), if_neg (by omega)]

theorem Hw.unstage_reg (h : Hw) (r : Req) (off b : Nat) : (h.unstage r).reg off b = h.reg off b := by cases r <;> rfl
theorem Hw.unstage_staging (h : Hw) (r : Req) : ((h.unstage r).acc r).staging = none := by cases r <;> rfl
theorem Hw.unstage_accs (h : Hw) (r : Req) :
    h.unstage r = { h with accA := (h.unstage r).accA, accB := (h.unstage r).accB, accH := (h.unstage r).accH } := by cases r <;> rfl

/-- The registers that follow a write of ARR_OFF or a map, and what the write leaves. -/
def FollowsMaps (h : Hw) (n : Nat) (k : Hw) : Prop :=
  (∀ a < 4, k.arrWidth n a = k.bypassWidth (corePage n) a)
    ∧ k.gangWidth n = min (min (k.bypassWidth (corePage n) 0) (k.bypassWidth (corePage n) 1))
        (min (k.bypassWidth (corePage n) 2) (k.bypassWidth (corePage n) 3))
    ∧ k = { h with regs := k.regs, accA := k.accA, accB := k.accB, accH := k.accH }

theorem Hw.arrFollow_maps {h g : Hw} (n : Nat) (hg : Hw.RegsOnly h g) : FollowsMaps h n (g.arrFollow n) := by
  obtain ⟨-, -, hwidth, hgang⟩ := g.arrFollow_follows n
  have honly : Hw.RegsOnly h (g.arrFollow n) := hg.trans ((g.wr_regsOnly _ _ _ _).trans (Hw.wr_regsOnly _ _ _ _ _))
  refine ⟨hwidth, hgang, ?_⟩
  rw [honly]

theorem Hw.unstage_maps {h k : Hw} {n : Nat} (r : Req) (hk : FollowsMaps h n k) : FollowsMaps h n (k.unstage r) := by
  obtain ⟨hwidth, hgang, honly⟩ := hk
  have hrd (p o : Nat) : (k.unstage r).rd p o = k.rd p o := congrArg BitVec.toNat (k.unstage_reg r _ _)
  have hbypass (p a : Nat) : (k.unstage r).bypassWidth p a = k.bypassWidth p a := by
    unfold Hw.bypassWidth Hw.bit
    simp only [hrd]
  refine ⟨fun a ha => ?_, ?_, ?_⟩
  · rw [hbypass, Hw.arrWidth, hrd]
    exact hwidth a ha
  · simp only [hbypass]
    rw [Hw.gangWidth, hrd]
    exact hgang
  · rw [Hw.unstage_accs, honly]

/-- Settles O35: the write's own bits, and the widths that follow them. -/
theorem arrayControl : Obligations.ArrayControl := by
  refine ⟨fun s r n v hreach => exec_treeModeWrite hreach, fun s r n o v hreach => ?_⟩
  obtain ⟨hup, hclear, hacc⟩ := hreach
  intro p half width follows
  refine ⟨fun hhandler hquiet => ⟨fun hoff => ?off, fun hhalf hlo => ?lo, fun hhalf hhi => ?hi⟩, fun hnot hoff => ?refused,
    fun hnot hhalf hhi => ?refusedHi⟩
  case off =>
    subst hoff
    refine ⟨_, exec_arrayRepairWrite hup (.inl rfl), ?_⟩
    rw [arrayRepairWrite_off, Hw.arrayRepair_allowed hclear hacc (by omega) _ _ hhandler hquiet]
    refine ⟨?_, Hw.arrFollow_maps _ (Hw.wr_regsOnly _ _ _ _ _)⟩
    rw [(Hw.arrFollow_follows _ _).1 0x310 (by omega) (by omega), Hw.rd_wr_same, if_pos rfl]
    omega
  case lo =>
    rw [exec_arrayRepairWrite hup (.inr hhalf), arrayRepairWrite_lo hclear hacc hhalf hlo, if_neg (by simp [hhandler, hquiet])]
  case hi =>
    obtain ⟨hmin, hmax, hfour⟩ := hhalf
    have hlt := v.isLt
    obtain ⟨l, hl⟩ : ∃ l, l = s.hw.stagedLo r (pageOff p o - 4) 0 := ⟨_, rfl⟩
    obtain ⟨g, hg⟩ : ∃ g, g = (s.hw.wr p (o - 4) l.toNat).wr p o v.toNat := ⟨_, rfl⟩
    have hk : arrayRepairWrite r n.val o v s.hw = (g.arrFollow n.val).unstage r := by
      rw [arrayRepairWrite_hi ⟨hmin, hmax, hfour⟩ hhi, Hw.arrayRepair_allowed hclear hacc (by omega) _ _ hhandler hquiet, hg, hl,
        if_neg (by omega)]
    have hfollow := (Hw.arrFollow_follows g n.val).1
    have honly : Hw.RegsOnly s.hw g := hg ▸ (s.hw.wr_regsOnly _ _ _ _).trans (Hw.wr_regsOnly _ _ _ _ _)
    refine ⟨_, exec_arrayRepairWrite hup (.inr ⟨hmin, hmax, hfour⟩), ?_⟩
    rw [hk]
    refine ⟨?_, ?_, Hw.unstage_staging _ _, Hw.unstage_maps r (Hw.arrFollow_maps n.val honly)⟩
    · rw [Hw.rd, Hw.unstage_reg, ← Hw.rd, hfollow o (by omega) (by omega), hg, Hw.rd_wr_same]
      exact Nat.mod_eq_of_lt hlt
    · rw [Hw.unstage_reg, ← hl]
      refine BitVec.eq_of_toNat_eq ((hfollow (o - 4) (by omega) (by omega)).trans ?_)
      rw [hg, Hw.rd_wr_offset _ _ (by omega) (by omega) (by omega), Hw.rd_wr_same]
      exact Nat.mod_eq_of_lt l.isLt
  case refused =>
    obtain rfl | ⟨hhalf, hlo⟩ := hoff
    · rw [exec_arrayRepairWrite hup (.inl rfl), arrayRepairWrite_off, Hw.arrayRepair_refused hclear hacc (by omega) _ _ hnot]
    · rw [exec_arrayRepairWrite hup (.inr hhalf), arrayRepairWrite_lo hclear hacc hhalf hlo, if_pos (by simpa using hnot)]
  case refusedHi =>
    obtain ⟨hmin, hmax, hfour⟩ := hhalf
    rw [exec_arrayRepairWrite hup (.inr ⟨hmin, hmax, hfour⟩), arrayRepairWrite_hi ⟨hmin, hmax, hfour⟩ hhi,
      Hw.arrayRepair_refused hclear hacc (by omega) _ _ hnot]

end Sys2Proof.Machine
end

section
/-! PROOF of O32: every output element of MATMUL (R145 to R148). -/

namespace Sys2Proof.Machine

open Sys2Proof.Claims

theorem exec_matmul {s : State} (n : Fin 48) (q : Fin 8) (hup : Up s) : exec (.matmul n q) s = .next { s with
    hw := s.hw.execCore ⟨.core n, q.val⟩ 0x10 fun h c => matmulRun h ⟨.core n, q.val⟩ c } := by
  show execMatmul n q s = _
  rw [execMatmul, State.onHw_up _ _ hup]

/-- A count of zero leaves MATMUL without effect. -/
theorem matmulRun_empty {h : Hw} {id : QId} {c : Cmd}
    (hzero : (matmulOp c.desc).m = 0 ∨ (matmulOp c.desc).kTiles = 0 ∨ (matmulOp c.desc).nOut = 0) : matmulRun h id c = .ok {} := by
  unfold matmulRun
  dsimp only
  rw [if_pos hzero]

theorem exCheck_true {b : Bool} (code : Nat) (hb : b = true) : exCheck b code = .ok () := by rw [exCheck, hb]; rfl

theorem exOk_bind {α β : Type} (a : α) (f : α → Ex β) : ((Except.ok a : Ex α) >>= f) = f a := rfl

/-- A command whose operands are read gives its elements row by row. -/
theorem matmulRun_reads {h : Hw} {id : QId} {c : Cmd} {sA : Int} {bytes : List Byte} {cols : List (List Tile)} {entries : List Nat} :
    let o := matmulOp c.desc
    let isInt := (arrayPair o.wgt o.act) == some true
    o.m ≠ 0 → o.kTiles ≠ 0 → o.nOut ≠ 0 →
    (o.conv = true → (exNat h (queueMaster id) (ctxScaleTable c.ctx + o.scaleIndex) 1).map (signedOf 8) = .ok sA) →
    (o.conv = false → sA = 0) → h.source id c 0 (elemBytes o.src (o.m * o.kTiles * 64)) = .ok bytes →
    ((List.range o.nTiles).mapM fun nt => (List.range o.kTiles).mapM fun kt =>
      readTile h (queueMaster id) o.va o.wgt o.sparse o.kTiles o.nTiles o.tileCols o.nOut kt nt) = .ok cols →
    ((List.range o.nOut).mapM fun j => rescaleEntry h (queueMaster id) c.ctx o.rescale o.rescaleIndex j) = .ok entries →
    (isInt = true → cols.all sameShift = true) →
    let feed (i : Nat) := feedRow o sA ((bytes.drop (i * elemBytes o.src (o.kTiles * 64))).take (elemBytes o.src (o.kTiles * 64))).toArray
    let acc (i j : Nat) := columnSum isInt c.tree (o.wgt == fmFP32) o.chain o.passTiles sA
      ((cols.getD (j / o.tileCols) []).zip ((runsOf 64 o.kTiles (feed i).1).map List.toArray)) (j % o.tileCols)
    let out (i j : Nat) := outElem o.dst isInt o.rescale (entries.getD j 0)
      (((cols.getD (j / o.tileCols) []).head?.map (·.shift)).getD 0 + sA) (acc i j).1 (acc i j).2.1
    ∃ r, matmulRun h id c = .ok r
      ∧ r.result = packElems o.dst ((List.range o.m).flatMap fun i => (List.range o.nOut).map fun j => (out i j).1)
      ∧ Delivers c.desc r
      ∧ (0x338, ((List.range o.m).map fun i => ((List.range o.nOut).map fun j => (acc i j).2.2).sum).sum) ∈ r.counts := by
  intro o isInt hm hk hn hscale hplain hsource hcols hentries hshift feed acc out
  have hcheck : exCheck (!isInt || cols.all sameShift) cFORMAT = .ok () := exCheck_true _ (by
    cases hint : isInt
    · rfl
    · rw [hshift hint]
      rfl)
  have hcount : ¬ ((matmulOp c.desc).m = 0 ∨ (matmulOp c.desc).kTiles = 0 ∨ (matmulOp c.desc).nOut = 0) := by
    rintro (hzero | hzero | hzero)
    · exact hm hzero
    · exact hk hzero
    · exact hn hzero
  unfold matmulRun
  dsimp only
  rw [if_neg hcount]
  obtain hconv | hconv := Bool.eq_false_or_eq_true (matmulOp c.desc).conv
  on_goal 1 => rw [if_pos hconv, hscale hconv, exOk_bind]
  on_goal 2 =>
    obtain rfl := hplain hconv
    rw [if_neg (by rw [hconv]; decide)]
  all_goals
    rw [hsource, exOk_bind, hcols, exOk_bind, hentries, exOk_bind, hcheck, exOk_bind]
    refine ⟨_, rfl, ?_, ⟨rfl, rfl, rfl, rfl, rfl⟩, ?_⟩
    · simp only [List.flatMap_map, List.map_map, Function.comp_def]
      rfl
    · simp only [List.map_map, Function.comp_def]
      exact List.mem_cons_self ..

/-- Settles O32: the elements that a command whose operands are read gives. -/
theorem matmulResult : Obligations.MatmulResult := by
  intro s n q c hup id o isInt srcN hhead
  refine ⟨fun hzero => ?_, fun sA bytes cols entries hm hk hn hscale hplain hsource hcols hentries hshift => ?_⟩
  · rw [exec_matmul n q hup, s.hw.execCore_head hhead (matmulRun_empty hzero)]
  · intro feed acc out
    obtain ⟨r, hrun, hresult, hdelivers, hcounts⟩ := matmulRun_reads hm hk hn hscale hplain hsource hcols hentries hshift
    exact ⟨r, by rw [exec_matmul n q hup, s.hw.execCore_head hhead hrun], hresult, hdelivers, hcounts⟩

end Sys2Proof.Machine
end

section
/-! PROOF of O33: every output element of MATVEC (R149 to R154). -/

namespace Sys2Proof.Machine

open Sys2Proof.Claims

theorem exec_matvec {s : State} (n : Fin 48) (q : Fin 8) (hup : Up s) : exec (.matvec n q) s = .next { s with
    hw := s.hw.execCore ⟨.core n, q.val⟩ 0x40 fun h c => matvecRun h ⟨.core n, q.val⟩ c } := by
  show execMatvec n q s = _
  rw [execMatvec, State.onHw_up _ _ hup]

/-- A count of zero leaves MATVEC without effect. -/
theorem matvecRun_empty {h : Hw} {id : QId} {c : Cmd} (hzero : (matvecOp c.desc).kTiles = 0 ∨ (matvecOp c.desc).nOut = 0) :
    matvecRun h id c = .ok {} := by
  unfold matvecRun
  dsimp only
  rw [if_pos hzero]

/-- A command whose operands are read gives its elements. -/
theorem matvecRun_reads {h : Hw} {id : QId} {c : Cmd} {bytes : List Byte} {cols : List (List Tile)} {entries : List Nat} :
    let o := matvecOp c.desc
    let isInt := (vecPair o.wgt o.vec) == some true
    o.kTiles ≠ 0 → o.nOut ≠ 0 → h.source id c 0 (elemBytes o.vec (o.kTiles * 64)) = .ok bytes →
    let xs := (List.range (o.kTiles * 64)).map fun i => decode o.vec (elemAt o.vec bytes.toArray i)
    let xa := (runsOf 64 o.kTiles xs).map List.toArray
    ((List.range o.nTiles).mapM fun nt => (List.range o.kTiles).mapM fun kt =>
      readTileRows h (queueMaster id) (tileVa o.va o.wgt o.sparse o.kTiles kt nt) o.wgt o.sparse (tileWidth o.nTiles 64 o.nOut nt)
        (vecStored o.zeroSkip o.sparse (xa.getD kt #[]))) = .ok cols →
    ((List.range o.nOut).mapM fun j => rescaleEntry h (queueMaster id) c.ctx o.rescale o.rescaleIndex j) = .ok entries →
    (isInt = true → cols.all sameShift = true) →
    let col (j : Nat) := (cols.getD (j / 64) []).zip xa
    let products (j : Nat) := (col j).flatMap fun (t, x) =>
      (vecStored o.zeroSkip o.sparse x).map fun i => (tileProduct t x (j % 64) i, t.shift)
    let cycles (j : Nat) := runsOf (vecRows o.wgt) (products j).length (products j)
    let sumI (j : Nat) := ((cycles j).foldl (fun acc cy => addPair acc (treeSum addPair (0, 0) 5 (cy.map fun p => (intOf p.1, 0)))) (0, 0)).1
    let sumF (j : Nat) := (cycles j).foldl (fun acc cy => fadd acc (treeSum fadd 0 5 (cy.map fun p => f32 (p.1.scale p.2)))) 0
    let out (j : Nat) := if isInt
      then outElem o.dst true o.rescale (entries.getD j 0) (((col j).head?.map fun p => p.1.shift).getD 0) (sumI j) 0
      else outElem o.dst false o.rescale (entries.getD j 0) 0 0 (sumF j)
    ∃ r, matvecRun h id c = .ok r ∧ r.result = packElems o.dst ((List.range o.nOut).map fun j => (out j).1) ∧ Delivers c.desc r := by
  intro o isInt hk hn hsource xs xa hcols hentries hshift col products cycles sumI sumF out
  have hcheck : exCheck (!isInt || cols.all sameShift) cFORMAT = .ok () := exCheck_true _ (by
    cases hint : isInt
    · rfl
    · rw [hshift hint]
      rfl)
  have hcount : ¬ ((matvecOp c.desc).kTiles = 0 ∨ (matvecOp c.desc).nOut = 0) := by
    rintro (hzero | hzero)
    · exact hk hzero
    · exact hn hzero
  have hread (j : Nat) : (cols.map fun ts => (ts.zip xa).map fun x => (x.1, x.2, vecStored o.zeroSkip o.sparse x.2)).getD (j / 64) []
      = (col j).map fun x => (x.1, x.2, vecStored o.zeroSkip o.sparse x.2) :=
    List.getD_map cols [] fun ts => (ts.zip xa).map fun x => (x.1, x.2, vecStored o.zeroSkip o.sparse x.2)
  unfold matvecRun
  dsimp only
  rw [if_neg hcount, hsource, exOk_bind, hcols, exOk_bind, hentries, exOk_bind, hcheck, exOk_bind]
  refine ⟨_, rfl, ?_, ⟨rfl, rfl, rfl, rfl, rfl⟩⟩
  refine congrArg (packElems o.dst) ?_
  rw [List.map_map]
  refine List.map_congr_left fun j _ => ?_
  dsimp only [Function.comp]
  simp only [xa, xs, o] at hread
  rw [hread j, List.flatMap_map, List.head?_map, Option.map_map]
  by_cases hint : isInt = true
  · rw [if_pos (show (vecPair (matvecOp c.desc).wgt (matvecOp c.desc).vec == some true) = true from hint)]
    exact congrArg Prod.fst (if_pos hint).symm
  · rw [if_neg (show ¬ (vecPair (matvecOp c.desc).wgt (matvecOp c.desc).vec == some true) = true from hint)]
    exact congrArg Prod.fst (if_neg hint).symm

/-- Settles O33: the elements that a command whose operands are read gives. -/
theorem matvecResult : Obligations.MatvecResult := by
  intro s n q c hup id o isInt hhead
  refine ⟨fun hzero => ?_, fun bytes cols entries hk hn hsource => ?_⟩
  · rw [exec_matvec n q hup, s.hw.execCore_head hhead (matvecRun_empty hzero)]
  · intro xs xa hcols hentries hshift col products cycles addp sumI sumF out
    obtain ⟨r, hrun, hresult, hdelivers⟩ := matvecRun_reads hk hn hsource hcols hentries hshift
    exact ⟨r, by rw [exec_matvec n q hup, s.hw.execCore_head hhead hrun], hresult, hdelivers⟩

end Sys2Proof.Machine
end

section
/-! PROOF of O36: the bytes and the counts of CONVERT (R179, R180). -/

namespace Sys2Proof.Machine

open Sys2Proof.Claims

theorem exec_convert {s : State} (n : Fin 48) (q : Fin 8) (hup : Up s) : exec (.convert n q) s = .next { s with
    hw := s.hw.execCore ⟨.core n, q.val⟩ 0x90 fun h c => convertRun h ⟨.core n, q.val⟩ c } := by
  show execConvert n q s = _
  rw [execConvert, State.onHw_up _ _ hup]

/-- A conversion of no elements has no effect. -/
theorem convertRun_empty {h : Hw} {id : QId} {c : Cmd} (hzero : (convertOp c.desc).n = 0) : convertRun h id c = .ok {} := by
  unfold convertRun
  dsimp only
  rw [if_pos hzero]

/-- A command whose source is read gives the elements, or the tiles, in its destination format. -/
theorem convertRun_reads {h : Hw} {id : QId} {c : Cmd} {bs : List Byte} :
    let o := convertOp c.desc
    o.n ≠ 0 → h.source id c 0 (vecBytes o.src o.n) = .ok bs →
    let out := (if o.tiles then convertTiles else convertLinear) o (drawOf o.sr c 0) (vecAt o.src o.n o.srcShift bs.toArray)
    ∃ r, convertRun h id c = .ok r ∧ r.result = out.1 ∧ Delivers c.desc r
      ∧ r.counts = [(0x408, out.2.sat), (0x40C, out.2.nan), (0x410, out.2.clamp)] := by
  intro o hn hsource out
  unfold convertRun
  dsimp only
  rw [if_neg hn, hsource, exOk_bind]
  obtain htiles | hlinear := Bool.eq_false_or_eq_true o.tiles
  · rw [if_pos htiles, show out = convertTiles o (drawOf o.sr c 0) (vecAt o.src o.n o.srcShift bs.toArray) by
      simp only [out, if_pos htiles]]
    exact ⟨_, rfl, rfl, ⟨rfl, rfl, rfl, rfl, rfl⟩, rfl⟩
  · have hno : ¬ o.tiles = true := by rw [hlinear]; exact Bool.false_ne_true
    rw [if_neg hno, show out = convertLinear o (drawOf o.sr c 0) (vecAt o.src o.n o.srcShift bs.toArray) by
      simp only [out, if_neg hno]]
    exact ⟨_, rfl, rfl, ⟨rfl, rfl, rfl, rfl, rfl⟩, rfl⟩

/-- Settles O36: what a command whose source is read gives, by the branch of its layout. -/
theorem convertResult : Obligations.ConvertResult := by
  intro s n q c hup id o hhead
  refine ⟨fun hzero => ?_, fun bs hn hsource => ?_⟩
  · rw [exec_convert n q hup, s.hw.execCore_head hhead (convertRun_empty hzero)]
  · intro out
    obtain ⟨r, hrun, hgives⟩ := convertRun_reads hn hsource
    exact ⟨r, by rw [exec_convert n q hup, s.hw.execCore_head hhead hrun], hgives⟩

end Sys2Proof.Machine
end

section
/-! PROOF of O37: OPT_UPDATE and the rows that it writes (R181 to R186). -/

namespace Sys2Proof.Machine

open Sys2Proof.Claims

/-- The oldest update, once it runs, finishes, and what it clashes with is open. -/
theorem exec_optUpdate {s : State} {n : Fin 48} {q : Fin 8} {c : Cmd} {r : Done} (hup : Up s)
    (hhead : (s.hw.running ⟨.core n, q.val⟩ 0x91).head? = some c) (hrun : optRun s.hw ⟨.core n, q.val⟩ c = .ok r) :
    exec (.optUpdate n q) s = .next { s with
      hw := (s.hw.finishCmd ⟨.core n, q.val⟩ c r).openClashes ⟨.core n, q.val⟩ c.ptr } := by
  show execOptUpdate n q s = _
  have hfind : (s.hw.running ⟨.core n, q.val⟩ 0x91).find? (fun c => !exWaits (optRun s.hw ⟨.core n, q.val⟩ c)) = some c := by
    obtain ⟨rest, hlist⟩ := List.head?_eq_some_iff.mp hhead
    rw [hlist, List.find?_cons_of_pos (by rw [hrun]; rfl)]
  rw [execOptUpdate, State.onHw_up _ _ hup, optUpdate, hfind]
  dsimp only
  rw [s.hw.execCore_head hhead hrun]

/-- An update of no rows, or of empty ones, has no effect. -/
theorem optRun_empty {h : Hw} {id : QId} {c : Cmd} (hzero : (optOp c.desc).len = 0 ∨ (optOp c.desc).rows = 0) :
    optRun h id c = .ok {} := by
  unfold optRun
  dsimp only
  rw [if_pos hzero]

/-- An update whose operands are read gives the rows that its optimiser makes of them. -/
theorem optRun_reads {h : Hw} {id : QId} {c : Cmd} {dst : Nat} {gs ps st hy : List Byte} :
    let o := optOp c.desc
    let sN := stateBytes o.optimiser o.bs4 o.len
    addrForm (dDst c.desc) = .va dst → o.len ≠ 0 → o.rows ≠ 0 → h.source id c 0 (elemBytes o.grad (o.rows * o.len)) = .ok gs →
    exRead h (queueMaster id) dst (elemBytes o.param (o.rows * o.len)) = .ok ps →
    exRead h (queueMaster id) o.state (o.rows * sN) = .ok st → exRead h (queueMaster id) o.hyper 32 = .ok hy →
    let raw (i : Nat) := (List.range o.len).map fun j => decode o.grad (elemAt o.grad gs.toArray (i * o.len + j))
    let old (i : Nat) := (List.range o.len).map fun j => elemAt o.param ps.toArray (i * o.len + j)
    let was (i : Nat) := (st.drop (i * sN)).take sN
    let new (i : Nat) := optRow o.optimiser o.bs4 (hyperOf hy) (fun d j => drawOf true c d (i * o.len + j))
      ((raw i).map fun x => f32 (x.scale (hyperOf hy).gradShift)) ((old i).map fun x => f32 (decode o.param x)) (was i)
    let stands (i : Nat) : Bool := (raw i).any FVal.nonFinite && o.skip
    let params (i : Nat) := if stands i then old i
      else (convertAll o.param (drawOf (o.sr && o.param == fmBF16) c 0) (i * o.len) ((new i).1.map (decodeFloat 0))).1
    let pB := packElems o.param ((List.range o.rows).flatMap params)
    let sB := (List.range o.rows).flatMap fun i => if stands i then was i else (new i).2.1
    let open_ := freeBytes h.freeCtr (pB.length + sB.length)
    let clash := anyMeet (optRanges c.desc)
    let kept := (List.range o.rows).map stands
    ∃ r, optRun h id c = .ok r
      ∧ r.result = (if clash then open_.take pB.length else pB)
      ∧ r.writes = rowWrites dst (elemBytes o.param o.len) kept r.result
          ++ rowWrites o.state sN kept (if clash then open_.drop pB.length else sB)
      ∧ r.spans = r.writes.map (fun w => (w.1, w.2.length))
      ∧ r.code = 0 ∧ r.predMask = 0 ∧ r.signals = [] ∧ r.work = .none ∧ r.drew = clash := by
  intro o sN hdst hlen hrows hsource hparam hstate hhyper raw old was new stands params pB sB open_ clash kept
  have hcount : ¬ ((optOp c.desc).len = 0 ∨ (optOp c.desc).rows = 0) := by
    rintro (hzero | hzero)
    · exact hlen hzero
    · exact hrows hzero
  unfold optRun
  dsimp only
  rw [if_neg hcount, hdst]
  dsimp only
  rw [hsource, exOk_bind, hparam, exOk_bind, hstate, exOk_bind, hhyper, exOk_bind]
  let codes (i : Nat) := convertAll o.param (drawOf (o.sr && o.param == fmBF16) c 0) (i * o.len) ((new i).1.map (decodeFloat 0))
  obtain ⟨row, hrow⟩ : ∃ row : Nat → List Nat × List Byte × Tally × Nat × Bool, row = fun i =>
      if stands i then (old i, was i, {}, 1, true)
      else ((codes i).1, (new i).2.1, (new i).2.2.add (codes i).2, if (raw i).any FVal.nonFinite then 1 else 0, false) := ⟨_, rfl⟩
  have hparams : (List.range o.rows).flatMap (fun i => (row i).1) = (List.range o.rows).flatMap params :=
    congrArg (List.flatMap · _) (funext fun i => by rw [hrow]; exact apply_ite Prod.fst ..)
  have hstates : (List.range o.rows).flatMap (fun i => (row i).2.1)
      = (List.range o.rows).flatMap fun i => if stands i then was i else (new i).2.1 :=
    congrArg (List.flatMap · _) (funext fun i => by rw [hrow]; exact apply_ite (fun x : List Nat × List Byte × Tally × Nat × Bool => x.2.1) ..)
  have hstands : (List.range o.rows).map (fun i => (row i).2.2.2.2) = kept :=
    List.map_congr_left fun i _ => by
      rw [hrow]
      dsimp only
      cases stands i <;> rfl
  simp only [codes, stands, new, raw, old, was, o, sN] at hrow
  rw [← hrow]
  simp only [List.flatMap_map, List.map_map, Function.comp_def]
  simp only [o] at hparams hstates hstands
  rw [hparams, hstates, hstands]
  by_cases hclash : anyMeet (optRanges c.desc) = true
  · simp only [clash, if_pos hclash]
    exact ⟨_, rfl, rfl, rfl, rfl, rfl, rfl, rfl, rfl, rfl⟩
  · simp only [clash, if_neg hclash]
    exact ⟨_, rfl, rfl, rfl, rfl, rfl, rfl, rfl, rfl, rfl⟩

/-- The rows of a command whose operands are read, and what no row leaves. -/
theorem updatesRows_holds : UpdatesRows := by
  intro s n q c dst hup id o sN hhead hdst
  refine ⟨fun hzero => exec_optUpdate hup hhead (optRun_empty hzero), ?_⟩
  intro gs ps st hy hlen hrows hsource hparam hstate hhyper raw old was new stands params pB sB open_ clash kept
  obtain ⟨r, hrun, hgives⟩ := optRun_reads hdst hlen hrows hsource hparam hstate hhyper
  exact ⟨r, exec_optUpdate hup hhead hrun, hgives⟩

theorem rowsThatStand : RowsThatStand := by
  intro va n kept bytes hn hlen w
  rw [rowWrites, if_neg hn, List.mem_filterMap]
  refine exists_congr fun i => ?_
  rw [List.mem_range]
  refine and_congr_right fun hi => ?_
  cases hkept : kept.getD i false
  · simp only [Bool.false_eq_true, if_false, true_and, Option.some.injEq, eq_comm]
  · simp only [if_true, reduceCtorEq, Bool.true_eq_false, false_and]

/-- Settles O37: the rows of an update, and which of them its writes hold. -/
theorem optimiserUpdate : Obligations.OptimiserUpdate := ⟨updatesRows_holds, rowsThatStand⟩

end Sys2Proof.Machine
end

section
/-! PROOF of O39: a row of SELECT holds its best keys (R212 to R219). -/

namespace Sys2Proof.Machine

open Sys2Proof.Claims

/-! ### Lists kept in order -/

/-- Insertion keeps a list in which no later element precedes an earlier one, under a strict weak order. -/
theorem orderedInsert_pairwise_not {α : Type} {r : α → α → Prop} [DecidableRel r] (hasymm : ∀ a b, r a b → ¬ r b a)
    (htrans : ∀ a b c, r a b → ¬ r c b → r a c) (x : α) (l : List α) (hl : l.Pairwise fun a b => ¬ r b a) :
    (l.orderedInsert r x).Pairwise fun a b => ¬ r b a := by
  induction l with
  | nil => exact List.pairwise_singleton _ _
  | cons a t ih =>
    obtain ⟨hhead, htail⟩ := List.pairwise_cons.mp hl
    rw [List.orderedInsert_cons]
    split
    next hxa =>
      refine List.pairwise_cons.mpr ⟨fun b hb => ?_, hl⟩
      obtain rfl | hb := List.mem_cons.mp hb
      · exact hasymm _ _ hxa
      · exact hasymm _ _ (htrans _ _ _ hxa (hhead b hb))
    next hxa =>
      refine List.pairwise_cons.mpr ⟨fun b hb => ?_, ih htail⟩
      obtain rfl | hb := (List.mem_orderedInsert r).mp hb
      · exact hxa
      · exact hhead b hb

/-- Inserting one by one gives a list in order with the same elements. -/
theorem foldl_orderedInsert {α : Type} {r : α → α → Prop} [DecidableRel r] (hasymm : ∀ a b, r a b → ¬ r b a)
    (htrans : ∀ a b c, r a b → ¬ r c b → r a c) (l acc : List α) (hacc : acc.Pairwise fun a b => ¬ r b a) :
    (l.foldl (fun acc x => acc.orderedInsert r x) acc).Pairwise (fun a b => ¬ r b a)
      ∧ (l.foldl (fun acc x => acc.orderedInsert r x) acc).Perm (l ++ acc) := by
  induction l generalizing acc with
  | nil => exact ⟨hacc, .refl _⟩
  | cons x l ih =>
    obtain ⟨hsorted, hperm⟩ := ih (acc.orderedInsert r x) (orderedInsert_pairwise_not hasymm htrans x acc hacc)
    exact ⟨hsorted, hperm.trans (((List.perm_orderedInsert _ x acc).append_left l).trans List.perm_middle)⟩

/-! ### The order of keys (R212) -/

/-- The order of keys by score, then by index. -/
theorem better_iff (asc : Bool) (a b : SelKey) : better asc a b = true ↔
    (if asc then fKey a.score < fKey b.score else fKey b.score < fKey a.score) ∨ fKey a.score = fKey b.score ∧ a.index < b.index := by
  rw [better]
  cases asc <;> by_cases heq : fKey a.score = fKey b.score <;> simp [heq, flt]

theorem better_asymm (asc : Bool) (a b : SelKey) (hab : better asc a b = true) : ¬ better asc b a = true := by
  rw [better_iff] at *
  cases asc <;> simp only [Bool.false_eq_true, if_false, if_true] at * <;> omega

theorem better_of_not_better (asc : Bool) (a b c : SelKey) (hab : better asc a b = true) (hcb : ¬ better asc c b = true) :
    better asc a c = true := by
  rw [better_iff] at *
  cases asc <;> simp only [Bool.false_eq_true, if_false, if_true] at * <;> omega

/-- Of two keys with different indices one is better. -/
theorem better_of_index_ne {asc : Bool} {a b : SelKey} (hne : a.index ≠ b.index) (hba : ¬ better asc b a = true) :
    better asc a b = true := by
  rw [better_iff] at *
  cases asc <;> simp only [Bool.false_eq_true, if_false, if_true] at * <;> omega

theorem keyInsert_eq (asc : Bool) (k : SelKey) (l : List SelKey) :
    keyInsert asc k l = l.orderedInsert (fun a b => better asc a b = true) k := by
  induction l with
  | nil => rfl
  | cons a t ih => rw [keyInsert, List.orderedInsert_cons, ih]

theorem keySort_eq (asc : Bool) (ks : List SelKey) :
    keySort asc ks = ks.foldl (fun l k => l.orderedInsert (fun a b => better asc a b = true) k) [] := by
  simp only [keySort, keyInsert_eq]

/-- Sorting keys with different indices puts each before those it is better than. -/
theorem keySort_spec (asc : Bool) (ks : List SelKey) (hks : (ks.map (·.index)).Nodup) :
    (keySort asc ks).Pairwise (fun a b => better asc a b = true) ∧ (keySort asc ks).Perm ks := by
  obtain ⟨hsorted, hperm⟩ := foldl_orderedInsert (better_asymm asc) (better_of_not_better asc) ks [] List.Pairwise.nil
  rw [List.append_nil] at hperm
  rw [keySort_eq]
  refine ⟨?_, hperm⟩
  have hdistinct : (ks.foldl (fun l k => l.orderedInsert (fun a b => better asc a b = true) k) []).Pairwise
      fun a b => a.index ≠ b.index := List.pairwise_map.mp ((hperm.map _).nodup_iff.mpr hks)
  exact (hsorted.and hdistinct).imp fun h => better_of_index_ne h.2 h.1

/-- The first `k` of a list in order are better than what is left out. -/
theorem take_pairwise {α : Type} {r : α → α → Prop} {l : List α} (k : Nat) (hl : l.Pairwise r) {x : α} (hx : x ∈ l) (hout : x ∉ l.take k) :
    (l.take k).length = k ∧ ∀ a ∈ l.take k, r a x := by
  have hdrop : x ∈ l.drop k := by
    rw [← List.take_append_drop k l, List.mem_append] at hx
    exact hx.resolve_left hout
  have hlen : k ≤ l.length := by
    by_contra hlen
    rw [List.drop_eq_nil_of_le (by omega)] at hdrop
    exact List.not_mem_nil hdrop
  rw [← List.take_append_drop k l, List.pairwise_append] at hl
  exact ⟨List.length_take_of_le hlen, fun a ha => hl.2.2 a ha x hdrop⟩

/-! ### A row -/

/-- The valid keys of a row, unsorted. -/
def rowKeys (o : SelectOp) (bs mask : Array Byte) (i : Nat) : List SelKey :=
  ((List.range o.n).filterMap fun j =>
    if o.mask && !((mask.getD (32 * o.groups * i + j / 8) 0).toNat.testBit (j % 8)) then none
    else some { index := o.base + j, score := f32 (decode o.src (elemAt o.src bs (i * o.n + j))) : SelKey }).filter (keyValid o.asc)

theorem selectRow_entries (o : SelectOp) (bs mask : Array Byte) (i : Nat) :
    (selectRow o bs mask i).1.entries = (keySort o.asc (rowKeys o bs mask i)).take o.k := rfl

theorem unmasked_iff {masked shown : Bool} : ¬ (masked && !shown) = true ↔ (!masked || shown) = true := by
  cases masked <;> cases shown <;> decide

/-- The valid keys of a row are those of its unmasked elements. -/
theorem mem_rowKeys {o : SelectOp} {bs mask : Array Byte} {i : Nat} {k : SelKey} : k ∈ rowKeys o bs mask i ↔
    ∃ j < o.n, (!o.mask || (mask.getD (32 * o.groups * i + j / 8) 0).toNat.testBit (j % 8)) = true
      ∧ k = { index := o.base + j, score := f32 (decode o.src (elemAt o.src bs (i * o.n + j))) } ∧ keyValid o.asc k = true := by
  rw [rowKeys, List.mem_filter, List.mem_filterMap]
  constructor
  · rintro ⟨⟨j, hj, hk⟩, hvalid⟩
    split at hk
    · cases hk
    · next hshown =>
      exact ⟨j, List.mem_range.mp hj, unmasked_iff.mp hshown, (Option.some.inj hk).symm, hvalid⟩
  · rintro ⟨j, hj, hshown, rfl, hvalid⟩
    exact ⟨⟨j, List.mem_range.mpr hj, if_neg (unmasked_iff.mpr hshown)⟩, hvalid⟩

/-- The keys of a row have different indices. -/
theorem rowKeys_nodup (o : SelectOp) (bs mask : Array Byte) (i : Nat) : ((rowKeys o bs mask i).map (·.index)).Nodup := by
  refine List.pairwise_map.mpr ((List.pairwise_filterMap.mpr ?_).filter _)
  refine List.nodup_range.imp fun {a b} hne x hx y hy => ?_
  split at hx
  · cases hx
  · split at hy
    · cases hy
    · obtain rfl := Option.some.inj hx
      obtain rfl := Option.some.inj hy
      exact fun heq => hne (Nat.add_left_cancel heq)

/-- Settles O39: the row is the sorted list of its valid keys, cut at `k`. -/
theorem selectionIsBest : Obligations.SelectionIsBest := by
  intro o bs mask i key shown valid e
  obtain ⟨hsorted, hperm⟩ := keySort_spec o.asc (rowKeys o bs mask i) (rowKeys_nodup o bs mask i)
  have hvalid (k : SelKey) : valid k ↔ k ∈ keySort o.asc (rowKeys o bs mask i) := hperm.mem_iff.trans mem_rowKeys |>.symm
  exact ⟨fun k hk => (hvalid k).mpr (List.mem_of_mem_take hk), hsorted.take, List.length_take_le ..,
    fun k hk hout => take_pairwise o.k hsorted ((hvalid k).mp hk) hout⟩

end Sys2Proof.Machine
end

section
/-! PROOF of O40: the results of SELECT, SEL_ROUTE and SEL_MERGE (R216, R223 to R227). -/

namespace Sys2Proof.Machine

open Sys2Proof.Claims

theorem exec_select {s : State} (n : Fin 48) (q : Fin 8) (hup : Up s) : exec (.select n q) s = .next { s with
    hw := s.hw.execCore ⟨.core n, q.val⟩ 0x80 fun h c => selectRun h ⟨.core n, q.val⟩ c } := by
  show execSelect n q s = _
  rw [execSelect, State.onHw_up _ _ hup]

theorem exec_selRoute {s : State} (n : Fin 48) (q : Fin 8) (hup : Up s) : exec (.selRoute n q) s = .next { s with
    hw := s.hw.execCore ⟨.core n, q.val⟩ 0x82 fun h c => selRouteRun h ⟨.core n, q.val⟩ c } := by
  show execSelRoute n q s = _
  rw [execSelRoute, State.onHw_up _ _ hup]

theorem exec_selMerge {s : State} (n : Fin 48) (q : Fin 8) (hup : Up s) : exec (.selMerge n q) s = .next { s with
    hw := s.hw.execCore ⟨.core n, q.val⟩ 0x81 fun h c => selMergeRun h ⟨.core n, q.val⟩ c } := by
  show execSelMerge n q s = _
  rw [execSelMerge, State.onHw_up _ _ hup]

/-- The rows of a command whose scores and mask are read, and the bytes of their results. -/
theorem selectAll_reads {h : Hw} {id : QId} {c : Cmd} {route : Bool} {bs mask : List Byte} :
    let o := selectOp route c.desc
    (elemBytes o.src (o.rows * o.n) ≠ 0 → h.source id c 0 (elemBytes o.src (o.rows * o.n)) = .ok bs) →
    (elemBytes o.src (o.rows * o.n) = 0 → bs = []) →
    (o.mask = true ∧ o.rows ≠ 0 → exRead h (queueMaster id) o.maskVa (o.rows * 32 * o.groups) = .ok mask) →
    (o.mask = false ∨ o.rows = 0 → mask = []) →
    let row (i : Nat) := (selectRow o bs.toArray mask.toArray i).1
    ∃ r, selectAll h id c route = .ok ((List.range o.rows).map row, r) ∧ Delivers c.desc r
      ∧ r.result = (List.range o.rows).flatMap fun i => selBytes o.asc o.k (row i) := by
  intro o hsource hnone hmask hplain row
  unfold selectAll
  dsimp only
  by_cases hzero : elemBytes o.src (o.rows * o.n) = 0
  on_goal 1 =>
    obtain rfl := hnone hzero
    rw [if_pos hzero, exOk_bind]
  on_goal 2 => rw [if_neg hzero, hsource hzero, exOk_bind]
  all_goals
    by_cases hm : o.mask = true ∧ o.rows ≠ 0
    on_goal 1 => rw [if_pos hm, hmask hm, exOk_bind]
    on_goal 2 =>
      obtain rfl := hplain (by rwa [not_and_or, Bool.not_eq_true, not_ne_iff] at hm)
      rw [if_neg hm, exOk_bind]
    all_goals
      rw [List.map_map]
      exact ⟨_, rfl, ⟨rfl, rfl, rfl, rfl, rfl⟩, List.flatMap_map ..⟩

/-- The predicate bits of a SEL_ROUTE: the bit of each element that some row chose. -/
theorem chosenBits_testBit (count : Nat → Nat) (base n e : Nat) :
    ((List.range n).foldl (fun v e => if count e = 0 then v else v ||| 2 ^ (base + e)) 0).testBit (base + e)
      = decide (e < n ∧ count e ≠ 0) := by
  induction n with
  | zero => simp
  | succ n ih =>
    rw [List.range_succ, List.foldl_append, List.foldl_cons, List.foldl_nil]
    by_cases hzero : count n = 0
    · rw [if_pos hzero, ih]
      refine decide_eq_decide.mpr (and_congr_left fun hne => ?_)
      have : e ≠ n := fun h => hne (h ▸ hzero)
      omega
    · rw [if_neg hzero, Nat.testBit_or, ih, Nat.testBit_two_pow]
      by_cases hen : e = n
      · subst hen
        simp [hzero]
      · have hbase : ¬ n = e := fun h => hen h.symm
        have hlt : e < n + 1 ↔ e < n := by omega
        simp [hbase, hlt]

/-- The elements of a list, each given by a run that succeeds. -/
theorem exMapM_ok {α β : Type} {f : α → Ex β} {g : α → β} {l : List α} (hl : ∀ x ∈ l, f x = .ok (g x)) :
    l.mapM f = .ok (l.map g) := by
  induction l with
  | nil => rfl
  | cons a t ih =>
    rw [List.mapM_cons, hl a List.mem_cons_self, exOk_bind, ih fun x hx => hl x (List.mem_cons_of_mem _ hx), exOk_bind]
    rfl

/-- A route's result: the rows, then how many of them chose each element, with a predicate bit for each. -/
theorem selRouteRun_reads {h : Hw} {id : QId} {c : Cmd} {rows : List SelRow} {a : Done}
    (hall : selectAll h id c true = .ok (rows, a)) :
    let o := selectOp true c.desc
    let chose (e : Nat) := (rows.filter fun r => r.entries.any fun k => k.index == e).length
    ∃ r, selRouteRun h id c = .ok r ∧ r.writes = dstWrites c.desc r.result
      ∧ r.result = padTo 16 a.result ++ ((List.range o.n).map chose).flatMap (leBytes 4)
      ∧ r.predMask = BitVec.ofNat 64 ((2 ^ o.n - 1) * 2 ^ predBase c.desc)
      ∧ ∀ e < o.n, predBase c.desc + e < 64 → r.predVal.getLsbD (predBase c.desc + e) = decide (chose e ≠ 0) := by
  intro o chose
  unfold selRouteRun
  dsimp only
  rw [hall, exOk_bind]
  refine ⟨_, rfl, rfl, rfl, rfl, fun e he hbit => ?_⟩
  have hcount (v e : Nat) (he : e ∈ List.range o.n) : (if ((List.range o.n).map chose).getD e 0 = 0 then v else v ||| 2 ^ (predBase c.desc + e))
      = if chose e = 0 then v else v ||| 2 ^ (predBase c.desc + e) := by
    rw [List.getD_eq_getElem?_getD, List.getElem?_map, List.getElem?_range (List.mem_range.mp he)]
    rfl
  rw [BitVec.getLsbD_ofNat, List.foldl_ext _ _ 0 hcount, chosenBits_testBit]
  simp [hbit, he]

/-- A merge whose parts are read and obey the rules gives each row's merged list. -/
theorem selMergeRun_reads {h : Hw} {id : QId} {c : Cmd} {bs : List Byte} {ps : Nat → Nat → Part} :
    let o := selMergeOp c.desc
    o.rows ≠ 0 → h.source id c 0 (o.parts * o.rows * (16 + 8 * o.kIn)) = .ok bs →
    (∀ i < o.rows, ∀ p < o.parts,
      partOf o ((bs.drop ((p * o.rows + i) * (16 + 8 * o.kIn))).take (16 + 8 * o.kIn)) = some (ps i p)) →
    ∃ r, selMergeRun h id c = .ok r ∧ Delivers c.desc r
      ∧ r.result = (List.range o.rows).flatMap fun i => selBytes o.asc o.kOut (mergeRowOf o ((List.range o.parts).map (ps i))).1 := by
  intro o hrows hsource hparts
  unfold selMergeRun
  dsimp only
  rw [if_neg hrows, hsource, exOk_bind]
  rw [exMapM_ok (g := fun i => (mergeRowOf o ((List.range o.parts).map (ps i)), (((List.range o.parts).map (ps i)).map (·.nans)).sum))
    fun i hi => by
      rw [exMapM_ok (g := ps i) fun p hp => by rw [hparts i (List.mem_range.mp hi) p (List.mem_range.mp hp)], exOk_bind], exOk_bind]
  exact ⟨_, rfl, ⟨rfl, rfl, rfl, rfl, rfl⟩, List.flatMap_map ..⟩

/-- Settles O40: the three commands by the rows that they give. -/
theorem selectionResults : Obligations.SelectionResults := by
  intro s n q c hup id fin reads row results chose ro mo
  refine ⟨fun hhead => ⟨fun hzero => ?_, fun bs mask hcount hreads => ?_⟩, fun hhead bs mask hreads => ?_,
    fun hhead => ⟨fun hzero => ?_, fun bs ps hrows hsource hparts => ?_⟩⟩
  · rw [exec_select n q hup, s.hw.execCore_head hhead (r := {}) (by unfold selectRun; dsimp only; rw [if_pos hzero])]
  · obtain ⟨hsource, hnone, hmask, hplain⟩ := hreads
    obtain ⟨r, hall, hdelivers, hresult⟩ := selectAll_reads hsource hnone hmask hplain
    refine ⟨r, ?_, hdelivers, hresult⟩
    rw [exec_select n q hup, s.hw.execCore_head hhead (r := r) (by unfold selectRun; dsimp only; rw [if_neg hcount, hall]; rfl)]
  · obtain ⟨hsource, hnone, hmask, hplain⟩ := hreads
    obtain ⟨a, hall, -, hresult⟩ := selectAll_reads hsource hnone hmask hplain
    obtain ⟨r, hrun, hwrites, hbytes, hpred, hbits⟩ := selRouteRun_reads hall
    have hchose (e : Nat) : (((List.range ro.rows).map (row true bs mask)).filter fun r => r.entries.any fun k => k.index == e).length
        = chose bs mask e := by rw [List.filter_map, List.length_map]; rfl
    refine ⟨r, by rw [exec_selRoute n q hup, s.hw.execCore_head hhead hrun], hwrites, ?_, hpred, fun e he hbit => ?_⟩
    · rw [hbytes, hresult]
      exact congrArg (fun l => _ ++ l.flatMap (leBytes 4)) (List.map_congr_left fun e _ => hchose e)
    · rw [hbits e he hbit]
      exact congrArg (fun n => decide (n ≠ 0)) (hchose e)
  · rw [exec_selMerge n q hup, s.hw.execCore_head hhead (r := {}) (by unfold selMergeRun; dsimp only; rw [if_pos hzero])]
  · obtain ⟨r, hrun, hgives⟩ := selMergeRun_reads hrows hsource hparts
    exact ⟨r, by rw [exec_selMerge n q hup, s.hw.execCore_head hhead hrun], hgives⟩

end Sys2Proof.Machine
end

section
/-! PROOF of O46: the candidate lists of a search (R311, R312). -/

namespace Sys2Proof.Machine

open Sys2Proof.Claims

/-- The key of a candidate, by which its list is kept in order. -/
def RtvCand.key (x : RtvCand) : SelKey := ⟨x.id, x.score⟩

theorem candInsert_eq (asc : Bool) (x : RtvCand) (l : List RtvCand) :
    candInsert asc x l = l.orderedInsert (fun a b => better asc a.key b.key = true) x := by
  induction l with
  | nil => rfl
  | cons a t ih => rw [candInsert, List.orderedInsert_cons, ih]; rfl

theorem mem_candInsert {asc : Bool} {x y : RtvCand} {l : List RtvCand} : y ∈ candInsert asc x l ↔ y = x ∨ y ∈ l := by
  rw [candInsert_eq, List.mem_orderedInsert]

/-- A list kept best first stays so as a candidate enters it. -/
theorem candInsert_pairwise {asc : Bool} {x : RtvCand} {l : List RtvCand}
    (hl : l.Pairwise fun a b => better asc b.key a.key = false) :
    (candInsert asc x l).Pairwise fun a b => better asc b.key a.key = false := by
  simp only [← Bool.not_eq_true] at hl ⊢
  rw [candInsert_eq]
  exact orderedInsert_pairwise_not (fun a b => better_asymm asc a.key b.key)
    (fun a b c => better_of_not_better asc a.key b.key c.key) x l hl

/-- Inserting candidates one by one lists them and no others. -/
theorem mem_foldl_candInsert {asc : Bool} {y : RtvCand} {xs l : List RtvCand} :
    y ∈ xs.foldl (fun l x => candInsert asc x l) l ↔ y ∈ xs ∨ y ∈ l := by
  induction xs generalizing l with
  | nil => simp
  | cons x xs ih => rw [List.foldl_cons, ih, mem_candInsert, List.mem_cons, or_assoc, or_left_comm]

/-- A merge's list as it grows: no more than `k`, no id twice, and only candidates of the owners. -/
structure MergedOf (k : Nat) (all l : List RtvCand) : Prop where
  bound : l.length ≤ k
  distinct : (l.map (·.id)).Nodup
  found : ∀ x ∈ l, x ∈ all

theorem MergedOf.append {k : Nat} {all l : List RtvCand} {x : RtvCand} (hl : MergedOf k all l) (hx : x ∈ all)
    (hroom : ¬ k ≤ l.length) (hnew : l.find? (fun y => y.id = x.id) = none) : MergedOf k all (l ++ [x]) where
  bound := by simpa using hroom
  distinct := by
    rw [List.map_append]
    refine hl.distinct.append (List.nodup_singleton _) fun i hi hx => ?_
    obtain ⟨y, hy, rfl⟩ := List.mem_map.mp hi
    have := List.find?_eq_none.mp hnew y hy
    simp_all
  found y hy := by
    obtain hy | hy := List.mem_append.mp hy
    · exact hl.found y hy
    · rwa [List.mem_singleton.mp hy]

/-- What the id filter keeps of a list of candidates. -/
theorem candMerge_merged (asc : Bool) (k : Nat) (q : RtvQuery) :
    MergedOf k ((List.range 4).flatMap fun d => (alGet d q.cands).getD []) (candMerge asc k q).1 := by
  rw [candMerge]
  refine List.foldlRecOn (motive := fun acc : List RtvCand × Nat × Nat => MergedOf k _ acc.1) _ _
    ⟨Nat.zero_le _, List.nodup_nil, by simp⟩ fun acc hacc x hx => ?_
  split
  · exact hacc
  · next hroom =>
    split
    · exact hacc
    · next hnew =>
      exact hacc.append ((mem_foldl_candInsert.mp hx).resolve_right List.not_mem_nil) hroom hnew

/-- Settles O46: an owner's list by the insertion of one candidate, the merge by its filter. -/
theorem candidateLists : Obligations.CandidateLists := by
  constructor
  · intro asc k l x hlen hvalid l'
    by_cases hx : keyValid asc ⟨x.id, x.score⟩ = true
    · have hl' : l' = (candInsert asc x l).take k := if_pos hx
      have hmem (y : RtvCand) (hy : y ∈ l') : y = x ∨ y ∈ l := mem_candInsert.mp (List.mem_of_mem_take (hl' ▸ hy))
      refine ⟨hl' ▸ List.length_take_le .., fun y hy => ?_, hmem, fun hsorted => hl' ▸ (candInsert_pairwise hsorted).take⟩
      obtain rfl | hy := hmem y hy
      · exact hx
      · exact hvalid y hy
    · have hl' : l' = l := if_neg hx
      rw [hl']
      exact ⟨hlen, hvalid, fun _ => Or.inr, id⟩
  · intro asc k q out
    have hmerged := candMerge_merged asc k q
    refine ⟨hmerged.bound, hmerged.distinct, fun x hx => ?_⟩
    obtain ⟨d, hd, hfound⟩ := List.mem_flatMap.mp (hmerged.found x hx)
    exact ⟨d, List.mem_range.mp hd, hfound⟩

end Sys2Proof.Machine
end

section
/-! PROOF of O55: counters, the Trail port and the lifetime log (R442, R488, R495 to R500). -/

namespace Sys2Proof.Machine

open Sys2Proof.Claims

/-! ### Registers of one page, in any bank -/

/-- A register at another offset reads as before, in any bank. -/
theorem Hw.rd_wr_apart (h : Hw) {p p' o o' : Nat} (v b b' : Nat) (ho : o < 0x1000) (ho' : o' < 0x1000) (hne : o' ≠ o) :
    (h.wr p o v b).rd p' o' b' = h.rd p' o' b' := Hw.rd_wr_other _ _ (regKey_ne_of_inPage b b' (by omega))

theorem Hw.rd_wr64_apart (h : Hw) {p p' o o' : Nat} (v b b' : Nat) (ho : o + 4 < 0x1000) (ho' : o' < 0x1000) (hlo : o' ≠ o)
    (hhi : o' ≠ o + 4) : (h.wr64 p o v b).rd p' o' b' = h.rd p' o' b' := by
  rw [Hw.wr64, Hw.rd_wr_apart _ _ _ _ ho ho' hhi, Hw.rd_wr_apart _ _ _ _ (by omega) ho' hlo]

theorem Hw.rd64_wr64_same (h : Hw) {p o : Nat} (v b : Nat) (ho : o + 4 < 0x1000) : (h.wr64 p o v b).rd64 p o b = v % 2 ^ 64 := by
  rw [Hw.rd64, Hw.wr64, Hw.rd_wr_apart _ _ _ _ ho (by omega) (by omega), Hw.rd_wr_same, Hw.rd_wr_same]
  omega

theorem Hw.rd64_wr64_apart (h : Hw) {p p' o o' : Nat} (v b b' : Nat) (ho : o + 4 < 0x1000) (ho' : o' + 4 < 0x1000)
    (hapart : o' + 4 < o ∨ o + 4 < o') : (h.wr64 p o v b).rd64 p' o' b' = h.rd64 p' o' b' := by
  rw [Hw.rd64, Hw.rd64, Hw.rd_wr64_apart _ _ _ _ ho (by omega) (by omega) (by omega),
    Hw.rd_wr64_apart _ _ _ _ ho ho' (by omega) (by omega)]

/-! ### ENG_SEL (R488) -/

/-- Quantities copied one after the other into a page: each reads as copied, and what lies below reads as before. -/
theorem Hw.copies_rd64 (h : Hw) {p base m : Nat} (g : Nat → Nat) (b : Nat) (hm : base + 8 * m ≤ 0x1000) :
    let k := forN m (fun n h => h.wr64 p (base + 8 * n) (g n) b) h
    (∀ n < m, k.rd64 p (base + 8 * n) b = g n % 2 ^ 64) ∧ (∀ o < base, k.rd p o b = h.rd p o b) ∧ Hw.RegsOnly h k := by
  induction m with
  | zero => exact ⟨by simp, fun _ _ => rfl, .refl h⟩
  | succ m ih =>
    intro k
    obtain ⟨hcopied, hbelow, hregs⟩ := ih (by omega)
    have hk : k = (forN m (fun n h => h.wr64 p (base + 8 * n) (g n) b) h).wr64 p (base + 8 * m) (g m) b := by
      simp only [k, forN, List.range_succ, List.foldl_append, List.foldl_cons, List.foldl_nil]
    rw [hk]
    refine ⟨fun n hn => ?_, fun o ho => ?_, hregs.trans (Hw.wr64_regsOnly _ _ _ _ _)⟩
    · obtain rfl | hne := eq_or_ne n m
      · exact Hw.rd64_wr64_same _ _ _ (by omega)
      · rw [Hw.rd64_wr64_apart _ _ _ _ (by omega) (by omega) (by omega)]
        exact hcopied n (by omega)
    · rw [Hw.rd_wr64_apart _ _ _ _ (by omega) (by omega) (by omega) (by omega)]
      exact hbelow o ho

theorem engSel_copies {s : State} {r : Req} {v : Word} (hr : Reaches s r 0x009 0x040) :
    let b := reqBank r
    let id := v.toNat % 0x1000
    let bank := v.toNat % 0x2000 / 0x1000
    ∃ k : Hw, exec (.engSel r v) s = .next { s with hw := k } ∧ k.rd 0x009 0x040 b = v.toNat % 0x2000
      ∧ bitOf (k.rd 0x009 0x044 b) 0 = s.hw.counted id
      ∧ (s.hw.counted id = true → k.rd64 0x009 0x048 b = s.hw.ctr id bank 0 % 2 ^ 64 ∧ k.rd64 0x009 0x050 b = s.hw.ctr id bank 1 % 2 ^ 64
        ∧ ∀ n < 16, k.rd64 0x009 (0x080 + 8 * n) b = s.hw.ctr id bank (3 + n) % 2 ^ 64)
      ∧ (s.hw.counted id = false → k.rd64 0x009 0x048 b = 0 ∧ k.rd64 0x009 0x050 b = 0)
      ∧ k.trc = s.hw.trc ∧ k.mem = s.hw.mem ∧ k.queues = s.hw.queues := by
  intro b id bank
  obtain ⟨hup, hclear, hacc⟩ := hr
  have hid : v.toNat % 0x2000 % 0x1000 = id := by simp only [id]; omega
  let get (k : Nat) : Nat := if s.hw.counted id then s.hw.ctr id bank k else 0
  let h1 := (s.hw.wr 0x009 0x040 (v.toNat % 0x2000) b).wr 0x009 0x044
    ((if s.hw.counted id then 1 else 0) + (if s.hw.counted id ∧ 384 ≤ id then 2 else 0)) b
  let h2 := ((h1.wr64 0x009 0x048 (get 0) b).wr64 0x009 0x050 (get 1) b).wr64 0x009 0x058 (if bank = 0 then get 2 else 0) b
  let k := forN 16 (fun n h => h.wr64 0x009 (0x080 + 8 * n) (get (3 + n)) b) h2
  have hexec : exec (.engSel r v) s = .next { s with hw := k } := by
    show execEngSel r v s = _
    rw [execEngSel, State.onHw_up _ _ hup, engSel, Hw.guardWrite_accepted _ _ _ hclear hacc (by decide)]
    dsimp only
    rw [hid]
  obtain ⟨hcopied, hbelow, hregs⟩ := Hw.copies_rd64 h2 (p := 0x009) (base := 0x080) (m := 16) (fun n => get (3 + n)) b (by omega)
  have hsel : k.rd 0x009 0x040 b = v.toNat % 0x2000 := by
    rw [hbelow 0x040 (by omega)]
    simp (disch := omega) only [h2, h1, Hw.rd_wr64_apart, Hw.rd_wr_apart, Hw.rd_wr_same]
    omega
  have hstat : k.rd 0x009 0x044 b = (if s.hw.counted id then 1 else 0) + (if s.hw.counted id ∧ 384 ≤ id then 2 else 0) := by
    rw [hbelow 0x044 (by omega)]
    simp (disch := omega) only [h2, h1, Hw.rd_wr64_apart, Hw.rd_wr_same]
    split <;> split <;> rfl
  have hbusy : k.rd64 0x009 0x048 b = get 0 % 2 ^ 64 := by
    rw [Hw.rd64, hbelow 0x048 (by omega), hbelow 0x04C (by omega), ← Hw.rd64]
    simp (disch := omega) only [h2, Hw.rd64_wr64_apart, Hw.rd64_wr64_same]
  have hstalled : k.rd64 0x009 0x050 b = get 1 % 2 ^ 64 := by
    rw [Hw.rd64, hbelow 0x050 (by omega), hbelow 0x054 (by omega), ← Hw.rd64]
    simp (disch := omega) only [h2, Hw.rd64_wr64_apart, Hw.rd64_wr64_same]
  have hframe : Hw.LinesOnly s.hw k :=
    (((((Hw.wr_regsOnly _ _ _ _ _).trans (Hw.wr_regsOnly _ _ _ _ _)).trans (Hw.wr64_regsOnly _ _ _ _ _)).trans
      (Hw.wr64_regsOnly _ _ _ _ _)).trans (Hw.wr64_regsOnly _ _ _ _ _) |>.trans hregs).lines
  refine ⟨k, hexec, hsel, ?_, fun hok => ⟨?_, ?_, fun n hn => ?_⟩, fun hno => ⟨?_, ?_⟩, hframe.trc, hframe.mem, hframe.queues⟩
  · rw [hstat]
    cases s.hw.counted id
    · simp [bitOf]
    · by_cases hstage : 384 ≤ id <;> simp [bitOf, hstage]
  · rw [hbusy]; simp only [get, if_pos hok]
  · rw [hstalled]; simp only [get, if_pos hok]
  · rw [hcopied n hn]; simp only [get, if_pos hok]
  · rw [hbusy]; simp only [get, hno]; rfl
  · rw [hstalled]; simp only [get, hno]; rfl

/-! ### Clearing, SNAP and the Trail port (R488, R495, R497) -/

theorem counterClear_clears {s : State} {r : Req} {v : Word} (hr : Reaches s r 0x009 0x060) :
    exec (.counterClear r v) s = .next { s with hw := { s.hw with trc := { s.hw.trc with counters := [], snapBase := [] } } } := by
  obtain ⟨hup, hclear, hacc⟩ := hr
  show execCounterClear r v s = _
  have hbit : bitOf (v ||| 1).toNat 0 = true := by
    rw [BitVec.toNat_or, bitOf, Nat.testBit_or]
    simp
  rw [execCounterClear, State.onHw_up _ _ hup, counterClear, Hw.guardWrite_accepted _ _ _ hclear hacc (by decide), if_pos hbit]

/-- Counting a message and sending it. -/
theorem Hw.count64_send (g : Hw) {p o : Nat} (m : OutMsg) (ho : o + 4 < 0x1000) :
    let k := (g.count64 p o 1).send m
    k.trc = g.trc ∧ k.out = g.out ++ [m] ∧ k.rd64 p o = min (g.rd64 p o + 1) 0xFFFFFFFFFFFFFFFF := by
  obtain ⟨j, hj⟩ : ∃ j, j = g.count64 p o 1 := ⟨_, rfl⟩
  have hregs : Hw.RegsOnly g j := hj ▸ g.count64_regsOnly p o 1
  have hstored : j.rd64 p o = min (g.rd64 p o + 1) 0xFFFFFFFFFFFFFFFF := by
    rw [hj, Hw.count64, Hw.rd64_wr64_same _ _ _ ho]
    exact Nat.mod_eq_of_lt (by omega)
  intro k
  rw [show k = j.send m by rw [hj]]
  have hout : j.out = g.out := by rw [hregs]
  exact ⟨hregs.lines.trc, congrArg (· ++ [m]) hout, hstored⟩

/-- The record that leaves while the port is on. -/
theorem trailRecordSend_on {h : Hw} {x : List Byte} {rest : List (List Byte)} (hfifo : h.trc.fifo = x :: rest)
    (hon : (h.bit 0x008 0x040 0 && !h.trc.off) = true) : trailRecordSend h
      = ({ h with trc := { h.trc with fifo := rest, lane := (h.trc.lane + 1) % 4 } }.count64 0x008 0x050 1).send (.trail h.trc.lane x) := by
  obtain ⟨hbit, hoff⟩ := Bool.and_eq_true_iff.mp hon
  rw [trailRecordSend, hfifo]
  dsimp only
  rw [if_neg (by rw [hbit, (Bool.not_eq_true' _).mp hoff]; decide)]

theorem countersAndTrail : CountersAndTrail := by
  refine ⟨fun s r v hr => engSel_copies hr, fun s r v hr => counterClear_clears hr, fun s hup => ?_, fun s hup => ?_⟩
  · intro period c ids
    have hexec : exec .snap s = .next { s with hw := snap s.hw } := by
      show execSnap s = _
      rw [execSnap, State.onHw_up _ _ hup]
    rw [hexec, snap]
    refine ⟨fun hidle => ?_, fun hperiod hdue => ?_⟩
    · rw [if_pos hidle]
    · rw [if_neg (by rintro (hzero | hlt); exacts [hperiod hzero, absurd hlt (Nat.not_lt.mpr hdue)])]
  · intro on
    have hexec : exec .trailRecordSend s = .next { s with hw := trailRecordSend s.hw } := by
      show execTrailRecordSend s = _
      rw [execTrailRecordSend, State.onHw_up _ _ hup]
    rw [hexec]
    refine ⟨fun hstays => ?_, fun x rest hfifo hon => ?_⟩
    · suffices hsame : trailRecordSend s.hw = s.hw by rw [hsame]
      rw [trailRecordSend]
      split
      · rfl
      · next x rest hfifo =>
        obtain hnone | hon := hstays
        · rw [hfifo] at hnone
          cases hnone
        · rw [if_pos]
          obtain hbit | hoff := Bool.and_eq_false_iff.mp hon
          · exact .inl (by rw [hbit]; rfl)
          · exact .inr ((Bool.not_eq_false' _).mp hoff)
    · rw [trailRecordSend_on hfifo hon]
      obtain ⟨htrc, hout, hsent⟩ := Hw.count64_send
        { s.hw with trc := { s.hw.trc with fifo := rest, lane := (s.hw.trc.lane + 1) % 4 } } (p := 0x008) (o := 0x050)
        (.trail s.hw.trc.lane x) (by omega)
      exact ⟨_, rfl, by rw [htrc], by rw [htrc], hout, hsent⟩

/-! ### The lifetime log (R498 to R500) -/

theorem flashStore_get (bs : List Byte) (k i : Nat) (m : List Host.Cell) (hi : i < bs.length) :
    smGet 0xFF (k + i) (flashStore k bs m) = bs.getD i 0 := by
  induction bs generalizing k i m with
  | nil => cases hi
  | cons b bs ih =>
    cases i with
    | zero => rw [flashStore, flashStore_other _ _ _ _ (.inl (by omega)), Nat.add_zero, smGet_smSet_same]; rfl
    | succ i =>
      rw [flashStore, show k + (i + 1) = k + 1 + i by omega, ih _ _ _ (Nat.lt_of_succ_lt_succ hi)]
      rfl

/-- A programmed byte reads as written. -/
theorem Boot.byte_program_same (b : Boot) (o i : Nat) (bs : List Byte) (hi : i < bs.length) : (b.program o bs).byte (o + i) = bs.getD i 0 :=
  flashStore_get bs o i b.flash hi

theorem Life.tail_length (l : Life) (i : Nat) : (l.tail i).length = 4 * (1024 - i) := by
  rw [Life.tail, List.length_flatMap]
  simp [leBytes, Nat.mul_comm]

/-- A failed flash write leaves the log, and is noted. -/
theorem State.lifeAppend_fails {s : State} (reason : Nat) (hfails : Config.flashFails s.hw.freeCtr = true) :
    (s.lifeAppend reason).boot = s.boot ∧ (s.lifeAppend reason).hw.life = s.hw.life ∧ (s.lifeAppend reason).hw.rd 0x006 0x044 = 2 := by
  rw [State.lifeAppend, if_pos hfails]
  dsimp only
  refine ⟨rfl, ?_, ?_⟩
  · rw [(Hw.raise_lines _ _ _).life, Hw.wr_life, Hw.draw_life]
  · rw [Hw.raise_rd_other _ (by decide) (by decide) (by decide), Hw.rd_wr_same]

/-- An entry that is appended: the live image as stamped, the place after it, and the entry's bytes in flash. -/
theorem State.lifeAppend_appends {s : State} (reason : Nat) (hok : Config.flashFails s.hw.freeCtr = false) :
    let t := s.lifeAppend reason
    t.hw.life.seq = (s.hw.life.seq + 1) % 0x100000000 ∧ t.hw.life.reason = reason ∧ t.hw.life.slot = (s.hw.life.slot + 1) % 52992
      ∧ t.hw.rd 0x006 0x044 = 0 ∧ t.hw.rd 0x006 0x04C = t.hw.life.seq
      ∧ ∀ i < 4096, t.boot.byte (logOff s.hw.life.slot + i) = (t.hw.life.tail 0).getD i 0 := by
  intro t
  obtain ⟨l, hl⟩ : ∃ l, l = s.hw.life.stamp reason s.hw.time := ⟨_, rfl⟩
  have hseq : l.seq = (s.hw.life.seq + 1) % 0x100000000 := by rw [hl]; rfl
  have hslot : l.slot = s.hw.life.slot := by rw [hl]; rfl
  have happend : t = { s with
      boot := (if l.slot % 16 = 0 then s.boot.erase (logOff (l.slot + 16)) else s.boot).program (logOff l.slot) (l.tail 0)
      hw := ((({ s.hw.draw with life := { l with slot := (l.slot + 1) % 52992 } } : Hw).wr 0x006 0x04C l.seq).wr 0x006 0x044 0).raise 0x006 0 } := by
    rw [hl]
    exact if_neg (by rw [hok]; exact Bool.false_ne_true)
  have hlife : t.hw.life = { l with slot := (l.slot + 1) % 52992 } := by
    rw [happend]
    dsimp only
    rw [(Hw.raise_lines _ _ _).life, Hw.wr_life, Hw.wr_life]
  refine ⟨by rw [hlife]; exact hseq, by rw [hlife, hl]; rfl, by rw [hlife, hslot], ?_, ?_, fun i hi => ?_⟩
  · rw [happend]
    dsimp only
    rw [Hw.raise_rd_other _ (by decide) (by decide) (by decide), Hw.rd_wr_same]
  · rw [hlife, happend]
    dsimp only
    rw [Hw.raise_rd_other _ (by decide) (by decide) (by decide), Hw.rd_wr_offset _ _ (by decide) (by decide) (by decide), Hw.rd_wr_same, hseq,
      Nat.mod_mod]
  · rw [hlife, happend, ← hslot]
    exact Boot.byte_program_same _ _ _ _ (by rw [Life.tail_length]; omega)

theorem State.guardWrite_accepted {s : State} {r : Req} {p o : Nat} (v : Nat) (f : State → State) (hclear : s.hw.portHeld r = false)
    (hacc : s.hw.accepts r p o = true) : s.guardWrite r p o v f = f s := by
  rw [State.guardWrite, hclear, hacc]
  rfl

theorem lifetimeLog : LifetimeLog := by
  refine ⟨fun s reason => ⟨State.lifeAppend_fails reason, State.lifeAppend_appends reason⟩, fun s r v hr => ?_, fun s hup => ?_,
    fun s temp hup => ?_, fun s watts hup => ?_⟩
  · obtain ⟨hup, hclear, hacc⟩ := hr
    show execLifeWriteNow r v s = _
    rw [execLifeWriteNow, State.whenUp_up _ _ hup, State.guardWrite_accepted _ _ hclear hacc]
  · intro due
    have hexec : exec .lifePeriod s = .next (lifePeriod s) := by
      show execLifePeriod s = _
      rw [execLifePeriod, State.whenUp_up _ _ hup]
    rw [hexec, lifePeriod]
    exact ⟨fun hidle => by rw [if_neg hidle], fun hdue => by rw [if_pos hdue]⟩
  · intro l
    have hexec : exec (.lifetimeSample temp) s = .next { s with hw := lifetimeSample temp s.hw } := by
      show execLifetimeSample temp s = _
      rw [execLifetimeSample, State.onHw_up _ _ hup]
    rw [hexec, lifetimeSample]
    exact ⟨fun hearly => by rw [if_neg (Nat.not_le.mpr hearly)], fun hpassed => by rw [if_pos hpassed]⟩
  · intro xs
    show execInputPowerSample watts s = _
    rw [execInputPowerSample, State.onHw_up _ _ hup]
    rfl

/-- Settles O55: the counters and the Trail port, and the lifetime log. -/
theorem observation : Obligations.Observation := ⟨countersAndTrail, lifetimeLog⟩

end Sys2Proof.Machine
end

section
/-! PROOF of O56: entry into power states, wakes and sampling (R430 to R439). -/

namespace Sys2Proof.Machine

open Sys2Proof.Claims

/-! ### What notes leave: interrupt lines and trace records -/

/-- From `a` to `b` only registers, the trace unit, and the edges that wait for a wake differ, and while the module is awake no edge waits. -/
structure Hw.Notes (a b : Hw) : Prop where
  only : b = { a with regs := b.regs, trc := b.trc, pow := { a.pow with edges := b.pow.edges } }
  awake : a.pow.state < 2 → b.pow.edges = a.pow.edges

theorem Hw.Notes.mem {a b : Hw} (h : Hw.Notes a b) : b.mem = a.mem := by rw [h.only]
theorem Hw.Notes.queues {a b : Hw} (h : Hw.Notes a b) : b.queues = a.queues := by rw [h.only]
theorem Hw.Notes.time {a b : Hw} (h : Hw.Notes a b) : b.time = a.time := by rw [h.only]
theorem Hw.Notes.life {a b : Hw} (h : Hw.Notes a b) : b.life = a.life := by rw [h.only]
theorem Hw.Notes.pow {a b : Hw} (h : Hw.Notes a b) : b.pow = { a.pow with edges := b.pow.edges } := by rw [h.only]

theorem Hw.Notes.refl (a : Hw) : Hw.Notes a a := ⟨rfl, fun _ => rfl⟩

theorem Hw.Notes.trans {a b c : Hw} (h : Hw.Notes a b) (k : Hw.Notes b c) : Hw.Notes a c where
  only := by rw [k.only, h.only]
  awake hawake := (k.awake (by rw [h.pow]; exact hawake)).trans (h.awake hawake)

theorem Hw.RegsOnly.notes {a b : Hw} (h : Hw.RegsOnly a b) : Hw.Notes a b := ⟨by rw [h], fun _ => by rw [h]⟩

theorem Hw.trc_notes (h : Hw) (t : Trc) : Hw.Notes h { h with trc := t } := ⟨rfl, fun _ => rfl⟩

theorem Hw.edge_notes (h : Hw) (n : Nat) : Hw.Notes h (h.edge n) where
  only := by
    obtain ⟨k, hk⟩ : ∃ k, k = h.edge n := ⟨_, rfl⟩
    have hlines : Hw.LinesOnly h k := hk ▸ h.edge_lines n
    rw [← hk, hlines]
  awake hawake := by rw [Hw.edge_awake n hawake, Hw.latch_regsOnly h n]

theorem Hw.raise_notes (h : Hw) (p n : Nat) : Hw.Notes h (h.raise p n) := by
  have hregs : Hw.RegsOnly h ((h.setBit p 0x010 n true).setBit p 0x018 n true) :=
    (h.setBit_regsOnly p 0x010 n true).trans (Hw.setBit_regsOnly _ p 0x018 n true)
  unfold Hw.raise Hw.watch
  split
  · exact hregs.notes
  · split
    · exact hregs.notes.trans (Hw.edge_notes _ _)
    · exact hregs.notes

theorem Hw.traceEnter_notes (h : Hw) (bs : List Byte) : Hw.Notes h (h.traceEnter bs) := by
  unfold Hw.traceEnter
  dsimp only
  split
  · refine Hw.Notes.trans (Hw.Notes.trans ?_ (Hw.count_regsOnly _ _ _ _).notes) (Hw.trc_notes _ _)
    split
    · exact h.raise_notes _ _
    · exact .refl h
  · split <;> exact Hw.trc_notes _ _

theorem Hw.trace_notes (h : Hw) (r : TraceRec) : Hw.Notes h (h.trace r) := by
  unfold Hw.trace
  dsimp only
  split
  · exact (Hw.trc_notes _ _).trans (Hw.traceEnter_notes _ _)
  · exact .refl h

theorem Hw.setTclk_notes (h : Hw) (off : Bool) : Hw.Notes h (h.setTclk off) := by
  unfold Hw.setTclk
  dsimp only
  split
  · exact (Hw.trc_notes _ _).trans (Hw.raise_notes _ _ _)
  · exact Hw.trc_notes _ _

theorem Hw.quietPage_regsOnly (h : Hw) (p : Nat) : Hw.RegsOnly h (h.quietPage p) := rfl

theorem Hw.noteDvfs_regsOnly (h : Hw) (d : Nat) : Hw.RegsOnly h (h.noteDvfs d) := rfl

/-! ### Entry (R430, R431) -/

theorem Hw.portsDown_stand (h : Hw) (n : Nat) : (forN n (fun p h => h.portDown p) h).mem = h.mem
    ∧ (forN n (fun p h => h.portDown p) h).queues = h.queues ∧ (forN n (fun p h => h.portDown p) h).time = h.time := by
  refine List.foldlRecOn (motive := fun k : Hw => k.mem = h.mem ∧ k.queues = h.queues ∧ k.time = h.time) _ _ ⟨rfl, rfl, rfl⟩ ?_
  rintro k ⟨hmem, hqueues, htime⟩ p -
  exact ⟨hmem, hqueues, htime⟩

/-- What an entry leaves: the state, how long the entry lasts, and no wake latched. -/
theorem Hw.enterState_enters (h : Hw) (n : Nat) : (h.enterState n).pow.state = n ∧ (h.enterState n).pow.entryEnd = h.time + entryNs n
    ∧ (h.enterState n).pow.latched = none ∧ (h.enterState n).mem = h.mem ∧ (h.enterState n).queues = h.queues := by
  have htrace := h.trace_notes { type := 8, engine := 0, arg0 := 1, arg1 := n }
  unfold Hw.enterState
  extract_lets g1 g2 g3 g4
  have hports : g2.mem = g1.mem ∧ g2.queues = g1.queues ∧ g2.time = g1.time := by
    simp only [g2]
    split
    · exact g1.portsDown_stand 4
    · exact ⟨rfl, rfl, rfl⟩
  have hclock : Hw.Notes g2 g3 := by
    simp only [g3]
    split
    · exact g2.setTclk_notes true
    · exact .refl g2
  have hdone : Hw.Notes g4 ((forN 4 (fun d h => h.noteDvfs d) g4).raise 0x001 0) :=
    (Hw.fold_regsOnly _ (fun h d => h.noteDvfs_regsOnly d) _ g4).notes.trans (Hw.raise_notes _ _ _)
  refine ⟨by rw [hdone.pow]; rfl, ?_, by rw [hdone.pow]; rfl, ?_, ?_⟩
  · rw [hdone.pow, ← htrace.time, ← hports.2.2, ← hclock.time]
    rfl
  · rw [hdone.mem, ← htrace.mem, ← hports.1, ← hclock.mem]
    rfl
  · rw [hdone.queues, ← htrace.queues, ← hports.2.1, ← hclock.queues]
    rfl

/-! ### Wakes (R432, R434 to R437) -/

/-- The keys of LAST_WAKE. -/
def LastWakeKey (k : Nat) : Prop := k = regKey (0x001 * 0x1000 + 0x0A8) 0

theorem not_lastWake {off : Nat} (b : Nat) (hne : off % 0x1000 ≠ 0x0A8) : ¬ LastWakeKey (regKey off b) :=
  regKey_ne_of_inPage 0 b (by omega)

theorem not_lastWake_high {off : Nat} (b : Nat) (hne : off ≠ 0x001 * 0x1000 + 0x0A8) : ¬ LastWakeKey (regKey off b) :=
  regKey_ne_of_low 0 b (by decide) (by decide) hne

theorem noIrq_lastWake : NoIrq LastWakeKey := fun o _ => not_lastWake_high 0 (by omega)

theorem Hw.raise_lastWake (h : Hw) (p n : Nat) : Hw.Keeps LastWakeKey h (h.raise p n) :=
  h.raise_keeps n noIrq_lastWake (not_lastWake 0 (by omega)) (not_lastWake 0 (by omega))

theorem Hw.latch_lastWake (h : Hw) (n : Nat) : Hw.Keeps LastWakeKey h (h.latch n) :=
  (h.setBit_keeps _ _ (not_lastWake_high 0 (by omega))).trans (Hw.wr_keeps _ _ (not_lastWake_high 0 (by omega)))

theorem Hw.traceEnter_lastWake (h : Hw) (bs : List Byte) : Hw.Keeps LastWakeKey h (h.traceEnter bs) := by
  unfold Hw.traceEnter
  dsimp only
  split
  · refine Hw.Keeps.trans (Hw.Keeps.trans ?_ (Hw.count_keeps _ 1 (not_lastWake 0 (by omega)))) (.of_regs rfl)
    split
    · exact h.raise_lastWake _ _
    · exact .refl h
  · split <;> exact .of_regs rfl

theorem Hw.trace_lastWake (h : Hw) (r : TraceRec) : Hw.Keeps LastWakeKey h (h.trace r) := by
  unfold Hw.trace
  dsimp only
  split
  · exact Hw.Keeps.trans (.of_regs rfl) (Hw.traceEnter_lastWake _ _)
  · exact .refl h

theorem Hw.setTclk_lastWake (h : Hw) (off : Bool) : Hw.Keeps LastWakeKey h (h.setTclk off) := by
  unfold Hw.setTclk
  dsimp only
  split
  · exact Hw.Keeps.trans (.of_regs rfl) (Hw.raise_lastWake _ _ _)
  · exact .of_regs rfl

/-- From `a` to `b` memory, queues, power state and LAST_WAKE stand. -/
structure Hw.Restored (a b : Hw) : Prop where
  mem : b.mem = a.mem
  queues : b.queues = a.queues
  pow : b.pow = a.pow
  lastWake : Hw.Keeps LastWakeKey a b

theorem Hw.Restored.trans {a b c : Hw} (h : Hw.Restored a b) (k : Hw.Restored b c) : Hw.Restored a c :=
  ⟨k.mem.trans h.mem, k.queues.trans h.queues, k.pow.trans h.pow, h.lastWake.trans k.lastWake⟩

theorem Hw.RegsOnly.restored {a b : Hw} (h : Hw.RegsOnly a b) (hkeeps : Hw.Keeps LastWakeKey a b) : Hw.Restored a b :=
  ⟨by rw [h], by rw [h], by rw [h], hkeeps⟩

theorem Hw.fold_restored {α : Type} {f : Hw → α → Hw} {l : List α} (hf : ∀ h, ∀ a ∈ l, Hw.Restored h (f h a)) (h : Hw) :
    Hw.Restored h (l.foldl f h) :=
  List.foldlRecOn (motive := Hw.Restored h) _ _ ⟨rfl, rfl, rfl, .refl h⟩ fun k hk a ha => hk.trans (hf k a ha)

theorem Hw.quietPage_restored (h : Hw) (p : Nat) : Hw.Restored h (h.quietPage p) :=
  (h.quietPage_regsOnly p).restored (((h.wr_keeps _ (not_lastWake 0 (by omega))).trans
    (Hw.wr_keeps _ _ (not_lastWake 0 (by omega)))).trans (Hw.wr_keeps _ _ (not_lastWake 0 (by omega))))

theorem Hw.dropCoreState_restored (h : Hw) : Hw.Restored h h.dropCoreState := by
  refine Hw.Restored.trans (b := { h with mmu := { h.mmu with tlb := h.mmu.tlb.filter fun e => decide (e.holder < 4) }, sfu := [] })
    ⟨rfl, rfl, rfl, .of_regs rfl⟩ (Hw.fold_restored (fun g n _ => ?_) _)
  refine Hw.RegsOnly.restored (((g.wr_regsOnly _ _ _ _).trans (Hw.wr_regsOnly _ _ _ _ _)).trans (Hw.wr_regsOnly _ _ _ _ _)) ?_
  exact ((g.wr_keeps _ (not_lastWake 0 (by omega))).trans
    (Hw.wr_keeps _ _ (not_lastWake 0 (by omega)))).trans (Hw.wr_keeps _ _ (not_lastWake 0 (by omega)))

/-- What a wake leaves: the module in Run with nothing latched and no edge waiting, and LAST_WAKE with the code. -/
theorem Hw.wakeNow_wakes (h : Hw) (code : Nat) : (h.wakeNow code false).pow.state = 0 ∧ (h.wakeNow code false).pow.latched = none
    ∧ (h.wakeNow code false).pow.edges = [] ∧ (h.wakeNow code false).mem = h.mem ∧ (h.wakeNow code false).queues = h.queues
    ∧ (h.wakeNow code false).rd 0x001 0x0A8 = (code + 0x10 * h.pow.state + 0x100 * min h.pow.others 255) % 0x100000000 := by
  unfold Hw.wakeNow
  extract_lets w g1 g2 gone dropped g3 g4 g5 g6 g7 g8
  have hclock : Hw.Restored g1 g2 := (g1.wr64_regsOnly _ _ _ _).restored
    (Hw.wr64_keeps _ _ (not_lastWake 0 (by decide)) (not_lastWake 0 (by decide)))
  have hdropped : Hw.Restored g2 dropped := g2.dropCoreState_restored.trans (Hw.fold_restored (fun k p _ => k.quietPage_restored p) _)
  have hquiet : Hw.Restored g1 g3 := by
    refine hclock.trans ?_
    simp only [g3]
    split
    · exact hdropped.trans ((dropped.wr_regsOnly _ _ _ _).restored (dropped.wr_keeps _ (not_lastWake 0 (by decide))))
    · exact ⟨rfl, rfl, rfl, .refl _⟩
  have hnotes : Hw.Notes g4 g8 := by
    have hdvfs : Hw.Notes g4 g5 := (Hw.fold_regsOnly _ (fun k d => k.setBit_regsOnly 0x002 (0x050 + 4 * d) 13 false) _ g4).notes
    have htclk : Hw.Notes g5 g6 := (g5.wr_regsOnly _ _ _ _).notes.trans (Hw.setTclk_notes _ _)
    have hedges : Hw.Notes g6 g7 := ((Hw.fold_regsOnly _ (fun k n => k.latch_regsOnly n) w.edges g6).notes.trans
      (Hw.raise_notes _ _ _)).trans (Hw.edge_notes _ _)
    exact ((hdvfs.trans htclk).trans hedges).trans (g7.trace_notes _)
  have hkeeps : Hw.Keeps LastWakeKey g4 g8 := by
    have hdvfs : Hw.Keeps LastWakeKey g4 g5 := Hw.fold_keeps _ _ _ fun k d hd =>
      k.setBit_keeps _ _ (not_lastWake 0 (by have := List.mem_range.mp hd; omega))
    have htclk : Hw.Keeps LastWakeKey g5 g6 := (g5.wr_keeps _ (not_lastWake 0 (by decide))).trans (Hw.setTclk_lastWake _ _)
    have hedges : Hw.Keeps LastWakeKey g6 g7 := ((Hw.fold_keeps _ _ _ fun k n _ => k.latch_lastWake n).trans
      (Hw.raise_lastWake _ _ _)).trans (Hw.edge_keeps _ (by decide) noIrq_lastWake)
    exact ((hdvfs.trans htclk).trans hedges).trans (g7.trace_lastWake _)
  clear_value g8
  generalize hk : (if 3 ≤ w.state then
      [(Port.a, g8.pcieA), (Port.b, g8.pcieB)].foldl (fun h x =>
        if ((alGet (Config.capOff 0) x.2.cfg).getD 0).getLsbD 8 then h.send (.pme x.1) else h) g8
      else g8) = k
  have hlast : Hw.Restored g8 k := by
    rw [← hk]
    split
    · refine Hw.fold_restored (fun k x _ => ?_) _
      split <;> exact ⟨rfl, rfl, rfl, .of_regs rfl⟩
    · exact ⟨rfl, rfl, rfl, .refl _⟩
  refine ⟨by rw [hlast.pow, hnotes.pow], by rw [hlast.pow, hnotes.pow], ?_, ?_, ?_, ?_⟩
  · rw [hlast.pow]
    exact hnotes.awake (Nat.zero_lt_two)
  · rw [hlast.mem, hnotes.mem]
    exact hquiet.mem
  · rw [hlast.queues, hnotes.queues]
    exact hquiet.queues
  · have hall : Hw.Keeps LastWakeKey g1 k :=
      ((hquiet.lastWake.trans (.of_regs rfl)).trans hkeeps).trans hlast.lastWake
    rw [hall.rd rfl]
    exact Hw.rd_wr_same ..

theorem Hw.wakeBy_ignored {h : Hw} {code : Nat} (hwakes : h.wakes code = false) : h.wakeBy code = h := by
  rw [Hw.wakeBy, hwakes]
  rfl

theorem Hw.exitBy_now {h : Hw} {code : Nat} (hstate : h.pow.state ≠ 0) (hentered : h.pow.entryEnd ≤ h.time) :
    h.exitBy code = h.wakeNow code false := by
  rw [Hw.exitBy, if_neg hstate, if_neg (Nat.not_lt.mpr hentered)]

theorem Hw.wakeBy_now {h : Hw} {code : Nat} (hwakes : h.wakes code = true) (hstate : h.pow.state ≠ 0) (hentered : h.pow.entryEnd ≤ h.time) :
    h.wakeBy code = h.wakeNow code false := by
  rw [Hw.wakeBy, if_pos hwakes, Hw.exitBy_now hstate hentered]

theorem Hw.wakeBy_latched {h : Hw} {code : Nat} (hwakes : h.wakes code = true) (hstate : h.pow.state ≠ 0) (hentering : h.time < h.pow.entryEnd)
    (hnone : h.pow.latched = none) : h.wakeBy code = { h with pow := { h.pow with latched := some code } } := by
  rw [Hw.wakeBy, if_pos hwakes, Hw.exitBy, if_neg hstate, if_pos hentering, hnone]

theorem exec_powerStateEntry {s : State} (hup : Up s) : exec .powerStateEntry s = .next { s with hw := powerStateEntry s.hw } := by
  show execPowerStateEntry s = _
  rw [execPowerStateEntry, State.onHw_up _ _ hup]

theorem powerStates : PowerStates := by
  refine ⟨fun s hup => ?_, fun s r v hr => ?_, fun h code => ?_, fun s addr hup => ?_⟩
  · intro h go
    rw [exec_powerStateEntry hup, powerStateEntry]
    refine ⟨fun hstays => ?_, fun hgo => ?_, ?_, fun code => ?_⟩
    · rw [if_pos]
      by_contra hmoves
      simp only [not_or, Nat.not_lt, Nat.not_le, not_ne_iff] at hmoves
      exact hstays hmoves
    · obtain ⟨hentered, hdeeper, hfree⟩ := hgo
      rw [if_neg (by simp only [not_or, Nat.not_lt, Nat.not_le, not_ne_iff]; exact ⟨hentered, hdeeper, hfree⟩)]
      exact ⟨_, rfl, h.enterState_enters (h.pow.state + 1)⟩
    · show execDemandExit s = _
      rw [execDemandExit, State.onHw_up _ _ hup]
    · show execWake code s = _
      rw [execWake, State.onHw_up _ _ hup]
  · intro h
    obtain ⟨hup, hclear, hacc⟩ := hr
    have hexec : exec (.vote r v) s = .next { s with hw := if h.target < h.pow.state then h.wakeBy 8 else h } := by
      show execVote r v s = _
      rw [execVote, State.onHw_up _ _ hup, vote, Hw.guardWrite_accepted _ _ _ hclear hacc (by decide)]
    rw [hexec]
    exact ⟨fun hless => by rw [if_pos hless], fun hmore => by rw [if_neg (Nat.not_lt.mpr hmore)]⟩
  · refine ⟨Hw.wakeBy_ignored, fun hwakes hstate hentered => ?_, Hw.wakeBy_latched⟩
    rw [Hw.wakeBy_now hwakes hstate hentered]
    exact h.wakeNow_wakes code
  · intro mine
    have hexec : exec (.managementAddressMatch addr) s = .next { s with hw := managementAddressMatch addr s.hw } := by
      show execManagementAddressMatch addr s = _
      rw [execManagementAddressMatch, State.onHw_up _ _ hup]
    rw [hexec, managementAddressMatch, Power.answers]
    refine ⟨fun hmine => ?_, fun hother => ?_⟩
    · obtain ⟨hdeep, haddr, hlo, hhi⟩ := hmine
      rw [if_neg]
      simp only [decide_eq_false_iff_not]
      omega
    · rw [if_pos]
      by_contra hmine
      simp only [decide_eq_false_iff_not] at hmine
      omega

/-! ### Sampling (R438) -/

/-- A register that no write of a fold names reads as before. -/
theorem Hw.fold_wr_rd {α : Type} {l : List α} {off : α → Nat} {v : Hw → α → Nat} {p p' o' : Nat} (h : Hw) (ho' : o' < 0x1000)
    (hoff : ∀ a ∈ l, off a < 0x1000 ∧ o' ≠ off a) : (l.foldl (fun h a => h.wr p (off a) (v h a)) h).rd p' o' = h.rd p' o' :=
  List.foldlRecOn (motive := fun k : Hw => k.rd p' o' = h.rd p' o') _ _ rfl fun k hk a ha => by
    rw [Hw.rd_wr_offset _ _ (hoff a ha).1 ho' (hoff a ha).2, hk]

theorem exec_watchSample {s : State} {samples : List (BitVec 16)} (hup : Up s) (hlen : samples.length = 9) :
    exec (.watchSample samples) s = .next { s with hw := watchSample samples s.hw } := by
  show execWatchSample samples s = _
  rw [execWatchSample, if_pos hlen, State.onHw_up _ _ hup]

theorem exec_thresholdCompare {s : State} {samples : List (BitVec 16)} (hup : Up s) (hlen : samples.length = 8) :
    exec (.thresholdCompare samples) s = .next { s with hw := thresholdCompare samples s.hw } := by
  show execThresholdCompare samples s = _
  rw [execThresholdCompare, if_pos hlen, State.onHw_up _ _ hup]

/-- With no channel watched a sample only tells its time. -/
theorem watchSample_unwatched {h : Hw} (samples : List (BitVec 16)) (hstate : h.pow.state = 3) (hdue : h.pow.lastWatch + h.watchNs ≤ h.time)
    (hoff : ∀ c < 9, h.bit 0x001 0x05C c = false) : watchSample samples h = h.setPow fun w => { w with lastWatch := h.time } := by
  have hnone : (List.range 9).filter (fun c => h.bit 0x001 0x05C c) = [] :=
    List.filter_eq_nil_iff.mpr fun c hc => by rw [hoff c (List.mem_range.mp hc)]; exact Bool.false_ne_true
  rw [watchSample, if_neg (by omega)]
  dsimp only
  rw [hnone]
  rfl

/-- A wake among several events brings the module back to Run. -/
theorem Hw.wakeAll_wakes {h : Hw} {codes : List Nat} (code : Nat) (hin : code ∈ codes) (hwakes : h.wakes code = true)
    (hstate : h.pow.state ≠ 0) (hentered : h.pow.entryEnd ≤ h.time) : (h.wakeAll codes).pow.state = 0 := by
  rw [Hw.wakeAll]
  split
  next hnone => exact absurd (hnone ▸ List.mem_filter.mpr ⟨hin, hwakes⟩) List.not_mem_nil
  next c cs _ =>
    rw [Hw.exitBy_now (h := h.setPow fun w => { w with others := min (w.others + cs.length) 255 }) hstate hentered]
    exact (Hw.wakeNow_wakes _ c).1

/-- A channel outside its thresholds ends Watch. -/
theorem watchSample_crossed {h : Hw} {samples : List (BitVec 16)} {c : Nat} (hstate : h.pow.state = 3)
    (hdue : h.pow.lastWatch + h.watchNs ≤ h.time) (hentered : h.pow.entryEnd ≤ h.time) (henabled : h.bit 0x001 0x0A4 5 = true)
    (hc : c < 8) (hwatched : h.bit 0x001 0x05C c = true) (hcrossed : h.crossed c (samples.getD c 0) = true) :
    (watchSample samples h).pow.state = 0 := by
  rw [watchSample, if_neg (by omega)]
  extract_lets on x codes g k
  have hg : Hw.RegsOnly h g := Hw.fold_regsOnly _ (fun h c => h.wr_regsOnly _ _ _ _) _ _
  have hkept : g.rd 0x001 0x0A4 = h.rd 0x001 0x0A4 := Hw.fold_wr_rd _ (by decide) fun c hc => by
    have := List.mem_range.mp (List.mem_filter.mp hc).1
    omega
  have hpow : k.pow.state = 3 ∧ k.pow.entryEnd = h.pow.entryEnd ∧ k.time = h.time := by
    refine ⟨?_, ?_, ?_⟩
    · show g.pow.state = 3
      rw [hg]
      exact hstate
    · show g.pow.entryEnd = _
      rw [hg]
    · show g.time = _
      rw [hg]
  have hsix : 6 ∈ codes := List.mem_flatMap.mpr ⟨c, List.mem_filter.mpr ⟨List.mem_range.mpr (by omega), hwatched⟩, by
    rw [if_pos hc, if_pos hcrossed]
    exact List.mem_singleton_self _⟩
  have hwakes : k.wakes 6 = true := by
    have hbit : k.bit 0x001 0x0A4 5 = true := by
      rw [Hw.bit, show k.rd 0x001 0x0A4 = g.rd 0x001 0x0A4 from rfl, hkept]
      exact henabled
    simp only [Hw.wakes, hpow.1, hbit]
    rfl
  exact Hw.wakeAll_wakes 6 hsix hwakes (by omega) (by omega)

/-- The edges of excursions: the interrupt state changes, and, awake, source 110 is pending. -/
theorem Hw.excursions_notes (h : Hw) (cs : List Nat) : Hw.Notes h (cs.foldl (fun h _ => h.edge 110) h)
    ∧ (cs ≠ [] → h.pow.state < 2 → (cs.foldl (fun h _ => h.edge 110) h).bit 0x004 0x04C 14 = true) := by
  induction cs using List.reverseRecOn with
  | nil => exact ⟨.refl h, fun hnil => absurd rfl hnil⟩
  | append_singleton cs c ih =>
    rw [List.foldl_append, List.foldl_cons, List.foldl_nil]
    refine ⟨ih.1.trans (Hw.edge_notes _ _), fun _ hawake => ?_⟩
    rw [Hw.edge_awake _ (by rw [ih.1.pow]; exact hawake)]
    exact Hw.latch_pend _ (by decide)

/-- What a comparison leaves: memory, queues and state stand, and a channel that has just left its thresholds is signalled. -/
theorem thresholdCompare_compares {h : Hw} {samples : List (BitVec 16)} (hstate : h.pow.state < 3) :
    let k := thresholdCompare samples h
    k.pow.state = h.pow.state ∧ k.mem = h.mem ∧ k.queues = h.queues
      ∧ (h.pow.state < 2 → (∃ c < 8, h.bit 0x001 0x05C c = true ∧ c ∉ h.pow.excursion ∧ h.crossed c (samples.getD c 0) = true) →
        k.bit 0x004 0x04C 14 = true) := by
  intro k
  have hk : k = thresholdCompare samples h := rfl
  rw [thresholdCompare, if_neg (by omega)] at hk
  extract_lets x g out new j at hk
  have hg : Hw.RegsOnly h g := Hw.fold_regsOnly _ (fun h i => h.wr_regsOnly _ _ _ _) _ _
  have hkept {o : Nat} (ho : o < 0x0D0) : g.rd 0x001 o = h.rd 0x001 o := Hw.fold_wr_rd h (by omega) fun i hi => by
    have := List.mem_range.mp hi
    omega
  have hj : j.pow.state = h.pow.state ∧ j.mem = h.mem ∧ j.queues = h.queues := by
    refine ⟨?_, ?_, ?_⟩
    · show g.pow.state = _
      rw [hg]
    · show g.mem = _
      rw [hg]
    · show g.queues = _
      rw [hg]
  obtain ⟨hnotes, hpend⟩ := j.excursions_notes new
  rw [← hk] at hnotes hpend
  refine ⟨by rw [hnotes.pow, ← hj.1], by rw [hnotes.mem, hj.2.1], by rw [hnotes.queues, hj.2.2], fun hawake ⟨c, hc, hon, hin, hcrossed⟩ => ?_⟩
  refine hpend (List.ne_nil_of_mem (a := c) (List.mem_filter.mpr ⟨List.mem_filter.mpr ⟨List.mem_range.mpr hc, ?_⟩, ?_⟩)) (by omega)
  · rw [Bool.and_eq_true, Hw.bit, hkept (by decide), Hw.crossed, hkept (by omega)]
    exact ⟨hon, hcrossed⟩
  · rw [show g.pow.excursion = h.pow.excursion by rw [hg]]
    simpa using hin

theorem watching : Watching := by
  refine ⟨fun s samples hup => ⟨fun hlen => ?_, fun hlen => ?_, fun hlen => ?_, fun hlen => ?_⟩, fun s b hup => ?_, fun s hup => ?_⟩
  · rw [exec_watchSample hup hlen]
    refine ⟨fun hearly => ?_, fun hstate hdue hoff => ?_, fun hstate hdue hentered henabled ⟨c, hc, hwatched, hcrossed⟩ => ?_⟩
    · rw [watchSample, if_pos hearly]
    · rw [watchSample_unwatched samples hstate hdue hoff]
    · exact ⟨_, rfl, watchSample_crossed hstate hdue hentered henabled hc hwatched hcrossed⟩
  · rw [exec_thresholdCompare hup hlen]
    exact ⟨fun hdeep => by rw [thresholdCompare, if_pos hdeep], fun hstate => ⟨_, rfl, thresholdCompare_compares hstate⟩⟩
  · show execWatchSample samples s = _
    rw [execWatchSample, if_neg hlen]
  · show execThresholdCompare samples s = _
    rw [execThresholdCompare, if_neg hlen]
  · intro h wake
    have hexec : exec (.heartbeatSidebandChange b) s = .next { s with
        hw := if (s.hw.hbWakes b && decide (s.hw.pow.state = 2 ∨ s.hw.pow.state = 4)) then h.wakeBy 4 else h } := by
      show execHeartbeatSidebandChange b s = _
      rw [execHeartbeatSidebandChange, State.onHw_up _ _ hup]
      rfl
    have hwake : (s.hw.hbWakes b && decide (s.hw.pow.state = 2 ∨ s.hw.pow.state = 4)) = true ↔ wake := by
      rw [Bool.and_eq_true, decide_eq_true_iff]
    rw [hexec]
    exact ⟨fun hw => by rw [if_pos (hwake.mpr hw)], fun hno => by rw [if_neg fun hw => hno (hwake.mp hw)]⟩
  · intro due h
    have hexec : exec .timerMatch s = .next { s with hw := timerMatch s.hw } := by
      show execTimerMatch s = _
      rw [execTimerMatch, State.onHw_up _ _ hup]
    have hdue : ¬ (!s.hw.bit 0x001 0x0BC 0 ∨ s.hw.pow.timerFired ∨ s.hw.time < s.hw.rd64 0x001 0x0B4) ↔ due := by
      simp only [not_or, Bool.not_eq_true', Bool.not_eq_false, Bool.not_eq_true, Nat.not_lt, due]
    rw [hexec, timerMatch]
    refine ⟨fun hidle => ?_, fun hgo hrun => ?_, fun hgo hrun => ?_⟩
    · rw [if_pos (not_not.mp fun h => hidle (hdue.mp h))]
    · rw [if_neg (hdue.mpr hgo)]
      exact congrArg (fun g => Host.Outcome.next { s with hw := g }) (if_pos hrun)
    · rw [if_neg (hdue.mpr hgo)]
      exact congrArg (fun g => Host.Outcome.next { s with hw := g }) (if_neg hrun)

/-- Settles O56: entry, wakes and votes, and the sampling of Watch. -/
theorem powerAndWake : Obligations.PowerAndWake := ⟨powerStates, watching⟩

end Sys2Proof.Machine
end

section
/-! PROOF of O57: operating points, ceilings and the supply sequencer (R441 to R450, R514 to R519). -/

namespace Sys2Proof.Machine

open Sys2Proof.Claims

theorem listSet_getD {α : Type} {l : List α} {i : Nat} (d b : α) (hi : i < l.length) : (listSet l i b).getD i d = b := by
  have hget : (listSet l i b)[i]? = some b := listSet_get (List.getElem?_eq_getElem hi)
  rw [List.getD_eq_getElem?_getD, hget, Option.getD_some]

/-! ### Operating points (R441, R519) -/

/-- From `a` to `b` only registers and the dies' points and ramps differ. -/
def Hw.DvfsOnly (a b : Hw) : Prop := b = { a with regs := b.regs, pow := { a.pow with points := b.pow.points, ramps := b.pow.ramps } }

theorem Hw.DvfsOnly.refl (a : Hw) : Hw.DvfsOnly a a := rfl

theorem Hw.DvfsOnly.trans {a b c : Hw} (h : Hw.DvfsOnly a b) (k : Hw.DvfsOnly b c) : Hw.DvfsOnly a c := by
  unfold Hw.DvfsOnly at *; rw [k, h]

theorem Hw.RegsOnly.dvfs {a b : Hw} (h : Hw.RegsOnly a b) : Hw.DvfsOnly a b := by
  unfold Hw.RegsOnly at h; unfold Hw.DvfsOnly; rw [h]

theorem Hw.DvfsOnly.mem {a b : Hw} (h : Hw.DvfsOnly a b) : b.mem = a.mem := by rw [h]
theorem Hw.DvfsOnly.life {a b : Hw} (h : Hw.DvfsOnly a b) : b.life = a.life := by rw [h]
theorem Hw.DvfsOnly.pow {a b : Hw} (h : Hw.DvfsOnly a b) : b.pow = { a.pow with points := b.pow.points, ramps := b.pow.ramps } := by rw [h]

theorem Hw.setPoint_dvfs (h : Hw) (d p : Nat) : Hw.DvfsOnly h (h.setPoint d p) := by
  unfold Hw.setPoint
  split <;> rfl

theorem Hw.setRamp_dvfs (h : Hw) (d : Nat) (r : Option Ramp) :
    Hw.DvfsOnly h (h.setPow fun w => { w with ramps := listSet w.ramps d r }) := rfl

theorem Hw.retarget_dvfs (h : Hw) (d : Nat) : Hw.DvfsOnly h (h.retarget d) := by
  unfold Hw.retarget
  split
  · exact (h.noteDvfs_regsOnly d).dvfs
  · dsimp only
    split
    · exact (h.noteDvfs_regsOnly d).dvfs
    · refine Hw.DvfsOnly.trans ?_ (Hw.noteDvfs_regsOnly _ d).dvfs
      split
      · exact (h.setRamp_dvfs d _).trans (Hw.setPoint_dvfs _ _ _)
      · exact h.setRamp_dvfs d _

theorem Hw.fold_dvfs {α : Type} {f : Hw → α → Hw} (hf : ∀ h a, Hw.DvfsOnly h (f h a)) (l : List α) (h : Hw) :
    Hw.DvfsOnly h (l.foldl f h) :=
  List.foldlRecOn (motive := Hw.DvfsOnly h) _ _ (.refl h) fun k hk a _ => hk.trans (hf k a)

theorem Hw.retargetAll_dvfs (h : Hw) : Hw.DvfsOnly h h.retargetAll := Hw.fold_dvfs (fun k d => k.retarget_dvfs d) _ h

theorem Hw.droopDie_dvfs (h : Hw) (d : Nat) : Hw.DvfsOnly h (h.droopDie d) := by
  unfold Hw.droopDie
  dsimp only
  split
  · exact h.retarget_dvfs d
  · split
    · exact .refl h
    · refine Hw.DvfsOnly.trans (Hw.DvfsOnly.trans ?_ (Hw.setRamp_dvfs _ d _)) (Hw.noteDvfs_regsOnly _ d).dvfs
      split
      · exact .refl h
      · exact h.setPoint_dvfs d _

/-- A point that is made for: what is under way stays, a rise begins its ramp, and a fall has switched its clock. -/
theorem Hw.retarget_cases {h : Hw} {d : Nat} (hpoints : h.pow.points.length = 4) (hramps : h.pow.ramps.length = 4) (hd : d < 4) :
    let k := h.retarget d
    (∀ x, h.ramp d = some x → k.point d = h.point d ∧ k.ramp d = some x)
    ∧ (h.ramp d = none → h.point d = h.goal d → k.point d = h.point d ∧ k.ramp d = none)
    ∧ (h.ramp d = none → h.point d < h.goal d → k.point d = h.point d ∧ k.ramp d = some ⟨pointMv (h.point d), h.time, h.goal d⟩)
    ∧ (h.ramp d = none → h.goal d < h.point d → k.point d = h.goal d ∧ k.ramp d = some ⟨pointMv (h.point d), h.time, h.goal d⟩) := by
  have hnote (g : Hw) : (g.noteDvfs d).point d = g.point d ∧ (g.noteDvfs d).ramp d = g.ramp d := by
    rw [Hw.point, Hw.ramp, g.noteDvfs_regsOnly d]
    exact ⟨rfl, rfl⟩
  obtain ⟨g, hg⟩ : ∃ g, g = h.setPow fun w => { w with ramps := listSet w.ramps d (some ⟨pointMv (h.point d), h.time, h.goal d⟩) } := ⟨_, rfl⟩
  have hpoint : g.point d = h.point d := by rw [hg]; rfl
  have hramp : g.ramp d = some ⟨pointMv (h.point d), h.time, h.goal d⟩ := by
    rw [hg]
    exact listSet_getD _ _ (by omega)
  refine ⟨fun x hx => ?_, fun hnone heq => ?_, fun hnone hrise => ?_, fun hnone hfall => ?_⟩
  · rw [show h.retarget d = h.noteDvfs d by rw [Hw.retarget, hx], ← hx]
    exact hnote h
  · rw [show h.retarget d = h.noteDvfs d by rw [Hw.retarget, hnone]; exact if_pos heq, ← hnone]
    exact hnote h
  · rw [show h.retarget d = g.noteDvfs d by
      rw [Hw.retarget, hnone]
      dsimp only
      rw [if_neg (by omega), if_neg (by omega), hg], (hnote g).1, (hnote g).2]
    exact ⟨hpoint, hramp⟩
  · rw [show h.retarget d = (g.setPoint d (h.goal d)).noteDvfs d by
      rw [Hw.retarget, hnone]
      dsimp only
      rw [if_neg (by omega), if_pos hfall, hg], (hnote _).1, (hnote _).2, Hw.setPoint, if_neg (by omega)]
    refine ⟨?_, ?_⟩
    · rw [Hw.point, Hw.count_pow]
      exact listSet_getD _ _ (by rw [hg]; exact hpoints ▸ hd)
    · rw [Hw.ramp, Hw.count_pow]
      exact hramp

/-! ### Ceilings (R442, R443, R517) -/

/-- A step of the power ceiling, once the last one lies far enough back. -/
theorem powerLimitStep_steps {h : Hw} {mean : Nat} (hpast : ¬ h.time < h.pow.limitAt + 1000 * (h.rd 0x001 0x04C / 0x10000)) :
    let k := powerLimitStep mean h
    k.pow.limitAt = h.time ∧ k.mem = h.mem ∧ k.pow.ceiling = if h.plimit < mean then ((List.range 4).map h.goal).foldl max 0 - 1
      else if 100 * mean < 97 * h.plimit then min 15 (h.pow.ceiling + 1) else h.pow.ceiling := by
  intro k
  have hk : k = powerLimitStep mean h := rfl
  rw [powerLimitStep, if_neg hpast] at hk
  extract_lets top old c g1 g2 unmet g3 at hk
  have hdvfs : Hw.DvfsOnly (h.setPow fun w => { w with ceiling := c, limitAt := h.time }) g1 := Hw.retargetAll_dvfs _
  have hfall : Hw.Notes g1 g2 := by
    simp only [g2]
    split
    · exact g1.raise_notes _ _
    · exact .refl g1
  have hunmet : Hw.Notes g2 g3 := by
    simp only [g3]
    split
    · exact g2.raise_notes _ _
    · exact .refl g2
  have hnotes := hfall.trans hunmet
  rw [hk]
  refine ⟨?_, ?_, ?_⟩
  · show g3.pow.limitAt = _
    rw [hnotes.pow, hdvfs.pow]
    rfl
  · show g3.mem = _
    rw [hnotes.mem, hdvfs.mem]
    rfl
  · show g3.pow.ceiling = _
    rw [hnotes.pow, hdvfs.pow]
    rfl

/-- A step of a die's ceiling. -/
theorem thermalSample_steps {h : Hw} {d : Fin 4} {temp : Int} (hlen : h.pow.thermal.length = 4) (hcool : temp < 500)
    (hpast : ¬ h.time < h.pow.thermalAt.getD d.val 0 + 100000) :
    let c := h.pow.thermal.getD d.val 15
    (thermalSample d temp h).pow.thermal.getD d.val 15 = if 420 ≤ temp then c - 1 else if temp ≤ 408 then min 15 (c + 1) else c := by
  intro c
  obtain ⟨c', hc'⟩ : ∃ c', c' = if 420 ≤ temp then c - 1 else if temp ≤ 408 then min 15 (c + 1) else c := ⟨_, rfl⟩
  rw [thermalSample, if_neg (by omega)]
  dsimp only
  rw [if_neg hpast, ← hc']
  by_cases hsame : c' = c
  · rw [if_pos hsame, hsame]
  · have hstep (g : Hw) : (if c' < c then (g.retarget d.val).raise 0x001 2 else g.retarget d.val).pow.thermal = g.pow.thermal := by
      split
      · rw [(Hw.raise_notes _ _ _).pow, (g.retarget_dvfs d.val).pow]
      · rw [(g.retarget_dvfs d.val).pow]
    rw [if_neg hsame, hstep]
    exact listSet_getD _ _ (by rw [hlen]; exact d.isLt)

/-- A low sample starts a droop or keeps it up. -/
theorem droop_low {h : Hw} {mv : Nat} (hlow : mv < 45000) : (droop mv h).pow.droop = some (h.time + 1000000, match h.pow.droop with
      | some (_, l) => min l mv
      | none => mv) ∧ (droop mv h).mem = h.mem := by
  obtain ⟨k, hk⟩ : ∃ k, k = droop mv h := ⟨_, rfl⟩
  rw [← hk]
  obtain ⟨g, hg⟩ : ∃ g, g = h.wr 0x001 0x0D8 (h.rd 0x001 0x0D8 / 0x10000 * 0x10000 + min mv 0xFFFF) := ⟨_, rfl⟩
  have hregs : Hw.RegsOnly h g := hg ▸ h.wr_regsOnly _ _ _ _
  rw [droop, ← hg] at hk
  extract_lets low g1 g2 at hk
  rw [if_neg (by omega)] at hk
  have hnotes : Hw.Notes g g1 := by
    simp only [g1]
    split
    · exact g.raise_notes _ _
    · exact .refl g
  have hdvfs : Hw.DvfsOnly g2 k := hk ▸ Hw.fold_dvfs (fun j d => j.droopDie_dvfs d) _ g2
  refine ⟨?_, ?_⟩
  · rw [hdvfs.pow]
    show some (g1.time + 1000000, low) = _
    rw [hnotes.time, show g.time = h.time by rw [hregs]]
    exact congrArg (fun w : Power => some (h.time + 1000000, match w.droop with
      | some (_, l) => min l mv
      | none => mv)) (show g.pow = h.pow by rw [hregs])
  · rw [hdvfs.mem]
    show g1.mem = _
    rw [hnotes.mem, hregs]

theorem pointsAndCeilings : PointsAndCeilings := by
  refine ⟨fun s r d v hr => ?_, fun s d hup => ?_, fun h d hpoints hramps hd => Hw.retarget_cases hpoints hramps hd, fun s mean hup => ?_,
    fun s d temp hup hlen => ?_, fun s mv hup => ?_, fun s hup => ?_, fun s i hup => ?_⟩
  · obtain ⟨hup, hclear, hacc⟩ := hr
    have hbell : ∀ d : Fin 4, doorbell 0x002 (0x040 + 4 * d.val) = false := by decide
    show execPointRequest r d v s = _
    rw [execPointRequest, State.onHw_up _ _ hup, pointRequest, Hw.guardWrite_accepted _ _ _ hclear hacc (hbell d)]
  · have hexec : exec (.rampDone d) s = .next { s with hw := rampDone d s.hw } := by
      show execRampDone d s = _
      rw [execRampDone, State.onHw_up _ _ hup]
    rw [hexec, rampDone]
    refine ⟨fun hnone => by rw [hnone], fun x hx => ?_⟩
    rw [hx]
    dsimp only
    exact ⟨fun hearly => by rw [if_pos hearly], fun hend => by rw [if_neg (Nat.not_lt.mpr hend)]⟩
  · intro soon lim
    have hexec : exec (.powerLimitStep mean) s = .next { s with hw := powerLimitStep mean s.hw } := by
      show execPowerLimitStep mean s = _
      rw [execPowerLimitStep, State.onHw_up _ _ hup]
    rw [hexec]
    refine ⟨fun hsoon => by rw [powerLimitStep, if_pos hsoon], fun hpast => ?_⟩
    obtain ⟨hat, hmem, hceiling⟩ := powerLimitStep_steps (mean := mean) hpast
    refine ⟨_, rfl, hat, hmem, fun hover => ?_, fun hunder hlow => ?_, fun hunder hnear => ?_⟩
    · rw [hceiling, if_pos hover]
    · rw [hceiling, if_neg (Nat.not_lt.mpr hunder), if_pos hlow]
    · rw [hceiling, if_neg (Nat.not_lt.mpr hunder), if_neg (Nat.not_lt.mpr hnear)]
  · intro c soon
    have hexec : exec (.thermalSample d temp) s = .next { s with hw := thermalSample d temp s.hw } := by
      show execThermalSample d temp s = _
      rw [execThermalSample, State.onHw_up _ _ hup]
    rw [hexec]
    refine ⟨fun hhot => ⟨_, rfl, ?_⟩, fun hcool hsoon => ?_, fun hcool hpast => ⟨_, rfl, thermalSample_steps hlen hcool hpast⟩⟩
    · rw [thermalSample, if_pos hhot]
      exact ⟨rfl, rfl⟩
    · rw [thermalSample, if_neg (by omega)]
      exact congrArg (fun g => Host.Outcome.next { s with hw := g }) (if_pos hsoon)
  · intro h
    have hexec : exec (.droop mv) s = .next { s with hw := droop mv s.hw } := by
      show execDroop mv s = _
      rw [execDroop, State.onHw_up _ _ hup]
    rw [hexec]
    exact ⟨fun hhigh => by rw [droop]; exact congrArg (fun g => Host.Outcome.next { s with hw := g }) (if_pos hhigh),
      fun hlow => ⟨_, rfl, droop_low hlow⟩⟩
  · have hexec : exec .droopHoldExpiry s = .next { s with hw := droopHoldExpiry s.hw } := by
      show execDroopHoldExpiry s = _
      rw [execDroopHoldExpiry, State.onHw_up _ _ hup]
    rw [hexec, droopHoldExpiry]
    refine ⟨fun hnone => by rw [hnone], fun t low hdroop => ?_⟩
    rw [hdroop]
    refine ⟨fun hearly => by dsimp only; rw [if_pos hearly], fun hend => ⟨_, rfl, ?_⟩⟩
    dsimp only
    rw [if_neg (Nat.not_lt.mpr hend), (Hw.retargetAll_dvfs _).pow, (Hw.retargetAll_dvfs _).life]
    exact ⟨rfl, rfl⟩
  · obtain ⟨g, hg⟩ : ∃ g, g = (s.hw.setBit 0x002 0x064 i.val false).err 0x002 (i.val % 16) (Config.freeNat s.hw.freeCtr 0x10000 % 0x10000) :=
      ⟨_, rfl⟩
    have hregs : Hw.RegsOnly s.hw g := hg ▸ (s.hw.setBit_regsOnly _ _ _ _).trans (Hw.err_regsOnly _ _ _ _)
    refine ⟨g.draw.raise 0x002 0, ?_, ?_, ?_, ?_⟩
    · show execPllLockLost i s = _
      rw [execPllLockLost, State.onHw_up _ _ hup, pllLockLost, ← hg]
    · have hkeeps : Hw.Keeps (· = regKey (0x002 * 0x1000 + 0x064) 0) (s.hw.setBit 0x002 0x064 i.val false) (g.draw.raise 0x002 0) := by
        refine Hw.Keeps.trans (b := g) ?_ (Hw.Keeps.trans (b := g.draw) (.of_regs rfl)
          (Hw.raise_keeps _ 0 (noIrq_of_page fun k hk => hk ▸ regKey_page_ne_irq 0 (by decide)) ?_ ?_))
        · rw [hg]
          exact Hw.err_keeps _ _ _ _ (regKey_ne_of_inPage 0 0 (by decide))
        · exact regKey_ne_of_inPage 0 0 (by decide)
        · exact regKey_ne_of_inPage 0 0 (by decide)
      rw [Hw.bit, hkeeps.rd rfl]
      exact Hw.bit_setBit_same _ _ _ _ (by omega)
    · rw [(Hw.raise_lines _ _ _).mem, Hw.draw_mem, hregs.lines.mem]
    · rw [(Hw.raise_lines _ _ _).queues, Hw.draw_queues, hregs.lines.queues]

/-! ### The supply sequencer (R446 to R448, R514, R515) -/

theorem Hw.powerOff_regs (h : Hw) (g : Nat) : ∃ k, Hw.RegsOnly h k ∧ h.powerOff g = k.setPow fun w => { w with off := true, pwrgd := false } := by
  refine ⟨_, Hw.fold_regsOnly _ (fun k i => ?_) _ h, rfl⟩
  dsimp only
  split
  · exact k.setBit_regsOnly _ _ _ _
  · exact .refl k

/-- Which rails are on once those of a group and of every later one have been switched off, one after the other. -/
theorem Hw.railsOff_bit (h : Hw) (g : Nat) {m j : Nat} (hm : m ≤ 13) (hj : j < 13) :
    (forN m (fun i h => if g ≤ railGroup i then h.setBit 0x001 (0x104 + 8 * i) 8 false else h) h).bit 0x001 (0x104 + 8 * j) 8
      = (h.bit 0x001 (0x104 + 8 * j) 8 && !decide (j < m ∧ g ≤ railGroup j)) := by
  induction m with
  | zero => simp [forN]
  | succ m ih =>
    rw [forN, List.range_succ, List.foldl_append, List.foldl_cons, List.foldl_nil, ← forN]
    by_cases hoff : g ≤ railGroup m
    · rw [if_pos hoff]
      by_cases hsame : j = m
      · subst hsame
        rw [Hw.bit_setBit_same _ _ _ _ (by decide)]
        simp [hoff]
      · rw [Hw.bit, Hw.setBit, Hw.rd_wr_offset _ _ (by omega) (by omega) (by omega), ← Hw.bit, ih (by omega)]
        have hlt : j < m + 1 ↔ j < m := by omega
        simp [hlt]
    · have hlt : (j < m + 1 ∧ g ≤ railGroup j) ↔ (j < m ∧ g ≤ railGroup j) := by
        refine and_congr_left fun hg => ?_
        have : j ≠ m := fun h => hoff (h ▸ hg)
        omega
      rw [if_neg hoff, ih (by omega), decide_eq_decide.mpr hlt]

theorem Hw.powerOff_bit (h : Hw) (g : Nat) {j : Nat} (hj : j < 13) :
    (h.powerOff g).bit 0x001 (0x104 + 8 * j) 8 = (h.bit 0x001 (0x104 + 8 * j) 8 && decide (railGroup j < g)) := by
  show (forN 13 _ h).bit 0x001 (0x104 + 8 * j) 8 = _
  rw [h.railsOff_bit g (le_refl 13) hj]
  by_cases hg : g ≤ railGroup j
  · simp [hj, hg]
  · simp [hg, Nat.lt_of_not_le hg]

theorem railFault_faults {h : Hw} (i : Fin 13) (hon : h.pow.off = false) :
    let k := railFault i h
    k.pow.off = true ∧ k.pow.pwrgd = false ∧ k.pow.cause = (if i.val < 2 then 1 else 6) ∧ k.mem = h.mem
      ∧ ∀ j < 13, k.bit 0x001 (0x104 + 8 * j) 8 = (h.bit 0x001 (0x104 + 8 * j) 8 && decide (railGroup j < railGroup i.val)) := by
  intro k
  obtain ⟨p, hp⟩ : ∃ p, p = (h.setBit 0x001 (0x104 + 8 * i.val) 9 true).powerOff (railGroup i.val) := ⟨_, rfl⟩
  have hk : k = (p.oweLife 0x030).setPow fun w => { w with cause := if railGroup i.val = 1 then 1 else 6 } := by
    rw [hp]
    exact if_neg (by rw [hon]; decide)
  obtain ⟨g, hregs, hoff⟩ := (h.setBit 0x001 (0x104 + 8 * i.val) 9 true).powerOff_regs (railGroup i.val)
  rw [← hp] at hoff
  have hgroup : ∀ i : Fin 13, (if railGroup i.val = 1 then 1 else 6) = if i.val < 2 then 1 else 6 := by decide
  refine ⟨by rw [hk, hoff]; rfl, by rw [hk, hoff]; rfl, by rw [hk, ← hgroup i]; rfl, ?_, fun j hj => ?_⟩
  · rw [hk, hoff]
    show g.mem = _
    rw [hregs.lines.mem, Hw.setBit_mem]
  · have hregs' : k.regs = p.regs := by rw [hk]; rfl
    rw [Hw.bit, Hw.rd_of_regs hregs', ← Hw.bit, hp, Hw.powerOff_bit _ _ hj]
    by_cases hsame : j = i.val
    · rw [hsame, Hw.bit_setBit_true _ _ _ _ (by decide)]
      simp
    · rw [Hw.bit, Hw.setBit, Hw.rd_wr_offset _ _ (by omega) (by omega) (by omega), ← Hw.bit]

theorem undervoltageLockout_locks {h : Hw} (i : Fin 3) (hvalid : h.pow.vin.getD i.val false = true) :
    let k := undervoltageLockout i h
    k.pow.off = true ∧ k.pow.locked = true ∧ k.pow.vin = listSet h.pow.vin i.val false
      ∧ (h.offOkPin = false → k.pow.unorderedNext = true) := by
  obtain ⟨g, hg⟩ : ∃ g, g = if h.pow.off then h else h.powerOff (i.val + 1) := ⟨_, rfl⟩
  have hoff : g.pow.off = true ∧ g.pow.vin = h.pow.vin := by
    rw [hg]
    split
    · exact ⟨‹_›, rfl⟩
    · obtain ⟨k, hregs, hoff⟩ := h.powerOff_regs (i.val + 1)
      rw [hoff]
      refine ⟨rfl, ?_⟩
      show k.pow.vin = _
      rw [hregs]
  intro k
  have hk : k = g.setPow fun w => { w with
      vin := listSet w.vin i.val false, cause := 1, locked := true
      unorderedNext := w.unorderedNext || (!h.offOkPin || !(h.pow.vin.drop (i.val + 1)).all (! ·)) } := by
    rw [hg]
    exact if_neg (by rw [hvalid]; decide)
  rw [hk]
  refine ⟨hoff.1, rfl, congrArg (listSet · i.val false) hoff.2, fun hpin => ?_⟩
  show (g.pow.unorderedNext || (!h.offOkPin || !(h.pow.vin.drop (i.val + 1)).all (! ·))) = true
  rw [hpin]
  simp

theorem supplyInputValid_known {h : Hw} {i : Fin 3} (hvalid : h.pow.vin.getD i.val false = true) : supplyInputValid i h = h := by
  rw [supplyInputValid]
  exact if_pos hvalid

/-- VIN_ANA that comes starts a new sequence. -/
theorem supplyInputValid_ana {h : Hw} (hnew : h.pow.vin.getD 0 false = false) :
    let k := supplyInputValid 0 h
    k.pow.locked = false ∧ k.pow.anaAge = 0 ∧ k.pow.vin = listSet h.pow.vin 0 true
      ∧ k.pow.early = if h.pow.vin.getD 1 false then 1 else if h.pow.vin.getD 2 false then 2 else 0 := by
  intro k
  have hk : k = supplyInputValid 0 h := rfl
  rw [supplyInputValid] at hk
  simp only [Fin.val_zero, hnew, Bool.false_eq_true, if_false, if_true] at hk
  rw [hk]
  generalize (if h.pow.vin.getD 1 false = true then 1 else if h.pow.vin.getD 2 false = true then 2 else 0) = e
  split <;> exact ⟨rfl, rfl, rfl, rfl⟩

/-- Whether VIN_IO or VIN_CORE would come before the input it must follow (R446). -/
def Hw.inputEarly (h : Hw) (i : Fin 3) : Bool :=
  if i.val = 1 then !h.pow.vin.getD 0 false || decide (h.pow.anaAge < 10000000) else !h.pow.vin.getD 1 false

/-- A later input that comes after the one it must follow, or before it. -/
theorem supplyInputValid_later {h : Hw} {i : Fin 3} (hnew : h.pow.vin.getD i.val false = false) (hi : i.val ≠ 0) :
    supplyInputValid i h =
      let k := h.setPow fun w => { w with vin := listSet w.vin i.val true }
      if h.inputEarly i = true ∧ h.pow.early = 0 then (k.setPow fun w => { w with early := i.val }).oweLife 0x034 else k := by
  rw [supplyInputValid]
  simp only [hnew, Bool.false_eq_true, if_false, if_neg hi]
  rfl

theorem supplies : Supplies := by
  refine ⟨fun s i => ⟨fun hoff => ?_, fun hon => ⟨_, rfl, railFault_faults i hon⟩⟩, fun s i _ => ?_, fun s => ?_, fun s hup => ?_, fun s r v hr => ?_⟩
  · show Host.Outcome.next { s with hw := railFault i s.hw } = _
    rw [railFault, if_pos hoff]
  · intro v
    have hvalid (i : Fin 3) : exec (.supplyInputValid i) s = .next { s with hw := supplyInputValid i s.hw } := rfl
    refine ⟨fun hlost => ?_, fun hpresent => ⟨_, rfl, undervoltageLockout_locks i hpresent⟩, fun hpresent => ?_,
      fun hnew => ⟨_, rfl, supplyInputValid_ana hnew⟩, fun hnew hana hage => ?_, fun hnew hcore hearly => ⟨_, hvalid 2, ?_⟩, fun hnew hcore => ?_⟩
    · show Host.Outcome.next { s with hw := undervoltageLockout i s.hw } = _
      rw [undervoltageLockout, if_pos (show (!v i.val) = true by rw [hlost]; rfl)]
    · rw [hvalid, supplyInputValid_known hpresent]
    · have hintime : s.hw.inputEarly 1 = false := by
        show (!v 0 || decide (s.hw.pow.anaAge < 10000000)) = false
        simp [hana, hage]
      rw [hvalid, supplyInputValid_later (i := 1) hnew (by decide), hintime]
      rfl
    · have hbefore : s.hw.inputEarly 2 = true := by
        show (!v 1) = true
        rw [hcore]
        rfl
      rw [supplyInputValid_later (i := 2) hnew (by decide)]
      dsimp only
      rw [if_pos ⟨hbefore, hearly⟩]
      rfl
    · have hintime : s.hw.inputEarly 2 = false := by
        show (!v 1) = false
        rw [hcore]
        rfl
      rw [hvalid, supplyInputValid_later (i := 2) hnew (by decide), hintime]
      rfl
  · intro w go
    have hexec : exec .powerOnReset s = .next (powerOnReset s) := rfl
    have hgo : ¬ (!s.hw.pow.off ∨ s.hw.pow.locked ∨ s.hw.pow.early ≠ 0 ∨ s.hw.pow.vin ≠ [true, true, true]) ↔ go := by
      simp only [not_or, Bool.not_eq_true', Bool.not_eq_false, Bool.not_eq_true, not_ne_iff, go, w]
    rw [hexec, powerOnReset]
    refine ⟨fun hready => ?_, fun hnot => ?_, rfl⟩
    · exact congrArg Host.Outcome.next (if_neg (hgo.mpr hready))
    · exact congrArg Host.Outcome.next (if_pos (not_not.mp fun h => hnot (hgo.mp h)))
  · intro h
    have hexec : exec .shdnReq s = .next (if h.firmware then ({ s with hw := h } : State).lifeAppend 2 else { s with hw := h }) := by
      show execShdnReq s = _
      rw [execShdnReq, State.whenUp_up _ _ hup]
      rfl
    rw [hexec]
    exact ⟨fun hrun => by rw [if_pos hrun], fun hno => by rw [hno]; rfl⟩
  · obtain ⟨hup, hclear, hacc⟩ := hr
    have hbit : bitOf (v ||| 1).toNat 0 = true := by
      rw [BitVec.toNat_or, bitOf, Nat.testBit_or]
      simp
    show execOffOk r v s = _
    rw [execOffOk, State.onHw_up _ _ hup, offOk, Hw.guardWrite_accepted _ _ _ hclear hacc (by decide), if_pos hbit]

/-- Settles O57: points and ceilings, and the supply sequencer. -/
theorem pointsAndSupplies : Obligations.PointsAndSupplies := ⟨pointsAndCeilings, supplies⟩

end Sys2Proof.Machine
end

section
/-! PROOF of O58: reset, boot, recovery and attestation (R453 to R467). -/

namespace Sys2Proof.Machine

open Sys2Proof.Claims

/-! ### The boot flow (R460 to R463) -/

/-- The keys of RESET_CAUSE. -/
def ResetCauseKey (k : Nat) : Prop := k = regKey (0x003 * 0x1000 + 0x040) 0

theorem not_resetCause {off : Nat} (b : Nat) (hne : off ≠ 0x003 * 0x1000 + 0x040) : ¬ ResetCauseKey (regKey off b) :=
  regKey_ne_of_low 0 b (by decide) (by decide) hne

theorem noIrq_resetCause : NoIrq ResetCauseKey := fun o _ => not_resetCause 0 (by omega)

/-- From `a` to `b` the queues, the pair, the power state and RESET_CAUSE stand. -/
structure Hw.Booting (a b : Hw) : Prop where
  queues : b.queues = a.queues
  pair : b.pair = a.pair
  state : b.pow.state = a.pow.state
  cause : Hw.Keeps ResetCauseKey a b

theorem Hw.Booting.refl (a : Hw) : Hw.Booting a a := ⟨rfl, rfl, rfl, .refl a⟩

theorem Hw.Booting.trans {a b c : Hw} (h : Hw.Booting a b) (k : Hw.Booting b c) : Hw.Booting a c :=
  ⟨k.queues.trans h.queues, k.pair.trans h.pair, k.state.trans h.state, h.cause.trans k.cause⟩

theorem Hw.wr_booting (h : Hw) (p o v b : Nat) (hne : p * 0x1000 + o ≠ 0x003 * 0x1000 + 0x040) : Hw.Booting h (h.wr p o v b) :=
  ⟨rfl, rfl, rfl, h.wr_keeps _ (not_resetCause b hne)⟩

theorem Hw.raise_booting (h : Hw) (p n : Nat) : Hw.Booting h (h.raise p n) where
  queues := (h.raise_lines p n).queues
  pair := (h.raise_lines p n).pair
  state := by rw [h.raise_lines p n]
  cause := h.raise_keeps n noIrq_resetCause (not_resetCause 0 (by omega)) (not_resetCause 0 (by omega))

theorem Hw.fold_booting {α : Type} {f : Hw → α → Hw} {l : List α} (hf : ∀ h, ∀ a ∈ l, Hw.Booting h (f h a)) (h : Hw) :
    Hw.Booting h (l.foldl f h) :=
  List.foldlRecOn (motive := Hw.Booting h) _ _ (.refl h) fun k hk a ha => hk.trans (hf k a ha)

theorem Hw.extend_booting (h : Hw) (i : Nat) (d : List Byte) : Hw.Booting h (h.extend i d) :=
  Hw.fold_booting (fun k w _ => k.wr_booting 0x005 (0x080 + 64 * i + 4 * w) _ 0 (by omega)) h

theorem Hw.recovery_booting (h : Hw) (code : Nat) : Hw.Booting h (h.recovery code) :=
  ((h.wr_booting 0x003 0x048 (3 + 0x100 * code) 0 (by decide)).trans (Hw.wr_booting _ 0x005 0x040 _ 0 (by decide))).trans ⟨rfl, rfl, rfl, .of_regs rfl⟩

theorem Hw.arrFollow_booting (h : Hw) (n : Nat) : Hw.Booting h (h.arrFollow n) :=
  (h.wr_booting (corePage n) 0x300 _ 0 (by unfold corePage; omega)).trans
    (Hw.wr_booting _ (corePage n) 0x304 _ 0 (by unfold corePage; omega))

/-- A repair entry that is applied, but for the listing of a retired frame. -/
theorem Hw.applyRepair_booting (h : Hw) {e : List Byte} (hkind : bitsOf (bnum e 0 4) 3 0 ≠ 6) : Hw.Booting h (h.applyRepair e).1 := by
  unfold Hw.applyRepair
  extract_lets w kind index inst unit addr free
  split
  · split
    · exact .refl h
    · split
      · exact .refl h
      · exact Hw.Booting.trans (b := h.setBist _) ⟨rfl, rfl, rfl, .of_regs rfl⟩ (Hw.wr_booting _ 0x007 0x090 _ 0 (by decide))
  · split
    · exact .refl h
    · exact (h.wr_booting (corePage index) _ _ 0 (by unfold corePage; omega)).trans (Hw.arrFollow_booting _ _)
  · split
    · exact .refl h
    · exact (h.wr_booting (corePage index) 0x310 _ 0 (by unfold corePage; omega)).trans (Hw.arrFollow_booting _ _)
  · split
    · exact .refl h
    · exact ⟨rfl, rfl, rfl, .of_regs rfl⟩
  · split
    · exact .refl h
    · exact ⟨rfl, rfl, rfl, .of_regs rfl⟩
  · next hsix => exact absurd hsix hkind
  · exact .refl h

theorem Hw.bootRepair_booting (h : Hw) (e : List Byte) : Hw.Booting h (h.bootRepair e) := by
  unfold Hw.bootRepair
  dsimp only
  split
  · exact ⟨rfl, rfl, rfl, .of_regs rfl⟩
  · next hkind =>
    split
    · exact .refl h
    · exact h.applyRepair_booting hkind

theorem State.bootBlocks_booting (s : State) : Hw.Booting s.hw s.bootBlocks.hw := by
  unfold State.bootBlocks
  refine Hw.fold_booting (fun k t _ => ?_) s.hw
  split
  · split
    · exact k.wr_booting 0x003 0x048 _ 0 (by decide)
    · exact .refl k
  · dsimp only
    split
    · exact (Hw.fold_booting (fun j e _ => j.bootRepair_booting e) k).trans (Hw.extend_booting _ _ _)
    · exact k.extend_booting _ _

theorem State.lifeBoot_booting (s : State) : Hw.Booting s.hw s.lifeBoot.hw := by
  obtain ⟨l, v, hboot⟩ : ∃ (l : Life) (v : Nat), s.lifeBoot.hw = ({ s.hw with life := l } : Hw).wr 0x006 0x04C v := ⟨_, _, rfl⟩
  rw [hboot]
  exact Hw.Booting.trans (b := { s.hw with life := l }) ⟨rfl, rfl, rfl, .of_regs rfl⟩ (Hw.wr_booting _ 0x006 0x04C v 0 (by decide))

theorem State.lifeAppend_booting (s : State) (reason : Nat) : Hw.Booting s.hw (s.lifeAppend reason).hw := by
  by_cases hfails : Config.flashFails s.hw.freeCtr = true
  · rw [State.lifeAppend, if_pos hfails]
    show Hw.Booting s.hw ((s.hw.draw.wr 0x006 0x044 2).raise 0x006 1)
    exact Hw.Booting.trans (b := s.hw.draw) ⟨rfl, rfl, rfl, .of_regs rfl⟩
      ((Hw.wr_booting _ 0x006 0x044 2 0 (by decide)).trans (Hw.raise_booting _ _ _))
  · obtain ⟨l, v, hlife⟩ : ∃ (l : Life) (v : Nat),
        (s.lifeAppend reason).hw = ((({ s.hw.draw with life := l } : Hw).wr 0x006 0x04C v).wr 0x006 0x044 0).raise 0x006 0 := by
      rw [State.lifeAppend, if_neg hfails]
      exact ⟨_, _, rfl⟩
    rw [hlife]
    exact Hw.Booting.trans (b := { s.hw.draw with life := l }) ⟨rfl, rfl, rfl, .of_regs rfl⟩
      (((Hw.wr_booting _ 0x006 0x04C v 0 (by decide)).trans (Hw.wr_booting _ 0x006 0x044 0 0 (by decide))).trans (Hw.raise_booting _ _ _))

theorem State.startImage_booting (s : State) (seed : List Byte) (n svn : Nat) (d : List Byte) :
    Hw.Booting s.hw (s.startImage seed n svn d).hw := by
  unfold State.startImage
  extract_lets h1 pub cert h2 h3 b t
  have hregs : Hw.Booting s.hw h3 :=
    ((((s.hw.extend_booting 0 d).trans (Hw.wr_booting _ 0x005 0x040 3 0 (by decide))).trans
      (Hw.wr_booting _ 0x005 0x044 svn 0 (by decide))).trans (Hw.wr_booting _ 0x003 0x050 _ 0 (by decide))).trans
      (Hw.wr_booting _ 0x003 0x048 _ 0 (by decide))
  have hblocks (u : State) (hu : u.hw = h3) : Hw.Booting s.hw u.bootBlocks.lifeBoot.hw :=
    ((hu ▸ hregs).trans u.bootBlocks_booting).trans (State.lifeBoot_booting _)
  have ht : Hw.Booting s.hw t.hw := hblocks _ rfl
  split
  · exact ht.trans (t.lifeAppend_booting 2)
  · exact ht

theorem State.bootFlow_booting (s : State) (cold : Bool) : Hw.Booting s.hw (s.bootFlow cold).hw := by
  unfold State.bootFlow
  extract_lets h1 seed b0 b h2 h3 slot
  have hclocks : Hw.Booting s.hw h1 := (s.hw.wr_booting 0x002 0x064 0x07FFFFFF 0 (by decide)).trans ⟨rfl, rfl, rfl, .of_regs rfl⟩
  split
  · exact hclocks.trans (h1.recovery_booting 2)
  · have hcounters : Hw.Booting s.hw h3 := by
      refine (hclocks.trans (h1.wr_booting 0x005 0x040 1 0 (by decide))).trans (Hw.fold_booting (fun k i _ => ?_) h2)
      exact k.wr_booting 0x005 (0x048 + 4 * i) _ 0 (by omega)
    clear_value slot
    split
    · exact hcounters.trans (h3.recovery_booting 3)
    · exact hcounters.trans (State.startImage_booting { s with hw := h3, boot := b } _ _ _ _)

/-- What a module reset leaves of the queues, the pair, the power state and RESET_CAUSE. -/
theorem State.moduleReset_leaves (s : State) (cause : Nat) (wipe : Bool) :
    (s.moduleReset cause wipe).hw.queues = [] ∧ (s.moduleReset cause wipe).hw.pair.state = psUNPAIRED
      ∧ (s.moduleReset cause wipe).hw.rd 0x003 0x040 = cause % 0x100000000 ∧ (s.moduleReset cause wipe).hw.pow.state = 0 := by
  unfold State.moduleReset
  extract_lets h0 h keepKey w n m
  have hm : m.queues = [] ∧ m.pair.state = psUNPAIRED ∧ m.rd 0x003 0x040 = cause % 0x100000000 ∧ m.pow.state = 0 := by
    clear_value h
    refine ⟨rfl, rfl, ?_, rfl⟩
    simp (disch := decide) only [m, Hw.count, Hw.rd_wr_offset, Hw.rd_wr_same]
  obtain ⟨hqueues, hpair, hcause, hstate⟩ := hm
  have hboot : Hw.Booting m _ := State.bootFlow_booting { s with hw := m } false
  exact ⟨hboot.queues.trans hqueues, (congrArg Pair.state hboot.pair).trans hpair, (hboot.cause.rd rfl).trans hcause, hboot.state.trans hstate⟩

theorem moduleResets : ModuleResets := by
  refine ⟨fun s r v hr => ?_, fun s r v hr => ?_, fun s hup => ?_, fun s cause wipe => ?_⟩
  · obtain ⟨hup, hclear, hacc⟩ := hr
    intro cause
    have hexec : exec (.modReset r v) s = .next (if v = 0x0000A55A then s.moduleReset cause false
        else if v = 0x0000A55B then s.moduleReset cause true else { s with hw := s.hw.badAccess (pageOff 0x003 0x044) }) := by
      show execModReset r v s = _
      rw [execModReset, State.whenUp_up _ _ hup]
      exact congrArg Host.Outcome.next (State.guardWrite_accepted v.toNat _ hclear hacc)
    rw [hexec]
    refine ⟨fun hkey => by rw [if_pos hkey], fun hkey => ?_, fun hno hno' => by rw [if_neg hno, if_neg hno']⟩
    subst hkey
    rfl
  · obtain ⟨hup, hclear, hacc⟩ := hr
    have hexec : exec (.wdogKick r v) s = .next (if r ≠ .handler then { s with hw := s.hw.badAccess (pageOff 0x003 0x054) }
        else s.wdogStart) := by
      show execWdogKick r v s = _
      rw [execWdogKick, State.whenUp_up _ _ hup, State.wdogWrite, State.guardWrite_accepted _ _ hclear hacc]
    rw [hexec]
    exact ⟨fun hhandler => by rw [if_neg (not_not.mpr hhandler)]; rfl, fun hother => by rw [if_pos hother]⟩
  · intro c due
    have hexec : exec .watchdogExpiry s = .next (watchdogExpiry s) := by
      show execWatchdogExpiry s = _
      rw [execWatchdogExpiry, State.whenUp_up _ _ hup]
    have hdue : ¬ (!bitOf c 0 ∨ 3 ≤ s.hw.pow.state ∨ s.hw.time < max s.boot.wdogAt s.hw.pow.wokeAt + c / 0x100 * 1000000) ↔ due := by
      simp only [not_or, Bool.not_eq_true', Bool.not_eq_false, Nat.not_le, Nat.not_lt, due]
    rw [hexec, watchdogExpiry]
    exact ⟨fun hexpired => congrArg Host.Outcome.next (if_neg (hdue.mpr hexpired)),
      fun hcounts => congrArg Host.Outcome.next (if_pos (not_not.mp fun h => hcounts (hdue.mp h)))⟩
  · obtain ⟨hqueues, hpair, hcause, hstate⟩ := s.moduleReset_leaves cause wipe
    exact ⟨hqueues, hpair, hcause, hstate, (State.moduleReset_tame s cause wipe).1⟩

/-! ### Ports, counters and recovery (R456, R458, R462, R463) -/

theorem Boot.byte_erase_same (b : Boot) {o off : Nat} (hsector : o / 0x10000 = off / 0x10000) : (b.erase off).byte o = 0xFF := by
  unfold Boot.erase Boot.byte
  refine smGet_of_not_mem _ fun x hx heq => ?_
  have hout := (List.mem_filter.mp hx).2
  simp only [Bool.not_eq_true', decide_eq_false_iff_not] at hout
  omega

theorem bitOf_or_same (v : Word) (n : Nat) (w : Word) : bitOf (v ||| w).toNat n = (bitOf v.toNat n || bitOf w.toNat n) := by
  rw [BitVec.toNat_or, bitOf, bitOf, bitOf, Nat.testBit_or]

theorem bitOf_and_same (v : Word) (n : Nat) (w : Word) : bitOf (v &&& w).toNat n = (bitOf v.toNat n && bitOf w.toNat n) := by
  rw [BitVec.toNat_and, bitOf, bitOf, bitOf, Nat.testBit_and]

/-- The hardware part after BOOT_CTL's two port bits. -/
def Hw.portsReady (h : Hw) (v : Nat) : Hw :=
  let a := if bitOf v 0 then { h with pcieA := { h.pcieA with ready := true } } else h
  if bitOf v 1 then { a with pcieB := { a.pcieB with ready := true } } else a

theorem Hw.portsReady_congr (h : Hw) {v w : Nat} (h0 : bitOf v 0 = bitOf w 0) (h1 : bitOf v 1 = bitOf w 1) :
    h.portsReady v = h.portsReady w := by rw [Hw.portsReady, Hw.portsReady, h0, h1]

theorem Hw.portsReady_regs (h : Hw) (v : Nat) : (h.portsReady v).regs = h.regs := by
  unfold Hw.portsReady
  dsimp only
  split <;> split <;> rfl

/-- What boot_ok makes of the counters. -/
def State.confirmed (s : State) (h : Hw) : Boot :=
  let new := [h.rd 0x005 0x044, s.boot.applied.getD 0 0, s.boot.applied.getD 1 0, s.boot.applied.getD 2 0]
  { s.boot with counters := (List.range 4).map fun i => max (s.boot.counters.getD i 0) (new.getD i 0) }

theorem bootCtl_accepted {s : State} {r : Req} (v : Nat) (hclear : s.hw.portHeld r = false) (hacc : s.hw.accepts r 0x005 0x058 = true) :
    bootCtl r v s = if bitOf v 2 then
      let h := (s.hw.portsReady v).wr 0x003 0x048 ((s.hw.portsReady v).rd 0x003 0x048 / 0x10 * 0x10 + 2)
      { s with hw := h, boot := s.confirmed h } else { s with hw := s.hw.portsReady v } :=
  State.guardWrite_accepted v _ hclear hacc

theorem bootCtl_marks {s : State} {r : Req} {v : Word} (hr : Reaches s r 0x005 0x058) :
    let h := s.hw.portsReady v.toNat
    exec (.portReady r v) s = .next { s with hw := h }
    ∧ ∃ t, exec (.bootOk r v) s = .next t ∧ t.hw = h.wr 0x003 0x048 (h.rd 0x003 0x048 / 0x10 * 0x10 + 2)
      ∧ t.boot.counters.getD 0 0 = max (s.boot.counters.getD 0 0) (s.hw.rd 0x005 0x044)
      ∧ (∀ i < 3, t.boot.counters.getD (i + 1) 0 = max (s.boot.counters.getD (i + 1) 0) (s.boot.applied.getD i 0))
      ∧ t.boot.flash = s.boot.flash := by
  intro h
  obtain ⟨hup, hclear, hacc⟩ := hr
  have hready : s.hw.portsReady (v &&& 3).toNat = h := Hw.portsReady_congr _
    (by rw [bitOf_and_same, show bitOf (3 : Word).toNat 0 = true by decide, Bool.and_true])
    (by rw [bitOf_and_same, show bitOf (3 : Word).toNat 1 = true by decide, Bool.and_true])
  have hok : s.hw.portsReady (v ||| 4).toNat = h := Hw.portsReady_congr _
    (by rw [bitOf_or_same, show bitOf (4 : Word).toNat 0 = false by decide, Bool.or_false])
    (by rw [bitOf_or_same, show bitOf (4 : Word).toNat 1 = false by decide, Bool.or_false])
  obtain ⟨k, hk⟩ : ∃ k, k = h.wr 0x003 0x048 (h.rd 0x003 0x048 / 0x10 * 0x10 + 2) := ⟨_, rfl⟩
  have hsvn : k.rd 0x005 0x044 = s.hw.rd 0x005 0x044 := by
    rw [hk, Hw.rd_wr_offset _ _ (by decide) (by decide) (by decide), Hw.rd_of_regs (s.hw.portsReady_regs v.toNat)]
  refine ⟨?_, { s with hw := k, boot := s.confirmed k }, ?_, hk, ?_, fun i hi => ?_, rfl⟩
  · show execPortReady r v s = _
    rw [execPortReady, State.whenUp_up _ _ hup, bootCtl_accepted _ hclear hacc, hready,
      if_neg (by rw [bitOf_and_same, show bitOf (3 : Word).toNat 2 = false by decide, Bool.and_false]; exact Bool.false_ne_true)]
  · show execBootOk r v s = _
    rw [execBootOk, State.whenUp_up _ _ hup, bootCtl_accepted _ hclear hacc, hok,
      if_pos (by rw [bitOf_or_same, show bitOf (4 : Word).toNat 2 = true by decide, Bool.or_true]), hk]
  · rw [← hsvn]
    rfl
  · have hcases : i = 0 ∨ i = 1 ∨ i = 2 := by omega
    obtain rfl | rfl | rfl := hcases <;> rfl

theorem bootAndRecovery : BootAndRecovery := by
  refine ⟨fun s r v hr => bootCtl_marks hr, fun s off bytes hup => ?_⟩
  intro rec_
  have herase : exec (.flashErase off) s = .next (if s.serves = true ∧ off < 0x2000000 then { s with boot := s.boot.erase off } else s) := by
    show execFlashErase off s = _
    rw [execFlashErase, State.whenUp_up _ _ hup]
  have hread : exec (.flashRead off) s = .next (if s.serves = true ∧ off + 32 ≤ 0x10000000 then
      { s with hw := s.hw.send (.flash (s.boot.bytes off 32)) } else s) := by
    show execFlashRead off s = _
    rw [execFlashRead, State.whenUp_up _ _ hup]
  have hprogram (hbytes : bytes ≠ []) (hlen : bytes.length ≤ 32) : exec (.flashProgram off bytes) s
      = .next (if s.serves = true ∧ off + bytes.length ≤ 0x2000000 then { s with boot := s.boot.program off bytes } else s) := by
    show execFlashProgram off bytes s = _
    rw [execFlashProgram, if_neg (by rw [not_or]; exact ⟨hbytes, Nat.not_lt.mpr hlen⟩), State.whenUp_up _ _ hup]
  have hno {n m : Nat} (h : ¬ rec_ ∨ m < n) : ¬ (s.serves = true ∧ n ≤ m) := fun ⟨hserves, hle⟩ =>
    h.elim (fun hnot => hnot hserves) fun hlt => Nat.not_lt.mpr hle hlt
  refine ⟨fun hrec hoff => ⟨by rw [herase, if_pos ⟨hrec, hoff⟩], fun o => ?_⟩, fun hout => ?_, fun hbytes hlen =>
    ⟨fun hrec hoff => ⟨by rw [hprogram hbytes hlen, if_pos ⟨hrec, hoff⟩], fun o => ?_⟩, fun hout => ?_⟩, fun hbad => ?_,
    fun hrec hoff => by rw [hread, if_pos ⟨hrec, hoff⟩], fun hout => by rw [hread, if_neg (hno hout)]⟩
  · by_cases hsector : o / 0x10000 = off / 0x10000
    · rw [if_pos hsector, Boot.byte_erase_same _ hsector]
    · rw [if_neg hsector, Boot.byte_erase_other _ _ _ hsector]
  · rw [herase, if_neg (show ¬ (s.serves = true ∧ off < 0x2000000) from hno (hout.imp_right Nat.lt_succ_of_le))]
  · by_cases hin : off ≤ o ∧ o < off + bytes.length
    · have hbyte := s.boot.byte_program_same off (o - off) bytes (by omega)
      rw [if_pos hin, ← hbyte, Nat.add_sub_cancel' hin.1]
    · rw [if_neg hin, Boot.byte_program_other _ _ _ _ (by omega)]
  · rw [hprogram hbytes hlen, if_neg (hno hout)]
  · show execFlashProgram off bytes s = _
    rw [execFlashProgram, if_pos hbad]

/-! ### Measurements (R464) -/

theorem keccakMap_length (f : Nat → Nat → DWord) : (keccakMap f).length = 25 := by rw [keccakMap, List.length_map, List.length_range]

theorem keccakStep_length (a : Keccak) (rc : DWord) : (keccakStep a rc).length = 25 := by
  have hchi : (keccakChi (keccakPi (keccakTheta a))).length = 25 := keccakMap_length _
  rw [keccakStep]
  split
  next hnil => rw [hnil] at hchi; cases hchi
  next l t hcons => rw [hcons] at hchi; exact hchi

theorem keccakF_length {a : Keccak} (ha : a.length = 25) : (keccakF a).length = 25 :=
  List.foldlRecOn (motive := fun b : Keccak => b.length = 25) _ _ ha fun b _ rc _ => keccakStep_length b rc

theorem keccakAbsorb_length (n : Nat) (bs : List Byte) {a : Keccak} (ha : a.length = 25) : (keccakAbsorb n bs a).length = 25 := by
  induction n generalizing bs a with
  | zero => exact ha
  | succ n ih =>
    rw [keccakAbsorb]
    exact ih _ (keccakF_length (by rw [List.length_map, List.length_range]))

theorem leBytes_length (n v : Nat) : (leBytes n v).length = n := by
  induction n generalizing v with
  | zero => rfl
  | succ n ih => rw [leBytes, List.length_cons, ih]

theorem digest_length (bs : List Byte) : (digest bs).length = 64 := by
  have hlanes := keccakAbsorb_length (bs.length / 136 + 1) (shakePad bs) (a := List.replicate 25 0) (by rw [List.length_replicate])
  rw [digest, shake256]
  generalize keccakAbsorb (bs.length / 136 + 1) (shakePad bs) (List.replicate 25 0) = a at hlanes ⊢
  rw [List.length_take, List.length_flatMap]
  simp [leBytes_length, hlanes]

theorem leNat_lt (bs : List Byte) : leNat bs < 256 ^ bs.length := by
  induction bs with
  | nil => decide
  | cons b bs ih =>
    have := b.isLt
    rw [leNat, List.length_cons, pow_succ]
    omega

theorem leBytes_leNat (bs : List Byte) : leBytes bs.length (leNat bs) = bs := by
  induction bs with
  | nil => rfl
  | cons b bs ih =>
    have hb := b.isLt
    have hlow : BitVec.ofNat 8 (b.toNat + 256 * leNat bs) = b := BitVec.eq_of_toNat_eq (by rw [BitVec.toNat_ofNat]; omega)
    rw [List.length_cons, leNat, leBytes, hlow, show (b.toNat + 256 * leNat bs) / 256 = leNat bs by omega, ih]

/-- Words of four bytes, joined. -/
theorem flatMap_slice (bs : List Byte) (n : Nat) : ((List.range n).flatMap fun w => slice bs (4 * w) 4) = bs.take (4 * n) := by
  induction n with
  | zero => simp
  | succ n ih =>
    rw [List.range_succ, List.flatMap_append, ih, Nat.mul_succ, List.take_add]
    simp [slice]

/-- Words written one after the other into a page: each reads as written, and the others as before. -/
theorem Hw.fill_rd (h : Hw) {p base m : Nat} (g : Nat → Nat) (hm : base + 4 * m ≤ 0x1000) :
    (∀ n < m, (forN m (fun n h => h.wr p (base + 4 * n) (g n)) h).rd p (base + 4 * n) = g n % 0x100000000)
    ∧ ∀ o < 0x1000, (o < base ∨ base + 4 * m ≤ o) → (forN m (fun n h => h.wr p (base + 4 * n) (g n)) h).rd p o = h.rd p o := by
  induction m with
  | zero => exact ⟨by simp, fun _ _ _ => rfl⟩
  | succ m ih =>
    obtain ⟨hfilled, hother⟩ := ih (by omega)
    rw [forN, List.range_succ, List.foldl_append, List.foldl_cons, List.foldl_nil, ← forN]
    refine ⟨fun n hn => ?_, fun o ho hout => ?_⟩
    · obtain rfl | hne := eq_or_ne n m
      · exact Hw.rd_wr_same ..
      · rw [Hw.rd_wr_offset _ _ (by omega) (by omega) (by omega), hfilled n (by omega)]
    · rw [Hw.rd_wr_offset _ _ (by omega) ho (by omega), hother o ho (by omega)]

/-- An extended register holds the first 64 bytes of the digest, and every other one what it held. -/
theorem Hw.extend_measurement (h : Hw) {i : Nat} (d : List Byte) (hi : i < 8) :
    (h.extend i d).measurement i = (digest (h.measurement i ++ d)).take 64
      ∧ ∀ j < 8, j ≠ i → (h.extend i d).measurement j = h.measurement j := by
  obtain ⟨bs, hbs⟩ : ∃ bs, bs = digest (h.measurement i ++ d) := ⟨_, rfl⟩
  have hlen : bs.length = 64 := hbs ▸ digest_length _
  obtain ⟨hfilled, hother⟩ := h.fill_rd (p := 0x005) (base := 0x080 + 64 * i) (m := 16) (fun w => leNat (slice bs (4 * w) 4)) (by omega)
  rw [Hw.extend, Hw.setMeasurement, ← hbs]
  refine ⟨?_, fun j hj hne => ?_⟩
  · rw [Hw.measurement, show bs.take 64 = bs.take (4 * 16) from rfl, ← flatMap_slice]
    refine List.flatMap_congr fun w hw => ?_
    have hslice : (slice bs (4 * w) 4).length = 4 := by
      have := List.mem_range.mp hw
      rw [slice, List.length_take, List.length_drop, hlen]
      omega
    have hlt := leNat_lt (slice bs (4 * w) 4)
    rw [hslice] at hlt
    rw [hfilled w (List.mem_range.mp hw), Nat.mod_eq_of_lt (show leNat (slice bs (4 * w) 4) < 0x100000000 from hlt)]
    conv_rhs => rw [← leBytes_leNat (slice bs (4 * w) 4), hslice]
  · refine List.flatMap_congr fun w hw => ?_
    have := List.mem_range.mp hw
    rw [hother _ (by omega) (by omega)]

/-! ### Requests (R464, R465) -/

/-- Whether the requester's request is busy, and what a write of REQ_CTL with one of its two bits does then and otherwise. -/
theorem reqCtl_accepted {s : State} {r : Req} (v : Nat) (hclear : s.hw.portHeld r = false) (hacc : s.hw.accepts r 0x003 0x060 = true) :
    reqCtl r v s = if (bitOf v 0 ∨ bitOf v 1) ∧ s.hw.rd 0x003 0x064 (reqBank r) % 2 = 1 then { s with hw := s.hw.badAccess (pageOff 0x003 0x060) }
      else
        let h := s.hw.wr 0x003 0x060 (v &&& 0xC) (reqBank r)
        if bitOf v 0 then { s with hw := h.ask r none }
        else if bitOf v 1 then
          let h := h.ask r (some (bitsOf v 3 2))
          { s with hw := Hw.serveExtends h.attests.length h }
        else { s with hw := h } := State.guardWrite_accepted v _ hclear hacc

/-- ATTEST enters a request for a report. -/
theorem exec_attest {s : State} {r : Req} {v : Word} (hr : Reaches s r 0x003 0x060) : exec (.attest r v) s = .next { s with
    hw := if s.hw.rd 0x003 0x064 (reqBank r) % 2 = 1 then s.hw.badAccess (pageOff 0x003 0x060)
      else (s.hw.wr 0x003 0x060 (v.toNat &&& 0xC) (reqBank r)).ask r none } := by
  obtain ⟨hup, hclear, hacc⟩ := hr
  have hbit : bitOf (v ||| 1).toNat 0 = true := by rw [bitOf_or_same, show bitOf (1 : Word).toNat 0 = true by decide, Bool.or_true]
  have hfields : (v ||| 1).toNat &&& 0xC = v.toNat &&& 0xC := by
    rw [BitVec.toNat_or, Nat.and_or_distrib_right, show (1 : Word).toNat &&& 0xC = 0 by decide, Nat.or_zero]
  show execAttest r v s = _
  rw [execAttest, State.whenUp_up _ _ hup, reqCtl_accepted _ hclear hacc]
  by_cases hbusy : s.hw.rd 0x003 0x064 (reqBank r) % 2 = 1
  · rw [if_pos ⟨.inl hbit, hbusy⟩, if_pos hbusy]
  · rw [if_neg fun h => hbusy h.2, if_neg hbusy]
    dsimp only
    rw [if_pos hbit, hfields]

/-- The register number of an extend stands in the field that REQ_CTL keeps. -/
theorem bitsOf_reg (v : Nat) : bitsOf v 3 2 = (v &&& 0xC) / 4 := by
  rw [← Nat.shiftRight_eq_div_pow (v &&& 0xC) 2, Nat.shiftRight_and_distrib, show 0xC >>> 2 = 2 ^ 2 - 1 by decide,
    Nat.and_two_pow_sub_one_eq_mod, Nat.shiftRight_eq_div_pow]
  rfl

/-- EXTEND enters a request and serves what no earlier request stands before. -/
theorem exec_extend {s : State} {r : Req} {v : Word} (hr : Reaches s r 0x003 0x060) :
    let asked := (s.hw.wr 0x003 0x060 (v.toNat &&& 0xC) (reqBank r)).ask r (some (bitsOf v.toNat 3 2))
    exec (.extend r v) s = .next { s with
      hw := if s.hw.rd 0x003 0x064 (reqBank r) % 2 = 1 then s.hw.badAccess (pageOff 0x003 0x060)
        else Hw.serveExtends asked.attests.length asked } := by
  intro asked
  obtain ⟨hup, hclear, hacc⟩ := hr
  have hmask : ((v ||| 2) &&& 0xFFFFFFFE).toNat = (v.toNat ||| 2) &&& 0xFFFFFFFE := by rw [BitVec.toNat_and, BitVec.toNat_or]; rfl
  have hlow : bitOf ((v ||| 2) &&& 0xFFFFFFFE).toNat 0 = false := by
    rw [bitOf_and_same, show bitOf (0xFFFFFFFE : Word).toNat 0 = false by decide, Bool.and_false]
  have hbit : bitOf ((v ||| 2) &&& 0xFFFFFFFE).toNat 1 = true := by
    rw [bitOf_and_same, bitOf_or_same, show bitOf (2 : Word).toNat 1 = true by decide, Bool.or_true]
    decide
  have hfields : ((v ||| 2) &&& 0xFFFFFFFE).toNat &&& 0xC = v.toNat &&& 0xC := by
    rw [hmask, Nat.and_assoc, show 0xFFFFFFFE &&& 0xC = 0xC by decide, Nat.and_or_distrib_right, show 2 &&& 0xC = 0 by decide, Nat.or_zero]
  have hreg : bitsOf ((v ||| 2) &&& 0xFFFFFFFE).toNat 3 2 = bitsOf v.toNat 3 2 := by
    rw [bitsOf_reg, hfields, ← bitsOf_reg]
  show execExtend r v s = _
  rw [execExtend, State.whenUp_up _ _ hup, reqCtl_accepted _ hclear hacc]
  by_cases hbusy : s.hw.rd 0x003 0x064 (reqBank r) % 2 = 1
  · rw [if_pos ⟨.inr hbit, hbusy⟩, if_pos hbusy]
  · rw [if_neg fun h => hbusy h.2, if_neg hbusy]
    dsimp only
    rw [if_neg (by rw [hlow]; exact Bool.false_ne_true), if_pos hbit, hfields, hreg]

/-- Behind a report no extend is served. -/
theorem Hw.serveExtends_behind {h : Hw} {x : Asked} {rest : List Asked} (n : Nat) (hfirst : h.attests = x :: rest)
    (hreport : x.reg = none) : Hw.serveExtends n h = h := by
  cases n with
  | zero => rfl
  | succ n =>
    rw [Hw.serveExtends, hfirst]
    dsimp only
    rw [hreport]
    rfl

/-- An extend that stands alone is served, or waits. -/
theorem Hw.serveExtends_alone {k : Hw} {x : Asked} {i : Nat} (halone : k.attests = [x]) (hreg : x.reg = some i) :
    let a := k.reqAddr x.who
    let g := k.demandFor handlerMaster a 64
    let served (m : Hw) : Prop := Hw.serveExtends k.attests.length k = m
    (g.read handlerMaster a 64 = .error .wait → served k)
    ∧ (∀ bs, g.read handlerMaster a 64 = .ok bs →
      served { (((g.touch handlerMaster a 64).extend (4 + i) bs).raise 0x005 0).reqDone x.who 0 with attests := [] })
    ∧ (∀ cause level va, g.read handlerMaster a 64 = .error (.fault cause level va) →
      served { (g.postFault handlerMaster cause level va false 0 false).reqDone x.who 1 with attests := [] })
    ∧ (∀ va n, g.read handlerMaster a 64 = .error (.ecc va n) → served { (g.touch handlerMaster a 64).reqDone x.who 1 with attests := [] }) := by
  have hserve : Hw.serveExtends k.attests.length k = match k.extendHost x.who i with
      | none => k
      | some g => { g with attests := [] } := by
    rw [halone, List.length_singleton, Hw.serveExtends, halone]
    dsimp only
    rw [hreg, Option.bind_some]
    cases k.extendHost x.who i <;> rfl
  intro a g served
  simp only [served]
  rw [hserve, Hw.extendHost]
  refine ⟨fun hwait => ?_, fun bs hok => ?_, fun cause level va hfault => ?_, fun va n hecc => ?_⟩
  · rw [show (k.demandFor handlerMaster (k.reqAddr x.who) 64).read handlerMaster (k.reqAddr x.who) 64 = _ from hwait]
  · rw [show (k.demandFor handlerMaster (k.reqAddr x.who) 64).read handlerMaster (k.reqAddr x.who) 64 = _ from hok]
  · rw [show (k.demandFor handlerMaster (k.reqAddr x.who) 64).read handlerMaster (k.reqAddr x.who) 64 = _ from hfault]
  · rw [show (k.demandFor handlerMaster (k.reqAddr x.who) 64).read handlerMaster (k.reqAddr x.who) 64 = _ from hecc]

theorem requests {s : State} {r : Req} {v : Word} (hr : Reaches s r 0x003 0x060) :
    let busy := s.hw.rd 0x003 0x064 (reqBank r) % 2 = 1
    let h := s.hw.wr 0x003 0x060 (v.toNat &&& 0xC) (reqBank r)
    let asked (x : Option Nat) : Hw := { h.wr 0x003 0x064 1 (reqBank r) with attests := h.attests ++ [⟨r, h.time, x⟩] }
    let i := bitsOf v.toNat 3 2
    let a := (asked (some i)).reqAddr r
    let g := (asked (some i)).demandFor handlerMaster a 64
    let ends (k : Hw) : Prop := exec (.extend r v) s = .next { s with hw := { k with attests := [] } }
    (busy → exec (.attest r v) s = .next { s with hw := s.hw.badAccess (pageOff 0x003 0x060) }
      ∧ exec (.extend r v) s = .next { s with hw := s.hw.badAccess (pageOff 0x003 0x060) })
    ∧ (¬ busy →
      exec (.attest r v) s = .next { s with hw := asked none }
      ∧ (∀ x rest, s.hw.attests = x :: rest → x.reg = none → exec (.extend r v) s = .next { s with hw := asked (some i) })
      ∧ (s.hw.attests = [] →
        (g.read handlerMaster a 64 = .error .wait → exec (.extend r v) s = .next { s with hw := asked (some i) })
        ∧ (∀ bs, g.read handlerMaster a 64 = .ok bs → ends ((((g.touch handlerMaster a 64).extend (4 + i) bs).raise 0x005 0).reqDone r 0))
        ∧ (∀ cause level va, g.read handlerMaster a 64 = .error (.fault cause level va) →
          ends ((g.postFault handlerMaster cause level va false 0 false).reqDone r 1))
        ∧ (∀ va n, g.read handlerMaster a 64 = .error (.ecc va n) → ends ((g.touch handlerMaster a 64).reqDone r 1)))) := by
  intro busy h asked i a g ends
  have hattest := exec_attest (v := v) hr
  have hextend := exec_extend (v := v) hr
  obtain ⟨k, hk⟩ : ∃ k, k = asked (some i) := ⟨_, rfl⟩
  have hask : (s.hw.wr 0x003 0x060 (v.toNat &&& 0xC) (reqBank r)).ask r (some (bitsOf v.toNat 3 2)) = k := hk.symm
  have hlist : k.attests = s.hw.attests ++ [⟨r, h.time, some i⟩] := by rw [hk]; rfl
  have ha : a = k.reqAddr r := by rw [hk]
  have hg : g = k.demandFor handlerMaster a 64 := by rw [hk]
  dsimp only at hextend
  rw [hask] at hextend
  refine ⟨fun hbusy => ⟨by rw [hattest, if_pos hbusy], by rw [hextend, if_pos hbusy]⟩, fun hfree => ⟨by rw [hattest, if_neg hfree]; rfl, ?_⟩⟩
  rw [if_neg hfree] at hextend
  simp only [ends]
  rw [← hk]
  clear_value g a
  subst hg ha
  refine ⟨fun x rest hfirst hreport => ?_, fun hnone => ?_⟩
  · rw [hextend, Hw.serveExtends_behind _ (by rw [hlist, hfirst]; rfl) hreport]
  · obtain ⟨hwait, hok, hfault, hecc⟩ := Hw.serveExtends_alone (k := k) (x := ⟨r, h.time, some i⟩) (by rw [hlist, hnone]; rfl) rfl
    exact ⟨fun hread => by rw [hextend, hwait hread], fun bs hread => by rw [hextend, hok bs hread],
      fun cause level va hread => by rw [hextend, hfault cause level va hread], fun va n hread => by rw [hextend, hecc va n hread]⟩

/-- What a waiting measurement comes to, and a report that none has asked for. -/
theorem reports {s : State} (hup : Up s) :
    (s.hw.measures = [] ∨ 3 ≤ s.hw.pow.state → exec .measurementExtend s = .next s)
    ∧ (∀ m rest, s.hw.pow.state < 3 → s.hw.measures = m :: rest →
      let image := match m with | .vocab slot gen hd => s.hw.vocabImage slot gen hd | .grammar root => s.hw.grammarImage root
      let reg := match m with | .vocab _ _ _ => 2 | .grammar _ => 3
      (image = none → exec .measurementExtend s = .next s)
      ∧ (∀ g bs, image = some (g, bs) → exec .measurementExtend s = .next { s with
          hw := (({ g with measures := rest }).extend reg (digest bs)).raise 0x005 0 }))
    ∧ (s.hw.attests = [] → exec .reportBuild s = .next s) := by
  have hexec : exec .measurementExtend s = .next { s with hw := if 3 ≤ s.hw.pow.state then s.hw else measurementExtend s.hw } := by
    show execMeasurementExtend s = _
    rw [execMeasurementExtend, State.onHw_up _ _ hup]
  refine ⟨fun hidle => ?_, fun m rest hawake hfirst => ?_, fun hnone => ?_⟩
  · rw [hexec]
    obtain hnone | hdeep := hidle
    · split
      · rfl
      · rw [measurementExtend, hnone]
    · rw [if_pos hdeep]
  · intro image reg
    rw [hexec, if_neg (Nat.not_le.mpr hawake), measurementExtend, hfirst]
    cases m with
    | vocab slot gen hd =>
      refine ⟨fun hnone => ?_, fun g bs himage => ?_⟩
      · simp only [image] at hnone
        dsimp only
        rw [hnone]
      · simp only [image] at himage
        dsimp only
        rw [himage]
    | grammar root =>
      refine ⟨fun hnone => ?_, fun g bs himage => ?_⟩
      · simp only [image] at hnone
        dsimp only
        rw [hnone]
      · simp only [image] at himage
        dsimp only
        rw [himage]
  · show execReportBuild s = _
    rw [execReportBuild, State.whenUp_up _ _ hup, reportBuild, hnone]

/-- The oldest request, once nothing stands before its report. -/
theorem builds {s : State} {x : Asked} {rest : List Asked} (hup : Up s) (hfirst : s.hw.attests = x :: rest) :
    let wait := 3 ≤ s.hw.pow.state ∨ x.reg.isSome = true ∨ (s.hw.measures ≠ [] ∧ s.hw.time < x.at_ + 50000000)
    let a := s.hw.reqAddr x.who
    let h := s.hw.demandFor handlerMaster a 928
    let ends (k : Hw) (code : Nat) : Prop := exec .reportBuild s = .next { s with
      hw := Hw.serveExtends rest.length (({ k with attests := rest }).reqDone x.who code) }
    (wait → exec .reportBuild s = .next s)
    ∧ (¬ wait → h.read handlerMaster a 32 = .error .wait → exec .reportBuild s = .next s)
    ∧ (∀ cause level va, ¬ wait → h.read handlerMaster a 32 = .error (.fault cause level va) →
      ends (Hw.openRange handlerMaster 3 a 928 (h.postFault handlerMaster cause level va false 0 false)) 1)
    ∧ (∀ nonce, ¬ wait → h.read handlerMaster a 32 = .ok nonce →
      let put := (h.touch handlerMaster a 32).handlerWrite a (s.report nonce)
      (put = none → exec .reportBuild s = .next s) ∧ (∀ g, put = some (g, true) → ends g 0)
      ∧ (∀ g, put = some (g, false) → ends (Hw.openRange handlerMaster 3 a 928 g) 1)) := by
  intro wait a h ends
  have hexec : exec .reportBuild s = .next (reportBuild s) := by
    show execReportBuild s = _
    rw [execReportBuild, State.whenUp_up _ _ hup]
  have hends : ∀ code k m, (if code = 0 then k else Hw.openRange handlerMaster 3 a 928 k) = m →
      reportBuild s = { s with hw := Hw.serveExtends rest.length (({ (if code = 0 then k else Hw.openRange handlerMaster 3 a 928 k) with
        attests := rest }).reqDone x.who code) } → ends m code := by
    rintro code k m rfl hstate
    exact hexec.trans (congrArg Host.Outcome.next hstate)
  refine ⟨fun hwait => hexec.trans (congrArg Host.Outcome.next ?_), fun hgo hread => hexec.trans (congrArg Host.Outcome.next ?_), fun cause level va hgo hread => ?_, fun nonce hgo hread => ?_⟩
  · rw [reportBuild, hfirst]
    dsimp only
    rw [if_pos hwait]
  · rw [reportBuild, hfirst]
    dsimp only
    rw [if_neg hgo, hread]
  · refine hends 1 (h.postFault handlerMaster cause level va false 0 false) _ (if_neg one_ne_zero) ?_
    rw [reportBuild, hfirst]
    dsimp only
    rw [if_neg hgo, hread]
  · refine ⟨fun hput => hexec.trans (congrArg Host.Outcome.next ?_), fun g hput => hends 0 g _ (if_pos rfl) ?_, fun g hput => hends 1 g _ (if_neg one_ne_zero) ?_⟩
    · rw [reportBuild, hfirst]
      dsimp only
      rw [if_neg hgo, hread]
      dsimp only
      rw [hput]
    · rw [reportBuild, hfirst]
      dsimp only
      rw [if_neg hgo, hread]
      dsimp only
      rw [hput]
      dsimp only
      rw [if_pos rfl]
    · rw [reportBuild, hfirst]
      dsimp only
      rw [if_neg hgo, hread]
      dsimp only
      rw [hput]
      dsimp only
      rw [if_neg Bool.false_ne_true]

/-- SIGN starts the signing engine on the digest at SIGN_ADDR. -/
theorem exec_sign {s : State} {r : Req} {v : Word} (hr : Reaches s r 0x005 0x068) :
    exec (.sign r v) s = .next (State.signNow { s with hw := s.hw.wr 0x005 0x068 (v.toNat &&& 2) }) := by
  obtain ⟨hup, hclear, hacc⟩ := hr
  have hfield : (v ||| 1).toNat &&& 2 = v.toNat &&& 2 := by
    rw [BitVec.toNat_or, Nat.and_or_distrib_right, show (1 : Word).toNat &&& 2 = 0 by decide, Nat.or_zero]
  show execSign r v s = _
  rw [execSign, State.whenUp_up _ _ hup, sign, State.guardWrite_accepted _ _ hclear hacc, hfield]

theorem signs {s : State} {r : Req} {v : Word} (hr : Reaches s r 0x005 0x068) :
    let h := s.hw.wr 0x005 0x068 (v.toNat &&& 2)
    let a := h.rd64 0x005 0x060
    let g := h.demandFor handlerMaster a 178
    let key := if bitOf v.toNat 1 then keyOf s.boot.seed "ZM-AK" s.boot.image else keyOf s.boot.seed "ZM-CFK" []
    let ends (busy : Bool) (k : Hw) : Prop := exec (.sign r v) s = .next { s with hw := k.setBit 0x005 0x068 2 busy }
    (g.read handlerMaster a 64 = .error .wait → ends true h)
    ∧ (∀ cause level va, g.read handlerMaster a 64 = .error (.fault cause level va) →
      ends false (g.postFault handlerMaster cause level va false 0 false))
    ∧ (∀ d, g.read handlerMaster a 64 = .ok d →
      let put := (g.touch handlerMaster a 64).handlerWrite (a + 64) ((Config.edSign key d).take 114)
      (put = none → ends true h) ∧ ∀ k ok, put = some (k, ok) → ends false k) := by
  intro h a g key ends
  have hkey : (if h.bit 0x005 0x068 1 then keyOf s.boot.seed "ZM-AK" s.boot.image else keyOf s.boot.seed "ZM-CFK" []) = key := by
    have hbit : h.bit 0x005 0x068 1 = bitOf v.toNat 1 := by
      rw [Hw.bit, Hw.rd_wr_same, show (0x100000000 : Nat) = 2 ^ 32 by norm_num, Nat.testBit_mod_two_pow, Nat.testBit_and]
      simp [bitOf, show Nat.testBit 2 1 = true by decide]
    simp only [hbit, key]
  simp only [ends]
  rw [exec_sign hr, State.signNow]
  dsimp only
  rw [hkey]
  refine ⟨fun hread => ?_, fun cause level va hread => ?_, fun d hread => ⟨fun hput => ?_, fun k ok hput => ?_⟩⟩
  · rw [hread]
  · rw [hread]
  · rw [hread]
    dsimp only
    rw [hput]
  · rw [hread]
    dsimp only
    rw [hput]

theorem attestation : Attestation :=
  ⟨fun _ _ _ hr => requests hr, fun h _ d hi => h.extend_measurement d hi,
    fun _ hup => by
      obtain ⟨hidle, hmeasured, hnone⟩ := reports hup
      exact ⟨hidle, hmeasured, hnone, fun x rest hfirst => builds hup hfirst⟩,
    fun _ _ _ hr => signs hr⟩

/-- Settles O58: resets, boot and recovery, and attestation. -/
theorem resetAndBoot : Obligations.ResetAndBoot := ⟨moduleResets, bootAndRecovery, attestation⟩

end Sys2Proof.Machine
end

section
/-! PROOF of O60: self-test and repair. Every step ends in `bistEnd`, which touches nothing but the run's busy bit and an interrupt, so each clause
follows the branches of its step and reads the rest off there. -/

namespace Sys2Proof.Machine
open Sys2Proof.Claims

/-- What a step may do beside its own effect on the run: end it, with an interrupt. -/
theorem Hw.bistEnd_leaves (h : Hw) : ∃ g : Hw, Hw.LinesOnly g h.bistEnd ∧ (g = h ∨ g = h.setBist fun b => { b with busy := false }) := by
  unfold Hw.bistEnd
  split
  · exact ⟨_, Hw.raise_lines _ _ _, .inr rfl⟩
  · exact ⟨h, .refl h, .inl rfl⟩

theorem Hw.bistEnd_mem (h : Hw) : h.bistEnd.mem = h.mem := by
  obtain ⟨g, hlines, hg⟩ := h.bistEnd_leaves
  rw [hlines.mem]
  obtain rfl | rfl := hg <;> rfl

/-- The end of a run leaves of it all but the busy bit. -/
theorem Hw.bistEnd_bist (h : Hw) : h.bistEnd.bist = { h.bist with busy := h.bistEnd.bist.busy } := by
  obtain ⟨g, hlines, hg⟩ := h.bistEnd_leaves
  rw [hlines.bist]
  obtain rfl | rfl := hg <;> rfl

theorem Hw.bistEnd_rd (h : Hw) {o : Nat} (ho : 0x020 ≤ o) (hlow : o < 0x1000) : h.bistEnd.rd 0x007 o = h.rd 0x007 o := by
  unfold Hw.bistEnd
  split
  · rw [Hw.raise_rd_other _ (by decide) ho hlow]
    rfl
  · rfl

theorem Hw.bistEnd_idle {h : Hw} (hidle : h.bist.busy = false) : h.bistEnd = h := by
  unfold Hw.bistEnd
  split
  · next hall => exact absurd (hidle.symm.trans hall.1) Bool.false_ne_true
  · rfl

theorem Hw.bistEnd_left {h : Hw} (hleft : h.bist.left ≠ 0) : h.bistEnd = h := by
  unfold Hw.bistEnd
  split
  · next hall => exact absurd hall.2.1 hleft
  · rfl

/-! ### Go and abort -/

/-- A write of BIST_CTL that reaches it. -/
theorem bistCtlWrite_accepted {s : State} {r : Req} (v : Nat) (hr : Reaches s r 0x007 0x040) :
    bistCtlWrite r v s.hw =
      if bitOf v 0 ∧ s.hw.bist.busy then s.hw.badAccess (pageOff 0x007 0x040)
      else
        let h := if bitOf v 0 then s.hw.bistStart v else if s.hw.bist.busy then s.hw else s.hw.wr 0x007 0x040 (v &&& 0x1C)
        if bitOf v 1 ∧ h.bist.busy then (h.setBist fun b => { b with left := 0, aborted := true }).bistEnd else h := by
  obtain ⟨-, hclear, hacc⟩ := hr
  exact Hw.guardWrite_accepted _ _ _ hclear hacc (by decide)

theorem bistGo_bits (v : Word) : bitOf (v ||| 1).toNat 0 = true ∧ bitOf (v ||| 1).toNat 1 = bitOf v.toNat 1 := by
  rw [bitOf_or_same, bitOf_or_same, show bitOf (1 : Word).toNat 0 = true by decide, show bitOf (1 : Word).toNat 1 = false by decide,
    Bool.or_true, Bool.or_false]
  exact ⟨rfl, rfl⟩

theorem bistAbort_bits (v : Word) : let w := (v ||| 2) &&& 0xFFFFFFFE
    bitOf w.toNat 0 = false ∧ bitOf w.toNat 1 = true ∧ w.toNat &&& 0x1C = v.toNat &&& 0x1C := by
  refine ⟨?_, ?_, ?_⟩
  · rw [bitOf_and_same, show bitOf (0xFFFFFFFE : Word).toNat 0 = false by decide, Bool.and_false]
  · rw [bitOf_and_same, bitOf_or_same, show bitOf (2 : Word).toNat 1 = true by decide, Bool.or_true]
    decide
  · rw [BitVec.toNat_and, BitVec.toNat_or, Nat.and_assoc, Nat.and_or_distrib_right,
      show (0xFFFFFFFE : Word).toNat &&& 0x1C = 0x1C by decide, show (2 : Word).toNat &&& 0x1C = 0 by decide, Nat.or_zero]

theorem goAndAbort {s : State} {r : Req} {v : Word} (hr : Reaches s r 0x007 0x040) :
    (s.hw.bist.busy = true →
      exec (.bistGo r v) s = .next { s with hw := s.hw.badAccess (pageOff 0x007 0x040) }
      ∧ exec (.bistAbort r v) s = .next { s with hw := (s.hw.setBist fun b => { b with left := 0, aborted := true }).bistEnd })
    ∧ (s.hw.bist.busy = false → bitOf v.toNat 1 = false → exec (.bistGo r v) s = .next { s with hw := s.hw.bistStart (v ||| 1).toNat })
    ∧ (s.hw.bist.busy = false → exec (.bistAbort r v) s = .next { s with hw := s.hw.wr 0x007 0x040 (v.toNat &&& 0x1C) }) := by
  have hup : Up s := hr.1
  obtain ⟨hgo, hstop⟩ := bistGo_bits v
  obtain ⟨hlow, habort, hkind⟩ := bistAbort_bits v
  have hexecGo : exec (.bistGo r v) s = .next { s with hw := bistCtlWrite r (v ||| 1).toNat s.hw } := by
    show execBistGo r v s = _
    rw [execBistGo, State.onHw_up _ _ hup]
  have hexecAbort : exec (.bistAbort r v) s = .next { s with hw := bistCtlWrite r ((v ||| 2) &&& 0xFFFFFFFE).toNat s.hw } := by
    show execBistAbort r v s = _
    rw [execBistAbort, State.onHw_up _ _ hup]
  rw [hexecGo, hexecAbort, bistCtlWrite_accepted _ hr, bistCtlWrite_accepted _ hr]
  refine ⟨fun hbusy => ⟨by rw [if_pos ⟨hgo, hbusy⟩], ?_⟩, fun hidle hnot => ?_, fun hidle => ?_⟩
  · rw [if_neg fun hall => Bool.false_ne_true (hlow.symm.trans hall.1)]
    dsimp only
    rw [if_neg (show ¬ bitOf ((v ||| 2) &&& 0xFFFFFFFE).toNat 0 = true by rw [hlow]; exact Bool.false_ne_true), if_pos hbusy, if_pos ⟨habort, hbusy⟩]
  · rw [if_neg fun hall => Bool.false_ne_true (hidle.symm.trans hall.2)]
    dsimp only
    rw [if_pos hgo, if_neg fun hall => Bool.false_ne_true ((hstop.trans hnot).symm.trans hall.1)]
  · rw [if_neg fun hall => Bool.false_ne_true (hlow.symm.trans hall.1)]
    dsimp only
    rw [if_neg (show ¬ bitOf ((v ||| 2) &&& 0xFFFFFFFE).toNat 0 = true by rw [hlow]; exact Bool.false_ne_true), if_neg (show ¬ s.hw.bist.busy = true by rw [hidle]; exact Bool.false_ne_true), hkind,
      if_neg fun hall => Bool.false_ne_true (hidle.symm.trans hall.2)]

/-- A go is refused for its power or its members, and else starts the run. -/
theorem Hw.bistStart_runs (h : Hw) (v : Nat) :
    let kind := bitsOf v 3 2
    let first := h.rd 0x007 0x044
    let n := h.rd 0x007 0x048
    let ok := bistPower kind ≤ h.rd 0x007 0x04C ∧ first + n ≤ bistMembers kind
    let k := h.bistStart v
    (¬ ok → k.bist.refused = true ∧ k.bist.busy = false ∧ k.bist.left = 0)
    ∧ (ok → n ≠ 0 → k.bist.busy = true ∧ k.bist.left = n ∧ k.bist.next = first ∧ k.bist.kind = kind ∧ k.bist.destructive = bitOf v 4) := by
  intro kind first n ok k
  have hother (o : Nat) (ho : o ≠ 0x040) (hlow : o < 0x1000) : (h.wr 0x007 0x040 (v &&& 0x1C)).rd 0x007 o = h.rd 0x007 o :=
    Hw.rd_wr_offset _ _ (by decide) hlow ho
  have hstart : k = let g := (h.wr 0x007 0x040 (v &&& 0x1C)).setBist fun b =>
        { holds := b.holds, spares := b.spares, steered := b.steered, kind := kind, destructive := bitOf v 4, next := first }
      if h.rd 0x007 0x04C < bistPower kind ∨ bistMembers kind < first + n then g.bistRefuse
      else (g.setBist fun b => { b with busy := true, left := n }).worked.bistEnd := by
    rw [← hother 0x04C (by decide) (by decide)]
    simp only [first, n]
    rw [← hother 0x044 (by decide) (by decide), ← hother 0x048 (by decide) (by decide)]
    rfl
  refine ⟨fun hbad => ?_, fun hok hn => ?_⟩
  · rw [hstart]
    dsimp only
    rw [if_pos (by simp only [ok] at hbad; omega), Hw.bistRefuse]
    have hlines := Hw.raise_lines (((h.wr 0x007 0x040 (v &&& 0x1C)).setBist fun b =>
      { holds := b.holds, spares := b.spares, steered := b.steered, kind := kind, destructive := bitOf v 4, next := first }).setBist
        fun b => { b with refused := true, left := 0 }) 0x007 2
    rw [Hw.bistEnd_idle (by rw [hlines.bist]; rfl), hlines.bist]
    exact ⟨rfl, rfl, rfl⟩
  · rw [hstart]
    dsimp only
    rw [if_neg (by simp only [ok] at hok; omega), Hw.bistEnd_left hn]
    exact ⟨rfl, rfl, rfl, rfl, rfl⟩

/-! ### Members -/

/-- The next member starts, with its bytes saved, or the run waits or ends. -/
theorem memberStarts {s : State} (hup : Up s) :
    let b := s.hw.bist
    let waits : Bool := !s.hw.enabled 0x007 || b.left == 0 || !s.hw.resRoom || decide (s.hw.rd 0x007 0x04C < s.hw.bistPowerNow + bistPower b.kind)
      || (b.kind == 3 && b.running.any fun m => m.index / 384 == b.next / 384) || decide (3 ≤ s.hw.pow.state)
    let size := bistSize b.kind
    let starts (stage : Option Nat) (h : Hw) : Prop := exec .bistMemberStart s = .next { s with hw := h.setBist fun b => { b with
      next := b.next + 1, left := b.left - 1, running := b.running ++ [⟨b.next, stage⟩]
      holds := if size = 0 then b.holds else b.holds ++ [bistRange b.kind b.next] } }
    (waits = true → exec .bistMemberStart s = .next s)
    ∧ (waits = false → s.hw.pow.state ≠ 0 → exec .bistMemberStart s = .next { s with hw := s.hw.demand })
    ∧ (waits = false → s.hw.pow.state = 0 →
      (s.hw.isolated b.kind b.next = false → exec .bistMemberStart s = .next { s with hw := s.hw.bistRefuse })
      ∧ (s.hw.isolated b.kind b.next = true →
        (size = 0 ∨ b.destructive = true → starts none s.hw)
        ∧ (size ≠ 0 → b.destructive = false →
          (s.hw.stagePlace size = none → exec .bistMemberStart s = .next s)
          ∧ ∀ k, s.hw.stagePlace size = some k →
            starts (some k) (s.hw.bistCopy (bistRange b.kind b.next).1 k (bistRange b.kind b.next).2)))) := by
  intro b waits size starts
  have hexec : exec .bistMemberStart s = .next { s with hw := bistMemberStart s.hw } := by
    show execBistMemberStart s = _
    rw [execBistMemberStart, State.onHw_up _ _ hup]
  have hwaits : (!s.hw.enabled 0x007 ∨ b.left = 0 ∨ !s.hw.resRoom ∨ s.hw.rd 0x007 0x04C < s.hw.bistPowerNow + bistPower b.kind
      ∨ (b.kind = 3 ∧ b.running.any (fun m => m.index / 384 == b.next / 384)) ∨ 3 ≤ s.hw.pow.state) ↔ waits = true := by
    simp only [waits, Bool.or_eq_true, Bool.and_eq_true, decide_eq_true_eq, beq_iff_eq, or_assoc]
  simp only [starts]
  rw [hexec, bistMemberStart]
  refine ⟨fun hw => ?_, fun hgo hdeep => ?_, fun hgo hrun => ⟨fun hopen => ?_, fun hclosed => ⟨fun hplain => ?_, fun hsize hsaved => ?_⟩⟩⟩
  · dsimp only
    rw [if_pos (hwaits.mpr hw)]
  · dsimp only
    rw [if_neg fun hw => Bool.false_ne_true (hgo.symm.trans (hwaits.mp hw)), if_pos hdeep]
  · dsimp only
    rw [if_neg fun hw => Bool.false_ne_true (hgo.symm.trans (hwaits.mp hw)), if_neg (not_not.mpr hrun), if_pos (by rw [hopen]; rfl)]
  · dsimp only
    rw [if_neg fun hw => Bool.false_ne_true (hgo.symm.trans (hwaits.mp hw)), if_neg (not_not.mpr hrun),
      if_neg (by rw [hclosed]; exact Bool.false_ne_true), if_pos hplain]
  · have hsave : ¬ (size = 0 ∨ b.destructive = true) := fun hor => hor.elim hsize fun hd => Bool.false_ne_true (hsaved.symm.trans hd)
    refine ⟨fun hplace => ?_, fun k hplace => ?_⟩
    · dsimp only
      rw [if_neg fun hw => Bool.false_ne_true (hgo.symm.trans (hwaits.mp hw)), if_neg (not_not.mpr hrun),
        if_neg (by rw [hclosed]; exact Bool.false_ne_true), if_neg hsave, hplace]
    · dsimp only
      rw [if_neg fun hw => Bool.false_ne_true (hgo.symm.trans (hwaits.mp hw)), if_neg (not_not.mpr hrun),
        if_neg (by rw [hclosed]; exact Bool.false_ne_true), if_neg hsave, hplace]

/-- What the end of a member does before the run hears of it: bytes, lines, TLBs and ports may change, and of the run only the ranges it holds. -/
def Hw.RunStands (h k : Hw) : Prop := k.bist = { h.bist with holds := k.bist.holds }

theorem Hw.RunStands.trans {h k m : Hw} (hk : h.RunStands k) (hm : k.RunStands m) : h.RunStands m := by
  unfold Hw.RunStands at *
  rw [hm, hk]

theorem Hw.RunStands.of_eq {h k : Hw} (heq : k.bist = h.bist) : h.RunStands k := by
  unfold Hw.RunStands
  rw [heq]

theorem Hw.restore_bist (h : Hw) (k stage n : Nat) : (h.restore k stage n).bist = h.bist := by
  unfold Hw.restore
  dsimp only
  split
  · rfl
  · split
    · rfl
    · split <;> rfl

theorem Hw.reinit_bist (h : Hw) (kind index : Nat) : (h.reinit kind index).bist = h.bist ∧ (h.reinit kind index).mem = h.mem := by
  unfold Hw.reinit
  dsimp only
  split
  · exact ⟨rfl, rfl⟩
  · exact ⟨rfl, rfl⟩

/-- A zeroed range reads 0, and every other byte as before. -/
theorem Hw.zeroRange_byte (h : Hw) (k n : Nat) :
    (∀ a, k ≤ a → a < k + n → (h.zeroRange k n).byte a = 0) ∧ ∀ a, a < k ∨ k + n ≤ a → (h.zeroRange k n).byte a = h.byte a := by
  refine ⟨fun a hlow hhigh => ?_, fun a hout => ?_⟩
  · refine smGet_of_not_mem 0 fun e he heq => ?_
    have := (List.mem_filter.mp he).2
    simp only [Bool.not_eq_true', decide_eq_false_iff_not, not_and, Nat.not_lt] at this
    have := this (heq ▸ hlow)
    omega
  · refine smGet_filter 0 (fun x => !decide (k ≤ x ∧ x < k + n)) a ?_ h.mem
    simp only [Bool.not_eq_true', decide_eq_false_iff_not, not_and, Nat.not_lt]
    omega

theorem Hw.noBoot_leaves (h : Hw) : h.noBoot.bist = h.bist ∧ h.noBoot.mem = h.mem := by
  unfold Hw.noBoot
  simp only [Hw.wr_bist, Hw.wr_mem, and_self]

/-- A running member ends. -/
theorem memberEnds {s : State} (i : Nat) (fails : List FailRow) (hup : Up s) :
    (s.hw.bist.running[i]? = none → exec (.bistMemberEnd i fails) s = .next s)
    ∧ (∀ m, s.hw.bist.running[i]? = some m → ∃ k : Hw, exec (.bistMemberEnd i fails) s = .next { s with hw := k }
      ∧ k.bist.running = listDrop s.hw.bist.running i ∧ k.bist.done = min (s.hw.bist.done + 1) 4095
      ∧ k.bist.recs = s.hw.bist.recs ++ fails.mapIdx (s.hw.failBytes s.hw.bist.kind m.index)
      ∧ (bistSize s.hw.bist.kind = 0 → k.mem = s.hw.mem)
      ∧ (bistSize s.hw.bist.kind ≠ 0 → m.stage = none → let x := bistRange s.hw.bist.kind m.index
        (∀ a, x.1 ≤ a → a < x.1 + x.2 → k.byte a = 0) ∧ ∀ a, a < x.1 ∨ x.1 + x.2 ≤ a → k.byte a = s.hw.byte a)) := by
  have hexec : exec (.bistMemberEnd i fails) s = .next { s with hw := bistMemberEnd i fails s.hw } := by
    show execBistMemberEnd i fails s = _
    rw [execBistMemberEnd, State.onHw_up _ _ hup]
  refine ⟨fun hnone => by rw [hexec, bistMemberEnd, hnone], fun m hm => ⟨_, hexec, ?_⟩⟩
  generalize hk : bistMemberEnd i fails s.hw = k
  rw [bistMemberEnd, hm] at hk
  dsimp -zeta only at hk
  extract_lets b x recs h₁ h₂ h₃ h₄ at hk
  rw [← hk]
  have hbist₂ : h₂.bist = s.hw.bist := by
    simp only [h₂]
    split
    · exact (Hw.noBoot_leaves _).1
    · rfl
  have hmem₂ : h₂.mem = s.hw.mem := by
    simp only [h₂]
    split
    · exact (Hw.noBoot_leaves _).2
    · rfl
  have hsmall (hsize : bistSize b.kind = 0) : h₄ = h₂.reinit b.kind m.index := if_pos hsize
  have hlarge (hsize : bistSize b.kind ≠ 0) : h₄ = h₃.setBist fun b => { b with holds := b.holds.erase x } := if_neg hsize
  have hruns : s.hw.RunStands h₄ := by
    refine Hw.RunStands.trans (.of_eq hbist₂) ?_
    by_cases hsize : bistSize b.kind = 0
    · rw [hsmall hsize]
      exact .of_eq (Hw.reinit_bist _ _ _).1
    · rw [hlarge hsize]
      refine Hw.RunStands.trans (k := h₃) (.of_eq ?_) rfl
      simp only [h₃]
      cases m.stage with
      | none => rfl
      | some p => exact Hw.restore_bist _ _ _ _
  have hzeroed (hsize : bistSize b.kind ≠ 0) (hstage : m.stage = none) : h₄.mem = (h₂.zeroRange x.1 x.2).mem := by
    rw [hlarge hsize]
    simp only [h₃, hstage]
    rfl
  have hkept (hsize : bistSize b.kind = 0) : h₄.mem = s.hw.mem := by
    rw [hsmall hsize, (Hw.reinit_bist _ _ _).2, hmem₂]
  clear_value h₄
  unfold Hw.RunStands at hruns
  refine ⟨?_, ?_, ?_, fun hsize => ?_, fun hsize hstage => ?_⟩
  · rw [Hw.bistEnd_bist]
    show listDrop h₄.bist.running i = _
    rw [hruns]
  · rw [Hw.bistEnd_bist]
    show min (h₄.bist.done + 1) 4095 = _
    rw [hruns]
  · rw [Hw.bistEnd_bist]
    show h₄.bist.recs ++ recs = _
    rw [hruns]
  · rw [Hw.bistEnd_mem]
    exact hkept hsize
  · obtain ⟨hin, hout⟩ := h₂.zeroRange_byte x.1 x.2
    have hbyte (a : Nat) : (h₄.setBist fun b => { b with running := listDrop b.running i, done := min (b.done + 1) 4095, recs := b.recs ++ recs }).bistEnd.byte a
        = (h₂.zeroRange x.1 x.2).byte a := by
      unfold Hw.byte
      rw [Hw.bistEnd_mem, ← hzeroed hsize hstage]
      rfl
    refine ⟨fun a hlow hhigh => (hbyte a).trans (hin a hlow hhigh), fun a ha => ((hbyte a).trans (hout a ha)).trans ?_⟩
    unfold Hw.byte
    rw [hmem₂]

/-! ### Records and repair -/

/-- The oldest record enters the ring while it has room. -/
theorem recordsWritten {s : State} (hup : Up s) :
    (s.hw.bist.recs = [] ∨ s.hw.resRoom = false → exec .bistRecordWrite s = .next s)
    ∧ (∀ x rest, s.hw.bist.recs = x :: rest → s.hw.resRoom = true → ∃ k : Hw, exec .bistRecordWrite s = .next { s with hw := k }
      ∧ k.bist.recs = rest ∧ k.rd 0x007 0x070 = (s.hw.rd 0x007 0x070 + 1) % 0x100000000
      ∧ k.mem = (s.hw.storeTier (s.hw.tierBase 0x007 0x060 4 + 16 * (s.hw.rd 0x007 0x070 % 2 ^ s.hw.rd 0x007 0x068))
          (x ++ leBytes 4 (s.hw.time % 0x100000000))).mem) := by
  have hexec : exec .bistRecordWrite s = .next { s with hw := bistRecordWrite s.hw } := by
    show execBistRecordWrite s = _
    rw [execBistRecordWrite, State.onHw_up _ _ hup]
  rw [hexec]
  refine ⟨fun hwait => ?_, fun x rest hrecs hroom => ⟨_, rfl, ?_⟩⟩
  · rw [bistRecordWrite]
    obtain hnone | hfull := hwait
    · rw [hnone]
    · split
      · rfl
      · rw [if_pos (by rw [hfull]; rfl)]
  · rw [bistRecordWrite, hrecs]
    dsimp only
    rw [if_neg (by rw [hroom]; exact Bool.false_ne_true)]
    obtain ⟨g, hg⟩ : ∃ g, g = s.hw.storeTier (s.hw.tierBase 0x007 0x060 4 + 16 * (s.hw.rd 0x007 0x070 % 2 ^ s.hw.rd 0x007 0x068))
      (x ++ leBytes 4 (s.hw.time % 0x100000000)) := ⟨_, rfl⟩
    rw [← hg]
    have hlines := Hw.raise_lines ((g.wr 0x007 0x070 ((s.hw.rd 0x007 0x070 + 1) % 0x100000000)).count 0x007 0x074) 0x007 1
    refine ⟨?_, ?_, ?_⟩
    · rw [Hw.bistEnd_bist]
      rfl
    · rw [Hw.bistEnd_rd _ (by decide) (by decide)]
      show (Hw.raise _ 0x007 1).rd 0x007 0x070 = _
      rw [Hw.raise_rd_other _ (by decide) (by decide) (by decide), Hw.count, Hw.rd_wr_offset _ _ (by decide) (by decide) (by decide),
        Hw.rd_wr_same]
      exact Nat.mod_eq_of_lt (Nat.mod_lt _ (by decide))
    · rw [Hw.bistEnd_mem]
      exact hlines.mem

/-- REPAIR_APPLY acts for the Handler and notes how the entry went. -/
theorem repairs {s : State} {r : Req} (v : Word) (hr : Reaches s r 0x007 0x078) :
    let e := (List.range 4).flatMap fun i => leBytes 4 (s.hw.rd 0x007 (0x080 + 4 * i))
    let t := bitsOf (bnum e 0 4) 3 0
    (r ≠ .handler → exec (.repairApply r v) s = .next { s with hw := s.hw.badAccess (pageOff 0x007 0x078) })
    ∧ (r = .handler →
      (∀ h, s.hw.applyRepair e = (h, .refused) → exec (.repairApply r v) s = .next { s with hw := h.wr 0x007 0x07C 2 })
      ∧ (∀ h, s.hw.applyRepair e = (h, .noSpare) → exec (.repairApply r v) s = .next { s with hw := h.wr 0x007 0x07C 1 })
      ∧ (∀ h, s.hw.applyRepair e = (h, .done) → ∃ l, exec (.repairApply r v) s = .next { s with
          hw := { h with life := l }.wr 0x007 0x07C 0 }
        ∧ l = if repairLife t = 0x050 then h.life.bump 0x050 else (h.life.bump 0x050).bump (repairLife t))) := by
  intro e t
  obtain ⟨hup, hclear, hacc⟩ := hr
  have hexec : exec (.repairApply r v) s = .next { s with hw := if r ≠ .handler then s.hw.badAccess (pageOff 0x007 0x078) else
      (match s.hw.applyRepair e with
      | (h, .done) => { h with life := if repairLife t = 0x050 then h.life.bump 0x050 else (h.life.bump 0x050).bump (repairLife t) }.wr 0x007 0x07C 0
      | (h, .noSpare) => h.wr 0x007 0x07C 1
      | (h, .refused) => h.wr 0x007 0x07C 2) } := by
    show execRepairApply r v s = _
    rw [execRepairApply, State.onHw_up _ _ hup]
    exact congrArg (fun k => Host.Outcome.next { s with hw := k }) (Hw.guardWrite_accepted s.hw 1 _ hclear hacc (by decide))
  rw [hexec]
  refine ⟨fun hother => by rw [if_pos hother], fun hhandler => ⟨fun h hout => ?_, fun h hout => ?_, fun h hout => ⟨_, ?_, rfl⟩⟩⟩
  · rw [if_neg (not_not.mpr hhandler), hout]
  · rw [if_neg (not_not.mpr hhandler), hout]
  · rw [if_neg (not_not.mpr hhandler), hout]

/-- Settles O60: self-test and repair, clause by clause. -/
theorem selfTestAndRepair : Obligations.SelfTestAndRepair :=
  ⟨fun _ _ _ hr => goAndAbort hr, fun h v _ => h.bistStart_runs v, fun _ hup => memberStarts hup, fun _ i fails hup => memberEnds i fails hup,
    fun _ hup => recordsWritten hup, fun _ _ v hr => repairs v hr⟩

end Sys2Proof.Machine
end

section
/-! PROOF of O48: the Packer. What a run of reads that succeeds has passed is taken apart bind by bind; each row of pairs then has exactly
the length of its command. A streamed prompt follows the branches of its steps, and what writes a chunk leaves the queue as it stood. -/

namespace Sys2Proof.Machine
open Sys2Proof.Claims

/-! ### Runs of reads -/

/-- A run that succeeds has passed its first part. -/
theorem rx_bind_ok {α β : Type} {x : Rx α} {f : α → Rx β} {t : List (Nat × Nat)} {r : β × List (Nat × Nat)} (h : (x >>= f) t = .ok r) :
    ∃ a t', x t = .ok (a, t') ∧ f a t' = .ok r := by
  change Except.bind (x t) (fun p => f p.1 p.2) = .ok r at h
  cases hx : x t with
  | error e => rw [hx] at h; nomatch h
  | ok p => rw [hx] at h; exact ⟨p.1, p.2, rfl, h⟩

/-- A run goes on behind its first part. -/
theorem rx_bind_eq {α β : Type} {x : Rx α} {f : α → Rx β} {t t' : List (Nat × Nat)} {a : α} (hx : x t = .ok (a, t')) : (x >>= f) t = f a t' := by
  show Except.bind (x t) (fun p => f p.1 p.2) = _
  rw [hx]
  rfl

theorem rxCheck_ok {c : Bool} {code : Nat} {t : List (Nat × Nat)} {r : Unit × List (Nat × Nat)} (h : rxCheck c code t = .ok r) : c = true := by
  cases c with
  | true => rfl
  | false => nomatch h

theorem Hw.bytes_length (h : Hw) : ∀ (k n : Nat), (h.bytes k n).length = n
  | _, 0 => rfl
  | k, n + 1 => congrArg (· + 1) (h.bytes_length (k + 1) n)

theorem Hw.readGran_length {h : Hw} {m : Master} : ∀ {fuel va n : Nat} {bs : List Byte}, n = 0 ∨ va % 0x10000 + n ≤ fuel * 0x10000 →
    h.readGran m fuel va n = .ok bs → bs.length = n
  | 0, va, n, bs, hfuel, hread => by
    cases hread
    exact (show 0 = n by omega)
  | fuel + 1, va, n, bs, hfuel, hread => by
    rw [Hw.readGran] at hread
    split at hread
    · next hn => cases hread; exact hn.symm
    · next hn =>
      dsimp only at hread
      split at hread
      · nomatch hread
      · next k =>
        split at hread
        · nomatch hread
        · split at hread
          · nomatch hread
          · next rest hrest =>
            have hnext : n - min n (granuleLeft va) = 0 ∨ (va + min n (granuleLeft va)) % 0x10000 + (n - min n (granuleLeft va)) ≤ fuel * 0x10000 := by
              unfold granuleLeft
              by_cases hfit : n ≤ 0x10000 - va % 0x10000
              · exact .inl (by rw [min_eq_left hfit, Nat.sub_self])
              · rw [min_eq_right (by omega)]
                omega
            have hlen := Hw.readGran_length hnext hrest
            cases hread
            rw [List.length_append, hlen, Hw.bytes_length]
            omega

/-- A read gives as many bytes as it asks for. -/
theorem Hw.read_length {h : Hw} {m : Master} {va n : Nat} {bs : List Byte} (hread : h.read m va n = .ok bs) : bs.length = n := by
  rw [Hw.read] at hread
  split at hread
  · next hn => cases hread; exact hn.symm
  · split at hread
    · split at hread
      · cases hread; exact freeBytes_length _ _
      · split at hread <;> nomatch hread
    · exact Hw.readGran_length (.inr (by omega)) hread

theorem rxRead_length {h : Hw} {m : Master} {va n : Nat} {t t' : List (Nat × Nat)} {bs : List Byte} (hread : rxRead h m va n t = .ok (bs, t')) :
    bs.length = n := by
  rw [rxRead] at hread
  split at hread
  · next hok => cases hread; exact Hw.read_length hok
  · nomatch hread

/-! ### Pair rows -/

theorem tokenRun_length (seg ord pos : Nat) (ts : List Nat) : (tokenRun seg ord pos ts).length = ts.length := List.length_mapIdx

theorem tmTokens_length (t : List Byte) (i n : Nat) : (tmTokens t i n).length = n := by rw [tmTokens, List.length_map, List.length_range]

theorem rxTokens_length {h : Hw} {m : Master} {va n : Nat} {t t' : List (Nat × Nat)} {ts : List Nat} (hread : rxTokens h m va n t = .ok (ts, t')) :
    ts.length = n := by
  obtain ⟨bs, t₁, -, hts⟩ := rx_bind_ok hread
  cases hts
  rw [List.length_map, List.length_range]

/-- A number at the front of a longer list is that of the front. -/
theorem bnum_append {p q : List Byte} {i n : Nat} (hin : i + n ≤ p.length) : bnum (p ++ q) i n = bnum p i n := by
  unfold bnum
  rw [List.drop_append_of_le_length (by omega), List.take_append_of_le_length (by rw [List.length_drop]; omega)]

/-- What has passed before the rows of pairs are made: every row has room for all but its passage. -/
theorem pckRead_pairs {h : Hw} {id : QId} {c : Cmd} {par tmpl cand : List Byte} {qs : List Nat} {t : List (Nat × Nat)}
    (hop : dOpcode c.desc = 0x10) (hread : pckRead h id c [] = .ok ((par, tmpl, cand, qs), t)) :
    tmHead tmpl + (pckOp c.desc).nq + tmPre tmpl + tmPost tmpl < pkLen par ∧ qs.length = (pckOp c.desc).nq := by
  unfold pckRead at hread
  simp only [hop, decide_true, if_true] at hread
  obtain ⟨par', _, -, hread⟩ := rx_bind_ok hread
  obtain ⟨_, _, -, hread⟩ := rx_bind_ok hread
  obtain ⟨_, _, -, hread⟩ := rx_bind_ok hread
  obtain ⟨head, _, hhead, hread⟩ := rx_bind_ok hread
  obtain ⟨_, _, -, hread⟩ := rx_bind_ok hread
  obtain ⟨toks, _, -, hread⟩ := rx_bind_ok hread
  obtain ⟨top, _, -, hread⟩ := rx_bind_ok hread
  obtain ⟨_, _, -, hread⟩ := rx_bind_ok hread
  obtain ⟨ents, _, -, hread⟩ := rx_bind_ok hread
  obtain ⟨_, _, hroom, hread⟩ := rx_bind_ok hread
  obtain ⟨src, _, -, hread⟩ := rx_bind_ok hread
  have hlen := rxRead_length hhead
  have hroom := of_decide_eq_true (rxCheck_ok hroom)
  cases hread
  refine ⟨?_, by rw [List.length_map, List.length_range]⟩
  unfold tmHead tmPre tmPost at *
  rw [bnum_append (by omega), bnum_append (by omega), bnum_append (by omega)]
  exact hroom

/-- A row of pairs before it is padded. -/
def pairRow (tmpl : List Byte) (nq : Nat) (qs : List Nat) (i : Nat) (ts : List Nat) : List Nat :=
  tokenRun 0 0 0 (tmHeadT tmpl) ++ tokenRun 1 0 (tmHead tmpl) qs ++ tokenRun 0 i (tmHead tmpl + nq) (tmPreT tmpl)
    ++ tokenRun 2 i (tmHead tmpl + nq + tmPre tmpl) ts ++ tokenRun 0 i (tmHead tmpl + nq + tmPre tmpl + ts.length) (tmPostT tmpl)

theorem pairRow_length (tmpl : List Byte) {nq : Nat} {qs : List Nat} (i : Nat) (ts : List Nat) (hqs : qs.length = nq) :
    (pairRow tmpl nq qs i ts).length = tmHead tmpl + nq + tmPre tmpl + ts.length + tmPost tmpl := by
  unfold pairRow tmHeadT tmPreT tmPostT
  simp only [List.length_append, tokenRun_length, tmTokens_length, hqs]

/-- Each row of pairs is exactly as long as the command says. -/
theorem pairRows_length {h : Hw} {m : Master} {o : PckOp} {par tmpl cand : List Byte} {qs : List Nat}
    (hroom : tmHead tmpl + o.nq + tmPre tmpl + tmPost tmpl ≤ pkLen par) (hqs : qs.length = o.nq) :
    ∀ {fuel i : Nat} {t t' : List (Nat × Nat)} {rows : List Nat} {a b d : Nat},
      pairRows h m o par tmpl cand qs fuel i t = .ok ((rows, a, b, d), t') → rows.length = fuel * pkLen par
  | 0, i, t, t', rows, a, b, d, hrun => by cases hrun; rw [Nat.zero_mul]; rfl
  | fuel + 1, i, t, t', rows, a, b, d, hrun => by
    have hrow {ts : List Nat} {t₁ : List (Nat × Nat)} {f : List Nat × Nat × Nat × Nat → Nat × Nat × Nat}
        (hts : ts.length ≤ pkLen par - (tmHead tmpl + o.nq + tmPre tmpl + tmPost tmpl))
        (hrest : (pairRows h m o par tmpl cand qs fuel (i + 1) >>= fun x =>
          pure (pairRow tmpl o.nq qs i ts ++ List.replicate (pkLen par - (pairRow tmpl o.nq qs i ts).length) (padEntry tmpl) ++ x.1, f x)) t₁
            = .ok ((rows, a, b, d), t')) : rows.length = (fuel + 1) * pkLen par := by
      obtain ⟨⟨rest, x⟩, t₂, htail, hrest⟩ := rx_bind_ok hrest
      have hlen := pairRows_length hroom hqs htail
      have hrows : _ = rows := congrArg (·.1.1) (Except.ok.inj hrest)
      rw [← hrows, List.length_append, List.length_append, List.length_replicate, hlen, pairRow_length tmpl i ts hqs, Nat.succ_mul]
      omega
    have hshort : ([] : List Nat).length ≤ pkLen par - (tmHead tmpl + o.nq + tmPre tmpl + tmPost tmpl) := Nat.zero_le _
    unfold pairRows at hrun
    dsimp only at hrun
    split at hrun
    · obtain ⟨p, t₁, -, hrun⟩ := rx_bind_ok hrun
      cases p with
      | none =>
        obtain ⟨ts, t₂, hts, hrun⟩ := rx_bind_ok hrun
        cases hts
        exact hrow hshort hrun
      | some x =>
        obtain ⟨ts, t₂, hts, hrun⟩ := rx_bind_ok hrun
        exact hrow (by rw [rxTokens_length hts]; exact Nat.min_le_right _ _) hrun
    · obtain ⟨p, t₁, hp, hrun⟩ := rx_bind_ok hrun
      cases hp
      obtain ⟨ts, t₂, hts, hrun⟩ := rx_bind_ok hrun
      cases hts
      exact hrow hshort hrun

/-! ### A streamed prompt -/

/-- The queue as a stage unit's write leaves it. -/
theorem Hw.stageParts_stand {id : QId} {c : Cmd} : ∀ {ws : List (Nat × List Byte)} {h k : Hw}, Hw.stageParts id c ws h = (k, []) →
    Hw.QueuesStand h k
  | [], h, k, hput => by cases hput; exact ⟨fun _ => rfl, .refl _⟩
  | (va, bs) :: ws, h, k, hput => by
    rw [Hw.stageParts] at hput
    split at hput
    · obtain ⟨hqs, hregs⟩ := Hw.stageParts_stand hput
      refine ⟨fun i => (hqs i).trans ?_, hregs.after ((Hw.write_q _ _ _ _).after (Hw.lookups_q _ _ _ _))⟩
      rw [Hw.write_qs]
      exact (Hw.lookups_access ..).outside.qs i
    · nomatch hput
    · nomatch hput

/-- A chunk's command as its signal leaves it. -/
def Cmd.chunked (w : PckWork) (full : Bool) (c : Cmd) : Cmd :=
  { c with work := .pck w, code := if full ∧ c.code = 0 then cSEM_OVERFLOW else c.code }

theorem pckOp_outSem_lt (d : BitVec 512) : (pckOp d).outSem < 16 := Nat.mod_lt _ (by decide)

/-- Which command a stage unit runs next is a matter of its queue alone. -/
theorem Hw.stageHead_of_stand {h k : Hw} {d : Fin 4} {q : Nat} {u : StageUnit} {op : Nat} (hstand : Hw.QueuesStand h k) (hq : hasQueue (.stage d u) q = true) :
    k.stageHead ⟨.stage d u, q⟩ op = h.stageHead ⟨.stage d u, q⟩ op := by
  obtain ⟨hqs, hregs⟩ := hstand
  unfold Hw.stageHead Hw.beforeReject Hw.qCommit
  rw [hqs, hregs.qrd 0x14 hq (by decide)]

/-- The command that runs next still does with its own fields updated. -/
theorem Hw.stageHead_updCmd {h : Hw} {id : QId} {op : Nat} {c : Cmd} {f : Cmd → Cmd}
    (hf : ∀ c, (f c).ptr = c.ptr ∧ (f c).desc = c.desc ∧ (f c).finished = c.finished ∧ (f c).skipped = c.skipped)
    (hhead : h.stageHead id op = some c) : (h.updCmd id c.ptr f).stageHead id op = some (f c) := by
  unfold Hw.stageHead at hhead ⊢
  rw [Hw.updCmd_qs_same]
  split at hhead
  · nomatch hhead
  · next hst =>
    rw [if_neg hst]
    split at hhead
    · next x hfind =>
      split at hhead
      · next hmay =>
        cases hhead
        have hsame : ((fun c : Cmd => !c.finished && !c.skipped) ∘ fun x => if x.ptr = c.ptr then f x else x)
            = fun c : Cmd => !c.finished && !c.skipped := by
          funext x
          obtain ⟨-, -, hfin, hskip⟩ := hf x
          simp only [Function.comp]
          split
          · rw [hfin, hskip]
          · rfl
        dsimp only
        rw [List.find?_map, hsame, hfind]
        dsimp only [Option.map_some]
        obtain ⟨hptr, hdesc, -⟩ := hf c
        rw [if_pos rfl, if_pos]
        refine ⟨by rw [hdesc]; exact hmay.1, ?_⟩
        have hbefore := hmay.2
        unfold Hw.beforeReject at hbefore ⊢
        rw [Hw.updCmd_qs_same, hptr]
        exact hbefore
      · nomatch hhead
    · nomatch hhead

/-- What a step of a stream is run for. -/
theorem Hw.pckStream_head {h : Hw} {id : QId} {c : Cmd} {w : PckWork} (hstream : h.pckStream id = some (c, w)) :
    h.stageHead id 0x11 = some c ∧ c.work = .pck w := by
  unfold Hw.pckStream at hstream
  split at hstream
  · next c' hhead =>
    split at hstream
    · next w' hwork => cases hstream; exact ⟨hhead, hwork⟩
    · nomatch hstream
  · nomatch hstream

/-- A prompt goes on streaming behind its chunk. -/
theorem Hw.pckStream_chunked {h k : Hw} {d : Fin 4} {q : Nat} {c : Cmd} {w w' : PckWork} {full : Bool} {core sem : Nat}
    (hq : hasQueue (.stage d .pck) q = true) (hsem : sem < 16) (hstream : h.pckStream ⟨.stage d .pck, q⟩ = some (c, w))
    (hstand : Hw.QueuesStand h k) :
    ((k.semAdd core sem 1).updCmd ⟨.stage d .pck, q⟩ c.ptr (Cmd.chunked w' full)).pckStream ⟨.stage d .pck, q⟩ = some (Cmd.chunked w' full c, w') := by
  obtain ⟨hhead, -⟩ := Hw.pckStream_head hstream
  obtain ⟨hqs, hregs⟩ := hstand
  have hstand' : Hw.QueuesStand h (k.semAdd core sem 1) :=
    ⟨fun i => (Hw.semAdd_qs _ _ _ _ _).trans (hqs i), (Hw.semAdd_q _ _ _ _ hsem).after hregs⟩
  have hnext := Hw.stageHead_updCmd (f := Cmd.chunked w' full) (fun _ => ⟨rfl, rfl, rfl, rfl⟩)
    ((Hw.stageHead_of_stand hstand' hq).trans hhead)
  unfold Hw.pckStream
  rw [hnext]
  rfl

/-- PCK_PAIRS finishes with its rows and a header. -/
theorem packsPairs {s : State} {d q : Fin 4} {c : Cmd} (hup : Up s) (hhead : s.hw.stageHead ⟨.stage d .pck, q.val⟩ 0x10 = some c) :
    let id : QId := ⟨.stage d .pck, q.val⟩
    let m := queueMaster id
    let o := pckOp c.desc
    let signals : List (Nat × Nat × Nat) := if dSigEn c.desc then [(o.sigCore, dSigSem c.desc, 1)] else []
    (o.nq = 0 → o.b = 0 → exec (.pckPairs d q) s = .next { s with hw := s.hw.finishCmd id c { signals := signals } })
    ∧ (∀ par tmpl cand qs t rows cut none_ miss t', ¬ (o.nq = 0 ∧ o.b = 0) → pckRead s.hw id c [] = .ok ((par, tmpl, cand, qs), t) →
      pairRows s.hw m o par tmpl cand qs o.b 0 t = .ok ((rows, cut, none_, miss), t') →
      let head := leBytes 4 o.b ++ leBytes 4 cut ++ leBytes 4 none_ ++ leBytes 4 0x100
      let bs := rows.flatMap (leBytes 8)
      ∃ r, exec (.pckPairs d q) s = .next { s with hw := s.hw.finishCmd id c r } ∧ r.result = head ++ bs
        ∧ r.writes = (if bs = [] then [] else [(dDst c.desc + 16, bs)]) ++ [(dDst c.desc, head)]
        ∧ r.counts = [(0x048, miss), (0x050, cut)] ∧ r.signals = signals ∧ r.code = 0 ∧ rows.length = o.b * pkLen par) := by
  intro id m o signals
  have hexec {r : Done} (hrun : rxRun (pairsRun s.hw id c) = .ok r) : exec (.pckPairs d q) s = .next { s with hw := s.hw.finishCmd id c r } := by
    show execPckPairs d q s = _
    rw [execPckPairs, State.onHw_up _ _ hup, Hw.execStage_head _ hhead hrun]
  refine ⟨fun hnq hb => hexec ?_, fun par tmpl cand qs t rows cut none_ miss t' hsome hread hrows => ?_⟩
  · rw [rxRun, pairsRun]
    dsimp only
    rw [if_pos ⟨hnq, hb⟩]
    rfl
  · intro head bs
    have hop : dOpcode c.desc = 0x10 := by
      unfold Hw.stageHead at hhead
      split at hhead
      · nomatch hhead
      · split at hhead
        · split at hhead
          · next hmay => cases hhead; exact hmay.1
          · nomatch hhead
        · nomatch hhead
    obtain ⟨hroom, hqs⟩ := pckRead_pairs hop hread
    have hrun : pairsRun s.hw id c [] = .ok ({
        result := head ++ bs, writes := (if bs = [] then [] else [(dDst c.desc + 16, bs)]) ++ [(dDst c.desc, head)]
        counts := [(0x048, miss), (0x050, cut)], signals := signals }, t') := by
      unfold pairsRun
      dsimp only
      rw [if_neg hsome, rx_bind_eq hread]
      dsimp only
      rw [rx_bind_eq hrows]
      rfl
    refine ⟨_, hexec (by rw [rxRun, hrun]), rfl, rfl, rfl, rfl, rfl, pairRows_length hroom.le hqs hrows⟩

/-- PCK_PROMPT begins with the template's head and the query. -/
theorem promptBegins {s : State} {d q : Fin 4} {c : Cmd} {par tmpl cand : List Byte} {qs : List Nat} {t : List (Nat × Nat)} (hup : Up s)
    (hhead : s.hw.stageHead ⟨.stage d .pck, q.val⟩ 0x11 = some c) (hwork : c.work = .none)
    (hread : pckRead s.hw ⟨.stage d .pck, q.val⟩ c [] = .ok ((par, tmpl, cand, qs), t)) :
    let id : QId := ⟨.stage d .pck, q.val⟩
    let es := tokenRun 0 0 (pkPos par) (tmHeadT tmpl) ++ tokenRun 1 0 (pkPos par + tmHead tmpl) qs
    let h := t.foldl (fun h e => h.touch (queueMaster id) e.1 e.2) s.hw
    exec (.pckPrompt d q) s = .next { s with
      hw := h.setWork id c.ptr (.pck { par := par, tmpl := tmpl, cand := cand, entries := es, total := pckChunks (pckOp c.desc) par,
                                       left := pkLen par - pkReserve par - es.length - tmTail tmpl }) } := by
  intro id es h
  show execPckPrompt d q s = _
  rw [execPckPrompt, State.onHw_up _ _ hup, pckPrompt, hhead]
  dsimp only
  rw [hwork]
  dsimp only
  rw [hread]

/-- A batch's count is taken, with its record acted on. -/
theorem takesBatch {s : State} {d q : Fin 4} {c : Cmd} {w : PckWork} (hup : Up s) (hstream : s.hw.pckStream ⟨.stage d .pck, q.val⟩ = some (c, w)) :
    let id : QId := ⟨.stage d .pck, q.val⟩
    let m := queueMaster id
    let o := pckOp c.desc
    (w.ending.isSome = true ∨ o.a ≤ w.batch ∨ (w.taken = false ∧ s.hw.sem o.batchCore o.batchSem = 0) →
      exec (.batchRecordTake d q) s = .next s)
    ∧ (w.ending = none → w.batch < o.a → w.taken = true ∨ s.hw.sem o.batchCore o.batchSem ≠ 0 →
      let g := if w.taken then s.hw else
        (s.hw.semTake o.batchCore o.batchSem).updCmd id c.ptr fun c => { c with takes := c.takes ++ [(o.batchCore, o.batchSem)] }
      ∀ w' t stop, pckRecord g m o { w with taken := true } = (w', t, stop) →
      let h := t.foldl (fun h e => h.touch m e.1 e.2) g
      let k := (h.pckCount id w w').setWork id c.ptr (.pck w')
      (∀ e, stop = some e → exec (.batchRecordTake d q) s = .next { s with hw := k.pckFail id c w' e })
      ∧ (stop = none → exec (.batchRecordTake d q) s = .next { s with hw := k.pckFinish id c w' }
        ∧ (w'.batch ≠ o.a ∨ w'.chunks ≠ w'.total → exec (.batchRecordTake d q) s = .next { s with hw := k }))) := by
  intro id m o
  have hexec : exec (.batchRecordTake d q) s = .next { s with hw := batchRecordTake id s.hw } := by
    show execBatchRecordTake d q s = _
    rw [execBatchRecordTake, State.onHw_up _ _ hup]
  have hawaits : s.hw.pckAwaits id = (w.ending.isNone && !w.taken && decide (w.batch < o.a) && s.hw.sem o.batchCore o.batchSem == 0) := by
    unfold Hw.pckAwaits
    rw [hstream]
  have hwaits : (w.ending.isSome || decide (o.a ≤ w.batch) || s.hw.pckAwaits id) = true ↔
      w.ending.isSome = true ∨ o.a ≤ w.batch ∨ (w.taken = false ∧ s.hw.sem o.batchCore o.batchSem = 0) := by
    rw [hawaits]
    simp only [Bool.or_eq_true, Bool.and_eq_true, decide_eq_true_eq, beq_iff_eq, Bool.not_eq_true', Option.isNone_iff_eq_none, Option.isSome_iff_ne_none]
    by_cases hending : w.ending = none
    · cases htaken : w.taken
      · simp [hending, or_and_left]
        omega
      · simp [hending]
    · simp [hending]
  rw [hexec, batchRecordTake, hstream]
  dsimp only
  refine ⟨fun hwait => by rw [if_pos (hwaits.mpr hwait)], fun hending hbatch hcount => ?_⟩
  have hgo : ¬ (w.ending.isSome || decide (o.a ≤ w.batch) || s.hw.pckAwaits id) = true := by
    rw [hwaits, hending]
    rintro (hsome | hover | ⟨htaken, hzero⟩)
    · nomatch hsome
    · omega
    · rcases hcount with hcount | hcount
      · exact Bool.false_ne_true (htaken.symm.trans hcount)
      · exact hcount hzero
  intro w' t stop hrecord
  rw [if_neg hgo, hrecord]
  refine ⟨fun e hstop => by rw [hstop], fun hstop => ?_⟩
  rw [hstop]
  refine ⟨rfl, fun hmore => ?_⟩
  dsimp only
  rw [Hw.pckFinish]
  dsimp only
  rw [if_neg fun hall => hmore.elim (fun hb => hb hall.2.1) fun hc => hc hall.2.2]

/-- A complete chunk is written and signalled. -/
theorem signalsChunk {s : State} {d q : Fin 4} {c : Cmd} {w : PckWork} (hup : Up s) (hstream : s.hw.pckStream ⟨.stage d .pck, q.val⟩ = some (c, w)) :
    let id : QId := ⟨.stage d .pck, q.val⟩
    let o := pckOp c.desc
    let signals : List (Nat × Nat × Nat) := if dSigEn c.desc then [(o.sigCore, dSigSem c.desc, 1)] else []
    (w.ending.isSome = true → exec (.chunkSignal d q) s = .next { s with hw := Hw.pckDrain id c.ptr (w.total + 1) s.hw })
    ∧ (w.ending = none → w.total ≤ w.chunks ∨ w.entries.length < (w.chunks + 1) * o.chunk → exec (.chunkSignal d q) s = .next s)
    ∧ (w.ending = none → w.chunks < w.total → (w.chunks + 1) * o.chunk ≤ w.entries.length →
      let es := (w.entries.drop (w.chunks * o.chunk)).take o.chunk
      let put := Hw.stageWrites id c [(dDst c.desc + 32 + 8 * o.chunk * w.chunks, es.flatMap (leBytes 8))] s.hw
      let w' := { w with chunks := w.chunks + 1 }
      (∀ k x rest, put = (k, x :: rest) → exec (.chunkSignal d q) s = .next { s with hw := k })
      ∧ ∀ k, put = (k, []) →
        let full := k.semFull o.outCore o.outSem 1
        let g := (k.semAdd o.outCore o.outSem 1).updCmd id c.ptr fun c => { c with
          work := .pck w', code := if full ∧ c.code = 0 then cSEM_OVERFLOW else c.code }
        (w.batch ≠ o.a ∨ w.chunks + 1 ≠ w.total → exec (.chunkSignal d q) s = .next { s with hw := g })
        ∧ (w.batch = o.a → w.chunks + 1 = w.total → ∃ r, exec (.chunkSignal d q) s = .next { s with hw := g.finishCmd id c r }
          ∧ r.result = pckHeader w' ∧ r.writes.getLast? = some (dDst c.desc, pckHeader w') ∧ r.signals = signals)) := by
  intro id o signals
  have hexec : exec (.chunkSignal d q) s = .next { s with hw := chunkSignal id s.hw } := by
    show execChunkSignal d q s = _
    rw [execChunkSignal, State.onHw_up _ _ hup]
  have hchunk (hending : w.ending = none) (hless : w.chunks < w.total) (hlong : (w.chunks + 1) * o.chunk ≤ w.entries.length) :
      chunkSignal id s.hw = match s.hw.pckChunk id c w with
        | (h, false) => h
        | (h, true) => match h.pckStream id with
          | some (c, w) => h.pckFinish id c w
          | none => h := by
    rw [chunkSignal, hstream]
    dsimp only
    rw [hending, if_neg (by simp), if_neg fun hwait => hwait.elim (Nat.not_le.mpr hless) (Nat.not_lt.mpr hlong)] <;> rfl
  refine ⟨fun hending => ?_, fun hending hwait => ?_, fun hending hless hlong => ?_⟩
  · rw [hexec, chunkSignal, hstream]
    dsimp only
    rw [if_pos hending]
  · rw [hexec, chunkSignal, hstream]
    dsimp only
    rw [hending, if_neg (by simp), if_pos hwait]
  · intro es put w'
    refine ⟨fun k x rest hput => ?_, fun k hput => ?_⟩
    · have hstuck : s.hw.pckChunk id c w = (k, false) := by
        rw [Hw.pckChunk]
        dsimp only
        rw [show Hw.stageWrites id c _ s.hw = (k, x :: rest) from hput]
        dsimp only
        rw [if_pos (List.cons_ne_nil _ _)]
      rw [hexec, hchunk hending hless hlong, hstuck]
    · intro full g
      have hput' : s.hw.pckChunk id c w = (g, true) := by
        rw [Hw.pckChunk]
        dsimp only
        rw [show Hw.stageWrites id c _ s.hw = (k, []) from hput]
        dsimp only
        rw [if_neg (not_not.mpr rfl)]
      have hnext : g.pckStream id = some (Cmd.chunked w' full c, w') :=
        Hw.pckStream_chunked (decide_eq_true q.isLt) (pckOp_outSem_lt _) hstream (Hw.stageParts_stand hput)
      have hfinish : exec (.chunkSignal d q) s = .next { s with hw := g.pckFinish id (Cmd.chunked w' full c) w' } := by
        rw [hexec, hchunk hending hless hlong, hput']
        dsimp only
        rw [hnext]
      rw [hfinish, Hw.pckFinish]
      clear_value g
      dsimp only
      refine ⟨fun hmore => ?_, fun hbatch hlast => ⟨_, by rw [if_pos ⟨hending, hbatch, hlast⟩]; rfl, rfl, ?_, rfl⟩⟩
      · rw [if_neg fun hall => hmore.elim (fun hb => hb hall.2.1) fun hc => hc hall.2.2]
      · exact List.getLast?_concat

/-- Settles O48: the Packer's commands, step by step. -/
theorem packerCommands : Obligations.PackerCommands := by
  intro s d q c hup id m o signals
  have hexecTake : exec (.batchRecordTake d q) s = .next { s with hw := batchRecordTake id s.hw } := by
    show execBatchRecordTake d q s = _
    rw [execBatchRecordTake, State.onHw_up _ _ hup]
  have hexecSignal : exec (.chunkSignal d q) s = .next { s with hw := chunkSignal id s.hw } := by
    show execChunkSignal d q s = _
    rw [execChunkSignal, State.onHw_up _ _ hup]
  refine ⟨fun hhead => packsPairs hup hhead, fun par tmpl cand qs t hhead hwork hread => promptBegins hup hhead hwork hread,
    fun hnone => ⟨?_, ?_⟩, fun w hstream => ?_⟩
  · rw [hexecTake, batchRecordTake, hnone]
  · rw [hexecSignal, chunkSignal, hnone]
  · obtain ⟨hwait, htake⟩ := takesBatch hup hstream
    exact ⟨hwait, htake, signalsChunk hup hstream⟩

end Sys2Proof.Machine
end

section
/-! PROOF of O47: the mutations of an index. In execution their items are read; at the commit step each item is a run of reads and writes of
memory, which leaves every queue as it stood, so that the command at the head is still the head when its writes go on. -/

namespace Sys2Proof.Machine
open Sys2Proof.Claims

/-! ### Execution -/

/-- A mutation finishes with its items read. -/
theorem rtvItems_finishes {h : Hw} {id : QId} {op : Nat} {c : Cmd} {w : RtvWork} {bs : List Byte} (hhead : h.stageHead id op = some c)
    (hwork : c.work = .rtv w) :
    let o := rtvOp c.desc
    let n := if op = 0x15 then 0 else o.n * rtvItem ((h.idx w.slot).desc w.bank) op
    (if n = 0 then Except.ok [] else h.source id c 0 n) = .ok bs →
    rtvItems id op h = h.finishCmd id c { touched := srcTouch c.desc n, work := .rtv { w with par := bs, sent := true }
                                          signals := if dSigEn c.desc then [(o.sigCore, dSigSem c.desc, 1)] else [] } := by
  intro o n hsource
  refine Hw.execStage_head _ hhead ?_
  dsimp only
  rw [hwork]
  dsimp only
  rw [show (if (if op = 0x15 then 0 else (rtvOp c.desc).n * rtvItem ((h.idx w.slot).desc w.bank) op) = 0 then Except.ok [] else _) = .ok bs from hsource]

/-- What a compaction delivers. -/
theorem rtvCompactRun_gives {h : Hw} {id : QId} {c : Cmd} {w : RtvWork} {dir es : List Byte} {t1 t2 : List (Nat × Nat)} :
    let o := rtvOp c.desc
    let t := (h.idx w.slot).desc w.bank
    let tail := bnum dir 8 4
    o.n < xCount t → rxRead h (queueMaster id) (xDir t + 16 * o.n) 16 [] = .ok (dir, t1) →
    rxRead h (queueMaster id) (bitsOf (bnum dir 0 8) 51 0) (tail * xEntryBytes t) t1 = .ok (es, t2) →
    let e := h.epoch w.slot
    let kept := ((List.range tail).map fun i => (es.drop (i * xEntryBytes t)).take (xEntryBytes t)).filter fun b =>
      !(bitOf (bnum b 12 4) 0 && epochLe (bnum b 8 4) e)
    let stamp (b : List Byte) : List Byte := if epochLe (bnum b 4 4) e then b.take 4 ++ leBytes 4 e ++ b.drop 8 else b
    let head := rtvHeader kept.length (tail - kept.length) 0 ((e + 1) % 0x100000000)
    kept.length ≤ o.cap → rtvCompactRun h id c w [] = .ok ({
      result := head
      writes := (if kept = [] then [] else [(o.va, (kept.map stamp).flatten)])
        ++ [(xDir t + 16 * o.n, leBytes 8 o.va ++ leBytes 4 kept.length ++ leBytes 4 o.cap), (dDst c.desc, head)]
      work := .rtv { w with sent := true, holds := some o.n }
      signals := if dSigEn c.desc then [(o.sigCore, dSigSem c.desc, 1)] else [] }, t2) := by
  intro o t tail hlist hdir hes e kept stamp head hcap
  unfold rtvCompactRun
  dsimp only
  rw [decide_eq_true hlist, rx_bind_eq (rxCheck_true _ _), rx_bind_eq hdir, rx_bind_eq hes, decide_eq_true hcap, rx_bind_eq (rxCheck_true _ _)]
  rfl

theorem mutations : Mutations := by
  intro s d q c w hup id o t hwork
  refine ⟨?items, ?compact⟩
  case items =>
    intro fin
    have hexec {op : Nat} {cmd : Instr} (hcmd : exec cmd s = .next (s.onHw (rtvItems id op))) (hhead : s.hw.stageHead id op = some c) {bs : List Byte}
        (hsource : (if (if op = 0x15 then 0 else o.n * rtvItem t op) = 0 then Except.ok [] else s.hw.source id c 0 (if op = 0x15 then 0 else o.n * rtvItem t op)) = .ok bs) :
        exec cmd s = fin op bs := by
      rw [hcmd, State.onHw_up _ _ hup, rtvItems_finishes hhead hwork hsource]
    refine ⟨fun op cmd hcmd hhead => ?_, fun hhead => hexec rfl hhead (if_pos rfl)⟩
    have hrun : exec cmd s = .next (s.onHw (rtvItems id op)) ∧ op ≠ 0x15 := by
      simp only [List.mem_cons, List.not_mem_nil, or_false, Prod.mk.injEq] at hcmd
      obtain ⟨rfl, rfl⟩ | ⟨rfl, rfl⟩ | ⟨rfl, rfl⟩ := hcmd <;> exact ⟨rfl, by decide⟩
    obtain ⟨hrun, hop⟩ := hrun
    refine ⟨fun hzero => hexec hrun hhead ?_, fun bs hn hbs => hexec hrun hhead ?_⟩
    · rw [if_neg hop, if_pos hzero]
    · rw [if_neg hop, if_neg hn, hbs]
  case compact =>
    intro hhead
    have hexec : exec (.rtvCompact d q) s = .next { s with hw := rtvCompact id s.hw } := by
      show execRtvCompact d q s = _
      rw [execRtvCompact, State.onHw_up _ _ hup]
    refine ⟨fun hother => ?_, ?_⟩
    · rw [hexec, rtvCompact, hhead]
      dsimp only
      rw [if_pos]
      cases hfirst : (s.hw.qs id).cmds.head? with
      | none => exact Option.some_ne_none _ |>.symm
      | some c' => exact fun heq => hother c' hfirst (Option.some.inj heq)
    · intro dir es t1 t2 holdest hlist hdir tail hes e kept stamp head hcap
      have hrun := rtvCompactRun_gives (id := id) (c := c) (w := w) hlist hdir hes hcap
      have hgive {r : Done} (hr : rxRun (rtvCompactRun s.hw id c w) = .ok r) :
          exec (.rtvCompact d q) s = .next { s with hw := s.hw.finishCmd id c r } := by
        rw [hexec, rtvCompact, hhead]
        dsimp only
        rw [if_neg (by rw [holdest]; exact not_not.mpr rfl), Hw.execStage_head _ hhead]
        rw [hwork]
        exact hr
      exact ⟨_, hgive (by rw [rxRun, hrun]), rfl, rfl, rfl, rfl⟩

/-! ### Items -/

theorem except_bind_ok {ε α β : Type} {x : Except ε α} {f : α → Except ε β} {r : β} (h : (x >>= f) = .ok r) : ∃ a, x = .ok a ∧ f a = .ok r := by
  cases x with
  | error e => nomatch h
  | ok a => exact ⟨a, rfl, h⟩

theorem except_bind_eq {ε α β : Type} {x : Except ε α} {a : α} (f : α → Except ε β) (hx : x = .ok a) : (x >>= f) = f a := by
  rw [hx]
  rfl

theorem RtvRun.free_ok {r : RtvRun} {l : Nat} (hfree : r.h.listHeld r.slot [l] = false) : r.free l = .ok () := by
  rw [RtvRun.free, hfree]
  rfl

theorem RtvRun.get_ok {r : RtvRun} {m : Master} {va n : Nat} {bs : List Byte} (hread : r.h.read m va n = .ok bs) :
    r.get m va n = .ok (bs, { r with touched := (va, n) :: r.touched }) := by
  rw [RtvRun.get, hread]

/-- What a write of an item leaves of its run: the counts. -/
theorem RtvRun.put_leaves {r r' : RtvRun} {m : Master} {va : Nat} {bs : List Byte} (hput : r.put m va bs = .ok r') :
    r'.writes = r.writes ++ [(va, bs)] ∧ r'.applied = r.applied ∧ Hw.QueuesStand r.h r'.h := by
  unfold RtvRun.put at hput
  split at hput
  · cases hput
    exact ⟨rfl, rfl, fun i => ((Hw.write_qs _ _ _ _ i).trans ((Hw.lookups_access ..).outside.qs i)),
      (Hw.write_q _ _ _ _).after (Hw.lookups_q _ _ _ _)⟩
  · nomatch hput

/-- What an insertion or a deletion of an entry does. -/
theorem itemsOfLists (m : Master) (t : List Byte) (e : Nat) (r : RtvRun) (x dir : List Byte) (hlist : bnum x 0 4 < xCount t) :
    let at_ := xDir t + 16 * bnum x 0 4
    let tail := bnum dir 8 4
    let img := x.drop 32
    let new := img.take 4 ++ leBytes 4 ((e + 1) % 0x100000000) ++ leBytes 4 0 ++ leBytes 4 (putBit (bnum img 12 4) 0 false) ++ img.drop 16
    let r0 := { r with touched := (at_, 16) :: r.touched }
    (r.h.listHeld r.slot [bnum x 0 4] = true → insertItem m t e r x = .error (.wait, false))
    ∧ (r.h.listHeld r.slot [bnum x 0 4] = false → r.h.read m at_ 16 = .ok dir →
      (∀ r1 r2, tail ≠ bnum dir 12 4 → bnum img 0 4 ≠ 0xFFFFFFFF →
        r0.put m (bitsOf (bnum dir 0 8) 51 0 + tail * xEntryBytes t) new = .ok r1 → r1.put m (at_ + 8) (leBytes 4 (tail + 1)) = .ok r2 →
        insertItem m t e r x = .ok { r2 with applied := r.applied + 1 }
        ∧ r2.writes = r.writes ++ [(bitsOf (bnum dir 0 8) 51 0 + tail * xEntryBytes t, new), (at_ + 8, leBytes 4 (tail + 1))])
      ∧ (tail = bnum dir 12 4 → insertItem m t e r x = .ok { r0 with full := r.full + 1, skipped := r.skipped + 1 })
      ∧ (∀ b r1, xGraph t = false → bnum x 4 4 < tail →
        let va := bitsOf (bnum dir 0 8) 51 0 + bnum x 4 4 * xEntryBytes t
        let mark := leBytes 4 ((e + 1) % 0x100000000) ++ leBytes 4 (putBit (bnum b 12 4) 0 true)
        r.h.read m va 16 = .ok b → bitOf (bnum b 12 4) 0 = false → bnum b 0 4 = bnum x 8 4 →
        ({ r0 with touched := (va, 16) :: r0.touched }).put m (va + 8) mark = .ok r1 →
        deleteItem m t e r x = .ok { r1 with applied := r.applied + 1 } ∧ r1.writes = r.writes ++ [(va + 8, mark)])) := by
  intro at_ tail img new r0
  refine ⟨fun hheld => ?_, fun hfree hdir => ⟨fun r1 r2 hroom hid hput1 hput2 => ?_, fun hfull => ?_, ?_⟩⟩
  · unfold insertItem
    dsimp only
    rw [if_neg (Nat.not_le.mpr hlist), RtvRun.free, hheld]
    rfl
  · obtain ⟨hw1, ha1, -⟩ := RtvRun.put_leaves hput1
    obtain ⟨hw2, ha2, -⟩ := RtvRun.put_leaves hput2
    refine ⟨?_, ?_⟩
    · unfold insertItem
      dsimp only
      rw [if_neg (Nat.not_le.mpr hlist), except_bind_eq _ (RtvRun.free_ok hfree), except_bind_eq _ (RtvRun.get_ok hdir)]
      dsimp only
      rw [if_neg hroom, if_neg hid, except_bind_eq _ hput1, except_bind_eq _ hput2, RtvRun.done, ha2, ha1]
    · rw [hw2, hw1, List.append_assoc]
      rfl
  · unfold insertItem
    dsimp only
    rw [if_neg (Nat.not_le.mpr hlist), except_bind_eq _ (RtvRun.free_ok hfree), except_bind_eq _ (RtvRun.get_ok hdir)]
    dsimp only
    rw [if_pos hfull]
    rfl
  · intro b r1 hivf hpos va mark hb hlive hsame hput
    obtain ⟨hw1, ha1, -⟩ := RtvRun.put_leaves hput
    refine ⟨?_, hw1⟩
    unfold deleteItem
    dsimp only
    rw [if_neg (by rw [hivf]; exact Bool.false_ne_true), if_neg (Nat.not_le.mpr hlist), except_bind_eq _ (RtvRun.free_ok hfree),
      except_bind_eq _ (RtvRun.get_ok hdir)]
    dsimp only
    rw [if_neg (Nat.not_le.mpr hpos), except_bind_eq _ (RtvRun.get_ok (r := r0) hb)]
    dsimp only
    rw [if_neg (by rw [hlive, hsame]; simp), except_bind_eq _ hput, RtvRun.done, ha1]

/-- An item leaves every queue as it stood. -/
def KeepsQueues (f : RtvRun → List Byte → RtvStep RtvRun) : Prop := ∀ r x r', f r x = .ok r' → Hw.QueuesStand r.h r'.h

theorem RtvRun.get_h {r r' : RtvRun} {m : Master} {va n : Nat} {bs : List Byte} (hget : r.get m va n = .ok (bs, r')) : r'.h = r.h := by
  unfold RtvRun.get at hget
  split at hget
  · cases hget; rfl
  · nomatch hget

theorem insertItem_keeps (m : Master) (t : List Byte) (e : Nat) : KeepsQueues (insertItem m t e) := by
  intro r x r' hrun
  unfold insertItem at hrun
  dsimp only at hrun
  split at hrun
  · cases hrun; exact .refl _
  · obtain ⟨-, -, hrun⟩ := except_bind_ok hrun
    obtain ⟨⟨dir, r0⟩, hget, hrun⟩ := except_bind_ok hrun
    have hsame := RtvRun.get_h hget
    rw [← hsame]
    dsimp only at hrun
    split at hrun
    · cases hrun; exact .refl _
    · split at hrun
      · cases hrun; exact .refl _
      · obtain ⟨r1, hput1, hrun⟩ := except_bind_ok hrun
        obtain ⟨r2, hput2, hrun⟩ := except_bind_ok hrun
        cases hrun
        exact (RtvRun.put_leaves hput1).2.2.trans (RtvRun.put_leaves hput2).2.2

theorem deleteItem_keeps (m : Master) (t : List Byte) (e : Nat) : KeepsQueues (deleteItem m t e) := by
  intro r x r' hrun
  unfold deleteItem at hrun
  dsimp only at hrun
  split at hrun
  · split at hrun
    · cases hrun; exact .refl _
    · obtain ⟨⟨n, r0⟩, hget, hrun⟩ := except_bind_ok hrun
      have hsame := RtvRun.get_h hget
      rw [← hsame]
      dsimp only at hrun
      split at hrun
      · cases hrun; exact .refl _
      · obtain ⟨r1, hput, hrun⟩ := except_bind_ok hrun
        cases hrun
        exact (RtvRun.put_leaves hput).2.2
  · split at hrun
    · cases hrun; exact .refl _
    · obtain ⟨-, -, hrun⟩ := except_bind_ok hrun
      obtain ⟨⟨dir, r0⟩, hget, hrun⟩ := except_bind_ok hrun
      have hsame := RtvRun.get_h hget
      rw [← hsame]
      dsimp only at hrun
      split at hrun
      · cases hrun; exact .refl _
      · obtain ⟨⟨b, r1⟩, hget', hrun⟩ := except_bind_ok hrun
        have hsame' := RtvRun.get_h hget'
        rw [← hsame']
        dsimp only at hrun
        split at hrun
        · cases hrun; exact .refl _
        · obtain ⟨r2, hput, hrun⟩ := except_bind_ok hrun
          cases hrun
          exact (RtvRun.put_leaves hput).2.2

theorem nodeItem_keeps (m : Master) (t : List Byte) (e : Nat) : KeepsQueues (nodeItem m t e) := by
  intro r x r' hrun
  unfold nodeItem at hrun
  dsimp only at hrun
  split at hrun
  · cases hrun; exact .refl _
  · obtain ⟨⟨n, r0⟩, hget, hrun⟩ := except_bind_ok hrun
    have hsame := RtvRun.get_h hget
    rw [← hsame]
    dsimp only at hrun
    split at hrun
    · split at hrun
      · cases hrun; exact .refl _
      · obtain ⟨r1, hput, hrun⟩ := except_bind_ok hrun
        cases hrun
        exact (RtvRun.put_leaves hput).2.2
    · split at hrun
      · obtain ⟨r1, hput, hrun⟩ := except_bind_ok hrun
        cases hrun
        exact (RtvRun.put_leaves hput).2.2
      · cases hrun; exact .refl _

theorem rtvApply_stand {f : RtvRun → List Byte → RtvStep RtvRun} (hf : KeepsQueues f) :
    ∀ {xs left : List (List Byte)} {r r' : RtvRun} {stop : Option (RdErr × Bool)}, rtvApply f xs r = (r', left, stop) → Hw.QueuesStand r.h r'.h
  | [], left, r, r', stop, hrun => by cases hrun; exact .refl _
  | x :: xs, left, r, r', stop, hrun => by
    unfold rtvApply at hrun
    split at hrun
    · next r1 hstep => exact (hf _ _ _ hstep).trans (rtvApply_stand hf hrun)
    · cases hrun; exact .refl _

/-! ### Commit steps -/

/-- A commit step that has begun goes on with the writes it has left. -/
theorem Hw.stageCommit_going {h k : Hw} {id : QId} {c : Cmd} {ws : List (Nat × List Byte)} (eff : Cmd → Hw → Hw)
    (hhead : h.stageCommitHead id = some c) (htodo : c.todo = some ws) (hput : Hw.stageWrites id c ws h = (k, [])) :
    h.stageCommit id eff =
      ((eff c k).commitEnd id ((((eff c k).qs id).cmds.find? fun x => x.ptr = c.ptr).getD c) c.signals).runDeferred id := by
  rw [Hw.stageCommit, hhead]
  dsimp only
  rw [htodo]
  simp only [Option.isNone_some, Option.getD_some, Bool.false_and, Bool.false_eq_true, if_false, hput, if_true]

/-- A commit step that nothing holds back ends with its writes. -/
theorem Hw.stageCommit_first {h k : Hw} {id : QId} {c : Cmd} (eff : Cmd → Hw → Hw) (hhead : h.stageCommitHead id = some c) (htodo : c.todo = none)
    (hring : h.ringGate id c = true) (hcredit : h.creditGate id c = true) (hput : Hw.stageWrites id c c.writes h = (k, [])) :
    h.stageCommit id eff =
      ((eff c k).commitEnd id ((((eff c k).qs id).cmds.find? fun x => x.ptr = c.ptr).getD c) c.signals).runDeferred id := by
  rw [Hw.stageCommit_fresh _ hhead htodo, if_neg (by rw [hring]; decide), if_neg (by rw [hcredit]; decide)]
  simp only [hput, if_true]

/-- Which command commits next is a matter of the queue alone. -/
theorem Hw.stageCommitHead_of_stand {h k : Hw} {id : QId} (hstand : Hw.QueuesStand h k) (hq : hasQueue id.eng id.q = true) :
    k.stageCommitHead id = h.stageCommitHead id := by
  obtain ⟨hqs, hregs⟩ := hstand
  unfold Hw.stageCommitHead Hw.qCommit
  rw [hqs, hregs.qrd 0x14 hq (by decide)]

/-- The command that commits next still does with its own fields updated. -/
theorem Hw.stageCommitHead_updCmd {h : Hw} {id : QId} {c : Cmd} {f : Cmd → Cmd} (hf : (f c).ptr = c.ptr ∧ (f c).finished = c.finished)
    (hhead : h.stageCommitHead id = some c) : (h.updCmd id c.ptr f).stageCommitHead id = some (f c) := by
  obtain ⟨hptr, hfin⟩ := hf
  unfold Hw.stageCommitHead at hhead ⊢
  rw [Hw.updCmd_qs_same]
  split at hhead
  · next c' rest hcmds =>
    split at hhead
    · nomatch hhead
    · next hheld =>
      split at hhead
      · next hmay =>
        cases hhead
        rw [hcmds, List.map_cons, if_pos rfl]
        dsimp only
        rw [hptr, hfin, if_neg hheld]
        exact if_pos hmay
      · nomatch hhead
  · nomatch hhead

/-- STAGE_COMMIT_STEP of a Retriever command. -/
theorem exec_rtvCommit {s : State} {d q : Fin 4} {c : Cmd} (hup : Up s) (hhead : s.hw.stageCommitHead ⟨.stage d .rtv, q.val⟩ = some c)
    (hop : 0x10 ≤ dOpcode c.desc) : exec (.stageCommitStep d .rtv q) s = .next { s with hw := rtvCommit ⟨.stage d .rtv, q.val⟩ s.hw } := by
  have heng : stageEng d.val .rtv = .stage d .rtv := congrArg (Eng.stage · .rtv) (Fin.ofNat_val_eq_self d)
  show execStageCommitStep d .rtv q s = _
  rw [execStageCommitStep, State.onHw_up _ _ hup, stageCommitStep, heng, hhead]
  dsimp only
  rw [if_neg (Nat.not_lt.mpr hop)]

theorem rtvCommit_eq {h : Hw} {id : QId} {c : Cmd} {w : RtvWork} (hhead : h.stageCommitHead id = some c) (hwork : c.work = .rtv w)
    (htodo : c.todo = none) : rtvCommit id h =
      if dOpcode c.desc == 0x14 then h.compactCommit id c w
      else if !(dOpcode c.desc == 0x11 || dOpcode c.desc == 0x12 || dOpcode c.desc == 0x13) || decide ((rtvOp c.desc).n = 0) then h.stageCommit id rtvCommitEff
      else if !h.ringGate id c || !h.creditGate id c then h.stageCommit id rtvCommitEff
      else h.rtvMutate id c w (cutItems (rtvItem ((h.idx w.slot).desc w.bank) (dOpcode c.desc)) (rtvOp c.desc).n w.par) := by
  rw [rtvCommit, hhead]
  dsimp only
  rw [hwork, htodo]
  exact rfl

/-- While the ring has no entry a commit step waits. -/
theorem rtvCommit_waits {h : Hw} {id : QId} {c : Cmd} {w : RtvWork} (hhead : h.stageCommitHead id = some c) (hwork : c.work = .rtv w)
    (htodo : c.todo = none) (hring : h.ringGate id c = false) : rtvCommit id h = h := by
  have hcommit : h.stageCommit id rtvCommitEff = h := by rw [Hw.stageCommit_fresh _ hhead htodo, if_pos hring]
  rw [rtvCommit_eq hhead hwork htodo, Hw.compactCommit, hcommit, hring, htodo]
  simp

/-- A commit step without items: its writes, E, and the end. -/
theorem rtvCommit_plain {h k : Hw} {id : QId} {c : Cmd} {w : RtvWork} (hhead : h.stageCommitHead id = some c) (hwork : c.work = .rtv w)
    (htodo : c.todo = none) (hring : h.ringGate id c = true) (hcredit : h.creditGate id c = true)
    (hop : dOpcode c.desc = 0x10 ∨ dOpcode c.desc = 0x15 ∨ (dOpcode c.desc = 0x14 ∧ h.oldProbes w (rtvOp c.desc).n (rtvOp c.desc).va = false))
    (hput : Hw.stageWrites id c c.writes h = (k, [])) :
    let g := rtvCommitEff c k
    rtvCommit id h = (g.commitEnd id (((g.qs id).cmds.find? fun x => x.ptr = c.ptr).getD c) c.signals).runDeferred id := by
  have hplain : rtvCommit id h = h.stageCommit id rtvCommitEff := by
    rw [rtvCommit_eq hhead hwork htodo]
    obtain hop | hop | ⟨hop, hold⟩ := hop
    · rw [hop]; rfl
    · rw [hop]; rfl
    · rw [hop, Hw.compactCommit]
      dsimp only
      rw [hold]
      rfl
  exact hplain.trans (Hw.stageCommit_first _ hhead htodo hring hcredit hput)

/-- A mutation's items are applied, and its header ends the command. -/
theorem Hw.rtvMutate_ends {h k : Hw} {d : Fin 4} {q : Nat} {c : Cmd} {w : RtvWork} {items : List (List Byte)} {r : RtvRun}
    {f : Master → List Byte → Nat → RtvRun → List Byte → RtvStep RtvRun} (hq : hasQueue (.stage d .rtv) q = true)
    (hhead : h.stageCommitHead ⟨.stage d .rtv, q⟩ = some c) (htodo : c.todo = none)
    (hf : (dOpcode c.desc, f) ∈ [(0x11, insertItem), (0x12, deleteItem), (0x13, nodeItem)]) :
    let id : QId := ⟨.stage d .rtv, q⟩
    let t := (h.idx w.slot).desc w.bank
    rtvApply (f (queueMaster id) t (h.epoch w.slot)) items { h := h, slot := w.slot } = (r, [], none) →
    let g := r.touched.foldl (fun h e => h.touch (queueMaster id) e.1 e.2) r.h
    let g := (g.count (engPage id.eng) 0x070 r.full).count (engPage id.eng) 0x074 r.bad
    let w' := { w with items := [], applied := w.applied + r.applied, skips := w.skips + r.skipped, fulls := w.fulls + r.full }
    let head := (dDst c.desc, rtvHeader w'.applied w'.skips w'.fulls ((h.epoch w.slot + 1) % 0x100000000))
    let upd (c : Cmd) : Cmd := { c with work := .rtv w', writes := r.writes ++ [head], todo := some [head] }
    Hw.stageWrites id (upd c) [head] (g.updCmd id c.ptr upd) = (k, []) →
    h.rtvMutate id c w items = (k.commitEnd id (((k.qs id).cmds.find? fun x => x.ptr = c.ptr).getD (upd c)) c.signals).runDeferred id := by
  intro id t happly g₀ g w' head upd hput
  have hop : dOpcode c.desc ≠ 0x15 ∧ KeepsQueues (f (queueMaster id) t (h.epoch w.slot))
      ∧ f = (match dOpcode c.desc with | 0x11 => insertItem | 0x12 => deleteItem | _ => nodeItem) := by
    simp only [List.mem_cons, List.not_mem_nil, or_false, Prod.mk.injEq] at hf
    obtain ⟨hop, rfl⟩ | ⟨hop, rfl⟩ | ⟨hop, rfl⟩ := hf
    · rw [hop]; exact ⟨by decide, insertItem_keeps _ _ _, rfl⟩
    · rw [hop]; exact ⟨by decide, deleteItem_keeps _ _ _, rfl⟩
    · rw [hop]; exact ⟨by decide, nodeItem_keeps _ _ _, rfl⟩
  obtain ⟨hepoch, hkeeps, hfun⟩ := hop
  have hcount (k : Hw) (o n : Nat) (ho : o < 0x100) : Hw.QueuesStand k (k.count (engPage id.eng) o n) :=
    ⟨fun i => Hw.count_qs _ _ _ _ i, k.count_q _ _ _ (by omega) (.inr ho)⟩
  have htouched : Hw.QueuesStand r.h g₀ := List.foldlRecOn r.touched _ (motive := fun k => Hw.QueuesStand r.h k) (.refl _)
    fun k hk e _ => hk.trans (k.touch_stand ..)
  have hstand : Hw.QueuesStand h g := ((rtvApply_stand hkeeps happly).trans htouched).trans
    ((hcount g₀ 0x070 _ (by decide)).trans (hcount _ 0x074 _ (by decide)))
  have hnext : (g.updCmd id c.ptr upd).stageCommitHead id = some (upd c) :=
    Hw.stageCommitHead_updCmd ⟨rfl, rfl⟩ ((Hw.stageCommitHead_of_stand hstand hq).trans hhead)
  have heff : rtvCommitEff (upd c) k = k := if_neg hepoch
  have hcommit := Hw.stageCommit_going rtvCommitEff hnext rfl hput
  rw [heff] at hcommit
  refine Eq.trans ?_ hcommit
  have hrun : rtvApply (f (queueMaster id) ((h.idx w.slot).desc w.bank) (h.epoch w.slot)) items { h := h, slot := w.slot } = (r, [], none) := happly
  simp only [List.mem_cons, List.not_mem_nil, or_false, Prod.mk.injEq] at hf
  obtain ⟨hop, rfl⟩ | ⟨hop, rfl⟩ | ⟨hop, rfl⟩ := hf
  all_goals
    unfold Hw.rtvMutate
    simp only [hop, hrun, htodo]
    exact rfl

/-- A compaction whose old region is still read holds its record back. -/
theorem rtvCommit_holds {h k : Hw} {id : QId} {c : Cmd} {w : RtvWork} (hhead : h.stageCommitHead id = some c) (hwork : c.work = .rtv w)
    (htodo : c.todo = none) (hring : h.ringGate id c = true) (hcredit : h.creditGate id c = true) (hop : dOpcode c.desc = 0x14)
    (hold : h.oldProbes w (rtvOp c.desc).n (rtvOp c.desc).va = true) (hput : Hw.stageWrites id c c.writes h = (k, [])) (hwrites : c.writes ≠ []) :
    rtvCommit id h = k.updCmd id c.ptr fun c => { c with todo := some [] } := by
  have hcut : (cutWrites c.writes).length ≠ 0 := by
    obtain ⟨w, ws, hcons⟩ := List.exists_cons_of_ne_nil hwrites
    have hone : (cutWrite (w.2.length / 0x10000 + 1) w) ≠ [] := by
      unfold cutWrite
      split
      · exact List.cons_ne_nil _ _
      · exact List.cons_ne_nil _ _
    rw [hcons, cutWrites, List.flatMap_cons, List.length_append]
    have := List.length_pos_iff.mpr hone
    omega
  rw [rtvCommit_eq hhead hwork htodo, hop, Hw.compactCommit]
  simp only [hold, hring, hcredit, htodo, Option.getD_none, hput, List.length_nil]
  simp [hcut]

theorem mutationCommits : MutationCommits := by
  refine ⟨fun m t e r x dir hlist => itemsOfLists m t e r x dir hlist, ?_⟩
  intro s d q c w hup id o op t hhead htodo hwork ends
  have hcommit (hop : 0x10 ≤ op) {k : Hw} (hk : rtvCommit id s.hw = k) : exec (.stageCommitStep d .rtv q) s = .next { s with hw := k } := by
    rw [exec_rtvCommit hup hhead hop, hk]
  refine ⟨fun hop hring => hcommit hop (rtvCommit_waits hhead hwork htodo hring), fun hring hcredit => ⟨fun k hop hput => ?_, fun k hop hput => ?_,
    fun k hop hold hput hwrites => ?_, fun f r hf hn happly => ?_⟩⟩
  · have heff : rtvCommitEff c k = k.wr 0x0C1 (idxOff w.slot 0x10) (k.epoch w.slot + 1) := by
      rw [rtvCommitEff, hwork]
      exact if_pos hop
    have hend := rtvCommit_plain hhead hwork htodo hring hcredit (.inr (.inl hop)) hput
    rw [heff] at hend
    exact hcommit (hop ▸ by decide) hend
  · have hop' : op ≠ 0x15 ∧ 0x10 ≤ op := by omega
    have heff : rtvCommitEff c k = k := by
      rw [rtvCommitEff, hwork]
      exact if_neg hop'.1
    have hend := rtvCommit_plain hhead hwork htodo hring hcredit (hop.imp_right .inr) hput
    rw [heff] at hend
    exact hcommit hop'.2 hend
  · exact hcommit (hop ▸ by decide) (rtvCommit_holds hhead hwork htodo hring hcredit hop hold hput hwrites)
  · intro g₀ g w' head upd k hput
    have hop : (op = 0x11 ∨ op = 0x12 ∨ op = 0x13) := by
      simp only [List.mem_cons, List.not_mem_nil, or_false, Prod.mk.injEq] at hf
      exact hf.imp And.left (Or.imp And.left And.left)
    have hmutate : rtvCommit id s.hw = s.hw.rtvMutate id c w (cutItems (rtvItem t op) o.n w.par) := by
      rw [rtvCommit_eq hhead hwork htodo]
      obtain hop | hop | hop := hop <;> simp [show dOpcode c.desc = _ from hop, hring, hcredit, show (rtvOp c.desc).n ≠ 0 from hn, op, o, t]
    exact hcommit (by omega) (hmutate.trans (Hw.rtvMutate_ends (decide_eq_true q.isLt) hhead htodo hf happly hput))

/-- Settles O47: mutations in execution, item by item, and at their commit steps. -/
theorem retrieverMutations : Obligations.RetrieverMutations := ⟨mutations, mutationCommits⟩

end Sys2Proof.Machine
end

section
/-! PROOF of O45: index slots and searches. A flip takes the branches of its checks, and what a good one stores is read back field by field;
what a search sends names its command, so that it waits for its probes; the probes of one read are cut from those on one list. -/

namespace Sys2Proof.Machine
open Sys2Proof.Claims

/-! ### Index slots -/

theorem IdxSlot.desc_set (s : IdxSlot) (b : Nat) (d : List Byte) : (s.set b d).desc b = d := by
  unfold IdxSlot.set IdxSlot.desc
  split
  · rfl
  · rfl

theorem Hw.idx_setIdx (h : Hw) (i : Nat) (x : IdxSlot) : (h.setIdx i x).idx i = x := by
  unfold Hw.idx Hw.setIdx
  rw [alGet_alPut_same]
  rfl

/-- What the status of a flipped slot tells: bank, flag and generation. -/
theorem flipStat_fields {gen bank flag : Nat} (hgen : gen < 0x10000) (hbank : bank ≤ 1) (hflag : flag ≤ 1) :
    let v := gen + bank * 0x10000 + flag * 0x20000
    v % 0x100000000 = v ∧ bitsOf v 16 16 = bank ∧ bitOf v 17 = decide (flag = 1) ∧ bitsOf v 15 0 = gen := by
  intro v
  unfold bitsOf bitOf
  rw [Nat.testBit_eq_decide_div_mod_eq]
  refine ⟨by omega, by omega, decide_eq_decide.mpr (by omega), by omega⟩

/-- No search stays counted on a slot. -/
theorem Hw.uncount_pinned (h : Hw) (i e : Nat) : (h.uncount i).idxPinned i e = 0 := by
  unfold Hw.idxPinned
  rw [List.length_eq_zero_iff, List.filter_eq_nil_iff]
  rintro ⟨op, w⟩ hw hpin
  simp only [decide_eq_true_eq] at hpin
  obtain ⟨-, hslot, hcounted, -⟩ := hpin
  unfold Hw.rtvWorks at hw
  obtain ⟨x, hx, hw⟩ := List.mem_flatMap.mp hw
  obtain ⟨y, -, rfl⟩ := List.mem_map.mp hx
  obtain ⟨c, hc, hwork⟩ := List.mem_filterMap.mp hw
  obtain ⟨c', -, rfl⟩ := List.mem_map.mp hc
  clear hc hx hw
  split at hwork
  · next w' hw' =>
    cases hwork
    split at hw'
    · next w'' hw'' =>
      split at hw'
      · cases hw'; nomatch hcounted
      · next hne => rw [hw''] at hw'; cases hw'; exact hne hslot
    · next hno => exact hno _ hw'
  · nomatch hwork

/-- A bank's number is a bit. -/
theorem Hw.idxOther_le (h : Hw) (i : Nat) : 1 - h.idxBank i ≤ 1 := Nat.sub_le _ _

theorem indexFlips : IndexFlips := by
  intro s r d i w p n st other next gen hr
  obtain ⟨hup, hclear, hacc⟩ := hr
  have hbell : doorbell p (idxOff n 0x08) = false := by
    have hall : ∀ (d : Fin 4) (i : Fin 16), doorbell (0x0C1 + 8 * d.val) (idxOff i.val 0x08) = false := by decide
    exact hall d i
  have hexec {k : Hw} (hk : indexFlip r d i w s.hw = k) : exec (.indexFlip r d i w) s = .next { s with hw := k } := by
    show execIndexFlip r d i w s = _
    rw [execIndexFlip, State.onHw_up _ _ hup, hk]
  have hoff : idxOff n 0x10 < 0x1000 ∧ idxOff n 0x0C < 0x1000 := by have := i.isLt; unfold idxOff; omega
  have hne : idxOff n 0x0C ≠ idxOff n 0x10 := by unfold idxOff; omega
  have hgen : gen < 0x10000 := Nat.mod_lt _ (by decide)
  refine ⟨fun hrefs => hexec ?_, fun hrefs hnext => ⟨_, hexec rfl, ?_⟩, fun code hrefs hnext hread => ?_, fun desc hrefs hnext hread => ⟨fun hbad => hexec ?_, fun hgood => ⟨_, hexec rfl, ?_⟩⟩⟩
  · rw [indexFlip, Hw.guardWrite_accepted _ _ _ hclear hacc hbell]
    exact if_pos hrefs
  · rw [indexFlip, Hw.guardWrite_accepted _ _ _ hclear hacc hbell]
    dsimp only
    rw [if_neg (not_not.mpr hrefs), if_pos hnext]
    obtain ⟨hv, hbank, hloaded, hgen'⟩ := flipStat_fields (flag := 0) hgen (s.hw.idxOther_le n) (by decide)
    rw [Nat.zero_mul, Nat.add_zero] at hv hbank hloaded hgen'
    have hstat : Hw.idxStat ((s.hw.setIdx n ((s.hw.idx n).set other [])).wr 0x0C1 (idxOff n 0x0C) (gen + other * 0x10000)) n = _ :=
      (Hw.rd_wr_same ..).trans hv
    refine ⟨?_, (congrArg (bitsOf · 16 16) hstat).trans hbank, (congrArg (bitOf · 17) hstat).trans hloaded, (congrArg (bitsOf · 15 0) hstat).trans hgen', rfl⟩
    exact (congrArg (IdxSlot.desc · other) (Hw.idx_setIdx _ _ _)).trans (IdxSlot.desc_set _ _ _)
  · intro h
    refine hexec ?_
    rw [indexFlip, Hw.guardWrite_accepted _ _ _ hclear hacc hbell]
    dsimp only
    rw [if_neg (not_not.mpr hrefs), if_neg hnext, hread]
  · rw [indexFlip, Hw.guardWrite_accepted _ _ _ hclear hacc hbell]
    dsimp only
    rw [if_neg (not_not.mpr hrefs), if_neg hnext, hread]
    dsimp only
    rw [if_pos (by rw [hbad]; rfl)]
  · rw [indexFlip, Hw.guardWrite_accepted _ _ _ hclear hacc hbell]
    dsimp only
    rw [if_neg (not_not.mpr hrefs), if_neg hnext, hread]
    dsimp only
    rw [if_neg (by rw [hgood]; exact Bool.false_ne_true)]
    generalize s.hw.headerTouch d.val next 128 = h
    obtain ⟨hv, hbank, hloaded, hgen'⟩ := flipStat_fields (flag := 1) hgen (s.hw.idxOther_le n) (by decide)
    rw [Nat.one_mul] at hv hbank hloaded hgen'
    obtain ⟨g, hg⟩ : ∃ g, g = ((h.setIdx n ((h.idx n).set other desc)).wr 0x0C1 (idxOff n 0x0C) (gen + other * 0x10000 + 0x20000)).wr
      0x0C1 (idxOff n 0x10) (bnum desc 0x34 4) := ⟨_, rfl⟩
    have hstat : g.idxStat n = gen + other * 0x10000 + 0x20000 := by
      rw [hg, Hw.idxStat, Hw.rd_wr_offset _ _ hoff.1 hoff.2 hne, Hw.rd_wr_same]
      exact hv
    have hepoch : g.epoch n = bnum desc 0x34 4 % 0x100000000 := by rw [hg, Hw.epoch, Hw.rd_wr_same]
    have hdesc : g.idx n = (h.idx n).set other desc := by rw [hg]; exact h.idx_setIdx n _
    have hmem : g.mem = h.mem := by rw [hg, Hw.wr_mem, Hw.wr_mem]; rfl
    rw [← hg]
    refine ⟨(congrArg (IdxSlot.desc · other) hdesc).trans (IdxSlot.desc_set _ _ _), (congrArg (bitsOf · 16 16) hstat).trans hbank,
      (congrArg (bitOf · 17) hstat).trans hloaded, (congrArg (bitsOf · 15 0) hstat).trans hgen', hepoch, hmem,
      fun e => Hw.uncount_pinned g n e, fun x hx => of_decide_eq_true (List.mem_filter.mp hx).2⟩

/-! ### Searches -/

/-- What a search sends names its command. -/
theorem rtvRead_probes {h : Hw} {id : QId} {c : Cmd} {w : RtvWork} {par : List Byte} {qs : List RtvQuery} {probes : List Probe}
    {t : List (Nat × Nat)} (hread : rtvRead h id c w [] = .ok ((par, qs, probes), t)) : ∀ p ∈ probes, p.queue = id ∧ p.ptr = c.ptr := by
  unfold rtvRead at hread
  obtain ⟨par', _, -, hread⟩ := rx_bind_ok hread
  obtain ⟨_, _, -, hread⟩ := rx_bind_ok hread
  obtain ⟨src, _, -, hread⟩ := rx_bind_ok hread
  split at hread
  · cases hread
    exact fun p hp => (List.not_mem_nil hp).elim
  · obtain ⟨bs, _, -, hread⟩ := rx_bind_ok hread
    obtain ⟨_, _, -, hread⟩ := rx_bind_ok hread
    have hprobes := congrArg (·.1.2.2) (Except.ok.inj hread)
    dsimp only at hprobes
    rw [← hprobes]
    intro p hp
    obtain ⟨x, hx, hp⟩ := List.mem_flatMap.mp hp
    obtain ⟨i, hi, rfl⟩ := List.mem_mapIdx.mp hx
    split at hp
    · exact (List.not_mem_nil hp).elim
    · obtain ⟨l, -, rfl⟩ := List.mem_map.mp hp
      exact ⟨rfl, rfl⟩

theorem searches {s : State} {d q : Fin 4} (hup : Up s) :
    let id : QId := ⟨.stage d .rtv, q.val⟩
    (∀ c w, (s.hw.qs id).st ≠ .faultHold → s.hw.rtvNext id = none → s.hw.stageHead id 0x10 = some c → c.work = .rtv w → w.sent = true →
      (∀ p ∈ s.hw.probes, ¬ (p.queue = id ∧ p.ptr = c.ptr)) →
      let o := rtvOp c.desc
      ∀ xs t, rtvResults s.hw (queueMaster id) ((s.hw.idx w.slot).desc w.bank) o w w.queries [] = .ok (xs, t) →
        let res := xs.flatMap (·.1)
        exec (.rtvSearch d q) s = .next { s with hw := s.hw.finishCmd id c {
          result := res, writes := dstWrites c.desc res, touched := t, work := .rtv w
          counts := [(0x058, (xs.map (·.2.1)).sum), (0x060, (xs.map (·.2.2.1)).sum), (0x05C, (xs.filter (·.2.2.2)).length)]
          signals := if dSigEn c.desc then [(o.sigCore, dSigSem c.desc, 1)] else [] } })
    ∧ (∀ c w par qs probes t, (s.hw.qs id).st ≠ .faultHold → s.hw.rtvNext id = some (c, w) → s.hw.stageHead id 0x10 = some c →
      xGraph ((s.hw.idx w.slot).desc w.bank) = false → rtvRead s.hw id c w [] = .ok ((par, qs, probes), t) → probes ≠ [] →
      let h := t.foldl (fun h e => h.touch (queueMaster id) e.1 e.2) s.hw
      exec (.rtvSearch d q) s = .next { s with
        hw := { h.setWork id c.ptr (.rtv { w with par := par, sent := true, queries := qs }) with probes := h.probes ++ probes } })
    ∧ (∀ c w c' w', (s.hw.qs id).st ≠ .faultHold → s.hw.rtvNext id = some (c, w) →
      let k := s.hw.rtvBegin id c w
      k.stageHead id 0x10 = some c' → c'.work = .rtv w' → w'.sent = true → (∀ p ∈ k.probes, ¬ (p.queue = id ∧ p.ptr = c'.ptr)) →
        exec (.rtvSearch d q) s = .next { s with hw := k.rtvFinish id c' w' })
    ∧ ((s.hw.qs id).st = .faultHold → exec (.rtvSearch d q) s = .next s) := by
  intro id
  have hexec {k : Hw} (hk : rtvSearch id s.hw = k) : exec (.rtvSearch d q) s = .next { s with hw := k } := by
    show execRtvSearch d q s = _
    rw [execRtvSearch, State.onHw_up _ _ hup, hk]
  have hserved {k : Hw} {c : Cmd} {w : RtvWork} (hsent : w.sent = true) (hall : ∀ p ∈ k.probes, ¬ (p.queue = id ∧ p.ptr = c.ptr)) :
      (w.sent && !(k.probes.any fun p => p.queue = id ∧ p.ptr = c.ptr)) = true := by
    rw [hsent, List.any_eq_false.mpr fun p hp => by simpa using hall p hp]
    rfl
  refine ⟨fun c w hst hnext hhead hwork hsent hall => ?_, fun c w par qs probes t hst hnext hhead hivf hread hsome => ?_,
    fun c w c' w' hst hnext => ?_, fun hst => hexec ?_⟩
  · intro o xs t hres res
    refine hexec ?_
    rw [rtvSearch, if_neg hst, hnext]
    dsimp only
    rw [hhead]
    dsimp only
    rw [hwork]
    dsimp only
    rw [if_pos (hserved hsent hall), Hw.rtvFinish]
    dsimp only
    rw [show rtvResults s.hw (queueMaster id) _ (rtvOp c.desc) w w.queries [] = _ from hres]
  · intro h
    have hstand : Hw.QueuesStand s.hw h := List.foldlRecOn t _ (motive := fun k => Hw.QueuesStand s.hw k) (.refl _) fun k hk e _ => hk.trans (k.touch_stand ..)
    have hq : hasQueue id.eng id.q = true := decide_eq_true q.isLt
    obtain ⟨f, hf⟩ : ∃ f : Cmd → Cmd, f = fun c => { c with work := .rtv { w with par := par, sent := true, queries := qs } } := ⟨_, rfl⟩
    obtain ⟨k, hk⟩ : ∃ k : Hw, k = { h.updCmd id c.ptr f with probes := h.probes ++ probes } := ⟨_, rfl⟩
    have hbegin : s.hw.rtvBegin id c w = k := by
      rw [Hw.rtvBegin]
      dsimp only
      rw [hread]
      dsimp only
      rw [if_neg (by rw [hivf]; exact Bool.false_ne_true), hk, hf]
      exact rfl
    have hnow : k.stageHead id 0x10 = some (f c) := by
      have hkeep : Hw.QueuesStand (h.updCmd id c.ptr f) k := by rw [hk]; exact .of_eq rfl rfl
      rw [Hw.stageHead_of_stand hkeep hq]
      exact Hw.stageHead_updCmd (by rw [hf]; exact fun _ => ⟨rfl, rfl, rfl, rfl⟩) ((Hw.stageHead_of_stand hstand hq).trans hhead)
    have hasked : (k.probes.any fun p => p.queue = id ∧ p.ptr = (f c).ptr) = true := by
      obtain ⟨p, rest, hcons⟩ := List.exists_cons_of_ne_nil hsome
      obtain ⟨hqueue, hptr⟩ := rtvRead_probes hread p (by rw [hcons]; exact List.mem_cons_self ..)
      refine List.any_eq_true.mpr ⟨p, ?_, decide_eq_true ⟨hqueue, by rw [hf]; exact hptr⟩⟩
      rw [hk]
      exact List.mem_append_right _ (by rw [hcons]; exact List.mem_cons_self ..)
    have hwork : (f c).work = .rtv { w with par := par, sent := true, queries := qs } := by rw [hf]
    rw [show ({ h.setWork id c.ptr (.rtv { w with par := par, sent := true, queries := qs }) with probes := h.probes ++ probes } : Hw) = k by
      rw [hk, hf, Hw.setWork]]
    refine hexec ?_
    rw [rtvSearch, if_neg hst, hnext]
    dsimp only
    rw [hbegin, hnow]
    dsimp only
    rw [hwork]
    dsimp only
    rw [hasked]
    exact if_neg (by simp)
  · intro k hhead hwork hsent hall
    refine hexec ?_
    rw [rtvSearch, if_neg hst, hnext]
    dsimp only
    rw [hhead]
    dsimp only
    rw [hwork]
    dsimp only
    rw [if_pos (hserved hsent hall)]
  · rw [rtvSearch, if_pos hst]

/-- The probes of one read: on one list of the owner, and no more than 64. -/
theorem Hw.batchDue_cons {h : Hw} {d : Nat} {p : Probe} {rest : List Probe} (hdue : h.batchDue d = p :: rest) :
    (∀ x ∈ rest, x.list = p.list ∧ x.slot = p.slot ∧ x.bank = p.bank ∧ x.owner = d) ∧ rest.length < 64 := by
  unfold Hw.batchDue at hdue
  dsimp only at hdue
  split at hdue
  · nomatch hdue
  · next p₀ hfirst =>
    split at hdue
    · have hlen := congrArg List.length hdue
      have hmem (x : Probe) (hx : x ∈ p :: rest) : (x.list = p₀.list ∧ x.slot = p₀.slot ∧ x.bank = p₀.bank) ∧ x.owner = d := by
        rw [← hdue] at hx
        obtain ⟨hmine, hsame⟩ := List.mem_filter.mp (List.mem_of_mem_take hx)
        exact ⟨of_decide_eq_true hsame, (of_decide_eq_true (List.mem_filter.mp hmine).2).1⟩
      rw [List.length_take, List.length_cons] at hlen
      obtain ⟨⟨hl, hs, hb⟩, -⟩ := hmem p (List.mem_cons_self ..)
      refine ⟨fun x hx => ?_, by omega⟩
      obtain ⟨⟨hl', hs', hb'⟩, howner⟩ := hmem x (List.mem_cons_of_mem _ hx)
      exact ⟨hl'.trans hl.symm, hs'.trans hs.symm, hb'.trans hb.symm, howner⟩
    · nomatch hdue

/-- One read of a list serves the probes that have begun. -/
theorem listReads {s : State} {d : Fin 4} (hup : Up s) :
    (s.hw.batchDue d.val = [] → exec (.listRead d) s = .next s)
    ∧ (∀ p rest, s.hw.batchDue d.val = p :: rest →
      let page := 0x0C1 + 8 * d.val
      let mine (h : Hw) : List Probe := h.probes.filter fun x => x.snap.isSome && (h.qs x.queue).st != .faultHold
        && (p :: rest).any fun y => decide ({ x with snap := none } = { y with snap := none })
      let h := (p :: rest).foldl Hw.probeBegin s.hw
      let new := (mine h).length - (mine s.hw).length
      let one := if new = 0 then h else h.count page 0x050
      let g := if new < 2 then one else one.count page 0x054 new
      (∀ x ∈ rest, x.list = p.list ∧ x.slot = p.slot ∧ x.bank = p.bank ∧ x.owner = d.val) ∧ rest.length < 64
      ∧ (mine g = [] → exec (.listRead d) s = .next { s with hw := g })
      ∧ ∀ x l, mine g = x :: l →
        (∀ k, g.codebooks d.val x = (k, none) → exec (.listRead d) s = .next { s with hw := k })
        ∧ (∀ k bs, g.codebooks d.val x = (k, some bs) →
          exec (.listRead d) s = .next { s with hw := (mine k).foldl (fun h p => h.serveProbe d.val bs.toArray p) k })
        ∧ (∀ bs, alGet d.val g.cbTag = some ⟨x.slot, x.bank, bs⟩ → g.codebooks d.val x = (g, some bs))) := by
  have hexec {k : Hw} (hk : listRead d s.hw = k) : exec (.listRead d) s = .next { s with hw := k } := by
    show execListRead d s = _
    rw [execListRead, State.onHw_up _ _ hup, hk]
  refine ⟨fun hnone => hexec (by rw [listRead, hnone]), fun p rest hdue => ?_⟩
  intro page mine h new one g
  obtain ⟨hsame, hlen⟩ := Hw.batchDue_cons hdue
  have hread : listRead d s.hw = match (mine g).head? with
      | none => g
      | some p => match g.codebooks d.val p with
        | (h, none) => h
        | (h, some bs) => (mine h).foldl (fun h p => h.serveProbe d.val bs.toArray p) h := by
    rw [listRead, hdue]
    <;> rfl
  refine ⟨hsame, hlen, fun hnone => hexec ?_, fun x l hsome => ⟨fun k hbooks => hexec ?_, fun k bs hbooks => hexec ?_, fun bs hcache => ?_⟩⟩
  · rw [hread, hnone, List.head?_nil]
  · rw [hread, hsome, List.head?_cons]
    dsimp only
    rw [hbooks]
  · rw [hread, hsome, List.head?_cons]
    dsimp only
    rw [hbooks]
  · rw [Hw.codebooks, hcache, Option.filter_some, if_pos (by simp)]

/-- Settles O45: index flips, searches and list reads. -/
theorem retrieverSearches : Obligations.RetrieverSearches :=
  ⟨indexFlips, fun _ _ _ hup => searches hup, fun _ _ hup => listReads hup⟩

end Sys2Proof.Machine
end

section
/-! PROOF of O41 and O42: Splice and Muzzle. A vocabulary's flip takes the branches of its checks; a stream of no input goes through the text path
without a token; a MUZ_STEP's result is that of its run, and its commit is a stage unit's commit step. -/

namespace Sys2Proof.Machine
open Sys2Proof.Claims

/-! ### Vocabularies -/

theorem VocSlot.set_reads (s : VocSlot) (b : Nat) (hd : List Byte) (gen : Nat) : (s.set b hd gen).hdr b = hd ∧ (s.set b hd gen).gen b = gen := by
  unfold VocSlot.set VocSlot.hdr VocSlot.gen
  split
  · exact ⟨rfl, rfl⟩
  · exact ⟨rfl, rfl⟩

theorem vocabularyFlip : VocabularyFlip := by
  intro s r d i w p v st other next gen hr
  obtain ⟨hup, hclear, hacc⟩ := hr
  have hbell : doorbell p (0x088 + 0x10 * v) = false := by
    have hall : ∀ (d : Fin 4) (i : Fin 16), doorbell (0x0C0 + 8 * d.val) (0x088 + 0x10 * i.val) = false := by decide
    exact hall d i
  have hexec {k : Hw} (hk : vocabFlip r d i w s.hw = k) : exec (.vocabFlip r d i w) s = .next { s with hw := k } := by
    show execVocabFlip r d i w s = _
    rw [execVocabFlip, State.onHw_up _ _ hup, hk]
  have hgen : gen < 0x10000 := Nat.mod_lt _ (by decide)
  refine ⟨fun hrefs => hexec ?_, fun hrefs hnext => hexec ?_, fun code hrefs hnext hread => ?_,
    fun hd hrefs hnext hread => ⟨fun hbad => hexec ?_, fun hgood => ⟨_, hexec rfl, ?_⟩⟩⟩
  · rw [vocabFlip, Hw.guardWrite_accepted _ _ _ hclear hacc hbell]
    exact if_pos hrefs
  · rw [vocabFlip, Hw.guardWrite_accepted _ _ _ hclear hacc hbell]
    dsimp only
    rw [if_neg (not_not.mpr hrefs), if_pos hnext]
    rfl
  · intro h
    refine hexec ?_
    rw [vocabFlip, Hw.guardWrite_accepted _ _ _ hclear hacc hbell]
    dsimp only
    rw [if_neg (not_not.mpr hrefs), if_neg hnext, hread]
  · rw [vocabFlip, Hw.guardWrite_accepted _ _ _ hclear hacc hbell]
    dsimp only
    rw [if_neg (not_not.mpr hrefs), if_neg hnext, hread]
    dsimp only
    rw [if_pos (by rw [hbad]; rfl)]
  · rw [vocabFlip, Hw.guardWrite_accepted _ _ _ hclear hacc hbell]
    dsimp only
    rw [if_neg (not_not.mpr hrefs), if_neg hnext, hread]
    dsimp only
    rw [if_neg (by rw [hgood]; exact Bool.false_ne_true)]
    generalize s.hw.headerTouch d.val next 1152 = h
    obtain ⟨hv, hbank, -, -⟩ := flipStat_fields (flag := 1) hgen (show other ≤ 1 from Nat.sub_le _ _) (by decide)
    rw [Nat.one_mul] at hv hbank
    obtain ⟨g, hg⟩ : ∃ g, g = (h.setVoc v ((h.voc v).set other hd gen)).wr 0x0C0 (vocStatOff v) (gen + other * 0x10000 + 0x20000) := ⟨_, rfl⟩
    have hstat : g.vocStat v = gen + other * 0x10000 + 0x20000 := by
      rw [hg, Hw.vocStat, Hw.rd_wr_same]
      exact hv
    have hvocs : g.vocs = alPut v ((h.voc v).set other hd gen) h.vocs := by rw [hg, Hw.wr_vocs]; rfl
    have hvoc : g.voc v = (h.voc v).set other hd gen := by
      show (alGet v g.vocs).getD {} = _
      rw [hvocs, alGet_alPut_same]
      rfl
    have hmeasures : g.measures = h.measures := by rw [hg, Hw.wr_measures]; rfl
    have hmem : g.mem = h.mem := by rw [hg, Hw.wr_mem]; rfl
    have hqueues : g.queues = h.queues := by rw [hg, Hw.wr_queues]; rfl
    rw [← hg]
    obtain ⟨hhdr, hgen'⟩ := VocSlot.set_reads (h.voc v) other hd gen
    exact ⟨(congrArg (VocSlot.hdr · other) hvoc).trans hhdr, (congrArg (VocSlot.gen · other) hvoc).trans hgen',
      (congrArg (bitsOf · 16 16) hstat).trans hbank, congrArg (· ++ [Measure.vocab v gen hd]) hmeasures, hmem, hqueues⟩

/-! ### Streams -/

/-- A source of no bytes is read at once. -/
theorem rxSource_none {h : Hw} {id : QId} {c : Cmd} {a : Nat} (t : List (Nat × Nat)) (hsrc : addrForm (dSrc c.desc) = .va a) :
    rxSource h id c 0 t = .ok ([], t) := by
  unfold rxSource Hw.source srcTouch
  rw [hsrc]
  dsimp only
  rw [exRead, Hw.read, if_pos rfl]
  rfl

/-- The stream that a fresh command begins, on the bank it has taken. -/
theorem spliceStream_fresh {h : Hw} {id : QId} {c : Cmd} {slot b : Nat} {rest : List (Nat × Nat)} (detok : Bool) (t : List (Nat × Nat))
    (hfresh : (spliceOp c.desc).fresh = true) (hpins : c.pins = (slot, b) :: rest) :
    spliceStream h id c detok t = .ok ({ openBit := true, detok := detok, slot := (spliceOp c.desc).slot, bank := b,
                                         gen := (h.voc (spliceOp c.desc).slot).gen b }, t) := by
  unfold spliceStream
  dsimp only
  rw [if_pos hfresh, hpins]
  rfl

/-- A stream that holds no segment holds none of its input bytes. -/
theorem segRaws_nil {h : Hw} {va : Nat} {r : StreamRec} (hseg : r.seg = []) : segRaws h va r = [] := by
  unfold segRaws
  rw [hseg]
  split
  · next s hs =>
    have hlen := List.find?_some hs
    exact List.length_eq_zero_iff.mp (of_decide_eq_true hlen).2
  · rfl

/-- What a Splice command that begins and ends an empty stream leaves. -/
def emptyStream (h : Hw) (c : Cmd) (detok : Bool) (b e : Nat) : Done :=
  let o := spliceOp c.desc
  { result := spliceHeader 0 false false false true 0 0
    writes := [(e, spliceHeader 0 false false false true 0 0),
      (o.va, streamBytes { openBit := false, detok := detok, slot := o.slot, bank := b, gen := (h.voc o.slot).gen b })]
    hitchCounts := if detok then [(0x044, 0), (0x050, 0), (0x058, 0)] else [(0x044, 0), (0x048, 0), (0x04C, 0), (0x054, 0)]
    work := .splice o.va o.slot b true true [], signals := if dSigEn c.desc then [(o.sigCore, dSigSem c.desc, 1)] else [] }

/-- No characters give no text. -/
theorem VocRef.walk_nil (v : VocRef) (sp : List (Nat × List Byte)) (strict final : Bool) (carry : List Byte) (n : Nat) (x : Text)
    (t : List (Nat × Nat)) : v.walk sp strict final carry n [] x t = .ok ((x, []), t) := by
  cases n with
  | zero => rfl
  | succ n => rfl

theorem VocRef.closeSeg_nil (v : VocRef) {x : Text} (t : List (Nat × Nat)) (hseg : x.seg = []) : v.closeSeg x t = .ok (x, t) := by
  rw [VocRef.closeSeg, if_pos hseg]
  rfl

theorem VocRef.closePiece_nil (v : VocRef) {x : Text} (t : List (Nat × Nat)) (hpiece : x.piece = []) :
    v.closePiece x t = .ok ({ x with pieceIn := 0 }, t) := by
  rw [VocRef.closePiece, if_pos hpiece]
  rfl

section
variable {h : Hw} {id : QId} {c : Cmd} {b a e : Nat} {rest : List (Nat × Nat)}

theorem tokeniseRun_empty (hn : (spliceOp c.desc).n = 0) (hfinal : (spliceOp c.desc).final = true) (hfresh : (spliceOp c.desc).fresh = true)
    (hplain : (spliceOp c.desc).special = false) (hpins : c.pins = ((spliceOp c.desc).slot, b) :: rest)
    (hsrc : addrForm (dSrc c.desc) = .va a) (hdst : addrForm (dDst c.desc) = .va e) :
    tokeniseRun h id c [] = .ok (emptyStream h c false b e, []) := by
  have hno : ¬ ((spliceOp c.desc).n = 0 ∧ (spliceOp c.desc).final = false) := by rw [hfinal]; exact fun hall => Bool.noConfusion hall.2
  unfold tokeniseRun
  dsimp only
  rw [if_neg hno, rx_bind_eq (spliceStream_fresh false [] hfresh hpins), hn, rx_bind_eq (rxSource_none [] hsrc)]
  simp only [hplain, hfinal]
  rw [segRaws_nil rfl, if_neg Bool.false_ne_true, rx_bind_eq (show (pure [] : Rx (List (Nat × List Byte))) [] = .ok ([], []) from rfl)]
  simp only [List.append_nil, List.length_nil, utf8Decode, List.map_nil, if_true]
  rw [rx_bind_eq (VocRef.walk_nil ..)]
  dsimp only
  rw [rx_bind_eq (VocRef.closeSeg_nil _ _ rfl), rx_bind_eq (VocRef.closePiece_nil _ _ rfl), spliceDone, emptyStream, hdst, hfinal, hfresh]
  rfl

theorem detokeniseRun_empty (hn : (spliceOp c.desc).n = 0) (hfinal : (spliceOp c.desc).final = true) (hfresh : (spliceOp c.desc).fresh = true)
    (hpins : c.pins = ((spliceOp c.desc).slot, b) :: rest) (hsrc : addrForm (dSrc c.desc) = .va a) (hdst : addrForm (dDst c.desc) = .va e) :
    detokeniseRun h id c [] = .ok (emptyStream h c true b e, []) := by
  have hno : ¬ ((spliceOp c.desc).n = 0 ∧ (spliceOp c.desc).final = false) := by rw [hfinal]; exact fun hall => Bool.noConfusion hall.2
  unfold detokeniseRun
  dsimp only
  rw [if_neg hno, rx_bind_eq (spliceStream_fresh true [] hfresh hpins), hn, rx_bind_eq (rxSource_none [] hsrc)]
  rw [rx_bind_eq (show VocRef.detokAll _ _ _ (List.map _ (List.range 0)) _ [] = .ok ({ carry := [] }, []) from rfl)]
  simp only [hfinal, if_true]
  rw [rx_bind_eq (show VocRef.detokPush _ _ _ [] { carry := [] } [] = .ok ({ carry := [], out := [[]] }, []) from rfl), spliceDone, emptyStream,
    hdst, hfinal, hfresh]
  rfl

end

/-- What a Splice command of either opcode runs. -/
theorem exec_splice {s : State} (d q : Fin 4) (detok : Bool) {c c' : Cmd} {r : Done} (hup : Up s) :
    let id : QId := ⟨.stage d .spl, q.val⟩
    let h := s.hw.splicePin id c detok
    s.hw.stageHead id (if detok then 0x11 else 0x10) = some c → ((h.qs id).cmds.find? fun x => x.ptr = c.ptr).getD c = c' →
    rxRun (if detok then detokeniseRun h id c' else tokeniseRun h id c') = .ok r →
    exec (if detok then .detokenise d q else .tokenise d q) s = .next { s with hw := (h.finishCmd id c' r).openShared id c'.ptr (spliceSame c') } := by
  intro id h hhead hcmd hrun
  cases detok with
  | false =>
    show execTokenise d q s = _
    rw [execTokenise, State.onHw_up _ _ hup, Hw.spliceExec, show s.hw.stageHead ⟨.stage d .spl, q.val⟩ 0x10 = _ from hhead]
    dsimp only
    rw [show ((Hw.qs _ _).cmds.find? fun x => x.ptr = c.ptr).getD c = c' from hcmd, show rxRun (tokeniseRun _ _ c') = _ from hrun]
  | true =>
    show execDetokenise d q s = _
    rw [execDetokenise, State.onHw_up _ _ hup, Hw.spliceExec, show s.hw.stageHead ⟨.stage d .spl, q.val⟩ 0x11 = _ from hhead]
    dsimp only
    rw [show ((Hw.qs _ _).cmds.find? fun x => x.ptr = c.ptr).getD c = c' from hcmd, show rxRun (detokeniseRun _ _ c') = _ from hrun]

theorem spliceStreams : SpliceStreams := by
  intro s d q detok c hup id o op cmd run fin record signals hhead
  refine ⟨?_, fun hfind => ⟨fun hn hopen => ?_, fun b rest a e hn hfinal hfresh hplain hpins hsrc hdst _ => ?_⟩⟩
  · intro h c' r hrun
    exact exec_splice d q detok hup hhead rfl hrun
  · have hpin : s.hw.splicePin id c detok = s.hw := by
      unfold Hw.splicePin
      exact if_pos (.inr ⟨hn, hopen⟩)
    have hrun : rxRun (if detok then detokeniseRun s.hw id c else tokeniseRun s.hw id c) = .ok { signals := signals } := by
      cases detok with
      | false =>
        rw [if_neg Bool.false_ne_true, rxRun, tokeniseRun]
        dsimp only
        rw [if_pos ⟨hn, hopen⟩]
        rfl
      | true =>
        rw [if_pos rfl, rxRun, detokeniseRun]
        dsimp only
        rw [if_pos ⟨hn, hopen⟩]
        rfl
    have hexec := exec_splice (c' := c) (r := { signals := signals }) d q detok hup hhead (by rw [hpin, hfind]; rfl) (by rw [hpin]; exact hrun)
    rw [hpin] at hexec
    exact hexec
  · have hpin : s.hw.splicePin id c detok = s.hw := by
      unfold Hw.splicePin
      exact if_pos (.inl (by rw [hpins]; exact List.cons_ne_nil _ _))
    have hrun : rxRun (if detok then detokeniseRun s.hw id c else tokeniseRun s.hw id c) = .ok (emptyStream s.hw c detok b e) := by
      cases detok with
      | false =>
        rw [if_neg Bool.false_ne_true, rxRun, tokeniseRun_empty hn hfinal hfresh hplain hpins hsrc hdst]
        rfl
      | true =>
        rw [if_pos rfl, rxRun, detokeniseRun_empty hn hfinal hfresh hpins hsrc hdst]
        rfl
    have hexec := exec_splice (c' := c) (r := emptyStream s.hw c detok b e) d q detok hup hhead (by rw [hpin, hfind]; rfl) (by rw [hpin]; exact hrun)
    rw [hpin] at hexec
    exact hexec

/-- Settles O41: a vocabulary's flip, and the two commands on a stream. -/
theorem spliceCommands : Obligations.SpliceCommands := ⟨vocabularyFlip, spliceStreams⟩

/-! ### Muzzle -/

/-- What a MUZ_STEP's run gives. -/
theorem muzRun_gives {h : Hw} {id : QId} {c : Cmd} {out : List Byte} {r : Done} {t : List (Nat × Nat)} (hrun : muzRun h id c [] = .ok ((out, r), t)) :
    r.result = out ∧ r.writes.head? = some ((muzOp c.desc).va, (r.writes.headD (0, [])).2) ∧ r.code ∈ [0, cDEAD_END, cSTACK_OVERFLOW]
    ∧ r.signals = if dSigEn c.desc then [((muzOp c.desc).core, dSigSem c.desc, 1)] else [] := by
  have hcode (a b : Prop) [Decidable a] [Decidable b] : (if a then cSTACK_OVERFLOW else if b then cDEAD_END else 0) ∈ [0, cDEAD_END, cSTACK_OVERFLOW] := by
    split
    · simp
    · split <;> simp
  unfold muzRun at hrun
  obtain ⟨_, _, -, hrun⟩ := rx_bind_ok hrun
  obtain ⟨_, _, -, hrun⟩ := rx_bind_ok hrun
  obtain ⟨_, _, -, hrun⟩ := rx_bind_ok hrun
  obtain ⟨x0, _, -, hrun⟩ := rx_bind_ok hrun
  dsimp only at hrun
  by_cases himm : (muzOp c.desc).imm = true
  · rw [if_pos himm] at hrun
    obtain ⟨toks, _, -, hrun⟩ := rx_bind_ok hrun
    obtain ⟨u, _, -, hrun⟩ := rx_bind_ok hrun
    obtain ⟨f, _, -, hrun⟩ := rx_bind_ok hrun
    cases hrun
    exact ⟨rfl, rfl, hcode _ _, rfl⟩
  · rw [if_neg himm] at hrun
    obtain ⟨bs, _, -, hrun⟩ := rx_bind_ok hrun
    obtain ⟨toks, _, -, hrun⟩ := rx_bind_ok hrun
    obtain ⟨u, _, -, hrun⟩ := rx_bind_ok hrun
    obtain ⟨f, _, -, hrun⟩ := rx_bind_ok hrun
    cases hrun
    exact ⟨rfl, rfl, hcode _ _, rfl⟩

/-- Settles O42: a MUZ_STEP as its run gives it, and its commit step. -/
theorem muzzleCommands : Obligations.MuzzleCommands := by
  intro s d q c hup id
  have hexecStep {k : Hw} (hk : muzStep id s.hw = k) : exec (.muzStep d q) s = .next { s with hw := k } := by
    show execMuzStep d q s = _
    rw [execMuzStep, State.onHw_up _ _ hup, hk]
  have hexecCommit {k : Hw} (hk : muzCommit id s.hw = k) : exec (.muzCommit d q) s = .next { s with hw := k } := by
    show execMuzCommit d q s = _
    rw [execMuzCommit, State.onHw_up _ _ hup, hk]
  refine ⟨fun hhead => ⟨fun out r t hrun => ?_, fun hnone => hexecStep ?_⟩, fun va x n missed hhead hwork => ?_, fun hhead hop => ?_⟩
  · refine ⟨fun h hput => hexecStep ?_, fun h w rest hput => hexecStep ?_, muzRun_gives hrun⟩
    · rw [muzStep, hhead]
      dsimp only
      rw [hrun]
      dsimp only
      rw [hput]
      exact if_neg (not_not.mpr rfl)
    · rw [muzStep, hhead]
      dsimp only
      rw [hrun]
      dsimp only
      rw [hput]
      exact if_pos (List.cons_ne_nil _ _)
  · have hrun : muzRun s.hw id c [] = .error (.reject cCONTEXT) := by
      unfold muzRun
      dsimp only
      rw [hnone]
      rfl
    rw [muzStep, hhead]
    dsimp only
    rw [hrun]
    rfl
  · have hcommit : muzCommit id s.hw = if s.hw.waitsConfirm id c then s.hw else s.hw.stageCommit id (muzCommitEff id) := by
      rw [muzCommit, hhead]
      dsimp only
      rw [hwork]
    refine ⟨fun hwait => hexecCommit (by rw [hcommit, if_pos hwait]), fun hfree htodo => ?_⟩
    rw [if_neg (by rw [hfree]; exact Bool.false_ne_true)] at hcommit
    refine ⟨fun hring => hexecCommit ?_, fun hring hcredit => hexecCommit ?_, fun hring hcredit k hput => ?_⟩
    · rw [hcommit, Hw.stageCommit_fresh _ hhead htodo, if_pos hring]
    · rw [hcommit, Hw.stageCommit_fresh _ hhead htodo, if_neg (by rw [hring]; decide), if_pos hcredit]
    · intro g
      have heff : muzCommitEff id c k = g := by
        rw [muzCommitEff, hwork]
        cases missed <;> rfl
      have hend := Hw.stageCommit_first (muzCommitEff id) hhead htodo hring hcredit hput
      rw [heff] at hend
      exact hexecCommit (hcommit.trans hend)
  · have heng : stageEng d.val .muz = .stage d .muz := congrArg (Eng.stage · .muz) (Fin.ofNat_val_eq_self d)
    rw [hexecCommit rfl]
    show execStageCommitStep d .muz q s = _
    rw [execStageCommitStep, State.onHw_up _ _ hup, stageCommitStep, heng, hhead]
    dsimp only
    rw [if_neg (Nat.not_lt.mpr hop)]

end Sys2Proof.Machine
end

section
/-! PROOF of O38: the special-function unit. Each run is its binds one after the other; a load of microprograms gives every command that waits
for it its program, so that none waits any longer. -/

namespace Sys2Proof.Machine
open Sys2Proof.Claims

/-! ### Element functions -/

/-- The function a command names is at hand. -/
theorem sfuFunc_names {c : Cmd} {f : Nat → Eval} {k : Nat} (hready : sfuReady c = true)
    (hnames : (k < 9 ∧ f = builtin k) ∨ (9 ≤ k ∧ ∃ r, r ≠ [] ∧ c.prog = some r ∧ f = microEval r)) : sfuFunc c k = .ok f := by
  unfold sfuFunc
  rw [if_neg (by rw [hready]; exact Bool.false_ne_true)]
  obtain ⟨hlow, rfl⟩ | ⟨hhigh, r, hr, hprog, rfl⟩ := hnames
  · rw [if_pos hlow]
  · rw [if_neg (Nat.not_lt.mpr hhigh), hprog]
    cases r with
    | nil => exact absurd rfl hr
    | cons b bs => rfl

section
variable {h : Hw} {id : QId} {c : Cmd} {f : Nat → Eval} {bs aux : List Byte}

theorem sfuMapRun_reads : let o := mapOp c.desc
    o.n ≠ 0 → sfuFunc c o.func = .ok f → h.source id c 0 (elemBytes o.src o.n) = .ok bs →
    ∃ r, sfuMapRun h id c = .ok r ∧ Delivers c.desc r ∧ r.result = packElems o.dst (sfuOutAll o.dst o.dstShift ((List.range o.n).map fun i =>
      (f (sfuIn o.src o.srcShift (elemAt o.src bs.toArray i))).y)).1 := by
  intro o hn hfunc hsource
  unfold sfuMapRun
  dsimp only
  rw [if_neg hn, hfunc, exOk_bind, hsource, exOk_bind]
  refine ⟨_, rfl, ⟨rfl, rfl, rfl, rfl, rfl⟩, ?_⟩
  dsimp only
  rw [List.map_map]
  rfl

theorem sfuGatedRun_reads : let o := mapOp c.desc
    o.n * o.rows ≠ 0 → sfuFunc c o.func = .ok f → h.source id c 0 (elemBytes o.src (2 * o.n * o.rows)) = .ok bs →
    ∃ r, sfuGatedRun h id c = .ok r ∧ Delivers c.desc r
      ∧ r.result = packElems o.dst (sfuOutAll o.dst o.dstShift ((List.range (o.rows * o.n)).map fun i =>
          fmul (f (sfuIn o.src o.srcShift (elemAt o.src bs.toArray (2 * o.n * (i / o.n) + i % o.n)))).y
            (sfuIn o.src 0 (elemAt o.src bs.toArray (2 * o.n * (i / o.n) + o.n + i % o.n))))).1 := by
  intro o hn hfunc hsource
  unfold sfuGatedRun
  dsimp only
  rw [if_neg hn, hfunc, exOk_bind, hsource, exOk_bind]
  refine ⟨_, rfl, ⟨rfl, rfl, rfl, rfl, rfl⟩, ?_⟩
  dsimp only
  rw [List.map_map]
  rfl

theorem tableCheckRun_gives (hfunc : sfuFunc c (bitsOf (dword c.desc 0) 4 0) = .ok f) :
    let lo := fKey (dword c.desc 1)
    let inputs := (fKey (dword c.desc 2) - lo).toNat + 1
    let k := (List.range inputs).foldl (fun s i => checkStep (bitOf (dword c.desc 0) 5) (bitsOf (dword c.desc 3) 15 0) f s (keyCode (lo + i))) {}
    ∃ r, tableCheckRun c = .ok r ∧ Delivers c.desc r
      ∧ r.result = leBytes 4 inputs ++ leBytes 4 k.viol ++ leBytes 4 k.seams ++ leBytes 4 k.recs.length ++ k.recs.reverse.flatten
      ∧ r.hitchCounts = [(0x468, k.seams)] := by
  intro lo inputs k
  unfold tableCheckRun
  dsimp only
  rw [hfunc, exOk_bind]
  exact ⟨_, rfl, ⟨rfl, rfl, rfl, rfl, rfl⟩, rfl, rfl⟩

/-! ### Row functions -/

theorem softmaxRun_reads : let o := softOp c.desc
    ¬ (o.n = 0 ∧ o.rows = 0) → sfuReady c = true → h.source id c 0 (elemBytes o.src (o.rows * o.n)) = .ok bs →
    (o.mode = 2 → exRead h (queueMaster id) o.cVa (4 * o.rows) = .ok aux) → (o.mode ≠ 2 → aux = []) →
    let row (i : Nat) := softRow o.mode o.k (bnum aux (4 * i) 4)
      ((List.range o.n).map fun j => sfuIn o.src o.srcShift (elemAt o.src bs.toArray (i * o.n + j)))
    let vals := packElems o.dst (sfuOutAll o.dst o.dstShift ((List.range o.rows).flatMap fun i => (row i).ys)).1
    ∃ r, softmaxRun h id c = .ok r ∧ Delivers c.desc r
      ∧ r.result = (if o.mode = 1 then padTo 16 vals ++ (List.range o.rows).flatMap fun i => leBytes 4 (row i).m ++ leBytes 4 (row i).s else vals) := by
  intro o hsome hready hsource haux hnone row vals
  unfold softmaxRun
  dsimp only
  rw [if_neg hsome, if_neg (by rw [hready]; exact Bool.false_ne_true), hsource, exOk_bind]
  by_cases hmode : (softOp c.desc).mode = 2
  · rw [if_pos hmode, haux hmode, exOk_bind]
    refine ⟨_, rfl, ⟨rfl, rfl, rfl, rfl, rfl⟩, ?_⟩
    dsimp only
    rw [List.flatMap_map, List.flatMap_map]
  · obtain rfl := hnone hmode
    rw [if_neg hmode, exOk_bind]
    refine ⟨_, rfl, ⟨rfl, rfl, rfl, rfl, rfl⟩, ?_⟩
    dsimp only
    rw [List.flatMap_map, List.flatMap_map]

theorem statsMergeRun_reads : let parts := mergeParts c.desc
    let rows := mergeRows c.desc
    parts * rows ≠ 0 → sfuReady c = true → h.source id c 0 (8 * parts * rows) = .ok bs →
    let part (p i : Nat) : Nat × Nat :=
      (elemAt fmFP32 bs.toArray (2 * (p * rows + i)), elemAt fmFP32 bs.toArray (2 * (p * rows + i) + 1))
    let factors (i : Nat) := (mergeRow (dword c.desc 3) ((List.range parts).map fun p => part p i)).1
    ∃ r, statsMergeRun h id c = .ok r ∧ Delivers c.desc r
      ∧ r.result = (List.range parts).flatMap fun p => (List.range rows).flatMap fun i => leBytes 4 ((factors i).getD p 0) := by
  intro parts rows hsome hready hsource part factors
  unfold statsMergeRun
  dsimp only
  rw [if_neg hsome, if_neg (by rw [hready]; exact Bool.false_ne_true), hsource, exOk_bind]
  refine ⟨_, rfl, ⟨rfl, rfl, rfl, rfl, rfl⟩, ?_⟩
  dsimp only
  simp only [List.flatMap_map]
  rfl

theorem rowNormRun_reads : let no := normOp c.desc
    no.len * no.rows ≠ 0 → sfuReady c = true → h.source id c 0 (elemBytes no.src (no.rows * no.len)) = .ok bs →
    exRead h (queueMaster id) no.gain no.gainBytes = .ok aux →
    let vec (i0 : Nat) : List Nat := (List.range no.len).map fun i => f32 (decode fmBF16 (elemAt fmBF16 aux.toArray (i0 + i)))
    let row (i : Nat) := normRow no (vec 0) (if no.bias then vec no.len else [])
      ((List.range no.len).map fun j => sfuIn no.src no.srcShift (elemAt no.src bs.toArray (i * no.len + j)))
    ∃ r, rowNormRun h id c = .ok r ∧ Delivers c.desc r
      ∧ r.result = packElems no.dst (sfuOutAll no.dst no.dstShift ((List.range no.rows).flatMap row)).1 := by
  intro no hsome hready hsource haux vec row
  unfold rowNormRun
  dsimp only
  rw [if_neg hsome, if_neg (by rw [hready]; exact Bool.false_ne_true), hsource, exOk_bind, haux, exOk_bind]
  refine ⟨_, rfl, ⟨rfl, rfl, rfl, rfl, rfl⟩, ?_⟩
  dsimp only
  rw [List.flatMap_map]

end

theorem specialFunctions : SpecialFunctions := by
  intro s n q c f bs hup id o names x packed
  have hexec {op : Nat} {cmd : Instr} {run : Hw → Cmd → Ex Done} {r : Done} (hcmd : exec cmd s = .next (s.onHw fun h => h.execCore id op run))
      (hhead : (s.hw.running id op).head? = some c) (hrun : run s.hw c = .ok r) : exec cmd s = .next { s with hw := s.hw.finishCmd id c r } := by
    rw [hcmd, State.onHw_up _ _ hup, s.hw.execCore_head hhead hrun]
  have hmap {r : Done} (hhead : (s.hw.running id 0x60).head? = some c) (hrun : sfuMapRun s.hw id c = .ok r) := hexec (cmd := .sfuMap n q) rfl hhead hrun
  have hgated {r : Done} (hhead : (s.hw.running id 0x61).head? = some c) (hrun : sfuGatedRun s.hw id c = .ok r) :=
    hexec (cmd := .sfuGated n q) rfl hhead hrun
  refine ⟨fun hhead => ⟨fun hzero => hmap hhead ?_, fun hn hnames hsource => ?_⟩, fun hhead => ⟨fun hzero => hgated hhead ?_, fun hn hnames hsource => ?_⟩,
    fun hhead hnames => ?_⟩
  · unfold sfuMapRun
    exact if_pos hzero
  · obtain ⟨r, hrun, hgives⟩ := sfuMapRun_reads hn (sfuFunc_names hnames.1 hnames.2) hsource
    exact ⟨r, hmap hhead hrun, hgives⟩
  · unfold sfuGatedRun
    exact if_pos hzero
  · obtain ⟨r, hrun, hgives⟩ := sfuGatedRun_reads hn (sfuFunc_names hnames.1 hnames.2) hsource
    exact ⟨r, hgated hhead hrun, hgives⟩
  · obtain ⟨r, hrun, hgives⟩ := tableCheckRun_gives (sfuFunc_names hnames.1 hnames.2)
    exact ⟨r, hexec (cmd := .tableCheck n q) rfl hhead hrun, hgives⟩

theorem rowFunctions : RowFunctions := by
  intro s n q c bs aux hup id m fin so no parts rows
  have hexec {op : Nat} {cmd : Instr} {run : Hw → Cmd → Ex Done} {r : Done} (hcmd : exec cmd s = .next (s.onHw fun h => h.execCore id op run))
      (hhead : (s.hw.running id op).head? = some c) (hrun : run s.hw c = .ok r) : exec cmd s = fin r := by
    rw [hcmd, State.onHw_up _ _ hup, s.hw.execCore_head hhead hrun]
  have hsoft {r : Done} (hhead : (s.hw.running id 0x62).head? = some c) (hrun : softmaxRun s.hw id c = .ok r) := hexec (cmd := .softmax n q) rfl hhead hrun
  have hmerge {r : Done} (hhead : (s.hw.running id 0x63).head? = some c) (hrun : statsMergeRun s.hw id c = .ok r) :=
    hexec (cmd := .statsMerge n q) rfl hhead hrun
  have hnorm {r : Done} (hhead : (s.hw.running id 0x64).head? = some c) (hrun : rowNormRun s.hw id c = .ok r) := hexec (cmd := .rowNorm n q) rfl hhead hrun
  refine ⟨fun hhead => ⟨fun hzero => hsoft hhead ?_, fun hsome hready hsource haux hnone => ?_⟩,
    fun hhead => ⟨fun hzero => hmerge hhead ?_, fun hsome hready hsource => ?_⟩,
    fun hhead => ⟨fun hzero => hnorm hhead ?_, fun hsome hready hsource haux => ?_⟩⟩
  · unfold softmaxRun
    exact if_pos hzero
  · intro row vals
    obtain ⟨r, hrun, hgives⟩ := softmaxRun_reads hsome hready hsource haux hnone
    exact ⟨r, hsoft hhead hrun, hgives⟩
  · unfold statsMergeRun
    exact if_pos hzero
  · intro part factors
    obtain ⟨r, hrun, hgives⟩ := statsMergeRun_reads hsome hready hsource
    exact ⟨r, hmerge hhead hrun, hgives⟩
  · unfold rowNormRun
    exact if_pos hzero
  · intro vec row
    obtain ⟨r, hrun, hgives⟩ := rowNormRun_reads hsome hready hsource haux
    exact ⟨r, hnorm hhead hrun, hgives⟩

/-! ### MICROPROGRAM_LOAD -/

/-- The word that marks the well-formed records has record `i`'s mark in bit `i`. -/
theorem foldr_marks_testBit (f : List Byte → Bool) (rs : List (List Byte)) (i : Nat) (hi : i < rs.length) :
    (rs.foldr (fun r acc => 2 * acc + (if f r then 1 else 0)) 0).testBit i = f (rs.getD i []) := by
  induction rs generalizing i with
  | nil => exact absurd hi (Nat.not_lt_zero i)
  | cons r rs ih =>
    cases i with
    | zero =>
      rw [List.foldr_cons, Nat.testBit_zero, List.getD_cons_zero]
      cases f r
      · rw [if_neg Bool.false_ne_true]
        exact decide_eq_false (by omega)
      · rw [if_pos rfl]
        exact decide_eq_true (by omega)
    | succ i =>
      rw [List.foldr_cons, Nat.testBit_succ, List.getD_cons_succ]
      have hhalf (x b : Nat) (hb : b < 2) : (2 * x + b) / 2 = x := by omega
      rw [hhalf _ _ (by split <;> decide)]
      exact ih i (Nat.lt_of_succ_lt_succ hi)

/-- The program that a load gives a command: the record its func names, or none where that is no valid one (R204). -/
def sfuProgram (valid : Nat) (slots : List (List Byte)) (c : Cmd) : List Byte :=
  match sfuFuncOf c.desc with
  | some f => if f < 16 ∨ !bitOf valid (f - 16) then [] else slots.getD (f - 16) []
  | none => []

/-- Gives each command of a list the program that `f` gives it. -/
def Hw.giveProgs (h : Hw) (f : Cmd → List Byte) (xs : List (QId × Cmd)) : Hw :=
  xs.foldl (fun h x => h.updCmd x.1 x.2.ptr fun c => { c with prog := some (f c) }) h

section
variable (f : Cmd → List Byte)

theorem Hw.giveProgs_regs (h : Hw) (xs : List (QId × Cmd)) : (h.giveProgs f xs).regs = h.regs := by
  induction xs generalizing h with
  | nil => rfl
  | cons x xs ih => exact (ih _).trans rfl

theorem Hw.giveProgs_sfu (h : Hw) (xs : List (QId × Cmd)) : (h.giveProgs f xs).sfu = h.sfu := by
  induction xs generalizing h with
  | nil => rfl
  | cons x xs ih => exact (ih _).trans rfl

theorem Hw.giveProgs_descs (h : Hw) (xs : List (QId × Cmd)) (id : QId) :
    ((h.giveProgs f xs).qs id).cmds.map (·.desc) = (h.qs id).cmds.map (·.desc) := by
  induction xs generalizing h with
  | nil => rfl
  | cons x xs ih =>
    refine (ih _).trans ?_
    by_cases hid : id = x.1
    · rw [hid, Hw.updCmd_qs_same, List.map_map]
      exact List.map_congr_left fun c _ => by rw [Function.comp_apply]; split <;> rfl
    · rw [Hw.updCmd_qs_other _ _ _ hid]

/-- A command that is given its programs and still waits was there before, and is none of those that are given one. -/
theorem Hw.giveProgs_waits (h : Hw) {xs : List (QId × Cmd)} {id : QId} {c : Cmd} (hc : c ∈ ((h.giveProgs f xs).qs id).cmds)
    (hwaits : sfuReady c = false) : c ∈ (h.qs id).cmds ∧ ∀ x ∈ xs, x.1 = id → x.2.ptr ≠ c.ptr := by
  induction xs generalizing h with
  | nil => exact ⟨hc, fun x hx => absurd hx List.not_mem_nil⟩
  | cons x xs ih =>
    obtain ⟨hmem, hrest⟩ := ih _ hc
    by_cases hid : id = x.1
    · rw [hid, Hw.updCmd_qs_same, List.mem_map] at hmem
      obtain ⟨d, hd, hdc⟩ := hmem
      by_cases hptr : d.ptr = x.2.ptr
      · rw [if_pos hptr] at hdc
        rw [← hdc, sfuReady, Option.isSome_some, Bool.or_true] at hwaits
        exact absurd hwaits Bool.noConfusion
      · rw [if_neg hptr] at hdc
        subst hdc
        refine ⟨hid ▸ hd, fun y hy hyid => ?_⟩
        rcases List.mem_cons.1 hy with rfl | hy
        · exact Ne.symm hptr
        · exact hrest y hy hyid
    · rw [Hw.updCmd_qs_other _ _ _ hid] at hmem
      refine ⟨hmem, fun y hy hyid => ?_⟩
      rcases List.mem_cons.1 hy with rfl | hy
      · exact absurd hyid.symm hid
      · exact hrest y hy hyid

end

/-- The commands that wait for a table, one by one. -/
theorem Hw.mem_sfuWaiters (h : Hw) (n va : Nat) (x : QId × Cmd) : x ∈ h.sfuWaiters n va ↔ x.1 ∈ engQs (coreEng n) ∧ x.2 ∈ (h.qs x.1).cmds
    ∧ (!x.2.finished && !x.2.skipped && isSfuOp (dOpcode x.2.desc) && !sfuReady x.2 && ctxMicrograms x.2.ctx == va) = true := by
  obtain ⟨id, c⟩ := x
  simp only [Hw.sfuWaiters, List.mem_flatMap, List.mem_map, List.mem_filter, Prod.mk.injEq]
  constructor
  · rintro ⟨_, hid, _, hc, rfl, rfl⟩
    exact ⟨hid, hc⟩
  · rintro ⟨hid, hc⟩
    exact ⟨id, hid, c, hc, rfl, rfl⟩

/-- Once those that wait for a table have their programs, none waits for it. -/
theorem Hw.giveProgs_sfuWaiters (h : Hw) (f : Cmd → List Byte) (n va : Nat) : (h.giveProgs f (h.sfuWaiters n va)).sfuWaiters n va = [] := by
  rw [List.eq_nil_iff_forall_not_mem]
  intro x hx
  obtain ⟨hid, hc, hwaits⟩ := (Hw.mem_sfuWaiters _ n va x).1 hx
  have hready : sfuReady x.2 = false := by
    simp only [Bool.and_eq_true, Bool.not_eq_true'] at hwaits
    exact hwaits.1.2
  obtain ⟨hbefore, hnone⟩ := h.giveProgs_waits f hc hready
  exact hnone x ((h.mem_sfuWaiters n va x).2 ⟨hid, hbefore, hwaits⟩) rfl rfl

/-- What the end of a load leaves (R203). -/
theorem Hw.sfuLoad_gives (h : Hw) (m : Master) (n va count : Nat) (bs : List Byte) (k : Hw) (hk : h.sfuLoad m n va count bs = k) :
    let slots := (List.range count).map fun i => (bs.drop (2560 * i)).take 2560
    k.sfuStore n = { h.sfuStore n with slots := slots, loaded := true, stale := false }
      ∧ (∀ i < count, i < 32 → k.bit (corePage n) 0x44C i = recordGood (slots.getD i []))
      ∧ k.rd64 (corePage n) 0x450 = va % 2 ^ 64 ∧ k.sfuWaiters n va = []
      ∧ ∀ id, (k.qs id).cmds.map (·.desc) = (h.qs id).cmds.map (·.desc) := by
  intro slots
  have htouch := h.touch_access m va (2560 * count)
  generalize hg : h.touch m va (2560 * count) = g at htouch
  obtain ⟨valid, hvalid⟩ : ∃ v, v = slots.foldr (fun r acc => 2 * acc + (if recordGood r then 1 else 0)) 0 := ⟨_, rfl⟩
  obtain ⟨j, hj⟩ : ∃ j, j = ((((g.setSfu n { g.sfuStore n with slots := slots, loaded := true, stale := false }).wr (corePage n) 0x44C valid).wr64
    (corePage n) 0x450 va).count (corePage n) 0x464) := ⟨_, rfl⟩
  have hkf : k = j.giveProgs (sfuProgram valid slots) (j.sfuWaiters n va) := by
    rw [← hk, hj, hvalid, ← hg]
    exact rfl
  generalize sfuProgram valid slots = f at hkf
  have hbits : j.rd (corePage n) 0x44C = valid % 2 ^ 32 := by
    rw [hj, Hw.count, Hw.rd_wr_apart _ _ _ _ (by decide) (by decide) (by decide), Hw.rd_wr64_apart _ _ _ _ (by decide) (by decide) (by decide) (by decide),
      Hw.rd_wr_same]
    exact rfl
  have hva : j.rd64 (corePage n) 0x450 = va % 2 ^ 64 := by
    rw [hj, Hw.count, Hw.rd64, Hw.rd_wr_apart _ _ _ _ (by decide) (by decide) (by decide), Hw.rd_wr_apart _ _ _ _ (by decide) (by decide) (by decide)]
    exact Hw.rd64_wr64_same _ _ _ (by decide)
  have hsfu : j.sfu = alPut n { g.sfuStore n with slots := slots, loaded := true, stale := false } g.sfu := by
    rw [hj, Hw.count_sfu, Hw.wr64, Hw.wr_sfu, Hw.wr_sfu, Hw.wr_sfu, Hw.setSfu]
  have hqs : j.queues = h.queues := by
    rw [hj, Hw.count_queues, Hw.wr64, Hw.wr_queues, Hw.wr_queues, Hw.wr_queues, Hw.setSfu, htouch]
  have hsame : g.sfuStore n = h.sfuStore n := by rw [Hw.sfuStore, Hw.sfuStore, htouch]
  have hregs : k.regs = j.regs := hkf ▸ j.giveProgs_regs f _
  rw [hsame] at hsfu
  refine ⟨?_, fun i hi hi32 => ?_, (?_ : k.rd64 _ _ = _), ?_, fun id => ?_⟩
  · rw [Hw.sfuStore, hkf, j.giveProgs_sfu, hsfu, alGet_alPut_same, Option.getD_some]
  · have hlen : i < slots.length := by rw [List.length_map, List.length_range]; exact hi
    rw [Hw.bit, Hw.rd_of_regs hregs, hbits, Nat.testBit_mod_two_pow, decide_eq_true hi32, Bool.true_and, hvalid, foldr_marks_testBit _ _ _ hlen]
  · rw [Hw.rd64, Hw.rd_of_regs hregs, Hw.rd_of_regs hregs]
    exact hva
  · rw [hkf]
    exact j.giveProgs_sfuWaiters f n va
  · rw [hkf, j.giveProgs_descs]
    rw [Hw.qs, hqs, Hw.qs]

theorem microprograms : Microprograms := by
  refine ⟨fun s n q hup => ?_, fun s r n v hreach => ?_⟩
  · intro m
    have hexec {k : Hw} (hk : microprogramLoad n q s.hw = k) : exec (.microprogramLoad n q) s = .next { s with hw := k } := by
      show execMicroprogramLoad n q s = _
      rw [execMicroprogramLoad, State.onHw_up _ _ hup, hk]
    refine ⟨fun hnone => hexec ?_, fun l hl => ⟨fun bs hread => ?_, fun cause level va x rest hread hwait => hexec ?_⟩⟩
    · have hfind : (s.hw.sfuStore n.val).loads.find? (fun l => l.q == q) = none :=
        List.find?_eq_none.2 fun l hl => by rw [beq_iff_eq]; exact hnone l hl
      unfold microprogramLoad
      dsimp only
      rw [hfind]
    · intro slots
      obtain ⟨k, hk⟩ : ∃ k, (s.hw.setSfu n.val { s.hw.sfuStore n.val with loads := (s.hw.sfuStore n.val).loads.erase l }).sfuLoad m n.val l.va l.count
        bs = k := ⟨_, rfl⟩
      obtain ⟨hstore, hmarks, hva, hwait, hdescs⟩ := Hw.sfuLoad_gives _ _ _ _ _ _ _ hk
      refine ⟨k, hexec (Eq.trans ?_ hk), ?_, hmarks, hva, hwait, hdescs⟩
      · unfold microprogramLoad
        dsimp only
        rw [hl]
        dsimp only
        rw [hread]
      · rw [hstore, Hw.sfuStore, Hw.setSfu, alGet_alPut_same, Option.getD_some]
    · unfold microprogramLoad
      dsimp only
      rw [hl]
      dsimp only
      rw [hread, hwait]
      exact rfl
  · obtain ⟨hup, hclear, hacc⟩ := hreach
    show execSfuInvalidate r n v s = _
    have hbell : doorbell (corePage n.val) 0x444 = false := by
      have hall : ∀ n : Fin 48, doorbell (corePage n.val) 0x444 = false := by decide
      exact hall n
    rw [execSfuInvalidate, State.onHw_up _ _ hup, sfuInvalidate, Hw.guardWrite_accepted _ _ _ hclear hacc hbell]

/-- Settles O38: each command's reads and its run give the result, and a load gives every command that waits its program. -/
theorem specialFunctionResults : Obligations.SpecialFunctionResults := ⟨specialFunctions, rowFunctions, microprograms⟩

end Sys2Proof.Machine
end

section
/-! PROOF of O43: embedding table slots, free rings and generations. A flip takes the branches of its checks, and what a good one stores is
read back field by field; PUBLISH has no words to write, so that its commit step goes straight to its end. -/

namespace Sys2Proof.Machine
open Sys2Proof.Claims

/-! ### Table slots -/

theorem TblSlot.set_reads (s : TblSlot) (b : Nat) (d : List Byte) (r : List (Nat × Nat)) : (s.set b d r).desc b = d ∧ (s.set b d r).bases b = r := by
  unfold TblSlot.set TblSlot.desc TblSlot.bases
  split
  · exact ⟨rfl, rfl⟩
  · exact ⟨rfl, rfl⟩

theorem Hw.tbl_setTbl (h : Hw) (t : Nat) (x : TblSlot) : (h.setTbl t x).tbl t = x := by
  rw [Hw.tbl, Hw.setTbl, alGet_alPut_same, Option.getD_some]

/-- What a good flip leaves of its slot: the descriptor, the bases, the bank, the flag and the generation. -/
theorem Hw.tblFlipped (h : Hw) (t : Nat) {other gen : Nat} (desc : List Byte) (bases : List (Nat × Nat)) (hgen : gen < 0x10000) (hbank : other ≤ 1) :
    ∃ k : Hw, (h.setTbl t ((h.tbl t).set other desc bases)).wr 0x0C2 (tblOff t 0x0C) (gen + other * 0x10000 + 0x20000) = k
      ∧ (k.tbl t).desc other = desc ∧ (k.tbl t).bases other = bases ∧ k.tblGen t = gen ∧ k.tblBank t = other ∧ k.tblLoaded t = true
      ∧ k.mem = h.mem ∧ k.queues = h.queues := by
  obtain ⟨k, hk⟩ : ∃ k, (h.setTbl t ((h.tbl t).set other desc bases)).wr 0x0C2 (tblOff t 0x0C) (gen + other * 0x10000 + 0x20000) = k := ⟨_, rfl⟩
  obtain ⟨hv, hother, hloaded, hgen'⟩ := flipStat_fields (flag := 1) hgen hbank (by decide)
  rw [Nat.one_mul] at hv hother hloaded hgen'
  have hstat : k.tblStat t = gen + other * 0x10000 + 0x20000 := by rw [← hk, Hw.tblStat, Hw.rd_wr_same]; exact hv
  have hslot : k.tbl t = (h.tbl t).set other desc bases := by
    rw [Hw.tbl, ← hk, Hw.wr_tbls]
    exact h.tbl_setTbl t _
  obtain ⟨hdesc, hbases⟩ := (h.tbl t).set_reads other desc bases
  have hmem : k.mem = h.mem := by rw [← hk, Hw.wr_mem, Hw.setTbl]
  have hqueues : k.queues = h.queues := by rw [← hk, Hw.wr_queues, Hw.setTbl]
  exact ⟨k, hk, (congrArg (TblSlot.desc · other) hslot).trans hdesc, (congrArg (TblSlot.bases · other) hslot).trans hbases,
    (congrArg (bitsOf · 15 0) hstat).trans hgen', (congrArg (bitsOf · 16 16) hstat).trans hother, (congrArg (bitOf · 17) hstat).trans hloaded,
    hmem, hqueues⟩

theorem tableFlips : TableFlips := by
  intro s r d i w p t st other next gen bad hr
  obtain ⟨hup, hclear, hacc⟩ := hr
  have hbell : doorbell p (tblOff t 0x08) = false := by
    have hall : ∀ (d : Fin 4) (i : Fin 64), doorbell (0x0C2 + 8 * d.val) (tblOff i.val 0x08) = false := by decide
    exact hall d i
  have hgen : gen < 0x10000 := Nat.mod_lt _ (by decide)
  have hbank : other ≤ 1 := Nat.sub_le _ _
  have hexec {k : Hw} (hk : tableFlip r d i w s.hw = k) : exec (.tableFlip r d i w) s = .next { s with hw := k } := by
    show execTableFlip r d i w s = _
    rw [execTableFlip, State.onHw_up _ _ hup, hk]
  refine ⟨fun hrefs => hexec ?_, fun hrefs hnext => hexec ?_, fun code hrefs hnext hread => hexec ?_, fun desc hrefs hnext hread => ?_⟩
  · rw [tableFlip, Hw.guardWrite_accepted _ _ _ hclear hacc hbell]
    exact if_pos hrefs
  · rw [tableFlip, Hw.guardWrite_accepted _ _ _ hclear hacc hbell]
    dsimp only
    rw [if_neg (not_not.mpr hrefs), if_pos hnext]
  · rw [tableFlip, Hw.guardWrite_accepted _ _ _ hclear hacc hbell]
    dsimp only
    rw [if_neg (not_not.mpr hrefs), if_neg hnext, hread]
  · intro h
    have hflip : tableFlip r d i w s.hw = if !tblDescGood (h.rd 0x000 0x094) desc then
          ((h.wr 0x0C2 (tblOff t 0x0C) (putBit st 19 true)).err p (4 * t) cFORMAT).raise p 8
        else match (if tResident desc then h.capture d.val (tRanges desc) else .ok []) with
          | .error code => ((h.wr 0x0C2 (tblOff t 0x0C) (putBit st 19 true)).err p (4 * t) code).raise p 8
          | .ok bases => (h.setTbl t ((h.tbl t).set other desc bases)).wr 0x0C2 (tblOff t 0x0C) (gen + other * 0x10000 + 0x20000) := by
      rw [tableFlip, Hw.guardWrite_accepted _ _ _ hclear hacc hbell]
      dsimp only
      rw [if_neg (not_not.mpr hrefs), if_neg hnext, hread]
      <;> rfl
    refine ⟨fun hbad => hexec ?_, fun code hgood hres hcap => hexec ?_, fun hgood hres => ?_, fun bases hgood hres hcap => ?_⟩
    · rw [hflip, if_pos (by rw [hbad]; rfl)]
    · rw [hflip, if_neg (by rw [hgood]; exact Bool.false_ne_true), if_pos hres, hcap]
    · obtain ⟨k, hk, hfields⟩ := h.tblFlipped t desc [] hgen hbank
      refine ⟨k, hexec ?_, hfields⟩
      rw [hflip, if_neg (by rw [hgood]; exact Bool.false_ne_true), if_neg (by rw [hres]; exact Bool.false_ne_true)]
      exact hk
    · obtain ⟨k, hk, hdesc, hbases, hgen', -, hloaded, -, -⟩ := h.tblFlipped t desc bases hgen hbank
      refine ⟨k, hexec ?_, hdesc, hbases, hgen', hloaded⟩
      rw [hflip, if_neg (by rw [hgood]; exact Bool.false_ne_true), if_pos hres, hcap]
      exact hk

/-! ### The free ring -/

theorem freeRing : FreeRing := by
  intro s t hup
  have hexec {k : Hw} (hk : (s.hw.freePut t.val none).1 = k) : exec (.freeRingWrite t) s = .next { s with hw := k } := by
    show execFreeRingWrite t s = _
    rw [execFreeRingWrite, State.onHw_up _ _ hup, freeRingWrite, hk]
  refine ⟨fun hnone => hexec (by rw [Hw.freePut, hnone]), fun f hdue => ?_⟩
  intro m tail o bs
  have hput : s.hw.freePut t.val none = if s.hw.isHeld m then (s.hw, none)
      else match (if f.key.isSome then Except.ok [] else s.hw.place m (f.va + o) bs) with
        | .error (.fault cause level va) => (s.hw.postFault m cause level va true 0 true, none)
        | .error _ => (s.hw, none)
        | .ok _ =>
          let h := s.hw.tblWrite m (f.va + o) (f.key.map (· + o)) bs
          ({ h.wr 0x0C2 (tblOff t.val 0x18) (tail + 1) with frees := h.frees.erase f }, some (f.va + o, bs)) := by
    rw [Hw.freePut, hdue]
    <;> rfl
  refine ⟨fun hheld => hexec ?_, fun hfree hplace => ?_, fun cause level va hfree hkey hfault => hexec ?_⟩
  · rw [hput, if_pos hheld]
  · intro h
    obtain ⟨x, hx⟩ : ∃ x, (if f.key.isSome then Except.ok [] else s.hw.place m (f.va + o) bs) = .ok x := by
      by_cases hkey : f.key.isSome = true
      · exact ⟨_, if_pos hkey⟩
      · obtain ⟨b, hb⟩ := hplace.resolve_left hkey
        exact ⟨b, (if_neg hkey).trans hb⟩
    refine hexec ?_
    rw [hput, if_neg (by rw [hfree]; exact Bool.false_ne_true), hx]
  · rw [hput, if_neg (by rw [hfree]; exact Bool.false_ne_true), if_neg (by rw [hkey]; exact Bool.false_ne_true), hfault]

/-! ### Generations -/

/-- An entry of ROW_PUT that is no stamp, on the row's directory entry. -/
theorem putRow_entry (e : DirEnt) (c slot pool : Nat) (del : Bool) :
    ∃ e' disp, putRow e c false del slot pool = some (e', disp)
      ∧ e'.gen = (c + 1) % 0x10000 ∧ e'.valid = !del ∧ e'.moving = e.moving
      ∧ (del = false → e'.slot = slot ∧ e'.pool = pool)
      ∧ (e.gen ≠ (c + 1) % 0x10000 → e'.pSlot = e.slot ∧ e'.pPool = e.pool ∧ e'.pGen = e.gen ∧ e'.hasPrev = e.valid
        ∧ disp = if e.hasPrev then [(e.pSlot, e.pPool)] else [])
      ∧ (e.gen = (c + 1) % 0x10000 → e'.pSlot = e.pSlot ∧ e'.hasPrev = e.hasPrev ∧ disp = if e.valid then [(e.slot, e.pool)] else []) := by
  unfold putRow
  dsimp only
  rw [if_neg Bool.false_ne_true]
  by_cases hgen : e.gen = (c + 1) % 0x10000
  · rw [if_neg (not_not.mpr hgen)]
    cases del
    · exact ⟨_, _, rfl, hgen, rfl, rfl, fun _ => ⟨rfl, rfl⟩, fun hne => absurd hgen hne, fun _ => ⟨rfl, rfl, rfl⟩⟩
    · exact ⟨_, _, rfl, hgen, rfl, rfl, fun hdel => absurd hdel (by decide), fun hne => absurd hgen hne, fun _ => ⟨rfl, rfl, rfl⟩⟩
  · rw [if_pos hgen]
    cases del
    · exact ⟨_, _, rfl, rfl, rfl, rfl, fun _ => ⟨rfl, rfl⟩, fun _ => ⟨rfl, rfl, rfl, rfl, rfl⟩, fun heq => absurd heq hgen⟩
    · exact ⟨_, _, rfl, rfl, rfl, rfl, fun hdel => absurd hdel (by decide), fun _ => ⟨rfl, rfl, rfl, rfl, rfl⟩, fun heq => absurd heq hgen⟩

/-- The commit step of an EMB that neither waits for a confirmation nor has begun, is its unit's own. -/
theorem embStep_eq {s : State} {d q : Fin 4} {c : Cmd} (hup : Up s) (hhead : s.hw.stageCommitHead ⟨.stage d .emb, q.val⟩ = some c)
    (hop : 0x10 ≤ dOpcode c.desc) : exec (.stageCommitStep d .emb q) s = .next { s with hw := embCommit ⟨.stage d .emb, q.val⟩ s.hw } := by
  have heng : (stageEng d.val .emb) = .stage d .emb := congrArg (Eng.stage · .emb) (Fin.ofNat_val_eq_self d)
  show execStageCommitStep d .emb q s = _
  rw [execStageCommitStep, State.onHw_up _ _ hup, stageCommitStep, heng, hhead]
  dsimp only
  rw [if_neg (Nat.not_lt.mpr hop)]

/-- The commit step of a PUBLISH that nothing holds back: it writes nothing, and its effect is the next generation (R286). -/
theorem publishes {h : Hw} {id : QId} {c : Cmd} {w : EmbWork} (hhead : h.stageCommitHead id = some c) (htodo : c.todo = none) (hwork : c.work = .emb w)
    (hop : dOpcode c.desc = 0x14) (hdone : w.done = true) (hconf : h.waitsConfirm id c = false) (hring : h.ringGate id c = true)
    (hcredit : h.creditGate id c = true) :
    let fresh (c : Cmd) : Cmd := { c with writes := [], todo := some [], work := .emb { w with frees := [], moved := [] } }
    embCommit id h = (h.updCmd id c.ptr fresh).stageCommit id (embCommitEff id) := by
  intro fresh
  have hplan : embPlan h id c w = .ok ({}, []) := by
    unfold embPlan
    dsimp only
    rw [hop]
    exact rfl
  have hfirst : (c.todo.isSome || dOpcode c.desc = 0x10 || !w.done || !h.ringGate id c || !h.creditGate id c) = false := by
    rw [htodo, hop, hdone, hring, hcredit]
    decide
  unfold embCommit
  rw [hhead]
  dsimp only
  rw [hwork]
  dsimp only
  rw [if_neg (by rw [hconf]; exact Bool.false_ne_true), if_neg (by rw [hfirst]; exact Bool.false_ne_true), hplan]
  dsimp only
  rw [if_neg (fun hfull => hfull.1 rfl), if_pos rfl, if_neg (by rw [hop]; decide)]
  exact rfl

theorem embCommitEff_publish (id : QId) {c : Cmd} {w : EmbWork} (h : Hw) (hwork : c.work = .emb w) (hop : dOpcode c.desc = 0x14) (hfrees : w.frees = []) :
    let k := Hw.freePuts id c w.table (some w.serial) (h.frees.filter fun f => f.table = w.table).length h
    let g := (k.tblGen w.table + 1) % 0x10000
    embCommitEff id c h = (k.setTblGen w.table g).noteChange (.generation w.table g) := by
  intro k g
  unfold embCommitEff
  rw [hwork]
  dsimp only
  rw [hfrees, List.map_nil, List.append_nil, if_pos hop]

theorem generations : Generations := by
  refine ⟨fun s d q c w hup => ?_, fun e c slot pool del => putRow_entry e c slot pool del⟩
  intro id hhead htodo hwork hop hdone hconf
  have hexec {k : Hw} (hk : embCommit id s.hw = k) : exec (.stageCommitStep d .emb q) s = .next { s with hw := k } := by
    rw [embStep_eq hup hhead (by rw [hop]; decide), hk]
  have hplain (hgate : s.hw.ringGate id c = false ∨ s.hw.creditGate id c = false) : embCommit id s.hw = s.hw.stageCommit id (embCommitEff id) := by
    have hstop : (c.todo.isSome || dOpcode c.desc = 0x10 || !w.done || !s.hw.ringGate id c || !s.hw.creditGate id c) = true := by
      rcases hgate with hgate | hgate
      · rw [hgate, Bool.not_false, Bool.or_true, Bool.true_or]
      · rw [hgate, Bool.not_false, Bool.or_true]
    unfold embCommit
    rw [hhead]
    dsimp only
    rw [hwork]
    dsimp only
    rw [if_neg (by rw [hconf]; exact Bool.false_ne_true), if_pos hstop]
  refine ⟨fun hring => hexec ?_, fun hring hcredit => hexec ?_, fun hring hcredit => ?_⟩
  · rw [hplain (.inl hring), Hw.stageCommit_fresh _ hhead htodo, if_pos hring]
  · rw [hplain (.inr hcredit), Hw.stageCommit_fresh _ hhead htodo, if_neg (by rw [hring]; decide), if_pos hcredit]
  · intro fresh h k g e
    have hnow : h.stageCommitHead id = some (fresh c) := Hw.stageCommitHead_updCmd ⟨rfl, rfl⟩ hhead
    have heff : embCommitEff id (fresh c) h = e :=
      embCommitEff_publish (w := { w with frees := [], moved := [] }) id h rfl hop rfl
    refine hexec ?_
    rw [publishes hhead htodo hwork hop hdone hconf hring hcredit]
    refine (Hw.stageCommit_going (ws := []) _ hnow rfl rfl).trans ?_
    rw [heff]

/-- Settles O43: flips, free rings and generations. -/
theorem embeddingTables : Obligations.EmbeddingTables := ⟨tableFlips, freeRing, generations⟩

end Sys2Proof.Machine
end

section
/-! PROOF of O44: the embedding commands. What an execution does once its batches are served is its own run; a list that is read is sent, one
batch to each owner, and leaves the command to wait for them. -/

namespace Sys2Proof.Machine
open Sys2Proof.Claims

/-! ### The list and its batches -/

theorem Hw.stageHead_opcode {h : Hw} {id : QId} {op : Nat} {c : Cmd} (hhead : h.stageHead id op = some c) : dOpcode c.desc = op := by
  unfold Hw.stageHead at hhead
  split at hhead
  · nomatch hhead
  · split at hhead
    · split at hhead
      · next hop => cases hhead; exact hop.1
      · nomatch hhead
    · nomatch hhead

/-- A command whose batches are all served goes on. -/
theorem Hw.embReady_served {h : Hw} {id : QId} {op : Nat} {c : Cmd} {w : EmbWork} (hhead : h.stageHead id op = some c) (hwork : c.work = .emb w)
    (hsent : w.sent = true) (hbatches : w.batches = []) : h.embReady id op = (h, some (c, w)) := by
  unfold Hw.embReady
  rw [hhead]
  dsimp only
  rw [hwork]
  dsimp only
  rw [if_pos hsent, hhead]
  dsimp only
  rw [hwork]
  dsimp only
  rw [if_pos ⟨hsent, hbatches⟩]

/-- One whose list has just been sent waits, unless its own unit owned all it names. -/
theorem Hw.embReady_sends {h : Hw} {id : QId} {op : Nat} {c c' : Cmd} {w w' : EmbWork} (hhead : h.stageHead id op = some c) (hwork : c.work = .emb w)
    (hsent : w.sent = false) (hnow : (h.embSend id c w).stageHead id op = some c') (hwork' : c'.work = .emb w') (hbatches : w'.batches ≠ []) :
    h.embReady id op = (h.embSend id c w, none) := by
  unfold Hw.embReady
  rw [hhead]
  dsimp only
  rw [hwork]
  dsimp only
  rw [if_neg (by rw [hsent]; exact Bool.false_ne_true), hnow]
  dsimp only
  rw [hwork']
  dsimp only
  rw [if_neg fun hall => hbatches hall.2]

/-- What a command carries once its list has been sent. -/
def EmbWork.asked (w : EmbWork) (l : List Nat) (order : Nat) (bs : List EmbBatch) : EmbWork :=
  { w with list := l, sent := true, order := order, batches := bs }

/-- A gather sends a batch to each owner that its list names; other owners than its own unit serve them later. -/
theorem Hw.embSend_gather {h : Hw} {d : Fin 4} {q : Nat} {c : Cmd} {w : EmbWork} {l : List Nat} {t : List (Nat × Nat)}
    (hop : dOpcode c.desc = 0x10) (hlist : embList h ⟨.stage d .emb, q⟩ c [] = .ok (l, t)) :
    let id : QId := ⟨.stage d .emb, q⟩
    let bs := embBatches (h.tblRef (queueMaster id) w.table w.bank) c.desc l
    (∀ b ∈ bs, b.module ≠ h.moduleNo ∨ b.quad ≠ d.val) →
    ∃ j : Hw, Hw.QueuesStand h j ∧ j.mem = (t.foldl (fun h e => h.touch (queueMaster id) e.1 e.2) h).mem
      ∧ h.embSend id c w = { j.setWork id c.ptr (.emb (w.asked l h.embSeq bs)) with embSeq := h.embSeq + 1 } := by
  intro id bs hfar
  obtain ⟨g, hg⟩ : ∃ g, g = t.foldl (fun h e => h.touch (queueMaster id) e.1 e.2) h := ⟨_, rfl⟩
  have hstand : Hw.QueuesStand h g := by
    rw [hg]
    exact List.foldlRecOn t _ (motive := fun k => Hw.QueuesStand h k) (.refl _) fun k hk e _ => hk.trans (k.touch_stand ..)
  have hseq : g.embSeq = h.embSeq := by
    rw [hg, Hw.fold_access _ (fun k e => k.touch_access _ e.1 e.2) t h]
  obtain ⟨n, hn⟩ : ∃ n, n = (((bs.filter fun b => b.module ≠ h.moduleNo ∨ b.quad ≠ engQuad id.eng).map fun b => b.rows.length).sum) := ⟨_, rfl⟩
  have hnone : (bs.filter fun b => !(bs.filter fun b => b.module ≠ h.moduleNo ∨ b.quad ≠ engQuad id.eng).contains b) = [] := by
    refine List.filter_eq_nil_iff.2 fun b hb => ?_
    rw [Bool.not_eq_true', Bool.not_eq_false, List.contains_iff_mem]
    exact List.mem_filter.2 ⟨hb, decide_eq_true (hfar b hb)⟩
  refine ⟨(g.count (engPage id.eng) 0x04C bs.length).count (engPage id.eng) 0x048 n,
    (hstand.trans (g.count_stand _ _ _ (by decide))).trans (Hw.count_stand _ _ _ _ (by decide)), ?_, ?_⟩
  · rw [Hw.count_mem, Hw.count_mem, hg]
  · unfold Hw.embSend
    dsimp only
    rw [hlist]
    dsimp only
    rw [if_pos hop, hnone, List.foldl_nil, ← hg, ← hn, Hw.count_embSeq, Hw.count_embSeq, hseq]
    exact rfl

/-! ### Gathers -/

/-- A gather that has been served ends with its rows and its header, or stays where a write stops it. -/
theorem embGather_served {h : Hw} {id : QId} {c : Cmd} {w : EmbWork} (hhead : h.stageHead id 0x10 = some c) (hwork : c.work = .emb w)
    (hsent : w.sent = true) (hbatches : w.batches = []) :
    let o := embOp c.desc
    let r := h.tblRef (queueMaster id) w.table w.bank
    (w.list = [] → embGather id h = h.finishCmd id c { work := .emb w, signals := if dSigEn c.desc then [(o.sigCore, dSigSem c.desc, 1)] else [] })
    ∧ (∀ xs t, w.list ≠ [] → gatherRows r w.rows (listParts r.inside (listRow c.desc) w.list [] 0) w.list [] = .ok (xs, t) →
      let dflt := (xs.filter (·.dflt)).length
      let stale := (xs.filter (·.stale)).length
      let rows := xs.flatMap fun x => outRow r.d o.outFmt x.data
      let head := gatherHeader xs.length dflt w.pin.isSome (decide (0 < stale)) w.gen
      let w' := { w with outLen := 16 + rows.length }
      (∀ k, Hw.stageWrites id c [(dDst c.desc + 16, rows), (dDst c.desc, head)] h = (k, []) →
        embGather id h = ((k.setWork id c.ptr (.emb w')).finishCmd id c { result := head ++ rows, counts := [(0x044, dflt), (0x060, stale)], touched := t
                                                                          work := .emb { w' with done := true } }).gatherSignal id c)
      ∧ ∀ k x rest, Hw.stageWrites id c [(dDst c.desc + 16, rows), (dDst c.desc, head)] h = (k, x :: rest) →
        embGather id h = k.setWork id c.ptr (.emb w')) := by
  intro o r
  refine ⟨fun hnil => ?_, fun xs t hsome hrows => ?_⟩
  · unfold embGather
    rw [Hw.embReady_served hhead hwork hsent hbatches]
    dsimp only
    rw [if_pos hnil]
  · intro dflt stale rows head w'
    have hrun : embGather id h = match Hw.stageWrites id c [(dDst c.desc + 16, rows), (dDst c.desc, head)] h with
        | (k, rest) => if rest ≠ [] then k.setWork id c.ptr (.emb w')
          else ((k.setWork id c.ptr (.emb w')).finishCmd id c { result := head ++ rows, counts := [(0x044, dflt), (0x060, stale)], touched := t
                                                                work := .emb { w' with done := true } }).gatherSignal id c := by
      unfold embGather
      rw [Hw.embReady_served hhead hwork hsent hbatches]
      dsimp only
      rw [if_neg hsome, show gatherRows _ w.rows _ w.list [] = _ from hrows]
    refine ⟨fun k hput => ?_, fun k x rest hput => ?_⟩
    · rw [hrun, hput]
      exact if_neg (not_not.mpr rfl)
    · rw [hrun, hput]
      exact if_pos (List.cons_ne_nil _ _)

theorem gathers : Gathers := by
  intro s d q c w hup id m o r hhead hwork
  have hexec {k : Hw} (hk : embGather id s.hw = k) : exec (.embGather d q) s = .next { s with hw := k } := by
    show execEmbGather d q s = _
    rw [execEmbGather, State.onHw_up _ _ hup, hk]
  refine ⟨fun hsent hbatches hnil => hexec ((embGather_served hhead hwork hsent hbatches).1 hnil),
    fun xs t hsent hbatches hsome hrows => ?_, fun l t hsent hlist => ?_⟩
  · intro dflt stale rows head w'
    obtain ⟨hdone, hstop⟩ := (embGather_served hhead hwork hsent hbatches).2 xs t hsome hrows
    exact ⟨fun h hput => hexec (hdone h hput), fun h x rest hput => hexec (hstop h x rest hput)⟩
  · intro bs hsome hfar _
    obtain ⟨j, hstand, hmem, hsend⟩ := Hw.embSend_gather (Hw.stageHead_opcode hhead) hlist hfar
    obtain ⟨f, hf⟩ : ∃ f : Cmd → Cmd, f = fun c => { c with work := .emb (w.asked l s.hw.embSeq bs) } := ⟨_, rfl⟩
    obtain ⟨k, hk⟩ : ∃ k : Hw, k = { j.updCmd id c.ptr f with embSeq := s.hw.embSeq + 1 } := ⟨_, rfl⟩
    have hkept : Hw.QueuesStand (j.updCmd id c.ptr f) k := by rw [hk]; exact .of_eq rfl rfl
    have hq : hasQueue (.stage d .emb) q.val = true := decide_eq_true q.isLt
    have hnow : k.stageHead id 0x10 = some (f c) := by
      rw [Hw.stageHead_of_stand hkept hq]
      exact Hw.stageHead_updCmd (by rw [hf]; exact fun _ => ⟨rfl, rfl, rfl, rfl⟩) ((Hw.stageHead_of_stand hstand hq).trans hhead)
    have hsent' : s.hw.embSend id c w = k := by rw [hsend, hk, hf, Hw.setWork]
    refine ⟨k, hexec ?_, fun x hx hptr => ?_, by rw [hk], ?_⟩
    · unfold embGather
      rw [Hw.embReady_sends hhead hwork hsent (w' := w.asked l s.hw.embSeq bs) (by rw [hsent']; exact hnow) (by rw [hf]) hsome, hsent']
    · rw [hkept.1, Hw.updCmd_qs_same] at hx
      obtain ⟨y, -, rfl⟩ := List.mem_map.1 hx
      by_cases hy : y.ptr = c.ptr
      · rw [if_pos hy, hf]
        exact rfl
      · rw [if_neg hy] at hptr
        exact absurd hptr hy
    · rw [hk, Hw.updCmd, Hw.setQs_mem, hmem]

/-! ### Updates -/

/-- The rows of an update keep their numbers, whatever bytes they are given. -/
theorem updateRows_row (xs : List (EmbRow × EmbRow × Bool)) (p q : EmbRow × EmbRow × Bool → Bool) (hpq : ∀ e, p e = q e) (odd : Bool)
    (data state : EmbRow × EmbRow × Bool → List Byte) :
    (((xs.filter p).map fun e => if odd then { e.2.1 with data := data e, state := state e } else e.2.1).map (·.row))
      = ((xs.filter q).map (·.2.1)).map (·.row) := by
  rw [funext hpq, List.map_map, List.map_map]
  refine List.map_congr_left fun e _ => ?_
  cases odd
  · rfl
  · rfl

/-- Where no state has a partial block the rows are those that the optimiser gives. -/
theorem updateRows_even (xs : List (EmbRow × EmbRow × Bool)) (p q : EmbRow × EmbRow × Bool → Bool) (hpq : ∀ e, p e = q e) {odd : Bool} (heven : odd = false)
    (data state : EmbRow × EmbRow × Bool → List Byte) :
    ((xs.filter p).map fun e => if odd then { e.2.1 with data := data e, state := state e } else e.2.1) = (xs.filter q).map (·.2.1) := by
  rw [funext hpq]
  exact List.map_congr_left fun e _ => if_neg (by rw [heven]; exact Bool.false_ne_true)

theorem updates : Updates := by
  intro s d q c w hup id m o r hhead hwork hsent hbatches
  have hexec {k : Hw} (hk : embUpdate id s.hw = k) : exec (.embUpdate d q) s = .next { s with hw := k } := by
    show execEmbUpdate d q s = _
    rw [execEmbUpdate, State.onHw_up _ _ hup, hk]
  refine ⟨fun hnil => hexec ?_, fun gs y spans t hsome hread => ?_⟩
  · unfold embUpdate
    rw [Hw.embReady_served hhead hwork hsent hbatches]
    dsimp only
    rw [if_pos hnil]
  · intro repeats out new nonFin
    have hrun : ∃ (k : Hw) (x : Done), embUpdate id s.hw = ((k.finishCmd id c x).openClashes id c.ptr).openShared id c.ptr (embSame w.table (new.map (·.row)))
        ∧ k = { s.hw with regs := k.regs }
        ∧ x.result = leBytes 4 (out.filter fun e => !(e.2.2 && o.skip)).length ++ leBytes 4 (0x100 + min nonFin 0xFFFF * 0x10000)
            ++ leBytes 4 ((w.rows.map repeats).sum)
            ++ leBytes 4 (w.list.filter fun i => !(w.rows.any fun y => y.row = i ∧ y.ok = true)).length
        ∧ (o.opt ≠ 2 ∨ tLen r.d % 32 = 0 → x.work = .emb { w with rows := new, done := true })
        ∧ x.writes = [] ∧ x.code = 0 ∧ x.spans = spans ∧ x.touched = t
        ∧ x.signals = if dSigEn c.desc then [(o.sigCore, dSigSem c.desc, 1)] else [] := by
      unfold embUpdate
      rw [Hw.embReady_served hhead hwork hsent hbatches]
      dsimp only
      rw [if_neg hsome, show (do
        let gs ← embGrads s.hw id c w
        let y ← rxRead s.hw (queueMaster id) (embOp c.desc).hyperVa 32
        let sp ← updateSpans (s.hw.tblRef (queueMaster id) w.table w.bank) (embOp c.desc) w.rows
        pure (gs, y, sp) : Rx _) [] = _ from hread]
      dsimp only
      rw [updateRows_row _ _ (fun e => decide (r.ownerModule e.1.row = s.hw.moduleNo)) (fun e => by simp only [r, m, bne, Bool.not_not]; exact rfl)]
      refine ⟨_, _, rfl, ?_, rfl, ?_, rfl, rfl, rfl, rfl, rfl⟩
      · exact (Hw.fold_regsOnly _ (fun h _ => h.count_regsOnly ..) _ _).trans (Hw.fold_regsOnly _ (fun h _ => h.count_regsOnly ..) _ _)
      · intro heven
        dsimp only
        rw [updateRows_even _ _ (fun e => decide (r.ownerModule e.1.row = s.hw.moduleNo)) (fun e => by simp only [r, m, bne, Bool.not_not]; exact rfl)
          (decide_eq_false fun hodd => heven.elim (fun h => h hodd.1) hodd.2)]
    obtain ⟨k, x, heq, hrest⟩ := hrun
    exact ⟨k, x, hexec heq, hrest⟩

/-! ### Changes of rows -/

/-- A command that changes rows finishes once its batches are served, ROW_MOVE only as its queue's oldest. -/
theorem embPlainExec_served {h : Hw} {id : QId} {op : Nat} {oldest : Bool} {c : Cmd} {w : EmbWork} (hhead : h.stageHead id op = some c)
    (hwork : c.work = .emb w) (hsent : w.sent = true) (hbatches : w.batches = [])
    (hfirst : oldest = true → (h.qs id).cmds.head? = some c) :
    embPlainExec id op oldest h = h.finishCmd id c {
      signals := if dSigEn c.desc then [((embOp c.desc).sigCore, dSigSem c.desc, 1)] else []
      work := .emb { w with done := !w.list.isEmpty || op == 0x14 } } := by
  have hgo : (oldest && ((h.qs id).cmds.head?.map (·.ptr) != some c.ptr)) = false := by
    cases oldest with
    | false => rw [Bool.false_and]
    | true => rw [hfirst rfl, Option.map_some, bne_self_eq_false, Bool.and_false]
  unfold embPlainExec
  rw [hhead, if_neg (fun hwait => Bool.false_ne_true (hgo.symm.trans hwait)), Hw.embReady_served hhead hwork hsent hbatches]

theorem rowCommands : RowCommands := by
  intro s d q c w hup id done
  have hexec {op : Nat} {oldest : Bool} {cmd : Instr} {k : Hw} (hcmd : exec cmd s = .next (s.onHw (embPlainExec id op oldest)))
      (hk : embPlainExec id op oldest s.hw = k) : exec cmd s = .next { s with hw := k } := by
    rw [hcmd, State.onHw_up _ _ hup, hk]
  refine ⟨fun hwork hsent hbatches => ⟨fun hhead => ?_, fun hhead hfirst => ?_, fun hhead hother => ?_, fun hhead => ?_⟩,
    fun row hhead hwork htodo hdone hop hconf hring hcredit hplan => ?_⟩
  · exact hexec (cmd := .rowPut d q) rfl (embPlainExec_served hhead hwork hsent hbatches fun hold => nomatch hold)
  · exact hexec (cmd := .rowMove d q) rfl (embPlainExec_served hhead hwork hsent hbatches fun _ => hfirst)
  · have hwait : ((s.hw.qs id).cmds.head?.map (·.ptr) != some c.ptr) = true := by
      rw [bne_iff_ne]
      intro hsame
      obtain ⟨c', hc', hptr⟩ := Option.map_eq_some_iff.1 hsame
      exact hother c' hc' hptr
    refine hexec (cmd := .rowMove d q) rfl ?_
    unfold embPlainExec
    rw [hhead]
    exact if_pos ((Bool.true_and _).trans hwait)
  · exact hexec (cmd := .publish d q) rfl (embPlainExec_served hhead hwork hsent hbatches fun hold => nomatch hold)
  · intro h
    have hfirst : (c.todo.isSome || dOpcode c.desc = 0x10 || !w.done || !s.hw.ringGate id c || !s.hw.creditGate id c) = false := by
      rw [htodo, hop, hdone, hring, hcredit]
      decide
    have hstop : embPlan s.hw id c w = .error (.moving row) := by
      unfold embPlan
      dsimp only
      rw [hop, hplan]
      exact rfl
    rw [embStep_eq hup hhead (by rw [hop]; decide)]
    congr 2
    unfold embCommit
    rw [hhead]
    dsimp only
    rw [hwork]
    dsimp only
    rw [if_neg (by rw [hconf]; exact Bool.false_ne_true), if_neg (by rw [hfirst]; exact Bool.false_ne_true), hstop]

/-! ### The exchange -/

/-- A gather's batch of another module is served as it arrives, or stays while it waits. -/
theorem farArrive_gives {h : Hw} {d p : Nat} {b : FarBatch} (hport : (h.port p).up = true) :
    let f : FarServe := { port := p, quad := d, table := b.table.val, bank := h.tblBank b.table.val, serial := h.tblSerial
                          pin := if b.snapshot then some (h.tblGen b.table.val) else none, rows := b.rows.map (·.toNat) }
    let g : Hw := { h with exch := h.exch ++ [f], tblSerial := h.tblSerial + 1 }
    let m := queueMaster ⟨stageEng d .emb, 4⟩
    let rows := gatherBatch (g.tblRef m f.table f.bank) f.pin (g.tblGen f.table) f.rows []
    (rows = .error (.rd .wait) → h.farArrive d p b = g)
    ∧ ∀ (xs : List EmbRow) (t : List (Nat × Nat)), rows = .ok (xs, t) → h.farArrive d p b =
      ((t.foldl (fun (h : Hw) e => h.touch m e.1 e.2) { g with exch := g.exch.erase f }).leashQueue p 2 ((xs.map fun x => x.data.length).sum)).send
        (.leash p (.rows (xs.map fun x => (x.dflt, x.stale, x.data)))) := by
  intro f g m rows
  have harrive : h.farArrive d p b = g.farTry f := by
    unfold Hw.farArrive
    exact if_neg (by rw [hport]; decide)
  have hfresh : (f.held && g.isHeld (queueMaster ⟨stageEng f.quad .emb, 4⟩)) = false := Bool.false_and _
  refine ⟨fun hwait => ?_, fun xs t hrows => ?_⟩
  · rw [harrive]
    unfold Hw.farTry
    dsimp only
    rw [if_neg fun hheld => Bool.false_ne_true (hfresh.symm.trans hheld), show gatherBatch _ f.pin _ f.rows [] = _ from hwait]
    exact if_neg (Nat.lt_irrefl _)
  · rw [harrive]
    unfold Hw.farTry
    dsimp only
    rw [if_neg fun hheld => Bool.false_ne_true (hfresh.symm.trans hheld), show gatherBatch _ f.pin _ f.rows [] = _ from hrows]

theorem exchanges : Exchanges := by
  intro s d q quad module hup id go
  have hexec {src : ExchSrc} {k : Hw} (hk : exchangeBatch d src s.hw = k) : exec (.exchangeBatch d src) s = .next { s with hw := k } := by
    show execExchangeBatch d src s = _
    rw [execExchangeBatch, State.onHw_up _ _ hup, hk]
  refine ⟨fun hnone => hexec ?_, fun c w b hsome => ?_, fun p b => ?_⟩
  · unfold exchangeBatch
    dsimp only
    rw [hnone]
  · intro served
    have hgo {k : Hw} (hk : s.hw.embBatch id c w b = k) : go = .next { s with hw := k } := by
      refine hexec ?_
      unfold exchangeBatch
      dsimp only
      rw [hsome]
      exact hk
    refine ⟨fun h w' t hmine hserve => hgo ?_, fun p h w' t hfar hroute hserve => hgo ?_, fun hfar hroute => hgo ?_⟩
    · unfold Hw.embBatch
      rw [if_pos hmine, hserve]
    · unfold Hw.embBatch
      rw [if_neg hfar, hroute]
      dsimp only
      rw [hserve]
    · unfold Hw.embBatch
      rw [if_neg hfar, hroute]
  · intro f g m rows
    refine ⟨fun hdown => hexec ?_, fun hport hwait => hexec ((farArrive_gives hport).1 hwait), fun xs t hport hrows => ?_⟩
    · unfold exchangeBatch Hw.farArrive
      exact if_pos (by rw [hdown]; rfl)
    · intro k
      exact hexec ((farArrive_gives hport).2 xs t hrows)

/-- Settles O44: gathers, updates, changes of rows and the exchange between owners. -/
theorem embeddingCommands : Obligations.EmbeddingCommands := ⟨gathers, updates, rowCommands, exchanges⟩

end Sys2Proof.Machine
end

section
/-! PROOF of O50: the serving commands. Each runs as its queue's head when no other executed serving command stands before it; which check
fails decides what it is rejected for. -/

namespace Sys2Proof.Machine
open Sys2Proof.Claims

/-- The head of a serving queue runs, when nothing stands before it. -/
theorem Hw.srvExec_head {h : Hw} {id : QId} {op : Nat} {c : Cmd} (f : Cmd → Hw) (hbusy : h.srvBusy id = false)
    (hheld : h.isHeld (srvMaster (engQuad id.eng)) = false) (hhead : h.stageHead id op = some c) : h.srvExec id op f = f c := by
  unfold Hw.srvExec
  rw [hhead]
  dsimp only
  rw [hbusy, hheld]
  exact if_neg Bool.false_ne_true

/-- Whether the parameters of an SRV_ADMIT are in range and name what the module owns. -/
def srvParsFit (h : Hw) (n ms : Nat) (p : List Byte) : Bool :=
  h.ownsConv n && h.ownsSlot ms && h.ownsGroup (pGroup p) && srvParGood p

theorem srvParsFit_iff (h : Hw) (n ms : Nat) (p : List Byte) : srvParsFit h n ms p = true ↔
    h.ownsConv n = true ∧ h.ownsSlot ms = true ∧ h.ownsGroup (pGroup p) = true ∧ srvParGood p = true := by
  simp only [srvParsFit, Bool.and_eq_true, and_assoc]

theorem srvParsFit_not (h : Hw) (n ms : Nat) (p : List Byte) :
    (!h.ownsConv n || !h.ownsSlot ms || !h.ownsGroup (pGroup p) || !srvParGood p) = !srvParsFit h n ms p := by
  rw [srvParsFit, Bool.not_and, Bool.not_and, Bool.not_and]

/-- SRV_ADMIT: which check fails decides what it is rejected for. -/
theorem srvAdmit_cases {h : Hw} {d q : Fin 4} {c : Cmd} {p : List Byte} {t : List (Nat × Nat)}
    (hbusy : h.srvBusy ⟨.stage d .srv, q.val⟩ = false) (hheld : h.isHeld (srvMaster d.val) = false)
    (hhead : h.stageHead ⟨.stage d .srv, q.val⟩ 0x10 = some c)
    (hread : rxRead h (queueMaster ⟨.stage d .srv, q.val⟩) (sLong c.desc) 128 [] = .ok (p, t)) :
    let id : QId := ⟨.stage d .srv, q.val⟩
    let n := sConv c.desc
    let cv := h.conv d.val n
    let ms := 256 * d.val + sSlot c.desc
    let expired := ((h.putConv d.val n { cv with state := cvEXPIRED }).count (srvPage d.val) 0x0B8).sendChanges d.val
    srvAdmit d q h =
      if srvParsFit h n ms p = false then h.reject id c.ptr cFORMAT c.desc
      else if sFresh c.desc = false ∧ (cv.state = cvEXPIRED ∨ (cv.state = cvPARKED ∧ cv.deadline ≤ h.time)) then
        (if cv.state = cvPARKED then expired else h).reject id c.ptr cTTL_EXPIRED c.desc
      else if cv.state ≠ (if sFresh c.desc then cvFREE else cvPARKED) ∨ (h.slot ms).isSome = true ∨ (h.group (pGroup p)).slot.isSome = true then
        h.reject id c.ptr cFORMAT c.desc
      else h.finishCmd id c (srvDone c p t.reverse) := by
  intro id n cv ms expired
  unfold srvAdmit
  dsimp only
  rw [Hw.srvExec_head _ hbusy hheld hhead, hread]
  dsimp only
  simp only [srvParsFit_not, Bool.not_eq_true']
  exact rfl

/-- PARK and END: a command that its conversation's state does not allow is rejected, one of a bound conversation waits until its
confirmed steps have committed. -/
theorem srvLeave_cases {h : Hw} {d q : Fin 4} {op : Nat} {ok : Nat → Bool} {c : Cmd} (hbusy : h.srvBusy ⟨.stage d .srv, q.val⟩ = false)
    (hheld : h.isHeld (srvMaster d.val) = false) (hhead : h.stageHead ⟨.stage d .srv, q.val⟩ op = some c) :
    let id : QId := ⟨.stage d .srv, q.val⟩
    let n := sConv c.desc
    let fits := h.ownsConv n = true ∧ ok (h.conv d.val n).state = true
    (¬ fits → srvLeave d q op ok h = h.reject id c.ptr cFORMAT c.desc)
    ∧ (fits → h.convSlot d.val n = none → srvLeave d q op ok h = h.finishCmd id c (srvDone c [] []))
    ∧ ∀ b, fits → h.convSlot d.val n = some b →
      ((h.rejectSpec b).drained b = true → srvLeave d q op ok h = (h.rejectSpec b).finishCmd id c (srvDone c [] []))
      ∧ ((h.rejectSpec b).drained b = false → srvLeave d q op ok h = h.rejectSpec b) := by
  intro id n fits
  have hfits : (!h.ownsConv n || !ok (h.conv d.val n).state) = true ↔ ¬ fits := by
    show _ ↔ ¬ (h.ownsConv n = true ∧ ok (h.conv d.val n).state = true)
    cases h.ownsConv n <;> cases ok (h.conv d.val n).state <;> decide
  unfold srvLeave
  dsimp only
  rw [Hw.srvExec_head _ hbusy hheld hhead]
  refine ⟨fun hno => if_pos (hfits.2 hno), fun hyes hfree => ?_, fun b hyes hbound => ⟨fun hdrained => ?_, fun hdrained => ?_⟩⟩
  · rw [if_neg (fun hno => hfits.1 hno hyes), hfree]
  · rw [if_neg (fun hno => hfits.1 hno hyes), hbound]
    exact if_pos hdrained
  · rw [if_neg (fun hno => hfits.1 hno hyes), hbound]
    exact if_neg (by rw [hdrained]; exact Bool.false_ne_true)

/-- The commit step of a serving command whose writes can be made. -/
theorem srvCommit_ends {h k : Hw} {d q : Fin 4} {c : Cmd} (hhead : h.stageCommitHead ⟨.stage d .srv, q.val⟩ = some c) (htodo : c.todo = none) :
    let id : QId := ⟨.stage d .srv, q.val⟩
    let taken (c' : Cmd) : Cmd := if dOpcode c.desc = 0x10 then
      { c' with code := if (h.budget (dTenant c.desc)).balance ≤ 0 then cBUDGET_HELD else 0 } else c'
    let g := if dOpcode c.desc = 0x10 then h.updCmd id c.ptr taken else h
    g.ringGate id (taken c) = true → g.creditGate id (taken c) = true →
    (dOpcode c.desc = 0x11 ∨ dOpcode c.desc = 0x12 → h.convSlot d.val (sConv c.desc) = none) →
    (dOpcode c.desc = 0x13 → (h.adapter (sHandle c.desc)).prevRefs = 0) →
    Hw.stageWrites id (taken c) c.writes g = (k, []) →
    let e := srvCommitEff id (taken c) k
    srvCommit id h = (e.commitEnd id (((e.qs id).cmds.find? fun x => x.ptr = c.ptr).getD (taken c)) c.signals).runDeferred id := by
  intro id taken g hring hcredit hleft hrefs hput e
  have hends {m : Hw} (hnow : m.stageCommitHead id = some (taken c)) (hm : m = g) : m.stageCommit id (srvCommitEff id) =
      (e.commitEnd id (((e.qs id).cmds.find? fun x => x.ptr = c.ptr).getD (taken c)) c.signals).runDeferred id := by
    subst hm
    have hfields : (taken c).todo = none ∧ (taken c).writes = c.writes ∧ (taken c).ptr = c.ptr ∧ (taken c).signals = c.signals := by
      by_cases hop : dOpcode c.desc = 0x10
      · rw [show taken c = _ from if_pos hop]
        exact ⟨htodo, rfl, rfl, rfl⟩
      · rw [show taken c = c from if_neg hop]
        exact ⟨htodo, rfl, rfl, rfl⟩
    obtain ⟨htodo', hwrites, hptr, hsignals⟩ := hfields
    rw [Hw.stageCommit_first _ hnow htodo' hring hcredit (by rw [hwrites]; exact hput), hptr, hsignals]
  unfold srvCommit
  rw [hhead]
  dsimp only
  by_cases hadmit : dOpcode c.desc = 0x10
  · have hg : g = h.updCmd id c.ptr taken := if_pos hadmit
    have htaken : taken = fun c' => { c' with code := if (h.budget (dTenant c.desc)).balance ≤ 0 then cBUDGET_HELD else 0 } :=
      funext fun _ => if_pos hadmit
    have hnow : (h.updCmd id c.ptr taken).stageCommitHead id = some (taken c) :=
      Hw.stageCommitHead_updCmd (by rw [htaken]; exact ⟨rfl, rfl⟩) hhead
    rw [hadmit]
    refine Eq.trans ?_ (hends hnow hg.symm)
    rw [htaken]
    simp only [decide_eq_true_eq]
  · have hnow : h.stageCommitHead id = some (taken c) := by rw [hhead, show taken c = c from if_neg hadmit]
    have hstep := hends hnow (if_neg hadmit).symm
    split
    · next hop => exact absurd hop hadmit
    · next hop => rw [show engQuad id.eng = d.val from rfl, hleft (.inl hop)]; exact hstep
    · next hop => rw [show engQuad id.eng = d.val from rfl, hleft (.inr hop)]; exact hstep
    · next hop => rw [if_neg (not_not.mpr (hrefs hop))]; exact hstep
    · exact hstep

/-- Settles O50: each serving command's checks, and the end of its commit step. -/
theorem servingCommands : Obligations.ServingCommands := by
  intro s d q c hup id n cv ms rejects finishes hbusy hheld
  have hexec {cmd : Instr} {f : Hw → Hw} {k : Hw} (hcmd : exec cmd s = .next (s.onHw f)) (hk : f s.hw = k) : exec cmd s = .next { s with hw := k } := by
    rw [hcmd, State.onHw_up _ _ hup, hk]
  refine ⟨fun p t hhead hread => ?_, fun op cmd hcmd hhead => ?_, fun hhead => ?_, fun hhead => ?_, fun hhead hop htodo => ?_⟩
  · intro good late
    have hcases := srvAdmit_cases hbusy hheld hhead hread
    have hadmit {k : Hw} (hk : srvAdmit d q s.hw = k) : exec (.srvAdmit d q) s = .next { s with hw := k } := hexec (cmd := .srvAdmit d q) rfl hk
    have hgood (h : good) : ¬ srvParsFit s.hw n ms p = false := fun hno => Bool.false_ne_true (hno.symm.trans ((srvParsFit_iff ..).2 h))
    have hearly (h : sFresh c.desc = true ∨ ¬ late) : ¬ (sFresh c.desc = false ∧ late) := fun hlate =>
      h.elim (fun hfresh => Bool.false_ne_true (hlate.1.symm.trans hfresh)) fun hno => hno hlate.2
    refine ⟨fun hbad => hadmit ?_, fun h hold hexp => hadmit ?_, fun h hold hpark hdead => hadmit ?_, fun h hfit hclash => hadmit ?_,
      fun h hfit hstate hslot hgroup => hadmit ?_⟩
    · exact hcases.trans (if_pos (Bool.eq_false_iff.2 fun hfit => hbad ((srvParsFit_iff ..).1 hfit)))
    · refine hcases.trans ((if_neg (hgood h)).trans ((if_pos ⟨hold, .inl hexp⟩).trans ?_))
      rw [if_neg (by rw [show (s.hw.conv d.val (sConv c.desc)).state = _ from hexp]; decide)]
    · refine hcases.trans ((if_neg (hgood h)).trans ((if_pos ⟨hold, .inr ⟨hpark, hdead⟩⟩).trans ?_))
      rw [if_pos hpark]
    · exact hcases.trans ((if_neg (hgood h)).trans ((if_neg (hearly hfit)).trans (if_pos hclash)))
    · refine hcases.trans ((if_neg (hgood h)).trans ((if_neg (hearly hfit)).trans (if_neg ?_)))
      rintro (hne | hsome | hsome)
      · exact hne hstate
      · rw [hslot] at hsome
        exact Bool.false_ne_true hsome
      · rw [hgroup] at hsome
        exact Bool.false_ne_true hsome
  · intro ok
    obtain ⟨st, hst, hrun⟩ : ∃ st : Nat → Bool, (ok ↔ s.hw.ownsConv n = true ∧ st cv.state = true) ∧ exec cmd s = .next (s.onHw (srvLeave d q op st)) := by
      simp only [List.mem_cons, Prod.mk.injEq, List.not_mem_nil, or_false] at hcmd
      rcases hcmd with ⟨rfl, rfl⟩ | ⟨rfl, rfl⟩
      · refine ⟨fun st => st == cvACTIVE || st == cvHALTED || st == cvPARKED, ?_, rfl⟩
        simp only [ok, if_pos, Bool.or_eq_true, beq_iff_eq, or_assoc]
      · refine ⟨fun st => st != cvFREE, ?_, rfl⟩
        simp only [ok, bne_iff_ne]
        exact Iff.rfl
    obtain ⟨hno, hfree, hbound⟩ := srvLeave_cases (ok := st) hbusy hheld hhead
    refine ⟨fun h => hexec hrun (hno fun h' => h (hst.2 h')), fun h hnone => hexec hrun (hfree (hst.1 h) hnone), fun b h hsome => ?_⟩
    intro k
    obtain ⟨hdone, hwait⟩ := hbound b (hst.1 h) hsome
    exact ⟨fun hdrained => hexec hrun (hdone hdrained), fun hdrained => hexec hrun (hwait hdrained)⟩
  · intro missing
    have hrun (k : Hw) (hk : (if sFlag c.desc ∧ (s.hw.adapter (sHandle c.desc)).valid = false then s.hw.failCmd id c (.reject cFORMAT)
        else s.hw.finishCmd id c (srvDone c [] [])) = k) : exec (.srvAdapter d q) s = .next { s with hw := k } := by
      refine hexec (cmd := .srvAdapter d q) (f := srvAdapter d q) rfl ?_
      unfold srvAdapter
      dsimp only
      rw [Hw.srvExec_head _ hbusy hheld hhead]
      exact hk
    have hmissing : missing = true ↔ sFlag c.desc = true ∧ (s.hw.adapter (sHandle c.desc)).valid = false := by
      simp only [missing, Bool.and_eq_true, Bool.not_eq_true']
    exact ⟨fun hyes => hrun _ (if_pos (hmissing.1 hyes)),
      fun hno => hrun _ (if_neg fun h => Bool.false_ne_true (hno.symm.trans (hmissing.2 h)))⟩
  · have hrun (k : Hw) (hk : (if signedOf 32 (dword c.desc 2) ≤ 0 then s.hw.failCmd id c (.reject cFORMAT)
        else s.hw.finishCmd id c (srvDone c [] [])) = k) : exec (.srvBudget d q) s = .next { s with hw := k } := by
      refine hexec (cmd := .srvBudget d q) (f := srvBudget d q) rfl ?_
      unfold srvBudget
      dsimp only
      rw [Hw.srvExec_head _ hbusy hheld hhead]
      exact hk
    exact ⟨fun hlow => hrun _ (if_pos hlow), fun hcap => hrun _ (if_neg (not_le.2 hcap))⟩
  · intro taken h hring hcredit hleft hrefs k hput g
    have heng : (stageEng d.val .srv) = .stage d .srv := congrArg (Eng.stage · .srv) (Fin.ofNat_val_eq_self d)
    refine hexec (cmd := .stageCommitStep d .srv q) (f := stageCommitStep d.val .srv q.val) rfl ?_
    rw [stageCommitStep, heng, hhead]
    dsimp only
    rw [if_neg (Nat.not_lt.mpr hop)]
    exact srvCommit_ends hhead htodo hring hcredit hleft hrefs hput

end Sys2Proof.Machine
end

section
/-! PROOF of O49: the serving block. A mailbox write, a group write and a candidate take the branches of their tests; a scan leaves the
queues and the slots, and an event goes to its place in the ring. -/

namespace Sys2Proof.Machine
open Sys2Proof.Claims

/-! ### The mailbox -/

/-- A write of a mailbox register demands the module and counts as work (R431). -/
theorem Hw.guardWrite_mbox {h : Hw} {r : Req} {p o : Nat} (v : Nat) (f : Hw → Hw) (hheld : h.portHeld r = false) (hacc : h.accepts r p o = true)
    (hbox : mboxReg p o = true) : h.guardWrite r p o v f = f h.demand.worked := by
  rw [Hw.guardWrite, if_neg (by rw [hheld]; decide), if_neg (by rw [hacc]; decide), if_pos (by rw [hbox, Bool.or_true])]

theorem mboxReg_slot (d : Fin 4) (slot : Fin 256) : mboxReg (srvPage d.val) (0x800 + 4 * slot.val) = true := by
  have hblock : ∀ d : Fin 4, blockOf (srvPage d.val) = some (.srv, d.val) := by decide
  unfold mboxReg
  rw [hblock d]
  exact decide_eq_true (by omega)

/-- What an accepted choice does, by the step that was launched for its place (R360). -/
theorem choose_cases {h : Hw} {ms token : Nat} {x : SrvSlot} (hslot : h.slot ms = some x) :
    let k := h.setSlot ms { x with acc := x.acc + 1 }
    h.choose ms token true = ((k.rejectSpec ms).detok ms x.acc token true).haltSlot ms evENDED 0
    ∧ (∀ l, x.launched.find? (·.step = x.acc + 1) = some l → l.token = token →
      h.choose ms token false = (k.confirmStep ms (x.acc + 1)).detok ms x.acc token false)
    ∧ (∀ l, x.launched.find? (·.step = x.acc + 1) = some l → l.token ≠ token →
      let g := (k.count (srvPage (ms / 256)) 0x0A4).rejectStep (pGroup x.params) ((x.acc + 1) % 4)
      let g := g.rewriteMuz ms x l (g.muzDesc ms x (x.acc + 1) (some token) none)
      let g := (x.launched.filter (·.step ≠ x.acc + 1)).foldl (fun h l => h.rewriteMuz ms x l (h.muzNop ms x)) g
      let g := g.setSlot ms { x with acc := x.acc + 1, launched := [] }
      h.choose ms token false = ((g.confirmStep ms (x.acc + 1)).handToken ms x token none).detok ms x.acc token false)
    ∧ (x.launched.find? (·.step = x.acc + 1) = none →
      h.choose ms token false = (k.launchChosen ms (x.acc + 1) token).detok ms x.acc token false) := by
  intro k
  unfold Hw.choose
  rw [hslot]
  dsimp only
  rw [if_pos rfl, if_neg Bool.false_ne_true]
  refine ⟨rfl, fun l hfind htoken => ?_, fun l hfind htoken => ?_, fun hfind => ?_⟩
  · rw [hfind]
    exact if_pos htoken
  · rw [hfind]
    exact if_neg htoken
  · rw [hfind]

theorem mailbox : Mailbox := by
  refine ⟨fun s r d slot v => ?_, fun s r d v x => ?_, fun h ms token x hslot => ?_⟩
  · intro ms p h hr
    obtain ⟨hup, hclear, hacc⟩ := hr
    have hexec {k : Hw} (hk : mboxWrite r d slot v s.hw = k) : exec (.mbox r d slot v) s = .next { s with hw := k } := by
      show execMbox r d slot v s = _
      rw [execMbox, State.onHw_up _ _ hup, hk]
    have hwrite : mboxWrite r d slot v s.hw = match h.slot ms with
        | none => (h.count p 0x0AC).raise p 9
        | some x =>
          if !h.mboxGood ms x v.toNat then (h.count p 0x0AC).raise p 9
          else if x.switch then (h.setSlot ms { x with heldW := some v.toNat }).rejectSpec ms
          else h.actChoice ms (bitsOf v.toNat 17 0) (bitOf v.toNat 18) := by
      rw [mboxWrite, Hw.guardWrite_mbox _ _ hclear hacc (mboxReg_slot d slot)]
      <;> rfl
    refine ⟨fun hnone => hexec (by rw [hwrite, hnone]), fun x hsome => ⟨fun hbad => hexec ?_, fun hgood hswitch => hexec ?_, fun hgood hswitch => hexec ?_⟩⟩
    · rw [hwrite, hsome]
      exact if_pos (by rw [hbad]; rfl)
    · rw [hwrite, hsome]
      exact (if_neg (by rw [hgood]; decide)).trans (if_pos hswitch)
    · rw [hwrite, hsome]
      exact (if_neg (by rw [hgood]; decide)).trans (if_neg (by rw [hswitch]; decide))
  · intro hr ms hslot
    obtain ⟨hup, hclear, hacc⟩ := hr
    have hbell : doorbell (srvPage d.val) 0x088 = false := by
      have hall : ∀ d : Fin 4, doorbell (srvPage d.val) 0x088 = false := by decide
      exact hall d
    have hexec {k : Hw} (hk : slotResume r d v s.hw = k) : exec (.slotResume r d v) s = .next { s with hw := k } := by
      show execSlotResume r d v s = _
      rw [execSlotResume, State.onHw_up _ _ hup, hk]
    refine ⟨fun hwait => hexec ?_, fun y hheld hdrained => ?_⟩
    · have hnone : (if s.hw.drained ms then x.heldW else none) = none := by
        rcases hwait with hwait | hwait
        · rw [hwait, ite_self]
        · rw [hwait]
          exact if_neg Bool.false_ne_true
      rw [slotResume, Hw.guardWrite_accepted _ _ _ hclear hacc hbell]
      dsimp only
      rw [hslot]
      dsimp only
      rw [hnone]
    · intro cv a h h'
      refine hexec ?_
      rw [slotResume, Hw.guardWrite_accepted _ _ _ hclear hacc hbell]
      dsimp only
      rw [hslot]
      dsimp only
      rw [if_pos hdrained, hheld]
  · intro k kept
    exact ⟨fun last => rfl, choose_cases hslot⟩

/-! ### Groups -/

theorem bitsOf_low2 (v : Nat) : bitsOf v 1 0 = (bitOf v 0).toNat + 2 * (bitOf v 1).toNat := by
  unfold bitsOf bitOf
  rw [Nat.toNat_testBit, Nat.toNat_testBit]
  omega

/-- An action bit of GRP_CTL leaves the other fields of a write. -/
theorem grpCtl_fields (v : Word) {w : Word} (hw : w = 1 ∨ w = 2) :
    (v ||| w).toNat &&& 0xC = v.toNat &&& 0xC ∧ bitsOf (v ||| w).toNat 3 2 = bitsOf v.toNat 3 2 := by
  have hlow : w.toNat &&& 0xC = 0 ∧ w.toNat >>> 2 = 0 := by rcases hw with rfl | rfl <;> decide
  refine ⟨?_, ?_⟩
  · rw [BitVec.toNat_or, Nat.and_or_distrib_right, hlow.1, Nat.or_zero]
  · rw [bitsOf, bitsOf, BitVec.toNat_or, ← Nat.shiftRight_eq_div_pow, Nat.shiftRight_or_distrib, hlow.2, Nat.or_zero, Nat.shiftRight_eq_div_pow]

/-- What the action bits of GRP_CTL read once one of them is set. -/
theorem grpCtl_acts (v : Word) : bitsOf (v ||| 1).toNat 1 0 = (if bitOf v.toNat 1 then 3 else 1)
    ∧ bitsOf (v ||| 2).toNat 1 0 = (if bitOf v.toNat 0 then 3 else 2) := by
  have h1 : bitOf (1 : Word).toNat 0 = true ∧ bitOf (1 : Word).toNat 1 = false := by decide
  have h2 : bitOf (2 : Word).toNat 0 = false ∧ bitOf (2 : Word).toNat 1 = true := by decide
  rw [bitsOf_low2, bitsOf_low2, bitOf_or_same, bitOf_or_same, bitOf_or_same, bitOf_or_same, h1.1, h1.2, h2.1, h2.2, Bool.or_true, Bool.or_true,
    Bool.or_false, Bool.or_false]
  cases bitOf v.toNat 0 <;> cases bitOf v.toNat 1 <;> decide

/-- A write of GRP_CTL that reaches it, by its action bits (R351). -/
theorem grpCtlWrite_acts {h : Hw} {r : Req} {d : Fin 4} {w : Word} (hclear : h.portHeld r = false) (hacc : h.accepts r (srvPage d.val) 0x098 = true) :
    let p := srvPage d.val
    let g := h.rd p 0x08C
    let k := h.wr p 0x098 (w.toNat &&& 0xC)
    let acts := bitsOf w.toNat 1 0
    let bound := (h.group g).slot.isSome
    (acts = 3 ∨ (acts ≠ 0 ∧ bound = true) → grpCtlWrite r d w h = h.badAccess (pageOff p 0x098))
    ∧ (bound = false → acts ≠ 3 → g = 0 → grpCtlWrite r d w h = k)
    ∧ (bound = false → acts = 1 → g ≠ 0 → grpCtlWrite r d w h = (k.confirm g (bitsOf w.toNat 3 2)).count p 0x0A0)
    ∧ (bound = false → acts = 2 → g ≠ 0 → grpCtlWrite r d w h = (k.rejectStep g (bitsOf w.toNat 3 2)).count p 0x0A4) := by
  intro p g k acts bound
  have hbell : doorbell (srvPage d.val) 0x098 = false := by
    have hall : ∀ d : Fin 4, doorbell (srvPage d.val) 0x098 = false := by decide
    exact hall d
  have hwrite : grpCtlWrite r d w h = if acts = 3 ∨ (acts ≠ 0 ∧ bound = true) then h.badAccess (pageOff p 0x098)
      else if g = 0 then k
      else if acts = 1 then (k.confirm g (bitsOf w.toNat 3 2)).count p 0x0A0
      else if acts = 2 then (k.rejectStep g (bitsOf w.toNat 3 2)).count p 0x0A4
      else k := by
    rw [grpCtlWrite, Hw.guardWrite_accepted _ _ _ hclear hacc hbell]
  have hgo (hfree : bound = false) (hacts : acts ≠ 3) : ¬ (acts = 3 ∨ (acts ≠ 0 ∧ bound = true)) :=
    fun hno => hno.elim hacts fun h => Bool.false_ne_true (hfree.symm.trans h.2)
  refine ⟨fun hno => hwrite.trans (if_pos hno), fun hfree hacts hg => ?_, fun hfree hacts hg => ?_, fun hfree hacts hg => ?_⟩
  · rw [hwrite, if_neg (hgo hfree hacts), if_pos hg]
  · rw [hwrite, if_neg (hgo hfree (by omega)), if_neg hg, if_pos hacts]
  · rw [hwrite, if_neg (hgo hfree (by omega)), if_neg hg, if_neg (by omega), if_pos hacts]

theorem groupControl : GroupControl := by
  intro s r d v p g step h refused hr
  obtain ⟨hup, hclear, hacc⟩ := hr
  have hconfirm {k : Hw} (hk : grpCtlWrite r d (v ||| 1) s.hw = k) : exec (.groupConfirm r d v) s = .next { s with hw := k } := by
    show execGroupConfirm r d v s = _
    rw [execGroupConfirm, State.onHw_up _ _ hup, hk]
  have hreject {k : Hw} (hk : grpCtlWrite r d (v ||| 2) s.hw = k) : exec (.groupReject r d v) s = .next { s with hw := k } := by
    show execGroupReject r d v s = _
    rw [execGroupReject, State.onHw_up _ _ hup, hk]
  obtain ⟨hbad1, hnone1, hact1, -⟩ := grpCtlWrite_acts (w := v ||| 1) hclear hacc
  obtain ⟨hbad2, hnone2, -, hact2⟩ := grpCtlWrite_acts (w := v ||| 2) hclear hacc
  obtain ⟨hkept1, hstep1⟩ := grpCtl_fields v (.inl rfl : (1 : Word) = 1 ∨ (1 : Word) = 2)
  obtain ⟨hkept2, hstep2⟩ := grpCtl_fields v (.inr rfl : (2 : Word) = 1 ∨ (2 : Word) = 2)
  obtain ⟨hacts1, hacts2⟩ := grpCtl_acts v
  rw [hacts1] at hbad1 hnone1 hact1
  rw [hacts2] at hbad2 hnone2 hact2
  rw [hkept1] at hnone1 hact1
  rw [hkept2] at hnone2 hact2
  rw [hstep1] at hact1
  rw [hstep2] at hact2
  refine ⟨fun hno => hconfirm (hbad1 ?_), fun hno => hreject (hbad2 ?_), fun hfree => ⟨fun hg => ⟨fun hbit => hconfirm (hnone1 hfree ?_ hg),
    fun hbit => hreject (hnone2 hfree ?_ hg)⟩, fun hg hbit => hconfirm (hact1 hfree ?_ hg), fun hg hbit => hreject (hact2 hfree ?_ hg)⟩⟩
  · rcases hno with hbound | hbit
    · refine .inr ⟨?_, hbound⟩
      split <;> decide
    · exact .inl (if_pos hbit)
  · rcases hno with hbound | hbit
    · refine .inr ⟨?_, hbound⟩
      split <;> decide
    · exact .inl (if_pos hbit)
  · rw [hbit]
    decide
  · rw [hbit]
    decide
  · rw [hbit]
    decide
  · rw [hbit]
    decide

/-! ### Candidates -/

/-- What the record of a step leaves of its conversation: a halt where the grammar's stack overflowed or no token is left. -/
def Hw.candEnd (h : Hw) (d ms : Nat) (x : SrvSlot) (res tr : List Byte) : Hw :=
  if (h.conv d x.conv).state ≠ cvACTIVE then h
  else if bitOf (bnum tr 12 4) 3 then h.haltSlot ms evHALTED cSTACK_OVERFLOW
  else if bnum res 0 2 = 0 then h.haltSlot ms evHALTED cDEAD_END
  else h

theorem Hw.candEnd_cases (h : Hw) (d ms : Nat) (x : SrvSlot) (res tr : List Byte) :
    let active : Bool := decide ((h.conv d x.conv).state = cvACTIVE)
    (active = false ∨ (bitOf (bnum tr 12 4) 3 = false ∧ bnum res 0 2 ≠ 0) → h.candEnd d ms x res tr = h)
    ∧ (active = true → bitOf (bnum tr 12 4) 3 = true → h.candEnd d ms x res tr = h.haltSlot ms evHALTED cSTACK_OVERFLOW)
    ∧ (active = true → bitOf (bnum tr 12 4) 3 = false → bnum res 0 2 = 0 → h.candEnd d ms x res tr = h.haltSlot ms evHALTED cDEAD_END) := by
  intro active
  have hactive (hyes : active = true) : ¬ (h.conv d x.conv).state ≠ cvACTIVE := not_not.mpr (of_decide_eq_true hyes)
  unfold Hw.candEnd
  refine ⟨fun hrest => ?_, fun hyes hover => ?_, fun hyes hover hnone => ?_⟩
  · by_cases hyes : active = true
    · obtain ⟨hover, hsome⟩ := hrest.resolve_left (by rw [hyes]; decide)
      rw [if_neg (hactive hyes), if_neg (by rw [hover]; decide), if_neg hsome]
    · exact if_pos fun hstate => hyes (decide_eq_true hstate)
  · rw [if_neg (hactive hyes), if_pos hover]
  · rw [if_neg (hactive hyes), if_neg (by rw [hover]; decide), if_pos hnone]

/-- What follows a record once it has been written. -/
def Hw.candWritten (h : Hw) (d ms : Nat) (x : SrvSlot) (t : List (Nat × Nat)) : Hw :=
  let h := t.reverse.foldl (fun h e => h.touch (srvMaster d) e.1 e.2) h
  let h := (h.setSlot ms { x with rel := x.rel + 1 }).noteSlot ms
  if pIrq x.params then h.raise (srvPage d) 10 else h

/-- A record whose step has committed is written, and then counts as released. -/
theorem candidateRecordRelease_reads {h k : Hw} {d : Fin 4} {slot : Fin 256} {x : SrvSlot} {res tr : List Byte} {t : List (Nat × Nat)} {made : Bool}
    {ms : Nat} (hms : 256 * d.val + slot.val = ms) (hslot : h.slot ms = some x)
    (hready : ¬ (x.done ≤ x.rel ∨ x.stopped = true ∨ h.isHeld (srvMaster d.val) = true
      ∨ (h.pair.outbound.any fun o => o.group = pGroup x.params ∧ o.step = x.rel % 4) = true))
    (hread : candSources h d.val x [] = .ok ((res, tr), t))
    (hput : Hw.srvWrites d.val [(pVa x.params 4 + 128 * (x.rel % 4) + 4, (candRecord h ms x res tr).drop 4),
      (pVa x.params 4 + 128 * (x.rel % 4), (candRecord h ms x res tr).take 4)] (h.seeBudget (h.slotTenant ms x)) = (k, made)) :
    candidateRecordRelease d slot h = if made then (k.candWritten d.val ms x t).candEnd d.val ms x res tr else k := by
  unfold candidateRecordRelease
  -- The writer stays a variable: the kernel would else compute it on the two words.
  obtain ⟨writes, hwrites⟩ : ∃ f, f = Hw.srvWrites := ⟨_, rfl⟩
  rw [← hwrites] at hput ⊢
  dsimp only
  rw [hms, hslot]
  dsimp only
  rw [if_neg hready, hread]
  dsimp only
  rw [hput]
  cases made
  · exact rfl
  · exact rfl

/-- An unbound slot, or one with no record to be written, leaves all as it is. -/
theorem candidateRecordRelease_idle {h : Hw} {d : Fin 4} {slot : Fin 256}
    (hidle : h.slot (256 * d.val + slot.val) = none ∨ ∃ x, h.slot (256 * d.val + slot.val) = some x
      ∧ (x.done ≤ x.rel ∨ x.stopped = true ∨ h.isHeld (srvMaster d.val) = true
        ∨ (h.pair.outbound.any fun o => o.group = pGroup x.params ∧ o.step = x.rel % 4) = true)) : candidateRecordRelease d slot h = h := by
  unfold candidateRecordRelease
  obtain ⟨writes, hwrites⟩ : ∃ f, f = Hw.srvWrites := ⟨_, rfl⟩
  rw [← hwrites]
  dsimp only
  rcases hidle with hnone | ⟨x, hslot, hwait⟩
  · rw [hnone]
  · rw [hslot]
    exact if_pos hwait

theorem provisionals {s : State} {d : Fin 4} {slot : Fin 256} {x : SrvSlot} (hup : Up s) (hslot : s.hw.slot (256 * d.val + slot.val) = some x) :
    let ms := 256 * d.val + slot.val
    (s.hw.enabled (srvPage d.val) = false ∨ s.hw.candidate x = none → exec (.provisionalCandidate d slot) s = .next s)
    ∧ ∀ n id c, s.hw.enabled (srvPage d.val) = true → s.hw.candidate x = some (n, id, c) →
      let h := s.hw.draw.updCmd id c.ptr fun c => { c with reported := true }
      let go : Bool := decide (1 ≤ bnum c.result 0 2 ∧ n + 1 ≤ x.c + pDepth x.params ∧ (h.conv d.val x.conv).state = cvACTIVE
        ∧ x.switch = false ∧ x.launched.all (·.step ≠ n + 1) = true)
      exec (.provisionalCandidate d slot) s = .next { s with hw := if go then h.launchSpec ms (n + 1) (bnum c.result 16 4) else h } := by
  intro ms
  have hprov {k : Hw} (hk : provisionalCandidate d slot s.hw = k) : exec (.provisionalCandidate d slot) s = .next { s with hw := k } := by
    show execProvisionalCandidate d slot s = _
    rw [execProvisionalCandidate, State.onHw_up _ _ hup, hk]
  refine ⟨fun hno => hprov ?_, fun n id c hon hcand => ?_⟩
  · have hnone : (if s.hw.enabled (srvPage d.val) then s.hw.candidate x else none) = none := by
      rcases hno with hno | hno
      · rw [hno]
        exact if_neg Bool.false_ne_true
      · rw [hno, ite_self]
    unfold provisionalCandidate
    dsimp only
    rw [hslot]
    dsimp only
    rw [hnone]
  · intro h go
    refine hprov ?_
    unfold provisionalCandidate
    dsimp only
    rw [hslot]
    dsimp only
    rw [if_pos hon, hcand]
    dsimp only
    simp only [go, decide_eq_true_eq]
    exact rfl

theorem candidates : Candidates := by
  intro s d slot hup ms m
  have hrec {k : Hw} (hk : candidateRecordRelease d slot s.hw = k) : exec (.candidateRecordRelease d slot) s = .next { s with hw := k } := by
    show execCandidateRecordRelease d slot s = _
    rw [execCandidateRecordRelease, State.onHw_up _ _ hup, hk]
  refine ⟨fun hnone => ⟨?_, hrec ?_⟩, fun x hslot => ?_⟩
  · show execProvisionalCandidate d slot s = _
    rw [execProvisionalCandidate, State.onHw_up _ _ hup]
    unfold provisionalCandidate
    dsimp only
    rw [hnone]
  · exact candidateRecordRelease_idle (.inl hnone)
  obtain ⟨hidle, hlaunch⟩ := provisionals hup hslot
  refine ⟨hidle, hlaunch, fun hwait => hrec ?_, fun res tr t k hlag hgo hfree hsent hread => ?_⟩
  · exact candidateRecordRelease_idle (.inr ⟨x, hslot, hwait⟩)
  · have hready : ¬ (x.done ≤ x.rel ∨ x.stopped = true ∨ s.hw.isHeld m = true
        ∨ (s.hw.pair.outbound.any fun o => o.group = pGroup x.params ∧ o.step = x.rel % 4) = true) := by
      rintro (hno | hno | hno | hno)
      · omega
      · exact Bool.false_ne_true (hgo.symm.trans hno)
      · exact Bool.false_ne_true (hfree.symm.trans hno)
      · obtain ⟨o, ho, hsame⟩ := List.any_eq_true.1 hno
        exact hsent o ho (of_decide_eq_true hsame)
    intro bs va put
    refine ⟨fun hput => hrec ?_, fun hput => ?_⟩
    · rw [candidateRecordRelease_reads rfl hslot hready hread hput, if_neg Bool.false_ne_true]
    · intro h₀ h₁ h active
      have hrun : candidateRecordRelease d slot s.hw = h.candEnd d.val ms x res tr := by
        rw [candidateRecordRelease_reads rfl hslot hready hread hput, if_pos rfl]
        exact rfl
      obtain ⟨hrest, hover, hdead⟩ := h.candEnd_cases d.val ms x res tr
      exact ⟨fun hno => hrec (hrun.trans (hrest hno)), fun hyes hfull => hrec (hrun.trans (hover hyes hfull)),
        fun hyes hfull hnone => hrec (hrun.trans (hdead hyes hfull hnone))⟩

/-! ### Scans and events -/

/-- From `h` to `k` the queues stand, and a serving unit's slots and the time of its last scan. -/
def Hw.SlotsStand (d : Nat) (h k : Hw) : Prop :=
  k.queues = h.queues ∧ (k.srvUnit d).lastTtl = (h.srvUnit d).lastTtl ∧ (k.srvUnit d).slots = (h.srvUnit d).slots

section
variable {d : Nat} {a b c : Hw}

theorem Hw.SlotsStand.refl : Hw.SlotsStand d a a := ⟨rfl, rfl, rfl⟩

theorem Hw.SlotsStand.trans (h : Hw.SlotsStand d a b) (k : Hw.SlotsStand d b c) : Hw.SlotsStand d a c := by
  obtain ⟨hq, ht, hs⟩ := h
  obtain ⟨kq, kt, ks⟩ := k
  exact ⟨kq.trans hq, kt.trans ht, ks.trans hs⟩

theorem Hw.SlotsStand.of_eq (hq : b.queues = a.queues) (hs : b.srv = a.srv) : Hw.SlotsStand d a b := by
  unfold Hw.SlotsStand Hw.srvUnit
  rw [hq, hs]
  exact ⟨rfl, rfl, rfl⟩

end

theorem Hw.srvUnit_setSrvUnit (h : Hw) (d : Nat) (u : SrvUnit) : (h.setSrvUnit d u).srvUnit d = u := by
  rw [Hw.srvUnit, Hw.setSrvUnit, alGet_alPut_same, Option.getD_some]

theorem Hw.storeTier_srv (h : Hw) (k : Nat) (bs : List Byte) : (h.storeTier k bs).srv = h.srv ∧ (h.storeTier k bs).queues = h.queues := by
  unfold Hw.storeTier
  split
  · exact ⟨rfl, rfl⟩
  · exact ⟨rfl, rfl⟩

theorem Hw.storeTier_mem_congr {h k : Hw} (hmem : h.mem = k.mem) (key : Nat) (bs : List Byte) : (h.storeTier key bs).mem = (k.storeTier key bs).mem := by
  unfold Hw.storeTier
  split
  · exact congrArg (memStore key bs) hmem
  · exact hmem

/-- An event that goes to the ring: its bytes, and the tail one on. -/
theorem Hw.putEvent_gives (h : Hw) (d : Fin 4) (bs : List Byte) :
    (h.putEvent d.val bs).rd (srvPage d.val) 0x064 = (h.rd (srvPage d.val) 0x064 + 1) % 0x100000000
    ∧ (h.putEvent d.val bs).mem = (h.storeTier (h.tierBase (srvPage d.val) 0x054 4
        + 16 * (h.rd (srvPage d.val) 0x064 % 2 ^ h.rd (srvPage d.val) 0x05C)) bs).mem
    ∧ (h.putEvent d.val bs).srv = h.srv ∧ (h.putEvent d.val bs).queues = h.queues := by
  have hpage : srvPage d.val ≠ 4 := by unfold srvPage; omega
  unfold Hw.putEvent
  dsimp only
  generalize hk : h.storeTier (h.tierBase (srvPage d.val) 0x054 4 + 16 * (h.rd (srvPage d.val) 0x064 % 2 ^ h.rd (srvPage d.val) 0x05C)) bs = k
  obtain ⟨hsrv, hqueues⟩ := hk ▸ h.storeTier_srv _ bs
  have hlines := (k.wr (srvPage d.val) 0x064 (h.rd (srvPage d.val) 0x064 + 1)).raise_lines (srvPage d.val) 8
  refine ⟨?_, ?_, ?_, ?_⟩
  · rw [Hw.raise_rd_other _ hpage (by decide) (by decide), Hw.rd_wr_same]
  · rw [hlines.mem, Hw.wr_mem]
  · rw [hlines.srv, Hw.wr_srv, hsrv]
  · rw [hlines.queues, Hw.wr_queues, hqueues]

theorem Hw.setEvents_stand (h : Hw) (d : Nat) (es : List (List Byte)) : Hw.SlotsStand d h (h.setSrvUnit d { h.srvUnit d with events := es }) := by
  refine ⟨rfl, ?_, ?_⟩
  · rw [Hw.srvUnit_setSrvUnit]
  · rw [Hw.srvUnit_setSrvUnit]

theorem Hw.srvEvent_stand (h : Hw) (d : Fin 4) (conv slot type code version : Nat) :
    Hw.SlotsStand d.val h (h.srvEvent d.val conv slot type code version) := by
  unfold Hw.srvEvent
  dsimp only
  split
  · obtain ⟨-, -, hsrv, hqueues⟩ := h.putEvent_gives d (leBytes 4 (conv + slot * 0x100000 + type * 0x10000000) ++ leBytes 4 (code + version * 0x10000)
      ++ leBytes 8 h.time)
    exact .of_eq hqueues hsrv
  · exact (h.setEvents_stand ..).trans (.of_eq (Hw.count_queues ..) (Hw.count_srv ..))

theorem Hw.putConv_stand (h : Hw) (d n : Nat) (c : Conv) : Hw.SlotsStand d h (h.putConv d n c) := by
  obtain ⟨hsrv, hqueues⟩ := h.storeTier_srv (h.convKey d n) c.bytes
  rw [Hw.putConv]
  obtain ⟨k, hk⟩ : ∃ k, k = h.storeTier (h.convKey d n) c.bytes := ⟨_, rfl⟩
  rw [← hk] at hsrv hqueues ⊢
  exact .trans (.of_eq hqueues hsrv) (.of_eq rfl rfl)

theorem Hw.sendChanges_stand (h : Hw) (d q : Nat) : Hw.SlotsStand d h (h.sendChanges q) := by
  unfold Hw.sendChanges
  split
  · exact .refl
  · have hpacket := h.sendPacket_packet (h.mirrorPort q) none 0 0 none [] []
    exact .of_eq (by rw [hpacket]) (by rw [hpacket])

/-- One turn of a scan of the conversations. -/
theorem Hw.ttlTurn_stand (h : Hw) (d : Fin 4) (n : Nat) :
    let cv := h.conv d.val n
    Hw.SlotsStand d.val h (if cv.state = cvPARKED ∧ cv.deadline ≤ h.time ∧ h.ownsConv n = true then
        ((h.putConv d.val n { cv with state := cvEXPIRED }).count (srvPage d.val) 0x0B8).srvEvent d.val n 0 evEXPIRED 0 0
      else h) := by
  intro cv
  split
  · exact ((h.putConv_stand ..).trans (.of_eq (Hw.count_queues ..) (Hw.count_srv ..))).trans (Hw.srvEvent_stand ..)
  · exact .refl

theorem scansAndEvents : ScansAndEvents := by
  intro s d hup p u hold ttl busy
  have hholdScan {k : Hw} (hk : holdScan d s.hw = k) : exec (.holdScan d) s = .next { s with hw := k } := by
    show execHoldScan d s = _
    rw [execHoldScan, State.onHw_up _ _ hup, hk]
  have httlScan {k : Hw} (hk : ttlScan d s.hw = k) : exec (.ttlScan d) s = .next { s with hw := k } := by
    show execTtlScan d s = _
    rw [execTtlScan, State.onHw_up _ _ hup, hk]
  have hevent {k : Hw} (hk : eventWrite d s.hw = k) : exec (.eventWrite d) s = .next { s with hw := k } := by
    show execEventWrite d s = _
    rw [execEventWrite, State.onHw_up _ _ hup, hk]
  refine ⟨fun hno => hholdScan (if_pos ?_), fun hon hsome hdue hfree => hholdScan (if_neg ?_), fun hno => httlScan (if_pos ?_),
    fun hon hsome hdue hidle => ⟨_, httlScan (if_neg ?_), ?_⟩, fun hnone => hevent ?_, fun bs rest hevents => ⟨fun hfull => hevent ?_, fun hroom => ?_⟩⟩
  · rcases hno with hno | hno | hno | hno
    · rw [show s.hw.enabled (srvPage d.val) = false from hno]
      rfl
    · simp only [show bitsOf (s.hw.rd (srvPage d.val) 0x044) 31 16 * 0x100000 = 0 from hno, beq_self_eq_true, Bool.or_true, Bool.true_or]
    · simp only [decide_eq_true (show s.hw.time < (s.hw.srvUnit d.val).lastHold + bitsOf (s.hw.rd (srvPage d.val) 0x044) 31 16 * 0x100000 from hno),
        Bool.or_true, Bool.true_or]
    · rw [hno, Bool.or_true]
  · intro hno
    simp only [Bool.or_eq_true, Bool.not_eq_true', beq_iff_eq, decide_eq_true_eq] at hno
    rcases hno with ((hno | hno) | hno) | hno
    · exact Bool.false_ne_true (hno.symm.trans hon)
    · exact hsome hno
    · exact absurd hdue (not_le.2 hno)
    · exact Bool.false_ne_true (hfree.symm.trans hno)
  · rcases hno with hno | hno | hno | hno
    · rw [show s.hw.enabled (srvPage d.val) = false from hno]
      rfl
    · simp only [show bitsOf (s.hw.rd (srvPage d.val) 0x044) 15 0 * 0x100000 = 0 from hno, beq_self_eq_true, Bool.or_true, Bool.true_or]
    · simp only [decide_eq_true (show s.hw.time < (s.hw.srvUnit d.val).lastTtl + bitsOf (s.hw.rd (srvPage d.val) 0x044) 15 0 * 0x100000 from hno),
        Bool.or_true, Bool.true_or]
    · rw [show ((List.range 4).any fun q => (s.hw.qs ⟨.stage d .srv, q⟩).cmds.any (·.finished)) = true from hno, Bool.or_true]
  · intro hno
    simp only [Bool.or_eq_true, Bool.not_eq_true', beq_iff_eq, decide_eq_true_eq] at hno
    rcases hno with ((hno | hno) | hno) | hno
    · exact Bool.false_ne_true (hno.symm.trans hon)
    · exact hsome hno
    · exact absurd hdue (not_le.2 hno)
    · exact Bool.false_ne_true (hidle.symm.trans hno)
  · generalize hstart : s.hw.setSrvUnit d.val { s.hw.srvUnit d.val with lastTtl := s.hw.time } = h
    have hfirst : h.srvUnit d.val = { s.hw.srvUnit d.val with lastTtl := s.hw.time } := by rw [← hstart, Hw.srvUnit_setSrvUnit]
    have hqueues : h.queues = s.hw.queues := by rw [← hstart]; rfl
    obtain ⟨hq, ht, hs⟩ := (List.foldlRecOn (List.range (h.convs d.val)) _ (motive := fun k => Hw.SlotsStand d.val h k) .refl
      fun k hk n _ => hk.trans (k.ttlTurn_stand d n)).trans (Hw.sendChanges_stand _ d.val d.val)
    exact ⟨ht.trans (by rw [hfirst]), hq.trans hqueues, hs.trans (by rw [hfirst])⟩
  · unfold eventWrite
    rw [show (s.hw.srvUnit d.val).events = [] from hnone]
  · unfold eventWrite
    rw [show (s.hw.srvUnit d.val).events = bs :: rest from hevents]
    exact if_neg (by rw [hfull]; exact Bool.false_ne_true)
  · obtain ⟨h, hh⟩ : ∃ h, h = s.hw.setSrvUnit d.val { s.hw.srvUnit d.val with events := rest } := ⟨_, rfl⟩
    obtain ⟨htail, hmem, hsrv, -⟩ := h.putEvent_gives d bs
    have hregs : h.regs = s.hw.regs := by rw [hh]; rfl
    have hbase : h.tierBase (srvPage d.val) 0x054 4 = s.hw.tierBase (srvPage d.val) 0x054 4 := by
      rw [Hw.tierBase, Hw.tierBase, Hw.rd64, Hw.rd64, Hw.rd_of_regs hregs, Hw.rd_of_regs hregs]
    refine ⟨h.putEvent d.val bs, hevent ?_, ?_, ?_, ?_⟩
    · unfold eventWrite
      rw [show (s.hw.srvUnit d.val).events = bs :: rest from hevents, hh]
      exact if_pos hroom
    · rw [Hw.srvUnit, hsrv, hh, Hw.setSrvUnit, alGet_alPut_same, Option.getD_some]
    · rw [htail, Hw.rd_of_regs hregs]
    · have hbytes : h.mem = s.hw.mem := by rw [hh]; rfl
      rw [hmem, hbase, Hw.rd_of_regs hregs, Hw.rd_of_regs hregs]
      exact Hw.storeTier_mem_congr hbytes _ bs

/-- Settles O49: mailbox, groups, candidates, scans and events. -/
theorem servingBlock : Obligations.ServingBlock := ⟨mailbox, groupControl, candidates, scansAndEvents⟩

end Sys2Proof.Machine
end

section
/-! PROOF of O51: the pair of modules. What enters a state of the pair sets it, and what follows on the queues, the records and the
interrupts leaves it; a write of PAIR_CTL acts by the bits that it sets. -/

namespace Sys2Proof.Machine
open Sys2Proof.Claims

/-! ### What leaves the pair as it is -/

theorem Hw.enterSt_pair (h : Hw) (id : QId) (st : QSt) : (h.enterSt id st).pair = h.pair := by
  obtain ⟨m, q, hlines, -⟩ := h.enterSt_other id st
  exact hlines.pair

theorem Hw.drainDone_pair (h : Hw) (id : QId) : (h.drainDone id).pair = h.pair := by
  unfold Hw.drainDone
  dsimp only
  split
  · rw [Hw.enterSt_pair, Hw.setQs_pair]
  · rfl

theorem Hw.clearEnable_pair (h : Hw) (id : QId) : (h.clearEnable id).pair = h.pair := by
  unfold Hw.clearEnable
  split
  · rfl
  · rw [Hw.drainDone_pair, Hw.setQs_pair]
    exact Hw.wr_pair ..

theorem Hw.flushOwed_pair (id : QId) : ∀ (n : Nat) (h : Hw), (Hw.flushOwed id n h).pair = h.pair
  | 0, _ => rfl
  | n + 1, h => by
    rw [Hw.flushOwed_succ]
    split
    · rfl
    · split
      · rfl
      · rw [Hw.flushOwed_pair id n, Hw.setQs_pair, (h.writeRecord_outside id _).pair]

theorem Hw.releaseOwed_pair (h : Hw) (id : QId) (f : List Owed → List Owed) : (h.releaseOwed id f).pair = h.pair := by
  rw [Hw.releaseOwed, Hw.flushOwed_pair, Hw.setQs_pair]

theorem Hw.fold_pair {α : Type} (f : Hw → α → Hw) (hf : ∀ h a, (f h a).pair = h.pair) (l : List α) (h : Hw) : (l.foldl f h).pair = h.pair :=
  List.foldlRecOn l f (motive := fun k => k.pair = h.pair) rfl fun k hk a _ => (hf k a).trans hk

theorem Hw.sendOn_pair (h : Hw) (ps : List Nat) (m : LeashMsg) : (h.sendOn ps m).pair = h.pair :=
  Hw.fold_pair _ (fun _ _ => Hw.send_pair ..) ps h

theorem Hw.fence_pair (h : Hw) : h.fence.pair.state = psFENCED ∧ h.fence.pair.fullOwner = false := by
  have hfence : h.fence.pair = { h.pair with state := psFENCED, fullOwner := false, twinReady := false, toCopy := [], listLeft := 0, copied := [] } := by
    rw [Hw.fence, (Hw.raise_lines _ _ _).pair, Hw.fold_pair _ Hw.clearEnable_pair]
    exact rfl
  rw [hfence]
  exact ⟨rfl, rfl⟩

theorem Hw.forgetUnacked_pair (h : Hw) : h.forgetUnacked.pair = { h.pair with outbound := [], partials := [] } := by
  rw [Hw.forgetUnacked, Hw.fold_pair _ fun _ _ => Hw.releaseOwed_pair ..]
  exact rfl

/-! ### The mirror -/

theorem mirrorPackets : MirrorPackets := by
  refine ⟨fun s p pkt hup => ?_, fun s p hup => ?_⟩
  · intro good
    have hexec {k : Hw} (hk : mirrorPacketReceive p pkt s.hw = k) : exec (.mirrorPacketReceive p pkt) s = .next { s with hw := k } := by
      show execMirrorPacketReceive p pkt s = _
      rw [execMirrorPacketReceive, State.onHw_up _ _ hup, hk]
    have hgood : (!s.hw.pairOn || !s.hw.watching || !(s.hw.port p.val).up) = true ↔ ¬ good := by
      show _ ↔ ¬ (s.hw.pairOn = true ∧ s.hw.watching = true ∧ (s.hw.port p.val).up = true)
      cases s.hw.pairOn <;> cases s.hw.watching <;> cases (s.hw.port p.val).up <;> decide
    unfold mirrorPacketReceive at hexec
    refine ⟨fun hno => hexec (if_pos (hgood.2 hno)), fun hyes hbig => hexec ?_, fun hyes hfit => ?_⟩
    · rw [if_neg (fun h => hgood.1 h hyes), if_pos hbig]
    · intro h rest
      refine ⟨fun hpart => hexec ?_, fun hwhole => hexec ?_⟩
      · rw [if_neg (fun h => hgood.1 h hyes), if_neg (not_lt.2 hfit)]
        exact if_pos (by rw [hpart]; rfl)
      · rw [if_neg (fun h => hgood.1 h hyes), if_neg (not_lt.2 hfit)]
        exact if_neg (by rw [hwhole]; exact Bool.false_ne_true)
  · intro oldest
    have hexec {k : Hw} (hk : mirrorAck p s.hw = k) : exec (.mirrorAck p) s = .next { s with hw := k } := by
      show execMirrorAck p s = _
      rw [execMirrorAck, State.onHw_up _ _ hup, hk]
    unfold mirrorAck at hexec
    refine ⟨fun hnone => hexec ?_, fun o hsome => ?_⟩
    · rw [show (s.hw.pair.outbound.find? fun o => o.port = p.val) = none from hnone]
    · intro h
      refine ⟨fun hplain => hexec ?_, fun id hqueue => hexec ?_⟩
      · rw [show (s.hw.pair.outbound.find? fun o => o.port = p.val) = some o from hsome]
        dsimp only
        rw [hplain]
      · rw [show (s.hw.pair.outbound.find? fun o => o.port = p.val) = some o from hsome]
        dsimp only
        rw [hqueue]

/-! ### Heartbeats and loss -/

theorem heartbeats {s : State} (hup : Up s) :
    let c := s.hw.rd 0x012 0x108
    let period := 1000 * bitsOf c 7 0
    let st := s.hw.pair.state
    let due := s.hw.pairOn = true ∧ st ≠ psUNPAIRED ∧ st ≠ psFENCED ∧ s.hw.pair.lastSent + period ≤ s.hw.time
    (due → exec .heartbeatSend s = .next { s with
      hw := (s.hw.sendOn s.hw.twinPorts (.heartbeat st)).setPair fun x => { x with lastSent := s.hw.time } })
    ∧ (¬ due → exec .heartbeatSend s = .next s)
    ∧ ((s.hw.port 0).trained = true ∨ (s.hw.port 1).trained = true → s.hw.pair.lastHb + period * bitsOf c 11 8 ≤ s.hw.time →
        exec .heartbeatTimeout s = .next { s with hw := s.hw.declare 1 })
    ∧ (((s.hw.port 0).trained = false ∧ (s.hw.port 1).trained = false) ∨ s.hw.time < s.hw.pair.lastHb + period * bitsOf c 11 8 →
        exec .heartbeatTimeout s = .next s)
    ∧ (∀ t, s.hw.pair.downSince = some t → t + 1000 * bitsOf c 31 16 ≤ s.hw.time →
        exec .linkDownGrace s = .next { s with hw := s.hw.declare 2 })
    ∧ (∀ t, s.hw.pair.downSince = some t → s.hw.time < t + 1000 * bitsOf c 31 16 → exec .linkDownGrace s = .next s)
    ∧ (s.hw.pair.downSince = none → exec .linkDownGrace s = .next s)
    ∧ (st = psLOST → exec .twinLost s = .next { s with hw := s.hw.settleLoss.startAdopt })
    ∧ (st ≠ psLOST → exec .twinLost s = .next s) := by
  intro c period st due
  have hexec {cmd : Instr} {f : Hw → Hw} {k : Hw} (hcmd : exec cmd s = .next (s.onHw f)) (hk : f s.hw = k) : exec cmd s = .next { s with hw := k } := by
    rw [hcmd, State.onHw_up _ _ hup, hk]
  have hgrace (t : Nat) (hdown : s.hw.pair.downSince = some t) :
      linkDownGrace s.hw = if t + 1000 * bitsOf c 31 16 ≤ s.hw.time then s.hw.declare 2 else s.hw := by
    unfold linkDownGrace
    rw [hdown]
  refine ⟨fun hdue => hexec (cmd := .heartbeatSend) rfl (if_pos hdue), fun hdue => hexec (cmd := .heartbeatSend) rfl (if_neg hdue),
    fun hlink hlate => hexec (cmd := .heartbeatTimeout) rfl (if_pos ⟨hlink, hlate⟩),
    fun hno => hexec (cmd := .heartbeatTimeout) rfl (if_neg ?_),
    fun t hdown hlate => hexec (cmd := .linkDownGrace) rfl ((hgrace t hdown).trans (if_pos hlate)),
    fun t hdown hearly => hexec (cmd := .linkDownGrace) rfl ((hgrace t hdown).trans (if_neg (not_le.2 hearly))),
    fun hdown => hexec (cmd := .linkDownGrace) (f := linkDownGrace) rfl ?_,
    fun hlost => hexec (cmd := .twinLost) rfl (if_pos hlost), fun hlost => hexec (cmd := .twinLost) rfl (if_neg hlost)⟩
  · rintro ⟨hlink, hlate⟩
    rcases hno with ⟨h0, h1⟩ | hearly
    · rw [h0, h1] at hlink
      exact hlink.elim Bool.false_ne_true Bool.false_ne_true
    · exact absurd hlate (not_le.2 hearly)
  · unfold linkDownGrace
    rw [hdown]

theorem heartbeatAnswers {s : State} {p : Fin 2} {x : Fin 8} (hup : Up s) :
    let h := s.hw.setPair fun x => { x with lastHb := s.hw.time }
    let took := x.val = psLOST ∨ x.val = psADOPTING ∨ x.val = psFULL
    ((s.hw.port p.val).up = true → exec (.withdrawNotice p) s = .next { s with hw := s.hw.declare 3 })
    ∧ (s.hw.pairOn = false ∨ (s.hw.port p.val).up = false → exec (.heartbeatReceive p x) s = .next s)
    ∧ (s.hw.pairOn = true → (s.hw.port p.val).up = true → s.hw.pair.state = psPAIRED →
      (took → exec (.heartbeatReceive p x) s = .next { s with hw := h.fence })
      ∧ (¬ took → exec (.heartbeatReceive p x) s = .next { s with hw := h }))
    ∧ (s.hw.pairOn = true → (s.hw.port p.val).up = true → s.hw.pair.state = psUNPAIRED ∨ s.hw.pair.state = psFENCED →
      s.hw.pair.twinReady = true → x.val = psRESYNC → ∃ k : Hw, exec (.heartbeatReceive p x) s = .next { s with hw := k }
        ∧ k.pair.state = psJOINING ∧ k.pair.lastHb = s.hw.time ∧ k.pair.outbound = []) := by
  intro h took
  have hexec {k : Hw} (hk : heartbeatReceive p x s.hw = k) : exec (.heartbeatReceive p x) s = .next { s with hw := k } := by
    show execHeartbeatReceive p x s = _
    rw [execHeartbeatReceive, State.onHw_up _ _ hup, hk]
  obtain ⟨taken, htaken⟩ : ∃ taken : Nat → Bool, taken = fun x => x == psLOST || x == psADOPTING || x == psFULL := ⟨_, rfl⟩
  have hrun (hon : s.hw.pairOn = true) (hlink : (s.hw.port p.val).up = true) : heartbeatReceive p x s.hw =
      if (s.hw.pair.state = psPAIRED ∧ taken x.val = true) ∨ (h.role = 1 ∧ taken s.hw.pair.state = true ∧ taken x.val = true) then h.fence
      else if (s.hw.pair.state = psUNPAIRED ∨ s.hw.pair.state = psFENCED) ∧ h.pair.twinReady = true ∧ x.val = psRESYNC then
        h.forgetUnacked.setPair fun x => { x with state := psJOINING, synced := false, mirrorBroken := false, adoptRefused := false }
      else h := by
    unfold heartbeatReceive
    dsimp only
    rw [if_neg (by rw [hon, hlink]; decide), htaken]
  have htook : taken x.val = true ↔ took := by
    rw [htaken]
    simp only [Bool.or_eq_true, beq_iff_eq, or_assoc]
    exact Iff.rfl
  have hpaired : taken psPAIRED = false := by rw [htaken]; decide
  refine ⟨fun hlink => ?_, fun hno => hexec (if_pos ?_), fun hon hlink hst => ⟨fun hyes => hexec ?_, fun hno => hexec ?_⟩,
    fun hon hlink hst hready hx => ⟨_, hexec ((hrun hon hlink).trans ((if_neg ?_).trans (if_pos ⟨hst, hready, hx⟩))), rfl, ?_, ?_⟩⟩
  · show execWithdrawNotice p s = _
    rw [execWithdrawNotice, State.onHw_up _ _ hup, if_pos hlink]
  · rcases hno with hno | hno
    · rw [hno]
      rfl
    · rw [hno, Bool.not_false, Bool.or_true]
  · exact (hrun hon hlink).trans (if_pos (.inl ⟨hst, htook.2 hyes⟩))
  · refine (hrun hon hlink).trans ((if_neg ?_).trans (if_neg ?_))
    · exact fun h => hno (htook.1 (h.elim (·.2) (·.2.2)))
    · rw [hst]
      exact fun h => absurd h.1 (by decide)
  · have hfree : taken x.val = false := by rw [hx, htaken]; decide
    rw [hfree]
    exact fun h => h.elim (fun h => Bool.false_ne_true h.2) fun h => Bool.false_ne_true h.2.2
  · exact congrArg Pair.lastHb h.forgetUnacked_pair
  · exact congrArg Pair.outbound h.forgetUnacked_pair

/-- A record of the trace leaves the registers of another page. -/
theorem Hw.traceEnter_pageKey (h : Hw) {p : Nat} (bs : List Byte) (htrc : p ≠ 0x008) (hirq : p ≠ 4) :
    Hw.Keeps (PageKey p) h (h.traceEnter bs) := by
  have hout : ¬ PageKey p (regKey (0x008 * 0x1000 + 0x058) 0) := not_pageKey (p' := 0x008) (blk := .trc) (i := 0) rfl rfl htrc (by omega)
  unfold Hw.traceEnter
  dsimp only
  split
  · refine Hw.Keeps.trans (Hw.Keeps.trans ?_ (Hw.count_keeps _ 1 hout)) (.of_regs rfl)
    split
    · exact h.raise_pageKey (blk := .trc) (i := 0) 1 rfl rfl htrc hirq
    · exact .refl h
  · split <;> exact .of_regs rfl

theorem Hw.trace_pageKey (h : Hw) {p : Nat} (r : TraceRec) (htrc : p ≠ 0x008) (hirq : p ≠ 4) : Hw.Keeps (PageKey p) h (h.trace r) := by
  unfold Hw.trace
  dsimp only
  split
  · exact Hw.Keeps.trans (.of_regs rfl) (Hw.traceEnter_pageKey _ _ htrc hirq)
  · exact .refl h

theorem twinPort_home {o : Nat} (ho : o < 0x1000) : PageKey 0x012 (regKey (0x012 * 0x1000 + o) 0) := by
  have hpage : pageOfOff (0x012 * 0x1000 + o) = 0x012 := by unfold pageOfOff; omega
  have hhome : homeOff (0x012 * 0x1000 + o) = 0x012 * 0x1000 + o := by
    unfold homeOff
    rw [hpage]
    show (if 0x100 ≤ inPage _ then 0x12 * 0x1000 + inPage _ else _) = _
    unfold inPage
    split <;> omega
  have hkey := regKey_div_four (0x012 * 0x1000 + o) 0
  unfold PageKey
  omega

/-- A record of the trace leaves the registers of the twin ports. -/
theorem Hw.trace_rd_twin (h : Hw) (r : TraceRec) {o : Nat} (ho : o < 0x1000) : (h.trace r).rd 0x012 o = h.rd 0x012 o :=
  (h.trace_pageKey r (by decide) (by decide)).rd (twinPort_home ho)

/-- The pair once a loss is declared outside a resynchronisation. -/
def Hw.lossNoted (h : Hw) (cause : Nat) : Hw :=
  ((h.setPair fun x => { x with
    state := if h.pair.state = psRESYNC then psFULL else psLOST
    cause := cause
    adoptRefused := x.adoptRefused || decide (h.pair.state = psJOINING)
    settled := false
    adoptAsked := false
    toCopy := []
    listLeft := 0
    copied := [] }).wr64 0x012 0x130 h.time).raise 0x012 3

theorem Hw.declare_eq {h : Hw} (cause : Nat) (hon : h.pairOn = true) (hwatch : h.watching = true) (hst : h.pair.state ≠ psRESYNC) :
    h.declare cause = { h.lossNoted cause with life := (h.lossNoted cause).life.bump 0x024 }.trace
      { type := 8, engine := 0, arg0 := 2, arg1 := cause } := by
  unfold Hw.declare
  rw [if_neg (by rw [hon, hwatch]; decide)]
  dsimp only
  rw [if_neg hst]
  exact rfl

theorem declaredLoss {h : Hw} {cause : Nat} :
    (h.pairOn = false ∨ h.watching = false → h.declare cause = h)
    ∧ (h.pairOn = true → h.pair.state = psPAIRED ∨ h.pair.state = psJOINING →
      let k := h.declare cause
      k.pair.state = psLOST ∧ k.pair.cause = cause ∧ k.pair.toCopy = [] ∧ (k.pair.adoptRefused = true ↔
        h.pair.adoptRefused = true ∨ h.pair.state = psJOINING)
      ∧ k.rd64 0x012 0x130 = h.time % 2 ^ 64 ∧ k.mem = h.mem ∧ k.queues = h.queues) := by
  refine ⟨fun hno => ?_, fun hon hst => ?_⟩
  · unfold Hw.declare
    refine if_pos ?_
    rcases hno with hno | hno
    · rw [hno]
      rfl
    · rw [hno, Bool.not_false, Bool.or_true]
  · have hwatch : h.watching = true := by
      rw [Hw.watching]
      rcases hst with hst | hst <;> rw [hst] <;> decide
    have hresync : h.pair.state ≠ psRESYNC := by rcases hst with hst | hst <;> rw [hst] <;> decide
    rw [Hw.declare_eq cause hon hwatch hresync]
    intro k
    obtain ⟨g, hg⟩ : ∃ g, g = h.lossNoted cause := ⟨_, rfl⟩
    have hpair : g.pair = { h.pair with
        state := psLOST, cause := cause, adoptRefused := h.pair.adoptRefused || decide (h.pair.state = psJOINING), settled := false
        adoptAsked := false, toCopy := [], listLeft := 0, copied := [] } := by
      rw [hg, Hw.lossNoted, (Hw.raise_lines _ _ _).pair, if_neg hresync]
      rfl
    have hmem : g.mem = h.mem := by
      rw [hg, Hw.lossNoted, (Hw.raise_lines _ _ _).mem]
      rfl
    have hqueues : g.queues = h.queues := by
      rw [hg, Hw.lossNoted, (Hw.raise_lines _ _ _).queues]
      rfl
    have hat (o : Nat) (hlow : 0x020 ≤ o) (ho : o < 0x1000) : k.rd 0x012 o = g.rd 0x012 o := by
      show (Hw.trace _ _).rd 0x012 o = _
      rw [Hw.trace_rd_twin _ _ ho, ← hg]
      exact Hw.rd_of_regs rfl _ _ _
    have htime : g.rd64 0x012 0x130 = h.time % 2 ^ 64 := by
      rw [hg, Hw.lossNoted, Hw.rd64, Hw.raise_rd_other _ (by decide) (by decide) (by decide),
        Hw.raise_rd_other _ (by decide) (by decide) (by decide), ← Hw.rd64, Hw.rd64_wr64_same _ _ _ (by decide)]
    have hk : k.pair = g.pair := by
      show (Hw.trace _ _).pair = _
      rw [(Hw.trace_outside _ _).pair, ← hg]
    rw [hk, hpair]
    refine ⟨rfl, rfl, rfl, ?_, ?_, ?_, ?_⟩
    · simp only [Bool.or_eq_true, decide_eq_true_eq]
    · rw [Hw.rd64, hat _ (by decide) (by decide), hat _ (by decide) (by decide), ← Hw.rd64, htime]
    · show (Hw.trace _ _).mem = _
      rw [Hw.trace_mem, ← hg]
      exact hmem
    · show (Hw.trace _ _).queues = _
      rw [(Hw.trace_outside _ _).queues, ← hg]
      exact hqueues

/-! ### Adoption and resynchronisation -/

theorem adoptionAndResync : AdoptionAndResync := by
  intro s hup st
  have hadopt {k : Hw} (hk : adoptionDone s.hw = k) : exec .adoptionDone s = .next { s with hw := k } := by
    show execAdoptionDone s = _
    rw [execAdoptionDone, State.onHw_up _ _ hup, hk]
  have hresync {k : Hw} (hk : resyncDone s.hw = k) : exec .resyncDone s = .next { s with hw := k } := by
    show execResyncDone s = _
    rw [execResyncDone, State.onHw_up _ _ hup, hk]
  refine ⟨fun hst => hadopt (if_pos hst), fun hst => ?_, fun hst => hresync ?_, fun hst hcopy hleft => ?_, fun hjoin hno => hresync ?_⟩
  · obtain ⟨g, hg⟩ : ∃ g, g = forN 1024 (fun ms h => h.adoptSlot ms) (forN 48 (fun n h => h.zeroTwin n) (allQueues.foldl Hw.adoptQueue s.hw)) :=
      ⟨_, rfl⟩
    have hdone : adoptionDone s.hw = ((g.setPair fun x => { x with state := psFULL, fullOwner := true }).raise 0x012 4).trace
        { type := 8, engine := 0, arg0 := 3 } := by
      unfold adoptionDone
      rw [if_neg (fun h => h hst), hg]
    have hpair : (((g.setPair fun x => { x with state := psFULL, fullOwner := true }).raise 0x012 4).trace
        { type := 8, engine := 0, arg0 := 3 }).pair = { g.pair with state := psFULL, fullOwner := true } := by
      rw [(Hw.trace_outside _ _).pair, (Hw.raise_lines _ _ _).pair]
      rfl
    exact ⟨_, hadopt hdone, by rw [hpair], by rw [hpair]⟩
  · unfold resyncDone
    rw [if_neg (fun h => absurd (hst.symm.trans h.1) (by decide)), if_pos hst]
  · obtain ⟨g, hg⟩ : ∃ g, g = s.hw.resyncRecords := ⟨_, rfl⟩
    have hdone : resyncDone s.hw = (g.enterPaired.setPair fun x =>
        { x with fullOwner := s.hw.pair.fullOwner, mirrorBroken := false, logRoom := s.hw.pair.logRoom }).raise 0x012 5 := by
      unfold resyncDone
      rw [if_pos ⟨hst, hcopy, hleft⟩, hg]
    have hpair : ((g.enterPaired.setPair fun x =>
        { x with fullOwner := s.hw.pair.fullOwner, mirrorBroken := false, logRoom := s.hw.pair.logRoom }).raise 0x012 5).pair
        = { g.enterPaired.pair with fullOwner := s.hw.pair.fullOwner, mirrorBroken := false, logRoom := s.hw.pair.logRoom } := by
      rw [(Hw.raise_lines _ _ _).pair]
      rfl
    exact ⟨_, hresync hdone, by rw [hpair]; rfl, by rw [hpair], by rw [hpair]⟩
  · unfold resyncDone
    rw [if_neg hno, if_neg hjoin]

/-! ### PAIR_CTL -/

/-- What a change of PAIR_CTL's enable does. -/
def Hw.enableChanged (h : Hw) (old new : Bool) : Hw :=
  if new == old then h else if new then h.pairReset.sendOn h.twinPorts .hello else h.pairReset

/-- What the action bits of PAIR_CTL do, in the order of their numbers. -/
def Hw.pairActions (h : Hw) (v : Nat) : Hw :=
  let h := if bitOf v 8 then (if h.pair.state = psLOST then h.setPair fun x => { x with adoptAsked := true } else h).startAdopt else h
  let h := if bitOf v 9 then h.declare 4 else h
  let h := if bitOf v 10 ∧ h.pairOn = true then h.withdraw else h
  let h := if bitOf v 11 then h.startResync else h
  if bitOf v 12 then h.handback else h

/-- Bits 7 and 5 to 0 hold the enable and the fields. -/
theorem pairFields_masked (v : Nat) : bitsOf (v &&& 0xBF) 5 1 = bitsOf v 5 1 ∧ bitOf (v &&& 0xBF) 0 = bitOf v 0 := by
  refine ⟨Nat.eq_of_testBit_eq fun i => ?_, ?_⟩
  · have hmask : ∀ j < 5, Nat.testBit 0xBF (j + 1) = true := by decide
    simp only [bitsOf, Nat.testBit_mod_two_pow, Nat.testBit_div_two_pow, Nat.testBit_and]
    by_cases hi : i < 5
    · rw [hmask i hi, Bool.and_true]
    · rw [decide_eq_false (by omega : ¬ i < 5 + 1 - 1), Bool.false_and, Bool.false_and]
  · simp [bitOf]

theorem pairCtlWrite_eq {s : State} {r : Req} (hr : Reaches s r 0x012 0x100) {v x : Word} (hx : x.toNat &&& 0xBF = v.toNat &&& 0xBF) :
    pairCtlWrite r x s.hw =
      if bitOf s.hw.pairCtl 0 ∧ bitsOf v.toNat 5 1 ≠ bitsOf s.hw.pairCtl 5 1 then s.hw.badAccess (pageOff 0x012 0x100)
      else ((s.hw.wr 0x012 0x100 (v.toNat &&& 0xBF)).enableChanged (bitOf s.hw.pairCtl 0) (bitOf v.toNat 0)).pairActions x.toNat := by
  obtain ⟨-, hclear, hacc⟩ := hr
  rw [pairCtlWrite, Hw.guardWrite_accepted _ _ _ hclear hacc (by decide), ← (pairFields_masked v.toNat).1, ← (pairFields_masked v.toNat).2,
    ← hx, (pairFields_masked x.toNat).1, (pairFields_masked x.toNat).2]
  rfl

/-- Without an action bit nothing starts. -/
theorem Hw.pairActions_none (h : Hw) {v : Nat} (hno : ∀ n, 8 ≤ n → n ≤ 12 → bitOf v n = false) : h.pairActions v = h := by
  simp [Hw.pairActions, hno]

theorem actionBits_clear {v : Nat} (hv : bitsOf v 12 8 = 0) {n : Nat} (hlo : 8 ≤ n) (hhi : n ≤ 12) : bitOf v n = false := by
  have hbit : (bitsOf v 12 8).testBit (n - 8) = v.testBit n := by
    rw [bitsOf, Nat.testBit_mod_two_pow, Nat.testBit_div_two_pow, decide_eq_true (by omega : n - 8 < 12 + 1 - 8), Bool.true_and]
    congr 1
    omega
  rw [bitOf, ← hbit, hv, Nat.zero_testBit]

/-- What starts depends on the action bits alone. -/
theorem Hw.pairActions_congr (h : Hw) {v w : Nat} (hbits : ∀ n, 8 ≤ n → n ≤ 12 → bitOf v n = bitOf w n) : h.pairActions v = h.pairActions w := by
  simp only [Hw.pairActions, hbits 8 (by decide) (by decide), hbits 9 (by decide) (by decide), hbits 10 (by decide) (by decide),
    hbits 11 (by decide) (by decide), hbits 12 (by decide) (by decide)]

theorem Hw.pairActions_withdraw (h : Hw) : h.pairActions 0x400 = if h.pairOn then h.withdraw else h := by
  show (if true = true ∧ h.pairOn = true then h.withdraw else h) = _
  simp only [true_and]

theorem pairCtlWrites {s : State} {r : Req} {v : Word} (hr : Reaches s r 0x012 0x100) :
    let old := s.hw.pairCtl
    let fields := bitsOf v.toNat 5 1 = bitsOf old 5 1
    let h := s.hw.wr 0x012 0x100 (v.toNat &&& 0xBF)
    (bitOf old 0 = true → ¬ fields → ∀ cmd, cmd ∈ [Instr.withdraw r v, .declareLost r v, .adopt (some r) v, .pairEnable r v, .resync r v,
        .handback r v] → exec cmd s = .next { s with hw := s.hw.badAccess (pageOff 0x012 0x100) })
    ∧ (bitOf old 0 = false ∨ fields → bitsOf v.toNat 12 8 = 0 → bitOf v.toNat 0 = bitOf old 0 →
      exec (.pairEnable r v) s = .next { s with hw := h }
      ∧ exec (.withdraw r v) s = .next { s with hw := if h.pairOn then h.withdraw else h }
      ∧ exec (.declareLost r v) s = .next { s with hw := h.declare 4 }
      ∧ exec (.adopt (some r) v) s = .next { s with
          hw := (if h.pair.state = psLOST then h.setPair fun x => { x with adoptAsked := true } else h).startAdopt }
      ∧ exec (.resync r v) s = .next { s with hw := h.startResync }
      ∧ exec (.handback r v) s = .next { s with hw := h.handback })
    ∧ (bitOf old 0 = false → bitOf v.toNat 0 = true →
      exec (.pairEnable r v) s = .next { s with hw := h.pairReset.sendOn h.twinPorts .hello })
    ∧ (bitOf old 0 = true → fields → bitOf v.toNat 0 = false → exec (.pairEnable r v) s = .next { s with hw := h.pairReset }) := by
  intro old fields h
  have hup : Up s := hr.1
  have hexec {cmd : Instr} {x : Word} {k : Hw} (hcmd : exec cmd s = .next (s.onHw (pairCtlWrite r x))) (hk : pairCtlWrite r x s.hw = k) :
      exec cmd s = .next { s with hw := k } := by rw [hcmd, State.onHw_up _ _ hup, hk]
  have hor (w : Word) (hw : w.toNat &&& 0xBF = 0) : (v ||| w).toNat &&& 0xBF = v.toNat &&& 0xBF := by
    rw [BitVec.toNat_or, Nat.and_or_distrib_right, hw, Nat.or_zero]
  have hand : (v &&& 0xBF).toNat &&& 0xBF = v.toNat &&& 0xBF := by
    rw [BitVec.toNat_and, Nat.and_assoc]
    rfl
  have hquiet (n : Nat) (hlo : 8 ≤ n) (hhi : n ≤ 12) : bitOf (v &&& 0xBF).toNat n = false := by
    have hmask : ∀ n ≤ 12, 8 ≤ n → bitOf (0xBF : Word).toNat n = false := by decide
    rw [bitOf_and_same, hmask n hhi hlo, Bool.and_false]
  refine ⟨fun hon hno cmd hcmd => ?_, fun hfree hv hsame => ?_, fun hoff hnew => ?_, fun hon hfields hnew => ?_⟩
  · have hbad {x : Word} (hx : x.toNat &&& 0xBF = v.toNat &&& 0xBF) : pairCtlWrite r x s.hw = s.hw.badAccess (pageOff 0x012 0x100) :=
      (pairCtlWrite_eq hr hx).trans (if_pos ⟨hon, hno⟩)
    simp only [List.mem_cons, List.not_mem_nil, or_false] at hcmd
    obtain rfl | rfl | rfl | rfl | rfl | rfl := hcmd
    · exact hexec (cmd := .withdraw r v) rfl (hbad (hor 0x400 rfl))
    · exact hexec (cmd := .declareLost r v) rfl (hbad (hor 0x200 rfl))
    · exact hexec (cmd := .adopt (some r) v) rfl (hbad (hor 0x100 rfl))
    · exact hexec (cmd := .pairEnable r v) rfl (hbad hand)
    · exact hexec (cmd := .resync r v) rfl (hbad (hor 0x800 rfl))
    · exact hexec (cmd := .handback r v) rfl (hbad (hor 0x1000 rfl))
  · have hno : ¬ (bitOf old 0 = true ∧ bitsOf v.toNat 5 1 ≠ bitsOf old 5 1) := by
      rintro ⟨hon, hne⟩
      exact hfree.elim (fun hoff => Bool.false_ne_true (hoff.symm.trans hon)) hne
    have hstays : h.enableChanged (bitOf old 0) (bitOf v.toNat 0) = h := if_pos (by rw [hsame]; exact beq_self_eq_true _)
    have hstored {x : Word} (hx : x.toNat &&& 0xBF = v.toNat &&& 0xBF) : pairCtlWrite r x s.hw = h.pairActions x.toNat := by
      refine (pairCtlWrite_eq hr hx).trans ((if_neg hno).trans ?_)
      rw [hstays]
    have hstarts (w : Word) (hw : w.toNat &&& 0xBF = 0) : pairCtlWrite r (v ||| w) s.hw = h.pairActions w.toNat := by
      refine (hstored (hor w hw)).trans (h.pairActions_congr fun n hlo hhi => ?_)
      rw [bitOf_or_same, actionBits_clear hv hlo hhi, Bool.false_or]
    exact ⟨hexec (cmd := .pairEnable r v) rfl ((hstored hand).trans (h.pairActions_none hquiet)),
      hexec (cmd := .withdraw r v) rfl ((hstarts 0x400 rfl).trans h.pairActions_withdraw),
      hexec (cmd := .declareLost r v) rfl (hstarts 0x200 rfl),
      hexec (cmd := .adopt (some r) v) rfl (hstarts 0x100 rfl),
      hexec (cmd := .resync r v) rfl (hstarts 0x800 rfl),
      hexec (cmd := .handback r v) rfl (hstarts 0x1000 rfl)⟩
  · refine hexec (cmd := .pairEnable r v) rfl ((pairCtlWrite_eq hr hand).trans ((if_neg ?_).trans ((Hw.pairActions_none _ hquiet).trans ?_)))
    · exact fun hon => Bool.false_ne_true (hoff.symm.trans hon.1)
    · unfold Hw.enableChanged
      rw [hoff, hnew]
      rfl
  · refine hexec (cmd := .pairEnable r v) rfl ((pairCtlWrite_eq hr hand).trans ((if_neg ?_).trans ((Hw.pairActions_none _ hquiet).trans ?_)))
    · exact fun hne => hne.2 hfields
    · unfold Hw.enableChanged
      rw [hon, hnew]
      rfl

theorem pairControl : PairControl := by
  refine ⟨fun s r v hr => pairCtlWrites hr, fun s v hup => ?_, fun h => ⟨fun hst => if_pos hst, fun hst => ?_, fun hst hfull hidle => ?_,
    fun hst hfull hbusy => ?_, fun hst hset hfree hask => ?_, fun hst hready => ?_, fun hno => if_neg ?_⟩⟩
  · show execAdopt none v s = _
    rw [execAdopt, State.onHw_up _ _ hup]
  · have hwithdraw : h.withdraw = (h.sendOn h.twinPorts .withdraw).fence := if_neg (by rw [hst]; decide)
    rw [hwithdraw]
    exact Hw.fence_pair _
  · have hhand : h.handback = h.setPair fun x => { x with fullOwner := false, handbackRefused := false } := by
      rw [Hw.handback, if_neg (by rw [hst, hfull]; decide), if_pos hidle]
    rw [hhand]
    rfl
  · have hhand : h.handback = h.setPair fun x => { x with handbackRefused := true } := by
      rw [Hw.handback, if_neg (by rw [hst, hfull]; decide), if_neg (by rw [hbusy]; decide)]
    rw [hhand]
    exact ⟨hfull, rfl⟩
  · have hadopt : h.startAdopt = h.setPair fun x => { x with state := psADOPTING } :=
      if_pos ⟨hst, hset, by rw [hfree]; rfl, .inl hask⟩
    rw [hadopt]
    rfl
  · have hwalk : h.startResync = _ := if_pos ⟨hst, hready⟩
    rw [hwalk]
    exact ⟨rfl, rfl⟩
  · rintro ⟨hst, hready⟩
    exact hno.elim (fun h => h hst) fun h => Bool.false_ne_true (h.symm.trans hready)

/-- Settles O51: each command of the pair, by what its state, its links and the bits written allow. -/
theorem twinPair : Obligations.TwinPair :=
  ⟨mirrorPackets, ⟨fun _ => heartbeats, fun _ _ _ => heartbeatAnswers, fun _ _ => declaredLoss⟩, adoptionAndResync, pairControl⟩

end Sys2Proof.Machine
end

section
/-! PROOF of O52: the Leash. Work queued on a port moves neither its link nor its lanes, so that a port that comes up or trains again
stays as the command left it; an exchange and an access follow the definitions by their outcomes. -/

namespace Sys2Proof.Machine
open Sys2Proof.Claims

/-! ### Ports -/

theorem listSet_get_other {α : Type} {l : List α} {i j : Nat} {b : α} (hne : i ≠ j) : (listSet l i b)[j]? = l[j]? := by
  induction l generalizing i j with
  | nil => rfl
  | cons x l ih =>
    cases i with
    | zero =>
      cases j with
      | zero => exact absurd rfl hne
      | succ j => rfl
    | succ i =>
      cases j with
      | zero => rfl
      | succ j => exact ih fun h => hne (congrArg Nat.succ h)

theorem Hw.port_setPort_same (h : Hw) {p : Nat} (f : LeashPort → LeashPort) (hp : p < h.ports.length) :
    (h.setPort p f).port p = f (h.port p) := by
  rw [Hw.port, Hw.setPort, listSet_get (List.getElem?_eq_getElem hp), Option.getD_some]

/-- What makes a port's link. -/
def LeashPort.link (l : LeashPort) : Bool × Bool × Bool × BitVec 8 := (l.up, l.trained, l.training, l.lanes)

/-- Flits that leave do not move the link. -/
theorem LeashPort.pump_link : ∀ (n : Nat) (l : LeashPort), (l.pump n).link = l.link
  | 0, _ => rfl
  | n + 1, l => by
    unfold LeashPort.pump
    split
    · rfl
    · split
      · rfl
      · exact LeashPort.pump_link n _

/-- From `h` to `k` only what waits on the ports, or is wanted of the twin, differs. -/
structure Hw.Queued (h k : Hw) : Prop where
  packet : Hw.PacketOnly h k
  link : ∀ p, (k.port p).link = (h.port p).link

theorem Hw.Queued.refl (h : Hw) : Hw.Queued h h := ⟨.refl h, fun _ => rfl⟩
theorem Hw.Queued.trans {a b c : Hw} (h : Hw.Queued a b) (k : Hw.Queued b c) : Hw.Queued a c :=
  ⟨h.packet.trans k.packet, fun p => (k.link p).trans (h.link p)⟩
theorem Hw.Queued.mem {h k : Hw} (hk : Hw.Queued h k) : k.mem = h.mem := by rw [hk.packet]
theorem Hw.Queued.queues {h k : Hw} (hk : Hw.Queued h k) : k.queues = h.queues := by rw [hk.packet]

theorem Hw.fold_queued {α : Type} {f : Hw → α → Hw} (hf : ∀ h a, Hw.Queued h (f h a)) (l : List α) (h : Hw) : Hw.Queued h (l.foldl f h) :=
  List.foldlRecOn (motive := Hw.Queued h) _ _ (.refl h) fun _ hk a _ => hk.trans (hf _ a)

theorem Hw.leashQueue_pair (h : Hw) (p vc n : Nat) : (h.leashQueue p vc n).pair = h.pair := by
  unfold Hw.leashQueue
  split <;> rfl

theorem Hw.leashQueue_queued (h : Hw) (q vc n : Nat) : Hw.Queued h (h.leashQueue q vc n) := by
  refine ⟨h.leashQueue_packet q vc n, fun p => ?_⟩
  unfold Hw.leashQueue
  split
  · rfl
  · rename_i l hl
    unfold Hw.port
    by_cases hq : q = p
    · subst hq
      dsimp only
      rw [listSet_get hl, hl]
      exact LeashPort.pump_link _ _
    · rw [listSet_get_other hq]

theorem Hw.handOver_queued (h : Hw) (p : Nat) : Hw.Queued h (h.handOver p) := by
  unfold Hw.handOver
  split
  · exact Hw.Queued.trans (b := h.setPair _) ⟨rfl, fun _ => rfl⟩ (Hw.fold_queued (fun k n => k.leashQueue_queued _ 0 n) _ _)
  · exact .refl h

theorem Hw.LinesOnly.port {h k : Hw} (hk : Hw.LinesOnly h k) (p : Nat) : k.port p = h.port p := by
  rw [Hw.port, hk.ports, Hw.port]

/-! ### A port comes up -/

/-- The port that its lanes make. -/
def Hw.setLink (h : Hw) (p : Nat) (lanes : BitVec 8) : Hw :=
  h.setPort p fun _ => { up := true, trained := true, lanes := if lanes = 0xFF then lanes else if (lanes &&& 0x0F) = 0x0F then 0x0F else 0xF0 }

/-- The same, with the port's source raised. -/
def Hw.linkUp (h : Hw) (p : Nat) (lanes : BitVec 8) : Hw := (h.setLink p lanes).raise (0x012 + p) 0

theorem Hw.linkUp_lines (h : Hw) (p : Nat) (lanes : BitVec 8) : Hw.LinesOnly (h.setLink p lanes) (h.linkUp p lanes) := Hw.raise_lines _ _ _

/-- What a twin port that comes up takes of the packets that no acknowledgement has come for. -/
def Hw.takeStuck (h : Hw) (p : Nat) : Hw :=
  let h := h.setPair fun x => { x with downSince := none }
  let stuck := if (h.port (1 - p)).trained then [] else h.pair.outbound.filter fun x => x.port = 1 - p
  let h := h.setPair fun x => { x with outbound := x.outbound.map fun y => if stuck.contains y then { y with port := p } else y }
  (h.pair.outbound.filter fun x => x.port = p).foldl (fun h x => h.leashQueue p 0 x.pkt.size) h

theorem Hw.takeStuck_queued (h : Hw) (p : Nat) : Hw.Queued h (h.takeStuck p) ∧ (h.takeStuck p).pair.downSince = none := by
  unfold Hw.takeStuck
  extract_lets g stuck k
  have hk : Hw.Queued h k := ⟨rfl, fun _ => rfl⟩
  refine ⟨hk.trans (Hw.fold_queued (fun k x => k.leashQueue_queued _ 0 _) _ _), ?_⟩
  rw [Hw.fold_pair _ fun k x => k.leashQueue_pair _ _ _]
  rfl

theorem linkTrained_up {p : Fin 4} {lanes : BitVec 8} {h : Hw} (hdown : (h.port p.val).trained = false) (hlanes : lanesMake lanes = true) :
    linkTrained p lanes h =
      (if p.val < 2 then (h.linkUp p.val lanes).takeStuck p.val else h.linkUp p.val lanes).send (.leash p.val .hello) := by
  unfold linkTrained
  rw [if_neg (by rw [hdown, hlanes]; decide)]
  rfl

theorem exec_linkTrained {s : State} {p : Fin 4} {lanes : BitVec 8} (hup : Up s) :
    let port := s.hw.port p.val
    (port.trained = true ∨ lanesMake lanes = false → exec (.linkTrained p lanes) s = .next s)
    ∧ (port.trained = false → lanesMake lanes = true → p.val < s.hw.ports.length → ∃ k : Hw,
      exec (.linkTrained p lanes) s = .next { s with hw := k } ∧ (k.port p.val).up = true ∧ (k.port p.val).trained = true
        ∧ (k.port p.val).lanes = (if lanes = 0xFF then 0xFF else if (lanes &&& 0x0F) = 0x0F then 0x0F else 0xF0)
        ∧ (p.val < 2 → k.pair.downSince = none) ∧ k.mem = s.hw.mem ∧ k.queues = s.hw.queues) := by
  intro port
  have hexec {k : Hw} (hk : linkTrained p lanes s.hw = k) : exec (.linkTrained p lanes) s = .next { s with hw := k } := by
    show execLinkTrained p lanes s = _
    rw [execLinkTrained, State.onHw_up _ _ hup, hk]
  refine ⟨fun hno => hexec (if_pos ?_), fun hdown hlanes hp => ?_⟩
  · rcases hno with hno | hno
    · rw [show (s.hw.port p.val).trained = true from hno]
      rfl
    · rw [hno, Bool.not_false, Bool.or_true]
  · obtain ⟨g, hg⟩ : ∃ g, g = s.hw.linkUp p.val lanes := ⟨_, rfl⟩
    have hlines : Hw.LinesOnly (s.hw.setLink p.val lanes) g := hg ▸ s.hw.linkUp_lines p.val lanes
    have hmem : g.mem = s.hw.mem := hlines.mem
    have hqueues : g.queues = s.hw.queues := hlines.queues
    have hlink : (g.port p.val).link = (true, true, false, if lanes = 0xFF then 0xFF else if (lanes &&& 0x0F) = 0x0F then 0x0F else 0xF0) := by
      rw [hlines.port, Hw.setLink, Hw.port_setPort_same _ _ hp]
      by_cases hall : lanes = 0xFF
      · rw [if_pos hall, LeashPort.link]
        dsimp only
        rw [if_pos hall, hall]
      · rw [if_neg hall, LeashPort.link]
        dsimp only
        rw [if_neg hall]
    obtain ⟨k, hk⟩ : ∃ k, k = if p.val < 2 then g.takeStuck p.val else g := ⟨_, rfl⟩
    have hqueued : Hw.Queued g k ∧ (p.val < 2 → k.pair.downSince = none) := by
      rw [hk]
      by_cases htwin : p.val < 2
      · rw [if_pos htwin]
        exact ⟨(g.takeStuck_queued p.val).1, fun _ => (g.takeStuck_queued p.val).2⟩
      · rw [if_neg htwin]
        exact ⟨.refl g, fun h => absurd h htwin⟩
    have hport : (k.port p.val).link = _ := (hqueued.1.link p.val).trans hlink
    have hup' := congrArg Prod.fst hport
    have htrained := congrArg (fun x => x.2.1) hport
    have hlane := congrArg (fun x => x.2.2.2) hport
    refine ⟨k.send (.leash p.val .hello), hexec ((linkTrained_up hdown hlanes).trans ?_), hup', htrained, hlane, hqueued.2,
      hqueued.1.mem.trans hmem, hqueued.1.queues.trans hqueues⟩
    rw [hk, hg]

/-! ### A port trains again -/

/-- The port as its training begins, before what it held goes by the other one. -/
def Hw.trainingBegun (h : Hw) (p : Nat) : Hw :=
  let h := { h with life := (List.range 8).foldl (fun l i => if (h.port p).lanes.getLsbD i then l.bump (0x560 + 4 * (8 * p + i)) else l) h.life }
  let h := ((h.setPort p fun _ => { training := true }).count (0x012 + p) 0x05C).raise (0x012 + p) 1
  if !(h.port 0).trained ∧ !(h.port 1).trained ∧ h.pair.downSince = none then h.setPair fun x => { x with downSince := some h.time } else h

theorem Hw.trainingBegun_port (h : Hw) {p : Nat} (hp : p < h.ports.length) :
    (h.trainingBegun p).port p = { training := true } ∧ (h.trainingBegun p).mem = h.mem ∧ (h.trainingBegun p).queues = h.queues := by
  unfold Hw.trainingBegun
  extract_lets g k
  have hlines : Hw.LinesOnly (g.setPort p fun _ => { training := true }) k := (Hw.count_regsOnly _ _ _ _).lines.trans (Hw.raise_lines _ _ _)
  have hport : k.port p = { training := true } := (hlines.port p).trans (g.port_setPort_same _ hp)
  split
  · exact ⟨hport, hlines.mem, hlines.queues⟩
  · exact ⟨hport, hlines.mem, hlines.queues⟩

theorem Hw.retrain_port {h : Hw} {p : Nat} :
    ((h.port p).training = true → h.retrain p = h)
    ∧ ((h.port p).training = false → p < h.ports.length → let k := h.retrain p
      (k.port p).trained = false ∧ (k.port p).up = false ∧ (k.port p).training = true ∧ k.mem = h.mem ∧ k.queues = h.queues) := by
  refine ⟨fun htrains => if_pos htrains, fun hidle hp => ?_⟩
  have hrun : h.retrain p = (h.trainingBegun p).handOver p := by
    unfold Hw.retrain
    rw [if_neg (by rw [hidle]; decide)]
    rfl
  rw [hrun]
  intro k
  obtain ⟨hport, hmem, hqueues⟩ := h.trainingBegun_port hp
  have hqueued : Hw.Queued (h.trainingBegun p) k := Hw.handOver_queued _ p
  have hlink : (k.port p).link = (false, false, true, 0) := by
    rw [hqueued.link, hport]
    rfl
  exact ⟨congrArg (fun x => x.2.1) hlink, congrArg (fun x => x.1) hlink, congrArg (fun x => x.2.2.1) hlink, hqueued.mem.trans hmem,
    hqueued.queues.trans hqueues⟩

theorem exec_linkRetrain {s : State} {p : Fin 4} {v : Word} (hup : Up s) :
    exec (.linkRetrain p none v) s = .next { s with hw := s.hw.retrain p.val }
    ∧ (∀ r, Reaches s r (0x012 + p.val) 0x040 → exec (.linkRetrain p (some r) v) s = .next { s with hw := s.hw.retrain p.val }) := by
  have hexec {r : Option Req} {k : Hw} (hk : linkRetrain p r v s.hw = k) : exec (.linkRetrain p r v) s = .next { s with hw := k } := by
    show execLinkRetrain p r v s = _
    rw [execLinkRetrain, State.onHw_up _ _ hup, hk]
  have hbell : ∀ p : Fin 4, (queueReg (0x012 + p.val) 0x0C 0x040 || mboxReg (0x012 + p.val) 0x040) = false ∧ doorbell (0x012 + p.val) 0x040 = false := by
    decide
  refine ⟨hexec rfl, fun r hr => hexec ?_⟩
  obtain ⟨-, hclear, hacc⟩ := hr
  have hbit : bitOf (v ||| 1).toNat 0 = true := by
    rw [bitOf_or_same]
    exact Bool.or_true _
  rw [linkRetrain, Hw.guardWrite_accepted _ _ _ hclear hacc (hbell p).2, if_pos hbit]

/-! ### Hellos -/

theorem exec_hello {s : State} {p : Fin 4} {msg : HelloMsg} (hup : Up s) :
    let port := s.hw.port p.val
    let peer := 2 * msg.pair.val + (if msg.role then 1 else 0)
    let mis : Bool := match s.hw.peerOf p.val with
      | none => true
      | some (m, q) => decide (msg.port.val ≠ q) || (decide (2 ≤ p.val) && decide (peer ≠ m))
    let h := (s.hw.wr64 (0x012 + p.val) 0x048 msg.serial.toNat).setPort p.val fun l =>
      { l with up := !mis, peer := peer % 8 + 8 * msg.port.val }
    (port.trained = false → exec (.hello p msg) s = .next s)
    ∧ (port.trained = true → mis = true → exec (.hello p msg) s = .next { s with
      hw := (h.handOver p.val).raise (0x012 + p.val) 2 })
    ∧ (port.trained = true → mis = false → (2 ≤ p.val ∨ h.pairOn = false) → exec (.hello p msg) s = .next { s with hw := h })
    ∧ (port.trained = true → mis = false → p.val < 2 → h.pairOn = true → exec (.hello p msg) s = .next { s with hw := h.pairHello p.val msg }) := by
  intro port peer mis h
  have hexec {k : Hw} (hk : hello p msg s.hw = k) : exec (.hello p msg) s = .next { s with hw := k } := by
    show execHello p msg s = _
    rw [execHello, State.onHw_up _ _ hup, hk]
  have hrun (hlink : port.trained = true) : hello p msg s.hw = if mis then (h.handOver p.val).raise (0x012 + p.val) 2
      else if p.val < 2 ∧ h.pairOn = true then h.pairHello p.val msg else h := by
    unfold hello
    exact if_neg (by rw [show (s.hw.port p.val).trained = true from hlink]; decide)
  refine ⟨fun hdown => hexec (if_pos ?_), fun hlink hmis => hexec ?_, fun hlink hmis hno => hexec ?_, fun hlink hmis htwin hon => hexec ?_⟩
  · rw [show (s.hw.port p.val).trained = false from hdown]
    rfl
  · exact (hrun hlink).trans (if_pos hmis)
  · refine (hrun hlink).trans ((if_neg ?_).trans (if_neg ?_))
    · rw [hmis]
      decide
    · rintro ⟨htwin, hon⟩
      exact hno.elim (fun h => absurd htwin (not_lt.2 h)) fun hoff => Bool.false_ne_true (hoff.symm.trans hon)
  · refine (hrun hlink).trans ((if_neg ?_).trans (if_pos ⟨htwin, hon⟩))
    rw [hmis]
    decide

theorem leashPorts : LeashPorts := by
  refine ⟨fun _ _ _ => exec_linkTrained, fun _ _ _ => exec_linkRetrain, fun _ _ => Hw.retrain_port, fun _ _ _ => exec_hello,
    fun s p seq hup => ?_⟩
  have hexec {k : Hw} (hk : retryRequest p seq s.hw = k) : exec (.retryRequest p seq) s = .next { s with hw := k } := by
    show execRetryRequest p seq s = _
    rw [execRetryRequest, State.onHw_up _ _ hup, hk]
  exact ⟨fun hlink => hexec (if_pos hlink), fun hdown => hexec (if_neg (by rw [hdown]; decide))⟩

/-! ### Flits -/

theorem exec_flitReceive {s : State} {p : Fin 4} {flit : List Byte} (hup : Up s) (hlen : flit.length = 256) :
    ((s.hw.port p.val).up = false → exec (.flitReceive p flit) s = .next s)
    ∧ ((s.hw.port p.val).up = true →
      (Config.leashFec flit = none → exec (.flitReceive p flit) s = .next { s with hw := (s.hw.count (0x012 + p.val) 0x054).askRetry p.val })
      ∧ (∀ f, Config.leashFec flit = some f →
        let h := if f = flit.take 240 then s.hw else s.hw.count (0x012 + p.val) 0x050
        (crc64 (f.take 232) = bnum f 232 8 → exec (.flitReceive p flit) s = .next { s with hw := h.goodFlit p.val f })
        ∧ (crc64 (f.take 232) ≠ bnum f 232 8 → exec (.flitReceive p flit) s = .next { s with
            hw := (h.count (0x012 + p.val) 0x054).askRetry p.val }))) := by
  have hexec {k : Hw} (hk : flitReceive p flit s.hw = k) : exec (.flitReceive p flit) s = .next { s with hw := k } := by
    show execFlitReceive p flit s = _
    rw [execFlitReceive, if_pos hlen, State.onHw_up _ _ hup, hk]
  unfold flitReceive at hexec
  refine ⟨fun hdown => hexec (if_pos (by rw [hdown]; rfl)), fun hlink => ?_⟩
  have hno : ¬ (!(s.hw.port p.val).up) = true := by
    rw [hlink]
    decide
  refine ⟨fun hlost => hexec ?_, fun f hmended => ?_⟩
  · rw [if_neg hno, hlost]
  · intro h
    refine ⟨fun hcrc => hexec ?_, fun hcrc => hexec ?_⟩
    · rw [if_neg hno, hmended]
      exact if_pos hcrc
    · rw [if_neg hno, hmended]
      exact if_neg hcrc

/-! ### Remote accesses -/

/-- A remote write lands, holds its port on a fault, or waits. -/
theorem Hw.leashDo_write (k : Hw) (p va : Nat) (bytes : List Byte) (ep : Bool) :
    let m := leashMaster p
    let h := k.demandFor m va bytes.length
    (∀ ps, h.place m va bytes = .ok ps → k.leashDo p (.write va bytes ep) = (h.landOutside m va bytes ps ep, true))
    ∧ (∀ cause level a, h.place m va bytes = .error (.fault cause level a) →
        k.leashDo p (.write va bytes ep) = (h.postFault m cause level a true 0 true, false))
    ∧ (h.place m va bytes = .error .wait → k.leashDo p (.write va bytes ep) = (h, false)) := by
  intro m h
  unfold Hw.leashDo
  dsimp only
  refine ⟨fun ps hplace => ?_, fun cause level a hfault => ?_, fun hwait => ?_⟩
  · rw [hplace]
  · rw [hfault]
  · rw [hwait]

/-- A remote read is answered with its bytes or as poisoned, holds its port on a fault, or waits. -/
theorem Hw.leashDo_read (k : Hw) (p va len : Nat) :
    let m := leashMaster p
    let g := k.demandFor m va len
    (∀ bs, g.read m va len = .ok bs → k.leashDo p (.read va len) = ((g.touch m va len).send (.leash p (.response bs)), true))
    ∧ (∀ a n, g.read m va len = .error (.ecc a n) → k.leashDo p (.read va len) = ((g.touch m va len).send (.leash p .poisoned), true))
    ∧ (∀ cause level a, g.read m va len = .error (.fault cause level a) →
        k.leashDo p (.read va len) = (g.postFault m cause level a false 0 true, false))
    ∧ (g.read m va len = .error .wait → k.leashDo p (.read va len) = (g, false)) := by
  intro m g
  unfold Hw.leashDo
  dsimp only
  refine ⟨fun bs hbytes => ?_, fun a n hecc => ?_, fun cause level a hfault => ?_, fun hwait => ?_⟩
  · rw [hbytes]
  · rw [hecc]
  · rw [hfault]
  · rw [hwait]

/-- A remote access of a port that nothing holds acts, and waits where it is not over. -/
theorem Hw.leashTry_free {h : Hw} {x : Nat × MemReq} (hfree : h.isHeld (leashMaster x.1) = false)
    (hfirst : (h.leashQ.any fun y => y.1 == x.1) = false) {g : Hw} {ended : Bool} (hdo : h.leashDo x.1 x.2 = (g, ended)) :
    h.leashTry x = if ended then g else { g with leashQ := g.leashQ ++ [x] } := by
  unfold Hw.leashTry
  rw [if_neg (by rw [hfree, hfirst]; decide), hdo]

theorem exec_remoteAccess {s : State} {p : Fin 4} {va len : Nat} {bytes : List Byte} (hup : Up s) :
    let m := leashMaster p.val
    let req (w : Bool) : Nat × MemReq := (p.val, if w then .write va bytes false else .read va len)
    let waits (w : Bool) (h : Hw) : Prop := exec (.remoteAccess p w va len bytes) s = .next { s with
      hw := { h with leashQ := h.leashQ ++ [req w] } }
    ((s.hw.port p.val).up = false → ∀ w, exec (.remoteAccess p w va len bytes) s = .next s)
    ∧ ((s.hw.port p.val).up = true → s.hw.isHeld m = true ∨ (s.hw.leashQ.any fun y => y.1 == p.val) = true → ∀ w, waits w s.hw)
    ∧ ((s.hw.port p.val).up = true → s.hw.isHeld m = false → (s.hw.leashQ.any fun y => y.1 == p.val) = false →
      let h := s.hw.demandFor m va bytes.length
      let g := s.hw.demandFor m va len
      (∀ ps, h.place m va bytes = .ok ps → exec (.remoteAccess p true va len bytes) s = .next { s with
        hw := h.landOutside m va bytes ps false })
      ∧ (∀ cause level a, h.place m va bytes = .error (.fault cause level a) → waits true (h.postFault m cause level a true 0 true))
      ∧ (h.place m va bytes = .error .wait → waits true h)
      ∧ (∀ bs, g.read m va len = .ok bs → exec (.remoteAccess p false va len bytes) s = .next { s with
        hw := (g.touch m va len).send (.leash p.val (.response bs)) })
      ∧ (∀ a n, g.read m va len = .error (.ecc a n) → exec (.remoteAccess p false va len bytes) s = .next { s with
        hw := (g.touch m va len).send (.leash p.val .poisoned) })
      ∧ (∀ cause level a, g.read m va len = .error (.fault cause level a) → waits false (g.postFault m cause level a false 0 true))
      ∧ (g.read m va len = .error .wait → waits false g)) := by
  intro m req waits
  have hexec {w : Bool} {k : Hw} (hk : remoteAccess p w va len bytes s.hw = k) :
      exec (.remoteAccess p w va len bytes) s = .next { s with hw := k } := by
    show execRemoteAccess p w va len bytes s = _
    rw [execRemoteAccess, State.onHw_up _ _ hup, hk]
  have hrun (hlink : (s.hw.port p.val).up = true) (w : Bool) : remoteAccess p w va len bytes s.hw = s.hw.leashTry (req w) :=
    if_neg (by rw [hlink]; decide)
  refine ⟨fun hdown w => hexec (if_pos (by rw [hdown]; rfl)), fun hlink hheld w => hexec ((hrun hlink w).trans (if_pos ?_)),
    fun hlink hfree hfirst => ?_⟩
  · rcases hheld with hheld | hheld
    · rw [show s.hw.isHeld (leashMaster (req w).1) = true from hheld, Bool.true_or]
    · rw [show (s.hw.leashQ.any fun y => y.1 == (req w).1) = true from hheld, Bool.or_true]
  · intro h g
    have hover {w : Bool} {k : Hw} (hdo : s.hw.leashDo p.val (req w).2 = (k, true)) :
        exec (.remoteAccess p w va len bytes) s = .next { s with hw := k } :=
      hexec ((hrun hlink w).trans (Hw.leashTry_free hfree hfirst hdo))
    have hwaits {w : Bool} {k : Hw} (hdo : s.hw.leashDo p.val (req w).2 = (k, false)) : waits w k :=
      hexec ((hrun hlink w).trans (Hw.leashTry_free hfree hfirst hdo))
    obtain ⟨hlands, hfaults, hmoves⟩ := s.hw.leashDo_write p.val va bytes false
    obtain ⟨hanswers, hpoison, hmissing, hbusy⟩ := s.hw.leashDo_read p.val va len
    exact ⟨fun ps hplace => hover (w := true) (hlands ps hplace), fun cause level a hfault => hwaits (w := true) (hfaults cause level a hfault),
      fun hwait => hwaits (w := true) (hmoves hwait), fun bs hbytes => hover (w := false) (hanswers bs hbytes),
      fun a n hecc => hover (w := false) (hpoison a n hecc), fun cause level a hfault => hwaits (w := false) (hmissing cause level a hfault),
      fun hwait => hwaits (w := false) (hbusy hwait)⟩

/-! ### Time -/

/-- The registers after an exchange that measured `off` and `hop`. -/
def Hw.offsetNoted (h : Hw) (p : Nat) (off hop : Int) : Hw := (h.draw.wr 0x012 0x150 (toSigned 32 off)).wr (0x012 + p) 0x064 (toSigned 32 hop)

/-- The counter stepped forward, which the trace records. -/
def Hw.stepTime (h : Hw) (off : Int) : Hw :=
  ({ h with time := h.time + off.toNat }.setBit 0x012 0x14C 2 true).trace { type := 8, engine := 0, arg0 := 4, arg1 := off.toNat }

theorem Hw.offsetNoted_offset (h : Hw) (p : Nat) (off hop : Int) : (h.offsetNoted p off hop).rd 0x012 0x150 = toSigned 32 off % 0x100000000 := by
  rw [Hw.offsetNoted, Hw.rd_wr_other _ _ (regKey_ne_of_inPage 0 0 (by omega)), Hw.rd_wr_same]

theorem Hw.stepTime_steps (h : Hw) (off : Int) : (h.stepTime off).time = h.time + off.toNat ∧ (h.stepTime off).mem = h.mem
    ∧ (h.stepTime off).queues = h.queues ∧ (h.stepTime off).rd 0x012 0x150 = h.rd 0x012 0x150 := by
  unfold Hw.stepTime
  refine ⟨(Hw.trace_notes _ _).time, (Hw.trace_notes _ _).mem, (Hw.trace_notes _ _).queues, ?_⟩
  rw [Hw.trace_rd_twin _ _ (by decide), Hw.setBit, Hw.rd_wr_other _ _ (regKey_ne_of_inPage 0 0 (by decide))]
  exact Hw.rd_of_regs rfl _ _ _

theorem exec_timeSync {s : State} {p : Fin 4} {t1 t2 t3 t4 : DWord} (hup : Up s) :
    let port := s.hw.port p.val
    let soon : Bool := s.hw.pair.synced && decide (s.hw.time < s.hw.pair.lastSync + 2 ^ s.hw.rd 0x012 0x148)
    let off := halfOf ((t2 - t1).toInt - (t4 - t3).toInt) s.hw.freeCtr
    (port.up = false ∨ s.hw.parentPort p.val = false ∨ soon = true → exec (.timeSync p t1 t2 t3 t4) s = .next s)
    ∧ (port.up = true → s.hw.parentPort p.val = true → soon = false → ∃ k : Hw, exec (.timeSync p t1 t2 t3 t4) s = .next { s with hw := k }
      ∧ k.pair.synced = true
      ∧ (s.hw.pair.synced = true ∨ off ≤ 1000000 → k.time = s.hw.time ∧ k.pair.slew = off ∧ k.pair.lastSync = s.hw.time)
      ∧ (s.hw.pair.synced = false → 1000000 < off → k.time = s.hw.time + off.toNat ∧ k.pair.slew = 0)
      ∧ k.rd 0x012 0x150 = toSigned 32 off % 0x100000000 ∧ k.mem = s.hw.mem ∧ k.queues = s.hw.queues) := by
  intro port soon off
  have hexec {k : Hw} (hk : timeSync p t1 t2 t3 t4 s.hw = k) : exec (.timeSync p t1 t2 t3 t4) s = .next { s with hw := k } := by
    show execTimeSync p t1 t2 t3 t4 s = _
    rw [execTimeSync, State.onHw_up _ _ hup, hk]
  refine ⟨fun hno => hexec (if_pos ?_), fun hlink hparent hdue => ?_⟩
  · rcases hno with hno | hno | hno
    · rw [show (s.hw.port p.val).up = false from hno]
      rfl
    · rw [hno, Bool.not_false, Bool.or_true, Bool.true_or]
    · rw [show (s.hw.pair.synced && decide (s.hw.time < s.hw.pair.lastSync + 2 ^ s.hw.rd 0x012 0x148)) = true from hno, Bool.or_true]
  · obtain ⟨first, hfirst⟩ : ∃ first : Bool, first = (!s.hw.pair.synced && decide (1000000 < off)) := ⟨_, rfl⟩
    obtain ⟨g, hg⟩ : ∃ g, g = s.hw.offsetNoted p.val off (halfOf ((t2 - t1).toInt + (t4 - t3).toInt) s.hw.freeCtr) := ⟨_, rfl⟩
    have hrun : timeSync p t1 t2 t3 t4 s.hw = (if first then g.stepTime off else g).setPair fun x =>
        { x with synced := true, lastSync := (if first then g.stepTime off else g).time, slew := if first then 0 else off, slewAcc := 0 } := by
      unfold timeSync
      rw [hg, hfirst]
      refine if_neg ?_
      rw [show (s.hw.port p.val).up = true from hlink, hparent,
        show (s.hw.pair.synced && decide (s.hw.time < s.hw.pair.lastSync + 2 ^ s.hw.rd 0x012 0x148)) = false from hdue]
      decide
    have htime : g.time = s.hw.time := by rw [hg]; rfl
    have hmem : g.mem = s.hw.mem := by rw [hg]; rfl
    have hqueues : g.queues = s.hw.queues := by rw [hg]; rfl
    have hoff : g.rd 0x012 0x150 = toSigned 32 off % 0x100000000 := by rw [hg, Hw.offsetNoted_offset]
    obtain ⟨htime', hmem', hqueues', hoff'⟩ := g.stepTime_steps off
    refine ⟨_, hexec hrun, rfl, fun hslews => ?_, fun hnew hfar => ?_, ?_⟩
    · have hno : first = false := by
        rw [hfirst]
        rcases hslews with hsynced | hnear
        · rw [hsynced]
          rfl
        · rw [decide_eq_false (not_lt.2 hnear), Bool.and_false]
      rw [hno]
      exact ⟨htime, rfl, htime⟩
    · have hyes : first = true := by
        rw [hfirst, hnew, decide_eq_true hfar]
        rfl
      rw [hyes]
      exact ⟨htime'.trans (by rw [htime]), rfl⟩
    · cases first
      · exact ⟨hoff, hmem, hqueues⟩
      · exact ⟨hoff'.trans hoff, hmem'.trans hmem, hqueues'.trans hqueues⟩

/-- Settles O52: each command of the Leash, by the port's link, the flit's check, and the outcome of the access. -/
theorem leash : Obligations.Leash :=
  ⟨leashPorts, fun _ _ _ => exec_flitReceive, fun _ _ _ _ _ => exec_remoteAccess, fun _ _ _ _ _ _ => exec_timeSync⟩

end Sys2Proof.Machine
end
